-- ==== Sys2Proof/Word.lean ====
section
/-! DEFINITION. The word types of the block's registers, sentences and records (R16: little-endian words,
two's complement). Everything that can be computed otherwise stands in Machine/Ops.lean. -/

namespace Sys2Proof

/-- A 32-bit register, sentence, record or coefficient word. -/
abbrev Word := BitVec 32

/-- A 64-bit value of a register pair, a count or a ledger counter. -/
abbrev DWord := BitVec 64

/-- A byte. -/
abbrev Byte := BitVec 8

/-- Control groups G0–G7 (R21). -/
abbrev Grp := Fin 8

/-- Main axes M0–M11. -/
abbrev Main := Fin 12

/-- Auxiliary axes A0–A7. -/
abbrev AuxNo := Fin 8

/-- DC links L0–L3. -/
abbrev LinkNo := Fin 4

/-- Feedback units 0–15: E0–E7, V0–V3, P0–P3 (R241). -/
abbrev FbNo := Fin 16

/-- CAN ports BUS0–BUS3. -/
abbrev Port := Fin 4

/-- STO groups 0–3 (R286). -/
abbrev StoNo := Fin 4

end Sys2Proof
end

