-- ==== Sys2Proof/Syntax.lean ====
section
/-! DEFINITION. The commands the block takes, one constructor for each row of spec/opcode_table.json, in the table's
order. The table gives its rows no operand fields and no bits: the operands are what the row's rule takes from outside
(a sampled level, captured bits, a received frame, a written word, the object concerned). -/

namespace Sys2Proof

/-- A phase of a main axis. -/
inductive Phase where
  | u | v | w
deriving DecidableEq, Repr

/-- A winding of an auxiliary axis (R210). -/
inductive Winding where
  | a | b
deriving DecidableEq, Repr

/-- The marver engines. -/
inductive EngineId where
  | a | b
deriving DecidableEq, Repr

/-- The captured bits of one SDI channel in a filter window, in capture order (R96). -/
structure ChannelBits where
  channel : Fin 32
  bits    : List Bool
deriving DecidableEq, Repr

/-- What the engines report when a pass or retry ends (R38, R314): whether the compared results agree, how many
words were read with a correctable error, and the bank-relative addresses each engine flagged uncorrectable. -/
structure SegmentResult where
  agree     : Bool
  corrected : Nat
  flaggedA  : List (Fin 16384)
  flaggedB  : List (Fin 16384)
deriving DecidableEq, Repr

/-- A generator: of a main axis or of an auxiliary axis. -/
inductive GenId where
  | main (m : Main)
  | aux (a : AuxNo)
deriving DecidableEq, Repr

/-- One outcome of a serial sensor frame (R268–R271): the bits clocked in after the start bit, in order, and the
two ways a frame ends without them. -/
structure SerialFrame where
  startSeen : Bool
  idleInTime : Bool
  bits      : List Bool
deriving DecidableEq, Repr

/-- One monitoring message (R288). -/
structure MonMessage where
  speed    : Vector Int 12
  sensor   : Vector Int 12
  healthy  : Vector Bool 12
  torque   : BitVec 4
  release  : BitVec 4
  close    : BitVec 4
  seq      : BitVec 16
deriving DecidableEq, Repr

/-- What arrives on one monitoring lane: the copy and whether its CRC checks (R289). -/
structure LaneCopy where
  crcOk : Bool
  msg   : MonMessage
deriving DecidableEq, Repr

/-- What a keeper message port message carries (R19). -/
inductive KeeperPayload where
  | parameters (crc : Word)                          -- the staged safety parameter set with its CRC
  | resetRequest
  | ledger                                           -- the ledger totals of the last transfer
  | temperature (tenths : Int)
deriving DecidableEq, Repr

/-- The stores the background scrub passes over (R325). -/
inductive ScrubStore where
  | sram | coefA | coefB | retention | configStore | firmware
deriving DecidableEq, Repr

/-- What a scrub pass found (R325, R326). `blocks` are configuration block numbers (copy × 32 + block) with a
corrected word, `words` the addresses of uncorrectable coefficient words; `inFirmwareData` tells where an
uncorrectable SRAM word lies; an image that failed its CRC is named, with whether the rewrite succeeded. -/
structure ScrubFinding where
  corrected      : Nat
  uncorrectable  : Nat
  words          : List (Fin 16384)
  blocks         : List (Fin 64)
  inFirmwareData : Bool
  badImage       : Option (Fin 2)
  rewriteOk      : Bool
deriving DecidableEq, Repr

/-- A host-link frame as clocked on HMOSI (R338): whole words, whether HCS_N rose inside a word, and whether a word
was clocked while HRDY was low. -/
structure HostFrame where
  words     : List Word
  partialWord : Bool
  hrdyLow   : Bool
deriving DecidableEq, Repr

/-- A CAN frame on a port (R395, R425). -/
structure CanFrame where
  ide  : Bool
  rtr  : Bool
  id   : BitVec 29
  fdf  : Bool
  brs  : Bool
  esi  : Bool
  dlc  : BitVec 4
  data : List Byte
deriving DecidableEq, Repr

/-- The kinds of LEC (R423). -/
inductive CanErrorKind where
  | stuff | form | ack | bit1 | bit0 | crc
deriving DecidableEq, Repr

/-- An error a port detects (R410, R413). `transmitter` tells whether the port was sending; `exempt` marks the cases in
which ISO 11898-1 leaves TEC unchanged; `heavy` marks the cases in which it adds 8 to REC; `postArb` carries the
identifier and format of a frame whose arbitration field ended without error, where the error came before its ACK
slot. -/
structure CanError where
  kind        : CanErrorKind
  dataPhase   : Bool
  transmitter : Bool
  exempt      : Bool
  heavy       : Bool
  postArb     : Option (Bool × BitVec 29)
deriving DecidableEq, Repr

/-- How a transmit attempt ends (R408), with the SOF stamp and the measured loop delay (R400). -/
inductive CanTxOutcome where
  | sent (stamp : BitVec 32) (tdcv : Nat)
  | lostArbitration
  | error
deriving DecidableEq, Repr

/-- The direction a cascade packet or link belongs to (R429). -/
inductive CxDir where
  | a | b
deriving DecidableEq, Repr

/-- What one module reports of one span in its STATUS packet (R437), with the settings that R439 compares. -/
structure SpanReport where
  span     : Fin 32
  ready    : Bool
  settings : List Int
  mains    : Nat
deriving DecidableEq, Repr

/-- What a cascade packet carries (R431, R437, R440). `early` tells by how many ns the receiver's own frame tick lies before the
sender's, as the arrival shows it less the delay measured at formation (R432); it is 0 in a packet the module sends. -/
inductive CxBody where
  | sync (tick : Nat) (master : Fin 8) (epoch : Byte) (early : Int)
  | exchange (span : Fin 32) (sample : Word) (values : List Int) (kappas : List Nat) (isRepeat emerg stop : Bool)
  | status (spans : List SpanReport)
deriving DecidableEq, Repr

/-- A cascade packet as it arrives (R434): direction, whether its CRC checks, its source and a number that tells the two
copies of one packet apart from other packets. -/
structure CxPacket where
  dir    : CxDir
  crcOk  : Bool
  source : Fin 8
  number : Nat
  body   : CxBody
deriving DecidableEq, Repr

/-- The outcome of ring formation (R430). -/
structure RingInfo where
  duplicate : Bool
  order     : List (Fin 8)
deriving DecidableEq, Repr

/-- A wake source of R458. -/
inductive WakeSource where
  | timer | host | bus (p : Port) | switch (i : Fin 8) | encoder (e : Fin 4) | klost
deriving DecidableEq, Repr

/-- What a cold start finds in its tests (R476, R480, R515). -/
structure ColdFindings where
  cores      : Vector Bool 3
  images     : Vector Bool 2
  rewriteOk  : Bool
  ramOk      : Bool
  engineA    : Bool
  engineB    : Bool
  senseOk    : Bool
  safetyTest : Bool
  pllOk      : Bool
  inTime     : Bool
  crystal    : Bool
  cxen       : Option Bool
  cxid       : Option (Fin 8)
  micros     : Nat
deriving DecidableEq, Repr

/-- What a warm start finds (R470, R477, R479). -/
structure WarmFindings where
  blockCrcOk  : Bool
  imageHeader : Bool
  cores       : Bool
  restoreOk   : Bool
  regionsOk   : Bool
  engineA     : Bool
  engineB     : Bool
  pllOk       : Bool
  inTime      : Bool
  crystal     : Bool
  encoderAB   : Vector (Bool × Bool) 4
  resolvers   : Vector (BitVec 16) 4
  micros      : Nat
deriving DecidableEq, Repr

/-- An output of the safety channel by index: 0–3 STO, 4–7 BRK, 8–11 CTD (R310). -/
abbrev SafeOut := Fin 12

/-- THE COMMANDS. One constructor per row of spec/opcode_table.json. Clocks are counted from the last frame tick in the
clock domain the rule names. -/
inductive Instr where
  /-- FRAME_TICK (R24). -/
  | frameTick
  /-- FILTER_RESULT_READY (R96). -/
  | filterResultReady (g : Option Grp) (window : List ChannelBits)
  /-- SEGMENT_COMPLETE (R38). -/
  | segmentComplete (r : SegmentResult)
  /-- CHECK_SET_DONE (R315). -/
  | checkSetDone (passA passB : Bool)
  /-- CLUSTER_CHECK_SET_START (R318). -/
  | clusterCheckSetStart
  /-- COMPUTE_DEADLINE (R42). -/
  | computeDeadline (g : Grp)
  /-- GLANCE_WINDOW_OPEN (R55). -/
  | glanceWindowOpen (m : Main) (fine : Nat)
  /-- GLANCE_WINDOW_CLOSE (R57). -/
  | glanceWindowClose (m : Main)
  /-- COMPARATOR_EDGE (R18). -/
  | comparatorEdge (m : Main) (phase : Phase) (rising : Bool) (cd4 : Nat)
  /-- SIX_STEP_COMMUTATION (R62). -/
  | sixStepCommutation (m : Main)
  /-- GATE_DRIVER_FAULT_INPUT (R90). -/
  | gateDriverFaultInput (m : Main) (low : Bool)
  /-- SC_FILTER_RESULT (R103). -/
  | scFilterResult (m : Main) (bitsA bitsB : List Bool)
  /-- BITSTREAM_STUCK (R98). -/
  | bitstreamStuck (channel : Fin 32)
  /-- CHOPPER_PERIOD_START (R105). -/
  | chopperPeriodStart (l : LinkNo) (bcf : Bool)
  /-- CHOPPER_FEEDBACK_MISMATCH (R106). -/
  | chopperFeedbackMismatch (l : LinkNo)
  /-- SAR_CONVERSION (R213). -/
  | sarConversion (a : AuxNo) (w : Winding) (code : BitVec 12)
  /-- AUX_OVERCURRENT (R229). -/
  | auxOvercurrent (a : AuxNo)
  /-- HYSTERESIS_CROSSING (R220). -/
  | hysteresisCrossing (a : AuxNo) (w : Winding) (upper rising : Bool) (cd12 : Nat)
  /-- ENCODER_EDGE (R247). -/
  | encoderEdge (e : Fin 8) (a b z : Bool) (cd6 : Nat)
  /-- SPEED_TIMEOUT (R258). -/
  | speedTimeout (n : FbNo)
  /-- SERIAL_FRAME_END (R271). -/
  | serialFrameEnd (p : Fin 4) (f : SerialFrame)
  /-- RESOLVER_EXCITATION_PERIOD (R267). -/
  | resolverExcitationPeriod (v : Fin 4) (amplitude : Nat) (angle : BitVec 16) (speed : Int)
  /-- RESOLVER_REVALIDATE (R267). -/
  | resolverRevalidate (v : Fin 4)
  /-- SWITCH_SAMPLE (R272). -/
  | switchSample (levels : BitVec 24) (cd6 : Nat)
  /-- CHATTER_CLEARED (R233). -/
  | chatterCleared (i : Fin 24)
  /-- KEEPER_ENCODER_SAMPLE (R273). -/
  | keeperEncoderSample (a b : BitVec 4)
  /-- CHECK_TIME_EXPIRY (R71). -/
  | checkTimeExpiry (m : Main)
  /-- ALIGNMENT_TIME_EXPIRY (R68). -/
  | alignmentTimeExpiry (m : Main)
  /-- PARISON_TIMEOUT (R69). -/
  | parisonTimeout (m : Main)
  /-- CATCH_TIMEOUT (R68). -/
  | catchTimeout (m : Main)
  /-- COAST_TIMEOUT (R75). -/
  | coastTimeout (m : Main)
  /-- RESYNC_TIMEOUT (R68). -/
  | resyncTimeout (m : Main)
  /-- LOSS_BRAKE_TIMEOUT (R76). -/
  | lossBrakeTimeout (m : Main)
  /-- HANDOVER_DEFERRAL_EXPIRY (R73). -/
  | handoverDeferralExpiry (m : Main)
  /-- SENSOR_HEALTHY_HOLD (R67). -/
  | sensorHealthyHold (m : Main)
  /-- SPEED_LIMIT (R51). -/
  | speedLimit (m : Main)
  /-- MODE_DEFERRAL_EXPIRY (R141). -/
  | modeDeferralExpiry (m : Main)
  /-- FOLLOWING_ERROR (R143). -/
  | followingError (m : Main)
  /-- EXCITATION_SEARCH_WINDOW (R168). -/
  | excitationSearchWindow (m : Main)
  /-- RELEASE_DWELL_EXPIRY (R163). -/
  | releaseDwellExpiry (g : Grp)
  /-- RECOVERY_TIME_EXPIRY (R163). -/
  | recoveryTimeExpiry (g : Grp)
  /-- HOST_TENSION_EXPIRY (R150). -/
  | hostTensionExpiry (g : Grp)
  /-- TRACK_TIMEOUT (R196). -/
  | trackTimeout (x : GenId)
  /-- HOLD_DELAY_EXPIRY (R227). -/
  | holdDelayExpiry (a : AuxNo)
  /-- STALL_DETECTED (R225). -/
  | stallDetected (a : AuxNo)
  /-- OPEN_COIL (R229). -/
  | openCoil (a : AuxNo)
  /-- SETTLE_TIME_EXPIRY (R235). -/
  | settleTimeExpiry (a : AuxNo)
  /-- SAFETY_INPUT_SAMPLE (R285). -/
  | safetyInputSample (ctf : Byte) (sreset estop0 estop1 : Bool)
  /-- MONITORING_MESSAGE_ASSEMBLY (R288). -/
  | monitoringMessageAssembly
  /-- MONITORING_MESSAGE (R289). -/
  | monitoringMessage (a b : Option LaneCopy)
  /-- MONITORING_LOST (R290). -/
  | monitoringLost
  /-- SAFETY_STATUS_WRITE (R291). -/
  | safetyStatusWrite
  /-- BRAKE_TIMER_EXPIRY (R293). -/
  | brakeTimerExpiry (b : Fin 4)
  /-- BRAKE_TIMEOUT (R287). -/
  | brakeTimeout (b : Fin 4)
  /-- CONTACTOR_DISCREPANCY (R302). -/
  | contactorDiscrepancy (c : Fin 4)
  /-- DARK_PULSE_START (R303). -/
  | darkPulseStart (o : SafeOut)
  /-- DARK_PULSE_END (R303). -/
  | darkPulseEnd (o : SafeOut) (fell rose : Bool)
  /-- READBACK_MISMATCH (R284). -/
  | readbackMismatch (o : SafeOut)
  /-- SAFETY_PARAM_CRC_CHECK (R304). -/
  | safetyParamCrcCheck (intact : Bool)
  /-- KSAFE_CLOCK_CHECK (R304). -/
  | ksafeClockCheck (count : Nat)
  /-- SS1_TIME_ELAPSED (R296). -/
  | ss1TimeElapsed (i : StoNo)
  /-- ESTOP_PAIR_DISCREPANCY (R299). -/
  | estopPairDiscrepancy
  /-- KEEPER_PORT_MESSAGE (R19). -/
  | keeperPortMessage (crcOk seqOk : Bool) (payload : KeeperPayload)
  /-- CORE_MISMATCH (R320). -/
  | coreMismatch (newerOk : Bool) (core0 core1 : Bool)
  /-- CHECKPOINT (R321). -/
  | checkpoint (vin : Nat) (control keeper : Int)
  /-- SCRUB_PASS (R325). -/
  | scrubPass (store : ScrubStore) (f : ScrubFinding)
  /-- BLOCK_REFRESH (R567). -/
  | blockRefresh (verified : Bool)
  /-- LIFE_ACCUMULATOR_SAMPLE (R564). -/
  | lifeAccumulatorSample
  /-- HOURLY_SAVE (R374). -/
  | hourlySave
  /-- HOST_WRITE_FRAME (R341). -/
  | hostWriteFrame (f : HostFrame)
  /-- READ_L_REGISTER (R243). -/
  | readLRegister (addr : BitVec 16)
  /-- REGISTER_PAIR_WRITE (R243). -/
  | registerPairWrite (addr : BitVec 16) (low high : Word)
  /-- MBX_DOORBELL (R349). -/
  | mbxDoorbell (slots : BitVec 16)
  /-- MBX_RELEASE (R349). -/
  | mbxRelease (slots : BitVec 16)
  /-- MBX_CPLACK (R352). -/
  | mbxCplack (n : BitVec 6)
  /-- SLOT_TAKEN (R350). -/
  | slotTaken
  /-- SENTENCE_TAKEN (R354). -/
  | sentenceTaken
  /-- SENTENCE_TAKE_UP (R358). -/
  | sentenceTakeUp (t : BitVec 16)
  /-- READ (R375). -/
  | read (t : BitVec 16)
  /-- SET (R376). -/
  | set (t : BitVec 16)
  /-- WRITE (R130). -/
  | write (t : BitVec 16)
  /-- SWAP (R133). -/
  | swap (t : BitVec 16)
  /-- SWAP_VALIDATION_DONE (R133). -/
  | swapValidationDone (g : Grp)
  /-- ENABLE (R380). -/
  | enable (t : BitVec 16)
  /-- DISABLE (R381). -/
  | disable (t : BitVec 16)
  /-- MOVE (R191). -/
  | move (t : BitVec 16)
  /-- HALT (R197). -/
  | halt (t : BitVec 16)
  /-- FOLLOW (R208). -/
  | follow (t : BitVec 16)
  /-- HOME (R235). -/
  | home (t : BitVec 16)
  /-- ABORT (R364). -/
  | abort (t : BitVec 16)
  /-- CAPTURE (R391). -/
  | capture (t : BitVec 16)
  /-- COMMIT (R390). -/
  | commit (t : BitVec 16)
  /-- COMMIT_WRITE_DONE (R390). -/
  | commitWriteDone (failed : List (Fin 32))
  /-- CLEAR (R384). -/
  | clear (t : BitVec 16)
  /-- SLEEP (R383). -/
  | sleep (t : BitVec 16)
  /-- SLEEP_ENTRY (R456). -/
  | sleepEntry (encoderAB : Vector (Bool × Bool) 4) (levels : BitVec 8)
  /-- RESTART (R385). -/
  | restart (t : BitVec 16)
  /-- RESTART_ACTION (R473). -/
  | restartAction
  /-- GFF_ACK (R495). -/
  | gffAck (n : BitVec 14)
  /-- GFF_CLEAR (R496). -/
  | gffClear
  /-- GFF_MARK (R490). -/
  | gffMark (payload : BitVec 28) (cd6 : Nat)
  /-- GFF_RECORD_WRITE (R492). -/
  | gffRecordWrite
  /-- TST_KEY (R499). -/
  | tstKey (w : Word)
  /-- TST_LOCK_CLOSE (R500). -/
  | tstLockClose
  /-- TST_SINC_ARM (R502). -/
  | tstSincArm (w : Word)
  /-- TST_ENG_ARM (R502). -/
  | tstEngArm (w : Word)
  /-- FB_PRESET (R256). -/
  | fbPreset (n : FbNo)
  /-- REARM (R252). -/
  | rearm (n : FbNo)
  /-- COMPARE_WRITE (R261). -/
  | compareWrite (n : FbNo) (v : DWord)
  /-- BUS_MODE_WRITE (R397). -/
  | busModeWrite (p : Port) (mode : BitVec 3)
  /-- RECOVER (R411). -/
  | recover (p : Port)
  /-- BUS_TX_REQUEST (R405). -/
  | busTxRequest (p : Port) (buffers : BitVec 3)
  /-- BUS_TX_ABORT (R409). -/
  | busTxAbort (p : Port) (buffers : BitVec 3)
  /-- BUS_RXACK (R403). -/
  | busRxack (p : Port) (q0 q1 : BitVec 7)
  /-- BUS_RSEL (R420). -/
  | busRsel (p : Port) (index : BitVec 11)
  /-- CAN_FRAME_RECEIVED (R401). -/
  | canFrameReceived (p : Port) (f : CanFrame) (stamp : BitVec 32)
  /-- CAN_SEGMENT_TIMEOUT (R367). -/
  | canSegmentTimeout (p : Port) (session : Fin 8)
  /-- CAN_TRANSMIT_CHOICE (R407). -/
  | canTransmitChoice (p : Port)
  /-- CAN_TRANSMIT_END (R408). -/
  | canTransmitEnd (p : Port) (o : CanTxOutcome)
  /-- CAN_ERROR_DETECTED (R410). -/
  | canErrorDetected (p : Port) (e : CanError)
  /-- PROTOCOL_EXCEPTION (R396). -/
  | protocolException (p : Port)
  /-- BUS_RECOVERED (R411). -/
  | busRecovered (p : Port)
  /-- CAN_BUS_INTEGRATION (R397). -/
  | canBusIntegration (p : Port)
  /-- DUPLICATE_MARK_EXPIRY (R414). -/
  | duplicateMarkExpiry (p : Port) (ide : Bool) (id : BitVec 29)
  /-- ROSTER_SILENCE_CHECK (R417). -/
  | rosterSilenceCheck
  /-- TIMESTAMP_WRAP (R412). -/
  | timestampWrap
  /-- RING_FORMATION_DONE (R430). -/
  | ringFormationDone (info : RingInfo)
  /-- CASCADE_PACKET_RECEIVED (R434). -/
  | cascadePacketReceived (pkt : CxPacket)
  /-- SYNC_MISSED (R433). -/
  | syncMissed
  /-- RING_BREAK (R435). -/
  | ringBreak (d : CxDir)
  /-- LINK_DIRECTION_UP (R435). -/
  | linkDirectionUp (d : CxDir)
  /-- STATUS_PACKET_SEND (R437). -/
  | statusPacketSend
  /-- SPAN_START_TICK (R439). -/
  | spanStartTick (g : Grp)
  /-- BROWNOUT (R448). -/
  | brownout
  /-- VINOK_HELD (R447). -/
  | vinokHeld
  /-- KEEPER_FLOOR_LOSS (R447). -/
  | keeperFloorLoss
  /-- VLOW (R447). -/
  | vlow (below : Bool)
  /-- CRYSTAL_QUALIFIED (R453). -/
  | crystalQualified
  /-- CRYSTAL_LOST (R454). -/
  | crystalLost
  /-- HOLDOVER_EXPIRY (R454). -/
  | holdoverExpiry
  /-- PLL_LOCK_LOSS (R455). -/
  | pllLockLoss
  /-- WAKE_SOURCE_QUALIFIED (R458). -/
  | wakeSourceQualified (w : WakeSource)
  /-- COLD_START (R476). -/
  | coldStart (f : ColdFindings)
  /-- WARM_START (R477). -/
  | warmStart (f : WarmFindings)
  /-- RST_N_LOW (R483). -/
  | rstNLow
  /-- RST_N_HIGH (R483). -/
  | rstNHigh
  /-- RESET_STUCK (R484). -/
  | resetStuck
  /-- RSTMASK_CLEAR (R484). -/
  | rstmaskClear
  /-- BITSTREAM_UNSTUCK (R98). -/
  | bitstreamUnstuck (channel : Fin 32)
  /-- RESOLVER_TRACKING_ERROR (R267). -/
  | resolverTrackingError (v : Fin 4)
  /-- PROTOCOL_EXCEPTION_END (R396). -/
  | protocolExceptionEnd (p : Port)
  /-- SLEW_TO_INTERNAL_DONE (R454). -/
  | slewToInternalDone
  /-- REGION_CRC_CHECK_DONE (R315). -/
  | regionCrcCheckDone
  /-- COMPUTE_LOST_BRAKE_WINDOW_EXPIRY (R319). -/
  | computeLostBrakeWindowExpiry
  /-- EMERGENCY_SS1_TIME_ELAPSED (R328). -/
  | emergencySs1TimeElapsed (g : Grp)
  /-- EMERGENCY_BRAKE_WAIT_EXPIRY (R328). -/
  | emergencyBrakeWaitExpiry (g : Grp)
  /-- PRELOAD_RAMP_END (R74). -/
  | preloadRampEnd (m : Main)
  /-- KEEP_CLOCK_LOSS (R304). -/
  | keepClockLoss
  /-- HOST_READ_FRAME (R342). -/
  | hostReadFrame (f : HostFrame)
  /-- HYSTERESIS_HOLD_EXPIRY (R220). -/
  | hysteresisHoldExpiry (a : AuxNo) (w : Winding) (cd12 : Nat)
deriving DecidableEq, Repr

end Sys2Proof
end

