-- ==== Sys2Proof/WellFormed.lean ====
section
/-! DEFINITION. Which commands are well formed: what arrives from outside stays inside what the hardware can present.
Each check names the rule that bounds its operand. Meanings are total and do not rest on these checks. -/

namespace Sys2Proof

/-- A sinc3 window holds 3 × OSR bits for a listed OSR (R97). -/
def windowLength (n : Nat) : Bool := [48, 96, 192, 384, 768].contains n

/-- The bytes a DLC stands for (R395). -/
def dlcBytes (fdf : Bool) (dlc : Nat) : Nat :=
  if dlc ≤ 8 then dlc
  else if !fdf then 8
  else match dlc with
    | 9 => 12 | 10 => 16 | 11 => 20 | 12 => 24 | 13 => 32 | 14 => 48 | _ => 64

/-- A CAN frame is consistent: base identifiers have 11 bits, an FD frame has no RTR, and the data match the DLC. -/
def CanFrame.wf (f : CanFrame) : Bool :=
  (f.ide || decide (f.id.toNat < 2048)) && !(f.fdf && f.rtr) && (f.fdf || (!f.brs && !f.esi)) &&
  decide (f.data.length = if f.rtr then 0 else dlcBytes f.fdf f.dlc.toNat)

/-- A host frame has at most 258 words and at least its command word (R339, R341). -/
def HostFrame.wf (f : HostFrame) : Bool := decide (f.words.length ≤ 258) && decide (0 < f.words.length)

/-- The address of the L register of a 64-bit pair of a feedback unit (R243, R276). -/
def pairAddress (a : Nat) : Bool :=
  decide (0x2000 ≤ a) && decide (a < 0x2800) && [0x10, 0x20, 0x28, 0x30, 0x38, 0x44].contains (a % 128)

/-- Well-formed commands. -/
def Instr.wf : Instr → Bool
  | .filterResultReady _ w => w.all fun c => windowLength c.bits.length
  | .glanceWindowOpen _ fine => decide (fine < 60000)
  | .comparatorEdge _ _ _ cd4 => decide (cd4 < 1875)
  | .scFilterResult _ a b => decide (a.length = 48) && decide (b.length = 48)
  | .hysteresisCrossing _ _ _ _ cd12 => decide (cd12 < 250)
  | .hysteresisHoldExpiry _ _ cd12 => decide (cd12 < 250)
  | .encoderEdge _ _ _ _ cd6 => decide (cd6 < 1250)
  | .switchSample _ cd6 => decide (cd6 < 1250)
  | .gffMark _ cd6 => decide (cd6 < 1250)
  | .hostWriteFrame f => f.wf
  | .hostReadFrame f => f.wf
  | .readLRegister a => pairAddress a.toNat
  | .registerPairWrite a _ _ => pairAddress a.toNat
  | .canFrameReceived _ f _ => f.wf
  | .ringFormationDone r => decide (r.order.length ≤ 8) && decide r.order.Nodup
  | .frameTick => true
  | .segmentComplete _ => true
  | .checkSetDone _ _ => true
  | .clusterCheckSetStart => true
  | .computeDeadline _ => true
  | .glanceWindowClose _ => true
  | .sixStepCommutation _ => true
  | .gateDriverFaultInput _ _ => true
  | .bitstreamStuck _ => true
  | .chopperPeriodStart _ _ => true
  | .chopperFeedbackMismatch _ => true
  | .sarConversion _ _ _ => true
  | .auxOvercurrent _ => true
  | .speedTimeout _ => true
  | .serialFrameEnd _ _ => true
  | .resolverExcitationPeriod _ _ _ _ => true
  | .resolverRevalidate _ => true
  | .chatterCleared _ => true
  | .keeperEncoderSample _ _ => true
  | .checkTimeExpiry _ => true
  | .alignmentTimeExpiry _ => true
  | .parisonTimeout _ => true
  | .catchTimeout _ => true
  | .coastTimeout _ => true
  | .resyncTimeout _ => true
  | .lossBrakeTimeout _ => true
  | .handoverDeferralExpiry _ => true
  | .sensorHealthyHold _ => true
  | .speedLimit _ => true
  | .modeDeferralExpiry _ => true
  | .followingError _ => true
  | .excitationSearchWindow _ => true
  | .releaseDwellExpiry _ => true
  | .recoveryTimeExpiry _ => true
  | .hostTensionExpiry _ => true
  | .trackTimeout _ => true
  | .holdDelayExpiry _ => true
  | .stallDetected _ => true
  | .openCoil _ => true
  | .settleTimeExpiry _ => true
  | .safetyInputSample _ _ _ _ => true
  | .monitoringMessageAssembly => true
  | .monitoringMessage _ _ => true
  | .monitoringLost => true
  | .safetyStatusWrite => true
  | .brakeTimerExpiry _ => true
  | .brakeTimeout _ => true
  | .contactorDiscrepancy _ => true
  | .darkPulseStart _ => true
  | .darkPulseEnd _ _ _ => true
  | .readbackMismatch _ => true
  | .safetyParamCrcCheck _ => true
  | .ksafeClockCheck _ => true
  | .ss1TimeElapsed _ => true
  | .estopPairDiscrepancy => true
  | .keeperPortMessage _ _ _ => true
  | .coreMismatch _ _ _ => true
  | .checkpoint _ _ _ => true
  | .scrubPass _ _ => true
  | .blockRefresh _ => true
  | .lifeAccumulatorSample => true
  | .hourlySave => true
  | .mbxDoorbell _ => true
  | .mbxRelease _ => true
  | .mbxCplack _ => true
  | .slotTaken => true
  | .sentenceTaken => true
  | .sentenceTakeUp _ => true
  | .read _ => true
  | .set _ => true
  | .write _ => true
  | .swap _ => true
  | .swapValidationDone _ => true
  | .enable _ => true
  | .disable _ => true
  | .move _ => true
  | .halt _ => true
  | .follow _ => true
  | .home _ => true
  | .abort _ => true
  | .capture _ => true
  | .commit _ => true
  | .commitWriteDone _ => true
  | .clear _ => true
  | .sleep _ => true
  | .sleepEntry _ _ => true
  | .restart _ => true
  | .restartAction => true
  | .gffAck _ => true
  | .gffClear => true
  | .gffRecordWrite => true
  | .tstKey _ => true
  | .tstLockClose => true
  | .tstSincArm _ => true
  | .tstEngArm _ => true
  | .fbPreset _ => true
  | .rearm _ => true
  | .compareWrite _ _ => true
  | .busModeWrite _ _ => true
  | .recover _ => true
  | .busTxRequest _ _ => true
  | .busTxAbort _ _ => true
  | .busRxack _ _ _ => true
  | .busRsel _ _ => true
  | .canSegmentTimeout _ _ => true
  | .canTransmitChoice _ => true
  | .canTransmitEnd _ _ => true
  | .canErrorDetected _ _ => true
  | .protocolException _ => true
  | .busRecovered _ => true
  | .canBusIntegration _ => true
  | .duplicateMarkExpiry _ _ _ => true
  | .rosterSilenceCheck => true
  | .timestampWrap => true
  | .cascadePacketReceived _ => true
  | .syncMissed => true
  | .ringBreak _ => true
  | .linkDirectionUp _ => true
  | .statusPacketSend => true
  | .spanStartTick _ => true
  | .brownout => true
  | .vinokHeld => true
  | .keeperFloorLoss => true
  | .vlow _ => true
  | .crystalQualified => true
  | .crystalLost => true
  | .holdoverExpiry => true
  | .pllLockLoss => true
  | .wakeSourceQualified _ => true
  | .coldStart _ => true
  | .warmStart _ => true
  | .rstNLow => true
  | .rstNHigh => true
  | .resetStuck => true
  | .rstmaskClear => true
  | .bitstreamUnstuck _ => true
  | .resolverTrackingError _ => true
  | .protocolExceptionEnd _ => true
  | .slewToInternalDone => true
  | .regionCrcCheckDone => true
  | .computeLostBrakeWindowExpiry => true
  | .emergencySs1TimeElapsed _ => true
  | .emergencyBrakeWaitExpiry _ => true
  | .preloadRampEnd _ => true
  | .keepClockLoss => true

end Sys2Proof
end

