-- ==== Sys2Proof/Decode.lean ====
section
/-! DEFINITION. Reading a command from a word by the table's bits. spec/opcode_table.json gives no row any bits: its rows
are events and operations of the block, and no word spells one of them. -/

namespace Sys2Proof

/-- The rows of the table that give bits, as pattern, mask and command: there are none. -/
def tableWords : List (Nat × Nat × Instr) := []

/-- The command a word of `nbits` bits spells by the table's bits (log entry 14). -/
def decodeTableWord (nbits w : Nat) : Option Instr :=
  ((tableWords.find? fun r => decide (w < 2 ^ nbits) && decide (w &&& r.2.1 = r.1))).map fun r => r.2.2

end Sys2Proof
end

