-- ==== Sys2Proof/Config.lean ====
section
/-! DEFINITION. What an implementation fixes, and the free values: constants with no body, so that no proof can
see a value of theirs. Each names the rule that leaves its value open. -/

namespace Sys2Proof.Config

/-- Sine of an angle given in 2⁻³² of 360°, scaled by 2³⁰. R117 binds it only to within 2⁻³⁰ of the exact sine,
so the value is free (log entry 3). -/
opaque sine : Int → Int

/-- Cosine, as `sine` (R117, log entry 3). -/
opaque cosine : Int → Int

/-- The angle of a plane vector in 2⁻³² of 360°. R59, R115 and R224 use such angles and state no rounding
(log entry 3). -/
opaque angleOf : Int → Int → Int

/-- Whether a scaled voltage component of R125 is the integer next below the exact magnitude: R125 binds the
scaling only to a relative error below 2⁻³⁰ (log entry 4). -/
opaque scaleLow : Int → Int → Int → Bool

/-- Whether a quotient a / b that the spec does not say how to round goes to the next integer above rather than below
(log entry 15). -/
opaque roundUp : Int → Int → Bool

/-- The acceleration factor of R562 for one sample of the life accumulator at a temperature in 0.1 °C, in
2⁻³² of a 0.01 equivalent hour for a span in seconds: R562 gives a real function and no rounding (log entry 5). -/
opaque ageing : Int → Nat → Nat

/-- The unique identity `N:0xE003`, fixed at manufacture and not given by R374. -/
opaque uniqueId : BitVec 64

/-- The build number of the firmware image, not fixed by R374. -/
opaque fwBuild : BitVec 16

/-- Ball level threshold corrections of R58 for the neutral offset the two driven phases produce: the rule
names the correction and gives no formula (log entry 6). -/
opaque neutralOffset : Int → Int → Int → Int

/-- A value the spec leaves open for one command, drawn by the counter the state carries (log entry 2). -/
opaque freeValue : Nat → Int

/-- An open yes or no, drawn like `freeValue` (log entry 2). -/
opaque freeChoice : Nat → Bool

end Sys2Proof.Config
end

