-- ==== Sys2Proof/Machine/State.lean ====
section
/-! DEFINITION. The state of the block: every register, buffer, counter, mode and timer condition the spec gives it,
as plain data. A field's default is its value at reset. Reset is the instant at which a first cold start may run: every
field at the Reset column of its field map, the configuration store blank, nothing running (log entry 1). -/

namespace Sys2Proof.Machine

/-- Why a step could stop with a fault. -/
inductive Fault where
  /-- Raised by no meaning: the spec names no condition in which the block itself stops, and an event the state does
  not admit changes nothing (log entry 7). Safe. -/
  | halted
deriving DecidableEq, Repr

/-- Why a step could have no meaning. -/
inductive Refusal where
  /-- Raised only by an arm of Dispatch whose command has no meaning yet. Safe. -/
  | notModelled (mnemonic : String)
deriving DecidableEq, Repr

/-! ## Time -/

/-- Counted time. -/
structure TimeSt where
  /-- frame-tick number; 40 bits; 17 R489; reset 0 at the first frame tick after a start -/
  tick : Nat := 0
  /-- frame ticks since the supply came up, the measure of every window of the rules; model's; reset 0 -/
  now : Nat := 0
  /-- keeper time count `N:0xE006`, 1/32 768 s; 48 bits; 12 R374; reset 0 (log entry 1) -/
  keeper : Nat := 0
  /-- part of a keeper count gone by, in 1/10 000; model's; reset 0 -/
  keeperFrac : Nat := 0
  /-- powered time `N:0xE004`, in frame ticks; 12 R374; reset 0 (log entry 1) -/
  powered : Nat := 0
  /-- active time `N:0xE005`, in frame ticks; 12 R374; reset 0 (log entry 1) -/
  active : Nat := 0
  /-- powered time as saved hourly; 12 R374; reset 0 -/
  savedPowered : Nat := 0
  /-- active time as saved hourly; 12 R374; reset 0 -/
  savedActive : Nat := 0
deriving DecidableEq, Repr

/-- The members of the family (R4). -/
inductive Member where
  | ht0100 | ht0200 | ht0402 | ht0604 | ht0804 | ht1208
deriving DecidableEq, Repr

/-! ## Event records -/

/-- An event record before its SEQ is given (R334). -/
structure Record where
  time   : Nat
  sev    : Nat
  code   : Nat
  object : Nat
  sample : Nat
  ticket : Nat
  data0  : Int
  data1  : Int
deriving DecidableEq, Repr

/-- The event logs and their window (R333 to R335). -/
structure LogSt where
  /-- RAM event log ring, newest first, with SEQ; 4096 records; 10 R333; reset empty -/
  ram : List (Nat × Record) := []
  /-- LOG_HEAD, SEQ of the newest record; 32; 10 R335; reset 0 -/
  head : Nat := 0
  /-- LOG_PAGE; 32; 10 R335; reset 0 -/
  page : Word := 0
  /-- LOG_IRQEN; [1:0]; 10 R335; reset 0 -/
  irqEn : BitVec 2 := 0
  /-- LOG_IRQ; [1:0] W1C; 10 R335; reset 0 -/
  irq : BitVec 2 := 0
  /-- persistent fault log ring, newest first; 512 records; 10 R333; reset empty -/
  persistent : List (Nat × Record) := []
  /-- `N:0x7007` persistent records overwritten; 32; 10 R331; reset 0 -/
  overwritten : Nat := 0
  /-- clock hour of the last ENGINE-TRANSIENT record in the persistent log; 10 R318; reset none -/
  transientHour : Option Nat := none
deriving DecidableEq, Repr

/-! ## Sentences, tickets and the mailbox -/

/-- A sentence as laid out in R353. -/
structure Sentence where
  verb     : Nat
  len      : Nat
  noun     : Nat
  arg      : Nat
  adverbs  : List Nat
  operands : List Word
  payload  : List Word
  wellFormed : Bool
deriving DecidableEq, Repr

/-- Where a sentence came from and its replies go (R352, R366). -/
inductive Origin where
  | slot (i : Fin 16)
  | detached
  | session (p : Port) (s : Fin 8)
deriving DecidableEq, Repr

/-- TENSE (R355). -/
inductive Tense where
  | future | present | past
deriving DecidableEq, Repr

/-- How far a ticket has come: held until take-up, taken up by R358 and its verb's action due, or its effect under way
with a commit sample or completion to come. -/
inductive Stage where
  | held | taken | running
deriving DecidableEq, Repr

/-- A ticket in flight (R357). -/
structure Ticket where
  num    : Nat
  sent   : Sentence
  origin : Origin
  tense  : Tense := .future
  stage  : Stage := .held
  /-- words of a WRITE handed over so far (R134) -/
  handed : Nat := 0
  /-- the commit action has begun (R364) -/
  committing : Bool := false
deriving DecidableEq, Repr

/-- A ticket that reached PAST, as kept for lookups (R357). -/
structure Ended where
  num    : Nat
  status : Nat
deriving DecidableEq, Repr

/-- A mailbox slot's state (R349). -/
inductive SlotState where
  | free | posted | taken | replied
deriving DecidableEq, Repr

/-- One mailbox slot. -/
structure Slot where
  /-- slot words; 16 × 32; 11 R353; reset 0 (DESIGN CHOICE, log entry 1) -/
  words : Vector Word 16 := Vector.replicate 16 0
  /-- slot state, MBX_SLOTST; 2; 11 R346; reset FREE -/
  state : SlotState := .free
  /-- the ticket whose replies the slot shows; 11 R352; reset none -/
  ticket : Option Nat := none
  /-- the reply in the slot has TENSE PAST; 11 R349; reset no -/
  past : Bool := false
deriving DecidableEq, Repr

/-- A completion entry (R352). -/
structure Completion where
  ticket : Nat
  status : Nat
deriving DecidableEq, Repr

/-- A change of an engine input buffer (R35). `words` tells that the last word of a WRITE is in the store (R134). -/
inductive EngChange where
  | noun (ticket id : Nat) (value : Int)
  | mode (ticket : Nat) (m : Main) (code : Nat)
  | abort (ticket target : Nat)
  | words (ticket : Nat)
deriving DecidableEq, Repr

/-- What a sentence or an internal event asks of a generator (R191 to R208). -/
inductive MotionOrder where
  | move (ticket : Nat) (x : GenId) (kind : Nat) (target : Int) (direction : Nat)
  | path (ticket : Nat) (g : Grp) (mains : BitVec 12) (auxs : BitVec 8) (targets : List Int)
  | halt (ticket : Nat) (x : GenId)
  | haltGroup (ticket : Nat) (g : Grp)
  | follow (ticket : Nat) (g : Grp) (towardsLo : Bool)
  | home (ticket : Nat) (a : AuxNo) (high : Bool)
  | internalHalt (x : GenId)
deriving DecidableEq, Repr

/-- A firmware output held in the output journal (R321). -/
inductive Output where
  | reply (ticket status : Nat) (tense : Tense) (payload : List Word)
  | bareReply (origin : Origin) (status verb noun : Nat)
  | log (r : Record)
  | engine (g : Grp) (atSample : Option Nat) (c : EngChange)
  | motion (g : Grp) (atSample : Option Nat) (o : MotionOrder)
deriving DecidableEq, Repr

/-- The host link, the mailbox and the tickets. -/
structure MailSt where
  slots : Vector Slot 16 := Vector.replicate 16 {}
  /-- posted slots in the order their doorbells were applied; 11 R350; reset empty -/
  posted : List (Fin 16) := []
  /-- MBX_REPLY; [15:0] W1C; 11 R346; reset 0 -/
  reply : BitVec 16 := 0
  /-- MBX_IRQEN; [17:0]; 11 R346; reset 0 -/
  irqEn : BitVec 18 := 0
  /-- MBX_ERR; [5:0] W1C; 11 R348; reset 0 -/
  err : BitVec 6 := 0
  /-- MBX_STATUS.FWREADY; 1; 11 R348; reset 0 -/
  fwReady : Bool := false
  /-- MBX_STATUS.LASTTICKET; 16; 11 R348; reset 0 -/
  lastTicket : Nat := 0
  /-- MBX_HBEAT; 32; 11 R346; reset 0 -/
  heartbeat : Word := 0
  /-- MBX_CPL0–31 and MBX_CPLCNT, oldest first; 32 places; 11 R352; reset empty -/
  completions : List Completion := []
  /-- firmware input journal of sentences not yet taken, oldest first; 10 R321; reset empty -/
  input : List (Sentence × Origin) := []
  /-- firmware output journal, oldest first; 10 R321; reset empty -/
  output : List Output := []
  /-- tickets in flight, in ticket order; at most 32; 11 R357; reset empty -/
  tickets : List Ticket := []
  /-- the 64 tickets that reached PAST most recently, newest first; 11 R357; reset empty -/
  ended : List Ended := []
  /-- captured H halves of 64-bit pairs, by byte address of the H register; 08 R243; reset empty -/
  capturedH : List (Nat × Word) := []
  /-- held L halves of 64-bit writes, by byte address of the L register; 08 R243; reset empty -/
  heldL : List (Nat × Word) := []
  /-- words the last read frame returned on HMISO, status first; 11 R338; reset empty -/
  miso : List Word := []
deriving DecidableEq, Repr

/-! ## Main axes -/

/-- Commutation states, codes of STATE in R53. -/
inductive CState where
  | off | check | catch | align | preload | parison | handover | run | coast | resync | hold | stoppedFault
deriving DecidableEq, Repr

/-- Angle sources, codes of SOURCE in R53. -/
inductive Source where
  | none | observer | sixStep | sensor | parison | parked | align
deriving DecidableEq, Repr

/-- Reasons of STOPPED-FAULT, codes of REASON in R53. -/
inductive StopReason where
  | none | catchFailed | parisonTimeout | handoverAborted | resyncFailed | noStartSource | speedLimit
  | reverseRotation | lossBraked
deriving DecidableEq, Repr

/-- A comparator crossing accepted, with its corrected timestamp in 1/20 of a CD4 clock, which is 1/3 ns, since the
supply came up (R18, R518). -/
structure Crossing where
  phase  : Phase
  rising : Bool
  clock  : Int
deriving DecidableEq, Repr

/-- A glance window, scheduled or open (R55 to R57). Times are in fine steps of 1/32 CD4 clock from the supply's
coming up; `crossing` numbers back-EMF crossings of the unwrapped angle, six to the period. -/
structure Window where
  crossing : Int
  opening  : Int
  blanking : Int
  latest   : Int
  forced   : Bool
  opened   : Bool
  found    : Option Crossing
deriving DecidableEq, Repr

/-- Placing and counting glance windows. -/
structure GlanceSt where
  /-- the window scheduled or open; 02 R55; reset none -/
  window : Option Window := none
  /-- a window scheduled while another is still open or waits to open; 02 R55; reset none -/
  queued : Option Window := none
  /-- crossing of the previous window and its opening angle in 2⁻³² of 360°; 02 R54; reset none -/
  last : Option (Int × Int) := none
  /-- crossing last completed, or the entry's angle, from which 360° are measured; 02 R56; reset 0 -/
  origin : Int := 0
  /-- crossing selected for the next window; 02 R54; reset none -/
  next : Option Int := none
  /-- FORCED; 1; 02 R53; reset 0 -/
  forced : Bool := false
  /-- consecutive misses; 02 R60; reset 0 -/
  misses : Nat := 0
  /-- consecutive confirming windows; 02 R68; reset 0 -/
  good : Nat := 0
  /-- crossings accepted and not used by a pass yet, oldest first, with the crossing number of their window; 02 R34; reset empty -/
  fresh : List (Crossing × Option Int) := []
  /-- windows closed without a crossing and not counted by a pass yet; 02 R60; reset 0 -/
  empties : Nat := 0
  /-- crossings in sequence seen in CHECK or RESYNC, newest first; 02 R71; reset empty -/
  seen : List Crossing := []
  /-- time of the last gate edge of the axis in fine steps, for the edge masking; 02 R57; reset none -/
  lastEdge : Option Int := none
  /-- comparator threshold of the axis, mV at the ball; 18 R517; reset 0 (DESIGN CHOICE, log entry 1) -/
  threshold : Int := 0
deriving DecidableEq, Repr

/-- Commutation of one main axis. -/
structure CommSt where
  /-- STATE; 4; 02 R53; reset OFF -/
  state : CState := .off
  /-- SOURCE; 4; 02 R53; reset NONE -/
  source : Source := .none
  /-- REASON; 8; 02 R53; reset NONE -/
  reason : StopReason := .none
  /-- RETRIES; 4; 02 R53; reset 0 -/
  retries : Nat := 0
  /-- PARKED with the parked angle and the q-axis current held, mA; 02 R74; reset none -/
  parked : Option (Int × Int) := none
  /-- angle source a handover moves to; 02 R73; reset none -/
  target : Source := .none
  /-- the state a handover came from is PARISON; 02 R68; reset no -/
  fromParison : Bool := false
  /-- consecutive agreeing samples of a handover; 02 R73; reset 0 -/
  agree : Nat := 0
  /-- steps of a BLEND made, when one is under way; 02 R73; reset none -/
  blend : Option Nat := none
  /-- samples until a handover is entered again after an ABORT; 02 R73; reset 0 -/
  holdoff : Nat := 0
  /-- consecutive samples over the maximum speed; 02 R51; reset 0 -/
  overspeed : Nat := 0
  /-- ramp angle, 2⁻³² of 360°; 02 R73; reset 0 -/
  rampAngle : Int := 0
  /-- ramp speed, 0.01 Hz in 2⁻³²; 02 R73; reset 0 -/
  rampSpeed : Int := 0
  /-- sign of the change of the ramp speed, for the parison current; 02 R73; reset 0 -/
  rampSign : Int := 0
  /-- preload current reached, mA; 02 R74; reset 0 -/
  preloadIq : Int := 0
  /-- preload rise complete and release requested; 02 R74; reset no -/
  preloadDone : Bool := false
  /-- samples since entry to the present state; 02 R68; reset 0 -/
  samples : Nat := 0
  /-- brake release request; 1; 02 R571; reset 0 -/
  release : Bool := false
  /-- an orderly removal of torque waits for the brake, with the state it leads to; 02 R72; reset none -/
  braking : Option (CState × StopReason) := none
  /-- in STOPPED-FAULT, disabled since its entry; 02 R68; reset no -/
  sfDisabled : Bool := false
  /-- held torque-current and excitation set-points, mA; 02 R572; reset none -/
  held : Option (Int × Int) := none
  /-- the present COAST was entered for loss of the sensor; 02 R67; reset no -/
  coastSensor : Bool := false
  /-- speed held in COAST or at entry to RESYNC, 0.01 Hz; 02 R75; reset 0 -/
  coastSpeed : Int := 0
  /-- predicted angle in COAST, 2⁻³² of 360°; 02 R75; reset 0 -/
  coastAngle : Int := 0
  /-- speed measured in CHECK or RESYNC, 0.01 Hz; 02 R71; reset 0 -/
  measured : Int := 0
  /-- angle of the last crossing in CHECK or RESYNC and its clock; 02 R71; reset none -/
  caught : Option (Int × Int) := none
  /-- a preset of the observer is due at the next commit point; 02 R71; reset no -/
  presetDue : Bool := false
  /-- SENSOK at the last commit; 1; 02 R53; reset 0 -/
  sensOk : Bool := false
  /-- six-step sector; 0–5; 02 R62; reset 0 -/
  sector : Fin 6 := 0
  /-- clocks of the last three six-step crossings, newest first; 02 R62; reset empty -/
  sixTimes : List Int := []
  /-- a six-step crossing was taken since the last commutation; 02 R63; reset no -/
  sixSeen : Bool := false
  /-- a comparator crossing was accepted during the present CHECK; 02 R102; reset no -/
  crossed : Bool := false
  /-- event flags raised by timer rows and settled at the next commit point; 02 R50; reset empty -/
  dueCheck : Bool := false
  dueAlign : Bool := false
  dueParison : Bool := false
  dueCatch : Bool := false
  dueCoast : Bool := false
  dueResync : Bool := false
  dueBrake : Bool := false
  dueHealthy : Bool := false
deriving DecidableEq, Repr

/-- PWM and current measurement of one main axis. -/
structure DriveSt where
  /-- gates on; 1; 03 R85; reset off -/
  gates : Bool := false
  /-- gates on were decided at the last commit and start at the next sample instant; 02 R71; reset no -/
  gatesNext : Bool := false
  /-- active duty words, U V W; 17 each; 03 R83; reset 0 -/
  active : Vector Nat 3 := Vector.replicate 3 0
  /-- shadow duty words; 17 each; 03 R84; reset 0 -/
  shadow : Vector Nat 3 := Vector.replicate 3 0
  /-- active compare values in fine steps; 03 R83; reset 0 -/
  compare : Vector Int 3 := Vector.replicate 3 0
  /-- timer clamp flags of the last update, as the engine receives them; 03 R87; reset 0 -/
  clamped : Vector Bool 3 := Vector.replicate 3 false
  /-- phase floated by a glance window; 03 R89; reset none -/
  floating : Option Phase := none
  /-- phase floated by a window at the present sample's instant; 02 R61; reset none -/
  floatedAt : Option Phase := none
  /-- LATCH; 3: 0 NONE, 1 GATE-FAULT, 2 SHORT-CIRCUIT, 3 CURRENT-LOST; 03 R108; reset 0 -/
  latch : Fin 4 := 0
  /-- the latch set after the last commit and its disable is due; 03 R92; reset no -/
  latchDue : Bool := false
  /-- ARMED; 1; 03 R108; reset 0 -/
  armed : Bool := false
  /-- GDFLVL; 1; 03 R108; reset 0 -/
  gdfLow : Bool := false
  /-- OFSVAL; 1; 03 R108; reset 0 -/
  ofsVal : Bool := false
  /-- SCTRIP; 1; 03 R108; reset 0 -/
  scTrip : Bool := false
  /-- STUCKA; 1; 03 R108; reset 0 -/
  stuckA : Bool := false
  /-- STUCKB; 1; 03 R108; reset 0 -/
  stuckB : Bool := false
  /-- OVRA; 1; 03 R108; reset 0 -/
  ovrA : Bool := false
  /-- OVRB; 1; 03 R108; reset 0 -/
  ovrB : Bool := false
  /-- consecutive short-circuit results over the threshold; 03 R103; reset 0 -/
  scOver : Nat := 0
  /-- filter results of the sample, channels a and b, 2⁻³¹ of full scale; 03 R97; reset 0 -/
  rawA : Int := 0
  rawB : Int := 0
  /-- offset averaging in CHECK: sums and count; 03 R102; reset 0 -/
  ofsSumA : Int := 0
  ofsSumB : Int := 0
  ofsCount : Nat := 0
  /-- a filter window began within CHECK; 03 R102; reset no -/
  ofsWindow : Bool := false
deriving DecidableEq, Repr

/-- A control-mode handover (R139 to R142). -/
structure ModeHandover where
  ticket : Nat
  mode   : Nat
  agree  : Nat
  count  : Nat
  blend  : Option Nat
  down   : Bool
  due    : Bool
  shadow : List (Nat × Int)
deriving DecidableEq, Repr

/-- Engine data of one main axis. -/
structure EngAxis where
  /-- block states (prior values of the next pass); up to 12 × 32; 04 R123; reset 0 -/
  x : List Int := []
  /-- MODE, present control mode; 4; 04 R146; reset TORQUE -/
  mode : Nat := 0
  /-- the mode recorded and not yet in force; 04 R137; reset none -/
  recorded : Option Nat := none
  /-- mode handover under way; 04 R139; reset none -/
  handover : Option ModeHandover := none
  /-- mode request held FUTURE, with its ticket; 04 R137; reset none -/
  waiting : Option (Nat × Nat) := none
  /-- FERR; 1; 04 R146; reset 0 -/
  ferr : Bool := false
  /-- VLIM; 1; 04 R146; reset 0 -/
  vlim : Bool := false
  /-- ILIM; 1; 04 R146; reset 0 -/
  ilim : Bool := false
  /-- AWHOLD; 1; 04 R146; reset 0 -/
  awhold : Bool := false
  /-- SAT; 1; 04 R146; reset 0 -/
  sat : Bool := false
  /-- consecutive samples over the following-error limit, and whether the action is taken; 04 R143; reset 0 -/
  ferrCount : Nat := 0
  ferrValue : Int := 0
  /-- applied voltages of the last commit, mV; 05 R179; reset 0 -/
  vd : Int := 0
  vq : Int := 0
  /-- measured currents of the last commit, mA; 04 R115; reset 0 -/
  id : Int := 0
  iq : Int := 0
  /-- torque-current and excitation set-points of the last commit, mA; 04 R115; reset 0 -/
  iqSet : Int := 0
  idSet : Int := 0
  /-- MANUAL set-point on its slew, mA; 04 R138; reset 0 -/
  manual : Rat := 0
  /-- angle estimate `N:0x2m1D`, 2⁻³² of 360°; 32; 02 R52; reset 0 -/
  angle : Int := 0
  /-- speed estimate `N:0x2m1E`, 0.01 Hz; s32; 02 R52; reset 0 -/
  speed : Int := 0
  /-- last glance residual `N:0x2m1F`; s16; 02 R52; reset 0 -/
  residual : Int := 0
  /-- own angle accumulated, 2⁻¹⁶ of a revolution; 64; 06 R188; reset 0 -/
  turns : Int := 0
deriving DecidableEq, Repr

/-- Sharing, excitation and thermal data of one main axis. -/
structure ShareSt where
  /-- CONTRIB; 1; 05 R161; reset 0 -/
  contrib : Bool := false
  /-- SHARE; 1; 05 R161; reset 0 -/
  atLimit : Bool := false
  /-- THOT; 1; 05 R161; reset 0 -/
  thot : Bool := false
  /-- the allowance is withdrawn until θ falls below 0.9; 05 R175; reset no -/
  hot : Bool := false
  /-- LMHOLD; 1; 05 R161; reset 0 -/
  lmHold : Bool := false
  /-- DISS; 1; 05 R161; reset 0 -/
  diss : Bool := false
  /-- thermal model θ in 2⁻³²; 05 R175; reset 0 (log entry 1); 0.5 at a group start -/
  theta : Int := 0
  /-- loss-minimising part of id*, mA; 05 R168; reset 0 -/
  lmPart : Int := 0
  /-- dissipative part of id*, mA; 05 R175; reset 0 -/
  dissPart : Int := 0
  /-- search direction, +1 or −1; 05 R168; reset −1 (log entry 1) -/
  lmDir : Int := -1
  /-- energy of the present search window in 0.5 fJ, and samples in it; 05 R168; reset 0 -/
  lmSum : Int := 0
  lmCount : Nat := 0
  /-- the window has met its conditions so far; 05 R168; reset yes -/
  lmValid : Bool := true
  /-- mean power of the previous window; 05 R168; reset none -/
  lmPrev : Option Rat := none
  /-- q-current at the start of the window, mA; 05 R168; reset 0 -/
  lmIq : Int := 0
  /-- regenerative limit and motoring limit of the last commit, mA; 05 R155; reset 0 -/
  motorLim : Int := 0
  regenLim : Int := 0
deriving DecidableEq, Repr

/-- Kinds of a generator's target, codes of KIND in R190. -/
inductive Kind where
  | idle | position | speed | torque | tension | track | path | follow | halt | drum
deriving DecidableEq, Repr

/-- One motion generator (R182 to R209). Positions are in 2⁻³² of a count. -/
structure GenSt where
  /-- output position; s64.32; 06 R183; reset 0 -/
  pos : Int := 0
  /-- output speed, counts/s; 06 R183; reset 0 -/
  speed : Rat := 0
  /-- output acceleration, counts/s²; 06 R183; reset 0 -/
  acc : Rat := 0
  /-- jerk of the last step, counts/s³; 06 R183; reset 0 -/
  jerk : Rat := 0
  /-- torque-current output and its slew, mA and mA/s; 06 R195; reset 0 -/
  cur : Rat := 0
  curRate : Rat := 0
  /-- KIND; 4; 06 R190; reset IDLE -/
  kind : Kind := .idle
  /-- present target, in counts, counts/s or mA by kind; s64; 06 R188; reset 0 -/
  target : Int := 0
  /-- fraction of a position target that is a rest position, 2⁻³² of a count; 06 R197; reset 0 -/
  targetFrac : Int := 0
  /-- standing target kept through DRUM; 06 R198; reset none -/
  standing : Option (Kind × Int) := none
  /-- open motion ticket; 06 R191; reset none -/
  ticket : Option Nat := none
  /-- the kind a HALT stops; 06 R197; reset IDLE -/
  halted : Kind := .idle
  /-- a position target follows a retarget, for R201; reset no -/
  retarget : Bool := false
  /-- LIMPRED; 1; 06 R190; reset 0 -/
  limPred : Bool := false
  /-- the present ticket's plan was predicted past a soft limit; 06 R200; reset no -/
  ticketPred : Bool := false
  /-- EJERK; 1; 06 R190; reset 0 -/
  ejerk : Bool := false
  /-- SLCROSS; 1; 06 R190; reset 0 -/
  slCross : Bool := false
  /-- REVERSAL; 1; 06 R190; reset 0 -/
  reversal : Bool := false
  /-- speed a level-wind reversal changes to, counts/s; 06 R209; reset 0 -/
  revSpeed : Rat := 0
  /-- last two latched TRACK targets with their ticks; 06 R196; reset empty -/
  tracks : List (Int × Nat) := []
  /-- target rate of TRACK or FOLLOW, counts/s; 06 R196; reset 0 -/
  rate : Rat := 0
  /-- output stood at target at the last step; 06 R190; reset no -/
  atTarget : Bool := false
  /-- lag; s64; 06 R199; reset 0 -/
  lag : Int := 0
  /-- SEGMENT; 4; 06 R190; reset 0 -/
  segment : Fin 5 := 0
  /-- the generator stepped at the last step; STEPPING; 06 R190; reset 0 -/
  stepping : Bool := false
deriving DecidableEq, Repr

/-- A ledger counter: whole mJ (mN·s for a thrust impulse) and the remainder carried, below 1 (R178). -/
structure Counter where
  mJ   : Nat := 0
  rest : Rat := 0
deriving DecidableEq, Repr

/-- One main axis. -/
structure MainAxis where
  /-- the axis is enabled; 12 R380; reset disabled -/
  enabled : Bool := false
  /-- the ENABLE ticket that has not committed; 12 R380; reset none -/
  startTicket : Option Nat := none
  /-- a DISABLE ticket to complete at OFF; 12 R381; reset none -/
  stopTicket : Option Nat := none
  comm : CommSt := {}
  glance : GlanceSt := {}
  drive : DriveSt := {}
  eng : EngAxis := {}
  share : ShareSt := {}
  gen : GenSt := {}
  /-- energy in `N:0x2m4C`, out `N:0x2m4D`, thrust impulse `N:0x2m4E`, control-die totals; 64 each; 05 R178; reset 0 -/
  eIn : Counter := {}
  eOut : Counter := {}
  thrust : Counter := {}
deriving DecidableEq, Repr

/-! ## Auxiliary axes -/

/-- States of an auxiliary axis, codes of STATE in R240. -/
inductive AState where
  | off | run | standstill | homing | stoppedFault
deriving DecidableEq, Repr

/-- Bridge states (R210). -/
inductive Bridge where
  | drivePlus | driveMinus | slow | off
deriving DecidableEq, Repr

/-- Homing steps, codes of HSTEP in R240. -/
inductive HStep where
  | none | seek | settle | backoff
deriving DecidableEq, Repr

/-- One winding of an auxiliary axis. -/
structure WindingSt where
  /-- bridge state; 07 R210; reset OFF -/
  bridge : Bridge := .off
  /-- bridge change held by blanking or spacing; 07 R220; reset none -/
  heldBridge : Option Bridge := none
  /-- CD12 clock of the last bridge change and of the last DRIVE entry; 07 R220; reset 0 -/
  changed : Int := 0
  driven : Int := 0
  /-- CD12 clocks in DRIVE+ less DRIVE− since the last sample instant, the clock they are counted to, and the count over the
  span of the measured mean; 07 R224; reset 0 -/
  driveTime : Int := 0
  since : Int := 0
  spanTime : Int := 0
  /-- set-points formed, active and active over the span, mA; 07 R224; reset 0 -/
  formed : Int := 0
  active : Int := 0
  spanned : Int := 0
  /-- adaptive offset, mA; 07 R221; reset 0 -/
  offset : Int := 0
  /-- sum and count of the conversions of the span, mA × 2048; 07 R213; reset 0 -/
  sum : Int := 0
  count : Nat := 0
  /-- measured mean and the one before, mA; 07 R224; reset 0 -/
  mean : Int := 0
  meanPrev : Int := 0
  /-- consecutive conversions at code 0 or 4095; 07 R229; reset 0 -/
  rail : Nat := 0
  /-- consecutive samples of low current; 07 R229; reset 0 -/
  openCount : Nat := 0
  /-- voltage formed in voltage mode, mV, the duty of leg 1 formed, and the one in force; 07 R222; reset 0 -/
  volts : Int := 0
  duty : Nat := 0
  dutyNow : Nat := 0
  /-- the AUTO decay of the sample is FAST; 07 R220; reset no -/
  fast : Bool := false
deriving DecidableEq, Repr

/-- Homing settings latched when HOME is accepted (R234). -/
structure HomeSet where
  high : Bool
  ticket : Nat
  secondary : Int
  switchValue : Int
  homeValue : Int
  seekSpeed : Int
  travel : Int
  backoff : Int
  current : Int
  acc : Int
  jerk : Int
  settle : Int
deriving DecidableEq, Repr

/-- One auxiliary axis. -/
structure AuxAxis where
  /-- the axis is enabled; 12 R380; reset disabled -/
  enabled : Bool := false
  startTicket : Option Nat := none
  stopTicket : Option Nat := none
  /-- STATE; 4; 07 R240; reset OFF -/
  state : AState := .off
  /-- REASON; 8: 0 NONE, 1 OVERCURRENT, 2 SENSE-LOST, 3 OPEN-COIL, 4 STALL; 07 R240; reset 0 -/
  reason : Fin 5 := 0
  /-- fault latch; 07 R229; reset clear -/
  latch : Bool := false
  /-- stall with action DISABLE, to be taken at the commit point; 07 R226; reset no -/
  stallStop : Bool := false
  /-- HSTEP; 4; 07 R240; reset NONE -/
  hstep : HStep := .none
  /-- homing settings in force; 07 R234; reset none -/
  home : Option HomeSet := none
  /-- homing reference taken, microsteps; 07 R235; reset none -/
  reference : Option Int := none
  /-- homing ended by a switch as secondary reference, and how it ends; status to give; 07 R236; reset none -/
  homeEnd : Option Nat := none
  /-- HOMED; 1; 07 R240; reset 0 -/
  homed : Bool := false
  /-- STALL; 1; 07 R240; reset 0 -/
  stall : Bool := false
  /-- VLIM; 1; 07 R240; reset 0 -/
  vlim : Bool := false
  /-- OFSLIM; 1; 07 R240; reset 0 -/
  ofsLim : Bool := false
  /-- ATPH, table phase; 10; 07 R215; reset 0 -/
  atph : BitVec 10 := 0
  /-- enable ramp, in frame ticks gone by; 07 R218; reset done -/
  ramp : Nat := 800
  /-- output position the last pass used, microsteps; 07 R235; reset 0 -/
  posAt : Int := 0
  /-- the hold delay has passed and STANDSTILL is due; 07 R227; reset no -/
  holdDue : Bool := false
  /-- the settle time has passed and the rebase is due; 07 R235; reset no -/
  settleDue : Bool := false
  /-- load angle lam `N:0x5a2D`, 2⁻³² of 360°; 32; 07 R225; reset 0 -/
  lam : Int := 0
  /-- raw load angle of the sample; 07 R224; reset 0 -/
  lraw : Int := 0
  /-- consecutive stall samples; 07 R225; reset 0 -/
  stallCount : Nat := 0
  wa : WindingSt := {}
  wb : WindingSt := {}
  gen : GenSt := {}
  /-- energy in `N:0x5a4C` and out `N:0x5a4D`, control-die totals; 64 each; 07 R239; reset 0 -/
  eIn : Counter := {}
  eOut : Counter := {}
deriving DecidableEq, Repr

/-! ## Groups and engines -/

/-- An entry of a coefficient queue (R130): a word with its selector and offset, or a SWAP. -/
inductive QEntry where
  | word (ticket : Nat) (selector : Nat) (offset : Nat) (value : Word) (last : Bool)
  | swap (ticket : Nat) (preset : Bool)
deriving DecidableEq, Repr

/-- Where a SWAP at the head of a queue stands (R133). -/
inductive SwapPhase where
  | idle | validating | validated
deriving DecidableEq, Repr

/-- Where the present sample of a group stands (R39, R40). -/
inductive SamplePhase where
  | none | filtering | ready | passing | retrying | settled
deriving DecidableEq, Repr

/-- Yield states, codes of YSTATE in R166. -/
inductive YState where
  | off | armed | yield | recover
deriving DecidableEq, Repr

/-- Tension, line and yield of one group. -/
structure YieldSt where
  /-- YSTATE; 3; 05 R166; reset OFF -/
  state : YState := .off
  /-- YEXH; 1; 05 R166; reset 0 -/
  exhausted : Bool := false
  /-- TLOST; 1; 05 R166; reset 0 -/
  lost : Bool := false
  /-- TVALID; 1; 05 R166; reset 0 -/
  tValid : Bool := false
  /-- tension of the last committed pass, N; 05 R150; reset 0 -/
  tension : Int := 0
  /-- the tension was at or above the ceiling in the last committed pass; 05 R163; reset no -/
  wasOver : Bool := false
  /-- validity of the host tension value; 05 R150; reset no -/
  hostValid : Bool := false
  /-- line position and that of the last committed sample, nm; s64; 05 R151; reset 0 -/
  line : Int := 0
  linePrev : Int := 0
  /-- the line position is valid; 05 R151; reset no -/
  lineValid : Bool := false
  /-- line position at entry to YIELD, nm; 05 R165; reset 0 -/
  entryLine : Int := 0
  /-- `N:0x1g27` length paid out, mm; 32; 05 R165; reset 0 -/
  paidOut : Nat := 0
  /-- cap at entry to RECOVER and ticks since entry; 05 R164; reset 0 -/
  entryCap : Int := 0
  recTicks : Nat := 0
  /-- SHOCK; 1; 05 R166; reset 0 -/
  shock : Bool := false
  /-- SHOCKS; 8; 05 R166; reset 0 -/
  shocks : Nat := 0
  /-- ticks since the last SHOCK sample; 05 R152; reset 800 -/
  quiet : Nat := 800
  /-- peak rate of the episode, N/ms, and whether its event is still to log; 05 R152; reset 0 -/
  peak : Int := 0
  /-- KAPPA; 8; 05 R166; reset 0 -/
  kappa : Nat := 0
deriving DecidableEq, Repr

/-- A running path of a group (R203 to R205): members with their start and distance, the parameter in 2⁻⁴⁸, its speed
and acceleration. -/
structure PathSt where
  ticket : Nat
  members : List (GenId × Int × Int)
  s : Int
  speed : Rat
  acc : Rat
  halting : Bool
deriving DecidableEq, Repr

/-- Level-wind of a group (R206 to R209). -/
structure WindSt where
  /-- drum reference of the ideal; 06 R208; reset 0 -/
  dref : Rat := 0
  /-- fold of the ideal at the last step, for counting turning points; 06 R207; reset 0 -/
  fold : Int := 0
  /-- `N:0x1g2E` shortfall; 32; 06 R206; reset 0 -/
  shortfall : Nat := 0
  /-- `N:0x1g2F` reversal count; 32; 06 R206; reset 0 -/
  count : Nat := 0
deriving DecidableEq, Repr

/-- Span data of one group (R438 to R443). -/
structure SpanSt where
  /-- `N:0x1g3C` exchange misses; 32; 14 R438; reset 0 -/
  misses : Nat := 0
  /-- a pass of the present start has looked for its packets; 14 R443; reset no -/
  begun : Bool := false
  /-- last values received from each module, with their sample number: as they come in, and as the present pass uses them;
  14 R440; reset empty -/
  arrived : List (Fin 8 × Word × List Int × List Nat) := []
  heard : List (Fin 8 × Word × List Int × List Nat) := []
  /-- modules whose packet for the present pass is in; 14 R443; reset empty -/
  fresh : List (Fin 8) := []
  /-- consecutive misses by module; 14 R443; reset 0 -/
  run : Vector Nat 8 := Vector.replicate 8 0
  /-- EMERG and STOP as they come in from another part, and as a pass has seen them; on a home part `stop` is the STOP to send;
  14 R443; reset no -/
  emergIn : Bool := false
  stopIn : Bool := false
  emerg : Bool := false
  stop : Bool := false
  /-- tick on which the span starts; 14 R439; reset none -/
  startAt : Option Nat := none
  /-- remote part runs; 14 R439; reset no -/
  remoteRuns : Bool := false
deriving DecidableEq, Repr

/-- What a group's sample instant latched of one feedback unit (R26). -/
structure FbLatch where
  pos : Int := 0
  speed : Int := 0
  data : Int := 0
  valid : Bool := false
  ref : Bool := false
deriving DecidableEq, Repr

/-- One control group. -/
structure Group where
  /-- running; 01 R23; reset stopped -/
  running : Bool := false
  /-- sample number of the present sample, and whether one has been taken since the start; 32; 01 R29; reset 0 -/
  sample : Word := 0
  sampled : Bool := false
  /-- feedback units as latched at the present sample's instant; 01 R26; reset 0 -/
  fbLatch : Vector FbLatch 16 := Vector.replicate 16 {}
  /-- stage of the present sample; 01 R40; reset none -/
  phase : SamplePhase := .none
  /-- a pass or retry whose deadline has passed runs on and is discarded; 01 R42; reset no -/
  stale : Bool := false
  /-- the last sample did not commit; 01 R42; reset no -/
  overran : Bool := false
  /-- disagreements of the survivor in succession; 10 R317; reset 0 -/
  disagreed : Nat := 0
  /-- samples whose repeated duties the ledger still has to take; 01 R47; reset 0 -/
  owed : Nat := 0
  /-- `N:0x1g0E` overrun count; 32; 01 R30; reset 0 -/
  overruns : Nat := 0
  /-- `N:0x1g0F` engine cost per pass; CD3 cycles; 01 R30; reset 0 -/
  cost : Nat := 0
  /-- changes in the engine input buffer, with the sample each waits for; 01 R35; reset empty -/
  inbox : List (Option Nat × EngChange) := []
  /-- tickets whose change is visible to the present sample; 12 R377; reset empty -/
  visible : List Nat := []
  /-- ABORTs visible to the present sample, with their targets; 11 R365; reset empty -/
  aborts : List (Nat × Nat) := []
  /-- orders to the generators latched for the next step; 06 R193; reset empty -/
  orders : List (Option Nat × MotionOrder) := []
  /-- ACTIVE bank; 1; 04 R148; reset BANK0 -/
  bank1 : Bool := false
  /-- coefficient queue, oldest first; 256 entries; 04 R130; reset empty -/
  queue : List QEntry := []
  /-- stage of the SWAP at the head of the queue; 04 R133; reset idle -/
  swapPhase : SwapPhase := .idle
  /-- a SWAP handed over, to become visible at the next sample: ticket and PRESET; 04 R133; reset none -/
  swapped : Option (Nat × Bool) := none
  /-- the present sample is the commit sample of a SWAP; 04 R133; reset none -/
  swapNow : Option (Nat × Bool) := none
  /-- CHKFAIL; 1; 04 R148; reset 0 -/
  chkFail : Bool := false
  /-- SAT; 1; 04 R148; reset 0 -/
  sat : Bool := false
  /-- states of the coupled block; up to 32 × 32; 04 R123; reset 0 -/
  xc : List Int := []
  /-- coupled inputs of the last commit, and κ of its share sets × 2¹⁶; 14 R440; reset empty -/
  uc : List Int := []
  kappas : List (Nat × Rat) := []
  yield : YieldSt := {}
  path : Option PathSt := none
  wind : WindSt := {}
  span : SpanSt := {}
  /-- ECAUSE; 8; 10 R330; reset NONE -/
  ecause : Nat := 0
  /-- EACTIVE; 1; 10 R330; reset 0 -/
  eactive : Bool := false
  /-- an entry to the emergency mode is due at the next commit point, with its cause; 10 R328; reset none -/
  edue : Option Nat := none
  /-- PHASE; 2; 10 R330; reset STOPPING -/
  ephase : Fin 3 := 0
  /-- EMODE; 2; 10 R330; reset LEHR -/
  emode : Nat := 0
  /-- HALT ticket on the group; 12 R378; reset none -/
  haltTicket : Option Nat := none
  /-- ticket of an ENABLE that waits for the coefficient queue; 04 R131; reset none -/
  starting : Bool := false
  /-- hauled and paid-out work, control-die totals, with their remainder; 64; 05 R181; reset 0 -/
  hauled : Counter := {}
  paid : Counter := {}
  /-- the valid VDC of the last link results by link since the start; 04 R125; reset none -/
  lastVdc : Vector (Option Int) 4 := Vector.replicate 4 none
deriving DecidableEq, Repr

/-- Which engines serve (R332). -/
inductive EngMode where
  | lockstep | simplexA | simplexB | lost
deriving DecidableEq, Repr

/-- What the engines do now (R40). -/
inductive Busy where
  | idle
  | segment (g : Grp) (retry : Bool)
  | checkSet (cause : Option Grp)
deriving DecidableEq, Repr

/-- The marver engines and their coefficient stores. -/
structure EngineSt where
  /-- ENG; 2; 10 R332; reset LOCKSTEP -/
  mode : EngMode := .lockstep
  /-- present work of the engines; 01 R40; reset idle -/
  busy : Busy := .idle
  /-- coefficient stores of MARVER-A and MARVER-B, bank × 8192 + word, words not zero; 2 × 16 384 × 32; 04 R128; reset 0
  (DESIGN CHOICE, log entry 1) -/
  storeA : List (Nat × Word) := []
  storeB : List (Nat × Word) := []
  /-- words that are uncorrectable in both engines and read as zero; 10 R314; reset empty -/
  lostWords : List Nat := []
  /-- ticks of the transients of the last 60 s, newest first; 10 R318; reset empty -/
  transients : List Nat := []
  /-- a cluster check set is asked for; 10 R318; reset no -/
  cluster : Bool := false
  /-- groups to check after ENGINE-UNLOCALISED; 10 R315; reset no -/
  regionCheck : Bool := false
deriving DecidableEq, Repr

/-! ## DC links and bitstreams -/

/-- Stages of R173, codes of STAGE. -/
inductive LinkStage where
  | normal | stage1 | stage2 | tripped
deriving DecidableEq, Repr

/-- One DC link. -/
structure Link where
  /-- VSTUCK, ISTUCK, VOVR, IOVR; 1 each; 03 R110; reset 0 -/
  vStuck : Bool := false
  iStuck : Bool := false
  vOvr : Bool := false
  iOvr : Bool := false
  /-- CHOUT; 1; 03 R110; reset 0 -/
  chOut : Bool := false
  /-- CHFB; 1; 03 R110; reset 0 -/
  chFb : Bool := false
  /-- CHMIS; 16; 03 R110; reset 0 -/
  chMis : Nat := 0
  /-- mismatches recorded in the present chopper period (BCH high, BCH low) and in the one before; 05 R174; reset no -/
  misHigh : Bool := false
  misLow : Bool := false
  prevHigh : Bool := false
  prevLow : Bool := false
  /-- a mismatch to report to the engine in the next pass; 03 R106; reset no -/
  misReport : Bool := false
  /-- chopper duty committed; 17; 03 R105; reset 0 -/
  duty : Nat := 0
  /-- voltage and current of the last result, mV and mA; 03 R104; reset 0 -/
  vdc : Int := 0
  idc : Int := 0
  /-- the last results are marked valid; 03 R98; reset no -/
  vValid : Bool := false
  iValid : Bool := false
  /-- STAGE; 3; 05 R177; reset NORMAL -/
  stage : LinkStage := .normal
  /-- consecutive results at or above Vtrip; 05 R173; reset 0 -/
  overTrip : Nat := 0
  /-- VWARN; 1; 05 R177; reset 0 -/
  vWarn : Bool := false
  /-- CHSHORT; 1; 05 R177; reset 0 -/
  chShort : Bool := false
  /-- CHLOST; 1; 05 R177; reset 0 -/
  chLost : Bool := false
  /-- CAUSE; 1, 1 = DVDT; 05 R177; reset 0 -/
  cause : Bool := false
  /-- STBY; 1; 05 R177; reset 0 -/
  standby : Bool := false
  /-- PEAK; 16, V; 05 R177; reset 0 -/
  peak : Nat := 0
  /-- link results of the last 200 µs with their ticks, newest first; 05 R174; reset empty -/
  history : List (Nat × Int) := []
  /-- tick since which the dV/dt condition holds; 05 R174; reset none -/
  dvdtSince : Option Nat := none
  /-- STO is requested after the brakes; 05 R176; reset no -/
  stoDue : Bool := false
  /-- energy in `N:0x4l19`, out `N:0x4l1A`, chopper `N:0x4l1B`, control-die totals; 64 each; 05 R178; reset 0 -/
  eIn : Counter := {}
  eOut : Counter := {}
  eChop : Counter := {}
deriving DecidableEq, Repr

/-- The bitstream inputs SDI0–SDI31. -/
structure SenseSt where
  /-- stuck; 1 each; 03 R98; reset no -/
  stuck : Vector Bool 32 := Vector.replicate 32 false
  /-- the channel's window now open began after the stuck period; 03 R98; reset yes -/
  cleanWindow : Vector Bool 32 := Vector.replicate 32 true
deriving DecidableEq, Repr

/-! ## Feedback units and switches -/

/-- One feedback unit (R241 to R281). -/
structure FbUnit where
  /-- CTRL: CMODE, KEEP, IDXEN, DIRINV, EN; 1 each; 08 R277; reset 0 -/
  modulo : Bool := false
  keep : Bool := false
  idxEn : Bool := false
  dirInv : Bool := false
  en : Bool := false
  /-- STAT VALID, REF, DIR; 1 each; 08 R278; reset 0 -/
  valid : Bool := false
  ref : Bool := false
  dir : Bool := false
  /-- STAT CAUSE; 2; 08 R278; reset NONE -/
  cause : Fin 4 := 0
  /-- STAT BEHIND, ARMED; 1 each; 08 R278; reset 0 -/
  behind : Bool := false
  armed : Bool := false
  /-- STAT SPANILL; 8; 08 R278; reset 0 -/
  spanIll : Nat := 0
  /-- STAT [11:0], W1C; 12; 08 R278; reset 0 -/
  flags : BitVec 12 := 0
  /-- FBn_IRQEN; 12; 08 R276; reset 0 -/
  irqEn : BitVec 12 := 0
  /-- present count, FBn_LIVE; s64; 08 R276; reset 0 -/
  count : Int := 0
  /-- latched position FBn_POS; s64; 08 R276; reset 0 -/
  pos : Int := 0
  /-- latched speed FBn_SPEED, 2⁻⁴ counts/s; s32; 08 R276; reset 0 -/
  speed : Int := 0
  /-- FBn_AGE, 10 ns; 32; 08 R276; reset 0 -/
  age : Nat := 0
  /-- FBn_PRESET; s64; 08 R276; reset 0 -/
  preset : Int := 0
  /-- FBn_SLIMLO, FBn_SLIMHI; s64; 08 R276; reset −2⁶³, 2⁶³ − 1 -/
  slimLo : Int := -9223372036854775808
  slimHi : Int := 9223372036854775807
  /-- FBn_MODULUS; 32; 08 R276; reset 0x0001_0000 -/
  modulus : Nat := 65536
  /-- FBn_CMP as written; s64; 08 R276; reset 0 -/
  cmp : Int := 0
  /-- armed compare value; s64; 08 R260; reset 0 -/
  cmpArmed : Int := 0
  /-- FBn_CMPSP; 32; 08 R276; reset 1 -/
  cmpSp : Nat := 1
  /-- spacing in force until the next advance; 32; 08 R264; reset 1 -/
  cmpSpNow : Nat := 1
  /-- FBn_CMPCTL GFF and CMPMODE; 1 and 2; 08 R279; reset 0 -/
  cmpGff : Bool := false
  cmpMode : Fin 3 := 0
  /-- FBn_CMPSKIP; 32; 08 R276; reset 0 -/
  cmpSkip : Nat := 0
  /-- FBn_LINES; 08 R276; reset 0x400 -/
  lines : Nat := 1024
  /-- FBn_IDXPOS; 32; 08 R276; reset 0 -/
  idxPos : Nat := 0
  /-- FBn_IDXDEV; s32; 08 R276; reset 0 -/
  idxDev : Int := 0
  /-- FBn_ILLCNT; 32; 08 R276; reset 0 -/
  illCnt : Nat := 0
  /-- FBn_SPDCFG; 32; 08 R280; reset 0x0420_0064 -/
  spdCfg : Word := 0x04200064
  /-- FBn_UCFG; 32; 08 R281; reset by type -/
  ucfg : Word := 0x00030300
  /-- FBn_DATA; 32; 08 R276; reset 0 -/
  data : Int := 0
  /-- FBn_ERRCNT; 32; 08 R276; reset 0 -/
  errCnt : Nat := 0
  /-- FBn_JUMP; 32; 08 R276; reset 0 -/
  jump : Nat := 0
  /-- filtered A, B, Z; 1 each; 08 R246; reset 0 -/
  a : Bool := false
  b : Bool := false
  z : Bool := false
  /-- counted edges since the span began; 08 R249; reset 0 -/
  spanEdges : Nat := 0
  /-- count at the last index event; 08 R251; reset none -/
  lastIndex : Option Int := none
  /-- out-of-tolerance indices in succession, and clean spans in succession; 08 R251, R252; reset 0 -/
  badIdx : Nat := 0
  cleanSpans : Nat := 0
  /-- turning point and whether DIRCHG is still to come for it; 08 R259; reset 0 -/
  turn : Int := 0
  turnPending : Bool := false
  /-- the speed is held after an illegal transition; 08 R248; reset no -/
  speedHeld : Bool := false
  /-- CD6 time of the last counted edge; 10 ns since the supply came up; 08 R257; reset none -/
  edgeAt : Option Int := none
  /-- CD6 time of the last change of DIR; 08 R257; reset 0 -/
  dirAt : Int := 0
  /-- records of the last frame ticks: count and last edge time, newest first; 800; 08 R257; reset empty -/
  records : List (Int × Int) := []
  /-- bad excitation periods in succession, or rejected frames; accepted frames in succession; 08 R267, R271; reset 0 -/
  bad : Nat := 0
  good : Nat := 0
  /-- resolver tracked angle, or last accepted serial position; 08 R266, R270; reset none -/
  lastRaw : Option Nat := none
  /-- a serial frame or its idle time is running, with the tick of its start; 08 R269; reset none -/
  frameAt : Option Int := none
  /-- sampling instant of the last accepted frame; 08 R269; reset none -/
  sampledAt : Option Int := none
deriving DecidableEq, Repr

/-- The switch inputs (R272, R282). -/
structure SwitchSt where
  /-- FB_SWPOL; 24; 08 R282; reset 0 -/
  pol : BitVec 24 := 0
  /-- filtered raw level; 24; 08 R272; reset 0 -/
  level : BitVec 24 := 0
  /-- samples for which the raw level has differed, by switch; 08 R272; reset 0 -/
  held : Vector Nat 24 := Vector.replicate 24 0
  /-- FB_SWCHAT; 24; 08 R282; reset 0 -/
  chatter : BitVec 24 := 0
  /-- FB_SWFLT0–5; 24 × 8; 08 R282; reset 0x0A each -/
  filter : Vector Byte 24 := Vector.replicate 24 0x0A
  /-- FB_SWEDGE; 24 W1C; 08 R282; reset 0 -/
  edge : BitVec 24 := 0
  /-- FB_SWIRQEN; 24; 08 R282; reset 0 -/
  irqEn : BitVec 24 := 0
  /-- ticks of the last transitions by switch, newest first; 07 R233; reset empty -/
  times : Vector (List Nat) 24 := Vector.replicate 24 []
  /-- active levels as latched at the frame tick; 24; 08 R272; reset 0 -/
  latched : BitVec 24 := 0
  /-- samples taken, 10 µs; model's; reset 0 -/
  samples : Nat := 0
deriving DecidableEq, Repr

/-! ## Safety channel -/

/-- States of an STO group, codes of STATE in R309. -/
inductive SState where
  | off | run | ss1 | braking | latched | fault
deriving DecidableEq, Repr

/-- One STO group. -/
structure StoSt where
  /-- STATE; 4; 09 R309; reset LATCHED -/
  state : SState := .latched
  /-- CAUSE; 8; 09 R309; reset NONE -/
  cause : Nat := 0
  /-- STOCMD; 1; 09 R309; reset 0 -/
  sto : Bool := false
  /-- STOPREQ; 1; 09 R309; reset 0 -/
  stopReq : Bool := false
  /-- SS1 reference and lowest speed, 0.01 Hz; 09 R296; reset 0 -/
  omega0 : Int := 0
  lowest : Int := 0
  /-- brakes of a BRAKE-FIRST sequence that have not settled; 4; 09 R287; reset 0 -/
  waitBrakes : BitVec 4 := 0
deriving DecidableEq, Repr

/-- One brake or contactor output and its feedback watch. -/
structure OutSt where
  /-- commanded energised; 1; 09 R310; reset 0 -/
  on : Bool := false
  /-- reported applied, or contactor confirmed in the commanded state; 09 R293; reset no -/
  applied : Bool := false
  /-- release confirmed; 09 R293; reset no -/
  released : Bool := false
  /-- the engage, release or discrepancy time is running; 09 R293; reset no -/
  timing : Bool := false
deriving DecidableEq, Repr

/-- A digital input with its sample filter. -/
structure InSt where
  /-- filtered level; 1; 09 R285; reset 0 -/
  level : Bool := false
  /-- samples for which the raw level has differed; 09 R285; reset 0 -/
  held : Nat := 0
deriving DecidableEq, Repr

/-- One axis as the safety channel watches it. -/
structure WatchSt where
  /-- messages in succession over the SLS limit; 09 R297; reset 0 -/
  slsOver : Nat := 0
  /-- messages in succession in which sensor and observer differ; 09 R298; reset 0 -/
  cross : Nat := 0
deriving DecidableEq, Repr

/-- The safety channel. -/
structure SafetySt where
  groups : Vector StoSt 4 := Vector.replicate 4 {}
  brakes : Vector OutSt 4 := Vector.replicate 4 {}
  contactors : Vector OutSt 4 := Vector.replicate 4 {}
  ctf : Vector InSt 8 := Vector.replicate 8 {}
  sreset : InSt := {}
  /-- 10 µs samples for which SRESET has been high; 09 R301; reset 0 -/
  sresetHigh : Nat := 0
  /-- filtered levels of ESTOP0_N and ESTOP1_N; 09 R285; reset low -/
  estop : Vector InSt 2 := Vector.replicate 2 {}
  /-- running safety parameters that differ from their defaults, by noun; 09 R306; reset empty -/
  running : List (Nat × Int) := []
  /-- PARAMOK; 1; 09 R310; reset 0 -/
  paramOk : Bool := false
  /-- FCAUSE; 4; 09 R310; reset NONE -/
  fcause : Nat := 0
  /-- FINDEX; 4; 09 R310; reset 0 -/
  findex : Nat := 0
  /-- lanes A and B lost; 1 each; 09 R289; reset not lost -/
  laneLost : Vector Bool 2 := Vector.replicate 2 false
  /-- messages without, and with, an intact copy in succession by lane; 09 R289; reset 0 -/
  laneMiss : Vector Nat 2 := Vector.replicate 2 0
  laneOk : Vector Nat 2 := Vector.replicate 2 0
  /-- monitoring lost; 1; 09 R290; reset lost (log entry 1) -/
  monLost : Bool := true
  /-- valid messages in succession; 09 R290; reset 0 -/
  validRun : Nat := 0
  /-- the last intact message, and whether it was valid; 09 R289; reset none -/
  last : Option MonMessage := none
  /-- the last valid message; 09 R290; reset none -/
  lastValid : Option MonMessage := none
  watch : Vector WatchSt 12 := Vector.replicate 12 {}
  /-- PAIRERR; 1; 09 R310; reset 0 -/
  pairErr : Bool := false
  /-- dark pulse in progress on an output; 09 R303; reset none -/
  pulse : Option SafeOut := none
  /-- the output of the pulse was de-energised by demand during it; 09 R303; reset no -/
  pulseVoid : Bool := false
  /-- timing after a CLOCK fault comes from the surviving clock; 09 R304; reset no -/
  oneClock : Bool := false
deriving DecidableEq, Repr

/-- What the status words show (R291). -/
structure StatusWords where
  state : Vector SState 4 := Vector.replicate 4 .latched
  cause : Vector Nat 4 := Vector.replicate 4 0
  stopReq : BitVec 4 := 0
  sto : BitVec 4 := 0
  brkOn : BitVec 4 := 0
  applied : BitVec 4 := 0
  released : BitVec 4 := 0
  ctdOn : BitVec 4 := 0
  ctdOk : BitVec 4 := 0
deriving DecidableEq, Repr

/-- The control die's side of the safety channel. -/
structure RequestSt where
  /-- torque request bits; 4; 09 R288; reset 0 -/
  torque : BitVec 4 := 0
  /-- brake release requests as sent; 4; 09 R288; reset 0 -/
  release : BitVec 4 := 0
  /-- monitoring sequence number; 16; 09 R288; reset 0 -/
  seq : BitVec 16 := 0
  /-- the message assembled last; 09 R288; reset none -/
  sent : Option MonMessage := none
  /-- status words in retention RAM; 09 R291; reset all LATCHED -/
  words : StatusWords := {}
  /-- status words as read at the last frame tick; 09 R291; reset all LATCHED -/
  seen : StatusWords := {}
deriving DecidableEq, Repr

/-! ## Fault masking and stores -/

/-- The processor pair, codes of CPU in R332. -/
inductive CpuMode where
  | original | puntyWith0 | puntyWith1 | lost
deriving DecidableEq, Repr

/-- Fault status. -/
structure FaultSt where
  /-- CPU; 2; 10 R332; reset ORIGINAL -/
  cpu : CpuMode := .original
  /-- CULLET free pool blocks; 8; 10 R332; reset 64 -/
  cullet : Nat := 64
  /-- XCASCADE, XFWIMAGE; 1 each; 10 R332; reset 0 -/
  xCascade : Bool := false
  xFwImage : Bool := false
  /-- `N:0x7001` to `N:0x7004`; 32 each; 10 R331; reset 0 -/
  transients : Nat := 0
  rollbacks : Nat := 0
  corrected : Nat := 0
  uncorrectable : Nat := 0
  /-- tick of the last core mismatch; 10 R323; reset none -/
  mismatchAt : Option Nat := none
  /-- the newer and older checkpoint are valid; 10 R321; reset no -/
  newerOk : Bool := false
  olderOk : Bool := false
  /-- the punty core is powered, PUNTYPWR; 15 R463; reset 0 -/
  puntyPower : Bool := false
  /-- the third core passed the self-test of the cold start; 16 R476; reset yes -/
  puntyGood : Bool := true
  /-- configuration blocks with a corrected word at the last scrub pass; 10 R326; reset empty -/
  weakBlocks : List (Fin 64) := []
  /-- remapped blocks; 10 R326; reset empty -/
  remapped : List (Fin 64) := []
  /-- valid firmware images; 10 R312; reset both -/
  images : Vector Bool 2 := Vector.replicate 2 true
deriving DecidableEq, Repr

/-- One configuration copy (R326, R390). -/
structure CopySt where
  /-- copy valid, SEQ and image words; 12 R389; reset invalid, 0, empty (log entry 1) -/
  valid : Bool := false
  seq : Nat := 0
  image : List Word := []
deriving DecidableEq, Repr

/-- The configuration store. -/
structure StoreSt where
  copies : Vector CopySt 2 := Vector.replicate 2 {}
  /-- staging area words not zero; 31 744 × 32; 12 R388; reset 0 (DESIGN CHOICE, log entry 1) -/
  staged : List (Nat × Word) := []
  /-- LASTERR; 8; 12 R389; reset NONE -/
  lastErr : Nat := 0
  /-- EXH; 1; 12 R389; reset 0 -/
  exhausted : Bool := false
  /-- BUSY with the COMMIT ticket and the target copy; 12 R389; reset none -/
  busy : Option (Nat × Fin 2) := none
  /-- a CAPTURE to be taken at the next checkpoint; 12 R391; reset none -/
  capture : Option Nat := none
  /-- SEQ from which the running set was loaded; 16 R468; reset 0 -/
  loadedSeq : Nat := 0
  /-- blocks due for refresh, and the age of the oldest block in 0.01 equivalent h; 20 R570; reset 0 -/
  due : Nat := 0
  oldest : Nat := 0
  /-- life accumulator at the last write by block: 0–4095 firmware, 4096–4223 configuration, listed where not 0; 20 R567 -/
  written : List (Nat × Nat) := []
  /-- blocks set due by a loss of VIN and not refreshed since; 4224; 20 R567; reset none -/
  stale : List Nat := []
deriving DecidableEq, Repr

/-- The ledger as the keeper holds it (R178). -/
structure LedgerSt where
  /-- keeper copies by noun, mJ; 64 each; 05 R178; reset 0 -/
  totals : List (Nat × Nat) := []
  /-- ledger epoch `N:0x4F10`; 32; 05 R178; reset 0 -/
  epoch : Word := 0
  /-- a CLEAR is due at the next checkpoint, with its ticket; 12 R384; reset none -/
  clearDue : Option Nat := none
  /-- `N:0x1g24` and `N:0x1g25` as last computed; 32; 05 R180; reset 0xFFFF_FFFF -/
  perWork : Vector Nat 8 := Vector.replicate 8 0xFFFFFFFF
  perThrust : Vector Nat 8 := Vector.replicate 8 0xFFFFFFFF
deriving DecidableEq, Repr

/-- The life accumulator (R564). -/
structure LifeSt where
  /-- `N:0xE008`, 0.01 equivalent h, with its remainder in 2⁻³²; 64; 20 R570; reset 0 -/
  acc : Nat := 0
  rest : Nat := 0
  /-- accumulator as saved hourly; 20 R564; reset 0 -/
  saved : Nat := 0
  /-- `N:0xA002`, `N:0xA003`, 0.1 °C; s32; 15 R462; reset 0 -/
  control : Int := 0
  keeper : Int := 0
  /-- `N:0xA001`, mV; 15 R462; reset 0 -/
  vin : Nat := 0
deriving DecidableEq, Repr

/-! ## CAN -/

/-- States of a transmit buffer, codes of TXSTAT in R424. -/
inductive TxState where
  | idle | pending | active | sent | aborted | failed | firmware
deriving DecidableEq, Repr

/-- A transmit buffer (R405, R425). -/
structure TxBuf where
  /-- buffer words; 20 × 32; 13 R425; reset 0 -/
  words : Vector Word 20 := Vector.replicate 20 0
  /-- buffer state; 4; 13 R424; reset IDLE -/
  state : TxState := .idle
  /-- an abort waits for the attempt to end; 13 R409; reset no -/
  aborting : Bool := false
  /-- BUSn_TXTSi; 32; 13 R422; reset 0 -/
  stamp : Word := 0
deriving DecidableEq, Repr

/-- A queue entry: 20 words (R425). -/
abbrev QueueEntry := List Word

/-- Fault confinement states, codes of FCS in R423. -/
inductive Fcs where
  | active | passive | busOff | init
deriving DecidableEq, Repr

/-- An identifier under duplicate tracking (R414), with the ticks of its counted errors, newest first. -/
structure Tracked where
  ide : Bool
  id  : BitVec 29
  errors : List Nat
  last : Nat
  marked : Bool
deriving DecidableEq, Repr

/-- A session's partial sentence (R368). -/
structure Partial where
  bytes : List Byte
  next  : Nat
deriving DecidableEq, Repr

/-- One CAN port. -/
structure CanPort where
  /-- CTRL MODE; 3; 13 R423; reset INIT -/
  mode : Fin 5 := 0
  /-- CTRL FDEN, BRSEN, ABOR, TXORD, ONESHOT; 1 each; 13 R423; reset 0, 0, 1, 0, 0 -/
  fdEn : Bool := false
  brsEn : Bool := false
  abor : Bool := true
  txOrd : Bool := false
  oneShot : Bool := false
  /-- a MODE written while a frame is in progress; 13 R397; reset none -/
  nextMode : Option (Fin 5) := none
  /-- STAT TIMERR, WREJ, PEX, BOFF, EPASS; 1 each W1C; 13 R423; reset 0 -/
  timErr : Bool := false
  wRej : Bool := false
  pex : Bool := false
  bOff : Bool := false
  ePass : Bool := false
  /-- STAT LECDATA, LEC; 1 and 3; 13 R423; reset 0 -/
  lecData : Bool := false
  lec : Fin 7 := 0
  /-- STAT SYNCED, RECOV; 1 each; 13 R423; reset 0 -/
  synced : Bool := false
  recov : Bool := false
  /-- bus-off recovery has started; 13 R411; reset no -/
  recovering : Bool := false
  /-- STAT FCS; 2; 13 R423; reset INIT -/
  fcs : Fcs := .init
  /-- tick at which bus-off was entered; 13 R411; reset 0 -/
  offSince : Nat := 0
  /-- a protocol exception is being waited out; 13 R396; reset no -/
  excepted : Bool := false
  /-- ERRC TEC, REC; 9 and 8; 13 R424; reset 0 -/
  tec : Nat := 0
  recv : Nat := 0
  /-- BUSn_NBT, BUSn_DBT; 32; 13 R422; reset 0x3E0F_0F01, 0x1E07_0700 -/
  nbt : Word := 0x3E0F0F01
  dbt : Word := 0x1E070700
  /-- TDC TDCEN, TDCO, TDCV; 1, 7, 7; 13 R422; reset 0 -/
  tdcEn : Bool := false
  tdco : BitVec 7 := 0
  tdcv : BitVec 7 := 0
  /-- BUSn_IRQEN, BUSn_IRQ; 10 each; 13 R422; reset 0 -/
  irqEn : BitVec 10 := 0
  irq : BitVec 10 := 0
  /-- QCFG DEFQ, Q1MODE, Q0MODE; 2, 1, 1; 13 R422; reset 0 -/
  defq : BitVec 2 := 0
  q1Over : Bool := false
  q0Over : Bool := false
deriving DecidableEq, Repr

/-- The buffers, queues and sessions of one CAN port. -/
structure CanBufs where
  /-- RXQ0, RXQ1, oldest first; 64 entries each; 13 R402; reset empty -/
  q0 : List QueueEntry := []
  q1 : List QueueEntry := []
  /-- QOVF; 16 each; 13 R422; reset 0 -/
  ovf0 : Nat := 0
  ovf1 : Nat := 0
  tx : Vector TxBuf 3 := Vector.replicate 3 {}
  /-- the buffer whose frame is on the bus; 13 R407; reset none -/
  sending : Option (Fin 3) := none
  /-- PEXCNT, RXCNT, TXCNT, ERRCNT; 32 each; 13 R422; reset 0 -/
  pexCnt : Nat := 0
  rxCnt : Nat := 0
  txCnt : Nat := 0
  errCnt : Nat := 0
  /-- RSELRB; 11; 13 R422; reset 0 -/
  rsel : BitVec 11 := 0
  /-- FIDf, FMASKf; 32 × 64; 13 R426; reset 0 -/
  fid : Vector Word 32 := Vector.replicate 32 0
  fmask : Vector Word 32 := Vector.replicate 32 0
  /-- tracked identifiers; 16; 13 R414; reset empty -/
  tracked : List Tracked := []
  /-- partial sentence by session; 8; 11 R368; reset none -/
  partials : Vector (Option Partial) 8 := Vector.replicate 8 none
  /-- reply frames of the sessions to send from TXB2, oldest first, with session and ticket; 11 R368; reset empty -/
  replies : List (Fin 8 × Nat × CanFrame) := []
deriving DecidableEq, Repr

/-- A roster entry (R427). -/
structure RosterEntry where
  port   : Port
  node   : Nat
  silent : Bool
  dup    : Option (BitVec 29)
  lide   : Bool
  seen   : Nat
  frames : Nat
  errors : Nat
  lastId : BitVec 29
deriving DecidableEq, Repr

/-- What the four ports share. -/
structure RosterSt where
  /-- roster by index, listed where used; 2048 entries; 13 R415; reset empty -/
  entries : List (Nat × RosterEntry) := []
  /-- epoch `N:0x8F01`, and BUSn_TSC as at the last frame tick in 1/2 µs, below 0 between a wrap and the next tick;
  13 R412; reset 0 -/
  epoch : Word := 0
  tsc2 : Int := 0
  /-- tick of the last ROSTER-FULL record; 10 R336; reset none -/
  fullAt : Option Nat := none
deriving DecidableEq, Repr

/-! ## Cascade -/

/-- The cascade (R428 to R445). -/
structure CascadeSt where
  /-- CXEN as read at the last cold start; 14 R428; reset low -/
  enabled : Bool := false
  /-- CASCADE ID; 3; 14 R428; reset 0 -/
  ident : Fin 8 := 0
  /-- MEMBERS; 8; 14 R445; reset 0 -/
  members : BitVec 8 := 0
  /-- ring order in direction A; `N:0x9001`; 14 R444; reset empty -/
  order : List (Fin 8) := []
  /-- MASTER; 3; 14 R445; reset 0 -/
  master : Fin 8 := 0
  /-- MEPOCH; 8; 14 R445; reset 0 -/
  mepoch : Byte := 0
  /-- LOCKED, FORMED, DUPID, ISMASTER; 1 each; 14 R445; reset 0 -/
  locked : Bool := false
  formed : Bool := false
  dupId : Bool := false
  isMaster : Bool := false
  /-- AINUP, AOUTUP, BINUP, BOUTUP; 1 each; 14 R445; reset 0 -/
  aIn : Bool := false
  aOut : Bool := false
  bIn : Bool := false
  bOut : Bool := false
  /-- `N:0x9002` to `N:0x9005`; 32 each; 14 R444; reset 0 -/
  crcA : Nat := 0
  crcB : Nat := 0
  misses : Nat := 0
  takeovers : Nat := 0
  /-- SYNC packets missed in succession; 14 R433; reset 0 -/
  syncMiss : Nat := 0
  /-- modules heard since the last SYNC; 14 R433; reset empty -/
  heard : List (Fin 8) := []
  /-- offset of the own frame tick from the master's in ns, and ticks within ±40 ns; 14 R432; reset 0 -/
  offset : Int := 0
  /-- packets already taken, newest first; 14 R434; reset empty -/
  taken : List (Fin 8 × Nat) := []
  /-- what each other module last reported of its spans; 14 R437; reset empty -/
  reports : List (Fin 8 × List SpanReport) := []
  /-- packets sent by the module, oldest first: the cascade outputs; 14 R434; reset empty -/
  out : List CxBody := []
  /-- copies forwarded; 14 R434; reset empty -/
  forwarded : List CxPacket := []
  /-- ticks of the CRC failures of the last 1 ms by direction; 14 R435; reset empty -/
  failsA : List Nat := []
  failsB : List Nat := []
  /-- the ring is split in two partitions; 14 R436; reset no -/
  split : Bool := false
deriving DecidableEq, Repr

/-! ## Supply, starts, gather FIFO, test registers -/

/-- Where the module stands between supply and torque-ready. -/
inductive PowerPhase where
  | noVin | coldStart | warmStart | awake | safeHold | romHold | asleep | inReset | brownedOut
deriving DecidableEq, Repr

/-- A sleep or restart asked for and due 2 ms after its reply (R383). -/
inductive Due where
  | sleep (seconds : Nat) | warm | cold
deriving DecidableEq, Repr

/-- Supply, clocks and sleep. -/
structure PowerSt where
  /-- phase of the module; model's; reset: a cold start may run -/
  phase : PowerPhase := .coldStart
  /-- VINOK; 1; 15 R463; reset 0 -/
  vinOk : Bool := false
  /-- VLOW, VLOWSEEN, XTALLOST; 1 each; 15 R463; reset 0 -/
  vLow : Bool := false
  vLowSeen : Bool := false
  xtalLost : Bool := false
  /-- REF; 2: 0 INTERNAL, 1 CRYSTAL, 2 HOLDOVER, 3 SLEWING; 15 R463; reset 0 -/
  reference : Fin 4 := 0
  /-- XTALFIT; 1; 15 R463; reset 0 -/
  xtalFit : Bool := false
  /-- wake record CAUSE; 8; 15 R464; reset NONE -/
  cause : Nat := 0
  /-- wake record TIMER and SOURCES; 1 and 18; 15 R464; reset 0 -/
  timerBit : Bool := false
  sources : BitVec 18 := 0
  /-- `N:0xA00D`; 32; 15 R462; reset 0 -/
  sleeps : Nat := 0
  /-- `N:0xA00E`; 64; 15 R462; reset 0 -/
  lastSleep : Nat := 0
  /-- keeper time at end of entry, wake timer in s; 15 R458; reset 0 -/
  sleptAt : Nat := 0
  wakeTimer : Nat := 0
  /-- wake enable and encoder threshold as latched at entry; 15 R462; reset 0 -/
  wakeEn : BitVec 18 := 0
  wakeCounts : Nat := 0
  /-- sources latched before wake begins, and the timer; 15 R459; reset 0 -/
  latched : BitVec 18 := 0
  latchedTimer : Bool := false
  /-- switch levels at end of entry; 8; 15 R458; reset 0 -/
  levels : BitVec 8 := 0
  /-- a sleep or restart is due; 12 R383; reset none -/
  due : Option Due := none
  /-- ticket of a SLEEP or RESTART that waits for the axes; 12 R385; reset none -/
  dueTicket : Option Nat := none
  /-- a brownout ended the last awake phase; 15 R448; reset no -/
  brownout : Bool := false
  /-- RST_N is qualified low; 16 R483; reset no -/
  rstLow : Bool := false
  /-- keeper time at the last 60-s sample of the present sleep; 20 R564; reset 0 -/
  minuteAt : Nat := 0
deriving DecidableEq, Repr

/-- The retention signature block and what it covers (R467, R468). -/
structure RetentionSt where
  /-- written and not invalidated; 16 R469; reset invalid -/
  valid : Bool := false
  /-- no uncorrectable word found since it was written; 16 R466; reset yes -/
  clean : Bool := true
  /-- configuration SEQ, event-log SEQ and keeper time of the block; 16 R468; reset 0 -/
  seq : Nat := 0
  logSeq : Nat := 0
  time : Nat := 0
  /-- running set as at entry; 16 R467; reset empty -/
  nouns : List (Nat × Int) := []
  regs : List (Nat × Word) := []
  /-- microstep tables as at entry; 16 R467; reset empty -/
  tables : List (Nat × Word) := []
  /-- counts, filtered states and REF of the feedback units at entry; 08 R274; reset empty -/
  counts : List (Int × Bool × Bool × Bool) := []
  /-- keeper counting of E0–E3: FB_KDLTn, last filtered A and B; 08 R273; reset 0 -/
  delta : Vector Int 4 := Vector.replicate 4 0
  keepAB : Vector (Option (Bool × Bool)) 4 := Vector.replicate 4 none
  /-- raw samples in succession of a new level, A and B; 08 R273; reset 0 -/
  keepHeld : Vector (Nat × Nat) 4 := Vector.replicate 4 (0, 0)
  /-- SLEEPLOST of the present sleep; 08 R273; reset no -/
  lost : Vector Bool 4 := Vector.replicate 4 false
deriving DecidableEq, Repr

/-- Starts. -/
structure StartSt where
  /-- FSTEP; 8; 16 R487; reset 0 -/
  fstep : Nat := 0
  /-- WFAIL; 4; 16 R487; reset 0 -/
  wfail : Nat := 0
  /-- SAFEHOLD, READY, RSTMASK, SEQCHG, BISTSKIP, FBACK; 1 each; 16 R487; reset 0 -/
  safeHold : Bool := false
  ready : Bool := false
  rstMask : Bool := false
  seqChg : Bool := false
  bistSkip : Bool := false
  fback : Bool := false
  /-- TYPE is WARM; 16 R487; reset COLD -/
  warm : Bool := false
  /-- `N:0xB001`, `N:0xB002`, `N:0xB003`; 32 each; 16 R486; reset 0 -/
  colds : Nat := 0
  warms : Nat := 0
  micros : Nat := 0
  /-- the next start follows a loss of VIN; 20 R567; reset no -/
  afterLoss : Bool := false
  /-- the next COLD-START record is followed by RESET-STUCK; 16 R484; reset no -/
  stuck : Bool := false
  /-- SDI windows, MCLK running; 03 R99; reset no -/
  mclk : Bool := false
deriving DecidableEq, Repr

/-- A record waiting for the FIFO writer: BODY words without tag (R490). -/
abbrev GffBody := List Nat

/-- The gather FIFO (R488 to R498). -/
structure GffSt where
  /-- CTRL EN, COMPARE, SWITCH, TRACE; 1 each; 17 R497; reset 0 -/
  en : Bool := false
  compare : Bool := false
  switch : Bool := false
  trace : Bool := false
  /-- FIFO words, oldest first; 8192 × 32; 17 R488; reset empty -/
  words : List Word := []
  /-- STAT WREJ, OVF; 1 each W1C; 17 R498; reset 0 -/
  wRej : Bool := false
  ovf : Bool := false
  /-- GFF_THR; 14; 17 R497; reset 0x1000 -/
  thr : BitVec 14 := 0x1000
  /-- GFF_IRQEN, GFF_IRQ; 3 each; 17 R497; reset 0 -/
  irqEn : BitVec 3 := 0
  irq : BitVec 3 := 0
  /-- GFF_DROP; 32; 17 R497; reset 0 -/
  drop : Nat := 0
  /-- GFF_SWSEL; 24; 17 R497; reset 0 -/
  swSel : BitVec 24 := 0
  /-- GFF_TRCCFG; 32; 17 R497; reset 0 -/
  trcCfg : Word := 0
  /-- GFF_TRCSIG; 32; 17 R497; reset 0 -/
  trcSig : Word := 0
  /-- record sequence; 8; 17 R488; reset 0 -/
  seq : Byte := 0
  /-- pending records by source; 17 R491; reset none -/
  pendCompare : Vector (Option GffBody) 16 := Vector.replicate 16 none
  pendSwitch : Vector (Option GffBody) 24 := Vector.replicate 24 none
  pendTrace : Option (Nat × GffBody) := none
  pendMarker : Option GffBody := none
  /-- the values of the last committed pass of the traced group, by code of GFF_TRCSIG; 17 R490; reset empty -/
  traced : List (Option Int) := []
  /-- records dropped since the last LOSS record, one pending while not 0; 28; 17 R490; reset 0 -/
  loss : Nat := 0
deriving DecidableEq, Repr

/-- The test registers (R499 to R504). -/
structure TestSt where
  /-- TST_LOCK OPEN; 1; 17 R504; reset 0 -/
  openLock : Bool := false
  /-- the first key word was applied in the last frame; 17 R499; reset no -/
  keyed : Bool := false
  /-- TST_HRDY, TST_GFF, TST_CXDLY, TST_SINC, TST_ENG, TST_PWM; 32 each; 17 R504; reset 0 -/
  hrdy : Word := 0
  gff : Word := 0
  cxdly : Word := 0
  sinc : Word := 0
  eng : Word := 0
  pwm : Word := 0
  /-- bits of a TST_SINC injection still to make; 17 R502; reset 0 -/
  sincLeft : Nat := 0
deriving DecidableEq, Repr

/-! ## The state -/

/-- The state of the block. -/
structure State where
  /-- the family member; 00 R4; reset HT1208 -/
  member : Member := .ht1208
  time : TimeSt := {}
  /-- writable parameter nouns whose value is not the default, by noun ID, rising; 12 R369, R372; reset empty (all defaults) -/
  nouns : List (Nat × Int) := []
  groups : Vector Group 8 := Vector.replicate 8 {}
  mains : Vector MainAxis 12 := Vector.replicate 12 {}
  auxs : Vector AuxAxis 8 := Vector.replicate 8 {}
  links : Vector Link 4 := Vector.replicate 4 {}
  engines : EngineSt := {}
  sense : SenseSt := {}
  /-- microstep table entries that differ from the default content, table × 256 + entry; 8 × 256 × 32; 07 R216; reset empty -/
  tables : List (Nat × Word) := []
  fb : Vector FbUnit 16 :=
    (Vector.replicate 8 ({} : FbUnit) ++ Vector.replicate 4 ({ ucfg := 0x00000151 } : FbUnit)) ++
      Vector.replicate 4 ({ ucfg := 0x8D008301 } : FbUnit)
  switches : SwitchSt := {}
  safety : SafetySt := {}
  requests : RequestSt := {}
  faults : FaultSt := {}
  log : LogSt := {}
  mail : MailSt := {}
  store : StoreSt := {}
  ledger : LedgerSt := {}
  life : LifeSt := {}
  can : Vector CanPort 4 := Vector.replicate 4 {}
  canBufs : Vector CanBufs 4 := Vector.replicate 4 {}
  roster : RosterSt := {}
  cascade : CascadeSt := {}
  power : PowerSt := {}
  retention : RetentionSt := {}
  start : StartSt := {}
  gff : GffSt := {}
  test : TestSt := {}
  /-- the model's own counter of free values drawn (log entry 2); reset 0 (DESIGN CHOICE) -/
  free : Nat := 0
  /-- commands waiting, first in first out; model's; reset empty -/
  pending : List Instr := []
deriving DecidableEq, Repr

/-- The state after reset: every field at its default. -/
def State.reset : State := {}

end Sys2Proof.Machine
end

