-- ==== Sys2Proof/Machine/Ops.lean ====
section
/-! DEFINITION. The named operations the meanings share: exact arithmetic with an explicit narrowing, CRCs, sparse
canonical lists, access to the numbered parts of the state, event records and ticket bookkeeping. -/

namespace Sys2Proof.Machine

/-- What every meaning answers. -/
abbrev Out := Host.Outcome State Fault Refusal

/-! ## Arithmetic -/

/-- Hold `x` between `lo` and `hi`. -/
def clampI (lo hi x : Int) : Int := if x < lo then lo else if hi < x then hi else x

/-- Hold a rational between two bounds. -/
def clampR (lo hi x : Rat) : Rat := if x < lo then lo else if hi < x then hi else x

def minI (a b : Int) : Int := if a ≤ b then a else b
def maxI (a b : Int) : Int := if a ≤ b then b else a
def minR (a b : Rat) : Rat := if a ≤ b then a else b
def maxR (a b : Rat) : Rat := if a ≤ b then b else a
def absI (a : Int) : Int := if a < 0 then -a else a
def absR (a : Rat) : Rat := if a < 0 then -a else a
def signI (a : Int) : Int := if a < 0 then -1 else if a = 0 then 0 else 1
def signR (a : Rat) : Rat := if a < 0 then -1 else if a = 0 then 0 else 1

/-- Saturation to a signed 32-bit word. -/
def sat32 (x : Int) : Int := clampI (-2147483648) 2147483647 x

/-- Saturation to a signed 64-bit word. -/
def sat64 (x : Int) : Int := clampI (-9223372036854775808) 9223372036854775807 x

/-- Wrap to a signed 32-bit word (two's complement, R16). -/
def wrap32 (x : Int) : Int := (x + 2147483648) % 4294967296 - 2147483648

/-- Wrap to a signed 64-bit word. -/
def wrap64 (x : Int) : Int := (x + 9223372036854775808) % 18446744073709551616 - 9223372036854775808

/-- Wrap to a signed 16-bit half word. -/
def wrap16 (x : Int) : Int := (x + 32768) % 65536 - 32768

/-- An angle in 2⁻³² of 360°, wrapped to [0, 2³²). -/
def wrapU32 (x : Int) : Int := x % 4294967296

/-- Division rounded towards minus infinity, for a positive divisor. -/
def floorDiv (a b : Int) : Int := a.fdiv b

/-- Division rounded up. -/
def ceilDiv (a b : Int) : Int := -((-a).fdiv b)

/-- Division rounded to nearest, halves away from zero. -/
def roundDiv (a b : Int) : Int := if a < 0 then -((2 * (-a) + b).fdiv (2 * b)) else (2 * a + b).fdiv (2 * b)

/-- Division truncated towards zero. -/
def truncDiv (a b : Int) : Int := a.tdiv b

/-- A rational rounded to the nearest integer, halves away from zero. -/
def roundR (x : Rat) : Int := roundDiv x.num x.den

/-- A rational truncated towards zero. -/
def truncR (x : Rat) : Int := x.num.tdiv x.den

/-- Saturating increment of a counter with a maximum. -/
def satInc (max n : Nat) : Nat := if n < max then n + 1 else max

/-- A sample number is at or past another, modulo 2³² (R29). -/
def sampleReached (present k : Nat) : Bool := decide ((present + 4294967296 - k % 4294967296) % 4294967296 < 2147483648)

/-- The maximum of a 32-bit counter. -/
def max32 : Nat := 4294967295

/-- Saturating increment of a 32-bit counter (R336). -/
def inc32 (n : Nat) : Nat := satInc max32 n

/-- Saturating sum of a 32-bit counter. -/
def add32 (n k : Nat) : Nat := if n + k ≤ max32 then n + k else max32

/-- Integer square root, rounded down: one binary digit of the root per unit of fuel. -/
def isqrtFrom : Nat → Nat → Nat → Nat
  | 0, _, r => r
  | k + 1, n, r => let t := r + 2 ^ k; isqrtFrom k n (if t * t ≤ n then t else r)

/-- Integer square root of a number below 2²⁵⁶. -/
def isqrt (n : Nat) : Nat := isqrtFrom 128 n 0

/-! ## Words and CRCs -/

/-- A word's value as a signed integer. -/
def wordInt (w : Word) : Int := w.toInt

/-- A signed or unsigned integer as a word, modulo 2³². -/
def intWord (x : Int) : Word := BitVec.ofInt 32 x

/-- Bits `lo … lo + n − 1` of a number. -/
def bitsOf (x lo n : Nat) : Nat := (x / 2 ^ lo) % 2 ^ n

/-- One bit of a number. -/
def bitAt (x i : Nat) : Bool := x.testBit i

/-- A truth value as a number. -/
def b2n (b : Bool) : Nat := if b then 1 else 0

/-- A word with one field placed at a bit. -/
def field (lo n v : Nat) : Nat := (v % 2 ^ n) * 2 ^ lo

/-- The two words of a 64-bit value, low word first (R371). -/
def twoWords (x : Int) : List Word := [intWord x, intWord (x.fdiv 4294967296)]

/-- The four bytes of a word, most significant first: transmission order on the host link (R340). -/
def bytesBE (w : Word) : List Nat :=
  let n := w.toNat
  [n / 16777216 % 256, n / 65536 % 256, n / 256 % 256, n % 256]

/-- The four bytes of a word, least significant first (R16). -/
def bytesLE (w : Word) : List Nat := (bytesBE w).reverse

/-- A word from four bytes, least significant first. -/
def wordLE (b : List Nat) : Word := BitVec.ofNat 32 (b.reverse.foldl (fun a x => a * 256 + x) 0)

/-- CRC-8 over one byte's eight bits: polynomial 0x1D (R340). -/
def crc8Bits : Nat → Nat → Nat
  | 0, c => c
  | k + 1, c => if c ≥ 128 then crc8Bits k ((2 * c) % 256 ^^^ 0x1D) else crc8Bits k (2 * c)

/-- CRC-8 SAE J1850 over bytes (R340): initial value 0xFF, final XOR 0xFF, no reflection. -/
def crc8 (bytes : List Nat) : Nat := bytes.foldl (fun c b => crc8Bits 8 (c ^^^ b)) 0xFF ^^^ 0xFF

/-- CRC-32 over one byte's eight bits, reflected ISO 3309 polynomial. -/
def crc32Bits : Nat → Nat → Nat
  | 0, c => c
  | k + 1, c => if c % 2 = 1 then crc32Bits k (c / 2 ^^^ 0xEDB88320) else crc32Bits k (c / 2)

/-- CRC-32 (ISO 3309 polynomial) over bytes. -/
def crc32 (bytes : List Nat) : Nat := bytes.foldl (fun c b => crc32Bits 8 (c ^^^ b)) 0xFFFFFFFF ^^^ 0xFFFFFFFF

/-- CRC-32 over words, each little-endian. -/
def crc32Words (ws : List Word) : Nat := crc32 (ws.flatMap bytesLE)

/-! ## Sparse lists

A store of many cells is a list of the cells whose content differs from what an unlisted cell holds, keys rising. -/

/-- The content of cell `k`, where an unlisted cell holds `d`. -/
def sget {α : Type} (d : α) (l : List (Nat × α)) (k : Nat) : α :=
  match l with
  | [] => d
  | (i, v) :: r => if i = k then v else sget d r k

/-- Remove cell `k`. -/
def sdel {α : Type} (l : List (Nat × α)) (k : Nat) : List (Nat × α) :=
  match l with
  | [] => []
  | (i, v) :: r => if i = k then r else if k < i then (i, v) :: r else (i, v) :: sdel r k

/-- List cell `k` with content `v`, keys staying in rising order. -/
def sins {α : Type} (l : List (Nat × α)) (k : Nat) (v : α) : List (Nat × α) :=
  match l with
  | [] => [(k, v)]
  | (i, w) :: r => if i = k then (k, v) :: r else if k < i then (k, v) :: (i, w) :: r else (i, w) :: sins r k v

/-- Store `v` in cell `k`: a cell that comes to hold `d` is unlisted, so that equal stores are equal lists. -/
def sput {α : Type} [DecidableEq α] (d : α) (l : List (Nat × α)) (k : Nat) (v : α) : List (Nat × α) :=
  if v = d then sdel l k else sins l k v

/-- Store words in consecutive cells from `k`. -/
def sputs (l : List (Nat × Word)) (k : Nat) : List Word → List (Nat × Word)
  | [] => l
  | w :: r => sputs (sput 0 l k w) (k + 1) r

/-- Read `n` consecutive cells from `k`. -/
def sgets (l : List (Nat × Word)) (k n : Nat) : List Word := (List.range n).map fun i => sget 0 l (k + i)

/-- Keys strictly rise from above `lo`. -/
def Rising {α : Type} (lo : Nat) : List (Nat × α) → Prop
  | [] => True
  | (i, _) :: r => lo ≤ i ∧ Rising (i + 1) r

/-- The canonical form of a sparse list with default `d`: keys strictly rising, no cell listed at `d`. -/
def Canon {α : Type} (d : α) (l : List (Nat × α)) : Prop := Rising 0 l ∧ ∀ p ∈ l, p.2 ≠ d

/-! ## Vectors -/

/-- Change one place of a vector. -/
def vmod {α : Type} {n : Nat} (v : Vector α n) (i : Fin n) (f : α → α) : Vector α n := v.set i (f v[i])

/-- All indices of a finite range, in rising order. -/
def fins (n : Nat) : List (Fin n) := List.finRange n

/-- Fold over all indices of a finite range in rising order. -/
def eachFin {σ : Type} (n : Nat) (f : σ → Fin n → σ) (s : σ) : σ := (fins n).foldl f s

/-- Change one place of a list. -/
def lset {α : Type} (l : List α) (i : Nat) (a : α) : List α := l.set i a

namespace State

/-! ## The numbered parts of the state -/

def modMain (s : State) (m : Main) (f : MainAxis → MainAxis) : State := { s with mains := vmod s.mains m f }
def modComm (s : State) (m : Main) (f : CommSt → CommSt) : State := s.modMain m fun a => { a with comm := f a.comm }
def modGlance (s : State) (m : Main) (f : GlanceSt → GlanceSt) : State :=
  s.modMain m fun a => { a with glance := f a.glance }
def modDrive (s : State) (m : Main) (f : DriveSt → DriveSt) : State := s.modMain m fun a => { a with drive := f a.drive }
def modEng (s : State) (m : Main) (f : EngAxis → EngAxis) : State := s.modMain m fun a => { a with eng := f a.eng }
def modShare (s : State) (m : Main) (f : ShareSt → ShareSt) : State := s.modMain m fun a => { a with share := f a.share }
def modAux (s : State) (a : AuxNo) (f : AuxAxis → AuxAxis) : State := { s with auxs := vmod s.auxs a f }
def modGroup (s : State) (g : Grp) (f : Group → Group) : State := { s with groups := vmod s.groups g f }
def modYield (s : State) (g : Grp) (f : YieldSt → YieldSt) : State := s.modGroup g fun x => { x with yield := f x.yield }
def modLink (s : State) (l : LinkNo) (f : Link → Link) : State := { s with links := vmod s.links l f }
def modFb (s : State) (n : FbNo) (f : FbUnit → FbUnit) : State := { s with fb := vmod s.fb n f }
def modPort (s : State) (p : Port) (f : CanPort → CanPort) : State := { s with can := vmod s.can p f }
def modBufs (s : State) (p : Port) (f : CanBufs → CanBufs) : State := { s with canBufs := vmod s.canBufs p f }
def modMail (s : State) (f : MailSt → MailSt) : State := { s with mail := f s.mail }
def modSafety (s : State) (f : SafetySt → SafetySt) : State := { s with safety := f s.safety }
def modReq (s : State) (f : RequestSt → RequestSt) : State := { s with requests := f s.requests }
def modCascade (s : State) (f : CascadeSt → CascadeSt) : State := { s with cascade := f s.cascade }
def modGff (s : State) (f : GffSt → GffSt) : State := { s with gff := f s.gff }
def modPower (s : State) (f : PowerSt → PowerSt) : State := { s with power := f s.power }

/-- The generator of an axis. -/
def gen (s : State) : GenId → GenSt
  | .main m => s.mains[m].gen
  | .aux a => s.auxs[a].gen

def modGen (s : State) (x : GenId) (f : GenSt → GenSt) : State :=
  match x with
  | .main m => s.modMain m fun a => { a with gen := f a.gen }
  | .aux a => s.modAux a fun v => { v with gen := f v.gen }

/-- One free value is used up (log entry 2). -/
def drawn (s : State) : State := { s with free := s.free + 1 }

/-- The module is awake past the point at which firmware runs: every event of the control die happens only there. -/
def awake (s : State) : Bool := s.power.phase == .awake || s.power.phase == .safeHold

/-- The firmware runs: awake, from an image, with a processor pair. -/
def fwRuns (s : State) : Bool := s.awake && s.faults.cpu != .lost

end State

/-! ## Windows of time, counted in frame ticks -/

def ticks1ms : Nat := 80
def ticks50ms : Nat := 4000
def ticks100ms : Nat := 8000
def ticks1s : Nat := 80000
def ticks60s : Nat := 4800000
def ticks1h : Nat := 288000000

/-! ## Event records -/

/-- Severities of R334. -/
def sevInfo : Nat := 0
def sevWarn : Nat := 1
def sevMasked : Nat := 2
def sevDetected : Nat := 3
def sevExposure : Nat := 4

/-- Code of ENGINE-TRANSIENT (R335). -/
def codeTransient : Nat := 0x0A01

/-- The clock hour of a keeper time (R318). -/
def clockHour (t : Nat) : Nat := t / (3600 * 32768)

/-- Whether a record also goes to the persistent log: severity MASKED and above (R333), of ENGINE-TRANSIENT only the
first in each clock hour (R318). -/
def goesPersistent (l : LogSt) (r : Record) : Bool :=
  decide (sevMasked ≤ r.sev) && !(r.code == codeTransient && l.transientHour == some (clockHour r.time))

/-- Add a record to the logs (R333, R335). -/
def addRecord (l : LogSt) (r : Record) : LogSt :=
  let seq := (l.head + 1) % 4294967296
  let l1 := { l with
    head := seq
    ram := ((seq, r) :: l.ram).take 4096
    irq := l.irq ||| 2 ||| (if sevMasked ≤ r.sev then 1 else 0) }
  if goesPersistent l r then
    { l1 with
      persistent := ((seq, r) :: l.persistent).take 512
      overwritten := if l.persistent.length < 512 then l.overwritten else inc32 l.overwritten
      transientHour := if r.code = codeTransient then some (clockHour r.time) else l.transientHour }
  else l1

/-- An earlier reply of a ticket that a later reply of it replaces in the journal: a tense may be skipped (R357), and
so a sentence that is DONE before its first reply is released shows only that (R362; DEDUCED, log entry 9). -/
def Output.replacedBy (old new : Output) : Bool :=
  match old, new with
  | .reply t _ _ _, .reply u _ _ _ => t == u
  | _, _ => false

/-- Put an output in the journal (R321). -/
def State.emit (s : State) (o : Output) : State :=
  s.modMail fun m => { m with output := (m.output.filter fun x => !x.replacedBy o) ++ [o] }

/-- Log an event. A log record is a firmware output and waits in the output journal for the next checkpoint (R321);
with the processor lost, or before the firmware runs, no checkpoint comes and the record is entered at once
(DEDUCED, log entry 12). -/
def State.logEvent (s : State) (sev code object : Nat) (d0 : Int := 0) (sample : Nat := 0) (ticket : Nat := 0)
    (d1 : Int := 0) : State :=
  let r : Record := { time := s.time.keeper, sev, code, object, sample, ticket, data0 := d0, data1 := d1 }
  if s.fwRuns then s.emit (.log r) else { s with log := addRecord s.log r }

/-- OBJECT of a group, main axis, auxiliary axis, link, port: the noun of the object (R334). -/
def objGroup (g : Grp) : Nat := 0x1000 + 256 * g.val
def objMain (m : Main) : Nat := 0x2000 + 256 * m.val
def objAux (a : AuxNo) : Nat := 0x5000 + 256 * a.val
def objLink (l : LinkNo) : Nat := 0x4000 + 256 * l.val
def objPort (p : Port) : Nat := 0x8000 + 256 * p.val
def objGen : GenId → Nat
  | .main m => objMain m
  | .aux a => objAux a

/-! ## Status codes (R386) -/

def stDone : Nat := 0x00
def stLimitPredicted : Nat := 0x01
def stHomedAtSwitch : Nat := 0x02
def stAlreadyDone : Nat := 0x03
def stRange : Nat := 0x40
def stState : Nat := 0x41
def stConflict : Nat := 0x42
def stBudget : Nat := 0x43
def stCheck : Nat := 0x44
def stBusy : Nat := 0x45
def stFormat : Nat := 0x46
def stTicket : Nat := 0x47
def stAccess : Nat := 0x48
def stExhausted : Nat := 0x49
def stAborted : Nat := 0x80
def stStartFailed : Nat := 0x81
def stHandoverAborted : Nat := 0x82
def stHomingAborted : Nat := 0x83
def stHomingFailed : Nat := 0x84
def stPriorFailed : Nat := 0x85
def stTooLate : Nat := 0x86
def stPending : Nat := 0xFF

/-! ## Tickets -/

namespace State

/-- The ticket of a number, while its PAST reply is not released. -/
def ticket? (s : State) (t : Nat) : Option Ticket := s.mail.tickets.find? fun k => k.num == t

/-- The ticket of a number while in flight (R357). -/
def inFlight? (s : State) (t : Nat) : Option Ticket :=
  s.mail.tickets.find? fun k => k.num == t && k.tense != .past

/-- Tickets in tense FUTURE or PRESENT (R348). -/
def inFlightCount (s : State) : Nat := (s.mail.tickets.filter fun k => k.tense != .past).length

def modTicket (s : State) (t : Nat) (f : Ticket → Ticket) : State :=
  s.modMail fun m => { m with tickets := m.tickets.map fun k => if k.num = t then f k else k }

/-- A ticket becomes PRESENT (R357). -/
def present (s : State) (t : Nat) : State :=
  match s.inFlight? t with
  | some k => if k.tense = .future then
      (s.modTicket t fun k => { k with tense := if k.tense = .past then .past else .present }).emit (.reply t stPending .present [])
    else s
  | none => s

/-- A ticket reaches PAST with a status and a reply payload (R355 to R357). Its reply is a firmware output. -/
def finish (s : State) (t : Nat) (status : Nat) (payload : List Word := []) : State :=
  match s.inFlight? t with
  | some _ =>
    (((s.modTicket t fun k => { k with tense := .past }).modMail fun m =>
      { m with ended := ({ num := t, status } :: m.ended).take 64 })).emit (.reply t status .past payload)
  | none => s

/-- Finish the ticket an optional field names. -/
def finishOpt (s : State) (t : Option Nat) (status : Nat) : State :=
  match t with
  | some k => s.finish k status
  | none => s

/-- Mark a ticket's effect as under way. -/
def running (s : State) (t : Nat) : State := s.modTicket t fun k => { k with stage := .running }

end State

end Sys2Proof.Machine
end

