-- ==== Sys2Proof/Machine/Gather.lean ====
section
/-! DEFINITION. The gather FIFO (R488 to R498) and the test registers (R499 to R504). -/

namespace Sys2Proof.Machine

/-! ## Records -/

/-- BODY payloads of a value of a width in bits, least significant bits first (R488). -/
def gffSplit (v : Int) (bits : Nat) : List Nat :=
  (List.range ((bits + 27) / 28)).map fun i =>
    ((v.fdiv ((2 ^ (28 * i) : Nat) : Int)) % ((2 ^ (Nat.min 28 (bits - 28 * i)) : Nat) : Int)).toNat

/-- TIMEA and TIMEB (R489). -/
def gffTime (tick cd6 : Nat) (dir : Bool) : List Nat :=
  [tick % 2 ^ 28, field 16 12 (tick / 2 ^ 28) + field 12 1 (b2n dir) + field 0 11 cd6]

/-- The words of a record: HEAD then BODY (R488). -/
def gffWords (kind source : Nat) (seq : Byte) (body : GffBody) : List Word :=
  BitVec.ofNat 32 (0x10000000 + field 24 4 kind + field 16 8 source + field 8 8 body.length + seq.toNat) ::
    body.map fun b => BitVec.ofNat 32 (0x20000000 + field 0 28 b)

/-- A record is dropped whole (R493). -/
def gffDrop (f : GffSt) : GffSt :=
  { f with drop := inc32 f.drop, ovf := true, irq := f.irq ||| 2, loss := satInc 0x0FFFFFFF f.loss }

/-- The FIFO has room for n words; HOLDFULL makes it full (R493, R502). -/
def gffRoom (f : GffSt) (held : Bool) (n : Nat) : Bool := !held && decide (f.words.length + n ≤ 8192)

/-- Words enter the FIFO and the level is compared with the threshold. -/
def gffPush (f : GffSt) (ws : List Word) : GffSt :=
  let l := f.words ++ ws
  let hit := decide (f.words.length < f.thr.toNat ∧ f.thr.toNat ≤ l.length)
  { f with words := l, seq := f.seq + 1, irq := if hit then f.irq ||| 1 else f.irq }

/-- Write one record, or drop it (R493). -/
def gffWrite (f : GffSt) (held : Bool) (kind source : Nat) (body : GffBody) : GffSt :=
  if gffRoom f held (body.length + 1) then gffPush f (gffWords kind source f.seq body) else gffDrop f

namespace State

/-- HOLDFULL. -/
def gffHeld (s : State) : Bool := bitAt s.test.gff.toNat 0

/-- A compare match requests a capture (R260, R490, R491). -/
def gffCompare (s : State) (n : FbNo) (cd6 : Nat) (dir : Bool) (count : Int) : State :=
  if s.gff.en && s.gff.compare then
    match s.gff.pendCompare[n] with
    | some _ => s.modGff gffDrop
    | none =>
      let b := gffTime s.time.tick cd6 dir ++ gffSplit count 64
      s.modGff fun f => { f with pendCompare := f.pendCompare.set n (some b) }
  else s

/-- A filtered transition of a selected switch. -/
def gffSwitch (s : State) (i : Fin 24) (cd6 : Nat) (active : Bool) : State :=
  if s.gff.en && s.gff.switch && s.gff.swSel.getLsbD i.val then
    match s.gff.pendSwitch[i] with
    | some _ => s.modGff gffDrop
    | none =>
      let b := gffTime s.time.tick cd6 false ++ [b2n active]
      s.modGff fun f => { f with pendSwitch := f.pendSwitch.set i (some b) }
  else s

/-- A TRACE record of a group becomes pending: its sample, whether it committed, and the values of the codes (R490). -/
def gffTrace (s : State) (g : Grp) (sample : Nat) (committed : Bool) (values : List (Option Int)) : State :=
  let cfg := s.gff.trcCfg.toNat
  let decim := if bitsOf cfg 16 8 = 0 then 1 else bitsOf cfg 16 8
  if s.gff.en && s.gff.trace && decide (bitsOf cfg 24 3 = g.val) && decide (sample % decim = 0) then
    match s.gff.pendTrace with
    | some _ => s.modGff gffDrop
    | none =>
      let head := [sample % 2 ^ 28, sample / 2 ^ 28 + field 27 1 (b2n !committed)]
      let b := head ++ values.flatMap fun v => gffSplit (match v with
        | some x => x % 4294967296
        | none => 0x80000000) 32
      s.modGff fun f => { f with pendTrace := some (g.val, b) }
  else s

/-- The codes a TRACE record carries. -/
def traceCodes (s : State) : List Nat :=
  (List.range (minI 4 (bitsOf s.gff.trcCfg.toNat 0 3)).toNat).map fun k => bitsOf s.gff.trcSig.toNat (8 * k) 8

/-- A marker becomes pending (R490). -/
def gffMarker (s : State) (payload cd6 : Nat) : State :=
  if s.gff.en then
    match s.gff.pendMarker with
    | some _ => s.modGff gffDrop
    | none =>
      let b := gffTime s.time.tick cd6 false ++ [payload % 268435456]
      s.modGff fun f => { f with pendMarker := some b }
  else s

/-- The first pending record in the order of R492, with the FIFO without it. -/
def gffNext (f : GffSt) : Option ((Nat × Nat × GffBody) × GffSt) :=
  match (fins 16).find? fun n => (f.pendCompare[n]).isSome with
  | some n => some ((1, n.val, (f.pendCompare[n]).getD []), { f with pendCompare := f.pendCompare.set n none })
  | none => match (fins 24).find? fun i => (f.pendSwitch[i]).isSome with
    | some i => some ((2, i.val, (f.pendSwitch[i]).getD []), { f with pendSwitch := f.pendSwitch.set i none })
    | none => match f.pendTrace with
      | some p => some ((3, p.1, p.2), { f with pendTrace := none })
      | none => match f.pendMarker with
        | some b => some ((4, 0, b), { f with pendMarker := none })
        | none => none

/-- GFF_RECORD_WRITE (R492, R493): the next pending record is written or dropped; a LOSS record goes first. -/
def execGffRecordWrite (s : State) : Out :=
  .next (s.modGff fun f =>
    if f.loss ≠ 0 ∧ gffRoom f s.gffHeld 2 = true then
      let p := gffPush f (gffWords 5 0 f.seq [f.loss])
      { p with loss := 0, irq := p.irq ||| 4 }
    else match gffNext f with
      | some (r, f1) => gffWrite f1 s.gffHeld r.1 r.2.1 r.2.2
      | none => f)

/-- Words are acknowledged (R495). -/
def gffAck (s : State) (n : Nat) : State := s.modGff fun f => { f with words := f.words.drop n }

/-- The FIFO and every pending record go, uncounted (R496). -/
def gffEmpty (f : GffSt) : GffSt :=
  { f with
    words := []
    loss := 0
    pendCompare := Vector.replicate 16 none
    pendSwitch := Vector.replicate 24 none
    pendTrace := none
    pendMarker := none }


/-! ## Test registers (R499 to R502) -/

def modTest (s : State) (f : TestSt → TestSt) : State := { s with test := f s.test }

/-- A write frame that is no key write restarts the key sequence (R499). -/
def otherFrame (s : State) : State := s.modTest fun t => { t with keyed := false }

/-- Every test register returns to its Reset value (R500). -/
def closeTest (s : State) : State := { s with test := {} }

/-- A write of TST_KEY (R499): the two key words in consecutive frames open the lock. -/
def writeKey (s : State) (w : Word) : State :=
  s.modTest fun t =>
    if w.toNat = 0x7E57A11C then { t with keyed := true }
    else if t.keyed ∧ w.toNat = 0x81A85EE3 then { t with keyed := false, openLock := true }
    else { t with keyed := false }

/-- A write of TST_SINC (R502). -/
def writeSinc (s : State) (w : Word) : State :=
  if s.test.openLock then
    s.modTest fun t => { t with
      sinc := w &&& 0xDF00FFFF#32
      sincLeft := if bitAt w.toNat 31 then bitsOf w.toNat 0 16 else 0 }
  else s

/-- A write of TST_ENG (R502): mode 3 is ignored. -/
def writeEng (s : State) (w : Word) : State :=
  if s.test.openLock && decide (bitsOf w.toNat 16 2 ≠ 3) then s.modTest fun t => { t with eng := w &&& 0x87030100#32 } else s

/-- Bits of a window under a TST_SINC injection (R502, R503): GLITCH inverts from bit 1 of the first window on, STUCK holds
the level of the first bit. -/
def injectBits (stuck : Bool) (left skip : Nat) (bits : List Bool) : List Bool :=
  let hold := bits.headD false
  bits.zipIdx.map fun p =>
    if skip ≤ p.2 ∧ p.2 < skip + left then (if stuck then hold else !p.1) else p.1

/-- A window with its injection, and the bits of the injection that are left. -/
def injectSinc (s : State) (w : List ChannelBits) : List ChannelBits × State :=
  let r := s.test.sinc.toNat
  let stuck := bitAt r 30
  let ch := bitsOf r 24 5
  let skip := if stuck then 0 else if s.test.sincLeft = bitsOf r 0 16 then 1 else 0
  match w.find? fun c => c.channel.val == ch with
  | some c =>
    if bitAt r 31 ∧ 0 < s.test.sincLeft then
      let left := s.test.sincLeft - (c.bits.length - skip)
      let w1 := w.map fun x => if x.channel.val = ch then { x with bits := injectBits stuck s.test.sincLeft skip x.bits } else x
      (w1, s.modTest fun t => { t with sincLeft := left, sinc := if left = 0 then BitVec.ofNat 32 (r % 2147483648) else t.sinc })
    else (w, s)
  | none => (w, s)

end State

end Sys2Proof.Machine
end

