-- ==== Sys2Proof/Machine/Operands.lean ====
section
/-! DEFINITION. The operand forms of a sentence: noun IDs with their classes and objects (R369), the noun tables of
every chapter with ranges, widths, defaults and write rules, and reading a writable noun's value from the state. -/

namespace Sys2Proof.Machine

/-! ## The family (R4, R5) -/

/-- Counts of resources on a member: main axes, auxiliary axes, groups, links, encoders, resolvers, serial ports, CAN
ports, switches, STO and BRK outputs, and whether it has the cascade (R4). -/
structure Counts where
  mains : Nat
  auxs : Nat
  groups : Nat
  links : Nat
  encoders : Nat
  resolvers : Nat
  serials : Nat
  ports : Nat
  switches : Nat
  stos : Nat
  cascade : Bool
  fast : Nat
deriving DecidableEq, Repr

/-- The table of R4. -/
def Member.counts : Member → Counts
  | .ht0100 => ⟨1, 0, 1, 1, 2, 1, 1, 2, 6, 1, false, 1⟩
  | .ht0200 => ⟨2, 0, 2, 1, 2, 1, 1, 2, 6, 1, false, 2⟩
  | .ht0402 => ⟨4, 2, 4, 2, 4, 2, 2, 2, 12, 2, false, 4⟩
  | .ht0604 => ⟨6, 4, 6, 2, 4, 2, 2, 4, 16, 4, true, 6⟩
  | .ht0804 => ⟨8, 4, 8, 4, 8, 4, 4, 4, 24, 4, true, 6⟩
  | .ht1208 => ⟨12, 8, 8, 4, 8, 4, 4, 4, 24, 4, true, 6⟩

/-- `N:0xE000` (R374): 0x0000_mmaa, the counts as decimal digits read in hexadecimal. -/
def Member.code : Member → Nat
  | .ht0100 => 0x0100
  | .ht0200 => 0x0200
  | .ht0402 => 0x0402
  | .ht0604 => 0x0604
  | .ht0804 => 0x0804
  | .ht1208 => 0x1208

/-- Whether a feedback unit is present (R5, R241). -/
def Member.hasFb (m : Member) (n : FbNo) : Bool :=
  if n.val < 8 then decide (n.val < m.counts.encoders)
  else if n.val < 12 then decide (n.val - 8 < m.counts.resolvers)
  else decide (n.val - 12 < m.counts.serials)

/-! ## Noun IDs (R369) -/

/-- The class of a noun ID, with the object's number and the offset in the class. -/
inductive NounClass where
  | group (g : Grp) (off : Nat)
  | main (m : Main) (off : Nat)
  | region (g : Grp)
  | link (l : LinkNo) (off : Nat)
  | ledger (off : Nat)
  | aux (a : AuxNo) (off : Nat)
  | table (t : Fin 8)
  | safety (off : Nat)
  | fault (off : Nat)
  | port (p : Port) (off : Nat)
  | roster (off : Nat)
  | cascade (off : Nat)
  | power (off : Nat)
  | start (off : Nat)
  | store (off : Nat)
  | logs (off : Nat)
  | device (off : Nat)
deriving DecidableEq, Repr

/-- The objects of R358 and R369. -/
inductive Obj where
  | group (g : Grp)
  | main (m : Main)
  | link (l : LinkNo)
  | ledger
  | aux (a : AuxNo)
  | tables
  | safety
  | fault
  | port (p : Port)
  | roster
  | cascade
  | power
  | start
  | store
  | logs
  | device
deriving DecidableEq, Repr

/-- A number as an index, where it is in range. -/
def fin? (n k : Nat) : Option (Fin n) := if h : k < n then some ⟨k, h⟩ else none

/-- The class of an ID, whatever the member (R369). -/
def nounClass (id : Nat) : Option NounClass :=
  let hi := id / 256
  let off := id % 256
  let sub := hi % 16
  match hi / 16 with
  | 1 => (fin? 8 sub).map fun g => .group g off
  | 2 => (fin? 12 sub).map fun m => .main m off
  | 3 => if off = 0 then (fin? 8 sub).map fun g => .region g else none
  | 4 => if sub = 15 then some (.ledger off) else (fin? 4 sub).map fun l => .link l off
  | 5 => if sub = 15 then (fin? 8 off).map fun t => .table t else (fin? 8 sub).map fun a => .aux a off
  | 6 => some (.safety (id % 4096))
  | 7 => if sub = 0 then some (.fault off) else none
  | 8 => if sub = 15 then some (.roster off) else (fin? 4 sub).map fun p => .port p off
  | 9 => if sub = 0 then some (.cascade off) else none
  | 10 => if sub = 0 then some (.power off) else none
  | 11 => if sub = 0 then some (.start off) else none
  | 12 => if sub = 0 then some (.store off) else none
  | 13 => if sub = 0 then some (.logs off) else none
  | 14 => if sub = 0 then some (.device off) else none
  | _ => none

/-- The object of a class (R369). -/
def NounClass.obj : NounClass → Obj
  | .group g _ => .group g
  | .main m _ => .main m
  | .region g => .group g
  | .link l _ => .link l
  | .ledger _ => .ledger
  | .aux a _ => .aux a
  | .table _ => .tables
  | .safety _ => .safety
  | .fault _ => .fault
  | .port p _ => .port p
  | .roster _ => .roster
  | .cascade _ => .cascade
  | .power _ => .power
  | .start _ => .start
  | .store _ => .store
  | .logs _ => .logs
  | .device _ => .device

/-- Whether the resource a class names is present on the member (R6). The cascade nouns are present on every member
(log entry 13). -/
def NounClass.on (c : NounClass) (m : Member) : Bool :=
  match c with
  | .group g _ => decide (g.val < m.counts.groups)
  | .main i _ => decide (i.val < m.counts.mains)
  | .region g => decide (g.val < m.counts.groups)
  | .link l _ => decide (l.val < m.counts.links)
  | .aux a _ => decide (a.val < m.counts.auxs)
  | .port p _ => decide (p.val < m.counts.ports)
  | _ => true

/-! ## Noun tables -/

/-- Access types of nouns. An object noun has no value (R370); a block noun is reached by WRITE and READ of R379. -/
inductive Access where
  | rw | ro | wo | object | block
deriving DecidableEq, Repr

/-- The states in which a noun may be written. -/
inductive WriteRule where
  | always | groupStopped | axisIdle | noGroupRuns | linkIdle | noFollow | sessionsOff | rosterOff | safetyIdle
deriving DecidableEq, Repr

/-- A noun as its table gives it: width, allowed values as closed ranges, default, access, write rule, whether a SET
takes effect under R35, and whether it is volatile (R372). -/
structure NounSpec where
  wide : Bool := false
  vals : List (Int × Int) := []
  dflt : Int := 0
  acc : Access := .rw
  rule : WriteRule := .always
  r35 : Bool := false
  volatile : Bool := false
deriving DecidableEq, Repr

/-- A writable noun of one range. -/
def rw (lo hi d : Int) (rule : WriteRule) : NounSpec := { vals := [(lo, hi)], dflt := d, rule }
/-- A writable noun that takes effect under R35. -/
def r35 (lo hi d : Int) : NounSpec := { vals := [(lo, hi)], dflt := d, r35 := true }
/-- A writable noun with listed values. -/
def rwL (vals : List (Int × Int)) (d : Int) (rule : WriteRule) : NounSpec := { vals, dflt := d, rule }
/-- A writable 64-bit noun. -/
def rw64 (lo hi d : Int) (rule : WriteRule) : NounSpec := { wide := true, vals := [(lo, hi)], dflt := d, rule }
/-- A read-only noun. -/
def ro : NounSpec := { acc := .ro, volatile := true }
/-- A read-only 64-bit noun. -/
def ro64 : NounSpec := { wide := true, acc := .ro, volatile := true }
/-- An object noun. -/
def objectNoun : NounSpec := { acc := .object, volatile := true }
/-- A block noun. -/
def blockNoun : NounSpec := { acc := .block, volatile := true }

def min64 : Int := -9223372036854775808
def max64 : Int := 9223372036854775807
def two40 : Int := 1099511627776
def two48 : Int := 281474976710656
def two56 : Int := 72057594037927936

/-- Group nouns of R30, R129, R147. -/
def groupNouns0 : List (Nat × NounSpec) := [
  (0x00, rw 0 0xFFF 0 .groupStopped), (0x01, rw 0 0xFF 0 .groupStopped), (0x02, rw 1 10 2 .groupStopped),
  (0x03, rw 0 9 0 .groupStopped), (0x04, rw 1 2 1 .groupStopped),
  (0x05, rwL [(16, 16), (32, 32), (64, 64), (128, 128), (256, 256)] 32 .groupStopped),
  (0x06, rw 0 0xF 0 .groupStopped), (0x07, rw 0 32 0 .groupStopped),
  (0x08, rw 0 8191 0 .groupStopped), (0x09, rw 0 8192 0 .groupStopped),
  (0x0A, ro), (0x0B, ro), (0x0C, ro), (0x0E, ro), (0x0F, ro)]

/-- Group nouns of R149, R154, R162, R181. -/
def groupNouns1 : List (Nat × NounSpec) := [
  (0x10, rwL [(0, 1), (0x30, 0x33), (0x40, 0x40)] 0 .groupStopped), (0x11, rw 0 31 0 .groupStopped),
  (0x12, rw 1 1000000 1000 .groupStopped), (0x13, rwL [(0, 0), (0x10, 0x17), (0x30, 0x33)] 0 .groupStopped),
  (0x14, r35 1 1000000000 1000), (0x15, rw 0 1 0 .groupStopped), (0x16, r35 1 1000000 500),
  (0x17, rw 0 0xFFFFFF 0 .groupStopped),
  (0x18, r35 0 1 0), (0x19, r35 100 10000000 10000), (0x1A, r35 50 95 80), (0x1B, r35 10 10000 200),
  (0x1C, r35 1 10000000 1000), (0x1D, rw 0 7 0 .groupStopped), (0x1E, r35 10 20000 2000),
  (0x1F, r35 10 1000000 10000), (0x20, r35 10 10000 500), (0x21, ro), (0x22, ro64), (0x23, ro64), (0x24, ro),
  (0x25, ro), (0x26, { r35 0 10000000 0 with volatile := true }), (0x27, ro)]

/-- Group nouns of R187, R206, R328, R330, R438. -/
def groupNouns2 : List (Nat × NounSpec) := [
  (0x28, rwL [(0, 11), (15, 15)] 15 .groupStopped), (0x29, rwL [(0, 7), (15, 15)] 15 .noFollow),
  (0x2A, rwL [(-2147483648, -1), (1, 2147483647)] 1 .noFollow), (0x2B, rw 1 2147483647 1 .noFollow),
  (0x2C, rw64 min64 max64 0 .noFollow), (0x2D, rw64 min64 max64 1 .noFollow), (0x2E, ro), (0x2F, ro),
  (0x30, rw 0 2 0 .groupStopped), (0x31, ro),
  (0x38, rw 0 31 0 .groupStopped), (0x39, rw 0 8 0 .groupStopped), (0x3A, rw 0 0xFF 0 .groupStopped),
  (0x3B, rw 0 7 0 .groupStopped), (0x3C, ro), (0xFF, objectNoun)]

/-- Path targets of R373. -/
def pathNouns : List (Nat × NounSpec) :=
  (List.range 20).map fun i => (0x40 + i, { rw64 min64 max64 0 .always with volatile := true })

def groupNouns : List (Nat × NounSpec) := groupNouns0 ++ groupNouns1 ++ groupNouns2 ++ pathNouns

/-- Main-axis nouns of R52. -/
def mainNouns0 : List (Nat × NounSpec) := [
  (0x00, rw 0 2 0 .axisIdle), (0x01, rw 1 64 4 .axisIdle),
  (0x02, rwL [(0, 0), (0x10, 0x17), (0x20, 0x23)] 0 .axisIdle), (0x03, rw 0 0xFFFF 0 .axisIdle),
  (0x04, rw 0 1 0 .axisIdle), (0x05, rw 0 4 0 .axisIdle), (0x06, rw 10 200000 1000 .axisIdle),
  (0x07, rw 100 500000 40000 .axisIdle), (0x08, rw 200 40000 1000 .axisIdle), (0x09, rw 50 90 70 .axisIdle),
  (0x0A, rw 20 500 100 .axisIdle), (0x0B, rw 0 2 0 .axisIdle), (0x0C, rw 5 150 50 .axisIdle),
  (0x0D, rw 10 2000 200 .axisIdle), (0x0E, rw 5 150 50 .axisIdle), (0x0F, rw 10 100000 2000 .axisIdle),
  (0x10, rw 100 60000 5000 .axisIdle), (0x11, rw 0 1 0 .axisIdle), (0x12, rw 0 3 1 .axisIdle),
  (0x13, rwL [(1, 2), (5, 5)] 2 .axisIdle), (0x14, rw 2 20 10 .axisIdle), (0x15, rw 2 50 10 .axisIdle),
  (0x16, rw 1 20 5 .axisIdle), (0x17, rw 5 60 20 .axisIdle), (0x18, rw 1 8 3 .axisIdle),
  (0x19, rw (-2000) 2000 0 .axisIdle), (0x1A, rw 0 30 0 .axisIdle), (0x1B, rw 0 50 20 .axisIdle),
  (0x1C, ro), (0x1D, ro), (0x1E, ro), (0x1F, ro)]

/-- Main-axis nouns of R107 and R519. -/
def mainNouns1 : List (Nat × NounSpec) := [
  (0x20, rw 0 5000 1000 .axisIdle), (0x21, rw 0 2000 200 .axisIdle), (0x22, rw 5000 10000 10000 .axisIdle),
  (0x23, rw 0 1 0 .axisIdle), (0x24, rw 1 20 2 .axisIdle), (0x25, rw 0 2 0 .axisIdle),
  (0x26, rw 10 400000 2000 .axisIdle), (0x27, rw 10 400000 2000 .axisIdle), (0x28, rw (-4096) 4096 0 .axisIdle),
  (0x29, rw (-4096) 4096 0 .axisIdle), (0x2A, rw 0 1 1 .axisIdle), (0x2B, rw 50 400 250 .axisIdle),
  (0x2C, rw 1 100 5 .axisIdle), (0x2D, rw 100 100000 10000 .axisIdle), (0x2E, rw 0 1000 0 .axisIdle), (0x2F, ro)]

/-- Main-axis nouns of R145 and R153. -/
def mainNouns2 : List (Nat × NounSpec) := [
  (0x30, rw 0 3 0 .axisIdle), (0x31, r35 0 4 0), (0x32, r35 0 1 0), (0x33, r35 0 1 1),
  (0x34, { r35 (-400000) 400000 0 with volatile := true }), (0x35, r35 1 100000 1000), (0x36, r35 0 300 150),
  (0x38, r35 0 0x7FFFFFFF 0), (0x39, r35 1 100000 100), (0x3A, r35 0 2 0), (0x3E, ro),
  (0x40, r35 1 100 10), (0x41, r35 0 300 150), (0x42, rw 0 1 0 .axisIdle), (0x43, rw 0 7 0 .axisIdle),
  (0x44, r35 0 1 0), (0x45, r35 1 50 5), (0x46, r35 10 10000 200), (0x47, r35 0 50 20), (0x48, r35 0 150 50),
  (0x49, r35 10 150 100), (0x4A, r35 1 3600 300), (0x4B, r35 0 1000000000 0), (0x4C, ro64), (0x4D, ro64),
  (0x4E, ro64), (0x4F, ro)]

/-- Motion nouns that main and auxiliary axes share (R188, R230). -/
def motionNouns : List (Nat × NounSpec) := [
  (0x52, rw64 1 two40 6553600 .always), (0x53, rw64 1 two48 6553600 .always),
  (0x54, rw64 1 two56 65536000 .always), (0x55, rw64 1 two56 655360000 .always),
  (0x56, rw64 min64 max64 min64 .always), (0x57, rw64 min64 max64 max64 .always), (0x58, rw 0 1 0 .always),
  (0x5C, rw 1 10000 10 .always), (0x5D, rw 0 1 0 .always),
  (0x5E, { rw64 min64 max64 0 .always with volatile := true }), (0x5F, ro), (0x60, ro64), (0x61, ro64),
  (0x62, ro64), (0x63, ro64), (0x64, ro64)]

/-- The other motion nouns of R188. -/
def mainNouns3 : List (Nat × NounSpec) := [
  (0x50, rwL [(0, 0), (0x10, 0x17), (0x20, 0x23), (0x30, 0x33)] 0 .axisIdle), (0x51, rw 1 0xFFFFFFFF 25600 .axisIdle),
  (0x59, rw 1 100000 1000 .always), (0x5A, rw 1 100000 1000 .always), (0x5B, rw 1 10000000 1000 .always),
  (0xFF, objectNoun)]

def mainNouns : List (Nat × NounSpec) := mainNouns0 ++ mainNouns1 ++ mainNouns2 ++ mainNouns3 ++ motionNouns

/-- Link nouns of R109 and R169. -/
def linkNouns : List (Nat × NounSpec) := [
  (0x00, rw 10 20000 1000 .linkIdle), (0x01, rw (-4096) 4096 0 .linkIdle), (0x02, rw 10 400000 5000 .linkIdle),
  (0x03, rw (-4096) 4096 0 .linkIdle), (0x04, rw 2000 40000 4000 .linkIdle), (0x05, rw 0 10000 1000 .linkIdle),
  (0x06, rw 1 100 10 .linkIdle), (0x07, rw 1 100 20 .linkIdle), (0x0F, ro),
  (0x10, rw 10 20000 4300 .always), (0x11, rw 10 20000 4200 .always), (0x12, rw 10 20000 4400 .always),
  (0x13, rw 10 20000 4450 .always), (0x14, rw 10 20000 4600 .always), (0x15, rw 10 20000 4800 .always),
  (0x16, rw 1 10000 10 .always), (0x17, rw 100 1000000 10000 .always), (0x18, rw 0 1 0 .always),
  (0x19, ro64), (0x1A, ro64), (0x1B, ro64), (0x1E, ro)]

/-- Sense banks (R95), ledger epoch and clear (R178, R384). -/
def ledgerNouns : List (Nat × NounSpec) := [
  (0x00, rw 0 1 0 .noGroupRuns), (0x01, rw 0 1 0 .noGroupRuns), (0x02, rw 0 1 0 .noGroupRuns),
  (0x03, rw 0 1 0 .noGroupRuns), (0x10, ro), (0x11, objectNoun)]

/-- Auxiliary-axis nouns of R238 that need OFF or STOPPED-FAULT. -/
def auxNouns0 : List (Nat × NounSpec) := [
  (0x00, rw 0 1 0 .axisIdle), (0x01, rw 0 3 0 .axisIdle), (0x02, rw 0 7 0 .axisIdle), (0x03, rw 0 1 0 .axisIdle),
  (0x04, rw 100 50000 5000 .axisIdle), (0x05, rw (-64) 64 0 .axisIdle), (0x06, rw (-64) 64 0 .axisIdle),
  (0x07, rw 0 2000 200 .axisIdle), (0x08, rw 2 50 10 .axisIdle), (0x09, rw 0 2 2 .axisIdle),
  (0x0A, rw 2 30 10 .axisIdle), (0x0B, rw 0 100 50 .axisIdle), (0x0C, rw 5 100 40 .axisIdle),
  (0x0D, rw 1 8 2 .axisIdle), (0x0E, rw 10 100 90 .axisIdle)]

/-- The other auxiliary-axis nouns of R238. -/
def auxNouns1 : List (Nat × NounSpec) := [
  (0x10, r35 1 5000 100), (0x11, r35 0 100 50), (0x12, r35 0 10000 200), (0x13, r35 30 120 80),
  (0x14, r35 100 100000 1000), (0x15, r35 1 255 8), (0x16, r35 10 90 30), (0x17, r35 0 2 1),
  (0x18, { vals := [(0, 0x17), (0xFF, 0xFF)], dflt := 0xFF, r35 := true }),
  (0x19, { vals := [(0, 0x17), (0xFF, 0xFF)], dflt := 0xFF, r35 := true }),
  (0x1A, rw 0 2 0 .always), (0x1B, rw64 min64 max64 0 .always), (0x1C, rw64 min64 max64 0 .always),
  (0x1D, rw64 1 two40 25600 .always), (0x1E, rw64 1 two40 1048576 .always), (0x1F, rw64 0 two40 2560 .always),
  (0x20, rw 10 100 50 .always), (0x21, rw64 1 two48 10240000 .always), (0x22, rw64 1 two56 10240000000 .always),
  (0x23, rw 5 1000 20 .always), (0x2D, ro), (0x2E, ro), (0x4C, ro64), (0x4D, ro64), (0xFF, objectNoun)]

def auxNouns : List (Nat × NounSpec) := auxNouns0 ++ auxNouns1 ++ motionNouns

/-- Safety nouns of one STO group s, at 0x6s00 (R307). -/
def safetyGroupNouns : List (Nat × NounSpec) := [
  (0x00, rw 0 0xFFF 0 .safetyIdle), (0x01, rw 0 0xFF 0 .safetyIdle), (0x02, rw 0 0xF 0 .safetyIdle),
  (0x03, rw 0 1 0 .safetyIdle), (0x04, rw 0 0xF 0 .safetyIdle), (0x05, rw 0 1 1 .safetyIdle),
  (0x06, rw 10 30000 2000 .safetyIdle), (0x07, rw 10 10000 100 .safetyIdle), (0x08, rw 1 50 5 .safetyIdle),
  (0x09, rw 0 1 0 .safetyIdle), (0x0F, ro)]

/-- Safety nouns of the channel, at 0x6F00 (R308). -/
def safetyChannelNouns : List (Nat × NounSpec) := [
  (0x01, rw 0 1 0 .safetyIdle), (0x02, rw 20 500 100 .safetyIdle), (0x03, rw 0 2 0 .safetyIdle),
  (0x04, { vals := [(1, 1)], acc := .wo, volatile := true }), (0x06, rw 100 1000 500 .safetyIdle),
  (0x07, rw 50 400 300 .safetyIdle), (0x0E, rw 0 0xFFFFFFFF 0 .safetyIdle), (0x0F, ro)]

/-- A feedback input or none. -/
def feedbackNoun : NounSpec := rwL [(0, 7), (15, 15)] 15 .safetyIdle

/-- Safety nouns by their low three digits (R307, R308). -/
def safetySpec (off : Nat) : Option NounSpec :=
  let sub := off / 256
  let lo := off % 256
  if sub < 4 then safetyGroupNouns.lookup lo
  else if sub = 4 then
    if lo / 16 < 4 then
      match lo % 16 with
      | 0 => some feedbackNoun
      | 1 => some (rw 10 2000 200 .safetyIdle)
      | 2 => some (rw 10 2000 200 .safetyIdle)
      | _ => none
    else none
  else if sub = 5 then
    if lo / 16 < 4 then
      match lo % 16 with
      | 0 => some feedbackNoun
      | 1 => some feedbackNoun
      | 2 => some (rw 20 500 100 .safetyIdle)
      | _ => none
    else none
  else if sub = 6 then
    if lo / 16 < 2 then
      match lo % 16 with
      | 0 => some (rw 0 0xF 0xF .safetyIdle)
      | 1 => some (rw 0 1 0 .safetyIdle)
      | _ => none
    else none
  else if sub = 8 then
    if lo / 16 < 12 then
      match lo % 16 with
      | 0 => some (rw 0 400000 0 .safetyIdle)
      | 1 => some (rw 0 1 0 .safetyIdle)
      | 2 => some (rw 1 100000 1000 .safetyIdle)
      | 3 => some (rw 1 50 10 .safetyIdle)
      | _ => none
    else none
  else if sub = 15 then safetyChannelNouns.lookup lo
  else none

/-- CAN port nouns of R366 and R418. -/
def portNouns : List (Nat × NounSpec) := [
  (0x20, rw 0 1 0 .always), (0x21, rw 1 0xFFFF 0x7F .rosterOff), (0x22, rw 0 28 0 .rosterOff),
  (0x23, rw 0 2 0 .rosterOff), (0x24, rw 10 3600000 5000 .rosterOff),
  (0x40, rw 0 0xFF 0 .always), (0x41, rw 0 0x1FFFFFF0 0x700 .sessionsOff), (0x42, rw 0 1 0 .sessionsOff),
  (0x43, rw 0 1 0 .sessionsOff), (0x44, rw 10 1000 100 .sessionsOff)]

/-- Power nouns of R462. -/
def powerNouns : List (Nat × NounSpec) := [
  (0x00, ro), (0x01, ro), (0x02, ro), (0x03, ro), (0x08, rw 0 0x3FFFF 1 .always), (0x09, rw 1 2147483647 64 .always),
  (0x0A, rw 0 2 0 .always), (0x0B, rw 4500 18000 5000 .always), (0x0C, ro), (0x0D, ro), (0x0E, ro64)]

/-- Start nouns of R486. -/
def startNouns : List (Nat × NounSpec) :=
  [(0x00, ro), (0x01, ro), (0x02, ro), (0x03, ro), (0x08, rw 0 1 1 .always)]

/-- Store nouns of R379 and R389. -/
def storeNouns : List (Nat × NounSpec) :=
  [(0x00, blockNoun), (0x01, blockNoun), (0x02, blockNoun), (0x10, ro), (0x11, ro), (0x12, ro), (0x13, ro)]

/-- Log nouns of R379. -/
def logNouns : List (Nat × NounSpec) := [(0x00, blockNoun), (0x01, blockNoun)]

/-- Device nouns of R374 and R570. -/
def deviceNouns : List (Nat × NounSpec) := [
  (0x00, ro), (0x01, ro), (0x02, ro), (0x03, ro64), (0x04, ro), (0x05, ro), (0x06, ro64), (0x08, ro64), (0x09, ro),
  (0x0A, ro), (0x0B, ro), (0xFF, objectNoun)]

/-- Fault, roster and cascade nouns of R331, R419, R444: read-only. -/
def faultNouns : List (Nat × NounSpec) := [(0, ro), (1, ro), (2, ro), (3, ro), (4, ro), (6, ro), (7, ro)]
def rosterNouns : List (Nat × NounSpec) := [(0, ro), (1, ro), (2, ro), (3, ro)]
def cascadeNouns : List (Nat × NounSpec) := [(0, ro), (1, ro), (2, ro), (3, ro), (4, ro), (5, ro)]

/-- The table entry of a class and offset. -/
def NounClass.spec : NounClass → Option NounSpec
  | .group _ off => groupNouns.lookup off
  | .main _ off => mainNouns.lookup off
  | .region _ => some blockNoun
  | .link _ off => linkNouns.lookup off
  | .ledger off => ledgerNouns.lookup off
  | .aux _ off => auxNouns.lookup off
  | .table _ => some blockNoun
  | .safety off => safetySpec off
  | .fault off => faultNouns.lookup off
  | .port _ off => portNouns.lookup off
  | .roster off => rosterNouns.lookup off
  | .cascade off => cascadeNouns.lookup off
  | .power off => powerNouns.lookup off
  | .start off => startNouns.lookup off
  | .store off => storeNouns.lookup off
  | .logs off => logNouns.lookup off
  | .device off => deviceNouns.lookup off

/-- The table entry of a noun ID on a member: none for an ID outside every class, one that its class does not list, or
one that names an absent resource (R369, R6). -/
def nounSpec (m : Member) (id : Nat) : Option NounSpec :=
  match nounClass id with
  | some c => if c.on m then c.spec else none
  | none => none

/-- The object of a noun ID (R358). -/
def nounObj (id : Nat) : Option Obj := (nounClass id).map NounClass.obj

/-- The default of a noun, whatever the member. -/
def nounDefault (id : Nat) : Int :=
  match (nounClass id).bind NounClass.spec with
  | some p => p.dflt
  | none => 0

/-- Whether a value lies in a noun's table range. -/
def NounSpec.inRange (p : NounSpec) (v : Int) : Bool := p.vals.any fun r => decide (r.1 ≤ v) && decide (v ≤ r.2)

/-- Whether the values of a noun are signed. -/
def NounSpec.signed (p : NounSpec) : Bool := p.vals.any fun r => decide (r.1 < 0)

/-- The value carried by payload words: low word first (R371), two's complement for a signed noun. -/
def NounSpec.value (p : NounSpec) (ws : List Word) : Int :=
  match ws with
  | [a] => if p.signed then a.toInt else a.toNat
  | [a, b] => if p.signed then b.toInt * 4294967296 + a.toNat else (b.toNat : Int) * 4294967296 + a.toNat
  | _ => 0

/-- The words of a noun value. -/
def NounSpec.words (p : NounSpec) (v : Int) : List Word := if p.wide then twoWords v else [intWord v]

/-! ## Values -/

namespace State

/-- The value of a writable noun: the listed one, or the default (R372). -/
def noun (s : State) (id : Nat) : Int :=
  match s.nouns.lookup id with
  | some v => v
  | none => nounDefault id

/-- The value as a natural number, for nouns whose range has no negative values. -/
def nounN (s : State) (id : Nat) : Nat := (s.noun id).toNat

/-- Store a noun's value. -/
def setNoun (s : State) (id : Nat) (v : Int) : State := { s with nouns := sput (nounDefault id) s.nouns id v }

def gNoun (s : State) (g : Grp) (off : Nat) : Int := s.noun (0x1000 + 256 * g.val + off)
def gNounN (s : State) (g : Grp) (off : Nat) : Nat := (s.gNoun g off).toNat
def mNoun (s : State) (m : Main) (off : Nat) : Int := s.noun (0x2000 + 256 * m.val + off)
def mNounN (s : State) (m : Main) (off : Nat) : Nat := (s.mNoun m off).toNat
def lNoun (s : State) (l : LinkNo) (off : Nat) : Int := s.noun (0x4000 + 256 * l.val + off)
def aNoun (s : State) (a : AuxNo) (off : Nat) : Int := s.noun (0x5000 + 256 * a.val + off)
def aNounN (s : State) (a : AuxNo) (off : Nat) : Nat := (s.aNoun a off).toNat
def pNoun (s : State) (p : Port) (off : Nat) : Int := s.noun (0x8000 + 256 * p.val + off)
def pNounN (s : State) (p : Port) (off : Nat) : Nat := (s.pNoun p off).toNat

/-- A motion noun of a generator's axis. -/
def xNoun (s : State) (x : GenId) (off : Nat) : Int :=
  match x with
  | .main m => s.mNoun m off
  | .aux a => s.aNoun a off

/-- A running safety parameter (R306). -/
def safeNoun (s : State) (id : Nat) : Int :=
  match s.safety.running.lookup id with
  | some v => v
  | none => nounDefault id
def safeNounN (s : State) (id : Nat) : Nat := (s.safeNoun id).toNat

/-! ## Axes, groups and masks -/

/-- The group of a main axis (R21). -/
def groupOfMain (s : State) (m : Main) : Option Grp := (fins 8).find? fun g => bitAt (s.gNounN g 0x00) m.val

/-- The group of an auxiliary axis (R21). -/
def groupOfAux (s : State) (a : AuxNo) : Option Grp := (fins 8).find? fun g => bitAt (s.gNounN g 0x01) a.val

/-- The group of a generator's axis. -/
def groupOf (s : State) : GenId → Option Grp
  | .main m => s.groupOfMain m
  | .aux a => s.groupOfAux a

/-- SAMPLE of a record about an axis: the sample number of its group, or 0 (R334). -/
def axisSample (s : State) (x : GenId) : Nat :=
  match s.groupOf x with
  | some g => (s.groups[g]).sample.toNat
  | none => 0

/-- The main axes of a group, in rising order. -/
def mainsOf (s : State) (g : Grp) : List Main := (fins 12).filter fun m => bitAt (s.gNounN g 0x00) m.val

/-- The auxiliary axes of a group, in rising order. -/
def auxsOf (s : State) (g : Grp) : List AuxNo := (fins 8).filter fun a => bitAt (s.gNounN g 0x01) a.val

/-- The generators of a group. -/
def gensOf (s : State) (g : Grp) : List GenId := (s.mainsOf g).map .main ++ (s.auxsOf g).map .aux

/-- Whether a group is running. -/
def runs (s : State) (g : Grp) : Bool := (s.groups[g]).running

/-- Whether any group runs. -/
def anyRuns (s : State) : Bool := (fins 8).any s.runs

/-- Whether a group names a link in `N:0x1g06`. -/
def usesLink (s : State) (g : Grp) (l : LinkNo) : Bool := bitAt (s.gNounN g 0x06) l.val

/-- The running groups that name a link. -/
def linkGroups (s : State) (l : LinkNo) : List Grp := (fins 8).filter fun g => s.runs g && s.usesLink g l

/-- The group at whose sample instants a link filter runs: the lowest running one that names it (R32). -/
def linkOwner (s : State) (l : LinkNo) : Option Grp := (s.linkGroups l).head?

/-- The STO group of a main axis in the running safety set (R286). -/
def stoOfMain (s : State) (m : Main) : Option StoNo :=
  (fins 4).find? fun i => bitAt (s.safeNounN (0x6000 + 256 * i.val)) m.val

/-- The STO group of an auxiliary axis. -/
def stoOfAux (s : State) (a : AuxNo) : Option StoNo :=
  (fins 4).find? fun i => bitAt (s.safeNounN (0x6001 + 256 * i.val)) a.val

def stoOf (s : State) : GenId → Option StoNo
  | .main m => s.stoOfMain m
  | .aux a => s.stoOfAux a

/-- The brake mask of an STO group. -/
def stoBrakes (s : State) (i : StoNo) : Nat := s.safeNounN (0x6002 + 256 * i.val)

/-- The main axes of an STO group. -/
def stoMains (s : State) (i : StoNo) : List Main :=
  (fins 12).filter fun m => bitAt (s.safeNounN (0x6000 + 256 * i.val)) m.val

/-- The auxiliary axes of an STO group. -/
def stoAuxs (s : State) (i : StoNo) : List AuxNo :=
  (fins 8).filter fun a => bitAt (s.safeNounN (0x6001 + 256 * i.val)) a.val

end State

end Sys2Proof.Machine
end

