-- ==== Sys2Proof/Machine/Sensing.lean ====
section
/-! DEFINITION. What a pass reads from outside the engines: sample timing, scaled currents and link values, sensor angle
and speed, motion channels, line tension and drum position. -/

namespace Sys2Proof.Machine

/-- A quotient rounded to an integer where the spec states no rounding: the exact value, or either neighbour, which
of them left open (log entry 15). -/
def openDiv (a b : Int) : Int :=
  if a % b = 0 then a / b else a.fdiv b + (if Config.roundUp a b then 1 else 0)

namespace State

/-! ## Timing -/

/-- Sample period TS of a group in ns (R25). -/
def tsNs (s : State) (g : Grp) : Nat := s.gNounN g 0x02 * 12500

/-- Tsinc of a group in ns: 3 × OSR modulator clocks of 50 ns (R39). -/
def tsincNs (s : State) (g : Grp) : Nat := s.gNounN g 0x05 * 150

/-- The sample rate of a group in 0.01 Hz. -/
def fsCentiHz (s : State) (g : Grp) : Nat := 8000000 / s.gNounN g 0x02

/-- The sample period of the group of an axis in frame ticks; that of n = 1 for an axis in no group. -/
def ticksPerSample (s : State) (g : Grp) : Nat := s.gNounN g 0x02

/-! ## Currents (R97, R100) -/

/-- A percentage of rated current in mA, rounded towards zero (R124). -/
def pctRated (s : State) (m : Main) (pct : Int) : Int := truncDiv (pct * s.mNoun m 0x06) 10

/-- Rated current in mA. -/
def rated (s : State) (m : Main) : Int := s.mNoun m 0x06 * 10

/-- A filter result less its offset, times full scale: numerator of mA over 2³¹ (R97). -/
def scaled (raw off fs10 : Int) : Int := (raw - off * 32768) * fs10 * 10

/-- The three phase currents U, V, W in mA × 2³¹, from the two sensed channels and the derived third (R100). -/
def phaseCurrents (s : State) (m : Main) (rawA rawB : Int) : Int × Int × Int :=
  let a := scaled rawA (s.mNoun m 0x28) (s.mNoun m 0x26)
  let b := scaled rawB (s.mNoun m 0x29) (s.mNoun m 0x27)
  let c := -(a + b)
  match s.mNoun m 0x25 with
  | 0 => (a, b, c)
  | 1 => (c, a, b)
  | _ => (b, c, a)

/-! ## Feedback units -/

/-- The feedback unit a sensor, channel or source code names (R52, R188, R149). -/
def unitOfCode (c : Nat) : Option FbNo :=
  if c / 16 = 1 then (if c % 16 < 8 then fin? 16 (c % 16) else none)
  else if c / 16 = 2 then (if c % 16 < 4 then fin? 16 (8 + c % 16) else none)
  else if c / 16 = 3 then (if c % 16 < 4 then fin? 16 (12 + c % 16) else none)
  else none

/-- Counts of one mechanical turn of a unit: four counts to an encoder line, 65 536 to a resolver pole pair (R64). -/
def countsPerTurn (s : State) (n : FbNo) : Nat :=
  let u := s.fb[n]
  if n.val < 8 then 4 * u.lines else 65536 * bitsOf u.ucfg.toNat 8 8

/-- The angle sensor of a main axis. -/
def sensorOf (s : State) (m : Main) : Option FbNo := unitOfCode (s.mNounN m 0x02)

/-- Sensor health (R66): the channel is valid and, for an encoder, its position is referenced. -/
def sensorOk (s : State) (m : Main) : Bool :=
  match s.sensorOf m with
  | none => false
  | some n => (s.fb[n]).valid && (decide (8 ≤ n.val) || (s.fb[n]).ref)

/-- Sensor angle in 2⁻³² of 360° electrical (R64). -/
def sensorAngle (s : State) (m : Main) : Int :=
  match s.sensorOf m with
  | none => 0
  | some n => wrapU32 (floorDiv ((s.fb[n]).pos * s.mNoun m 0x01 * 4294967296) (s.countsPerTurn n)
      + s.mNoun m 0x03 * 65536)

/-- Sensor speed in 0.01 Hz electrical (code 0x07 of R115). -/
def sensorSpeed (s : State) (m : Main) : Int :=
  match s.sensorOf m with
  | none => 0
  | some n => openDiv ((s.fb[n]).speed * s.mNoun m 0x01 * 100) (16 * s.countsPerTurn n)

/-- Position of a motion channel in counts, and whether it is valid (R188). -/
def channelPos (s : State) (m : Main) : Int × Bool :=
  match unitOfCode (s.mNounN m 0x50) with
  | none => ((s.mains[m]).eng.turns, true)
  | some n => ((s.fb[n]).pos, (s.fb[n]).valid)

/-- Speed of a motion channel in counts/s. -/
def channelSpeed (s : State) (m : Main) : Rat :=
  match unitOfCode (s.mNounN m 0x50) with
  | none => ((s.mains[m]).eng.speed : Rat) * 65536 / 100
  | some n => ((s.fb[n]).speed : Rat) / 16

/-- The modulus of a motion channel whose counter runs modulo (R189). -/
def channelModulus (s : State) (m : Main) : Option Nat :=
  match unitOfCode (s.mNounN m 0x50) with
  | none => none
  | some n => if (s.fb[n]).modulo then some (s.fb[n]).modulus else none

/-! ## Links -/

/-- The link of a main axis. -/
def linkOf (s : State) (m : Main) : LinkNo := ⟨s.mNounN m 0x30 % 4, Nat.mod_lt _ (by decide)⟩

/-- The link of an auxiliary axis. -/
def linkOfAux (s : State) (a : AuxNo) : LinkNo := ⟨s.aNounN a 0x01 % 4, Nat.mod_lt _ (by decide)⟩

/-- VDC for an axis of a group: this sample's value, or the last valid one since the group started, or 0 (R125). -/
def vdc (s : State) (g : Grp) (l : LinkNo) : Int :=
  if (s.links[l]).vValid then (s.links[l]).vdc
  else match (s.groups[g]).lastVdc[l] with
    | some v => v
    | none => 0

/-! ## Tension and drum (R149 to R151) -/

/-- Whether a group's part of a span is remote (R438). -/
def remotePart (s : State) (g : Grp) : Bool :=
  s.gNounN g 0x38 != 0 && s.gNounN g 0x3B != s.cascade.ident.val

/-- Whether a group's part of a span is the home part. -/
def homePart (s : State) (g : Grp) : Bool :=
  s.gNounN g 0x38 != 0 && s.gNounN g 0x3B == s.cascade.ident.val

/-- A group counts as coupled (R30, R439). -/
def coupled (s : State) (g : Grp) : Bool := s.gNounN g 0x07 != 0 || s.remotePart g

/-- The drum position source of a group. -/
def drumUnit (s : State) (g : Grp) : Option FbNo := unitOfCode (s.gNounN g 0x13)

/-- The drum sensor is valid. -/
def drumOk (s : State) (g : Grp) : Bool :=
  match s.drumUnit g with
  | none => false
  | some n => (s.fb[n]).valid

/-- The drum position in counts as the sensor counts. -/
def drumPos (s : State) (g : Grp) : Int :=
  match s.drumUnit g with
  | none => 0
  | some n => (s.fb[n]).pos

/-- The haul-in sign of drum counts (`N:0x1g15`). -/
def drumSign (s : State) (g : Grp) : Int := if s.gNoun g 0x15 = 0 then 1 else -1

/-- The drum speed in counts/s with the haul-in sign. -/
def drumSpeed (s : State) (g : Grp) : Rat :=
  match s.drumUnit g with
  | none => 0
  | some n => (s.drumSign g : Rat) * (s.fb[n]).speed / 16

/-- Line position in nm (R151), held as a signed 64-bit value. -/
def linePos (s : State) (g : Grp) : Int := wrap64 (s.drumSign g * s.drumPos g * s.gNoun g 0x14)

/-- The tension of the sources other than a coupled state, and whether it is valid (R150). -/
def plainTension (s : State) (g : Grp) : Int × Bool :=
  let c := s.gNounN g 0x10
  if c = 0x40 then (s.gNoun g 0x26, (s.groups[g]).yield.hostValid)
  else match unitOfCode c with
    | some n => (openDiv ((s.fb[n]).data * s.gNoun g 0x12) 1000, (s.fb[n]).valid)
    | none => (0, false)

/-- Signal 0x0D: the tension of the last committed pass for a coupled state, the present one otherwise (R150). -/
def tensionSignal (s : State) (g : Grp) : Option Int :=
  if s.gNounN g 0x10 = 1 then (if (s.groups[g]).yield.tValid then some (s.groups[g]).yield.tension else none)
  else if (s.plainTension g).2 then some (s.plainTension g).1 else none

end State

end Sys2Proof.Machine
end

