-- ==== Sys2Proof/Machine/Engine.lean ====
section
/-! DEFINITION. The marver engines' arithmetic, the layout of a group programme and its validation (R111 to R121), and the
limits and modulation of R124 to R127. -/

namespace Sys2Proof.Machine

/-! ## Rows (R112 to R114) -/

/-- A stored row: coefficients with their shifts. -/
abbrev Row := List (Int × Nat)

/-- One term: the exact product, shifted right with rounding to nearest, ties towards +∞ (R112). -/
def term (c v : Int) (sh : Nat) : Int := if sh = 0 then c * v else (c * v + 2 ^ (sh - 1)).fdiv (2 ^ sh)

/-- The terms of a row over an operand vector. -/
def terms (r : Row) (v : List Int) : List Int := List.zipWith (fun c x => term c.1 x c.2) r v

/-- A value saturated, and whether it was changed. -/
def satFlag (f : Int → Int) (x : Int) : Int × Bool := (f x, decide (f x ≠ x))

/-- Lane j: the terms whose index is j modulo 4, added in rising order with 64-bit saturation. -/
def laneSum (j : Nat) : Nat → List Int → Int × Bool → Int × Bool
  | _, [], a => a
  | i, t :: r, a =>
    laneSum j (i + 1) r (if i % 4 = j then let p := satFlag sat64 (a.1 + t); (p.1, a.2 || p.2) else a)

/-- A row evaluated, with whether anything saturated (R112). -/
def evalRow (r : Row) (v : List Int) : Int × Bool :=
  let t := terms r v
  let l0 := laneSum 0 0 t (0, false)
  let l1 := laneSum 1 0 t (0, false)
  let l2 := laneSum 2 0 t (0, false)
  let l3 := laneSum 3 0 t (0, false)
  let a := satFlag sat64 (l0.1 + l1.1)
  let b := satFlag sat64 (a.1 + l2.1)
  let c := satFlag sat64 (b.1 + l3.1)
  let d := satFlag sat32 c.1
  (d.1, l0.2 || l1.2 || l2.2 || l3.2 || a.2 || b.2 || c.2 || d.2)

/-- A row of the angle state: lanes and sum modulo 2⁶⁴, the result modulo 2³² (R114). -/
def evalAngleRow (r : Row) (v : List Int) : Int := wrap32 ((terms r v).foldl (· + ·) 0)

/-- Words a row of n coefficients occupies (R113). -/
def rowWords (n : Nat) : Nat := n + (n + 5) / 6

/-- A row as stored at an offset (R113). -/
def readRow (rd : Nat → Word) (off n : Nat) : Row :=
  (List.range n).map fun i =>
    ((rd (off + (n + 5) / 6 + i)).toInt, bitsOf (rd (off + i / 6)).toNat (5 * (i % 6)) 5)

/-- A part of a row of `len` coefficients at `off`, row `i` of its matrix. -/
def readRowAt (rd : Nat → Word) (off len i : Nat) : Row := readRow rd (off + i * rowWords len) len

/-- Number of one bits below bit n. -/
def popcount (x n : Nat) : Nat := ((List.range n).filter fun i => bitAt x i).length

/-! ## The programme (R118 to R120) -/

/-- A main-axis block: its place and dimensions (R119). `mc` is 0 in an uncoupled group. -/
structure MainBlock where
  base : Nat
  n : Nat
  q : Nat
  r : Nat
  sets : Nat
  ang : Nat
  spd : Nat
  dcur : Nat
  qcur : Nat
  meas : List Nat
  sps : List Nat
  mask : Nat
  clampWord : Word
  mc : Nat
deriving DecidableEq, Repr

namespace MainBlock

def ints (b : MainBlock) : Nat := popcount b.mask 12
def aOff (b : MainBlock) : Nat := b.base + 5
def bOff (b : MainBlock) : Nat := b.aOff + b.n * rowWords b.n
def eOff (b : MainBlock) : Nat := b.bOff + b.n * rowWords 2
def lOff (b : MainBlock) : Nat := b.eOff + b.ints * rowWords b.r
def cOff (b : MainBlock) : Nat := b.lOff + b.n * rowWords b.q
def setOff (b : MainBlock) (k : Nat) : Nat :=
  b.cOff + b.q * rowWords b.n + k * (1 + 2 * rowWords b.n + 2 * rowWords b.r)
def dOff (b : MainBlock) : Nat := b.setOff b.sets
def finish (b : MainBlock) : Nat := b.dOff + (if b.mc = 0 then 0 else rowWords b.mc)
/-- Whether a state is an integrator. -/
def isInt (b : MainBlock) (i : Nat) : Bool := bitAt b.mask i
/-- The integrator clamp (R119). -/
def clamp (b : MainBlock) : Int := b.clampWord.toNat

end MainBlock

/-- Codes of the first n slots of a word, 8 bits each from bit 0. -/
def codesOf (w : Nat) (n : Nat) : List Nat := (List.range n).map fun i => bitsOf w (8 * i) 8

/-- A main-axis block as stored at an offset (R119). -/
def readMain (rd : Nat → Word) (base mc : Nat) : MainBlock :=
  let h0 := (rd base).toNat
  let q := bitsOf h0 24 4
  let r := bitsOf h0 20 4
  { base, n := bitsOf h0 28 4, q, r, sets := bitsOf h0 16 4, ang := bitsOf h0 12 4, spd := bitsOf h0 8 4,
    dcur := bitsOf h0 4 4, qcur := bitsOf h0 0 4, meas := codesOf (rd (base + 1)).toNat q,
    sps := codesOf (rd (base + 2)).toNat r, mask := bitsOf (rd (base + 3)).toNat 20 12,
    clampWord := rd (base + 4), mc }

/-- The coupled block (R120). -/
structure CoupledBlock where
  base : Nat
  nc : Nat
  mc : Nat
  qc : Nat
  rc : Nat
  meas : List Nat
  sps : List Nat
  mask : Nat
  clampWord : Word
deriving DecidableEq, Repr

namespace CoupledBlock

def ints (b : CoupledBlock) : Nat := popcount b.mask 32
def aOff (b : CoupledBlock) : Nat := b.base + 6
def bOff (b : CoupledBlock) : Nat := b.aOff + b.nc * rowWords b.nc
def eOff (b : CoupledBlock) : Nat := b.bOff + b.nc * rowWords b.mc
def lOff (b : CoupledBlock) : Nat := b.eOff + b.ints * rowWords b.rc
def cOff (b : CoupledBlock) : Nat := b.lOff + b.nc * rowWords b.qc
def kOff (b : CoupledBlock) : Nat := b.cOff + b.qc * rowWords b.nc
def fOff (b : CoupledBlock) : Nat := b.kOff + b.mc * rowWords b.nc
def finish (b : CoupledBlock) : Nat := b.fOff + b.mc * rowWords b.rc
def isInt (b : CoupledBlock) (i : Nat) : Bool := bitAt b.mask i
def clamp (b : CoupledBlock) : Int := b.clampWord.toNat

end CoupledBlock

/-- The coupled block as stored at an offset (R120). -/
def readCoupled (rd : Nat → Word) (base : Nat) : CoupledBlock :=
  let c0 := (rd base).toNat
  let qc := bitsOf c0 16 4
  let rc := bitsOf c0 12 4
  let c2 := (rd (base + 2)).toNat
  let c3 := (rd (base + 3)).toNat
  { base, nc := bitsOf c0 24 8, mc := bitsOf c0 20 4, qc, rc,
    meas := (codesOf (rd (base + 1)).toNat 4 ++ codesOf (c2 % 65536) 2).take qc,
    sps := (codesOf (c2 / 65536) 2 ++ codesOf (c3 % 65536) 2).take rc,
    mask := (rd (base + 4)).toNat, clampWord := rd (base + 5) }

/-- The main-axis blocks from an offset, and the offset behind them. -/
def readMains (rd : Nat → Word) (mc : Nat) : Nat → Nat → List MainBlock × Nat
  | 0, off => ([], off)
  | k + 1, off =>
    let b := readMain rd off mc
    let rest := readMains rd mc k b.finish
    (b :: rest.1, rest.2)

/-- A group programme. -/
structure Programme where
  mains : List MainBlock
  auxOff : Nat
  coupled : Option CoupledBlock
  finish : Nat
deriving DecidableEq, Repr

/-- The programme with the blocks laid out for a given mc (R118 to R120). -/
def readProgramme (rd : Nat → Word) (nmain naux nc mc : Nat) : Programme :=
  let ms := readMains rd mc nmain 4
  let cOff := ms.2 + 16 * naux
  if nc = 0 then { mains := ms.1, auxOff := ms.2, coupled := none, finish := cOff }
  else
    let c := readCoupled rd cOff
    { mains := ms.1, auxOff := ms.2, coupled := some c, finish := c.finish }

/-- The mc of a programme with a coupled block. The blocks before the coupled block have rows of length mc and the
coupled block holds mc: it is the value from 1 to 8 with which the layout agrees with itself (log entry 16). -/
def findMc (rd : Nat → Word) (nmain naux nc : Nat) : Nat :=
  match ((List.range 8).map (· + 1)).find? fun mc =>
      match (readProgramme rd nmain naux nc mc).coupled with
      | some c => decide (c.mc = mc)
      | none => false with
  | some mc => mc
  | none => 0

/-! ## Validation (R121) -/

/-- A code that the table of R115 lists. -/
def codeListed (c : Nat) : Bool :=
  decide (c ≤ 0x1B) || (decide (0x20 ≤ c) && decide (c ≤ 0x2B)) || (decide (0x30 ≤ c) && decide (c ≤ 0x33))

/-- An integrator clamp word is in range. -/
def clampOk (w : Word) : Bool := decide (1 ≤ w.toNat) && decide (w.toNat ≤ 0x7FFFFFFF)

/-- A set header is valid: supervised slot below r or 0xF; each bumpless state 0xF, or an integrator whose own
coefficient in its row is not zero. -/
def setOk (rd : Nat → Word) (b : MainBlock) (k : Nat) : Bool :=
  let off := b.setOff k
  let h := (rd off).toNat
  let sup := bitsOf h 20 4
  let row := fun i => readRowAt rd (off + 1) b.n i
  let bump := fun (i st : Nat) => st = 15 ∨ (b.isInt st = true ∧ st < b.n ∧ ((row i).getD st (0, 0)).1 ≠ 0)
  decide ((sup = 15 ∨ sup < b.r) ∧ bump 0 (bitsOf h 28 4) ∧ bump 1 (bitsOf h 24 4))

/-- A main-axis block is valid. -/
def mainOk (rd : Nat → Word) (b : MainBlock) : Bool :=
  decide (1 ≤ b.n ∧ b.n ≤ 12 ∧ b.q ≤ 4 ∧ b.r ≤ 4 ∧ 1 ≤ b.sets ∧ b.sets ≤ 3 ∧ b.ints ≤ 3 ∧
    b.ang < b.n ∧ b.spd < b.n ∧ b.dcur < b.n ∧ b.qcur < b.n ∧ b.mask < 2 ^ b.n) &&
  b.meas.all codeListed && b.sps.all codeListed && clampOk b.clampWord &&
  (List.range b.sets).all (setOk rd b)

/-- A coupled block is valid. -/
def coupledOk (b : CoupledBlock) : Bool :=
  decide (1 ≤ b.nc ∧ b.nc ≤ 32 ∧ 1 ≤ b.mc ∧ b.mc ≤ 8 ∧ b.qc ≤ 6 ∧ b.rc ≤ 4 ∧ b.ints ≤ 8 ∧ b.mask < 2 ^ b.nc) &&
  b.meas.all codeListed && b.sps.all codeListed && clampOk b.clampWord

/-- An auxiliary block is valid (R223): header mark 0xA5, reserved bits and word 15 zero. -/
def auxOk (rd : Nat → Word) (off : Nat) : Bool := decide ((rd off).toNat = 0xA5000000) && decide (rd (off + 15) = 0)

/-- CRC-32 over all LENGTH words except word 2 (R118). -/
def programmeCrc (rd : Nat → Word) (len : Nat) : Nat :=
  crc32Words ((List.range len).filterMap fun i => if i = 2 then none else some (rd i))

/-- Validation of a programme against the group's settings (R121): members, coupled states, region length, and the
mc of a remote part (R439). -/
def validProgramme (rd : Nat → Word) (nmain naux nc regionLen remoteMc : Nat) : Bool :=
  let h := (rd 0).toNat
  let len := (rd 1).toNat
  let mc := if nc = 0 then remoteMc else findMc rd nmain naux nc
  let p := readProgramme rd nmain naux nc mc
  decide (bitsOf h 24 8 = 3 ∧ bitsOf h 16 8 = nmain ∧ bitsOf h 8 8 = naux ∧ bitsOf h 0 8 = nc) &&
  decide (len = p.finish ∧ len ≤ regionLen) &&
  decide ((rd 2).toNat = programmeCrc rd len) &&
  p.mains.all (mainOk rd) &&
  (List.range naux).all (fun i => auxOk rd (p.auxOff + 16 * i)) &&
  (match p.coupled with
    | some c => coupledOk c && decide (c.mc = mc)
    | none => true)

/-! ## Limits and modulation (R124 to R127) -/

/-- Vmax of R125 in mV, rounded down: VDC × duty limit / 10 000 / √3; zero below 1 V. -/
def vmax (vdc maxDuty : Int) : Int :=
  if vdc < 1000 then 0 else (isqrt ((vdc * vdc * maxDuty * maxDuty).toNat / 300000000) : Int)

/-- One component scaled to Vmax / |v| and rounded towards zero: the exact magnitude rounded down, or the integer below
it, as the open error of R125 has it (log entry 4). -/
def scaleComp (v vm n2 : Int) : Int :=
  let a : Int := isqrt ((v * v * vm * vm).toNat / n2.toNat)
  let b := if a ≠ 0 ∧ Config.scaleLow v vm n2 = true then a - 1 else a
  if v < 0 then -b else b

/-- The voltage vector limited to Vmax, and whether it was scaled (R125). -/
def limitVector (vd vq vm : Int) : Int × Int × Bool :=
  let n2 := vd * vd + vq * vq
  if n2 ≤ vm * vm then (vd, vq, false)
  else if vm = 0 then (0, 0, true)
  else (scaleComp vd vm n2, scaleComp vq vm n2, true)

/-- A third of a turn in 2⁻³² of 360°, rounded (R48). -/
def third : Int := 1431655765

/-- A vector (d, q) as phase quantities at an angle, scaled by 2³⁰: phase U is q sin θ − d cos θ, so that positive
back-EMF on q rises through zero on U at 0° (R48, R117; log entry 17). -/
def toPhases (d q θ : Int) : List Int :=
  [0, third, 2 * third].map fun k =>
    q * Config.sine (wrapU32 (θ - k)) - d * Config.cosine (wrapU32 (θ - k))

/-- Phase quantities as (d, q) at an angle: amplitude-invariant. The phases come scaled by 2³¹, the result is in whole
units rounded to nearest (within 1 LSB, R117). -/
def park (ph : Int × Int × Int) (θ : Int) : Int × Int :=
  let c := fun k => Config.cosine (wrapU32 (θ - k))
  let t := fun k => Config.sine (wrapU32 (θ - k))
  let d := ph.1 * c 0 + ph.2.1 * c third + ph.2.2 * c (2 * third)
  let q := ph.1 * t 0 + ph.2.1 * t third + ph.2.2 * t (2 * third)
  (roundDiv (-2 * d) (3 * 2 ^ 61), roundDiv (2 * q) (3 * 2 ^ 61))

/-- The largest and smallest of a list. -/
def listMax : List Int → Int
  | [] => 0
  | a :: r => r.foldl maxI a
def listMin : List Int → Int
  | [] => 0
  | a :: r => r.foldl minI a

/-- A duty word clamped to 0 to 0x1_0000, and whether the clamp changed it (R127). -/
def clampDuty (d : Int) : Nat × Bool := ((clampI 0 65536 d).toNat, decide (d < 0 ∨ 65536 < d))

/-- The duties of a sinusoidal axis (R127): the mean of the extremes subtracted, rounded half up. -/
def sineDuties (vd vq θ vdc : Int) : List (Nat × Bool) :=
  let v := toPhases vd vq θ
  let mean2 := listMax v + listMin v
  v.map fun x => clampDuty (32768 + (((2 * x - mean2) * 65536 + vdc * 2 ^ 30).fdiv (2 * vdc * 2 ^ 30)))

/-- The driven phases of a six-step sector, high side first; the third phase floats. Sector k runs from 30° before to
30° after crossing k (R62). -/
def sectorPhases (k : Fin 6) : Phase × Phase :=
  match k with
  | 0 => (.w, .v)
  | 1 => (.u, .v)
  | 2 => (.u, .w)
  | 3 => (.v, .w)
  | 4 => (.v, .u)
  | 5 => (.w, .u)

/-- The phase of a crossing index: U, W, V, U, W, V. -/
def crossingPhase (k : Fin 6) : Phase :=
  match k with
  | 0 => .u
  | 1 => .w
  | 2 => .v
  | 3 => .u
  | 4 => .w
  | 5 => .v

def phaseIx : Phase → Fin 3
  | .u => 0
  | .v => 1
  | .w => 2

/-- The duties of six-step drive (R127): 0x8000 ± round(vq × 32 768 / VDC) on the driven phases. The floating phase's word
is not used; it keeps 0x8000. -/
def sixStepDuties (k : Fin 6) (vq vdc : Int) : List (Nat × Bool) :=
  let h := (2 * vq * 32768 + vdc).fdiv (2 * vdc)
  let p := sectorPhases k
  [Phase.u, Phase.v, Phase.w].map fun x =>
    if x = p.1 then clampDuty (32768 + h) else if x = p.2 then clampDuty (32768 - h) else (32768, false)

/-- The duties of a pass (R127): below 1 V every phase takes 0x8000. -/
def dutiesOf (six : Bool) (k : Fin 6) (vd vq θ vdc : Int) : List (Nat × Bool) :=
  if vdc < 1000 then [(32768, false), (32768, false), (32768, false)]
  else if six then sixStepDuties k vq vdc
  else sineDuties vd vq θ vdc

/-- An angle increment: ω × 0.01 Hz × t × 2³², rounded to nearest with ties towards +∞ (R117). -/
def angleInc (ω : Int) (ns : Nat) : Int := (2 * ω * ns * 4294967296 + 100000000000).fdiv 200000000000

/-! ## Coefficient store access -/

namespace State

/-- A word as the serving engine reads it: a word lost in both engines reads as zero (R314). -/
def engWord (s : State) (addr : Nat) : Word :=
  if s.engines.lostWords.contains addr then 0
  else sget 0 (if s.engines.mode = .simplexB then s.engines.storeB else s.engines.storeA) addr

/-- A group's region of a bank, by offset. -/
def region (s : State) (g : Grp) (bank1 : Bool) (off : Nat) : Word :=
  s.engWord ((if bank1 then 8192 else 0) + s.gNounN g 0x08 + off)

/-- The region of the active bank. -/
def activeRegion (s : State) (g : Grp) : Nat → Word := s.region g (s.groups[g]).bank1

/-- Dimensions the programme of a group must have. -/
def nMain (s : State) (g : Grp) : Nat := (s.mainsOf g).length
def nAux (s : State) (g : Grp) : Nat := (s.auxsOf g).length

/-- mc of a remote part (R439). -/
def remoteMc (s : State) (g : Grp) : Nat := if s.remotePart g then s.gNounN g 0x39 else 0

/-- The programme of a group read from a bank. -/
def programme (s : State) (g : Grp) (bank1 : Bool) : Programme :=
  let rd := s.region g bank1
  let nc := s.gNounN g 0x07
  let mc := if nc = 0 then s.remoteMc g else findMc rd (s.nMain g) (s.nAux g) nc
  readProgramme rd (s.nMain g) (s.nAux g) nc mc

/-- Validation of a group's programme in a bank (R121). -/
def bankValid (s : State) (g : Grp) (bank1 : Bool) : Bool :=
  validProgramme (s.region g bank1) (s.nMain g) (s.nAux g) (s.gNounN g 0x07) (s.gNounN g 0x09) (s.remoteMc g)

/-- Words 0, 1 and the header words of every block: those that a SWAP on a running group may not change (R133). -/
def headerWords (p : Programme) (naux : Nat) : List Nat :=
  [0, 1] ++ p.mains.flatMap (fun b => (List.range 5).map (b.base + ·)) ++
  (List.range naux).map (fun i => p.auxOff + 16 * i) ++
  (match p.coupled with
    | some c => (List.range 6).map (c.base + ·)
    | none => [])

/-- Engine cost of one pass in CD3 cycles: 85 for each main axis, 20 for each auxiliary axis, 15 for each coupled state,
the figures of *The time budget* (log entry 18). -/
def passCost (s : State) (g : Grp) : Nat := 85 * s.nMain g + 20 * s.nAux g + 15 * s.gNounN g 0x07

end State

end Sys2Proof.Machine
end

