-- ==== Sys2Proof/Machine/Sharing.lean ====
section
/-! DEFINITION. Sharing torque among motors (R153 to R160), the yield state (R162 to R165), shocks (R152), excitation and
the thermal model (R167, R168, R175), and the ledger's increments (R178, R179). -/

namespace Sys2Proof.Machine

/-- A rational rounded to an integer where the spec states no rounding (log entry 15). -/
def openRound (x : Rat) : Int := openDiv x.num x.den

/-! ## Distribution (R155, R156) -/

/-- A member of a share set in one pass. -/
structure Member0 where
  m : Main
  set : Nat
  demand : Int
  scaled : Int
  given : Int
  motor : Int
  regen : Int
  speed : Int
  weight : Int
  normal : Bool
  haul : Int
deriving DecidableEq, Repr

namespace Member0

/-- The limit for a demand of a sign: regenerative when opposite to the speed estimate's sign (R155). -/
def limit (x : Member0) (sgn : Int) : Int := if sgn * x.speed < 0 then x.regen else x.motor

/-- A value held within the member's limits. -/
def hold (x : Member0) (d : Int) : Int := clampI (-(x.limit (-1))) (x.limit 1) d

/-- Headroom in the sign of E. -/
def room (x : Member0) (sgn : Int) : Bool := decide (0 < x.limit sgn - sgn * x.given)

end Member0

def sumOf (f : Member0 → Int) (l : List Member0) : Int := l.foldl (fun a x => a + f x) 0

/-- One round of R156 over the members a tier admits: each with headroom is given E × weight / sum of weights, the
rounding remainder going to the lowest-numbered of them, clamped to its limit. -/
def shareRound (tier1 : Bool) (l : List Member0) : List Member0 :=
  let e := sumOf (·.scaled) l - sumOf (·.given) l
  let sgn := signI e
  let able := fun (x : Member0) => (!tier1 || x.normal) && x.room sgn
  let who := l.filter able
  let w := sumOf (·.weight) who
  if e = 0 ∨ who = [] then l
  else
    let part := fun (x : Member0) => truncDiv (e * x.weight) w
    let rest := e - sumOf part who
    l.map fun x =>
      if able x = true then
        { x with given := x.hold (x.given + part x + (if who.head?.map (·.m) = some x.m then rest else 0)) }
      else x

def shareRounds (tier1 : Bool) : Nat → List Member0 → List Member0
  | 0, l => l
  | k + 1, l => shareRounds tier1 k (shareRound tier1 l)

/-- The distribution of one share set, with an optional cap in mA on the sum of its haul-in components (R156). -/
def shareSet (cap : Option Rat) (l : List Member0) : List Member0 :=
  let h := sumOf (fun x => x.haul * x.demand) l
  let scale := fun (x : Member0) =>
    match cap with
    | some c => if c < (h : Rat) then openRound ((x.demand : Rat) * c / h) else x.demand
    | none => x.demand
  let l0 := l.map fun x => { x with scaled := scale x, given := x.hold (scale x) }
  shareRounds false 12 (shareRounds true 12 l0)

/-- κ of a share set: what is given over what was demanded, 1 for a demand of 0 (R156). -/
def kappaOf (l : List Member0) : Rat :=
  let d := sumOf (·.demand) l
  if d = 0 then 1 else (sumOf (·.given) l : Rat) / d

/-! ## Yield (R162 to R165) -/

namespace State

/-- Iyield in mA: ceiling × holding factor (R162). -/
def iYield (s : State) (g : Grp) : Rat := (s.gNoun g 0x19 * s.gNoun g 0x1C : Rat) / 1000

/-- Whether yield is enabled: `N:0x1g18`, or the emergency mode YIELD in force (R163, R328). -/
def yieldOn (s : State) (g : Grp) : Bool :=
  s.gNoun g 0x18 == 1 || ((s.groups[g]).eactive && (s.groups[g]).emode == 2)

/-- Pay-out speed above `N:0x1g1E`, from the fall in line position over the last committed sample (R151, R164). -/
def payingFast (s : State) (g : Grp) (line : Int) : Bool :=
  let y := (s.groups[g]).yield
  y.lineValid && decide (s.gNoun g 0x1E * s.tsNs g < (y.linePrev - line) * 1000)

/-- The cap of a pass in a yield state, given Imax (R164). -/
def yieldCap (s : State) (g : Grp) (y : YieldSt) (line : Int) (imax : Int) : Option Rat :=
  match y.state with
  | .yield => if s.payingFast g line then none else some (s.iYield g)
  | .recover =>
    let total : Rat := s.gNoun g 0x20 * 80
    let t : Rat := if (y.recTicks : Rat) < total then y.recTicks else total
    some ((y.entryCap : Rat) + ((imax : Rat) - y.entryCap) * t / total)
  | _ => none

/-- The paid-out length in whole mm (R165). -/
def paidMm (y : YieldSt) (line : Int) : Nat := (clampI 0 4294967295 ((y.entryLine - line) / 1000000)).toNat

/-- The rise of tension since the last committed pass, in N/ms, when it exceeds the shock threshold (R152). -/
def shockRate (s : State) (g : Grp) (t : Option Int) : Option Int :=
  let y := (s.groups[g]).yield
  match t with
  | none => none
  | some v =>
    if y.tValid && decide (s.gNoun g 0x16 * s.tsNs g < (v - y.tension) * 1000000) then
      some (openDiv ((v - y.tension) * 1000000) (s.tsNs g))
    else none

/-- The yield state tested in a pass on that pass's tension (R163), with the event the transition logs: its code and
DATA0. -/
def yieldTest (s : State) (g : Grp) (t : Option Int) (lineOk : Bool) (line : Int) : YieldSt × Option (Nat × Int) :=
  let y := (s.groups[g]).yield
  let on := s.yieldOn g
  let ok := t.isSome && lineOk
  let high := match t with
    | some v => decide (s.gNoun g 0x19 ≤ v)
    | none => false
  let trip := high && y.wasOver && !y.exhausted
  match y.state with
  | .off => if on && ok then ({ y with state := .armed }, none) else (y, none)
  | .armed =>
    if !on || !ok then ({ y with state := .off }, none)
    else if trip then ({ y with state := .yield, entryLine := line, paidOut := 0 }, none)
    else (y, none)
  | .yield =>
    let paid := paidMm y line
    let leave := fun (z : YieldSt) => { z with state := .recover, recTicks := 0, entryCap := openRound (s.iYield g) }
    if !ok then (leave { y with lost := true }, some (0x0507, 2))
    else if decide (s.gNoun g 0x1F * 1000000 ≤ y.entryLine - line) then
      (leave { y with exhausted := true, paidOut := paid }, some (0x0506, paid))
    else if !on then (leave { y with paidOut := paid }, none)
    else ({ y with paidOut := paid }, none)
  | .recover =>
    if trip then ({ y with state := .yield, paidOut := paidMm y line }, none)
    else ({ y with paidOut := if lineOk then paidMm y line else y.paidOut }, none)

/-- The end of RECOVER: ARMED, or OFF if a condition of ARMED fails (R163). -/
def recoverEnd (s : State) (g : Grp) : YState :=
  if s.yieldOn g && (s.groups[g]).yield.tValid && s.drumOk g then .armed else .off

/-- The tension, line and shock data a commit stores (R150 to R152). -/
def yieldCommit (s : State) (g : Grp) (y : YieldSt) (t : Option Int) (lineOk : Bool) (line : Int) (kmin : Nat) :
    YieldSt × Option Int :=
  let rate := s.shockRate g t
  let isShock := rate.isSome
  let begins := isShock && decide (800 ≤ y.quiet)
  let r := rate.getD 0
  let done := if !isShock && decide (800 ≤ y.quiet) && decide (0 < y.peak) then some y.peak else none
  ({ y with
      tension := t.getD y.tension
      tValid := t.isSome
      wasOver := match t with
        | some v => decide (s.gNoun g 0x19 ≤ v)
        | none => false
      linePrev := line
      line := line
      lineValid := lineOk
      shock := isShock
      shocks := if begins then satInc 255 y.shocks else y.shocks
      quiet := if isShock then 0 else y.quiet
      peak := if begins then r else if isShock then maxI y.peak r else if done.isSome then 0 else y.peak
      kappa := kmin }, done)

/-! ## Limits of one axis (R155, R160, R173) -/

/-- Voltages of R169 in mV. -/
def linkMv (s : State) (l : LinkNo) (off : Nat) : Int := s.lNoun l off * 100

/-- The foldback factor of a THRUSTER axis on a link in stage 1 or beyond (R173), 1 otherwise. -/
def foldback (s : State) (m : Main) : Rat :=
  let l := s.linkOf m
  let x := s.links[l]
  if s.mNoun m 0x04 = 0 ∧ x.stage ≠ .normal then
    clampR 0 1 (((s.linkMv l 0x14 - x.vdc : Int) : Rat) / ((s.linkMv l 0x14 - s.linkMv l 0x13 : Int) : Rat))
  else 1

def motorLimit (s : State) (m : Main) : Int := s.pctRated m (s.mNoun m 0x36)

/-- The regenerative limit: the lesser of `N:0x2m36` and `N:0x2m41`, folded back, rounded towards zero. -/
def regenLimit (s : State) (m : Main) : Int :=
  truncR ((s.pctRated m (minI (s.mNoun m 0x36) (s.mNoun m 0x41)) : Rat) * s.foldback m)

/-- Whether an axis contributes in a pass (R155): `latched` tells whether its fault latch was set before the sample. -/
def contributes (s : State) (m : Main) : Bool :=
  let a := s.mains[m]
  a.eng.mode == 4 && (a.comm.state == .run || a.comm.state == .handover || a.comm.state == .coast) &&
    a.drive.latch == 0

/-! ## Excitation and the thermal model -/

/-- The dissipative part of id* (R175), in mA: −f × Imag with Imag the least of the maximum, the circle of the current
limit, and the thermal allowance. Zero outside stage 2. -/
def dissipation (s : State) (m : Main) : Int :=
  let l := s.linkOf m
  let x := s.links[l]
  let a := s.mains[m]
  let inStage := x.stage = .stage2 ∧ (a.comm.state = .run ∨ a.comm.state = .coast)
  if inStage ∧ a.share.hot = false then
    let ilim := s.motorLimit m
    let iq := a.eng.iqSet
    let circle : Int := isqrt (ilim * ilim - iq * iq).toNat
    let imag := minI (s.pctRated m (s.mNoun m 0x48)) circle
    let vd := s.linkMv l 0x14
    let f := minR 1 (2 * ((x.vdc - vd : Int) : Rat) / ((s.linkMv l 0x15 - vd : Int) : Rat))
    0 - openRound (maxR 0 f * imag)
  else 0

/-- θ after a committed sample, in 2⁻³² (R175). -/
def thetaNext (s : State) (g : Grp) (m : Main) (id iq : Int) : Int :=
  let θ := (s.mains[m]).share.theta
  let ic := s.pctRated m (s.mNoun m 0x49)
  let ratio : Rat := ((id * id + iq * iq : Int) : Rat) / ((ic * ic : Int) : Rat)
  let step : Rat := (s.tsNs g : Rat) / (1000000000 * (s.mNoun m 0x4A : Rat))
  openRound ((θ : Rat) + (ratio * 4294967296 - θ) * step)

/-! ## Ledger (R178, R179) -/

end State

/-- Add an amount to a counter, carrying the remainder (R178). -/
def Counter.add (c : Counter) (x : Rat) : Counter :=
  let t := c.rest + x
  let w := t.floor.toNat
  { mJ := c.mJ + w, rest := t - (w : Rat) }

/-- Add a signed energy to an in or an out counter (R179). -/
def addPair (i o : Counter) (x : Rat) : Counter × Counter :=
  if 0 < x then (i.add x, o) else if x < 0 then (i, o.add (-x)) else (i, o)

namespace State

/-- The energy of one axis over one sample in mJ: 1.5 × (vd·id + vq·iq) × TS, from mV, mA and ns (R179). -/
def axisEnergy (s : State) (g : Grp) (m : Main) (id iq : Int) : Rat :=
  let e := (s.mains[m]).eng
  ((3 * (e.vd * id + e.vq * iq) * s.tsNs g : Int) : Rat) / 2000000000000

/-- The thrust impulse of one axis over one sample in mN·s: THRUSTER axes only (R179). -/
def thrustOf (s : State) (g : Grp) (m : Main) : Rat :=
  if s.mNoun m 0x04 = 0 then
    let n : Rat := ((s.mains[m]).eng.speed : Rat) / (100 * (s.mNoun m 0x01 : Rat))
    (s.mNoun m 0x4B : Rat) * n * n * (s.tsNs g : Rat) / 1000000000
  else 0

end State

end Sys2Proof.Machine
end

