-- ==== Sys2Proof/Machine/Planner.lean ====
section
/-! DEFINITION. One step of a motion plan (R183, R194): the constant jerk of a step, chosen so that the output reaches
its target state as early as the limits allow and lands on it exactly. All quantities are rationals in counts and
seconds. Log entry 19 says how the time-optimal plan is cut into steps. -/

namespace Sys2Proof.Machine

/-- A motion state: position, speed, acceleration. -/
structure Mot where
  p : Rat
  v : Rat
  a : Rat
deriving DecidableEq, Repr

/-- Limits of a plan: speed bounds, acceleration, jerk. -/
structure Lim where
  lo : Rat
  hi : Rat
  acc : Rat
  jerk : Rat
deriving DecidableEq, Repr

/-- Exact integration of one constant jerk over a time (R183). -/
def Mot.after (x : Mot) (j t : Rat) : Mot :=
  { p := x.p + x.v * t + x.a * t * t / 2 + j * t * t * t / 6
    v := x.v + x.a * t + j * t * t / 2
    a := x.a + j * t }

/-- A square root rounded down to a multiple of 2⁻¹⁶. -/
def sqrtR (x : Rat) : Rat :=
  if x ≤ 0 then 0 else ((isqrt ((x.num.toNat * 4294967296) / x.den) : Nat) : Rat) / 65536

/-- The speed reached when the acceleration is brought to zero at the jerk limit. -/
def restSpeed (v a J : Rat) : Rat := v + a * absR a / (2 * J)

/-- The distance of the time-optimal stop from a speed and acceleration whose rest speed is positive: jerk down to a
peak deceleration, hold it if the limit is met, and jerk back to zero. -/
def stopForward (v a A J : Rat) : Rat :=
  let ap0 := sqrtR (J * v + a * a / 2)
  let ap := if A < ap0 then A else ap0
  let t1 := (a + ap) / J
  let x1 := v * t1 + a * t1 * t1 / 2 - J * t1 * t1 * t1 / 6
  let v1 := v + (a * a - ap * ap) / (2 * J)
  let th := if ap0 ≤ A then 0 else maxR 0 ((v1 - ap * ap / (2 * J)) / ap)
  let x2 := v1 * th - ap * th * th / 2
  let v2 := v1 - ap * th
  let t3 := ap / J
  x1 + x2 + (v2 * t3 - ap * t3 * t3 / 2 + J * t3 * t3 * t3 / 6)

/-- The signed distance of the time-optimal stop (R200): from the present output to rest. -/
def stopDistance (v a A J : Rat) : Rat :=
  let r := restSpeed v a J
  if 0 < r then stopForward v a A J
  else if r < 0 then -(stopForward (-v) (-a) A J)
  else
    let t := absR a / J
    v * t + a * t * t / 3

/-- Where a stop from a state ends. -/
def stopPoint (x : Mot) (A J : Rat) : Rat := x.p + stopDistance x.v x.a A J

/-- Bisection for the largest of 2ᵏ evenly spaced values from `lo` (known good) towards `hi` that `ok` accepts. -/
def bisect (ok : Rat → Bool) : Nat → Rat → Rat → Rat
  | 0, lo, _ => lo
  | k + 1, lo, hi => let mid := (lo + hi) / 2; if ok mid then bisect ok k mid hi else bisect ok k lo mid

/-- The acceleration range one step can reach: within the jerk limit, and within the acceleration limit or moving
towards it (R183). -/
def accRange (a A J t : Rat) : Rat × Rat :=
  let lo := a - J * t
  let hi := a + J * t
  if A < a then (lo, maxR A lo) else if a < -A then (minR (-A) hi, hi) else (maxR lo (-A), minR hi A)

/-- The end-of-step acceleration farthest in the positive direction that `ok` accepts; the lowest one when none is. -/
def pushAcc (ok : Rat → Bool) (r : Rat × Rat) : Rat :=
  if ok r.2 then r.2 else if ok r.1 then bisect ok 16 r.1 r.2 else r.1

/-- An acceleration on the grid of 2⁻³² next to `b` on the side of `a`. -/
def snapAcc (a b : Rat) : Rat := a + (truncR ((b - a) * 4294967296) : Rat) / 4294967296

/-- The jerk of a step towards a speed with zero acceleration. The last two steps land exactly. -/
def planSpeed (v a vt A J t : Rat) : Rat :=
  let a1 := (vt - v - a * t / 2) / t
  if absR (a1 - a) ≤ J * t ∧ absR a1 ≤ J * t ∧ absR a1 ≤ A then (a1 - a) / t
  else
    let r := accRange a A J t
    let next := fun (b : Rat) => restSpeed (v + (a + b) * t / 2) b J
    let b :=
      if restSpeed v a J < vt then pushAcc (fun b => decide (next b ≤ vt)) r
      else -(pushAcc (fun b => decide (vt ≤ next (-b))) (-r.2, -r.1))
    (snapAcc a b - a) / t

/-- The three jerks that bring a state to rest at the origin in exactly three steps. -/
def landing (x : Mot) (t : Rat) : Rat × Rat × Rat :=
  let A0 := -x.a / t
  let B0 := -2 * (x.v + 3 * x.a * t) / (t * t)
  let C0 := -6 * (x.p + 3 * x.v * t + 9 * x.a * t * t / 2) / (t * t * t)
  let j1 := (C0 - 3 * B0 + 2 * A0) / 6
  let j2 := (B0 - A0 - 4 * j1) / 2
  (j1, j2, A0 - j1 - j2)

/-- Whether the three landing steps keep every limit and do not pass the target; within the distance that one step's
jerk can move, the remainder is absorbed whichever side it lies. -/
def landingOk (x : Mot) (l : Lim) (t : Rat) : Bool :=
  let j := landing x t
  let x1 := x.after j.1 t
  let x2 := x1.after j.2.1 t
  let inside := fun (y : Mot) =>
    decide (l.lo ≤ y.v ∧ y.v ≤ l.hi ∧ absR y.a ≤ l.acc ∧ (0 ≤ y.p * x.p ∨ absR x.p ≤ l.jerk * t * t * t))
  decide (absR j.1 ≤ l.jerk ∧ absR j.2.1 ≤ l.jerk ∧ absR j.2.2 ≤ l.jerk) && inside x1 && inside x2

/-- The jerk of a step towards rest at the origin (R194): the farthest acceleration towards it from which a stop still
does not pass it and the speed bound still holds, or the exact landing when three steps reach it. -/
def planRest (x : Mot) (l : Lim) (t : Rat) : Rat :=
  if landingOk x l t then (landing x t).1
  else
    let r := accRange x.a l.acc l.jerk t
    let at' := fun (b : Rat) => x.after ((b - x.a) / t) t
    let up := fun (b : Rat) =>
      let y := at' b
      decide (stopPoint y l.acc l.jerk ≤ 0 ∧ (restSpeed y.v y.a l.jerk ≤ l.hi ∨ b ≤ r.1))
    let down := fun (b : Rat) =>
      let y := at' (-b)
      decide (0 ≤ stopPoint y l.acc l.jerk ∧ (l.lo ≤ restSpeed y.v y.a l.jerk ∨ b ≤ -r.2))
    let b := if stopPoint x l.acc l.jerk < 0 then pushAcc up r else -(pushAcc down (-r.2, -r.1))
    (snapAcc x.a b - x.a) / t

/-- The jerk towards a target position moving at a rate: rest at the origin of the moving frame (R196). -/
def planTo (x : Mot) (target rate V A J t : Rat) : Rat :=
  planRest { p := x.p - target, v := x.v - rate, a := x.a } { lo := -V - rate, hi := V - rate, acc := A, jerk := J } t

/-- An output within the resolution of the 32-bit fraction of its target, with speed and acceleration that move it by
less than that in a step, is at the target (R183, R194). -/
def settle (y : Mot) (target rate t : Rat) : Mot :=
  let e : Rat := 1 / 268435456
  if absR (y.p - target) ≤ e ∧ absR (y.v - rate) * t ≤ e ∧ absR y.a * t * t ≤ e then
    { p := target, v := rate, a := 0 }
  else y

/-- SEGMENT of a step (R190): 0 AT-TARGET, 1 JERK-IN, 2 CONST-ACCEL, 3 JERK-OUT, 4 CRUISE. -/
def segmentOf (x y : Mot) (atTarget : Bool) : Fin 5 :=
  if atTarget then 0
  else if x.a = y.a then (if y.a = 0 then 4 else 2)
  else if absR x.a < absR y.a then 1 else 3

end Sys2Proof.Machine
end

