-- ==== Sys2Proof/Machine/Pass.lean ====
section
/-! DEFINITION. One engine pass of a group as a function of its inputs (R115 to R127, R155 to R157): what each member
measures, the coupled block, the distribution of its demands, and each main-axis segment. Nothing here changes the
state: Machine/Commit.lean stores what a pass answers when the engines agree on it. -/

namespace Sys2Proof.Machine

/-! ## Angles and crossings -/

/-- Crossing index of a comparator edge (R48): the order U, W, V of *Glance windows*. -/
def crossingIx (p : Phase) (rising : Bool) : Fin 6 :=
  match p, rising with
  | .u, true => 0
  | .w, false => 1
  | .v, true => 2
  | .u, false => 3
  | .w, true => 4
  | .v, false => 5

/-- The angle of crossing k in 2⁻³² of 360°, rounded to nearest (R48). -/
def crossingAngle (k : Int) : Int := (k * 4294967296 + 3).fdiv 6

/-- Angle gone through at a speed in a time in 1/3 ns, rounded as in R117. -/
def angleClk (ω t : Int) : Int := (2 * ω * t * 4294967296 + 300000000000).fdiv 600000000000

/-- The residual of a crossing against an angle and speed at tk, in −180° to +180° (R59). -/
def residualOf (θ ω tk : Int) (c : Crossing) : Int :=
  wrap32 (θ - angleClk ω (tk - c.clock) - crossingAngle (crossingIx c.phase c.rising).val)

/-- 60° over the mean of `n` crossing intervals that together last a time in 1/3 ns, in 0.01 Hz (R62, R71). -/
def speedOver (n t : Int) : Int := if t ≤ 0 then 0 else openDiv (50000000000 * n) t

/-! ## What an axis measures -/

/-- What the pass takes of one main axis before its segment. -/
structure Meas where
  m : Main
  θ0 : Int
  ω0 : Int
  θ : Int
  ω : Int
  turns : Int
  id : Int
  iq : Int
  /-- residuals of the crossings used by this pass, oldest first, with whether each counts as a miss (R60) -/
  events : List (Int × Bool)
  /-- the measurement of code 0x05: the last residual that is not a miss -/
  residual : Option Int
deriving DecidableEq, Repr

namespace State

/-- The instant of the present sample, in frame ticks since the supply came up. -/
def sampleNow (s : State) (g : Grp) : Nat :=
  let n := s.gNounN g 0x02
  s.time.now - (s.time.tick + n - s.gNounN g 0x03) % n

/-- tk in 1/3 ns since the supply came up. -/
def tkClock (s : State) (g : Grp) : Int := 37500 * (s.sampleNow g : Int)

/-- A unit showing what a sample instant latched. -/
def latchedUnit (u : FbUnit) (l : FbLatch) : FbUnit :=
  { u with pos := l.pos, speed := l.speed, data := l.data, valid := l.valid, ref := l.ref }

/-- The state as the pass of a group sees it: feedback units as latched at tk (R26). -/
def atSample (s : State) (g : Grp) : State :=
  let l := (s.groups[g]).fbLatch
  { s with fb := Vector.ofFn fun i => latchedUnit s.fb[i] l[i] }

/-- Angle and speed of source SIX-STEP at tk (DEDUCED, log entry 20): the angle of the last crossing advanced at the
speed formed over the last two crossing intervals. -/
def sixStepAngle (s : State) (g : Grp) (m : Main) (obs : Int × Int) : Int × Int :=
  let c := (s.mains[m]).comm
  let dir := signI (s.mains[m]).eng.speed
  let at0 : Int := if c.sixSeen then c.sector.val else (c.sector.val : Int) - dir
  match c.sixTimes with
  | t0 :: _ :: t2 :: _ =>
    let ω := dir * speedOver 2 (t0 - t2)
    (wrapU32 (crossingAngle at0 + angleClk ω (s.tkClock g - t0)), ω)
  | t0 :: _ => (wrapU32 (crossingAngle at0 + angleClk obs.2 (s.tkClock g - t0)), obs.2)
  | [] => obs

/-- Angle and speed of an angle source, `obs` being the observer's (R117). -/
def sourceAngle (s : State) (g : Grp) (m : Main) (obs : Int × Int) : Source → Int × Int
  | .none => obs
  | .observer => obs
  | .sixStep => s.sixStepAngle g m obs
  | .sensor => (s.sensorAngle m, s.sensorSpeed m)
  | .parison => ((s.mains[m]).comm.rampAngle, roundDiv (s.mains[m]).comm.rampSpeed 4294967296)
  | .parked => match (s.mains[m]).comm.parked with
    | some p => (p.1, 0)
    | none => (0, 0)
  | .align => (0, 0)

/-- Angle and speed a pass uses (R117): the prediction in COAST, the blend of a handover, or the source's. -/
def passAngle (s : State) (g : Grp) (m : Main) (obs : Int × Int) : Int × Int :=
  let c := (s.mains[m]).comm
  if c.state = .coast then (c.coastAngle, c.coastSpeed)
  else
    let old := s.sourceAngle g m obs c.source
    match c.blend with
    | some j =>
      let new := s.sourceAngle g m obs c.target
      (wrapU32 (old.1 + floorDiv (wrap32 (new.1 - old.1) * (j + 1)) 32), old.2)
    | none => old

/-- Residual limit in force (R60, R75), in 2⁻³² of 360°: as a comparison with 360 times the residual. -/
def residualMiss (s : State) (m : Main) (e : Int) : Bool :=
  let lim := s.mNoun m 0x17 * (if (s.mains[m]).comm.state = .coast then 2 else 1)
  decide (lim * 4294967296 < absI e * 360)

/-- The crossings the present pass uses: those before tk (R34). -/
def freshBefore (s : State) (g : Grp) (m : Main) : List (Crossing × Option Int) :=
  (s.mains[m]).glance.fresh.filter fun c => decide (c.1.clock < s.tkClock g)

/-- The measurements of one member. -/
def measure (s : State) (g : Grp) (m : Main) (b : MainBlock) : Meas :=
  let a := s.mains[m]
  let θ0 := wrapU32 (a.eng.x.getD b.ang 0)
  let ω0 := a.eng.x.getD b.spd 0
  let u := s.passAngle g m (θ0, ω0)
  let ph := s.phaseCurrents m a.drive.rawA a.drive.rawB
  let dq := park ph (wrapU32 (u.1 + angleInc u.2 (75 * s.gNounN g 0x05)))
  let ref := if a.comm.state = .coast then (a.comm.coastAngle, a.comm.coastSpeed) else (θ0, ω0)
  let es := (s.freshBefore g m).map fun c =>
    let e := residualOf ref.1 ref.2 (s.tkClock g) c.1
    (e, s.residualMiss m e)
  { m, θ0, ω0, θ := u.1, ω := u.2
    turns := a.eng.turns + wrap16 (u.1 / 65536 - a.eng.turns)
    id := dq.1, iq := dq.2, events := es
    residual := ((es.filter fun e => !e.2).getLast?).map (·.1) }

/-! ## Signals (R115, R184, R187) -/

/-- Position of a main axis' motion channel in a pass. -/
def passChannel (s : State) (k : Meas) : Int × Bool :=
  match unitOfCode (s.mNounN k.m 0x50) with
  | none => (k.turns, true)
  | some n => ((s.fb[n]).pos, (s.fb[n]).valid)

/-- Whole counts of a generator's output position, rounded to nearest with ties away from zero. -/
def wholePos (s : State) (x : GenId) : Int := roundDiv (s.gen x).pos 4294967296

/-- A rational in counts scaled to 0.01 Hz by kv (R184). -/
def toCentiHz (s : State) (m : Main) (v : Rat) : Int := roundR (v * (s.mNoun m 0x51 : Rat) / 16777216)

/-- Position error of an axis: on a channel that counts modulo, the shorter way round (DEDUCED, log entry 21). -/
def posError (s : State) (k : Meas) : Int :=
  let e := s.wholePos (.main k.m) - (s.passChannel k).1
  match s.channelModulus k.m with
  | some n => (e + n / 2) % n - n / 2
  | none => e

/-- The lead axis of a group (`N:0x1g28`). -/
def lead (s : State) (g : Grp) : Option Main := fin? 12 (s.gNounN g 0x28)

/-- Span members in order on the home part (R441): local members, then what the other parts last sent. -/
def spanValues (s : State) (g : Grp) (meas : List Meas) : List (Option Int × Int) :=
  let own := meas.map fun k =>
    (if (s.mains[k.m]).comm.state = .run then some (s.mains[k.m]).eng.speed else none, k.iq)
  let far := (fins 8).flatMap fun i =>
    match (s.groups[g]).span.heard.find? fun h => h.1 == i && h.1 != s.cascade.ident with
    | some h => (List.range (h.2.2.1.length / 3)).map fun j =>
        (some (h.2.2.1.getD (3 * j) 0), h.2.2.1.getD (3 * j + 2) 0)
    | none => []
  own ++ far

/-- Speed estimate of a numbered axis, codes 0x10 to 0x1B: absent while the axis is not in RUN. -/
def speedSignal (s : State) (g : Grp) (meas : List Meas) (i : Nat) : Option Int :=
  if s.homePart g then ((s.spanValues g meas).getD i (none, 0)).1
  else match fin? 12 i with
    | some m => if (s.mains[m]).comm.state = .run then some (s.mains[m]).eng.speed else none
    | none => none

/-- q-axis current of a numbered axis, codes 0x20 to 0x2B: of this pass for a member, of the last committed sample for
another axis (DEDUCED, log entry 22). -/
def currentSignal (s : State) (g : Grp) (meas : List Meas) (i : Nat) : Option Int :=
  if s.homePart g then some ((s.spanValues g meas).getD i (none, 0)).2
  else match fin? 12 i with
    | some m => match meas.find? fun k => k.m == m with
      | some k => some k.iq
      | none => some (s.mains[m]).eng.iq
    | none => none

/-- A signal of R115 as an axis' segment sees it: none when absent. `sp` is its torque-current set-point. -/
def signal (s : State) (g : Grp) (meas : List Meas) (k : Meas) (sp : Int) (c : Nat) : Option Int :=
  let a := s.mains[k.m]
  let l := s.links[s.linkOf k.m]
  let v : Option Int := match c with
    | 0x00 => none
    | 0x01 => some k.id
    | 0x02 => some k.iq
    | 0x03 => if l.vValid then some l.vdc else none
    | 0x04 => if l.iValid then some l.idc else none
    | 0x05 => k.residual
    | 0x06 => if s.sensorOk k.m then some (wrap32 (s.sensorAngle k.m - k.θ0)) else none
    | 0x07 => if s.sensorOk k.m then some (s.sensorSpeed k.m) else none
    | 0x08 => if (s.passChannel k).2 then some (s.posError k) else none
    | 0x09 => some (s.toCentiHz k.m a.gen.speed)
    | 0x0A => some sp
    | 0x0B => some (s.toCentiHz k.m a.gen.speed - a.eng.speed)
    | 0x0C => some (sp - k.iq)
    | 0x0D => s.tensionSignal g
    | 0x0E => if s.drumOk g then
        some ((match s.lead g with
          | some m => s.wholePos (.main m)
          | none => 0) - s.drumPos g)
      else none
    | 0x0F => some (s.toCentiHz k.m a.gen.acc)
    | _ =>
      if c / 16 = 1 then s.speedSignal g meas (c % 16)
      else if c / 16 = 2 then s.currentSignal g meas (c % 16)
      else match fin? 4 (c - 0x30) with
        | some i => if (s.links[i]).vValid then some (s.links[i]).vdc else none
        | none => none
  v.map sat32

end State

/-! ## Rows of a block -/

/-- One output row of a feedback set: K then F over the concatenation (R123). -/
def setRow (rd : Nat → Word) (b : MainBlock) (k j : Nat) : Row :=
  readRowAt rd (b.setOff k + 1) b.n j ++ readRowAt rd (b.setOff k + 1 + 2 * rowWords b.n) b.r j

/-- The operand of the feedback rows: the d-current state less id* (R167). -/
def feedX (b : MainBlock) (x : List Int) (idStar : Int) : List Int × Bool :=
  let p := satFlag sat32 (x.getD b.dcur 0 - idStar)
  if idStar = 0 then (x, false) else (lset x b.dcur p.1, p.2)

/-- The outputs of a feedback set. -/
def outputs (rd : Nat → Word) (b : MainBlock) (k : Nat) (x r : List Int) (idStar : Int) : (Int × Int) × Bool :=
  let f := feedX b x idStar
  let d := evalRow (setRow rd b k 0) (f.1 ++ r)
  let q := evalRow (setRow rd b k 1) (f.1 ++ r)
  ((d.1, q.1), f.2 || d.2 || q.2)

/-- Correction of the states by the innovations (R116, R123). -/
def correct (rd : Nat → Word) (b : MainBlock) (x : List Int) (y : List (Option Int)) : List Int × Bool :=
  let e := (List.range b.q).map fun j =>
    match y.getD j none with
    | none => ((0, false) : Int × Bool)
    | some v =>
      let p := evalRow (readRowAt rd b.cOff b.n j) x
      let q := satFlag sat32 (v - p.1)
      (q.1, p.2 || q.2)
  let ev := e.map (·.1)
  let xs := (List.range b.n).map fun i =>
    let row := readRowAt rd b.lOff b.q i
    let xi := x.getD i 0
    if i = b.ang then (wrap32 (xi + evalAngleRow row ev), false)
    else
      let p := evalRow row ev
      let q := satFlag sat32 (xi + p.1)
      (q.1, p.2 || q.2)
  (xs.map (·.1), e.any (·.2) || xs.any (·.2))

/-- The prediction (R123, R126): with the integrators held it leaves them at their corrected values. -/
def predict (rd : Nat → Word) (b : MainBlock) (x : List Int) (ua : Int × Int) (r : List Int) (hold : Bool) :
    List Int × Bool :=
  let xs := (List.range b.n).map fun i =>
    let base := readRowAt rd b.aOff b.n i ++ readRowAt rd b.bOff 2 i
    let isI := b.isInt i
    let row := if isI then base ++ readRowAt rd b.eOff b.r (popcount b.mask i) else base
    let v := x ++ [ua.1, ua.2] ++ (if isI then r else [])
    if i = b.ang then (evalAngleRow row v, false)
    else if isI then
      if hold then (clampI (-b.clamp) b.clamp (x.getD i 0), false)
      else
        let p := evalRow row v
        (clampI (-b.clamp) b.clamp p.1, p.2)
    else evalRow row v
  (xs.map (·.1), xs.any (·.2))

/-- A represented coefficient as an exact rational (R111). -/
def coefR (c : Int × Nat) : Rat := (c.1 : Rat) / ((2 ^ c.2 : Nat) : Rat)

/-- The bumpless states named by a set header, vd row then vq row. -/
def bumpStates (rd : Nat → Word) (b : MainBlock) (k : Nat) : List Nat :=
  let h := (rd (b.setOff k)).toNat
  [bitsOf h 28 4, bitsOf h 24 4]

/-- The preset values of a set's bumpless states for target outputs (R139): exact, ties away from zero, clamped. -/
def bumpless (rd : Nat → Word) (b : MainBlock) (k : Nat) (x r : List Int) (idStar : Int) (target : Int × Int) :
    List (Nat × Int) :=
  let v := (feedX b x idStar).1 ++ r
  (List.zip (bumpStates rd b k) [(0, target.1), (1, target.2)]).filterMap fun p =>
    let st := p.1
    if st = 15 then none
    else
      let row := setRow rd b k p.2.1
      let kb := coefR (row.getD st (0, 0))
      let rest := (List.zip row v).zipIdx.foldl
        (fun (a : Rat) t => if t.2 = st then a else a + coefR t.1.1 * t.1.2) 0
      if kb = 0 then none
      else some (st, clampI (-b.clamp) b.clamp (roundR (((p.2.2 : Rat) - rest) / kb)))

/-- States with preset values in place. -/
def withPresets (x : List Int) (p : List (Nat × Int)) : List Int := p.foldl (fun y q => lset y q.1 q.2) x

/-- The angle between two vectors is at most 15°: 4·dot² − 2·|a|²|b|² ≥ √3·|a|²|b|², in integers. -/
def within15 (a b : Int × Int) : Bool :=
  let dot := a.1 * b.1 + a.2 * b.2
  let n := (a.1 * a.1 + a.2 * a.2) * (b.1 * b.1 + b.2 * b.2)
  let l := 4 * dot * dot - 2 * n
  decide (0 < dot ∧ 0 ≤ l ∧ 3 * n * n ≤ l * l)

/-- Both magnitudes are below 1 % of VDC. -/
def bothSmall (a b : Int × Int) (vdc : Int) : Bool :=
  let small := fun (v : Int × Int) => decide (10000 * (v.1 * v.1 + v.2 * v.2) < vdc * vdc)
  small a && small b && decide (0 < vdc)

/-- Feedback set of a control mode (R136). -/
def setOfMode (mode : Nat) : Nat := if mode = 2 then 1 else if mode = 3 then 2 else 0

namespace State

/-! ## Set-points of an axis -/

/-- The feedback set an axis runs (R136, R572): set 0 outside RUN and its handovers and while a demand is held. -/
def feedbackSet (s : State) (m : Main) : Nat :=
  let a := s.mains[m]
  if a.comm.held.isSome then 0
  else match a.comm.state with
    | .run => setOfMode a.eng.mode
    | .coast => setOfMode a.eng.mode
    | .handover => if a.comm.fromParison then 0 else setOfMode a.eng.mode
    | _ => 0

/-- The alignment current (R73): it rises linearly over the first quarter of the alignment time. -/
def alignCurrent (s : State) (g : Grp) (m : Main) : Int :=
  let full := s.pctRated m (s.mNoun m 0x0C)
  let t : Int := (s.mains[m]).comm.samples * s.tsNs g
  let rise := s.mNoun m 0x0D * 250000
  if rise ≤ t then full else openDiv (full * t) rise

/-- The preload current after a time in PRELOAD (R74): 20 ms to the stored current plus the margin. -/
def preloadTarget (s : State) (m : Main) (demand : Int) : Int :=
  match (s.mains[m]).comm.parked with
  | none => 0
  | some p =>
    let margin := s.pctRated m (s.mNoun m 0x1B)
    if p.2 = 0 then (if demand < 0 then -margin else margin) else p.2 + signI p.2 * margin

/-- The parison current (R73, R74). -/
def parisonCurrent (s : State) (m : Main) : Int :=
  let c := (s.mains[m]).comm
  let i := maxI (s.pctRated m (s.mNoun m 0x0E)) (absI c.preloadIq)
  (if c.rampSign ≠ 0 then signI c.rampSign else signI c.rampSpeed) * i

/-- The torque-current set-point a control mode gives, before its limits (R136). -/
def modeCurrent (s : State) (m : Main) (mode : Nat) (share : Int) : Int :=
  let a := s.mains[m]
  match mode with
  | 0 => roundR a.gen.cur
  | 1 => roundR a.eng.manual
  | 4 => share
  | _ => 0

/-- The torque-current set-point an axis runs on, before its limits. -/
def wantedCurrent (s : State) (m : Main) (share : Int) : Int :=
  let a := s.mains[m]
  match a.comm.held with
  | some h => if a.eng.mode = 4 then share else h.1
  | none => match a.comm.state with
    | .run => s.modeCurrent m a.eng.mode share
    | .coast => s.modeCurrent m a.eng.mode share
    | .handover => if a.comm.fromParison then s.parisonCurrent m else s.modeCurrent m a.eng.mode share
    | .parison => s.parisonCurrent m
    | .preload => a.comm.preloadIq
    | _ => 0

/-- The limits on a torque-current set-point: R124, and R160 outside COUPLED. -/
def limitCurrent (s : State) (m : Main) (coupledMode : Bool) (v : Int) : Int × Bool :=
  let lim := s.motorLimit m
  let a := clampI (-lim) lim v
  if coupledMode then (a, decide (a ≠ v))
  else
    let reg := s.regenLimit m
    let b := if a * (s.mains[m]).eng.speed < 0 then clampI (-reg) reg a else a
    (b, decide (b ≠ v))

/-- The excitation set-point id* (R73, R167, R572). -/
def excitation (s : State) (g : Grp) (m : Main) : Int :=
  let a := s.mains[m]
  match a.comm.held with
  | some h => h.2
  | none => match a.comm.state with
    | .align => s.alignCurrent g m
    | .run => a.share.lmPart + s.dissipation m
    | .coast => a.share.lmPart + s.dissipation m
    | .handover => a.share.lmPart
    | _ => 0

end State

/-! ## Coupled block and distribution -/

/-- What the coupled block gives in one pass. -/
structure CoupledRun where
  c : CoupledBlock
  xc : List Int
  uc : List Int
  rc : List Int
  sat : Bool
deriving DecidableEq, Repr

/-- The coupled block's correction and demands (R123). -/
def runCoupled (rd : Nat → Word) (c : CoupledBlock) (x : List Int) (sig : Nat → Option Int) : CoupledRun :=
  let e := (List.range c.qc).map fun j =>
    match sig (c.meas.getD j 0) with
    | none => ((0, false) : Int × Bool)
    | some v =>
      let p := evalRow (readRowAt rd c.cOff c.nc j) x
      let q := satFlag sat32 (v - p.1)
      (q.1, p.2 || q.2)
  let ev := e.map (·.1)
  let xs := (List.range c.nc).map fun i =>
    let p := evalRow (readRowAt rd c.lOff c.qc i) ev
    let q := satFlag sat32 (x.getD i 0 + p.1)
    (q.1, p.2 || q.2)
  let xc := xs.map (·.1)
  let rc := c.sps.map fun k => (sig k).getD 0
  let us := (List.range c.mc).map fun j =>
    evalRow (readRowAt rd c.kOff c.nc j ++ readRowAt rd c.fOff c.rc j) (xc ++ rc)
  { c, xc, uc := us.map (·.1), rc, sat := e.any (·.2) || xs.any (·.2) || us.any (·.2) }

/-- The coupled prediction (R123, R126, R157). -/
def predictCoupled (rd : Nat → Word) (k : CoupledRun) (uca : List Int) (hold : Bool) : List Int × Bool :=
  let c := k.c
  let xs := (List.range c.nc).map fun i =>
    let base := readRowAt rd c.aOff c.nc i ++ readRowAt rd c.bOff c.mc i
    if c.isInt i then
      if hold then (clampI (-c.clamp) c.clamp (k.xc.getD i 0), false)
      else
        let p := evalRow (base ++ readRowAt rd c.eOff c.rc (popcount c.mask i)) (k.xc ++ uca ++ k.rc)
        (clampI (-c.clamp) c.clamp p.1, p.2)
    else evalRow base (k.xc ++ uca)
  (xs.map (·.1), xs.any (·.2))

namespace State

/-- Share set of coupled input j (`N:0x1g17`, R154). -/
def inputSet (s : State) (g : Grp) (j : Nat) : Nat := bitsOf (s.gNounN g 0x17) (3 * j) 3

/-- The members of a group in COUPLED, with their demands and limits (R155). -/
def shareMembers (s : State) (rd : Nat → Word) (blocks : List (Main × MainBlock)) (uc : List Int) : List Member0 :=
  (blocks.filter fun p => (s.mains[p.1]).eng.mode == 4).map fun p =>
    let m := p.1
    let on := s.contributes m
    let d := (evalRow (readRow rd p.2.dOff p.2.mc) uc).1
    { m, set := s.mNounN m 0x43, demand := d, scaled := d, given := 0
      motor := if on then s.motorLimit m else 0
      regen := if on then s.regenLimit m else 0
      speed := (s.mains[m]).eng.speed, weight := s.mNoun m 0x40
      normal := (s.links[s.linkOf m]).stage == .normal
      haul := if s.mNoun m 0x42 = 0 then 1 else -1 }

/-- Sum of the motoring limits of a set's contributing members (R164). -/
def setImax (l : List Member0) (k : Nat) : Int := sumOf (·.motor) (l.filter fun x => x.set == k)

/-- All share sets distributed, each with its κ (R156). -/
def distribute (s : State) (g : Grp) (l : List Member0) (cap : Option Rat) : List Member0 × List (Nat × Rat) :=
  let sets := (List.range 8).filter fun k => l.any fun x => x.set == k
  let done := sets.map fun k =>
    let mine := l.filter fun x => x.set == k
    let c := if k = s.gNounN g 0x1D then cap else none
    let d := shareSet c mine
    (k, d)
  (done.flatMap (·.2), done.map fun p => (p.1, kappaOf p.2))

/-- κ of the remote share sets as last received (R441): each part's sets in ascending number. The set numbers of a part
come from its STATUS report. -/
def remoteKappas (s : State) (g : Grp) : List (Nat × Rat) :=
  (fins 8).flatMap fun i =>
    match (s.groups[g]).span.heard.find? (fun h => h.1 == i && h.1 != s.cascade.ident) with
    | none => []
    | some h =>
      let mask := match s.cascade.reports.lookup i with
        | some rs => match rs.find? fun r => r.span.val == s.gNounN g 0x38 with
          | some r => (r.settings.getD 10 0).toNat
          | none => 0
        | none => 0
      let sets := (List.range 8).filter fun k => bitAt mask k
      (List.zip sets h.2.2.2).map fun p => (p.1, (p.2 : Rat) / 65536)

/-- The coupled inputs a remote part takes: those of the last home packet (R441). -/
def homeInputs (s : State) (g : Grp) : List Int :=
  match (s.groups[g]).span.heard.find? fun h => h.1.val == s.gNounN g 0x3B with
  | some h => (h.2.2.1 ++ List.replicate 8 0).take (s.gNounN g 0x39)
  | none => List.replicate (s.gNounN g 0x39) 0

end State

/-! ## One main-axis segment -/

/-- How a control-mode handover stands after a pass. -/
structure ModeStep where
  mode : Nat
  handover : Option ModeHandover
  /-- ticket that ends, with its status -/
  ended : Option (Nat × Nat)
deriving DecidableEq, Repr

/-- The result of one main-axis segment. -/
structure AxisRun where
  m : Main
  b : MainBlock
  meas : Meas
  /-- corrected states, with the presets that take effect in this sample -/
  xk : List Int
  r : List Int
  /-- set-point vector with 0x0A left at zero, for the sets that have no torque-current set-point -/
  r0 : List Int
  u0 : Int × Int
  ua : Int × Int
  /-- what the prediction takes as applied voltage (R61) -/
  up : Int × Int
  vlim : Bool
  ilim : Bool
  sat : Bool
  duties : List (Nat × Bool)
  iqSet : Int
  idSet : Int
  sup : Option Int
  step : ModeStep
deriving DecidableEq, Repr

namespace State

/-- The torque-current set-point of an axis with the limits applied; a share is already limited (R156). -/
def torqueSetPoint (s : State) (m : Main) (mode : Nat) (want : Int) : Int × Bool :=
  let p := s.limitCurrent m (mode == 4) want
  p

/-- The set-point vector of a block. -/
def setPoints (s : State) (g : Grp) (meas : List Meas) (k : Meas) (b : MainBlock) (sp : Int) : List Int :=
  b.sps.map fun c => (s.signal g meas k sp c).getD 0

/-- The torque-current set-point the new mode of a handover would have in this sample. -/
def newModeCurrent (s : State) (m : Main) (mode : Nat) (share old : Int) : Int :=
  match mode with
  | 0 => old
  | 1 => old
  | 4 => (s.limitCurrent m true share).1
  | _ => 0

/-- The control-mode handover of an axis in RUN in one pass (R139 to R142): the outputs of the sample, the states that
the new mode has taken over, and what becomes of the handover. -/
def modeHandover (s : State) (g : Grp) (rd : Nat → Word) (b : MainBlock) (m : Main) (x r rn : List Int)
    (idStar : Int) (u : Int × Int) (h : ModeHandover) : (Int × Int) × List Int × List Int × ModeStep :=
  let old := (s.mains[m]).eng.mode
  let k := setOfMode h.mode
  match h.blend with
  | some j =>
    let xs := withPresets x h.shadow
    let un := (outputs rd b k xs rn idStar).1
    let j1 : Int := if h.down then j - 1 else j + 1
    let mix := fun (a c : Int) => a + roundDiv (j1 * (c - a)) 32
    let out := (mix u.1 un.1, mix u.2 un.2)
    if h.down && decide (j1 ≤ 0) then (out, x, r, { mode := old, handover := none, ended := some (h.ticket, stAborted) })
    else if !h.down && decide (32 ≤ j1) then
      (out, xs, rn, { mode := h.mode, handover := none, ended := some (h.ticket, stDone) })
    else (out, x, r, { mode := old, handover := some { h with blend := some j1.toNat, count := h.count + 1 }, ended := none })
  | none =>
    let p := if s.mNoun m 0x33 = 1 then bumpless rd b k x rn idStar u else []
    let xs := withPresets x p
    let un := (outputs rd b k xs rn idStar).1
    let vdc := s.vdc g (s.linkOf m)
    let q := fun (v : Int × Int) => (evalRow (readRowAt rd b.aOff b.n b.qcur ++ readRowAt rd b.bOff 2 b.qcur ++
      (if b.isInt b.qcur then readRowAt rd b.eOff b.r (popcount b.mask b.qcur) else []))
      (x ++ [v.1, v.2] ++ (if b.isInt b.qcur then r else []))).1
    let ok := (within15 u un || bothSmall u un vdc) && decide (absI (q u - q un) ≤ s.mNoun m 0x06) &&
      decide (h.count < 64)
    let n := if ok then h.agree + 1 else 0
    if 4 ≤ n then (un, xs, rn, { mode := h.mode, handover := none, ended := some (h.ticket, stDone) })
    else (u, x, r, { mode := old, handover := some { h with agree := n, count := h.count + 1, shadow := p }, ended := none })

/-- What the prediction takes as the applied voltage: with a phase floated at tk that phase's voltage is unknown, so the
vector is moved along that phase by a free amount (R61). -/
def predictVoltage (s : State) (m : Main) (ua : Int × Int) (θ : Int) : Int × Int :=
  match (s.mains[m]).drive.floatedAt with
  | none => ua
  | some p =>
    let δ := Config.freeValue (s.free + m.val)
    let k := match p with
      | .u => 0
      | .v => third
      | .w => 2 * third
    let a := wrapU32 (θ - k)
    (sat32 (ua.1 + roundDiv (-2 * Config.cosine a * δ) (3 * 2 ^ 30)),
      sat32 (ua.2 + roundDiv (2 * Config.sine a * δ) (3 * 2 ^ 30)))

/-- The pass that starts the PWM of a caught rotor runs on the preset angle and speed: those of the last crossing, advanced
to tk (R71; DEDUCED, log entry 24). -/
def startPreset (s : State) (g : Grp) (m : Main) (b : MainBlock) (x : List Int) : List Int :=
  let c := (s.mains[m]).comm
  match c.presetDue, c.caught with
  | true, some p => lset (lset x b.ang (wrap32 (p.1 + angleClk c.measured (s.tkClock g - p.2)))) b.spd c.measured
  | _, _ => x

/-- One main-axis segment (R123). `share` is the axis' share under R156, `other` the region of the other bank. -/
def runAxis (s : State) (g : Grp) (rd other : Nat → Word) (meas : List Meas) (k : Meas) (b : MainBlock) (share : Int) :
    AxisRun :=
  let m := k.m
  let a := s.mains[m]
  let idStar := s.excitation g m
  let sp := s.torqueSetPoint m a.eng.mode (s.wantedCurrent m share)
  let sig := s.signal g meas k sp.1
  let x0 := (a.eng.x ++ List.replicate b.n 0).take b.n
  let cor0 := correct rd b x0 (b.meas.map sig)
  let cor := (s.startPreset g m b cor0.1, cor0.2)
  let r := b.sps.map fun c => (sig c).getD 0
  let set := s.feedbackSet m
  let x1 := match (s.groups[g]).swapNow with
    | some (_, true) =>
      withPresets cor.1 (bumpless rd b set cor.1 r idStar (outputs other b set cor.1 r idStar).1)
    | _ => cor.1
  let o := outputs rd b set x1 r idStar
  let keep : ModeStep := { mode := a.eng.mode, handover := a.eng.handover, ended := none }
  let h := match a.eng.handover, a.comm.state with
    | some h, .run =>
      let rn := s.setPoints g meas k b (s.newModeCurrent m h.mode share sp.1)
      s.modeHandover g rd b m x1 r rn idStar o.1 h
    | _, _ => (o.1, x1, r, keep)
  let vdc := s.vdc g (s.linkOf m)
  let lim := limitVector h.1.1 h.1.2 (vmax vdc (s.mNoun m 0x22))
  let vlow := decide (vdc < 1000)
  let obs := (wrapU32 (h.2.1.getD b.ang 0), h.2.1.getD b.spd 0)
  let used := s.passAngle g m obs
  let θo := wrapU32 (used.1 + angleInc used.2 (3 * s.tsNs g / 2))
  let six := decide (a.comm.state = .run ∧ a.comm.source = .sixStep)
  let ua := (lim.1, lim.2.1)
  let header := (rd (b.setOff set)).toNat
  let supSlot := bitsOf header 20 4
  { m, b, meas := k, xk := h.2.1, r := h.2.2.1, r0 := s.setPoints g meas k b 0, u0 := o.1, ua
    up := s.predictVoltage m ua θo
    vlim := lim.2.2 || vlow, ilim := sp.2
    sat := cor.2 || o.2
    duties := dutiesOf six a.comm.sector lim.1 lim.2.1 θo vdc
    iqSet := sp.1, idSet := idStar
    sup := if supSlot < b.r then some (r.getD supSlot 0) else none
    step := h.2.2.2 }

/-- The prior of the next pass of an axis, from given corrected states. -/
def axisPrior (rd : Nat → Word) (a : AxisRun) (x : List Int) : List Int × Bool :=
  predict rd a.b x a.up a.r (a.vlim || a.ilim)

end State

/-! ## The pass of a group -/

/-- Everything one pass of a group computes. -/
structure GroupRun where
  meas : List Meas
  coupled : Option CoupledRun
  uc : List Int
  members : List Member0
  kappas : List (Nat × Rat)
  tension : Option Int
  line : Int
  lineOk : Bool
  yield : YieldSt
  yieldEvent : Option (Nat × Int)
  axes : List AxisRun
  xcNext : List Int
  coupledSat : Bool
deriving DecidableEq, Repr

namespace State

/-- The members of a group with their blocks. -/
def blocksOf (s : State) (g : Grp) : List (Main × MainBlock) :=
  List.zip (s.mainsOf g) (s.programme g (s.groups[g]).bank1).mains

/-- One pass of a group on what it latched at tk and its filter results. -/
def runGroup (s0 : State) (g : Grp) : GroupRun :=
  let s := s0.atSample g
  let grp := s.groups[g]
  let rd := s.activeRegion g
  let other := s.region g (!grp.bank1)
  let blocks := s.blocksOf g
  let meas := blocks.map fun p => s.measure g p.1 p.2
  let lead := match s.lead g with
    | some m => meas.find? fun k => k.m == m
    | none => none
  let coupled := match (s.programme g grp.bank1).coupled, lead with
    | some c, some k =>
      some (runCoupled rd c ((grp.xc ++ List.replicate c.nc 0).take c.nc)
        (s.signal g meas k (s.limitCurrent k.m true (roundR (s.mains[k.m]).gen.cur)).1))
    | some c, none =>
      some (runCoupled rd c ((grp.xc ++ List.replicate c.nc 0).take c.nc) fun _ => none)
    | none, _ => none
  let uc := match coupled with
    | some c => c.uc
    | none => if s.remotePart g then s.homeInputs g else []
  let tension := if s.gNounN g 0x10 = 1 then (coupled.bind fun c => c.xc[s.gNounN g 0x11]?)
    else if (s.plainTension g).2 then some (s.plainTension g).1 else none
  let line := s.linePos g
  let lineOk := s.drumOk g
  let y := s.yieldTest g tension lineOk line
  let l := s.shareMembers rd blocks uc
  let cap := s.yieldCap g y.1 line (setImax l (s.gNounN g 0x1D))
  let dist := s.distribute g l cap
  let kappas := dist.2 ++ (if s.homePart g then s.remoteKappas g else [])
  let κ := fun j => match kappas.lookup (s.inputSet g j) with
    | some q => q
    | none => 1
  let uca := uc.zipIdx.map fun p => sat32 (roundR ((p.1 : Rat) * κ p.2))
  let shareOf := fun (m : Main) => match dist.1.find? fun x => x.m == m with
    | some x => x.given
    | none => 0
  let axes := (List.zip meas blocks).map fun p => s.runAxis g rd other meas p.1 p.2.2 (shareOf p.1.m)
  let hold := kappas.any (fun p => decide (p.2 < 1)) || dist.1.any fun x => decide (x.given ≠ x.demand)
  let nxt := match coupled with
    | some c => predictCoupled rd c uca hold
    | none => ([], false)
  { meas, coupled, uc, members := dist.1, kappas := kappas, tension, line, lineOk
    yield := y.1, yieldEvent := y.2, axes, xcNext := nxt.1
    coupledSat := nxt.2 || (match coupled with
      | some c => c.sat
      | none => false) }

end State

end Sys2Proof.Machine
end

