-- ==== Sys2Proof/Machine/Motion.lean ====
section
/-! DEFINITION. The motion generators (R182 to R209): their limits and demand, taking up orders, one step of each kind,
soft limits, paths and the level-wind. -/

namespace Sys2Proof.Machine

/-- Position in counts as a rational. -/
def posR (p : Int) : Rat := (p : Rat) / 4294967296

/-- A position on the grid of the output (R183), rounded to nearest. -/
def toPos (p : Rat) : Int := roundR (p * 4294967296)

/-- Two generators' axes are the same. -/
def sameGen (x y : GenId) : Bool := decide (x = y)

/-- Kinds whose target is a position. -/
def Kind.isPosition : Kind → Bool
  | .position => true
  | .path => true
  | .track => true
  | _ => false

/-- Current kinds. -/
def Kind.isCurrent : Kind → Bool
  | .torque => true
  | .tension => true
  | _ => false

/-- Limits of a generator with its emergency jerk limit. -/
structure GenLim where
  v : Rat
  a : Rat
  j : Rat
  je : Rat
deriving DecidableEq, Repr

namespace State

/-! ## Limits and channels -/

/-- The limits in force at a step (R183), in homing those of R234. -/
def genLim (s : State) (x : GenId) : GenLim :=
  let je : Rat := s.xNoun x 0x55
  let home := match x with
    | .aux a => (s.auxs[a]).home
    | .main _ => none
  match home with
  | some h => { v := h.seekSpeed, a := h.acc, j := h.jerk, je }
  | none => { v := s.xNoun x 0x52, a := s.xNoun x 0x53, j := s.xNoun x 0x54, je }

/-- Enabled soft limits (R188). -/
def softLimits (s : State) (x : GenId) : Option (Rat × Rat) :=
  if s.xNoun x 0x58 = 1 then some (s.xNoun x 0x56, s.xNoun x 0x57) else none

/-- Step time of a group in seconds. -/
def stepTime (s : State) (g : Grp) : Rat := (s.gNounN g 0x02 : Rat) / 80000

/-- The present output as a motion state. -/
def mot (s : State) (x : GenId) : Mot :=
  let o := s.gen x
  { p := posR o.pos, v := o.speed, a := o.acc }

/-- Position target of a generator. -/
def targetR (o : GenSt) : Rat := (o.target : Rat) + posR o.targetFrac

/-- The lead of a coupled group, or any axis that is not in COUPLED (R187). -/
def stepsAlone (s : State) (g : Grp) (m : Main) : Bool :=
  (s.mains[m]).eng.mode != 4 || s.lead g == some m

/-- Whether a generator steps (R185, R187). -/
def genSteps (s : State) (g : Grp) (x : GenId) : Bool :=
  match x with
  | .main m =>
    let c := (s.mains[m]).comm.state
    (c == .run || c == .handover || c == .coast) && s.stepsAlone g m
  | .aux a => (s.auxs[a]).enabled && (s.auxs[a]).state != .stoppedFault && (s.auxs[a]).state != .off

/-! ## Demand (R186) -/

/-- Demand of one generator in counts/s. -/
def genDemand (s : State) (x : GenId) : Rat :=
  let o := s.gen x
  let v : Rat := s.xNoun x 0x52
  if o.stepping then o.speed
  else match o.kind with
    | .speed => o.target
    | .position => v * signR (targetR o - posR o.pos)
    | .track => if s.xNoun x 0x5D = 1 then clampR (-v) v (s.xNoun x 0x5E)
        else v * signR ((s.xNoun x 0x5E : Rat) - posR o.pos)
    | .path => v * signR (targetR o - posR o.pos)
    | .torque => v * signI o.target
    | .tension => v * signI o.target
    | _ => 0

/-- The demand of a main axis in 0.01 Hz (R186). A non-lead member in COUPLED takes the lead's demand, in the sense its
haul-in sign has against the lead's (DEDUCED, log entry 23). -/
def demand (s : State) (g : Grp) (m : Main) : Int :=
  match s.lead g with
  | some l =>
    if !s.stepsAlone g m then
      s.toCentiHz l (s.genDemand (.main l)) * (if s.mNoun m 0x42 = s.mNoun l 0x42 then 1 else -1)
    else s.toCentiHz m (s.genDemand (.main m))
  | none => if !s.stepsAlone g m then 0 else s.toCentiHz m (s.genDemand (.main m))

/-! ## Orders (R191, R193, R197) -/

/-- The generator's ticket ends and no other takes its place. -/
def dropTicket (s : State) (x : GenId) (status : Nat) : State :=
  (s.finishOpt (s.gen x).ticket status).modGen x fun o => { o with ticket := none, ticketPred := false }

/-- A new ticket takes the generator: the replaced one completes with ABORTED (R191). -/
def takeTicket (s : State) (x : GenId) (t : Nat) : State :=
  let s1 := if (s.gen x).ticket = some t then s else s.dropTicket x stAborted
  (s1.present t).modGen x fun o => { o with ticket := some t, ticketPred := false, atTarget := false }

/-- Put a target in force, or make it the standing target while the generator is in DRUM (R198). -/
def putTarget (s : State) (x : GenId) (k : Kind) (target : Int) : State :=
  s.modGen x fun o =>
    if o.kind = .drum then { o with standing := some (k, target) }
    else
      { o with
        kind := k
        target := target
        targetFrac := 0
        retarget := decide (o.speed ≠ 0 ∨ o.acc ≠ 0)
        halted := if k = .halt ∧ o.kind ≠ .halt then o.kind else o.halted
        reversal := false
        rate := if k = .track then o.rate else 0 }

/-- A position target on a modulo channel: the shorter way round, or the way the sentence names (R189). -/
def moduloTarget (s : State) (x : GenId) (target : Int) (direction : Nat) : Int :=
  match x with
  | .aux _ => target
  | .main m =>
    match s.channelModulus m with
    | none => target
    | some n =>
      let p := s.wholePos x
      let d := (target - p) % n
      let d1 := if direction = 1 then d
        else if direction = 2 then (if d = 0 then 0 else d - n)
        else if 2 * d ≤ n then d else d - n
      p + d1

/-- TENSION target in mA (R195): target × factor / 1000 with the haul-in sign. -/
def tensionCurrent (s : State) (x : GenId) (target : Int) : Int :=
  match x with
  | .main m => truncDiv (target * s.mNoun m 0x5B) 1000 * (if s.mNoun m 0x42 = 0 then 1 else -1)
  | .aux _ => 0

/-- The path a generator belongs to halts on its line and its ticket ends (R205). -/
def haltPath (s : State) (g : Grp) (status : Nat) : State :=
  match (s.groups[g]).path with
  | none => s
  | some p => if p.halting then s
    else (s.finish p.ticket status).modGroup g fun q => { q with path := some { p with halting := true } }

/-- Whether a generator is a member of the running path of a group. -/
def inPath (s : State) (g : Grp) (x : GenId) : Bool :=
  match (s.groups[g]).path with
  | some p => p.members.any fun q => sameGen q.1 x
  | none => false

/-- A halt of one generator (R197, R205): on a path it halts the whole path. -/
def haltGen (s : State) (g : Grp) (x : GenId) : State :=
  if s.inPath g x then s.haltPath g stAborted else s.putTarget x .halt 0

/-- Drum position of the level-wind's ideal in drum counts with the haul-in sign (R207). -/
def windDrum (s : State) (g : Grp) : Rat := (s.drumSign g * s.drumPos g : Int)

def windRatio (s : State) (g : Grp) : Rat := (s.gNoun g 0x2A : Rat) / (s.gNoun g 0x2B : Rat)
def windLo (s : State) (g : Grp) : Rat := s.gNoun g 0x2C
def windUp (s : State) (g : Grp) : Rat := s.gNoun g 0x2D

/-- The level-wind axis of a group. -/
def windAxis (s : State) (g : Grp) : Option AuxNo := fin? 8 (s.gNounN g 0x29)

/-- u of R207. -/
def windU (s : State) (g : Grp) : Rat := s.windRatio g * (s.windDrum g - (s.groups[g]).wind.dref)

/-- The ideal position, its speed, and the number of turning points gone by (R207). -/
def windIdeal (s : State) (g : Grp) : Rat × Rat × Int :=
  let w := s.windUp g - s.windLo g
  let u := s.windU g
  let fold := if w = 0 then 0 else (u / (2 * w)).floor
  let p := u - 2 * w * fold
  let v := s.windRatio g * s.drumSpeed g
  let folds := if w = 0 then 0 else (u / w).floor
  if p < w then (s.windLo g + p, v, folds) else (s.windUp g - (p - w), -v, folds)

/-- FOLLOW engages (R208): dref puts the ideal on the present output, on the half that moves in the named direction. -/
def engageWind (s : State) (g : Grp) (t : Nat) (towardsLo : Bool) : State :=
  match s.windAxis g with
  | none => s.finish t stConflict
  | some a =>
    let y := posR (s.gen (.aux a)).pos
    let forward := decide (0 ≤ s.windRatio g * s.drumSpeed g)
    let ascending := forward != towardsLo
    let w := s.windUp g - s.windLo g
    let p := if ascending then y - s.windLo g else w + (s.windUp g - y)
    let dref := s.windDrum g - p / s.windRatio g
    let s1 := (s.takeTicket (.aux a) t).putTarget (.aux a) .follow 0
    s1.modGroup g fun q => { q with wind := { q.wind with dref, count := 0, fold := if p < w then 0 else 1 } }

/-- The axis of a generator is enabled. -/
def genEnabled (s : State) : GenId → Bool
  | .main m => (s.mains[m]).enabled
  | .aux a => (s.auxs[a]).enabled

/-- The axes of two masks: main axes, then auxiliary axes. -/
def maskGens (mains : BitVec 12) (auxs : BitVec 8) : List GenId :=
  ((fins 12).filter fun m => mains.getLsbD m.val).map GenId.main ++
    ((fins 8).filter fun a => auxs.getLsbD a.val).map GenId.aux

/-- A path begins (R203, R204). -/
def beginPath (s : State) (g : Grp) (t : Nat) (mains : BitVec 12) (auxs : BitVec 8) (targets : List Int) : State :=
  let xs := maskGens mains auxs
  let mem := (List.zip xs targets).map fun p => (p.1, (s.gen p.1).pos, p.2 * 4294967296 - (s.gen p.1).pos)
  let s1 := (s.present t).modGroup g fun q =>
    { q with path := some { ticket := t, members := mem, s := 0, speed := 0, acc := 0, halting := false } }
  (List.zip xs targets).foldl (fun (z : State) p => (z.dropTicket p.1 stAborted).putTarget p.1 .path p.2) s1

/-- HOME begins (R235): the homing nouns are latched and the generator seeks the named side. -/
def beginHome (s : State) (t : Nat) (a : AuxNo) (high : Bool) : State :=
  let x := s.auxs[a]
  if x.state = .run ∨ x.state = .standstill then
    let n := s.aNoun a
    let h : HomeSet := { high, ticket := t, secondary := n 0x1A, switchValue := n 0x1B, homeValue := n 0x1C
                         seekSpeed := n 0x1D, travel := n 0x1E, backoff := n 0x1F, current := n 0x20, acc := n 0x21
                         jerk := n 0x22, settle := n 0x23 }
    let p := s.wholePos (.aux a)
    let s1 := ((s.dropTicket (.aux a) stAborted).present t).putTarget (.aux a) .position
      (if high then p + h.travel else p - h.travel)
    s1.modAux a fun v => { v with
      state := .homing
      hstep := .seek
      home := some h
      homed := false
      reference := none
      homeEnd := none
      settleDue := false
      stallCount := 0 }
  else s.finish t stState

/-- A halt of an axis that homes: homing ends once the output is at rest, with a status for its ticket (DEDUCED, log entry 56). -/
def stopHoming (s : State) (x : GenId) (status : Nat) : State :=
  match x with
  | .main _ => s
  | .aux a => if (s.auxs[a]).state = .homing ∧ (s.auxs[a]).homeEnd = none then
      s.modAux a fun v => { v with homeEnd := some status }
    else s

/-- One order taken at a step (R193). A sentence whose axis has been disabled since ends with ABORTED (R381). -/
def takeOrder (s : State) (g : Grp) : MotionOrder → State
  | .move t x k target direction =>
    match s.inFlight? t with
    | none => s
    | some _ =>
      if !s.genEnabled x then s.finish t stAborted
      else
      let s1 := s.takeTicket x t
      match k with
      | 1 => s1.putTarget x .position (s.moduloTarget x target direction)
      | 2 => s1.putTarget x .speed target
      | 3 => s1.putTarget x .torque (target * 10)
      | 4 => s1.putTarget x .tension (s.tensionCurrent x target)
      | _ => s1.putTarget x .track 0
  | .path t _ ms as targets =>
    match s.inFlight? t with
    | none => s
    | some _ => if (maskGens ms as).all s.genEnabled then s.beginPath g t ms as targets else s.finish t stAborted
  | .halt t x =>
    match s.inFlight? t with
    | none => s
    | some _ =>
      if !s.genEnabled x then s.finish t stAborted
      else if s.inPath g x then ((s.haltPath g stAborted).present t).modGen x fun o => { o with ticket := some t }
      else ((s.takeTicket x t).putTarget x .halt 0).stopHoming x stAborted
  | .haltGroup t _ =>
    match s.inFlight? t with
    | none => s
    | some _ =>
      let s1 := ((s.haltPath g stAborted).present t).modGroup g fun q => { q with haltTicket := some t }
      (s.gensOf g).foldl (fun z x => if s.inPath g x then z else
        ((z.dropTicket x stAborted).putTarget x .halt 0).stopHoming x stAborted) s1
  | .follow t _ lo =>
    match s.inFlight? t with
    | none => s
    | some _ => s.engageWind g t lo
  | .home t a high =>
    match s.inFlight? t with
    | none => s
    | some _ => s.beginHome t a high
  | .internalHalt x => ((s.haltGen g x).dropTicket x stAborted).stopHoming x stHomingAborted

/-- Orders due at the step that produces the set-points of sample n: sentences in ticket order, then internal halts. -/
def dueOrders (s : State) (g : Grp) (n : Nat) : List (Option Nat × MotionOrder) :=
  let due := (s.groups[g]).orders.filter fun o => match o.1 with
    | none => true
    | some k => sampleReached n k
  let internal := fun (o : Option Nat × MotionOrder) => match o.2 with
    | .internalHalt _ => true
    | _ => false
  (due.filter fun o => !internal o) ++ due.filter internal

def takeOrders (s : State) (g : Grp) (n : Nat) : State :=
  let due := s.dueOrders g n
  let s1 := s.modGroup g fun q => { q with orders := q.orders.filter fun o => match o.1 with
    | none => false
    | some k => !sampleReached n k }
  due.foldl (fun z o => z.takeOrder g o.2) s1

/-! ## Plans -/

/-- Where the plan of a generator turns or stops in its present direction of travel, if it does (R200): the target it
stops at, or the end of a stop. -/
def farPoint (s : State) (g : Grp) (x : GenId) (l : GenLim) : Option Rat :=
  let o := s.gen x
  let y := s.mot x
  let dir := signR y.v
  let stop := stopPoint y l.a l.j
  let towards := fun (p : Rat) => if 0 ≤ (p - stop) * dir then some p else some stop
  if dir = 0 then none
  else match o.kind with
    | .position => towards (targetR o)
    | .path => none
    | .speed => if o.target * dir ≤ 0 then some stop else none
    | .halt => some stop
    | .track =>
      if s.xNoun x 0x5D = 1 then (if (s.xNoun x 0x5E : Rat) * dir ≤ 0 then some stop else none)
      else if o.rate * dir ≤ 0 then towards (s.xNoun x 0x5E) else none
    | .follow => if o.reversal || decide ((s.windIdeal g).2.1 * dir ≤ 0) then some stop else none
    | _ => none

/-- A point lies beyond an enabled soft limit in a direction. -/
def beyond (lim : Option (Rat × Rat)) (dir p : Rat) : Bool :=
  match lim with
  | none => false
  | some q => (decide (0 < dir) && decide (q.2 < p)) || (decide (dir < 0) && decide (p < q.1))

/-- The point TRACK POSITION moves to at tk (R196). -/
def trackPoint (s : State) (g : Grp) (x : GenId) : Rat :=
  let o := s.gen x
  match o.tracks with
  | p :: _ => (p.1 : Rat) + o.rate * ((s.sampleNow g : Rat) - p.2) / 80000
  | [] => s.xNoun x 0x5E

/-- Time of a speed change from v to −v (R209). -/
def reversalTime (v A J : Rat) : Rat :=
  let d := 2 * v
  if A * A / J < d then d / A + A / J else 2 * sqrtR (d / J)

/-- Distance covered from v to zero in that change. -/
def reversalDistance (v A J : Rat) : Rat :=
  if A * A / J < 2 * v then
    let t := A / J
    let v1 := v - A * A / (2 * J)
    v * t - J * t * t * t / 6 + v1 * v1 / (2 * A)
  else
    let t := sqrtR (2 * v / J)
    v * t - J * t * t * t / 6

/-- A reversal of the level-wind begins when the ideal is near enough to its turning point (R209). -/
def beginReversal (s : State) (g : Grp) (x : GenId) (l : GenLim) : State :=
  let o := s.gen x
  let i := s.windIdeal g
  let v := absR i.2.1
  let rest := if 0 < i.2.1 then s.windUp g - i.1 else i.1 - s.windLo g
  let need := v * reversalTime v l.a l.j / 2
  if o.kind = .follow ∧ o.reversal = false ∧ 0 < v ∧ v ≤ l.v ∧ rest ≤ need then
    let short := openRound (need - reversalDistance v l.a l.j)
    (s.modGen x fun q => { q with reversal := true, revSpeed := -i.2.1 }).modGroup g fun q =>
      { q with wind := { q.wind with shortfall := short.toNat } }
  else s

/-- The jerk a generator's plan applies in this step. -/
def planJerk (s : State) (g : Grp) (x : GenId) (l : GenLim) (J T : Rat) : Rat :=
  let o := s.gen x
  let y := s.mot x
  let toSpeed := fun (v : Rat) => planSpeed y.v y.a (clampR (-l.v) l.v v) l.a J T
  match o.kind with
  | .position => planTo y (targetR o) 0 l.v l.a J T
  | .speed => toSpeed o.target
  | .track => if s.xNoun x 0x5D = 1 then toSpeed (s.xNoun x 0x5E)
      else planTo y (s.trackPoint g x) o.rate l.v l.a J T
  | .follow =>
    if o.reversal then toSpeed o.revSpeed
    else
      let i := s.windIdeal g
      planTo y i.1 (clampR (-l.v) l.v i.2.1) l.v l.a J T
  | _ => toSpeed 0

/-- The target a position kind settles on at the end of a step, with its rate. -/
def settlePoint (s : State) (g : Grp) (x : GenId) (T : Rat) : Option (Rat × Rat) :=
  let o := s.gen x
  match o.kind with
  | .position => some (targetR o, 0)
  | .track => if s.xNoun x 0x5D = 1 then none else some (s.trackPoint g x + o.rate * T, o.rate)
  | .follow => if o.reversal then none
    else
      let i := s.windIdeal g
      some (i.1 + i.2.1 * T, i.2.1)
  | _ => none

/-- The lag after a step (R199), as an integer. -/
def lagOf (s : State) (g : Grp) (x : GenId) (T : Rat) : Int :=
  let o := s.gen x
  let p := posR o.pos
  match o.kind with
  | .position => openRound (targetR o - p)
  | .path => openRound (targetR o - p)
  | .halt => 0
  | .speed => openRound ((o.target : Rat) - o.speed)
  | .torque => openRound ((o.target : Rat) - o.cur)
  | .tension => openRound ((o.target : Rat) - o.cur)
  | .track => if s.xNoun x 0x5D = 1 then openRound ((s.xNoun x 0x5E : Rat) - o.speed)
      else openRound (s.trackPoint g x + o.rate * T - p)
  | .follow =>
    let i := s.windIdeal g
    openRound (i.1 + i.2.1 * T - p)
  | _ => 0

/-- The output stands at its target after a step (R192). -/
def reached (s : State) (g : Grp) (x : GenId) (T : Rat) : Bool :=
  let o := s.gen x
  let still := o.speed == 0 && o.acc == 0
  match o.kind with
  | .position => still && decide (posR o.pos = targetR o)
  | .path => still && decide (posR o.pos = targetR o)
  | .speed => decide (o.speed = o.target) && o.acc == 0
  | .torque => decide (o.cur = o.target) && o.curRate == 0
  | .tension => decide (o.cur = o.target) && o.curRate == 0
  | .halt => if o.halted.isCurrent then o.curRate == 0 else still
  | .track => true
  | .follow => decide (absI (s.lagOf g x T) < 1)
  | _ => false

/-! ## Stepping -/

/-- One step of a current kind (R195, R197). -/
def stepCurrent (s : State) (x : GenId) (T : Rat) : State :=
  let o := s.gen x
  let A : Rat := (s.xNoun x 0x59 : Rat) * 10000
  let J : Rat := (s.xNoun x 0x5A : Rat) * 10000000
  let j := if o.kind.isCurrent then planSpeed o.cur o.curRate o.target A J T
    else clampR (-J) J (-(o.curRate / T))
  let rate := o.curRate + j * T
  s.modGen x fun q => { q with cur := q.cur + q.curRate * T + j * T * T / 2, curRate := rate }

/-- R201: a step whose stop at J would newly pass a soft limit turns the target into a stop at that limit. -/
def stopAtLimit (s : State) (g : Grp) (x : GenId) (l : GenLim) (j T : Rat) : State × Bool :=
  let o := s.gen x
  let y := s.mot x
  let z := y.after j T
  let lim := s.softLimits x
  let governed := o.kind = .speed ∨ o.kind = .track ∨ o.kind = .follow
  let dir := signR (stopPoint z l.a l.j - y.p)
  if governed ∧ beyond lim dir (stopPoint z l.a l.j) = true ∧ beyond lim dir (stopPoint y l.a l.j) = false then
    let p := match lim with
      | some q => if 0 < dir then q.2 else q.1
      | none => 0
    let s1 := s.logEvent sevInfo 0x0601 (objGen x) (wrap32 p.floor) (s.groups[g]).sample.toNat (o.ticket.getD 0)
    let s2 := if o.kind = .follow then s1.modGen x fun q => { q with ticketPred := true }
      else s1.dropTicket x stLimitPredicted
    (s2.modGen x fun q => { q with kind := .position, target := p.floor, targetFrac := 0, limPred := true }, true)
  else (s, false)

/-- R200: a plan that turns or stops beyond a soft limit uses Je until the output speed is zero. -/
def predictLimit (s : State) (g : Grp) (x : GenId) (l : GenLim) : State :=
  let o := s.gen x
  match s.farPoint g x l with
  | some p =>
    if beyond (s.softLimits x) (signR o.speed) p = true ∧ o.ejerk = false then
      (s.modGen x fun q => { q with ejerk := true, limPred := true, ticketPred := q.ticket.isSome }).logEvent
        sevInfo 0x0601 (objGen x) (wrap32 p.floor) (s.groups[g]).sample.toNat (o.ticket.getD 0)
    else s
  | none => s

/-- After a step: the end of EJERK at zero speed, and SLCROSS (R200, R202). -/
def afterLimits (s : State) (g : Grp) (x : GenId) (before : Mot) : State :=
  let o := s.gen x
  let crossed := o.ejerk && !o.slCross && beyond (s.softLimits x) (signR before.v) (posR o.pos)
  let s1 := if crossed then
      (s.modGen x fun q => { q with slCross := true }).logEvent sevWarn 0x0602 (objGen x)
        (wrap32 (s.wholePos x)) (s.groups[g]).sample.toNat
    else s
  if o.ejerk && decide (o.speed * before.v ≤ 0) then s1.modGen x fun q => { q with ejerk := false } else s1

/-- The output comes to rest after a halt: kind POSITION at the rest position (R197). -/
def endHalt (s : State) (x : GenId) : State :=
  let o := s.gen x
  if o.kind = .halt ∧ o.halted.isCurrent = false ∧ o.speed = 0 ∧ o.acc = 0 then
    s.modGen x fun q => { q with
      kind := .position
      target := q.pos.fdiv 4294967296
      targetFrac := q.pos % 4294967296 }
  else s

/-- One step of a generator in a kind with a plan. -/
def stepPlan (s : State) (g : Grp) (x : GenId) : State :=
  let T := s.stepTime g
  let l := s.genLim x
  let s1 := (s.predictLimit g x l).beginReversal g x l
  let J := if (s1.gen x).ejerk then l.je else l.j
  let j0 := s1.planJerk g x l J T
  let st := s1.stopAtLimit g x l j0 T
  let j := if st.2 then st.1.planJerk g x l J T else j0
  let s2 := st.1
  let y := s2.mot x
  let z0 := y.after j T
  let z := match s2.settlePoint g x T with
    | some p => settle z0 p.1 p.2 T
    | none => z0
  let s3 := (s2.modGen x fun o => { o with pos := toPos z.p, speed := z.v, acc := z.a, jerk := j }).stepCurrent x T
  let s4 := (s3.afterLimits g x y).endHalt x
  let o := s4.gen x
  let turned := o.reversal && decide (o.speed = o.revSpeed) && o.acc == 0
  let s5 := if turned then s4.modGen x fun q => { q with reversal := false } else s4
  s5.modGen x fun q => { q with
    atTarget := s5.reached g x T
    lag := s5.lagOf g x T
    segment := segmentOf y { p := posR q.pos, v := q.speed, a := q.acc } (q.kind.isPosition && s5.reached g x T) }

/-- One step in DRUM (R198, R231): a main axis follows its channel, an auxiliary axis halts. -/
def stepDrum (s : State) (g : Grp) (x : GenId) : State :=
  match x with
  | .main m =>
    let p := s.channelPos m
    s.modGen x fun o => { o with pos := p.1 * 4294967296, speed := s.channelSpeed m, acc := 0, jerk := 0, lag := 0 }
  | .aux _ =>
    let T := s.stepTime g
    let l := s.genLim x
    let y := s.mot x
    let j := planSpeed y.v y.a 0 l.a l.j T
    let z := y.after j T
    s.modGen x fun o => { o with pos := toPos z.p, speed := z.v, acc := z.a, jerk := j, lag := 0 }

/-- Preset on entry to stepping (R185). -/
def presetGen (s : State) (x : GenId) : State :=
  match x with
  | .main m =>
    let p := s.channelPos m
    let v : Rat := ((s.mains[m]).eng.speed : Rat) * 16777216 / (s.mNoun m 0x51 : Rat)
    s.modGen x fun o => { o with pos := if p.2 then p.1 * 4294967296 else o.pos, speed := v, acc := 0, jerk := 0 }
  | .aux _ => s

/-- A generator that does not step: its output is at rest and its target kept (R185). -/
def restGen (s : State) (x : GenId) : State :=
  s.modGen x fun o =>
    { o with
      speed := 0
      acc := 0
      jerk := 0
      curRate := 0
      stepping := false
      atTarget := false
      ejerk := false
      reversal := false }

/-- One step of one generator (R182, R185). Members of a running path are moved by `stepPath`. -/
def stepGen (s : State) (g : Grp) (x : GenId) : State :=
  if !s.genSteps g x then s.restGen x
  else
    let s1 := if (s.gen x).stepping then s else s.presetGen x
    let s2 := s1.modGen x fun o => { o with stepping := true }
    if s2.inPath g x then s2
    else if (s2.gen x).kind = .drum then s2.stepDrum g x
    else s2.stepPlan g x

/-- The lesser of a limit over the moving members of a path (R204). -/
def pathLimit (s : State) (p : PathSt) (f : GenLim → Rat) : Rat :=
  let l := p.members.filterMap fun q => if q.2.2 = 0 then none else some (f (s.genLim q.1) / absR (posR q.2.2))
  match l with
  | [] => 1
  | a :: r => r.foldl minR a

/-- A member of a halted path at rest (R205). -/
def restHere (o : GenSt) : GenSt :=
  { o with
    kind := .position
    target := o.pos.fdiv 4294967296
    targetFrac := o.pos % 4294967296
    atTarget := true
    lag := 0 }

/-- One step of the path of a group (R204, R205): every member on the line. -/
def stepPath (s : State) (g : Grp) : State :=
  match (s.groups[g]).path with
  | none => s
  | some p0 =>
    let left := p0.members.any fun q => !s.genSteps g q.1
    let s1 := if left then s.haltPath g stAborted else s
    let p := match (s1.groups[g]).path with
      | some q => q
      | none => p0
    let T := s.stepTime g
    let two48r : Rat := 281474976710656
    let y : Mot := { p := (p.s : Rat) / two48r, v := p.speed, a := p.acc }
    let V := s.pathLimit p (·.v)
    let A := s.pathLimit p (·.a)
    let J := s.pathLimit p (·.j)
    let moving := p.members.any fun q => q.2.2 ≠ 0
    let j := if p.halting then planSpeed y.v y.a 0 A J T else planTo y 1 0 V A J T
    let z0 := y.after j T
    let z : Mot := if moving then (if p.halting then z0 else settle z0 1 0 T) else { p := 1, v := 0, a := 0 }
    let sp := roundR (z.p * two48r)
    let f : Rat := (sp : Rat) / two48r
    let s2 := p.members.foldl (fun (w : State) q =>
      if w.genSteps g q.1 then
        w.modGen q.1 fun o => { o with
          pos := q.2.1 + roundR ((q.2.2 : Rat) * f)
          speed := posR q.2.2 * z.v
          acc := posR q.2.2 * z.a
          jerk := posR q.2.2 * j
          stepping := true }
      else w) s1
    let rest := z.v = 0 ∧ z.a = 0
    let ended := rest ∧ (p.halting = true ∨ z.p = 1)
    let s3 := s2.modGroup g fun q => { q with path := some { p with s := sp, speed := z.v, acc := z.a } }
    if ended ∧ p.halting = true then
      (p.members.foldl (fun (w : State) q => w.modGen q.1 restHere) s3).modGroup g fun q => { q with path := none }
    else
      p.members.foldl (fun (w : State) q => w.modGen q.1 fun o => { o with
        atTarget := decide ended, lag := w.lagOf g q.1 T }) s3

/-- The turning points gone by are counted (R207). -/
def countFolds (s : State) (g : Grp) : State :=
  match s.windAxis g with
  | none => s
  | some a =>
    if (s.gen (.aux a)).kind = .follow then
      let f := (s.windIdeal g).2.2
      s.modGroup g fun q => { q with wind := { q.wind with
        count := add32 q.wind.count (f - q.wind.fold).natAbs, fold := f } }
    else s

/-- FOLLOW ends with a halt and an event (R208, R232). -/
def endFollow (s : State) (g : Grp) (a : AuxNo) (reason : Int) (status : Nat) : State :=
  if (s.gen (.aux a)).kind = .follow then
    ((s.putTarget (.aux a) .halt 0).dropTicket (.aux a) status).logEvent sevWarn 0x0603 (objAux a) reason
      (s.groups[g]).sample.toNat
  else s

/-- While the drum source is invalid FOLLOW ends (R208). -/
def checkDrum (s : State) (g : Grp) : State :=
  match s.windAxis g with
  | none => s
  | some a => if s.drumOk g then s else s.endFollow g a 0 stAborted

/-- Every generator of a group steps once: orders first, then the steps, in rising order of axes (R182, R193). -/
def stepMotion (s : State) (g : Grp) : State :=
  let n := ((s.groups[g]).sample + 1).toNat
  let s1 := ((s.takeOrders g n).checkDrum g).countFolds g
  ((s1.gensOf g).foldl (fun w x => w.stepGen g x) s1).stepPath g

/-! ## Completion (R192) -/

/-- Motion tickets whose commit sample is the present one: the output reached its target at the last step. -/
def completeMotion (s : State) (g : Grp) : State :=
  let one := fun (w : State) (x : GenId) =>
    let o := w.gen x
    if o.atTarget && o.stepping && o.kind != .drum && o.ticket.isSome && o.kind != .path then
      w.dropTicket x (if o.ticketPred then stLimitPredicted else stDone)
    else w
  let s1 := (s.gensOf g).foldl one s
  let s2 := match (s1.groups[g]).path with
    | some p =>
      if !p.halting && p.members.all (fun (q : GenId × Int × Int) => (s1.gen q.1).atTarget) then
        let pred := p.members.any (fun (q : GenId × Int × Int) => (s1.gen q.1).ticketPred)
        (p.members.foldl (fun (w : State) (q : GenId × Int × Int) => w.modGen q.1 fun o => { o with kind := .position })
          (s1.finish p.ticket (if pred then stLimitPredicted else stDone))).modGroup g fun q => { q with path := none }
      else s1
    | none => s1
  match (s2.groups[g]).haltTicket with
  | some t =>
    let atRest := (s2.gensOf g).all fun x =>
      let o := s2.gen x
      (if o.kind == .halt && o.halted.isCurrent then o.curRate == 0 else o.speed == 0 && o.acc == 0) || !o.stepping
    if atRest then (s2.finish t stDone).modGroup g fun q => { q with haltTicket := none } else s2
  | none => s2

/-! ## Yield (R165, R198) -/

/-- Generators take kind DRUM on entry to YIELD. -/
def enterDrum (s : State) (g : Grp) : State :=
  (s.gensOf g).foldl (fun (w : State) x =>
    let o := w.gen x
    if o.kind = .follow ∨ o.kind = .drum then w
    else
      let st := if o.kind = .path then (Kind.position, o.target) else (o.kind, o.target)
      (if o.kind = .path then w.haltPath g stAborted else w).modGen x fun q =>
        { q with standing := some st, kind := .drum, atTarget := false }) s

/-- Generators plan again towards their standing target on return to ARMED. -/
def leaveDrum (s : State) (g : Grp) : State :=
  (s.gensOf g).foldl (fun (w : State) x =>
    let o := w.gen x
    if o.kind = .drum then
      match o.standing with
      | some t => w.modGen x fun q => { q with kind := t.1, target := t.2, targetFrac := 0, standing := none, retarget := true }
      | none => w.modGen x fun q => { q with kind := .idle }
    else w) s

/-- An internal halt of every generator of a group is taken at the next step (R174, R176, R193). -/
def haltAll (s : State) (g : Grp) : State :=
  s.modGroup g fun q => { q with orders := q.orders ++ (s.gensOf g).map fun x => (none, .internalHalt x) }

/-- The moving rate of a TRACK target is formed from its last two latched values (R196). -/
def latchTrack (s : State) (x : GenId) (v : Int) : State :=
  let V : Rat := s.xNoun x 0x52
  s.modGen x fun o =>
    let tr := ((v, s.time.now) :: o.tracks).take 2
    { o with
      tracks := tr
      rate := match tr with
        | [a, b] => if a.2 = b.2 then o.rate
            else clampR (-V) V (((a.1 - b.1 : Int) : Rat) * 80000 / ((a.2 : Rat) - b.2))
        | _ => 0 }

end State

end Sys2Proof.Machine
end

