-- ==== Sys2Proof/Machine/Commutation.lean ====
section
/-! DEFINITION. The commutation state machine of a main axis (R50, R51, R66 to R77, R571 to R573): its transitions at a
commit point and the timer events that bear on it. -/

namespace Sys2Proof.Machine

/-- States with the gates on, once the PWM of a caught rotor has started. -/
def CState.gated : CState → Bool
  | .catch => true
  | .align => true
  | .preload => true
  | .parison => true
  | .handover => true
  | .run => true
  | .coast => true
  | _ => false

/-- States in which brake release is requested (R571); PRELOAD requests it from its step 2. -/
def CState.releases : CState → Bool
  | .catch => true
  | .align => true
  | .parison => true
  | .handover => true
  | .run => true
  | .coast => true
  | .resync => true
  | _ => false

/-- The source an axis of a commutation mode takes from the observer's side (R62). -/
def ownSource (mode : Int) : Source := if mode = 1 then .sixStep else .observer

/-- Codes of REASON (R53). -/
def StopReason.code : StopReason → Nat
  | .none => 0
  | .catchFailed => 1
  | .parisonTimeout => 2
  | .handoverAborted => 3
  | .resyncFailed => 4
  | .noStartSource => 5
  | .speedLimit => 6
  | .reverseRotation => 7
  | .lossBraked => 8

/-- A run of crossings that follow one phase sequence, newest first: its direction (R71). -/
def seqDir : List Crossing → Int
  | a :: b :: _ =>
    let d := ((crossingIx a.phase a.rising).val : Int) - (crossingIx b.phase b.rising).val
    if d % 6 = 1 then 1 else if d % 6 = 5 then -1 else 0
  | _ => 0

namespace State

/-! ## What the safety channel reports -/

/-- STO is active on an axis: its group's STO output is commanded de-energised, as last read (R286, R291). -/
def stoActive (s : State) (x : GenId) : Bool :=
  match s.stoOf x with
  | some i => !s.requests.seen.sto.getLsbD i.val
  | none => true

/-- The brake output of a main axis (`N:0x2m05`). -/
def brakeOf (s : State) (m : Main) : Option (Fin 4) := if s.mNoun m 0x05 = 0 then none else fin? 4 (s.mNounN m 0x05 - 1)

/-- A WINCH axis with a brake assigned. -/
def winchBrake (s : State) (m : Main) : Bool := s.mNoun m 0x04 == 1 && (s.brakeOf m).isSome

/-- The axis' brake is reported applied (R291). -/
def brakeApplied (s : State) (m : Main) : Bool :=
  match s.brakeOf m with
  | some b => s.requests.seen.applied.getLsbD b.val
  | none => false

/-- Release of the axis' brake is confirmed. -/
def brakeReleased (s : State) (m : Main) : Bool :=
  match s.brakeOf m with
  | some b => s.requests.seen.released.getLsbD b.val
  | none => true

/-- The speed the rows of R68 test: the sensor's while the sensor is the source, else the speed estimate (DEDUCED, log
entry 25). -/
def rowSpeed (s : State) (m : Main) : Int :=
  if (s.mains[m]).comm.source = .sensor then s.sensorSpeed m else (s.mains[m]).eng.speed

def belowDropOut (s : State) (m : Main) (ω : Int) : Bool := decide (absI ω * 100 < s.mNoun m 0x08 * s.mNoun m 0x09)
def atHandover (s : State) (m : Main) (ω : Int) : Bool := decide (s.mNoun m 0x08 ≤ absI ω)

/-- The speed estimate exceeds the SLS limit of the axis (R76). -/
def overSls (s : State) (m : Main) : Bool :=
  let lim := s.safeNoun (0x6800 + 16 * m.val)
  decide (lim ≠ 0 ∧ lim < absI (s.mains[m]).eng.speed)

/-! ## Entering states -/

/-- The gates go off and a window falls away. -/
def gatesOff (s : State) (m : Main) : State :=
  (s.modDrive m fun d => { d with gates := false, gatesNext := false, floating := none }).modGlance m fun w =>
    { w with window := none, queued := none }

/-- The gates go on at the next sample instant, if they are off. -/
def gatesOn (s : State) (m : Main) : State := s.modDrive m fun d => { d with gatesNext := !d.gates }

/-- The brake release request (R571). -/
def setRelease (s : State) (m : Main) (b : Bool) : State := s.modComm m fun c => { c with release := b }

/-- What every change of state resets. -/
def freshComm (c : CommSt) (st : CState) (src : Source) : CommSt :=
  { c with
    state := st
    source := src
    samples := 0
    agree := 0
    blend := none
    overspeed := 0
    braking := none
    held := none
    preloadDone := false
    presetDue := false
    sfDisabled := false
    crossed := false
    dueCheck := false
    dueAlign := false
    dueCatch := false
    dueCoast := false
    dueResync := false
    dueBrake := false
    dueHealthy := false }

/-- The offset measurement of a CHECK that ends (R102): `full` tells whether it ran its full effective time. -/
def endOffsets (s : State) (m : Main) (full : Bool) : State :=
  let a := s.mains[m]
  if a.comm.state = .check ∧ s.mNoun m 0x2A = 1 then
    let d := a.drive
    let n : Int := 32768 * maxI 1 d.ofsCount
    let va := roundDiv d.ofsSumA n
    let vb := roundDiv d.ofsSumB n
    let ok := full && decide (0 < d.ofsCount) && !a.comm.crossed &&
      decide (absI va ≤ 4096) && decide (absI vb ≤ 4096)
    if ok then
      (((s.setNoun (0x2028 + 256 * m.val) va).setNoun (0x2029 + 256 * m.val) vb).modDrive m fun d =>
        { d with ofsVal := true })
    else (s.modDrive m fun d => { d with ofsVal := false }).logEvent sevWarn 0x0302 (objMain m) va (s.axisSample (.main m))
  else s

/-- CHECK begins (R71): gates off, comparators watching, offsets averaged afresh. -/
def enterCheck (s : State) (m : Main) : State :=
  let s1 := ((s.endOffsets m false).gatesOff m).modComm m fun c => freshComm c .check .none
  ((s1.modGlance m fun w => { w with seen := [], window := none, queued := none, next := none, last := none, good := 0, misses := 0 }
    ).modDrive m fun d => { d with ofsSumA := 0, ofsSumB := 0, ofsCount := 0, ofsWindow := false }).setRelease m false

/-- The start's ticket of R70 and R380: the ENABLE ticket, or the open motion ticket that gave the demand of a start. -/
def failStart (s : State) (m : Main) (starting : Bool) (status : Nat) : State :=
  let a := s.mains[m]
  match a.startTicket with
  | some t => (s.finish t status).modMain m fun a => { a with startTicket := none }
  | none => if starting then s.dropTicket (.main m) status else s

/-- States in which a start is in progress. -/
def starting (c : CommSt) : Bool :=
  match c.state with
  | .check => true
  | .catch => true
  | .align => true
  | .preload => true
  | .parison => true
  | .hold => true
  | .handover => c.fromParison
  | _ => false

/-- OFF, HOLD or STOPPED-FAULT is entered with the gates off. -/
def enterRest (s : State) (m : Main) (st : CState) (why : StopReason) : State :=
  let was := starting (s.mains[m]).comm
  let s1 := ((s.endOffsets m false).gatesOff m).modComm m fun c => { freshComm c st .none with release := false }
  match st with
  | .stoppedFault =>
    let s2 := (s1.modComm m fun c => { c with reason := why, parked := none }).failStart m was stStartFailed
    s2.logEvent sevDetected 0x0201 (objMain m) why.code (s.axisSample (.main m))
  | .off =>
    let s2 := s1.modComm m fun c => { c with retries := 0 }
    (s2.finishOpt (s2.mains[m]).stopTicket stDone).modMain m fun a => { a with stopTicket := none }
  | _ => s1

/-- The demand held by R72, R75 and R76 (R572). -/
def heldDemand (s : State) (run : AxisRun) : Int × Int :=
  (if s.feedbackSet run.m = 0 then run.iqSet else run.meas.iq, run.idSet)

/-- Another member of the axis' share set that still contributes names the same brake and requests its release (R159). -/
def brakeShared (s : State) (g : Grp) (m : Main) : Bool :=
  (s.mainsOf g).any fun k => k != m && s.mNoun k 0x05 == s.mNoun m 0x05 && s.mNoun k 0x43 == s.mNoun m 0x43 &&
    (s.mains[k]).comm.release && s.contributes k

/-- Torque is to be removed: on a WINCH axis with a brake the brake comes first (R72), except where another member
carries the load (R159). -/
def leaveTorque (s : State) (g : Grp) (run : AxisRun) (st : CState) (why : StopReason) : State :=
  let m := run.m
  let a := s.mains[m]
  if s.winchBrake m && a.drive.gates && !s.brakeShared g m then
    let h := s.heldDemand run
    if st = .hold then
      (s.modComm m fun c => { freshComm c .hold c.source with release := false, held := some h, braking := some (st, why) })
    else s.modComm m fun c => { c with release := false, held := some h, braking := some (st, why) }
  else s.enterRest m st why

/-- A gated state is entered. -/
def enterGated (s : State) (m : Main) (st : CState) (src : Source) : State :=
  ((s.modComm m fun c => freshComm c st src).setRelease m st.releases).gatesOn m

/-- Window placement starts afresh on entry to a state that places windows (R54, R56). -/
def freshWindows (s : State) (m : Main) : State :=
  s.modGlance m fun w => { w with
    window := none
    queued := none
    last := none
    next := none
    origin := (s.mains[m]).eng.turns * 65536
    good := 0
    misses := 0 }

/-- RUN is entered (R69, R137): the recorded mode comes into force, TORQUE and MANUAL from the present set-point (R138). -/
def enterRun (s : State) (run : AxisRun) (src : Source) : State :=
  let m := run.m
  let was := (s.mains[m]).comm.source
  let s1 := (s.enterGated m .run src).modComm m fun c => { c with retries := 0, fromParison := false, coastSensor := false }
  let s2 := if src = .observer ∧ was ≠ .observer then s1.freshWindows m else s1.modGlance m fun w =>
    { w with misses := 0, good := 0 }
  let mode := (s2.mains[m]).eng.recorded.getD (s2.mains[m]).eng.mode
  let s3 := s2.modEng m fun e => { e with mode := mode, recorded := none }
  let s4 := if mode = 0 then s3.modGen (.main m) fun o => { o with cur := run.iqSet, curRate := 0 } else s3
  let s5 := if mode = 1 then (s4.setNoun (0x2034 + 256 * m.val) (roundDiv run.iqSet 10)).modEng m fun e =>
      { e with manual := run.iqSet }
    else s4
  let s6 := s5.modComm m fun c => { c with sixSeen := false, sixTimes := [], sector :=
    ⟨((wrapU32 (s5.mains[m]).eng.angle * 6 + 2147483648) / 4294967296 % 6).toNat % 6, Nat.mod_lt _ (by decide)⟩ }
  match (s6.mains[m]).startTicket with
  | some t => (s6.finish t stDone).modMain m fun a => { a with startTicket := none }
  | none => s6

/-- COAST is entered with the angle and speed it holds (R67, R75), the demand held. -/
def enterCoast (s : State) (g : Grp) (run : AxisRun) (θ ω : Int) (sensor : Bool) : State :=
  let m := run.m
  let h := s.heldDemand run
  let s1 := (s.enterGated m .coast .observer).modComm m fun c => { c with
    held := some h
    coastSensor := sensor
    coastSpeed := ω
    coastAngle := wrapU32 (θ + angleInc ω (s.tsNs g)) }
  (s1.freshWindows m).logEvent sevWarn 0x0202 (objMain m) (s.mains[m]).eng.speed (s.groups[g]).sample.toNat

/-- A rotor found turning: the measured speed and the last crossing are kept for the preset (R71). -/
def keepMeasured (s : State) (m : Main) (ω : Int) (l : List Crossing) : State :=
  s.modComm m fun c => { c with
    measured := ω
    presetDue := true
    caught := match l with
      | x :: _ => some (crossingAngle (crossingIx x.phase x.rising).val, x.clock)
      | [] => none }

/-- A retry is consumed and the start begins again at CHECK, or the failure goes to STOPPED-FAULT (R69). -/
def retryOr (s : State) (g : Grp) (run : AxisRun) (why : StopReason) : State :=
  let c := (s.mains[run.m]).comm
  if (c.retries : Int) + 1 ≤ s.mNoun run.m 0x12 then
    (s.enterCheck run.m).modComm run.m fun c => { c with retries := c.retries + 1, dueParison := false }
  else s.leaveTorque g run .stoppedFault why

/-- HANDOVER is entered towards a source (R73); the old source goes on. -/
def enterHandover (s : State) (m : Main) (target : Source) (fromParison : Bool) : State :=
  s.modComm m fun c =>
    { freshComm c .handover c.source with
      target := target, fromParison := fromParison, dueHealthy := c.dueHealthy, held := none }

/-- The ramp of PARISON begins (R69, R73). -/
def enterParison (s : State) (m : Main) (θ ω : Int) (preload : Int) : State :=
  ((s.modComm m fun c => { freshComm c .parison .parison with
      rampAngle := θ
      rampSpeed := ω * 4294967296
      rampSign := 0
      preloadIq := preload
      holdoff := 0
      dueParison := false }).setRelease m true).gatesOn m

/-! ## Rows of R68 -/

/-- CHECK (R68, R71). -/
def rowCheck (s : State) (g : Grp) (run : AxisRun) (d : Int) : State :=
  let m := run.m
  let c := (s.mains[m]).comm
  let l := (s.mains[m]).glance.seen.filter fun x => decide (x.clock < s.tkClock g)
  let dir := seqDir l
  let ω := match l with
    | a :: _ :: _ :: b :: _ => dir * speedOver 3 (a.clock - b.clock)
    | _ => 0
  if decide (4 ≤ l.length) && s.atHandover m ω then
    let against := decide (d ≠ 0 ∧ d * dir < 0)
    if against && s.mNoun m 0x0B == 1 then s.enterCheck m
    else if against && s.mNoun m 0x0B == 2 then s.enterRest m .stoppedFault .reverseRotation
    else
      let s1 := (((s.endOffsets m false).modComm m fun c => freshComm c .catch .observer).setRelease m true).keepMeasured m ω l
      s1.freshWindows m
  else if c.dueCheck then
    let s1 := s.endOffsets m true
    if s.sensorOk m then s1.enterRun run .sensor
    else if s.mNoun m 0x04 = 0 then s1.enterGated m .align .align
    else if c.parked.isSome && s.atHandover m d then
      (s1.enterGated m .preload .parked).modComm m fun c => { c with preloadIq := 0 }
    else if c.parked.isSome then s1.modComm m fun c => { freshComm c .hold .none with release := false }
    else (s1.modComm m fun c => { c with state := .hold }).enterRest m .stoppedFault .noStartSource
  else s

/-- CATCH. The preset of its first commit point is made by `axisStates`. -/
def rowCatch (s : State) (g : Grp) (run : AxisRun) : State :=
  let m := run.m
  if 3 ≤ (s.mains[m]).glance.good then s.enterRun run (ownSource (s.mNoun m 0x00))
  else if (s.mains[m]).comm.dueCatch then s.retryOr g run .catchFailed
  else s

/-- PRELOAD (R74). -/
def rowPreload (s : State) (m : Main) : State :=
  let c := (s.mains[m]).comm
  if c.preloadDone && s.brakeReleased m then
    s.enterParison m (match c.parked with
      | some p => p.1
      | none => 0) 0 c.preloadIq
  else s

/-- PARISON. -/
def rowParison (s : State) (g : Grp) (run : AxisRun) (d : Int) : State :=
  let m := run.m
  let c := (s.mains[m]).comm
  let ω := c.rampSpeed
  if s.mNoun m 0x08 * 4294967296 ≤ absI ω ∧ 0 < ω * d ∧ c.holdoff = 0 then
    s.enterHandover m (ownSource (s.mNoun m 0x00)) true
  else if d = 0 ∧ ω = 0 then s.leaveTorque g run .off .none
  else if c.dueParison then s.retryOr g run .parisonTimeout
  else s

/-- Whether the old and new source agree in this sample (R73). -/
def handoverAgrees (s : State) (g : Grp) (run : AxisRun) : Bool :=
  let m := run.m
  let k := run.meas
  let new := (s.atSample g).sourceAngle g m (k.θ0, k.ω0) (s.mains[m]).comm.target
  let d := (s.mains[m]).drive
  let ph := s.phaseCurrents m d.rawA d.rawB
  let iqNew := (park ph (wrapU32 (new.1 + angleInc new.2 (75 * s.gNounN g 0x05)))).2
  decide (absI (wrap32 (new.1 - k.θ)) * 24 ≤ 4294967296) && decide (absI (iqNew - k.iq) ≤ s.mNoun m 0x06)

/-- The old source of a handover goes on alone. -/
def endHandover (s : State) (run : AxisRun) (holdoff : Nat) : State :=
  let m := run.m
  let c := (s.mains[m]).comm
  if c.fromParison then
    s.modComm m fun c => { freshComm c .parison .parison with holdoff := holdoff, dueParison := c.dueParison }
  else s.modComm m fun c => { freshComm c .run c.source with holdoff := holdoff }

/-- HANDOVER (R73, R77). -/
def rowHandover (s : State) (g : Grp) (run : AxisRun) : State :=
  let m := run.m
  let c := (s.mains[m]).comm
  let finishIt := fun (z : State) => z.enterRun run c.target
  if c.target = .sensor ∧ s.sensorOk m = false then s.endHandover run 0
  else if c.source = .sensor ∧ s.sensorOk m = false then
    s.enterCoast g run (s.sensorAngle m) (s.sensorSpeed m) true
  else match c.blend with
    | some j => if 32 ≤ j + 1 then finishIt s else s.modComm m fun c => { c with blend := some (j + 1) }
    | none =>
      let n := if s.handoverAgrees g run && decide (c.samples ≤ 64) then c.agree + 1 else 0
      if 4 ≤ n then finishIt s else s.modComm m fun c => { c with agree := n }

/-- RUN, by source. -/
def rowRun (s : State) (g : Grp) (run : AxisRun) (d : Int) : State :=
  let m := run.m
  let c := (s.mains[m]).comm
  let ω := s.rowSpeed m
  let ok := s.sensorOk m
  let winch := s.mNoun m 0x04 == 1
  if c.source = .sensor then
    if !ok then s.enterCoast g run (s.sensorAngle m) (s.sensorSpeed m) true
    else if s.atHandover m ω && s.mNoun m 0x00 != 2 && c.holdoff == 0 then
      s.enterHandover m (ownSource (s.mNoun m 0x00)) false
    else if d = 0 && s.belowDropOut m ω then s.leaveTorque g run (if winch then .hold else .off) .none
    else s
  else
    let e := (s.mains[m]).eng
    if s.mNoun m 0x18 ≤ (s.mains[m]).glance.misses then s.enterCoast g run e.angle e.speed false
    else if s.mNoun m 0x00 == 2 && c.dueHealthy && ok && c.holdoff == 0 then s.enterHandover m .sensor false
    else if s.belowDropOut m ω && ok && c.holdoff == 0 then s.enterHandover m .sensor false
    else if s.belowDropOut m ω && !ok then
      if winch then s.leaveTorque g run .hold .none
      else if d ≠ 0 then s.enterParison m run.meas.θ ω 0
      else s.leaveTorque g run .off .none
    else s

/-- COAST (R67, R75, R76). -/
def rowCoast (s : State) (g : Grp) (run : AxisRun) : State :=
  let m := run.m
  let c := (s.mains[m]).comm
  let resync := fun (z : State) =>
    ((z.gatesOff m).modComm m fun c =>
      { freshComm c .resync .none with coastSpeed := c.coastSpeed, dueBrake := c.dueBrake }).modGlance m fun w =>
        { w with seen := [] }
  if c.coastSensor then resync s
  else if 2 ≤ (s.mains[m]).glance.good then s.enterRun run (ownSource (s.mNoun m 0x00))
  else if c.dueCoast && s.sensorOk m then s.enterRun run .sensor
  else if c.dueCoast then resync s
  else if s.winchBrake m && (c.dueBrake || s.overSls m) then s.leaveTorque g run .stoppedFault .lossBraked
  else s

/-- RESYNC (R75, R76). -/
def rowResync (s : State) (g : Grp) (run : AxisRun) : State :=
  let m := run.m
  let c := (s.mains[m]).comm
  let l := (s.mains[m]).glance.seen.filter fun x => decide (x.clock < s.tkClock g)
  if 3 ≤ l.length then
    let ω := match l with
      | a :: _ :: b :: _ => seqDir l * speedOver 2 (a.clock - b.clock)
      | _ => 0
    let s1 := s.enterRun run (ownSource (s.mNoun m 0x00))
    (s1.gatesOff m).keepMeasured m ω l
  else if c.dueResync then s.enterRest m .stoppedFault .resyncFailed
  else if s.winchBrake m && (c.dueBrake || s.overSls m) then s.enterRest m .stoppedFault .lossBraked
  else s

/-- HOLD, once braked (R573). -/
def rowHold (s : State) (run : AxisRun) (d : Int) : State :=
  let m := run.m
  let c := (s.mains[m]).comm
  if d ≠ 0 ∧ s.sensorOk m = true then s.enterRun run .sensor
  else if s.atHandover m d && d != 0 && c.parked.isSome then
    (s.enterGated m .preload .parked).modComm m fun c => { c with preloadIq := 0 }
  else if d ≠ 0 ∧ c.parked = none then s.enterRest m .stoppedFault .noStartSource
  else s

/-- The brake a transition waits for is reported applied: the gates go off, and a HOLD stores the parked angle (R72, R74,
R573). -/
def brakeDone (s : State) (run : AxisRun) (st : CState) (why : StopReason) : State :=
  let m := run.m
  let a := s.mains[m]
  if st = .hold then
    let h := match a.comm.held with
      | some p => p.1
      | none => run.meas.iq
    let s1 := (s.gatesOff m).modComm m fun c =>
      { freshComm c .hold .none with parked := some (run.meas.θ, h), release := false }
    if a.enabled then s1 else s1.enterRest m .off .none
  else s.enterRest m (if a.enabled then st else .off) why

/-- The transition of one main axis at a commit point (R68): the first row that applies. -/
def transition (s : State) (g : Grp) (run : AxisRun) : State :=
  let m := run.m
  let a := s.mains[m]
  let c := a.comm
  let d := s.demand g m
  if s.stoActive (.main m) then
    if c.state = .off ∧ a.drive.gates = false ∧ a.drive.gatesNext = false then s
    else s.enterRest m .off .none
  else match c.braking with
    | some (st, why) => if s.brakeApplied m then s.brakeDone run st why else s
    | none =>
      if !a.enabled && c.state != .off && c.state != .stoppedFault then
        if c.state = .hold then s.enterRest m .off .none else s.leaveTorque g run .off .none
      else match c.state with
        | .off => if a.enabled && d != 0 then s.enterCheck m else s
        | .check => s.rowCheck g run d
        | .catch => s.rowCatch g run
        | .align => if c.dueAlign then s.enterParison m 0 0 0 else s
        | .preload => s.rowPreload m
        | .parison => s.rowParison g run d
        | .handover => s.rowHandover g run
        | .run => s.rowRun g run d
        | .coast => s.rowCoast g run
        | .resync => s.rowResync g run
        | .hold => s.rowHold run d
        | .stoppedFault => if a.enabled && c.sfDisabled then
            s.enterRest m .off .none
          else s

/-- The ENABLE ticket commits where the axis rests with nothing to start for (R380). -/
def commitEnable (s : State) (g : Grp) (m : Main) : State :=
  let a := s.mains[m]
  let c := a.comm
  let d := s.demand g m
  let rest := (c.state = .off ∧ d = 0) ∨ (c.state = .hold ∧ (d = 0 ∨ (c.parked.isSome = true ∧ absI d < s.mNoun m 0x08)))
  match a.startTicket with
  | some t => if a.enabled = true ∧ rest then (s.finish t stDone).modMain m fun a => { a with startTicket := none } else s
  | none => s

/-! ## What every sample advances -/

/-- The ramp of PARISON over one sample (R73): towards the demand, bounded by the maximum speed. -/
def advanceRamp (s : State) (g : Grp) (m : Main) : State :=
  let c := (s.mains[m]).comm
  if c.state = .parison ∨ (c.state = .handover ∧ c.fromParison = true) then
    let vmax := s.mNoun m 0x07
    let goal := clampI (-vmax) vmax (s.demand g m) * 4294967296
    let inc := s.mNoun m 0x0F * s.tsNs g * 4294967296 / 1000000000
    let diff := goal - c.rampSpeed
    let step := clampI (-inc) inc diff
    s.modComm m fun c => { c with
      rampAngle := wrapU32 (c.rampAngle + angleInc (roundDiv c.rampSpeed 4294967296) (s.tsNs g))
      rampSpeed := c.rampSpeed + step
      rampSign := signI step }
  else s

/-- The prediction of COAST over one sample (R75): from here on it is that of the next sample instant. -/
def advanceCoast (s : State) (g : Grp) (m : Main) : State :=
  if (s.mains[m]).comm.state = .coast then
    s.modComm m fun c => { c with coastAngle := wrapU32 (c.coastAngle + angleInc c.coastSpeed (s.tsNs g)) }
  else s

/-- The preload current of the next sample (R74). -/
def advancePreload (s : State) (g : Grp) (m : Main) : State :=
  let c := (s.mains[m]).comm
  if c.state = .preload then
    let full := s.preloadTarget m (s.demand g m)
    let t : Int := (c.samples + 1) * s.tsNs g
    s.modComm m fun c => { c with
      preloadIq := if c.preloadDone ∨ 20000000 ≤ t then full else openDiv (full * t) 20000000 }
  else s

/-- Counts and ramps that run in every sample, committed or repeated (R50). -/
def advanceComm (s : State) (g : Grp) (m : Main) : State :=
  let s1 := s.modComm m fun c => { c with samples := c.samples + 1, holdoff := c.holdoff - 1 }
  (s1.advanceRamp g m).advancePreload g m

/-- Samples over the maximum speed by more than 10 % in succession, in a state with the gates on (R51). -/
def countOverspeed (s : State) (m : Main) : State :=
  let a := s.mains[m]
  if a.comm.state.gated && a.drive.gates && decide (s.mNoun m 0x07 * 11 < absI a.eng.speed * 10) then
    s.modComm m fun c => { c with overspeed := c.overspeed + 1 }
  else s.modComm m fun c => { c with overspeed := 0 }

/-! ## Timer events -/

/-- A condition on an axis' state raises a flag that its group's next commit point settles. -/
def raise (s : State) (m : Main) (ok : CommSt → Bool) (f : CommSt → CommSt) : State :=
  if ok (s.mains[m]).comm then s.modComm m f else s

/-- CHECK_TIME_EXPIRY (R71): the effective check time has run. -/
def execCheckTimeExpiry (m : Main) (s : State) : Out :=
  .next (s.raise m (fun c => c.state == .check) fun c => { c with dueCheck := true })

/-- ALIGNMENT_TIME_EXPIRY (R68). -/
def execAlignmentTimeExpiry (m : Main) (s : State) : Out :=
  .next (s.raise m (fun c => c.state == .align) fun c => { c with dueAlign := true })

/-- PARISON_TIMEOUT (R69): the time since the ramp began exceeds the limit; it runs on through HANDOVER. -/
def execParisonTimeout (m : Main) (s : State) : Out :=
  .next (s.raise m (fun c => c.state == .parison || (c.state == .handover && c.fromParison))
    fun c => { c with dueParison := true })

/-- CATCH_TIMEOUT (R68): two electrical periods at the preset speed. -/
def execCatchTimeout (m : Main) (s : State) : Out :=
  .next (s.raise m (fun c => c.state == .catch) fun c => { c with dueCatch := true })

/-- COAST_TIMEOUT (R75): two electrical periods at the held speed. -/
def execCoastTimeout (m : Main) (s : State) : Out :=
  .next (s.raise m (fun c => c.state == .coast) fun c => { c with dueCoast := true })

/-- RESYNC_TIMEOUT (R68): one electrical period at the entry speed. -/
def execResyncTimeout (m : Main) (s : State) : Out :=
  .next (s.raise m (fun c => c.state == .resync) fun c => { c with dueResync := true })

/-- LOSS_BRAKE_TIMEOUT (R76): 20 ms since the declaration of loss. -/
def execLossBrakeTimeout (m : Main) (s : State) : Out :=
  .next (s.raise m (fun c => c.state == .coast || c.state == .resync) fun c => { c with dueBrake := true })

/-- SENSOR_HEALTHY_HOLD (R67): the sensor has been healthy without a break for 100 ms. -/
def execSensorHealthyHold (m : Main) (s : State) : Out :=
  .next (if s.sensorOk m then
      s.raise m (fun c => c.state == .run && c.source != .sensor) fun c => { c with dueHealthy := true }
    else s)

/-- PRELOAD_RAMP_END (R74): the rise is complete; the axis requests brake release. -/
def execPreloadRampEnd (m : Main) (s : State) : Out :=
  .next (s.raise m (fun c => c.state == .preload) fun c => { c with preloadDone := true, release := true })

/-- HANDOVER_DEFERRAL_EXPIRY (R73): 64 samples without agreement; the policy decides. -/
def execHandoverDeferralExpiry (m : Main) (s : State) : Out :=
  let c := (s.mains[m]).comm
  .next (
    if c.state = .handover ∧ c.blend = none ∧ 64 < c.samples then
      if s.mNoun m 0x11 = 0 then s.modComm m fun c => { c with blend := some 0 }
      else if c.fromParison then
        if (c.retries : Int) + 1 ≤ s.mNoun m 0x12 then
          s.modComm m fun c => { freshComm c .parison .parison with
            holdoff := 256, retries := c.retries + 1, dueParison := c.dueParison }
        else
          match s.groupOfMain m with
          | some g => match ((s.runGroup g).axes.find? fun r => r.m == m) with
            | some run => s.leaveTorque g run .stoppedFault .handoverAborted
            | none => s.enterRest m .stoppedFault .handoverAborted
          | none => s.enterRest m .stoppedFault .handoverAborted
      else s.modComm m fun c => { freshComm c .run c.source with holdoff := 256 }
    else s)

end State

end Sys2Proof.Machine
end

