-- ==== Sys2Proof/Machine/Commit.lean ====
section
/-! DEFINITION. What a commit point stores of a pass (R37, R47, R123, R143, R168, R175, R178, R179): the state vector, the
duties, the ledger, the glance windows of the coming sample (R54 to R56, R58), and what a repeated sample still counts. -/

namespace Sys2Proof.Machine

namespace State

/-! ## Axis data -/

/-- The ledger of one axis over one sample, and again for repeated duties (R47, R179). -/
def commitLedger (s : State) (g : Grp) (run : AxisRun) : State :=
  let m := run.m
  let k : Rat := (s.groups[g]).owed + 1
  let e := s.axisEnergy g m run.meas.id run.meas.iq * k
  let n := s.thrustOf g m * k
  s.modMain m fun a =>
    let p := addPair a.eIn a.eOut e
    { a with
      eIn := p.1
      eOut := p.2
      thrust := a.thrust.add n }

/-- What the axis measured and applied in the committed sample (R52, R115, R146). -/
def commitData (s : State) (run : AxisRun) : State :=
  let m := run.m
  let b := run.b
  let inCoast := (s.mains[m]).comm.state == .coast
  let θ := if inCoast then run.meas.θ else wrapU32 (run.xk.getD b.ang 0)
  let ω := if inCoast then run.meas.ω else run.xk.getD b.spd 0
  s.modEng m fun e => { e with
    vd := run.ua.1
    vq := run.ua.2
    id := run.meas.id
    iq := run.meas.iq
    iqSet := run.iqSet
    idSet := run.idSet
    vlim := run.vlim
    ilim := run.ilim
    awhold := run.vlim || run.ilim
    sat := e.sat || run.sat
    angle := θ
    speed := ω
    turns := run.meas.turns
    residual := match run.meas.events.getLast? with
      | some r => floorDiv r.1 65536
      | none => e.residual }

/-- Hits, misses and used crossings of the pass (R34, R60). -/
def commitGlance (s : State) (g : Grp) (run : AxisRun) : State :=
  let m := run.m
  let gone := s.tkClock g
  s.modGlance m fun w =>
    let count := fun (p : Nat × Nat) (miss : Bool) => if miss then (p.1 + 1, 0) else (0, p.2 + 1)
    let p0 := run.meas.events.foldl (fun p r => count p r.2) (w.misses, w.good)
    let p := (List.replicate w.empties true).foldl count p0
    { w with
      misses := p.1
      good := p.2
      empties := 0
      fresh := w.fresh.filter fun c => decide (gone ≤ c.1.clock) }

/-- The step of a control-mode handover (R139 to R142). -/
def commitMode (s : State) (run : AxisRun) : State :=
  let m := run.m
  let was := (s.mains[m]).eng.mode
  let s1 := s.modEng m fun e => { e with mode := run.step.mode, handover := run.step.handover }
  let s2 := match run.step.ended with
    | some (t, st) => s1.finish t st
    | none => s1
  if run.step.mode = was then s2
  else if run.step.mode = 0 then s2.modGen (.main m) fun o => { o with cur := run.iqSet, curRate := 0 }
  else if run.step.mode = 1 then
    (s2.setNoun (0x2034 + 256 * m.val) (roundDiv run.iqSet 10)).modEng m fun e => { e with manual := run.iqSet }
  else s2

/-- An axis that has left RUN keeps its old mode; the request completes with HANDOVER-ABORTED (R142). -/
def dropMode (s : State) (m : Main) : State :=
  let a := s.mains[m]
  match a.eng.handover with
  | some h => if a.comm.state = .run then s
    else (s.modEng m fun e => { e with handover := none }).finish h.ticket stHandoverAborted
  | none => s

/-! ## The prior of the next pass -/

/-- The set-points of a pass formed again for the state an axis has come to. -/
def setPointsNow (s : State) (g : Grp) (meas : List Meas) (run : AxisRun) (share : Int) : List Int :=
  let m := run.m
  let sp := (s.torqueSetPoint m (s.mains[m]).eng.mode (s.wantedCurrent m share)).1
  (s.atSample g).setPoints g meas run.meas run.b sp

/-- The states from which the axis is predicted: on a change of feedback set or of mode outside a handover the bumpless
states take their preset against the pass' own output (R137, R139, R572). -/
def statesNow (s : State) (g : Grp) (meas : List Meas) (run : AxisRun) (share : Int) (before : Nat) : List Int :=
  let m := run.m
  let now := s.feedbackSet m
  if now ≠ before ∧ s.mNoun m 0x33 = 1 then
    withPresets run.xk (bumpless (s.activeRegion g) run.b now run.xk (s.setPointsNow g meas run share)
      (s.excitation g m) run.u0)
  else run.xk

/-- Angle and speed of the observer that a transition or a state sets at a commit point, for tk+1 (R67, R71, R75). `s0`
is the state before the commit, which still lists the crossings the pass used. -/
def presetNow (s s0 : State) (g : Grp) (m : Main) (run : AxisRun) (before : CState) : Option (Int × Int) :=
  let c := (s.mains[m]).comm
  let next := s.tkClock g + 3 * (s.tsNs g : Int)
  if c.presetDue then
    match c.caught with
    | some p => some (p.1 + angleClk c.measured (next - p.2), c.measured)
    | none => none
  else if c.state = .coast then some (c.coastAngle, c.coastSpeed)
  else if before = .coast ∧ c.state = .run then
    if c.source = .sensor then some (s.sensorAngle m, s.sensorSpeed m)
    else match (s0.freshBefore g m).getLast? with
      | some x => some (crossingAngle (crossingIx x.1.phase x.1.rising).val + angleClk c.coastSpeed (next - x.1.clock),
          c.coastSpeed)
      | none => some (run.meas.θ + angleInc c.coastSpeed (s.tsNs g), c.coastSpeed)
  else none

/-- Store the prior of the next pass (R123). -/
def commitPrior (s : State) (g : Grp) (run : AxisRun) (x : List Int) (preset : Option (Int × Int)) : State :=
  let b := run.b
  let p := State.axisPrior (s.activeRegion g) run x
  let y := match preset with
    | some q => lset (lset p.1 b.ang (wrap32 q.1)) b.spd q.2
    | none => p.1
  s.modEng run.m fun e => { e with x := y, sat := e.sat || p.2 }

/-- The PWM of a caught rotor starts at the next sample instant (R71). -/
def startCaught (s : State) (m : Main) (was : Bool) : State :=
  if was then (s.modComm m fun c => { c with presetDue := false }).gatesOn m else s

/-! ## Duties (R84) -/

/-- The duties of a pass go to the shadow registers. -/
def commitDuties (s : State) (run : AxisRun) : State :=
  s.modDrive run.m fun d => { d with shadow := Vector.ofFn fun i => (run.duties.getD i.val (0, false)).1 }

/-! ## Glance windows (R54 to R56, R58) -/

/-- Fine steps of 1/32 CD4 clock in a frame tick. -/
def finePerTick : Int := 60000

/-- Windows are placed (R54, R65). -/
def placesWindows (c : CommSt) : Bool :=
  match c.state with
  | .catch => true
  | .coast => true
  | .run => c.source == .observer
  | _ => false

/-- Crossings k and j lie on one phase. -/
def samePhase (k j : Int) : Bool := (k - j) % 3 == 0

/-- One step later, and one more where that lies on the phase of the window before (R56). -/
def stepLater (dir k : Int) (last : Option Int) : Int :=
  match last with
  | some j => if samePhase (k + dir) j then k + 2 * dir else k + dir
  | none => k + dir

/-- What placing a window needs of a pass: the unwrapped angle at tk+1 and its travel to tk+2, the direction, the speed, the
time of tk+1 in fine steps, the blanking, the float, the phase current limit, and the current states. -/
structure Place where
  u1 : Int
  step : Int
  dir : Int
  ω : Int
  t1 : Int
  blank : Int
  float : Int
  origin : Int
  limit : Int
  d : Int
  q : Int
deriving DecidableEq, Repr

/-- Fine steps the rotor takes for an angle. -/
def fineFor (p : Place) (angle : Int) : Int := openDiv (angle * 480000000000) (4294967296 * absI p.ω)

/-- Angle the rotor goes in fine steps. -/
def angleFor (p : Place) (fine : Int) : Int := openDiv (fine * 4294967296 * absI p.ω) 480000000000

/-- The predicted phase current at a crossing is within the limit (R55). -/
def quietPhase (p : Place) (k : Int) : Bool :=
  let i := (toPhases p.d p.q (wrapU32 (crossingAngle k))).getD (phaseIx (crossingPhase
    ⟨(k % 6).toNat % 6, Nat.mod_lt _ (by decide)⟩)).val 0
  decide (absI i ≤ p.limit * 1073741824)

/-- The window on a crossing, forced or not (R55, R56). -/
def windowAt (p : Place) (k : Int) (forced : Bool) : Window :=
  let b := if forced then maxI p.blank (minI (2 * p.blank) (p.float - 4800)) else p.blank
  let tc := p.t1 + fineFor p (p.dir * (crossingAngle k - p.u1))
  let o := tc - b - (p.float - b) / 2
  { crossing := k
    opening := maxI o p.t1
    blanking := b
    latest := o + p.float
    forced
    opened := false
    found := none }

/-- Search for the window of this pass from a selected crossing: the window, if one is placed, and the crossing selected
next. `last` is the crossing and opening angle of the window before. -/
def seekWindow (p : Place) (last : Option (Int × Int)) (spacing : Int) : Nat → Int → Option (Window × Int) × Int
  | 0, k => (none, k)
  | n + 1, k =>
    let gap := p.dir * (crossingAngle k - p.u1)
    let later := stepLater p.dir k (last.map (·.1))
    if p.step ≤ gap then (none, k)
    else if gap ≤ 0 then seekWindow p last spacing n later
    else
      let long := decide (4294967296 ≤ p.dir * (crossingAngle k - p.origin))
      let forced := long && (match last with
        | some l => !samePhase k l.1
        | none => true)
      let w := windowAt p k forced
      let at0 := p.u1 + p.dir * angleFor p (w.opening - p.t1)
      let near := match last with
        | some l => decide (6 * (p.dir * (at0 - l.2)) < 4294967296)
        | none => false
      if near || !(forced || quietPhase p k) then seekWindow p last spacing n later
      else (some (w, at0), k + p.dir * spacing)

/-- Comparator threshold of R58 at the ball in mV, by R517. -/
def thresholdOf (s : State) (g : Grp) (m : Main) (run : AxisRun) (k : Option Int) : Int :=
  let vdc := s.vdc g (s.linkOf m)
  let d := fun (i : Nat) => ((run.duties.getD i (0, false)).1 : Int)
  let off := match k with
    | some c => match (c % 3).toNat with
      | 0 => Config.neutralOffset vdc (d 1) (d 2)
      | 1 => Config.neutralOffset vdc (d 0) (d 1)
      | _ => Config.neutralOffset vdc (d 0) (d 2)
    | none => 0
  clampI 0 3000 (openDiv ((vdc + 2 * off) * 50) (s.mNoun m 0x2D) + s.mNoun m 0x19)

/-- The first crossing past an unwrapped angle in a direction. -/
def crossingPast (dir u : Int) : Int :=
  if dir < 0 then -((-u * 6).fdiv 4294967296 + 1) else (u * 6).fdiv 4294967296 + 1

/-- The pass schedules a window (R54, R55). -/
def placeWindow (s : State) (g : Grp) (run : AxisRun) : State :=
  let m := run.m
  let a := s.mains[m]
  let c := a.comm
  let w := a.glance
  let inCoast := c.state == .coast
  let ω := if inCoast then c.coastSpeed else a.eng.x.getD run.b.spd 0
  let θ1 := wrapU32 (if inCoast then c.coastAngle else a.eng.x.getD run.b.ang 0)
  if !placesWindows c || ω == 0 || w.queued.isSome then s
  else
    let dir := signI ω
    let turns := a.eng.turns + wrap16 (θ1 / 65536 - a.eng.turns)
    let p : Place := {
      u1 := turns.fdiv 65536 * 4294967296 + θ1
      step := absI (angleInc ω (s.tsNs g))
      dir, ω
      t1 := finePerTick * ((s.sampleNow g : Int) + s.gNoun g 0x02)
      blank := s.mNoun m 0x15 * 480
      float := if inCoast then 96000 else s.mNoun m 0x14 * 4800
      origin := w.origin
      limit := s.pctRated m (s.mNoun m 0x16)
      d := run.xk.getD run.b.dcur 0
      q := run.xk.getD run.b.qcur 0 }
    let spacing := if c.state = .run then s.mNoun m 0x13 else 1
    let past := crossingPast dir p.u1
    let k0 := match w.next with
      | some k => if 0 < dir * (past - k) then
          (match w.last with
            | some l => if samePhase past l.1 then past + dir else past
            | none => past)
        else k
      | none => past
    let r := seekWindow p w.last spacing 8 k0
    match r.1 with
    | none => s.modGlance m fun w => { w with next := some r.2 }
    | some (win, at0) =>
      let s1 := s.modGlance m fun w => { w with
        next := some r.2
        last := some (win.crossing, at0)
        threshold := s.thresholdOf g m run (some win.crossing) }
      if w.window.isSome then s1.modGlance m fun w => { w with queued := some win }
      else s1.modGlance m fun w => { w with window := some win }

/-- The comparators of CHECK and RESYNC stand at the zero-duty threshold (R71), those of a six-step axis at that of its
floating phase (R62). -/
def restThreshold (s : State) (g : Grp) (run : AxisRun) : State :=
  let m := run.m
  let c := (s.mains[m]).comm
  if c.state = .check ∨ c.state = .resync then s.modGlance m fun w => { w with threshold := s.thresholdOf g m run none }
  else if c.state = .run ∧ c.source = .sixStep then
    s.modGlance m fun w => { w with threshold := s.thresholdOf g m run (some c.sector.val) }
  else s

/-! ## Excitation search, thermal model, supervision -/

/-- The conditions a search window needs throughout (R168). -/
def lmOk (s : State) (m : Main) (run : AxisRun) : Bool :=
  let a := s.mains[m]
  a.comm.state == .run && a.comm.source != .parison && a.eng.mode != 1 && a.gen.acc == 0 &&
    decide (absI run.meas.iq * 2 ≤ s.rated m) && !run.ilim && !run.vlim &&
    (s.links[s.linkOf m]).stage == .normal && a.eng.handover.isNone

/-- Loss-minimising and dissipative parts, and the thermal model (R168, R175). -/
def commitShare (s : State) (g : Grp) (run : AxisRun) (member : Option Member0) : State :=
  let m := run.m
  let a := s.mains[m]
  let held := (s.links[s.linkOf m]).stage == .stage2
  let θ := s.thetaNext g m run.meas.id run.meas.iq
  let hot := decide (4294967296 ≤ θ) || (a.share.hot && decide (4294967296 * 9 ≤ θ * 10))
  let moved := decide (s.rated m < absI (run.meas.iq - a.share.lmIq) * 10)
  let lehr := (s.groups[g]).eactive && (s.groups[g]).emode == 0
  let reset := a.comm.state != .run || s.mNoun m 0x44 == 0 || (moved && !held) || lehr
  let on := s.mNoun m 0x44 == 1
  let e := 3 * (a.eng.vd * run.meas.id + a.eng.vq * run.meas.iq) * s.tsNs g
  s.modShare m fun x => { x with
    theta := θ
    hot := hot
    thot := x.thot || decide (4294967296 ≤ θ)
    lmPart := if reset then 0 else x.lmPart
    lmSum := if on then x.lmSum + e else 0
    lmCount := if on then x.lmCount + 1 else 0
    lmValid := x.lmValid && s.lmOk m run && !reset
    lmPrev := if on then x.lmPrev else none
    lmIq := if !on || x.lmCount == 0 then run.meas.iq else x.lmIq
    dissPart := s.dissipation m
    diss := decide (s.dissipation m ≠ 0)
    contrib := s.contributes m
    atLimit := match member with
      | some q => decide (q.given ≠ q.demand)
      | none => false
    motorLim := s.motorLimit m
    regenLim := s.regenLimit m }

/-- Consecutive samples over the following-error limit (R143). -/
def commitFerr (s : State) (run : AxisRun) : State :=
  let m := run.m
  let lim := s.mNoun m 0x38
  let v := match run.sup with
    | some x => absI x
    | none => 0
  let high := (s.mains[m]).eng.mode != 1 && decide (lim ≠ 0) && decide (lim < v)
  s.modEng m fun e => { e with ferrValue := v, ferrCount := if high then e.ferrCount + 1 else 0 }

/-- A repeated sample counts with the last committed value (R143). -/
def repeatFerr (s : State) (m : Main) : State :=
  let e := (s.mains[m]).eng
  let lim := s.mNoun m 0x38
  if e.mode ≠ 1 ∧ lim ≠ 0 ∧ lim < e.ferrValue then s.modEng m fun e => { e with ferrCount := e.ferrCount + 1 } else s

/-- The MANUAL set-point on its slew, in mA (R138). -/
def slewManual (s : State) (g : Grp) (m : Main) : State :=
  let goal : Rat := s.mNoun m 0x34 * 10
  let d : Rat := (s.mNoun m 0x35 * s.gNoun g 0x02 : Int) / 8
  s.modEng m fun e => { e with
    manual := if e.mode = 1 then e.manual + clampR (-d) d (goal - e.manual) else e.manual }

/-! ## Disabling (R92, R176, R380, R381) -/

/-- An axis is disabled by the device or a sentence; its commutation takes the disable row of R68 at commit points. A start in
progress ends with a status. The parked angle and latches stay. -/
def disableMain (s : State) (m : Main) (status : Nat) : State :=
  let a := s.mains[m]
  if a.enabled then
    let s1 := s.failStart m (starting a.comm) status
    s1.modMain m fun a => { a with
      enabled := false
      comm := { a.comm with sfDisabled := a.comm.state == .stoppedFault } }
  else s

/-- An auxiliary axis is disabled; it takes the disable row of R227 at a commit point. -/
def disableAux (s : State) (a : AuxNo) (status : Nat) : State :=
  if (s.auxs[a]).enabled then
    (s.finishOpt (s.auxs[a]).startTicket status).modAux a fun x => { x with enabled := false, startTicket := none }
  else s

/-- The next commit point after a latch was set disables its axis (R92). -/
def disableLatched (s : State) (m : Main) : State :=
  if (s.mains[m]).drive.latchDue then
    (((s.disableMain m stStartFailed).gatesOff m).modDrive m fun d => { d with latchDue := false })
  else s

/-! ## One axis -/

/-- Everything a commit point does to one main axis. -/
def commitAxis (s : State) (g : Grp) (rn : GroupRun) (run : AxisRun) : State :=
  let m := run.m
  let member := rn.members.find? fun x => x.m == m
  let share := match member with
    | some x => x.given
    | none => 0
  let s1 := ((((s.commitLedger g run).commitData run).commitGlance g run).commitMode run).advanceCoast g m
  let before := s1.feedbackSet m
  let was := (s1.mains[m]).comm.state
  let due := (s1.mains[m]).comm.presetDue
  let s2 := ((s1.countOverspeed m).transition g run).dropMode m
  let x := s2.statesNow g rn.meas run share before
  let preset := s2.presetNow s g m run was
  let s3 := (s2.startCaught m due).commitPrior g run x preset
  let s4 := ((s3.commitDuties run).commitShare g run member).commitFerr run
  ((((s4.placeWindow g run).restThreshold g run).commitEnable g m).advanceComm g m).slewManual g m

/-! ## Group data -/

/-- The chopper duty of a link from its voltage (R170). -/
def chopperDuty (s : State) (l : LinkNo) (vdc : Int) : Nat :=
  let on := s.linkMv l 0x11
  let full := s.linkMv l 0x12
  if (s.links[l]).chLost then 0
  else if vdc ≤ on then 0
  else if full ≤ vdc then 65536
  else (clampI 0 65536 (openDiv ((vdc - on) * 65536) (full - on))).toNat

/-- The chopper duties of the links the group commands. -/
def commitChoppers (s : State) (g : Grp) : State :=
  eachFin 4 (fun z l =>
    if z.linkOwner l = some g then z.modLink l fun x => { x with duty := z.chopperDuty l (z.vdc g l) } else z) s

/-- The energies of a link over one sample (R179), with the chopper duty in force. -/
def linkEnergy (s : State) (l : LinkNo) (ns k : Nat) (duty : Nat) : State :=
  let x := s.links[l]
  let e : Rat := if x.vValid && x.iValid then (x.vdc * x.idc * ns * k : Int) / 1000000000000 else 0
  let c : Rat := if x.vValid then
      (duty * x.vdc * x.vdc * ns * k : Int) / (65536 * 1000000000 * (s.lNoun l 0x17 : Rat)) else 0
  s.modLink l fun y =>
    let p := addPair y.eIn y.eOut e
    { y with
      eIn := p.1
      eOut := p.2
      eChop := y.eChop.add c }

def commitLinks (s : State) (g : Grp) : State :=
  eachFin 4 (fun z l =>
    if z.linkOwner l = some g then z.linkEnergy l (z.tsNs g) ((z.groups[g]).owed + 1) (z.links[l]).duty else z) s

/-- Hauled and paid-out work of a committed sample in mJ, from N × nm (R179, R181). -/
def commitWork (s : State) (g : Grp) (rn : GroupRun) : State :=
  let y := (s.groups[g]).yield
  match rn.tension with
  | some f =>
    if rn.lineOk && y.lineValid && decide (0 < f) then
      let d := rn.line - y.linePrev
      let w : Rat := (f * absI d : Int) / 1000000
      s.modGroup g fun q => if 0 < d then { q with hauled := q.hauled.add w } else { q with paid := q.paid.add w }
    else s
  | none => s

/-- Tension, yield and shock of a committed pass (R150 to R152, R163). -/
def commitYield (s : State) (g : Grp) (rn : GroupRun) : State :=
  let q := s.groups[g]
  let n := q.sample.toNat
  let kmin := rn.kappas.foldl (fun (a : Rat) p => minR a p.2) 1
  let k := (clampI 0 255 (truncR (kmin * 255))).toNat
  let was := q.yield.state
  let y := s.yieldCommit g rn.yield rn.tension rn.lineOk rn.line k
  let s1 := s.modGroup g fun z => { z with yield := { y.1 with
    quiet := y.1.quiet + s.gNounN g 0x02
    recTicks := if y.1.state = .recover then y.1.recTicks + s.gNounN g 0x02 else y.1.recTicks } }
  let s2 := match rn.yieldEvent with
    | some e => s1.logEvent sevWarn e.1 (objGroup g) e.2 n
    | none => s1
  let s3 := match y.2 with
    | some r => s2.logEvent sevInfo 0x0501 (objGroup g) r n
    | none => s2
  if y.1.state = .yield ∧ was = .armed then s3.enterDrum g
  else if y.1.state = .armed ∧ was = .off then s3.leaveDrum g
  else s3

/-- The coupled block and the share sets after a committed pass. -/
def commitCoupled (s : State) (g : Grp) (rn : GroupRun) : State :=
  s.modGroup g fun q => { q with
    xc := rn.xcNext
    uc := rn.uc
    kappas := rn.kappas
    sat := q.sat || rn.coupledSat || rn.axes.any (·.sat) }

end State

end Sys2Proof.Machine
end

