-- ==== Sys2Proof/Machine/Pwm.lean ====
section
/-! DEFINITION. The PWM timer of the main axes (R81 to R89), the fault latches (R90 to R93), the bitstream inputs (R94 to
R98) and the sinc3 results (R96, R97, R101 to R103). -/

namespace Sys2Proof.Machine

/-! ## sinc3 (R96, R97) -/

/-- Weight of bit i of a window of 3 × n bits: the coefficient of z^−(i−1) in (1 + … + z^−(n−1))³, in closed form. -/
def sincWeight (n i : Nat) : Nat :=
  if i = 0 ∨ 3 * n - 1 ≤ i then 0
  else
    let k := i - 1
    let tri := fun (x : Nat) => (x + 1) * (x + 2) / 2
    if k < n then tri k
    else if k < 2 * n then tri k - 3 * tri (k - n)
    else tri (3 * n - 3 - k)

/-- The result of a window of bits in 2⁻³¹ of full scale (R97). -/
def sincResult (bits : List Bool) : Int :=
  let n := bits.length / 3
  let sum := bits.zipIdx.foldl (fun (a : Nat) t => if t.1 then a + sincWeight n t.2 else a) 0
  if n = 0 then 0 else minI 2147483647 ((2 * (sum : Int) - n * n * n) * 2147483648 / (n * n * n))

/-- The bits of a channel in a window. -/
def bitsFor (w : List ChannelBits) (ch : Nat) : Option (List Bool) :=
  (w.find? fun c => c.channel.val == ch).map (·.bits)

/-- Channels of a main axis and of a link (R94). -/
def chA (m : Main) : Nat := 2 * m.val
def chB (m : Main) : Nat := 2 * m.val + 1
def chV (l : LinkNo) : Nat := 24 + 2 * l.val
def chI (l : LinkNo) : Nat := 25 + 2 * l.val

/-- A result at 93.75 % of full scale (R101). -/
def overrange (x : Int) : Bool := decide (0x78000000 ≤ absI x)

namespace State

/-! ## The carrier (R81 to R83) -/

/-- H of the carrier of a group in fine steps. -/
def carrierH (s : State) (g : Grp) : Int := 30000 * s.gNoun g 0x02 * s.gNoun g 0x04

/-- Fine steps since the last carrier peak at a time in fine steps (R82): the peak lies Tsinc / 2 after a sample instant
that R26 assigns to the centre. With two samples per period the centre samples are those of an even sample number (DESIGN
CHOICE, log entry 27). -/
def sincePeak (s : State) (g : Grp) (t : Int) : Int :=
  let n := s.gNoun g 0x02
  let odd := if s.gNoun g 0x04 = 2 ∧ (s.groups[g]).sample.toNat % 2 = 1 then n else 0
  let tk : Int := 60000 * ((s.sampleNow g : Int) - odd)
  let peak := tk + 360 * s.gNoun g 0x05
  (t - peak) % (2 * s.carrierH g)

/-- The carrier's value at a time. -/
def carrierAt (s : State) (g : Grp) (t : Int) : Int :=
  let p := s.sincePeak g t
  let h := s.carrierH g
  if p ≤ h then h - p else p - h

/-- Dead time in fine steps (R85). -/
def deadFine (s : State) (m : Main) : Int := roundDiv (s.mNoun m 0x20 * 24) 5

/-- The change of a phase's interval by dead-time compensation (R88); the current is in mA × 2³¹. -/
def deadComp (s : State) (m : Main) (i : Int) : Int :=
  let band := s.mNoun m 0x24 * s.mNoun m 0x06 * 2147483648
  if s.mNoun m 0x23 = 0 then 0
  else openDiv (s.deadFine m * clampI (-band) band (i * 10)) band

/-- The compare value a duty word gives, and whether the maximum duty clamped it (R83, R86 to R88). A value of −1 stands for
a high-side demand that is active on every fine step. -/
def compareOf (s : State) (g : Grp) (m : Main) (duty : Nat) (i : Int) : Int × Bool :=
  let h := s.carrierH g
  let most := s.mNoun m 0x22 * 65536 / 10000
  let d := minI duty most
  let clamped := decide (most < (duty : Int))
  let c0 := h - roundDiv (d * h) 65536
  let v := if 0 < d ∧ d < 65536 then 2 * (h - c0) + s.deadComp m i else 2 * (h - c0)
  let least := roundDiv (s.mNoun m 0x21 * 24) 5
  let c := if v ≤ 0 ∨ v < least then h
    else if d = 65536 ∨ 2 * h ≤ v ∨ 2 * h - v < least then -1
    else h - openDiv v 2
  (c, clamped)

/-- The high-side demand of a phase at a time under its active compare value (R83). -/
def highDemand (s : State) (g : Grp) (m : Main) (i : Fin 3) (t : Int) : Bool :=
  decide ((s.mains[m]).drive.compare[i] < s.carrierAt g t)

/-- Fine steps since the last edge that a compare value gives a phase's outputs, demand edges and dead-time edges alike (R85);
none for a phase that does not switch. -/
def sinceEdge (s : State) (g : Grp) (m : Main) (c t : Int) : Option Int :=
  let h := s.carrierH g
  if c < 0 ∨ h ≤ c then none
  else
    let p := s.sincePeak g t
    let ago := fun (e : Int) => (p - e) % (2 * h)
    let dead := s.deadFine m
    some (minI (minI (ago (h - c)) (ago (h - c + dead))) (minI (ago (-(h - c))) (ago (-(h - c) + dead))))

/-- Within 0.3 µs after a gate edge of the phases other than the given one (R57). -/
def nearEdge (s : State) (g : Grp) (m : Main) (phase : Phase) (t : Int) : Bool :=
  let d := (s.mains[m]).drive
  d.gates && ((fins 3).any (fun i => i != phaseIx phase && (match s.sinceEdge g m d.compare[i] t with
    | some a => decide (a < 1440)
    | none => false)) ||
    (match (s.mains[m]).glance.lastEdge with
      | some e => decide (t - e < 1440)
      | none => false))

/-- The shadow duties become the active compare values at a sample instant (R84). A demand that has to change at the update
itself, or an edge of the old compare value shortly before it, is kept for the masking of R57. -/
def updatePwm (s : State) (g : Grp) (m : Main) : State :=
  let a := s.mains[m]
  let d := a.drive
  let t : Int := 60000 * (s.time.now : Int)
  let ph := s.phaseCurrents m d.rawA d.rawB
  let cur := fun (i : Fin 3) => match i with
    | 0 => ph.1
    | 1 => ph.2.1
    | 2 => ph.2.2
  let res : Vector (Int × Bool) 3 := Vector.ofFn fun i => s.compareOf g m d.shadow[i] (cur i)
  let car := s.carrierAt g t
  let forced := d.gates && (fins 3).any fun i =>
    decide (car ≤ d.compare[i]) && decide ((res[i]).1 < car)
  let ago := (fins 3).filterMap fun i => s.sinceEdge g m d.compare[i] t
  let last := if forced then some t
    else match ago with
      | [] => a.glance.lastEdge
      | x :: r => some (t - r.foldl minI x)
  (s.modDrive m fun d => { d with
    active := d.shadow
    compare := Vector.ofFn fun i => (res[i]).1
    clamped := Vector.ofFn fun i => (res[i]).2 }).modGlance m fun w =>
      { w with lastEdge := if d.gates then last else none }

/-! ## Fault latches (R90 to R93) -/

/-- A fault latch sets: the outputs go low and the disable is due at the next commit point (R92). -/
def setLatch (s : State) (m : Main) (cause : Fin 4) : State :=
  if (s.mains[m]).drive.latch ≠ 0 then s
  else
    ((s.gatesOff m).modDrive m fun d => { d with latch := cause, latchDue := true }).logEvent sevDetected 0x0301
      (objMain m) cause.val (s.axisSample (.main m))

/-- A phase channel of the axis is stuck. -/
def phaseStuck (s : State) (m : Main) : Bool :=
  s.sense.stuck.toList.getD (chA m) false || s.sense.stuck.toList.getD (chB m) false

/-- Gates decided on at the last commit point turn on at the sample instant; the latch arms with the first of them (R91). -/
def startGates (s : State) (m : Main) : State :=
  let d := (s.mains[m]).drive
  if d.gatesNext then
    let s1 := s.modDrive m fun d => { d with gatesNext := false, armed := true }
    if d.latch ≠ 0 then s1
    else if d.gdfLow then s1.setLatch m 1
    else if s.phaseStuck m then s1.setLatch m 3
    else s1.modDrive m fun d => { d with gates := true }
  else s

/-- The latch and the sticky flags clear on an enable with GDFm_N high (R93, R108, R146, R161). -/
def clearLatch (s : State) (m : Main) : State :=
  let s1 := s.modDrive m fun d =>
    if d.gdfLow then { d with armed := false }
    else { d with
      latch := 0
      latchDue := false
      armed := false
      scTrip := false
      scOver := 0
      stuckA := false
      stuckB := false
      ovrA := false
      ovrB := false }
  (s1.modEng m fun e => { e with ferr := false, sat := false }).modShare m fun x => { x with thot := false }

/-- GATE_DRIVER_FAULT_INPUT (R90): the filtered level of GDFm_N changes. -/
def execGateDriverFaultInput (m : Main) (low : Bool) (s : State) : Out :=
  let s1 := s.modDrive m fun d => { d with gdfLow := low }
  .next (if low && (s.mains[m]).drive.armed then s1.setLatch m 1 else s1)

/-- SC_FILTER_RESULT (R103): a result of the free-running OSR 16 filters of both sensed phases. -/
def execScFilterResult (m : Main) (bitsA bitsB : List Bool) (s : State) : Out :=
  let ph := s.phaseCurrents m (sincResult bitsA) (sincResult bitsB)
  let lim := s.pctRated m (s.mNoun m 0x2B) * 2147483648
  let high := decide (lim < absI ph.1 ∨ lim < absI ph.2.1 ∨ lim < absI ph.2.2)
  let d := (s.mains[m]).drive
  let n := if high then d.scOver + 1 else 0
  let s1 := s.modDrive m fun d => { d with scOver := n }
  .next (if 2 ≤ n ∧ d.armed = true then (s1.modDrive m fun d => { d with scTrip := true }).setLatch m 2 else s1)

/-! ## Bitstreams (R98) -/

/-- The main axis of a phase channel. -/
def axisOfChannel (ch : Fin 32) : Option Main := if ch.val < 24 then fin? 12 (ch.val / 2) else none

/-- The link of a link channel. -/
def linkOfChannel (ch : Fin 32) : Option LinkNo := if 24 ≤ ch.val then fin? 4 ((ch.val - 24) / 2) else none

def setStuck (s : State) (ch : Fin 32) (b : Bool) : State :=
  { s with sense := { s.sense with
      stuck := s.sense.stuck.set ch b
      cleanWindow := if b then s.sense.cleanWindow.set ch false else s.sense.cleanWindow } }

/-- BITSTREAM_STUCK (R98): no transition for 128 modulator clocks. -/
def execBitstreamStuck (ch : Fin 32) (s : State) : Out :=
  let s1 := s.setStuck ch true
  .next (
    match axisOfChannel ch, linkOfChannel ch with
    | some m, _ =>
      let s2 := s1.modDrive m fun d => if ch.val % 2 = 0 then { d with stuckA := true } else { d with stuckB := true }
      if (s.mains[m]).drive.armed then s2.setLatch m 3 else s2
    | none, some l => s1.modLink l fun x =>
        if ch.val % 2 = 0 then { x with vStuck := true, vValid := false } else { x with iStuck := true, iValid := false }
    | none, none => s1)

/-- BITSTREAM_UNSTUCK (R98): the first transition after a stuck period; results are valid from the first window that begins
after it. -/
def execBitstreamUnstuck (ch : Fin 32) (s : State) : Out := .next (s.setStuck ch false)

/-- A window of a channel begins at a sample instant or standby tick. -/
def beginWindow (s : State) (ch : Nat) : State :=
  match fin? 32 ch with
  | some c => { s with sense := { s.sense with cleanWindow := s.sense.cleanWindow.set c (!s.sense.stuck[c]) } }
  | none => s

/-- The window now ending holds no bit of a stuck period. -/
def windowClean (s : State) (ch : Nat) : Bool :=
  s.sense.cleanWindow.toList.getD ch false && !s.sense.stuck.toList.getD ch true

/-! ## Phase-current results -/

/-- The results of one axis of a group's window: raw values, overrange flags and the offset sums of a CHECK (R97, R101,
R102). -/
def currentResult (s : State) (m : Main) (w : List ChannelBits) : State :=
  let val := fun (ch : Nat) (old : Int) => match bitsFor w ch with
    | some b => sincResult b
    | none => old
  let a := s.mains[m]
  let ra := val (chA m) a.drive.rawA
  let rb := val (chB m) a.drive.rawB
  let inCheck := a.comm.state == .check && a.drive.ofsWindow && s.mNoun m 0x2A == 1
  s.modDrive m fun d => { d with
    rawA := ra
    rawB := rb
    ovrA := d.ovrA || overrange ra
    ovrB := d.ovrB || overrange rb
    ofsSumA := if inCheck then d.ofsSumA + ra else d.ofsSumA
    ofsSumB := if inCheck then d.ofsSumB + rb else d.ofsSumB
    ofsCount := if inCheck then d.ofsCount + 1 else d.ofsCount }

end State

end Sys2Proof.Machine
end

