-- ==== Sys2Proof/Machine/Links.lean ====
section
/-! DEFINITION. DC links and choppers (R32, R104 to R106, R169 to R177) and the start of an engine pass (R39, R40, R443). -/

namespace Sys2Proof.Machine

namespace State

/-! ## Engine schedule (R39, R40) -/

/-- Compute deadline of a group's present sample in ns since the supply came up (R39). -/
def deadlineNs (s : State) (g : Grp) : Int :=
  let a := minI 12000 ((s.tsNs g : Int) - s.tsincNs g - 1000)
  12500 * (s.sampleNow g : Int) + s.tsincNs g + a

/-- Of two groups the one with the earlier deadline, the lower number first. -/
def earlier (s : State) (a b : Grp) : Grp := if s.deadlineNs b < s.deadlineNs a then b else a

/-- The engines start the ready segment with the earliest deadline (R40). -/
def startSegment (s : State) : State :=
  if s.engines.busy ≠ .idle then s
  else match (fins 8).filter fun g => (s.groups[g]).phase == .ready with
    | [] => s
    | a :: r =>
      let g := r.foldl s.earlier a
      ({ s with engines := { s.engines with busy := .segment g false } }).modGroup g fun q => { q with phase := .passing }

/-- Modules whose packet a part expects for its pass (R439, R441). -/
def expectedParts (s : State) (g : Grp) : List (Fin 8) :=
  if s.homePart g then (fins 8).filter fun i => i != s.cascade.ident && bitAt (s.gNounN g 0x3A) i.val
  else if s.remotePart g then (fins 8).filter fun i => i.val == s.gNounN g 0x3B
  else []

/-- A part looks for the packets of its pass and takes the values and flags that are in (R441, R443): a missing one is counted,
and two in succession from one part are a detected fault with cause ENGINE. -/
def checkExchange (s0 : State) (g : Grp) : State :=
  let first := !(s0.groups[g]).span.begun
  let s := s0.modGroup g fun q => { q with
    span := { q.span with
      begun := true
      heard := q.span.arrived
      emerg := q.span.emerg || q.span.emergIn
      stop := q.span.stop || q.span.stopIn
      emergIn := false
      stopIn := false } }
  if first then s
  else
    let s1 := (s.expectedParts g).foldl (fun (z : State) i =>
      if (z.groups[g]).span.fresh.contains i then
        z.modGroup g fun q => { q with span := { q.span with run := q.span.run.set i 0 } }
      else
        let n := (z.groups[g]).span.run[i] + 1
        let z1 := z.modGroup g fun q => { q with
          span := { q.span with misses := inc32 q.span.misses, run := q.span.run.set i n }
          edue := if 2 ≤ n then some (q.edue.getD 1) else q.edue }
        z1.modCascade fun c => { c with misses := inc32 c.misses }) s
    s1.modGroup g fun q => { q with span := { q.span with fresh := [] } }

/-! ## Stages (R172, R173) -/

/-- 1 % of Vtrip in mV. -/
def tripPct (s : State) (l : LinkNo) : Int := s.lNoun l 0x15

/-- The stage after a result, TRIPPED apart (R173). -/
def stageOf (s : State) (l : LinkNo) (v : Int) : LinkStage :=
  let x := s.links[l]
  if s.linkMv l 0x14 ≤ v then .stage2
  else if x.stage = .stage2 then (if v < s.linkMv l 0x14 - s.tripPct l then .stage1 else .stage2)
  else if s.linkMv l 0x13 ≤ v ∨ x.chLost = true then .stage1
  else if v < s.linkMv l 0x13 - s.tripPct l then .normal
  else x.stage

/-- The chopper of a link is declared lost (R174): the groups on the link halt their generators. -/
def chopperLost (s : State) (l : LinkNo) (dvdt : Bool) : State :=
  if (s.links[l]).chLost then s
  else
    let s1 := (s.modLink l fun x => { x with
      chLost := true
      cause := dvdt
      duty := 0
      stage := if x.stage = .normal then .stage1 else x.stage }).logEvent sevDetected 0x0503 (objLink l) (b2n dvdt)
    (s1.linkGroups l).foldl haltAll s1

/-- The rise of VDC against the result nearest to 50 µs earlier exceeds `N:0x4l16` (R174). -/
def fastRise (s : State) (l : LinkNo) (v : Int) : Bool :=
  let now := s.time.now
  let dist := fun (p : Nat × Int) => absI ((now : Int) - p.1 - 4)
  match (s.links[l]).history with
  | [] => false
  | a :: r =>
    let p := r.foldl (fun x y => if dist y < dist x then y else x) a
    let Δ : Int := now - p.1
    decide (0 < Δ ∧ s.lNoun l 0x16 * 25 * Δ < (v - p.2) * 2)

/-- The dV/dt test of a result (R174). -/
def testRise (s : State) (l : LinkNo) (v : Int) : State :=
  let now := s.time.now
  let on := decide (s.linkMv l 0x12 ≤ v) && s.fastRise l v
  let s1 := s.modLink l fun x => { x with
    history := (now, v) :: x.history.filter fun p => decide (now ≤ p.1 + 16)
    dvdtSince := if on then some (x.dvdtSince.getD now) else none }
  match (s1.links[l]).dvdtSince with
  | some t => if t + 16 ≤ now then s1.chopperLost l true else s1
  | none => s1

/-- The main axes on a link. -/
def linkMains (s : State) (l : LinkNo) : List Main := (fins 12).filter fun m => s.linkOf m == l
def linkAuxs (s : State) (l : LinkNo) : List AuxNo := (fins 8).filter fun a => s.linkOfAux a == l

/-- Entry to TRIPPED (R176). -/
def tripLink (s : State) (l : LinkNo) : State :=
  let s1 := (s.modLink l fun x => { x with stage := .tripped, stoDue := true }).logEvent sevDetected 0x0505
    (objLink l) ((s.links[l]).vdc / 100)
  let s2 := (s.linkMains l).foldl (fun z m => z.disableMain m stStartFailed) s1
  let s3 := (s.linkAuxs l).foldl (fun z a => z.disableAux a stStartFailed) s2
  (s3.linkGroups l).foldl haltAll s3

/-- STO is requested for the gate-driver groups of a tripped link's axes once every brake that holds a load is reported
applied (R176). -/
def settleTrip (s : State) (l : LinkNo) : State :=
  if (s.links[l]).stoDue then
    let waits := (s.linkMains l).any fun m => s.winchBrake m && (s.groupOfMain m).isSome && !s.brakeApplied m
    if waits then s
    else
      let off := (s.linkMains l).filterMap s.stoOfMain ++ (s.linkAuxs l).filterMap s.stoOfAux
      let s1 := s.modReq fun r => off.foldl (fun (q : RequestSt) i => { q with torque := q.torque &&& ~~~(1#4 <<< i.val) }) r
      s1.modLink l fun x => { x with stoDue := false }
  else s

/-- VWARN (R172). -/
def testWarn (s : State) (l : LinkNo) (v : Int) : State :=
  let w := s.linkMv l 0x10
  if w ≤ v ∧ (s.links[l]).vWarn = false then
    (s.modLink l fun x => { x with vWarn := true }).logEvent sevWarn 0x0502 (objLink l) (v / 100)
  else if v < w - s.tripPct l then s.modLink l fun x => { x with vWarn := false }
  else s

/-- A valid voltage result while a running group names the link (R170, R172 to R174). -/
def servedResult (s : State) (l : LinkNo) (v : Int) : State :=
  let n := if s.linkMv l 0x15 ≤ v then (s.links[l]).overTrip + 1 else 0
  let s1 := (s.modLink l fun x => { x with overTrip := n, peak := (maxI x.peak (v / 1000)).toNat }).testWarn l v
  let s2 := s1.testRise l v
  if (s2.links[l]).stage = .tripped then s2
  else if 2 ≤ n then s2.tripLink l
  else s2.modLink l fun x => { x with stage := s2.stageOf l v }

/-- A result of standby regulation (R171): the chopper only, and the ledger over 100 µs (R179). -/
def standbyResult (s : State) (l : LinkNo) (v : Int) : State :=
  let s1 := (s.linkEnergy l 100000 1 (s.links[l]).duty).testWarn l v
  s1.modLink l fun x => { x with
    standby := true
    peak := (maxI x.peak (v / 1000)).toNat
    duty := if s.linkMv l 0x12 ≤ v then 65536 else if v ≤ s.linkMv l 0x11 then 0 else x.duty }

/-- The results of a link's two channels (R97, R98, R101, R104). -/
def linkResult (s : State) (l : LinkNo) (w : List ChannelBits) : State :=
  match bitsFor w (chV l), bitsFor w (chI l) with
  | some bv, some bi =>
    let rv := sincResult bv
    let ri := sincResult bi
    let v := openDiv ((rv - s.lNoun l 0x01 * 32768) * s.lNoun l 0x00 * 100) 2147483648
    let i := openDiv (scaled ri (s.lNoun l 0x03) (s.lNoun l 0x02)) 2147483648
    let vOk := s.windowClean (chV l)
    let s1 := s.modLink l fun x => { x with
      vdc := v
      idc := i
      vValid := vOk
      iValid := s.windowClean (chI l)
      vOvr := x.vOvr || overrange rv
      iOvr := x.iOvr || overrange ri }
    if !vOk then s1
    else
      let s2 := (s1.linkGroups l).foldl (fun (z : State) g =>
        z.modGroup g fun q => { q with lastVdc := q.lastVdc.set l (some v) }) s1
      if (s2.linkOwner l).isSome then s2.servedResult l v else s2.standbyResult l v
  | _, _ => s

/-! ## Rows -/

/-- FILTER_RESULT_READY (R96): a group's window, or that of the links in standby regulation. -/
def execFilterResultReady (g : Option Grp) (captured : List ChannelBits) (s0 : State) : Out :=
  let p := s0.injectSinc captured
  let window := p.1
  let s := p.2
  .next (
    match g with
    | none => if s.awake then
        eachFin 4 (fun z l => if (z.linkOwner l).isNone then z.linkResult l window else z) s
      else s
    | some g =>
      if (s.groups[g]).phase = .filtering then
        let s1 := (s.mainsOf g).foldl (fun z m => z.currentResult m window) s
        let s2 := eachFin 4 (fun z l => if z.linkOwner l = some g then z.linkResult l window else z) s1
        ((s2.modGroup g fun q => { q with phase := .ready }).checkExchange g).startSegment
      else s)

/-- CHOPPER_PERIOD_START (R105): the output takes the duty last committed; `bcf` is the filtered feedback. -/
def execChopperPeriodStart (l : LinkNo) (bcf : Bool) (s : State) : Out :=
  let hz := s.lNoun l 0x04
  let high := (s.links[l]).duty * (1000000000 / hz) / 65536
  .next (s.modLink l fun x => { x with
    prevHigh := x.misHigh
    prevLow := x.misLow
    misHigh := false
    misLow := false
    chFb := bcf
    chOut := decide (s.lNoun l 0x05 ≤ high ∧ 0 < high) })

/-- CHOPPER_FEEDBACK_MISMATCH (R106, R174): the feedback stands on the wrong side of the output for longer than the
allowance. -/
def execChopperFeedbackMismatch (l : LinkNo) (s : State) : Out :=
  let x := s.links[l]
  let outHigh := !x.chFb
  let s1 := s.modLink l fun x => { x with
    chMis := satInc 65535 x.chMis
    misReport := true
    misHigh := x.misHigh || outHigh
    misLow := x.misLow || !outHigh }
  .next (
    if outHigh && x.prevHigh then s1.chopperLost l false
    else if !outHigh && x.prevLow && !x.chShort then
      let s2 := (s1.modLink l fun y => { y with chShort := true }).logEvent sevDetected 0x0504 (objLink l)
        (s1.links[l]).chMis
      if s.lNoun l 0x18 = 1 then
        (s2.linkGroups l).foldl (fun (z : State) g => z.modGroup g fun q => { q with edue := some (q.edue.getD 7) }) s2
      else s2
    else s1)

end State

end Sys2Proof.Machine
end

