-- ==== Sys2Proof/Machine/Glance.lean ====
section
/-! DEFINITION. Glance windows and comparator edges between samples (R18, R55 to R57), and six-step commutation (R62, R63). -/

namespace Sys2Proof.Machine

/-- A run of crossings with one more: it grows while the phase sequence holds, and starts again otherwise (R71). -/
def growRun (l : List Crossing) (c : Crossing) : List Crossing :=
  match l with
  | [] => [c]
  | [a] => if seqDir [c, a] = 0 then [c] else [c, a]
  | a :: b :: r =>
    let d := seqDir [c, a]
    if d = 0 then [c] else if d = seqDir [a, b] then (c :: a :: b :: r).take 8 else [c, a]

/-- The phase of a numbered crossing. -/
def phaseOf (k : Int) : Phase := crossingPhase ⟨(k % 6).toNat % 6, Nat.mod_lt _ (by decide)⟩

/-- An edge is the one a numbered crossing expects (R48). -/
def expects (k : Int) (phase : Phase) (rising : Bool) : Bool :=
  decide ((crossingIx phase rising).val = (k % 6).toNat)

namespace State

/-- The group of an axis, G0 where it has none. -/
def groupOr0 (s : State) (m : Main) : Grp := (s.groupOfMain m).getD 0

/-- GLANCE_WINDOW_OPEN (R55): the phase floats from the opening edge, `fine` steps after the last frame tick. -/
def execGlanceWindowOpen (m : Main) (fine : Nat) (s : State) : Out :=
  let a := s.mains[m]
  .next (
    match a.glance.window with
    | some w =>
      if !w.opened && a.drive.gates && placesWindows a.comm then
        (s.modGlance m fun g => { g with
          window := some { w with opened := true, opening := 60000 * (s.time.now : Int) + fine }
          forced := w.forced }).modDrive m fun d => { d with floating := some (phaseOf w.crossing) }
      else s
    | none => s)

/-- GLANCE_WINDOW_CLOSE (R57): the phase resumes; a window without a crossing counts as a miss in the next pass (R60). -/
def execGlanceWindowClose (m : Main) (s : State) : Out :=
  let a := s.mains[m]
  .next (
    match a.glance.window with
    | some w =>
      if w.opened && placesWindows a.comm then
        (s.modGlance m fun g => { g with
          window := g.queued
          queued := none
          origin := crossingAngle w.crossing
          empties := if w.found.isNone then g.empties + 1 else g.empties }).modDrive m fun d => { d with floating := none }
      else s
    | none => s)

/-- An edge within a glance window (R57). -/
def windowEdge (s : State) (g : Grp) (m : Main) (phase : Phase) (rising : Bool) (raw : Int) (c : Crossing) : State :=
  match (s.mains[m]).glance.window with
  | some w =>
    if w.opened && w.found.isNone && expects w.crossing phase rising && decide (w.opening + w.blanking ≤ raw) &&
        decide (raw < w.latest) && !s.nearEdge g m phase raw then
      s.modGlance m fun q => { q with
        window := some { w with found := some c }
        fresh := q.fresh ++ [(c, some w.crossing)] }
    else s
  | none => s

/-- An edge of the floating phase of a six-step axis (R62). -/
def sixStepEdge (s : State) (g : Grp) (m : Main) (phase : Phase) (rising : Bool) (raw : Int) (c : Crossing) : State :=
  let a := s.mains[m]
  let blank := match a.glance.window with
    | some w => decide (raw < w.opening + w.blanking)
    | none => false
  if !a.comm.sixSeen && expects a.comm.sector.val phase rising && !blank && !s.nearEdge g m phase raw then
    (s.modGlance m fun q => { q with fresh := q.fresh ++ [(c, none)] }).modComm m fun x => { x with
      sixSeen := true
      sixTimes := (c.clock :: x.sixTimes).take 3 }
  else s

/-- COMPARATOR_EDGE (R18, R57, R62, R71): an edge timestamped `cd4` clocks after the last frame tick. The path delay is
subtracted from what the rules use (R518). -/
def execComparatorEdge (m : Main) (phase : Phase) (rising : Bool) (cd4 : Nat) (s : State) : Out :=
  let a := s.mains[m]
  let g := s.groupOr0 m
  let raw : Int := 60000 * (s.time.now : Int) + 32 * cd4
  let c : Crossing := { phase, rising, clock := 20 * (1875 * (s.time.now : Int) + cd4) - 3 * s.mNoun m 0x2E }
  .next (
    if a.comm.state = .check ∨ a.comm.state = .resync then
      (s.modGlance m fun q => { q with seen := growRun q.seen c }).modComm m fun x =>
        { x with crossed := x.crossed || x.state == .check }
    else if a.comm.state = .run ∧ a.comm.source = .sixStep then s.sixStepEdge g m phase rising raw c
    else if placesWindows a.comm then s.windowEdge g m phase rising raw c
    else s)

/-- SIX_STEP_COMMUTATION (R62, R63): the next sector, on the delay after a crossing, or on the predicted schedule with a miss
where none was accepted. -/
def execSixStepCommutation (m : Main) (s : State) : Out :=
  let a := s.mains[m]
  let dir := signI a.eng.speed
  .next (
    if a.comm.state = .run ∧ a.comm.source = .sixStep ∧ a.drive.gates = true then
      let k : Int := (a.comm.sector.val : Int) + (if dir < 0 then -1 else 1)
      let sec : Fin 6 := ⟨(k % 6).toNat % 6, Nat.mod_lt _ (by decide)⟩
      let t : Int := 60000 * (s.time.now : Int)
      let w : Window := { crossing := sec.val, opening := t, blanking := s.mNoun m 0x15 * 480, latest := t
                          forced := false, opened := true, found := none }
      (s.modComm m fun x => { x with sector := sec, sixSeen := false }).modGlance m fun q => { q with
        window := some w
        misses := if a.comm.sixSeen then q.misses else q.misses + 1
        good := if a.comm.sixSeen then q.good else 0 }
    else s)

/-- SPEED_LIMIT (R51): the speed estimate has exceeded the limit by more than 10 % on 8 consecutive samples. -/
def execSpeedLimit (m : Main) (s : State) : Out :=
  let a := s.mains[m]
  .next (
    if a.comm.state.gated ∧ 8 ≤ a.comm.overspeed then
      match ((s.runGroup (s.groupOr0 m)).axes.find? fun r => r.m == m) with
      | some run => s.leaveTorque (s.groupOr0 m) run .stoppedFault .speedLimit
      | none => s.enterRest m .stoppedFault .speedLimit
    else s)

/-- MODE_DEFERRAL_EXPIRY (R141): 64 samples without agreement; the policy decides. -/
def execModeDeferralExpiry (m : Main) (s : State) : Out :=
  .next (
    match (s.mains[m]).eng.handover with
    | some h =>
      if h.blend = none ∧ 64 ≤ h.count then
        if s.mNoun m 0x32 = 0 then s.modEng m fun e => { e with handover := some { h with blend := some 0 } }
        else (s.modEng m fun e => { e with handover := none }).finish h.ticket stHandoverAborted
      else s
    | none => s)

/-- FOLLOWING_ERROR (R143, R144): the count has reached the following-error time. -/
def execFollowingError (m : Main) (s : State) : Out :=
  let e := (s.mains[m]).eng
  let g := s.groupOr0 m
  let need := ceilDiv (s.mNoun m 0x39 * 100000) (s.tsNs g)
  .next (
    if 0 < e.ferrCount ∧ (need = e.ferrCount ∨ (need ≤ e.ferrCount ∧ e.ferr = false)) then
      let s1 := (s.modEng m fun e => { e with ferr := true }).logEvent sevWarn 0x0401 (objMain m) e.ferrValue
        (s.groups[g]).sample.toNat
      if s.mNoun m 0x3A = 1 then s1.modGroup g fun q => { q with orders := q.orders ++ [(none, .internalHalt (.main m))] }
      else if s.mNoun m 0x3A = 2 then s1.modGroup g fun q => { q with edue := some (q.edue.getD 6) }
      else s1
    else s)

/-- EXCITATION_SEARCH_WINDOW (R168): a window of `N:0x2m46` has ended. -/
def execExcitationSearchWindow (m : Main) (s : State) : Out :=
  let x := (s.mains[m]).share
  .next (
    if s.mNoun m 0x44 = 1 ∧ 0 < x.lmCount then
      let mean : Rat := (x.lmSum : Rat) / x.lmCount
      let fresh := fun (y : ShareSt) => { y with lmSum := 0, lmCount := 0, lmValid := true }
      if x.lmValid then
        match x.lmPrev with
        | none => s.modShare m fun y => { fresh y with lmPrev := some mean, lmHold := false }
        | some p =>
          let dir : Int := if mean < p - absR p / 1000 then x.lmDir else -x.lmDir
          let step := truncDiv (s.rated m * s.mNoun m 0x45) 1000
          let lo := -(s.pctRated m (s.mNoun m 0x47))
          s.modShare m fun y => { fresh y with
            lmPrev := some mean
            lmHold := false
            lmDir := dir
            lmPart := clampI lo 0 (y.lmPart + dir * step) }
      else s.modShare m fun y => { fresh y with lmHold := true, lmPrev := none }
    else s)

end State

end Sys2Proof.Machine
end

