-- ==== Sys2Proof/Machine/Microstep.lean ====
section
/-! DEFINITION. The microstep tables of the auxiliary axes (R215 to R217): the default content as the rule's formula gives
it, and the entries and folded values of a table. -/

namespace Sys2Proof.Machine

/-- C[0] to C[15] of the default table. -/
def cosRow0 : List Nat :=
  [65535, 65534, 65530, 65524, 65515, 65504, 65491, 65475, 65456, 65435, 65412, 65386, 65357, 65327, 65293, 65258]

/-- C[16] to C[31] of the default table. -/
def cosRow1 : List Nat :=
  [65219, 65179, 65136, 65090, 65042, 64992, 64939, 64883, 64826, 64765, 64703, 64638, 64570, 64500, 64428, 64353]

/-- C[32] to C[47] of the default table. -/
def cosRow2 : List Nat :=
  [64276, 64196, 64114, 64030, 63943, 63853, 63762, 63668, 63571, 63472, 63371, 63267, 63161, 63053, 62942, 62829]

/-- C[48] to C[63] of the default table. -/
def cosRow3 : List Nat :=
  [62713, 62595, 62475, 62352, 62227, 62100, 61970, 61838, 61704, 61567, 61429, 61287, 61144, 60998, 60850, 60699]

/-- C[64] to C[79] of the default table. -/
def cosRow4 : List Nat :=
  [60546, 60391, 60234, 60075, 59913, 59749, 59582, 59414, 59243, 59070, 58895, 58717, 58537, 58356, 58171, 57985]

/-- C[80] to C[95] of the default table. -/
def cosRow5 : List Nat :=
  [57797, 57606, 57413, 57218, 57021, 56822, 56620, 56417, 56211, 56003, 55794, 55582, 55367, 55151, 54933, 54713]

/-- C[96] to C[111] of the default table. -/
def cosRow6 : List Nat :=
  [54490, 54266, 54039, 53811, 53580, 53348, 53113, 52877, 52638, 52398, 52155, 51911, 51664, 51416, 51166, 50913]

/-- C[112] to C[127] of the default table. -/
def cosRow7 : List Nat :=
  [50659, 50403, 50145, 49885, 49624, 49360, 49095, 48827, 48558, 48287, 48014, 47740, 47464, 47185, 46905, 46624]

/-- C[128] to C[143] of the default table. -/
def cosRow8 : List Nat :=
  [46340, 46055, 45768, 45479, 45189, 44897, 44603, 44308, 44011, 43712, 43411, 43109, 42806, 42500, 42194, 41885]

/-- C[144] to C[159] of the default table. -/
def cosRow9 : List Nat :=
  [41575, 41263, 40950, 40635, 40319, 40001, 39682, 39361, 39039, 38715, 38390, 38064, 37736, 37406, 37075, 36743]

/-- C[160] to C[175] of the default table. -/
def cosRow10 : List Nat :=
  [36409, 36074, 35738, 35400, 35061, 34721, 34379, 34036, 33692, 33346, 32999, 32651, 32302, 31952, 31600, 31247]

/-- C[176] to C[191] of the default table. -/
def cosRow11 : List Nat :=
  [30893, 30538, 30181, 29824, 29465, 29106, 28745, 28383, 28020, 27656, 27291, 26925, 26557, 26189, 25820, 25450]

/-- C[192] to C[207] of the default table. -/
def cosRow12 : List Nat :=
  [25079, 24707, 24334, 23960, 23586, 23210, 22834, 22456, 22078, 21699, 21319, 20939, 20557, 20175, 19792, 19408]

/-- C[208] to C[223] of the default table. -/
def cosRow13 : List Nat :=
  [19024, 18639, 18253, 17866, 17479, 17091, 16703, 16313, 15924, 15533, 15142, 14751, 14359, 13966, 13573, 13179]

/-- C[224] to C[239] of the default table. -/
def cosRow14 : List Nat :=
  [12785, 12391, 11996, 11600, 11204, 10808, 10411, 10014, 9616, 9218, 8820, 8421, 8022, 7623, 7223, 6824]

/-- C[240] to C[255] of the default table. -/
def cosRow15 : List Nat :=
  [6424, 6023, 5623, 5222, 4821, 4420, 4019, 3617, 3216, 2814, 2412, 2010, 1608, 1206, 804, 402]

/-- C of the default content (R217): round(65 535 × cos(i × 90° / 256)) for i from 0 to 255. -/
def cosDefault : List Nat :=
  cosRow0 ++ cosRow1 ++ cosRow2 ++ cosRow3 ++ cosRow4 ++ cosRow5 ++ cosRow6 ++ cosRow7 ++ cosRow8 ++ cosRow9 ++ cosRow10 ++
    cosRow11 ++ cosRow12 ++ cosRow13 ++ cosRow14 ++ cosRow15

/-- Entry i of a table with the default content: C in the high half, S in the low half. S[i] is C[256 − i]. -/
def entryDefault (i : Nat) : Word :=
  BitVec.ofNat 32 (cosDefault.getD i 0 * 65536 + (if i = 0 then 0 else cosDefault.getD (256 - i) 0))

namespace State

/-- Entry i of table t. -/
def tableEntry (s : State) (t i : Nat) : Word := sget (entryDefault i) s.tables (t * 256 + i)

/-- Store entry i of table t. -/
def setTableEntry (s : State) (t i : Nat) (w : Word) : State :=
  { s with tables := sput (entryDefault i) s.tables (t * 256 + i) w }

/-- Folded values of an address for windings A and B (R216). -/
def folded (s : State) (t addr : Nat) : Int × Int :=
  let e := (s.tableEntry t (addr % 256)).toNat
  let c : Int := e / 65536
  let n : Int := e % 65536
  match addr / 256 % 4 with
  | 0 => (c, n)
  | 1 => (-n, c)
  | 2 => (-c, -n)
  | _ => (n, -c)

end State

end Sys2Proof.Machine
end

