-- ==== Sys2Proof/Machine/AuxAxes.lean ====
section
/-! DEFINITION. The auxiliary stepper axes (R210 to R240): current measurement, the hysteresis chopper and voltage mode, the
auxiliary segment, stall detection, states and faults, limit switches, homing. -/

namespace Sys2Proof.Machine

namespace State

/-! ## Switches and small readings -/

/-- A switch is active: its latched active level, or CHATTER (R232, R233). -/
def switchActive (s : State) (i : Nat) : Bool := s.switches.latched.getLsbD i || s.switches.chatter.getLsbD i

/-- The low and high limit switches of an axis are active. -/
def limLo (s : State) (a : AuxNo) : Bool := decide (s.aNoun a 0x18 ≠ 0xFF) && s.switchActive (s.aNounN a 0x18)
def limHi (s : State) (a : AuxNo) : Bool := decide (s.aNoun a 0x19 ≠ 0xFF) && s.switchActive (s.aNounN a 0x19)

/-- σ (R215). -/
def sigma (s : State) (a : AuxNo) : Int := if s.aNoun a 0x03 = 0 then 1 else -1

/-- The axis drives its windings: in RUN, STANDSTILL or HOMING with its latch clear. -/
def auxOn (s : State) (a : AuxNo) : Bool :=
  let x := s.auxs[a]
  (x.state == .run || x.state == .standstill || x.state == .homing) && !x.latch

/-- Current level I of an axis in mA, with the enable ramp (R218, R228). -/
def level (s : State) (a : AuxNo) : Int :=
  let x := s.auxs[a]
  let run := s.aNoun a 0x10 * 10
  let full := match x.state with
    | .run => run
    | .standstill => openDiv (s.aNoun a 0x11 * run) 100
    | .homing => openDiv ((match x.home with
        | some h => h.current
        | none => s.aNoun a 0x20) * run) 100
    | _ => 0
  if x.ramp < 800 then openDiv (full * x.ramp) 800 else full

def wind (x : AuxAxis) : Winding → WindingSt
  | .a => x.wa
  | .b => x.wb

def modWind (s : State) (a : AuxNo) (w : Winding) (f : WindingSt → WindingSt) : State :=
  match w with
  | .a => s.modAux a fun x => { x with wa := f x.wa }
  | .b => s.modAux a fun x => { x with wb := f x.wb }

end State

/-! ## The bridge (R210, R220) -/

/-- Sign of the winding voltage of a bridge state. -/
def Bridge.dir : Bridge → Int
  | .drivePlus => 1
  | .driveMinus => -1
  | _ => 0

/-- DRIVE in a direction. -/
def driveOf (sgn : Int) : Bridge := if sgn < 0 then .driveMinus else .drivePlus

/-- Count the bridge time up to a clock. -/
def countBridge (w : WindingSt) (t : Int) : WindingSt :=
  { w with driveTime := w.driveTime + w.bridge.dir * (t - w.since), since := t }

/-- Put a bridge state in force at a clock. -/
def putBridge (w : WindingSt) (t : Int) (b : Bridge) : WindingSt :=
  let v := countBridge w t
  { v with bridge := b, heldBridge := none, changed := t,
           driven := if b = driveOf (signI w.active) then t else w.driven }

/-- Ask for a bridge state: held back during the blanking of the present one, and DRIVE until the spacing has passed
(R220). Times are CD12 clocks of 50 ns. -/
def askBridge (w : WindingSt) (t blank spacing : Int) (b : Bridge) : WindingSt :=
  if b = w.bridge then { w with heldBridge := none }
  else if t - w.changed < blank then { w with heldBridge := some b }
  else if b = driveOf (signI w.active) ∧ t - w.driven < spacing then { w with heldBridge := some b }
  else putBridge w t b

namespace State

/-- CD12 clock of an event. -/
def cd12At (s : State) (k : Nat) : Int := 250 * (s.time.now : Int) + k

def blankClk (s : State) (a : AuxNo) : Int := 2 * s.aNoun a 0x08
def spacingClk (s : State) (a : AuxNo) : Int := ceilDiv 20000 (s.aNoun a 0x0C)

/-- The decay state of a winding in the present sample (R220). -/
def decayOf (s : State) (a : AuxNo) (w : WindingSt) : Bridge :=
  let fast := s.aNoun a 0x09 == 1 || (s.aNoun a 0x09 == 2 && w.fast)
  if fast then driveOf (-(signI w.active)) else .slow

/-- A set-point becomes active at a sample instant: the bridge of the winding follows (R219, R220, R222). -/
def beginSpan (s : State) (a : AuxNo) (w : WindingSt) : WindingSt :=
  let t := s.cd12At 0
  let v := countBridge w t
  let mean := if w.count = 0 then w.mean else openDiv w.sum (2048 * w.count)
  let volt := s.aNoun a 0x00 == 1
  let span := if volt then openDiv ((2 * (w.dutyNow : Int) - 65536) * 250 * (s.gNoun ((s.groupOfAux a).getD 0) 0x02)) 65536
    else v.driveTime
  let z : WindingSt := { v with
    spanned := w.active
    active := w.formed
    fast := decide (absI w.formed < absI w.active)
    driveTime := 0
    spanTime := span
    sum := 0
    count := 0
    mean := mean
    meanPrev := w.mean
    dutyNow := w.duty }
  if !s.auxOn a || volt then z
  else
    let ask := askBridge z t (s.blankClk a) (s.spacingClk a)
    if z.active = 0 then ask .slow
    else if signI z.active ≠ signI w.active then ask (driveOf (signI z.active))
    else if z.bridge = driveOf (signI z.active) then z
    else ask (s.decayOf a z)

/-- HYSTERESIS_CROSSING (R220): a band comparator output changes, taken in the direction of the active set-point. -/
def execHysteresisCrossing (a : AuxNo) (w : Winding) (upper rising : Bool) (cd12 : Nat) (s : State) : Out :=
  let v := wind s.auxs[a] w
  let ask := fun (b : Bridge) =>
    s.modWind a w fun z => askBridge z (s.cd12At cd12) (s.blankClk a) (s.spacingClk a) b
  .next (
    if !s.auxOn a || s.aNoun a 0x00 == 1 || v.active == 0 then s
    else if upper && rising then ask (s.decayOf a v)
    else if !upper && !rising then ask (driveOf (signI v.active))
    else s)

/-- HYSTERESIS_HOLD_EXPIRY (R220): a blanking or the drive spacing has passed, and the change held back is made. -/
def execHysteresisHoldExpiry (a : AuxNo) (w : Winding) (cd12 : Nat) (s : State) : Out :=
  .next (
    match (wind s.auxs[a] w).heldBridge with
    | some b => if s.auxOn a then
        s.modWind a w fun z => askBridge z (s.cd12At cd12) (s.blankClk a) (s.spacingClk a) b
      else s
    | none => s)

/-! ## Faults (R229) -/

/-- All eight outputs low. -/
def bridgesOff (s : State) (a : AuxNo) : State :=
  let off := fun (w : WindingSt) => putBridge w (s.cd12At 0) .off
  s.modAux a fun x => { x with wa := off x.wa, wb := off x.wb }

/-- Codes of REASON (R240): 1 OVERCURRENT, 2 SENSE-LOST, 3 OPEN-COIL, 4 STALL. The latch sets and is logged. -/
def setAuxLatch (s : State) (a : AuxNo) (why : Fin 5) : State :=
  if (s.auxs[a]).latch then s
  else (s.modAux a fun x => { x with latch := true, reason := why }).logEvent sevDetected 0x0702 (objAux a) why.val
    (s.axisSample (.aux a))

/-- SAR_CONVERSION (R213, R229). -/
def execSarConversion (a : AuxNo) (w : Winding) (code : BitVec 12) (s : State) : Out :=
  let off := s.aNoun a (match w with
    | .a => 0x05
    | .b => 0x06)
  let c : Int := code.toNat
  let rail := decide (c = 0 ∨ c = 4095)
  let s1 := s.modWind a w fun z => { z with
    sum := z.sum + (c - 2048 - off) * s.aNoun a 0x04
    count := z.count + 1
    rail := if rail then z.rail + 1 else 0 }
  .next (if 8 ≤ (wind s1.auxs[a] w).rail ∧ s.auxOn a = true then s1.setAuxLatch a 2 else s1)

/-- AUX_OVERCURRENT (R229): the trip window comparator has reported too high a current for 0.5 µs. -/
def execAuxOvercurrent (a : AuxNo) (s : State) : Out :=
  .next (if s.auxOn a then (s.setAuxLatch a 1).bridgesOff a else s)

/-- OPEN_COIL (R229): 64 samples of a winding that carries no current. -/
def execOpenCoil (a : AuxNo) (s : State) : Out :=
  let x := s.auxs[a]
  .next (if s.auxOn a = true ∧ (64 ≤ x.wa.openCount ∨ 64 ≤ x.wb.openCount) then s.setAuxLatch a 3 else s)

/-! ## Homing (R235 to R237) -/

/-- The generator halts at its limits. -/
def haltAux (s : State) (a : AuxNo) : State := s.putTarget (.aux a) .halt 0

/-- The reference of the present sample (R235). -/
def referenceNow (s : State) (a : AuxNo) : Int :=
  let x := s.auxs[a]
  x.posAt - s.sigma a * roundDiv (x.lraw * 1024) 4294967296

/-- The rebase (R235): every position of the axis is shifted, the table address stays. -/
def rebase (s : State) (a : AuxNo) (value : Int) : State :=
  match (s.auxs[a]).reference with
  | none => s
  | some r =>
    let Δ := value - r
    (s.modAux a fun x => { x with
      atph := BitVec.ofInt 10 (x.atph.toNat - s.sigma a * Δ)
      posAt := x.posAt + Δ
      reference := none
      homed := true }).modGen (.aux a) fun o => { o with pos := o.pos + Δ * 4294967296, target := o.target + Δ }

/-- Homing ends and the axis returns to RUN in kind POSITION at its rest position. -/
def endHome (s : State) (a : AuxNo) (status : Nat) : State :=
  match (s.auxs[a]).home with
  | none => s
  | some h =>
    ((s.finish h.ticket status).modAux a fun x => { x with
      state := if x.state = .homing then .run else x.state
      home := none
      hstep := .none
      reference := none
      homeEnd := none
      settleDue := false
      holdDue := false }).modGen (.aux a) restHere

/-- Output at rest. -/
def restAux (s : State) (a : AuxNo) : Bool :=
  let o := (s.auxs[a]).gen
  o.speed == 0 && o.acc == 0 && o.kind != .halt

/-- The homing steps at a commit point. -/
def homingStep (s : State) (a : AuxNo) : State :=
  let x := s.auxs[a]
  match x.home with
  | none => s
  | some h =>
    let near := if h.high then s.limHi a else s.limLo a
    let far := if h.high then s.limLo a else s.limHi a
    let names := decide (h.secondary = if h.high then 2 else 1)
    match x.hstep with
    | .seek =>
      if near && x.homeEnd.isNone then
        let r := if names then some (s.referenceNow a) else none
        (s.modAux a fun v => { v with
          reference := r
          homeEnd := some (if names then stHomedAtSwitch else stHomingAborted) }).haltAux a
      else if !s.restAux a then s
      else match x.homeEnd with
        | some st => (if st = stHomedAtSwitch then s.rebase a h.switchValue else s).endHome a st
        | none =>
          if x.reference.isSome then s.modAux a fun v => { v with hstep := .settle }
          else if x.gen.atTarget then s.endHome a stHomingFailed
          else s
    | .settle =>
      if near || far then (s.rebase a h.homeValue).endHome a stHomingAborted
      else if x.homeEnd.isSome then s.endHome a (x.homeEnd.getD stHomingAborted)
      else if x.settleDue then
        let s1 := s.rebase a h.homeValue
        if h.backoff = 0 then s1.endHome a stDone
        else
          let p := if h.high then h.homeValue - h.backoff else h.homeValue + h.backoff
          (s1.putTarget (.aux a) .position p).modAux a fun v => { v with hstep := .backoff, settleDue := false }
      else s
    | .backoff =>
      if (near || far) && x.homeEnd.isNone then
        (s.modAux a fun v => { v with homeEnd := some stHomingAborted }).haltAux a
      else if !s.restAux a then s
      else match x.homeEnd with
        | some st => s.endHome a st
        | none => if x.gen.atTarget then s.endHome a stDone else s
    | .none => s

/-- SETTLE_TIME_EXPIRY (R235). -/
def execSettleTimeExpiry (a : AuxNo) (s : State) : Out :=
  .next (if (s.auxs[a]).hstep = .settle then s.modAux a fun x => { x with settleDue := true } else s)

/-- HOLD_DELAY_EXPIRY (R227): the output has been at rest for the hold delay. -/
def execHoldDelayExpiry (a : AuxNo) (s : State) : Out :=
  let x := s.auxs[a]
  .next (if x.state = .run ∧ x.gen.speed = 0 ∧ x.gen.acc = 0 then s.modAux a fun x => { x with holdDue := true } else s)

/-- STALL_DETECTED (R225, R226, R235, R237): the stall counter has reached its limit. -/
def execStallDetected (a : AuxNo) (s : State) : Out :=
  let x := s.auxs[a]
  let n := match s.groupOfAux a with
    | some g => (s.groups[g]).sample.toNat
    | none => 0
  .next (
    if (x.stallCount : Int) < s.aNoun a 0x15 ∨ x.stallCount = 0 then s
    else
      let s1 := s.modAux a fun v => { v with stallCount := 0 }
      if x.hstep = .seek then
        if x.homeEnd.isSome ∨ x.reference.isSome then s1
        else (s1.modAux a fun v => { v with reference := some (s.referenceNow a) }).haltAux a
      else
        let s2 := (s1.modAux a fun v => { v with stall := true, homed := false }).logEvent sevWarn 0x0701 (objAux a) x.lam n
        if x.hstep = .settle then
          ((s2.rebase a ((x.home.map (·.homeValue)).getD 0)).modAux a fun v => { v with homed := false }).endHome a
            stHomingAborted
        else if x.hstep = .backoff then
          (s2.modAux a fun v => { v with homeEnd := some stHomingAborted }).haltAux a
        else if s.aNoun a 0x17 = 1 then
          match s.groupOfAux a with
          | some g => s2.modGroup g fun q => { q with orders := q.orders ++ [(none, .internalHalt (.aux a))] }
          | none => s2
        else if s.aNoun a 0x17 = 2 then s2.modAux a fun v => { v with stallStop := true, reason := 4 }
        else s2)

/-! ## The segment (R215, R216, R221 to R225) -/

/-- What a pass forms for one winding: the set-point, the voltage, the applied and the induced voltage. -/
structure WindRun where
  set : Int
  v : Int
  vapp : Int
  e : Int
deriving DecidableEq, Repr

/-- One winding of the segment. -/
def windRun (rd : Nat → Word) (off : Nat) (w : WindingSt) (set ahead om vdc ticks : Int) : WindRun :=
  let vapp := openDiv (vdc * w.spanTime) (250 * ticks)
  { set
    v := (evalRow (readRow rd (off + 1) 4) [set, set - w.formed, roundDiv (om * ahead) 65535, w.mean - w.spanned]).1
    vapp
    e := (evalRow (readRow rd (off + 6) 3) [vapp, w.mean, w.mean - w.meanPrev]).1 }

/-- The offset after a committed sample, and whether the clamp acted (R221). -/
def nextOffset (w : WindingSt) (set limit : Int) : Int × Bool :=
  if set = 0 ∨ signI set ≠ signI w.formed then (0, false)
  else
    let o := w.offset + roundDiv (absI w.spanned - signI w.spanned * w.mean) 2
    (clampI (-limit) limit o, decide (o < -limit ∨ limit < o))

/-- The duty of leg 1 for a voltage, and whether it was clamped (R222). -/
def legDuty (v vdc : Int) : Nat × Bool :=
  if vdc < 1000 then (32768, true)
  else
    let lim := truncDiv (96 * vdc) 100
    let u := clampI (-lim) lim v
    ((clampI 0 65536 (32768 + roundDiv (u * 32768) vdc)).toNat, decide (u ≠ v))

/-- What a winding keeps of a committed pass. -/
def windNext (w : WindingSt) (r : WindRun) (limit runCur vdc : Int) (volt : Bool) : WindingSt × Bool × Bool :=
  let o := nextOffset w r.set limit
  let d := legDuty r.v vdc
  let loaded := decide (runCur ≤ 4 * absI w.spanned)
  let low := loaded && decide (10 * absI w.mean < absI w.spanned)
  ({ w with
      formed := r.set
      offset := if volt then 0 else o.1
      volts := r.v
      duty := d.1
      openCount := if low then w.openCount + 1 else if loaded then 0 else w.openCount }, volt && d.2, !volt && o.2)

/-- A committed pass of one auxiliary axis whose block lies at `off` of the active region. -/
def commitAuxPass (s : State) (g : Grp) (a : AuxNo) (off : Nat) : State :=
  let x := s.auxs[a]
  if !s.auxOn a then s
  else
    let rd := s.activeRegion g
    let t := s.aNounN a 0x02
    let σ := s.sigma a
    let pos := s.wholePos (.aux a)
    let addr := ((σ * pos + x.atph.toNat) % 1024).toNat
    let f := s.folded t addr
    let q := s.folded t ((addr + 256) % 1024)
    let lev := s.level a
    let om := roundR ((σ : Rat) * x.gen.speed * 25 / 256)
    let vdc := s.vdc g (s.linkOfAux a)
    let n := s.gNoun g 0x02
    let set := fun (v : Int) => roundDiv (lev * v) 65535
    let ra := windRun rd off x.wa (set f.1) q.1 om vdc n
    let rb := windRun rd off x.wb (set f.2) q.2 om vdc n
    let e2 := ra.e * ra.e + rb.e * rb.e
    let lraw := if e2 < 1 then 0 else wrap32 (Config.angleOf ra.e rb.e - Config.angleOf q.1 q.2)
    let lam := (evalRow (readRow rd (off + 10) 2) [x.lam, lraw]).1
    let em := (evalRow (readRow rd (off + 13) 1) [absI om]).1
    let fastEnough := decide (s.aNoun a 0x14 ≤ absI om)
    let weak := decide (0 < em ∧ e2 * 10000 < (s.aNoun a 0x16 * em) * (s.aNoun a 0x16 * em))
    let stalled := decide (s.aNoun a 0x13 * 4294967296 ≤ absI lam * 360) || weak
    let counts := fastEnough && stalled && x.state != .standstill && decide (800 ≤ x.ramp)
    let limit := truncDiv (s.aNoun a 0x0B * s.aNoun a 0x0A * lev) 10000
    let volt := s.aNoun a 0x00 == 1
    let wa := windNext x.wa ra limit (s.aNoun a 0x10 * 10) vdc volt
    let wb := windNext x.wb rb limit (s.aNoun a 0x10 * 10) vdc volt
    let p : Rat := ((ra.vapp * x.wa.mean + rb.vapp * x.wb.mean) * s.tsNs g * ((s.groups[g]).owed + 1) : Int) / 1000000000000
    let en := addPair x.eIn x.eOut p
    s.modAux a fun v => { v with
      posAt := pos
      lraw := lraw
      lam := lam
      stallCount := if counts then v.stallCount + 1 else 0
      vlim := wa.2.1 || wb.2.1
      ofsLim := wa.2.2 || wb.2.2
      wa := wa.1
      wb := wb.1
      ramp := minI 800 (v.ramp + n) |>.toNat
      eIn := en.1
      eOut := en.2 }

/-! ## States (R227, R232) -/

/-- The axis leaves its running states with all outputs low. -/
def leaveAux (s : State) (a : AuxNo) (st : AState) : State :=
  let s1 := (s.endHome a stHomingAborted).bridgesOff a
  let s2 := s1.modAux a fun x => { x with state := st, holdDue := false, stallStop := false, stallCount := 0 }
  if st = .off then
    (s2.finishOpt (s2.auxs[a]).stopTicket stDone).modAux a fun x => { x with stopTicket := none }
  else (s2.finishOpt (s2.auxs[a]).startTicket stStartFailed).modAux a fun x => { x with startTicket := none }

/-- What an enable starts afresh (R218, R221, R224). -/
def freshWind (w : WindingSt) : WindingSt :=
  { w with
    offset := 0
    formed := 0
    active := 0
    spanned := 0
    mean := 0
    meanPrev := 0
    openCount := 0
    rail := 0
    duty := 32768
    dutyNow := 32768 }

/-- The transition of an auxiliary axis at a commit point (R227). -/
def auxTransition (s : State) (a : AuxNo) : State :=
  let x := s.auxs[a]
  let still := x.gen.speed == 0 && x.gen.acc == 0
  let up := x.state == .run || x.state == .standstill || x.state == .homing
  if s.stoActive (.aux a) then (if x.state = .off then s else s.leaveAux a .off)
  else if !x.enabled && x.state != .off && x.state != .stoppedFault then s.leaveAux a .off
  else if up && (x.latch || x.stallStop) then s.leaveAux a .stoppedFault
  else match x.state with
    | .off => if x.enabled then
        s.modAux a fun v => { v with
          state := .run
          ramp := 0
          lam := 0
          stallCount := 0
          wa := freshWind v.wa
          wb := freshWind v.wb }
      else s
    | .run => if x.holdDue && still then s.modAux a fun v => { v with state := .standstill, holdDue := false } else s
    | .standstill => if still then s else s.modAux a fun v => { v with state := .run }
    | .homing => s
    | .stoppedFault => if x.enabled && x.reason == 0 then s.modAux a fun v => { v with state := .off } else s

/-- The ENABLE of an auxiliary axis commits in RUN (R380). -/
def commitAuxEnable (s : State) (a : AuxNo) : State :=
  let x := s.auxs[a]
  if x.state = .run ∧ x.enabled = true then
    (s.finishOpt x.startTicket stDone).modAux a fun v => { v with startTicket := none }
  else s

/-- An active limit switch on the side towards which the output moves halts the generator at the next step (R232). -/
def checkLimits (s : State) (g : Grp) (a : AuxNo) : State :=
  let o := (s.auxs[a]).gen
  let lo := decide (o.speed < 0) && s.limLo a
  let hi := decide (0 < o.speed) && s.limHi a
  if (lo || hi) && (s.auxs[a]).state != .homing && o.kind != .halt && o.stepping then
    let sw := if lo then s.aNoun a 0x18 else s.aNoun a 0x19
    let s1 := s.logEvent sevInfo 0x0703 (objAux a) sw (s.groups[g]).sample.toNat (o.ticket.getD 0)
    if o.kind = .follow then s1.endFollow g a 1 stAborted
    else s1.modGroup g fun q => { q with orders := q.orders ++ [(none, .internalHalt (.aux a))] }
  else s

/-- Everything a commit point does to one auxiliary axis. -/
def commitAux (s : State) (g : Grp) (a : AuxNo) (off : Nat) : State :=
  ((((s.commitAuxPass g a off).auxTransition a).homingStep a).commitAuxEnable a).checkLimits g a

/-- Every auxiliary axis of a group, in rising order. -/
def commitAuxs (s : State) (g : Grp) : State :=
  let base := (s.programme g (s.groups[g]).bank1).auxOff
  (s.auxsOf g).zipIdx.foldl (fun z (p : AuxNo × Nat) => z.commitAux g p.1 (base + 16 * p.2)) s

end State

end Sys2Proof.Machine
end

