-- ==== Sys2Proof/Machine/Masking.lean ====
section
/-! DEFINITION. Emergency modes (R328 to R330), engine localisation, simplex and the loss of compute (R314 to R319). -/

namespace Sys2Proof.Machine

namespace State

/-! ## Changes that became visible (R134, R377) -/

/-- Words of a WRITE handed over so far. -/
def handedOf (s : State) (t : Nat) : Nat :=
  match s.ticket? t with
  | some k => k.handed
  | none => 0

/-- The reply payload that tells how many words were handed over (R134, R378). -/
def handedWords (s : State) (t : Nat) : List Word := [BitVec.ofNat 32 (s.handedOf t)]

/-- The tickets of the changes that the sample saw complete; a WRITE tells its words (R134, R377). -/
def finishSeen (s : State) (g : Grp) : State :=
  (s.groups[g]).visible.foldl (fun (z : State) t => z.finish t stDone
    (match z.inFlight? t with
      | some k => if k.sent.verb = 3 then z.handedWords t else []
      | none => [])) s

/-! ## Emergency modes (R328, R329) -/

/-- Every generator of a group is at rest. -/
def gensAtRest (s : State) (g : Grp) : Bool :=
  (s.gensOf g).all fun x =>
    let o := s.gen x
    (o.speed == 0 && o.acc == 0 && o.curRate == 0) || !o.stepping

/-- The ticket an order carries. -/
def orderTicket : MotionOrder → Option Nat
  | .move t _ _ _ _ => some t
  | .path t _ _ _ _ => some t
  | .halt t _ => some t
  | .haltGroup t _ => some t
  | .follow t _ _ => some t
  | .home t _ _ => some t
  | .internalHalt _ => none

/-- Every open motion ticket of a group, and every motion sentence latched for one of its steps, completes with a status. -/
def endMotionTickets (s : State) (g : Grp) (status : Nat) : State :=
  let s1 := (s.gensOf g).foldl (fun z x => z.dropTicket x status) s
  let s2 := (s1.auxsOf g).foldl (fun (z : State) a => match (z.auxs[a]).home with
    | some h => (z.finish h.ticket status).modAux a fun x => { x with homeEnd := some stHomingAborted }
    | none => z) s1
  let s3 := (s2.groups[g]).orders.foldl (fun (z : State) o => z.finishOpt (orderTicket o.2) status) s2
  let s4 := (s3.finishOpt (s3.groups[g]).haltTicket status).haltPath g status
  s4.modGroup g fun q => { q with orders := [], haltTicket := none }

/-- The STO groups that hold axes of a group (R329). -/
def stosOf (s : State) (g : Grp) : List StoNo := (fins 4).filter fun i => (s.gensOf g).any fun x => s.stoOf x == some i

/-- An STO group also holds axes of another control group that is neither stopped nor in its emergency mode (R329). -/
def stoShared (s : State) (g : Grp) (i : StoNo) : Bool :=
  (fins 8).any fun k => k != g && s.runs k && !(s.groups[k]).eactive && (s.gensOf k).any fun x => s.stoOf x == some i

/-- The STO groups whose brakes and torque request the emergency mode SS1 of a group commands. -/
def ownStos (s : State) (g : Grp) : List StoNo := (s.stosOf g).filter fun i => !s.stoShared g i

/-- A torque request bit is cleared. -/
def clearTorque (s : State) (i : StoNo) : State :=
  s.modReq fun r => { r with torque := r.torque &&& ~~~(1#4 <<< i.val) }

/-- The release requests of a brake are cleared. -/
def clearReleases (s : State) (b : Fin 4) : State :=
  eachFin 12 (fun z m => if z.brakeOf m = some b then z.modComm m fun c => { c with release := false } else z) s

/-- SS1: the stop is over; the brakes are asked to apply, and in a shared STO group the failing group's axes are disabled
instead (R328, R329). -/
def emergencyBrakes (s : State) (g : Grp) : State :=
  let own := s.ownStos g
  let brakes := (fins 4).filter fun b => own.any fun i => bitAt (s.stoBrakes i) b.val
  let s1 := brakes.foldl clearReleases s
  let shared := fun (x : GenId) => match s.stoOf x with
    | some i => s.stoShared g i
    | none => false
  let s2 := (s1.gensOf g).foldl (fun (z : State) x => if shared x then (match x with
    | .main m => z.disableMain m stStartFailed
    | .aux a => z.disableAux a stStartFailed) else z) s1
  s2.modGroup g fun q => { q with ephase := 1 }

/-- SS1: the torque requests are cleared (R328). -/
def emergencyTorqueOff (s : State) (g : Grp) : State :=
  ((s.ownStos g).foldl clearTorque s).modGroup g fun q => { q with ephase := 2 }

/-- Every brake of an STO group is reported applied, as last read. -/
def brakesSeen (s : State) (i : StoNo) : Bool :=
  (fins 4).all fun b => !bitAt (s.stoBrakes i) b.val || s.requests.seen.applied.getLsbD b.val

/-- The progress of an emergency mode that needs no timer. -/
def emergencyWatch (s : State) (g : Grp) : State :=
  let q := s.groups[g]
  if !q.eactive then s
  else if q.ephase = 0 then
    if s.gensAtRest g then (if q.emode = 1 then s.emergencyBrakes g else s.modGroup g fun q => { q with ephase := 1 })
    else s
  else if q.ephase = 1 ∧ q.emode = 1 ∧ (s.ownStos g).all s.brakesSeen = true then s.emergencyTorqueOff g
  else s

/-- Entry to the emergency mode at a commit point (R328). A second cause changes nothing but the event log. -/
def enterEmergency (s : State) (g : Grp) (cause : Nat) : State :=
  let q := s.groups[g]
  let s1 := s.logEvent sevDetected 0x0A30 (objGroup g) cause q.sample.toNat
  if q.eactive then s1
  else
    let want := s.gNounN g 0x30
    let mode := if want = 2 ∧ !(q.yield.tValid && s.drumOk g) then 0 else want
    ((s1.endMotionTickets g stAborted).modGroup g fun z => { z with
      eactive := true
      ecause := cause
      emode := mode
      ephase := 0 }).haltAll g

/-- A due entry is made at a commit point. -/
def takeEmergency (s : State) (g : Grp) : State :=
  match (s.groups[g]).edue with
  | some c => (s.modGroup g fun q => { q with edue := none }).enterEmergency g c
  | none => s

/-- A detected fault of a group asks for its emergency mode. -/
def askEmergency (s : State) (g : Grp) (cause : Nat) : State :=
  if s.runs g then s.modGroup g fun q => { q with edue := some (q.edue.getD cause) } else s

/-- EMERGENCY_SS1_TIME_ELAPSED (R328). -/
def execEmergencySs1TimeElapsed (g : Grp) (s : State) : Out :=
  let q := s.groups[g]
  .next (if q.eactive = true ∧ q.emode = 1 ∧ q.ephase = 0 then s.emergencyBrakes g else s)

/-- EMERGENCY_BRAKE_WAIT_EXPIRY (R328): the engage time plus 50 ms has passed. -/
def execEmergencyBrakeWaitExpiry (g : Grp) (s : State) : Out :=
  let q := s.groups[g]
  .next (if q.eactive = true ∧ q.emode = 1 ∧ q.ephase = 1 then s.emergencyTorqueOff g else s)

/-! ## Stopping a group (R23) -/

/-- A main axis of a group that is disabled and at rest. -/
def mainDone (s : State) (m : Main) : Bool :=
  let a := s.mains[m]
  !a.enabled && (a.comm.state == .off || a.comm.state == .stoppedFault)

def auxDone (s : State) (a : AuxNo) : Bool :=
  let x := s.auxs[a]
  !x.enabled && (x.state == .off || x.state == .stoppedFault)

/-- The group stops: its yield state goes OFF (R163), its motion ends, and a home part has STOP to send (R443). -/
def stopGroup (s : State) (g : Grp) : State :=
  let s0 := s.finishSeen g
  let s1 := (s0.finishOpt ((s0.groups[g]).swapNow.map (·.1)) stDone).endMotionTickets g stAborted
  let s2 := (s1.mainsOf g).foldl (fun (z : State) m =>
    (((z.finishOpt ((z.mains[m]).eng.handover.map (·.ticket)) stHandoverAborted).gatesOff m).modEng m fun e =>
      { e with handover := none })) s1
  s2.modGroup g fun q => { q with
    running := false
    phase := .none
    stale := q.stale || q.phase == .passing || q.phase == .retrying
    path := none
    swapNow := none
    visible := []
    yield := { q.yield with state := .off }
    span := { q.span with stop := s2.homePart g, startAt := none } }

/-- A running group with no axis left enabled or on its way to rest stops (R23; DEDUCED, log entry 26). A remote part runs
while its home part runs (R439). -/
def checkStop (s : State) (g : Grp) : State :=
  let held := (s.groups[g]).span.remoteRuns && s.remotePart g
  if s.runs g && !held && (s.mainsOf g).all s.mainDone && (s.auxsOf g).all s.auxDone then s.stopGroup g else s

/-! ## Loss of compute (R319) -/

/-- Compute is lost. What follows begins at the next sample instant. -/
def computeLost (s : State) : State :=
  if s.engines.mode = .lost then s
  else ({ s with engines := { s.engines with mode := .lost, cluster := false, regionCheck := false } }).logEvent
    sevDetected 0x0A04 0x7000

/-- At a sample instant after compute was lost, a group's axes are disabled: a WINCH axis with a brake keeps its torque until its
brake is reported applied, the others set their gates off; no brake release is requested (R319). -/
def loseGroup (s : State) (g : Grp) : State :=
  let s1 := s.endMotionTickets g stAborted
  let s2 := (s1.mainsOf g).foldl (fun (z : State) m =>
    let keep := z.winchBrake m && (z.mains[m]).drive.gates
    let z1 := (z.disableMain m stStartFailed).setRelease m false
    if keep then z1.modComm m fun c => { c with braking := some (c.braking.getD (.off, .none)) }
    else if (z1.mains[m]).comm.state = .stoppedFault then z1.gatesOff m
    else z1.enterRest m .off .none) s1
  let s3 := (s2.auxsOf g).foldl (fun z a => (z.disableAux a stStartFailed).leaveAux a .off) s2
  s3.checkStop g

/-- The torque request of an STO group whose brakes are reported applied is cleared (R319). -/
def loseTorque (s : State) : State := eachFin 4 (fun z i => if z.brakesSeen i then z.clearTorque i else z) s

/-- COMPUTE_LOST_BRAKE_WINDOW_EXPIRY (R319): 250 ms. -/
def execComputeLostBrakeWindowExpiry (s : State) : Out :=
  .next (
    if s.engines.mode = .lost then
      let s1 := eachFin 4 clearTorque s
      eachFin 8 (fun (z : State) g => if z.runs g then
        ((z.mainsOf g).foldl (fun (w : State) m =>
          if (w.mains[m]).comm.state = .off ∨ (w.mains[m]).comm.state = .stoppedFault then w.gatesOff m
          else w.enterRest m .off .none) z).stopGroup g else z) s1
    else s)

/-! ## Localisation (R315, R318) -/

/-- An engine is retired, and the other runs in simplex (R315). -/
def retire (s : State) (e : EngineId) : State :=
  let k : Int := match e with
    | .a => 0
    | .b => 1
  ({ s with engines := { s.engines with
      mode := match e with
        | .a => .simplexB
        | .b => .simplexA
      transients := [], cluster := false } }).logEvent sevExposure 0x0A02 0x7000 k

/-- What the named fields of TST_ENG say while ARM is set: group, mode, engine (R502). -/
def engInjection (s : State) (g : Grp) : Option (Nat × EngineId) :=
  let w := s.test.eng.toNat
  if bitAt w 31 && decide (bitsOf w 24 3 = g.val) then
    some (bitsOf w 16 2, if bitAt w 8 then .b else .a)
  else none

/-- The engine an injection names is in service. -/
def serves (s : State) (e : EngineId) : Bool :=
  match s.engines.mode, e with
  | .lockstep, _ => true
  | .simplexA, .a => true
  | .simplexB, .b => true
  | _, _ => false

/-- ARM of TST_ENG clears. -/
def disarmEng (s : State) : State := s.modTest fun t => { t with eng := t.eng &&& 0x7FFFFFFF#32 }

/-- CHECK_SET_DONE (R315, R318). A PERSISTENT injection fails the check set of the engine it names (R502). -/
def execCheckSetDone (passA passB : Bool) (s : State) : Out :=
  .next (
    match s.engines.busy with
    | .checkSet cause =>
      let inj := match cause with
        | some g => match s.engInjection g with
          | some (1, e) => some e
          | _ => none
        | none => none
      let a := passA && inj != some .a
      let b := passB && inj != some .b
      let s1 : State := { s with engines := { s.engines with busy := .idle, cluster := false } }
      let s2 := if inj.isSome then s1.disarmEng else s1
      let s3 := match a, b with
        | true, false => s2.retire .b
        | false, true => s2.retire .a
        | false, false => s2.computeLost
        | true, true => match cause with
          | none => s2.logEvent sevWarn 0x0A05 0x7000 s2.engines.transients.length
          | some _ =>
            ({ s2 with engines := { s2.engines with mode := .simplexA, regionCheck := true } }).logEvent
              sevExposure 0x0A03 0x7000 1
      s3.startSegment
    | _ => s)

/-- CLUSTER_CHECK_SET_START (R318): an idle span long enough for the check set. -/
def execClusterCheckSetStart (s : State) : Out :=
  .next (
    if s.engines.cluster && s.engines.busy == .idle && s.engines.mode == .lockstep then
      { s with engines := { s.engines with busy := .checkSet none } }
    else s)

/-- REGION_CRC_CHECK_DONE (R315): after ENGINE-UNLOCALISED the active region of every running group in MARVER-A is checked
against its region CRC. -/
def execRegionCrcCheckDone (s : State) : Out :=
  .next (
    if s.engines.regionCheck then
      let s1 : State := { s with engines := { s.engines with regionCheck := false } }
      eachFin 8 (fun (z : State) g =>
        let rd := z.activeRegion g
        let len := (rd 1).toNat
        if z.runs g && decide (z.gNounN g 0x09 < len ∨ programmeCrc rd len ≠ (rd 2).toNat) then z.askEmergency g 1
        else z) s1
    else s)

/-! ## Coefficient words (R314, R325) -/

/-- Words copied from one engine's store to the other's (R314). -/
def copyWords (s : State) (toA : Bool) (addrs : List (Fin 16384)) : State :=
  addrs.foldl (fun (z : State) k =>
    let e := z.engines
    let z1 : State := { z with engines :=
      if toA then { e with storeA := sput 0 e.storeA k.val (sget 0 e.storeB k.val) }
      else { e with storeB := sput 0 e.storeB k.val (sget 0 e.storeA k.val) } }
    z1.logEvent sevMasked 0x0A06 0x7000 k.val) s

/-- Words that no engine can read: they read as zero, and the group enters its emergency mode with cause COEF-LOST. -/
def loseWords (s : State) (g : Grp) (addrs : List (Fin 16384)) : State :=
  let fresh := addrs.filter fun k => !s.engines.lostWords.contains k.val
  if fresh.isEmpty then s
  else
    let s1 := fresh.foldl (fun (z : State) k => ({ z with engines := { z.engines with
      lostWords := k.val :: z.engines.lostWords } }).logEvent sevDetected 0x0A07 (objGroup g) k.val) s
    s1.askEmergency g 2

end State

end Sys2Proof.Machine
end

