-- ==== Sys2Proof/Machine/GroupStart.lean ====
section
/-! DEFINITION. Starting a group (R122, R131, R380): the schedule simulation (R41, R316), the ring bound (R442), the
start rules and what a start sets. -/

namespace Sys2Proof.Machine

/-! ## The schedule simulation (R41, R316)

Times are CD3 cycles of 300 MHz from the start of the present tick; a tick has 3750. -/

/-- A segment of one sample: group, when its filter results are ready, its deadline, the cost of one pass. -/
structure Job where
  g : Nat
  ready : Int
  deadline : Int
  cost : Int
deriving DecidableEq, Repr

/-- What a group brings to the simulation: number, divider, phase, ready time, deadline and cost from the tick. -/
structure Load where
  g : Nat
  n : Nat
  p : Nat
  ready : Int
  deadline : Int
  cost : Int
deriving DecidableEq, Repr

/-- The work carried from one tick to the next: until when the engines are busy, and what waits. -/
structure Carry where
  free : Int
  jobs : List Job
deriving DecidableEq, Repr

/-- Cycles of a frame tick. -/
def tickCycles : Int := 3750

/-- The earlier deadline, the lower group number on a tie (R40). -/
def firstJob (a b : Job) : Job :=
  if b.deadline < a.deadline ∨ (b.deadline = a.deadline ∧ b.g < a.g) then b else a

/-- Run the engines through one tick: every segment is retried, and the check set of the tick stands after its first
retry. None when a deadline is missed. -/
def simTick : Nat → Carry → Bool → Option Carry
  | 0, c, _ => some c
  | k + 1, c, checked =>
    match c.jobs with
    | [] => some c
    | j :: r =>
      let soonest := r.foldl (fun a b => minI a b.ready) j.ready
      let t := maxI c.free soonest
      if tickCycles ≤ t then some c
      else match c.jobs.filter fun x => decide (x.ready ≤ t) with
        | [] => some c
        | x :: rest =>
          let y := rest.foldl firstJob x
          let done := t + 2 * y.cost
          if y.deadline < done then none
          else simTick k { free := if checked then done else done + 24, jobs := c.jobs.erase y } true

/-- Move the origin to the next tick. -/
def nextTick (c : Carry) : Carry :=
  { free := maxI 0 (c.free - tickCycles)
    jobs := c.jobs.map fun j => { j with ready := j.ready - tickCycles, deadline := j.deadline - tickCycles } }

/-- One cycle of the schedule from tick `i` on. -/
def simCycle (ls : List Load) : Nat → Nat → Carry → Option Carry
  | 0, _, c => some c
  | k + 1, i, c =>
    let due := (ls.filter fun l => decide (i % l.n = l.p)).map fun l =>
      { g := l.g, ready := l.ready, deadline := l.deadline, cost := l.cost : Job }
    match simTick 64 { c with jobs := c.jobs ++ due } false with
    | some d => simCycle ls k (i + 1) (nextTick d)
    | none => none

/-- Repeat the cycle until the carried work repeats, at most four times. -/
def simRepeat (ls : List Load) (len : Nat) : Nat → Carry → Bool
  | 0, _ => false
  | k + 1, c =>
    match simCycle ls len 0 c with
    | some d => if d = c then true else simRepeat ls len k d
    | none => false

/-- The schedule fits (R41). -/
def fits (ls : List Load) : Bool :=
  simRepeat ls (ls.foldl (fun a l => Nat.lcm a l.n) 1) 4 { free := 0, jobs := [] }

namespace State

/-- The load of a group under its present nouns (R39). -/
def loadOf (s : State) (g : Grp) : Load :=
  let n := s.gNounN g 0x02
  let ready : Int := 45 * s.gNoun g 0x05
  { g := g.val, n, p := s.gNounN g 0x03, ready
    deadline := ready + minI 3600 (tickCycles * n - ready - 300), cost := s.passCost g }

/-- Groups that run or wait to start. -/
def liveGroups (s : State) : List Grp := (fins 8).filter fun g => (s.groups[g]).running || (s.groups[g]).starting

/-- R28: main axes in groups with n = 1. -/
def fastAxes (s : State) : Nat :=
  ((fins 8).filter fun g => s.gNounN g 0x02 == 1).foldl (fun a g => a + (s.mainsOf g).length) 0

/-- The schedule with a group among the running ones fits (R28, R41, R44). -/
def budgetOk (s : State) (g : Grp) : Bool :=
  let gs := (fins 8).filter fun k => k == g || s.liveGroups.contains k
  decide (s.fastAxes ≤ s.member.counts.fast) && fits (gs.map s.loadOf)

/-! ## Spans (R439, R442) -/

/-- The nouns that R439 compares, and the share sets of a part, as a STATUS packet reports them (log entry 35). -/
def spanSettings (s : State) (g : Grp) : List Int :=
  [0x02, 0x03, 0x04, 0x05, 0x17, 0x30, 0x38, 0x39, 0x3A, 0x3B].map (s.gNoun g) ++
    [((fins 8).map fun k => if (s.mainsOf g).any fun m => s.mNounN m 0x43 == k.val then ((2 ^ k.val : Nat) : Int) else 0).sum]

/-- The programme of a group in its active bank is valid (R121). -/
def programmeOk (s : State) (g : Grp) : Bool := s.bankValid g (s.groups[g]).bank1

/-- What the module reports of its spans (R437). -/
def ownReports (s : State) : List SpanReport :=
  (fins 8).filterMap fun g =>
    match fin? 32 (s.gNounN g 0x38) with
    | none => none
    | some k => if k.val = 0 then none else some {
        span := k
        ready := s.programmeOk g && s.cascade.locked
        settings := s.spanSettings g
        mains := (s.mainsOf g).length }

/-- Ring members at present. -/
def ringSize (s : State) : Nat := s.cascade.order.length

/-- Words of the EXCHANGE packet of a part (R434, R440). -/
def exchangeWords (s : State) (g : Grp) : Nat :=
  if s.homePart g then 4 + s.gNounN g 0x39
  else 4 + 3 * (s.mainsOf g).length +
    ((List.range 8).filter fun k => (s.mainsOf g).any fun m => s.mNounN m 0x43 == k).length

/-- The bound of R442 in ps: one link broken at the worst place, every other packet of the tick queued ahead on each link
(DEDUCED, log entry 36). -/
def ringBudgetOk (s : State) (g : Grp) : Bool :=
  let L : Int := (s.ringSize : Int) - 1
  let own := (fins 8).filter fun k => k != g && s.gNounN k 0x38 != 0
  let far := s.cascade.reports.flatMap fun r => r.2
  let queued : Int := 4 + own.foldl (fun a k => a + (s.exchangeWords k : Int)) 0 +
    far.foldl (fun a r => a + 4 + 4 * (r.mains : Int)) 0
  let A := minI 12000 ((s.tsNs g : Int) - s.tsincNs g - 1000)
  decide (1000 * A + 80000 * (s.exchangeWords g : Int) + 200000 * L + 384000 * (L - 1) + 80000 * queued * L ≤
    1000 * ((s.tsNs g : Int) - 500))

/-- The report of a part module on the span of a group. -/
def reportOf (s : State) (g : Grp) (i : Fin 8) : Option SpanReport :=
  match s.cascade.reports.lookup i with
  | some rs => rs.find? fun r => r.span.val == s.gNounN g 0x38
  | none => none

/-- The main, lead, yield and source conditions of R439 on a home part. -/
def homeConflict (s : State) (g : Grp) : Bool :=
  let parts := (fins 8).filter fun i => i != s.cascade.ident && bitAt (s.gNounN g 0x3A) i.val
  let reps := parts.map fun i => s.reportOf g i
  let mine := s.spanSettings g
  let good := fun (r : Option SpanReport) => match r with
    | some x => x.ready && decide (x.settings.take 10 = mine.take 10)
    | none => false
  let masks := (mine :: reps.filterMap fun r => r.map (·.settings)).map fun l => (l.getD 10 0).toNat
  let shared := (List.range 8).any fun k => decide (1 < (masks.filter fun w => bitAt w k).length)
  let total := reps.foldl (fun a r => a + (match r with
    | some x => x.mains
    | none => 0)) (s.mainsOf g).length
  let mc := match (s.programme g (s.groups[g]).bank1).coupled with
    | some c => c.mc
    | none => 0
  let leadHere := match s.lead g with
    | some m => (s.mainsOf g).contains m
    | none => false
  let yieldFar := s.gNoun g 0x18 == 1 && !bitAt (mine.getD 10 0).toNat (s.gNounN g 0x1D)
  !reps.all good || parts.any (fun i => !s.cascade.members.getLsbD i.val) || decide (s.gNounN g 0x39 ≠ mc) || shared ||
    decide (12 < total) || !leadHere || yieldFar

/-! ## The start rules of R380 -/

/-- The torque mode a main axis would start in. -/
def startMode (s : State) (m : Main) : Nat := (s.mains[m]).eng.recorded.getD (s.mains[m]).eng.mode

/-- The STO masks that hold an axis (R286). -/
def stoHolders (s : State) (x : GenId) : Nat :=
  ((fins 4).filter fun i => match x with
    | .main m => bitAt (s.safeNounN (0x6000 + 256 * i.val)) m.val
    | .aux a => bitAt (s.safeNounN (0x6001 + 256 * i.val)) a.val).length

/-- A member main axis breaks a start rule (R51, R136, R145). -/
def mainConflict (s : State) (g : Grp) (m : Main) (b : MainBlock) : Bool :=
  let mode := s.startMode m
  decide (8000000 < s.mNoun m 0x07 * 16 * s.gNoun g 0x02) || decide (b.sets ≤ setOfMode mode) ||
    (mode == 4 && !s.coupled g) || !s.usesLink g (s.linkOf m)

/-- Two members of one share set name different brakes (R159). Only members in COUPLED belong to a share set (R154), and a start of
a coupled group puts every member main axis in it (R136). -/
def brakeConflict (s : State) (g : Grp) : Bool :=
  s.coupled g && (s.mainsOf g).any fun m => (s.mainsOf g).any fun k =>
    s.mNoun m 0x43 == s.mNoun k 0x43 && s.mNoun m 0x05 != s.mNoun k 0x05

/-- A member auxiliary axis breaks a start rule (R222, R238). -/
def auxConflict (s : State) (g : Grp) (a : AuxNo) : Bool :=
  let hz := s.aNoun a 0x0D * 80000
  let n := s.gNoun g 0x02
  (s.aNoun a 0x00 == 1 && (decide (hz < 16000 * n) || decide (100000 * n < hz))) || !s.usesLink g (s.linkOfAux a)

/-- The coupled block and its lead (R150, R187). -/
def coupledConflict (s : State) (g : Grp) : Bool :=
  let c := (s.programme g (s.groups[g]).bank1).coupled
  let badState := s.gNoun g 0x10 == 1 && decide (s.gNounN g 0x07 ≤ s.gNounN g 0x11)
  let badLead := match c with
    | none => false
    | some b =>
      match s.lead g with
      | some m => !(s.mainsOf g).contains m ||
          ((b.meas ++ b.sps).contains 0x0E && decide (s.mNounN m 0x50 ≠ s.gNounN g 0x13))
      | none => true
  badState || badLead

/-- Why a group cannot start: a status (R121, R41, R319, R380, R428, R432, R439, R442), or none. -/
def startRefusal (s : State) (g : Grp) : Option Nat :=
  let c := s.cascade
  let span := s.gNounN g 0x38 != 0
  let alone := !c.enabled || c.dupId
  if s.engines.mode = .lost || (!alone && !c.locked) then some stState
  else if !s.programmeOk g then some stCheck
  else if !s.budgetOk g || (span && !alone && !s.ringBudgetOk g) then some stBudget
  else if (span && alone) || (s.blocksOf g).any (fun p => s.mainConflict g p.1 p.2) || s.brakeConflict g ||
      (s.auxsOf g).any (s.auxConflict g) || s.coupledConflict g || (s.gensOf g).any (fun x => s.stoHolders x != 1) ||
      (span && s.homePart g && s.homeConflict g) then some stConflict
  else none

/-! ## The start -/

/-- What a start sets of a member main axis: states zero, θ at 0.5, and COUPLED recorded in a coupled group (R122, R136,
R175). -/
def beginMain (s : State) (g : Grp) (m : Main) : State :=
  let c := s.coupled g
  s.modMain m fun a => { a with
    eng := { a.eng with
      x := []
      recorded := if c then some 4 else a.eng.recorded
      handover := none
      ferrCount := 0
      ferrValue := 0 }
    share := { a.share with theta := 2147483648, hot := false, lmPart := 0, lmCount := 0, lmSum := 0, lmPrev := none } }

/-- A link whose groups have all stopped leaves TRIPPED and clears its sticky fields when one of them starts (R173, R174, R177). -/
def beginLink (s : State) (g : Grp) (l : LinkNo) : State :=
  if s.usesLink g l && (s.linkGroups l).isEmpty then
    s.modLink l fun x => { x with
      stage := .normal
      overTrip := 0
      chLost := false
      chShort := false
      cause := false
      peak := 0
      history := []
      dvdtSince := none }
  else s

/-- The group runs from the next of its sample instants (R23, R29, R122, R148, R164, R166, R330). -/
def beginGroup (s : State) (g : Grp) : State :=
  let s1 := eachFin 4 (fun z l => z.beginLink g l) (((s.mainsOf g).foldl (fun z m => z.beginMain g m) s).leaveDrum g)
  s1.modGroup g fun q => { q with
    running := true
    starting := false
    sampled := false
    sample := 0
    phase := .none
    overran := false
    disagreed := 0
    owed := 0
    cost := s.passCost g
    visible := []
    chkFail := false
    sat := false
    xc := []
    uc := []
    kappas := []
    yield := { q.yield with
      state := .off
      exhausted := false
      lost := false
      tValid := false
      wasOver := false
      lineValid := false
      shock := false
      shocks := 0
      quiet := 800
      peak := 0
      kappa := 0 }
    span := { q.span with
      begun := false
      arrived := []
      heard := []
      fresh := []
      run := Vector.replicate 8 0
      emergIn := false
      stopIn := false
      emerg := false
      stop := false
      startAt := none }
    ecause := 0
    eactive := false
    edue := none
    ephase := 0
    emode := 0
    lastVdc := Vector.replicate 4 none }

/-- The starts of a group's axes end with a status, and the axes are disabled again. -/
def refuseStart (s : State) (g : Grp) (status : Nat) : State :=
  let s1 := (s.mainsOf g).foldl (fun (z : State) m =>
    (z.finishOpt (z.mains[m]).startTicket status).modMain m fun a => { a with enabled := false, startTicket := none }) s
  let s2 := (s1.auxsOf g).foldl (fun (z : State) a =>
    (z.finishOpt (z.auxs[a]).startTicket status).modAux a fun x => { x with enabled := false, startTicket := none }) s1
  s2.modGroup g fun q => { q with starting := false, chkFail := q.chkFail || status == stCheck }

/-- An axis of the group is enabled. -/
def anyEnabled (s : State) (g : Grp) : Bool :=
  (s.mainsOf g).any (fun m => (s.mains[m]).enabled) || (s.auxsOf g).any (fun a => (s.auxs[a]).enabled)

/-- A waiting start completes once the coefficient queue is empty (R131); a home part announces its start tick (R439). -/
def tryStart (s : State) (g : Grp) : State :=
  let q := s.groups[g]
  if !q.starting then s
  else if !s.anyEnabled g then s.modGroup g fun q => { q with starting := false }
  else if !q.queue.isEmpty || q.span.startAt.isSome then s
  else match s.startRefusal g with
    | some st => s.refuseStart g st
    | none =>
      if s.homePart g then s.modGroup g fun q => { q with span := { q.span with startAt := some (s.time.tick + 16) } }
      else s.beginGroup g

/-- SPAN_START_TICK (R439): the announced start tick of a span. -/
def execSpanStartTick (g : Grp) (s : State) : Out :=
  let q := s.groups[g]
  .next (
    if q.running then s
    else if s.homePart g && q.starting && q.span.startAt.isSome then s.beginGroup g
    else if s.remotePart g && s.cascade.locked && s.programmeOk g then
      (s.beginGroup g).modGroup g fun q => { q with span := { q.span with remoteRuns := true } }
    else s)

end State

end Sys2Proof.Machine
end

