-- ==== Sys2Proof/Machine/SafetyChannel.lean ====
section
/-! DEFINITION. The safety channel (R283 to R310): group states and sequences, the monitoring link, brakes and contactors,
E-stops and reset, dark test pulses, channel faults and the safety parameter set. -/

namespace Sys2Proof.Machine

/-- Codes of CAUSE in R309. -/
def causeEstop (e : Nat) : Nat := 1 + e
def causeSls : Nat := 3
def causeCross : Nat := 4
def causeViolation : Nat := 5
def causeSs1Timeout : Nat := 6
def causeMonitor : Nat := 7
def causeControl : Nat := 8
def causePair : Nat := 9
def causeBrake : Nat := 10
def causeChannel : Nat := 11

/-- Codes of FCAUSE in R310. -/
def fStuckOn : Nat := 1
def fReadback : Nat := 2
def fBrake : Nat := 3
def fContactor : Nat := 4
def fClock : Nat := 5
def fMemory : Nat := 6
def fSelftest : Nat := 7

/-- OBJECT of the safety channel in a record: its status noun. -/
def objSafety : Nat := 0x6F0F

/-- The writable safety nouns but the reset request and the parameter CRC, in ascending ID (R306). -/
def safetyIds : List Nat :=
  ((List.range 4).flatMap fun g => (List.range 10).map fun k => 0x6000 + 256 * g + k) ++
  ((List.range 4).flatMap fun b => (List.range 3).map fun k => 0x6400 + 16 * b + k) ++
  ((List.range 4).flatMap fun c => (List.range 3).map fun k => 0x6500 + 16 * c + k) ++
  ((List.range 2).flatMap fun e => (List.range 2).map fun k => 0x6600 + 16 * e + k) ++
  ((List.range 12).flatMap fun m => (List.range 4).map fun k => 0x6800 + 16 * m + k) ++
  [0x6F01, 0x6F02, 0x6F03, 0x6F06, 0x6F07]

/-- One sample of a filter that takes a new level after `n` samples of it (R285). -/
def filterSample (n : Nat) (x : InSt) (raw : Bool) : InSt :=
  if raw = x.level then { x with held := 0 }
  else if n ≤ x.held + 1 then { level := raw, held := 0 }
  else { x with held := x.held + 1 }

namespace State

def modSto (s : State) (i : StoNo) (f : StoSt → StoSt) : State :=
  s.modSafety fun q => { q with groups := vmod q.groups i f }
def modBrake (s : State) (b : Fin 4) (f : OutSt → OutSt) : State :=
  s.modSafety fun q => { q with brakes := vmod q.brakes b f }
def modContactor (s : State) (c : Fin 4) (f : OutSt → OutSt) : State :=
  s.modSafety fun q => { q with contactors := vmod q.contactors c f }

/-! ## Settings of the running set -/

/-- A setting of an STO group. -/
def sNoun (s : State) (i : StoNo) (off : Nat) : Nat := s.safeNounN (0x6000 + 256 * i.val + off)

/-- The feedback input of a brake (`N:0x64b0`). -/
def brakeInput (s : State) (b : Fin 4) : Option (Fin 8) := fin? 8 (s.safeNounN (0x6400 + 16 * b.val))

/-- The feedback inputs of a contactor (`N:0x65c0`, `N:0x65c1`). -/
def contactorInputs (s : State) (c : Fin 4) : List (Fin 8) :=
  [s.safeNounN (0x6500 + 16 * c.val), s.safeNounN (0x6501 + 16 * c.val)].filterMap (fin? 8)

/-- The groups whose brake mask holds a brake. -/
def brakeHolders (s : State) (b : Fin 4) : List StoNo := (fins 4).filter fun i => bitAt (s.stoBrakes i) b.val

/-- The groups whose contactor mask holds a contactor. -/
def contactorHolders (s : State) (c : Fin 4) : List StoNo := (fins 4).filter fun i => bitAt (s.sNoun i 4) c.val

/-! ## Reports (R293, R302) -/

/-- A brake is reported applied (R293). -/
def brakeReported (s : State) (b : Fin 4) : Bool :=
  match s.brakeInput b with
  | some i => (s.safety.ctf[i]).level
  | none => (s.safety.brakes[b]).applied

/-- Release of a brake is confirmed (R293). -/
def releaseConfirmed (s : State) (b : Fin 4) : Bool :=
  match s.brakeInput b with
  | some i => !(s.safety.ctf[i]).level
  | none => (s.safety.brakes[b]).released

/-- The feedbacks of a contactor that are not in its commanded state: a closed contact means an open contactor (R283). -/
def contactorWrong (s : State) (c : Fin 4) : List (Fin 8) :=
  (s.contactorInputs c).filter fun i => (s.safety.ctf[i]).level == (s.safety.contactors[c]).on

/-! ## Outputs (R294, R302) -/

/-- BRKb is energised: the release request of the last valid message, some mask holds it, and every group whose mask holds it
is in RUN or SS1 (R294). -/
def brakeWanted (s : State) (b : Fin 4) : Bool :=
  (match s.safety.lastValid with
    | some m => m.release.getLsbD b.val
    | none => false) &&
  !(s.brakeHolders b).isEmpty &&
  (s.brakeHolders b).all fun i => (s.safety.groups[i]).state == .run || (s.safety.groups[i]).state == .ss1

/-- CTDc is energised: its close request, and some group whose mask holds it has its STO energised, which is RUN, SS1, BRAKING
and the wait of R287 before FAULT (R302). -/
def contactorWanted (s : State) (c : Fin 4) : Bool :=
  (match s.safety.lastValid with
    | some m => m.close.getLsbD c.val
    | none => false) &&
  (s.contactorHolders c).any fun i => (s.safety.groups[i]).sto

/-- An output of a brake or contactor takes a new command; the time of its feedback begins. -/
def OutSt.command (x : OutSt) (on : Bool) : OutSt :=
  if x.on = on then x else { on, applied := false, released := false, timing := true }

/-- A de-energise demand during a pulse on that output voids the test (R303). -/
def voidPulse (s : State) (o : SafeOut) : State :=
  if s.safety.pulse = some o then s.modSafety fun q => { q with pulseVoid := true } else s

/-- A brake that is released for any reason other than PRELOAD makes the parked angles of its axes invalid (R74). -/
def unpark (s : State) (b : Fin 4) : State :=
  let other := (fins 12).any fun m =>
    s.brakeOf m == some b && (s.mains[m]).comm.release && (s.mains[m]).comm.state != .preload
  if other then
    eachFin 12 (fun (z : State) m =>
      if z.brakeOf m = some b then z.modComm m fun c => { c with parked := none } else z) s
  else s

def driveBrake (s : State) (b : Fin 4) : State :=
  let on := (s.safety.brakes[b]).on
  let want := s.brakeWanted b && (on || !s.safety.monLost)
  let s1 := s.modBrake b fun x => OutSt.command x want
  if on && !want then s1.voidPulse ⟨4 + b.val, by omega⟩
  else if want && !on then s1.unpark b
  else s1

def driveContactor (s : State) (c : Fin 4) : State :=
  let on := (s.safety.contactors[c]).on
  let want := s.contactorWanted c && (on || !s.safety.monLost)
  let s1 := s.modContactor c fun x => OutSt.command x want
  if on && !want then s1.voidPulse ⟨8 + c.val, by omega⟩ else s1

/-- Brakes and contactors follow the group states and requests. -/
def driveOutputs (s : State) : State := eachFin 4 driveContactor (eachFin 4 driveBrake s)

/-- An STO output takes a command. -/
def driveSto (s : State) (i : StoNo) (on : Bool) : State :=
  let was := (s.safety.groups[i]).sto
  let s1 := s.modSto i fun x => { x with sto := on }
  if was && !on then s1.voidPulse ⟨i.val, by omega⟩ else s1

/-! ## Sequences (R287) -/

/-- A group waits for brakes under BRAKE-FIRST. -/
def stoWaits (x : StoSt) : Bool := x.state == .braking || (x.state == .fault && x.sto)

/-- A group enters a state with its STO de-energised at once. -/
def stoOff (s : State) (i : StoNo) (st : SState) (cause : Option Nat) : State :=
  (s.modSto i fun x => { x with state := st, cause := cause.getD x.cause, stopReq := false, waitBrakes := 0 }).driveSto i false

/-- A group goes to torque-off under its sequence, towards LATCHED or FAULT (R287, R292). -/
def torqueOff (s : State) (i : StoNo) (dest : SState) (cause : Option Nat) : State :=
  let x := s.safety.groups[i]
  if x.sto && s.sNoun i 3 == 1 then
    s.modSto i fun q => { q with
      state := if dest = .fault then .fault else .braking
      cause := cause.getD q.cause
      stopReq := false
      waitBrakes := if stoWaits x then q.waitBrakes else BitVec.ofNat 4 (s.stoBrakes i) }
  else s.stoOff i dest cause

/-- Brakes that are reported applied are settled; with the last one STO and the contactors follow (R287). -/
def settleWait (s : State) (i : StoNo) : State :=
  let x := s.safety.groups[i]
  if stoWaits x then
    let left := (fins 4).foldl (fun (w : BitVec 4) b =>
      if s.brakeReported b && !(s.safety.brakes[b]).on then w &&& ~~~(1#4 <<< b.val) else w) x.waitBrakes
    let s1 := s.modSto i fun q => { q with waitBrakes := left }
    if left = 0 then s1.stoOff i (if x.state = .fault then .fault else .latched) none else s1
  else s

/-! ## E-stops (R299, R300) -/

/-- E-stop e is active, from the filtered levels: with pairing on the two inputs form E-stop 0. -/
def estopActive (s : State) (e : Fin 2) : Bool :=
  let low := fun (k : Fin 2) => !(s.safety.estop[k]).level
  if s.safeNoun 0x6F01 = 1 then e = 0 && (low 0 || low 1) else low e

/-- A group is mapped by an active E-stop. -/
def estopHolds (s : State) (i : StoNo) : Bool :=
  (fins 2).any fun e => s.estopActive e && bitAt (s.safeNounN (0x6600 + 16 * e.val)) i.val

/-- OFF to RUN, while the torque request is set, monitoring is not lost and no mapped E-stop is active (R292). -/
def testRun (s : State) (i : StoNo) : State :=
  let x := s.safety.groups[i]
  let asked := match s.safety.lastValid with
    | some m => m.torque.getLsbD i.val
    | none => false
  if x.state = .off && asked && !s.safety.monLost && !s.estopHolds i then
    (s.modSto i fun q => { q with state := .run, stopReq := false }).driveSto i true
  else s

/-- Everything that follows in the channel from the present states: rows of R292 that conditions alone decide, and the
outputs. -/
def settleSafety (s : State) : State :=
  let s1 := s.driveOutputs
  (eachFin 4 settleWait s1).driveOutputs

/-- Monitored speed of a main axis in a message (R297). -/
def monitored (s : State) (x : MonMessage) (m : Main) : Int :=
  let o := absI x.speed[m]
  if x.healthy[m] && s.safeNoun (0x6801 + 16 * m.val) == 1 then maxI o (absI x.sensor[m]) else o

/-- The largest monitored speed of a group's main axes. -/
def largestSpeed (s : State) (x : MonMessage) (i : StoNo) : Int :=
  (s.stoMains i).foldl (fun w m => maxI w (s.monitored x m)) 0

/-- Entry to SS1 (R296). -/
def enterSs1 (s : State) (i : StoNo) (cause : Nat) : State :=
  let w := match s.safety.lastValid with
    | some x => s.largestSpeed x i
    | none => 0
  s.modSto i fun q => { q with state := .ss1, cause := cause, stopReq := true, omega0 := w, lowest := w }

/-- An E-stop that has become active acts on a mapped group (R292, R295, R300). -/
def estopHit (s : State) (e : Fin 2) (cause : Nat) (i : StoNo) : State :=
  let st := (s.safety.groups[i]).state
  let fn := s.safeNoun (0x6601 + 16 * e.val)
  if !bitAt (s.safeNounN (0x6600 + 16 * e.val)) i.val then s
  else if st = .off then s.stoOff i .latched (some cause)
  else if fn = 0 ∧ (st = .run ∨ st = .ss1 ∨ st = .braking) then s.stoOff i .latched (some cause)
  else if fn = 1 ∧ st = .run then s.enterSs1 i cause
  else s

/-- An accepted reset: the LATCHED groups with no mapped E-stop active go to OFF, unless an ESTOP-PAIR condition is
outstanding (R299, R301); and whether any moved. -/
def acceptReset (s : State) : State × Bool :=
  if s.safety.pairErr then (s, false)
  else
    let go := (fins 4).filter fun i => (s.safety.groups[i]).state == .latched && !s.estopHolds i
    (go.foldl (fun z i => z.modSto i fun q => { q with state := .off }) s, !go.isEmpty)

/-! ## Channel faults (R304) -/

/-- A channel fault: every group goes to FAULT under its own sequence. -/
def channelFault (s : State) (cause index : Nat) : State :=
  let first := s.safety.fcause = 0
  let s1 := s.modSafety fun q => { q with
    fcause := if first then cause else q.fcause
    findex := if first then index else q.findex
    oneClock := q.oneClock || decide (cause = fClock) }
  let s2 := eachFin 4 (fun z i => if (z.safety.groups[i]).state = .fault then z
    else z.torqueOff i .fault (some causeChannel)) s1
  (s2.settleSafety).logEvent sevDetected 0x0901 objSafety cause

/-! ## Inputs -/

/-- The first brake or contactor that is steady and whose feedback an input is: a change of it is a fault (R293, R302). -/
def steadyFault (s : State) (i : Fin 8) : Option Nat :=
  if (fins 4).any fun b => s.brakeInput b == some i && !(s.safety.brakes[b]).timing then some fBrake
  else if (fins 4).any fun c => (s.contactorInputs c).contains i && !(s.safety.contactors[c]).timing then some fContactor
  else none

/-- One raw sample of a contactor or brake feedback; `raw` tells whether the input is active. -/
def ctfSample (s : State) (i : Fin 8) (raw : Bool) : State :=
  let y := filterSample 100 s.safety.ctf[i] raw
  let turned := y.level != (s.safety.ctf[i]).level
  let s1 := s.modSafety fun q => { q with ctf := q.ctf.set i y }
  if turned then
    match s1.steadyFault i with
    | some f => s1.channelFault f i.val
    | none => s1
  else s1

/-- SRESET: a reset on the falling edge of a filtered pulse of 100 ms to 2 s, where the source allows it (R301). -/
def sresetSample (s : State) (raw : Bool) : State :=
  let y := filterSample 100 s.safety.sreset raw
  let n := s.safety.sresetHigh
  let fell := (s.safety.sreset).level && !y.level
  let s1 := s.modSafety fun q => { q with sreset := y, sresetHigh := if y.level then n + 1 else 0 }
  if fell && decide (10000 ≤ n ∧ n ≤ 200000) && s.safeNoun 0x6F03 != 1 then s1.acceptReset.1 else s1

/-- The E-stop inputs (R299, R300). -/
def estopSample (s : State) (e0 e1 : Bool) : State :=
  let s1 := s.modSafety fun q => { q with
    estop := (q.estop.set 0 (filterSample 50 q.estop[0] e0)).set 1 (filterSample 50 q.estop[1] e1) }
  let low := fun (k : Fin 2) => !(s1.safety.estop[k]).level
  let s2 := if low 0 && low 1 then s1.modSafety fun q => { q with pairErr := false } else s1
  let paired := s.safeNoun 0x6F01 == 1
  eachFin 2 (fun z e =>
    if s1.estopActive e && !s.estopActive e then
      let cause := causeEstop (if paired && !low 0 then 1 else e.val)
      eachFin 4 (fun y i => y.estopHit e cause i) z
    else z) s2

/-- SAFETY_INPUT_SAMPLE (R285): every 10 µs. `ctf` holds the active feedback inputs, `estop0` and `estop1` the levels of the
E-stop balls. -/
def execSafetyInputSample (ctf : Byte) (sreset estop0 estop1 : Bool) (s : State) : Out :=
  let s1 := (eachFin 4 testRun s).estopSample estop0 estop1
  let s2 := eachFin 8 (fun z i => z.ctfSample i (ctf.getLsbD i.val)) s1
  .next ((s2.sresetSample sreset).settleSafety)

/-! ## The monitoring link (R288 to R290) -/

/-- The release request of a BRK output: some axis that names it requests release (R571). -/
def releaseAsked (s : State) (b : Fin 4) : Bool :=
  (fins 12).any fun m => s.brakeOf m == some b && (s.mains[m]).comm.release

/-- MONITORING_MESSAGE_ASSEMBLY (R288): a message from committed values. The close requests are a free value: no rule says
what sets them. In safe hold no request is set (R481). -/
def execMonitoringMessageAssembly (s : State) : Out :=
  .next (
    if s.awake then
      let seq := s.requests.seq + 1
      let hold := s.start.safeHold
      let rel : BitVec 4 := BitVec.ofNat 4 (((fins 4).map fun b => b2n (s.releaseAsked b) * 2 ^ b.val).sum)
      let msg : MonMessage := {
        speed := Vector.ofFn fun m => (s.mains[m]).eng.speed
        sensor := Vector.ofFn fun m => s.sensorSpeed m
        healthy := Vector.ofFn fun m => s.sensorOk m
        torque := if hold then 0 else s.requests.torque
        release := if hold then 0 else rel
        close := if hold then 0 else BitVec.ofInt 4 (Config.freeValue s.free)
        seq }
      s.drawn.modReq fun r => { r with seq, release := msg.release, sent := some msg }
    else s)

/-- A copy is intact: its CRC checks and its sequence number is one more than that of the last message with an intact copy; the
first message since the channel started has none before it (R289). -/
def intact (s : State) (c : Option LaneCopy) : Bool :=
  match c with
  | none => false
  | some k => k.crcOk && (match s.safety.last with
    | some l => k.msg.seq == l.seq + 1
    | none => true)

/-- No speed differs too much from the same speed in the last intact message (R289). -/
def plausible (s : State) (x : MonMessage) : Bool :=
  match s.safety.last with
  | none => true
  | some l => (fins 12).all fun m =>
    let lim := s.safeNoun (0x6802 + 16 * m.val)
    decide (4 * absI (x.speed[m] - l.speed[m]) ≤ lim) && decide (4 * absI (x.sensor[m] - l.sensor[m]) ≤ lim)

/-- Loss and recovery of one lane (R289). -/
def countLane (s : State) (k : Fin 2) (ok : Bool) : State :=
  let miss := if ok then 0 else s.safety.laneMiss[k] + 1
  let good := if ok then s.safety.laneOk[k] + 1 else 0
  let s1 := s.modSafety fun q => { q with laneMiss := q.laneMiss.set k miss, laneOk := q.laneOk.set k good }
  if 3 ≤ miss ∧ s.safety.laneLost[k] = false then
    (s1.modSafety fun q => { q with laneLost := q.laneLost.set k true }).logEvent sevExposure 0x0902 objSafety k.val
  else if 64 ≤ good then s1.modSafety fun q => { q with laneLost := q.laneLost.set k false }
  else s1

/-- What one valid message says of one axis (R297, R298). An SLS limit of 0 turns both checks off. -/
def watchAxis (s : State) (x : MonMessage) (m : Main) : WatchSt :=
  let w := s.safety.watch[m]
  let lim := s.safeNoun (0x6800 + 16 * m.val)
  let fast := decide (lim ≠ 0 ∧ lim < s.monitored x m)
  let diff := absI (x.speed[m] - x.sensor[m])
  let cross := s.safeNoun (0x6801 + 16 * m.val) == 1 && x.healthy[m] &&
    decide (lim ≠ 0 ∧ s.safeNoun (0x6803 + 16 * m.val) * lim < 100 * diff)
  { slsOver := if fast then w.slsOver + 1 else 0, cross := if cross then w.cross + 1 else 0 }

/-- The SLS condition of a group, with its cause. -/
def slsHit (s : State) (i : StoNo) : Option Nat :=
  if (s.stoMains i).any fun m => decide (2 ≤ (s.safety.watch[m]).slsOver) then some causeSls
  else if (s.stoMains i).any fun m => decide (40 ≤ (s.safety.watch[m]).cross) then some causeCross
  else none

/-- SS1-b on one message: whether it is a violation, and whether it shows standstill (R296). -/
def ss1Judge (s : State) (x : MonMessage) (i : StoNo) : Bool × Bool :=
  let q := s.safety.groups[i]
  if s.sNoun i 5 = 1 ∧ s.sNoun i 0 ≠ 0 then
    let w := s.largestSpeed x i
    (decide (q.omega0 * s.sNoun i 8 < 100 * (w - q.lowest)), decide (w < s.sNoun i 7))
  else (false, false)

/-- The rows of R292 that a valid message decides for one group. -/
def groupMessage (s : State) (x : MonMessage) (i : StoNo) : State :=
  let q := s.safety.groups[i]
  let j := s.ss1Judge x i
  let hit := s.slsHit i
  match q.state with
  | .run =>
    match hit with
    | some c => if s.sNoun i 9 = 1 then s.enterSs1 i c else s.torqueOff i .latched (some c)
    | none => if x.torque.getLsbD i.val then s else s.stoOff i .off (some causeControl)
  | .ss1 =>
    let s1 := s.modSto i fun q => { q with lowest := minI q.lowest (s.largestSpeed x i) }
    match hit, j with
    | some c, _ => if s.sNoun i 9 = 0 then s1.torqueOff i .latched (some c)
        else if j.1 then s1.torqueOff i .latched (some causeViolation)
        else if j.2 then s1.torqueOff i .latched none else s1
    | none, (true, _) => s1.torqueOff i .latched (some causeViolation)
    | none, (false, true) => s1.torqueOff i .latched none
    | none, (false, false) => s1
  | .off => s.testRun i
  | .braking => s
  | .latched => s
  | .fault => s

/-- A valid message (R289, R290). -/
def validMessage (s : State) (x : MonMessage) : State :=
  let n := s.safety.validRun + 1
  let s1 := s.modSafety fun q => { q with
    lastValid := some x
    validRun := n
    monLost := q.monLost && decide (n < 16)
    watch := Vector.ofFn fun m => s.watchAxis x m }
  (eachFin 4 (fun z i => z.groupMessage x i) s1).settleSafety

/-- MONITORING_MESSAGE (R289). -/
def execMonitoringMessage (a b : Option LaneCopy) (s : State) : Out :=
  let ia := s.intact a
  let ib := s.intact b
  let used := if ia then a else if ib then b else none
  let s1 := (s.countLane 0 ia).countLane 1 ib
  .next (
    match used with
    | none => s1.modSafety fun q => { q with validRun := 0 }
    | some k =>
      let ok := s.plausible k.msg
      let s2 := s1.modSafety fun q => { q with last := some k.msg }
      if ok then s2.validMessage k.msg else s2.modSafety fun q => { q with validRun := 0 })

/-- MONITORING_LOST (R290): no valid message for 1.0 ms. -/
def execMonitoringLost (s : State) : Out :=
  let s1 := s.modSafety fun q => { q with monLost := true, validRun := 0 }
  .next ((eachFin 4 (fun z i =>
    if (z.safety.groups[i]).state = .run ∨ (z.safety.groups[i]).state = .ss1 then
      z.torqueOff i .latched (some causeMonitor)
    else z) s1).settleSafety)

/-! ## Status words (R291) -/

def bits4 (f : Fin 4 → Bool) : BitVec 4 := BitVec.ofNat 4 (((fins 4).map fun i => b2n (f i) * 2 ^ i.val).sum)

/-- The status words as the channel would write them now. -/
def statusWords (s : State) : StatusWords :=
  { state := Vector.ofFn fun i => (s.safety.groups[i]).state
    cause := Vector.ofFn fun i => (s.safety.groups[i]).cause
    stopReq := bits4 fun i => (s.safety.groups[i]).stopReq
    sto := bits4 fun i => (s.safety.groups[i]).sto
    brkOn := bits4 fun b => (s.safety.brakes[b]).on
    applied := bits4 s.brakeReported
    released := bits4 s.releaseConfirmed
    ctdOn := bits4 fun c => (s.safety.contactors[c]).on
    ctdOk := bits4 fun c => !(s.contactorInputs c).isEmpty && (s.contactorWrong c).isEmpty }

/-- SAFETY_STATUS_WRITE (R291): every 100 µs. -/
def execSafetyStatusWrite (s : State) : Out := .next (s.modReq fun r => { r with words := s.statusWords })

/-! ## Timers -/

/-- BRAKE_TIMER_EXPIRY (R293): the engage or release time of a brake has run out. -/
def execBrakeTimerExpiry (b : Fin 4) (s : State) : Out :=
  let x := s.safety.brakes[b]
  .next (
    if !x.timing then s
    else
      let s1 := s.modBrake b fun o => { o with timing := false, applied := !x.on, released := x.on }
      match s.brakeInput b with
      | some i => if (s.safety.ctf[i]).level = x.on then s1.channelFault fBrake i.val else s1.settleSafety
      | none => s1.settleSafety)

/-- BRAKE_TIMEOUT (R287): the engage time plus 50 ms has passed without the report; the brake is settled. -/
def execBrakeTimeout (b : Fin 4) (s : State) : Out :=
  .next (
    if s.brakeReported b && !(s.safety.brakes[b]).on then s.settleSafety
    else
      (eachFin 4 (fun z i =>
        let x := z.safety.groups[i]
        if stoWaits x && x.waitBrakes.getLsbD b.val then
          z.modSto i fun q => { q with cause := causeBrake, waitBrakes := q.waitBrakes &&& ~~~(1#4 <<< b.val) }
        else z) s).settleSafety)

/-- CONTACTOR_DISCREPANCY (R302): the discrepancy time after a change of a contactor has run out. -/
def execContactorDiscrepancy (c : Fin 4) (s : State) : Out :=
  .next (
    if (s.safety.contactors[c]).timing then
      let s1 := s.modContactor c fun o => { o with timing := false }
      match s.contactorWrong c with
      | i :: _ => s1.channelFault fContactor i.val
      | [] => s1
    else s)

/-- SS1_TIME_ELAPSED (R296). A group with no main axis acts as SS1-c. -/
def execSs1TimeElapsed (i : StoNo) (s : State) : Out :=
  .next (
    if (s.safety.groups[i]).state = .ss1 then
      (s.torqueOff i .latched (if s.sNoun i 5 = 1 ∧ s.sNoun i 0 ≠ 0 then some causeSs1Timeout else none)).settleSafety
    else s)

/-- ESTOP_PAIR_DISCREPANCY (R299): the paired inputs have differed for longer than `N:0x6F02`. -/
def execEstopPairDiscrepancy (s : State) : Out :=
  .next (
    if s.safeNoun 0x6F01 = 1 ∧ (s.safety.estop[0]).level ≠ (s.safety.estop[1]).level then
      eachFin 4 (fun z i =>
        if bitAt (s.safeNounN 0x6600) i.val = true ∧ (z.safety.groups[i]).state ≠ .fault then
          z.modSto i fun q => { q with cause := causePair }
        else z) (s.modSafety fun q => { q with pairErr := true })
    else s)

/-! ## Dark pulses, readback, clocks and memory (R284, R303, R304) -/

/-- An output is commanded energised. -/
def outOn (s : State) (o : SafeOut) : Bool :=
  if h : o.val < 4 then (s.safety.groups[(⟨o.val, h⟩ : Fin 4)]).sto
  else if h : o.val < 8 then (s.safety.brakes[(⟨o.val - 4, by omega⟩ : Fin 4)]).on
  else (s.safety.contactors[(⟨o.val - 8, by omega⟩ : Fin 4)]).on

/-- The level of an output's ball: low in a dark pulse (R303). -/
def outLevel (s : State) (o : SafeOut) : Bool := s.outOn o && s.safety.pulse != some o

/-- DARK_PULSE_START (R303): no two pulses overlap, and an output that is de-energised gets no pulse. -/
def execDarkPulseStart (o : SafeOut) (s : State) : Out :=
  .next (
    if s.outOn o && s.safety.pulse.isNone then s.modSafety fun q => { q with pulse := some o, pulseVoid := false } else s)

/-- DARK_PULSE_END (R303): the readback showed de-energised within 50 µs of the start, and energised within 50 µs of the
end. -/
def execDarkPulseEnd (o : SafeOut) (fell rose : Bool) (s : State) : Out :=
  .next (
    if s.safety.pulse = some o then
      let s1 := s.modSafety fun q => { q with pulse := none, pulseVoid := false }
      if s.safety.pulseVoid then s1
      else if !fell then s1.channelFault fStuckOn o.val
      else if !rose then s1.channelFault fReadback o.val
      else s1
    else s)

/-- READBACK_MISMATCH (R284): a readback has differed from its command for more than 50 µs outside a dark pulse. -/
def execReadbackMismatch (o : SafeOut) (s : State) : Out :=
  .next (if s.safety.pulse = some o then s else s.channelFault fReadback o.val)

/-- SAFETY_PARAM_CRC_CHECK (R304): every 100 ms. -/
def execSafetyParamCrcCheck (isIntact : Bool) (s : State) : Out :=
  .next (if isIntact then s else (s.modSafety fun q => { q with paramOk := false }).channelFault fMemory 0)

/-- KSAFE_CLOCK_CHECK (R304): KSAFE counted over 32 KEEP cycles. -/
def execKsafeClockCheck (count : Nat) (s : State) : Out :=
  .next (if count < 879 ∨ 1074 < count then s.channelFault fClock 0 else s)

/-- KEEP_CLOCK_LOSS (R304): KEEP shows no edge within 200 µs of KSAFE time. -/
def execKeepClockLoss (s : State) : Out := .next (s.channelFault fClock 0)

/-! ## The parameter set (R302, R306) and the keeper message port (R19) -/

/-- CRC-32 over a parameter set. -/
def paramCrc (value : Nat → Int) : Nat := crc32Words (safetyIds.map fun id => intWord (value id))

/-- The feedback rule of R302 for a set: a contactor in use names no first feedback, or one input is named twice. -/
def feedbackConflict (value : Nat → Int) : Bool :=
  let used := fun (off k : Nat) => (List.range 4).any fun g => bitAt (value (0x6000 + 256 * g + off)).toNat k
  let cs := (List.range 4).filter (used 4)
  let bs := (List.range 4).filter (used 2)
  let named := ((cs.flatMap fun c => [value (0x6500 + 16 * c), value (0x6501 + 16 * c)]) ++
    bs.map fun b => value (0x6400 + 16 * b)).filter fun v => decide (v < 8)
  cs.any (fun c => decide (8 ≤ value (0x6500 + 16 * c))) || decide (named.dedup.length < named.length)

/-- The staged set becomes the running set. -/
def takeStaged (s : State) : List (Nat × Int) :=
  safetyIds.foldl (fun l id => sput (nounDefault id) l id (s.noun id)) []

/-- The staged copy reverts to the running one (R306). -/
def revertStaged (s : State) : State := safetyIds.foldl (fun z id => z.setNoun id (z.safeNoun id)) s

/-- For an output already de-energised when a set takes effect, the engage time counts from then (R293). -/
def restartBrakes (s : State) : State :=
  s.modSafety fun q => { q with brakes := q.brakes.map fun o =>
    if o.on then o else { o with applied := false, timing := true } }

/-- Every group is in OFF or LATCHED (R306). -/
def safetyIdle (s : State) : Bool :=
  (fins 4).all fun i => (s.safety.groups[i]).state == .off || (s.safety.groups[i]).state == .latched

/-- The safety channel's answer to a parameter set with its CRC (R302, R306). -/
def takeParameters (s : State) (crc : Word) : State × Nat :=
  if !s.safetyIdle then (s, stState)
  else if crc.toNat ≠ paramCrc s.noun then (s.revertStaged, stCheck)
  else if feedbackConflict s.noun then (s.revertStaged, stConflict)
  else
    let s1 := (s.setNoun 0x6F0E crc.toNat).modSafety fun q => { q with running := s.takeStaged, paramOk := true }
    let s2 := eachFin 4 (fun z i => z.stoOff i .latched (some 0)) s1
    ((s2.restartBrakes).settleSafety, stDone)

/-- The SET of a safety noun that waits for the keeper. -/
def keeperTicket (s : State) (noun : Nat) : Option Nat :=
  (s.mail.tickets.find? fun k => k.tense != .past && k.stage == .running && k.sent.verb == 2 && k.sent.noun == noun).map
    fun k => k.num

/-- KEEPER_PORT_MESSAGE (R19): a message that fails its checks is discarded and logged, under a code the spec does not give
(a free value). -/
def execKeeperPortMessage (crcOk seqOk : Bool) (payload : KeeperPayload) (s : State) : Out :=
  .next (
    if !(crcOk && seqOk) then
      s.drawn.logEvent ((Config.freeValue s.free % 5).toNat) ((Config.freeValue s.free / 5 % 65536).toNat) objSafety
    else match payload with
      | .parameters crc =>
        let r := s.takeParameters crc
        r.1.finishOpt (s.keeperTicket 0x6F0E) r.2
      | .resetRequest =>
        let r := if s.safeNoun 0x6F03 = 0 then (s, false) else s.acceptReset
        r.1.finishOpt (s.keeperTicket 0x6F04) (if r.2 then stDone else stState)
      | .ledger => s
      | .temperature t => { s with life := { s.life with control := t } })

/-- All outputs are de-energised, and every group that is not LATCHED or FAULT goes to OFF (R283, R292): sleep, and the loss of
the supply, clocks or reset. -/
def safetyOff (s : State) : State :=
  let s1 := eachFin 4 (fun z i =>
    let x := z.safety.groups[i]
    z.stoOff i (if x.state = .latched ∨ x.state = .braking then .latched else if x.state = .fault then .fault else .off)
      none) s
  (s1.modSafety fun q => { q with lastValid := none, last := none, monLost := true, validRun := 0 }).settleSafety

/-- The channel at a cold start: every group LATCHED with cause NONE (R292), faults cleared (R310). -/
def safetyCold (s : State) : State :=
  let q := s.safety
  { s with safety := { ({} : SafetySt) with
      ctf := q.ctf, sreset := q.sreset, estop := q.estop
      running := safetyIds.foldl (fun l id => sput (nounDefault id) l id (s.noun id)) [] } }

end State

end Sys2Proof.Machine
end

