-- ==== Sys2Proof/Machine/Flags.lean ====
section
/-! DEFINITION. The status words (the field maps of R53, R108, R110, R146, R148, R161, R166, R177, R190, R240, R309, R310,
R330, R332, R389, R445, R463, R464, R487) and the value of every noun a READ may name. -/

namespace Sys2Proof.Machine

/-- A word from fields: lowest bit, width, value. -/
def pack (fs : List (Nat × Nat × Nat)) : Int := ((fs.map fun f => field f.1 f.2.1 f.2.2).sum : Nat)

/-- Codes of STATE in R53. -/
def CState.num : CState → Nat
  | .off => 0
  | .check => 1
  | .catch => 2
  | .align => 3
  | .preload => 4
  | .parison => 5
  | .handover => 6
  | .run => 7
  | .coast => 8
  | .resync => 9
  | .hold => 10
  | .stoppedFault => 11

/-- Codes of SOURCE in R53. -/
def Source.num : Source → Nat
  | .none => 0
  | .observer => 1
  | .sixStep => 2
  | .sensor => 3
  | .parison => 4
  | .parked => 5
  | .align => 6

/-- Codes of KIND in R190. -/
def Kind.num : Kind → Nat
  | .idle => 0
  | .position => 1
  | .speed => 2
  | .torque => 3
  | .tension => 4
  | .track => 5
  | .path => 6
  | .follow => 7
  | .halt => 8
  | .drum => 9

/-- Codes of STATE in R240. -/
def AState.num : AState → Nat
  | .off => 0
  | .run => 1
  | .standstill => 2
  | .homing => 3
  | .stoppedFault => 4

/-- Codes of HSTEP in R240. -/
def HStep.num : HStep → Nat
  | .none => 0
  | .seek => 1
  | .settle => 2
  | .backoff => 3

/-- Codes of YSTATE in R166. -/
def YState.num : YState → Nat
  | .off => 0
  | .armed => 1
  | .yield => 2
  | .recover => 3

/-- Codes of STAGE in R177. -/
def LinkStage.num : LinkStage → Nat
  | .normal => 0
  | .stage1 => 1
  | .stage2 => 2
  | .tripped => 3

/-- Codes of STATE in R309. -/
def SState.num : SState → Nat
  | .off => 0
  | .run => 1
  | .ss1 => 2
  | .braking => 3
  | .latched => 4
  | .fault => 5

/-- Codes of ENG in R332. -/
def EngMode.num : EngMode → Nat
  | .lockstep => 0
  | .simplexA => 1
  | .simplexB => 2
  | .lost => 3

/-- Codes of CPU in R332. -/
def CpuMode.num : CpuMode → Nat
  | .original => 0
  | .puntyWith0 => 1
  | .puntyWith1 => 2
  | .lost => 3

namespace State

/-! ## Main axes -/

/-- `N:0x2m1C` (R53). -/
def commStatus (s : State) (m : Main) : Int :=
  let c := (s.mains[m]).comm
  pack [(24, 8, c.reason.code), (19, 1, b2n c.parked.isSome), (18, 1, b2n (s.sensorOk m)), (17, 1, b2n c.blend.isSome),
    (16, 1, b2n (s.mains[m]).glance.forced), (8, 4, c.source.num), (4, 4, c.retries), (0, 4, c.state.num)]

/-- `N:0x2m2F` (R108). -/
def driveStatus (s : State) (m : Main) : Int :=
  let d := (s.mains[m]).drive
  pack [(15, 1, b2n d.gdfLow), (14, 1, b2n d.armed), (13, 1, b2n d.ofsVal), (12, 1, b2n (s.mNoun m 0x23 == 1)),
    (7, 1, b2n d.ovrB), (6, 1, b2n d.ovrA), (5, 1, b2n d.stuckB), (4, 1, b2n d.stuckA), (3, 1, b2n d.scTrip),
    (0, 3, d.latch.val)]

/-- The present mode of an axis (R145). -/
def presentMode (s : State) (m : Main) : Nat := (s.mains[m]).eng.recorded.getD (s.mains[m]).eng.mode

/-- REQMODE (R146). -/
def requestedMode (s : State) (m : Main) : Nat :=
  let e := (s.mains[m]).eng
  match e.waiting, e.handover with
  | some p, _ => p.2
  | none, some h => h.mode
  | none, none => s.presentMode m

/-- `N:0x2m3E` (R146). -/
def engineStatus (s : State) (m : Main) : Int :=
  let e := (s.mains[m]).eng
  let n := match e.handover with
    | some h => h.count
    | none => 0
  let blends := match e.handover with
    | some h => h.blend.isSome
    | none => false
  pack [(16, 8, n), (15, 1, b2n e.ferr), (14, 1, b2n blends), (13, 1, b2n e.handover.isSome), (12, 1, b2n e.vlim),
    (11, 1, b2n e.ilim), (10, 1, b2n e.awhold), (9, 1, b2n e.sat), (4, 4, s.requestedMode m), (0, 4, s.presentMode m)]

/-- `N:0x2m4F` (R161). -/
def shareStatus (s : State) (m : Main) : Int :=
  let x := (s.mains[m]).share
  let idx := openDiv ((s.mains[m]).eng.idSet * 100) (s.rated m)
  pack [(24, 8, (clampI 0 255 (openDiv (x.theta * 100) 4294967296)).toNat), (16, 8, (idx % 256).toNat), (15, 1, b2n x.diss),
    (14, 1, b2n (s.mNoun m 0x44 == 1 && (s.mains[m]).comm.state == .run && !x.lmHold)), (13, 1, b2n x.lmHold),
    (12, 1, b2n x.thot), (11, 1, b2n x.atLimit), (10, 1, b2n x.contrib)]

/-- `N:0x2m5F` and `N:0x5a5F` (R190). -/
def motionStatus (s : State) (x : GenId) : Int :=
  let o := s.gen x
  pack [(28, 4, o.kind.num), (24, 4, o.segment.val), (15, 1, b2n o.limPred), (14, 1, b2n o.ejerk), (13, 1, b2n o.slCross),
    (12, 1, b2n (o.lag != 0)), (11, 1, b2n o.atTarget), (10, 1, b2n o.reversal), (9, 1, b2n o.stepping)]

/-- Read-only motion nouns (R188). -/
def motionNoun (s : State) (x : GenId) (off : Nat) : Int :=
  let o := s.gen x
  match off with
  | 0x5F => s.motionStatus x
  | 0x60 => s.wholePos x
  | 0x61 => openRound o.speed
  | 0x62 => openRound o.acc
  | 0x63 => o.lag
  | 0x64 => o.target
  | _ => 0

/-- Keeper copy of a ledger counter (R178). -/
def ledgerNoun (s : State) (id : Nat) : Int := (sget (0 : Nat) s.ledger.totals id : Nat)

/-- Read-only nouns of a main axis, and the control mode (R52, R107, R145, R153, R188). -/
def mainNoun (s : State) (m : Main) (off : Nat) : Int :=
  let e := (s.mains[m]).eng
  match off with
  | 0x1C => s.commStatus m
  | 0x1D => floorDiv e.angle 65536
  | 0x1E => e.speed
  | 0x1F => e.residual
  | 0x2F => s.driveStatus m
  | 0x31 => s.presentMode m
  | 0x3E => s.engineStatus m
  | 0x4C => s.ledgerNoun (0x204C + 256 * m.val)
  | 0x4D => s.ledgerNoun (0x204D + 256 * m.val)
  | 0x4E => s.ledgerNoun (0x204E + 256 * m.val)
  | 0x4F => s.shareStatus m
  | _ => s.motionNoun (.main m) off

/-! ## Auxiliary axes -/

/-- `N:0x5a2E` (R240). -/
def auxStatus (s : State) (a : AuxNo) : Int :=
  let x := s.auxs[a]
  let chat := fun (off : Nat) => s.switches.chatter.getLsbD (s.aNounN a off)
  pack [(24, 8, x.reason.val), (20, 4, x.hstep.num), (19, 1, b2n x.homed), (18, 1, b2n x.stall), (17, 1, b2n x.vlim),
    (16, 1, b2n x.ofsLim), (15, 1, b2n (s.limLo a)), (14, 1, b2n (s.limHi a)), (13, 1, b2n (chat 0x18)),
    (12, 1, b2n (chat 0x19)), (0, 4, x.state.num)]

def auxNoun (s : State) (a : AuxNo) (off : Nat) : Int :=
  match off with
  | 0x2D => wrap16 (floorDiv (s.auxs[a]).lam 65536)
  | 0x2E => s.auxStatus a
  | 0x4C => s.ledgerNoun (0x504C + 256 * a.val)
  | 0x4D => s.ledgerNoun (0x504D + 256 * a.val)
  | _ => s.motionNoun (.aux a) off

/-! ## Groups and links -/

/-- `N:0x1g0A` (R148). -/
def groupStatus (s : State) (g : Grp) : Int :=
  let q := s.groups[g]
  let swaps := q.queue.any fun e => match e with
    | .swap _ _ => true
    | .word _ _ _ _ _ => false
  pack [(16, 9, q.queue.length), (7, 1, b2n q.sat), (6, 1, b2n q.chkFail), (5, 1, b2n swaps),
    (4, 1, b2n ((s.mainsOf g).any fun m => (s.mains[m]).eng.handover.isSome)), (0, 1, b2n q.bank1)]

/-- `N:0x1g21` (R166). -/
def yieldStatus (s : State) (g : Grp) : Int :=
  let y := (s.groups[g]).yield
  pack [(24, 8, y.shocks), (8, 8, y.kappa), (7, 1, b2n y.tValid), (6, 1, b2n y.shock), (5, 1, b2n y.exhausted),
    (4, 1, b2n y.lost), (0, 3, y.state.num)]

/-- `N:0x1g31` (R330). -/
def emergencyStatus (s : State) (g : Grp) : Int :=
  let q := s.groups[g]
  pack [(24, 8, q.ecause), (7, 1, b2n q.eactive), (2, 2, q.ephase.val), (0, 2, q.emode)]

def groupNoun (s : State) (g : Grp) (off : Nat) : Int :=
  let q := s.groups[g]
  match off with
  | 0x0A => s.groupStatus g
  | 0x0B => (s.region g q.bank1 3).toNat
  | 0x0C => (s.region g (!q.bank1) 3).toNat
  | 0x0E => q.overruns
  | 0x0F => q.cost
  | 0x21 => s.yieldStatus g
  | 0x22 => s.ledgerNoun (0x1022 + 256 * g.val)
  | 0x23 => s.ledgerNoun (0x1023 + 256 * g.val)
  | 0x24 => s.ledger.perWork[g]
  | 0x25 => s.ledger.perThrust[g]
  | 0x27 => q.yield.paidOut
  | 0x2E => q.wind.shortfall
  | 0x2F => q.wind.count
  | 0x31 => s.emergencyStatus g
  | 0x3C => q.span.misses
  | _ => 0

/-- `N:0x4l0F` (R110). -/
def senseStatus (s : State) (l : LinkNo) : Int :=
  let x := s.links[l]
  pack [(16, 16, x.chMis), (5, 1, b2n x.chFb), (4, 1, b2n x.chOut), (3, 1, b2n x.iOvr), (2, 1, b2n x.vOvr),
    (1, 1, b2n x.iStuck), (0, 1, b2n x.vStuck)]

/-- `N:0x4l1E` (R177). -/
def energyStatus (s : State) (l : LinkNo) : Int :=
  let x := s.links[l]
  pack [(16, 16, x.peak), (7, 1, b2n x.vWarn), (6, 1, b2n x.chShort), (5, 1, b2n x.chLost), (4, 1, b2n x.cause),
    (3, 1, b2n (x.standby && (s.linkOwner l).isNone)), (0, 3, x.stage.num)]

def linkNoun (s : State) (l : LinkNo) (off : Nat) : Int :=
  match off with
  | 0x0F => s.senseStatus l
  | 0x1E => s.energyStatus l
  | _ => s.ledgerNoun (0x4000 + 256 * l.val + off)

/-! ## Safety, faults, cascade -/

/-- `N:0x6s0F` (R309). What a status word carries is shown as last read (log entry 39). -/
def stoStatus (s : State) (i : StoNo) : Int :=
  let w := s.requests.seen
  let st := w.state[i]
  pack [(24, 8, w.cause[i]), (15, 1, b2n (st == .latched || st == .fault)), (14, 1, b2n (w.sto.getLsbD i.val)),
    (13, 1, b2n (s.outLevel ⟨i.val, Nat.lt_of_lt_of_le i.isLt (by decide)⟩)), (12, 1, b2n (w.stopReq.getLsbD i.val)),
    (0, 4, st.num)]

/-- `N:0x6F0F` (R310). -/
def channelStatus (s : State) : Int :=
  let q := s.safety
  let w := s.requests.seen
  pack [(28, 4, q.fcause), (24, 4, q.findex),
    (16, 8, ((fins 8).map fun i => b2n (q.ctf[i]).level * 2 ^ i.val).sum), (12, 4, w.ctdOn.toNat), (8, 4, w.brkOn.toNat),
    (7, 1, b2n (!q.laneLost[0])), (6, 1, b2n (!q.laneLost[1])), (5, 1, b2n q.pairErr), (3, 1, b2n (s.estopActive 1)),
    (2, 1, b2n (s.estopActive 0)), (1, 1, b2n (!q.monLost)), (0, 1, b2n q.paramOk)]

/-- The staged value of a safety parameter, or a status noun (R306 to R310). -/
def safetyNoun (s : State) (off : Nat) : Int :=
  if off = 0xF0F then s.channelStatus
  else match fin? 4 (off / 256) with
    | some i => if off % 256 = 0x0F then s.stoStatus i else s.noun (0x6000 + off)
    | none => s.noun (0x6000 + off)

/-- `N:0x7000` (R332). -/
def faultStatus (s : State) : Int :=
  let f := s.faults
  let e := s.engines.mode
  pack [(24, 8, f.cullet), (22, 2, e.num), (20, 2, f.cpu.num), (5, 1, b2n f.xCascade),
    (4, 1, b2n (s.safety.laneLost[0] || s.safety.laneLost[1])), (3, 1, b2n f.xFwImage), (2, 1, b2n (f.cullet == 0)),
    (1, 1, b2n (f.cpu == .puntyWith0 || f.cpu == .puntyWith1)), (0, 1, b2n (e == .simplexA || e == .simplexB))]

def faultNoun (s : State) (off : Nat) : Int :=
  let f := s.faults
  match off with
  | 0 => s.faultStatus
  | 1 => f.transients
  | 2 => f.rollbacks
  | 3 => f.corrected
  | 4 => f.uncorrectable
  | 6 => s.log.persistent.length
  | 7 => s.log.overwritten
  | _ => 0

/-- `N:0x9000` (R445). -/
def cascadeStatus (s : State) : Int :=
  let c := s.cascade
  pack [(24, 8, c.members.toNat), (21, 3, c.master.val), (8, 8, c.mepoch.toNat), (7, 1, b2n c.locked), (6, 1, b2n c.formed),
    (5, 1, b2n c.dupId), (4, 1, b2n c.isMaster), (3, 1, b2n c.aIn), (2, 1, b2n c.aOut), (1, 1, b2n c.bIn),
    (0, 1, b2n c.bOut)]

/-- `N:0x9001` (R444): IDs in direction A, 0xF beyond the last. -/
def ringOrder (s : State) : Int :=
  pack ((List.range 8).map fun i => (4 * i, 4, match s.cascade.order[i]? with
    | some k => k.val
    | none => 15))

def cascadeNoun (s : State) (off : Nat) : Int :=
  let c := s.cascade
  match off with
  | 0 => s.cascadeStatus
  | 1 => s.ringOrder
  | 2 => c.crcA
  | 3 => c.crcB
  | 4 => c.misses
  | 5 => c.takeovers
  | _ => 0

/-! ## Roster, power, start, store, device -/

def rosterNoun (s : State) (off : Nat) : Int :=
  let l := s.roster.entries
  match off with
  | 0 => l.length
  | 1 => s.roster.epoch.toNat
  | 2 => (l.filter fun e => e.2.silent).length
  | 3 => (l.filter fun e => e.2.dup.isSome).length
  | _ => 0

/-- `N:0xA000` (R463). -/
def powerStatus (s : State) : Int :=
  let p := s.power
  pack [(15, 1, b2n p.vinOk), (14, 1, b2n p.vLow), (13, 1, b2n p.vLowSeen), (12, 1, b2n p.xtalLost),
    (10, 2, p.reference.val), (9, 1, b2n p.xtalFit), (8, 1, b2n s.faults.puntyPower)]

/-- `N:0xA00C` (R464). -/
def wakeRecord (s : State) : Int :=
  pack [(24, 8, s.power.cause), (18, 1, b2n s.power.timerBit), (0, 18, s.power.sources.toNat)]

def powerNoun (s : State) (off : Nat) : Int :=
  match off with
  | 0x00 => s.powerStatus
  | 0x01 => s.life.vin
  | 0x02 => s.life.control
  | 0x03 => s.life.keeper
  | 0x0C => s.wakeRecord
  | 0x0D => s.power.sleeps
  | 0x0E => s.power.lastSleep
  | _ => 0

/-- `N:0xB000` (R487). -/
def startStatus (s : State) : Int :=
  let q := s.start
  pack [(24, 8, q.fstep), (16, 4, q.wfail), (7, 1, b2n q.safeHold), (6, 1, b2n q.ready), (5, 1, b2n q.rstMask),
    (4, 1, b2n q.seqChg), (3, 1, b2n q.bistSkip), (2, 1, b2n q.fback), (0, 2, if q.warm then 2 else 1)]

def startNoun (s : State) (off : Nat) : Int :=
  match off with
  | 0 => s.startStatus
  | 1 => s.start.colds
  | 2 => s.start.warms
  | 3 => s.start.micros
  | _ => 0

/-- The ACTIVE copy: the valid one of the highest SEQ (R389), copy 0 where none is valid. -/
def activeCopy (s : State) : Fin 2 :=
  let a := s.store.copies[0]
  let b := s.store.copies[1]
  if b.valid && (!a.valid || decide (a.seq < b.seq)) then 1 else 0

/-- `N:0xC010` (R389). -/
def storeStatus (s : State) : Int :=
  let q := s.store
  pack [(8, 8, q.lastErr), (7, 1, b2n q.exhausted), (6, 1, b2n q.busy.isSome), (3, 1, b2n (q.copies[1]).valid),
    (2, 1, b2n (q.copies[0]).valid), (0, 1, s.activeCopy.val)]

def storeNoun (s : State) (off : Nat) : Int :=
  let seq := fun (c : CopySt) => if c.valid then (c.seq : Int) else 0
  match off with
  | 0x10 => s.storeStatus
  | 0x11 => seq s.store.copies[0]
  | 0x12 => seq s.store.copies[1]
  | 0x13 => (sget 0 s.store.staged 2).toNat
  | _ => 0

/-- Device and life nouns (R374, R570). -/
def deviceNoun (s : State) (off : Nat) : Int :=
  match off with
  | 0x00 => s.member.code
  | 0x01 => 0x42
  | 0x02 => 0x03020000 + Config.fwBuild.toNat
  | 0x03 => Config.uniqueId.toNat
  | 0x04 => s.time.powered / 80000
  | 0x05 => s.time.active / 80000
  | 0x06 => s.time.keeper
  | 0x08 => s.life.acc
  | 0x09 => clampI 0 4294967295 (s.life.acc / 5480)
  | 0x0A => s.store.due
  | 0x0B => clampI 0 4294967295 (s.store.oldest / 100)
  | _ => 0

/-- The value a READ returns for a noun that has one. -/
def readNoun (s : State) (id : Nat) : Int :=
  let own : Bool := (nounSpec s.member id).any fun p => decide (p.acc = .rw)
  match nounClass id with
  | some (.main m 0x31) => s.presentMode m
  | some (.safety off) => s.safetyNoun off
  | some c =>
    if own then s.noun id
    else match c with
      | .group g off => s.groupNoun g off
      | .main m off => s.mainNoun m off
      | .link l off => s.linkNoun l off
      | .ledger _ => s.ledger.epoch.toNat
      | .aux a off => s.auxNoun a off
      | .fault off => s.faultNoun off
      | .roster off => s.rosterNoun off
      | .cascade off => s.cascadeNoun off
      | .power off => s.powerNoun off
      | .start off => s.startNoun off
      | .store off => s.storeNoun off
      | .device off => s.deviceNoun off
      | _ => 0
  | none => 0

end State

end Sys2Proof.Machine
end

