-- ==== Sys2Proof/Machine/Mailbox.lean ====
section
/-! DEFINITION. Sentences, replies, slots and tickets (R346 to R368): the encoding of a sentence, the output journal's
release, the mailbox slots, taking a sentence and its take-up. -/

namespace Sys2Proof.Machine

/-! ## Sentences (R353, R354) -/

/-- The opcodes of R378. -/
def verbCodes : List Nat := [0x01, 0x02, 0x03, 0x04, 0x10, 0x11, 0x20, 0x21, 0x22, 0x23, 0x30, 0x40, 0x41, 0x42, 0x50, 0x51]

/-- The adverbs a verb accepts (R378): 1 NOW, 2 AT-SAMPLE, 3 AFTER, 4 QUIET, 5 FORCE. -/
def adverbsFor (verb : Nat) : List Nat :=
  if verb = 0x02 ∨ (0x20 ≤ verb ∧ verb ≤ 0x23) then [1, 2, 3, 4]
  else if verb = 0x30 then [1, 4]
  else if verb = 0x40 ∨ verb = 0x41 ∨ verb = 0x50 then [3, 4]
  else if verb = 0x42 then [3, 4, 5]
  else if verb = 0x51 then [3, 5]
  else [1, 3, 4]

/-- A sentence from its words (R353, R354). With `exact` the words are those that a CAN session carried, and words past the
payload must be zero (R367). -/
def readSentence (ws : List Word) (exact : Bool) : Sentence :=
  let w0 := (ws.getD 0 0).toNat
  let w1 := (ws.getD 1 0).toNat
  let codes := (List.range 4).map fun i => bitsOf w1 (16 + 4 * i) 4
  let adverbs := codes.takeWhile fun c => c != 0
  let gap := (codes.dropWhile fun c => c != 0).any fun c => c != 0
  let named := adverbs.filter fun c => c == 2 || c == 3
  let len := bitsOf w0 16 8
  let operands := (ws.drop 2).take named.length
  let used := 2 + named.length + len
  let badOperand := (List.zip named operands).any fun p => p.1 == 3 && decide (65536 ≤ p.2.toNat)
  let padOk := !exact || (decide (used ≤ ws.length) && (ws.drop used).all fun w => w == 0)
  { verb := bitsOf w0 24 8
    len
    noun := bitsOf w0 0 16
    arg := bitsOf w1 0 16
    adverbs
    operands
    payload := (ws.drop (2 + named.length)).take len
    wellFormed := verbCodes.contains (bitsOf w0 24 8) && decide (used ≤ 16) && !gap && adverbs.all (fun c => decide (c < 6)) &&
      decide adverbs.Nodup && !(adverbs.contains 1 && !named.isEmpty) && !badOperand && padOk }

/-- An adverb is present. -/
def Sentence.has (x : Sentence) (code : Nat) : Bool := x.adverbs.contains code

/-- The operand of AT-SAMPLE (2) or AFTER (3). -/
def Sentence.operand (x : Sentence) (code : Nat) : Option Nat :=
  ((List.zip (x.adverbs.filter fun c => c == 2 || c == 3) x.operands).lookup code).map BitVec.toNat

/-! ## Replies (R355) -/

/-- TENSE codes. -/
def Tense.code : Tense → Nat
  | .future => 1
  | .present => 2
  | .past => 3

/-- The words of a reply (R355). -/
def replyWords (ticket status : Nat) (tense : Tense) (verb noun : Nat) (payload : List Word) : List Word :=
  BitVec.ofNat 32 (field 16 16 ticket + field 8 8 status + field 6 2 tense.code) ::
    BitVec.ofNat 32 (field 24 8 verb + field 16 8 payload.length + field 0 16 noun) :: payload

/-- Sixteen slot words, zero beyond the given ones. -/
def slotWords (ws : List Word) : Vector Word 16 := Vector.ofFn fun i => ws.getD i.val 0

/-- The smallest DLC that holds a number of bytes (R367, R395). -/
def dlcFor (n : Nat) : Nat :=
  if n ≤ 8 then n
  else if n ≤ 12 then 9
  else if n ≤ 16 then 10
  else if n ≤ 20 then 11
  else if n ≤ 24 then 12
  else if n ≤ 32 then 13
  else if n ≤ 48 then 14
  else 15

/-- The bytes of words in the order of R367. -/
def wordBytes (ws : List Word) : List Byte := ws.flatMap fun w => (bytesLE w).map (BitVec.ofNat 8)

/-- Seven-byte pieces of a message, at most `k`. -/
def pieces : Nat → List Byte → List (List Byte)
  | 0, _ => []
  | k + 1, l => if l.length ≤ 7 then [l] else l.take 7 :: pieces k (l.drop 7)

/-- The segment byte of piece `i` of `n` (R367). -/
def segmentByte (i n : Nat) : Byte :=
  BitVec.ofNat 8 ((if n = 1 then 192 else if i = 0 then 128 else if i + 1 = n then 64 else 0) + i % 64)

/-- The frames that carry a reply on a session (R366, R367). -/
def replyFrames (ide segmented brs : Bool) (id : Nat) (ws : List Word) : List CanFrame :=
  let bytes := wordBytes ws
  if segmented then
    let ps := pieces 10 bytes
    ps.zipIdx.map fun p => { ide, rtr := false, id := BitVec.ofNat 29 id, fdf := false, brs := false, esi := false
                             dlc := BitVec.ofNat 4 (p.1.length + 1), data := segmentByte p.2 ps.length :: p.1 }
  else
    let d := dlcFor bytes.length
    [{ ide, rtr := false, id := BitVec.ofNat 29 id, fdf := true, brs, esi := false, dlc := BitVec.ofNat 4 d
       data := bytes ++ List.replicate (dlcBytes true d - bytes.length) 0 }]

namespace State

/-- The firmware, or the boot ROM (R482), takes sentences. -/
def serving (s : State) : Bool := s.fwRuns || s.power.phase == .romHold

/-- The host link answers (R344, R460, R481). -/
def hostUp (s : State) : Bool :=
  match s.power.phase with
  | .coldStart | .warmStart | .awake | .safeHold | .romHold => true
  | .noVin | .asleep | .inReset | .brownedOut => false

def modSlot (s : State) (i : Fin 16) (f : Slot → Slot) : State := s.modMail fun m => { m with slots := vmod m.slots i f }

/-- Bits of MBX_ERR are set. -/
def mbxErr (s : State) (bit : Nat) : State := s.modMail fun m => { m with err := m.err ||| (1#6 <<< bit) }

/-- A reply enters a slot (R349, R352). -/
def slotReply (s : State) (i : Fin 16) (ws : List Word) (past notice : Bool) : State :=
  (s.modSlot i fun x => { x with words := slotWords ws, state := .replied, past }).modMail fun m =>
    { m with reply := if notice then m.reply ||| (1#16 <<< i.val) else m.reply }

/-- A port can send frames (R368, R397, R411). -/
def canSend (s : State) (p : Port) : Bool :=
  ((s.can[p]).mode.val == 1 || (s.can[p]).mode.val == 4) && (s.can[p]).fcs != .busOff

/-- A session is enabled (R366). -/
def sessionOn (s : State) (p : Port) (k : Fin 8) : Bool := bitAt (s.pNounN p 0x40) k.val

/-- A reply goes to a session (R366 to R368). A reply that the port cannot send is discarded when the ticket completes. The bit-rate
switch of an FD reply is open (log entry 41). -/
def sessionReply (s : State) (p : Port) (k : Fin 8) (ticket : Nat) (ws : List Word) (past notice : Bool) : State :=
  let s1 := if past && !s.canSend p then
      s.modBufs p fun b => { b with replies := b.replies.filter fun r => !(r.1 == k && r.2.1 == ticket) }
    else s
  if !s.sessionOn p k || !notice || (past && !s.canSend p) then s1
  else
    let brs := (s.can[p]).brsEn && Config.freeChoice s.free
    let frames := replyFrames (s.pNoun p 0x42 == 1) (s.pNoun p 0x43 == 1) brs (s.pNounN p 0x41 + 2 * k.val + 1) ws
    (s1.modBufs p fun b => { b with replies := b.replies ++ frames.map fun f => (k, ticket, f) }).drawn

/-- One output leaves the journal (R321, R352). -/
def deliver (s : State) (o : Output) : State :=
  match o with
  | .reply t status tense payload =>
    match s.ticket? t with
    | none => s
    | some k =>
      let notice := !(tense = .past ∧ status = stDone ∧ k.sent.has 4 = true)
      let ws := replyWords t status tense k.sent.verb k.sent.noun payload
      let s1 := match k.origin with
        | .slot i => s.slotReply i ws (tense = .past) notice
        | .detached =>
          if tense = .past ∧ notice = true then s.modMail fun m =>
            { m with completions := m.completions ++ [{ ticket := t, status }] }
          else s
        | .session p c => s.sessionReply p c t ws (tense = .past) notice
      if tense = .past then s1.modMail fun m => { m with tickets := m.tickets.filter fun x => x.num != t } else s1
  | .bareReply origin status verb noun =>
    let ws := replyWords 0 status .past verb noun []
    match origin with
    | .slot i => s.slotReply i ws true true
    | .detached => s
    | .session p c => s.sessionReply p c 0 ws true true
  | .log r => { s with log := addRecord s.log r }
  | .engine g n c => s.modGroup g fun q => { q with inbox := q.inbox ++ [(n, c)] }
  | .motion g n c => s.modGroup g fun q => { q with orders := q.orders ++ [(n, c)] }

/-- The output journal is released at a checkpoint (R321). -/
def releaseJournal (s : State) : State :=
  s.mail.output.foldl deliver (s.modMail fun m => { m with output := [] })

/-! ## Slots (R349 to R352) -/

/-- Places of the completion list that are taken (R352). -/
def placesTaken (s : State) : Nat :=
  let m := s.mail
  m.completions.length + (m.tickets.filter fun k => k.origin == .detached).length +
    (m.input.filter fun e => e.2 == .detached).length

/-- What waits on a slot's reply loses the slot (R352). -/
def detachSlot (s : State) (i : Fin 16) : State :=
  let f : Origin → Origin := fun o => if o = .slot i then .detached else o
  s.modMail fun m => { m with
    input := m.input.map fun e => (e.1, f e.2)
    tickets := m.tickets.map fun k => { k with origin := f k.origin }
    output := m.output.map fun o => match o with
      | .bareReply g st v n => .bareReply (f g) st v n
      | _ => o }

/-- One slot is released (R349, R352). -/
def releaseSlot (s : State) (i : Fin 16) : State :=
  let x := s.mail.slots[i]
  let free := fun (z : State) => z.modSlot i fun y => { y with state := .free, past := false, ticket := none }
  match x.state with
  | .free => s
  | .posted => (free s).modMail fun m => { m with posted := m.posted.filter fun j => j != i }
  | _ =>
    if x.past then free (s.detachSlot i)
    else if s.placesTaken < 32 then free (s.detachSlot i)
    else s.mbxErr 4

/-- The slots a mask names, in rising order. -/
def slotsOf (mask : Nat) : List (Fin 16) := (fins 16).filter fun i => bitAt mask i.val

/-- A write of MBX_RELEASE. -/
def releaseSlots (s : State) (mask : Nat) : State := (slotsOf mask).foldl releaseSlot s

/-- A hardware answer in a slot (R324, R351): TENSE PAST, no ticket. -/
def answerSlot (s : State) (i : Fin 16) (status : Nat) : State :=
  let x := readSentence (s.mail.slots[i]).words.toList false
  s.slotReply i (replyWords 0 status .past x.verb x.noun []) true true

/-- A doorbell names only FREE slots; else its frame is rejected (R351). -/
def doorbellOk (s : State) (mask : Nat) : Bool := (slotsOf mask).all fun i => (s.mail.slots[i]).state == .free

/-- A write of MBX_DOORBELL (R349 to R351). -/
def ringDoorbell (s : State) (mask : Nat) : State :=
  if !s.mail.fwReady then
    (slotsOf mask).foldl (fun (z : State) i => z.answerSlot i stBusy) (if mask % 65536 = 0 then s else s.mbxErr 5)
  else
    (slotsOf mask).foldl (fun (z : State) i => (z.modSlot i fun x => { x with state := .posted, past := false }).modMail fun m =>
      { m with posted := m.posted ++ [i] }) s

/-- MBX_DOORBELL (R349). -/
def execMbxDoorbell (slots : BitVec 16) (s : State) : Out :=
  .next (
    if s.hostUp then
      (if s.doorbellOk slots.toNat then s.ringDoorbell slots.toNat else s.mbxErr 4)
    else s)

/-- MBX_RELEASE (R349). -/
def execMbxRelease (slots : BitVec 16) (s : State) : Out := .next (if s.hostUp then s.releaseSlots slots.toNat else s)

/-- MBX_CPLACK (R352). -/
def execMbxCplack (n : BitVec 6) (s : State) : Out :=
  .next (if s.hostUp then s.modMail fun m => { m with completions := m.completions.drop n.toNat } else s)

/-- SLOT_TAKEN (R350): the hardware takes the posted slot at the front; with the processor lost it answers it (R324). -/
def execSlotTaken (s : State) : Out :=
  .next (
    match s.mail.posted with
    | [] => s
    | i :: r =>
      if !s.hostUp then s
      else
        let s1 := s.modMail fun m => { m with posted := r }
        if s.faults.cpu = .lost then s1.answerSlot i stState
        else
          let x := readSentence (s.mail.slots[i]).words.toList false
          (s1.modSlot i fun y => { y with state := .taken, past := false }).modMail fun m =>
            { m with input := m.input ++ [(x, .slot i)] })

/-! ## Taking a sentence (R336, R354, R357, R368) -/

/-- The next ticket number (R336): after 0xFFFF comes 0x0001, and numbers in flight are skipped. -/
def nextNumber (used : List Nat) : Nat → Nat → Nat
  | 0, n => n
  | k + 1, n =>
    let m := if 65535 ≤ n then 1 else n + 1
    if used.contains m then nextNumber used k m else m

/-- In-flight tickets of a session. -/
def sessionCount (s : State) (p : Port) (k : Fin 8) : Nat :=
  (s.mail.tickets.filter fun x => x.tense != .past && x.origin == .session p k).length

/-- A session that already has 4 tickets in flight (R368). -/
def sessionFull (s : State) (o : Origin) : Bool :=
  match o with
  | .session p k => decide (4 ≤ s.sessionCount p k)
  | _ => false

/-- The status of a ticket that reached PAST, while it is remembered (R357). -/
def ended? (s : State) (t : Nat) : Option Nat := (s.mail.ended.find? fun e => e.num == t).map Ended.status

/-- A sentence that safe hold serves (R481), or the boot ROM (R482). -/
def holdServes (s : State) (x : Sentence) : Bool :=
  let hi := x.noun / 4096
  if s.power.phase = .romHold then
    (x.verb == 0x01 && [0xB, 0xE, 0x7].contains hi) || x.verb == 0x51
  else
    (x.verb == 0x01 && [0x7, 0xA, 0xB, 0xE, 0xD, 0xC, 0x6].contains hi) ||
      ((x.verb == 0x03 || x.verb == 0x41) && x.noun == 0xC000) || x.verb == 0x51

/-- In safe hold or served from ROM. -/
def holding (s : State) : Bool := s.power.phase == .safeHold || s.power.phase == .romHold

/-- A refusal that comes with the ticket (R360, R362, R378, R481). -/
def earlyRefusal (s : State) (x : Sentence) : Option Nat :=
  if s.holding && !s.holdServes x then some stState
  else if !x.adverbs.all (adverbsFor x.verb).contains then some stFormat
  else match x.operand 3 with
    | none => none
    | some k => if k = 0 ∨ ((s.inFlight? k).isNone ∧ (s.ended? k).isNone) then some stTicket else none

/-- A ticket is issued (R357, R359, R364). -/
def issue (s : State) (x : Sentence) (o : Origin) : State :=
  let used := s.mail.tickets.map Ticket.num
  let n := nextNumber used (used.length + 1) s.mail.lastTicket
  let stage : Stage := if x.has 1 || x.verb == 0x30 then .taken else .held
  let why := s.earlyRefusal x
  let s1 := s.modMail fun m => { m with
    lastTicket := n
    tickets := m.tickets ++ [{ num := n, sent := x, origin := o, stage }] }
  match why with
  | some st => s1.finish n st
  | none => s1.emit (.reply n stPending .future [])

/-- SENTENCE_TAKEN (R354): the firmware takes the sentence at the front of its input journal. -/
def execSentenceTaken (s : State) : Out :=
  .next (
    match s.mail.input with
    | [] => s
    | (x, o) :: r =>
      if !s.serving then s
      else
        let s1 := s.modMail fun m => { m with input := r }
        if !x.wellFormed then s1.emit (.bareReply o stFormat x.verb x.noun)
        else if 32 ≤ s.inFlightCount ∨ s.sessionFull o = true then s1.emit (.bareReply o stBusy x.verb x.noun)
        else s1.issue x o)

/-! ## Take-up (R358 to R361, R388) -/

/-- The group a noun belongs to, of itself or through its axis (R361). -/
def nounGroup (s : State) (id : Nat) : Option Grp :=
  match nounObj id with
  | some (.group g) => some g
  | some (.main m) => s.groupOfMain m
  | some (.aux a) => s.groupOfAux a
  | _ => none

/-- Two tickets name nouns of one object. IDs outside every class are in no object's order. -/
def sameObject (a b : Ticket) : Bool := (nounObj a.sent.noun).isSome && nounObj a.sent.noun == nounObj b.sent.noun

/-- Tickets ahead of one in ticket order. -/
def ticketsBefore (s : State) (t : Nat) : List Ticket := s.mail.tickets.takeWhile fun k => k.num != t

/-- A ticket that is taken up and has not begun its action, and goes ahead of the order of R358. -/
def goesFirst (k : Ticket) : Bool := k.tense != .past && k.stage == .taken && (k.sent.has 1 || k.sent.verb == 0x30)

/-- A held sentence must wait (R358, R359, R388). -/
def mustWait (s : State) (k : Ticket) : Bool :=
  let ahead := s.ticketsBefore k.num
  ahead.any (fun x => sameObject x k && x.tense == .future) ||
    s.mail.tickets.any (fun x => sameObject x k && goesFirst x) ||
    (nounObj k.sent.noun == some .store && ahead.any fun x => sameObject x k && x.tense == .present)

/-- What R360 says of a sentence with AFTER: none while it waits, some none when it proceeds, some status when it ends. -/
def afterState (s : State) (k : Ticket) : Option (Option Nat) :=
  match k.sent.operand 3 with
  | none => some none
  | some x =>
    if (s.inFlight? x).isSome then none
    else match s.ended? x with
      | none => some (some stTicket)
      | some st => if st ≤ 0x3F then some none else some (some stPriorFailed)

/-- What R361 says of a sentence with AT-SAMPLE at take-up. -/
def sampleRefusal (s : State) (k : Ticket) : Option Nat :=
  match k.sent.operand 2 with
  | none => none
  | some n =>
    match s.nounGroup k.sent.noun with
    | none => some stConflict
    | some g =>
      let q := s.groups[g]
      let ahead := (n + 4294967296 - q.sample.toNat) % 4294967296
      if !q.running then some stState
      else if ahead < 2 ∨ 2147483648 ≤ ahead then some stTooLate
      else none

/-- SENTENCE_TAKE_UP (R358): a held sentence is taken up once its order, AFTER and AT-SAMPLE allow. -/
def execSentenceTakeUp (t : BitVec 16) (s : State) : Out :=
  .next (
    match s.inFlight? t.toNat with
    | none => s
    | some k =>
      if !s.serving || k.stage != .held then s
      else match s.afterState k with
        | none => s
        | some (some st) => s.finish k.num st
        | some none =>
          if s.mustWait k then s
          else match s.sampleRefusal k with
            | some st => s.finish k.num st
            | none => s.modTicket k.num fun x => { x with stage := .taken })

/-- A ticket whose verb's action is due: taken up, the action not begun, no NOW sentence of a lower number ahead on its object. -/
def due? (s : State) (t verb : Nat) : Option Ticket :=
  match s.inFlight? t with
  | none => none
  | some k =>
    if s.serving && k.stage == .taken && k.sent.verb == verb &&
      !(s.ticketsBefore t).any (fun x => sameObject x k && goesFirst x) then some k else none

end State

end Sys2Proof.Machine
end

