-- ==== Sys2Proof/Machine/Can.lean ====
section
/-! DEFINITION. The CAN ports and the node roster (R394 to R427) and the CAN sessions (R366 to R368). -/

namespace Sys2Proof.Machine

/-! ## Timing (R398, R399) -/

/-- Clocks of a bit and whether SJW is at most TSEG2. -/
def timingOk (tseg1 tseg2 sjw brp least : Nat) : Bool :=
  decide (least ≤ (brp + 1) * (1 + (tseg1 + 1) + (tseg2 + 1))) && decide (sjw ≤ tseg2)

/-- Valid nominal timing (R399). -/
def nominalOk (w : Word) : Bool :=
  timingOk (bitsOf w.toNat 24 8) (bitsOf w.toNat 16 7) (bitsOf w.toNat 8 7) (bitsOf w.toNat 0 8) 80

/-- Valid data timing (R399). -/
def dataOk (w : Word) : Bool :=
  timingOk (bitsOf w.toNat 24 5) (bitsOf w.toNat 16 4) (bitsOf w.toNat 8 4) (bitsOf w.toNat 0 5) 10

/-! ## Ports -/

def portIrq (c : CanPort) (bit : Nat) : CanPort := { c with irq := c.irq ||| (1#10 <<< bit) }

/-- A change of FCS (R410). -/
def setFcs (c : CanPort) (f : Fcs) : CanPort :=
  if c.fcs = f then c
  else
    let d := portIrq { c with fcs := f } 7
    if f = .passive then { d with ePass := true } else d

/-- MODE takes a value (R397). -/
def applyMode (c : CanPort) (v : Fin 5) : CanPort :=
  if v.val = 0 then
    setFcs { c with
      mode := v
      nextMode := none
      tec := 0
      recv := 0
      synced := false
      recov := false
      recovering := false
      excepted := false } .init
  else if c.mode.val = 0 then setFcs { c with mode := v, nextMode := none, synced := false } .active
  else { c with mode := v, nextMode := none }

/-- A port that takes part on the bus. -/
def onBus (c : CanPort) : Bool := c.mode.val != 0 && c.synced && !c.excepted && c.fcs != .busOff

/-- The error counters run (R397). -/
def counts (c : CanPort) : Bool := c.mode.val == 1 || c.mode.val == 4

/-- FCS as the counters give it, for a port that is not bus-off (R410). -/
def confine (c : CanPort) : CanPort :=
  if c.fcs = .busOff ∨ c.fcs = .init then c
  else setFcs c (if 255 < c.tec then .busOff else if 127 < c.tec ∨ 127 < c.recv then .passive else .active)

namespace State

/-- The port is present and the CAN clocks run with the firmware's image (R7, R421, R481). -/
def portUp (s : State) (p : Port) : Bool := s.awake && decide (p.val < s.member.counts.ports)

/-- A write of MODE (R397, R399). -/
def writeMode (s : State) (p : Port) (v : Nat) : State :=
  let c := s.can[p]
  match fin? 5 v with
  | none => s.modPort p fun c => { c with wRej := true }
  | some k =>
    if s.faults.cpu = .lost then (if k = c.mode then s else s.modPort p fun c => { c with wRej := true })
    else if c.mode.val = 0 ∧ k.val ≠ 0 ∧ !(nominalOk c.nbt && (!c.fdEn || dataOk c.dbt)) then
      s.modPort p fun c => { c with timErr := true }
    else if counts c ∧ k ≠ c.mode ∧ (s.canBufs[p]).sending.isSome then s.modPort p fun c => { c with nextMode := some k }
    else if k = c.mode then s.modPort p fun c => { c with nextMode := none }
    else s.modPort p fun c => applyMode c k

/-- BUS_MODE_WRITE (R397). -/
def execBusModeWrite (p : Port) (mode : BitVec 3) (s : State) : Out :=
  .next (if s.portUp p then s.otherFrame.writeMode p mode.toNat else s)

/-- A write of RECOVER (R411). -/
def startRecovery (s : State) (p : Port) : State :=
  s.modPort p fun c => if c.fcs = .busOff then { c with recovering := true } else c

/-- RECOVER (R411). -/
def execRecover (p : Port) (s : State) : Out := .next (if s.portUp p then s.otherFrame.startRecovery p else s)

/-- CAN_BUS_INTEGRATION (R397): 11 recessive bits after INIT. -/
def execCanBusIntegration (p : Port) (s : State) : Out :=
  .next (if s.portUp p then s.modPort p fun c => if c.mode.val = 0 then c else { c with synced := true } else s)

/-- A protocol exception (R396). -/
def protoException (s : State) (p : Port) : State :=
  (s.modPort p fun c => portIrq { c with pex := true, excepted := true } 8).modBufs p fun b => { b with pexCnt := inc32 b.pexCnt }

/-- PROTOCOL_EXCEPTION (R396). -/
def execProtocolException (p : Port) (s : State) : Out :=
  .next (if s.portUp p && onBus s.can[p] then s.protoException p else s)

/-- PROTOCOL_EXCEPTION_END (R396): 11 recessive bits. -/
def execProtocolExceptionEnd (p : Port) (s : State) : Out :=
  .next (if s.portUp p then s.modPort p fun c => { c with excepted := false } else s)

/-! ## Timestamps (R412) -/

/-- BUSn_TSC as at the last frame tick. -/
def tsc (s : State) : Nat := (clampI 0 4294967295 (floorDiv s.roster.tsc2 2)).toNat

/-- The epoch of a stamp: a stamp from before the last wrap carries the epoch before it. -/
def epochOf (s : State) (stamp : Nat) : Word :=
  if 2147483648 ≤ stamp ∧ s.tsc < 2147483648 then s.roster.epoch - 1 else s.roster.epoch

/-- 64-bit time in µs. -/
def time64 (s : State) : Nat := s.roster.epoch.toNat * 4294967296 + s.tsc

/-- TIMESTAMP_WRAP (R412). -/
def execTimestampWrap (s : State) : Out :=
  .next (if s.awake then
    { s with roster := { s.roster with epoch := s.roster.epoch + 1, tsc2 := s.roster.tsc2 - 8589934592 } }
  else s)

/-! ## The roster (R415 to R420) -/

def modRoster (s : State) (f : List (Nat × RosterEntry) → List (Nat × RosterEntry)) : State :=
  { s with roster := { s.roster with entries := f s.roster.entries } }

/-- The node number of an identifier on a port (R415). -/
def nodeOf (s : State) (p : Port) (id : Nat) : Nat := (id / 2 ^ s.pNounN p 0x22) &&& s.pNounN p 0x21

/-- The port takes part in the roster and accepts the format (R415). -/
def rosterCounts (s : State) (p : Port) (ide : Bool) : Bool :=
  s.pNoun p 0x20 == 1 && (s.pNoun p 0x23 == 2 || (s.pNoun p 0x23 == 1) == ide)

/-- The roster index of a node. -/
def rosterFind (s : State) (p : Port) (node : Nat) : Option Nat :=
  (s.roster.entries.find? fun e => e.2.port == p && e.2.node == node).map (·.1)

/-- The lowest free index of a rising list from `k`. -/
def freeIndex : Nat → List (Nat × RosterEntry) → Nat
  | k, [] => k
  | k, e :: r => if e.1 = k then freeIndex (k + 1) r else k

/-- The entry with the oldest last-seen time. -/
def oldestEntry : List (Nat × RosterEntry) → Option (Nat × RosterEntry)
  | [] => none
  | e :: r => match oldestEntry r with
    | none => some e
    | some f => if f.2.seen < e.2.seen then some f else some e

/-- A counted frame on a node (R416, R336). -/
def countFrame (s : State) (p : Port) (f : CanFrame) (stamp : Nat) : State :=
  let node := s.nodeOf p f.id.toNat
  let seen := (s.epochOf stamp).toNat * 4294967296 + stamp
  let fresh : RosterEntry := { port := p, node, silent := false, dup := none, lide := f.ide, seen, frames := 1, errors := 0
                               lastId := f.id }
  match s.rosterFind p node with
  | some i => s.modRoster fun l => l.map fun e => if e.1 = i then
      (i, { e.2 with seen, lastId := f.id, lide := f.ide, frames := inc32 e.2.frames, silent := false }) else e
  | none =>
    let l := s.roster.entries
    if l.length < 2048 then s.modRoster fun l => sins l (freeIndex 0 l) fresh
    else match oldestEntry l with
      | none => s
      | some e =>
        if e.2.seen + 3600000000 ≤ s.time64 then s.modRoster fun l => sins l e.1 fresh
        else
          let quiet := match s.roster.fullAt with
            | some t => decide (s.time.now < t + ticks1h)
            | none => false
          if quiet then s
          else ({ s with roster := { s.roster with fullAt := some s.time.now } }).logEvent sevWarn 0x0A40 (objPort p) p.val

/-- ROSTER_SILENCE_CHECK (R417), every 10 ms. -/
def execRosterSilenceCheck (s : State) : Out :=
  .next (if s.awake then s.modRoster fun l => l.map fun e =>
      if e.2.seen + s.pNounN e.2.port 0x24 * 1000 < s.time64 then (e.1, { e.2 with silent := true }) else e
    else s)

/-- BUS_RSEL (R420). -/
def execBusRsel (p : Port) (index : BitVec 11) (s : State) : Out :=
  .next (if s.portUp p then s.otherFrame.modBufs p fun b => { b with rsel := index } else s)

/-! ## Duplicate identifiers (R413, R414) -/

/-- DUP and DUPID of the node of an identifier. -/
def setDup (s : State) (p : Port) (id : BitVec 29) (on : Bool) : State :=
  let node := s.nodeOf p id.toNat
  s.modRoster fun l => l.map fun e =>
    if e.2.port = p ∧ e.2.node = node then
      (e.1, { e.2 with dup := if on then some id else if e.2.dup = some id then none else e.2.dup })
    else e

/-- The place of the tracked identifier with the oldest last error. -/
def oldestTracked : List Tracked → Option Tracked
  | [] => none
  | e :: r => match oldestTracked r with
    | none => some e
    | some f => if f.last < e.last then some f else some e

/-- A post-arbitration error on an identifier (R413, R414). -/
def trackError (s : State) (p : Port) (ide : Bool) (id : BitVec 29) : State :=
  let now := s.time.now
  let isIt := fun (t : Tracked) => t.ide == ide && t.id == id
  let l := (s.canBufs[p]).tracked
  let s0 := match s.rosterFind p (s.nodeOf p id.toNat) with
    | some i => s.modRoster fun l => l.map fun e => if e.1 = i then (i, { e.2 with errors := inc32 e.2.errors }) else e
    | none => s
  match l.find? isIt with
  | some t =>
    let errs := (now :: t.errors).take 3
    let hit := !t.marked && decide (errs.length = 3) && decide (now ≤ errs.getLastD now + ticks1s)
    let s1 := s0.modBufs p fun b => { b with
      tracked := b.tracked.map fun x =>
      if isIt x then { x with errors := errs, last := now, marked := x.marked || hit } else x }
    if hit then
      ((s1.modPort p fun c => portIrq c 9).logEvent sevWarn 0x0B01 p.val id.toNat).setDup p id true
    else s1
  | none =>
    let one : Tracked := { ide, id, errors := [now], last := now, marked := false }
    if l.length < 16 then s0.modBufs p fun b => { b with tracked := b.tracked ++ [one] }
    else match oldestTracked l with
      | none => s0
      | some o =>
        let s1 := if o.marked then s0.setDup p o.id false else s0
        s1.modBufs p fun b => { b with tracked := (b.tracked.filter fun x => !(x.ide == o.ide && x.id == o.id)) ++ [one] }

/-- DUPLICATE_MARK_EXPIRY (R414): 60 s without a post-arbitration error on the identifier. -/
def execDuplicateMarkExpiry (p : Port) (ide : Bool) (id : BitVec 29) (s : State) : Out :=
  let isIt := fun (t : Tracked) => t.ide == ide && t.id == id
  .next (
    if (s.canBufs[p]).tracked.any (fun t => isIt t && t.marked) then
      (s.modBufs p fun b => { b with
      tracked := b.tracked.map fun x =>
        if isIt x then { x with marked := false, errors := [] } else x }).setDup p id false
    else s)

/-! ## Error confinement (R410, R411) -/

/-- Codes of LEC (R423). -/
def lecCode : CanErrorKind → Fin 7
  | .stuff => 1
  | .form => 2
  | .ack => 3
  | .bit1 => 4
  | .bit0 => 5
  | .crc => 6

/-- Entry to BUS-OFF (R411). -/
def enterBusOff (s : State) (p : Port) (tec : Nat) : State :=
  ((s.modPort p fun c => { c with bOff := true, recov := true, recovering := c.abor, offSince := s.time.now }).modBufs p fun b =>
    { b with
      sending := none
      tx := b.tx.map fun x => if x.state = .active then { x with state := .pending, aborting := false } else x }).logEvent
    sevWarn 0x0B02 (objPort p) (minI 256 tec)

/-- Buffers that had an abort waiting when BUS-OFF ended their attempt (R409). -/
def endAborts (s : State) (p : Port) : State :=
  let waits := (fins 3).filter fun i => ((s.canBufs[p]).tx[i]).aborting
  waits.foldl (fun (z : State) i =>
    (z.modBufs p fun b => { b with tx := vmod b.tx i fun x => { x with state := .aborted, aborting := false } }).modPort p
      fun c => portIrq c (4 + i.val)) s

/-- CAN_ERROR_DETECTED (R410, R413). -/
def execCanErrorDetected (p : Port) (e : CanError) (s : State) : Out :=
  .next (
    if s.portUp p && onBus s.can[p] then
      let s1 := (s.modPort p fun c => { c with lec := lecCode e.kind, lecData := e.dataPhase }).modBufs p fun b =>
        { b with errCnt := inc32 b.errCnt }
      let s2 := s1.modPort p fun c =>
        if counts c then confine (if e.transmitter then (if e.exempt then c else { c with tec := c.tec + 8 })
          else { c with recv := Nat.min 255 (c.recv + (if e.heavy then 8 else 1)) })
        else c
      let s3 := if (s2.can[p]).fcs = .busOff then (s2.endAborts p).enterBusOff p (s2.can[p]).tec else s2
      match e.postArb with
      | some x => s3.trackError p x.1 x.2
      | none => s3
    else s)

/-- BUS_RECOVERED (R411): 128 occurrences of 11 recessive bits. -/
def execBusRecovered (p : Port) (s : State) : Out :=
  let c := s.can[p]
  .next (
    if s.portUp p && c.fcs == .busOff && c.recovering then
      (s.modPort p fun c => setFcs { c with tec := 0, recv := 0, recov := false, recovering := false } .active).logEvent
        sevInfo 0x0B03 (objPort p) ((s.time.now - c.offSince) / ticks1ms)
    else s)

/-! ## Receiving (R401 to R404, R416) -/

/-- The arbitration field of a frame as a number: the lower wins. -/
def arbKey (ide rtr : Bool) (id : Nat) : Nat :=
  if ide then (id / 262144) * 2097152 + 1048576 + 524288 + (id % 262144) * 2 + b2n rtr
  else id * 2097152 + b2n rtr * 1048576

/-- The words of a queue entry (R425). -/
def entryWords (f : CanFrame) (filter : Option Nat) (stamp : Nat) (epoch : Word) : List Word :=
  let w0 := BitVec.ofNat 32 (field 31 1 (b2n f.rtr) + field 30 1 (b2n f.ide) + field 0 29 f.id.toNat)
  let d := match filter with
    | some k => field 16 5 k
    | none => field 22 1 1
  let w1 := BitVec.ofNat 32 (d + field 7 1 (b2n f.esi) + field 6 1 (b2n f.brs) + field 5 1 (b2n f.fdf) + f.dlc.toNat)
  let bytes := f.data.map BitVec.toNat ++ List.replicate 64 0
  w0 :: w1 :: BitVec.ofNat 32 stamp :: epoch ::
    (List.range 16).map fun i => wordLE ((bytes.drop (4 * i)).take 4)

/-- Append an entry to a queue, or handle the overflow (R402, R404). -/
def appendQueue (s : State) (p : Port) (second : Bool) (e : QueueEntry) : State :=
  let b := s.canBufs[p]
  let q := if second then b.q1 else b.q0
  let k := if second then 1 else 0
  let put := fun (l : List QueueEntry) (x : CanBufs) => if second then { x with q1 := l } else { x with q0 := l }
  if q.length < 64 then (s.modBufs p (put (q ++ [e]))).modPort p fun c => portIrq c k
  else
    let s1 := (s.modBufs p fun x => if second then { x with ovf1 := satInc 65535 x.ovf1 } else { x with ovf0 := satInc 65535 x.ovf0 })
    let s2 := s1.modPort p fun c => portIrq c (2 + k)
    if (if second then (s.can[p]).q1Over else (s.can[p]).q0Over) then
      (s2.modBufs p (put (q.drop 1 ++ [e]))).modPort p fun c => portIrq c k
    else s2

/-- The filter pair that decides a frame: its number and QSEL (R401, R426). -/
def decideFilter (s : State) (p : Port) (f : CanFrame) : Option (Nat × Nat) :=
  let b := s.canBufs[p]
  let width := if f.ide then 536870912 else 2048
  match (fins 32).find? fun i =>
    let fid := (b.fid[i]).toNat
    let fm := (b.fmask[i]).toNat
    bitAt fid 31 && bitAt fid 30 == f.ide && decide (((f.id.toNat ^^^ fid) &&& fm) % width = 0) with
  | some i => some (i.val, bitsOf (b.fmask[i]).toNat 30 2)
  | none => none

/-- Filters and the default route a frame (R401). -/
def routeFrame (s : State) (p : Port) (f : CanFrame) (stamp : Nat) : State :=
  let ep := s.epochOf stamp
  match s.decideFilter p f with
  | some (k, 0) => s.appendQueue p false (entryWords f (some k) stamp ep)
  | some (k, 1) => s.appendQueue p true (entryWords f (some k) stamp ep)
  | some _ => s
  | none =>
    match (s.can[p]).defq.toNat with
    | 1 => s.appendQueue p false (entryWords f none stamp ep)
    | 2 => s.appendQueue p true (entryWords f none stamp ep)
    | _ => s

/-! ## Sessions (R366 to R368) -/

/-- The session whose request identifier a frame carries (R401). -/
def sessionOf (s : State) (p : Port) (f : CanFrame) : Option (Fin 8) :=
  if f.rtr || f.ide != (s.pNoun p 0x42 == 1) then none
  else (fins 8).find? fun k => s.sessionOn p k && f.id.toNat == s.pNounN p 0x41 + 2 * k.val

/-- Words of bytes, four at a time. -/
def bytesWords : Nat → List Byte → List Word
  | 0, _ => []
  | k + 1, l => if l.isEmpty then [] else wordLE ((l.take 4).map BitVec.toNat) :: bytesWords k (l.drop 4)

/-- A sentence assembled by a session: its length must be a whole number of words, two at least (R367). -/
def sessionSentence (bytes : List Byte) : Sentence :=
  let x := readSentence (bytesWords 16 bytes) true
  { x with wellFormed := x.wellFormed && decide (bytes.length % 4 = 0) && decide (8 ≤ bytes.length) && decide (bytes.length ≤ 64) }

def setPartial (s : State) (p : Port) (k : Fin 8) (x : Option Partial) : State :=
  s.modBufs p fun b => { b with partials := b.partials.set k x }

/-- A partial sentence is discarded: REFUSED-FORMAT and ticket 0 (R367). -/
def dropPartial (s : State) (p : Port) (k : Fin 8) : State :=
  let x := match (s.canBufs[p]).partials[k] with
    | some q => readSentence (bytesWords 16 q.bytes) true
    | none => readSentence [] true
  (s.setPartial p k none).emit (.bareReply (.session p k) stFormat x.verb x.noun)

/-- A sentence enters the input journal. -/
def arriveSentence (s : State) (p : Port) (k : Fin 8) (bytes : List Byte) : State :=
  s.modMail fun m => { m with input := m.input ++ [(sessionSentence bytes, .session p k)] }

/-- One segment of a SEGMENTED session (R367). -/
def segment (s : State) (p : Port) (k : Fin 8) (data : List Byte) : State :=
  let head := (data.headD 0).toNat
  let kind := head / 64
  let num := head % 64
  let rest := data.drop 1
  let old := (s.canBufs[p]).partials[k]
  if data.isEmpty then s.dropPartial p k
  else if 2 ≤ kind then
    let s1 := if old.isSome then s.dropPartial p k else s
    if num ≠ 0 then s1.dropPartial p k
    else if kind = 3 then s1.arriveSentence p k rest
    else s1.setPartial p k (some { bytes := rest, next := 1 })
  else match old with
    | none => s.dropPartial p k
    | some q =>
      if num ≠ q.next ∨ 64 < q.bytes.length + rest.length then s.dropPartial p k
      else if kind = 1 then (s.setPartial p k none).arriveSentence p k (q.bytes ++ rest)
      else s.setPartial p k (some { bytes := q.bytes ++ rest, next := q.next + 1 })

/-- A frame for a session. A frame of the other format than the carriage's is malformed (DEDUCED, log entry 42). -/
def sessionFrame (s : State) (p : Port) (k : Fin 8) (f : CanFrame) : State :=
  if s.faults.cpu = .lost then s
  else if s.pNoun p 0x43 = 1 then (if f.fdf then s.dropPartial p k else s.segment p k f.data)
  else if f.fdf then s.arriveSentence p k f.data
  else s.dropPartial p k

/-- CAN_SEGMENT_TIMEOUT (R367). -/
def execCanSegmentTimeout (p : Port) (session : Fin 8) (s : State) : Out :=
  .next (if ((s.canBufs[p]).partials[session]).isSome then s.dropPartial p session else s)

/-- A valid frame lowers REC (R410). ISO 11898-1 leaves the value after a receive-passive count open between 119 and 127. -/
def creditReceiver (s : State) (p : Port) : State :=
  if !counts s.can[p] then s
  else if 127 < (s.can[p]).recv then
    (s.modPort p fun c => confine { c with recv := 119 + (Config.freeValue s.free % 9).toNat }).drawn
  else s.modPort p fun c => confine { c with recv := c.recv - 1 }

/-- CAN_FRAME_RECEIVED (R401). -/
def execCanFrameReceived (p : Port) (f : CanFrame) (stamp : BitVec 32) (s : State) : Out :=
  let c := s.can[p]
  .next (
    if !(s.portUp p && onBus c) then s
    else if f.fdf && !c.fdEn then s.protoException p
    else
      let s1 := (s.creditReceiver p).modBufs p fun b => { b with rxCnt := inc32 b.rxCnt }
      let s2 := match s1.sessionOf p f with
        | some k => s1.sessionFrame p k f
        | none => s1.routeFrame p f stamp.toNat
      if s2.rosterCounts p f.ide && c.mode.val != 4 then s2.countFrame p f stamp.toNat else s2)

/-- Entries are removed from the queues (R403). -/
def ackQueues (s : State) (p : Port) (n0 n1 : Nat) : State :=
  s.modBufs p fun b => { b with q0 := b.q0.drop n0, q1 := b.q1.drop n1 }

/-- BUS_RXACK (R403). -/
def execBusRxack (p : Port) (q0 q1 : BitVec 7) (s : State) : Out :=
  .next (if s.portUp p then s.otherFrame.ackQueues p q0.toNat q1.toNat else s)

/-! ## Transmitting (R405 to R409) -/

def modTx (s : State) (p : Port) (i : Fin 3) (f : TxBuf → TxBuf) : State := s.modBufs p fun b => { b with tx := vmod b.tx i f }

/-- TXB2 belongs to the firmware (R406). -/
def firmwareTx (s : State) (p : Port) (i : Fin 3) : Bool := i.val == 2 && ((s.canBufs[p]).tx[i]).state == .firmware

/-- A request of one buffer (R405, R406). -/
def requestTx (s : State) (p : Port) (i : Fin 3) : State :=
  if s.firmwareTx p i then s.modPort p fun c => { c with wRej := true }
  else s.modTx p i fun x => match x.state with
    | .idle | .sent | .aborted | .failed => { x with state := .pending, aborting := false }
    | _ => x

/-- An abort of one buffer (R409). -/
def abortTx (s : State) (p : Port) (i : Fin 3) : State :=
  match ((s.canBufs[p]).tx[i]).state with
  | .pending => (s.modTx p i fun x => { x with state := .aborted }).modPort p fun c => portIrq c (4 + i.val)
  | .active => s.modTx p i fun x => { x with aborting := true }
  | _ => s

/-- A write of BUSn_TXREQ: a buffer in both masks is aborted only (R409). -/
def writeTxreq (s : State) (p : Port) (req abort : Nat) : State :=
  (fins 3).foldl (fun (z : State) i =>
    if bitAt abort i.val then z.abortTx p i else if bitAt req i.val then z.requestTx p i else z) s

/-- BUS_TX_REQUEST (R405). -/
def execBusTxRequest (p : Port) (buffers : BitVec 3) (s : State) : Out :=
  .next (if s.portUp p then s.otherFrame.writeTxreq p buffers.toNat 0 else s)

/-- BUS_TX_ABORT (R409). -/
def execBusTxAbort (p : Port) (buffers : BitVec 3) (s : State) : Out :=
  .next (if s.portUp p then s.otherFrame.writeTxreq p 0 buffers.toNat else s)

/-- The arbitration key of a buffer with a frame to send (R407). -/
def txKey (s : State) (p : Port) (i : Fin 3) : Option Nat :=
  let b := s.canBufs[p]
  match (b.tx[i]).state with
  | .pending =>
    let w0 := ((b.tx[i]).words[0]).toNat
    let fd := bitAt ((b.tx[i]).words[1]).toNat 5 && (s.can[p]).fdEn
    let ide := bitAt w0 30
    some (arbKey ide (bitAt w0 31 && !fd) (if ide then bitsOf w0 0 29 else bitsOf w0 0 11))
  | .firmware => match b.replies with
    | r :: _ => some (arbKey r.2.2.ide false r.2.2.id.toNat)
    | [] => none
  | _ => none

/-- The buffer chosen at a SOF (R407). -/
def chooseTx (s : State) (p : Port) : Option (Fin 3) :=
  let l := (fins 3).filterMap fun i => (s.txKey p i).map fun k => (i, k)
  let best := fun (a b : Fin 3 × Nat) => if (s.can[p]).txOrd || decide (a.2 ≤ b.2) then a else b
  match l with
  | [] => none
  | a :: r => some (r.foldl best a).1

/-- CAN_TRANSMIT_CHOICE (R407). -/
def execCanTransmitChoice (p : Port) (s : State) : Out :=
  let c := s.can[p]
  .next (
    if s.portUp p && onBus c && counts c && (s.canBufs[p]).sending.isNone then
      match s.chooseTx p with
      | none => s
      | some i =>
        (s.modBufs p fun b => { b with sending := some i }).modTx p i fun x =>
          if x.state = .firmware then x else { x with state := .active }
    else s)

/-- TXB2 follows the session mask (R406). -/
def ownTxb2 (s : State) (p : Port) : State :=
  let on := s.pNoun p 0x40 != 0
  s.modTx p 2 fun x =>
    if on then (if x.state = .active ∨ x.state = .pending then x else { x with state := .firmware })
    else if x.state = .firmware ∧ (s.canBufs[p]).sending ≠ some 2 then { x with state := .idle }
    else x

/-- A frame that BRS marks for the data rate was sent with compensation (R400). -/
def takeTdcv (s : State) (p : Port) (v : Nat) : State :=
  s.modPort p fun c => if c.tdcEn then { c with tdcv := BitVec.ofNat 7 (Nat.min 127 v) } else c

/-- CAN_TRANSMIT_END (R408, R409). -/
def execCanTransmitEnd (p : Port) (o : CanTxOutcome) (s : State) : Out :=
  .next (
    match (s.canBufs[p]).sending with
    | none => s
    | some i =>
      let fw := s.firmwareTx p i
      let s1 := s.modBufs p fun b => { b with sending := none }
      let s2 := match o with
        | .sent stamp tdcv =>
          let z1 := (s1.modTx p i fun x => { x with stamp := stamp, aborting := false }).modBufs p fun b =>
            { b with txCnt := inc32 b.txCnt, replies := if fw then b.replies.drop 1 else b.replies }
          let z2 := (z1.modPort p fun c => confine { c with tec := c.tec - 1 }).takeTdcv p tdcv
          if fw then z2 else (z2.modTx p i fun x => { x with state := .sent }).modPort p fun c => portIrq c (4 + i.val)
        | _ =>
          if fw then s1
          else
            let x := (s1.canBufs[p]).tx[i]
            if x.aborting then
              (s1.modTx p i fun x => { x with state := .aborted, aborting := false }).modPort p fun c => portIrq c (4 + i.val)
            else if (s1.can[p]).oneShot then
              (s1.modTx p i fun x => { x with state := .failed }).modPort p fun c => portIrq c (4 + i.val)
            else s1.modTx p i fun x => { x with state := .pending }
      let s3 := s2.ownTxb2 p
      match (s3.can[p]).nextMode with
      | some k => s3.modPort p fun c => applyMode c k
      | none => s3)

end State

end Sys2Proof.Machine
end

