-- ==== Sys2Proof/Machine/Cascade.lean ====
section
/-! DEFINITION. The cascade (R428 to R445): ring formation, SYNC and the master, packets and their copies, breaks, STATUS
packets. -/

namespace Sys2Proof.Machine

namespace State

/-- The cascade works: read as on at the last cold start, on a member that has one, while CD9 runs (R428, R457). -/
def cascadeOn (s : State) : Bool := s.awake && s.cascade.enabled && s.member.counts.cascade

/-! ## Formation (R430, R431) -/

/-- A ring order turned so that it begins with one module. -/
def orderFrom (me : Fin 8) (l : List (Fin 8)) : List (Fin 8) :=
  l.dropWhile (fun i => i != me) ++ l.takeWhile (fun i => i != me)

/-- The lowest ID of a list and the module itself. -/
def lowestId (me : Fin 8) (l : List (Fin 8)) : Fin 8 := l.foldl (fun a b => if b.val < a.val then b else a) me

/-- The member mask of a list of IDs. -/
def memberMask (l : List (Fin 8)) : BitVec 8 := l.foldl (fun m i => m ||| (1#8 <<< i.val)) 0

/-- RING_FORMATION_DONE (R430): the ring forms, or a duplicate ID leaves every module alone. The formation ends once after a
start, and an order that leaves out the module itself is none of its outcomes (log entry 7). Both directions of both links
are up (DEDUCED, log entry 57). -/
def execRingFormationDone (info : RingInfo) (s : State) : Out :=
  let c := s.cascade
  let me := c.ident
  .next (
    if !s.cascadeOn || c.formed || c.dupId then s
    else if info.duplicate || !decide info.order.Nodup then s.modCascade fun c => { c with dupId := true }
    else if !info.order.contains me then s
    else
      let low := lowestId me info.order
      { s with
        cascade := { c with
          formed := true
          members := memberMask info.order
          order := orderFrom me info.order
          master := low
          mepoch := 0
          isMaster := low == me
          locked := low == me
          syncMiss := 0
          heard := []
          offset := 0
          split := false
          aIn := true
          aOut := true
          bIn := true
          bOut := true }
        faults := { s.faults with xCascade := false } })

/-! ## Breaks (R435, R436) -/

/-- The input of a direction is up. -/
def dirUp (s : State) : CxDir → Bool
  | .a => s.cascade.aIn
  | .b => s.cascade.bIn

/-- A direction goes down: RING-BREAK with its port, XCASCADE; with the other one down as well the ring is split. -/
def breakDir (s : State) (d : CxDir) : State :=
  if !s.dirUp d then s
  else
    let second := s.faults.xCascade
    let s1 := (s.modCascade fun c => match d with
      | .a => { c with
          aIn := false
          failsA := []
          split := c.split || second }
      | .b => { c with
          bIn := false
          failsB := []
          split := c.split || second }).logEvent sevExposure 0x0C01 0x9000 (match d with
        | .a => 0
        | .b => 1)
    { s1 with faults := { s1.faults with xCascade := true } }

/-- RING_BREAK (R435): a direction loses lane lock for more than 1 µs. -/
def execRingBreak (d : CxDir) (s : State) : Out := .next (if s.cascadeOn then s.breakDir d else s)

/-- LINK_DIRECTION_UP (R435): 1 s with lock held and no CRC error. -/
def execLinkDirectionUp (d : CxDir) (s : State) : Out :=
  .next (
    if !s.cascadeOn || !s.cascade.formed || s.dirUp d then s
    else
      let s1 := s.modCascade fun c => match d with
        | .a => { c with aIn := true }
        | .b => { c with bIn := true }
      { s1 with faults := { s1.faults with xCascade := !(s1.cascade.aIn && s1.cascade.bIn) } })

/-! ## SYNC and the master (R431 to R433) -/

/-- A packet's epoch and master win over the present ones (R433). -/
def syncWins (c : CascadeSt) (master : Fin 8) (epoch : Byte) : Bool :=
  decide (c.mepoch.toNat < epoch.toNat) || (epoch == c.mepoch && decide (master.val < c.master.val))

/-- The packet is one of the master the module follows. -/
def syncSame (c : CascadeSt) (master : Fin 8) (epoch : Byte) : Bool := !c.isMaster && master == c.master && epoch == c.mepoch

/-- The first copy of a SYNC packet: the module takes the tick number of its master, and a master a winning SYNC stops sending;
another module accepts a new master after its own third miss (R432, R433). -/
def takeSync (s : State) (tick : Nat) (master : Fin 8) (epoch : Byte) : State :=
  let c := s.cascade
  let same := syncSame c master epoch
  if same || (syncWins c master epoch && (c.isMaster || decide (3 ≤ c.syncMiss))) then
    { s with
      time := { s.time with tick := tick % 1099511627776 }
      cascade := { c with
        master := master
        mepoch := epoch
        isMaster := false
        syncMiss := 0
        heard := []
        takeovers := if c.mepoch.toNat < epoch.toNat then inc32 c.takeovers else c.takeovers } }
  else s

/-- The copy a module steers from: that of direction A, and that of direction B while no valid A copy arrives (R432). -/
def steersFrom (s : State) (d : CxDir) : Bool :=
  match d with
  | .a => true
  | .b => !s.cascade.aIn || s.cascade.failsA.any fun t => decide (s.time.now ≤ t + 1)

/-- A SYNC copy steers the frame tick by at most 1 ns towards the master's; within ±40 ns the module is locked (R432). -/
def steer (s : State) (early : Int) : State :=
  let off := early - clampI (-1) 1 early
  s.modCascade fun c => { c with
    offset := off
    locked := decide (absI off ≤ 40) }

/-- SYNC_MISSED (R433). The third miss in succession makes the lowest ID heard master; a master that falls silent in turn is
followed after three more (DEDUCED, log entry 58). -/
def execSyncMissed (s : State) : Out :=
  let c := s.cascade
  let n := c.syncMiss + 1
  .next (
    if !s.cascadeOn || !c.formed || c.isMaster then s
    else if n % 3 ≠ 0 then s.modCascade fun c => { c with syncMiss := n }
    else
      let low := lowestId c.ident c.heard
      let s1 := s.modCascade fun c => { c with
        syncMiss := n
        master := low
        heard := [] }
      if low = c.ident then
        (s1.modCascade fun c => { c with
          isMaster := true
          locked := true
          mepoch := c.mepoch + 1
          takeovers := inc32 c.takeovers }).logEvent sevWarn 0x0C02 0x9000 c.ident.val
      else s1)

/-! ## Packets (R434, R437, R440) -/

/-- The sample whose packet a part expects next: that of the sample before while the pass of the present one has not begun. -/
def expectedSample (q : Group) : Word := if q.phase = .filtering then q.sample - 1 else q.sample

/-- An EXCHANGE packet for a running part of the span (R440, R441, R443). -/
def takeExchange (s : State) (src : Fin 8) (span : Fin 32) (sample : Word) (values : List Int) (kappas : List Nat)
    (emerg stop : Bool) : State :=
  if span.val = 0 then s
  else eachFin 8 (fun (z : State) g =>
    if z.gNounN g 0x38 = span.val ∧ z.runs g = true then
      z.modGroup g fun q => { q with
        span := { q.span with
          arrived := (src, sample, values, kappas) :: q.span.arrived.filter fun h => h.1 != src
          fresh := if sample = expectedSample q then src :: q.span.fresh else q.span.fresh
          emergIn := q.span.emergIn || emerg
          stopIn := q.span.stopIn || (stop && z.remotePart g && z.gNounN g 0x3B == src.val) } }
    else z) s

/-- What the first copy of a packet brings. -/
def takePacket (s : State) (p : CxPacket) : State :=
  match p.body with
  | .sync tick master epoch _ => s.takeSync tick master epoch
  | .exchange span sample values kappas _ emerg stop => s.takeExchange p.source span sample values kappas emerg stop
  | .status spans => s.modCascade fun c => { c with
      reports := (p.source, spans) :: c.reports.filter fun r => r.1 != p.source }

/-- A packet whose CRC fails (R434, R435): counted, and the fourth within 1 ms takes the direction down. -/
def badPacket (s : State) (d : CxDir) : State :=
  let now := s.time.now
  let recent := fun (l : List Nat) => now :: l.filter fun t => decide (now < t + ticks1ms)
  let s1 := s.modCascade fun c => match d with
    | .a => { c with
        crcA := inc32 c.crcA
        failsA := recent c.failsA }
    | .b => { c with
        crcB := inc32 c.crcB
        failsB := recent c.failsB }
  let l := match d with
    | .a => s1.cascade.failsA
    | .b => s1.cascade.failsB
  if 4 ≤ l.length then s1.breakDir d else s1

/-- CASCADE_PACKET_RECEIVED (R434): forwarded unless it has returned to its source, taken once, and, a SYNC of the module's
master, used for steering. A split ring carries nothing (R436). -/
def execCascadePacketReceived (p : CxPacket) (s : State) : Out :=
  let c := s.cascade
  .next (
    if !s.cascadeOn || !c.formed || c.split || !s.dirUp p.dir || p.source == c.ident then s
    else
      let s0 := s.modCascade fun c => { c with forwarded := c.forwarded ++ [p] }
      if !p.crcOk then s0.badPacket p.dir
      else
        let s1 := s0.modCascade fun c => { c with heard := if c.heard.contains p.source then c.heard else p.source :: c.heard }
        let s2 := if c.taken.contains (p.source, p.number) then s1
          else (s1.modCascade fun c => { c with taken := (p.source, p.number) :: c.taken }).takePacket p
        match p.body with
        | .sync _ master epoch early =>
          if syncSame s2.cascade master epoch && s2.steersFrom p.dir then s2.steer early else s2
        | .exchange .. => s2
        | .status _ => s2)

/-- STATUS_PACKET_SEND (R437). -/
def execStatusPacketSend (s : State) : Out :=
  .next (
    if s.cascadeOn && s.cascade.formed then s.modCascade fun c => { c with out := c.out ++ [.status s.ownReports] }
    else s)

end State

end Sys2Proof.Machine
end

