-- ==== Sys2Proof/Machine/Feedback.lean ====
section
/-! DEFINITION. The feedback units (R241 to R275): encoder decoding, index and line checks, counting modes, speed, direction,
compare, resolvers, serial sensors, switches, and counting through sleep. -/

namespace Sys2Proof.Machine

/-- OBJECT of a feedback unit in a record: its unit number (R334). -/
def objUnit (n : FbNo) : Nat := n.val

/-! ## Fields (R277 to R281) -/

def setFlag (u : FbUnit) (i : Nat) : FbUnit := { u with flags := u.flags ||| (1#12 <<< i) }
def idxTol (u : FbUnit) : Int := bitsOf u.ucfg.toNat 0 4
def idxState (u : FbUnit) : Bool × Bool := (bitAt u.ucfg.toNat 5, bitAt u.ucfg.toNat 4)
def dirHys (u : FbUnit) : Int := maxI 1 (bitsOf u.spdCfg.toNat 24 8)
def spdWin (u : FbUnit) : Nat := bitsOf u.spdCfg.toNat 14 10
/-- Counts of one span: 4 × FBn_LINES. -/
def spanOf (u : FbUnit) : Int := 4 * u.lines
/-- Sign of DIR. -/
def dirSign (u : FbUnit) : Int := if u.dir then -1 else 1
/-- The modulus conflicts with the line count (R255). -/
def cfgBad (u : FbUnit) : Bool := u.modulo && u.idxEn && decide ((u.modulus : Int) % spanOf u ≠ 0)

/-- A count brought under the present mode (R254 to R256). -/
def underMode (u : FbUnit) (c : Int) : Int :=
  if u.modulo then (if u.modulus = 0 then c else c % u.modulus) else clampI u.slimLo u.slimHi c

/-! ## Compare (R260 to R265) -/

/-- Distance from the count to a value in a direction; on a modulo counter it is taken once round. -/
def aheadBy (u : FbUnit) (v dir : Int) : Int :=
  if u.modulo then (if u.modulus = 0 then 0 else (dir * (v - u.count)) % u.modulus) else dir * (v - u.count)

/-- The value a compare write arms (R261 to R263, R265). -/
def judgeCompare (u : FbUnit) (v : Int) : FbUnit :=
  let w := if u.modulo then (if u.modulus = 0 then v else v % u.modulus) else v
  let dir := dirSign u
  let d := aheadBy u w dir
  match u.cmpMode with
  | 0 => u
  | 1 => { u with cmpArmed := w, armed := true, behind := !u.modulo && decide (d ≤ 0) }
  | _ =>
    let sp : Int := maxI 1 u.cmpSp
    let k : Int := if 0 < d then 0 else (-d).fdiv sp + 1
    { u with cmpArmed := underMode { u with slimLo := min64, slimHi := max64 } (w + dir * k * sp)
             cmpSpNow := u.cmpSp, armed := false, behind := false
             cmpSkip := (minI k 4294967295).toNat }

/-- The count after a counted step of a sign equals the armed value: the unit after the match (R260, R262, R263). -/
def matchCompare (u : FbUnit) (sgn : Int) : FbUnit × Bool :=
  let hit := decide (u.count = u.cmpArmed) && (u.cmpMode == 2 || (u.cmpMode == 1 && u.armed))
  if !hit then (u, false)
  else if u.cmpMode = 1 then (setFlag { u with armed := false, behind := false } 3, true)
  else
    let sp : Int := maxI 1 u.cmpSp
    (setFlag { u with
      cmpArmed := underMode { u with slimLo := min64, slimHi := max64 } (u.cmpArmed + sgn * sp)
      cmpSpNow := u.cmpSp } 3, true)

/-- What DIRCHG does to the compare value (R262, R264). -/
def turnCompare (u : FbUnit) : FbUnit :=
  let dir := dirSign u
  match u.cmpMode with
  | 0 => u
  | 1 => { u with behind := u.behind && decide (aheadBy u u.cmpArmed dir ≤ 0) }
  | _ =>
    let sp : Int := maxI 1 u.cmpSpNow
    let d := (dir * (u.cmpArmed - u.count)) % sp
    let gap := if d = 0 then sp else d
    { u with cmpArmed := underMode { u with slimLo := min64, slimHi := max64 } (u.count + dir * gap) }

/-! ## Steps (R247, R254, R255, R259) -/

/-- Position of an (A, B) state in the sequence in which A leads B. -/
def quad (a b : Bool) : Int :=
  match a, b with
  | false, false => 0
  | true, false => 1
  | true, true => 2
  | false, true => 3

/-- The step of a change of one line, 0 for none and for a change of both. -/
def quadStep (a0 b0 a1 b1 : Bool) : Int :=
  let d := (quad a1 b1 - quad a0 b0) % 4
  if d = 1 then 1 else if d = 3 then -1 else 0

/-- The count after a step, and the limit that stopped it: 6 for SATLO, 7 for SATHI (R254). -/
def stepCount (u : FbUnit) (sgn : Int) : Int × Option Nat :=
  if u.modulo then (underMode u (u.count + sgn), none)
  else if u.slimHi < u.count + sgn ∧ 0 < sgn then (u.count, some 7)
  else if u.count + sgn < u.slimLo ∧ sgn < 0 then (u.count, some 6)
  else (u.count + sgn, none)

/-- DIR and the turning point at a counted step (R259; log entry 30): a turn is pending while the direction differs from the
one last reported. -/
def noteDir (u : FbUnit) (sgn t before : Int) : FbUnit :=
  let down := decide (sgn < 0)
  if u.dir = down then u else { u with dir := down, dirAt := t, turn := before, turnPending := !u.turnPending }

/-- DIRCHG once the count has moved the hysteresis beyond the turning point. -/
def testDirChg (u : FbUnit) : FbUnit :=
  let d := if u.modulo then (if u.modulus = 0 then 0 else (dirSign u * (u.count - u.turn)) % u.modulus)
    else dirSign u * (u.count - u.turn)
  if u.turnPending ∧ dirHys u ≤ d then turnCompare (setFlag { u with turnPending := false } 2) else u

namespace State

/-! ## Validity (R252) -/

/-- The channel becomes invalid: 1 ILLEGAL, 2 LINECOUNT, 3 SIGNAL. -/
def invalidate (s : State) (n : FbNo) (cause : Fin 4) : State :=
  if (s.fb[n]).valid then
    (s.modFb n fun u => setFlag { u with valid := false, ref := false, cause := cause, cleanSpans := 0 } 11).logEvent
      sevDetected 0x0801 (objUnit n) cause.val
  else s.modFb n fun u => { u with cleanSpans := 0 }

/-- An out-of-tolerance index (R251). -/
def badIndex (s : State) (n : FbNo) (dev : Int) : State :=
  let s1 := (s.modFb n fun u => setFlag { u with idxDev := dev, badIdx := u.badIdx + 1 } 5).logEvent sevWarn 0x0802
    (objUnit n) dev
  if 2 ≤ (s1.fb[n]).badIdx then s1.invalidate n 2 else s1

/-- An index event with its index count (R249 to R252). -/
def indexEvent (s : State) (n : FbNo) (idx : Int) : State :=
  let u := s.fb[n]
  let p := spanOf u
  let clean := decide (u.spanIll = 0)
  let m := (idx - u.idxPos) % p
  let d := if 2 * m ≤ p then m else m - p
  let s1 := s.modFb n fun v => { v with spanIll := 0, lastIndex := some idx }
  if u.valid && !u.ref then
    s1.modFb n fun v => { v with count := underMode v (v.count - d), lastIndex := some (idx - d), ref := true, badIdx := 0 }
  else if u.ref then
    if cfgBad u then s1
    else if idxTol u < absI d then s1.badIndex n d
    else s1.modFb n fun v => { v with idxDev := d, badIdx := 0 }
  else
    let k := if clean then u.cleanSpans + 1 else 0
    if 16 ≤ k then s1.modFb n fun v => { v with valid := true, ref := false, cleanSpans := 0, badIdx := 0 }
    else s1.modFb n fun v => { v with cleanSpans := k }

/-- A missed index (R251): the count is more than one and a half spans from the last index count. -/
def testMissed (s : State) (n : FbNo) : State :=
  let u := s.fb[n]
  match u.lastIndex with
  | some i =>
    if u.idxEn && u.ref && !cfgBad u && decide (3 * spanOf u < 2 * absI (u.count - i)) then
      (s.modFb n fun v => { v with lastIndex := some (i + signI (u.count - i) * spanOf u) }).badIndex n 0x7FFFFFFF
    else s
  | none => s

/-- An illegal transition (R248, R249). -/
def illegalStep (s : State) (n : FbNo) : State :=
  let s1 := s.modFb n fun u => setFlag { u with
    illCnt := inc32 u.illCnt
    spanIll := satInc 255 u.spanIll
    speedHeld := true } 4
  if (s1.fb[n]).spanIll = 4 then s1.invalidate n 1 else s1

/-- A span that ends on counted edges, with IDXEN off (R249). -/
def countSpan (u : FbUnit) : FbUnit :=
  if u.idxEn then u
  else if spanOf u ≤ u.spanEdges + 1 then { u with spanEdges := 0, spanIll := 0 }
  else { u with spanEdges := u.spanEdges + 1 }

/-- A counted or stopped step of an encoder at a CD6 time. -/
def encoderStep (s : State) (n : FbNo) (sgn : Int) (t : Int) (cd6 : Nat) (z : Bool) (isIdx : Bool) : State :=
  let u := s.fb[n]
  let r := stepCount u sgn
  match r.2 with
  | some bit => s.modFb n fun v => setFlag { v with ref := false } bit
  | none =>
    let u1 := noteDir { u with count := r.1, edgeAt := some t, speedHeld := false } sgn t u.count
    let mt := matchCompare u1 sgn
    let u2 := testDirChg (countSpan mt.1)
    let s1 := s.modFb n fun _ => u2
    let s2 := if mt.2 && u.cmpGff then s1.gffCompare n cd6 (decide (sgn < 0)) u1.count else s1
    if u.idxEn && z && isIdx then s2.indexEvent n (if 0 < sgn then u1.count else u.count) else s2.testMissed n

/-- ENCODER_EDGE (R247 to R252, R259, R260): the filtered lines as they stand after a change at a CD6 clock. -/
def execEncoderEdge (e : Fin 8) (a b z : Bool) (cd6 : Nat) (s : State) : Out :=
  let n : FbNo := ⟨e.val, Nat.lt_of_lt_of_le e.isLt (by decide)⟩
  let u := s.fb[n]
  let s1 := s.modFb n fun v => { v with a := a, b := b, z := z }
  .next (
    if !u.en then s1
    else if u.a != a && u.b != b then s1.illegalStep n
    else
      let q := quadStep u.a u.b a b
      if q = 0 then s1
      else
        let sgn := if u.dirInv then -q else q
        let isIdx := if 0 < sgn then (a, b) == idxState u else (u.a, u.b) == idxState u
        s1.encoderStep n sgn (1250 * (s.time.now : Int) + cd6) cd6 z isIdx)

/-! ## Latching (R242, R257, R258) -/

/-- The speed of a unit at a frame tick at CD6 time t, from its records (R257, R258). -/
def speedAt (u : FbUnit) (t : Int) : Int :=
  match u.edgeAt with
  | none => 0
  | some τ =>
    if u.speedHeld then u.speed
    else
      let ok := (u.records.take (maxI 1 (spdWin u)).toNat).filter fun r => decide (u.dirAt < r.2 ∧ r.2 ≠ τ)
      match ok.getLast? with
      | some r => openDiv ((u.count - r.1) * 1600000000) (τ - r.2)
      | none =>
        let lim := openDiv 1600000000 (maxI 1 (t - τ))
        signI u.speed * minI (absI u.speed) lim

/-- A unit latches its position, speed and age at a frame tick (R242). -/
def latchUnit (n : FbNo) (t : Int) (u : FbUnit) : FbUnit :=
  let isRes := decide (8 ≤ n.val ∧ n.val < 12)
  let v := if isRes then u.speed else if u.en then speedAt u t else u.speed
  { u with
    pos := u.count
    speed := clampI (-2147483648) 2147483647 v
    age := if isRes then 0 else match u.edgeAt with
      | some τ => (minI 4294967295 (t - τ)).toNat
      | none => 4294967295
    records := match u.edgeAt with
      | some τ => ((u.count, τ) :: u.records).take 800
      | none => u.records }

/-- FEEDBACK_LATCH and SERIAL_FRAME_START at a frame tick (R242, R269). -/
def latchFeedback (s : State) : State :=
  let t : Int := 1250 * s.time.now
  let s1 : State := { s with fb := Vector.ofFn fun i => latchUnit i t s.fb[i] }
  let div := fun (u : FbUnit) => if bitsOf u.ucfg.toNat 0 8 = 0 then 1 else bitsOf u.ucfg.toNat 0 8
  let s2 := eachFin 4 (fun z p =>
    let n : FbNo := ⟨12 + p.val, by omega⟩
    let u := z.fb[n]
    if u.en && u.frameAt.isNone && decide (z.time.tick % div u = 0) then z.modFb n fun v => { v with frameAt := some t }
    else z) s1
  { s2 with switches := { s2.switches with latched := s2.switches.level ^^^ s2.switches.pol } }

/-- SPEED_TIMEOUT (R258): no edge has been counted for SPDTO. -/
def execSpeedTimeout (n : FbNo) (s : State) : Out := .next (s.modFb n fun u => { u with speed := 0 })

/-! ## Resolvers (R266, R267) -/

def resUnit (v : Fin 4) : FbNo := ⟨8 + v.val, by omega⟩
def serUnit (p : Fin 4) : FbNo := ⟨12 + p.val, by omega⟩

/-- A count moved by a difference under the present mode (R254, R255). -/
def moveCount (u : FbUnit) (d : Int) : FbUnit :=
  let c := u.count + d
  if u.modulo then { u with count := underMode u c }
  else if u.slimHi < c then setFlag { u with count := u.slimHi, ref := false } 7
  else if c < u.slimLo then setFlag { u with count := u.slimLo, ref := false } 6
  else { u with count := c }

/-- RESOLVER_EXCITATION_PERIOD (R266, R267): amplitude in 0.01 % of full scale, the tracked angle, the loop's speed in
2⁻⁴ counts/s. -/
def execResolverExcitationPeriod (v : Fin 4) (amplitude : Nat) (angle : BitVec 16) (speed : Int) (s : State) : Out :=
  let n := resUnit v
  let u := s.fb[n]
  .next (
    if !u.en then s
    else
      let bad := decide (amplitude < 2000 ∨ 9500 < amplitude)
      let sgn : Int := if u.dirInv then -1 else 1
      let d : Int := match u.lastRaw with
        | some r => sgn * wrap16 ((angle.toNat : Int) - r)
        | none => 0
      let s1 := s.modFb n fun w => moveCount { w with
        data := amplitude
        lastRaw := some angle.toNat
        speed := sgn * speed
        dir := if d = 0 then w.dir else decide (d < 0)
        bad := if bad then w.bad + 1 else 0
        errCnt := if bad then inc32 w.errCnt else w.errCnt } d
      if 3 ≤ (s1.fb[n]).bad then (s1.modFb n fun w => setFlag w 1).invalidate n 3 else s1)

/-- RESOLVER_TRACKING_ERROR (R267). -/
def execResolverTrackingError (v : Fin 4) (s : State) : Out :=
  .next (if (s.fb[resUnit v]).en then s.invalidate (resUnit v) 3 else s)

/-- RESOLVER_REVALIDATE (R267): 100 ms without either condition. REF follows VALID. -/
def execResolverRevalidate (v : Fin 4) (s : State) : Out :=
  .next (s.modFb (resUnit v) fun u => if u.en && decide (u.bad < 3) then { u with valid := true, ref := true } else u)

/-! ## Serial sensors (R268 to R271) -/

/-- A number from bits, most significant first. -/
def bitsNum (l : List Bool) : Nat := l.foldl (fun a b => 2 * a + b2n b) 0

/-- A Gray-coded number. -/
def grayNum (l : List Bool) : Nat := (l.foldl (fun (a : Nat × Bool) b => let c := a.2 != b; (2 * a.1 + b2n c, c)) (0, false)).1

/-- CRC with polynomial x⁶ + x + 1 over bits (R268). -/
def crc6 (l : List Bool) : Nat :=
  l.foldl (fun c b =>
    let top := (c / 32 % 2 == 1) != b
    let sh := (2 * c) % 64
    if top then sh ^^^ 3 else sh) 0

/-- A frame read under a unit's configuration: position, data, and whether its check and nE pass, and whether nW is low. -/
structure SerialRead where
  pos : Nat
  data : Int
  ok : Bool
  warn : Bool
deriving DecidableEq, Repr

def readSerial (cfg : Nat) (f : SerialFrame) : SerialRead :=
  let pb := (clampI 8 40 (bitsOf cfg 24 6)).toNat
  let db := (clampI 0 32 (bitsOf cfg 18 6)).toNat
  let ssi := bitsOf cfg 30 2 = 1
  let p := f.bits.take pb
  let d := (f.bits.drop pb).take db
  let rest := f.bits.drop (pb + db)
  let pos := if ssi ∧ bitAt cfg 17 = true then grayNum p else bitsNum p
  let raw := bitsNum d
  let data : Int := if 0 < db ∧ d.headD false = true then (raw : Int) - 2 ^ db else raw
  let long := decide (f.bits.length = pb + db + (if ssi then (if bitAt cfg 16 then 1 else 0) else 8))
  let even := (f.bits.filter id).length % 2 == 0
  let crcOk := decide (bitsNum (rest.drop 2) = 63 - crc6 (f.bits.take (pb + db + 2)))
  { pos, data
    ok := long && f.startSeen && f.idleInTime &&
      (if ssi then (!bitAt cfg 16 || even) else crcOk && rest.headD false)
    warn := !decide ssi && long && !(rest.getD 1 true) }

/-- The count after an accepted frame (R270). -/
def serialCount (u : FbUnit) (pos : Nat) : FbUnit :=
  let pb := (clampI 8 40 (bitsOf u.ucfg.toNat 24 6)).toNat
  let sgn : Int := if u.dirInv then -1 else 1
  let half : Int := 2 ^ (pb - 1)
  if bitAt u.ucfg.toNat 15 then
    match u.lastRaw with
    | some r => moveCount u (sgn * (((pos : Int) - r + half) % (2 * half) - half))
    | none => moveCount u (sgn * pos - u.count)
  else moveCount u (sgn * pos - u.count)

/-- The position differs too much from the last accepted one (R271). -/
def jumped (u : FbUnit) (pos : Nat) : Bool :=
  let pb := (clampI 8 40 (bitsOf u.ucfg.toNat 24 6)).toNat
  let half : Int := 2 ^ (pb - 1)
  match u.lastRaw with
  | some r =>
    let d := if bitAt u.ucfg.toNat 15 then ((pos : Int) - r + half) % (2 * half) - half else (pos : Int) - r
    decide (u.jump ≠ 0 ∧ (u.jump : Int) < absI d)
  | none => false

/-- SERIAL_FRAME_END (R269 to R271). -/
def execSerialFrameEnd (p : Fin 4) (f : SerialFrame) (s : State) : Out :=
  let n := serUnit p
  let u := s.fb[n]
  .next (
    match u.frameAt with
    | none => s
    | some t =>
      if !u.en then s.modFb n fun v => { v with frameAt := none }
      else
        let r := readSerial u.ucfg.toNat f
        let s1 := s.modFb n fun v => if r.warn then setFlag { v with frameAt := none } 0 else { v with frameAt := none }
        if r.ok && !jumped u r.pos then
          s1.modFb n fun v =>
            let w := serialCount v r.pos
            let g := v.good + 1
            { w with
              lastRaw := some r.pos
              data := r.data
              sampledAt := some t
              edgeAt := some t
              dir := if w.count = v.count then v.dir else decide (w.count < v.count)
              good := g
              bad := 0
              valid := v.valid || decide (16 ≤ g)
              ref := v.valid || decide (16 ≤ g) }
        else
          let s2 := s1.modFb n fun v => setFlag { v with bad := v.bad + 1, good := 0, errCnt := inc32 v.errCnt } 1
          if 3 ≤ (s2.fb[n]).bad then s2.invalidate n 3 else s2)

/-! ## Commands on a unit (R245, R252, R256, R261) -/

/-- A running group names the unit in one of the nouns of R245. -/
def unitInUse (s : State) (n : FbNo) : Bool :=
  (fins 8).any fun g => s.runs g &&
    (unitOfCode (s.gNounN g 0x10) == some n || unitOfCode (s.gNounN g 0x13) == some n ||
      (s.mainsOf g).any fun m => unitOfCode (s.mNounN m 0x02) == some n || unitOfCode (s.mNounN m 0x50) == some n)

/-- A write of PRESET (R245, R256). -/
def presetUnit (s : State) (n : FbNo) : State :=
  if s.unitInUse n then s.modFb n fun u => setFlag u 8
  else s.modFb n fun u =>
    let v := { u with count := underMode u u.preset, lastIndex := none, turnPending := false }
    let w := if n.val < 8 then { v with ref := !v.idxEn } else v
    if w.cmpMode = 2 ∨ w.armed = true then judgeCompare w w.cmp else w

/-- A write of REARM (R252): an encoder's channel is valid again, with REF still 0. -/
def rearmUnit (s : State) (n : FbNo) : State :=
  s.modFb n fun u =>
    if n.val < 8 ∧ u.en = true ∧ u.valid = false then
      { u with valid := true, ref := false, spanIll := 0, badIdx := 0, cleanSpans := 0 }
    else u

/-- A write of the compare pair (R261 to R265). -/
def writeCompare (s : State) (n : FbNo) (v : Int) : State := s.modFb n fun u => judgeCompare { u with cmp := v } v

/-! ## Switches (R233, R272) -/

/-- One filtered transition of a switch. -/
def switchTurn (s : State) (i : Fin 24) (cd6 : Nat) : State :=
  let w := s.switches
  let lv := w.level ^^^ (1#24 <<< i.val)
  let times := (w.samples :: w.times[i]).take 9
  let many := decide (times.length = 9) && (match times.getLast? with
    | some t => decide (w.samples ≤ t + 5000)
    | none => false)
  let s1 : State := { s with switches := { w with
    level := lv
    held := w.held.set i 0
    edge := w.edge ||| (1#24 <<< i.val)
    times := w.times.set i times } }
  let s2 := s1.gffSwitch i cd6 ((lv ^^^ w.pol).getLsbD i.val)
  if many && !w.chatter.getLsbD i.val then
    ({ s2 with switches := { s2.switches with chatter := s2.switches.chatter ||| (1#24 <<< i.val) } }).logEvent
      sevWarn 0x0704 0 i.val
  else s2

/-- One raw sample of a switch. -/
def switchBit (s : State) (i : Fin 24) (raw : Bool) (cd6 : Nat) : State :=
  let w := s.switches
  if raw = w.level.getLsbD i.val then { s with switches := { w with held := w.held.set i 0 } }
  else
    let k := w.held[i] + 1
    if maxI 1 (w.filter[i]).toNat ≤ k then s.switchTurn i cd6
    else { s with switches := { w with held := w.held.set i k } }

/-- SWITCH_SAMPLE (R272): the raw levels, every 10 µs. -/
def execSwitchSample (levels : BitVec 24) (cd6 : Nat) (s : State) : Out :=
  let s1 := eachFin 24 (fun z i => z.switchBit i (levels.getLsbD i.val) cd6) s
  .next { s1 with switches := { s1.switches with samples := s1.switches.samples + 1 } }

/-- CHATTER_CLEARED (R233): 1 s without a transition. -/
def execChatterCleared (i : Fin 24) (s : State) : Out :=
  .next (
    if s.switches.chatter.getLsbD i.val then
      ({ s with switches := { s.switches with chatter := s.switches.chatter &&& ~~~(1#24 <<< i.val) } }).logEvent
        sevInfo 0x0705 0 i.val
    else s)

/-! ## Counting through sleep (R273 to R275) -/

/-- One line filtered by the keeper: a new level after 3 equal samples; the level and the samples of a new one. -/
def keepLine (old raw : Bool) (k : Nat) : Bool × Nat :=
  if raw = old then (old, 0) else if 3 ≤ k + 1 then (raw, 0) else (old, k + 1)

/-- A step of the keeper's delta, or SLEEPLOST. -/
def keepStep (s : State) (e : Fin 4) (o n : Bool × Bool) : State :=
  let u := s.fb[(⟨e.val, Nat.lt_of_lt_of_le e.isLt (by decide)⟩ : FbNo)]
  let r := s.retention
  let q := quadStep o.1 o.2 n.1 n.2
  let d := r.delta[e] + (if u.dirInv then -q else q)
  if (o.1 != n.1 && o.2 != n.2) || decide (2147483647 < absI d) then
    { s with retention := { r with lost := r.lost.set e true } }
  else { s with retention := { r with delta := r.delta.set e d } }

/-- One keeper sample of one encoder (R273, R274). -/
def keepSample (s : State) (e : Fin 4) (a b : Bool) : State :=
  let r := s.retention
  match r.keepAB[e] with
  | none => s
  | some o =>
    let la := keepLine o.1 a (r.keepHeld[e]).1
    let lb := keepLine o.2 b (r.keepHeld[e]).2
    let s1 : State := { s with retention := { r with
      keepAB := r.keepAB.set e (some (la.1, lb.1))
      keepHeld := r.keepHeld.set e (la.2, lb.2) } }
    s1.keepStep e o (la.1, lb.1)

/-- KEEPER_ENCODER_SAMPLE (R273, R274): every count of the keeper's clock in sleep, which also carries the keeper time, and on to
the start that follows. -/
def execKeeperEncoderSample (a b : BitVec 4) (s : State) : Out :=
  .next (
    if s.power.phase = .asleep ∨ s.power.phase = .warmStart then
      let s1 := eachFin 4 (fun z e =>
        if (z.fb[(⟨e.val, Nat.lt_of_lt_of_le e.isLt (by decide)⟩ : FbNo)]).keep then
          z.keepSample e (a.getLsbD e.val) (b.getLsbD e.val)
        else z) s
      if s.power.phase = .asleep then { s1 with time := { s1.time with keeper := (s1.time.keeper + 1) % 2 ^ 48 } } else s1
    else s)

/-- A unit takes back its count after sleep (R274, R275): the keeper's delta, one more step between the keeper's last state and
the unit's own, and REF only where nothing was lost. -/
def resumeUnit (s : State) (e : Fin 4) (a b : Bool) : State :=
  let n : FbNo := ⟨e.val, Nat.lt_of_lt_of_le e.isLt (by decide)⟩
  let s1 := match s.retention.keepAB[e] with
    | some o => if (s.fb[n]).keep then s.keepStep e o (a, b) else s
    | none => s
  let lost := s1.retention.lost[e]
  s1.modFb n fun u =>
    let v := if u.keep then moveCount u s1.retention.delta[e] else u
    let w := { v with a := a, b := b, edgeAt := none, records := [], ref := v.ref && v.keep && !lost }
    if lost && u.keep then setFlag w 10 else w

end State

end Sys2Proof.Machine
end

