-- ==== Sys2Proof/Machine/Cycle.lean ====
section
/-! DEFINITION. The sample cycle (R24 to R47): the frame tick and its sample instants, the coefficient queue (R130 to R134),
the commit point, the repeated sample, the engines' results and the compute deadline. -/

namespace Sys2Proof.Machine

namespace State

/-! ## The coefficient queue (R130 to R134) -/

/-- A mode handover is in progress in a group (R133). -/
def modeBusy (s : State) (g : Grp) : Bool := (s.mainsOf g).any fun m => (s.mains[m]).eng.handover.isSome

/-- A SWAP that has reached the head of the queue goes to validation once no mode handover is in progress (R133). -/
def advanceSwap (s : State) (g : Grp) : State :=
  match (s.groups[g]).queue with
  | .swap _ _ :: _ =>
    if (s.groups[g]).swapPhase = .idle ∧ s.modeBusy g = false then s.modGroup g fun q => { q with swapPhase := .validating }
    else s
  | _ => s

/-- Whether a selector names bank 1 when a word is handed over, after any earlier SWAP (R131). -/
def bankOf (q : Group) (selector : Nat) : Bool :=
  let active := if q.swapped.isSome then !q.bank1 else q.bank1
  match selector with
  | 0 => active
  | 1 => !active
  | 2 => false
  | _ => true

/-- A coefficient word goes to both engines' stores. -/
def storeWord (s : State) (k : Nat) (v : Word) : State :=
  let e := s.engines
  { s with engines := { e with
      storeA := sput 0 e.storeA k v
      storeB := sput 0 e.storeB k v
      lostWords := e.lostWords.filter fun j => j != k } }

/-- COEF_QUEUE_HANDOVER (R130): the head entry goes to the engine input buffer. -/
def handOver (s : State) (g : Grp) : State :=
  let q := s.groups[g]
  match q.queue with
  | [] => s
  | .word t sel off v last :: rest =>
    let bank := bankOf q sel
    let s1 := ((s.storeWord ((if bank then 8192 else 0) + s.gNounN g 0x08 + off) v).modGroup g fun q =>
      { q with queue := rest }).modTicket t fun k => { k with handed := k.handed + 1 }
    let s2 := if !last then s1
      else if q.running then s1.modGroup g fun q => { q with inbox := q.inbox ++ [(none, .words t)] }
      else s1.finish t stDone (s1.handedWords t)
    s2.advanceSwap g
  | .swap t p :: rest =>
    if q.swapPhase = .validated then
      let s1 := s.modGroup g fun q => { q with queue := rest, swapPhase := .idle }
      let s2 := if q.running then s1.modGroup g fun q => { q with swapped := some (t, p) }
        else (s1.modGroup g fun q => { q with bank1 := !q.bank1 }).finish t stDone
      s2.advanceSwap g
    else s.advanceSwap g

/-- SWAP_VALIDATION_DONE (R133): the firmware has validated the inactive bank. -/
def execSwapValidationDone (g : Grp) (s : State) : Out :=
  let q := s.groups[g]
  .next (
    match q.queue with
    | .swap t _ :: rest =>
      if q.swapPhase = .validating then
        let a := s.region g q.bank1
        let b := s.region g (!q.bank1)
        let same := (headerWords (s.programme g q.bank1) (s.nAux g)).all fun k => a k == b k
        if s.bankValid g (!q.bank1) && (same || !q.running) then s.modGroup g fun q => { q with swapPhase := .validated }
        else ((s.modGroup g fun q => { q with queue := rest, swapPhase := .idle, chkFail := true }).finish t
          stCheck).advanceSwap g
      else s
    | _ => s)

/-! ## The engine input buffer (R35, R137, R142, R365) -/

/-- A mode request as a sample sees it (R137, R142): recorded outside RUN, held in a commutation HANDOVER and during a blend,
else the handover starts and replaces one in its deferral. -/
def tryMode (s : State) (m : Main) (t code : Nat) : State :=
  let a := s.mains[m]
  let start := (s.present t).modEng m fun e => { e with
    waiting := none
    handover := some { ticket := t, mode := code, agree := 0, count := 0, blend := none, down := false, due := false
                       shadow := [] } }
  match a.comm.state with
  | .run =>
    match a.eng.handover with
    | none => start
    | some h =>
      if h.blend.isSome then s.modEng m fun e => { e with waiting := some (t, code) }
      else start.finish h.ticket stAborted
  | .handover => s.modEng m fun e => { e with waiting := some (t, code) }
  | _ => (s.modEng m fun e => { e with waiting := none, recorded := some code }).finish t stDone

/-- A new mode request takes the place of one that waits. -/
def newMode (s : State) (m : Main) (t code : Nat) : State :=
  (s.finishOpt ((s.mains[m]).eng.waiting.map (·.1)) stAborted).tryMode m t code

/-- Requests that waited are tried again. -/
def retryModes (s : State) (g : Grp) : State :=
  (s.mainsOf g).foldl (fun (z : State) m => match (z.mains[m]).eng.waiting with
    | some p => z.tryMode m p.1 p.2
    | none => z) s

/-- A noun of R35 takes a value, with what its chapter ties to the write (R150, R164). -/
def takeNoun (s : State) (id : Nat) (v : Int) : State :=
  let s1 := s.setNoun id v
  match nounClass id with
  | some (.group g 0x18) => s1.modYield g fun y => { y with exhausted := false }
  | some (.group g 0x26) => s1.modYield g fun y => { y with hostValid := true }
  | _ => s1

/-- One change becomes visible. -/
def takeChange (s : State) (g : Grp) (c : EngChange) : State :=
  match c with
  | .noun t id v =>
    match s.inFlight? t with
    | some _ => ((s.present t).takeNoun id v).modGroup g fun q => { q with visible := q.visible ++ [t] }
    | none => s
  | .mode t m code =>
    match s.inFlight? t with
    | some _ => s.newMode m t code
    | none => s
  | .abort t k => s.modGroup g fun q => { q with aborts := q.aborts ++ [(t, k)] }
  | .words t => s.modGroup g fun q => { q with visible := q.visible ++ [t] }

/-- The ticket a change carries out. -/
def changeTicket : EngChange → Option Nat
  | .noun t _ _ => some t
  | .mode t _ _ => some t
  | .words t => some t
  | .abort _ _ => none

/-- The changes visible at an instant: those bound to no sample and those of the given one. A change whose abort is visible at
the same instant is dropped with it (R365). -/
def takeInbox (s : State) (g : Grp) (sample : Option Nat) : State :=
  let isDue := fun (e : Option Nat × EngChange) => match e.1, sample with
    | none, _ => true
    | some k, some n => sampleReached n k
    | some _, none => false
  let box := (s.groups[g]).inbox
  let targets := (box.filter isDue).filterMap fun e => match e.2 with
    | .abort _ k => some k
    | _ => none
  let live := box.filter fun e => match changeTicket e.2 with
    | some t => !targets.contains t
    | none => true
  let due := live.filter isDue
  let s1 := s.modGroup g fun q => { q with inbox := live.filter fun e => !isDue e }
  due.foldl (fun (z : State) e => z.takeChange g e.2) s1

/-- A SWAP handed over becomes visible, unless its abort is (R133, R134). -/
def takeSwap (s : State) (g : Grp) : State :=
  let q := s.groups[g]
  match q.swapped with
  | some (t, p) =>
    if q.aborts.any fun a => a.2 == t then s.modGroup g fun q => { q with swapped := none }
    else s.modGroup g fun q => { q with swapped := none, swapNow := some (t, p), bank1 := !q.bank1 }
  | none => s

/-! ## Aborts at a commit point (R70, R134, R142, R192, R205, R237, R365) -/

/-- The abort of a start leaves the axis in OFF, or in HOLD for a WINCH axis with a brake (R70; DEDUCED, log entry 37). -/
def abortStart (s : State) (g : Grp) (m : Main) (run : Option AxisRun) : State :=
  if s.winchBrake m then
    match run with
    | some r => s.leaveTorque g r .hold .none
    | none => s.enterRest m .hold .none
  else
    match run with
    | some r => s.leaveTorque g r .off .none
    | none => s.enterRest m .off .none

/-- The run of an axis in a pass. -/
def runOf (rn : Option GroupRun) (m : Main) : Option AxisRun := rn.bind fun r => r.axes.find? fun x => x.m == m

/-- An aborted HOME halts; a rebase already made stays (R237). -/
def abortHome (s : State) (a : AuxNo) (k : Nat) : State :=
  let s1 := s.finish k stAborted
  if (s1.auxs[a]).hstep = .settle then s1.endHome a stAborted
  else (s1.modAux a fun x => { x with homeEnd := some stAborted }).haltAux a

/-- An aborted motion ticket ends its kind with a halt (R192, R205). -/
def abortMotion (s : State) (g : Grp) (k : Nat) (rn : Option GroupRun) : State :=
  let q := s.groups[g]
  if q.orders.any fun o => orderTicket o.2 == some k then
    (s.modGroup g fun q => { q with orders := q.orders.filter fun o => orderTicket o.2 != some k }).finish k stAborted
  else if (q.path.map (·.ticket)) = some k then s.haltPath g stAborted
  else if q.haltTicket = some k then (s.modGroup g fun q => { q with haltTicket := none }).finish k stAborted
  else
    match (s.auxsOf g).find? fun a => (s.auxs[a]).home.any fun h => h.ticket == k with
    | some a => s.abortHome a k
    | none =>
      match (s.gensOf g).find? fun x => (s.gen x).ticket == some k with
      | none => s.finish k stAborted
      | some x =>
        let s1 := (s.putTarget x .halt 0).dropTicket x stAborted
        match x with
        | .main m =>
          if starting (s1.mains[m]).comm && (s1.mains[m]).comm.state != .hold then s1.abortStart g m (runOf rn m) else s1
        | .aux _ => s1

/-- An aborted ENABLE (R70; log entry 37). -/
def abortEnable (s : State) (g : Grp) (k : Nat) (rn : Option GroupRun) : State :=
  match (s.mainsOf g).find? fun m => (s.mains[m]).startTicket == some k with
  | some m =>
    let s1 := (s.finish k stAborted).modMain m fun a => { a with startTicket := none }
    if s1.winchBrake m then
      if (s1.mains[m]).comm.state = .hold then s1 else (s1.putTarget (.main m) .halt 0).abortStart g m (runOf rn m)
    else s1.disableMain m stAborted
  | none =>
    match (s.auxsOf g).find? fun a => (s.auxs[a]).startTicket == some k with
    | some a => s.disableAux a stAborted
    | none => s

/-- A property of the entry at the head of a queue. -/
def headIs (q : Group) (f : QEntry → Bool) : Bool :=
  match q.queue with
  | e :: _ => f e
  | [] => false

/-- An aborted SWAP or WRITE loses what is not handed over (R134). -/
def abortQueue (s : State) (g : Grp) (k : Nat) : State :=
  let isK : QEntry → Bool := fun e => match e with
    | .word t _ _ _ _ => t == k
    | .swap t _ => t == k
  let pay : List Word := match s.inFlight? k with
    | some t => if t.sent.verb = 3 then s.handedWords k else []
    | none => []
  let s1 := s.modGroup g fun q => { q with
    queue := q.queue.filter fun e => !isK e
    swapPhase := if headIs q isK then .idle else q.swapPhase
    swapped := if (q.swapped.map (·.1)) = some k then none else q.swapped }
  (s1.finish k stAborted pay).advanceSwap g

/-- An aborted mode request: the old mode stays, a blend runs back (R142). -/
def abortMode (s : State) (g : Grp) (k : Nat) : State :=
  match (s.mainsOf g).find? fun m => ((s.mains[m]).eng.waiting.map (·.1)) == some k ||
      ((s.mains[m]).eng.handover.map (·.ticket)) == some k with
  | none => s.finish k stAborted
  | some m =>
    (s.modEng m fun e => { e with
      waiting := if (e.waiting.map (·.1)) = some k then none else e.waiting
      handover := match e.handover with
        | some h => if h.ticket = k then (if h.blend.isSome then some { h with down := true } else none) else some h
        | none => none }).finish k stAborted

/-- What an ABORT replies of a HOME (R237): bit 16, HOMED. -/
def homedBit (s : State) (g : Grp) (k : Nat) : Nat :=
  match (s.auxsOf g).find? fun a => (s.auxs[a]).home.any fun h => h.ticket == k with
  | some a => if (s.auxs[a]).homed then 65536 else 0
  | none => 0

/-- One abort is settled (R365). -/
def settleAbort (s : State) (g : Grp) (rn : Option GroupRun) (t k : Nat) : State :=
  match s.inFlight? k with
  | none => s.finish t stAlreadyDone [0]
  | some tk =>
    if (s.groups[g]).visible.contains k || ((s.groups[g]).swapNow.map (·.1)) == some k then s.finish t stAlreadyDone [0]
    else
      let pay : List Word := [BitVec.ofNat 32 ((if tk.sent.verb = 3 then tk.handed else 0) + s.homedBit g k)]
      let s1 := match tk.sent.verb with
        | 2 => s.abortMode g k
        | 3 => s.abortQueue g k
        | 4 => s.abortQueue g k
        | 16 => s.abortEnable g k rn
        | _ => s.abortMotion g k rn
      s1.finish t stDone pay

/-- Every abort visible to the present sample. -/
def settleAborts (s : State) (g : Grp) (rn : Option GroupRun) : State :=
  let l := (s.groups[g]).aborts
  l.foldl (fun (z : State) p => z.settleAbort g rn p.1 p.2) (s.modGroup g fun q => { q with aborts := [] })

/-! ## The sample instant (R26, R33, R35, R84) -/

/-- What a sample instant latches of the feedback units (R26). -/
def latchGroup (s : State) (g : Grp) : State :=
  s.modGroup g fun q => { q with fbLatch := Vector.ofFn fun i =>
    let u := s.fb[i]
    { pos := u.pos, speed := u.speed, data := u.data, valid := u.valid, ref := u.ref } }

/-- The sample instant of one main axis: duties become active, gates start, the windows of its channels begin. -/
def instantMain (s : State) (g : Grp) (m : Main) : State :=
  let s1 := ((s.updatePwm g m).startGates m).modDrive m fun d =>
    { d with floatedAt := d.floating, ofsWindow := (s.mains[m]).comm.state == .check }
  (s1.beginWindow (chA m)).beginWindow (chB m)

/-- The sample instant of one auxiliary axis (R219). -/
def instantAux (s : State) (a : AuxNo) : State :=
  s.modAux a fun x => { x with wa := s.beginSpan a x.wa, wb := s.beginSpan a x.wb }

/-- SAMPLE_INSTANT of a running group. -/
def sampleInstant (s0 : State) (g : Grp) : State :=
  let s := if s0.engines.mode = .lost then s0.loseGroup g else s0
  if !(s.groups[g]).running then s
  else
    let s1 := (s.modGroup g fun q => { q with
      sample := if q.sampled then q.sample + 1 else 0
      sampled := true
      stale := q.stale || q.phase == .passing || q.phase == .retrying }).latchGroup g
    let s2 := ((s1.takeInbox g (some (s1.groups[g]).sample.toNat)).retryModes g).takeSwap g
    let s3 := (s2.mainsOf g).foldl (fun z m => z.instantMain g m) s2
    let s4 := (s3.auxsOf g).foldl instantAux s3
    let s5 := eachFin 4 (fun z l =>
      if z.linkOwner l = some g then (z.beginWindow (chV l)).beginWindow (chI l) else z) s4
    s5.modGroup g fun q => { q with phase := .filtering }

/-- AT-SAMPLE changes that the group's stop leaves without a sample are refused with REFUSED-STATE (R361; DEDUCED, log
entry 40). -/
def dropBound (s : State) (g : Grp) : State :=
  let box := (s.groups[g]).inbox
  let s1 := box.foldl (fun (z : State) e => if e.1.isSome then z.finishOpt (changeTicket e.2) stState else z) s
  s1.modGroup g fun q => { q with inbox := q.inbox.filter fun e => e.1.isNone }

/-- A stopped group at a frame tick: changes take effect and complete at once (log entry 38), the queue hands over, and a
waiting start goes on. -/
def stoppedTick (s : State) (g : Grp) : State :=
  let s1 := (((s.dropBound g).takeInbox g none).retryModes g).settleAborts g none
  let s2 := s1.finishSeen g
  let s3 := if (s2.groups[g]).starting then s2
    else ((s2.groups[g]).orders.foldl (fun (z : State) o => z.finishOpt (orderTicket o.2) stAborted) s2).modGroup g fun q =>
      { q with orders := [] }
  ((s3.modGroup g fun q => { q with visible := [] }).handOver g).tryStart g

/-- Halts for the stop requests of the safety channel that are new since the last read (R291, R296). -/
def stopRequests (s : State) (old : BitVec 4) : State :=
  eachFin 4 (fun (z : State) i =>
    if z.requests.seen.stopReq.getLsbD i.val && !old.getLsbD i.val then
      ((z.stoMains i).map GenId.main ++ (z.stoAuxs i).map GenId.aux).foldl (fun (w : State) x =>
        match w.groupOf x with
        | some g => if w.runs g then w.modGroup g fun q => { q with orders := q.orders ++ [(none, .internalHalt x)] } else w
        | none => w) z
    else z) s

/-- The torque request of an STO group is cleared once no axis of it is enabled or still on its way to rest (R380; DEDUCED, log
entry 55). -/
def idleRequests (s : State) : State :=
  eachFin 4 (fun (z : State) i =>
    if (z.stoMains i).all z.mainDone && (z.stoAuxs i).all z.auxDone then z.clearTorque i else z) s

/-- Counted time at a frame tick. -/
def tickTime (s : State) : State :=
  let t := s.time
  let f := t.keeperFrac + 4096
  { s with
    roster := { s.roster with tsc2 := s.roster.tsc2 + 25 }
    time := { t with
      tick := (t.tick + 1) % 1099511627776
      now := t.now + 1
      keeper := (if f < 10000 then t.keeper else t.keeper + 1) % 281474976710656
      keeperFrac := f % 10000
      powered := t.powered + 1
      active := if s.anyRuns then t.active + 1 else t.active } }

/-! ## A forced RESTART (R383, R385) -/

/-- A group is stopped: no axis of it is enabled (R23). -/
def groupStopped (s : State) (g : Grp) : Bool := !(s.groups[g]).running && !(s.groups[g]).starting

/-- Every in-flight ticket but one completes with ABORTED, and what it had under way is given up (R383). -/
def abortOthers (s : State) (t : Nat) : State :=
  let others := (s.mail.tickets.filter fun k => k.tense != .past && k.num != t).map Ticket.num
  let s1 := others.foldl (fun (z : State) k => z.finish k stAborted) s
  { s1 with
    store := { s1.store with busy := none, capture := none }
    ledger := { s1.ledger with clearDue := none }
    groups := s1.groups.map fun q => { q with
      queue := []
      swapPhase := .idle
      swapped := none
      inbox := []
      orders := []
      aborts := [] } }

/-- A SLEEP or RESTART is answered, and its action follows 2 ms later (R383). -/
def answerDue (s : State) (t : Nat) (d : Due) : State :=
  let s1 := (s.abortOthers t).finish t stDone
  { s1 with power := { s1.power with due := some d, dueTicket := none } }

/-- The start a RESTART asks for. -/
def restartKind (k : Ticket) : Due := if bitAt k.sent.arg 0 then .cold else .warm

/-- A forced RESTART goes on once every axis has reached OFF (R385). -/
def settleRestart (s : State) : State :=
  match s.power.dueTicket with
  | none => s
  | some t =>
    if (fins 8).all s.groupStopped then
      match s.inFlight? t with
      | some k => s.answerDue t (restartKind k)
      | none => { s with power := { s.power with dueTicket := none } }
    else s

/-- The master of a ring sends a SYNC packet at each of its own frame ticks (R431). -/
def sendSync (s : State) : State :=
  let c := s.cascade
  if c.formed && c.isMaster then
    s.modCascade fun c => { c with out := c.out ++ [.sync s.time.tick c.ident c.mepoch 0] }
  else s

/-- FRAME_TICK (R24): the work of one tick. -/
def frameTick (s : State) : State :=
  let s1 := s.tickTime
  let old := s1.requests.seen.stopReq
  let s2 := (s1.modReq fun r => { r with seen := r.words }).stopRequests old
  let s3 := eachFin 8 emergencyWatch (eachFin 4 settleTrip s2)
  let s4 := (if s3.engines.mode = .lost then s3.loseTorque else s3).latchFeedback
  let s5 := eachFin 8 (fun (z : State) g =>
    if z.runs g then
      (if z.time.tick % z.gNounN g 0x02 = z.gNounN g 0x03 then z.sampleInstant g else z)
    else z.stoppedTick g) s4.idleRequests.settleRestart
  (if s5.time.tick % 8 = 0 then
    eachFin 4 (fun z l => if (z.linkOwner l).isNone then (z.beginWindow (chV l)).beginWindow (chI l) else z) s5
  else s5).sendSync

/-- FRAME_TICK (R24). -/
def execFrameTick (s : State) : Out := .next (if s.awake then s.frameTick else s)

/-! ## The commit point (R37) -/

/-- The signal a TRACE record shows for a code (R490). -/
def traceValue (s : State) (g : Grp) (meas : List Meas) (c : Nat) : Option Int :=
  if c / 16 = 1 then s.speedSignal g meas (c % 16)
  else if c / 16 = 2 then s.currentSignal g meas (c % 16)
  else match fin? 4 (c - 0x30) with
    | some i => if (s.links[i]).vValid then some (s.links[i]).vdc else none
    | none => none

/-- The record of a committed sample; `s0` is the state the pass worked on. -/
def traceCommit (s s0 : State) (g : Grp) (meas : List Meas) : State :=
  if bitsOf s.gff.trcCfg.toNat 24 3 = g.val then
    let v := s.traceCodes.map (s0.traceValue g meas)
    (s.modGff fun f => { f with traced := v }).gffTrace g (s.groups[g]).sample.toNat true v
  else s

/-- The tickets whose change was visible to the committed sample complete (R377, R134, R133). -/
def finishVisible (s : State) (g : Grp) : State :=
  let q := s.groups[g]
  let s1 := s.finishSeen g
  (s1.finishOpt (q.swapNow.map (·.1)) stDone).modGroup g fun q => { q with visible := [], swapNow := none }

/-- What the other parts of a span asked for: the emergency mode, or the end of the home part (R443). -/
def takeSpan (s : State) (g : Grp) : State :=
  let p := (s.groups[g]).span
  let s1 := if p.emerg then
      (if (s.groups[g]).eactive then s else s.enterEmergency g 1).modGroup g fun q => { q with span := { q.span with emerg := false } }
    else s
  if p.stop && s1.remotePart g then
    let s2 := (s1.mainsOf g).foldl (fun (z : State) m => z.disableMain m stAborted) s1
    let s3 := (s2.auxsOf g).foldl (fun (z : State) a => z.disableAux a stAborted) s2
    s3.modGroup g fun q => { q with span := { q.span with stop := false, remoteRuns := false } }
  else s1

/-- Links of the group: a mismatch reported to the pass is reported once. -/
def clearReports (s : State) (g : Grp) : State :=
  eachFin 4 (fun z l => if z.linkOwner l = some g then z.modLink l fun x => { x with misReport := false } else z) s

/-- COMMIT_POINT of the present sample of a group (R37). -/
def commitSample (s : State) (g : Grp) : State :=
  let sA := (s.mainsOf g).foldl disableLatched s
  let sB := if (sA.groups[g]).aborts.isEmpty then sA else sA.settleAborts g (some (sA.runGroup g))
  let s0 := sB.completeMotion g
  let rn := s0.runGroup g
  let s1 := rn.axes.foldl (fun (z : State) x => z.commitAxis g rn x) s0
  let s2 := ((((s1.commitWork g rn).commitYield g rn).commitCoupled g rn).commitChoppers g).commitLinks g
  let s3 := (((s2.commitAuxs g).takeEmergency g).takeSpan g).stepMotion g
  let s4 := (((s3.handOver g).finishVisible g).traceCommit s0 g rn.meas).clearReports g
  let s5 := s4.modGroup g fun q => { q with owed := 0, overran := false, disagreed := 0, phase := .none }
  (({ s5 with free := s5.free + 12 }).emergencyWatch g).checkStop g

/-- A sample that does not commit: the duties repeat, the generators step, the queue hands over (R38, R42, R47, R130, R143,
R182). -/
def repeatSample (s : State) (g : Grp) : State :=
  let s1 := (s.mainsOf g).foldl (fun (z : State) m => ((z.advanceCoast g m).advanceComm g m).repeatFerr m) s
  let s2 := ((s1.modGroup g fun q => { q with owed := q.owed + 1, phase := .none }).handOver g).stepMotion g
  if bitsOf s.gff.trcCfg.toNat 24 3 = g.val then s2.gffTrace g (s.groups[g]).sample.toNat false s.gff.traced else s2

/-! ## SEGMENT_COMPLETE (R38, R314 to R319) -/

/-- The engines are free, and start what is ready (R40). -/
def freeEngines (s : State) : State := ({ s with engines := { s.engines with busy := .idle } }).startSegment

/-- Words of the result with errors are counted (R314, R325). -/
def countErrors (s : State) (r : SegmentResult) : State :=
  { s with faults := { s.faults with
      corrected := add32 s.faults.corrected r.corrected
      uncorrectable := add32 s.faults.uncorrectable (r.flaggedA.length + r.flaggedB.length) } }

/-- A disagreement that the retry resolved (R318). -/
def countTransient (s : State) (g : Grp) : State :=
  let near := (s.time.now :: s.engines.transients).filter fun t => decide (s.time.now < t + ticks60s)
  let s1 : State := { s with
    faults := { s.faults with transients := inc32 s.faults.transients }
    engines := { s.engines with
      transients := near
      cluster := s.engines.cluster || decide (8 ≤ near.length) } }
  s1.logEvent sevMasked codeTransient 0x7000 g.val (s.groups[g]).sample.toNat

/-- Words that an engine flagged and the other did not are copied; those both flagged are lost (R314). -/
def repairWords (s : State) (g : Grp) (r : SegmentResult) : State :=
  let both := r.flaggedA.filter fun k => r.flaggedB.contains k
  let s1 := s.loseWords g both
  match r.flaggedA, r.flaggedB with
  | [], b => s1.copyWords false b
  | a, [] => s1.copyWords true a
  | _, _ => s1

/-- The engines start on the retry, or on the survivor's second computation. -/
def retrySegment (s : State) (g : Grp) : State :=
  ({ s with engines := { s.engines with busy := .segment g true } }).modGroup g fun q => { q with phase := .retrying }

/-- Lockstep: the end of a pass or retry (R38). -/
def lockstepEnd (s : State) (g : Grp) (r : SegmentResult) (retry agree : Bool) : State :=
  let both := r.flaggedA.filter fun k => r.flaggedB.contains k
  if agree then
    let s1 := (s.loseWords g both).commitSample g
    (if retry then s1.countTransient g else s1).freeEngines
  else if !retry then (s.repairWords g r).retrySegment g
  else
    let s1 := (s.loseWords g both).modGroup g fun q => { q with phase := .settled }
    if r.flaggedA.isEmpty && r.flaggedB.isEmpty then
      { s1 with engines := { s1.engines with busy := .checkSet (some g) } }
    else s1.freeEngines

/-- Simplex: the survivor's first computation is followed by its second, and the two are compared (R317). -/
def simplexEnd (s : State) (g : Grp) (flagged : List (Fin 16384)) (retry agree : Bool) : State :=
  let s1 := s.loseWords g flagged
  if !retry then s1.retrySegment g
  else if agree then (s1.commitSample g).freeEngines
  else
    let n := (s1.groups[g]).disagreed + 1
    let s2 := (s1.modGroup g fun q => { q with phase := .settled, disagreed := n }).askEmergency g 1
    (if 2 ≤ n then s2.computeLost else s2).freeEngines

/-- SEGMENT_COMPLETE (R38): the engines finish a pass or retry. TST_ENG perturbs the results of the engine it names (R502). -/
def execSegmentComplete (r : SegmentResult) (s0 : State) : Out :=
  let s := s0.countErrors r
  .next (
    match s0.engines.busy with
    | .segment g retry =>
      let q := s0.groups[g]
      let inj := s0.engInjection g
      let fits := match inj with
        | some (_, e) => s0.serves e && !(s0.mainsOf g).isEmpty
        | none => false
      let mode := match inj with
        | some (k, _) => k
        | none => 3
      if q.stale then (s.modGroup g fun q => { q with stale := false }).freeEngines
      else if fits && mode == 2 then s0
      else if s0.engines.mode = .lost then (s.commitSample g).freeEngines
      else
        let disturbed := fits && (mode == 1 || (mode == 0 && (!retry || s0.engines.mode != .lockstep)))
        let agree := r.agree && !disturbed
        let keeps := s0.engines.mode == .lockstep && fits && mode == 1
        let simplex := s0.engines.mode != .lockstep
        let s1 := if inj.isSome && !keeps && (retry || !simplex) then s.disarmEng else s
        match s0.engines.mode with
        | .lockstep => s1.lockstepEnd g r retry agree
        | .simplexA => s1.simplexEnd g r.flaggedA retry agree
        | .simplexB => s1.simplexEnd g r.flaggedB retry agree
        | .lost => s1
    | _ => s0)

/-! ## COMPUTE_DEADLINE (R42, R440) -/

/-- EXCHANGE_SEND (R440): each span part sends its packet at its compute deadline. -/
def sendExchange (s : State) (g : Grp) (isRepeat : Bool) : State :=
  let q := s.groups[g]
  match fin? 32 (s.gNounN g 0x38) with
  | none => s
  | some k =>
    if k.val = 0 ∨ s.cascade.formed = false ∨ !(q.running || (s.homePart g && q.span.stop)) then s
    else
      let home := s.homePart g
      let values := if home then (q.uc ++ List.replicate 8 0).take (s.gNounN g 0x39)
        else (s.mainsOf g).flatMap fun m =>
          let e := (s.mains[m]).eng
          [e.speed, e.id, e.iq]
      let kap := if home then [] else q.kappas.map fun p => (openRound (p.2 * 65536)).toNat
      let s1 := s.modCascade fun c => { c with
        out := c.out ++ [.exchange k q.sample values kap isRepeat q.eactive (home && q.span.stop)] }
      if home then s1.modGroup g fun q => { q with span := { q.span with stop := false } } else s1

/-- OVERRUN (R42): the segment is abandoned; on a second one in succession the emergency mode follows. -/
def overrun (s : State) (g : Grp) : State :=
  let q := s.groups[g]
  let s1 := (s.modGroup g fun q => { q with
    overruns := inc32 q.overruns
    stale := q.stale || q.phase == .passing || q.phase == .retrying
    overran := true }).logEvent sevMasked 0x0101 (objGroup g) (q.sample.toNat) q.sample.toNat
  let s2 := if q.overran then s1.askEmergency g 5 else s1
  if (s.engInjection g).any fun p => p.1 == 2 then s2.disarmEng else s2

/-- COMPUTE_DEADLINE (R42): a sample that has not committed is abandoned, and a span part sends its EXCHANGE packet. -/
def execComputeDeadline (g : Grp) (s : State) : Out :=
  .next (
    match (s.groups[g]).phase with
    | .none => s.sendExchange g false
    | .settled => (s.repeatSample g).sendExchange g true
    | _ => ((s.overrun g).repeatSample g).sendExchange g true)

end State

end Sys2Proof.Machine
end

