-- ==== Sys2Proof/Machine/Registers.lean ====
section
/-! DEFINITION. The host window (R7, R13 to R15, R345): the value of every register, the effect of a write of one, the frames
of the host link (R338 to R344), and the rows of registers that have one of their own. -/

namespace Sys2Proof.Machine

/-- A word with the bits of a mask kept. -/
def masked (v : Word) (m : Nat) : Word := v &&& BitVec.ofNat 32 m

/-- A word from fields: lowest bit, width, value. -/
def packW (fs : List (Nat × Nat × Nat)) : Word := intWord (pack fs)

/-- The words of a log record (R334). -/
def recordWords (seq : Nat) (r : Record) : List Word :=
  [BitVec.ofNat 32 seq, BitVec.ofNat 32 (r.time % 4294967296), packW [(16, 4, r.sev), (0, 16, r.time / 4294967296)],
    packW [(16, 16, r.object), (0, 16, r.code)], BitVec.ofNat 32 r.sample, packW [(0, 16, r.ticket)], intWord r.data0, intWord r.data1]

/-- Codes of FCS (R423). -/
def Fcs.num : Fcs → Nat
  | .active => 0
  | .passive => 1
  | .busOff => 2
  | .init => 3

/-- Codes of TXSTAT (R424). -/
def TxState.num : TxState → Nat
  | .idle => 0
  | .pending => 1
  | .active => 2
  | .sent => 3
  | .aborted => 4
  | .failed => 5
  | .firmware => 6

/-- Codes of MBX_SLOTST (R346). -/
def SlotState.num : SlotState → Nat
  | .free => 0
  | .posted => 1
  | .taken => 2
  | .replied => 3

namespace State

/-! ## Reading: mailbox, log and FIFO -/

/-- A record of the RAM log by SEQ, while the ring holds it. -/
def logRecord (s : State) (seq : Nat) : Option Record := s.log.ram.lookup seq

/-- MBX_FBIRQ (R346). -/
def fbIrq (s : State) : Nat := ((fins 16).map fun n => b2n ((s.fb[n]).flags &&& (s.fb[n]).irqEn != 0) * 2 ^ n.val).sum

/-- MBX_IRQSRC (R347). -/
def irqSource (s : State) : Nat :=
  let m := s.mail
  field 12 1 (b2n (s.gff.irq &&& s.gff.irqEn != 0)) +
    ((fins 4).map fun p => b2n ((s.can[p]).irq &&& (s.can[p]).irqEn != 0) * 2 ^ (8 + p.val)).sum +
    field 5 1 (b2n (s.fbIrq != 0)) + field 4 1 (b2n (s.switches.edge &&& s.switches.irqEn != 0)) +
    field 3 1 (b2n (s.log.irq &&& s.log.irqEn != 0)) + field 2 1 (b2n (m.err != 0 && m.irqEn.getLsbD 17)) +
    field 1 1 (b2n (!m.completions.isEmpty && m.irqEn.getLsbD 16)) +
    field 0 1 (b2n (m.reply &&& m.irqEn.setWidth 16 != 0))

/-- HIRQ_N is low (R347). -/
def hirqLow (s : State) : Bool := s.irqSource != 0

/-- Mailbox registers (R346, R348, R352). -/
def readMbx (s : State) (a : Nat) : Word :=
  let m := s.mail
  match a with
  | 0x408 => BitVec.ofNat 32 ((fins 16).map fun i => (m.slots[i]).state.num * 4 ^ i.val).sum
  | 0x40C => m.reply.setWidth 32
  | 0x410 => m.irqEn.setWidth 32
  | 0x414 => BitVec.ofNat 32 s.irqSource
  | 0x418 => BitVec.ofNat 32 s.fbIrq
  | 0x41C => m.err.setWidth 32
  | 0x420 => packW [(31, 1, b2n m.fwReady), (30, 1, b2n (s.faults.cpu == .lost)), (16, 6, s.inFlightCount), (0, 16, m.lastTicket)]
  | 0x424 => m.heartbeat
  | 0x428 => 0x48541208
  | 0x42C => BitVec.ofNat 32 m.completions.length
  | _ =>
    if 0x440 ≤ a ∧ a < 0x4C0 then
      match m.completions[(a - 0x440) / 4]? with
      | some c => packW [(16, 16, c.ticket), (8, 8, c.status), (6, 2, 3)]
      | none => 0
    else 0

/-- The event log window (R335). -/
def readLog (s : State) (a : Nat) : Word :=
  let l := s.log
  match a with
  | 0x3000 => BitVec.ofNat 32 l.head
  | 0x3004 => l.page
  | 0x3010 => l.irqEn.setWidth 32
  | 0x3014 => l.irq.setWidth 32
  | _ =>
    if 0x3400 ≤ a then
      let seq := (l.page.toNat + (a - 0x3400) / 32) % 4294967296
      match s.logRecord seq with
      | some r => (recordWords seq r).getD ((a - 0x3400) % 32 / 4) 0
      | none => 0
    else 0

/-- Gather FIFO registers and the view (R494, R497, R498). -/
def readGff (s : State) (a : Nat) : Word :=
  let f := s.gff
  match a with
  | 0x800 => packW [(3, 1, b2n f.trace), (2, 1, b2n f.switch), (1, 1, b2n f.compare), (0, 1, b2n f.en)]
  | 0x804 => packW [(18, 1, b2n f.wRej), (17, 1, b2n s.gffHeld), (16, 1, b2n f.ovf), (0, 14, f.words.length)]
  | 0x80C => f.thr.setWidth 32
  | 0x810 => f.irqEn.setWidth 32
  | 0x814 => f.irq.setWidth 32
  | 0x818 => BitVec.ofNat 32 f.drop
  | 0x820 => f.swSel.setWidth 32
  | 0x824 => f.trcCfg
  | 0x828 => f.trcSig
  | _ => if 0xC00 ≤ a then f.words.getD ((a - 0xC00) / 4) 0 else 0

/-- Test registers (R504). -/
def readTest (s : State) (a : Nat) : Word :=
  let t := s.test
  match a with
  | 0xF004 => packW [(0, 1, b2n t.openLock)]
  | 0xF010 => t.hrdy
  | 0xF014 => t.gff
  | 0xF018 => t.cxdly
  | 0xF01C => t.sinc
  | 0xF020 => t.eng
  | 0xF024 => t.pwm
  | _ => 0

/-! ## Reading: CAN ports (R422 to R427) -/

/-- BUSn_CTRL and BUSn_STAT (R423). -/
def busCtrl (c : CanPort) : Word :=
  packW [(8, 1, b2n c.oneShot), (7, 1, b2n c.txOrd), (6, 1, b2n c.abor), (5, 1, b2n c.brsEn), (4, 1, b2n c.fdEn), (0, 3, c.mode.val)]

def busStat (c : CanPort) : Word :=
  packW [(15, 1, b2n c.timErr), (13, 1, b2n c.wRej), (12, 1, b2n c.pex), (11, 1, b2n c.bOff), (10, 1, b2n c.ePass),
    (8, 1, b2n c.lecData), (5, 3, c.lec.val), (4, 1, b2n (onBus c)), (3, 1, b2n c.recov), (0, 2, c.fcs.num)]

/-- BUSn_ERRC (R424): REC stands at 127 while RP shows that it has reached the receive-passive level (PRESUMED, log entry 47). -/
def busErrc (c : CanPort) : Word :=
  packW [(23, 1, b2n (decide (127 < c.recv))), (16, 7, Nat.min 127 c.recv), (0, 9, Nat.min 256 c.tec)]

/-- The words of a roster entry (R427). -/
def rosterWords (e : RosterEntry) : List Word :=
  [packW [(31, 1, 1), (28, 2, e.port.val), (27, 1, b2n e.silent), (26, 1, b2n e.dup.isSome), (25, 1, b2n e.lide), (0, 16, e.node)],
    BitVec.ofNat 32 (e.seen % 4294967296), BitVec.ofNat 32 (e.seen / 4294967296), BitVec.ofNat 32 e.frames,
    BitVec.ofNat 32 e.errors, e.lastId.setWidth 32,
    (match e.dup with
      | some d => d.setWidth 32
      | none => 0), 0]

/-- BUSn registers by offset (R422). -/
def readBus (s : State) (p : Port) (o : Nat) : Word :=
  let c := s.can[p]
  let b := s.canBufs[p]
  match o with
  | 0x000 => busCtrl c
  | 0x004 => busStat c
  | 0x008 => busErrc c
  | 0x00C => c.nbt
  | 0x010 => c.dbt
  | 0x014 => packW [(31, 1, b2n c.tdcEn), (16, 7, c.tdco.toNat), (0, 7, c.tdcv.toNat)]
  | 0x018 => BitVec.ofNat 32 s.tsc
  | 0x01C => c.irqEn.setWidth 32
  | 0x020 => c.irq.setWidth 32
  | 0x024 => packW [(16, 2, c.defq.toNat), (8, 1, b2n c.q1Over), (0, 1, b2n c.q0Over)]
  | 0x028 => packW [(8, 7, b.q1.length), (0, 7, b.q0.length)]
  | 0x02C => packW [(16, 16, b.ovf1), (0, 16, b.ovf0)]
  | 0x038 => packW [(31, 1, b2n (s.pNoun p 0x40 != 0)), (8, 4, (b.tx[2]).state.num), (4, 4, (b.tx[1]).state.num), (0, 4, (b.tx[0]).state.num)]
  | 0x03C => (b.tx[0]).stamp
  | 0x040 => (b.tx[1]).stamp
  | 0x044 => (b.tx[2]).stamp
  | 0x048 => BitVec.ofNat 32 b.pexCnt
  | 0x04C => BitVec.ofNat 32 b.rxCnt
  | 0x050 => BitVec.ofNat 32 b.txCnt
  | 0x054 => BitVec.ofNat 32 b.errCnt
  | 0x0BC => b.rsel.setWidth 32
  | _ =>
    if 0x0C0 ≤ o ∧ o < 0x0E0 then
      match s.roster.entries.lookup b.rsel.toNat with
      | some e => (rosterWords e).getD ((o - 0x0C0) / 4) 0
      | none => 0
    else if 0x100 ≤ o ∧ o < 0x150 then (b.q0.headD []).getD ((o - 0x100) / 4) 0
    else if 0x180 ≤ o ∧ o < 0x1D0 then (b.q1.headD []).getD ((o - 0x180) / 4) 0
    else if 0x200 ≤ o ∧ o < 0x2F0 then
      match fin? 3 ((o - 0x200) / 80) with
      | some i => ((b.tx[i]).words.toList).getD ((o - 0x200) % 80 / 4) 0
      | none => 0
    else if 0x300 ≤ o then
      match fin? 32 ((o - 0x300) / 8) with
      | some f => if o % 8 = 0 then b.fid[f] else b.fmask[f]
      | none => 0
    else 0

/-! ## Reading: feedback units (R276 to R282) -/

/-- The 64-bit value whose L register lies at an offset. -/
def pairValue (u : FbUnit) (o : Nat) : Option Int :=
  match o with
  | 0x10 => some u.pos
  | 0x20 => some u.count
  | 0x28 => some u.preset
  | 0x30 => some u.slimLo
  | 0x38 => some u.slimHi
  | 0x44 => some u.cmp
  | _ => none

/-- FBn_TYPE. -/
def unitType (n : FbNo) : Nat := if n.val < 8 then 1 else if n.val < 12 then 2 else 3

/-- FBn registers by offset; the H halves show what the last read of their L register captured (R243). -/
def readFb (s : State) (n : FbNo) (o : Nat) : Word :=
  let u := s.fb[n]
  match o with
  | 0x00 => packW [(9, 1, b2n u.modulo), (5, 1, b2n u.keep), (4, 1, b2n u.idxEn), (3, 1, b2n u.dirInv), (0, 1, b2n u.en)]
  | 0x04 => packW [(31, 1, b2n u.valid), (30, 1, b2n u.ref), (29, 1, b2n u.dir), (27, 2, u.cause.val), (26, 1, b2n u.behind),
      (25, 1, b2n u.armed), (16, 8, u.spanIll), (0, 12, u.flags.toNat)]
  | 0x08 => u.irqEn.setWidth 32
  | 0x18 => intWord u.speed
  | 0x1C => BitVec.ofNat 32 u.age
  | 0x40 => BitVec.ofNat 32 u.modulus
  | 0x4C => BitVec.ofNat 32 u.cmpSp
  | 0x50 => packW [(2, 1, b2n u.cmpGff), (0, 2, u.cmpMode.val)]
  | 0x54 => BitVec.ofNat 32 u.cmpSkip
  | 0x58 => BitVec.ofNat 32 u.lines
  | 0x5C => BitVec.ofNat 32 u.idxPos
  | 0x60 => intWord u.idxDev
  | 0x64 => BitVec.ofNat 32 u.illCnt
  | 0x68 => u.spdCfg
  | 0x6C => u.ucfg
  | 0x70 => intWord u.data
  | 0x74 => BitVec.ofNat 32 u.errCnt
  | 0x78 => BitVec.ofNat 32 u.jump
  | 0x7C => BitVec.ofNat 32 (unitType n)
  | _ =>
    match pairValue u o with
    | some v => intWord v
    | none => if (pairValue u (o - 4)).isSome then sget 0 s.mail.capturedH (0x2000 + 0x80 * n.val + o) else 0

/-- The active level of every switch, and with CHATTER (R272, R282). -/
def switchLevels (s : State) : BitVec 24 := s.switches.level ^^^ s.switches.pol

/-- The switches present on the member. -/
def switchMask (s : State) : Nat := 2 ^ s.member.counts.switches - 1

/-- Shared feedback registers (R282). -/
def readShared (s : State) (a : Nat) : Word :=
  let w := s.switches
  let m := fun (v : BitVec 24) => masked (v.setWidth 32) s.switchMask
  match a with
  | 0x2800 => m w.pol
  | 0x2804 => m s.switchLevels
  | 0x2808 => m (s.switchLevels ||| w.chatter)
  | 0x280C => m w.chatter
  | 0x2828 => m w.edge
  | 0x282C => m w.irqEn
  | _ =>
    if 0x2810 ≤ a ∧ a < 0x2828 then
      wordLE ((List.range 4).map fun j => ((w.filter.toList).getD ((a - 0x2810) + j) 0).toNat)
    else if 0x2840 ≤ a ∧ a < 0x2850 then
      match fin? 4 ((a - 0x2840) / 4) with
      | some e => if s.member.hasFb ⟨e.val, Nat.lt_of_lt_of_le e.isLt (by decide)⟩ then intWord s.retention.delta[e] else 0
      | none => 0
    else 0

/-- A port is present. -/
def hasPort (s : State) (p : Port) : Bool := decide (p.val < s.member.counts.ports)

/-- The value of a host-window address (R15, R345). -/
def readReg (s : State) (a : Nat) : Word :=
  if a < 0x400 then
    match fin? 16 (a / 64) with
    | some i => ((s.mail.slots[i]).words.toList).getD (a % 64 / 4) 0
    | none => 0
  else if a < 0x500 then s.readMbx a
  else if 0x800 ≤ a ∧ a < 0x1000 then s.readGff a
  else if 0x1000 ≤ a ∧ a < 0x2000 then
    match fin? 4 (a / 0x400 - 4) with
    | some p => if s.hasPort p then s.readBus p (a % 0x400) else 0
    | none => 0
  else if 0x2000 ≤ a ∧ a < 0x2800 then
    match fin? 16 ((a - 0x2000) / 0x80) with
    | some n => if s.member.hasFb n then s.readFb n (a % 0x80) else 0
    | none => 0
  else if 0x2800 ≤ a ∧ a < 0x2900 then s.readShared a
  else if 0x3000 ≤ a ∧ a < 0x3800 then s.readLog a
  else if 0xF000 ≤ a then s.readTest a
  else 0

/-- A read of an L register captures the H half of its pair (R243). -/
def captureH (s : State) (a : Nat) : State :=
  if 0x2000 ≤ a ∧ a < 0x2800 then
    match fin? 16 ((a - 0x2000) / 0x80) with
    | some n =>
      match pairValue s.fb[n] (a % 0x80) with
      | some v => s.modMail fun m => { m with capturedH := sput 0 m.capturedH (a + 4) (intWord (v.fdiv 4294967296)) }
      | none => s
    | none => s
  else s

/-- READ_L_REGISTER (R243). -/
def execReadLRegister (addr : BitVec 16) (s : State) : Out := .next (if s.hostUp then s.captureH addr.toNat else s)

/-! ## Writing: mailbox, log, FIFO, test -/

def writeMbx (s : State) (a : Nat) (v : Word) : State :=
  match a with
  | 0x400 => s.ringDoorbell (bitsOf v.toNat 0 16)
  | 0x404 => s.releaseSlots (bitsOf v.toNat 0 16)
  | 0x40C => s.modMail fun m => { m with reply := m.reply &&& ~~~(v.setWidth 16) }
  | 0x410 => s.modMail fun m => { m with irqEn := v.setWidth 18 }
  | 0x41C => s.modMail fun m => { m with err := m.err &&& ~~~(v.setWidth 6) }
  | 0x430 => s.modMail fun m => { m with completions := m.completions.drop (bitsOf v.toNat 0 6) }
  | _ => s

def writeLog (s : State) (a : Nat) (v : Word) : State :=
  let l := s.log
  match a with
  | 0x3004 => { s with log := { l with page := v } }
  | 0x3010 => { s with log := { l with irqEn := v.setWidth 2 } }
  | 0x3014 => { s with log := { l with irq := l.irq &&& ~~~(v.setWidth 2) } }
  | _ => s

/-- Gather FIFO registers (R497). A marker written in a frame is timed at the frame tick (log entry 48). -/
def writeGff (s : State) (a : Nat) (v : Word) : State :=
  let n := v.toNat
  match a with
  | 0x800 => s.modGff fun f =>
      let g := if bitAt n 31 then gffEmpty f else f
      { g with trace := bitAt n 3, switch := bitAt n 2, compare := bitAt n 1, en := bitAt n 0 }
  | 0x804 => s.modGff fun f => { f with wRej := f.wRej && !bitAt n 18, ovf := f.ovf && !bitAt n 16 }
  | 0x808 => s.gffAck (bitsOf n 0 14)
  | 0x80C => s.modGff fun f => { f with thr := v.setWidth 14 }
  | 0x810 => s.modGff fun f => { f with irqEn := v.setWidth 3 }
  | 0x814 => s.modGff fun f => { f with irq := f.irq &&& ~~~(v.setWidth 3) }
  | 0x81C => s.gffMarker n 0
  | 0x820 => s.modGff fun f => { f with swSel := v.setWidth 24 }
  | 0x824 => s.modGff fun f => { f with trcCfg := masked v 0x07FF0007 }
  | 0x828 => s.modGff fun f => { f with trcSig := v }
  | _ => s

/-- Test registers (R499 to R504). -/
def writeTest (s : State) (a : Nat) (v : Word) : State :=
  let put := fun (f : TestSt → TestSt) => if s.test.openLock then s.modTest f else s
  match a with
  | 0xF000 => s.writeKey v
  | 0xF004 => if v = 0 then s.closeTest else s
  | 0xF010 => put fun t => { t with hrdy := v }
  | 0xF014 => put fun t => { t with gff := masked v 1 }
  | 0xF018 => put fun t => { t with cxdly := masked v 0x3FF }
  | 0xF01C => s.writeSinc v
  | 0xF020 => s.writeEng v
  | 0xF024 => put fun t => { t with pwm := masked v 0x8F000FFF }
  | _ => s

/-! ## Writing: CAN ports -/

/-- BUSn_CTRL (R422, R423): an ignored write is one that would change a field (DEDUCED, log entry 43). -/
def writeCtrl (s : State) (p : Port) (n : Nat) : State :=
  let s1 := s.modPort p fun c =>
    let d := { c with oneShot := bitAt n 8, txOrd := bitAt n 7, brsEn := bitAt n 5, fdEn := bitAt n 4 }
    let e := if c.mode.val = 0 then d else if d = c then c else { c with wRej := true }
    { e with abor := bitAt n 6 }
  let s2 := s1.writeMode p (bitsOf n 0 3)
  if bitAt n 31 then s2.startRecovery p else s2

/-- A register that can be written only in INIT (R422). -/
def initOnly (s : State) (p : Port) (f : CanPort → CanPort) : State :=
  s.modPort p fun c => if c.mode.val = 0 then f c else { c with wRej := true }

/-- The bits of a transmit buffer word that the host writes (R425). -/
def txMask (k : Nat) : Nat :=
  match k with
  | 0 => 0xDFFFFFFF
  | 1 => 0x6F
  | 2 => 0
  | 3 => 0
  | _ => 0xFFFFFFFF

/-- A word of a transmit buffer (R405, R406). -/
def writeTx (s : State) (p : Port) (i : Fin 3) (k : Nat) (v : Word) : State :=
  match ((s.canBufs[p]).tx[i]).state with
  | .pending | .active | .firmware => s.modPort p fun c => { c with wRej := true }
  | _ =>
    match fin? 20 k with
    | some j => s.modTx p i fun x => { x with words := x.words.set j (masked v (txMask k)) }
    | none => s

def writeBus (s : State) (p : Port) (o : Nat) (v : Word) : State :=
  let n := v.toNat
  match o with
  | 0x000 => s.writeCtrl p n
  | 0x004 => s.modPort p fun c => { c with
      timErr := c.timErr && !bitAt n 15
      wRej := c.wRej && !bitAt n 13
      pex := c.pex && !bitAt n 12
      bOff := c.bOff && !bitAt n 11
      ePass := c.ePass && !bitAt n 10 }
  | 0x00C => s.initOnly p fun c => { c with nbt := masked v 0xFF7F7FFF }
  | 0x010 => s.initOnly p fun c => { c with dbt := masked v 0x1F0F0F1F }
  | 0x014 => s.initOnly p fun c => { c with tdcEn := bitAt n 31, tdco := BitVec.ofNat 7 (bitsOf n 16 7) }
  | 0x01C => s.modPort p fun c => { c with irqEn := v.setWidth 10 }
  | 0x020 => s.modPort p fun c => { c with irq := c.irq &&& ~~~(v.setWidth 10) }
  | 0x024 => s.initOnly p fun c => { c with defq := BitVec.ofNat 2 (bitsOf n 16 2), q1Over := bitAt n 8, q0Over := bitAt n 0 }
  | 0x030 => s.ackQueues p (bitsOf n 0 7) (bitsOf n 8 7)
  | 0x034 => s.writeTxreq p (bitsOf n 0 3) (bitsOf n 8 3)
  | 0x0B8 => s.modBufs p fun b => { b with rsel := v.setWidth 11 }
  | _ =>
    if 0x200 ≤ o ∧ o < 0x2F0 then
      match fin? 3 ((o - 0x200) / 80) with
      | some i => s.writeTx p i ((o - 0x200) % 80 / 4) v
      | none => s
    else if 0x300 ≤ o then
      match fin? 32 ((o - 0x300) / 8) with
      | some f =>
        if o % 8 = 0 then s.modBufs p fun b => { b with fid := b.fid.set f (masked v 0xDFFFFFFF) }
        else s.modBufs p fun b => { b with fmask := b.fmask.set f (masked v 0xDFFFFFFF) }
      | none => s
    else s

/-! ## Writing: feedback units -/

/-- A write ignored under R245. -/
def fbRejected (u : FbUnit) : FbUnit := setFlag u 8

/-- CFGERR where the modulus conflicts with the line count (R255). -/
def checkCfg (u : FbUnit) : FbUnit := if cfgBad u then setFlag u 9 else u

/-- A register that a running group's use of the unit locks (R245). -/
def fbLocked (s : State) (n : FbNo) (f : FbUnit → FbUnit) : State :=
  if s.unitInUse n then s.modFb n fbRejected else s.modFb n fun u => checkCfg (f u)

/-- EN takes a value: an enabled encoder is valid, the other units become valid by their own rules (R277; DEDUCED, log
entry 46). -/
def setEn (n : FbNo) (on : Bool) (u : FbUnit) : FbUnit :=
  if u.en = on then u
  else if on then { u with
    en := true
    valid := decide (n.val < 8)
    bad := 0
    good := 0
    badIdx := 0
    cleanSpans := 0 }
  else { u with en := false, valid := false }

/-- FBn_CTRL (R245, R277). -/
def writeFbCtrl (s : State) (n : FbNo) (v : Nat) : State :=
  let used := s.unitInUse n
  let s1 := s.modFb n fun u =>
    let d := { u with modulo := bitAt v 9, idxEn := bitAt v 4 && decide (n.val < 8), dirInv := bitAt v 3 }
    let e := if !used then d else if d = u then u else fbRejected u
    checkCfg (setEn n (bitAt v 0) { e with keep := bitAt v 5 && decide (n.val < 4) })
  let s2 := if bitAt v 31 then s1.presetUnit n else s1
  if bitAt v 30 then s2.rearmUnit n else s2

/-- FBn_CMPCTL (R279). A mode other than OFF judges the compare value as if it had just been written (DEDUCED, log entry 44). -/
def writeCmpctl (s : State) (n : FbNo) (v : Nat) : State :=
  s.modFb n fun u =>
    let g := { u with cmpGff := bitAt v 2 }
    match fin? 3 (v % 4) with
    | none => fbRejected g
    | some k =>
      if k = u.cmpMode then g
      else if k = 0 then { g with cmpMode := k, armed := false, behind := false }
      else judgeCompare { g with cmpMode := k } g.cmp

/-- The bits of FBn_UCFG that a write takes (R281). -/
def ucfgWord (n : FbNo) (v : Word) : Word :=
  if n.val < 8 then masked v 0x00FFFF3F
  else if n.val < 12 then masked v 0xFFF0 ||| 1
  else masked v 0xFFFF8FFF

/-- A 64-bit pair takes effect (R243). -/
def writePair (s : State) (n : FbNo) (o : Nat) (v : Int) : State :=
  match o with
  | 0x28 => s.modFb n fun u => { u with preset := v }
  | 0x30 => s.modFb n fun u => { u with slimLo := v }
  | 0x38 => s.modFb n fun u => { u with slimHi := v }
  | 0x44 => s.writeCompare n v
  | _ => s

/-- A write of an L register is held (R243); one of an H register brings the pair into effect. With no L write held the low half
stays as it is (DEDUCED, log entry 49). -/
def writeHalf (s : State) (n : FbNo) (o : Nat) (v : Word) : State :=
  let a := 0x2000 + 0x80 * n.val + o
  if (pairValue s.fb[n] o).isSome then s.modMail fun m => { m with heldL := sins m.heldL a v }
  else match pairValue s.fb[n] (o - 4) with
    | none => s
    | some old =>
      let low := match s.mail.heldL.lookup (a - 4) with
        | some w => w
        | none => intWord old
      (s.modMail fun m => { m with heldL := sdel m.heldL (a - 4) }).writePair n (o - 4) (v.toInt * 4294967296 + low.toNat)

/-- FBn registers by offset (R276). -/
def writeFb (s : State) (n : FbNo) (o : Nat) (v : Word) : State :=
  match o with
  | 0x00 => s.writeFbCtrl n v.toNat
  | 0x04 => s.modFb n fun u => { u with flags := u.flags &&& ~~~(v.setWidth 12) }
  | 0x08 => s.modFb n fun u => { u with irqEn := v.setWidth 12 }
  | 0x40 => s.fbLocked n fun u => { u with modulus := v.toNat }
  | 0x4C => s.modFb n fun u => { u with cmpSp := v.toNat }
  | 0x50 => s.writeCmpctl n v.toNat
  | 0x58 => s.fbLocked n fun u => { u with lines := bitsOf v.toNat 0 25 }
  | 0x5C => s.fbLocked n fun u => { u with idxPos := v.toNat }
  | 0x68 => s.modFb n fun u => { u with spdCfg := v }
  | 0x6C => s.fbLocked n fun u => { u with ucfg := ucfgWord n v }
  | 0x78 => s.modFb n fun u => { u with jump := v.toNat }
  | _ => if 0x28 ≤ o ∧ o < 0x4C then s.writeHalf n o v else s

/-- Shared feedback registers (R282). -/
def writeShared (s : State) (a : Nat) (v : Word) : State :=
  let w := s.switches
  let m : BitVec 24 := (masked v s.switchMask).setWidth 24
  match a with
  | 0x2800 => { s with switches := { w with pol := m } }
  | 0x2828 => { s with switches := { w with edge := w.edge &&& ~~~m } }
  | 0x282C => { s with switches := { w with irqEn := m } }
  | _ =>
    if 0x2810 ≤ a ∧ a < 0x2828 then
      let k := a - 0x2810
      let f : Vector Byte 24 := Vector.ofFn fun i =>
        if k ≤ i.val ∧ i.val < k + 4 ∧ i.val < s.member.counts.switches then
          BitVec.ofNat 8 (bitsOf v.toNat (8 * (i.val - k)) 8)
        else w.filter[i]
      { s with switches := { w with filter := f } }
    else s

/-! ## Frames (R338 to R344) -/

/-- One word at a host-window address (R13 to R15). -/
def writeReg (s : State) (a : Nat) (v : Word) : State :=
  if a < 0x400 then
    match fin? 16 (a / 64), fin? 16 (a % 64 / 4) with
    | some i, some j => s.modSlot i fun x => { x with words := x.words.set j v }
    | _, _ => s
  else if a < 0x500 then s.writeMbx a v
  else if 0x800 ≤ a ∧ a < 0x1000 then s.writeGff a v
  else if 0x1000 ≤ a ∧ a < 0x2000 then
    match fin? 4 (a / 0x400 - 4) with
    | some p => if s.hasPort p then s.writeBus p (a % 0x400) v else s
    | none => s
  else if 0x2000 ≤ a ∧ a < 0x2800 then
    match fin? 16 ((a - 0x2000) / 0x80) with
    | some n => if s.member.hasFb n then s.writeFb n (a % 0x80) v else s
    | none => s
  else if 0x2800 ≤ a ∧ a < 0x2900 then s.writeShared a v
  else if 0x3000 ≤ a ∧ a < 0x3800 then s.writeLog a v
  else if 0xF000 ≤ a then s.writeTest a v
  else s

/-- The addresses of a frame's data words with the words. -/
def frameCells (a : Nat) (ws : List Word) : List (Nat × Word) := ws.zipIdx.map fun p => (a + 4 * p.2, p.1)

/-- A frame that writes a slot that is not FREE, or rings the doorbell of one, is rejected whole (R351). -/
def slotsAllow (s : State) (cells : List (Nat × Word)) : Bool :=
  cells.all fun c =>
    if c.1 < 0x400 then
      (match fin? 16 (c.1 / 64) with
        | some i => (s.mail.slots[i]).state == .free
        | none => true)
    else if c.1 = 0x400 then s.doorbellOk (bitsOf c.2.toNat 0 16)
    else true

/-- A frame applied whole. -/
def applyCells (s : State) (cells : List (Nat × Word)) : State :=
  let s1 := if cells.any fun c => c.1 == 0xF000 then s else s.otherFrame
  cells.foldl (fun z c => z.writeReg c.1 c.2) s1

/-- The CRC of a command or status word's own bits [31:8] (R340). -/
def ownCrc (w : Word) : Nat := crc8 ((bytesBE w).take 3)

/-- The CRC over data words (R340). -/
def dataCrc (ws : List Word) : Nat := crc8 (ws.flatMap bytesBE)

/-- The status word (R344). -/
def statusWord (s : State) : Word :=
  let w := packW [(31, 1, b2n s.hirqLow), (30, 1, b2n (s.mail.err != 0)), (29, 1, b2n s.mail.fwReady)]
  w ||| BitVec.ofNat 32 (ownCrc w)

/-- A frame as its command word describes it (R339): write, N, byte address, CRC good, in range. -/
structure Command where
  write : Bool
  n : Nat
  addr : Nat
  crcOk : Bool
  inRange : Bool
deriving DecidableEq, Repr

def readCommand (w : Word) : Command :=
  let v := w.toNat
  let n := bitsOf v 23 8 + 1
  let a := bitsOf v 8 14
  { write := bitAt v 31, n, addr := 4 * a, crcOk := decide (bitsOf v 0 8 = ownCrc w), inRange := decide (a + n ≤ 16384) }

/-- A write frame (R341): what fails sets its bit in MBX_ERR, and a frame that fails has no effect. -/
def writeFrame (s : State) (f : HostFrame) (c : Command) : State :=
  let body := f.words.drop 1
  let data := body.take c.n
  let crc := body.getD c.n 0
  let lengthOk := decide (f.words.length = c.n + 2) && !f.partialWord
  let s0 := s.modMail fun m => { m with miso := s.statusWord :: List.replicate (f.words.length - 1) 0 }
  let s1 := if f.hrdyLow then s0.mbxErr 3 else s0
  if !c.crcOk then s1.mbxErr 0
  else if !c.inRange then s1.mbxErr 1
  else if !lengthOk then s1.mbxErr 2
  else if crc.toNat ≠ dataCrc data then s1.mbxErr 0
  else if f.hrdyLow then s1
  else
    let cells := frameCells c.addr data
    if s1.slotsAllow cells then s1.applyCells cells else s1.mbxErr 4

/-- A read frame (R342). -/
def readFrame (s : State) (f : HostFrame) (c : Command) : State :=
  let clocked := f.words.length - 1
  let lengthOk := decide (f.words.length = c.n + 2) && !f.partialWord
  let bad := !c.crcOk || !c.inRange || f.hrdyLow
  let values := (List.range c.n).map fun i => if bad then 0 else s.readReg (c.addr + 4 * i)
  -- each L register read in the frame captures its H half before the next word
  let go := fun (z : State × List Word) (i : Nat) =>
    let w := z.1.readReg (c.addr + 4 * i)
    (if i < clocked then z.1.captureH (c.addr + 4 * i) else z.1, z.2 ++ [w])
  let r := if bad then (s, values) else (List.range c.n).foldl go (s, [])
  let crc := dataCrc r.2
  let trailer := BitVec.ofNat 32 (if bad then 255 - crc else crc)
  let s1 := r.1.modMail fun m => { m with miso := s.statusWord :: (r.2 ++ [trailer]).take clocked }
  let s2 := if f.hrdyLow then s1.mbxErr 3 else s1
  if !c.crcOk then s2.mbxErr 0
  else if !c.inRange then s2.mbxErr 1
  else if !lengthOk then s2.mbxErr 2
  else s2

/-- A host-link frame (R338). -/
def hostFrame (s : State) (f : HostFrame) : State :=
  if !s.hostUp then s.modMail fun m => { m with miso := [] }
  else match f.words with
    | [] => s
    | w :: _ =>
      let c := readCommand w
      if c.write then s.writeFrame f c else s.readFrame f c

/-- HOST_WRITE_FRAME (R341). -/
def execHostWriteFrame (f : HostFrame) (s : State) : Out := .next (s.hostFrame f)

/-- HOST_READ_FRAME (R342). -/
def execHostReadFrame (f : HostFrame) (s : State) : Out := .next (s.hostFrame f)

/-! ## Registers with rows of their own -/

/-- REGISTER_PAIR_WRITE (R243): the two halves of a pair, low first. -/
def execRegisterPairWrite (addr : BitVec 16) (low high : Word) (s : State) : Out :=
  .next (if s.hostUp then s.applyCells [(addr.toNat, low), (addr.toNat + 4, high)] else s)

/-- GFF_ACK (R495). -/
def execGffAck (n : BitVec 14) (s : State) : Out := .next (if s.hostUp then s.otherFrame.gffAck n.toNat else s)

/-- GFF_CLEAR (R496). -/
def execGffClear (s : State) : Out := .next (if s.hostUp then s.otherFrame.modGff gffEmpty else s)

/-- GFF_MARK (R490). -/
def execGffMark (payload : BitVec 28) (cd6 : Nat) (s : State) : Out :=
  .next (if s.hostUp then s.otherFrame.gffMarker payload.toNat cd6 else s)

/-- TST_KEY (R499). -/
def execTstKey (w : Word) (s : State) : Out := .next (if s.hostUp then s.writeKey w else s)

/-- TST_LOCK_CLOSE (R500). -/
def execTstLockClose (s : State) : Out := .next (if s.hostUp then s.closeTest else s)

/-- TST_SINC_ARM (R502). -/
def execTstSincArm (w : Word) (s : State) : Out := .next (if s.hostUp then s.otherFrame.writeSinc w else s)

/-- TST_ENG_ARM (R502). -/
def execTstEngArm (w : Word) (s : State) : Out := .next (if s.hostUp then s.otherFrame.writeEng w else s)

/-- FB_PRESET (R256). -/
def execFbPreset (n : FbNo) (s : State) : Out :=
  .next (if s.hostUp && s.member.hasFb n then s.otherFrame.presetUnit n else s)

/-- REARM (R252). -/
def execRearm (n : FbNo) (s : State) : Out := .next (if s.hostUp && s.member.hasFb n then s.otherFrame.rearmUnit n else s)

/-- COMPARE_WRITE (R261). -/
def execCompareWrite (n : FbNo) (v : DWord) (s : State) : Out :=
  .next (if s.hostUp && s.member.hasFb n then s.otherFrame.writeCompare n v.toInt else s)

/-! ## RW registers as images and the running set carry them (R244, R391, R421, R467) -/

/-- Offsets of RW registers of a port and of a unit: CTRL, TDC and CMPCTL count for their RW fields (DEDUCED, log entry 45). -/
def busRw (o : Nat) : Bool :=
  [0x000, 0x00C, 0x010, 0x014, 0x01C, 0x024].contains o || (decide (0x200 ≤ o) && decide (o < 0x2F0)) || decide (0x300 ≤ o)

def fbRw (o : Nat) : Bool :=
  [0x00, 0x08, 0x28, 0x2C, 0x30, 0x34, 0x38, 0x3C, 0x40, 0x44, 0x48, 0x4C, 0x50, 0x58, 0x5C, 0x68, 0x6C, 0x78].contains o

def sharedRw (a : Nat) : Bool := a == 0x2800 || a == 0x282C || (decide (0x2810 ≤ a) && decide (a < 0x2828))

/-- An RW register in 0x1000–0x2FFF of the member. -/
def isRw (s : State) (a : Nat) : Bool :=
  if a % 4 ≠ 0 then false
  else if 0x1000 ≤ a ∧ a < 0x2000 then
    match fin? 4 (a / 0x400 - 4) with
    | some p => s.hasPort p && busRw (a % 0x400)
    | none => false
  else if 0x2000 ≤ a ∧ a < 0x2800 then
    match fin? 16 ((a - 0x2000) / 0x80) with
    | some n => s.member.hasFb n && fbRw (a % 0x80)
    | none => false
  else decide (0x2800 ≤ a) && decide (a < 0x2900) && sharedRw a

/-- Every RW register of 0x1000–0x2FFF, in rising order. -/
def rwList (s : State) : List Nat := ((List.range 1600).map fun i => 0x1000 + 4 * i).filter s.isRw

/-- The running value of an RW register: of an H register the present half. -/
def rwValue (s : State) (a : Nat) : Word :=
  if 0x2000 ≤ a ∧ a < 0x2800 then
    match fin? 16 ((a - 0x2000) / 0x80) with
    | some n =>
      match pairValue s.fb[n] (a % 0x80 - 4), pairValue s.fb[n] (a % 0x80) with
      | some v, none => intWord (v.fdiv 4294967296)
      | _, _ => s.readReg a
    | none => 0
  else s.readReg a

/-- Registers are loaded at a start: commands in them do not act, and a port's MODE is not entered yet (R421). -/
def loadReg (s : State) (a : Nat) (v : Word) : State :=
  if 0x1000 ≤ a ∧ a < 0x2000 ∧ a % 0x400 = 0 then s.writeReg a (masked v 0x1F0)
  else if 0x2000 ≤ a ∧ a < 0x2800 ∧ a % 0x80 = 0 then s.writeReg a (masked v 0x3FFFFFFF)
  else s.writeReg a v

end State

end Sys2Proof.Machine
end

