-- ==== Sys2Proof/Machine/Images.lean ====
section
/-! DEFINITION. Configuration images (R390 to R393): the running configuration as an image, the validation of a staged one,
and the load of one at a start. -/

namespace Sys2Proof.Machine

/-! ## Writing an image -/

/-- A record of an image (R392): its two-word head and its data. -/
def imageRecord (kind key : Nat) (data : List Word) : List Word :=
  BitVec.ofNat 32 (field 24 8 kind + field 0 16 key) :: BitVec.ofNat 32 data.length :: data

/-- The CRC of an image: over all words but word 3 (R392). -/
def imageCrc (ws : List Word) : Nat := crc32Words (ws.take 3 ++ ws.drop 4)

/-- Words of the staging area, and of the largest image (R388, R392). -/
def imageMax : Nat := 31744

/-- Cut a rising list of register addresses into runs of consecutive ones. -/
def runsOf : List Nat → List (List Nat)
  | [] => []
  | a :: r =>
    match runsOf r with
    | (b :: q) :: t => if b = a + 4 then (a :: b :: q) :: t else [a] :: (b :: q) :: t
    | t => [a] :: t

/-- The words of a sparse store from cell k on, n of them. -/
def expand : Nat → Nat → List (Nat × Word) → List Word
  | 0, _, _ => []
  | n + 1, k, l =>
    match l with
    | (i, w) :: r => if i = k then w :: expand n (k + 1) r else 0 :: expand n (k + 1) l
    | [] => 0 :: expand n (k + 1) []

/-- The cells of a list of words from cell k on, in canonical form. -/
def compact : Nat → List Word → List (Nat × Word)
  | _, [] => []
  | k, w :: r => if w = 0 then compact (k + 1) r else (k, w) :: compact (k + 1) r

/-- The pages of the noun space that hold writable parameter nouns (R369). -/
def nounPages : List Nat :=
  ((List.range 8).map fun g => 0x10 + g) ++ ((List.range 12).map fun m => 0x20 + m) ++ [0x40, 0x41, 0x42, 0x43, 0x4F] ++
    ((List.range 8).map fun a => 0x50 + a) ++ [0x60, 0x61, 0x62, 0x63, 0x64, 0x65, 0x66, 0x68, 0x6F] ++
    [0x80, 0x81, 0x82, 0x83, 0xA0, 0xB0]

/-- A configuration noun of a member (R372). -/
def isConfig (m : Member) (id : Nat) : Bool := (nounSpec m id).any fun p => decide (p.acc = .rw) && !p.volatile

/-- Every configuration noun of a member, in ascending ID. -/
def configIds (m : Member) : List Nat :=
  nounPages.flatMap fun p => ((List.range 256).map fun i => 256 * p + i).filter (isConfig m)

namespace State

/-- The running value of a configuration noun: of a safety noun the running set, not the staged copy (R306, R391; DEDUCED, log
entry 50). -/
def configValue (s : State) (id : Nat) : Int :=
  match nounClass id with
  | some (.safety off) => if off = 0xF0E then s.noun id else s.safeNoun id
  | some (.main m 0x31) => s.presentMode m
  | _ => s.noun id

/-- The VALUE record of a noun. -/
def valueRecord (s : State) (id : Nat) : List Word :=
  match nounSpec s.member id with
  | some p => imageRecord 0x01 id (p.words (s.configValue id))
  | none => []

/-- The records of the running configuration (R391). -/
def captureRecords (s : State) : List (List Word) :=
  (configIds s.member).map s.valueRecord ++
    (((fins 8).filter fun g => s.gNounN g 0x09 != 0).map fun g =>
      imageRecord 0x02 (0x3000 + 256 * g.val) ((List.range (s.gNounN g 0x09)).map (s.activeRegion g))) ++
    ((List.range 8).map fun t => imageRecord 0x03 (0x5F00 + t) ((List.range 256).map (s.tableEntry t))) ++
    ((runsOf s.rwList).map fun r => imageRecord 0x04 (r.headD 0) (r.map s.rwValue)) ++ [imageRecord 0xFF 0 []]

/-- The image of the running configuration (R391, R392). TAG is free. -/
def captureImage (s : State) (tag : Word) : List Word :=
  let rs := s.captureRecords
  let body := rs.flatten
  let hd : List Word := [0x43464B4E, BitVec.ofNat 32 (field 24 8 3 + s.member.code), BitVec.ofNat 32 (8 + body.length)]
  let tl := tag :: BitVec.ofNat 32 rs.length :: 0 :: 0 :: body
  hd ++ BitVec.ofNat 32 (imageCrc (hd ++ 0 :: tl)) :: tl

end State

/-! ## Reading an image -/

/-- A record as read: its word offset, TYPE, reserved byte, KEY, COUNT and data. -/
structure ImageRec where
  at0  : Nat
  kind : Nat
  rsv  : Nat
  key  : Nat
  data : List Word
deriving DecidableEq, Repr

/-- Read records from word `o` up to word `len`: whether they end exactly there with END, and the records. -/
def readRecords : Nat → Nat → Nat → List Word → Bool × List ImageRec
  | 0, _, _, _ => (false, [])
  | k + 1, len, o, ws =>
    match ws with
    | h :: c :: r =>
      let n := c.toNat
      let next := o + 2 + n
      if len < next then (false, [])
      else
        let x : ImageRec := { at0 := o, kind := bitsOf h.toNat 24 8, rsv := bitsOf h.toNat 16 8, key := bitsOf h.toNat 0 16
                              data := r.take n }
        if x.kind = 0xFF then (decide (next = len), [x])
        else
          let q := readRecords k len next (r.drop n)
          (q.1, x :: q.2)
    | _ => (false, [])

/-- An image as read: its words up to LENGTH, and its records. -/
structure Image where
  words  : List Word
  whole  : Bool
  recs   : List ImageRec
deriving DecidableEq, Repr

/-- Read an image from the words of a staging area or copy. -/
def readImage (ws : List Word) : Image :=
  let len := (ws.getD 2 0).toNat
  if len < 10 ∨ imageMax < len then { words := ws, whole := false, recs := [] }
  else
    let img := ws.take len
    let q := readRecords imageMax len 8 (img.drop 8)
    { words := img, whole := q.1, recs := q.2 }

/-- The value of a VALUE record for a noun of a given table entry. -/
def ImageRec.value (x : ImageRec) (p : NounSpec) : Int := p.value x.data

/-- The VALUE record of a noun in an image. -/
def Image.find (i : Image) (id : Nat) : Option ImageRec := i.recs.find? fun x => x.kind == 1 && x.key == id

/-- The value an image gives a noun: its record's, or the default (R393). -/
def Image.noun (i : Image) (id : Nat) : Int :=
  match i.find id, (nounClass id).bind NounClass.spec with
  | some x, some p => x.value p
  | _, _ => nounDefault id

def Image.nounN (i : Image) (id : Nat) : Nat := (i.noun id).toNat

/-- The offset of the last VALUE record among some nouns: where a failure that they cause together is found (DEDUCED, log entry
51). -/
def Image.lastOf (i : Image) (ids : List Nat) : Nat :=
  (ids.filterMap fun id => (i.find id).map ImageRec.at0).foldl Nat.max 0

/-! ## Validation (R393): LASTERR codes with the word offsets at which they are found -/

/-- Failures of the header. -/
def headerFaults (m : Member) (i : Image) : List (Nat × Nat) :=
  let w := fun (k : Nat) => (i.words.getD k 0).toNat
  (if w 0 = 0x43464B4E then [] else [(0, 1)]) ++
    (if bitsOf (w 1) 24 8 = 3 ∧ bitsOf (w 1) 16 8 = 0 then [] else [(1, 2)]) ++
    (if bitsOf (w 1) 0 16 = m.code then [] else [(1, 3)]) ++ (if i.whole then [] else [(2, 4)]) ++
    (if w 3 = imageCrc i.words then [] else [(3, 5)]) ++ (if w 5 = i.recs.length then [] else [(5, 6)]) ++
    (if w 6 = 0 then [] else [(6, 2)]) ++ (if w 7 = 0 then [] else [(7, 2)])

/-- KEY of a REGION record names a group of the member. -/
def regionKey (m : Member) (key : Nat) : Option Grp :=
  match nounClass key with
  | some (.region g) => if g.val < m.counts.groups then some g else none
  | _ => none

/-- KEY of a TABLE record. -/
def tableKey (key : Nat) : Option (Fin 8) :=
  match nounClass key with
  | some (.table t) => some t
  | _ => none

/-- The failure of one record by itself, as a LASTERR code; `isRw` tells the registers that are RW. -/
def recordFault (m : Member) (isRw : Nat → Bool) (i : Image) (before : List ImageRec) (x : ImageRec) : Option Nat :=
  let n := x.data.length
  let bad := x.rsv ≠ 0 ∨ (before.any fun y => y.kind == x.kind && y.key == x.key) = true
  if bad then some 6
  else if x.kind = 1 then
    (match nounSpec m x.key with
      | none => if n = 1 ∨ n = 2 then some 7 else some 6
      | some p =>
        if n ≠ (if p.wide then 2 else 1) then some 6
        else if !isConfig m x.key then some 7
        else if !p.inRange (x.value p) then some 8
        else none)
  else if x.kind = 2 then
    (match regionKey m x.key with
      | none => some 6
      | some g =>
        if n = 0 then some 6 else if i.nounN (0x1009 + 256 * g.val) < n then some 9 else none)
  else if x.kind = 3 then (if n = 256 ∧ (tableKey x.key).isSome = true then none else some 6)
  else if x.kind = 4 then
    (if n = 0 ∨ 256 < n then some 6
      else if (List.range n).all fun k => isRw (x.key + 4 * k) then none else some 7)
  else if x.kind = 0xFF then (if n = 0 ∧ x.key = 0 then none else some 6)
  else some 6

/-- Failures of the records by themselves, in address order. -/
def recordFaults (m : Member) (isRw : Nat → Bool) (i : Image) : List ImageRec → List ImageRec → List (Nat × Nat)
  | _, [] => []
  | before, x :: r =>
    match recordFault m isRw i before x with
    | some c => (x.at0, c) :: recordFaults m isRw i (x :: before) r
    | none => recordFaults m isRw i (x :: before) r

/-- One failure of several nouns together. -/
def Image.together (i : Image) (code : Nat) (bad : Bool) (ids : List Nat) : List (Nat × Nat) :=
  if bad then [(i.lastOf ids, code)] else []

/-- Regions beyond word 8191 or overlapping (R129). -/
def regionFaults (m : Member) (i : Image) : List (Nat × Nat) :=
  let base := fun (g : Nat) => i.nounN (0x1008 + 256 * g)
  let len := fun (g : Nat) => i.nounN (0x1009 + 256 * g)
  let own := fun (g : Nat) => [0x1008 + 256 * g, 0x1009 + 256 * g]
  (List.range m.counts.groups).flatMap fun g =>
    i.together 9 (decide (0 < len g ∧ 8192 < base g + len g)) (own g) ++
      (List.range g).flatMap fun k =>
        i.together 9 (decide (0 < len g ∧ 0 < len k ∧ base g < base k + len k ∧ base k < base g + len g)) (own g ++ own k)

/-- The link settings are in the order of R169. -/
def linkOrder (v : Nat → Int) : Bool :=
  decide (v 0x11 < v 0x12 ∧ v 0x12 ≤ v 0x13 ∧ v 0x13 < v 0x14 ∧ v 0x14 < v 0x15 ∧ v 0x10 ≤ v 0x13)

/-- The motion settings of an axis are in the order of R188. -/
def motionOrder (v : Nat → Int) : Bool := decide (v 0x54 ≤ v 0x55) && decide (v 0x58 = 0 ∨ v 0x56 ≤ v 0x57)

/-- The group settings are in the order of R27 and of R206. -/
def rateOrder (v : Nat → Int) : Bool := !(v 0x02 == 1 && v 0x04 == 1)
def windOrder (v : Nat → Int) : Bool := decide (v 0x2C < v 0x2D)

/-- Orders between nouns (R27, R169, R188, R206). -/
def orderFaults (m : Member) (i : Image) : List (Nat × Nat) :=
  let at0 := fun (b : Nat) (off : Nat) => i.noun (b + off)
  let all := fun (b : Nat) (offs : List Nat) => offs.map fun o => b + o
  ((List.range m.counts.groups).flatMap fun g =>
    let b := 0x1000 + 256 * g
    i.together 10 (!rateOrder (at0 b)) (all b [0x02, 0x04]) ++ i.together 10 (!windOrder (at0 b)) (all b [0x2C, 0x2D])) ++
  ((List.range m.counts.links).flatMap fun l =>
    let b := 0x4000 + 256 * l
    i.together 10 (!linkOrder (at0 b)) (all b [0x10, 0x11, 0x12, 0x13, 0x14, 0x15])) ++
  (((List.range m.counts.mains).map (fun k => 0x2000 + 256 * k) ++
      (List.range m.counts.auxs).map (fun k => 0x5000 + 256 * k)).flatMap fun b =>
    i.together 10 (!decide (i.noun (b + 0x54) ≤ i.noun (b + 0x55))) (all b [0x54, 0x55]) ++
      i.together 10 (!decide (i.noun (b + 0x58) = 0 ∨ i.noun (b + 0x56) ≤ i.noun (b + 0x57))) (all b [0x56, 0x57, 0x58]))

/-- Ranges that depend on another noun (R31, R366). -/
def rangeFaults (m : Member) (i : Image) : List (Nat × Nat) :=
  ((List.range m.counts.groups).flatMap fun g =>
    i.together 8 (decide (i.noun (0x1002 + 256 * g) ≤ i.noun (0x1003 + 256 * g))) [0x1002 + 256 * g, 0x1003 + 256 * g]) ++
  ((List.range m.counts.ports).flatMap fun p =>
    i.together 8 (decide (i.noun (0x8042 + 256 * p) = 0 ∧ 0x7F0 < i.noun (0x8041 + 256 * p)))
      [0x8041 + 256 * p, 0x8042 + 256 * p])

/-- The first failure in address order; of two at one word the one listed first. -/
def firstFault : List (Nat × Nat) → Option (Nat × Nat)
  | [] => none
  | p :: r =>
    match firstFault r with
    | some q => if q.1 < p.1 then some q else some p
    | none => some p

namespace State

/-- The validation of a staged image (R393): where it fails and with which LASTERR. -/
def imageFault (s : State) (i : Image) : Option (Nat × Nat) :=
  let h := headerFaults s.member i
  if i.whole then
    firstFault (h ++ recordFaults s.member s.isRw i [] i.recs ++ regionFaults s.member i ++ orderFaults s.member i ++
      rangeFaults s.member i)
  else firstFault h

/-! ## Loading (R128, R217, R372, R393, R421) -/

/-- The nouns of an image, those it does not carry at their defaults, and the modes recorded. -/
def loadNouns (s : State) (i : Image) : State :=
  let s0 : State := { s with
    nouns := []
    mains := s.mains.map fun a => { a with eng := { a.eng with recorded := none, mode := 0 } } }
  i.recs.foldl (fun (z : State) x =>
    if x.kind = 1 then
      match nounSpec z.member x.key with
      | some p =>
        (match nounClass x.key with
          | some (.main m 0x31) => z.modEng m fun e => { e with recorded := some (x.value p).toNat }
          | _ => z.setNoun x.key (x.value p))
      | none => z
    else z) s0

/-- The programmes of the groups go to both banks, and BANK0 becomes active (R128). -/
def loadRegions (s : State) (i : Image) : State :=
  let s0 : State := { s with groups := s.groups.map fun q => { q with bank1 := false } }
  i.recs.foldl (fun (z : State) x =>
    match x.kind, regionKey z.member x.key with
    | 2, some g =>
      let b := z.gNounN g 0x08
      let put := fun (l : List (Nat × Word)) => sputs (sputs l b x.data) (8192 + b) x.data
      { z with engines := { z.engines with storeA := put z.engines.storeA, storeB := put z.engines.storeB } }
    | _, _ => z) s0

/-- The microstep tables, default content where the image holds none (R217). -/
def loadTables (s : State) (i : Image) : State :=
  i.recs.foldl (fun (z : State) x =>
    match x.kind, tableKey x.key with
    | 3, some t => x.data.zipIdx.foldl (fun (y : State) p => y.setTableEntry t.val p.2 p.1) z
    | _, _ => z) { s with tables := [] }

/-- The RW registers, each at its Reset value where the image holds none (R244, R421). `s` has them at those values. -/
def loadRegs (s : State) (i : Image) : State :=
  i.recs.foldl (fun (z : State) x =>
    if x.kind = 4 then x.data.zipIdx.foldl (fun (y : State) p => y.loadReg (x.key + 4 * p.2) p.1) z else z) s

/-- The MODE of a port that the image holds, INIT where it holds none. -/
def imageMode (i : Image) (p : Port) : Nat :=
  let a := 0x1000 + 0x400 * p.val
  match i.recs.find? fun x => x.kind == 4 && decide (x.key ≤ a) && decide (a < x.key + 4 * x.data.length) with
  | some x => bitsOf (x.data.getD ((a - x.key) / 4) 0).toNat 0 3
  | none => 0

/-- The image of the active configuration copy, an empty one where no copy is valid. -/
def activeImage (s : State) : Image :=
  let c := s.store.copies[s.activeCopy]
  if c.valid then readImage c.image else { words := [], whole := true, recs := [] }

end State

end Sys2Proof.Machine
end

