-- ==== Sys2Proof/Machine/Stores.lean ====
section
/-! DEFINITION. The processor pair and its checkpoints (R320 to R324), the ledger's transfer (R178, R180, R384), the scrub and
the configuration blocks (R325 to R327), the life accumulator and the refresh (R564 to R568), and the stores' sentences that
wait for a checkpoint or a write (R390, R391). -/

namespace Sys2Proof.Machine

/-- OBJECT of the records of this chapter that concern no group (R334; DESIGN CHOICE, log entry 52). -/
def objFault : Nat := 0x7000
def objStore : Nat := 0xC010
def objLedger : Nat := 0x4F11

namespace State

/-! ## The ledger (R178 to R181, R384) -/

/-- The control die's totals by noun, in rising ID. -/
def controlTotals (s : State) : List (Nat × Nat) :=
  ((fins 8).flatMap fun g =>
    [(0x1022 + 256 * g.val, (s.groups[g]).hauled.mJ), (0x1023 + 256 * g.val, (s.groups[g]).paid.mJ)]) ++
  ((fins 12).flatMap fun m =>
    let a := s.mains[m]
    [(0x204C + 256 * m.val, a.eIn.mJ), (0x204D + 256 * m.val, a.eOut.mJ), (0x204E + 256 * m.val, a.thrust.mJ)]) ++
  ((fins 4).flatMap fun l =>
    let x := s.links[l]
    [(0x4019 + 256 * l.val, x.eIn.mJ), (0x401A + 256 * l.val, x.eOut.mJ), (0x401B + 256 * l.val, x.eChop.mJ)]) ++
  ((fins 8).flatMap fun a =>
    let x := s.auxs[a]
    [(0x504C + 256 * a.val, x.eIn.mJ), (0x504D + 256 * a.val, x.eOut.mJ)])

/-- Every counter of the control die takes a value by its noun. -/
def setTotals (s : State) (f : Nat → Counter) : State :=
  { s with
    groups := Vector.ofFn fun g => { s.groups[g] with hauled := f (0x1022 + 256 * g.val), paid := f (0x1023 + 256 * g.val) }
    mains := Vector.ofFn fun m => { s.mains[m] with
      eIn := f (0x204C + 256 * m.val)
      eOut := f (0x204D + 256 * m.val)
      thrust := f (0x204E + 256 * m.val) }
    links := Vector.ofFn fun l => { s.links[l] with
      eIn := f (0x4019 + 256 * l.val)
      eOut := f (0x401A + 256 * l.val)
      eChop := f (0x401B + 256 * l.val) }
    auxs := Vector.ofFn fun a => { s.auxs[a] with
      eIn := f (0x504C + 256 * a.val)
      eOut := f (0x504D + 256 * a.val) } }

/-- The control die takes up the keeper's totals at a start (R178). -/
def recallTotals (s : State) : State := s.setTotals fun id => { mJ := sget 0 s.ledger.totals id, rest := 0 }

/-- Net energy of a group's member axes from the keeper's values, not below zero (R180). -/
def netEnergy (s : State) (g : Grp) : Nat :=
  let t := fun (id : Nat) => ((sget (0 : Nat) s.ledger.totals id : Nat) : Int)
  let m := (s.mainsOf g).foldl (fun a k => a + t (0x204C + 256 * k.val) - t (0x204D + 256 * k.val)) 0
  ((s.auxsOf g).foldl (fun a k => a + t (0x504C + 256 * k.val) - t (0x504D + 256 * k.val)) m).toNat

/-- A group figure (R180). -/
def figure (w d : Nat) : Nat :=
  if d = 0 then 0xFFFFFFFF else (clampI 0 0xFFFFFFFE (openDiv ((w : Int) * 1000000) d)).toNat

/-- The group figures are computed from the keeper's values (R180, R181). -/
def computeFigures (s : State) : State :=
  { s with ledger := { s.ledger with
      perWork := Vector.ofFn fun g => figure (s.netEnergy g) (sget 0 s.ledger.totals (0x1022 + 256 * g.val))
      perThrust := Vector.ofFn fun g => figure (s.netEnergy g)
        ((s.mainsOf g).foldl (fun a k => a + sget 0 s.ledger.totals (0x204E + 256 * k.val)) 0) } }

/-- The transfer to the keeper at a checkpoint (R178). -/
def transferLedger (s : State) : State :=
  ({ s with ledger := { s.ledger with totals := s.controlTotals.filter fun p => p.2 != 0 } }).computeFigures

/-- Every counter is zero and the epoch counts up (R178, R384). -/
def wipeLedger (s : State) : State :=
  let s1 := s.setTotals fun _ => {}
  ({ s1 with ledger := { s1.ledger with totals := [], epoch := s1.ledger.epoch + 1 } }).computeFigures

/-- A CLEAR that is due (R384). -/
def clearLedger (s : State) : State :=
  match s.ledger.clearDue with
  | none => s
  | some t =>
    let s1 := s.wipeLedger
    let s2 : State := { s1 with ledger := { s1.ledger with clearDue := none } }
    (s2.logEvent sevInfo 0x0E02 objLedger s2.ledger.epoch.toNat 0 t).finish t stDone [s2.ledger.epoch]

/-! ## Checkpoints (R321, R391) -/

/-- A CAPTURE takes its values (R391). -/
def takeCapture (s : State) : State :=
  match s.store.capture with
  | none => s
  | some t =>
    let img := s.captureImage (BitVec.ofInt 32 (Config.freeValue s.free))
    (({ s.drawn with store := { s.store with capture := none, staged := compact 0 img } }).finish t stDone
      [BitVec.ofNat 32 img.length, img.getD 3 0])

/-- CHECKPOINT (R321): the journal is released, the ledger goes to the keeper, and what waits for a checkpoint is done. `vin`,
`control` and `keeper` are the figures measured (R462). -/
def execCheckpoint (vin : Nat) (control keeper : Int) (s : State) : Out :=
  .next (
    if !s.serving then s
    else
      let s1 := s.releaseJournal
      let s2 := s1.modMail fun m => { m with heartbeat := m.heartbeat + 1 }
      let s3 : State := { s2 with
        faults := { s2.faults with newerOk := true, olderOk := s2.faults.newerOk }
        life := { s2.life with vin, control, keeper } }
      if s3.fwRuns then (s3.transferLedger.clearLedger).takeCapture else s3)

/-! ## Core mismatches (R320 to R324) -/

/-- Every port goes to RESTRICTED, at the end of a frame it is sending (R324, R397). -/
def restrictPorts (s : State) : State :=
  eachFin 4 (fun (z : State) p => z.modPort p fun c =>
    if counts c && (z.canBufs[p]).sending.isSome then { c with nextMode := some 2 } else applyMode c 2) s

/-- The processor is lost (R324). -/
def loseProcessor (s : State) : State :=
  let s1 : State := { s with faults := { s.faults with cpu := .lost } }
  let s2 := eachFin 8 (fun (z : State) g => z.askEmergency g 3) s1
  s2.restrictPorts.logEvent sevDetected 0x0A13 objFault

/-- The punty core pairs with the core that is not retired (R323). Of two cores that pass core 1 is retired. A third core that
failed the self-test of the cold start cannot pair (DEDUCED, log entry 59). -/
def pairPunty (s : State) (core0 core1 : Bool) : State :=
  if (!core0 && !core1) || !s.faults.puntyGood then s.loseProcessor
  else
    let zero := !core0
    let s1 : State := { s with faults := { s.faults with
      cpu := if zero then .puntyWith1 else .puntyWith0
      puntyPower := true
      mismatchAt := none } }
    s1.logEvent sevExposure (if core0 && core1 then 0x0A12 else 0x0A11) objFault (if zero then 0 else 1)

/-- The rollback of R322. The replay gives the outputs of the journal again, so they stay in it (DEDUCED, log entry 53). With no
valid checkpoint there is nothing to restore, and the processor is lost (DESIGN CHOICE, log entry 54). -/
def rollback (s : State) (newerOk : Bool) : State :=
  let newer := newerOk && s.faults.newerOk
  if !newer && !s.faults.olderOk then s.loseProcessor
  else
    let s1 : State := { s with faults := { s.faults with
      rollbacks := inc32 s.faults.rollbacks
      mismatchAt := some s.time.now } }
    s1.logEvent sevMasked 0x0A10 objFault (if newer then 0 else 1)

/-- A mismatch (R322 to R324). -/
def mismatch (s : State) (newerOk core0 core1 : Bool) : State :=
  let again := match s.faults.mismatchAt with
    | some t => decide (s.time.now ≤ t + ticks100ms)
    | none => false
  if !again then s.rollback newerOk
  else if s.faults.cpu = .original then s.pairPunty core0 core1
  else s.loseProcessor

/-- CORE_MISMATCH (R320): `newerOk` tells whether the newer checkpoint passes its CRC, `core0` and `core1` whether the working
cores pass their self-test. -/
def execCoreMismatch (newerOk core0 core1 : Bool) (s : State) : Out :=
  .next (if s.fwRuns then s.mismatch newerOk core0 core1 else s)

/-! ## Block ages (R566 to R568) -/

/-- 17 532 equivalent hours in 0.01 h (R567). -/
def dueAge : Nat := 1753200

/-- Blocks in use: firmware 0–4095, the 64 blocks of the copies, and the free pool blocks of 4160–4223, the lowest of which
are used first (R326, R569). -/
def liveBlock (s : State) (b : Nat) : Bool := decide (b < 4160 ∨ (4224 ≤ b + s.faults.cullet ∧ b < 4224))
def liveCount (s : State) : Nat := 4160 + s.faults.cullet

/-- Accumulator at the last write of a block. -/
def writtenAt (s : State) (b : Nat) : Nat := sget 0 s.store.written b

/-- Blocks due, in rising number. -/
def dueList (s : State) : List Nat :=
  if s.life.acc < dueAge then s.store.stale
  else (List.range 4224).filter fun b =>
    s.liveBlock b && (s.store.stale.contains b || decide (s.writtenAt b + dueAge ≤ s.life.acc))

/-- The accumulator at the write of the oldest block. -/
def oldestWrite (s : State) : Nat :=
  match s.store.written with
  | [] => 0
  | p :: r => if s.store.written.length < s.liveCount then 0 else r.foldl (fun a q => Nat.min a q.2) p.2

/-- Nouns `N:0xE00A` and `N:0xE00B` follow the ages. -/
def recountAges (s : State) : State :=
  { s with store := { s.store with due := s.dueList.length, oldest := s.life.acc - s.oldestWrite } }

/-- A block is written: its age starts again (R567). -/
def writeBlock (s : State) (b : Nat) : State :=
  { s with store := { s.store with
      written := sput 0 s.store.written b s.life.acc
      stale := s.store.stale.filter fun k => k != b } }

/-- Of two blocks the one written earlier, the lower number on a tie. -/
def olderBlock (s : State) (a b : Nat) : Nat := if s.writtenAt b < s.writtenAt a then b else a

/-! ## Retirement of configuration blocks (R326, R327) -/

/-- A pool block is used up. -/
def usePool (s : State) : State :=
  let b := 4224 - s.faults.cullet
  { s with
    faults := { s.faults with cullet := s.faults.cullet - 1 }
    store := { s.store with
      written := sdel s.store.written b
      stale := s.store.stale.filter fun k => k != b } }

/-- Block b of copy b / 32 is retired. -/
def retireBlock (s : State) (b : Fin 64) : State :=
  if s.faults.cullet = 0 then
    let c : Fin 2 := ⟨b.val / 32, by omega⟩
    let s1 : State := { s with store := { s.store with
      copies := vmod s.store.copies c fun x => { x with valid := false }
      exhausted := true } }
    (eachFin 8 (fun (z : State) g => z.askEmergency g 4) s1).logEvent sevDetected 0x0A21 objStore b.val
  else
    let s1 := s.usePool.writeBlock (4096 + b.val)
    let s2 : State := { s1 with faults := { s1.faults with
      remapped := if s1.faults.remapped.contains b then s1.faults.remapped else s1.faults.remapped ++ [b] } }
    s2.logEvent sevMasked 0x0A20 objStore s2.faults.cullet

/-! ## SCRUB_PASS (R325, R326) -/

/-- Coefficient words that a scrub found uncorrectable in one engine's store (R314, R325). -/
def scrubCoef (s : State) (inA : Bool) (words : List (Fin 16384)) : State :=
  let survivor := match s.engines.mode with
    | .simplexA => inA
    | .simplexB => !inA
    | _ => false
  if s.engines.mode = .lockstep then s.copyWords inA words
  else if survivor then
    let lost := words.filter fun k => !s.engines.lostWords.contains k.val
    let s1 := eachFin 8 (fun (z : State) g => z.loseWords g (lost.filter fun k =>
      decide (z.gNounN g 0x08 ≤ k.val % 8192) && decide (k.val % 8192 < z.gNounN g 0x08 + z.gNounN g 0x09))) s
    { s1 with engines := { s1.engines with
        lostWords := lost.foldl (fun l k => if l.contains k.val then l else k.val :: l) s1.engines.lostWords } }
  else s

/-- Blocks with a corrected word on two successive passes are retired (R326). -/
def scrubBlocks (s : State) (blocks : List (Fin 64)) : State :=
  let twice := blocks.filter fun b => s.faults.weakBlocks.contains b
  let s1 : State := { s with faults := { s.faults with weakBlocks := blocks.filter fun b => !twice.contains b } }
  twice.foldl retireBlock s1

/-- An image that failed its CRC (R326). -/
def scrubImage (s : State) (i : Fin 2) (rewriteOk : Bool) : State :=
  if rewriteOk then s.logEvent sevMasked 0x0A22 objFault i.val
  else { s with faults := { s.faults with images := s.faults.images.set i false, xFwImage := true } }

/-- An uncorrectable word in retention RAM: the spec gives its event no code, so code and severity are free. -/
def scrubRetention (s : State) : State :=
  ({ s.drawn with retention := { s.retention with valid := false, clean := false } }).logEvent
    ((Config.freeValue s.free % 5).toNat) ((Config.freeValue s.free / 5 % 65536).toNat) objFault

/-- An uncorrectable word of SRAM: in firmware data a mismatch; else one of the two checkpoints, which the spec does not name, is
invalid (R325). -/
def scrubSram (s : State) (inFirmwareData : Bool) : State :=
  if inFirmwareData then (if s.fwRuns then s.mismatch true true true else s)
  else
    let newer := Config.freeChoice s.free
    { s.drawn with faults := { s.faults with
        newerOk := s.faults.newerOk && !newer
        olderOk := s.faults.olderOk && newer } }

/-- SCRUB_PASS (R325). Only the keeper's pass over retention RAM runs while the module sleeps. -/
def execScrubPass (store : ScrubStore) (f : ScrubFinding) (s : State) : Out :=
  .next (
    if !(s.awake || (store == .retention && s.power.phase == .asleep)) then s
    else
      let s1 : State := { s with faults := { s.faults with
        corrected := add32 s.faults.corrected f.corrected
        uncorrectable := add32 s.faults.uncorrectable f.uncorrectable } }
      match store with
      | .sram => if f.uncorrectable = 0 then s1 else s1.scrubSram f.inFirmwareData
      | .coefA => s1.scrubCoef true f.words
      | .coefB => s1.scrubCoef false f.words
      | .retention => if f.uncorrectable = 0 then s1 else s1.scrubRetention
      | .configStore => s1.scrubBlocks f.blocks
      | .firmware => match f.badImage with
        | some i => s1.scrubImage i f.rewriteOk
        | none => s1)

/-! ## BLOCK_REFRESH (R567, R568) -/

/-- A block whose refresh write failed (R567): a configuration block is remapped, a free pool block retired, and a firmware
block stays due. -/
def refreshFailed (s : State) (b : Nat) : State :=
  if b < 4096 then s
  else match fin? 64 (b - 4096) with
    | some k => s.retireBlock k
    | none => if s.faults.cullet = 0 then s else s.usePool

/-- BLOCK_REFRESH (R567): the oldest due block is rewritten, unless a COMMIT is writing. `verified` tells how the write went. -/
def execBlockRefresh (verified : Bool) (s : State) : Out :=
  .next (
    match s.dueList with
    | [] => s
    | a :: r =>
      if !s.fwRuns || s.store.busy.isSome then s
      else
        let b := r.foldl s.olderBlock a
        (if verified then s.writeBlock b else s.refreshFailed b).recountAges)

/-! ## LIFE_ACCUMULATOR_SAMPLE and HOURLY_SAVE (R564, R374) -/

/-- Time goes on while the module sleeps: a minute of the keeper has passed since the last sample or the end of entry. -/
def keeperMinute (s : State) : State :=
  let t := (s.power.minuteAt + 60 * 32768) % 281474976710656
  { s with
    power := { s.power with minuteAt := t }
    time := { s.time with
      keeper := t
      powered := s.time.powered + ticks60s } }

/-- Take one sample of the accumulator at a temperature in 0.1 °C over a span in seconds. -/
def addLife (s : State) (tenths : Int) (seconds : Nat) : State :=
  let x := s.life.rest + Config.ageing tenths seconds
  ({ s with life := { s.life with acc := (s.life.acc + x / 4294967296) % 2 ^ 64, rest := x % 4294967296 } }).recountAges

/-- LIFE_ACCUMULATOR_SAMPLE (R564): once a second awake, at the control-die temperature plus 3 °C and the sensor's 3 °C; once in
60 s asleep, at the keeper-die temperature plus 5 °C and the sensor's 5 °C. -/
def execLifeAccumulatorSample (s : State) : Out :=
  .next (
    match s.power.phase with
    | .asleep => (s.keeperMinute).addLife (s.life.keeper + 100) 60
    | .awake | .safeHold | .romHold => s.addLife (s.life.control + 60) 1
    | _ => s)

/-- HOURLY_SAVE (R374, R564). -/
def execHourlySave (s : State) : Out :=
  .next (
    if s.awake || s.power.phase == .asleep then
      { s with
        time := { s.time with savedPowered := s.time.powered, savedActive := s.time.active }
        life := { s.life with saved := s.life.acc } }
    else s)

/-! ## COMMIT_WRITE_DONE (R390) -/

/-- A COMMIT's blocks are written and its header is due. -/
def commitHeader (s : State) (t : Nat) (c : Fin 2) (seq : Nat) : State :=
  let len := (sget 0 s.store.staged 2).toNat
  let s1 : State := { s with store := { s.store with
    copies := s.store.copies.set c { valid := true, seq, image := expand len 0 s.store.staged }
    busy := none } }
  let s2 := (List.range 32).foldl (fun (z : State) i => z.writeBlock (4096 + 32 * c.val + i)) s1
  (((s2.recountAges).logEvent sevInfo 0x0E01 objStore seq 0 t).modTicket t fun k => { k with committing := true }).finish t
    stDone [BitVec.ofNat 32 seq]

/-- Highest valid SEQ, 0 where no copy is valid. -/
def highestSeq (s : State) : Nat :=
  let v := fun (c : CopySt) => if c.valid then c.seq else 0
  Nat.max (v s.store.copies[0]) (v s.store.copies[1])

/-- COMMIT_WRITE_DONE (R390): the image is written to the target copy; `failed` names the blocks of it whose verify failed. -/
def execCommitWriteDone (failed : List (Fin 32)) (s : State) : Out :=
  .next (
    match s.store.busy with
    | none => s
    | some (t, c) =>
      if !s.fwRuns then s
      else
        let s1 := failed.foldl (fun (z : State) b => z.retireBlock ⟨32 * c.val + b.val, by omega⟩) s
        if s1.store.exhausted then
          ({ s1 with store := { s1.store with
              busy := none
              copies := vmod s1.store.copies c fun x => { x with valid := false } } }).finish t stExhausted
        else s1.commitHeader t c (s1.highestSeq + 1))

end State

end Sys2Proof.Machine
end

