-- ==== Sys2Proof/Machine/Verbs.lean ====
section
/-! DEFINITION. The actions of the verbs (R375 to R385): what each refuses, and what it does once its sentence is taken up. -/

namespace Sys2Proof.Machine

/-- The status of the first condition of a list that holds. -/
def firstRefusal (l : List (Bool × Nat)) : Option Nat := (l.find? fun p => p.1).map fun p => p.2

/-- A signed value of one or two words, low word first (R371, R382). -/
def signedValue : List Word → Int
  | [a] => a.toInt
  | [a, b] => b.toInt * 4294967296 + a.toNat
  | _ => 0

/-- The axis an object noun names (R370). -/
def axisObject (id : Nat) : Option GenId :=
  match nounClass id with
  | some (.main m 0xFF) => some (.main m)
  | some (.aux a 0xFF) => some (.aux a)
  | _ => none

/-- The group an object noun names (R370). -/
def groupObject (id : Nat) : Option Grp :=
  match nounClass id with
  | some (.group g 0xFF) => some g
  | _ => none

namespace State

/-- A noun names nothing on the member (R6, R369). -/
def unknown (s : State) (id : Nat) : Bool := (nounSpec s.member id).isNone

/-- The region selectors of R353: ACTIVE, INACTIVE, BANK0, BANK1, as a bank. -/
def selected (s : State) (g : Grp) (sel : Nat) : Bool :=
  match sel with
  | 0 => (s.groups[g]).bank1
  | 1 => !(s.groups[g]).bank1
  | 2 => false
  | _ => true

/-! ## READ (R375, R379, R132) -/

/-- A noun with a value that a READ may return. -/
def readable (p : NounSpec) : Bool := p.acc == .rw || p.acc == .ro

/-- The words of k consecutive IDs: one zero word for an ID that names no readable noun (R375). -/
def readIds (s : State) (id k : Nat) : List Word :=
  (List.range k).flatMap fun i => match nounSpec s.member (id + i) with
    | some p => if readable p then p.words (s.readNoun (id + i)) else [0]
    | none => [0]

/-- A block READ beyond its extent gives none, else the words (R379). -/
def blockWords (s : State) (c : NounClass) (arg : Nat) (w : Word) : Option (List Word) :=
  let n := w.toNat
  match c with
  | .region g =>
    let off := bitsOf arg 0 13
    if off + n ≤ s.gNounN g 0x09 then
      some ((List.range n).map fun i => s.region g (s.selected g (bitsOf arg 14 2)) (off + i))
    else none
  | .table t => if arg + n ≤ 256 then some ((List.range n).map fun i => s.tableEntry t.val (arg + i)) else none
  | .store 0 => if arg + n ≤ imageMax then some (sgets s.store.staged arg n) else none
  | .store off =>
    match fin? 2 (off - 1) with
    | some c =>
      let x := s.store.copies[c]
      if x.valid && decide (arg + n ≤ x.image.length) then some ((x.image.drop arg).take n) else none
    | none => none
  | .logs 0 => (s.log.persistent.reverse[arg]?).map fun r => recordWords r.1 r.2
  | .logs _ => (s.log.ram.find? fun r => r.1 == n).map fun r => recordWords r.1 r.2
  | _ => none

/-- What a block READ refuses of its encoding (R379). -/
def blockFormatBad (c : NounClass) (x : Sentence) : Bool :=
  let n := (x.payload.headD 0).toNat
  let badCount := decide (n = 0 ∨ 14 < n)
  x.payload.length != 1 || (match c with
    | .region _ => badCount || bitAt x.arg 13
    | .table _ => badCount || decide (256 ≤ x.arg)
    | .store _ => badCount || bitAt x.arg 15
    | .logs 0 => n != 8
    | _ => x.arg != 0)

/-- READ of a block noun. -/
def readBlock (s : State) (k : Ticket) (c : NounClass) : State :=
  if blockFormatBad c k.sent then s.finish k.num stFormat
  else match s.blockWords c k.sent.arg (k.sent.payload.headD 0) with
    | some ws => s.finish k.num stDone ws
    | none => s.finish k.num stRange

/-- READ of parameter nouns. -/
def readParameters (s : State) (k : Ticket) (p : NounSpec) : State :=
  let x := k.sent
  if 16 ≤ x.arg ∨ x.payload ≠ [] then s.finish k.num stFormat
  else if !readable p then s.finish k.num stAccess
  else
    let ws := s.readIds x.noun (x.arg + 1)
    if 14 < ws.length then s.finish k.num stRange else s.finish k.num stDone ws

/-- READ (R375). -/
def execRead (t : BitVec 16) (s : State) : Out :=
  .next (
    match s.due? t.toNat 0x01 with
    | none => s
    | some k =>
      match nounClass k.sent.noun, nounSpec s.member k.sent.noun with
      | some c, some p => if p.acc == .block then s.readBlock k c else s.readParameters k p
      | _, _ => s.finish k.num stRange)

/-! ## SET (R376, R377) -/

/-- An axis is in OFF or STOPPED-FAULT. -/
def axisIdle (s : State) : GenId → Bool
  | .main m => (s.mains[m]).comm.state == .off || (s.mains[m]).comm.state == .stoppedFault
  | .aux a => (s.auxs[a]).state == .off || (s.auxs[a]).state == .stoppedFault

/-- The level-wind of a group is in FOLLOW. -/
def windFollows (s : State) (g : Grp) : Bool :=
  match s.windAxis g with
  | some a => (s.gen (.aux a)).kind == .follow
  | none => false

/-- The state that a noun's write rule names holds (R376). -/
def writeOk (s : State) (c : NounClass) (rule : WriteRule) : Bool :=
  match rule, c with
  | .groupStopped, .group g _ => s.groupStopped g
  | .axisIdle, .main m _ => s.axisIdle (.main m)
  | .axisIdle, .aux a _ => s.axisIdle (.aux a)
  | .noGroupRuns, _ => (fins 8).all s.groupStopped
  | .linkIdle, .link l _ => (fins 8).all fun g => s.groupStopped g || !s.usesLink g l
  | .noFollow, .group g _ => !s.windFollows g
  | .sessionsOff, .port p _ => s.pNoun p 0x40 == 0
  | .rosterOff, .port p _ => s.pNoun p 0x20 == 0
  | .safetyIdle, _ => s.safetyIdle
  | _, _ => true

/-- The emergency mode of an axis's group is in force (R328). -/
def inEmergency (s : State) (g : Option Grp) : Bool :=
  match g with
  | some k => (s.groups[k]).eactive
  | none => false

/-- Other states in which a SET is refused: a mode request in the emergency mode (R328), and sessions switched on while the host's
frame waits in TXB2 (R406). -/
def setStateBad (s : State) (c : NounClass) (v : Int) : Bool :=
  match c with
  | .main m 0x31 => s.inEmergency (s.groupOfMain m)
  | .port p 0x40 =>
    let st := ((s.canBufs[p]).tx[2]).state
    s.pNoun p 0x40 == 0 && v != 0 && (st == .pending || st == .active)
  | _ => false

/-- Travel of an auxiliary axis towards an active limit switch (R232). -/
def towardsSwitch (s : State) (a : AuxNo) (d : Int) : Bool := (decide (d < 0) && s.limLo a) || (decide (0 < d) && s.limHi a)

/-- The travel that a TRACK target asks of an axis. -/
def trackTravel (s : State) (x : GenId) (target : Int) : Int := if s.xNoun x 0x5D = 1 then target else target - s.wholePos x

/-- Ranges that depend on the state (R31, R51, R129, R232, R366). -/
def setRangeBad (s : State) (c : NounClass) (v : Int) : Bool :=
  match c with
  | .group g 0x03 => decide (s.gNoun g 0x02 ≤ v)
  | .group g 0x08 => decide (8192 < v + s.gNoun g 0x09)
  | .group g 0x09 => decide (8192 < s.gNoun g 0x08 + v)
  | .main m 0x07 => decide (500000 < v * (match s.groupOfMain m with
      | some g => s.gNoun g 0x02
      | none => 1))
  | .aux a 0x5E => (s.gen (.aux a)).kind == .track && s.towardsSwitch a (s.trackTravel (.aux a) v)
  | .port p 0x41 => s.pNoun p 0x42 == 0 && decide (0x7F0 < v)
  | _ => false

/-- Two groups' regions overlap (R129). -/
def regionsOverlap (s : State) (g k : Grp) : Bool :=
  let b := fun (x : Grp) => s.gNounN x 0x08
  let n := fun (x : Grp) => s.gNounN x 0x09
  decide (0 < n g ∧ 0 < n k ∧ b g < b k + n k ∧ b k < b g + n g)

/-- A control mode that the programme in the active bank does not offer an axis (R136). -/
def modeAbsent (s : State) (m : Main) (code : Nat) : Bool :=
  match s.groupOfMain m with
  | none => true
  | some g =>
    let sets := match (s.blocksOf g).find? fun p => p.1 == m with
      | some p => if s.programmeOk g then p.2.sets else 0
      | none => 0
    decide (sets ≤ setOfMode code) || (code == 4 && !s.coupled g)

/-- A cross-noun rule that a new value breaks (R21, R27, R129, R136, R169, R188, R189, R206, R366). -/
def setConflict (s : State) (c : NounClass) (id : Nat) (v : Int) : Bool :=
  let z := s.setNoun id v
  match c with
  | .group g off =>
    if off = 0x00 ∨ off = 0x01 then
      (fins 8).any fun k => k != g && decide (z.gNounN k off &&& z.gNounN g off ≠ 0)
    else if off = 0x02 ∨ off = 0x04 then !rateOrder (z.gNoun g)
    else if off = 0x08 ∨ off = 0x09 then (fins 8).any fun k => k != g && z.regionsOverlap g k
    else if off = 0x2C ∨ off = 0x2D then !windOrder (z.gNoun g)
    else false
  | .main m off =>
    if off = 0x31 then s.modeAbsent m v.toNat
    else (decide (0x54 ≤ off ∧ off ≤ 0x58) && !motionOrder (z.mNoun m)) ||
      (off == 0x58 && v == 1 && (s.channelModulus m).isSome)
  | .aux a off => decide (0x54 ≤ off ∧ off ≤ 0x58) && !motionOrder (z.aNoun a)
  | .link l off => decide (0x10 ≤ off ∧ off ≤ 0x15) && !linkOrder (z.lNoun l)
  | .port p 0x42 => v == 0 && decide (0x7F0 < s.pNoun p 0x41)
  | _ => false

/-- A new value puts more than the member's fast axes in groups with n = 1 (R28). -/
def setOverFast (s : State) (c : NounClass) (id : Nat) (v : Int) : Bool :=
  match c with
  | .group _ off => (off == 0x00 || off == 0x02) && decide (s.member.counts.fast < (s.setNoun id v).fastAxes)
  | _ => false

/-- Why a SET is refused (R376 to R378), in the order of R376. -/
def setRefusal (s : State) (x : Sentence) : Option Nat :=
  match nounClass x.noun, nounSpec s.member x.noun with
  | some c, some p =>
    let v := p.value x.payload
    firstRefusal [(p.acc == .block, stConflict), (x.arg != 0 || x.payload.length != (if p.wide then 2 else 1), stFormat),
      (p.acc == .ro || p.acc == .object, stAccess), (x.has 2 && !p.r35, stConflict),
      (!s.writeOk c p.rule || s.setStateBad c v, stState), (!p.inRange v || s.setRangeBad c v, stRange),
      (s.setConflict c x.noun v, stConflict), (s.setOverFast c x.noun v, stBudget)]
  | _, _ => some stRange

/-- A port's sessions that are switched off lose their partial sentences and unsent replies (R366). -/
def dropSessions (s : State) (p : Port) : State :=
  s.modBufs p fun b => { b with
    partials := Vector.ofFn fun k => if s.sessionOn p k then b.partials[k] else none
    replies := b.replies.filter fun r => s.sessionOn p r.1 }

/-- The roster of a port is switched off: its entries leave (R415). -/
def dropRoster (s : State) (p : Port) : State := s.modRoster fun l => l.filter fun e => e.2.port != p

/-- A ticket whose change waits for a sample: PRESENT from take-up, and FUTURE until its sample with AT-SAMPLE (R358, R361). -/
def latched (s : State) (k : Ticket) : State := (if k.sent.has 2 then s else s.present k.num).running k.num

/-- A mode request (R137, R377). -/
def setMode (s : State) (k : Ticket) (m : Main) (code : Nat) : State :=
  let st := (s.mains[m]).comm.state
  let record := (s.modEng m fun e => { e with recorded := some code }).finish k.num stDone
  match s.groupOfMain m with
  | none => record
  | some g =>
    if !s.runs g || (!k.sent.has 2 && st != .run && st != .handover) then record
    else (s.running k.num).emit (.engine g (k.sent.operand 2) (.mode k.num m code))

/-- A value is stored and the SET completes at once. -/
def storeNow (s : State) (k : Ticket) (v : Int) : State := (s.takeNoun k.sent.noun v).finish k.num stDone

/-- A SET that takes effect under R35: at a sample of its running group, at once where the group is stopped (log entry 38). -/
def setAtSample (s : State) (k : Ticket) (v : Int) : State :=
  match s.nounGroup k.sent.noun with
  | some g =>
    if s.runs g then (s.latched k).emit (.engine g (k.sent.operand 2) (.noun k.num k.sent.noun v)) else s.storeNow k v
  | none => s.storeNow k v

/-- The effect of an accepted SET. -/
def applySet (s : State) (k : Ticket) (c : NounClass) (p : NounSpec) (v : Int) : State :=
  match c with
  | .main m 0x31 => s.setMode k m v.toNat
  | .main m 0x5E => (s.latchTrack (.main m) v).storeNow k v
  | .aux a 0x5E => (s.latchTrack (.aux a) v).storeNow k v
  | .safety off =>
    if off = 0xF0E ∨ off = 0xF04 then ((s.present k.num).running k.num).modTicket k.num fun q => { q with committing := true }
    else s.storeNow k v
  | .group g 0x02 =>
    (if v ≤ s.gNoun g 0x03 then s.setNoun (0x1003 + 256 * g.val) 0 else s).storeNow k v
  | .port q 0x20 => (if v = 0 then s.dropRoster q else s).storeNow k v
  | .port q 0x40 => (((s.setNoun k.sent.noun v).dropSessions q).ownTxb2 q).finish k.num stDone
  | _ => if p.r35 then s.setAtSample k v else s.storeNow k v

/-- SET (R376). -/
def execSet (t : BitVec 16) (s : State) : Out :=
  .next (
    match s.due? t.toNat 0x02 with
    | none => s
    | some k =>
      match s.setRefusal k.sent, nounClass k.sent.noun, nounSpec s.member k.sent.noun with
      | none, some c, some p => s.applySet k c p (p.value k.sent.payload)
      | some st, _, _ => s.finish k.num st
      | none, _, _ => s.finish k.num stRange)

/-! ## WRITE and SWAP (R130, R131, R133, R217, R379) -/

/-- Free places of a group's coefficient queue (R130). -/
def queueRoom (s : State) (g : Grp) : Nat := 256 - (s.groups[g]).queue.length

/-- Words of the active bank that a WRITE may not name while the group runs (R131). -/
def lockedWords (s : State) (g : Grp) : List Nat := headerWords (s.programme g (s.groups[g]).bank1) 0

/-- The queue entries of a WRITE. -/
def writeEntries (t sel off : Nat) (ws : List Word) : List QEntry :=
  ws.zipIdx.map fun p => .word t sel (off + p.2) p.1 (p.2 + 1 == ws.length)

/-- WRITE on a coefficient region. While the queue lacks room the sentence stays FUTURE (R130). -/
def writeRegion (s : State) (k : Ticket) (g : Grp) : State :=
  let x := k.sent
  let n := x.payload.length
  let sel := bitsOf x.arg 14 2
  let off := bitsOf x.arg 0 13
  let live := !s.groupStopped g
  let locked := (s.lockedWords g).any fun w => decide (off ≤ w ∧ w < off + n)
  match firstRefusal [(bitAt x.arg 13 || n == 0 || decide (12 < n), stFormat), (decide (s.gNounN g 0x09 < off + n), stRange),
    (live && (decide (2 ≤ sel) || (sel == 0 && locked)), stState)] with
  | some st => s.finish k.num st
  | none =>
    if s.queueRoom g < n then s
    else ((s.present k.num).running k.num).modGroup g fun q =>
      { q with queue := q.queue ++ writeEntries k.num sel off x.payload }

/-- An enabled auxiliary axis names a microstep table (R217). -/
def tableUsed (s : State) (t : Fin 8) : Bool :=
  (fins 8).any fun a => (s.auxs[a]).enabled && s.aNounN a 0x02 == t.val

/-- WRITE on a microstep table. -/
def writeTable (s : State) (k : Ticket) (t : Fin 8) : State :=
  let x := k.sent
  let n := x.payload.length
  match firstRefusal [(decide (256 ≤ x.arg) || n == 0 || decide (12 < n), stFormat), (decide (256 < x.arg + n), stRange),
    (s.tableUsed t, stState)] with
  | some st => s.finish k.num st
  | none => (x.payload.zipIdx.foldl (fun (z : State) p => z.setTableEntry t.val (x.arg + p.2) p.1) s).finish k.num stDone
      [BitVec.ofNat 32 n]

/-- WRITE on the staging area. -/
def writeStaging (s : State) (k : Ticket) : State :=
  let x := k.sent
  let n := x.payload.length
  match firstRefusal [(bitAt x.arg 15 || n == 0 || decide (12 < n), stFormat), (decide (imageMax < x.arg + n), stRange)] with
  | some st => s.finish k.num st
  | none => ({ s with store := { s.store with staged := sputs s.store.staged x.arg x.payload } }).finish k.num stDone
      [BitVec.ofNat 32 n]

/-- WRITE (R130). -/
def execWrite (t : BitVec 16) (s : State) : Out :=
  .next (
    match s.due? t.toNat 0x03 with
    | none => s
    | some k =>
      if s.unknown k.sent.noun then s.finish k.num stRange
      else match nounClass k.sent.noun with
        | some (.region g) => s.writeRegion k g
        | some (.table i) => s.writeTable k i
        | some (.store 0) => s.writeStaging k
        | _ => s.finish k.num stConflict)

/-- SWAP (R133): queued like a word, and validated once it is at the head. -/
def execSwap (t : BitVec 16) (s : State) : Out :=
  .next (
    match s.due? t.toNat 0x04 with
    | none => s
    | some k =>
      let x := k.sent
      let w := (x.payload.headD 0).toNat
      if s.unknown x.noun then s.finish k.num stRange
      else match nounClass x.noun with
        | some (.region g) =>
          if x.arg ≠ 0 ∨ 1 < x.payload.length ∨ 2 ≤ w then s.finish k.num stFormat
          else if s.queueRoom g = 0 then s
          else (((s.present k.num).running k.num).modGroup g fun q =>
            { q with queue := q.queue ++ [.swap k.num (w == 1)] }).advanceSwap g
        | _ => s.finish k.num stConflict)

/-! ## ENABLE and DISABLE (R380, R381) -/

/-- An axis's STO group is in LATCHED or FAULT, as last read. -/
def stoLatched (s : State) (x : GenId) : Bool :=
  match s.stoOf x with
  | some i => s.requests.seen.state[i] == .latched || s.requests.seen.state[i] == .fault
  | none => false

/-- What an enable clears and sets of its axis (R93, R146, R190, R227, R229, R240). -/
def enableAxis (s : State) (x : GenId) (t : Nat) : State :=
  let s1 := s.modGen x fun o => { o with limPred := false, slCross := false }
  match x with
  | .main m => (s1.clearLatch m).modMain m fun a => { a with enabled := true, startTicket := some t }
  | .aux a => s1.modAux a fun v => { v with
      enabled := true
      startTicket := some t
      latch := false
      reason := 0
      stall := false
      stallStop := false }

/-- The torque request of an axis's STO group is set (R380). -/
def requestTorque (s : State) (x : GenId) : State :=
  match s.stoOf x with
  | some i => s.modReq fun r => { r with torque := r.torque ||| (1#4 <<< i.val) }
  | none => s

/-- ENABLE of an axis of a group. A start whose queue still holds entries is checked once it is empty (R131). The axes of a remote
part can be enabled only while it runs (R439). -/
def enable (s : State) (k : Ticket) (x : GenId) (g : Grp) : State :=
  let fresh := s.groupStopped g
  let why := if fresh && (s.groups[g]).queue.isEmpty then s.startRefusal g else none
  match firstRefusal [(s.stoLatched x || (s.remotePart g && !s.runs g), stState), (s.genEnabled x, stAlreadyDone),
    (fresh && s.engines.mode == .lost, stState)] with
  | some st => s.finish k.num st
  | none =>
    match why with
    | some st => (if st = stCheck then s.modGroup g fun q => { q with chkFail := true } else s).finish k.num st
    | none =>
      let s1 := (((s.enableAxis x k.num).requestTorque x).present k.num).running k.num
      if fresh then (s1.modGroup g fun q => { q with starting := true }).tryStart g else s1

/-- ENABLE (R380). -/
def execEnable (t : BitVec 16) (s : State) : Out :=
  .next (
    match s.due? t.toNat 0x10 with
    | none => s
    | some k =>
      match axisObject k.sent.noun with
      | none => s.finish k.num (if s.unknown k.sent.noun then stRange else stConflict)
      | some x =>
        if s.unknown k.sent.noun then s.finish k.num stRange
        else if k.sent.arg ≠ 0 ∨ k.sent.payload ≠ [] then s.finish k.num stFormat
        else match s.groupOf x with
          | none => s.finish k.num stState
          | some g => s.enable k x g)

/-- What a disable does at take-up (R381). -/
def disableAxis (s : State) (x : GenId) : State :=
  let s1 := match s.groupOf x with
    | some g => if s.inPath g x then s.haltPath g stAborted else s
    | none => s
  let s2 := s1.dropTicket x stAborted
  match x with
  | .main m => s2.disableMain m stAborted
  | .aux a => s2.disableAux a stAborted

/-- The ticket of a DISABLE that waits for OFF. -/
def stopTicketOf (s : State) : GenId → Option Nat
  | .main m => (s.mains[m]).stopTicket
  | .aux a => (s.auxs[a]).stopTicket

def setStopTicket (s : State) (x : GenId) (t : Option Nat) : State :=
  match x with
  | .main m => s.modMain m fun a => { a with stopTicket := t }
  | .aux a => s.modAux a fun v => { v with stopTicket := t }

/-- DISABLE of an axis: it completes at OFF, in STOPPED-FAULT at once. -/
def disable (s : State) (k : Ticket) (x : GenId) : State :=
  if !s.genEnabled x then s.finish k.num stAlreadyDone
  else
    let s1 := s.disableAxis x
    if s1.axisIdle x then s1.finish k.num stDone
    else (((s1.finishOpt (s1.stopTicketOf x) stAborted).setStopTicket x (some k.num)).present k.num).running k.num

/-- DISABLE (R381). -/
def execDisable (t : BitVec 16) (s : State) : Out :=
  .next (
    match s.due? t.toNat 0x11 with
    | none => s
    | some k =>
      match axisObject k.sent.noun with
      | none => s.finish k.num (if s.unknown k.sent.noun then stRange else stConflict)
      | some x =>
        if s.unknown k.sent.noun then s.finish k.num stRange
        else if k.sent.arg ≠ 0 ∨ k.sent.payload ≠ [] then s.finish k.num stFormat
        else s.disable k x)

/-! ## MOVE (R191, R203, R230, R232, R382) -/

/-- Payload words of a kind (R382). -/
def kindWords : Nat → Option Nat
  | 1 => some 2
  | 2 => some 2
  | 3 => some 1
  | 4 => some 1
  | 5 => some 0
  | 6 => some 1
  | _ => none

/-- The encoding of a MOVE disagrees with R382. -/
def moveFormatBad (x : Sentence) : Bool :=
  let kind := bitsOf x.arg 0 4
  kindWords kind != some x.payload.length || decide (64 ≤ x.arg) || bitsOf x.arg 4 2 == 3 ||
    ((kind == 6) != (groupObject x.noun).isSome) || (kind == 6 && decide (1048576 ≤ (x.payload.headD 0).toNat))

/-- A main axis is in COUPLED, as the lead of its group (R191). -/
def coupledLead (s : State) (g : Grp) (m : Main) : Bool := s.coupled g && s.lead g == some m && s.presentMode m == 4

/-- A main axis is in COUPLED and not the lead (R187, R203). -/
def coupledOther (s : State) (g : Grp) : GenId → Bool
  | .main m => s.presentMode m == 4 && s.lead g != some m
  | .aux _ => false

/-- An auxiliary axis homes. -/
def homing (s : State) : GenId → Bool
  | .main _ => false
  | .aux a => (s.auxs[a]).state == .homing

/-- A kind that the control mode of the axis does not take, or that its class has not (R191, R230). -/
def kindConflict (s : State) (g : Grp) (x : GenId) (kind : Nat) : Bool :=
  match x with
  | .aux _ => kind == 3 || kind == 4
  | .main m =>
    let mode := s.presentMode m
    !s.coupledLead g m && (if kind = 3 ∨ kind = 4 then mode != 0 else mode == 0 || mode == 1)

/-- A position lies outside the enabled soft limits of an axis. -/
def outsideSoft (s : State) (x : GenId) (p : Rat) : Bool :=
  match s.softLimits x with
  | some q => decide (p < q.1) || decide (q.2 < p)
  | none => false

/-- The travel that a MOVE asks of an axis, by its sign. -/
def moveTravel (s : State) (x : GenId) (kind : Nat) (target : Int) : Int :=
  match kind with
  | 1 => target - s.wholePos x
  | 2 => target
  | 5 => s.trackTravel x (s.xNoun x 0x5E)
  | _ => 0

/-- A move towards an active limit switch (R232). -/
def moveBlocked (s : State) (x : GenId) (d : Int) : Bool :=
  match x with
  | .main _ => false
  | .aux a => s.towardsSwitch a d

/-- Why a MOVE of one axis is refused (R191, R230, R232, R328, R382). -/
def moveRefusal (s : State) (g : Grp) (x : GenId) (k : Sentence) : Option Nat :=
  let kind := bitsOf k.arg 0 4
  let v := signedValue k.payload
  let kindNow := (s.gen x).kind
  firstRefusal [(bitsOf k.arg 4 2 != 0 && (kind != 1 || (match x with
      | .main m => (s.channelModulus m).isNone
      | .aux _ => true)), stConflict),
    (!s.genEnabled x || (s.groups[g]).eactive || s.homing x || s.coupledOther g x || s.inPath g x || kindNow == .path ||
      kindNow == .follow, stState),
    (s.kindConflict g x kind, stConflict),
    ((kind == 1 && s.outsideSoft x v) || (kind == 2 && decide (s.xNoun x 0x52 < absI v)) ||
      s.moveBlocked x (s.moveTravel x kind v), stRange)]

/-- MOVE of one axis: latched for its generator's step. -/
def moveAxis (s : State) (k : Ticket) (x : GenId) (g : Grp) : State :=
  match s.moveRefusal g x k.sent with
  | some st => s.finish k.num st
  | none => (s.latched k).emit (.motion g (k.sent.operand 2)
      (.move k.num x (bitsOf k.sent.arg 0 4) (signedValue k.sent.payload) (bitsOf k.sent.arg 4 2)))

/-- The path target of an axis (R373). -/
def pathTarget (s : State) (g : Grp) : GenId → Int
  | .main m => s.gNoun g (0x40 + m.val)
  | .aux a => s.gNoun g (0x4C + a.val)

/-- An axis that may not enter a path (R203). -/
def pathUnfit (s : State) (g : Grp) (x : GenId) : Bool :=
  let o := s.gen x
  let atTarget := o.atTarget || o.kind == .idle || (o.kind.isPosition && decide (posR o.pos = targetR o))
  !s.genEnabled x || o.speed != 0 || o.acc != 0 || !atTarget || s.coupledOther g x || o.kind == .follow || o.kind == .path ||
    s.inPath g x || s.homing x

/-- Why a PATH is refused (R203, R328, R439). -/
def pathRefusal (s : State) (g : Grp) (xs : List GenId) : Option Nat :=
  firstRefusal [(s.remotePart g, stConflict), ((s.groups[g]).eactive, stState),
    (decide (xs.length < 2 ∨ 20 < xs.length) || xs.any (fun x => s.groupOf x != some g), stConflict),
    (!s.runs g || xs.any (s.pathUnfit g), stState),
    (xs.any (fun x => s.outsideSoft x (s.pathTarget g x) || s.moveBlocked x (s.pathTarget g x - s.wholePos x)), stRange)]

/-- MOVE of kind PATH. -/
def movePath (s : State) (k : Ticket) (g : Grp) : State :=
  let w := (k.sent.payload.headD 0).toNat
  let ms := BitVec.ofNat 12 (bitsOf w 0 12)
  let as := BitVec.ofNat 8 (bitsOf w 12 8)
  let xs := maskGens ms as
  match s.pathRefusal g xs with
  | some st => s.finish k.num st
  | none => (s.latched k).emit (.motion g (k.sent.operand 2) (.path k.num g ms as (xs.map (s.pathTarget g))))

/-- MOVE (R191). -/
def execMove (t : BitVec 16) (s : State) : Out :=
  .next (
    match s.due? t.toNat 0x20 with
    | none => s
    | some k =>
      if s.unknown k.sent.noun then s.finish k.num stRange
      else match axisObject k.sent.noun, groupObject k.sent.noun with
        | none, none => s.finish k.num stConflict
        | some x, _ =>
          if moveFormatBad k.sent then s.finish k.num stFormat
          else match s.groupOf x with
            | some g => s.moveAxis k x g
            | none => s.finish k.num stState
        | none, some g => if moveFormatBad k.sent then s.finish k.num stFormat else s.movePath k g)

/-! ## HALT, FOLLOW, HOME (R197, R208, R234) -/

/-- HALT of one axis. -/
def haltAxis (s : State) (k : Ticket) (x : GenId) : State :=
  match s.groupOf x with
  | some g =>
    if s.genEnabled x then (s.latched k).emit (.motion g (k.sent.operand 2) (.halt k.num x)) else s.finish k.num stState
  | none => s.finish k.num stState

/-- HALT of a group; one with no enabled axis is at rest. -/
def haltGroup (s : State) (k : Ticket) (g : Grp) : State :=
  if s.anyEnabled g then (s.latched k).emit (.motion g (k.sent.operand 2) (.haltGroup k.num g)) else s.finish k.num stDone

/-- HALT (R197). -/
def execHalt (t : BitVec 16) (s : State) : Out :=
  .next (
    match s.due? t.toNat 0x21 with
    | none => s
    | some k =>
      let bad := k.sent.arg ≠ 0 ∨ k.sent.payload ≠ []
      if s.unknown k.sent.noun then s.finish k.num stRange
      else match axisObject k.sent.noun, groupObject k.sent.noun with
        | none, none => s.finish k.num stConflict
        | some x, _ => if bad then s.finish k.num stFormat else s.haltAxis k x
        | none, some g => if bad then s.finish k.num stFormat else s.haltGroup k g)

/-- Why a FOLLOW of a level-wind axis is refused (R208). -/
def followRefusal (s : State) (g : Grp) (a : AuxNo) : Option Nat :=
  let y := posR (s.gen (.aux a)).pos
  let lo := s.windLo g
  let up := s.windUp g
  firstRefusal [(s.groupOfAux a != some g, stConflict),
    (!s.genEnabled (.aux a) || s.homing (.aux a) || s.inPath g (.aux a) || !s.drumOk g, stState),
    (decide (y < lo ∨ up < y) || s.outsideSoft (.aux a) lo || s.outsideSoft (.aux a) up, stRange)]

/-- FOLLOW on a group. -/
def followGroup (s : State) (k : Ticket) (g : Grp) : State :=
  match firstRefusal [(decide (2 ≤ k.sent.arg) || !k.sent.payload.isEmpty, stFormat), (s.remotePart g, stConflict),
    ((s.groups[g]).eactive, stState)], s.windAxis g with
  | some st, _ => s.finish k.num st
  | none, none => s.finish k.num stConflict
  | none, some a =>
    match s.followRefusal g a with
    | some st => s.finish k.num st
    | none => (s.latched k).emit (.motion g (k.sent.operand 2) (.follow k.num g (k.sent.arg == 1)))

/-- FOLLOW (R208). -/
def execFollow (t : BitVec 16) (s : State) : Out :=
  .next (
    match s.due? t.toNat 0x22 with
    | none => s
    | some k =>
      if s.unknown k.sent.noun then s.finish k.num stRange
      else match groupObject k.sent.noun with
        | some g => s.followGroup k g
        | none => s.finish k.num stConflict)

/-- The seek stop distance exceeds 128 microsteps (R234). -/
def seekTooLong (v acc jerk : Int) : Bool :=
  let V : Rat := v
  let A : Rat := acc
  let J : Rat := jerk
  if A * A / J ≤ V then decide (128 < V / 2 * (V / A + A / J)) else decide (16384 * J < V * V * V)

/-- Why a HOME is refused (R234, R328). -/
def homeRefusal (s : State) (g : Grp) (a : AuxNo) (high : Bool) : Option Nat :=
  let x := s.auxs[a]
  let o := x.gen
  let v := s.aNoun a 0x1D
  firstRefusal [
    ((x.state != .run && x.state != .standstill) || o.speed != 0 || o.acc != 0 || o.kind == .follow || o.kind == .path ||
      s.inPath g (.aux a) || (s.groups[g]).eactive, stState),
    (decide (s.aNoun a 0x52 < v) || seekTooLong v (s.aNoun a 0x21) (s.aNoun a 0x22), stRange),
    (decide (v * 100 < 1024 * s.aNoun a 0x14), stConflict), (if high then s.limHi a else s.limLo a, stRange)]

/-- HOME of an auxiliary axis. -/
def homeAxis (s : State) (k : Ticket) (a : AuxNo) : State :=
  if 2 ≤ k.sent.arg ∨ k.sent.payload ≠ [] then s.finish k.num stFormat
  else match s.groupOfAux a with
    | none => s.finish k.num stState
    | some g =>
      match s.homeRefusal g a (k.sent.arg == 1) with
      | some st => s.finish k.num st
      | none => (s.latched k).emit (.motion g (k.sent.operand 2) (.home k.num a (k.sent.arg == 1)))

/-- HOME (R235). -/
def execHome (t : BitVec 16) (s : State) : Out :=
  .next (
    match s.due? t.toNat 0x23 with
    | none => s
    | some k =>
      if s.unknown k.sent.noun then s.finish k.num stRange
      else match axisObject k.sent.noun with
        | some (.aux a) => s.homeAxis k a
        | _ => s.finish k.num stConflict)

/-! ## ABORT (R364, R365) -/

/-- A ticket whose operation has a commit sample (R37, R378). -/
def hasCommitSample (k : Ticket) : Bool :=
  let v := k.sent.verb
  v == 0x02 || v == 0x03 || v == 0x04 || v == 0x10 || (decide (0x20 ≤ v) && decide (v ≤ 0x23))

/-- An ABORT of an in-flight ticket. -/
def abortInFlight (s : State) (t : Nat) (k : Ticket) : State :=
  if k.stage ≠ .running then (s.finish k.num stAborted (if k.sent.verb = 0x03 then [0] else [])).finish t stDone [0]
  else if k.sent.verb = 0x41 ∧ k.committing = false then
    (({ s with store := { s.store with busy := none } }).finish k.num stAborted).finish t stDone [0]
  else
    match hasCommitSample k && !k.committing, s.nounGroup k.sent.noun with
    | true, some g => ((s.present t).running t).emit (.engine g none (.abort t k.num))
    | _, _ => s.finish t stAlreadyDone [0]

/-- ABORT (R364). -/
def execAbort (t : BitVec 16) (s : State) : Out :=
  .next (
    match s.due? t.toNat 0x30 with
    | none => s
    | some k =>
      let x := k.sent
      let target := (x.payload.headD 0).toNat
      if s.unknown x.noun then s.finish k.num stRange
      else if x.noun ≠ 0xE0FF then s.finish k.num stConflict
      else if x.arg ≠ 0 ∨ x.payload.length ≠ 1 ∨ 65536 ≤ target then s.finish k.num stFormat
      else if target = 0 ∨ target = k.num then s.finish k.num stTicket
      else match s.inFlight? target with
        | some q => s.abortInFlight k.num q
        | none => if (s.ended? target).isSome then s.finish k.num stAlreadyDone [0] else s.finish k.num stTicket)

/-! ## CAPTURE, COMMIT, CLEAR (R384, R390, R391) -/

/-- What CAPTURE and COMMIT refuse of their encoding. -/
def storeRefusal (s : State) (x : Sentence) : Option Nat :=
  firstRefusal [(s.unknown x.noun, stRange), (x.noun != 0xC000, stConflict), (x.arg != 0 || !x.payload.isEmpty, stFormat)]

/-- CAPTURE (R391): its values are taken at the next checkpoint. -/
def execCapture (t : BitVec 16) (s : State) : Out :=
  .next (
    match s.due? t.toNat 0x40 with
    | none => s
    | some k =>
      match s.storeRefusal k.sent with
      | some st => s.finish k.num st
      | none =>
        if s.store.capture.isSome then s
        else (({ s with store := { s.store with capture := some k.num } }).present k.num).running k.num)

/-- A COMMIT that R327 or R336 forbids. -/
def storeSpent (s : State) : Bool := s.store.exhausted || decide (max32 ≤ s.highestSeq)

/-- The copy that is not ACTIVE (R390). -/
def otherCopy (s : State) : Fin 2 := if s.activeCopy = 0 then 1 else 0

/-- A COMMIT validates the staged image and erases the header of its target (R390). -/
def beginCommit (s : State) (t : Nat) : State :=
  match s.imageFault (readImage (expand imageMax 0 s.store.staged)) with
  | some f => ({ s with store := { s.store with lastErr := f.2 } }).finish t stCheck
      [BitVec.ofNat 32 f.2, BitVec.ofNat 32 f.1]
  | none =>
    let c := s.otherCopy
    (({ s with store := { s.store with
        lastErr := 0
        copies := vmod s.store.copies c fun x => { x with valid := false }
        busy := some (t, c) } }).present t).running t

/-- COMMIT (R390). -/
def execCommit (t : BitVec 16) (s : State) : Out :=
  .next (
    match s.due? t.toNat 0x41 with
    | none => s
    | some k =>
      match s.storeRefusal k.sent with
      | some st => s.finish k.num st
      | none =>
        if s.store.busy.isSome then s
        else if s.storeSpent then s.finish k.num stExhausted
        else s.beginCommit k.num)

/-- CLEAR (R384): the ledger is cleared at the next checkpoint. -/
def execClear (t : BitVec 16) (s : State) : Out :=
  .next (
    match s.due? t.toNat 0x42 with
    | none => s
    | some k =>
      let x := k.sent
      match firstRefusal [(s.unknown x.noun, stRange), (x.noun != 0x4F11, stConflict),
        (x.arg != 0 || !x.payload.isEmpty, stFormat), (!x.has 5, stAccess)] with
      | some st => s.finish k.num st
      | none =>
        if s.ledger.clearDue.isSome then s
        else (({ s with ledger := { s.ledger with clearDue := some k.num } }).present k.num).running k.num)

/-! ## SLEEP and RESTART (R383, R385, R456) -/

/-- SLEEP (R383). -/
def execSleep (t : BitVec 16) (s : State) : Out :=
  .next (
    match s.due? t.toNat 0x50 with
    | none => s
    | some k =>
      let x := k.sent
      let timer := (x.payload.headD 0).toNat
      match firstRefusal [(s.unknown x.noun, stRange), (x.noun != 0xE0FF, stConflict),
        (x.arg != 0 || x.payload.length != 1, stFormat), (!(fins 8).all s.groupStopped, stState),
        (timer == 0 && s.noun 0xA008 == 0, stConflict)] with
      | some st => s.finish k.num st
      | none => s.answerDue k.num (.sleep timer))

/-- A RESTART with FORCE first disables every enabled axis (R385). -/
def forceRestart (s : State) (t : Nat) : State :=
  let xs := (fins 12).map GenId.main ++ (fins 8).map GenId.aux
  let s1 := xs.foldl (fun (z : State) x => if z.genEnabled x then z.disableAxis x else z) s
  ((s1.modPower fun p => { p with dueTicket := some t }).present t).running t

/-- RESTART (R385). -/
def execRestart (t : BitVec 16) (s : State) : Out :=
  .next (
    match s.due? t.toNat 0x51 with
    | none => s
    | some k =>
      let x := k.sent
      let live := !(fins 8).all s.groupStopped
      match firstRefusal [(s.unknown x.noun, stRange), (x.noun != 0xE0FF, stConflict),
        (decide (2 ≤ x.arg) || !x.payload.isEmpty, stFormat), (live && !x.has 5, stState)] with
      | some st => s.finish k.num st
      | none =>
        if !live then s.answerDue k.num (restartKind k)
        else if s.power.dueTicket.isSome then s
        else s.forceRestart k.num)

end State

end Sys2Proof.Machine
end

