-- ==== Sys2Proof/Machine/Starts.lean ====
section
/-! DEFINITION. What a start keeps (R471), the choice of the start and of the configuration copy (R465, R466, R472 to R475), the
cold start (R476, R480), the warm start (R477 to R479) and safe hold (R481, R482). -/

namespace Sys2Proof.Machine

/-- Codes of the failed steps (R482). -/
def fsCore : Nat := 0x01
def fsFirmware : Nat := 0x02
def fsRam : Nat := 0x03
def fsEngine : Nat := 0x04
def fsSense : Nat := 0x05
def fsConfig : Nat := 0x06
def fsSafety : Nat := 0x07
def fsClock : Nat := 0x08
def fsCheckpoint : Nat := 0x09
def fsRegion : Nat := 0x0A
def fsTimeout : Nat := 0x0B

/-- Codes of CAUSE (R464). -/
def causeReset : Nat := 0x0A
def causeBrownout : Nat := 0x0B
def causeClockFail : Nat := 0x0C
def causeRestart : Nat := 0x0D

/-- OBJECT of the records of the starts: the start status noun (log entry 52). -/
def objStart : Nat := 0xB000

/-- The unit of an encoder that the keeper can count. -/
def keepUnit (e : Fin 4) : FbNo := ⟨e.val, Nat.lt_of_lt_of_le e.isLt (by decide)⟩

/-- The largest frame-tick number: the next tick is number 0 (R489). -/
def lastTick : Nat := 1099511627775

namespace State

/-! ## What outlives the control and sense dies (R457, R466 to R471, R483) -/

/-- A feedback unit without its die: the keeper goes on with KEEP and the counting sense of its encoders (R273), and the last raw
position of a resolver or serial port is kept for R275. -/
def fbOff (s : State) (n : FbNo) : FbUnit :=
  let u := s.fb[n]
  { ({} : State).fb[n] with
    keep := u.keep
    dirInv := u.dirInv && decide (n.val < 8)
    lastRaw := if n.val < 8 then none else u.lastRaw }

/-- The control and sense dies lose power or are held in reset: every output of theirs is low, and what they hold is gone. Kept are
what the keeper die, retention RAM and the stores hold; of the axes, what R74 and R218 keep. -/
def dieOff (s : State) : State :=
  { ({} : State) with
    member := s.member
    time := s.time
    mains := s.mains.map fun a => { ({} : MainAxis) with comm := { ({} : CommSt) with parked := a.comm.parked } }
    auxs := s.auxs.map fun a => { ({} : AuxAxis) with
      atph := a.atph
      homed := a.homed
      gen := { ({} : GenSt) with pos := a.gen.pos } }
    engines := { ({} : EngineSt) with mode := s.engines.mode }
    fb := Vector.ofFn s.fbOff
    safety := s.safety
    requests := { ({} : RequestSt) with words := s.requests.words, seen := s.requests.words }
    faults := { s.faults with mismatchAt := none, newerOk := false, olderOk := false, weakBlocks := [] }
    log := { ({} : LogSt) with
      head := s.log.head
      persistent := s.log.persistent
      overwritten := s.log.overwritten
      transientHour := s.log.transientHour }
    store := { s.store with staged := [], lastErr := 0, busy := none, capture := none }
    ledger := { s.ledger with clearDue := none }
    life := s.life
    cascade := { ({} : CascadeSt) with
      enabled := s.cascade.enabled
      ident := s.cascade.ident
      crcA := s.cascade.crcA
      crcB := s.cascade.crcB
      misses := s.cascade.misses
      takeovers := s.cascade.takeovers }
    power := { s.power with due := none, dueTicket := none }
    retention := s.retention
    start := { s.start with safeHold := false, ready := false, mclk := false }
    free := s.free
    pending := s.pending }

/-- Keeper time goes on by some counts, and powered time with it. -/
def passCounts (s : State) (counts : Nat) : State :=
  { s with time := { s.time with
      keeper := (s.time.keeper + counts) % 281474976710656
      powered := s.time.powered + counts * 80000 / 32768 } }

/-- The time a start takes (R465). -/
def passMicros (s : State) (us : Nat) : State := s.passCounts (us * 32768 / 1000000)

/-- Time for which nothing told the model how long it was: an unknown count (log entry 2). -/
def passUnknown (s : State) : State := s.drawn.passCounts (Config.freeValue s.free).toNat

/-! ## Which start (R465, R466) -/

/-- A start is due, with its cause (R464, R465). -/
def toStart (s : State) (cause : Nat) (warm : Bool) : State :=
  s.modPower fun p => { p with
    phase := if warm then .warmStart else .coldStart
    cause := cause
    timerBit := false
    sources := 0
    brownout := false
    due := none
    dueTicket := none }

/-- What R466 asks of a warm start, apart from its cause and the checks of R470. -/
def warmAllowed (s : State) : Bool :=
  s.retention.valid && s.retention.clean && decide (s.start.wfail < 3) &&
    (match s.retention.nouns.lookup 0xB008 with
      | some v => v == 1
      | none => true)

/-- CAUSE of a wake: of the sources that qualified the one R458 lists first. -/
def wakeCause (timer : Bool) (w : BitVec 18) : Nat :=
  if timer then 1
  else if w.getLsbD 0 then 2
  else if w.getLsbD 1 then 3
  else if w.getLsbD 2 then 4
  else if w.getLsbD 3 then 5
  else if w.getLsbD 4 then 6
  else if bitsOf w.toNat 5 8 ≠ 0 then 7
  else if bitsOf w.toNat 13 4 ≠ 0 then 8
  else 9

/-- The wake record follows the sources latched (R459). -/
def recordWake (s : State) : State :=
  s.modPower fun p => { p with
    cause := wakeCause p.latchedTimer p.latched
    timerBit := p.latchedTimer
    sources := p.latched }

/-- Keeper time at a wake: exact for the timer, else within a minute of the last sample; unknown after a wake held back by a
brownout (R448; log entry 60). -/
def wakeTime (s : State) (late : Bool) : State :=
  let p := s.power
  let room := if late then (Config.freeValue s.free).toNat else p.minuteAt + 60 * 32768 - s.time.keeper
  let s1 := if p.latchedTimer && !late then
      { s with time := { s.time with keeper := (p.sleptAt + p.wakeTimer * 32768) % 281474976710656 } }
    else
      { s.drawn with time := { s.time with
          keeper := (s.time.keeper + (Config.freeValue s.free).toNat % (room + 1)) % 281474976710656 } }
  { s1 with
    time := { s1.time with powered := s1.time.powered + (s1.time.keeper - p.minuteAt) * 80000 / 32768 }
    power := { p with lastSleep := s1.time.keeper - p.sleptAt } }

/-- A wake begins (R459, R460). -/
def wake (s : State) (late : Bool) : State :=
  let s1 := s.wakeTime late
  (s1.toStart 0 s1.warmAllowed).recordWake

/-! ## Loading -/

/-- The RW registers that an image holds and a test admits. -/
def loadSomeRegs (s : State) (i : Image) (p : Nat → Bool) : State :=
  i.recs.foldl (fun (z : State) x =>
    if x.kind = 4 then x.data.zipIdx.foldl (fun (y : State) q =>
      if p (x.key + 4 * q.2) then y.loadReg (x.key + 4 * q.2) q.1 else y) z
    else z) s

/-- Each port enters the MODE loaded (R421). -/
def enterModes (s : State) (i : Image) : State :=
  eachFin 4 (fun (z : State) p => if z.hasPort p then z.writeMode p (imageMode i p) else z) s

/-- Halves of register pairs held while registers are loaded are dropped. -/
def dropHalves (s : State) : State := s.modMail fun m => { m with heldL := [], capturedH := [] }

/-- The copies that are valid, highest SEQ first, copy 0 first on a tie (R472). -/
def copyOrder (s : State) : List (Fin 2) :=
  let a := s.store.copies[0]
  let b := s.store.copies[1]
  (if a.seq < b.seq then [1, 0] else [0, 1]).filter fun (i : Fin 2) => (s.store.copies[i]).valid

/-- The image a copy holds. -/
def copyImage (s : State) (i : Fin 2) : Image := readImage (s.store.copies[i]).image

/-- The first copy of a list whose image passes R393; those before it are invalid from now on (R472). -/
def chooseCopy (s : State) : List (Fin 2) → State × Option (Fin 2)
  | [] => (s, none)
  | i :: r =>
    if s.imageFault (s.copyImage i) = none then (s, some i)
    else chooseCopy { s with store := { s.store with
      copies := vmod s.store.copies i fun x => { x with valid := false } } } r

/-- The reference the start takes (R453). -/
def setReference (s : State) (crystal : Bool) : State :=
  let set := s.noun 0xA00A
  let fit := crystal && set != 1
  s.modPower fun p => { p with
    reference := if fit then 1 else 0
    xtalFit := fit
    xtalLost := p.xtalLost || (set == 2 && !crystal) }

/-- The time base of the awake module: the first frame tick is number 0 (R489), BUSn_TSC and the epoch follow keeper time (R412). -/
def setTimeBase (s : State) : State :=
  let us := s.time.keeper * 1000000 / 32768
  { s with
    time := { s.time with tick := lastTick, now := 0, keeperFrac := 0 }
    roster := { ({} : RosterSt) with epoch := BitVec.ofNat 32 (us / 4294967296), tsc2 := 2 * ((us % 4294967296 : Nat) : Int) } }

/-- What every start ends with: the module is awake, the processor has its first checkpoint, the ledger's totals are back. -/
def finishStart (s : State) (phase : PowerPhase) (us : Nat) : State :=
  let s1 : State := { s with
    power := { s.power with phase, vinOk := true, latched := 0, latchedTimer := false }
    faults := { s.faults with newerOk := true, olderOk := true }
    start := { s.start with micros := us, mclk := true } }
  ((s1.setTimeBase.recallTotals).computeFigures).modMail fun m => { m with fwReady := true }

/-- Torque-ready (R469, R476, R477, R479). -/
def torqueReady (s : State) (us : Nat) (warm : Bool) : State :=
  let s1 := s.finishStart .awake us
  let s2 : State := { s1 with
    start := { s1.start with ready := true, wfail := 0 }
    retention := { s1.retention with valid := false } }
  s2.logEvent sevInfo (if warm then 0x0D02 else 0x0D01) objStart s2.power.cause

/-! ## Cold start (R476, R480) -/

/-- The safety channel at step 1: every group LATCHED with cause NONE, outputs de-energised (R283, R292). The running set stays
until the image is loaded. -/
def safetyStep1 (s : State) : State :=
  let q := s.safety
  { s with safety := { ({} : SafetySt) with
      ctf := q.ctf, sreset := q.sreset, estop := q.estop, running := q.running } }

/-- Every block in use is due after a loss of VIN (R567). -/
def allDue (s : State) : State :=
  let l := (List.range 4224).filter s.liveBlock
  ({ s with store := { s.store with stale := l } }).recountAges

/-- Step 1 of a cold start: what a cold start does not keep is gone (R471), and the start is counted (R486). -/
def coldClear (s : State) : State :=
  let z := s.dieOff.safetyStep1
  let z1 : State := { z with
    mains := Vector.replicate 12 {}
    auxs := Vector.replicate 8 {}
    engines := {}
    fb := ({} : State).fb
    faults := { ({} : FaultSt) with cullet := z.faults.cullet, remapped := z.faults.remapped }
    log := { ({} : LogSt) with persistent := z.log.persistent, transientHour := z.log.transientHour }
    cascade := {}
    retention := {}
    power := { z.power with vinOk := true, vLowSeen := false, xtalLost := false, sleeps := 0 }
    start := { z.start with
      colds := inc32 z.start.colds
      wfail := 0
      seqChg := false
      bistSkip := false
      fback := false
      warm := false
      afterLoss := false } }
  if s.start.afterLoss then z1.allDue else z1

/-- The failed step that the self-tests find, the first in the order of R476. -/
def coldTest (f : ColdFindings) : Option Nat :=
  let bad := (f.cores.toList.filter fun c => !c).length
  firstRefusal [(!f.pllOk, fsClock), (decide (2 ≤ bad), fsCore), (!(f.images[0] || f.images[1]), fsFirmware),
    (!f.ramOk, fsRam), (!f.engineA && !f.engineB, fsEngine), (!f.senseOk, fsSense), (!f.safetyTest, fsSafety)]

/-- Exposure as the tests of a cold start settle it (R313, R326, R476): the working pair, the firmware images, the engines. -/
def coldExposure (s : State) (f : ColdFindings) : State :=
  let cpu : CpuMode := if f.cores[0] && f.cores[1] then .original else if f.cores[0] then .puntyWith0 else .puntyWith1
  let both := f.images[0] && f.images[1]
  let s1 : State := { s with faults := { s.faults with
    cpu := cpu
    puntyPower := cpu != .original
    puntyGood := f.cores[2]
    xFwImage := !both && !f.rewriteOk
    images := if f.rewriteOk then Vector.replicate 2 true else f.images } }
  let s2 := if cpu = .original then s1
    else s1.logEvent sevExposure 0x0A11 objFault (if cpu = .puntyWith0 then 1 else 0)
  let s3 := if both || !f.rewriteOk then s2 else s2.logEvent sevMasked 0x0A22 objFault (if f.images[0] then 1 else 0)
  if !f.engineA then s3.retire .a else if !f.engineB then s3.retire .b else s3

/-- The straps of the cascade as read in step 10 (R428, R515). -/
def readStraps (s : State) (f : ColdFindings) : State :=
  s.modCascade fun c =>
    match f.cxen, f.cxid with
    | some true, some k => if s.member.counts.cascade then { c with enabled := true, ident := k } else c
    | _, _ => c

/-- The image is loaded: nouns, regions, tables, registers (R128, R217, R244, R393, R421). -/
def loadImage (s : State) (i : Image) : State := ((((s.loadNouns i).loadRegions i).loadTables i).loadRegs i).dropHalves

/-- The safety set of the image goes to the keeper, which checks its CRC (R306): whether it passes. -/
def loadSafety (s : State) : State × Bool :=
  if (s.noun 0x6F0E).toNat = paramCrc s.noun then ((s.safetyCold).modSafety fun q => { q with paramOk := true }, true)
  else (s.channelFault fSelftest 0, false)

/-- A cold start fails (R480 to R482): safe hold, served from boot ROM where no firmware image is valid. Where no image was loaded
every port runs in NORMAL at its Reset timing, with session 0 enabled at the default base identifier. -/
def safeHold (s : State) (step us : Nat) (loaded : Option Image) : State :=
  let rom := step == fsFirmware
  let s1 := match loaded with
    | some i => s.enterModes i
    | none =>
      if rom then s
      else eachFin 4 (fun (z : State) p =>
        if z.hasPort p then (z.setNoun (0x8040 + 256 * p.val) 1).writeMode p 1 else z) s
  let s2 := s1.finishStart (if rom then .romHold else .safeHold) us
  ({ s2 with start := { s2.start with safeHold := true, fstep := step } }).logEvent sevDetected 0x0D04 objStart step

/-- The last steps of a cold start, once its image is loaded (R476). -/
def coldEnd (s : State) (f : ColdFindings) (i : Image) : State :=
  let r := s.loadSafety
  if !r.2 then r.1.safeHold fsSafety f.micros (some i)
  else if !f.inTime then r.1.safeHold fsTimeout f.micros (some i)
  else
    let s1 := (r.1.enterModes i).torqueReady f.micros false
    if s1.start.stuck then
      ({ s1 with start := { s1.start with stuck := false } }).logEvent sevDetected 0x0D05 objStart 8000
    else s1

/-- The cold start with a copy chosen; `back` tells that it is not the one of the highest SEQ (R472). -/
def coldLoad (s : State) (f : ColdFindings) (c : Fin 2) (back : Bool) : State :=
  let i := s.copyImage c
  let s1 : State := { s with
    start := { s.start with fback := back }
    store := { s.store with loadedSeq := (s.store.copies[c]).seq } }
  (((s1.loadImage i).setReference f.crystal).readStraps f).coldEnd f i

/-- COLD_START (R476): from its start instant to torque-ready or safe hold. -/
def execColdStart (f : ColdFindings) (s : State) : Out :=
  .next (
    if s.power.phase ≠ .coldStart then s
    else
      let s1 := (s.passMicros f.micros).coldClear
      match coldTest f with
      | some step =>
        let s2 := if step = fsSafety then s1.channelFault fSelftest 0
          else if step = fsEngine then { s1 with engines := { s1.engines with mode := .lost } }
          else s1
        (s2.setReference f.crystal).safeHold step f.micros none
      | none =>
        let s2 := s1.coldExposure f
        let r := s2.chooseCopy s2.copyOrder
        match r.2 with
        | none => (r.1.setReference f.crystal).safeHold fsConfig f.micros none
        | some c => r.1.coldLoad f c (s2.copyOrder.head? != some c))

/-! ## Warm start (R477 to R479) -/

/-- The signature block is valid (R470). -/
def blockValid (s : State) (f : WarmFindings) : Bool :=
  s.retention.valid && s.retention.clean && f.blockCrcOk && f.imageHeader && decide (s.retention.time < s.time.keeper)

/-- SEQ of the ACTIVE copy, none where no copy is valid. -/
def activeSeq (s : State) : Option Nat :=
  let c := s.store.copies[s.activeCopy]
  if c.valid then some c.seq else none

/-- The failed step of a warm start: the first in the order of R477. -/
def warmTest (s : State) (f : WarmFindings) : Option Nat :=
  let changed := s.activeSeq != some s.retention.seq
  let badImage := s.activeSeq.isNone || decide (s.imageFault s.activeImage ≠ none)
  firstRefusal [(!f.pllOk, fsClock), (!f.cores, fsCore), (!f.restoreOk, fsCheckpoint), (changed && badImage, fsConfig),
    (!f.regionsOk, fsRegion), (!f.inTime, fsTimeout)]

/-- The running set of retention RAM (R467): the nouns, with the modes recorded. -/
def restoreNouns (s : State) : State :=
  s.retention.nouns.foldl (fun (z : State) p =>
    match nounClass p.1 with
    | some (.main m 0x31) => z.modEng m fun e => { e with recorded := some p.2.toNat }
    | _ => z.setNoun p.1 p.2) s

/-- The feedback registers of the running set; the port registers come from the image (R421). -/
def restoreRegs (s : State) : State :=
  s.retention.regs.foldl (fun (z : State) p => if p.1 < 0x2000 then z else z.loadReg p.1 p.2) s

/-- A unit takes back the count, filtered lines and REF it had at entry (R275). -/
def restoreCount (s : State) (n : FbNo) : State :=
  match s.retention.counts[n.val]? with
  | some (c, a, b, r) => s.modFb n fun u => { u with count := c, a := a, b := b, ref := r && decide (n.val < 4) && u.keep }
  | none => s

/-- A resolver resumes with the turn count nearest its stored count (R275). -/
def resumeResolver (s : State) (v : Fin 4) (angle : BitVec 16) : State :=
  s.modFb (resUnit v) fun u =>
    match u.lastRaw with
    | some r =>
      let sgn : Int := if u.dirInv then -1 else 1
      moveCount { u with lastRaw := some angle.toNat } (sgn * wrap16 ((angle.toNat : Int) - r))
    | none => u

/-- The feedback units after a sleep (R274, R275). -/
def resumeUnits (s : State) (f : WarmFindings) : State :=
  let s1 := eachFin 16 restoreCount s
  let s2 := eachFin 4 (fun (z : State) e => z.resumeUnit e (f.encoderAB[e]).1 (f.encoderAB[e]).2) s1
  eachFin 4 (fun (z : State) v => z.resumeResolver v f.resolvers[v]) s2

/-- The check set on both engines (R315, R477). -/
def warmEngines (s : State) (f : WarmFindings) : State :=
  let a := s.serves .a
  let b := s.serves .b
  if !((a && f.engineA) || (b && f.engineB)) then { s with engines := { s.engines with mode := .lost } }
  else if a && b && !f.engineA then s.retire .a
  else if a && b && !f.engineB then s.retire .b
  else s

/-- Steps 3 to 7 of a warm start. -/
def warmLoad (s : State) (f : WarmFindings) : State :=
  let i := s.activeImage
  let changed := s.activeSeq != some s.retention.seq
  let s1 : State := { s with
    tables := s.retention.tables
    store := { s.store with loadedSeq := s.activeSeq.getD 0 }
    start := { s.start with seqChg := changed, bistSkip := true, fback := false, warm := true } }
  let fresh : State := { s1 with fb := s1.fb.map fun u => { u with keep := false, dirInv := false } }
  let s2 := if changed then (fresh.loadNouns i).loadSomeRegs i fun _ => true
    else (s1.restoreNouns.restoreRegs).loadSomeRegs i fun a => decide (a < 0x2000)
  let s3 := ((s2.dropHalves.loadRegions i).warmEngines f).resumeUnits f
  ((s3.setReference f.crystal).enterModes i).torqueReady f.micros true

/-- WARM_START (R477). A block that R470 finds invalid makes the start a cold one, which is no failure (R466); a failed start is
retried, and the third failure in succession makes it cold (R479). -/
def execWarmStart (f : WarmFindings) (s : State) : Out :=
  .next (
    if s.power.phase ≠ .warmStart then s
    else
      let s1 := s.passMicros f.micros
      if !s1.blockValid f then s1.modPower fun p => { p with phase := .coldStart }
      else
        let s2 : State := { s1 with start := { s1.start with warms := inc32 s1.start.warms } }
        match s2.warmTest f with
        | none => s2.warmLoad f
        | some step =>
          let n := s2.start.wfail + 1
          let s3 := ({ s2 with start := { s2.start with fstep := step, wfail := if n < 3 then n else 0 } }).logEvent
            sevWarn 0x0D03 objStart step
          if n < 3 then s3 else s3.modPower fun p => { p with phase := .coldStart })

end State

end Sys2Proof.Machine
end

