-- ==== Sys2Proof/Machine/Power.lean ====
section
/-! DEFINITION. The supply, the clock reference, sleep entry and wake (R446 to R464), the RESTART action (R473) and RST_N (R483 to
R485). -/

namespace Sys2Proof.Machine

namespace State

/-! ## Supply (R447, R448, R178, R486, R567) -/

/-- The control die runs or is starting. -/
def powered (s : State) : Bool :=
  match s.power.phase with
  | .awake | .safeHold | .romHold | .coldStart | .warmStart => true
  | .noVin | .asleep | .inReset | .brownedOut => false

/-- All outputs go low and the dies lose power or are held in reset (R448, R483). -/
def outputsOff (s : State) (phase : PowerPhase) : State := (s.safetyOff.dieOff).modPower fun p => { p with phase }

/-- BROWNOUT (R447, R448): VIN below the VINOK falling level. In sleep it only defers a wake; with RST_N low it takes precedence
(R485). -/
def execBrownout (s : State) : Out :=
  let low := fun (z : State) => z.modPower fun p => { p with vinOk := false }
  .next (
    match s.power.phase with
    | .noVin => s
    | .asleep => low s
    | .brownedOut => low s
    | .inReset => (low s).modPower fun p => { p with phase := .brownedOut, brownout := true }
    | .awake | .safeHold | .romHold | .coldStart | .warmStart =>
      (low (s.outputsOff .brownedOut)).modPower fun p => { p with brownout := true })

/-- What waits for the supply and for RST_N starts cold (R465, R485). -/
def releaseReset (s : State) : State :=
  if s.power.vinOk then s.toStart (if s.power.brownout then causeBrownout else causeReset) false else s

/-- VINOK_HELD (R447, R448): VIN has stayed above the VINOK rising level for 10 ms. -/
def execVinokHeld (s : State) : Out :=
  let s1 := s.modPower fun p => { p with vinOk := true }
  .next (
    match s.power.phase with
    | .noVin => if s.power.rstLow then s1.modPower fun p => { p with phase := .inReset } else s1.toStart 0 false
    | .brownedOut =>
      let s2 := s1.passUnknown
      if s.power.rstLow then s2.modPower fun p => { p with phase := .inReset } else s2.releaseReset
    | .asleep => if s.power.vinOk = false ∧ (s.power.latched ≠ 0 ∨ s.power.latchedTimer = true) then s1.wake true else s1
    | .awake | .safeHold | .romHold | .coldStart | .warmStart | .inReset => s1)

/-- KEEPER_FLOOR_LOSS (R447, R178, R374, R486, R564, R567): the keeper resets. What the stores hold stays, with the hours and the
life accumulator as saved last; the ledger clears. Keeper time starts again from 0 (DESIGN CHOICE, log entry 61). -/
def execKeeperFloorLoss (s : State) : Out :=
  let z := s.dieOff
  let z1 : State := { z with
    time := { ({} : TimeSt) with
      powered := z.time.savedPowered
      active := z.time.savedActive
      savedPowered := z.time.savedPowered
      savedActive := z.time.savedActive }
    mains := Vector.replicate 12 {}
    auxs := Vector.replicate 8 {}
    fb := ({} : State).fb
    safety := {}
    requests := {}
    retention := {}
    life := { z.life with acc := z.life.saved, rest := 0 }
    power := { ({} : PowerSt) with phase := .noVin }
    start := { ({} : StartSt) with afterLoss := true } }
  .next z1.wipeLedger

/-- VLOW (R447): VIN crosses the warning level. -/
def execVlow (below : Bool) (s : State) : Out :=
  .next (if s.power.phase = .noVin then s else s.modPower fun p => { p with vLow := below, vLowSeen := p.vLowSeen || below })

/-! ## The reference (R453 to R455) -/

/-- CRYSTAL_QUALIFIED (R453): during a start; the start's findings settle the reference. -/
def execCrystalQualified (s : State) : Out :=
  .next (
    if (s.power.phase = .coldStart ∨ s.power.phase = .warmStart) ∧ s.retention.nouns.lookup 0xA00A ≠ some 1 then
      s.modPower fun p => { p with reference := 1, xtalFit := true }
    else s)

/-- The clocks run on a reference. -/
def clocked (s : State) : Bool := s.power.phase == .awake || s.power.phase == .safeHold || s.power.phase == .romHold

/-- CRYSTAL_LOST (R454): no edge for 1 µs while the crystal is the reference. -/
def execCrystalLost (s : State) : Out :=
  .next (if s.clocked && s.power.reference == 1 then s.modPower fun p => { p with xtalLost := true, reference := 2 } else s)

/-- HOLDOVER_EXPIRY (R454): 1 s of holdover. -/
def execHoldoverExpiry (s : State) : Out :=
  .next (if s.clocked && s.power.reference == 2 then s.modPower fun p => { p with reference := 3 } else s)

/-- SLEW_TO_INTERNAL_DONE (R454). -/
def execSlewToInternalDone (s : State) : Out :=
  .next (if s.clocked && s.power.reference == 3 then s.modPower fun p => { p with reference := 0 } else s)

/-- PLL_LOCK_LOSS (R455): outputs low, the monitoring link silent, a cold start with cause CLOCK-FAIL. The safety channel removes
torque when it finds monitoring lost (R290). -/
def execPllLockLoss (s : State) : Out :=
  .next (if s.clocked then (s.dieOff).toStart causeClockFail false else s)

/-! ## Sleep (R456 to R460) and the RESTART action (R473) -/

/-- The counts, filtered lines and REF that the feedback units store (R274). -/
def storedCounts (s : State) : List (Int × Bool × Bool × Bool) := s.fb.toList.map fun u => (u.count, u.a, u.b, u.ref)

/-- The configuration nouns as they run, those at their defaults left out, with the modes recorded (R372, R467). -/
def runningNouns (s : State) : List (Nat × Int) :=
  (s.revertStaged.nouns.filter fun p => isConfig s.member p.1) ++
    (fins 12).map fun m => (0x2031 + 256 * m.val, (s.presentMode m : Int))

/-- Step 2 of entry (R274): the units store their counts, the keeper takes over those of E0–E3 that have KEEP set, its deltas start
from zero, and its first filtered lines are compared with the stored ones. -/
def handOverUnits (s : State) (ab : Vector (Bool × Bool) 4) : State :=
  let s1 : State := { s with retention := { s.retention with
    counts := s.storedCounts
    delta := Vector.replicate 4 0
    keepAB := Vector.ofFn fun e => if (s.fb[keepUnit e]).keep then some ab[e] else none
    keepHeld := Vector.replicate 4 (0, 0)
    lost := Vector.replicate 4 false } }
  eachFin 4 (fun (z : State) e =>
    let u := z.fb[keepUnit e]
    if u.keep then z.keepStep e (u.a, u.b) ab[e] else z) s1

/-- Step 3 of entry (R456, R468): the ledger transfer, the final checkpoint, the running set and the signature. -/
def writeSignature (s : State) : State :=
  let s1 := (s.transferLedger).releaseJournal
  { s1 with retention := { s1.retention with
      valid := true
      clean := true
      seq := s1.store.loadedSeq
      logSeq := s1.log.head
      time := s1.time.keeper
      nouns := s1.runningNouns
      regs := s1.rwList.map fun a => (a, s1.rwValue a)
      tables := s1.tables } }

/-- Steps 1 to 3 of entry; the lines of E0–E3 as the keeper first filters them. -/
def entrySteps (s : State) (ab : Vector (Bool × Bool) 4) : State :=
  ((s.safetyOff).handOverUnits ab).writeSignature

/-- SLEEP_ENTRY (R456): the steps of entry, at whose end the bucks are off. A source that qualified during entry then begins the
wake (R459). -/
def execSleepEntry (encoderAB : Vector (Bool × Bool) 4) (levels : BitVec 8) (s : State) : Out :=
  .next (
    match s.power.due with
    | some (.sleep seconds) =>
      if s.power.phase ≠ .awake then s
      else
        let s1 := ((s.entrySteps encoderAB).dieOff).modPower fun p => { p with
          phase := .asleep
          sleeps := inc32 p.sleeps
          sleptAt := s.time.keeper
          minuteAt := s.time.keeper
          wakeTimer := seconds
          wakeEn := BitVec.ofNat 18 (s.noun 0xA008).toNat
          wakeCounts := (s.noun 0xA009).toNat
          latchedTimer := false
          levels := levels }
        if s.power.latched ≠ 0 then s1.wake false else s1
    | _ => s)

/-- The bit of a source in `N:0xA008` (R462); the timer has none. -/
def wakeBit : WakeSource → Option (Fin 18)
  | .timer => none
  | .host => some 0
  | .bus p => some ⟨1 + p.val, by omega⟩
  | .switch i => some ⟨5 + i.val, by omega⟩
  | .encoder e => some ⟨13 + e.val, by omega⟩
  | .klost => some 17

/-- A source can have qualified: it is enabled, and what the keeper counts bears it out (R458). -/
def wakeFits (s : State) (en : BitVec 18) (w : WakeSource) : Bool :=
  (match wakeBit w with
    | some i => en.getLsbD i.val
    | none => s.power.wakeTimer != 0) &&
  (match w with
    | .encoder e => decide ((s.power.wakeCounts : Int) ≤ absI s.retention.delta[e])
    | .klost => s.retention.lost.toList.contains true
    | .timer | .host | .bus _ | .switch _ => true)

/-- A source is latched (R459). -/
def latchSource (s : State) (w : WakeSource) : State :=
  s.modPower fun p =>
    match wakeBit w with
    | some i => { p with latched := p.latched ||| (1#18 <<< i.val) }
    | none => { p with latchedTimer := true }

/-- WAKE_SOURCE_QUALIFIED (R458, R459). During entry a source is latched; in sleep it begins the wake, which a brownout holds back;
one that qualifies with the source that began the wake, before the start runs, is recorded with it (DEDUCED, log entry 62). -/
def execWakeSourceQualified (w : WakeSource) (s : State) : Out :=
  .next (
    match s.power.phase with
    | .awake =>
      (match s.power.due, wakeBit w with
        | some (.sleep _), some i =>
          if (BitVec.ofNat 18 (s.noun 0xA008).toNat).getLsbD i.val && i.val < 13 then s.latchSource w else s
        | _, _ => s)
    | .asleep =>
      if s.wakeFits s.power.wakeEn w then
        let s1 := s.latchSource w
        if s.power.vinOk then s1.wake false else s1
      else s
    | .coldStart | .warmStart =>
      if decide (1 ≤ s.power.cause ∧ s.power.cause ≤ 9) && s.wakeFits s.power.wakeEn w then (s.latchSource w).recordWake else s
    | .noVin | .safeHold | .romHold | .inReset | .brownedOut => s)

/-- RESTART_ACTION (R473): a warm RESTART runs steps 1 to 3 of the entry with the bucks left on; a cold one skips them and
invalidates the signature block. Served from boot ROM, no firmware writes a signature (R467). -/
def execRestartAction (s : State) : Out :=
  .next (
    match s.power.due with
    | some .warm =>
      if s.power.phase = .romHold then (s.dieOff).toStart causeRestart false
      else if s.awake then
        let s1 := s.entrySteps (Vector.ofFn fun e => ((s.fb[keepUnit e]).a, (s.fb[keepUnit e]).b))
        (s1.dieOff).toStart causeRestart s1.warmAllowed
      else s
    | some .cold =>
      if s.clocked then
        ({ s.dieOff with retention := { s.retention with valid := false } }).toStart causeRestart false
      else s
    | _ => s)

/-! ## RST_N (R483 to R485) -/

/-- RST_N_LOW (R483): ignored while masked (R484). -/
def execRstNLow (s : State) : Out :=
  .next (
    if s.start.rstMask || s.power.rstLow then s
    else
      let s1 := s.modPower fun p => { p with rstLow := true }
      match s.power.phase with
      | .noVin | .brownedOut | .inReset => s1
      | .asleep =>
        -- a brownout in sleep goes before the reset (R485)
        if s.power.vinOk then s1.outputsOff .inReset
        else (s1.outputsOff .brownedOut).modPower fun p => { p with brownout := true }
      | .awake | .safeHold | .romHold | .coldStart | .warmStart => s1.outputsOff .inReset)

/-- RST_N_HIGH (R483, R485). -/
def execRstNHigh (s : State) : Out :=
  .next (
    if !s.power.rstLow then s
    else
      let s1 := s.modPower fun p => { p with rstLow := false }
      if s.power.phase = .inReset then (s1.passUnknown).releaseReset else s1)

/-- RESET_STUCK (R484): low for 8 s; the ball is masked and a cold start begins. -/
def execResetStuck (s : State) : Out :=
  .next (
    if s.start.rstMask || !s.power.rstLow then s
    else
      let s1 : State := { s with
        power := { s.power with rstLow := false }
        start := { s.start with rstMask := true, stuck := true } }
      if s.power.phase = .inReset then ((s1.passCounts (8 * 32768)).passUnknown).releaseReset else s1)

/-- RSTMASK_CLEAR (R484): qualified high for 100 ms. -/
def execRstmaskClear (s : State) : Out := .next { s with start := { s.start with rstMask := false } }

end State

end Sys2Proof.Machine
end

