-- ==== Sys2Proof/Machine/Windows.lean ====
section
/-! DEFINITION. Timer events of groups and generators: the yield times (R163), the host tension value (R150), the TRACK
timeout (R196). -/

namespace Sys2Proof.Machine

namespace State

/-- RELEASE_DWELL_EXPIRY (R163): the tension has stayed at or below the release level for `N:0x1g1B`. -/
def execReleaseDwellExpiry (g : Grp) (s : State) : Out :=
  let y := (s.groups[g]).yield
  .next (
    if y.state = .yield ∧ y.tValid = true ∧ y.tension * 100 ≤ s.gNoun g 0x19 * s.gNoun g 0x1A then
      s.modYield g fun y => { y with state := .recover, recTicks := 0, entryCap := openRound (s.iYield g) }
    else s)

/-- RECOVERY_TIME_EXPIRY (R163): `N:0x1g20` has elapsed since entry to RECOVER. On return to ARMED the generators plan again
(R165). -/
def execRecoveryTimeExpiry (g : Grp) (s : State) : Out :=
  .next (
    if (s.groups[g]).yield.state = .recover then
      (s.modYield g fun y => { y with state := s.recoverEnd g }).leaveDrum g
    else s)

/-- HOST_TENSION_EXPIRY (R150): 100 ms after a write of `N:0x1g26`. -/
def execHostTensionExpiry (g : Grp) (s : State) : Out :=
  .next (s.modYield g fun y => { y with hostValid := false })

/-- TRACK_TIMEOUT (R196): no write was latched for `N:0x2m5C`. -/
def execTrackTimeout (x : GenId) (s : State) : Out :=
  .next (if (s.gen x).kind = .track then s.modGen x fun o => { o with rate := 0 } else s)

end State

end Sys2Proof.Machine
end

