-- ==== Sys2Proof/Machine/Dispatch.lean ====
section
/-! DEFINITION. The dispatch: one arm for each command, each one direct call of that command's meaning. -/

namespace Sys2Proof.Machine

def exec (i : Instr) (s : State) : Host.Outcome State Fault Refusal :=
  match i with
  | .frameTick => Sys2Proof.Machine.State.execFrameTick s
  | .filterResultReady g window => Sys2Proof.Machine.State.execFilterResultReady g window s
  | .segmentComplete r => Sys2Proof.Machine.State.execSegmentComplete r s
  | .checkSetDone passA passB => Sys2Proof.Machine.State.execCheckSetDone passA passB s
  | .clusterCheckSetStart => Sys2Proof.Machine.State.execClusterCheckSetStart s
  | .computeDeadline g => Sys2Proof.Machine.State.execComputeDeadline g s
  | .glanceWindowOpen m fine => Sys2Proof.Machine.State.execGlanceWindowOpen m fine s
  | .glanceWindowClose m => Sys2Proof.Machine.State.execGlanceWindowClose m s
  | .comparatorEdge m phase rising cd4 => Sys2Proof.Machine.State.execComparatorEdge m phase rising cd4 s
  | .sixStepCommutation m => Sys2Proof.Machine.State.execSixStepCommutation m s
  | .gateDriverFaultInput m low => Sys2Proof.Machine.State.execGateDriverFaultInput m low s
  | .scFilterResult m bitsA bitsB => Sys2Proof.Machine.State.execScFilterResult m bitsA bitsB s
  | .bitstreamStuck channel => Sys2Proof.Machine.State.execBitstreamStuck channel s
  | .chopperPeriodStart l bcf => Sys2Proof.Machine.State.execChopperPeriodStart l bcf s
  | .chopperFeedbackMismatch l => Sys2Proof.Machine.State.execChopperFeedbackMismatch l s
  | .sarConversion a w code => Sys2Proof.Machine.State.execSarConversion a w code s
  | .auxOvercurrent a => Sys2Proof.Machine.State.execAuxOvercurrent a s
  | .hysteresisCrossing a w upper rising cd12 => Sys2Proof.Machine.State.execHysteresisCrossing a w upper rising cd12 s
  | .encoderEdge e a b z cd6 => Sys2Proof.Machine.State.execEncoderEdge e a b z cd6 s
  | .speedTimeout n => Sys2Proof.Machine.State.execSpeedTimeout n s
  | .serialFrameEnd p f => Sys2Proof.Machine.State.execSerialFrameEnd p f s
  | .resolverExcitationPeriod v amplitude angle speed => Sys2Proof.Machine.State.execResolverExcitationPeriod v amplitude angle speed s
  | .resolverRevalidate v => Sys2Proof.Machine.State.execResolverRevalidate v s
  | .switchSample levels cd6 => Sys2Proof.Machine.State.execSwitchSample levels cd6 s
  | .chatterCleared k => Sys2Proof.Machine.State.execChatterCleared k s
  | .keeperEncoderSample a b => Sys2Proof.Machine.State.execKeeperEncoderSample a b s
  | .checkTimeExpiry m => Sys2Proof.Machine.State.execCheckTimeExpiry m s
  | .alignmentTimeExpiry m => Sys2Proof.Machine.State.execAlignmentTimeExpiry m s
  | .parisonTimeout m => Sys2Proof.Machine.State.execParisonTimeout m s
  | .catchTimeout m => Sys2Proof.Machine.State.execCatchTimeout m s
  | .coastTimeout m => Sys2Proof.Machine.State.execCoastTimeout m s
  | .resyncTimeout m => Sys2Proof.Machine.State.execResyncTimeout m s
  | .lossBrakeTimeout m => Sys2Proof.Machine.State.execLossBrakeTimeout m s
  | .handoverDeferralExpiry m => Sys2Proof.Machine.State.execHandoverDeferralExpiry m s
  | .sensorHealthyHold m => Sys2Proof.Machine.State.execSensorHealthyHold m s
  | .speedLimit m => Sys2Proof.Machine.State.execSpeedLimit m s
  | .modeDeferralExpiry m => Sys2Proof.Machine.State.execModeDeferralExpiry m s
  | .followingError m => Sys2Proof.Machine.State.execFollowingError m s
  | .excitationSearchWindow m => Sys2Proof.Machine.State.execExcitationSearchWindow m s
  | .releaseDwellExpiry g => Sys2Proof.Machine.State.execReleaseDwellExpiry g s
  | .recoveryTimeExpiry g => Sys2Proof.Machine.State.execRecoveryTimeExpiry g s
  | .hostTensionExpiry g => Sys2Proof.Machine.State.execHostTensionExpiry g s
  | .trackTimeout x => Sys2Proof.Machine.State.execTrackTimeout x s
  | .holdDelayExpiry a => Sys2Proof.Machine.State.execHoldDelayExpiry a s
  | .stallDetected a => Sys2Proof.Machine.State.execStallDetected a s
  | .openCoil a => Sys2Proof.Machine.State.execOpenCoil a s
  | .settleTimeExpiry a => Sys2Proof.Machine.State.execSettleTimeExpiry a s
  | .safetyInputSample ctf sreset estop0 estop1 => Sys2Proof.Machine.State.execSafetyInputSample ctf sreset estop0 estop1 s
  | .monitoringMessageAssembly => Sys2Proof.Machine.State.execMonitoringMessageAssembly s
  | .monitoringMessage a b => Sys2Proof.Machine.State.execMonitoringMessage a b s
  | .monitoringLost => Sys2Proof.Machine.State.execMonitoringLost s
  | .safetyStatusWrite => Sys2Proof.Machine.State.execSafetyStatusWrite s
  | .brakeTimerExpiry b => Sys2Proof.Machine.State.execBrakeTimerExpiry b s
  | .brakeTimeout b => Sys2Proof.Machine.State.execBrakeTimeout b s
  | .contactorDiscrepancy c => Sys2Proof.Machine.State.execContactorDiscrepancy c s
  | .darkPulseStart o => Sys2Proof.Machine.State.execDarkPulseStart o s
  | .darkPulseEnd o fell rose => Sys2Proof.Machine.State.execDarkPulseEnd o fell rose s
  | .readbackMismatch o => Sys2Proof.Machine.State.execReadbackMismatch o s
  | .safetyParamCrcCheck intact => Sys2Proof.Machine.State.execSafetyParamCrcCheck intact s
  | .ksafeClockCheck count => Sys2Proof.Machine.State.execKsafeClockCheck count s
  | .ss1TimeElapsed k => Sys2Proof.Machine.State.execSs1TimeElapsed k s
  | .estopPairDiscrepancy => Sys2Proof.Machine.State.execEstopPairDiscrepancy s
  | .keeperPortMessage crcOk seqOk payload => Sys2Proof.Machine.State.execKeeperPortMessage crcOk seqOk payload s
  | .coreMismatch newerOk core0 core1 => Sys2Proof.Machine.State.execCoreMismatch newerOk core0 core1 s
  | .checkpoint vin control keeper => Sys2Proof.Machine.State.execCheckpoint vin control keeper s
  | .scrubPass store f => Sys2Proof.Machine.State.execScrubPass store f s
  | .blockRefresh verified => Sys2Proof.Machine.State.execBlockRefresh verified s
  | .lifeAccumulatorSample => Sys2Proof.Machine.State.execLifeAccumulatorSample s
  | .hourlySave => Sys2Proof.Machine.State.execHourlySave s
  | .hostWriteFrame f => Sys2Proof.Machine.State.execHostWriteFrame f s
  | .readLRegister addr => Sys2Proof.Machine.State.execReadLRegister addr s
  | .registerPairWrite addr low high => Sys2Proof.Machine.State.execRegisterPairWrite addr low high s
  | .mbxDoorbell slots => Sys2Proof.Machine.State.execMbxDoorbell slots s
  | .mbxRelease slots => Sys2Proof.Machine.State.execMbxRelease slots s
  | .mbxCplack n => Sys2Proof.Machine.State.execMbxCplack n s
  | .slotTaken => Sys2Proof.Machine.State.execSlotTaken s
  | .sentenceTaken => Sys2Proof.Machine.State.execSentenceTaken s
  | .sentenceTakeUp t => Sys2Proof.Machine.State.execSentenceTakeUp t s
  | .read t => Sys2Proof.Machine.State.execRead t s
  | .set t => Sys2Proof.Machine.State.execSet t s
  | .write t => Sys2Proof.Machine.State.execWrite t s
  | .swap t => Sys2Proof.Machine.State.execSwap t s
  | .swapValidationDone g => Sys2Proof.Machine.State.execSwapValidationDone g s
  | .enable t => Sys2Proof.Machine.State.execEnable t s
  | .disable t => Sys2Proof.Machine.State.execDisable t s
  | .move t => Sys2Proof.Machine.State.execMove t s
  | .halt t => Sys2Proof.Machine.State.execHalt t s
  | .follow t => Sys2Proof.Machine.State.execFollow t s
  | .home t => Sys2Proof.Machine.State.execHome t s
  | .abort t => Sys2Proof.Machine.State.execAbort t s
  | .capture t => Sys2Proof.Machine.State.execCapture t s
  | .commit t => Sys2Proof.Machine.State.execCommit t s
  | .commitWriteDone failed => Sys2Proof.Machine.State.execCommitWriteDone failed s
  | .clear t => Sys2Proof.Machine.State.execClear t s
  | .sleep t => Sys2Proof.Machine.State.execSleep t s
  | .sleepEntry encoderAB levels => Sys2Proof.Machine.State.execSleepEntry encoderAB levels s
  | .restart t => Sys2Proof.Machine.State.execRestart t s
  | .restartAction => Sys2Proof.Machine.State.execRestartAction s
  | .gffAck n => Sys2Proof.Machine.State.execGffAck n s
  | .gffClear => Sys2Proof.Machine.State.execGffClear s
  | .gffMark payload cd6 => Sys2Proof.Machine.State.execGffMark payload cd6 s
  | .gffRecordWrite => Sys2Proof.Machine.State.execGffRecordWrite s
  | .tstKey w => Sys2Proof.Machine.State.execTstKey w s
  | .tstLockClose => Sys2Proof.Machine.State.execTstLockClose s
  | .tstSincArm w => Sys2Proof.Machine.State.execTstSincArm w s
  | .tstEngArm w => Sys2Proof.Machine.State.execTstEngArm w s
  | .fbPreset n => Sys2Proof.Machine.State.execFbPreset n s
  | .rearm n => Sys2Proof.Machine.State.execRearm n s
  | .compareWrite n v => Sys2Proof.Machine.State.execCompareWrite n v s
  | .busModeWrite p mode => Sys2Proof.Machine.State.execBusModeWrite p mode s
  | .recover p => Sys2Proof.Machine.State.execRecover p s
  | .busTxRequest p buffers => Sys2Proof.Machine.State.execBusTxRequest p buffers s
  | .busTxAbort p buffers => Sys2Proof.Machine.State.execBusTxAbort p buffers s
  | .busRxack p q0 q1 => Sys2Proof.Machine.State.execBusRxack p q0 q1 s
  | .busRsel p index => Sys2Proof.Machine.State.execBusRsel p index s
  | .canFrameReceived p f stamp => Sys2Proof.Machine.State.execCanFrameReceived p f stamp s
  | .canSegmentTimeout p session => Sys2Proof.Machine.State.execCanSegmentTimeout p session s
  | .canTransmitChoice p => Sys2Proof.Machine.State.execCanTransmitChoice p s
  | .canTransmitEnd p o => Sys2Proof.Machine.State.execCanTransmitEnd p o s
  | .canErrorDetected p e => Sys2Proof.Machine.State.execCanErrorDetected p e s
  | .protocolException p => Sys2Proof.Machine.State.execProtocolException p s
  | .busRecovered p => Sys2Proof.Machine.State.execBusRecovered p s
  | .canBusIntegration p => Sys2Proof.Machine.State.execCanBusIntegration p s
  | .duplicateMarkExpiry p ide id => Sys2Proof.Machine.State.execDuplicateMarkExpiry p ide id s
  | .rosterSilenceCheck => Sys2Proof.Machine.State.execRosterSilenceCheck s
  | .timestampWrap => Sys2Proof.Machine.State.execTimestampWrap s
  | .ringFormationDone info => Sys2Proof.Machine.State.execRingFormationDone info s
  | .cascadePacketReceived pkt => Sys2Proof.Machine.State.execCascadePacketReceived pkt s
  | .syncMissed => Sys2Proof.Machine.State.execSyncMissed s
  | .ringBreak d => Sys2Proof.Machine.State.execRingBreak d s
  | .linkDirectionUp d => Sys2Proof.Machine.State.execLinkDirectionUp d s
  | .statusPacketSend => Sys2Proof.Machine.State.execStatusPacketSend s
  | .spanStartTick g => Sys2Proof.Machine.State.execSpanStartTick g s
  | .brownout => Sys2Proof.Machine.State.execBrownout s
  | .vinokHeld => Sys2Proof.Machine.State.execVinokHeld s
  | .keeperFloorLoss => Sys2Proof.Machine.State.execKeeperFloorLoss s
  | .vlow below => Sys2Proof.Machine.State.execVlow below s
  | .crystalQualified => Sys2Proof.Machine.State.execCrystalQualified s
  | .crystalLost => Sys2Proof.Machine.State.execCrystalLost s
  | .holdoverExpiry => Sys2Proof.Machine.State.execHoldoverExpiry s
  | .pllLockLoss => Sys2Proof.Machine.State.execPllLockLoss s
  | .wakeSourceQualified w => Sys2Proof.Machine.State.execWakeSourceQualified w s
  | .coldStart f => Sys2Proof.Machine.State.execColdStart f s
  | .warmStart f => Sys2Proof.Machine.State.execWarmStart f s
  | .rstNLow => Sys2Proof.Machine.State.execRstNLow s
  | .rstNHigh => Sys2Proof.Machine.State.execRstNHigh s
  | .resetStuck => Sys2Proof.Machine.State.execResetStuck s
  | .rstmaskClear => Sys2Proof.Machine.State.execRstmaskClear s
  | .bitstreamUnstuck channel => Sys2Proof.Machine.State.execBitstreamUnstuck channel s
  | .resolverTrackingError v => Sys2Proof.Machine.State.execResolverTrackingError v s
  | .protocolExceptionEnd p => Sys2Proof.Machine.State.execProtocolExceptionEnd p s
  | .slewToInternalDone => Sys2Proof.Machine.State.execSlewToInternalDone s
  | .regionCrcCheckDone => Sys2Proof.Machine.State.execRegionCrcCheckDone s
  | .computeLostBrakeWindowExpiry => Sys2Proof.Machine.State.execComputeLostBrakeWindowExpiry s
  | .emergencySs1TimeElapsed g => Sys2Proof.Machine.State.execEmergencySs1TimeElapsed g s
  | .emergencyBrakeWaitExpiry g => Sys2Proof.Machine.State.execEmergencyBrakeWaitExpiry g s
  | .preloadRampEnd m => Sys2Proof.Machine.State.execPreloadRampEnd m s
  | .keepClockLoss => Sys2Proof.Machine.State.execKeepClockLoss s
  | .hostReadFrame f => Sys2Proof.Machine.State.execHostReadFrame f s
  | .hysteresisHoldExpiry a w cd12 => Sys2Proof.Machine.State.execHysteresisHoldExpiry a w cd12 s

end Sys2Proof.Machine
end

