-- ==== Sys2Proof/Safety.lean ====
section
/-! DEFINITION. What counts as a safe run, in the terms the statements use: no step stops, and the lists of the state that the
spec bounds keep their bounds and their canonical forms. -/

namespace Sys2Proof.Machine

/-- A step that goes on. -/
def StepsOn (s : State) : Prop := ∃ t, step s = .next t

/-- At most 32 tickets are in flight (R336, R354), at most 64 that reached PAST are remembered (R357), and none is T#0 (R336). -/
def MailSt.Inv (m : MailSt) : Prop :=
  (m.tickets.filter fun k => k.tense != .past).length ≤ 32 ∧ m.ended.length ≤ 64 ∧ ∀ k ∈ m.tickets, k.num ≠ 0

/-- The RAM log holds at most 4096 records and the persistent log at most 512 (R333). -/
def LogSt.Inv (l : LogSt) : Prop := l.ram.length ≤ 4096 ∧ l.persistent.length ≤ 512

/-- The gather FIFO holds at most 8192 words (R488). -/
def GffSt.Inv (f : GffSt) : Prop := f.words.length ≤ 8192

/-- A coefficient queue holds at most 256 entries (R130). -/
def Group.Inv (q : Group) : Prop := q.queue.length ≤ 256

/-- Both engines' coefficient stores are in canonical form. -/
def EngineSt.Inv (e : EngineSt) : Prop := Canon 0 e.storeA ∧ Canon 0 e.storeB

/-- The node roster lists its entries by rising index and holds at most 2048 (R336, R415). -/
def RosterSt.Inv (r : RosterSt) : Prop := Rising 0 r.entries ∧ r.entries.length ≤ 2048

/-- The invariant of the machine: the bounds above, and the canonical forms of the stores. -/
def State.Inv (s : State) : Prop :=
  s.mail.Inv ∧ s.log.Inv ∧ s.gff.Inv ∧ s.engines.Inv ∧ s.roster.Inv ∧ Canon 0 s.store.staged ∧ Rising 0 s.nouns ∧ Rising 0 s.tables ∧
    Rising 0 s.retention.tables ∧ ∀ g : Grp, (s.groups[g]).Inv

end Sys2Proof.Machine
end

