-- ==== Sys2Proof/Certificates/Slice0/Obligations.lean ====
section
/-! DEFINITION. The statements for the provers. -/

section

open Sys2Proof Sys2Proof.Machine

/-- The commands that may act on the keeper die, the lifetime figures, the records of the starts or the time: the safety channel's
own events, the events of supply, start, sleep and keeper, the frame tick and SYNC, and the saving of lifetime figures. -/
def actsOnKeeper : Instr → Bool
  | .cascadePacketReceived _ => true
  | .frameTick => true
  | .keeperEncoderSample _ _ => true
  | .brownout => true
  | .vinokHeld => true
  | .keeperFloorLoss => true
  | .pllLockLoss => true
  | .sleepEntry _ _ => true
  | .wakeSourceQualified _ => true
  | .restartAction => true
  | .rstNLow => true
  | .rstNHigh => true
  | .resetStuck => true
  | .rstmaskClear => true
  | .safetyInputSample _ _ _ _ => true
  | .monitoringMessageAssembly => true
  | .monitoringMessage _ _ => true
  | .monitoringLost => true
  | .brakeTimerExpiry _ => true
  | .brakeTimeout _ => true
  | .contactorDiscrepancy _ => true
  | .ss1TimeElapsed _ => true
  | .estopPairDiscrepancy => true
  | .darkPulseStart _ => true
  | .darkPulseEnd _ _ _ => true
  | .readbackMismatch _ => true
  | .safetyParamCrcCheck _ => true
  | .ksafeClockCheck _ => true
  | .keepClockLoss => true
  | .keeperPortMessage _ _ _ => true
  | .coldStart _ => true
  | .warmStart _ => true
  | .checkpoint _ _ _ => true
  | .scrubPass _ _ => true
  | .lifeAccumulatorSample => true
  | .hourlySave => true
  | _ => false

/-- For every command c, queue rest r and state s: step of s with c at the front of its queue and r behind it is exec of c on s
with the queue r; and step of a state whose queue is empty answers that state. The queue and the idling are the model's own
(log entry 8). -/
def Obligations.FrontCommandRunsOnTheRest : Prop :=
  (∀ (c : Instr) (r : List Instr) (s : State), step { s with pending := c :: r } = exec c { s with pending := r }) ∧
    ∀ s : State, s.pending = [] → step s = .next s

/-- For every width and word, decodeTableWord answers none, and withFetchWord leaves the state as it is: spec/opcode_table.json
gives its rows no bits (log entry 14). -/
def Obligations.NoWordSpellsACommand : Prop :=
  ∀ (n w : Nat) (s : State), decodeTableWord n w = none ∧ s.withFetchWord n w = s

/-- State.reset meets State.Inv: at most 32 tickets in flight, 64 remembered ended tickets, no ticket number 0, at most 4096 and
512 log records, 8192 gather words, 256 queue entries for each group, 2048 roster entries, and every sparse store in its
canonical form; its queue of commands is empty. -/
def Obligations.ResetMeetsTheInvariant : Prop :=
  State.reset.Inv ∧ State.reset.pending = []

/-- For every state s that meets State.Inv (reachable or not), if step s answers a next state t, then t meets State.Inv: no
command lets the tickets in flight pass 32, the remembered tickets 64, a ticket take number 0, the logs pass 4096 and 512
records, the gather FIFO pass 8192 words, a group's queue pass 256 entries, the roster pass 2048 entries, or a sparse store
leave its canonical form. -/
def Obligations.EveryStepKeepsTheInvariant : Prop :=
  ∀ s t : State, s.Inv → step s = .next t → t.Inv

/-- For every command c and every state s that meets State.Inv, if exec c answers t, then the persistent log of t is some list of
newer records followed by the persistent log of s, cut to its 512 newest records: the oldest records are overwritten by newer
ones and nothing else removes one, not a restart, a start, a sleep or a loss of supply. -/
def Obligations.PersistentLogSurvivesEveryCommand : Prop :=
  ∀ (c : Instr) (s t : State), s.Inv → exec c s = .next t →
    ∃ newer : List (Nat × Record), t.log.persistent = (newer ++ s.log.persistent).take 512

/-- For every command c and every state s that meets State.Inv, exec c answers a next state (no command stops the machine), and
that state has the family member and the waiting queue of s. -/
def Obligations.NoCommandTouchesTheQueue : Prop :=
  ∀ (c : Instr) (s : State), s.Inv → ∃ t, exec c s = .next t ∧ t.member = s.member ∧ t.pending = s.pending

/-- For every command c outside the list actsOnKeeper (the safety channel's own events, the events of supply, start, sleep and
keeper, FRAME_TICK, CASCADE_PACKET_RECEIVED, CHECKPOINT, SCRUB_PASS and the lifetime saves) and every state s: exec c answers
a next state whose safety channel, retention RAM, records of the starts, lifetime figures and time are those of s. No
register write, verb, sentence, bus frame, engine pass, sensor edge or timer of the control die reaches them. -/
def Obligations.OrdinaryCommandsLeaveTheKeeperAlone : Prop :=
  ∀ (c : Instr) (s : State), actsOnKeeper c = false →
    ∃ t, exec c s = .next t ∧ t.safety = s.safety ∧ t.retention = s.retention ∧ t.start = s.start ∧ t.life = s.life ∧ t.time = s.time

/-- In YIELD with a valid tension at or below the release level, RELEASE_DWELL_EXPIRY takes the group to RECOVER with its
recovery count and entry cap begun and changes nothing else. In RECOVER, RECOVERY_TIME_EXPIRY takes it to ARMED or, where a
condition of ARMED fails, to OFF; every other group, and every part of the machine but the groups and the axes' generators,
stands. HOST_TENSION_EXPIRY makes the host tension invalid and nothing else. TRACK_TIMEOUT of a generator in kind TRACK sets
its rate to zero and nothing else. -/
def Obligations.YieldAndTrackTimersEnd : Prop :=
  ∀ (g : Grp) (x : GenId) (s : State),
    ((s.groups[g]).yield.state = .yield → (s.groups[g]).yield.tValid = true →
      (s.groups[g]).yield.tension * 100 ≤ s.gNoun g 0x19 * s.gNoun g 0x1A →
      exec (.releaseDwellExpiry g) s = .next (s.modYield g fun y => { y with
        state := .recover, recTicks := 0, entryCap := openRound (s.iYield g) })) ∧
    ((s.groups[g]).yield.state = .recover →
      ∃ t, exec (.recoveryTimeExpiry g) s = .next t ∧ (t.groups[g]).yield.state = s.recoverEnd g ∧
        (∀ h, h ≠ g → t.groups[h] = s.groups[h]) ∧ t = { s with groups := t.groups, mains := t.mains, auxs := t.auxs }) ∧
    exec (.hostTensionExpiry g) s = .next (s.modYield g fun y => { y with hostValid := false }) ∧
    ((s.gen x).kind = .track → exec (.trackTimeout x) s = .next (s.modGen x fun o => { o with rate := 0 }))

/-- For an axis with gates on in a state that places windows and a window not yet open, GLANCE_WINDOW_OPEN marks it open from the
opening edge and floats the phase of its crossing; for an open window GLANCE_WINDOW_CLOSE ends the floating, puts the queued
window in its place and counts an empty window exactly when no crossing was found. In each case nothing else of the machine
changes. In RUN with source SIX-STEP and gates on, SIX_STEP_COMMUTATION advances the sector by one in the direction of the
speed estimate and counts a miss exactly when no crossing was accepted; only that axis changes. -/
def Obligations.GlanceWindowFloatsThePhase : Prop :=
  ∀ (m : Main) (s : State) (w : Window) (fine : Nat),
    (s.mains[m]).glance.window = some w →
    (w.opened = false → (s.mains[m]).drive.gates = true → State.placesWindows (s.mains[m]).comm = true →
      exec (.glanceWindowOpen m fine) s = .next ((s.modGlance m fun g => { g with
        window := some { w with opened := true, opening := 60000 * (s.time.now : Int) + fine }
        forced := w.forced }).modDrive m fun d => { d with floating := some (phaseOf w.crossing) })) ∧
    (w.opened = true → State.placesWindows (s.mains[m]).comm = true →
      exec (.glanceWindowClose m) s = .next ((s.modGlance m fun g => { g with
        window := g.queued
        queued := none
        origin := crossingAngle w.crossing
        empties := if w.found.isNone then g.empties + 1 else g.empties }).modDrive m fun d => { d with floating := none })) ∧
    ((s.mains[m]).comm.state = .run → (s.mains[m]).comm.source = .sixStep → (s.mains[m]).drive.gates = true →
      ∃ t, exec (.sixStepCommutation m) s = .next t ∧
        ((t.mains[m]).comm.sector.val : Int) =
          (((s.mains[m]).comm.sector.val : Int) + if signI (s.mains[m]).eng.speed < 0 then -1 else 1) % 6 ∧
        (t.mains[m]).comm.sixSeen = false ∧
        (t.mains[m]).glance.misses = (if (s.mains[m]).comm.sixSeen then (s.mains[m]).glance.misses
          else (s.mains[m]).glance.misses + 1) ∧
        t = s.modMain m fun _ => t.mains[m])

/-- With c the crossing that the edge stands for (its timestamp less the path delay): in CHECK and RESYNC COMPARATOR_EDGE adds c
to the sequence watched and, in CHECK, marks a crossing seen; in RUN with source SIX-STEP an expected edge past the blanking
and away from gate edges, the first of its sector, is accepted with its time; in a state that places windows an expected edge
of the open window, past its blanking, before its latest close and away from gate edges, is the window's crossing. Nothing
else changes. -/
def Obligations.ComparatorEdgesAreTakenByState : Prop :=
  ∀ (m : Main) (phase : Phase) (rising : Bool) (cd4 : Nat) (s : State),
    let raw : Int := 60000 * (s.time.now : Int) + 32 * cd4
    let c : Crossing := { phase, rising, clock := 20 * (1875 * (s.time.now : Int) + cd4) - 3 * s.mNoun m 0x2E }
    let a := s.mains[m]
    (a.comm.state = .check ∨ a.comm.state = .resync →
      exec (.comparatorEdge m phase rising cd4) s = .next ((s.modGlance m fun q => { q with seen := growRun q.seen c }).modComm m
        fun x => { x with crossed := x.crossed || x.state == .check })) ∧
    (a.comm.state = .run → a.comm.source = .sixStep → a.comm.sixSeen = false →
      (∀ w, a.glance.window = some w → w.opening + w.blanking ≤ raw) →
      expects a.comm.sector.val phase rising = true → s.nearEdge (s.groupOr0 m) m phase raw = false →
      exec (.comparatorEdge m phase rising cd4) s = .next ((s.modGlance m fun q => { q with fresh := q.fresh ++ [(c, none)] }).modComm m
        fun x => { x with sixSeen := true, sixTimes := (c.clock :: x.sixTimes).take 3 })) ∧
    ∀ w : Window, a.comm.state = .run → a.comm.source = .observer → a.glance.window = some w → w.opened = true → w.found = none →
      expects w.crossing phase rising = true → w.opening + w.blanking ≤ raw → raw < w.latest →
      s.nearEdge (s.groupOr0 m) m phase raw = false →
      exec (.comparatorEdge m phase rising cd4) s = .next (s.modGlance m fun q => { q with
        window := some { w with found := some c }
        fresh := q.fresh ++ [(c, some w.crossing)] })

/-- For the state or states that each timer times, CHECK_TIME_EXPIRY, ALIGNMENT_TIME_EXPIRY, PARISON_TIMEOUT (also in HANDOVER
from PARISON), CATCH_TIMEOUT, COAST_TIMEOUT, RESYNC_TIMEOUT, LOSS_BRAKE_TIMEOUT (COAST and RESYNC), SENSOR_HEALTHY_HOLD (RUN
from a source other than SENSOR with a healthy sensor) and PRELOAD_RAMP_END mark the transition due on that axis
(PRELOAD_RAMP_END: the rise complete and release requested) and change nothing else; in every other state each changes
nothing. That the state itself changes at the commit point is R68's. -/
def Obligations.CommutationTimersRaiseTheirTransition : Prop :=
  ∀ (m : Main) (s : State),
    let st := (s.mains[m]).comm.state
    exec (.checkTimeExpiry m) s = .next (if st = .check then s.modComm m fun c => { c with dueCheck := true } else s) ∧
    exec (.alignmentTimeExpiry m) s = .next (if st = .align then s.modComm m fun c => { c with dueAlign := true } else s) ∧
    exec (.parisonTimeout m) s = .next (if st = .parison ∨ (st = .handover ∧ (s.mains[m]).comm.fromParison = true) then
      s.modComm m fun c => { c with dueParison := true } else s) ∧
    exec (.catchTimeout m) s = .next (if st = .catch then s.modComm m fun c => { c with dueCatch := true } else s) ∧
    exec (.coastTimeout m) s = .next (if st = .coast then s.modComm m fun c => { c with dueCoast := true } else s) ∧
    exec (.resyncTimeout m) s = .next (if st = .resync then s.modComm m fun c => { c with dueResync := true } else s) ∧
    exec (.lossBrakeTimeout m) s = .next (if st = .coast ∨ st = .resync then s.modComm m fun c => { c with dueBrake := true } else s) ∧
    exec (.sensorHealthyHold m) s = .next (if s.sensorOk m = true ∧ st = .run ∧ (s.mains[m]).comm.source ≠ .sensor then
      s.modComm m fun c => { c with dueHealthy := true } else s) ∧
    exec (.preloadRampEnd m) s = .next (if st = .preload then
      s.modComm m fun c => { c with preloadDone := true, release := true } else s)

/-- For every axis m whose gates are on by its state and whose speed estimate has been over the limit for 8 consecutive samples,
unless it is a winch with a brake (which R72 brakes first), SPEED_LIMIT answers a state in which the axis is in STOPPED-FAULT
with reason SPEED-LIMIT, its source is NONE, its gates are off and its parked angle is invalid; every other main axis keeps
its commutation state, and only the main axes, the log and the mailbox change. -/
def Obligations.OverspeedStopsTheAxis : Prop :=
  ∀ (m : Main) (s : State), (s.mains[m]).comm.state.gated = true → 8 ≤ (s.mains[m]).comm.overspeed → s.winchBrake m = false →
    ∃ t, exec (.speedLimit m) s = .next t ∧ (t.mains[m]).comm.state = .stoppedFault ∧ (t.mains[m]).comm.reason = .speedLimit ∧
      (t.mains[m]).comm.source = .none ∧ (t.mains[m]).comm.parked = none ∧ (t.mains[m]).drive.gates = false ∧
      (∀ k, k ≠ m → t.mains[k] = s.mains[k]) ∧ t = { s with mains := t.mains, log := t.log, mail := t.mail }

/-- MODE_DEFERRAL_EXPIRY of a mode handover at 64 samples, not yet blending, begins its blend under policy BLEND and, under
policy ABORT, drops the handover and completes its request with HANDOVER-ABORTED. HANDOVER_DEFERRAL_EXPIRY of an angle-source
handover past its 64 samples, not yet blending, begins the blend under BLEND; under ABORT a handover from RUN returns to RUN
on its old source, and one from PARISON with a retry left to PARISON counting a retry, each to be entered again after 256
samples. Nothing else changes. -/
def Obligations.HandoversAreSettledByPolicy : Prop :=
  ∀ (m : Main) (s : State),
    let c := (s.mains[m]).comm
    (∀ h, (s.mains[m]).eng.handover = some h → h.blend = none → 64 ≤ h.count →
      (s.mNoun m 0x32 = 0 → exec (.modeDeferralExpiry m) s =
        .next (s.modEng m fun e => { e with handover := some { h with blend := some 0 } })) ∧
      (s.mNoun m 0x32 ≠ 0 → exec (.modeDeferralExpiry m) s =
        .next ((s.modEng m fun e => { e with handover := none }).finish h.ticket stHandoverAborted))) ∧
    (c.state = .handover → c.blend = none → 64 < c.samples →
      (s.mNoun m 0x11 = 0 → exec (.handoverDeferralExpiry m) s = .next (s.modComm m fun c => { c with blend := some 0 })) ∧
      (s.mNoun m 0x11 ≠ 0 → c.fromParison = false → ∃ t, exec (.handoverDeferralExpiry m) s = .next t ∧
        (t.mains[m]).comm.state = .run ∧ (t.mains[m]).comm.source = c.source ∧ (t.mains[m]).comm.holdoff = 256 ∧
        t = s.modMain m fun _ => t.mains[m]) ∧
      (s.mNoun m 0x11 ≠ 0 → c.fromParison = true → (c.retries : Int) + 1 ≤ s.mNoun m 0x12 →
        ∃ t, exec (.handoverDeferralExpiry m) s = .next t ∧ (t.mains[m]).comm.state = .parison ∧
          (t.mains[m]).comm.retries = c.retries + 1 ∧ (t.mains[m]).comm.holdoff = 256 ∧ t = s.modMain m fun _ => t.mains[m]))

/-- When the count of consecutive samples over the limit reaches the following-error time of an axis whose FERR is clear,
FOLLOWING_ERROR sets FERR and logs the event FOLLOWING-ERROR with the error value and the group's sample, and then, by
N:0x2m3A, does nothing more (REPORT), orders the axis's generator to halt (HALT), or makes the group's emergency due with
cause FOLLOWING-ERROR unless one is due already (EMERGENCY). Nothing else changes. The case of an excursion that repeats
while FERR stands is not stated. -/
def Obligations.FollowingErrorIsReportedAndActedOn : Prop :=
  ∀ (m : Main) (s : State), let g := s.groupOr0 m
    let s1 := (s.modEng m fun e => { e with ferr := true }).logEvent sevWarn 0x0401 (objMain m) (s.mains[m]).eng.ferrValue
      (s.groups[g]).sample.toNat
    0 < (s.mains[m]).eng.ferrCount → ceilDiv (s.mNoun m 0x39 * 100000) (s.tsNs g) ≤ (s.mains[m]).eng.ferrCount →
    (s.mains[m]).eng.ferr = false →
    (s.mNoun m 0x3A = 0 → exec (.followingError m) s = .next s1) ∧
    (s.mNoun m 0x3A = 1 → exec (.followingError m) s =
      .next (s1.modGroup g fun q => { q with orders := q.orders ++ [(none, .internalHalt (.main m))] })) ∧
    (s.mNoun m 0x3A = 2 → exec (.followingError m) s = .next (s1.modGroup g fun q => { q with edue := some (q.edue.getD 6) }))

/-- With the search on, samples in the window and a mean of the previous counted window, EXCITATION_SEARCH_WINDOW at the end of a
window that counts keeps the direction if the mean power fell by more than 0.1 % of the previous mean and else reverses it,
moves the part one step N:0x2m45 in that direction bounded to minus N:0x2m47 and 0, remembers the mean, clears LMHOLD and
begins a window; a window that does not count leaves the part and sets LMHOLD. Nothing but that axis's sharing state changes.
Windows as the search begins them are log entry 29. -/
def Obligations.LossMinimisingSearchStepsEachWindow : Prop :=
  ∀ (m : Main) (s : State), s.mNoun m 0x44 = 1 → 0 < (s.mains[m]).share.lmCount →
    let x := (s.mains[m]).share
    let mean : Rat := (x.lmSum : Rat) / x.lmCount
    (∀ p : Rat, x.lmValid = true → x.lmPrev = some p →
      let dir : Int := if mean < p - absR p / 1000 then x.lmDir else -x.lmDir
      exec (.excitationSearchWindow m) s = .next (s.modShare m fun y => { y with
        lmSum := 0
        lmCount := 0
        lmValid := true
        lmPrev := some mean
        lmHold := false
        lmDir := dir
        lmPart := clampI (-(s.pctRated m (s.mNoun m 0x47))) 0 (y.lmPart + dir * truncDiv (s.rated m * s.mNoun m 0x45) 1000) })) ∧
    (x.lmValid = false → exec (.excitationSearchWindow m) s =
      .next (s.modShare m fun y => { y with lmSum := 0, lmCount := 0, lmValid := true, lmHold := true, lmPrev := none }))

/-- For an axis whose latch is armed and clear: GATE_DRIVER_FAULT_INPUT with the level low, SC_FILTER_RESULT that is the second
consecutive result with a phase over the short-circuit threshold, and BITSTREAM_STUCK of one of its two phase channels each
answer a state in which the latch holds its cause (1, 2, 3), the gates are off and no phase floats; the raw input stands as
its filtered level, SCTRIP or STUCKA/STUCKB is set. Every other main axis stands, and only the main axes, the log, the
mailbox and, for a stuck channel, the sensing state change. -/
def Obligations.FaultLatchTurnsTheGatesOff : Prop :=
  ∀ (m : Main) (s : State), (s.mains[m]).drive.armed = true → (s.mains[m]).drive.latch = 0 →
    (∃ t, exec (.gateDriverFaultInput m true) s = .next t ∧ (t.mains[m]).drive.latch = 1 ∧ (t.mains[m]).drive.gates = false ∧
      (t.mains[m]).drive.floating = none ∧ (t.mains[m]).drive.gdfLow = true ∧ (∀ k, k ≠ m → t.mains[k] = s.mains[k]) ∧
      t = { s with mains := t.mains, log := t.log, mail := t.mail }) ∧
    (∀ a b : List Bool, let p := s.phaseCurrents m (sincResult a) (sincResult b)
      let lim := s.pctRated m (s.mNoun m 0x2B) * 2147483648
      1 ≤ (s.mains[m]).drive.scOver → (lim < absI p.1 ∨ lim < absI p.2.1 ∨ lim < absI p.2.2) →
      ∃ t, exec (.scFilterResult m a b) s = .next t ∧ (t.mains[m]).drive.latch = 2 ∧ (t.mains[m]).drive.gates = false ∧
        (t.mains[m]).drive.scTrip = true ∧ (∀ k, k ≠ m → t.mains[k] = s.mains[k]) ∧
        t = { s with mains := t.mains, log := t.log, mail := t.mail }) ∧
    ∀ ch : Fin 32, State.axisOfChannel ch = some m → ∃ t, exec (.bitstreamStuck ch) s = .next t ∧ (t.mains[m]).drive.latch = 3 ∧
      (t.mains[m]).drive.gates = false ∧ t.sense.stuck[ch] = true ∧
      (ch.val % 2 = 0 → (t.mains[m]).drive.stuckA = true) ∧ (ch.val % 2 ≠ 0 → (t.mains[m]).drive.stuckB = true) ∧
      (∀ k, k ≠ m → t.mains[k] = s.mains[k]) ∧
      t = { s with mains := t.mains, log := t.log, mail := t.mail, sense := t.sense }

/-- BITSTREAM_STUCK of a link's voltage or current channel sets the channel's stuck state and its link's VSTUCK or ISTUCK and
marks the value invalid; BITSTREAM_UNSTUCK ends the channel's stuck state and leaves every sticky flag, latch and validity as
they are. Nothing else changes. -/
def Obligations.LinkChannelsGoInvalidWhileStuck : Prop :=
  ∀ (ch : Fin 32) (s : State),
    (∀ l, State.linkOfChannel ch = some l → State.axisOfChannel ch = none → exec (.bitstreamStuck ch) s = .next ((s.setStuck ch true).modLink l fun x =>
      if ch.val % 2 = 0 then { x with vStuck := true, vValid := false } else { x with iStuck := true, iValid := false })) ∧
    ∃ t, exec (.bitstreamUnstuck ch) s = .next t ∧ t.sense.stuck[ch] = false ∧ (∀ k, k ≠ ch → t.sense.stuck[k] = s.sense.stuck[k]) ∧
      t = { s with sense := { s.sense with stuck := t.sense.stuck } }

/-- In every awake state FRAME_TICK answers a state whose frame tick number is one higher modulo 2^40, whose running count and
powered count of ticks are one higher, whose active count is one higher exactly when a group runs, and whose keeper count
gains 0.4096 of a count (32768 Hz over 80 kHz, the fraction kept in ten-thousandths); whatever sample instants, latches and
emergencies fall on the tick, the safety channel, retention RAM, the records of the starts and the lifetime figures stand. A
state that is not awake is unchanged. -/
def Obligations.FrameTickAdvancesTheTime : Prop :=
  ∀ s : State,
    (s.awake = true → ∃ t, exec .frameTick s = .next t ∧ t.time.tick = (s.time.tick + 1) % 1099511627776 ∧ t.time.now = s.time.now + 1 ∧
      t.time.powered = s.time.powered + 1 ∧ t.time.active = (if s.anyRuns then s.time.active + 1 else s.time.active) ∧
      (s.time.keeperFrac < 10000 → t.time.keeper = (s.time.keeper + (s.time.keeperFrac + 4096) / 10000) % 281474976710656 ∧
        t.time.keeperFrac = (s.time.keeperFrac + 4096) % 10000) ∧
      t.safety = s.safety ∧ t.retention = s.retention ∧ t.start = s.start ∧ t.life = s.life) ∧
    (s.awake = false → exec .frameTick s = .next s)

/-- After a check set that no injection disturbs, CHECK_SET_DONE retires the engine that fails where one passes (simplex on the
other), loses compute where both fail, and where both pass either leaves the engines as they are (a check set asked for by a
cluster of transients) or retires MARVER-B and makes the region check due (one asked for by a disagreement).
CLUSTER_CHECK_SET_START begins the check set where a cluster is pending, the engines are idle and in lockstep.
REGION_CRC_CHECK_DONE with the check due ends it and makes an emergency with cause ENGINE due, unless one is due, in exactly
the running groups whose active region fails its CRC or is too long. -/
def Obligations.CheckSetDecidesTheEngines : Prop :=
  ∀ (s : State) (a b : Bool),
    (∀ cause, s.engines.busy = .checkSet cause → (∀ g, cause = some g → s.engInjection g = none) →
      ∃ t, exec (.checkSetDone a b) s = .next t ∧ t.engines.cluster = false ∧
        t.engines.mode = (if a && !b then .simplexA else if b && !a then .simplexB else if !a && !b then .lost
          else if cause.isSome then .simplexA else s.engines.mode) ∧
        (a = true → b = true → cause.isSome = true → t.engines.regionCheck = true) ∧
        t.mains = s.mains ∧ t.nouns = s.nouns ∧ t.requests = s.requests ∧ t.time = s.time) ∧
    (s.engines.cluster = true → s.engines.busy = .idle → s.engines.mode = .lockstep →
      exec .clusterCheckSetStart s = .next { s with engines := { s.engines with busy := .checkSet none } }) ∧
    (s.engines.regionCheck = true → ∃ t, exec .regionCrcCheckDone s = .next t ∧ t.engines.regionCheck = false ∧
      (∀ g : Grp, let rd := s.activeRegion g
        t.groups[g] = if s.runs g = true ∧ (s.gNounN g 0x09 < (rd 1).toNat ∨ programmeCrc rd (rd 1).toNat ≠ (rd 2).toNat)
          then { s.groups[g] with edue := some ((s.groups[g]).edue.getD 1) } else s.groups[g]) ∧
      t = { s with groups := t.groups, engines := { s.engines with regionCheck := false } })

/-- For a pass or retry of group g in lockstep that is not stale and that no injection disturbs, with the error counts of the
result added: if the results agree, SEGMENT_COMPLETE commits the sample (a retry counts a transient) and frees the engines;
if a first pass disagrees, flagged words are repaired and the same segment runs again as a retry, the group in phase
retrying; if a retry disagrees, the sample is not committed, the group is settled, and the engines run the check set at once
where neither flagged a word, else are freed. A stale result is discarded whatever it is and the engines are freed. -/
def Obligations.SegmentsAgreeRetryOrSettle : Prop :=
  ∀ (s : State) (r : SegmentResult) (g : Grp) (retry : Bool),
    let s0 := s.countErrors r
    let both := r.flaggedA.filter fun k => r.flaggedB.contains k
    s.engines.busy = .segment g retry → s.engines.mode = .lockstep → s.engInjection g = none →
    s0.faults.corrected = add32 s.faults.corrected r.corrected ∧
    ((s.groups[g]).stale = true → exec (.segmentComplete r) s = .next (s0.modGroup g fun q => { q with stale := false }).freeEngines) ∧
    ((s.groups[g]).stale = false →
      (r.agree = true → retry = false → exec (.segmentComplete r) s = .next ((s0.loseWords g both).commitSample g).freeEngines) ∧
      (r.agree = true → retry = true →
        exec (.segmentComplete r) s = .next (((s0.loseWords g both).commitSample g).countTransient g).freeEngines) ∧
      (r.agree = false → retry = false → ∃ t, exec (.segmentComplete r) s = .next t ∧ t.engines.busy = .segment g true ∧
        (t.groups[g]).phase = .retrying ∧ t.mains = s.mains ∧ t.auxs = s.auxs ∧ t.nouns = s.nouns ∧ t.time = s.time) ∧
      (r.agree = false → retry = true → r.flaggedA = [] → r.flaggedB = [] → ∃ t, exec (.segmentComplete r) s = .next t ∧
        t.engines.busy = .checkSet (some g) ∧ (t.groups[g]).phase = .settled ∧ t.mains = s.mains ∧ t.nouns = s.nouns ∧ t.time = s.time))

/-- At the compute deadline of a group: where the sample has committed, COMPUTE_DEADLINE only sends the group's exchange; where
it is settled after a second disagreement, the sample is repeated and a repeat exchange sent; in any other phase the group's
overrun count rises by one, the overrun is noted, a pass or retry still running is marked stale so that its results are
discarded, the sample is repeated and a repeat exchange sent. -/
def Obligations.DeadlineAbandonsTheSample : Prop :=
  ∀ (g : Grp) (s : State),
    let q := s.groups[g]
    (q.phase = .none → exec (.computeDeadline g) s = .next (s.sendExchange g false)) ∧
    (q.phase = .settled → exec (.computeDeadline g) s = .next ((s.repeatSample g).sendExchange g true)) ∧
    (q.phase ≠ .none → q.phase ≠ .settled → exec (.computeDeadline g) s = .next (((s.overrun g).repeatSample g).sendExchange g true) ∧
      ((s.overrun g).groups[g]).overruns = inc32 q.overruns ∧ ((s.overrun g).groups[g]).overran = true ∧
      (((s.overrun g).groups[g]).stale = true ↔ q.stale = true ∨ q.phase = .passing ∨ q.phase = .retrying) ∧
      (s.overrun g).mains = s.mains ∧ (s.overrun g).nouns = s.nouns)

/-- For a group in phase filtering, with no test injection armed: FILTER_RESULT_READY takes the captured bits of its axes and
links and makes the group ready; where the engines are busy it stays ready and the engines stand; where they are idle they
run a first pass, and the group is ready or passing. Safety channel, retention, lifetime and time stand. -/
def Obligations.FilterResultsMakeTheGroupReady : Prop :=
  ∀ (g : Grp) (w : List ChannelBits) (s : State), (s.groups[g]).phase = .filtering → bitAt s.test.sinc.toNat 31 = false →
    ∃ t, exec (.filterResultReady (some g) w) s = .next t ∧
      (s.engines.busy ≠ .idle → (t.groups[g]).phase = .ready ∧ t.engines = s.engines) ∧
      (s.engines.busy = .idle → ((t.groups[g]).phase = .ready ∨ (t.groups[g]).phase = .passing) ∧
        ∃ h : Grp, t.engines.busy = .segment h false ∧ (t.groups[h]).phase = .passing) ∧
      t.safety = s.safety ∧ t.retention = s.retention ∧ t.life = s.life ∧ t.time = s.time

/-- CHOPPER_PERIOD_START begins a period: the mismatches of the last period are kept as previous, the feedback is as given, and
the output is on where the committed duty gives an on time of at least the least one. CHOPPER_FEEDBACK_MISMATCH counts a
mismatch, notes it and the side it is on; that is all unless the previous period had one on the same side; with the output on
and off in the feedback twice running the chopper is declared lost; with the feedback on twice running while the output is
off, a short is declared and logged and, by N:0x4l18 = 1, an emergency made due in the link's groups. -/
def Obligations.ChopperFollowsItsDutyAndIsWatched : Prop :=
  ∀ (l : LinkNo) (s : State) (b : Bool),
    let x := s.links[l]
    let s1 := s.modLink l fun x => { x with
      chMis := satInc 65535 x.chMis
      misReport := true
      misHigh := x.misHigh || !x.chFb
      misLow := x.misLow || x.chFb }
    exec (.chopperPeriodStart l b) s = .next (s.modLink l fun x => { x with
      prevHigh := x.misHigh
      prevLow := x.misLow
      misHigh := false
      misLow := false
      chFb := b
      chOut := decide (s.lNoun l 0x05 ≤ x.duty * (1000000000 / s.lNoun l 0x04) / 65536 ∧
        0 < x.duty * (1000000000 / s.lNoun l 0x04) / 65536) }) ∧
    ((x.chFb = false → x.prevHigh = false) → (x.chFb = true → x.prevLow = false ∨ x.chShort = true) →
      exec (.chopperFeedbackMismatch l) s = .next s1) ∧
    (x.chFb = false → x.prevHigh = true → exec (.chopperFeedbackMismatch l) s = .next (s1.chopperLost l false)) ∧
    (x.chFb = true → x.prevLow = true → x.chShort = false → s.lNoun l 0x18 ≠ 1 → exec (.chopperFeedbackMismatch l) s =
      .next ((s1.modLink l fun y => { y with chShort := true }).logEvent sevDetected 0x0504 (objLink l) (s1.links[l]).chMis))

/-- On an axis that is on, in hysteresis mode, with a nonzero set-point: HYSTERESIS_CROSSING rising through the upper threshold
asks the winding's bridge for the decay state, falling through the lower one for drive in the set-point's direction, and the
other two edges ask for nothing; HYSTERESIS_HOLD_EXPIRY asks again for the state held back, if any. A state asked for that
the bridge holds cancels what is held back; one asked for within the blanking time, or a drive within its spacing, is held
back; any other is made at once. Nothing but that winding changes. -/
def Obligations.HysteresisChopperFollowsTheBand : Prop :=
  ∀ (a : AuxNo) (w : Winding) (cd12 : Nat) (s : State),
    let v := State.wind s.auxs[a] w
    let ask := fun b => s.modWind a w fun z => askBridge z (s.cd12At cd12) (s.blankClk a) (s.spacingClk a) b
    s.auxOn a = true →
    (s.aNoun a 0x00 ≠ 1 → v.active ≠ 0 →
      exec (.hysteresisCrossing a w true true cd12) s = .next (ask (s.decayOf a v)) ∧
      exec (.hysteresisCrossing a w false false cd12) s = .next (ask (driveOf (signI v.active))) ∧
      exec (.hysteresisCrossing a w true false cd12) s = .next s ∧ exec (.hysteresisCrossing a w false true cd12) s = .next s) ∧
    (∀ b, v.heldBridge = some b → exec (.hysteresisHoldExpiry a w cd12) s = .next (ask b)) ∧
    (v.heldBridge = none → exec (.hysteresisHoldExpiry a w cd12) s = .next s) ∧
    ∀ (z : WindingSt) (t blank spacing : Int) (b : Bridge),
      (b = z.bridge → askBridge z t blank spacing b = { z with heldBridge := none }) ∧
      (b ≠ z.bridge → t - z.changed < blank → askBridge z t blank spacing b = { z with heldBridge := some b }) ∧
      (b ≠ z.bridge → blank ≤ t - z.changed → b = driveOf (signI z.active) → t - z.driven < spacing →
        askBridge z t blank spacing b = { z with heldBridge := some b }) ∧
      (b ≠ z.bridge → blank ≤ t - z.changed → (b = driveOf (signI z.active) → spacing ≤ t - z.driven) →
        (askBridge z t blank spacing b).bridge = b)

/-- SAR_CONVERSION adds the corrected conversion to the winding's sum, counts it, counts consecutive rail readings, and on an
axis that is on sets the fault latch with reason SENSE-LOST (2) at the eighth in a row. On an axis that is on AUX_OVERCURRENT
sets the latch with reason OVERCURRENT (1) and turns both bridges off, and OPEN_COIL with 64 samples counted in a winding
sets it with reason OPEN-COIL (3). A latch that is set keeps its reason; one newly set is logged. Nothing else changes. -/
def Obligations.AuxFaultsSetTheAxisLatch : Prop :=
  ∀ (a : AuxNo) (w : Winding) (code : BitVec 12) (s : State),
    let rail : Bool := decide ((code.toNat : Int) = 0 ∨ (code.toNat : Int) = 4095)
    let s1 := s.modWind a w fun z => { z with
      sum := z.sum + ((code.toNat : Int) - 2048 - s.aNoun a (match w with
        | .a => 0x05
        | .b => 0x06)) * s.aNoun a 0x04
      count := z.count + 1
      rail := if rail then z.rail + 1 else 0 }
    ((State.wind s1.auxs[a] w).rail < 8 → exec (.sarConversion a w code) s = .next s1) ∧
    (8 ≤ (State.wind s1.auxs[a] w).rail → s.auxOn a = true → exec (.sarConversion a w code) s = .next (s1.setAuxLatch a 2)) ∧
    (s.auxOn a = true → exec (.auxOvercurrent a) s = .next ((s.setAuxLatch a 1).bridgesOff a)) ∧
    (s.auxOn a = true → 64 ≤ (s.auxs[a]).wa.openCount ∨ 64 ≤ (s.auxs[a]).wb.openCount →
      exec (.openCoil a) s = .next (s.setAuxLatch a 3)) ∧
    ∀ why : Fin 5, ((s.auxs[a]).latch = true → s.setAuxLatch a why = s) ∧
      ((s.auxs[a]).latch = false → s.setAuxLatch a why =
        (s.modAux a fun x => { x with latch := true, reason := why }).logEvent sevDetected 0x0702 (objAux a) why.val
          (s.axisSample (.aux a)))

/-- SETTLE_TIME_EXPIRY in homing step SETTLE marks settling due; HOLD_DELAY_EXPIRY with the axis in RUN and its generator at rest
marks the hold due; each changes nothing otherwise. STALL_DETECTED with the stall counter at its limit (and not zero):
seeking with no end or reference yet, it takes the reference position and halts the axis; outside homing it restarts the
counter, sets STALL, clears HOMED, logs the stall, and by N:0x5a17 does nothing more (REPORT), orders a halt (HALT) or stops
the axis with reason STALL (STOP). -/
def Obligations.AuxTimersAndStallsAreTaken : Prop :=
  ∀ (a : AuxNo) (s : State),
    let x := s.auxs[a]
    let n := match s.groupOfAux a with
      | some g => (s.groups[g]).sample.toNat
      | none => 0
    let s1 := s.modAux a fun v => { v with stallCount := 0 }
    let s2 := (s1.modAux a fun v => { v with stall := true, homed := false }).logEvent sevWarn 0x0701 (objAux a) x.lam n
    exec (.settleTimeExpiry a) s = .next (if x.hstep = .settle then s.modAux a fun x => { x with settleDue := true } else s) ∧
    exec (.holdDelayExpiry a) s = .next (if x.state = .run ∧ x.gen.speed = 0 ∧ x.gen.acc = 0 then
      s.modAux a fun x => { x with holdDue := true } else s) ∧
    (s.aNoun a 0x15 ≤ x.stallCount → x.stallCount ≠ 0 →
      (x.hstep = .seek → x.homeEnd = none → x.reference = none →
        exec (.stallDetected a) s = .next ((s1.modAux a fun v => { v with reference := some (s.referenceNow a) }).haltAux a)) ∧
      (x.hstep ≠ .seek → x.hstep ≠ .settle → x.hstep ≠ .backoff →
        (s.aNoun a 0x17 = 0 → exec (.stallDetected a) s = .next s2) ∧
        (∀ g, s.aNoun a 0x17 = 1 → s.groupOfAux a = some g → exec (.stallDetected a) s =
          .next (s2.modGroup g fun q => { q with orders := q.orders ++ [(none, .internalHalt (.aux a))] })) ∧
        (s.aNoun a 0x17 = 2 → exec (.stallDetected a) s = .next (s2.modAux a fun v => { v with stallStop := true, reason := 4 }))))

/-- For encoder e and its unit: disabled, ENCODER_EDGE only stores the lines. Enabled, a change of both lines counts an illegal
transition, sets ILLEGAL, holds the speed and leaves the count. Enabled, without index use, a change of one line moves the
count by the quadrature step, negated under DIRINV: in linear mode within the soft limits to the count plus the step, in
modulo mode with a nonzero modulus to that sum modulo the modulus; past a soft limit the count stays, REF clears and the
limit's flag is set. In every case the lines are stored and no other unit changes. -/
def Obligations.EncoderEdgesCountOneStep : Prop :=
  ∀ (e : Fin 8) (n : FbNo) (a b z : Bool) (cd6 : Nat) (s : State), n.val = e.val →
    let u := s.fb[n]
    let q := quadStep u.a u.b a b
    let sgn := if u.dirInv then -q else q
    ∃ t, exec (.encoderEdge e a b z cd6) s = .next t ∧ (t.fb[n]).a = a ∧ (t.fb[n]).b = b ∧ (t.fb[n]).z = z ∧
      (∀ k, k ≠ n → t.fb[k] = s.fb[k]) ∧ t = { s with fb := t.fb, log := t.log, mail := t.mail, gff := t.gff } ∧
      (u.en = false → t = s.modFb n fun v => { v with a := a, b := b, z := z }) ∧
      (u.en = true → u.a ≠ a → u.b ≠ b → (t.fb[n]).count = u.count ∧ (t.fb[n]).illCnt = inc32 u.illCnt ∧
        (t.fb[n]).flags.getLsbD 4 = true ∧ (t.fb[n]).speedHeld = true) ∧
      (u.en = true → ¬(u.a ≠ a ∧ u.b ≠ b) → q ≠ 0 → u.idxEn = false →
        (u.modulo = false → u.slimLo ≤ u.count + sgn → u.count + sgn ≤ u.slimHi → (t.fb[n]).count = u.count + sgn) ∧
        (u.modulo = true → u.modulus ≠ 0 → (t.fb[n]).count = (u.count + sgn) % u.modulus) ∧
        (u.modulo = false → 0 < sgn → u.slimHi < u.count + sgn → (t.fb[n]).count = u.count ∧ (t.fb[n]).ref = false ∧
          (t.fb[n]).flags.getLsbD 7 = true))

/-- For an enabled resolver unit in linear mode within its soft limits, RESOLVER_EXCITATION_PERIOD moves the count by the wrapped
16-bit change of angle since the last period (none at the first), negated under DIRINV, stores amplitude, angle and signed
speed, and counts consecutive periods with an amplitude below 2000 or above 9500 (in 0.01 % of full scale), adding to the
error count; the third in a row makes a valid unit invalid with cause 3 and clears REF. RESOLVER_TRACKING_ERROR makes an
enabled valid unit invalid with cause 3; RESOLVER_REVALIDATE makes an enabled unit without three bad periods valid and
referenced. A disabled unit is unchanged by the first two. -/
def Obligations.ResolverPeriodsTrackTheAngle : Prop :=
  ∀ (v : Fin 4) (amp : Nat) (angle : BitVec 16) (speed : Int) (s : State),
    let n := State.resUnit v
    let u := s.fb[n]
    let sgn : Int := if u.dirInv then -1 else 1
    let d : Int := match u.lastRaw with
      | some r => sgn * wrap16 ((angle.toNat : Int) - r)
      | none => 0
    (u.en = false → exec (.resolverExcitationPeriod v amp angle speed) s = .next s ∧ exec (.resolverTrackingError v) s = .next s) ∧
    (u.en = true → u.modulo = false → u.slimLo ≤ u.count + d → u.count + d ≤ u.slimHi →
      ∃ t, exec (.resolverExcitationPeriod v amp angle speed) s = .next t ∧ (t.fb[n]).count = u.count + d ∧
        (t.fb[n]).lastRaw = some angle.toNat ∧ (t.fb[n]).data = amp ∧ (t.fb[n]).speed = sgn * speed ∧
        (t.fb[n]).bad = (if amp < 2000 ∨ 9500 < amp then u.bad + 1 else 0) ∧
        (t.fb[n]).errCnt = (if amp < 2000 ∨ 9500 < amp then inc32 u.errCnt else u.errCnt) ∧
        (u.valid = true → ((t.fb[n]).valid = false ↔ 3 ≤ (t.fb[n]).bad)) ∧
        (∀ k, k ≠ n → t.fb[k] = s.fb[k]) ∧ t = { s with fb := t.fb, log := t.log, mail := t.mail }) ∧
    (u.en = true → u.valid = true → ∃ t, exec (.resolverTrackingError v) s = .next t ∧ (t.fb[n]).valid = false ∧
      (t.fb[n]).ref = false ∧ (t.fb[n]).cause = 3 ∧ (t.fb[n]).count = u.count ∧ (∀ k, k ≠ n → t.fb[k] = s.fb[k])) ∧
    exec (.resolverRevalidate v) s = .next (s.modFb n fun u => if u.en && decide (u.bad < 3) then
      { u with valid := true, ref := true } else u)

/-- For an enabled serial unit with a frame begun: SERIAL_FRAME_END ends the frame; a frame that reads well and does not jump
sets the raw position, the data and the sample time of the frame's beginning, clears the bad count, adds to the good count,
and at 16 good frames in a row makes the unit valid and referenced; any other frame adds one to the bad count and the error
count, clears the good count and sets its flag, and the third bad frame in a row makes a valid unit invalid with cause 3. A
unit with no frame begun is unchanged; a disabled one only drops the frame. SPEED_TIMEOUT sets a unit's speed to zero and
nothing else. -/
def Obligations.SerialFramesAreReadOrCounted : Prop :=
  ∀ (p : Fin 4) (f : SerialFrame) (s : State) (k : FbNo),
    let n := State.serUnit p
    let u := s.fb[n]
    let r := State.readSerial u.ucfg.toNat f
    exec (.speedTimeout k) s = .next (s.modFb k fun u => { u with speed := 0 }) ∧
    (u.frameAt = none → exec (.serialFrameEnd p f) s = .next s) ∧
    ∀ at_, u.frameAt = some at_ →
      (u.en = false → exec (.serialFrameEnd p f) s = .next (s.modFb n fun v => { v with frameAt := none })) ∧
      (u.en = true → ∃ t, exec (.serialFrameEnd p f) s = .next t ∧ (t.fb[n]).frameAt = none ∧
        (∀ j, j ≠ n → t.fb[j] = s.fb[j]) ∧ t = { s with fb := t.fb, log := t.log, mail := t.mail } ∧
        (r.ok = true → State.jumped u r.pos = false → (t.fb[n]).lastRaw = some r.pos ∧ (t.fb[n]).data = r.data ∧
          (t.fb[n]).sampledAt = some at_ ∧ (t.fb[n]).good = u.good + 1 ∧ (t.fb[n]).bad = 0 ∧
          ((t.fb[n]).valid = true ↔ u.valid = true ∨ 16 ≤ u.good + 1)) ∧
        ((r.ok = false ∨ State.jumped u r.pos = true) → (t.fb[n]).bad = u.bad + 1 ∧ (t.fb[n]).good = 0 ∧
          (t.fb[n]).errCnt = inc32 u.errCnt ∧ (t.fb[n]).flags.getLsbD 1 = true ∧ (t.fb[n]).count = u.count ∧
          (u.valid = true → ((t.fb[n]).valid = false ↔ 3 ≤ u.bad + 1))))

/-- SWITCH_SAMPLE of 24 raw levels counts one sample, and for each switch: a raw level equal to the filtered one restarts its
count; one that differs is counted, and when the count reaches the filter value (at least 1) the filtered level turns to it
and the count restarts. CHATTER of no switch clears. CHATTER_CLEARED of a switch with CHATTER clears it and logs the event,
and otherwise changes nothing. Only the switches, the log, the mailbox and the gather FIFO change. -/
def Obligations.SwitchesAreFiltered : Prop :=
  ∀ (levels : BitVec 24) (cd6 : Nat) (i : Fin 24) (s : State),
    (∃ t, exec (.switchSample levels cd6) s = .next t ∧ t.switches.samples = s.switches.samples + 1 ∧
      t = { s with switches := t.switches, log := t.log, mail := t.mail, gff := t.gff } ∧
      ∀ j : Fin 24, let raw := levels.getLsbD j.val
        let old := s.switches.level.getLsbD j.val
        let turns : Prop := maxI 1 (s.switches.filter[j]).toNat ≤ s.switches.held[j] + 1
        (raw = old → t.switches.level.getLsbD j.val = old ∧ t.switches.held[j] = 0) ∧
        (raw ≠ old → turns → t.switches.level.getLsbD j.val = raw ∧ t.switches.held[j] = 0 ∧ t.switches.edge.getLsbD j.val = true) ∧
        (raw ≠ old → ¬turns → t.switches.level.getLsbD j.val = old ∧ t.switches.held[j] = s.switches.held[j] + 1) ∧
        (s.switches.chatter.getLsbD j.val = true → t.switches.chatter.getLsbD j.val = true)) ∧
    (s.switches.chatter.getLsbD i.val = true → exec (.chatterCleared i) s =
      .next (({ s with switches := { s.switches with chatter := s.switches.chatter &&& ~~~(1#24 <<< i.val) } } : State).logEvent
        sevInfo 0x0705 0 i.val)) ∧
    (s.switches.chatter.getLsbD i.val = false → exec (.chatterCleared i) s = .next s)

/-- In sleep KEEPER_ENCODER_SAMPLE advances the 48-bit keeper count by one; in sleep and in the warm start that follows it
counts, in retention RAM, the filtered lines of each encoder unit 0 to 3 that is kept, and leaves the retained count of a
unit that is not. In any other phase nothing changes. Only retention RAM and the time change. -/
def Obligations.KeeperCountsInSleep : Prop :=
  ∀ (a b : BitVec 4) (s : State),
    (s.power.phase = .asleep → ∃ t, exec (.keeperEncoderSample a b) s = .next t ∧ t.time = { s.time with keeper := (s.time.keeper + 1) % 2 ^ 48 } ∧
      t = { s with retention := t.retention, time := t.time } ∧
      ∀ (e : Fin 4) (n : FbNo), n.val = e.val → (s.fb[n]).keep = false → t.retention.delta[e] = s.retention.delta[e] ∧
        t.retention.keepAB[e] = s.retention.keepAB[e]) ∧
    (s.power.phase = .warmStart → ∃ t, exec (.keeperEncoderSample a b) s = .next t ∧ t = { s with retention := t.retention }) ∧
    (s.power.phase ≠ .asleep → s.power.phase ≠ .warmStart → exec (.keeperEncoderSample a b) s = .next s)

/-- SAFETY_INPUT_SAMPLE passes each E-stop input through a filter of 50 samples and each feedback input and SRESET through one of
100 (a filter takes a new level at its last differing sample in a row, and forgets at an agreeing one). Where no feedback
input turns, a group that an E-stop with function STO maps, and that is in OFF, RUN, SS1 or BRAKING when that E-stop becomes
active, is LATCHED afterwards with its STO de-energised. Nothing but the safety channel, the main axes' parked angles, the
mailbox and the log changes. -/
def Obligations.SafetyInputsAreFilteredAndEstopsLatch : Prop :=
  ∀ (ctf : Byte) (sreset e0 e1 : Bool) (s : State),
    let levels := (s.safety.estop.set 0 (filterSample 50 s.safety.estop[0] e0)).set 1 (filterSample 50 s.safety.estop[1] e1)
    let s1 := s.modSafety fun q => { q with estop := levels }
    ∃ t, exec (.safetyInputSample ctf sreset e0 e1) s = .next t ∧ t.safety.estop = levels ∧
      t.safety.sreset = filterSample 100 s.safety.sreset sreset ∧
      (∀ i : Fin 8, t.safety.ctf[i] = filterSample 100 s.safety.ctf[i] (ctf.getLsbD i.val)) ∧
      ((∀ i : Fin 8, (filterSample 100 s.safety.ctf[i] (ctf.getLsbD i.val)).level = (s.safety.ctf[i]).level) →
        ∀ (e : Fin 2) (i : StoNo), s1.estopActive e = true → s.estopActive e = false →
          bitAt (s.safeNounN (0x6600 + 16 * e.val)) i.val = true → s.safeNoun (0x6601 + 16 * e.val) = 0 →
          (s.safety.groups[i]).state ≠ .latched → (s.safety.groups[i]).state ≠ .fault →
          (t.safety.groups[i]).state = .latched ∧ (t.safety.groups[i]).sto = false) ∧
      t = { s with safety := t.safety, mains := t.mains, mail := t.mail, log := t.log } ∧
      ∀ (n : Nat) (x : InSt) (raw : Bool),
        (raw = x.level → filterSample n x raw = { x with held := 0 }) ∧
        (raw ≠ x.level → n ≤ x.held + 1 → filterSample n x raw = { level := raw, held := 0 }) ∧
        (raw ≠ x.level → x.held + 1 < n → filterSample n x raw = { x with held := x.held + 1 })

/-- MONITORING_MESSAGE_ASSEMBLY on an awake module raises the sequence number by one modulo 65536 and sends a message with the
observer speed, the sensor speed and the sensor's health of every main axis, the torque request bits, and for each BRK output
whether some axis that names it requests release; in safe hold no request is set. The close request bits are a free value
(log entry 2), 0 in safe hold. A module not awake sends nothing. SAFETY_STATUS_WRITE writes the state and cause of every
group, the commanded outputs and the confirmed states. Nothing else changes. -/
def Obligations.MonitoringMessagesAreAssembledAndWritten : Prop :=
  ∀ s : State,
    (s.awake = false → exec .monitoringMessageAssembly s = .next s) ∧
    (s.awake = true → ∃ t m, exec .monitoringMessageAssembly s = .next t ∧ t.requests.sent = some m ∧
      m.seq = s.requests.seq + 1 ∧ t.requests.seq = m.seq ∧ t.requests.release = m.release ∧
      (∀ k : Main, m.speed[k] = (s.mains[k]).eng.speed ∧ m.sensor[k] = s.sensorSpeed k ∧ m.healthy[k] = s.sensorOk k) ∧
      (s.start.safeHold = true → m.torque = 0 ∧ m.release = 0 ∧ m.close = 0) ∧
      (s.start.safeHold = false → m.torque = s.requests.torque ∧
        ∀ b : Fin 4, m.release.getLsbD b.val = (fins 12).any fun k => s.brakeOf k == some b && (s.mains[k]).comm.release) ∧
      t = { s with requests := t.requests, free := s.free + 1 }) ∧
    ∃ t, exec .safetyStatusWrite s = .next t ∧ t = { s with requests := { s.requests with words := t.requests.words } } ∧
      ∀ i : Fin 4, t.requests.words.state[i] = (s.safety.groups[i]).state ∧ t.requests.words.cause[i] = (s.safety.groups[i]).cause ∧
        t.requests.words.stopReq.getLsbD i.val = (s.safety.groups[i]).stopReq ∧
        t.requests.words.brkOn.getLsbD i.val = (s.safety.brakes[i]).on ∧
        t.requests.words.applied.getLsbD i.val = s.brakeReported i ∧ t.requests.words.released.getLsbD i.val = s.releaseConfirmed i ∧
        t.requests.words.ctdOn.getLsbD i.val = (s.safety.contactors[i]).on

/-- MONITORING_MESSAGE: with no intact copy the run of valid messages ends, and the last intact and last valid messages stay.
Otherwise the first intact copy becomes the last intact message; if its speeds are plausible it becomes the last valid one,
the run grows by one, and monitoring lost ends at the 16th; if not, the run ends and the last valid one stays. Each lane
counts its copies not intact in a row and is lost at the third. MONITORING_LOST sets monitoring lost and takes every group in
RUN or SS1 to torque-off with cause MONITOR-LOST: LATCHED with STO off at once without BRAKE-FIRST. -/
def Obligations.MonitoringMessagesAreJudged : Prop :=
  ∀ (a b : Option LaneCopy) (s : State),
    (∃ t, exec (.monitoringMessage a b) s = .next t ∧
      (∀ k : Fin 2, t.safety.laneMiss[k] = (if s.intact (if k = 0 then a else b) then 0 else s.safety.laneMiss[k] + 1)) ∧
      (∀ k : Fin 2, s.intact (if k = 0 then a else b) = false → 2 ≤ s.safety.laneMiss[k] → t.safety.laneLost[k] = true) ∧
      (s.intact a = false → s.intact b = false → t.safety.validRun = 0 ∧ t.safety.last = s.safety.last ∧
        t.safety.lastValid = s.safety.lastValid ∧ t.safety.groups = s.safety.groups ∧ t.safety.monLost = s.safety.monLost) ∧
      (∀ k, (if s.intact a then a else if s.intact b then b else none) = some k → t.safety.last = some k.msg ∧
        (s.plausible k.msg = true → t.safety.lastValid = some k.msg ∧ t.safety.validRun = s.safety.validRun + 1 ∧
          t.safety.monLost = (s.safety.monLost && decide (s.safety.validRun + 1 < 16))) ∧
        (s.plausible k.msg = false → t.safety.lastValid = s.safety.lastValid ∧ t.safety.validRun = 0 ∧
          t.safety.groups = s.safety.groups)) ∧
      t = { s with safety := t.safety, mains := t.mains, mail := t.mail, log := t.log }) ∧
    ∃ t, exec .monitoringLost s = .next t ∧ t.safety.monLost = true ∧ t.safety.validRun = 0 ∧
      (∀ i : StoNo, (s.safety.groups[i]).state = .run ∨ (s.safety.groups[i]).state = .ss1 →
        (t.safety.groups[i]).cause = 7 ∧ ((t.safety.groups[i]).state = .braking ∨ (t.safety.groups[i]).state = .latched) ∧
        (s.sNoun i 3 ≠ 1 → (t.safety.groups[i]).state = .latched ∧ (t.safety.groups[i]).sto = false)) ∧
      t = { s with safety := t.safety, mains := t.mains }

/-- READBACK_MISMATCH reports that the readback of an output has differed from its commanded level for more than 50 µs. During a
dark pulse on that output it changes nothing. Outside one it is a channel fault with cause READBACK (2) and the output's
index, and the first fault's cause and index are recorded. -/
def Obligations.ReadbackMismatchIsAChannelFault : Prop :=
  ∀ (o : SafeOut) (s : State),
    (s.safety.pulse = some o → exec (.readbackMismatch o) s = .next s) ∧
    (s.safety.pulse ≠ some o → ∃ t, exec (.readbackMismatch o) s = .next t ∧ t = s.channelFault 2 o.val ∧
      (s.safety.fcause = 0 → t.safety.fcause = 2 ∧ t.safety.findex = o.val) ∧
      (s.safety.fcause ≠ 0 → t.safety.fcause = s.safety.fcause ∧ t.safety.findex = s.safety.findex))

/-- A channel fault leaves every group in FAULT, with STO off at once in a group without BRAKE-FIRST that was not in FAULT, and
logs one event. SAFETY_PARAM_CRC_CHECK raises it (MEMORY) only for a failed CRC, KSAFE_CLOCK_CHECK (CLOCK) only for a count
outside 879 to 1074, KEEP_CLOCK_LOSS always. DARK_PULSE_START begins a pulse on an energised output when none is in progress;
DARK_PULSE_END ends the pulse, without judging one a demand has voided, and raises STUCK-ON where the readback stayed
energised, READBACK where it did not return. -/
def Obligations.ChannelFaultsTakeEveryGroupToFault : Prop :=
  ∀ s : State,
    (∀ (c n : Nat) (i : StoNo), ((s.channelFault c n).safety.groups[i]).state = .fault ∧
      ((s.safety.groups[i]).state ≠ .fault → ((s.channelFault c n).safety.groups[i]).cause = 11 ∧
        (s.sNoun i 3 ≠ 1 → ((s.channelFault c n).safety.groups[i]).sto = false))) ∧
    exec (.safetyParamCrcCheck true) s = .next s ∧
    exec (.safetyParamCrcCheck false) s = .next ((s.modSafety fun q => { q with paramOk := false }).channelFault 6 0) ∧
    (∀ n, 879 ≤ n → n ≤ 1074 → exec (.ksafeClockCheck n) s = .next s) ∧
    (∀ n, n < 879 ∨ 1074 < n → exec (.ksafeClockCheck n) s = .next (s.channelFault 5 0)) ∧
    exec .keepClockLoss s = .next (s.channelFault 5 0) ∧
    ∀ (o : SafeOut) (fell rose : Bool),
      let ended := s.modSafety fun q => { q with pulse := none, pulseVoid := false }
      (s.outOn o = true → s.safety.pulse = none →
        exec (.darkPulseStart o) s = .next (s.modSafety fun q => { q with pulse := some o, pulseVoid := false })) ∧
      (s.outOn o = false ∨ s.safety.pulse ≠ none → exec (.darkPulseStart o) s = .next s) ∧
      (s.safety.pulse ≠ some o → exec (.darkPulseEnd o fell rose) s = .next s) ∧
      (s.safety.pulse = some o → s.safety.pulseVoid = true ∨ (fell = true ∧ rose = true) → exec (.darkPulseEnd o fell rose) s = .next ended) ∧
      (s.safety.pulse = some o → s.safety.pulseVoid = false → fell = false →
        exec (.darkPulseEnd o fell rose) s = .next (ended.channelFault 1 o.val)) ∧
      (s.safety.pulse = some o → s.safety.pulseVoid = false → fell = true → rose = false →
        exec (.darkPulseEnd o fell rose) s = .next (ended.channelFault 2 o.val))

/-- BRAKE_TIMER_EXPIRY of a brake whose time runs: without feedback input the brake is applied where its output is off and
released where it is on, and the channel settles; with one, a feedback not in the commanded state is a BRAKE-FEEDBACK fault,
else the channel settles. CONTACTOR_DISCREPANCY of a contactor whose time runs raises CONTACTOR for its first feedback not in
the commanded state, else ends the time. BRAKE_TIMEOUT of a brake not reported applied gives every group waiting for it cause
BRAKE-TIMEOUT; of a reported one only settles. A time that does not run changes nothing. -/
def Obligations.BrakeAndContactorTimesAreJudged : Prop :=
  ∀ (b : Fin 4) (s : State),
    let x := s.safety.brakes[b]
    let s1 := s.modBrake b fun o => { o with timing := false, applied := !x.on, released := x.on }
    let c1 := s.modContactor b fun o => { o with timing := false }
    (x.timing = false → exec (.brakeTimerExpiry b) s = .next s) ∧
    (x.timing = true → s.brakeInput b = none → exec (.brakeTimerExpiry b) s = .next s1.settleSafety ∧ s1.brakeReported b = !x.on) ∧
    (∀ i, x.timing = true → s.brakeInput b = some i →
      ((s.safety.ctf[i]).level = x.on → exec (.brakeTimerExpiry b) s = .next (s1.channelFault 3 i.val)) ∧
      ((s.safety.ctf[i]).level ≠ x.on → exec (.brakeTimerExpiry b) s = .next s1.settleSafety)) ∧
    ((s.safety.contactors[b]).timing = false → exec (.contactorDiscrepancy b) s = .next s) ∧
    ((s.safety.contactors[b]).timing = true →
      (s.contactorWrong b = [] → exec (.contactorDiscrepancy b) s = .next c1) ∧
      (∀ i l, s.contactorWrong b = i :: l → (s.safety.ctf[i]).level = (s.safety.contactors[b]).on ∧
        exec (.contactorDiscrepancy b) s = .next (c1.channelFault 4 i.val))) ∧
    (s.brakeReported b = true → x.on = false → exec (.brakeTimeout b) s = .next s.settleSafety) ∧
    (s.brakeReported b = false ∨ x.on = true → ∃ t, exec (.brakeTimeout b) s = .next t ∧
      (∀ i : StoNo, State.stoWaits s.safety.groups[i] = true → (s.safety.groups[i]).waitBrakes.getLsbD b.val = true →
        (t.safety.groups[i]).cause = 10) ∧
      (∀ i : StoNo, State.stoWaits s.safety.groups[i] = false → t.safety.groups[i] = s.safety.groups[i]) ∧
      t = { s with safety := t.safety, mains := t.mains })

/-- SS1_TIME_ELAPSED takes a group in SS1 to torque-off: LATCHED with STO off without BRAKE-FIRST; cause SS1-TIMEOUT only under
SS1-b with a main axis mask; any other group stays. ESTOP_PAIR_DISCREPANCY with pairing on and the inputs different sets
PAIRERR and gives cause ESTOP-PAIR to every mapped group not in FAULT, and nothing else. KEEPER_PORT_MESSAGE: a ledger
message changes nothing, a temperature is stored, a reset request moves to OFF exactly the LATCHED groups no active E-stop
maps, where the source allows it and no pairing error is outstanding. A failed message is discarded and logged. -/
def Obligations.StopTimesPairingAndKeeperMessagesAreTaken : Prop :=
  ∀ (i : StoNo) (s : State),
    ((s.safety.groups[i]).state ≠ .ss1 → exec (.ss1TimeElapsed i) s = .next s) ∧
    ((s.safety.groups[i]).state = .ss1 → s.sNoun i 3 ≠ 1 → ∃ t, exec (.ss1TimeElapsed i) s = .next t ∧
      (t.safety.groups[i]).state = .latched ∧ (t.safety.groups[i]).sto = false ∧
      (t.safety.groups[i]).cause = (if s.sNoun i 5 = 1 ∧ s.sNoun i 0 ≠ 0 then 6 else (s.safety.groups[i]).cause)) ∧
    (s.safeNoun 0x6F01 = 1 → (s.safety.estop[0]).level ≠ (s.safety.estop[1]).level →
      ∃ t, exec .estopPairDiscrepancy s = .next t ∧ t.safety.pairErr = true ∧
        (∀ k : StoNo, t.safety.groups[k] = if bitAt (s.safeNounN 0x6600) k.val = true ∧ (s.safety.groups[k]).state ≠ .fault then
          { s.safety.groups[k] with cause := 9 } else s.safety.groups[k]) ∧
        t = { s with safety := { s.safety with pairErr := true, groups := t.safety.groups } }) ∧
    (s.safeNoun 0x6F01 ≠ 1 ∨ (s.safety.estop[0]).level = (s.safety.estop[1]).level → exec .estopPairDiscrepancy s = .next s) ∧
    exec (.keeperPortMessage true true .ledger) s = .next s ∧
    (∀ c, exec (.keeperPortMessage true true (.temperature c)) s = .next { s with life := { s.life with control := c } }) ∧
    (∀ c q p, (c && q) = false → ∃ e n, exec (.keeperPortMessage c q p) s = .next (s.drawn.logEvent e n 0x6F0F)) ∧
    (s.safeNoun 0x6F03 ≠ 0 → s.safety.pairErr = false → ∃ t, exec (.keeperPortMessage true true .resetRequest) s = .next t ∧
      (∀ k : StoNo, t.safety.groups[k] = if (s.safety.groups[k]).state = .latched ∧ s.estopHolds k = false then
          { s.safety.groups[k] with state := .off } else s.safety.groups[k]) ∧ t = { s with safety := t.safety, mail := t.mail }) ∧
    (s.safeNoun 0x6F03 = 0 ∨ s.safety.pairErr = true → ∃ t, exec (.keeperPortMessage true true .resetRequest) s = .next t ∧
      t = { s with mail := t.mail })

/-- In emergency mode SS1, EMERGENCY_SS1_TIME_ELAPSED in the stopping phase begins the braking phase and clears the release
request of every axis whose brake is in a brake mask of the STO groups that only this group uses; EMERGENCY_BRAKE_WAIT_EXPIRY
in the braking phase ends it and clears exactly those groups' torque requests. Otherwise each changes nothing.
COMPUTE_LOST_BRAKE_WINDOW_EXPIRY with both engines lost clears every torque request and stops every group; with an engine
left it changes nothing. -/
def Obligations.EmergencyAndLossTimesCutTorque : Prop :=
  ∀ (g : Grp) (s : State),
    let q := s.groups[g]
    (¬(q.eactive = true ∧ q.emode = 1 ∧ q.ephase = 0) → exec (.emergencySs1TimeElapsed g) s = .next s) ∧
    (q.eactive = true → q.emode = 1 → q.ephase = 0 → ∃ t, exec (.emergencySs1TimeElapsed g) s = .next t ∧ (t.groups[g]).ephase = 1 ∧
      (∀ (i : StoNo) (b : Fin 4) (m : Main), i ∈ s.ownStos g → bitAt (s.stoBrakes i) b.val = true → s.brakeOf m = some b → (t.mains[m]).comm.release = false) ∧
      (∀ k : Grp, k ≠ g → t.groups[k] = s.groups[k]) ∧
      t = { s with groups := t.groups, mains := t.mains, auxs := t.auxs, mail := t.mail }) ∧
    (¬(q.eactive = true ∧ q.emode = 1 ∧ q.ephase = 1) → exec (.emergencyBrakeWaitExpiry g) s = .next s) ∧
    (q.eactive = true → q.emode = 1 → q.ephase = 1 → ∃ t, exec (.emergencyBrakeWaitExpiry g) s = .next t ∧
      t = { s with requests := { s.requests with torque := t.requests.torque }, groups := vmod s.groups g fun q => { q with ephase := 2 } } ∧
      ∀ i : StoNo, t.requests.torque.getLsbD i.val = (s.requests.torque.getLsbD i.val && !(s.ownStos g).contains i)) ∧
    (s.engines.mode ≠ .lost → exec .computeLostBrakeWindowExpiry s = .next s) ∧
    (s.engines.mode = .lost → ∃ t, exec .computeLostBrakeWindowExpiry s = .next t ∧ t.requests.torque = 0 ∧
      (∀ k : Grp, (t.groups[k]).running = false) ∧ t.requests = { s.requests with torque := 0 } ∧ t.safety = s.safety)

/-- CHECKPOINT while the firmware serves (in the ROM or with the firmware running) with no CLEAR or CAPTURE waiting leaves the
journal empty, adds its log records in their order, moves the older buffer's state on and the newer one to good, adds one to
the heartbeat and stores the figures measured. A module that does not serve is unchanged. With a CLEAR of the ledger waiting
and the firmware running, every total of the ledger reads zero after, the epoch grows by one modulo 2^32, and no CLEAR waits. -/
def Obligations.CheckpointsReleaseTheJournal : Prop :=
  ∀ (vin : Nat) (control keeper : Int) (s : State),
    (s.serving = false → exec (.checkpoint vin control keeper) s = .next s) ∧
    (s.serving = true → ∃ t, exec (.checkpoint vin control keeper) s = .next t ∧
      t.mail.heartbeat = s.mail.heartbeat + 1 ∧ t.faults = { s.faults with newerOk := true, olderOk := s.faults.newerOk } ∧
      t.life = { s.life with vin, control, keeper } ∧
      (s.ledger.clearDue = none → s.store.capture = none → t.mail.output = [] ∧ t.store = s.store ∧
        t.log = (s.mail.output.filterMap fun o => match o with
          | .log r => some r
          | _ => none).foldl addRecord s.log) ∧
      (s.fwRuns = false → t.ledger = s.ledger ∧ t.store = s.store) ∧
      (∀ k, s.fwRuns = true → s.ledger.clearDue = some k → t.ledger.clearDue = none ∧ t.ledger.epoch = s.ledger.epoch + 1 ∧
        t.ledger.totals = []) ∧
      (∀ k, s.fwRuns = true → s.store.capture = some k → t.store.capture = none ∧ sget 0 t.store.staged 0 = 0x43464B4E))

/-- CORE_MISMATCH with the firmware running: with none in the last 100 ms and a good newer or older checkpoint it counts a
rollback, remembers the time and logs which checkpoint was taken, and changes nothing else. One within 100 ms of the last, on
the original pair with a good spare core and a working core that passes, pairs the spare with core 0 if that passed, else
with core 1, and logs it. With no good checkpoint, no original pair or neither core good, the processor is lost and every
running group is asked into its emergency mode. Without the firmware nothing changes. -/
def Obligations.MismatchesRollBackPairOrLose : Prop :=
  ∀ (newerOk c0 c1 : Bool) (s : State),
    let again : Prop := ∃ t, s.faults.mismatchAt = some t ∧ s.time.now ≤ t + 8000
    let newer := newerOk && s.faults.newerOk
    let f := s.faults
    (s.fwRuns = false → exec (.coreMismatch newerOk c0 c1) s = .next s) ∧
    (s.fwRuns = true → ¬again → newer = true ∨ f.olderOk = true → exec (.coreMismatch newerOk c0 c1) s =
      .next (({ s with faults := { f with rollbacks := inc32 f.rollbacks, mismatchAt := some s.time.now } } : State).logEvent
        sevMasked 0x0A10 0x7000 (if newer then 0 else 1))) ∧
    (s.fwRuns = true → again → f.cpu = .original → f.puntyGood = true → c0 = true ∨ c1 = true →
      exec (.coreMismatch newerOk c0 c1) s = .next (({ s with faults := { f with
        cpu := if c0 then .puntyWith0 else .puntyWith1
        puntyPower := true
        mismatchAt := none } } : State).logEvent sevExposure (if c0 && c1 then 0x0A12 else 0x0A11) 0x7000 (if c0 then 1 else 0))) ∧
    (s.fwRuns = true → (¬again ∧ newer = false ∧ f.olderOk = false) ∨
        (again ∧ (f.cpu ≠ .original ∨ f.puntyGood = false ∨ (c0 = false ∧ c1 = false))) →
      ∃ t, exec (.coreMismatch newerOk c0 c1) s = .next t ∧ t.faults = { f with cpu := .lost } ∧
        (∀ g : Grp, s.runs g = true → (t.groups[g]).edue.isSome = true) ∧ t.safety = s.safety ∧ t.mains = s.mains)

/-- LIFE_ACCUMULATOR_SAMPLE adds the ageing of 1 s at the control-die temperature plus 6 °C awake, of 60 s at the keeper-die
temperature plus 10 °C asleep (then the keeper's time and powered time also pass 60 s), carrying the fraction on (log entry
5). HOURLY_SAVE saves the times and the accumulator awake or asleep. SCRUB_PASS awake counts the words corrected and
uncorrectable, saturating; clean passes over any store change only the counts; an uncorrectable coefficient word in lockstep
is repaired from the twin; an uncorrectable retention word invalidates the retained data. -/
def Obligations.LifeIsAccumulatedSavedAndStoresAreScrubbed : Prop :=
  ∀ s : State,
    let grown := fun (tenths : Int) (sec : Nat) (t : State) =>
      t.life.acc = (s.life.acc + (s.life.rest + Config.ageing tenths sec) / 4294967296) % 2 ^ 64 ∧
      t.life.rest = (s.life.rest + Config.ageing tenths sec) % 4294967296
    (s.awake = true ∨ s.power.phase = .romHold → ∃ t, exec .lifeAccumulatorSample s = .next t ∧ grown (s.life.control + 60) 1 t ∧
      t = { s with life := t.life, store := t.store }) ∧
    (s.power.phase = .asleep → ∃ t, exec .lifeAccumulatorSample s = .next t ∧ grown (s.life.keeper + 100) 60 t ∧
      t.time.powered = s.time.powered + 4800000 ∧ t.time.keeper = (s.power.minuteAt + 1966080) % 281474976710656 ∧
      t = { s with life := t.life, store := t.store, time := t.time, power := t.power }) ∧
    (s.awake = true ∨ s.power.phase = .asleep → exec .hourlySave s = .next { s with
      time := { s.time with savedPowered := s.time.powered, savedActive := s.time.active }
      life := { s.life with saved := s.life.acc } }) ∧
    ∀ (st : ScrubStore) (f : ScrubFinding),
      let counted : State := { s with faults := { s.faults with
        corrected := add32 s.faults.corrected f.corrected
        uncorrectable := add32 s.faults.uncorrectable f.uncorrectable } }
      (s.awake = true ∨ (st = .retention ∧ s.power.phase = .asleep) →
        (st = .sram ∨ st = .retention → f.uncorrectable = 0 → exec (.scrubPass st f) s = .next counted) ∧
        (st = .firmware → f.badImage = none → exec (.scrubPass st f) s = .next counted) ∧
        (st = .coefA ∨ st = .coefB → f.words = [] → s.engines.mode ≠ .simplexA → s.engines.mode ≠ .simplexB →
          exec (.scrubPass st f) s = .next counted) ∧
        (∀ k, st = .coefA → f.words = [k] → s.engines.mode = .lockstep → exec (.scrubPass st f) s = .next
          (({ counted with engines := { s.engines with storeA := sput 0 s.engines.storeA k.val (sget 0 s.engines.storeB k.val) } } : State).logEvent
            sevMasked 0x0A06 0x7000 k.val)) ∧
        (st = .retention → f.uncorrectable ≠ 0 → ∃ t, exec (.scrubPass st f) s = .next t ∧ t.retention.valid = false ∧ t.faults = counted.faults)) ∧
      (s.awake = false → st ≠ .retention ∨ s.power.phase ≠ .asleep → exec (.scrubPass st f) s = .next s)

/-- BLOCK_REFRESH with the firmware running, no COMMIT writing and a block due rewrites a due block that no due block is older
than: verified, its age restarts and it is no longer due by a loss of VIN, and nothing but store figures changes. With none
due, or the firmware not running, or a COMMIT writing, it changes nothing. COMMIT_WRITE_DONE of the COMMIT that writes: with
every block verified and the store not exhausted the target is valid with SEQ one above the highest valid SEQ and the staged
image, the other copy stays, the ticket completes, and nothing writes. An exhausted store leaves the target invalid. -/
def Obligations.BlocksAreRefreshedAndCommitsEndWithTheHeader : Prop :=
  ∀ s : State,
    (s.dueList = [] ∨ s.fwRuns = false ∨ s.store.busy.isSome = true → ∀ v, exec (.blockRefresh v) s = .next s) ∧
    (s.dueList ≠ [] → s.fwRuns = true → s.store.busy = none → ∃ b, b ∈ s.dueList ∧ (∀ c ∈ s.dueList, s.writtenAt b ≤ s.writtenAt c) ∧
      ∃ t, exec (.blockRefresh true) s = .next t ∧ t.store.stale = s.store.stale.filter (fun k => k != b) ∧
        t.store.written = sput 0 s.store.written b s.life.acc ∧
        t = { s with store := { s.store with written := t.store.written, stale := t.store.stale, due := t.store.due, oldest := t.store.oldest } }) ∧
    (s.store.busy = none ∨ s.fwRuns = false → ∀ f, exec (.commitWriteDone f) s = .next s) ∧
    ∀ (k : Nat) (c : Fin 2), s.store.busy = some (k, c) → s.fwRuns = true →
      (s.store.exhausted = false → ∃ t, exec (.commitWriteDone []) s = .next t ∧ t.store.busy = none ∧
        (t.store.copies[c]).valid = true ∧ (t.store.copies[c]).seq = s.highestSeq + 1 ∧
        (t.store.copies[c]).image = expand (sget 0 s.store.staged 2).toNat 0 s.store.staged ∧
        (∀ o : Fin 2, o ≠ c → t.store.copies[o] = s.store.copies[o]) ∧ (∀ i : Fin 32, ∀ w ∈ t.store.stale, w ≠ 4096 + 32 * c.val + i.val) ∧
        t.faults = s.faults) ∧
      (s.store.exhausted = true → ∃ t, exec (.commitWriteDone []) s = .next t ∧ t.store.busy = none ∧
        (t.store.copies[c]).valid = false ∧ (∀ o : Fin 2, o ≠ c → t.store.copies[o] = s.store.copies[o]))

/-- While the link is down a frame returns nothing. A write frame (WR = 1) whose command CRC, range, length, data CRC or HRDY
fails sets a bit of MBX_ERR and changes nothing else but the words on HMISO; a good one that names only slots it may write
applies its data words, in order, at consecutive word addresses. A read frame changes nothing but MBX_ERR, HMISO and captured
H halves; a good full one of one word returns the status word, the register and its CRC. READ_L_REGISTER captures the H half
of the pair; REGISTER_PAIR_WRITE applies its two words. Unassigned addresses ignore a write. -/
def Obligations.HostFramesAreAppliedWholeOrNotAtAll : Prop :=
  ∀ (f : HostFrame) (s : State),
    (∀ c ∈ [Instr.hostWriteFrame f, Instr.hostReadFrame f],
      (s.hostUp = false → exec c s = .next { s with mail := { s.mail with miso := [] } }) ∧
      ∀ w r, s.hostUp = true → f.words = w :: r →
        let k := State.readCommand w
        let data := r.take k.n
        (k.write = true →
          let fine := k.crcOk = true ∧ k.inRange = true ∧ r.length = k.n + 1 ∧ f.partialWord = false ∧ f.hrdyLow = false ∧
            (r.getD k.n 0).toNat = State.dataCrc data
          (¬fine → ∃ t, exec c s = .next t ∧ t = { s with mail := { s.mail with miso := t.mail.miso, err := t.mail.err } } ∧
            ∃ b, b < 6 ∧ t.mail.err.getLsbD b = true) ∧
          (fine → s.slotsAllow (State.frameCells k.addr data) = true →
            ∃ m, exec c s = .next (({ s with mail := { s.mail with miso := m } } : State).applyCells (State.frameCells k.addr data))) ∧
          (fine → s.slotsAllow (State.frameCells k.addr data) = false →
            ∃ t, exec c s = .next t ∧ t = { s with mail := { s.mail with miso := t.mail.miso, err := s.mail.err ||| 0b010000#6 } })) ∧
        (k.write = false → ∃ t, exec c s = .next t ∧
          t = { s with mail := { s.mail with miso := t.mail.miso, err := t.mail.err, capturedH := t.mail.capturedH } } ∧
          (k.crcOk = true → k.inRange = true → f.partialWord = false → f.hrdyLow = false → k.n = 1 → r.length = 2 →
            t.mail.err = s.mail.err ∧
            t.mail.miso = [s.statusWord, s.readReg k.addr, BitVec.ofNat 32 (State.dataCrc [s.readReg k.addr])]))) ∧
    (s.hostUp = true → ∀ (n : Fin 16) (o : Nat) (v : Int), o < 0x80 → State.pairValue s.fb[n] o = some v →
      exec (.readLRegister (BitVec.ofNat 16 (0x2000 + 0x80 * n.val + o))) s = .next { s with mail := { s.mail with
        capturedH := sput 0 s.mail.capturedH (0x2000 + 0x80 * n.val + o + 4) (intWord (v.fdiv 4294967296)) } }) ∧
    (s.hostUp = true → ∀ (a : BitVec 16) (l h : Word),
      exec (.registerPairWrite a l h) s = .next (s.applyCells [(a.toNat, l), (a.toNat + 4, h)])) ∧
    ∀ (a : Nat) (v : Word), 0x500 ≤ a ∧ a < 0x800 ∨ 0x3800 ≤ a ∧ a < 0xF000 → s.writeReg a v = s ∧ s.readReg a = 0

/-- With the link up and the firmware ready, MBX_DOORBELL over slots that are all FREE posts exactly those, queued in ascending
order after the earlier ones; over a slot that is not FREE it only sets SLOTBUSY. SLOT_TAKEN takes the first posted slot: it
is TAKEN and its sentence joins the input, or with the processor lost it is answered REFUSED-STATE. MBX_RELEASE frees a
POSTED slot and drops it from the queue, frees a REPLIED one whose reply is PAST, and leaves a FREE one and any slot not
named. MBX_CPLACK drops the oldest completions. With the link down nothing changes. -/
def Obligations.MailboxSlotsMoveThroughTheirStates : Prop :=
  ∀ (slots : BitVec 16) (n : BitVec 6) (s : State),
    (s.hostUp = false → exec (.mbxDoorbell slots) s = .next s ∧ exec (.mbxRelease slots) s = .next s ∧
      exec (.mbxCplack n) s = .next s ∧ exec .slotTaken s = .next s) ∧
    (s.hostUp = true →
      exec (.mbxCplack n) s = .next { s with mail := { s.mail with completions := s.mail.completions.drop n.toNat } } ∧
      ((∃ i : Fin 16, slots.getLsbD i.val = true ∧ (s.mail.slots[i]).state ≠ .free) →
        exec (.mbxDoorbell slots) s = .next { s with mail := { s.mail with err := s.mail.err ||| 0b010000#6 } }) ∧
      ((∀ i : Fin 16, slots.getLsbD i.val = true → (s.mail.slots[i]).state = .free) → s.mail.fwReady = true →
        ∃ t, exec (.mbxDoorbell slots) s = .next t ∧
          t.mail.posted = s.mail.posted ++ (fins 16).filter (fun i => slots.getLsbD i.val) ∧
          (∀ i : Fin 16, (t.mail.slots[i]).state = if slots.getLsbD i.val then .posted else (s.mail.slots[i]).state) ∧
          (∀ i : Fin 16, (t.mail.slots[i]).words = (s.mail.slots[i]).words) ∧
          t = { s with mail := { s.mail with posted := t.mail.posted, slots := t.mail.slots } }) ∧
      (∃ t, exec (.mbxRelease slots) s = .next t ∧
        (∀ i : Fin 16, slots.getLsbD i.val = true → (s.mail.slots[i]).state = .posted → (t.mail.slots[i]).state = .free ∧ i ∉ t.mail.posted) ∧
        (∀ i : Fin 16, slots.getLsbD i.val = true → (s.mail.slots[i]).state = .replied → (s.mail.slots[i]).past = true →
          (t.mail.slots[i]).state = .free) ∧
        (∀ i : Fin 16, slots.getLsbD i.val = false → t.mail.slots[i] = s.mail.slots[i] ∧ (i ∈ s.mail.posted → i ∈ t.mail.posted)) ∧
        t = { s with mail := t.mail }) ∧
      (s.mail.posted = [] → exec .slotTaken s = .next s) ∧
      ∀ i r, s.mail.posted = i :: r → ∃ t, exec .slotTaken s = .next t ∧ t.mail.posted = r ∧ (∀ k, k ≠ i → t.mail.slots[k] = s.mail.slots[k]) ∧
        (s.faults.cpu ≠ .lost → (t.mail.slots[i]).state = .taken ∧
          t.mail.input = s.mail.input ++ [(readSentence (s.mail.slots[i]).words.toList false, .slot i)]) ∧
        (s.faults.cpu = .lost → (t.mail.slots[i]).state = .replied ∧ t.mail.input = s.mail.input ∧
          bitsOf ((t.mail.slots[i]).words[0]).toNat 8 8 = 0x41 ∧ bitsOf ((t.mail.slots[i]).words[0]).toNat 6 2 = 3))

/-- SENTENCE_TAKEN while the firmware serves takes the oldest input sentence. A malformed one is answered REFUSED-FORMAT, one
beyond the in-flight limits REFUSED-BUSY, both without a ticket. Any other gets a number from 1 to 65535 that no ticket held
has, is the last ticket, and stands behind the others. SENTENCE_TAKE_UP of a held ticket: one whose AFTER ticket is in
flight, or that must wait for its object, changes nothing; one whose AFTER ticket failed completes with PRIOR-FAILED, as an
unmet AT-SAMPLE completes with its refusal; any other is taken. Nothing but the mailbox changes. -/
def Obligations.SentencesGetFreshTicketsInOrder : Prop :=
  ∀ s : State,
    (s.mail.input = [] ∨ s.serving = false → exec .sentenceTaken s = .next s) ∧
    (∀ x o r, s.mail.input = (x, o) :: r → s.serving = true →
      let s1 : State := { s with mail := { s.mail with input := r } }
      (x.wellFormed = false → exec .sentenceTaken s = .next (s1.emit (.bareReply o 0x46 x.verb x.noun))) ∧
      (x.wellFormed = true → 32 ≤ s.inFlightCount ∨ s.sessionFull o = true →
        exec .sentenceTaken s = .next (s1.emit (.bareReply o 0x45 x.verb x.noun))) ∧
      (x.wellFormed = true → s.inFlightCount < 32 → s.sessionFull o = false → s.mail.tickets.length < 65535 →
        ∃ t n, exec .sentenceTaken s = .next t ∧ t.mail.lastTicket = n ∧ 1 ≤ n ∧ n ≤ 65535 ∧
          (∀ k ∈ s.mail.tickets, k.num ≠ n) ∧ t.mail.input = r ∧
          (∃ k, t.mail.tickets = s.mail.tickets ++ [k] ∧ k.num = n ∧ k.sent = x ∧ k.origin = o ∧
            (k.tense = .future ↔ s.earlyRefusal x = none) ∧ (k.stage = .taken ↔ x.has 1 = true ∨ x.verb = 0x30)) ∧
          t = { s with mail := t.mail })) ∧
    ∀ b : BitVec 16,
      (s.inFlight? b.toNat = none → exec (.sentenceTakeUp b) s = .next s) ∧
      ∀ k, s.inFlight? b.toNat = some k →
        (s.serving = false ∨ k.stage ≠ .held ∨ s.afterState k = none → exec (.sentenceTakeUp b) s = .next s) ∧
        (s.serving = true → k.stage = .held → ∀ st, s.afterState k = some (some st) → exec (.sentenceTakeUp b) s = .next (s.finish k.num st)) ∧
        (s.serving = true → k.stage = .held → s.afterState k = some none →
          (s.mustWait k = true → exec (.sentenceTakeUp b) s = .next s) ∧
          (s.mustWait k = false → ∀ st, s.sampleRefusal k = some st → exec (.sentenceTakeUp b) s = .next (s.finish k.num st)) ∧
          (s.mustWait k = false → s.sampleRefusal k = none →
            exec (.sentenceTakeUp b) s = .next (s.modTicket k.num fun x => { x with stage := .taken }))) ∧
        (∀ a e, k.sent.operand 3 = some a → s.inFlight? a = none → s.ended? a = some e → 0x3F < e → s.afterState k = some (some 0x85)) ∧
        (∀ a, k.sent.operand 3 = some a → (s.inFlight? a).isSome = true → s.afterState k = none) ∧
        (k.sent.operand 3 = none → s.afterState k = some none)

/-- For each of the sixteen verbs: the command changes nothing where its ticket is not due for that verb; where it is due and its
noun names a resource the member does not have, or no noun at all, the ticket completes with REFUSED-RANGE (0x40), and
nothing but the mailbox changes. -/
def Obligations.AbsentNounsAreRefusedByEveryVerb : Prop :=
  ∀ (t : BitVec 16) (s : State) (c : Instr) (v : Nat),
    (c, v) ∈ [(Instr.read t, 0x01), (.set t, 0x02), (.write t, 0x03), (.swap t, 0x04), (.enable t, 0x10), (.disable t, 0x11),
      (.move t, 0x20), (.halt t, 0x21), (.follow t, 0x22), (.home t, 0x23), (.abort t, 0x30), (.capture t, 0x40), (.commit t, 0x41),
      (.clear t, 0x42), (.sleep t, 0x50), (.restart t, 0x51)] →
    (s.due? t.toNat v = none → exec c s = .next s) ∧
    ∀ k, s.due? t.toNat v = some k → nounSpec s.member k.sent.noun = none →
      ∃ u, exec c s = .next u ∧ u = s.finish k.num 0x40 ∧ u = { s with mail := u.mail }

/-- A due READ of a parameter returns its consecutive settings in at most 14 words, with REFUSED-RANGE beyond, REFUSED-FORMAT for
a malformed argument and REFUSED-ACCESS for a setting without a value; a READ of a block of a table, store, region or log
returns its words. A due SET that is refused, as for a value out of range, changes nothing but the mailbox. A SET of a plain
noun takes effect at once, or, for one that takes effect at a sample of a running group, is handed to that group; no other
noun changes. A mode of an axis whose group does not run is recorded. -/
def Obligations.SettingsAreReadAndSet : Prop :=
  ∀ (t : BitVec 16) (s : State) (k : Ticket) (c : NounClass) (p : NounSpec),
    nounClass k.sent.noun = some c → nounSpec s.member k.sent.noun = some p →
    let id := k.sent.noun
    let v := p.value k.sent.payload
    (s.due? t.toNat 0x01 = some k →
      (p.acc ≠ .block → 16 ≤ k.sent.arg ∨ k.sent.payload ≠ [] → exec (.read t) s = .next (s.finish k.num 0x46)) ∧
      (p.acc ≠ .block → k.sent.arg < 16 → k.sent.payload = [] → p.acc ≠ .rw → p.acc ≠ .ro → exec (.read t) s = .next (s.finish k.num 0x48)) ∧
      (k.sent.arg < 16 → k.sent.payload = [] → p.acc = .rw ∨ p.acc = .ro →
        let ws := s.readIds id (k.sent.arg + 1)
        (ws.length ≤ 14 → exec (.read t) s = .next (s.finish k.num 0 ws)) ∧ (14 < ws.length → exec (.read t) s = .next (s.finish k.num 0x40))) ∧
      (p.acc = .block → State.blockFormatBad c k.sent = false → ∀ ws, s.blockWords c k.sent.arg (k.sent.payload.headD 0) = some ws →
        exec (.read t) s = .next (s.finish k.num 0 ws))) ∧
    (s.due? t.toNat 0x02 = some k →
      (∀ st, s.setRefusal k.sent = some st → exec (.set t) s = .next (s.finish k.num st)) ∧
      (p.acc = .rw → p.inRange v = false → s.setRefusal k.sent ≠ none) ∧
      (s.setRefusal k.sent = none →
        (match c with
          | .main m 0x31 => ∀ g, s.groupOfMain m = some g → s.runs g = false →
              exec (.set t) s = .next ((s.modEng m fun e => { e with recorded := some v.toNat }).finish k.num 0)
          | .main _ 0x5E | .aux _ 0x5E | .safety _ | .group _ 0x02 | .port _ 0x20 | .port _ 0x40 => ∃ u, exec (.set t) s = .next u
          | _ =>
            (∀ g, p.r35 = true → s.nounGroup id = some g → s.runs g = true → exec (.set t) s =
              .next ((s.latched k).emit (.engine g (k.sent.operand 2) (.noun k.num id v)))) ∧
            ((p.r35 = false ∨ ∀ g, s.nounGroup id = some g → s.runs g = false) → Rising 0 s.nouns →
              ∃ u, exec (.set t) s = .next u ∧ u.noun id = v ∧ (∀ j, j ≠ id → u.noun j = s.noun j) ∧
                u.mail = (s.finish k.num 0).mail ∧ u = { s with nouns := u.nouns, groups := u.groups, mail := u.mail }))))

/-- A due WRITE that is not refused: of a table or of the staging area it stores its words in order and completes with their
count; of a region it queues one entry per word behind the group's queue when there is room, and waits when there is not. A
due SWAP of a region queues a swap; at the head of a queue that nothing holds back it is being validated at once.
SWAP_VALIDATION_DONE of a bank that is valid, and in a running group with the same header words, marks it validated; of any
other it drops the swap with REFUSED-CHECK and sets the check flag. -/
def Obligations.BlocksAreWrittenAndSwapped : Prop :=
  ∀ (t : BitVec 16) (g : Grp) (s : State) (k : Ticket),
    let x := k.sent
    let n := x.payload.length
    let q := s.groups[g]
    (s.due? t.toNat 0x03 = some k → 1 ≤ n → n ≤ 12 → nounSpec s.member x.noun ≠ none →
      (∀ tb, nounClass x.noun = some (.table tb) → x.arg + n ≤ 256 → s.tableUsed tb = false → Rising 0 s.tables →
        ∃ u, exec (.write t) s = .next u ∧ (∀ i, i < n → u.tableEntry tb.val (x.arg + i) = x.payload.getD i 0) ∧
          u = { s with tables := u.tables, mail := (s.finish k.num 0 [BitVec.ofNat 32 n]).mail }) ∧
      (nounClass x.noun = some (.store 0) → x.arg + n ≤ imageMax → Canon 0 s.store.staged →
        ∃ u, exec (.write t) s = .next u ∧ (∀ i, i < n → sget 0 u.store.staged (x.arg + i) = x.payload.getD i 0) ∧
          (∀ j, (j < x.arg ∨ x.arg + n ≤ j) → sget 0 u.store.staged j = sget 0 s.store.staged j) ∧
          u = { s with store := { s.store with staged := u.store.staged }, mail := (s.finish k.num 0 [BitVec.ofNat 32 n]).mail }) ∧
      (nounClass x.noun = some (.region g) → x.arg < 8192 → x.arg + n ≤ s.gNounN g 0x09 → s.groupStopped g = true →
        (s.queueRoom g < n → exec (.write t) s = .next s) ∧
        (n ≤ s.queueRoom g → ∃ u, exec (.write t) s = .next u ∧
          (u.groups[g]).queue = q.queue ++ State.writeEntries k.num 0 x.arg x.payload ∧ (∀ j, j ≠ g → u.groups[j] = s.groups[j]) ∧
          u = { s with groups := u.groups, mail := u.mail }))) ∧
    (s.due? t.toNat 0x04 = some k → nounClass x.noun = some (.region g) → nounSpec s.member x.noun ≠ none → x.arg = 0 → n ≤ 1 →
      (x.payload.headD 0).toNat < 2 →
      (s.queueRoom g = 0 → exec (.swap t) s = .next s) ∧
      (s.queueRoom g ≠ 0 → ∃ u, exec (.swap t) s = .next u ∧
        (u.groups[g]).queue = q.queue ++ [.swap k.num ((x.payload.headD 0).toNat == 1)] ∧
        (q.queue = [] → q.swapPhase = .idle → u.modeBusy g = false → (u.groups[g]).swapPhase = .validating) ∧
        (∀ j, j ≠ g → u.groups[j] = s.groups[j]) ∧ u = { s with groups := u.groups, mail := u.mail })) ∧
    (q.swapPhase ≠ .validating → exec (.swapValidationDone g) s = .next s) ∧
    (∀ k o r, q.queue = .swap k o :: r → q.swapPhase = .validating →
      let same : Prop := ∀ i ∈ State.headerWords (s.programme g q.bank1) (s.nAux g), s.region g q.bank1 i = s.region g (!q.bank1) i
      (s.bankValid g (!q.bank1) = true → q.running = false ∨ same → exec (.swapValidationDone g) s =
        .next (s.modGroup g fun q => { q with swapPhase := .validated })) ∧
      (s.bankValid g (!q.bank1) = false ∨ (q.running = true ∧ ¬same) → ∃ u, exec (.swapValidationDone g) s = .next u ∧
        (u.groups[g]).queue = r ∧ (u.groups[g]).chkFail = true ∧ u.mail = (s.finish k 0x44).mail ∧ (∀ j, j ≠ g → u.groups[j] = s.groups[j])))

/-- A due ENABLE of an axis in no group is refused with REFUSED-STATE, of an enabled one completes with ALREADY-DONE; of a
disabled one in a running group whose STO is not latched it enables the axis, takes its ticket as the start ticket and sets
its torque request. A due DISABLE of an enabled axis disables it and completes at once where the axis is at rest, else
becomes its stop ticket. MOVE, HALT, FOLLOW and HOME of an axis or group hand exactly one order to the group for the sample
asked, changing nothing but the mailbox; one refused completes with its refusal. -/
def Obligations.AxesAreEnabledDisabledAndOrdered : Prop :=
  ∀ (t : BitVec 16) (s : State) (k : Ticket) (x : GenId) (g : Grp),
    let at? := k.sent.operand 2
    nounSpec s.member k.sent.noun ≠ none →
    (axisObject k.sent.noun = some x → k.sent.arg = 0 → k.sent.payload = [] → s.due? t.toNat 0x10 = some k →
      (s.groupOf x = none → exec (.enable t) s = .next (s.finish k.num 0x41)) ∧
      (s.groupOf x = some g → s.runs g = true → s.stoLatched x = false →
        (s.genEnabled x = true → exec (.enable t) s = .next (s.finish k.num 0x03)) ∧
        (s.genEnabled x = false → ∃ u, exec (.enable t) s = .next u ∧ u.genEnabled x = true ∧
          (∀ i, s.stoOf x = some i → u.requests.torque.getLsbD i.val = true) ∧ u.nouns = s.nouns ∧ u.safety = s.safety ∧
          (∀ y, y ≠ x → u.genEnabled y = s.genEnabled y)))) ∧
    (axisObject k.sent.noun = some x → k.sent.arg = 0 → k.sent.payload = [] → s.due? t.toNat 0x11 = some k →
      (s.genEnabled x = false → exec (.disable t) s = .next (s.finish k.num 0x03)) ∧
      (s.genEnabled x = true → ∃ u, exec (.disable t) s = .next u ∧ u.genEnabled x = false ∧
        (u.axisIdle x = false → u.stopTicketOf x = some k.num) ∧ (∀ y, y ≠ x → u.genEnabled y = s.genEnabled y) ∧
        u.requests = s.requests ∧ u.nouns = s.nouns)) ∧
    (axisObject k.sent.noun = some x → s.groupOf x = some g →
      (s.due? t.toNat 0x20 = some k → State.moveFormatBad k.sent = false →
        (∀ st, s.moveRefusal g x k.sent = some st → exec (.move t) s = .next (s.finish k.num st)) ∧
        (s.moveRefusal g x k.sent = none → exec (.move t) s = .next ((s.latched k).emit (.motion g at?
          (.move k.num x (bitsOf k.sent.arg 0 4) (signedValue k.sent.payload) (bitsOf k.sent.arg 4 2)))))) ∧
      (s.due? t.toNat 0x21 = some k → k.sent.arg = 0 → k.sent.payload = [] →
        (s.genEnabled x = false → exec (.halt t) s = .next (s.finish k.num 0x41)) ∧
        (s.genEnabled x = true → exec (.halt t) s = .next ((s.latched k).emit (.motion g at? (.halt k.num x))))) ∧
      (∀ a, x = .aux a → s.due? t.toNat 0x23 = some k → k.sent.arg < 2 → k.sent.payload = [] →
        (∀ st, s.homeRefusal g a (k.sent.arg == 1) = some st → exec (.home t) s = .next (s.finish k.num st)) ∧
        (s.homeRefusal g a (k.sent.arg == 1) = none → exec (.home t) s =
          .next ((s.latched k).emit (.motion g at? (.home k.num a (k.sent.arg == 1))))))) ∧
    (groupObject k.sent.noun = some g →
      (s.due? t.toNat 0x21 = some k → k.sent.arg = 0 → k.sent.payload = [] → s.anyEnabled g = true →
        exec (.halt t) s = .next ((s.latched k).emit (.motion g at? (.haltGroup k.num g)))) ∧
      (s.due? t.toNat 0x22 = some k → k.sent.arg < 2 → k.sent.payload = [] → s.remotePart g = false → (s.groups[g]).eactive = false →
        ∀ a, s.windAxis g = some a → s.followRefusal g a = none → exec (.follow t) s =
          .next ((s.latched k).emit (.motion g at? (.follow k.num g (k.sent.arg == 1)))))) ∧
    ∀ o, (s.latched k).emit o = { s with mail := ((s.latched k).emit o).mail }

/-- A due ABORT of its own ticket or 0 is REFUSED-TICKET; of one in flight that is not running, that ticket ends ABORTED and the
ABORT completes with word 0. A due CAPTURE, or CLEAR of the ledger with FORCE, with none waiting, waits for the checkpoint; a
CLEAR without FORCE is REFUSED-ACCESS and clears nothing. A due COMMIT of a valid staged image makes the copy that is not
active invalid and writes it; of an invalid one is REFUSED-CHECK and changes no copy. With every group stopped a due SLEEP or
RESTART completes, every other ticket ends, and the sleep, warm or cold start is due; a RESTART while groups run needs FORCE. -/
def Obligations.StoreAndDeviceVerbsDoWhatTheySay : Prop :=
  ∀ (t : BitVec 16) (s : State) (k : Ticket),
    let x := k.sent
    let target := (x.payload.headD 0).toNat
    nounSpec s.member x.noun ≠ none →
    (s.due? t.toNat 0x30 = some k → x.noun = 0xE0FF → x.arg = 0 → x.payload.length = 1 → target < 65536 →
      (target = 0 ∨ target = k.num → exec (.abort t) s = .next (s.finish k.num 0x47)) ∧
      (∀ q, target ≠ 0 → target ≠ k.num → s.inFlight? target = some q → q.stage ≠ .running → q.sent.verb ≠ 0x03 →
        exec (.abort t) s = .next ((s.finish q.num 0x80).finish k.num 0 [0])) ∧
      (target ≠ 0 → target ≠ k.num → s.inFlight? target = none →
        exec (.abort t) s = .next (if (s.ended? target).isSome then s.finish k.num 0x03 [0] else s.finish k.num 0x47))) ∧
    (s.due? t.toNat 0x40 = some k → x.noun = 0xC000 → x.arg = 0 → x.payload = [] → s.store.capture = none →
      ∃ u, exec (.capture t) s = .next u ∧ u.store = { s.store with capture := some k.num } ∧ u = { s with store := u.store, mail := u.mail }) ∧
    (s.due? t.toNat 0x42 = some k → x.noun = 0x4F11 → x.arg = 0 → x.payload = [] →
      (x.has 5 = false → exec (.clear t) s = .next (s.finish k.num 0x48)) ∧
      (x.has 5 = true → s.ledger.clearDue = none → ∃ u, exec (.clear t) s = .next u ∧
        u.ledger = { s.ledger with clearDue := some k.num } ∧ u = { s with ledger := u.ledger, mail := u.mail })) ∧
    (s.due? t.toNat 0x41 = some k → x.noun = 0xC000 → x.arg = 0 → x.payload = [] → s.store.busy = none →
      (s.storeSpent = true → exec (.commit t) s = .next (s.finish k.num 0x49)) ∧
      (∀ f, s.storeSpent = false → s.imageFault (readImage (expand imageMax 0 s.store.staged)) = some f → ∃ u, exec (.commit t) s = .next u ∧
        u.store = { s.store with lastErr := f.2 } ∧ u = { s with store := u.store, mail := u.mail }) ∧
      (s.storeSpent = false → s.imageFault (readImage (expand imageMax 0 s.store.staged)) = none → ∃ u, exec (.commit t) s = .next u ∧
        u.store.busy = some (k.num, s.otherCopy) ∧ (u.store.copies[s.otherCopy]).valid = false ∧
        (∀ o, o ≠ s.otherCopy → u.store.copies[o] = s.store.copies[o]) ∧ u = { s with store := u.store, mail := u.mail })) ∧
    ((∀ g, s.groupStopped g = true) → x.noun = 0xE0FF →
      (s.due? t.toNat 0x50 = some k → x.arg = 0 → x.payload.length = 1 → target ≠ 0 → ∃ u, exec (.sleep t) s = .next u ∧
        u.power = { s.power with due := some (.sleep target), dueTicket := none } ∧ u.store.busy = none ∧ u.store.capture = none ∧
        (∀ j ∈ u.mail.tickets, j.tense = .past) ∧ u.mains = s.mains ∧ u.nouns = s.nouns) ∧
      (s.due? t.toNat 0x51 = some k → x.arg < 2 → x.payload = [] → ∃ u, exec (.restart t) s = .next u ∧
        u.power = { s.power with due := some (if x.arg = 1 then .cold else .warm), dueTicket := none } ∧
        (∀ j ∈ u.mail.tickets, j.tense = .past) ∧ u.mains = s.mains))

/-- With the link up, on a unit the member has: a PRESET of a unit no running group uses sets the count to the preset value
within its mode, of a used one only sets REJ; REARM makes an enabled invalid encoder valid and unreferenced, and leaves any
other; a compare write in mode SINGLE of a linear unit arms the value, BEHIND unless it lies beyond the count in the
direction. Only the key word and then its complement open the lock; TST_LOCK closing resets every test register; TST_SINC and
TST_ENG do nothing while it is closed. With the link down nothing changes. -/
def Obligations.UnitAndTestRegistersActAtTheWrite : Prop :=
  ∀ (n : FbNo) (v : DWord) (w : Word) (s : State),
    let u := s.fb[n]
    let o := s.otherFrame
    (s.hostUp = false ∨ s.member.hasFb n = false → exec (.fbPreset n) s = .next s ∧ exec (.rearm n) s = .next s ∧
      exec (.compareWrite n v) s = .next s) ∧
    (s.hostUp = false → exec (.tstKey w) s = .next s ∧ exec .tstLockClose s = .next s ∧ exec (.tstSincArm w) s = .next s ∧
      exec (.tstEngArm w) s = .next s) ∧
    o = { s with test := { s.test with keyed := false } } ∧
    (s.hostUp = true → s.member.hasFb n = true →
      (s.unitInUse n = true → exec (.fbPreset n) s = .next (o.modFb n fun u => { u with flags := u.flags ||| 0x100#12 })) ∧
      (s.unitInUse n = false → ∃ t, exec (.fbPreset n) s = .next t ∧ (t.fb[n]).count = underMode u u.preset ∧
        (n.val < 8 → (t.fb[n]).ref = !u.idxEn) ∧ (∀ k, k ≠ n → t.fb[k] = s.fb[k]) ∧ t = { o with fb := t.fb }) ∧
      exec (.rearm n) s = .next (o.modFb n fun u => if n.val < 8 ∧ u.en = true ∧ u.valid = false then
        { u with valid := true, ref := false, spanIll := 0, badIdx := 0, cleanSpans := 0 } else u) ∧
      (∃ t, exec (.compareWrite n v) s = .next t ∧ (t.fb[n]).cmp = v.toInt ∧
        (u.cmpMode = 0 → (t.fb[n]).armed = u.armed ∧ (t.fb[n]).cmpArmed = u.cmpArmed) ∧
        (u.cmpMode = 1 → u.modulo = false → (t.fb[n]).armed = true ∧ (t.fb[n]).cmpArmed = v.toInt ∧
          ((t.fb[n]).behind = true ↔ if u.dir then u.count ≤ v.toInt else v.toInt ≤ u.count)) ∧
        (u.cmpMode = 2 → u.modulo = false → u.dir = false → u.count < v.toInt → (t.fb[n]).cmpSkip = 0) ∧
        (∀ k, k ≠ n → t.fb[k] = s.fb[k]) ∧ t = { o with fb := t.fb })) ∧
    (s.hostUp = true →
      exec (.tstKey w) s = .next { s with test := (if w = 0x7E57A11C then { s.test with keyed := true }
        else if s.test.keyed = true ∧ w = 0x81A85EE3 then { s.test with keyed := false, openLock := true }
        else { s.test with keyed := false }) } ∧
      exec .tstLockClose s = .next { s with test := {} } ∧
      (s.test.openLock = false → exec (.tstSincArm w) s = .next o ∧ exec (.tstEngArm w) s = .next o) ∧
      (s.test.openLock = true → ∃ t, exec (.tstSincArm w) s = .next t ∧ t.test.sinc = w &&& 0xDF00FFFF#32 ∧ t = { o with test := t.test }) ∧
      (s.test.openLock = true → bitsOf w.toNat 16 2 ≠ 3 → exec (.tstEngArm w) s = .next { o with test := { o.test with eng := w &&& 0x87030100#32 } }) ∧
      (s.test.openLock = true → bitsOf w.toNat 16 2 = 3 → exec (.tstEngArm w) s = .next o))

/-- With the link up GFF_ACK removes the oldest words, CLEAR empties the FIFO and every pending record without counting, and
GFF_MARK with capture enabled makes a marker pending, or drops it where one is pending. GFF_RECORD_WRITE writes first a
pending LOSS record of two words when there is room, which ends the loss; else the next pending record: with room for all its
words they are appended behind the others and the sequence number grows by one; without, it is dropped whole, counted, OVF
sets and the loss grows. With nothing pending nothing changes. -/
def Obligations.GatherRecordsAreWrittenWholeOrDropped : Prop :=
  ∀ (a : BitVec 14) (payload : BitVec 28) (cd6 : Nat) (s : State),
    let f := s.gff
    let o := s.otherFrame
    (s.hostUp = false → exec (.gffAck a) s = .next s ∧ exec .gffClear s = .next s ∧ exec (.gffMark payload cd6) s = .next s) ∧
    (s.hostUp = true →
      exec (.gffAck a) s = .next { o with gff := { f with words := f.words.drop a.toNat } } ∧
      (∃ t, exec .gffClear s = .next t ∧ t = { o with gff := t.gff } ∧ t.gff.words = [] ∧ t.gff.loss = 0 ∧ State.gffNext t.gff = none ∧
        t.gff.drop = f.drop ∧ t.gff.ovf = f.ovf ∧ t.gff.irq = f.irq ∧ t.gff.seq = f.seq) ∧
      (f.en = false → exec (.gffMark payload cd6) s = .next o) ∧
      (f.en = true → f.pendMarker = none → exec (.gffMark payload cd6) s = .next { o with gff := { f with
        pendMarker := some [s.time.tick % 2 ^ 28, field 16 12 (s.time.tick / 2 ^ 28) + field 0 11 cd6, payload.toNat] } }) ∧
      (f.en = true → f.pendMarker ≠ none → exec (.gffMark payload cd6) s = .next { o with gff := gffDrop f })) ∧
    (∃ t, exec .gffRecordWrite s = .next t ∧ t = { s with gff := t.gff } ∧
      (f.loss ≠ 0 → gffRoom f s.gffHeld 2 = true → t.gff.words = f.words ++ gffWords 5 0 f.seq [f.loss] ∧ t.gff.loss = 0 ∧
        t.gff.irq.getLsbD 2 = true ∧ State.gffNext t.gff = (State.gffNext f).map fun p => (p.1, { p.2 with
          words := t.gff.words, seq := t.gff.seq, irq := t.gff.irq, loss := 0 })) ∧
      (f.loss = 0 ∨ gffRoom f s.gffHeld 2 = false →
        (State.gffNext f = none → t = s) ∧
        ∀ kind source body f1, State.gffNext f = some ((kind, source, body), f1) →
          (gffRoom f s.gffHeld (body.length + 1) = true → t.gff.words = f.words ++ gffWords kind source f.seq body ∧
            t.gff.seq = f.seq + 1 ∧ State.gffNext t.gff = State.gffNext { f1 with words := t.gff.words, seq := t.gff.seq, irq := t.gff.irq } ∧
            t.gff.drop = f.drop) ∧
          (gffRoom f s.gffHeld (body.length + 1) = false → t.gff.words = f.words ∧ t.gff.seq = f.seq ∧ t.gff.drop = inc32 f.drop ∧
            t.gff.ovf = true ∧ t.gff.loss = satInc 0x0FFFFFFF f.loss))) ∧
    ∀ n, gffRoom f s.gffHeld n = true ↔ s.test.gff.getLsbD 0 = false ∧ f.words.length + n ≤ 8192

/-- On a port that is up, BUS_RXACK removes from each queue as many of its oldest entries as its count says, all of them where
the count is above the level; the entries left keep their order. Only the entries present before the write are removed: one
appended after it stands behind those left. The other buffers of the port and the other ports stay as they are. -/
def Obligations.AcknowledgedEntriesLeaveTheirQueues : Prop :=
  ∀ (p : Port) (n0 n1 : BitVec 7) (s : State), s.portUp p = true →
    let b := s.canBufs[p]
    ∃ t, exec (.busRxack p n0 n1) s = .next t ∧
      (t.canBufs[p]).q0 = b.q0.drop n0.toNat ∧ (t.canBufs[p]).q1 = b.q1.drop n1.toNat ∧
      (b.q0.length ≤ n0.toNat → (t.canBufs[p]).q0 = []) ∧ (b.q1.length ≤ n1.toNat → (t.canBufs[p]).q1 = []) ∧
      t.canBufs[p] = { b with q0 := (t.canBufs[p]).q0, q1 := (t.canBufs[p]).q1 } ∧ (∀ k, k ≠ p → t.canBufs[k] = s.canBufs[k]) ∧
      t = { s with canBufs := t.canBufs, test := { s.test with keyed := false } } ∧
      ∀ e, (b.q0.drop n0.toNat).length < 64 → (b.q1.drop n1.toNat).length < 64 →
        ((t.appendQueue p false e).canBufs[p]).q0 = b.q0.drop n0.toNat ++ [e] ∧
        ((t.appendQueue p true e).canBufs[p]).q1 = b.q1.drop n1.toNat ++ [e]

/-- On a port that is up: BUS_MODE_WRITE ignores a reserved mode with WREJ and, leaving INIT, invalid timing with TIMERR; to INIT
with no frame in progress it clears both counters and abandons recovery; out of NORMAL with a frame in progress it waits.
RECOVER starts a recovery only in BUS-OFF. A request makes a buffer that is IDLE, SENT, ABORTED or FAILED pending; an abort
ends a pending one and marks an active one. BUS_RECOVERED, PROTOCOL_EXCEPTION and its end, and BUS integration act where they
apply and change nothing elsewhere. A port that is not up changes nothing. -/
def Obligations.CanPortControlsActAtTheWrite : Prop :=
  ∀ (p : Port) (m r : BitVec 3) (x : BitVec 11) (s : State),
    let c := s.can[p]
    let o := s.otherFrame
    let set := fun (f : CanPort → CanPort) => Host.Outcome.next (φ := Fault) (ρ := Refusal) (o.modPort p f)
    (s.portUp p = false → ∀ i ∈ [Instr.busModeWrite p m, .recover p, .busTxRequest p r, .busTxAbort p r, .busRsel p x, .busRecovered p,
      .protocolException p, .protocolExceptionEnd p, .canBusIntegration p], exec i s = .next s) ∧
    (s.portUp p = true →
      (5 ≤ m.toNat → exec (.busModeWrite p m) s = set fun c => { c with wRej := true }) ∧
      (1 ≤ m.toNat → m.toNat < 5 → c.mode = 0 → s.faults.cpu ≠ .lost → nominalOk c.nbt = false ∨ (c.fdEn = true ∧ dataOk c.dbt = false) →
        exec (.busModeWrite p m) s = set fun c => { c with timErr := true }) ∧
      (m = 0 → c.mode ≠ 0 → s.faults.cpu ≠ .lost → (s.canBufs[p]).sending = none → ∃ t, exec (.busModeWrite p m) s = .next t ∧
        (t.can[p]).mode = 0 ∧ (t.can[p]).tec = 0 ∧ (t.can[p]).recv = 0 ∧ (t.can[p]).recovering = false ∧ (t.can[p]).fcs = .init ∧
        t = { o with can := t.can } ∧ ∀ k, k ≠ p → t.can[k] = s.can[k]) ∧
      (∀ k : Fin 5, k.val = m.toNat → c.mode = 1 → k ≠ 1 → s.faults.cpu ≠ .lost → (s.canBufs[p]).sending.isSome = true →
        exec (.busModeWrite p m) s = set fun c => { c with nextMode := some k }) ∧
      exec (.recover p) s = (set fun c => if c.fcs = .busOff then { c with recovering := true } else c) ∧
      exec (.busRsel p x) s = .next (o.modBufs p fun b => { b with rsel := x }) ∧
      (∃ t, exec (.busTxRequest p r) s = .next t ∧ (∀ i : Fin 3, ((t.canBufs[p]).tx[i]).state =
        if r.getLsbD i.val = true ∧ ((s.canBufs[p]).tx[i]).state ∈ [.idle, .sent, .aborted, .failed] then .pending
        else ((s.canBufs[p]).tx[i]).state) ∧ (∀ k, k ≠ p → t.canBufs[k] = s.canBufs[k] ∧ t.can[k] = s.can[k]) ∧
        t = { o with can := t.can, canBufs := t.canBufs }) ∧
      (∃ t, exec (.busTxAbort p r) s = .next t ∧ (∀ i : Fin 3, r.getLsbD i.val = true →
        (((s.canBufs[p]).tx[i]).state = .pending → ((t.canBufs[p]).tx[i]).state = .aborted ∧ (t.can[p]).irq.getLsbD (4 + i.val) = true) ∧
        (((s.canBufs[p]).tx[i]).state = .active → (t.canBufs[p]).tx[i] = { (s.canBufs[p]).tx[i] with aborting := true }) ∧
        (((s.canBufs[p]).tx[i]).state ∉ [.pending, .active] → (t.canBufs[p]).tx[i] = (s.canBufs[p]).tx[i])) ∧
        (∀ i : Fin 3, r.getLsbD i.val = false → (t.canBufs[p]).tx[i] = (s.canBufs[p]).tx[i]) ∧ t = { o with can := t.can, canBufs := t.canBufs }) ∧
      (c.fcs ≠ .busOff ∨ c.recovering = false → exec (.busRecovered p) s = .next s) ∧
      (c.fcs = .busOff → c.recovering = true → ∃ t, exec (.busRecovered p) s = .next t ∧ (t.can[p]).fcs = .active ∧ (t.can[p]).tec = 0 ∧
        (t.can[p]).recv = 0 ∧ (t.can[p]).recovering = false ∧ t = { s with can := t.can, mail := t.mail, log := t.log }) ∧
      (onBus c = true → ∃ t, exec (.protocolException p) s = .next t ∧ (t.can[p]).pex = true ∧ (t.can[p]).excepted = true ∧
        (t.can[p]).tec = c.tec ∧ (t.can[p]).recv = c.recv ∧ (t.canBufs[p]).pexCnt = inc32 (s.canBufs[p]).pexCnt) ∧
      (onBus c = false → exec (.protocolException p) s = .next s) ∧
      exec (.protocolExceptionEnd p) s = .next (s.modPort p fun c => { c with excepted := false }) ∧
      exec (.canBusIntegration p) s = .next (s.modPort p fun c => if c.mode.val = 0 then c else { c with synced := true }))

/-- On a port on the bus CAN_FRAME_RECEIVED counts the frame; one for no session, no filter and default queue RXQ0 is appended,
or counted as overflow when it is full and DROP-NEWEST. CAN_TRANSMIT_CHOICE makes the lowest pending buffer (TXORD = 1) or
the one that wins arbitration active. CAN_TRANSMIT_END makes it SENT, or PENDING, FAILED or ABORTED. CAN_ERROR_DETECTED
records kind and phase and counts; a transmitter gains 8, a receiver 1 or 8. A segment timeout drops the partial sentence
with REFUSED-FORMAT. Marks, silence and the timestamp's wrap touch only trackers and roster. -/
def Obligations.CanFramesAreQueuedSentAndCounted : Prop :=
  ∀ (p : Port) (s : State),
    let c := s.can[p]
    let b := s.canBufs[p]
    (∀ (f : CanFrame) (stamp : BitVec 32),
      (s.portUp p = false ∨ onBus c = false → exec (.canFrameReceived p f stamp) s = .next s) ∧
      (s.portUp p = true → onBus c = true → f.fdf = true → c.fdEn = false → exec (.canFrameReceived p f stamp) s = exec (.protocolException p) s) ∧
      (s.portUp p = true → onBus c = true → f.fdf = false ∨ c.fdEn = true → ∃ t, exec (.canFrameReceived p f stamp) s = .next t ∧
        (t.canBufs[p]).rxCnt = inc32 b.rxCnt ∧ (∀ k, s.sessionOf p f = some k → (t.canBufs[p]).q0 = b.q0 ∧ (t.canBufs[p]).q1 = b.q1) ∧
        (s.sessionOf p f = none → s.decideFilter p f = none → c.defq = 1 → (t.canBufs[p]).q1 = b.q1 ∧
          (b.q0.length < 64 → (t.canBufs[p]).q0 = b.q0 ++ [State.entryWords f none stamp.toNat (s.epochOf stamp.toNat)] ∧ (t.can[p]).irq.getLsbD 0 = true) ∧
          (64 ≤ b.q0.length → c.q0Over = false → (t.canBufs[p]).q0 = b.q0 ∧ (t.canBufs[p]).ovf0 = satInc 65535 b.ovf0)) ∧
        (∀ k, k ≠ p → t.canBufs[k] = s.canBufs[k] ∧ t.can[k] = s.can[k]) ∧
        (∀ i e, s.rosterFind p (s.nodeOf p f.id.toNat) = some i → s.rosterCounts p f.ide = true → c.mode.val ≠ 4 → (i, e) ∈ s.roster.entries →
          (i, { e with seen := (s.epochOf stamp.toNat).toNat * 4294967296 + stamp.toNat, lastId := f.id, lide := f.ide,
                       frames := inc32 e.frames, silent := false }) ∈ t.roster.entries))) ∧
    (∀ k : Fin 8, (b.partials[k] = none → exec (.canSegmentTimeout p k) s = .next s) ∧
      (b.partials[k] ≠ none → ∃ t v n, exec (.canSegmentTimeout p k) s = .next t ∧ (t.canBufs[p]).partials[k] = none ∧
        .bareReply (.session p k) 0x46 v n ∈ t.mail.output ∧ t = { s with canBufs := t.canBufs, mail := t.mail })) ∧
    (s.portUp p = true → onBus c = true → counts c = true → b.sending = none →
      (s.chooseTx p = none → exec (.canTransmitChoice p) s = .next s) ∧
      (∀ i, s.chooseTx p = some i → ∃ t, exec (.canTransmitChoice p) s = .next t ∧ (t.canBufs[p]).sending = some i ∧
        ((b.tx[i]).state = .pending → ((t.canBufs[p]).tx[i]).state = .active) ∧ t = { s with canBufs := t.canBufs } ∧
        (s.txKey p i).isSome = true ∧ ∀ j, (s.txKey p j).isSome = true → if c.txOrd = true then i ≤ j else
          (s.txKey p i).getD 0 < (s.txKey p j).getD 0 ∨ ((s.txKey p i).getD 0 = (s.txKey p j).getD 0 ∧ i ≤ j))) ∧
    (∀ (i : Fin 3) (o : CanTxOutcome), b.sending = some i → (b.tx[i]).state = .active → i.val < 2 ∨ s.pNoun p 0x40 = 0 → c.nextMode = none →
      ∃ t, exec (.canTransmitEnd p o) s = .next t ∧ (t.canBufs[p]).sending = none ∧
        (∀ st d, o = .sent st d → ((t.canBufs[p]).tx[i]).state = .sent ∧ ((t.canBufs[p]).tx[i]).stamp = st ∧
          (t.canBufs[p]).txCnt = inc32 b.txCnt ∧ (t.can[p]).tec = c.tec - 1 ∧ (t.can[p]).irq.getLsbD (4 + i.val) = true) ∧
        (o = .lostArbitration ∨ o = .error → ((t.canBufs[p]).tx[i]).state =
          if (b.tx[i]).aborting then .aborted else if c.oneShot then .failed else .pending)) ∧
    (∀ e : CanError, (s.portUp p = false ∨ onBus c = false → exec (.canErrorDetected p e) s = .next s) ∧
      (s.portUp p = true → onBus c = true → ∃ t, exec (.canErrorDetected p e) s = .next t ∧ (t.can[p]).lec = State.lecCode e.kind ∧
        (t.can[p]).lecData = e.dataPhase ∧ (t.canBufs[p]).errCnt = inc32 b.errCnt ∧
        (counts c = false → (t.can[p]).tec = c.tec ∧ (t.can[p]).recv = c.recv) ∧
        (counts c = true → e.transmitter = true → e.exempt = false → (t.can[p]).tec = c.tec + 8 ∧ (t.can[p]).recv = c.recv ∧
          (255 < c.tec + 8 → c.fcs ≠ .init → (t.can[p]).fcs = .busOff ∧ (t.can[p]).bOff = true ∧ (t.canBufs[p]).sending = none)) ∧
        (counts c = true → e.transmitter = false → (t.can[p]).tec = c.tec ∧
          (t.can[p]).recv = Nat.min 255 (c.recv + if e.heavy then 8 else 1)))) ∧
    (∀ (ide : Bool) (id : BitVec 29), ∃ t, exec (.duplicateMarkExpiry p ide id) s = .next t ∧
      (∀ x ∈ (t.canBufs[p]).tracked, x.ide = ide → x.id = id → x.marked = false) ∧ t = { s with canBufs := t.canBufs, roster := t.roster }) ∧
    (s.awake = true → (∃ t, exec .rosterSilenceCheck s = .next t ∧ t = { s with roster := { s.roster with entries := t.roster.entries } } ∧
        t.roster.entries.map (fun e => (e.1, { e.2 with silent := false })) = s.roster.entries.map (fun e => (e.1, { e.2 with silent := false })) ∧
        ∀ i e, (i, e) ∈ s.roster.entries → e.seen + s.pNounN e.port 0x24 * 1000 < s.time64 → (i, { e with silent := true }) ∈ t.roster.entries) ∧
      exec .timestampWrap s = .next { s with roster := { s.roster with epoch := s.roster.epoch + 1, tsc2 := s.roster.tsc2 - 8589934592 } })

/-- RING_FORMATION_DONE of a formable ring that holds this module forms it with the lowest ID as master, or sets DUPID. A
received packet is forwarded; one with a bad CRC is only counted, a STATUS or SYNC is taken from its first copy, and SYNC of
the master in direction A steers by 1 ns. Each third SYNC miss makes the lowest module heard master, with the epoch plus one
when it is this one. RING_BREAK takes an up direction down, sets XCASCADE and splits at the second; LINK_DIRECTION_UP heals.
STATUS_PACKET_SEND sends the spans. SPAN_START_TICK starts an announced home part or a ready remote part. -/
def Obligations.CascadeFormsFollowsAndHeals : Prop :=
  ∀ s : State,
    let c := s.cascade
    let me := c.ident
    (s.cascadeOn = false → (∀ i, exec (.ringFormationDone i) s = .next s) ∧ (∀ p, exec (.cascadePacketReceived p) s = .next s) ∧
      exec .syncMissed s = .next s ∧ (∀ d, exec (.ringBreak d) s = .next s ∧ exec (.linkDirectionUp d) s = .next s) ∧
      exec .statusPacketSend s = .next s) ∧
    (∀ i : RingInfo, s.cascadeOn = true → c.formed = false → c.dupId = false →
      (i.duplicate = true → exec (.ringFormationDone i) s = .next { s with cascade := { c with dupId := true } }) ∧
      (i.duplicate = false → i.order.Nodup → me ∈ i.order → ∃ t, exec (.ringFormationDone i) s = .next t ∧ t.cascade.formed = true ∧
        t.cascade.master ∈ i.order ∧ (∀ m ∈ i.order, t.cascade.master ≤ m) ∧ t.cascade.isMaster = (t.cascade.master == me) ∧
        t.cascade.mepoch = 0 ∧ (∀ m : Fin 8, t.cascade.members.getLsbD m.val = decide (m ∈ i.order)) ∧ t.cascade.order.head? = some me ∧
        (∀ d, t.dirUp d = true) ∧ t = { s with cascade := t.cascade, faults := { s.faults with xCascade := false } })) ∧
    (∀ p : CxPacket, s.cascadeOn = true → c.formed = true → c.split = false → s.dirUp p.dir = true → p.source ≠ me →
      ∃ t, exec (.cascadePacketReceived p) s = .next t ∧ t.cascade.forwarded = c.forwarded ++ [p] ∧
        (p.crcOk = false → t.cascade.reports = c.reports ∧ t.cascade.taken = c.taken ∧ t.time = s.time ∧ t.groups = s.groups ∧
          (p.dir = .a → t.cascade.crcA = inc32 c.crcA) ∧ (p.dir = .b → t.cascade.crcB = inc32 c.crcB)) ∧
        (p.crcOk = true → (p.source, p.number) ∈ t.cascade.taken ∧ p.source ∈ t.cascade.heard ∨ (∃ tk m e y, p.body = .sync tk m e y)) ∧
        (∀ l, p.crcOk = true → p.body = .status l → t.cascade.reports = if (p.source, p.number) ∈ c.taken then c.reports
          else (p.source, l) :: c.reports.filter fun r => r.1 != p.source) ∧
        (∀ tick y, p.crcOk = true → p.body = .sync tick c.master c.mepoch y → p.dir = .a → c.isMaster = false → (p.source, p.number) ∉ c.taken →
          t.time.tick = tick % 1099511627776 ∧ t.cascade.syncMiss = 0 ∧ t.cascade.offset = y - clampI (-1) 1 y ∧
          t.cascade.locked = decide (absI (y - clampI (-1) 1 y) ≤ 40))) ∧
    (s.cascadeOn = true → c.formed = true → c.isMaster = false →
      ((c.syncMiss + 1) % 3 ≠ 0 → exec .syncMissed s = .next { s with cascade := { c with syncMiss := c.syncMiss + 1 } }) ∧
      ((c.syncMiss + 1) % 3 = 0 → ∃ t, exec .syncMissed s = .next t ∧ (∀ m ∈ me :: c.heard, t.cascade.master ≤ m) ∧
        t.cascade.master ∈ me :: c.heard ∧ (t.cascade.master = me → t.cascade.isMaster = true ∧ t.cascade.mepoch = c.mepoch + 1) ∧
        (t.cascade.master ≠ me → t.cascade.isMaster = false ∧ t.cascade.mepoch = c.mepoch) ∧
        t = { s with cascade := t.cascade, mail := t.mail, log := t.log })) ∧
    (∀ d, s.cascadeOn = true → s.dirUp d = true → ∃ t, exec (.ringBreak d) s = .next t ∧ t.dirUp d = false ∧ t.faults.xCascade = true ∧
      (s.faults.xCascade = true → t.cascade.split = true) ∧ (s.faults.xCascade = false → t.cascade.split = c.split)) ∧
    (∀ d, s.cascadeOn = true → c.formed = true → s.dirUp d = false → ∃ t, exec (.linkDirectionUp d) s = .next t ∧ t.dirUp d = true ∧
      t.faults.xCascade = !(t.cascade.aIn && t.cascade.bIn) ∧ (∀ e, e ≠ d → t.dirUp e = s.dirUp e)) ∧
    (s.cascadeOn = true → c.formed = true → exec .statusPacketSend s = .next { s with cascade := { c with out := c.out ++ [.status s.ownReports] } }) ∧
    ∀ g : Grp, let q := s.groups[g]
      (q.running = true → exec (.spanStartTick g) s = .next s) ∧
      (q.running = false → s.homePart g = true → q.starting = true → q.span.startAt ≠ none → ∃ t, exec (.spanStartTick g) s = .next t ∧
        (t.groups[g]).running = true ∧ (t.groups[g]).sample = 0 ∧ (t.groups[g]).starting = false ∧ ∀ k, k ≠ g → t.groups[k] = s.groups[k]) ∧
      (q.running = false → s.homePart g = false → s.remotePart g = true → c.locked = true → s.programmeOk g = true →
        ∃ t, exec (.spanStartTick g) s = .next t ∧ (t.groups[g]).running = true ∧ (t.groups[g]).sample = 0 ∧
          (t.groups[g]).span.remoteRuns = true ∧ ∀ k, k ≠ g → t.groups[k] = s.groups[k])

/-- BROWNOUT of a running or starting module leaves it browned out, every group stopped, every STO off; asleep it only clears
VINOK. VINOK_HELD begins a cold start from no VIN or a brownout unless RST_N is low, and the deferred wake of a sleeping
module whose source is latched; elsewhere it only sets VINOK. KEEPER_FLOOR_LOSS loses what the keeper holds and keeps the
stores and the persistent log. VLOW follows the threshold. CRYSTAL_LOST, HOLDOVER_EXPIRY and SLEW_TO_INTERNAL_DONE move REF
on and nothing else. PLL_LOCK_LOSS begins a cold start with cause CLOCK-FAIL. -/
def Obligations.SupplyAndClockEventsMoveTheModule : Prop :=
  ∀ s : State,
    let ph := s.power.phase
    let p := s.power
    let held : Prop := ph = .awake ∨ ph = .safeHold ∨ ph = .romHold
    (ph = .noVin → exec .brownout s = .next s ∧ ∀ b, exec (.vlow b) s = .next s) ∧
    (ph = .asleep → exec .brownout s = .next { s with power := { p with vinOk := false } }) ∧
    (held ∨ ph = .coldStart ∨ ph = .warmStart → ∃ t, exec .brownout s = .next t ∧ t.power.phase = .brownedOut ∧ t.power.vinOk = false ∧
      t.power.brownout = true ∧ (∀ g : Grp, (t.groups[g]).running = false) ∧ (∀ i : StoNo, (t.safety.groups[i]).sto = false) ∧
      t.mail.tickets = [] ∧ t.retention = s.retention ∧ t.log.persistent = s.log.persistent) ∧
    (ph = .noVin → p.rstLow = false → ∃ t, exec .vinokHeld s = .next t ∧ t.power.phase = .coldStart ∧ t.power.vinOk = true ∧ t = { s with power := t.power }) ∧
    (ph = .brownedOut → p.rstLow = false → p.brownout = true → ∃ t, exec .vinokHeld s = .next t ∧ t.power.phase = .coldStart ∧ t.power.cause = 0x0B) ∧
    (ph = .noVin ∨ ph = .brownedOut → p.rstLow = true → ∃ t, exec .vinokHeld s = .next t ∧ t.power.phase = .inReset) ∧
    (ph = .asleep → p.vinOk = false → p.latched ≠ 0 → ∃ t, exec .vinokHeld s = .next t ∧ (t.power.phase = .warmStart ↔ s.warmAllowed = true) ∧
      (t.power.phase = .coldStart ↔ s.warmAllowed = false)) ∧
    (held ∨ ph = .coldStart ∨ ph = .warmStart ∨ ph = .inReset ∨ (ph = .asleep ∧ p.latched = 0 ∧ p.latchedTimer = false) →
      exec .vinokHeld s = .next { s with power := { p with vinOk := true } }) ∧
    (∃ t, exec .keeperFloorLoss s = .next t ∧ t.power.phase = .noVin ∧ t.time.keeper = 0 ∧ t.time.powered = s.time.savedPowered ∧
      t.life.acc = s.life.saved ∧ t.retention.valid = false ∧ t.ledger.totals = [] ∧ t.ledger.epoch = s.ledger.epoch + 1 ∧
      t.log.persistent = s.log.persistent ∧ t.store.copies = s.store.copies ∧ t.start.afterLoss = true) ∧
    (∀ b, ph ≠ .noVin → exec (.vlow b) s = .next { s with power := { p with vLow := b, vLowSeen := p.vLowSeen || b } }) ∧
    (ph = .coldStart ∨ ph = .warmStart → s.retention.nouns.lookup 0xA00A ≠ some 1 →
      exec .crystalQualified s = .next { s with power := { p with reference := 1, xtalFit := true } }) ∧
    (¬(ph = .coldStart ∨ ph = .warmStart) → exec .crystalQualified s = .next s) ∧
    (held → p.reference = 1 → exec .crystalLost s = .next { s with power := { p with xtalLost := true, reference := 2 } }) ∧
    (held → p.reference = 2 → exec .holdoverExpiry s = .next { s with power := { p with reference := 3 } }) ∧
    (held → p.reference = 3 → exec .slewToInternalDone s = .next { s with power := { p with reference := 0 } }) ∧
    (p.reference = 0 → exec .crystalLost s = .next s ∧ exec .holdoverExpiry s = .next s ∧ exec .slewToInternalDone s = .next s) ∧
    (held → ∃ t, exec .pllLockLoss s = .next t ∧ t.power.phase = .coldStart ∧ t.power.cause = 0x0C ∧ (∀ g : Grp, (t.groups[g]).running = false)) ∧
    (¬held → exec .pllLockLoss s = .next s)

/-- COLD_START in its phase with a failed test, or with no valid configuration copy, ends in safe hold (ROM hold for FIRMWARE)
with the step in FSTEP and a log record; with a valid copy, its safety set and its time, it ends awake and READY. WARM_START
with an invalid block goes over to a cold start; a failed one records its step and is tried again, the third becoming a cold
start; a good one ends awake and READY. RESTART_ACTION begins the restart that is due, a cold one with the block invalidated,
and does nothing where none is due. Outside its phase each changes nothing. -/
def Obligations.StartsFailToSafeHoldOrReachTorqueReady : Prop :=
  ∀ (f : ColdFindings) (w : WarmFindings) (s : State),
    let cold := (s.passMicros f.micros).coldClear
    let warm := s.passMicros w.micros
    (s.power.phase ≠ .coldStart → exec (.coldStart f) s = .next s) ∧
    (∀ k, s.power.phase = .coldStart → State.coldTest f = some k → ∃ t, exec (.coldStart f) s = .next t ∧ t.start.safeHold = true ∧ t.start.fstep = k ∧
      t.power.phase = (if k = 0x02 then .romHold else .safeHold) ∧ t.start.ready = false ∧ t.mail.fwReady = true ∧
      (∀ i : StoNo, (t.safety.groups[i]).state = (if k = 0x07 then .fault else .latched) ∧ (t.safety.groups[i]).sto = false)) ∧
    (s.power.phase = .coldStart → State.coldTest f = none → ((cold.coldExposure f).chooseCopy (cold.coldExposure f).copyOrder).2 = none →
      ∃ t, exec (.coldStart f) s = .next t ∧ t.start.safeHold = true ∧ t.start.fstep = 0x06 ∧ t.power.phase = .safeHold) ∧
    (∀ c, s.power.phase = .coldStart → State.coldTest f = none →
      let r := (cold.coldExposure f).chooseCopy (cold.coldExposure f).copyOrder
      r.2 = some c →
        let back : Bool := (cold.coldExposure f).copyOrder.head? != some c
        let i := r.1.copyImage c
        let z : State := { r.1 with
          start := { r.1.start with fback := back }
          store := { r.1.store with loadedSeq := (r.1.store.copies[c]).seq } }
        let l := ((z.loadImage i).setReference f.crystal).readStraps f
        (l.loadSafety.2 = true → f.inTime = true → ∃ t, exec (.coldStart f) s = .next t ∧ t.power.phase = .awake ∧ t.start.ready = true ∧
          t.start.safeHold = false ∧ t.mail.fwReady = true ∧ t.retention.valid = false ∧ t.start.fback = back ∧
          ∀ k : StoNo, (t.safety.groups[k]).state = .latched ∧ (t.safety.groups[k]).sto = false) ∧
        (l.loadSafety.2 = false → ∃ t, exec (.coldStart f) s = .next t ∧ t.start.safeHold = true ∧ t.start.fstep = 0x07)) ∧
    (s.power.phase ≠ .warmStart → exec (.warmStart w) s = .next s) ∧
    (s.power.phase = .warmStart → warm.blockValid w = false →
      exec (.warmStart w) s = .next { warm with power := { warm.power with phase := .coldStart } }) ∧
    (s.power.phase = .warmStart → warm.blockValid w = true →
      let s2 : State := { warm with start := { warm.start with warms := inc32 warm.start.warms } }
      (∀ k, s2.warmTest w = some k → ∃ t, exec (.warmStart w) s = .next t ∧ t.start.fstep = k ∧
        t.power.phase = (if s.start.wfail + 1 < 3 then .warmStart else .coldStart) ∧
        t.start.wfail = (if s.start.wfail + 1 < 3 then s.start.wfail + 1 else 0) ∧ t.retention = s.retention) ∧
      (s2.warmTest w = none → ∃ t, exec (.warmStart w) s = .next t ∧ t.power.phase = .awake ∧ t.start.ready = true ∧ t.start.wfail = 0 ∧
        t.retention.valid = false ∧ t.safety.groups = s.safety.groups)) ∧
    (s.power.due = none → exec .restartAction s = .next s) ∧
    (s.power.due = some .cold → s.clocked = true → ∃ t, exec .restartAction s = .next t ∧ t.power.phase = .coldStart ∧ t.power.cause = 0x0D ∧
      t.retention.valid = false ∧ t.power.due = none ∧ ∀ g : Grp, (t.groups[g]).running = false) ∧
    (s.power.due = some .warm → s.awake = true → ∃ t, exec .restartAction s = .next t ∧ (t.power.phase = .warmStart ∨ t.power.phase = .coldStart) ∧
      t.power.cause = 0x0D ∧ t.retention.valid = true ∧ t.power.due = none ∧ ∀ i : StoNo, (t.safety.groups[i]).sto = false) ∧
    (s.power.due = some .warm → s.power.phase = .romHold → ∃ t, exec .restartAction s = .next t ∧ t.power.phase = .coldStart ∧ t.power.cause = 0x0D)

/-- SLEEP_ENTRY of an awake module with a sleep due ends asleep, counted, with the timer and the wake enables latched and the
retained data valid, unless a source has already qualified, when a start begins; otherwise it changes nothing.
WAKE_SOURCE_QUALIFIED asleep with VINOK begins a warm start where one is allowed, else a cold one, and without VINOK is only
latched; one that is not enabled changes nothing. RST_N_LOW, not masked, takes a module with VIN into reset with every STO
off; RST_N_HIGH begins a cold start from reset; RESET_STUCK masks it and does so too; RSTMASK_CLEAR clears the mask. -/
def Obligations.SleepWakeAndResetFollowThePhases : Prop :=
  ∀ (ab : Vector (Bool × Bool) 4) (levels : BitVec 8) (w : WakeSource) (s : State),
    let p := s.power
    ((∀ n, p.due ≠ some (.sleep n)) ∨ p.phase ≠ .awake → exec (.sleepEntry ab levels) s = .next s) ∧
    (∀ n, p.due = some (.sleep n) → p.phase = .awake →
      (p.latched = 0 → ∃ t, exec (.sleepEntry ab levels) s = .next t ∧ t.power.phase = .asleep ∧ t.power.sleeps = inc32 p.sleeps ∧
        t.power.wakeTimer = n ∧ t.power.wakeEn = BitVec.ofNat 18 (s.noun 0xA008).toNat ∧ t.power.levels = levels ∧ t.retention.valid = true ∧
        t.retention.time = s.time.keeper ∧ t.mail.fwReady = false ∧ t.gff.words = [] ∧ (∀ i : StoNo, (t.safety.groups[i]).sto = false)) ∧
      (p.latched ≠ 0 → ∃ t, exec (.sleepEntry ab levels) s = .next t ∧ (t.power.phase = .warmStart ∨ t.power.phase = .coldStart))) ∧
    (p.phase = .asleep → s.wakeFits p.wakeEn w = false → exec (.wakeSourceQualified w) s = .next s) ∧
    (p.phase = .asleep → s.wakeFits p.wakeEn w = true →
      (p.vinOk = false → exec (.wakeSourceQualified w) s = .next (s.latchSource w)) ∧
      (p.vinOk = true → ∃ t, exec (.wakeSourceQualified w) s = .next t ∧ t.power.phase = (if s.warmAllowed then .warmStart else .coldStart) ∧
        (p.latched = 0 → p.latchedTimer = false → t.power.cause = match w with
          | .timer => 1
          | .host => 2
          | .bus b => 3 + b.val
          | .switch _ => 7
          | .encoder _ => 8
          | .klost => 9))) ∧
    (p.phase = .noVin ∨ p.phase = .inReset ∨ p.phase = .brownedOut ∨ p.phase = .safeHold ∨ p.phase = .romHold →
      exec (.wakeSourceQualified w) s = .next s) ∧
    (s.start.rstMask = true ∨ p.rstLow = true → exec .rstNLow s = .next s) ∧
    (s.start.rstMask = false → p.rstLow = false →
      (p.phase = .noVin ∨ p.phase = .brownedOut ∨ p.phase = .inReset → exec .rstNLow s = .next { s with power := { p with rstLow := true } }) ∧
      (¬(p.phase = .noVin ∨ p.phase = .brownedOut ∨ p.phase = .inReset) → ∃ t, exec .rstNLow s = .next t ∧ t.power.rstLow = true ∧
        t.power.phase = (if p.phase = .asleep ∧ p.vinOk = false then .brownedOut else .inReset) ∧
        (∀ i : StoNo, (t.safety.groups[i]).sto = false) ∧ (∀ g : Grp, (t.groups[g]).running = false) ∧ t.retention = s.retention ∧
        t.ledger.totals = s.ledger.totals ∧ t.log.persistent = s.log.persistent)) ∧
    (p.rstLow = false → exec .rstNHigh s = .next s) ∧
    (p.rstLow = true → p.phase ≠ .inReset → exec .rstNHigh s = .next { s with power := { p with rstLow := false } }) ∧
    (p.rstLow = true → p.phase = .inReset → p.vinOk = true → ∃ t, exec .rstNHigh s = .next t ∧ t.power.phase = .coldStart ∧
      t.power.rstLow = false ∧ t.power.cause = (if p.brownout then 0x0B else 0x0A)) ∧
    (s.start.rstMask = true ∨ p.rstLow = false → exec .resetStuck s = .next s) ∧
    (s.start.rstMask = false → p.rstLow = true → ∃ t, exec .resetStuck s = .next t ∧ t.start = { s.start with rstMask := true, stuck := true } ∧
      t.power.rstLow = false ∧ (p.phase = .inReset → p.vinOk = true → t.power.phase = .coldStart) ∧ (p.phase ≠ .inReset → t.power.phase = p.phase)) ∧
    exec .rstmaskClear s = .next { s with start := { s.start with rstMask := false } }

end
end

