-- ==== Sys2Proof/Laws/State.lean ====
section
/-! SUPPORT. Reading one field of the state after one named update: one lemma for each field and each update, so that no proof
unfolds a record update. -/

set_option Elab.async false

namespace Sys2Proof.Machine

/-- The place that was changed. -/
@[simp] theorem vmod_same {α : Type} {n : Nat} (v : Vector α n) (i : Fin n) (f : α → α) : (vmod v i f)[i] = f v[i] := by
  simp [vmod]

/-- The same, where the index is written as a number. -/
@[simp] theorem vmod_same_val {α : Type} {n : Nat} (v : Vector α n) (i : Fin n) (f : α → α) : (vmod v i f)[(i : Nat)] = f v[(i : Nat)] := by
  simp [vmod]

/-- Every other place. -/
theorem vmod_other {α : Type} {n : Nat} (v : Vector α n) {i j : Fin n} (f : α → α) (h : i ≠ j) : (vmod v i f)[j] = v[j] := by
  have e : i.val ≠ j.val := fun e => h (Fin.ext e)
  simp [vmod, e]

namespace State

variable (s : State)

/-! ## modMain -/

@[simp] theorem modMain_member (m : Main) (f : MainAxis → MainAxis) : (s.modMain m f).member = s.member := rfl
@[simp] theorem modMain_time (m : Main) (f : MainAxis → MainAxis) : (s.modMain m f).time = s.time := rfl
@[simp] theorem modMain_nouns (m : Main) (f : MainAxis → MainAxis) : (s.modMain m f).nouns = s.nouns := rfl
@[simp] theorem modMain_groups (m : Main) (f : MainAxis → MainAxis) : (s.modMain m f).groups = s.groups := rfl
@[simp] theorem modMain_mains (m : Main) (f : MainAxis → MainAxis) : (s.modMain m f).mains = vmod s.mains m f := rfl
@[simp] theorem modMain_auxs (m : Main) (f : MainAxis → MainAxis) : (s.modMain m f).auxs = s.auxs := rfl
@[simp] theorem modMain_links (m : Main) (f : MainAxis → MainAxis) : (s.modMain m f).links = s.links := rfl
@[simp] theorem modMain_engines (m : Main) (f : MainAxis → MainAxis) : (s.modMain m f).engines = s.engines := rfl
@[simp] theorem modMain_sense (m : Main) (f : MainAxis → MainAxis) : (s.modMain m f).sense = s.sense := rfl
@[simp] theorem modMain_tables (m : Main) (f : MainAxis → MainAxis) : (s.modMain m f).tables = s.tables := rfl
@[simp] theorem modMain_fb (m : Main) (f : MainAxis → MainAxis) : (s.modMain m f).fb = s.fb := rfl
@[simp] theorem modMain_switches (m : Main) (f : MainAxis → MainAxis) : (s.modMain m f).switches = s.switches := rfl
@[simp] theorem modMain_safety (m : Main) (f : MainAxis → MainAxis) : (s.modMain m f).safety = s.safety := rfl
@[simp] theorem modMain_requests (m : Main) (f : MainAxis → MainAxis) : (s.modMain m f).requests = s.requests := rfl
@[simp] theorem modMain_faults (m : Main) (f : MainAxis → MainAxis) : (s.modMain m f).faults = s.faults := rfl
@[simp] theorem modMain_log (m : Main) (f : MainAxis → MainAxis) : (s.modMain m f).log = s.log := rfl
@[simp] theorem modMain_mail (m : Main) (f : MainAxis → MainAxis) : (s.modMain m f).mail = s.mail := rfl
@[simp] theorem modMain_store (m : Main) (f : MainAxis → MainAxis) : (s.modMain m f).store = s.store := rfl
@[simp] theorem modMain_ledger (m : Main) (f : MainAxis → MainAxis) : (s.modMain m f).ledger = s.ledger := rfl
@[simp] theorem modMain_life (m : Main) (f : MainAxis → MainAxis) : (s.modMain m f).life = s.life := rfl
@[simp] theorem modMain_can (m : Main) (f : MainAxis → MainAxis) : (s.modMain m f).can = s.can := rfl
@[simp] theorem modMain_canBufs (m : Main) (f : MainAxis → MainAxis) : (s.modMain m f).canBufs = s.canBufs := rfl
@[simp] theorem modMain_roster (m : Main) (f : MainAxis → MainAxis) : (s.modMain m f).roster = s.roster := rfl
@[simp] theorem modMain_cascade (m : Main) (f : MainAxis → MainAxis) : (s.modMain m f).cascade = s.cascade := rfl
@[simp] theorem modMain_power (m : Main) (f : MainAxis → MainAxis) : (s.modMain m f).power = s.power := rfl
@[simp] theorem modMain_retention (m : Main) (f : MainAxis → MainAxis) : (s.modMain m f).retention = s.retention := rfl
@[simp] theorem modMain_start (m : Main) (f : MainAxis → MainAxis) : (s.modMain m f).start = s.start := rfl
@[simp] theorem modMain_gff (m : Main) (f : MainAxis → MainAxis) : (s.modMain m f).gff = s.gff := rfl
@[simp] theorem modMain_test (m : Main) (f : MainAxis → MainAxis) : (s.modMain m f).test = s.test := rfl
@[simp] theorem modMain_free (m : Main) (f : MainAxis → MainAxis) : (s.modMain m f).free = s.free := rfl
@[simp] theorem modMain_pending (m : Main) (f : MainAxis → MainAxis) : (s.modMain m f).pending = s.pending := rfl

/-! ## modComm -/

@[simp] theorem modComm_member (m : Main) (f : CommSt → CommSt) : (s.modComm m f).member = s.member := rfl
@[simp] theorem modComm_time (m : Main) (f : CommSt → CommSt) : (s.modComm m f).time = s.time := rfl
@[simp] theorem modComm_nouns (m : Main) (f : CommSt → CommSt) : (s.modComm m f).nouns = s.nouns := rfl
@[simp] theorem modComm_groups (m : Main) (f : CommSt → CommSt) : (s.modComm m f).groups = s.groups := rfl
@[simp] theorem modComm_mains (m : Main) (f : CommSt → CommSt) : (s.modComm m f).mains = vmod s.mains m fun a => { a with comm := f a.comm } := rfl
@[simp] theorem modComm_auxs (m : Main) (f : CommSt → CommSt) : (s.modComm m f).auxs = s.auxs := rfl
@[simp] theorem modComm_links (m : Main) (f : CommSt → CommSt) : (s.modComm m f).links = s.links := rfl
@[simp] theorem modComm_engines (m : Main) (f : CommSt → CommSt) : (s.modComm m f).engines = s.engines := rfl
@[simp] theorem modComm_sense (m : Main) (f : CommSt → CommSt) : (s.modComm m f).sense = s.sense := rfl
@[simp] theorem modComm_tables (m : Main) (f : CommSt → CommSt) : (s.modComm m f).tables = s.tables := rfl
@[simp] theorem modComm_fb (m : Main) (f : CommSt → CommSt) : (s.modComm m f).fb = s.fb := rfl
@[simp] theorem modComm_switches (m : Main) (f : CommSt → CommSt) : (s.modComm m f).switches = s.switches := rfl
@[simp] theorem modComm_safety (m : Main) (f : CommSt → CommSt) : (s.modComm m f).safety = s.safety := rfl
@[simp] theorem modComm_requests (m : Main) (f : CommSt → CommSt) : (s.modComm m f).requests = s.requests := rfl
@[simp] theorem modComm_faults (m : Main) (f : CommSt → CommSt) : (s.modComm m f).faults = s.faults := rfl
@[simp] theorem modComm_log (m : Main) (f : CommSt → CommSt) : (s.modComm m f).log = s.log := rfl
@[simp] theorem modComm_mail (m : Main) (f : CommSt → CommSt) : (s.modComm m f).mail = s.mail := rfl
@[simp] theorem modComm_store (m : Main) (f : CommSt → CommSt) : (s.modComm m f).store = s.store := rfl
@[simp] theorem modComm_ledger (m : Main) (f : CommSt → CommSt) : (s.modComm m f).ledger = s.ledger := rfl
@[simp] theorem modComm_life (m : Main) (f : CommSt → CommSt) : (s.modComm m f).life = s.life := rfl
@[simp] theorem modComm_can (m : Main) (f : CommSt → CommSt) : (s.modComm m f).can = s.can := rfl
@[simp] theorem modComm_canBufs (m : Main) (f : CommSt → CommSt) : (s.modComm m f).canBufs = s.canBufs := rfl
@[simp] theorem modComm_roster (m : Main) (f : CommSt → CommSt) : (s.modComm m f).roster = s.roster := rfl
@[simp] theorem modComm_cascade (m : Main) (f : CommSt → CommSt) : (s.modComm m f).cascade = s.cascade := rfl
@[simp] theorem modComm_power (m : Main) (f : CommSt → CommSt) : (s.modComm m f).power = s.power := rfl
@[simp] theorem modComm_retention (m : Main) (f : CommSt → CommSt) : (s.modComm m f).retention = s.retention := rfl
@[simp] theorem modComm_start (m : Main) (f : CommSt → CommSt) : (s.modComm m f).start = s.start := rfl
@[simp] theorem modComm_gff (m : Main) (f : CommSt → CommSt) : (s.modComm m f).gff = s.gff := rfl
@[simp] theorem modComm_test (m : Main) (f : CommSt → CommSt) : (s.modComm m f).test = s.test := rfl
@[simp] theorem modComm_free (m : Main) (f : CommSt → CommSt) : (s.modComm m f).free = s.free := rfl
@[simp] theorem modComm_pending (m : Main) (f : CommSt → CommSt) : (s.modComm m f).pending = s.pending := rfl

/-! ## modGlance -/

@[simp] theorem modGlance_member (m : Main) (f : GlanceSt → GlanceSt) : (s.modGlance m f).member = s.member := rfl
@[simp] theorem modGlance_time (m : Main) (f : GlanceSt → GlanceSt) : (s.modGlance m f).time = s.time := rfl
@[simp] theorem modGlance_nouns (m : Main) (f : GlanceSt → GlanceSt) : (s.modGlance m f).nouns = s.nouns := rfl
@[simp] theorem modGlance_groups (m : Main) (f : GlanceSt → GlanceSt) : (s.modGlance m f).groups = s.groups := rfl
@[simp] theorem modGlance_mains (m : Main) (f : GlanceSt → GlanceSt) : (s.modGlance m f).mains = vmod s.mains m fun a => { a with glance := f a.glance } := rfl
@[simp] theorem modGlance_auxs (m : Main) (f : GlanceSt → GlanceSt) : (s.modGlance m f).auxs = s.auxs := rfl
@[simp] theorem modGlance_links (m : Main) (f : GlanceSt → GlanceSt) : (s.modGlance m f).links = s.links := rfl
@[simp] theorem modGlance_engines (m : Main) (f : GlanceSt → GlanceSt) : (s.modGlance m f).engines = s.engines := rfl
@[simp] theorem modGlance_sense (m : Main) (f : GlanceSt → GlanceSt) : (s.modGlance m f).sense = s.sense := rfl
@[simp] theorem modGlance_tables (m : Main) (f : GlanceSt → GlanceSt) : (s.modGlance m f).tables = s.tables := rfl
@[simp] theorem modGlance_fb (m : Main) (f : GlanceSt → GlanceSt) : (s.modGlance m f).fb = s.fb := rfl
@[simp] theorem modGlance_switches (m : Main) (f : GlanceSt → GlanceSt) : (s.modGlance m f).switches = s.switches := rfl
@[simp] theorem modGlance_safety (m : Main) (f : GlanceSt → GlanceSt) : (s.modGlance m f).safety = s.safety := rfl
@[simp] theorem modGlance_requests (m : Main) (f : GlanceSt → GlanceSt) : (s.modGlance m f).requests = s.requests := rfl
@[simp] theorem modGlance_faults (m : Main) (f : GlanceSt → GlanceSt) : (s.modGlance m f).faults = s.faults := rfl
@[simp] theorem modGlance_log (m : Main) (f : GlanceSt → GlanceSt) : (s.modGlance m f).log = s.log := rfl
@[simp] theorem modGlance_mail (m : Main) (f : GlanceSt → GlanceSt) : (s.modGlance m f).mail = s.mail := rfl
@[simp] theorem modGlance_store (m : Main) (f : GlanceSt → GlanceSt) : (s.modGlance m f).store = s.store := rfl
@[simp] theorem modGlance_ledger (m : Main) (f : GlanceSt → GlanceSt) : (s.modGlance m f).ledger = s.ledger := rfl
@[simp] theorem modGlance_life (m : Main) (f : GlanceSt → GlanceSt) : (s.modGlance m f).life = s.life := rfl
@[simp] theorem modGlance_can (m : Main) (f : GlanceSt → GlanceSt) : (s.modGlance m f).can = s.can := rfl
@[simp] theorem modGlance_canBufs (m : Main) (f : GlanceSt → GlanceSt) : (s.modGlance m f).canBufs = s.canBufs := rfl
@[simp] theorem modGlance_roster (m : Main) (f : GlanceSt → GlanceSt) : (s.modGlance m f).roster = s.roster := rfl
@[simp] theorem modGlance_cascade (m : Main) (f : GlanceSt → GlanceSt) : (s.modGlance m f).cascade = s.cascade := rfl
@[simp] theorem modGlance_power (m : Main) (f : GlanceSt → GlanceSt) : (s.modGlance m f).power = s.power := rfl
@[simp] theorem modGlance_retention (m : Main) (f : GlanceSt → GlanceSt) : (s.modGlance m f).retention = s.retention := rfl
@[simp] theorem modGlance_start (m : Main) (f : GlanceSt → GlanceSt) : (s.modGlance m f).start = s.start := rfl
@[simp] theorem modGlance_gff (m : Main) (f : GlanceSt → GlanceSt) : (s.modGlance m f).gff = s.gff := rfl
@[simp] theorem modGlance_test (m : Main) (f : GlanceSt → GlanceSt) : (s.modGlance m f).test = s.test := rfl
@[simp] theorem modGlance_free (m : Main) (f : GlanceSt → GlanceSt) : (s.modGlance m f).free = s.free := rfl
@[simp] theorem modGlance_pending (m : Main) (f : GlanceSt → GlanceSt) : (s.modGlance m f).pending = s.pending := rfl

/-! ## modDrive -/

@[simp] theorem modDrive_member (m : Main) (f : DriveSt → DriveSt) : (s.modDrive m f).member = s.member := rfl
@[simp] theorem modDrive_time (m : Main) (f : DriveSt → DriveSt) : (s.modDrive m f).time = s.time := rfl
@[simp] theorem modDrive_nouns (m : Main) (f : DriveSt → DriveSt) : (s.modDrive m f).nouns = s.nouns := rfl
@[simp] theorem modDrive_groups (m : Main) (f : DriveSt → DriveSt) : (s.modDrive m f).groups = s.groups := rfl
@[simp] theorem modDrive_mains (m : Main) (f : DriveSt → DriveSt) : (s.modDrive m f).mains = vmod s.mains m fun a => { a with drive := f a.drive } := rfl
@[simp] theorem modDrive_auxs (m : Main) (f : DriveSt → DriveSt) : (s.modDrive m f).auxs = s.auxs := rfl
@[simp] theorem modDrive_links (m : Main) (f : DriveSt → DriveSt) : (s.modDrive m f).links = s.links := rfl
@[simp] theorem modDrive_engines (m : Main) (f : DriveSt → DriveSt) : (s.modDrive m f).engines = s.engines := rfl
@[simp] theorem modDrive_sense (m : Main) (f : DriveSt → DriveSt) : (s.modDrive m f).sense = s.sense := rfl
@[simp] theorem modDrive_tables (m : Main) (f : DriveSt → DriveSt) : (s.modDrive m f).tables = s.tables := rfl
@[simp] theorem modDrive_fb (m : Main) (f : DriveSt → DriveSt) : (s.modDrive m f).fb = s.fb := rfl
@[simp] theorem modDrive_switches (m : Main) (f : DriveSt → DriveSt) : (s.modDrive m f).switches = s.switches := rfl
@[simp] theorem modDrive_safety (m : Main) (f : DriveSt → DriveSt) : (s.modDrive m f).safety = s.safety := rfl
@[simp] theorem modDrive_requests (m : Main) (f : DriveSt → DriveSt) : (s.modDrive m f).requests = s.requests := rfl
@[simp] theorem modDrive_faults (m : Main) (f : DriveSt → DriveSt) : (s.modDrive m f).faults = s.faults := rfl
@[simp] theorem modDrive_log (m : Main) (f : DriveSt → DriveSt) : (s.modDrive m f).log = s.log := rfl
@[simp] theorem modDrive_mail (m : Main) (f : DriveSt → DriveSt) : (s.modDrive m f).mail = s.mail := rfl
@[simp] theorem modDrive_store (m : Main) (f : DriveSt → DriveSt) : (s.modDrive m f).store = s.store := rfl
@[simp] theorem modDrive_ledger (m : Main) (f : DriveSt → DriveSt) : (s.modDrive m f).ledger = s.ledger := rfl
@[simp] theorem modDrive_life (m : Main) (f : DriveSt → DriveSt) : (s.modDrive m f).life = s.life := rfl
@[simp] theorem modDrive_can (m : Main) (f : DriveSt → DriveSt) : (s.modDrive m f).can = s.can := rfl
@[simp] theorem modDrive_canBufs (m : Main) (f : DriveSt → DriveSt) : (s.modDrive m f).canBufs = s.canBufs := rfl
@[simp] theorem modDrive_roster (m : Main) (f : DriveSt → DriveSt) : (s.modDrive m f).roster = s.roster := rfl
@[simp] theorem modDrive_cascade (m : Main) (f : DriveSt → DriveSt) : (s.modDrive m f).cascade = s.cascade := rfl
@[simp] theorem modDrive_power (m : Main) (f : DriveSt → DriveSt) : (s.modDrive m f).power = s.power := rfl
@[simp] theorem modDrive_retention (m : Main) (f : DriveSt → DriveSt) : (s.modDrive m f).retention = s.retention := rfl
@[simp] theorem modDrive_start (m : Main) (f : DriveSt → DriveSt) : (s.modDrive m f).start = s.start := rfl
@[simp] theorem modDrive_gff (m : Main) (f : DriveSt → DriveSt) : (s.modDrive m f).gff = s.gff := rfl
@[simp] theorem modDrive_test (m : Main) (f : DriveSt → DriveSt) : (s.modDrive m f).test = s.test := rfl
@[simp] theorem modDrive_free (m : Main) (f : DriveSt → DriveSt) : (s.modDrive m f).free = s.free := rfl
@[simp] theorem modDrive_pending (m : Main) (f : DriveSt → DriveSt) : (s.modDrive m f).pending = s.pending := rfl

/-! ## modEng -/

@[simp] theorem modEng_member (m : Main) (f : EngAxis → EngAxis) : (s.modEng m f).member = s.member := rfl
@[simp] theorem modEng_time (m : Main) (f : EngAxis → EngAxis) : (s.modEng m f).time = s.time := rfl
@[simp] theorem modEng_nouns (m : Main) (f : EngAxis → EngAxis) : (s.modEng m f).nouns = s.nouns := rfl
@[simp] theorem modEng_groups (m : Main) (f : EngAxis → EngAxis) : (s.modEng m f).groups = s.groups := rfl
@[simp] theorem modEng_mains (m : Main) (f : EngAxis → EngAxis) : (s.modEng m f).mains = vmod s.mains m fun a => { a with eng := f a.eng } := rfl
@[simp] theorem modEng_auxs (m : Main) (f : EngAxis → EngAxis) : (s.modEng m f).auxs = s.auxs := rfl
@[simp] theorem modEng_links (m : Main) (f : EngAxis → EngAxis) : (s.modEng m f).links = s.links := rfl
@[simp] theorem modEng_engines (m : Main) (f : EngAxis → EngAxis) : (s.modEng m f).engines = s.engines := rfl
@[simp] theorem modEng_sense (m : Main) (f : EngAxis → EngAxis) : (s.modEng m f).sense = s.sense := rfl
@[simp] theorem modEng_tables (m : Main) (f : EngAxis → EngAxis) : (s.modEng m f).tables = s.tables := rfl
@[simp] theorem modEng_fb (m : Main) (f : EngAxis → EngAxis) : (s.modEng m f).fb = s.fb := rfl
@[simp] theorem modEng_switches (m : Main) (f : EngAxis → EngAxis) : (s.modEng m f).switches = s.switches := rfl
@[simp] theorem modEng_safety (m : Main) (f : EngAxis → EngAxis) : (s.modEng m f).safety = s.safety := rfl
@[simp] theorem modEng_requests (m : Main) (f : EngAxis → EngAxis) : (s.modEng m f).requests = s.requests := rfl
@[simp] theorem modEng_faults (m : Main) (f : EngAxis → EngAxis) : (s.modEng m f).faults = s.faults := rfl
@[simp] theorem modEng_log (m : Main) (f : EngAxis → EngAxis) : (s.modEng m f).log = s.log := rfl
@[simp] theorem modEng_mail (m : Main) (f : EngAxis → EngAxis) : (s.modEng m f).mail = s.mail := rfl
@[simp] theorem modEng_store (m : Main) (f : EngAxis → EngAxis) : (s.modEng m f).store = s.store := rfl
@[simp] theorem modEng_ledger (m : Main) (f : EngAxis → EngAxis) : (s.modEng m f).ledger = s.ledger := rfl
@[simp] theorem modEng_life (m : Main) (f : EngAxis → EngAxis) : (s.modEng m f).life = s.life := rfl
@[simp] theorem modEng_can (m : Main) (f : EngAxis → EngAxis) : (s.modEng m f).can = s.can := rfl
@[simp] theorem modEng_canBufs (m : Main) (f : EngAxis → EngAxis) : (s.modEng m f).canBufs = s.canBufs := rfl
@[simp] theorem modEng_roster (m : Main) (f : EngAxis → EngAxis) : (s.modEng m f).roster = s.roster := rfl
@[simp] theorem modEng_cascade (m : Main) (f : EngAxis → EngAxis) : (s.modEng m f).cascade = s.cascade := rfl
@[simp] theorem modEng_power (m : Main) (f : EngAxis → EngAxis) : (s.modEng m f).power = s.power := rfl
@[simp] theorem modEng_retention (m : Main) (f : EngAxis → EngAxis) : (s.modEng m f).retention = s.retention := rfl
@[simp] theorem modEng_start (m : Main) (f : EngAxis → EngAxis) : (s.modEng m f).start = s.start := rfl
@[simp] theorem modEng_gff (m : Main) (f : EngAxis → EngAxis) : (s.modEng m f).gff = s.gff := rfl
@[simp] theorem modEng_test (m : Main) (f : EngAxis → EngAxis) : (s.modEng m f).test = s.test := rfl
@[simp] theorem modEng_free (m : Main) (f : EngAxis → EngAxis) : (s.modEng m f).free = s.free := rfl
@[simp] theorem modEng_pending (m : Main) (f : EngAxis → EngAxis) : (s.modEng m f).pending = s.pending := rfl

/-! ## modShare -/

@[simp] theorem modShare_member (m : Main) (f : ShareSt → ShareSt) : (s.modShare m f).member = s.member := rfl
@[simp] theorem modShare_time (m : Main) (f : ShareSt → ShareSt) : (s.modShare m f).time = s.time := rfl
@[simp] theorem modShare_nouns (m : Main) (f : ShareSt → ShareSt) : (s.modShare m f).nouns = s.nouns := rfl
@[simp] theorem modShare_groups (m : Main) (f : ShareSt → ShareSt) : (s.modShare m f).groups = s.groups := rfl
@[simp] theorem modShare_mains (m : Main) (f : ShareSt → ShareSt) : (s.modShare m f).mains = vmod s.mains m fun a => { a with share := f a.share } := rfl
@[simp] theorem modShare_auxs (m : Main) (f : ShareSt → ShareSt) : (s.modShare m f).auxs = s.auxs := rfl
@[simp] theorem modShare_links (m : Main) (f : ShareSt → ShareSt) : (s.modShare m f).links = s.links := rfl
@[simp] theorem modShare_engines (m : Main) (f : ShareSt → ShareSt) : (s.modShare m f).engines = s.engines := rfl
@[simp] theorem modShare_sense (m : Main) (f : ShareSt → ShareSt) : (s.modShare m f).sense = s.sense := rfl
@[simp] theorem modShare_tables (m : Main) (f : ShareSt → ShareSt) : (s.modShare m f).tables = s.tables := rfl
@[simp] theorem modShare_fb (m : Main) (f : ShareSt → ShareSt) : (s.modShare m f).fb = s.fb := rfl
@[simp] theorem modShare_switches (m : Main) (f : ShareSt → ShareSt) : (s.modShare m f).switches = s.switches := rfl
@[simp] theorem modShare_safety (m : Main) (f : ShareSt → ShareSt) : (s.modShare m f).safety = s.safety := rfl
@[simp] theorem modShare_requests (m : Main) (f : ShareSt → ShareSt) : (s.modShare m f).requests = s.requests := rfl
@[simp] theorem modShare_faults (m : Main) (f : ShareSt → ShareSt) : (s.modShare m f).faults = s.faults := rfl
@[simp] theorem modShare_log (m : Main) (f : ShareSt → ShareSt) : (s.modShare m f).log = s.log := rfl
@[simp] theorem modShare_mail (m : Main) (f : ShareSt → ShareSt) : (s.modShare m f).mail = s.mail := rfl
@[simp] theorem modShare_store (m : Main) (f : ShareSt → ShareSt) : (s.modShare m f).store = s.store := rfl
@[simp] theorem modShare_ledger (m : Main) (f : ShareSt → ShareSt) : (s.modShare m f).ledger = s.ledger := rfl
@[simp] theorem modShare_life (m : Main) (f : ShareSt → ShareSt) : (s.modShare m f).life = s.life := rfl
@[simp] theorem modShare_can (m : Main) (f : ShareSt → ShareSt) : (s.modShare m f).can = s.can := rfl
@[simp] theorem modShare_canBufs (m : Main) (f : ShareSt → ShareSt) : (s.modShare m f).canBufs = s.canBufs := rfl
@[simp] theorem modShare_roster (m : Main) (f : ShareSt → ShareSt) : (s.modShare m f).roster = s.roster := rfl
@[simp] theorem modShare_cascade (m : Main) (f : ShareSt → ShareSt) : (s.modShare m f).cascade = s.cascade := rfl
@[simp] theorem modShare_power (m : Main) (f : ShareSt → ShareSt) : (s.modShare m f).power = s.power := rfl
@[simp] theorem modShare_retention (m : Main) (f : ShareSt → ShareSt) : (s.modShare m f).retention = s.retention := rfl
@[simp] theorem modShare_start (m : Main) (f : ShareSt → ShareSt) : (s.modShare m f).start = s.start := rfl
@[simp] theorem modShare_gff (m : Main) (f : ShareSt → ShareSt) : (s.modShare m f).gff = s.gff := rfl
@[simp] theorem modShare_test (m : Main) (f : ShareSt → ShareSt) : (s.modShare m f).test = s.test := rfl
@[simp] theorem modShare_free (m : Main) (f : ShareSt → ShareSt) : (s.modShare m f).free = s.free := rfl
@[simp] theorem modShare_pending (m : Main) (f : ShareSt → ShareSt) : (s.modShare m f).pending = s.pending := rfl

/-! ## modAux -/

@[simp] theorem modAux_member (a : AuxNo) (f : AuxAxis → AuxAxis) : (s.modAux a f).member = s.member := rfl
@[simp] theorem modAux_time (a : AuxNo) (f : AuxAxis → AuxAxis) : (s.modAux a f).time = s.time := rfl
@[simp] theorem modAux_nouns (a : AuxNo) (f : AuxAxis → AuxAxis) : (s.modAux a f).nouns = s.nouns := rfl
@[simp] theorem modAux_groups (a : AuxNo) (f : AuxAxis → AuxAxis) : (s.modAux a f).groups = s.groups := rfl
@[simp] theorem modAux_mains (a : AuxNo) (f : AuxAxis → AuxAxis) : (s.modAux a f).mains = s.mains := rfl
@[simp] theorem modAux_auxs (a : AuxNo) (f : AuxAxis → AuxAxis) : (s.modAux a f).auxs = vmod s.auxs a f := rfl
@[simp] theorem modAux_links (a : AuxNo) (f : AuxAxis → AuxAxis) : (s.modAux a f).links = s.links := rfl
@[simp] theorem modAux_engines (a : AuxNo) (f : AuxAxis → AuxAxis) : (s.modAux a f).engines = s.engines := rfl
@[simp] theorem modAux_sense (a : AuxNo) (f : AuxAxis → AuxAxis) : (s.modAux a f).sense = s.sense := rfl
@[simp] theorem modAux_tables (a : AuxNo) (f : AuxAxis → AuxAxis) : (s.modAux a f).tables = s.tables := rfl
@[simp] theorem modAux_fb (a : AuxNo) (f : AuxAxis → AuxAxis) : (s.modAux a f).fb = s.fb := rfl
@[simp] theorem modAux_switches (a : AuxNo) (f : AuxAxis → AuxAxis) : (s.modAux a f).switches = s.switches := rfl
@[simp] theorem modAux_safety (a : AuxNo) (f : AuxAxis → AuxAxis) : (s.modAux a f).safety = s.safety := rfl
@[simp] theorem modAux_requests (a : AuxNo) (f : AuxAxis → AuxAxis) : (s.modAux a f).requests = s.requests := rfl
@[simp] theorem modAux_faults (a : AuxNo) (f : AuxAxis → AuxAxis) : (s.modAux a f).faults = s.faults := rfl
@[simp] theorem modAux_log (a : AuxNo) (f : AuxAxis → AuxAxis) : (s.modAux a f).log = s.log := rfl
@[simp] theorem modAux_mail (a : AuxNo) (f : AuxAxis → AuxAxis) : (s.modAux a f).mail = s.mail := rfl
@[simp] theorem modAux_store (a : AuxNo) (f : AuxAxis → AuxAxis) : (s.modAux a f).store = s.store := rfl
@[simp] theorem modAux_ledger (a : AuxNo) (f : AuxAxis → AuxAxis) : (s.modAux a f).ledger = s.ledger := rfl
@[simp] theorem modAux_life (a : AuxNo) (f : AuxAxis → AuxAxis) : (s.modAux a f).life = s.life := rfl
@[simp] theorem modAux_can (a : AuxNo) (f : AuxAxis → AuxAxis) : (s.modAux a f).can = s.can := rfl
@[simp] theorem modAux_canBufs (a : AuxNo) (f : AuxAxis → AuxAxis) : (s.modAux a f).canBufs = s.canBufs := rfl
@[simp] theorem modAux_roster (a : AuxNo) (f : AuxAxis → AuxAxis) : (s.modAux a f).roster = s.roster := rfl
@[simp] theorem modAux_cascade (a : AuxNo) (f : AuxAxis → AuxAxis) : (s.modAux a f).cascade = s.cascade := rfl
@[simp] theorem modAux_power (a : AuxNo) (f : AuxAxis → AuxAxis) : (s.modAux a f).power = s.power := rfl
@[simp] theorem modAux_retention (a : AuxNo) (f : AuxAxis → AuxAxis) : (s.modAux a f).retention = s.retention := rfl
@[simp] theorem modAux_start (a : AuxNo) (f : AuxAxis → AuxAxis) : (s.modAux a f).start = s.start := rfl
@[simp] theorem modAux_gff (a : AuxNo) (f : AuxAxis → AuxAxis) : (s.modAux a f).gff = s.gff := rfl
@[simp] theorem modAux_test (a : AuxNo) (f : AuxAxis → AuxAxis) : (s.modAux a f).test = s.test := rfl
@[simp] theorem modAux_free (a : AuxNo) (f : AuxAxis → AuxAxis) : (s.modAux a f).free = s.free := rfl
@[simp] theorem modAux_pending (a : AuxNo) (f : AuxAxis → AuxAxis) : (s.modAux a f).pending = s.pending := rfl

/-! ## modGroup -/

@[simp] theorem modGroup_member (g : Grp) (f : Group → Group) : (s.modGroup g f).member = s.member := rfl
@[simp] theorem modGroup_time (g : Grp) (f : Group → Group) : (s.modGroup g f).time = s.time := rfl
@[simp] theorem modGroup_nouns (g : Grp) (f : Group → Group) : (s.modGroup g f).nouns = s.nouns := rfl
@[simp] theorem modGroup_groups (g : Grp) (f : Group → Group) : (s.modGroup g f).groups = vmod s.groups g f := rfl
@[simp] theorem modGroup_mains (g : Grp) (f : Group → Group) : (s.modGroup g f).mains = s.mains := rfl
@[simp] theorem modGroup_auxs (g : Grp) (f : Group → Group) : (s.modGroup g f).auxs = s.auxs := rfl
@[simp] theorem modGroup_links (g : Grp) (f : Group → Group) : (s.modGroup g f).links = s.links := rfl
@[simp] theorem modGroup_engines (g : Grp) (f : Group → Group) : (s.modGroup g f).engines = s.engines := rfl
@[simp] theorem modGroup_sense (g : Grp) (f : Group → Group) : (s.modGroup g f).sense = s.sense := rfl
@[simp] theorem modGroup_tables (g : Grp) (f : Group → Group) : (s.modGroup g f).tables = s.tables := rfl
@[simp] theorem modGroup_fb (g : Grp) (f : Group → Group) : (s.modGroup g f).fb = s.fb := rfl
@[simp] theorem modGroup_switches (g : Grp) (f : Group → Group) : (s.modGroup g f).switches = s.switches := rfl
@[simp] theorem modGroup_safety (g : Grp) (f : Group → Group) : (s.modGroup g f).safety = s.safety := rfl
@[simp] theorem modGroup_requests (g : Grp) (f : Group → Group) : (s.modGroup g f).requests = s.requests := rfl
@[simp] theorem modGroup_faults (g : Grp) (f : Group → Group) : (s.modGroup g f).faults = s.faults := rfl
@[simp] theorem modGroup_log (g : Grp) (f : Group → Group) : (s.modGroup g f).log = s.log := rfl
@[simp] theorem modGroup_mail (g : Grp) (f : Group → Group) : (s.modGroup g f).mail = s.mail := rfl
@[simp] theorem modGroup_store (g : Grp) (f : Group → Group) : (s.modGroup g f).store = s.store := rfl
@[simp] theorem modGroup_ledger (g : Grp) (f : Group → Group) : (s.modGroup g f).ledger = s.ledger := rfl
@[simp] theorem modGroup_life (g : Grp) (f : Group → Group) : (s.modGroup g f).life = s.life := rfl
@[simp] theorem modGroup_can (g : Grp) (f : Group → Group) : (s.modGroup g f).can = s.can := rfl
@[simp] theorem modGroup_canBufs (g : Grp) (f : Group → Group) : (s.modGroup g f).canBufs = s.canBufs := rfl
@[simp] theorem modGroup_roster (g : Grp) (f : Group → Group) : (s.modGroup g f).roster = s.roster := rfl
@[simp] theorem modGroup_cascade (g : Grp) (f : Group → Group) : (s.modGroup g f).cascade = s.cascade := rfl
@[simp] theorem modGroup_power (g : Grp) (f : Group → Group) : (s.modGroup g f).power = s.power := rfl
@[simp] theorem modGroup_retention (g : Grp) (f : Group → Group) : (s.modGroup g f).retention = s.retention := rfl
@[simp] theorem modGroup_start (g : Grp) (f : Group → Group) : (s.modGroup g f).start = s.start := rfl
@[simp] theorem modGroup_gff (g : Grp) (f : Group → Group) : (s.modGroup g f).gff = s.gff := rfl
@[simp] theorem modGroup_test (g : Grp) (f : Group → Group) : (s.modGroup g f).test = s.test := rfl
@[simp] theorem modGroup_free (g : Grp) (f : Group → Group) : (s.modGroup g f).free = s.free := rfl
@[simp] theorem modGroup_pending (g : Grp) (f : Group → Group) : (s.modGroup g f).pending = s.pending := rfl

/-! ## modYield -/

@[simp] theorem modYield_member (g : Grp) (f : YieldSt → YieldSt) : (s.modYield g f).member = s.member := rfl
@[simp] theorem modYield_time (g : Grp) (f : YieldSt → YieldSt) : (s.modYield g f).time = s.time := rfl
@[simp] theorem modYield_nouns (g : Grp) (f : YieldSt → YieldSt) : (s.modYield g f).nouns = s.nouns := rfl
@[simp] theorem modYield_groups (g : Grp) (f : YieldSt → YieldSt) : (s.modYield g f).groups = vmod s.groups g fun x => { x with yield := f x.yield } := rfl
@[simp] theorem modYield_mains (g : Grp) (f : YieldSt → YieldSt) : (s.modYield g f).mains = s.mains := rfl
@[simp] theorem modYield_auxs (g : Grp) (f : YieldSt → YieldSt) : (s.modYield g f).auxs = s.auxs := rfl
@[simp] theorem modYield_links (g : Grp) (f : YieldSt → YieldSt) : (s.modYield g f).links = s.links := rfl
@[simp] theorem modYield_engines (g : Grp) (f : YieldSt → YieldSt) : (s.modYield g f).engines = s.engines := rfl
@[simp] theorem modYield_sense (g : Grp) (f : YieldSt → YieldSt) : (s.modYield g f).sense = s.sense := rfl
@[simp] theorem modYield_tables (g : Grp) (f : YieldSt → YieldSt) : (s.modYield g f).tables = s.tables := rfl
@[simp] theorem modYield_fb (g : Grp) (f : YieldSt → YieldSt) : (s.modYield g f).fb = s.fb := rfl
@[simp] theorem modYield_switches (g : Grp) (f : YieldSt → YieldSt) : (s.modYield g f).switches = s.switches := rfl
@[simp] theorem modYield_safety (g : Grp) (f : YieldSt → YieldSt) : (s.modYield g f).safety = s.safety := rfl
@[simp] theorem modYield_requests (g : Grp) (f : YieldSt → YieldSt) : (s.modYield g f).requests = s.requests := rfl
@[simp] theorem modYield_faults (g : Grp) (f : YieldSt → YieldSt) : (s.modYield g f).faults = s.faults := rfl
@[simp] theorem modYield_log (g : Grp) (f : YieldSt → YieldSt) : (s.modYield g f).log = s.log := rfl
@[simp] theorem modYield_mail (g : Grp) (f : YieldSt → YieldSt) : (s.modYield g f).mail = s.mail := rfl
@[simp] theorem modYield_store (g : Grp) (f : YieldSt → YieldSt) : (s.modYield g f).store = s.store := rfl
@[simp] theorem modYield_ledger (g : Grp) (f : YieldSt → YieldSt) : (s.modYield g f).ledger = s.ledger := rfl
@[simp] theorem modYield_life (g : Grp) (f : YieldSt → YieldSt) : (s.modYield g f).life = s.life := rfl
@[simp] theorem modYield_can (g : Grp) (f : YieldSt → YieldSt) : (s.modYield g f).can = s.can := rfl
@[simp] theorem modYield_canBufs (g : Grp) (f : YieldSt → YieldSt) : (s.modYield g f).canBufs = s.canBufs := rfl
@[simp] theorem modYield_roster (g : Grp) (f : YieldSt → YieldSt) : (s.modYield g f).roster = s.roster := rfl
@[simp] theorem modYield_cascade (g : Grp) (f : YieldSt → YieldSt) : (s.modYield g f).cascade = s.cascade := rfl
@[simp] theorem modYield_power (g : Grp) (f : YieldSt → YieldSt) : (s.modYield g f).power = s.power := rfl
@[simp] theorem modYield_retention (g : Grp) (f : YieldSt → YieldSt) : (s.modYield g f).retention = s.retention := rfl
@[simp] theorem modYield_start (g : Grp) (f : YieldSt → YieldSt) : (s.modYield g f).start = s.start := rfl
@[simp] theorem modYield_gff (g : Grp) (f : YieldSt → YieldSt) : (s.modYield g f).gff = s.gff := rfl
@[simp] theorem modYield_test (g : Grp) (f : YieldSt → YieldSt) : (s.modYield g f).test = s.test := rfl
@[simp] theorem modYield_free (g : Grp) (f : YieldSt → YieldSt) : (s.modYield g f).free = s.free := rfl
@[simp] theorem modYield_pending (g : Grp) (f : YieldSt → YieldSt) : (s.modYield g f).pending = s.pending := rfl

/-! ## modLink -/

@[simp] theorem modLink_member (l : LinkNo) (f : Link → Link) : (s.modLink l f).member = s.member := rfl
@[simp] theorem modLink_time (l : LinkNo) (f : Link → Link) : (s.modLink l f).time = s.time := rfl
@[simp] theorem modLink_nouns (l : LinkNo) (f : Link → Link) : (s.modLink l f).nouns = s.nouns := rfl
@[simp] theorem modLink_groups (l : LinkNo) (f : Link → Link) : (s.modLink l f).groups = s.groups := rfl
@[simp] theorem modLink_mains (l : LinkNo) (f : Link → Link) : (s.modLink l f).mains = s.mains := rfl
@[simp] theorem modLink_auxs (l : LinkNo) (f : Link → Link) : (s.modLink l f).auxs = s.auxs := rfl
@[simp] theorem modLink_links (l : LinkNo) (f : Link → Link) : (s.modLink l f).links = vmod s.links l f := rfl
@[simp] theorem modLink_engines (l : LinkNo) (f : Link → Link) : (s.modLink l f).engines = s.engines := rfl
@[simp] theorem modLink_sense (l : LinkNo) (f : Link → Link) : (s.modLink l f).sense = s.sense := rfl
@[simp] theorem modLink_tables (l : LinkNo) (f : Link → Link) : (s.modLink l f).tables = s.tables := rfl
@[simp] theorem modLink_fb (l : LinkNo) (f : Link → Link) : (s.modLink l f).fb = s.fb := rfl
@[simp] theorem modLink_switches (l : LinkNo) (f : Link → Link) : (s.modLink l f).switches = s.switches := rfl
@[simp] theorem modLink_safety (l : LinkNo) (f : Link → Link) : (s.modLink l f).safety = s.safety := rfl
@[simp] theorem modLink_requests (l : LinkNo) (f : Link → Link) : (s.modLink l f).requests = s.requests := rfl
@[simp] theorem modLink_faults (l : LinkNo) (f : Link → Link) : (s.modLink l f).faults = s.faults := rfl
@[simp] theorem modLink_log (l : LinkNo) (f : Link → Link) : (s.modLink l f).log = s.log := rfl
@[simp] theorem modLink_mail (l : LinkNo) (f : Link → Link) : (s.modLink l f).mail = s.mail := rfl
@[simp] theorem modLink_store (l : LinkNo) (f : Link → Link) : (s.modLink l f).store = s.store := rfl
@[simp] theorem modLink_ledger (l : LinkNo) (f : Link → Link) : (s.modLink l f).ledger = s.ledger := rfl
@[simp] theorem modLink_life (l : LinkNo) (f : Link → Link) : (s.modLink l f).life = s.life := rfl
@[simp] theorem modLink_can (l : LinkNo) (f : Link → Link) : (s.modLink l f).can = s.can := rfl
@[simp] theorem modLink_canBufs (l : LinkNo) (f : Link → Link) : (s.modLink l f).canBufs = s.canBufs := rfl
@[simp] theorem modLink_roster (l : LinkNo) (f : Link → Link) : (s.modLink l f).roster = s.roster := rfl
@[simp] theorem modLink_cascade (l : LinkNo) (f : Link → Link) : (s.modLink l f).cascade = s.cascade := rfl
@[simp] theorem modLink_power (l : LinkNo) (f : Link → Link) : (s.modLink l f).power = s.power := rfl
@[simp] theorem modLink_retention (l : LinkNo) (f : Link → Link) : (s.modLink l f).retention = s.retention := rfl
@[simp] theorem modLink_start (l : LinkNo) (f : Link → Link) : (s.modLink l f).start = s.start := rfl
@[simp] theorem modLink_gff (l : LinkNo) (f : Link → Link) : (s.modLink l f).gff = s.gff := rfl
@[simp] theorem modLink_test (l : LinkNo) (f : Link → Link) : (s.modLink l f).test = s.test := rfl
@[simp] theorem modLink_free (l : LinkNo) (f : Link → Link) : (s.modLink l f).free = s.free := rfl
@[simp] theorem modLink_pending (l : LinkNo) (f : Link → Link) : (s.modLink l f).pending = s.pending := rfl

/-! ## modFb -/

@[simp] theorem modFb_member (n : FbNo) (f : FbUnit → FbUnit) : (s.modFb n f).member = s.member := rfl
@[simp] theorem modFb_time (n : FbNo) (f : FbUnit → FbUnit) : (s.modFb n f).time = s.time := rfl
@[simp] theorem modFb_nouns (n : FbNo) (f : FbUnit → FbUnit) : (s.modFb n f).nouns = s.nouns := rfl
@[simp] theorem modFb_groups (n : FbNo) (f : FbUnit → FbUnit) : (s.modFb n f).groups = s.groups := rfl
@[simp] theorem modFb_mains (n : FbNo) (f : FbUnit → FbUnit) : (s.modFb n f).mains = s.mains := rfl
@[simp] theorem modFb_auxs (n : FbNo) (f : FbUnit → FbUnit) : (s.modFb n f).auxs = s.auxs := rfl
@[simp] theorem modFb_links (n : FbNo) (f : FbUnit → FbUnit) : (s.modFb n f).links = s.links := rfl
@[simp] theorem modFb_engines (n : FbNo) (f : FbUnit → FbUnit) : (s.modFb n f).engines = s.engines := rfl
@[simp] theorem modFb_sense (n : FbNo) (f : FbUnit → FbUnit) : (s.modFb n f).sense = s.sense := rfl
@[simp] theorem modFb_tables (n : FbNo) (f : FbUnit → FbUnit) : (s.modFb n f).tables = s.tables := rfl
@[simp] theorem modFb_fb (n : FbNo) (f : FbUnit → FbUnit) : (s.modFb n f).fb = vmod s.fb n f := rfl
@[simp] theorem modFb_switches (n : FbNo) (f : FbUnit → FbUnit) : (s.modFb n f).switches = s.switches := rfl
@[simp] theorem modFb_safety (n : FbNo) (f : FbUnit → FbUnit) : (s.modFb n f).safety = s.safety := rfl
@[simp] theorem modFb_requests (n : FbNo) (f : FbUnit → FbUnit) : (s.modFb n f).requests = s.requests := rfl
@[simp] theorem modFb_faults (n : FbNo) (f : FbUnit → FbUnit) : (s.modFb n f).faults = s.faults := rfl
@[simp] theorem modFb_log (n : FbNo) (f : FbUnit → FbUnit) : (s.modFb n f).log = s.log := rfl
@[simp] theorem modFb_mail (n : FbNo) (f : FbUnit → FbUnit) : (s.modFb n f).mail = s.mail := rfl
@[simp] theorem modFb_store (n : FbNo) (f : FbUnit → FbUnit) : (s.modFb n f).store = s.store := rfl
@[simp] theorem modFb_ledger (n : FbNo) (f : FbUnit → FbUnit) : (s.modFb n f).ledger = s.ledger := rfl
@[simp] theorem modFb_life (n : FbNo) (f : FbUnit → FbUnit) : (s.modFb n f).life = s.life := rfl
@[simp] theorem modFb_can (n : FbNo) (f : FbUnit → FbUnit) : (s.modFb n f).can = s.can := rfl
@[simp] theorem modFb_canBufs (n : FbNo) (f : FbUnit → FbUnit) : (s.modFb n f).canBufs = s.canBufs := rfl
@[simp] theorem modFb_roster (n : FbNo) (f : FbUnit → FbUnit) : (s.modFb n f).roster = s.roster := rfl
@[simp] theorem modFb_cascade (n : FbNo) (f : FbUnit → FbUnit) : (s.modFb n f).cascade = s.cascade := rfl
@[simp] theorem modFb_power (n : FbNo) (f : FbUnit → FbUnit) : (s.modFb n f).power = s.power := rfl
@[simp] theorem modFb_retention (n : FbNo) (f : FbUnit → FbUnit) : (s.modFb n f).retention = s.retention := rfl
@[simp] theorem modFb_start (n : FbNo) (f : FbUnit → FbUnit) : (s.modFb n f).start = s.start := rfl
@[simp] theorem modFb_gff (n : FbNo) (f : FbUnit → FbUnit) : (s.modFb n f).gff = s.gff := rfl
@[simp] theorem modFb_test (n : FbNo) (f : FbUnit → FbUnit) : (s.modFb n f).test = s.test := rfl
@[simp] theorem modFb_free (n : FbNo) (f : FbUnit → FbUnit) : (s.modFb n f).free = s.free := rfl
@[simp] theorem modFb_pending (n : FbNo) (f : FbUnit → FbUnit) : (s.modFb n f).pending = s.pending := rfl

/-! ## modPort -/

@[simp] theorem modPort_member (p : Port) (f : CanPort → CanPort) : (s.modPort p f).member = s.member := rfl
@[simp] theorem modPort_time (p : Port) (f : CanPort → CanPort) : (s.modPort p f).time = s.time := rfl
@[simp] theorem modPort_nouns (p : Port) (f : CanPort → CanPort) : (s.modPort p f).nouns = s.nouns := rfl
@[simp] theorem modPort_groups (p : Port) (f : CanPort → CanPort) : (s.modPort p f).groups = s.groups := rfl
@[simp] theorem modPort_mains (p : Port) (f : CanPort → CanPort) : (s.modPort p f).mains = s.mains := rfl
@[simp] theorem modPort_auxs (p : Port) (f : CanPort → CanPort) : (s.modPort p f).auxs = s.auxs := rfl
@[simp] theorem modPort_links (p : Port) (f : CanPort → CanPort) : (s.modPort p f).links = s.links := rfl
@[simp] theorem modPort_engines (p : Port) (f : CanPort → CanPort) : (s.modPort p f).engines = s.engines := rfl
@[simp] theorem modPort_sense (p : Port) (f : CanPort → CanPort) : (s.modPort p f).sense = s.sense := rfl
@[simp] theorem modPort_tables (p : Port) (f : CanPort → CanPort) : (s.modPort p f).tables = s.tables := rfl
@[simp] theorem modPort_fb (p : Port) (f : CanPort → CanPort) : (s.modPort p f).fb = s.fb := rfl
@[simp] theorem modPort_switches (p : Port) (f : CanPort → CanPort) : (s.modPort p f).switches = s.switches := rfl
@[simp] theorem modPort_safety (p : Port) (f : CanPort → CanPort) : (s.modPort p f).safety = s.safety := rfl
@[simp] theorem modPort_requests (p : Port) (f : CanPort → CanPort) : (s.modPort p f).requests = s.requests := rfl
@[simp] theorem modPort_faults (p : Port) (f : CanPort → CanPort) : (s.modPort p f).faults = s.faults := rfl
@[simp] theorem modPort_log (p : Port) (f : CanPort → CanPort) : (s.modPort p f).log = s.log := rfl
@[simp] theorem modPort_mail (p : Port) (f : CanPort → CanPort) : (s.modPort p f).mail = s.mail := rfl
@[simp] theorem modPort_store (p : Port) (f : CanPort → CanPort) : (s.modPort p f).store = s.store := rfl
@[simp] theorem modPort_ledger (p : Port) (f : CanPort → CanPort) : (s.modPort p f).ledger = s.ledger := rfl
@[simp] theorem modPort_life (p : Port) (f : CanPort → CanPort) : (s.modPort p f).life = s.life := rfl
@[simp] theorem modPort_can (p : Port) (f : CanPort → CanPort) : (s.modPort p f).can = vmod s.can p f := rfl
@[simp] theorem modPort_canBufs (p : Port) (f : CanPort → CanPort) : (s.modPort p f).canBufs = s.canBufs := rfl
@[simp] theorem modPort_roster (p : Port) (f : CanPort → CanPort) : (s.modPort p f).roster = s.roster := rfl
@[simp] theorem modPort_cascade (p : Port) (f : CanPort → CanPort) : (s.modPort p f).cascade = s.cascade := rfl
@[simp] theorem modPort_power (p : Port) (f : CanPort → CanPort) : (s.modPort p f).power = s.power := rfl
@[simp] theorem modPort_retention (p : Port) (f : CanPort → CanPort) : (s.modPort p f).retention = s.retention := rfl
@[simp] theorem modPort_start (p : Port) (f : CanPort → CanPort) : (s.modPort p f).start = s.start := rfl
@[simp] theorem modPort_gff (p : Port) (f : CanPort → CanPort) : (s.modPort p f).gff = s.gff := rfl
@[simp] theorem modPort_test (p : Port) (f : CanPort → CanPort) : (s.modPort p f).test = s.test := rfl
@[simp] theorem modPort_free (p : Port) (f : CanPort → CanPort) : (s.modPort p f).free = s.free := rfl
@[simp] theorem modPort_pending (p : Port) (f : CanPort → CanPort) : (s.modPort p f).pending = s.pending := rfl

/-! ## modBufs -/

@[simp] theorem modBufs_member (p : Port) (f : CanBufs → CanBufs) : (s.modBufs p f).member = s.member := rfl
@[simp] theorem modBufs_time (p : Port) (f : CanBufs → CanBufs) : (s.modBufs p f).time = s.time := rfl
@[simp] theorem modBufs_nouns (p : Port) (f : CanBufs → CanBufs) : (s.modBufs p f).nouns = s.nouns := rfl
@[simp] theorem modBufs_groups (p : Port) (f : CanBufs → CanBufs) : (s.modBufs p f).groups = s.groups := rfl
@[simp] theorem modBufs_mains (p : Port) (f : CanBufs → CanBufs) : (s.modBufs p f).mains = s.mains := rfl
@[simp] theorem modBufs_auxs (p : Port) (f : CanBufs → CanBufs) : (s.modBufs p f).auxs = s.auxs := rfl
@[simp] theorem modBufs_links (p : Port) (f : CanBufs → CanBufs) : (s.modBufs p f).links = s.links := rfl
@[simp] theorem modBufs_engines (p : Port) (f : CanBufs → CanBufs) : (s.modBufs p f).engines = s.engines := rfl
@[simp] theorem modBufs_sense (p : Port) (f : CanBufs → CanBufs) : (s.modBufs p f).sense = s.sense := rfl
@[simp] theorem modBufs_tables (p : Port) (f : CanBufs → CanBufs) : (s.modBufs p f).tables = s.tables := rfl
@[simp] theorem modBufs_fb (p : Port) (f : CanBufs → CanBufs) : (s.modBufs p f).fb = s.fb := rfl
@[simp] theorem modBufs_switches (p : Port) (f : CanBufs → CanBufs) : (s.modBufs p f).switches = s.switches := rfl
@[simp] theorem modBufs_safety (p : Port) (f : CanBufs → CanBufs) : (s.modBufs p f).safety = s.safety := rfl
@[simp] theorem modBufs_requests (p : Port) (f : CanBufs → CanBufs) : (s.modBufs p f).requests = s.requests := rfl
@[simp] theorem modBufs_faults (p : Port) (f : CanBufs → CanBufs) : (s.modBufs p f).faults = s.faults := rfl
@[simp] theorem modBufs_log (p : Port) (f : CanBufs → CanBufs) : (s.modBufs p f).log = s.log := rfl
@[simp] theorem modBufs_mail (p : Port) (f : CanBufs → CanBufs) : (s.modBufs p f).mail = s.mail := rfl
@[simp] theorem modBufs_store (p : Port) (f : CanBufs → CanBufs) : (s.modBufs p f).store = s.store := rfl
@[simp] theorem modBufs_ledger (p : Port) (f : CanBufs → CanBufs) : (s.modBufs p f).ledger = s.ledger := rfl
@[simp] theorem modBufs_life (p : Port) (f : CanBufs → CanBufs) : (s.modBufs p f).life = s.life := rfl
@[simp] theorem modBufs_can (p : Port) (f : CanBufs → CanBufs) : (s.modBufs p f).can = s.can := rfl
@[simp] theorem modBufs_canBufs (p : Port) (f : CanBufs → CanBufs) : (s.modBufs p f).canBufs = vmod s.canBufs p f := rfl
@[simp] theorem modBufs_roster (p : Port) (f : CanBufs → CanBufs) : (s.modBufs p f).roster = s.roster := rfl
@[simp] theorem modBufs_cascade (p : Port) (f : CanBufs → CanBufs) : (s.modBufs p f).cascade = s.cascade := rfl
@[simp] theorem modBufs_power (p : Port) (f : CanBufs → CanBufs) : (s.modBufs p f).power = s.power := rfl
@[simp] theorem modBufs_retention (p : Port) (f : CanBufs → CanBufs) : (s.modBufs p f).retention = s.retention := rfl
@[simp] theorem modBufs_start (p : Port) (f : CanBufs → CanBufs) : (s.modBufs p f).start = s.start := rfl
@[simp] theorem modBufs_gff (p : Port) (f : CanBufs → CanBufs) : (s.modBufs p f).gff = s.gff := rfl
@[simp] theorem modBufs_test (p : Port) (f : CanBufs → CanBufs) : (s.modBufs p f).test = s.test := rfl
@[simp] theorem modBufs_free (p : Port) (f : CanBufs → CanBufs) : (s.modBufs p f).free = s.free := rfl
@[simp] theorem modBufs_pending (p : Port) (f : CanBufs → CanBufs) : (s.modBufs p f).pending = s.pending := rfl

/-! ## modMail -/

@[simp] theorem modMail_member (f : MailSt → MailSt) : (s.modMail f).member = s.member := rfl
@[simp] theorem modMail_time (f : MailSt → MailSt) : (s.modMail f).time = s.time := rfl
@[simp] theorem modMail_nouns (f : MailSt → MailSt) : (s.modMail f).nouns = s.nouns := rfl
@[simp] theorem modMail_groups (f : MailSt → MailSt) : (s.modMail f).groups = s.groups := rfl
@[simp] theorem modMail_mains (f : MailSt → MailSt) : (s.modMail f).mains = s.mains := rfl
@[simp] theorem modMail_auxs (f : MailSt → MailSt) : (s.modMail f).auxs = s.auxs := rfl
@[simp] theorem modMail_links (f : MailSt → MailSt) : (s.modMail f).links = s.links := rfl
@[simp] theorem modMail_engines (f : MailSt → MailSt) : (s.modMail f).engines = s.engines := rfl
@[simp] theorem modMail_sense (f : MailSt → MailSt) : (s.modMail f).sense = s.sense := rfl
@[simp] theorem modMail_tables (f : MailSt → MailSt) : (s.modMail f).tables = s.tables := rfl
@[simp] theorem modMail_fb (f : MailSt → MailSt) : (s.modMail f).fb = s.fb := rfl
@[simp] theorem modMail_switches (f : MailSt → MailSt) : (s.modMail f).switches = s.switches := rfl
@[simp] theorem modMail_safety (f : MailSt → MailSt) : (s.modMail f).safety = s.safety := rfl
@[simp] theorem modMail_requests (f : MailSt → MailSt) : (s.modMail f).requests = s.requests := rfl
@[simp] theorem modMail_faults (f : MailSt → MailSt) : (s.modMail f).faults = s.faults := rfl
@[simp] theorem modMail_log (f : MailSt → MailSt) : (s.modMail f).log = s.log := rfl
@[simp] theorem modMail_mail (f : MailSt → MailSt) : (s.modMail f).mail = f s.mail := rfl
@[simp] theorem modMail_store (f : MailSt → MailSt) : (s.modMail f).store = s.store := rfl
@[simp] theorem modMail_ledger (f : MailSt → MailSt) : (s.modMail f).ledger = s.ledger := rfl
@[simp] theorem modMail_life (f : MailSt → MailSt) : (s.modMail f).life = s.life := rfl
@[simp] theorem modMail_can (f : MailSt → MailSt) : (s.modMail f).can = s.can := rfl
@[simp] theorem modMail_canBufs (f : MailSt → MailSt) : (s.modMail f).canBufs = s.canBufs := rfl
@[simp] theorem modMail_roster (f : MailSt → MailSt) : (s.modMail f).roster = s.roster := rfl
@[simp] theorem modMail_cascade (f : MailSt → MailSt) : (s.modMail f).cascade = s.cascade := rfl
@[simp] theorem modMail_power (f : MailSt → MailSt) : (s.modMail f).power = s.power := rfl
@[simp] theorem modMail_retention (f : MailSt → MailSt) : (s.modMail f).retention = s.retention := rfl
@[simp] theorem modMail_start (f : MailSt → MailSt) : (s.modMail f).start = s.start := rfl
@[simp] theorem modMail_gff (f : MailSt → MailSt) : (s.modMail f).gff = s.gff := rfl
@[simp] theorem modMail_test (f : MailSt → MailSt) : (s.modMail f).test = s.test := rfl
@[simp] theorem modMail_free (f : MailSt → MailSt) : (s.modMail f).free = s.free := rfl
@[simp] theorem modMail_pending (f : MailSt → MailSt) : (s.modMail f).pending = s.pending := rfl

/-! ## modSafety -/

@[simp] theorem modSafety_member (f : SafetySt → SafetySt) : (s.modSafety f).member = s.member := rfl
@[simp] theorem modSafety_time (f : SafetySt → SafetySt) : (s.modSafety f).time = s.time := rfl
@[simp] theorem modSafety_nouns (f : SafetySt → SafetySt) : (s.modSafety f).nouns = s.nouns := rfl
@[simp] theorem modSafety_groups (f : SafetySt → SafetySt) : (s.modSafety f).groups = s.groups := rfl
@[simp] theorem modSafety_mains (f : SafetySt → SafetySt) : (s.modSafety f).mains = s.mains := rfl
@[simp] theorem modSafety_auxs (f : SafetySt → SafetySt) : (s.modSafety f).auxs = s.auxs := rfl
@[simp] theorem modSafety_links (f : SafetySt → SafetySt) : (s.modSafety f).links = s.links := rfl
@[simp] theorem modSafety_engines (f : SafetySt → SafetySt) : (s.modSafety f).engines = s.engines := rfl
@[simp] theorem modSafety_sense (f : SafetySt → SafetySt) : (s.modSafety f).sense = s.sense := rfl
@[simp] theorem modSafety_tables (f : SafetySt → SafetySt) : (s.modSafety f).tables = s.tables := rfl
@[simp] theorem modSafety_fb (f : SafetySt → SafetySt) : (s.modSafety f).fb = s.fb := rfl
@[simp] theorem modSafety_switches (f : SafetySt → SafetySt) : (s.modSafety f).switches = s.switches := rfl
@[simp] theorem modSafety_safety (f : SafetySt → SafetySt) : (s.modSafety f).safety = f s.safety := rfl
@[simp] theorem modSafety_requests (f : SafetySt → SafetySt) : (s.modSafety f).requests = s.requests := rfl
@[simp] theorem modSafety_faults (f : SafetySt → SafetySt) : (s.modSafety f).faults = s.faults := rfl
@[simp] theorem modSafety_log (f : SafetySt → SafetySt) : (s.modSafety f).log = s.log := rfl
@[simp] theorem modSafety_mail (f : SafetySt → SafetySt) : (s.modSafety f).mail = s.mail := rfl
@[simp] theorem modSafety_store (f : SafetySt → SafetySt) : (s.modSafety f).store = s.store := rfl
@[simp] theorem modSafety_ledger (f : SafetySt → SafetySt) : (s.modSafety f).ledger = s.ledger := rfl
@[simp] theorem modSafety_life (f : SafetySt → SafetySt) : (s.modSafety f).life = s.life := rfl
@[simp] theorem modSafety_can (f : SafetySt → SafetySt) : (s.modSafety f).can = s.can := rfl
@[simp] theorem modSafety_canBufs (f : SafetySt → SafetySt) : (s.modSafety f).canBufs = s.canBufs := rfl
@[simp] theorem modSafety_roster (f : SafetySt → SafetySt) : (s.modSafety f).roster = s.roster := rfl
@[simp] theorem modSafety_cascade (f : SafetySt → SafetySt) : (s.modSafety f).cascade = s.cascade := rfl
@[simp] theorem modSafety_power (f : SafetySt → SafetySt) : (s.modSafety f).power = s.power := rfl
@[simp] theorem modSafety_retention (f : SafetySt → SafetySt) : (s.modSafety f).retention = s.retention := rfl
@[simp] theorem modSafety_start (f : SafetySt → SafetySt) : (s.modSafety f).start = s.start := rfl
@[simp] theorem modSafety_gff (f : SafetySt → SafetySt) : (s.modSafety f).gff = s.gff := rfl
@[simp] theorem modSafety_test (f : SafetySt → SafetySt) : (s.modSafety f).test = s.test := rfl
@[simp] theorem modSafety_free (f : SafetySt → SafetySt) : (s.modSafety f).free = s.free := rfl
@[simp] theorem modSafety_pending (f : SafetySt → SafetySt) : (s.modSafety f).pending = s.pending := rfl

/-! ## modReq -/

@[simp] theorem modReq_member (f : RequestSt → RequestSt) : (s.modReq f).member = s.member := rfl
@[simp] theorem modReq_time (f : RequestSt → RequestSt) : (s.modReq f).time = s.time := rfl
@[simp] theorem modReq_nouns (f : RequestSt → RequestSt) : (s.modReq f).nouns = s.nouns := rfl
@[simp] theorem modReq_groups (f : RequestSt → RequestSt) : (s.modReq f).groups = s.groups := rfl
@[simp] theorem modReq_mains (f : RequestSt → RequestSt) : (s.modReq f).mains = s.mains := rfl
@[simp] theorem modReq_auxs (f : RequestSt → RequestSt) : (s.modReq f).auxs = s.auxs := rfl
@[simp] theorem modReq_links (f : RequestSt → RequestSt) : (s.modReq f).links = s.links := rfl
@[simp] theorem modReq_engines (f : RequestSt → RequestSt) : (s.modReq f).engines = s.engines := rfl
@[simp] theorem modReq_sense (f : RequestSt → RequestSt) : (s.modReq f).sense = s.sense := rfl
@[simp] theorem modReq_tables (f : RequestSt → RequestSt) : (s.modReq f).tables = s.tables := rfl
@[simp] theorem modReq_fb (f : RequestSt → RequestSt) : (s.modReq f).fb = s.fb := rfl
@[simp] theorem modReq_switches (f : RequestSt → RequestSt) : (s.modReq f).switches = s.switches := rfl
@[simp] theorem modReq_safety (f : RequestSt → RequestSt) : (s.modReq f).safety = s.safety := rfl
@[simp] theorem modReq_requests (f : RequestSt → RequestSt) : (s.modReq f).requests = f s.requests := rfl
@[simp] theorem modReq_faults (f : RequestSt → RequestSt) : (s.modReq f).faults = s.faults := rfl
@[simp] theorem modReq_log (f : RequestSt → RequestSt) : (s.modReq f).log = s.log := rfl
@[simp] theorem modReq_mail (f : RequestSt → RequestSt) : (s.modReq f).mail = s.mail := rfl
@[simp] theorem modReq_store (f : RequestSt → RequestSt) : (s.modReq f).store = s.store := rfl
@[simp] theorem modReq_ledger (f : RequestSt → RequestSt) : (s.modReq f).ledger = s.ledger := rfl
@[simp] theorem modReq_life (f : RequestSt → RequestSt) : (s.modReq f).life = s.life := rfl
@[simp] theorem modReq_can (f : RequestSt → RequestSt) : (s.modReq f).can = s.can := rfl
@[simp] theorem modReq_canBufs (f : RequestSt → RequestSt) : (s.modReq f).canBufs = s.canBufs := rfl
@[simp] theorem modReq_roster (f : RequestSt → RequestSt) : (s.modReq f).roster = s.roster := rfl
@[simp] theorem modReq_cascade (f : RequestSt → RequestSt) : (s.modReq f).cascade = s.cascade := rfl
@[simp] theorem modReq_power (f : RequestSt → RequestSt) : (s.modReq f).power = s.power := rfl
@[simp] theorem modReq_retention (f : RequestSt → RequestSt) : (s.modReq f).retention = s.retention := rfl
@[simp] theorem modReq_start (f : RequestSt → RequestSt) : (s.modReq f).start = s.start := rfl
@[simp] theorem modReq_gff (f : RequestSt → RequestSt) : (s.modReq f).gff = s.gff := rfl
@[simp] theorem modReq_test (f : RequestSt → RequestSt) : (s.modReq f).test = s.test := rfl
@[simp] theorem modReq_free (f : RequestSt → RequestSt) : (s.modReq f).free = s.free := rfl
@[simp] theorem modReq_pending (f : RequestSt → RequestSt) : (s.modReq f).pending = s.pending := rfl

/-! ## modCascade -/

@[simp] theorem modCascade_member (f : CascadeSt → CascadeSt) : (s.modCascade f).member = s.member := rfl
@[simp] theorem modCascade_time (f : CascadeSt → CascadeSt) : (s.modCascade f).time = s.time := rfl
@[simp] theorem modCascade_nouns (f : CascadeSt → CascadeSt) : (s.modCascade f).nouns = s.nouns := rfl
@[simp] theorem modCascade_groups (f : CascadeSt → CascadeSt) : (s.modCascade f).groups = s.groups := rfl
@[simp] theorem modCascade_mains (f : CascadeSt → CascadeSt) : (s.modCascade f).mains = s.mains := rfl
@[simp] theorem modCascade_auxs (f : CascadeSt → CascadeSt) : (s.modCascade f).auxs = s.auxs := rfl
@[simp] theorem modCascade_links (f : CascadeSt → CascadeSt) : (s.modCascade f).links = s.links := rfl
@[simp] theorem modCascade_engines (f : CascadeSt → CascadeSt) : (s.modCascade f).engines = s.engines := rfl
@[simp] theorem modCascade_sense (f : CascadeSt → CascadeSt) : (s.modCascade f).sense = s.sense := rfl
@[simp] theorem modCascade_tables (f : CascadeSt → CascadeSt) : (s.modCascade f).tables = s.tables := rfl
@[simp] theorem modCascade_fb (f : CascadeSt → CascadeSt) : (s.modCascade f).fb = s.fb := rfl
@[simp] theorem modCascade_switches (f : CascadeSt → CascadeSt) : (s.modCascade f).switches = s.switches := rfl
@[simp] theorem modCascade_safety (f : CascadeSt → CascadeSt) : (s.modCascade f).safety = s.safety := rfl
@[simp] theorem modCascade_requests (f : CascadeSt → CascadeSt) : (s.modCascade f).requests = s.requests := rfl
@[simp] theorem modCascade_faults (f : CascadeSt → CascadeSt) : (s.modCascade f).faults = s.faults := rfl
@[simp] theorem modCascade_log (f : CascadeSt → CascadeSt) : (s.modCascade f).log = s.log := rfl
@[simp] theorem modCascade_mail (f : CascadeSt → CascadeSt) : (s.modCascade f).mail = s.mail := rfl
@[simp] theorem modCascade_store (f : CascadeSt → CascadeSt) : (s.modCascade f).store = s.store := rfl
@[simp] theorem modCascade_ledger (f : CascadeSt → CascadeSt) : (s.modCascade f).ledger = s.ledger := rfl
@[simp] theorem modCascade_life (f : CascadeSt → CascadeSt) : (s.modCascade f).life = s.life := rfl
@[simp] theorem modCascade_can (f : CascadeSt → CascadeSt) : (s.modCascade f).can = s.can := rfl
@[simp] theorem modCascade_canBufs (f : CascadeSt → CascadeSt) : (s.modCascade f).canBufs = s.canBufs := rfl
@[simp] theorem modCascade_roster (f : CascadeSt → CascadeSt) : (s.modCascade f).roster = s.roster := rfl
@[simp] theorem modCascade_cascade (f : CascadeSt → CascadeSt) : (s.modCascade f).cascade = f s.cascade := rfl
@[simp] theorem modCascade_power (f : CascadeSt → CascadeSt) : (s.modCascade f).power = s.power := rfl
@[simp] theorem modCascade_retention (f : CascadeSt → CascadeSt) : (s.modCascade f).retention = s.retention := rfl
@[simp] theorem modCascade_start (f : CascadeSt → CascadeSt) : (s.modCascade f).start = s.start := rfl
@[simp] theorem modCascade_gff (f : CascadeSt → CascadeSt) : (s.modCascade f).gff = s.gff := rfl
@[simp] theorem modCascade_test (f : CascadeSt → CascadeSt) : (s.modCascade f).test = s.test := rfl
@[simp] theorem modCascade_free (f : CascadeSt → CascadeSt) : (s.modCascade f).free = s.free := rfl
@[simp] theorem modCascade_pending (f : CascadeSt → CascadeSt) : (s.modCascade f).pending = s.pending := rfl

/-! ## modGff -/

@[simp] theorem modGff_member (f : GffSt → GffSt) : (s.modGff f).member = s.member := rfl
@[simp] theorem modGff_time (f : GffSt → GffSt) : (s.modGff f).time = s.time := rfl
@[simp] theorem modGff_nouns (f : GffSt → GffSt) : (s.modGff f).nouns = s.nouns := rfl
@[simp] theorem modGff_groups (f : GffSt → GffSt) : (s.modGff f).groups = s.groups := rfl
@[simp] theorem modGff_mains (f : GffSt → GffSt) : (s.modGff f).mains = s.mains := rfl
@[simp] theorem modGff_auxs (f : GffSt → GffSt) : (s.modGff f).auxs = s.auxs := rfl
@[simp] theorem modGff_links (f : GffSt → GffSt) : (s.modGff f).links = s.links := rfl
@[simp] theorem modGff_engines (f : GffSt → GffSt) : (s.modGff f).engines = s.engines := rfl
@[simp] theorem modGff_sense (f : GffSt → GffSt) : (s.modGff f).sense = s.sense := rfl
@[simp] theorem modGff_tables (f : GffSt → GffSt) : (s.modGff f).tables = s.tables := rfl
@[simp] theorem modGff_fb (f : GffSt → GffSt) : (s.modGff f).fb = s.fb := rfl
@[simp] theorem modGff_switches (f : GffSt → GffSt) : (s.modGff f).switches = s.switches := rfl
@[simp] theorem modGff_safety (f : GffSt → GffSt) : (s.modGff f).safety = s.safety := rfl
@[simp] theorem modGff_requests (f : GffSt → GffSt) : (s.modGff f).requests = s.requests := rfl
@[simp] theorem modGff_faults (f : GffSt → GffSt) : (s.modGff f).faults = s.faults := rfl
@[simp] theorem modGff_log (f : GffSt → GffSt) : (s.modGff f).log = s.log := rfl
@[simp] theorem modGff_mail (f : GffSt → GffSt) : (s.modGff f).mail = s.mail := rfl
@[simp] theorem modGff_store (f : GffSt → GffSt) : (s.modGff f).store = s.store := rfl
@[simp] theorem modGff_ledger (f : GffSt → GffSt) : (s.modGff f).ledger = s.ledger := rfl
@[simp] theorem modGff_life (f : GffSt → GffSt) : (s.modGff f).life = s.life := rfl
@[simp] theorem modGff_can (f : GffSt → GffSt) : (s.modGff f).can = s.can := rfl
@[simp] theorem modGff_canBufs (f : GffSt → GffSt) : (s.modGff f).canBufs = s.canBufs := rfl
@[simp] theorem modGff_roster (f : GffSt → GffSt) : (s.modGff f).roster = s.roster := rfl
@[simp] theorem modGff_cascade (f : GffSt → GffSt) : (s.modGff f).cascade = s.cascade := rfl
@[simp] theorem modGff_power (f : GffSt → GffSt) : (s.modGff f).power = s.power := rfl
@[simp] theorem modGff_retention (f : GffSt → GffSt) : (s.modGff f).retention = s.retention := rfl
@[simp] theorem modGff_start (f : GffSt → GffSt) : (s.modGff f).start = s.start := rfl
@[simp] theorem modGff_gff (f : GffSt → GffSt) : (s.modGff f).gff = f s.gff := rfl
@[simp] theorem modGff_test (f : GffSt → GffSt) : (s.modGff f).test = s.test := rfl
@[simp] theorem modGff_free (f : GffSt → GffSt) : (s.modGff f).free = s.free := rfl
@[simp] theorem modGff_pending (f : GffSt → GffSt) : (s.modGff f).pending = s.pending := rfl

/-! ## modPower -/

@[simp] theorem modPower_member (f : PowerSt → PowerSt) : (s.modPower f).member = s.member := rfl
@[simp] theorem modPower_time (f : PowerSt → PowerSt) : (s.modPower f).time = s.time := rfl
@[simp] theorem modPower_nouns (f : PowerSt → PowerSt) : (s.modPower f).nouns = s.nouns := rfl
@[simp] theorem modPower_groups (f : PowerSt → PowerSt) : (s.modPower f).groups = s.groups := rfl
@[simp] theorem modPower_mains (f : PowerSt → PowerSt) : (s.modPower f).mains = s.mains := rfl
@[simp] theorem modPower_auxs (f : PowerSt → PowerSt) : (s.modPower f).auxs = s.auxs := rfl
@[simp] theorem modPower_links (f : PowerSt → PowerSt) : (s.modPower f).links = s.links := rfl
@[simp] theorem modPower_engines (f : PowerSt → PowerSt) : (s.modPower f).engines = s.engines := rfl
@[simp] theorem modPower_sense (f : PowerSt → PowerSt) : (s.modPower f).sense = s.sense := rfl
@[simp] theorem modPower_tables (f : PowerSt → PowerSt) : (s.modPower f).tables = s.tables := rfl
@[simp] theorem modPower_fb (f : PowerSt → PowerSt) : (s.modPower f).fb = s.fb := rfl
@[simp] theorem modPower_switches (f : PowerSt → PowerSt) : (s.modPower f).switches = s.switches := rfl
@[simp] theorem modPower_safety (f : PowerSt → PowerSt) : (s.modPower f).safety = s.safety := rfl
@[simp] theorem modPower_requests (f : PowerSt → PowerSt) : (s.modPower f).requests = s.requests := rfl
@[simp] theorem modPower_faults (f : PowerSt → PowerSt) : (s.modPower f).faults = s.faults := rfl
@[simp] theorem modPower_log (f : PowerSt → PowerSt) : (s.modPower f).log = s.log := rfl
@[simp] theorem modPower_mail (f : PowerSt → PowerSt) : (s.modPower f).mail = s.mail := rfl
@[simp] theorem modPower_store (f : PowerSt → PowerSt) : (s.modPower f).store = s.store := rfl
@[simp] theorem modPower_ledger (f : PowerSt → PowerSt) : (s.modPower f).ledger = s.ledger := rfl
@[simp] theorem modPower_life (f : PowerSt → PowerSt) : (s.modPower f).life = s.life := rfl
@[simp] theorem modPower_can (f : PowerSt → PowerSt) : (s.modPower f).can = s.can := rfl
@[simp] theorem modPower_canBufs (f : PowerSt → PowerSt) : (s.modPower f).canBufs = s.canBufs := rfl
@[simp] theorem modPower_roster (f : PowerSt → PowerSt) : (s.modPower f).roster = s.roster := rfl
@[simp] theorem modPower_cascade (f : PowerSt → PowerSt) : (s.modPower f).cascade = s.cascade := rfl
@[simp] theorem modPower_power (f : PowerSt → PowerSt) : (s.modPower f).power = f s.power := rfl
@[simp] theorem modPower_retention (f : PowerSt → PowerSt) : (s.modPower f).retention = s.retention := rfl
@[simp] theorem modPower_start (f : PowerSt → PowerSt) : (s.modPower f).start = s.start := rfl
@[simp] theorem modPower_gff (f : PowerSt → PowerSt) : (s.modPower f).gff = s.gff := rfl
@[simp] theorem modPower_test (f : PowerSt → PowerSt) : (s.modPower f).test = s.test := rfl
@[simp] theorem modPower_free (f : PowerSt → PowerSt) : (s.modPower f).free = s.free := rfl
@[simp] theorem modPower_pending (f : PowerSt → PowerSt) : (s.modPower f).pending = s.pending := rfl

/-! ## drawn -/

@[simp] theorem drawn_member : (s.drawn).member = s.member := rfl
@[simp] theorem drawn_time : (s.drawn).time = s.time := rfl
@[simp] theorem drawn_nouns : (s.drawn).nouns = s.nouns := rfl
@[simp] theorem drawn_groups : (s.drawn).groups = s.groups := rfl
@[simp] theorem drawn_mains : (s.drawn).mains = s.mains := rfl
@[simp] theorem drawn_auxs : (s.drawn).auxs = s.auxs := rfl
@[simp] theorem drawn_links : (s.drawn).links = s.links := rfl
@[simp] theorem drawn_engines : (s.drawn).engines = s.engines := rfl
@[simp] theorem drawn_sense : (s.drawn).sense = s.sense := rfl
@[simp] theorem drawn_tables : (s.drawn).tables = s.tables := rfl
@[simp] theorem drawn_fb : (s.drawn).fb = s.fb := rfl
@[simp] theorem drawn_switches : (s.drawn).switches = s.switches := rfl
@[simp] theorem drawn_safety : (s.drawn).safety = s.safety := rfl
@[simp] theorem drawn_requests : (s.drawn).requests = s.requests := rfl
@[simp] theorem drawn_faults : (s.drawn).faults = s.faults := rfl
@[simp] theorem drawn_log : (s.drawn).log = s.log := rfl
@[simp] theorem drawn_mail : (s.drawn).mail = s.mail := rfl
@[simp] theorem drawn_store : (s.drawn).store = s.store := rfl
@[simp] theorem drawn_ledger : (s.drawn).ledger = s.ledger := rfl
@[simp] theorem drawn_life : (s.drawn).life = s.life := rfl
@[simp] theorem drawn_can : (s.drawn).can = s.can := rfl
@[simp] theorem drawn_canBufs : (s.drawn).canBufs = s.canBufs := rfl
@[simp] theorem drawn_roster : (s.drawn).roster = s.roster := rfl
@[simp] theorem drawn_cascade : (s.drawn).cascade = s.cascade := rfl
@[simp] theorem drawn_power : (s.drawn).power = s.power := rfl
@[simp] theorem drawn_retention : (s.drawn).retention = s.retention := rfl
@[simp] theorem drawn_start : (s.drawn).start = s.start := rfl
@[simp] theorem drawn_gff : (s.drawn).gff = s.gff := rfl
@[simp] theorem drawn_test : (s.drawn).test = s.test := rfl
@[simp] theorem drawn_free : (s.drawn).free = s.free + 1 := rfl
@[simp] theorem drawn_pending : (s.drawn).pending = s.pending := rfl

/-! ## modGen -/

@[simp] theorem modGen_member (x : GenId) (f : GenSt → GenSt) : (s.modGen x f).member = s.member := by cases x <;> rfl
@[simp] theorem modGen_time (x : GenId) (f : GenSt → GenSt) : (s.modGen x f).time = s.time := by cases x <;> rfl
@[simp] theorem modGen_nouns (x : GenId) (f : GenSt → GenSt) : (s.modGen x f).nouns = s.nouns := by cases x <;> rfl
@[simp] theorem modGen_groups (x : GenId) (f : GenSt → GenSt) : (s.modGen x f).groups = s.groups := by cases x <;> rfl
@[simp] theorem modGen_links (x : GenId) (f : GenSt → GenSt) : (s.modGen x f).links = s.links := by cases x <;> rfl
@[simp] theorem modGen_engines (x : GenId) (f : GenSt → GenSt) : (s.modGen x f).engines = s.engines := by cases x <;> rfl
@[simp] theorem modGen_sense (x : GenId) (f : GenSt → GenSt) : (s.modGen x f).sense = s.sense := by cases x <;> rfl
@[simp] theorem modGen_tables (x : GenId) (f : GenSt → GenSt) : (s.modGen x f).tables = s.tables := by cases x <;> rfl
@[simp] theorem modGen_fb (x : GenId) (f : GenSt → GenSt) : (s.modGen x f).fb = s.fb := by cases x <;> rfl
@[simp] theorem modGen_switches (x : GenId) (f : GenSt → GenSt) : (s.modGen x f).switches = s.switches := by cases x <;> rfl
@[simp] theorem modGen_safety (x : GenId) (f : GenSt → GenSt) : (s.modGen x f).safety = s.safety := by cases x <;> rfl
@[simp] theorem modGen_requests (x : GenId) (f : GenSt → GenSt) : (s.modGen x f).requests = s.requests := by cases x <;> rfl
@[simp] theorem modGen_faults (x : GenId) (f : GenSt → GenSt) : (s.modGen x f).faults = s.faults := by cases x <;> rfl
@[simp] theorem modGen_log (x : GenId) (f : GenSt → GenSt) : (s.modGen x f).log = s.log := by cases x <;> rfl
@[simp] theorem modGen_mail (x : GenId) (f : GenSt → GenSt) : (s.modGen x f).mail = s.mail := by cases x <;> rfl
@[simp] theorem modGen_store (x : GenId) (f : GenSt → GenSt) : (s.modGen x f).store = s.store := by cases x <;> rfl
@[simp] theorem modGen_ledger (x : GenId) (f : GenSt → GenSt) : (s.modGen x f).ledger = s.ledger := by cases x <;> rfl
@[simp] theorem modGen_life (x : GenId) (f : GenSt → GenSt) : (s.modGen x f).life = s.life := by cases x <;> rfl
@[simp] theorem modGen_can (x : GenId) (f : GenSt → GenSt) : (s.modGen x f).can = s.can := by cases x <;> rfl
@[simp] theorem modGen_canBufs (x : GenId) (f : GenSt → GenSt) : (s.modGen x f).canBufs = s.canBufs := by cases x <;> rfl
@[simp] theorem modGen_roster (x : GenId) (f : GenSt → GenSt) : (s.modGen x f).roster = s.roster := by cases x <;> rfl
@[simp] theorem modGen_cascade (x : GenId) (f : GenSt → GenSt) : (s.modGen x f).cascade = s.cascade := by cases x <;> rfl
@[simp] theorem modGen_power (x : GenId) (f : GenSt → GenSt) : (s.modGen x f).power = s.power := by cases x <;> rfl
@[simp] theorem modGen_retention (x : GenId) (f : GenSt → GenSt) : (s.modGen x f).retention = s.retention := by cases x <;> rfl
@[simp] theorem modGen_start (x : GenId) (f : GenSt → GenSt) : (s.modGen x f).start = s.start := by cases x <;> rfl
@[simp] theorem modGen_gff (x : GenId) (f : GenSt → GenSt) : (s.modGen x f).gff = s.gff := by cases x <;> rfl
@[simp] theorem modGen_test (x : GenId) (f : GenSt → GenSt) : (s.modGen x f).test = s.test := by cases x <;> rfl
@[simp] theorem modGen_free (x : GenId) (f : GenSt → GenSt) : (s.modGen x f).free = s.free := by cases x <;> rfl
@[simp] theorem modGen_pending (x : GenId) (f : GenSt → GenSt) : (s.modGen x f).pending = s.pending := by cases x <;> rfl

/-! ## emit changes the mailbox alone -/

@[simp] theorem emit_member (o : Output) : (s.emit o).member = s.member := rfl
@[simp] theorem emit_time (o : Output) : (s.emit o).time = s.time := rfl
@[simp] theorem emit_nouns (o : Output) : (s.emit o).nouns = s.nouns := rfl
@[simp] theorem emit_groups (o : Output) : (s.emit o).groups = s.groups := rfl
@[simp] theorem emit_mains (o : Output) : (s.emit o).mains = s.mains := rfl
@[simp] theorem emit_auxs (o : Output) : (s.emit o).auxs = s.auxs := rfl
@[simp] theorem emit_links (o : Output) : (s.emit o).links = s.links := rfl
@[simp] theorem emit_engines (o : Output) : (s.emit o).engines = s.engines := rfl
@[simp] theorem emit_sense (o : Output) : (s.emit o).sense = s.sense := rfl
@[simp] theorem emit_tables (o : Output) : (s.emit o).tables = s.tables := rfl
@[simp] theorem emit_fb (o : Output) : (s.emit o).fb = s.fb := rfl
@[simp] theorem emit_switches (o : Output) : (s.emit o).switches = s.switches := rfl
@[simp] theorem emit_safety (o : Output) : (s.emit o).safety = s.safety := rfl
@[simp] theorem emit_requests (o : Output) : (s.emit o).requests = s.requests := rfl
@[simp] theorem emit_faults (o : Output) : (s.emit o).faults = s.faults := rfl
@[simp] theorem emit_log (o : Output) : (s.emit o).log = s.log := rfl
@[simp] theorem emit_store (o : Output) : (s.emit o).store = s.store := rfl
@[simp] theorem emit_ledger (o : Output) : (s.emit o).ledger = s.ledger := rfl
@[simp] theorem emit_life (o : Output) : (s.emit o).life = s.life := rfl
@[simp] theorem emit_can (o : Output) : (s.emit o).can = s.can := rfl
@[simp] theorem emit_canBufs (o : Output) : (s.emit o).canBufs = s.canBufs := rfl
@[simp] theorem emit_roster (o : Output) : (s.emit o).roster = s.roster := rfl
@[simp] theorem emit_cascade (o : Output) : (s.emit o).cascade = s.cascade := rfl
@[simp] theorem emit_power (o : Output) : (s.emit o).power = s.power := rfl
@[simp] theorem emit_retention (o : Output) : (s.emit o).retention = s.retention := rfl
@[simp] theorem emit_start (o : Output) : (s.emit o).start = s.start := rfl
@[simp] theorem emit_gff (o : Output) : (s.emit o).gff = s.gff := rfl
@[simp] theorem emit_test (o : Output) : (s.emit o).test = s.test := rfl
@[simp] theorem emit_free (o : Output) : (s.emit o).free = s.free := rfl
@[simp] theorem emit_pending (o : Output) : (s.emit o).pending = s.pending := rfl

/-! ## modTicket changes the mailbox alone -/

@[simp] theorem modTicket_member (t : Nat) (f : Ticket → Ticket) : (s.modTicket t f).member = s.member := rfl
@[simp] theorem modTicket_time (t : Nat) (f : Ticket → Ticket) : (s.modTicket t f).time = s.time := rfl
@[simp] theorem modTicket_nouns (t : Nat) (f : Ticket → Ticket) : (s.modTicket t f).nouns = s.nouns := rfl
@[simp] theorem modTicket_groups (t : Nat) (f : Ticket → Ticket) : (s.modTicket t f).groups = s.groups := rfl
@[simp] theorem modTicket_mains (t : Nat) (f : Ticket → Ticket) : (s.modTicket t f).mains = s.mains := rfl
@[simp] theorem modTicket_auxs (t : Nat) (f : Ticket → Ticket) : (s.modTicket t f).auxs = s.auxs := rfl
@[simp] theorem modTicket_links (t : Nat) (f : Ticket → Ticket) : (s.modTicket t f).links = s.links := rfl
@[simp] theorem modTicket_engines (t : Nat) (f : Ticket → Ticket) : (s.modTicket t f).engines = s.engines := rfl
@[simp] theorem modTicket_sense (t : Nat) (f : Ticket → Ticket) : (s.modTicket t f).sense = s.sense := rfl
@[simp] theorem modTicket_tables (t : Nat) (f : Ticket → Ticket) : (s.modTicket t f).tables = s.tables := rfl
@[simp] theorem modTicket_fb (t : Nat) (f : Ticket → Ticket) : (s.modTicket t f).fb = s.fb := rfl
@[simp] theorem modTicket_switches (t : Nat) (f : Ticket → Ticket) : (s.modTicket t f).switches = s.switches := rfl
@[simp] theorem modTicket_safety (t : Nat) (f : Ticket → Ticket) : (s.modTicket t f).safety = s.safety := rfl
@[simp] theorem modTicket_requests (t : Nat) (f : Ticket → Ticket) : (s.modTicket t f).requests = s.requests := rfl
@[simp] theorem modTicket_faults (t : Nat) (f : Ticket → Ticket) : (s.modTicket t f).faults = s.faults := rfl
@[simp] theorem modTicket_log (t : Nat) (f : Ticket → Ticket) : (s.modTicket t f).log = s.log := rfl
@[simp] theorem modTicket_store (t : Nat) (f : Ticket → Ticket) : (s.modTicket t f).store = s.store := rfl
@[simp] theorem modTicket_ledger (t : Nat) (f : Ticket → Ticket) : (s.modTicket t f).ledger = s.ledger := rfl
@[simp] theorem modTicket_life (t : Nat) (f : Ticket → Ticket) : (s.modTicket t f).life = s.life := rfl
@[simp] theorem modTicket_can (t : Nat) (f : Ticket → Ticket) : (s.modTicket t f).can = s.can := rfl
@[simp] theorem modTicket_canBufs (t : Nat) (f : Ticket → Ticket) : (s.modTicket t f).canBufs = s.canBufs := rfl
@[simp] theorem modTicket_roster (t : Nat) (f : Ticket → Ticket) : (s.modTicket t f).roster = s.roster := rfl
@[simp] theorem modTicket_cascade (t : Nat) (f : Ticket → Ticket) : (s.modTicket t f).cascade = s.cascade := rfl
@[simp] theorem modTicket_power (t : Nat) (f : Ticket → Ticket) : (s.modTicket t f).power = s.power := rfl
@[simp] theorem modTicket_retention (t : Nat) (f : Ticket → Ticket) : (s.modTicket t f).retention = s.retention := rfl
@[simp] theorem modTicket_start (t : Nat) (f : Ticket → Ticket) : (s.modTicket t f).start = s.start := rfl
@[simp] theorem modTicket_gff (t : Nat) (f : Ticket → Ticket) : (s.modTicket t f).gff = s.gff := rfl
@[simp] theorem modTicket_test (t : Nat) (f : Ticket → Ticket) : (s.modTicket t f).test = s.test := rfl
@[simp] theorem modTicket_free (t : Nat) (f : Ticket → Ticket) : (s.modTicket t f).free = s.free := rfl
@[simp] theorem modTicket_pending (t : Nat) (f : Ticket → Ticket) : (s.modTicket t f).pending = s.pending := rfl

/-! ## running changes the mailbox alone -/

@[simp] theorem running_member (t : Nat) : (s.running t).member = s.member := rfl
@[simp] theorem running_time (t : Nat) : (s.running t).time = s.time := rfl
@[simp] theorem running_nouns (t : Nat) : (s.running t).nouns = s.nouns := rfl
@[simp] theorem running_groups (t : Nat) : (s.running t).groups = s.groups := rfl
@[simp] theorem running_mains (t : Nat) : (s.running t).mains = s.mains := rfl
@[simp] theorem running_auxs (t : Nat) : (s.running t).auxs = s.auxs := rfl
@[simp] theorem running_links (t : Nat) : (s.running t).links = s.links := rfl
@[simp] theorem running_engines (t : Nat) : (s.running t).engines = s.engines := rfl
@[simp] theorem running_sense (t : Nat) : (s.running t).sense = s.sense := rfl
@[simp] theorem running_tables (t : Nat) : (s.running t).tables = s.tables := rfl
@[simp] theorem running_fb (t : Nat) : (s.running t).fb = s.fb := rfl
@[simp] theorem running_switches (t : Nat) : (s.running t).switches = s.switches := rfl
@[simp] theorem running_safety (t : Nat) : (s.running t).safety = s.safety := rfl
@[simp] theorem running_requests (t : Nat) : (s.running t).requests = s.requests := rfl
@[simp] theorem running_faults (t : Nat) : (s.running t).faults = s.faults := rfl
@[simp] theorem running_log (t : Nat) : (s.running t).log = s.log := rfl
@[simp] theorem running_store (t : Nat) : (s.running t).store = s.store := rfl
@[simp] theorem running_ledger (t : Nat) : (s.running t).ledger = s.ledger := rfl
@[simp] theorem running_life (t : Nat) : (s.running t).life = s.life := rfl
@[simp] theorem running_can (t : Nat) : (s.running t).can = s.can := rfl
@[simp] theorem running_canBufs (t : Nat) : (s.running t).canBufs = s.canBufs := rfl
@[simp] theorem running_roster (t : Nat) : (s.running t).roster = s.roster := rfl
@[simp] theorem running_cascade (t : Nat) : (s.running t).cascade = s.cascade := rfl
@[simp] theorem running_power (t : Nat) : (s.running t).power = s.power := rfl
@[simp] theorem running_retention (t : Nat) : (s.running t).retention = s.retention := rfl
@[simp] theorem running_start (t : Nat) : (s.running t).start = s.start := rfl
@[simp] theorem running_gff (t : Nat) : (s.running t).gff = s.gff := rfl
@[simp] theorem running_test (t : Nat) : (s.running t).test = s.test := rfl
@[simp] theorem running_free (t : Nat) : (s.running t).free = s.free := rfl
@[simp] theorem running_pending (t : Nat) : (s.running t).pending = s.pending := rfl

/-! ## present changes the mailbox alone -/

@[simp] theorem present_member (t : Nat) : (s.present t).member = s.member := by
  unfold State.present
  split
  · split <;> rfl
  · rfl
@[simp] theorem present_time (t : Nat) : (s.present t).time = s.time := by
  unfold State.present
  split
  · split <;> rfl
  · rfl
@[simp] theorem present_nouns (t : Nat) : (s.present t).nouns = s.nouns := by
  unfold State.present
  split
  · split <;> rfl
  · rfl
@[simp] theorem present_groups (t : Nat) : (s.present t).groups = s.groups := by
  unfold State.present
  split
  · split <;> rfl
  · rfl
@[simp] theorem present_mains (t : Nat) : (s.present t).mains = s.mains := by
  unfold State.present
  split
  · split <;> rfl
  · rfl
@[simp] theorem present_auxs (t : Nat) : (s.present t).auxs = s.auxs := by
  unfold State.present
  split
  · split <;> rfl
  · rfl
@[simp] theorem present_links (t : Nat) : (s.present t).links = s.links := by
  unfold State.present
  split
  · split <;> rfl
  · rfl
@[simp] theorem present_engines (t : Nat) : (s.present t).engines = s.engines := by
  unfold State.present
  split
  · split <;> rfl
  · rfl
@[simp] theorem present_sense (t : Nat) : (s.present t).sense = s.sense := by
  unfold State.present
  split
  · split <;> rfl
  · rfl
@[simp] theorem present_tables (t : Nat) : (s.present t).tables = s.tables := by
  unfold State.present
  split
  · split <;> rfl
  · rfl
@[simp] theorem present_fb (t : Nat) : (s.present t).fb = s.fb := by
  unfold State.present
  split
  · split <;> rfl
  · rfl
@[simp] theorem present_switches (t : Nat) : (s.present t).switches = s.switches := by
  unfold State.present
  split
  · split <;> rfl
  · rfl
@[simp] theorem present_safety (t : Nat) : (s.present t).safety = s.safety := by
  unfold State.present
  split
  · split <;> rfl
  · rfl
@[simp] theorem present_requests (t : Nat) : (s.present t).requests = s.requests := by
  unfold State.present
  split
  · split <;> rfl
  · rfl
@[simp] theorem present_faults (t : Nat) : (s.present t).faults = s.faults := by
  unfold State.present
  split
  · split <;> rfl
  · rfl
@[simp] theorem present_log (t : Nat) : (s.present t).log = s.log := by
  unfold State.present
  split
  · split <;> rfl
  · rfl
@[simp] theorem present_store (t : Nat) : (s.present t).store = s.store := by
  unfold State.present
  split
  · split <;> rfl
  · rfl
@[simp] theorem present_ledger (t : Nat) : (s.present t).ledger = s.ledger := by
  unfold State.present
  split
  · split <;> rfl
  · rfl
@[simp] theorem present_life (t : Nat) : (s.present t).life = s.life := by
  unfold State.present
  split
  · split <;> rfl
  · rfl
@[simp] theorem present_can (t : Nat) : (s.present t).can = s.can := by
  unfold State.present
  split
  · split <;> rfl
  · rfl
@[simp] theorem present_canBufs (t : Nat) : (s.present t).canBufs = s.canBufs := by
  unfold State.present
  split
  · split <;> rfl
  · rfl
@[simp] theorem present_roster (t : Nat) : (s.present t).roster = s.roster := by
  unfold State.present
  split
  · split <;> rfl
  · rfl
@[simp] theorem present_cascade (t : Nat) : (s.present t).cascade = s.cascade := by
  unfold State.present
  split
  · split <;> rfl
  · rfl
@[simp] theorem present_power (t : Nat) : (s.present t).power = s.power := by
  unfold State.present
  split
  · split <;> rfl
  · rfl
@[simp] theorem present_retention (t : Nat) : (s.present t).retention = s.retention := by
  unfold State.present
  split
  · split <;> rfl
  · rfl
@[simp] theorem present_start (t : Nat) : (s.present t).start = s.start := by
  unfold State.present
  split
  · split <;> rfl
  · rfl
@[simp] theorem present_gff (t : Nat) : (s.present t).gff = s.gff := by
  unfold State.present
  split
  · split <;> rfl
  · rfl
@[simp] theorem present_test (t : Nat) : (s.present t).test = s.test := by
  unfold State.present
  split
  · split <;> rfl
  · rfl
@[simp] theorem present_free (t : Nat) : (s.present t).free = s.free := by
  unfold State.present
  split
  · split <;> rfl
  · rfl
@[simp] theorem present_pending (t : Nat) : (s.present t).pending = s.pending := by
  unfold State.present
  split
  · split <;> rfl
  · rfl

/-! ## finish changes the mailbox alone -/

@[simp] theorem finish_member (t st : Nat) (p : List Word) : (s.finish t st p).member = s.member := by
  unfold State.finish
  split <;> rfl
@[simp] theorem finish_time (t st : Nat) (p : List Word) : (s.finish t st p).time = s.time := by
  unfold State.finish
  split <;> rfl
@[simp] theorem finish_nouns (t st : Nat) (p : List Word) : (s.finish t st p).nouns = s.nouns := by
  unfold State.finish
  split <;> rfl
@[simp] theorem finish_groups (t st : Nat) (p : List Word) : (s.finish t st p).groups = s.groups := by
  unfold State.finish
  split <;> rfl
@[simp] theorem finish_mains (t st : Nat) (p : List Word) : (s.finish t st p).mains = s.mains := by
  unfold State.finish
  split <;> rfl
@[simp] theorem finish_auxs (t st : Nat) (p : List Word) : (s.finish t st p).auxs = s.auxs := by
  unfold State.finish
  split <;> rfl
@[simp] theorem finish_links (t st : Nat) (p : List Word) : (s.finish t st p).links = s.links := by
  unfold State.finish
  split <;> rfl
@[simp] theorem finish_engines (t st : Nat) (p : List Word) : (s.finish t st p).engines = s.engines := by
  unfold State.finish
  split <;> rfl
@[simp] theorem finish_sense (t st : Nat) (p : List Word) : (s.finish t st p).sense = s.sense := by
  unfold State.finish
  split <;> rfl
@[simp] theorem finish_tables (t st : Nat) (p : List Word) : (s.finish t st p).tables = s.tables := by
  unfold State.finish
  split <;> rfl
@[simp] theorem finish_fb (t st : Nat) (p : List Word) : (s.finish t st p).fb = s.fb := by
  unfold State.finish
  split <;> rfl
@[simp] theorem finish_switches (t st : Nat) (p : List Word) : (s.finish t st p).switches = s.switches := by
  unfold State.finish
  split <;> rfl
@[simp] theorem finish_safety (t st : Nat) (p : List Word) : (s.finish t st p).safety = s.safety := by
  unfold State.finish
  split <;> rfl
@[simp] theorem finish_requests (t st : Nat) (p : List Word) : (s.finish t st p).requests = s.requests := by
  unfold State.finish
  split <;> rfl
@[simp] theorem finish_faults (t st : Nat) (p : List Word) : (s.finish t st p).faults = s.faults := by
  unfold State.finish
  split <;> rfl
@[simp] theorem finish_log (t st : Nat) (p : List Word) : (s.finish t st p).log = s.log := by
  unfold State.finish
  split <;> rfl
@[simp] theorem finish_store (t st : Nat) (p : List Word) : (s.finish t st p).store = s.store := by
  unfold State.finish
  split <;> rfl
@[simp] theorem finish_ledger (t st : Nat) (p : List Word) : (s.finish t st p).ledger = s.ledger := by
  unfold State.finish
  split <;> rfl
@[simp] theorem finish_life (t st : Nat) (p : List Word) : (s.finish t st p).life = s.life := by
  unfold State.finish
  split <;> rfl
@[simp] theorem finish_can (t st : Nat) (p : List Word) : (s.finish t st p).can = s.can := by
  unfold State.finish
  split <;> rfl
@[simp] theorem finish_canBufs (t st : Nat) (p : List Word) : (s.finish t st p).canBufs = s.canBufs := by
  unfold State.finish
  split <;> rfl
@[simp] theorem finish_roster (t st : Nat) (p : List Word) : (s.finish t st p).roster = s.roster := by
  unfold State.finish
  split <;> rfl
@[simp] theorem finish_cascade (t st : Nat) (p : List Word) : (s.finish t st p).cascade = s.cascade := by
  unfold State.finish
  split <;> rfl
@[simp] theorem finish_power (t st : Nat) (p : List Word) : (s.finish t st p).power = s.power := by
  unfold State.finish
  split <;> rfl
@[simp] theorem finish_retention (t st : Nat) (p : List Word) : (s.finish t st p).retention = s.retention := by
  unfold State.finish
  split <;> rfl
@[simp] theorem finish_start (t st : Nat) (p : List Word) : (s.finish t st p).start = s.start := by
  unfold State.finish
  split <;> rfl
@[simp] theorem finish_gff (t st : Nat) (p : List Word) : (s.finish t st p).gff = s.gff := by
  unfold State.finish
  split <;> rfl
@[simp] theorem finish_test (t st : Nat) (p : List Word) : (s.finish t st p).test = s.test := by
  unfold State.finish
  split <;> rfl
@[simp] theorem finish_free (t st : Nat) (p : List Word) : (s.finish t st p).free = s.free := by
  unfold State.finish
  split <;> rfl
@[simp] theorem finish_pending (t st : Nat) (p : List Word) : (s.finish t st p).pending = s.pending := by
  unfold State.finish
  split <;> rfl

/-! ## finishOpt changes the mailbox alone -/

@[simp] theorem finishOpt_member (t : Option Nat) (st : Nat) : (s.finishOpt t st).member = s.member := by
  cases t with
  | none => rfl
  | some k => exact finish_member s k st []
@[simp] theorem finishOpt_time (t : Option Nat) (st : Nat) : (s.finishOpt t st).time = s.time := by
  cases t with
  | none => rfl
  | some k => exact finish_time s k st []
@[simp] theorem finishOpt_nouns (t : Option Nat) (st : Nat) : (s.finishOpt t st).nouns = s.nouns := by
  cases t with
  | none => rfl
  | some k => exact finish_nouns s k st []
@[simp] theorem finishOpt_groups (t : Option Nat) (st : Nat) : (s.finishOpt t st).groups = s.groups := by
  cases t with
  | none => rfl
  | some k => exact finish_groups s k st []
@[simp] theorem finishOpt_mains (t : Option Nat) (st : Nat) : (s.finishOpt t st).mains = s.mains := by
  cases t with
  | none => rfl
  | some k => exact finish_mains s k st []
@[simp] theorem finishOpt_auxs (t : Option Nat) (st : Nat) : (s.finishOpt t st).auxs = s.auxs := by
  cases t with
  | none => rfl
  | some k => exact finish_auxs s k st []
@[simp] theorem finishOpt_links (t : Option Nat) (st : Nat) : (s.finishOpt t st).links = s.links := by
  cases t with
  | none => rfl
  | some k => exact finish_links s k st []
@[simp] theorem finishOpt_engines (t : Option Nat) (st : Nat) : (s.finishOpt t st).engines = s.engines := by
  cases t with
  | none => rfl
  | some k => exact finish_engines s k st []
@[simp] theorem finishOpt_sense (t : Option Nat) (st : Nat) : (s.finishOpt t st).sense = s.sense := by
  cases t with
  | none => rfl
  | some k => exact finish_sense s k st []
@[simp] theorem finishOpt_tables (t : Option Nat) (st : Nat) : (s.finishOpt t st).tables = s.tables := by
  cases t with
  | none => rfl
  | some k => exact finish_tables s k st []
@[simp] theorem finishOpt_fb (t : Option Nat) (st : Nat) : (s.finishOpt t st).fb = s.fb := by
  cases t with
  | none => rfl
  | some k => exact finish_fb s k st []
@[simp] theorem finishOpt_switches (t : Option Nat) (st : Nat) : (s.finishOpt t st).switches = s.switches := by
  cases t with
  | none => rfl
  | some k => exact finish_switches s k st []
@[simp] theorem finishOpt_safety (t : Option Nat) (st : Nat) : (s.finishOpt t st).safety = s.safety := by
  cases t with
  | none => rfl
  | some k => exact finish_safety s k st []
@[simp] theorem finishOpt_requests (t : Option Nat) (st : Nat) : (s.finishOpt t st).requests = s.requests := by
  cases t with
  | none => rfl
  | some k => exact finish_requests s k st []
@[simp] theorem finishOpt_faults (t : Option Nat) (st : Nat) : (s.finishOpt t st).faults = s.faults := by
  cases t with
  | none => rfl
  | some k => exact finish_faults s k st []
@[simp] theorem finishOpt_log (t : Option Nat) (st : Nat) : (s.finishOpt t st).log = s.log := by
  cases t with
  | none => rfl
  | some k => exact finish_log s k st []
@[simp] theorem finishOpt_store (t : Option Nat) (st : Nat) : (s.finishOpt t st).store = s.store := by
  cases t with
  | none => rfl
  | some k => exact finish_store s k st []
@[simp] theorem finishOpt_ledger (t : Option Nat) (st : Nat) : (s.finishOpt t st).ledger = s.ledger := by
  cases t with
  | none => rfl
  | some k => exact finish_ledger s k st []
@[simp] theorem finishOpt_life (t : Option Nat) (st : Nat) : (s.finishOpt t st).life = s.life := by
  cases t with
  | none => rfl
  | some k => exact finish_life s k st []
@[simp] theorem finishOpt_can (t : Option Nat) (st : Nat) : (s.finishOpt t st).can = s.can := by
  cases t with
  | none => rfl
  | some k => exact finish_can s k st []
@[simp] theorem finishOpt_canBufs (t : Option Nat) (st : Nat) : (s.finishOpt t st).canBufs = s.canBufs := by
  cases t with
  | none => rfl
  | some k => exact finish_canBufs s k st []
@[simp] theorem finishOpt_roster (t : Option Nat) (st : Nat) : (s.finishOpt t st).roster = s.roster := by
  cases t with
  | none => rfl
  | some k => exact finish_roster s k st []
@[simp] theorem finishOpt_cascade (t : Option Nat) (st : Nat) : (s.finishOpt t st).cascade = s.cascade := by
  cases t with
  | none => rfl
  | some k => exact finish_cascade s k st []
@[simp] theorem finishOpt_power (t : Option Nat) (st : Nat) : (s.finishOpt t st).power = s.power := by
  cases t with
  | none => rfl
  | some k => exact finish_power s k st []
@[simp] theorem finishOpt_retention (t : Option Nat) (st : Nat) : (s.finishOpt t st).retention = s.retention := by
  cases t with
  | none => rfl
  | some k => exact finish_retention s k st []
@[simp] theorem finishOpt_start (t : Option Nat) (st : Nat) : (s.finishOpt t st).start = s.start := by
  cases t with
  | none => rfl
  | some k => exact finish_start s k st []
@[simp] theorem finishOpt_gff (t : Option Nat) (st : Nat) : (s.finishOpt t st).gff = s.gff := by
  cases t with
  | none => rfl
  | some k => exact finish_gff s k st []
@[simp] theorem finishOpt_test (t : Option Nat) (st : Nat) : (s.finishOpt t st).test = s.test := by
  cases t with
  | none => rfl
  | some k => exact finish_test s k st []
@[simp] theorem finishOpt_free (t : Option Nat) (st : Nat) : (s.finishOpt t st).free = s.free := by
  cases t with
  | none => rfl
  | some k => exact finish_free s k st []
@[simp] theorem finishOpt_pending (t : Option Nat) (st : Nat) : (s.finishOpt t st).pending = s.pending := by
  cases t with
  | none => rfl
  | some k => exact finish_pending s k st []

/-! ## logEvent changes the log and the mailbox alone -/

@[simp] theorem logEvent_member (sev code object : Nat) (d0 : Int) (sample ticket : Nat) (d1 : Int) :
    (s.logEvent sev code object d0 sample ticket d1).member = s.member := by
  unfold State.logEvent
  simp only
  split <;> rfl
@[simp] theorem logEvent_time (sev code object : Nat) (d0 : Int) (sample ticket : Nat) (d1 : Int) :
    (s.logEvent sev code object d0 sample ticket d1).time = s.time := by
  unfold State.logEvent
  simp only
  split <;> rfl
@[simp] theorem logEvent_nouns (sev code object : Nat) (d0 : Int) (sample ticket : Nat) (d1 : Int) :
    (s.logEvent sev code object d0 sample ticket d1).nouns = s.nouns := by
  unfold State.logEvent
  simp only
  split <;> rfl
@[simp] theorem logEvent_groups (sev code object : Nat) (d0 : Int) (sample ticket : Nat) (d1 : Int) :
    (s.logEvent sev code object d0 sample ticket d1).groups = s.groups := by
  unfold State.logEvent
  simp only
  split <;> rfl
@[simp] theorem logEvent_mains (sev code object : Nat) (d0 : Int) (sample ticket : Nat) (d1 : Int) :
    (s.logEvent sev code object d0 sample ticket d1).mains = s.mains := by
  unfold State.logEvent
  simp only
  split <;> rfl
@[simp] theorem logEvent_auxs (sev code object : Nat) (d0 : Int) (sample ticket : Nat) (d1 : Int) :
    (s.logEvent sev code object d0 sample ticket d1).auxs = s.auxs := by
  unfold State.logEvent
  simp only
  split <;> rfl
@[simp] theorem logEvent_links (sev code object : Nat) (d0 : Int) (sample ticket : Nat) (d1 : Int) :
    (s.logEvent sev code object d0 sample ticket d1).links = s.links := by
  unfold State.logEvent
  simp only
  split <;> rfl
@[simp] theorem logEvent_engines (sev code object : Nat) (d0 : Int) (sample ticket : Nat) (d1 : Int) :
    (s.logEvent sev code object d0 sample ticket d1).engines = s.engines := by
  unfold State.logEvent
  simp only
  split <;> rfl
@[simp] theorem logEvent_sense (sev code object : Nat) (d0 : Int) (sample ticket : Nat) (d1 : Int) :
    (s.logEvent sev code object d0 sample ticket d1).sense = s.sense := by
  unfold State.logEvent
  simp only
  split <;> rfl
@[simp] theorem logEvent_tables (sev code object : Nat) (d0 : Int) (sample ticket : Nat) (d1 : Int) :
    (s.logEvent sev code object d0 sample ticket d1).tables = s.tables := by
  unfold State.logEvent
  simp only
  split <;> rfl
@[simp] theorem logEvent_fb (sev code object : Nat) (d0 : Int) (sample ticket : Nat) (d1 : Int) :
    (s.logEvent sev code object d0 sample ticket d1).fb = s.fb := by
  unfold State.logEvent
  simp only
  split <;> rfl
@[simp] theorem logEvent_switches (sev code object : Nat) (d0 : Int) (sample ticket : Nat) (d1 : Int) :
    (s.logEvent sev code object d0 sample ticket d1).switches = s.switches := by
  unfold State.logEvent
  simp only
  split <;> rfl
@[simp] theorem logEvent_safety (sev code object : Nat) (d0 : Int) (sample ticket : Nat) (d1 : Int) :
    (s.logEvent sev code object d0 sample ticket d1).safety = s.safety := by
  unfold State.logEvent
  simp only
  split <;> rfl
@[simp] theorem logEvent_requests (sev code object : Nat) (d0 : Int) (sample ticket : Nat) (d1 : Int) :
    (s.logEvent sev code object d0 sample ticket d1).requests = s.requests := by
  unfold State.logEvent
  simp only
  split <;> rfl
@[simp] theorem logEvent_faults (sev code object : Nat) (d0 : Int) (sample ticket : Nat) (d1 : Int) :
    (s.logEvent sev code object d0 sample ticket d1).faults = s.faults := by
  unfold State.logEvent
  simp only
  split <;> rfl
@[simp] theorem logEvent_store (sev code object : Nat) (d0 : Int) (sample ticket : Nat) (d1 : Int) :
    (s.logEvent sev code object d0 sample ticket d1).store = s.store := by
  unfold State.logEvent
  simp only
  split <;> rfl
@[simp] theorem logEvent_ledger (sev code object : Nat) (d0 : Int) (sample ticket : Nat) (d1 : Int) :
    (s.logEvent sev code object d0 sample ticket d1).ledger = s.ledger := by
  unfold State.logEvent
  simp only
  split <;> rfl
@[simp] theorem logEvent_life (sev code object : Nat) (d0 : Int) (sample ticket : Nat) (d1 : Int) :
    (s.logEvent sev code object d0 sample ticket d1).life = s.life := by
  unfold State.logEvent
  simp only
  split <;> rfl
@[simp] theorem logEvent_can (sev code object : Nat) (d0 : Int) (sample ticket : Nat) (d1 : Int) :
    (s.logEvent sev code object d0 sample ticket d1).can = s.can := by
  unfold State.logEvent
  simp only
  split <;> rfl
@[simp] theorem logEvent_canBufs (sev code object : Nat) (d0 : Int) (sample ticket : Nat) (d1 : Int) :
    (s.logEvent sev code object d0 sample ticket d1).canBufs = s.canBufs := by
  unfold State.logEvent
  simp only
  split <;> rfl
@[simp] theorem logEvent_roster (sev code object : Nat) (d0 : Int) (sample ticket : Nat) (d1 : Int) :
    (s.logEvent sev code object d0 sample ticket d1).roster = s.roster := by
  unfold State.logEvent
  simp only
  split <;> rfl
@[simp] theorem logEvent_cascade (sev code object : Nat) (d0 : Int) (sample ticket : Nat) (d1 : Int) :
    (s.logEvent sev code object d0 sample ticket d1).cascade = s.cascade := by
  unfold State.logEvent
  simp only
  split <;> rfl
@[simp] theorem logEvent_power (sev code object : Nat) (d0 : Int) (sample ticket : Nat) (d1 : Int) :
    (s.logEvent sev code object d0 sample ticket d1).power = s.power := by
  unfold State.logEvent
  simp only
  split <;> rfl
@[simp] theorem logEvent_retention (sev code object : Nat) (d0 : Int) (sample ticket : Nat) (d1 : Int) :
    (s.logEvent sev code object d0 sample ticket d1).retention = s.retention := by
  unfold State.logEvent
  simp only
  split <;> rfl
@[simp] theorem logEvent_start (sev code object : Nat) (d0 : Int) (sample ticket : Nat) (d1 : Int) :
    (s.logEvent sev code object d0 sample ticket d1).start = s.start := by
  unfold State.logEvent
  simp only
  split <;> rfl
@[simp] theorem logEvent_gff (sev code object : Nat) (d0 : Int) (sample ticket : Nat) (d1 : Int) :
    (s.logEvent sev code object d0 sample ticket d1).gff = s.gff := by
  unfold State.logEvent
  simp only
  split <;> rfl
@[simp] theorem logEvent_test (sev code object : Nat) (d0 : Int) (sample ticket : Nat) (d1 : Int) :
    (s.logEvent sev code object d0 sample ticket d1).test = s.test := by
  unfold State.logEvent
  simp only
  split <;> rfl
@[simp] theorem logEvent_free (sev code object : Nat) (d0 : Int) (sample ticket : Nat) (d1 : Int) :
    (s.logEvent sev code object d0 sample ticket d1).free = s.free := by
  unfold State.logEvent
  simp only
  split <;> rfl
@[simp] theorem logEvent_pending (sev code object : Nat) (d0 : Int) (sample ticket : Nat) (d1 : Int) :
    (s.logEvent sev code object d0 sample ticket d1).pending = s.pending := by
  unfold State.logEvent
  simp only
  split <;> rfl

end State

end Sys2Proof.Machine
end

