-- ==== Sys2Proof/Laws/Calm.lean ====
section
/-! SUPPORT. What most commands leave alone: the safety channel's state, retention RAM, the records of the starts, the lifetime
figures and the time. The lemma `f_calm` says it of the operation `f`. -/

set_option Elab.async false

namespace Sys2Proof.Machine

/-- What stands. -/
structure Still where
  safety : SafetySt
  retention : RetentionSt
  start : StartSt
  life : LifeSt
  time : TimeSt

/-- The safety channel, retention RAM, the starts, the lifetime figures and the time stand. -/
def State.Calm (k0 : Still) (s : State) : Prop :=
  s.safety = k0.safety ∧ s.retention = k0.retention ∧ s.start = k0.start ∧ s.life = k0.life ∧ s.time = k0.time

/-- A command goes on and leaves them. -/
def OutCalm (k0 : Still) : Out → Prop
  | .next t => State.Calm k0 t
  | .fault _ => False
  | .refused _ => False

namespace State

/-- Every state leaves what it holds. -/
theorem Calm.here (s : State) : Calm ⟨s.safety, s.retention, s.start, s.life, s.time⟩ s := ⟨rfl, rfl, rfl, rfl, rfl⟩

variable {k0 : Still} {s : State}

theorem modMain_calm (h : Calm k0 s) (m : Main) (f : MainAxis → MainAxis) : Calm k0 (s.modMain m f) := h
theorem modComm_calm (h : Calm k0 s) (m : Main) (f : CommSt → CommSt) : Calm k0 (s.modComm m f) := h
theorem modGlance_calm (h : Calm k0 s) (m : Main) (f : GlanceSt → GlanceSt) : Calm k0 (s.modGlance m f) := h
theorem modDrive_calm (h : Calm k0 s) (m : Main) (f : DriveSt → DriveSt) : Calm k0 (s.modDrive m f) := h
theorem modEng_calm (h : Calm k0 s) (m : Main) (f : EngAxis → EngAxis) : Calm k0 (s.modEng m f) := h
theorem modShare_calm (h : Calm k0 s) (m : Main) (f : ShareSt → ShareSt) : Calm k0 (s.modShare m f) := h
theorem modAux_calm (h : Calm k0 s) (a : AuxNo) (f : AuxAxis → AuxAxis) : Calm k0 (s.modAux a f) := h
theorem modLink_calm (h : Calm k0 s) (l : LinkNo) (f : Link → Link) : Calm k0 (s.modLink l f) := h
theorem modFb_calm (h : Calm k0 s) (n : FbNo) (f : FbUnit → FbUnit) : Calm k0 (s.modFb n f) := h
theorem modPort_calm (h : Calm k0 s) (p : Port) (f : CanPort → CanPort) : Calm k0 (s.modPort p f) := h
theorem modBufs_calm (h : Calm k0 s) (p : Port) (f : CanBufs → CanBufs) : Calm k0 (s.modBufs p f) := h
theorem modReq_calm (h : Calm k0 s) (f : RequestSt → RequestSt) : Calm k0 (s.modReq f) := h
theorem modCascade_calm (h : Calm k0 s) (f : CascadeSt → CascadeSt) : Calm k0 (s.modCascade f) := h
theorem modPower_calm (h : Calm k0 s) (f : PowerSt → PowerSt) : Calm k0 (s.modPower f) := h
theorem drawn_calm (h : Calm k0 s) : Calm k0 (s.drawn ) := h
theorem modMail_calm (h : Calm k0 s) (f : MailSt → MailSt) : Calm k0 (s.modMail f) := h
theorem modGff_calm (h : Calm k0 s) (f : GffSt → GffSt) : Calm k0 (s.modGff f) := h
theorem modGroup_calm (h : Calm k0 s) (g : Grp) (f : Group → Group) : Calm k0 (s.modGroup g f) := h
theorem modYield_calm (h : Calm k0 s) (g : Grp) (f : YieldSt → YieldSt) : Calm k0 (s.modYield g f) := h
theorem emit_calm (h : Calm k0 s) (o : Output) : Calm k0 (s.emit o) := h
theorem modTicket_calm (h : Calm k0 s) (t : Nat) (f : Ticket → Ticket) : Calm k0 (s.modTicket t f) := h
theorem running_calm (h : Calm k0 s) (t : Nat) : Calm k0 (s.running t) := h

theorem modGen_calm (h : Calm k0 s) (x : GenId) (f : GenSt → GenSt) : Calm k0 (s.modGen x f) := by
  cases x <;> exact h

theorem finish_calm (h : Calm k0 s) (t st : Nat) (p : List Word) : Calm k0 (s.finish t st p) := by
  simpa [Calm] using h

theorem finishOpt_calm (h : Calm k0 s) (t : Option Nat) (st : Nat) : Calm k0 (s.finishOpt t st) := by
  simpa [Calm] using h

theorem present_calm (h : Calm k0 s) (t : Nat) : Calm k0 (s.present t) := by
  simpa [Calm] using h

theorem logEvent_calm (h : Calm k0 s) (sev code object : Nat) (d0 : Int) (sample ticket : Nat) (d1 : Int) :
    Calm k0 (s.logEvent sev code object d0 sample ticket d1) := by
  simpa [Calm] using h

/-- A state that differs from another only outside these parts. -/
theorem mk_calm {x : State} (h : Calm k0 x) (member : Member) (nouns : List (Nat × Int)) (groups : Vector Group 8)
    (mains : Vector MainAxis 12) (auxs : Vector AuxAxis 8) (links : Vector Link 4) (engines : EngineSt) (sense : SenseSt)
    (tables : List (Nat × Word)) (fb : Vector FbUnit 16) (switches : SwitchSt) (requests : RequestSt) (faults : FaultSt) (log : LogSt)
    (mail : MailSt) (store : StoreSt) (ledger : LedgerSt) (can : Vector CanPort 4) (canBufs : Vector CanBufs 4) (roster : RosterSt)
    (cascade : CascadeSt) (power : PowerSt) (gff : GffSt) (test : TestSt) (free : Nat) (pending : List Instr) :
    Calm k0 (State.mk member x.time nouns groups mains auxs links engines sense tables fb switches x.safety requests
      faults log mail store ledger x.life can canBufs roster cascade power x.retention x.start gff test free
      pending) := h

theorem ite_calm {k0 : Still} {c : Prop} [Decidable c] {a b : State} (ha : Calm k0 a) (hb : Calm k0 b) : Calm k0 (if c then a else b) := by
  split
  · exact ha
  · exact hb


theorem ite_calm' {k0 : Still} {c : Prop} [Decidable c] {a b : State} (ha : c → Calm k0 a) (hb : ¬c → Calm k0 b) : Calm k0 (if c then a else b) := by
  split
  · next hc => exact ha hc
  · next hc => exact hb hc

theorem ite_fst_calm {k0 : Still} {β : Type} {c : Prop} [Decidable c] {a b : State × β} (ha : Calm k0 a.1) (hb : Calm k0 b.1) :
    Calm k0 (if c then a else b).1 := by
  split
  · exact ha
  · exact hb

theorem foldl_calm {k0 : Still} {s : State} {β : Type} (l : List β) (f : State → β → State) (hf : ∀ z b, Calm k0 z → Calm k0 (f z b)) (h : Calm k0 s) :
    Calm k0 (l.foldl f s) := by
  induction l generalizing s with
  | nil => exact h
  | cons b r ih => exact ih (hf s b h)

theorem eachFin_calm {k0 : Still} {s : State} (n : Nat) (f : State → Fin n → State) (hf : ∀ z b, Calm k0 z → Calm k0 (f z b)) (h : Calm k0 s) :
    Calm k0 (eachFin n f s) := foldl_calm _ f hf h

end State

end Sys2Proof.Machine
end

