-- ==== Sys2Proof/Laws/CalmGather.lean ====
section
/-! SUPPORT. The operations and commands of Machine/Gather.lean that leave alone what Laws/Calm.lean names. -/

set_option Elab.async false

set_option linter.unusedTactic false
set_option linter.unreachableTactic false

namespace Sys2Proof.Machine.State

theorem gffCompare_calm {k0 : Still} {s : State} (h : s.Calm k0) (n : FbNo) (cd6 : Nat) (dir : Bool) (count : Int) : (State.gffCompare s n cd6 dir count).Calm k0 := by
  unfold State.gffCompare
  repeat' first
    | with_reducible assumption
    | (extract_lets +onlyGivenNames x
       have hx : State.Calm k0 x := by
        unfold x
        repeat' first
          | with_reducible assumption
          | exact fun hm => hm
          | exact fun _ hq => hq
          | with_reducible apply modGff_calm
          | with_reducible apply ite_calm
          | split
          | (intro _ _; (try dsimp only); split)
          | (extract_lets +onlyGivenNames y; clear_value y)
                | (extract_lets +onlyGivenNames y; subst y)
       clear_value x)
    | (extract_lets +onlyGivenNames x; clear_value x)
    | (extract_lets +onlyGivenNames x; subst x)
    | exact fun hm => hm
    | exact fun _ hq => hq
    | with_reducible apply modGff_calm
    | with_reducible apply ite_calm
    | split
    | (intro _ _; (try dsimp only); split)

theorem gffSwitch_calm {k0 : Still} {s : State} (h : s.Calm k0) (i : Fin 24) (cd6 : Nat) (active : Bool) : (State.gffSwitch s i cd6 active).Calm k0 := by
  unfold State.gffSwitch
  repeat' first
    | with_reducible assumption
    | (extract_lets +onlyGivenNames x
       have hx : State.Calm k0 x := by
        unfold x
        repeat' first
          | with_reducible assumption
          | exact fun hm => hm
          | exact fun _ hq => hq
          | with_reducible apply modGff_calm
          | with_reducible apply ite_calm
          | split
          | (intro _ _; (try dsimp only); split)
          | (extract_lets +onlyGivenNames y; clear_value y)
                | (extract_lets +onlyGivenNames y; subst y)
       clear_value x)
    | (extract_lets +onlyGivenNames x; clear_value x)
    | (extract_lets +onlyGivenNames x; subst x)
    | exact fun hm => hm
    | exact fun _ hq => hq
    | with_reducible apply modGff_calm
    | with_reducible apply ite_calm
    | split
    | (intro _ _; (try dsimp only); split)

theorem gffTrace_calm {k0 : Still} {s : State} (h : s.Calm k0) (g : Grp) (sample : Nat) (committed : Bool) (values : List (Option Int)) : (State.gffTrace s g sample committed values).Calm k0 := by
  unfold State.gffTrace
  repeat' first
    | with_reducible assumption
    | (extract_lets +onlyGivenNames x
       have hx : State.Calm k0 x := by
        unfold x
        repeat' first
          | with_reducible assumption
          | exact fun hm => hm
          | exact fun _ hq => hq
          | with_reducible apply modGff_calm
          | with_reducible apply ite_calm
          | split
          | (intro _ _; (try dsimp only); split)
          | (extract_lets +onlyGivenNames y; clear_value y)
                | (extract_lets +onlyGivenNames y; subst y)
       clear_value x)
    | (extract_lets +onlyGivenNames x; clear_value x)
    | (extract_lets +onlyGivenNames x; subst x)
    | exact fun hm => hm
    | exact fun _ hq => hq
    | with_reducible apply modGff_calm
    | with_reducible apply ite_calm
    | split
    | (intro _ _; (try dsimp only); split)

theorem gffMarker_calm {k0 : Still} {s : State} (h : s.Calm k0) (payload : Nat) (cd6 : Nat) : (State.gffMarker s payload cd6).Calm k0 := by
  unfold State.gffMarker
  repeat' first
    | with_reducible assumption
    | (extract_lets +onlyGivenNames x
       have hx : State.Calm k0 x := by
        unfold x
        repeat' first
          | with_reducible assumption
          | exact fun hm => hm
          | exact fun _ hq => hq
          | with_reducible apply modGff_calm
          | with_reducible apply ite_calm
          | split
          | (intro _ _; (try dsimp only); split)
          | (extract_lets +onlyGivenNames y; clear_value y)
                | (extract_lets +onlyGivenNames y; subst y)
       clear_value x)
    | (extract_lets +onlyGivenNames x; clear_value x)
    | (extract_lets +onlyGivenNames x; subst x)
    | exact fun hm => hm
    | exact fun _ hq => hq
    | with_reducible apply modGff_calm
    | with_reducible apply ite_calm
    | split
    | (intro _ _; (try dsimp only); split)

theorem execGffRecordWrite_calm {k0 : Still} {s : State} (h : s.Calm k0)  :
    OutCalm k0 (State.execGffRecordWrite s) := by
  unfold State.execGffRecordWrite
  show State.Calm k0 _
  repeat' first
    | with_reducible assumption
    | (extract_lets +onlyGivenNames x
       have hx : State.Calm k0 x := by
        unfold x
        repeat' first
          | with_reducible assumption
          | exact fun hm => hm
          | exact fun _ hq => hq
          | with_reducible apply modGff_calm
          | with_reducible apply ite_calm
          | split
          | (intro _ _; (try dsimp only); split)
          | (extract_lets +onlyGivenNames y; clear_value y)
                | (extract_lets +onlyGivenNames y; subst y)
       clear_value x)
    | (extract_lets +onlyGivenNames x; clear_value x)
    | (extract_lets +onlyGivenNames x; subst x)
    | exact fun hm => hm
    | exact fun _ hq => hq
    | with_reducible apply modGff_calm
    | with_reducible apply ite_calm
    | split
    | (intro _ _; (try dsimp only); split)

theorem gffAck_calm {k0 : Still} {s : State} (h : s.Calm k0) (n : Nat) : (State.gffAck s n).Calm k0 := by
  unfold State.gffAck
  repeat' first
    | with_reducible assumption
    | exact fun hm => hm
    | exact fun _ hq => hq
    | with_reducible apply modGff_calm

theorem modTest_calm {k0 : Still} {s : State} (h : s.Calm k0) (f : TestSt → TestSt) : (State.modTest s f).Calm k0 := by
  unfold State.modTest
  repeat' first
    | with_reducible assumption
    | with_reducible apply mk_calm

theorem otherFrame_calm {k0 : Still} {s : State} (h : s.Calm k0)  : (State.otherFrame s).Calm k0 := by
  unfold State.otherFrame
  repeat' first
    | with_reducible assumption
    | with_reducible apply modTest_calm

theorem closeTest_calm {k0 : Still} {s : State} (h : s.Calm k0)  : (State.closeTest s).Calm k0 := by
  unfold State.closeTest
  repeat' first
    | with_reducible assumption
    | with_reducible apply mk_calm

theorem writeKey_calm {k0 : Still} {s : State} (h : s.Calm k0) (w : Word) : (State.writeKey s w).Calm k0 := by
  unfold State.writeKey
  repeat' first
    | with_reducible assumption
    | with_reducible apply modTest_calm
    | with_reducible apply ite_calm

theorem writeSinc_calm {k0 : Still} {s : State} (h : s.Calm k0) (w : Word) : (State.writeSinc s w).Calm k0 := by
  unfold State.writeSinc
  repeat' first
    | with_reducible assumption
    | with_reducible apply modTest_calm
    | with_reducible apply ite_calm

theorem writeEng_calm {k0 : Still} {s : State} (h : s.Calm k0) (w : Word) : (State.writeEng s w).Calm k0 := by
  unfold State.writeEng
  repeat' first
    | with_reducible assumption
    | with_reducible apply modTest_calm
    | with_reducible apply ite_calm

end Sys2Proof.Machine.State
end

