-- ==== Sys2Proof/Laws/CalmOperands.lean ====
section
/-! SUPPORT. The operations and commands of Machine/Operands.lean that leave alone what Laws/Calm.lean names. -/

set_option Elab.async false

set_option linter.unusedTactic false
set_option linter.unreachableTactic false

namespace Sys2Proof.Machine.State

theorem setNoun_calm {k0 : Still} {s : State} (h : s.Calm k0) (id : Nat) (v : Int) : (State.setNoun s id v).Calm k0 := by
  unfold State.setNoun
  repeat' first
    | with_reducible assumption
    | with_reducible apply mk_calm

end Sys2Proof.Machine.State
end

