-- ==== Sys2Proof/Laws/CalmMotion.lean ====
section
/-! SUPPORT. The operations and commands of Machine/Motion.lean that leave alone what Laws/Calm.lean names. -/

set_option Elab.async false

set_option linter.unusedTactic false
set_option linter.unreachableTactic false

namespace Sys2Proof.Machine.State

theorem dropTicket_calm {k0 : Still} {s : State} (h : s.Calm k0) (x : GenId) (status : Nat) : (State.dropTicket s x status).Calm k0 := by
  unfold State.dropTicket
  repeat' first
    | with_reducible assumption
    | with_reducible apply finishOpt_calm
    | with_reducible apply modGen_calm

theorem takeTicket_calm {k0 : Still} {s : State} (h : s.Calm k0) (x : GenId) (t : Nat) : (State.takeTicket s x t).Calm k0 := by
  unfold State.takeTicket
  repeat' first
    | with_reducible assumption
    | (extract_lets +onlyGivenNames x
       have hx : State.Calm k0 x := by
        unfold x
        repeat' first
          | with_reducible assumption
          | with_reducible apply dropTicket_calm
          | with_reducible apply modGen_calm
          | with_reducible apply present_calm
          | with_reducible apply ite_calm
          | (extract_lets +onlyGivenNames y; clear_value y)
                | (extract_lets +onlyGivenNames y; subst y)
       clear_value x)
    | (extract_lets +onlyGivenNames x; clear_value x)
    | (extract_lets +onlyGivenNames x; subst x)
    | with_reducible apply dropTicket_calm
    | with_reducible apply modGen_calm
    | with_reducible apply present_calm
    | with_reducible apply ite_calm

theorem putTarget_calm {k0 : Still} {s : State} (h : s.Calm k0) (x : GenId) (k : Kind) (target : Int) : (State.putTarget s x k target).Calm k0 := by
  unfold State.putTarget
  repeat' first
    | with_reducible assumption
    | with_reducible apply modGen_calm
    | with_reducible apply ite_calm

theorem haltPath_calm {k0 : Still} {s : State} (h : s.Calm k0) (g : Grp) (status : Nat) : (State.haltPath s g status).Calm k0 := by
  unfold State.haltPath
  repeat' first
    | with_reducible assumption
    | exact fun hm => hm
    | exact fun _ hq => hq
    | with_reducible apply finish_calm
    | with_reducible apply modGroup_calm
    | with_reducible apply ite_calm
    | split
    | (intro _ _; (try dsimp only); split)

theorem haltGen_calm {k0 : Still} {s : State} (h : s.Calm k0) (g : Grp) (x : GenId) : (State.haltGen s g x).Calm k0 := by
  unfold State.haltGen
  repeat' first
    | with_reducible assumption
    | with_reducible apply haltPath_calm
    | with_reducible apply putTarget_calm
    | with_reducible apply ite_calm

theorem engageWind_calm {k0 : Still} {s : State} (h : s.Calm k0) (g : Grp) (t : Nat) (towardsLo : Bool) : (State.engageWind s g t towardsLo).Calm k0 := by
  unfold State.engageWind
  repeat' first
    | with_reducible assumption
    | (extract_lets +onlyGivenNames x
       have hx : State.Calm k0 x := by
        unfold x
        repeat' first
          | with_reducible assumption
          | exact fun hm => hm
          | exact fun _ hq => hq
          | with_reducible apply finish_calm
          | with_reducible apply modGroup_calm
          | with_reducible apply putTarget_calm
          | with_reducible apply takeTicket_calm
          | with_reducible apply ite_calm
          | split
          | (intro _ _; (try dsimp only); split)
          | (extract_lets +onlyGivenNames y; clear_value y)
                | (extract_lets +onlyGivenNames y; subst y)
       clear_value x)
    | (extract_lets +onlyGivenNames x; clear_value x)
    | (extract_lets +onlyGivenNames x; subst x)
    | exact fun hm => hm
    | exact fun _ hq => hq
    | with_reducible apply finish_calm
    | with_reducible apply modGroup_calm
    | with_reducible apply putTarget_calm
    | with_reducible apply takeTicket_calm
    | with_reducible apply ite_calm
    | split
    | (intro _ _; (try dsimp only); split)

theorem beginPath_calm {k0 : Still} {s : State} (h : s.Calm k0) (g : Grp) (t : Nat) (mains : BitVec 12) (auxs : BitVec 8) (targets : List Int) : (State.beginPath s g t mains auxs targets).Calm k0 := by
  unfold State.beginPath
  repeat' first
    | with_reducible assumption
    | (extract_lets +onlyGivenNames x
       have hx : State.Calm k0 x := by
        unfold x
        repeat' first
          | with_reducible assumption
          | exact fun hm => hm
          | exact fun _ hq => hq
          | with_reducible apply dropTicket_calm
          | with_reducible apply modGroup_calm
          | with_reducible apply present_calm
          | with_reducible apply putTarget_calm
          | with_reducible apply foldl_calm
          | (intro z b hz; beta_reduce)
          | (extract_lets +onlyGivenNames y; clear_value y)
                | (extract_lets +onlyGivenNames y; subst y)
       clear_value x)
    | (extract_lets +onlyGivenNames x; clear_value x)
    | (extract_lets +onlyGivenNames x; subst x)
    | exact fun hm => hm
    | exact fun _ hq => hq
    | with_reducible apply dropTicket_calm
    | with_reducible apply modGroup_calm
    | with_reducible apply present_calm
    | with_reducible apply putTarget_calm
    | with_reducible apply foldl_calm
    | (intro z b hz; beta_reduce)

theorem beginHome_calm {k0 : Still} {s : State} (h : s.Calm k0) (t : Nat) (a : AuxNo) (high : Bool) : (State.beginHome s t a high).Calm k0 := by
  unfold State.beginHome
  repeat' first
    | with_reducible assumption
    | (extract_lets +onlyGivenNames x
       have hx : State.Calm k0 x := by
        unfold x
        repeat' first
          | with_reducible assumption
          | with_reducible apply dropTicket_calm
          | with_reducible apply finish_calm
          | with_reducible apply modAux_calm
          | with_reducible apply present_calm
          | with_reducible apply putTarget_calm
          | with_reducible apply ite_calm
          | (extract_lets +onlyGivenNames y; clear_value y)
                | (extract_lets +onlyGivenNames y; subst y)
       clear_value x)
    | (extract_lets +onlyGivenNames x; clear_value x)
    | (extract_lets +onlyGivenNames x; subst x)
    | with_reducible apply dropTicket_calm
    | with_reducible apply finish_calm
    | with_reducible apply modAux_calm
    | with_reducible apply present_calm
    | with_reducible apply putTarget_calm
    | with_reducible apply ite_calm

theorem stopHoming_calm {k0 : Still} {s : State} (h : s.Calm k0) (x : GenId) (status : Nat) : (State.stopHoming s x status).Calm k0 := by
  unfold State.stopHoming
  repeat' first
    | with_reducible assumption
    | with_reducible apply modAux_calm
    | with_reducible apply ite_calm
    | split

theorem takeOrder_calm {k0 : Still} {s : State} (h : s.Calm k0) (g : Grp) (order : MotionOrder) : (State.takeOrder s g order).Calm k0 := by
  unfold State.takeOrder
  repeat' first
    | with_reducible assumption
    | (extract_lets +onlyGivenNames x
       have hx : State.Calm k0 x := by
        unfold x
        repeat' first
          | with_reducible assumption
          | exact fun hm => hm
          | exact fun _ hq => hq
          | with_reducible apply beginHome_calm
          | with_reducible apply beginPath_calm
          | with_reducible apply dropTicket_calm
          | with_reducible apply engageWind_calm
          | with_reducible apply finish_calm
          | with_reducible apply haltGen_calm
          | with_reducible apply haltGroup_calm
          | with_reducible apply haltPath_calm
          | with_reducible apply modGen_calm
          | with_reducible apply modGroup_calm
          | with_reducible apply present_calm
          | with_reducible apply putTarget_calm
          | with_reducible apply stopHoming_calm
          | with_reducible apply takeTicket_calm
          | with_reducible apply foldl_calm
          | (intro z b hz; beta_reduce)
          | with_reducible apply ite_calm
          | split
          | (intro _ _; (try dsimp only); split)
          | (extract_lets +onlyGivenNames y; clear_value y)
                | (extract_lets +onlyGivenNames y; subst y)
       clear_value x)
    | (extract_lets +onlyGivenNames x; clear_value x)
    | (extract_lets +onlyGivenNames x; subst x)
    | exact fun hm => hm
    | exact fun _ hq => hq
    | with_reducible apply beginHome_calm
    | with_reducible apply beginPath_calm
    | with_reducible apply dropTicket_calm
    | with_reducible apply engageWind_calm
    | with_reducible apply finish_calm
    | with_reducible apply haltGen_calm
    | with_reducible apply haltGroup_calm
    | with_reducible apply haltPath_calm
    | with_reducible apply modGen_calm
    | with_reducible apply modGroup_calm
    | with_reducible apply present_calm
    | with_reducible apply putTarget_calm
    | with_reducible apply stopHoming_calm
    | with_reducible apply takeTicket_calm
    | with_reducible apply foldl_calm
    | (intro z b hz; beta_reduce)
    | with_reducible apply ite_calm
    | split
    | (intro _ _; (try dsimp only); split)

theorem takeOrders_calm {k0 : Still} {s : State} (h : s.Calm k0) (g : Grp) (n : Nat) : (State.takeOrders s g n).Calm k0 := by
  unfold State.takeOrders
  repeat' first
    | with_reducible assumption
    | (extract_lets +onlyGivenNames x
       have hx : State.Calm k0 x := by
        unfold x
        repeat' first
          | with_reducible assumption
          | exact fun hm => hm
          | exact fun _ hq => hq
          | with_reducible apply modGroup_calm
          | with_reducible apply takeOrder_calm
          | with_reducible apply foldl_calm
          | (intro z b hz; beta_reduce)
          | split
          | (intro _ _; (try dsimp only); split)
          | (extract_lets +onlyGivenNames y; clear_value y)
                | (extract_lets +onlyGivenNames y; subst y)
       clear_value x)
    | (extract_lets +onlyGivenNames x; clear_value x)
    | (extract_lets +onlyGivenNames x; subst x)
    | exact fun hm => hm
    | exact fun _ hq => hq
    | with_reducible apply modGroup_calm
    | with_reducible apply takeOrder_calm
    | with_reducible apply foldl_calm
    | (intro z b hz; beta_reduce)
    | split
    | (intro _ _; (try dsimp only); split)

theorem beginReversal_calm {k0 : Still} {s : State} (h : s.Calm k0) (g : Grp) (x : GenId) (l : GenLim) : (State.beginReversal s g x l).Calm k0 := by
  unfold State.beginReversal
  repeat' first
    | with_reducible assumption
    | (extract_lets +onlyGivenNames x
       have hx : State.Calm k0 x := by
        unfold x
        repeat' first
          | with_reducible assumption
          | exact fun hm => hm
          | exact fun _ hq => hq
          | with_reducible apply modGen_calm
          | with_reducible apply modGroup_calm
          | with_reducible apply ite_calm
          | (intro _ _; (try dsimp only); split)
          | (extract_lets +onlyGivenNames y; clear_value y)
                | (extract_lets +onlyGivenNames y; subst y)
       clear_value x)
    | (extract_lets +onlyGivenNames x; clear_value x)
    | (extract_lets +onlyGivenNames x; subst x)
    | exact fun hm => hm
    | exact fun _ hq => hq
    | with_reducible apply modGen_calm
    | with_reducible apply modGroup_calm
    | with_reducible apply ite_calm
    | (intro _ _; (try dsimp only); split)

theorem stepCurrent_calm {k0 : Still} {s : State} (h : s.Calm k0) (x : GenId) (T : Rat) : (State.stepCurrent s x T).Calm k0 := by
  unfold State.stepCurrent
  repeat' first
    | with_reducible assumption
    | (extract_lets +onlyGivenNames x
       have hx : State.Calm k0 x := by
        unfold x
        repeat' first
          | with_reducible assumption
          | with_reducible apply modGen_calm
          | with_reducible apply ite_calm
          | (extract_lets +onlyGivenNames y; clear_value y)
                | (extract_lets +onlyGivenNames y; subst y)
       clear_value x)
    | (extract_lets +onlyGivenNames x; clear_value x)
    | (extract_lets +onlyGivenNames x; subst x)
    | with_reducible apply modGen_calm
    | with_reducible apply ite_calm

theorem stopAtLimit_calm {k0 : Still} {s : State} (h : s.Calm k0) (g : Grp) (x : GenId) (l : GenLim) (j : Rat) (T : Rat) : (State.stopAtLimit s g x l j T).1.Calm k0 := by
  unfold State.stopAtLimit
  repeat' first
    | with_reducible assumption
    | (extract_lets +onlyGivenNames x
       have hx : State.Calm k0 x := by
        unfold x
        repeat' first
          | with_reducible assumption
          | with_reducible apply dropTicket_calm
          | with_reducible apply logEvent_calm
          | with_reducible apply modGen_calm
          | with_reducible apply ite_calm
          | with_reducible apply ite_fst_calm
          | split
          | (extract_lets +onlyGivenNames y; clear_value y)
                | (extract_lets +onlyGivenNames y; subst y)
       clear_value x)
    | (extract_lets +onlyGivenNames x; clear_value x)
    | (extract_lets +onlyGivenNames x; subst x)
    | with_reducible apply dropTicket_calm
    | with_reducible apply logEvent_calm
    | with_reducible apply modGen_calm
    | with_reducible apply ite_calm
    | with_reducible apply ite_fst_calm
    | split

theorem predictLimit_calm {k0 : Still} {s : State} (h : s.Calm k0) (g : Grp) (x : GenId) (l : GenLim) : (State.predictLimit s g x l).Calm k0 := by
  unfold State.predictLimit
  repeat' first
    | with_reducible assumption
    | (extract_lets +onlyGivenNames x
       have hx : State.Calm k0 x := by
        unfold x
        repeat' first
          | with_reducible assumption
          | with_reducible apply logEvent_calm
          | with_reducible apply modGen_calm
          | with_reducible apply ite_calm
          | split
          | (extract_lets +onlyGivenNames y; clear_value y)
                | (extract_lets +onlyGivenNames y; subst y)
       clear_value x)
    | (extract_lets +onlyGivenNames x; clear_value x)
    | (extract_lets +onlyGivenNames x; subst x)
    | with_reducible apply logEvent_calm
    | with_reducible apply modGen_calm
    | with_reducible apply ite_calm
    | split

theorem afterLimits_calm {k0 : Still} {s : State} (h : s.Calm k0) (g : Grp) (x : GenId) (before : Mot) : (State.afterLimits s g x before).Calm k0 := by
  unfold State.afterLimits
  repeat' first
    | with_reducible assumption
    | (extract_lets +onlyGivenNames x
       have hx : State.Calm k0 x := by
        unfold x
        repeat' first
          | with_reducible assumption
          | with_reducible apply logEvent_calm
          | with_reducible apply modGen_calm
          | with_reducible apply ite_calm
          | (extract_lets +onlyGivenNames y; clear_value y)
                | (extract_lets +onlyGivenNames y; subst y)
       clear_value x)
    | (extract_lets +onlyGivenNames x; clear_value x)
    | (extract_lets +onlyGivenNames x; subst x)
    | with_reducible apply logEvent_calm
    | with_reducible apply modGen_calm
    | with_reducible apply ite_calm

theorem endHalt_calm {k0 : Still} {s : State} (h : s.Calm k0) (x : GenId) : (State.endHalt s x).Calm k0 := by
  unfold State.endHalt
  repeat' first
    | with_reducible assumption
    | (extract_lets +onlyGivenNames x
       have hx : State.Calm k0 x := by
        unfold x
        repeat' first
          | with_reducible assumption
          | with_reducible apply modGen_calm
          | with_reducible apply ite_calm
          | (extract_lets +onlyGivenNames y; clear_value y)
                | (extract_lets +onlyGivenNames y; subst y)
       clear_value x)
    | (extract_lets +onlyGivenNames x; clear_value x)
    | (extract_lets +onlyGivenNames x; subst x)
    | with_reducible apply modGen_calm
    | with_reducible apply ite_calm

theorem stepPlan_calm {k0 : Still} {s : State} (h : s.Calm k0) (g : Grp) (x : GenId) : (State.stepPlan s g x).Calm k0 := by
  unfold State.stepPlan
  repeat' first
    | with_reducible assumption
    | (extract_lets +onlyGivenNames x
       have hx : State.Calm k0 x := by
        unfold x
        repeat' first
          | with_reducible assumption
          | with_reducible apply afterLimits_calm
          | with_reducible apply beginReversal_calm
          | with_reducible apply endHalt_calm
          | with_reducible apply modGen_calm
          | with_reducible apply predictLimit_calm
          | with_reducible apply segment_calm
          | with_reducible apply stepCurrent_calm
          | with_reducible apply stopAtLimit_calm
          | with_reducible apply ite_calm
          | split
          | (extract_lets +onlyGivenNames y; have : State.Calm k0 (Prod.fst y) ∨ True := (.inr trivial); clear this; subst y)
                | (extract_lets +onlyGivenNames y; clear_value y)
                | (extract_lets +onlyGivenNames y; subst y)
       clear_value x)
    | (extract_lets +onlyGivenNames x; have : State.Calm k0 (Prod.fst x) ∨ True := (.inr trivial); clear this; subst x)
    | (extract_lets +onlyGivenNames x; clear_value x)
    | (extract_lets +onlyGivenNames x; subst x)
    | with_reducible apply afterLimits_calm
    | with_reducible apply beginReversal_calm
    | with_reducible apply endHalt_calm
    | with_reducible apply modGen_calm
    | with_reducible apply predictLimit_calm
    | with_reducible apply segment_calm
    | with_reducible apply stepCurrent_calm
    | with_reducible apply stopAtLimit_calm
    | with_reducible apply ite_calm
    | split

theorem stepDrum_calm {k0 : Still} {s : State} (h : s.Calm k0) (g : Grp) (x : GenId) : (State.stepDrum s g x).Calm k0 := by
  unfold State.stepDrum
  repeat' first
    | with_reducible assumption
    | (extract_lets +onlyGivenNames x
       have hx : State.Calm k0 x := by
        unfold x
        repeat' first
          | with_reducible assumption
          | with_reducible apply modGen_calm
          | split
          | (extract_lets +onlyGivenNames y; clear_value y)
                | (extract_lets +onlyGivenNames y; subst y)
       clear_value x)
    | (extract_lets +onlyGivenNames x; clear_value x)
    | (extract_lets +onlyGivenNames x; subst x)
    | with_reducible apply modGen_calm
    | split

theorem presetGen_calm {k0 : Still} {s : State} (h : s.Calm k0) (x : GenId) : (State.presetGen s x).Calm k0 := by
  unfold State.presetGen
  repeat' first
    | with_reducible assumption
    | (extract_lets +onlyGivenNames x
       have hx : State.Calm k0 x := by
        unfold x
        repeat' first
          | with_reducible assumption
          | with_reducible apply modGen_calm
          | with_reducible apply ite_calm
          | split
          | (extract_lets +onlyGivenNames y; clear_value y)
                | (extract_lets +onlyGivenNames y; subst y)
       clear_value x)
    | (extract_lets +onlyGivenNames x; clear_value x)
    | (extract_lets +onlyGivenNames x; subst x)
    | with_reducible apply modGen_calm
    | with_reducible apply ite_calm
    | split

theorem restGen_calm {k0 : Still} {s : State} (h : s.Calm k0) (x : GenId) : (State.restGen s x).Calm k0 := by
  unfold State.restGen
  repeat' first
    | with_reducible assumption
    | with_reducible apply modGen_calm

theorem stepGen_calm {k0 : Still} {s : State} (h : s.Calm k0) (g : Grp) (x : GenId) : (State.stepGen s g x).Calm k0 := by
  unfold State.stepGen
  repeat' first
    | with_reducible assumption
    | (extract_lets +onlyGivenNames x
       have hx : State.Calm k0 x := by
        unfold x
        repeat' first
          | with_reducible assumption
          | with_reducible apply modGen_calm
          | with_reducible apply presetGen_calm
          | with_reducible apply restGen_calm
          | with_reducible apply stepDrum_calm
          | with_reducible apply stepPlan_calm
          | with_reducible apply ite_calm
          | (extract_lets +onlyGivenNames y; clear_value y)
                | (extract_lets +onlyGivenNames y; subst y)
       clear_value x)
    | (extract_lets +onlyGivenNames x; clear_value x)
    | (extract_lets +onlyGivenNames x; subst x)
    | with_reducible apply modGen_calm
    | with_reducible apply presetGen_calm
    | with_reducible apply restGen_calm
    | with_reducible apply stepDrum_calm
    | with_reducible apply stepPlan_calm
    | with_reducible apply ite_calm

theorem stepPath_calm {k0 : Still} {s : State} (h : s.Calm k0) (g : Grp) : (State.stepPath s g).Calm k0 := by
  unfold State.stepPath
  repeat' first
    | with_reducible assumption
    | (extract_lets +onlyGivenNames x
       have hx : State.Calm k0 x := by
        unfold x
        repeat' first
          | with_reducible assumption
          | exact fun hm => hm
          | exact fun _ hq => hq
          | with_reducible apply haltPath_calm
          | with_reducible apply modGen_calm
          | with_reducible apply modGroup_calm
          | with_reducible apply foldl_calm
          | (intro z b hz; beta_reduce)
          | with_reducible apply ite_calm
          | split
          | (intro _ _; (try dsimp only); split)
          | (extract_lets +onlyGivenNames y; clear_value y)
                | (extract_lets +onlyGivenNames y; subst y)
       clear_value x)
    | (extract_lets +onlyGivenNames x; clear_value x)
    | (extract_lets +onlyGivenNames x; subst x)
    | exact fun hm => hm
    | exact fun _ hq => hq
    | with_reducible apply haltPath_calm
    | with_reducible apply modGen_calm
    | with_reducible apply modGroup_calm
    | with_reducible apply foldl_calm
    | (intro z b hz; beta_reduce)
    | with_reducible apply ite_calm
    | split
    | (intro _ _; (try dsimp only); split)

theorem countFolds_calm {k0 : Still} {s : State} (h : s.Calm k0) (g : Grp) : (State.countFolds s g).Calm k0 := by
  unfold State.countFolds
  repeat' first
    | with_reducible assumption
    | (extract_lets +onlyGivenNames x
       have hx : State.Calm k0 x := by
        unfold x
        repeat' first
          | with_reducible assumption
          | exact fun hm => hm
          | exact fun _ hq => hq
          | with_reducible apply modGroup_calm
          | with_reducible apply ite_calm
          | split
          | (intro _ _; (try dsimp only); split)
          | (extract_lets +onlyGivenNames y; clear_value y)
                | (extract_lets +onlyGivenNames y; subst y)
       clear_value x)
    | (extract_lets +onlyGivenNames x; clear_value x)
    | (extract_lets +onlyGivenNames x; subst x)
    | exact fun hm => hm
    | exact fun _ hq => hq
    | with_reducible apply modGroup_calm
    | with_reducible apply ite_calm
    | split
    | (intro _ _; (try dsimp only); split)

theorem endFollow_calm {k0 : Still} {s : State} (h : s.Calm k0) (g : Grp) (a : AuxNo) (reason : Int) (status : Nat) : (State.endFollow s g a reason status).Calm k0 := by
  unfold State.endFollow
  repeat' first
    | with_reducible assumption
    | with_reducible apply dropTicket_calm
    | with_reducible apply logEvent_calm
    | with_reducible apply putTarget_calm
    | with_reducible apply ite_calm

theorem checkDrum_calm {k0 : Still} {s : State} (h : s.Calm k0) (g : Grp) : (State.checkDrum s g).Calm k0 := by
  unfold State.checkDrum
  repeat' first
    | with_reducible assumption
    | with_reducible apply endFollow_calm
    | with_reducible apply ite_calm
    | split

theorem stepMotion_calm {k0 : Still} {s : State} (h : s.Calm k0) (g : Grp) : (State.stepMotion s g).Calm k0 := by
  unfold State.stepMotion
  repeat' first
    | with_reducible assumption
    | (extract_lets +onlyGivenNames x
       have hx : State.Calm k0 x := by
        unfold x
        repeat' first
          | with_reducible assumption
          | with_reducible apply checkDrum_calm
          | with_reducible apply countFolds_calm
          | with_reducible apply stepGen_calm
          | with_reducible apply stepPath_calm
          | with_reducible apply takeOrders_calm
          | with_reducible apply foldl_calm
          | (intro z b hz; beta_reduce)
          | (extract_lets +onlyGivenNames y; clear_value y)
                | (extract_lets +onlyGivenNames y; subst y)
       clear_value x)
    | (extract_lets +onlyGivenNames x; clear_value x)
    | (extract_lets +onlyGivenNames x; subst x)
    | with_reducible apply checkDrum_calm
    | with_reducible apply countFolds_calm
    | with_reducible apply stepGen_calm
    | with_reducible apply stepPath_calm
    | with_reducible apply takeOrders_calm
    | with_reducible apply foldl_calm
    | (intro z b hz; beta_reduce)

theorem completeMotion_calm {k0 : Still} {s : State} (h : s.Calm k0) (g : Grp) : (State.completeMotion s g).Calm k0 := by
  unfold State.completeMotion
  repeat' first
    | with_reducible assumption
    | (extract_lets +onlyGivenNames x
       have hx : State.Calm k0 x := by
        unfold x
        repeat' first
          | with_reducible assumption
          | exact fun hm => hm
          | exact fun _ hq => hq
          | with_reducible apply dropTicket_calm
          | with_reducible apply finish_calm
          | with_reducible apply modGen_calm
          | with_reducible apply modGroup_calm
          | with_reducible apply foldl_calm
          | (intro z b hz; beta_reduce)
          | with_reducible apply ite_calm
          | split
          | (intro _ _; (try dsimp only); split)
          | (extract_lets +onlyGivenNames y; have : ∀ z : State, State.Calm k0 (y z) ∨ True := (fun _ => .inr trivial); clear this; subst y)
                | (extract_lets +onlyGivenNames y; have : ∀ (z : State) b, State.Calm k0 (y z b) ∨ True := (fun _ _ => .inr trivial); clear this; subst y)
                | (extract_lets +onlyGivenNames y; clear_value y)
                | (extract_lets +onlyGivenNames y; subst y)
       clear_value x)
    | (extract_lets +onlyGivenNames x; have : ∀ z : State, State.Calm k0 (x z) ∨ True := (fun _ => .inr trivial); clear this; subst x)
    | (extract_lets +onlyGivenNames x; have : ∀ (z : State) b, State.Calm k0 (x z b) ∨ True := (fun _ _ => .inr trivial); clear this; subst x)
    | (extract_lets +onlyGivenNames x; clear_value x)
    | (extract_lets +onlyGivenNames x; subst x)
    | exact fun hm => hm
    | exact fun _ hq => hq
    | with_reducible apply dropTicket_calm
    | with_reducible apply finish_calm
    | with_reducible apply modGen_calm
    | with_reducible apply modGroup_calm
    | with_reducible apply foldl_calm
    | (intro z b hz; beta_reduce)
    | with_reducible apply ite_calm
    | split
    | (intro _ _; (try dsimp only); split)

theorem enterDrum_calm {k0 : Still} {s : State} (h : s.Calm k0) (g : Grp) : (State.enterDrum s g).Calm k0 := by
  unfold State.enterDrum
  repeat' first
    | with_reducible assumption
    | (extract_lets +onlyGivenNames x
       have hx : State.Calm k0 x := by
        unfold x
        repeat' first
          | with_reducible assumption
          | with_reducible apply haltPath_calm
          | with_reducible apply modGen_calm
          | with_reducible apply foldl_calm
          | (intro z b hz; beta_reduce)
          | with_reducible apply ite_calm
          | (extract_lets +onlyGivenNames y; clear_value y)
                | (extract_lets +onlyGivenNames y; subst y)
       clear_value x)
    | (extract_lets +onlyGivenNames x; clear_value x)
    | (extract_lets +onlyGivenNames x; subst x)
    | with_reducible apply haltPath_calm
    | with_reducible apply modGen_calm
    | with_reducible apply foldl_calm
    | (intro z b hz; beta_reduce)
    | with_reducible apply ite_calm

theorem leaveDrum_calm {k0 : Still} {s : State} (h : s.Calm k0) (g : Grp) : (State.leaveDrum s g).Calm k0 := by
  unfold State.leaveDrum
  repeat' first
    | with_reducible assumption
    | (extract_lets +onlyGivenNames x
       have hx : State.Calm k0 x := by
        unfold x
        repeat' first
          | with_reducible assumption
          | with_reducible apply modGen_calm
          | with_reducible apply foldl_calm
          | (intro z b hz; beta_reduce)
          | with_reducible apply ite_calm
          | split
          | (extract_lets +onlyGivenNames y; clear_value y)
                | (extract_lets +onlyGivenNames y; subst y)
       clear_value x)
    | (extract_lets +onlyGivenNames x; clear_value x)
    | (extract_lets +onlyGivenNames x; subst x)
    | with_reducible apply modGen_calm
    | with_reducible apply foldl_calm
    | (intro z b hz; beta_reduce)
    | with_reducible apply ite_calm
    | split

theorem haltAll_calm {k0 : Still} {s : State} (h : s.Calm k0) (g : Grp) : (State.haltAll s g).Calm k0 := by
  unfold State.haltAll
  repeat' first
    | with_reducible assumption
    | exact fun hm => hm
    | exact fun _ hq => hq
    | with_reducible apply modGroup_calm

theorem latchTrack_calm {k0 : Still} {s : State} (h : s.Calm k0) (x : GenId) (v : Int) : (State.latchTrack s x v).Calm k0 := by
  unfold State.latchTrack
  repeat' first
    | with_reducible assumption
    | (extract_lets +onlyGivenNames x
       have hx : State.Calm k0 x := by
        unfold x
        repeat' first
          | with_reducible assumption
          | with_reducible apply modGen_calm
          | with_reducible apply ite_calm
          | split
          | (extract_lets +onlyGivenNames y; clear_value y)
                | (extract_lets +onlyGivenNames y; subst y)
       clear_value x)
    | (extract_lets +onlyGivenNames x; clear_value x)
    | (extract_lets +onlyGivenNames x; subst x)
    | with_reducible apply modGen_calm
    | with_reducible apply ite_calm
    | split

end Sys2Proof.Machine.State
end

