-- ==== Sys2Proof/Laws/CalmCommutation.lean ====
section
/-! SUPPORT. The operations and commands of Machine/Commutation.lean that leave alone what Laws/Calm.lean names. -/

set_option Elab.async false

set_option linter.unusedTactic false
set_option linter.unreachableTactic false

namespace Sys2Proof.Machine.State

theorem gatesOff_calm {k0 : Still} {s : State} (h : s.Calm k0) (m : Main) : (State.gatesOff s m).Calm k0 := by
  unfold State.gatesOff
  repeat' first
    | with_reducible assumption
    | with_reducible apply modDrive_calm
    | with_reducible apply modGlance_calm

theorem gatesOn_calm {k0 : Still} {s : State} (h : s.Calm k0) (m : Main) : (State.gatesOn s m).Calm k0 := by
  unfold State.gatesOn
  repeat' first
    | with_reducible assumption
    | with_reducible apply modDrive_calm

theorem setRelease_calm {k0 : Still} {s : State} (h : s.Calm k0) (m : Main) (b : Bool) : (State.setRelease s m b).Calm k0 := by
  unfold State.setRelease
  repeat' first
    | with_reducible assumption
    | with_reducible apply modComm_calm

theorem endOffsets_calm {k0 : Still} {s : State} (h : s.Calm k0) (m : Main) (full : Bool) : (State.endOffsets s m full).Calm k0 := by
  unfold State.endOffsets
  repeat' first
    | with_reducible assumption
    | (extract_lets +onlyGivenNames x
       have hx : State.Calm k0 x := by
        unfold x
        repeat' first
          | with_reducible assumption
          | with_reducible apply logEvent_calm
          | with_reducible apply modDrive_calm
          | with_reducible apply setNoun_calm
          | with_reducible apply ite_calm
          | (extract_lets +onlyGivenNames y; clear_value y)
                | (extract_lets +onlyGivenNames y; subst y)
       clear_value x)
    | (extract_lets +onlyGivenNames x; clear_value x)
    | (extract_lets +onlyGivenNames x; subst x)
    | with_reducible apply logEvent_calm
    | with_reducible apply modDrive_calm
    | with_reducible apply setNoun_calm
    | with_reducible apply ite_calm

theorem enterCheck_calm {k0 : Still} {s : State} (h : s.Calm k0) (m : Main) : (State.enterCheck s m).Calm k0 := by
  unfold State.enterCheck
  repeat' first
    | with_reducible assumption
    | (extract_lets +onlyGivenNames x
       have hx : State.Calm k0 x := by
        unfold x
        repeat' first
          | with_reducible assumption
          | with_reducible apply endOffsets_calm
          | with_reducible apply gatesOff_calm
          | with_reducible apply modComm_calm
          | with_reducible apply modDrive_calm
          | with_reducible apply modGlance_calm
          | with_reducible apply setRelease_calm
          | (extract_lets +onlyGivenNames y; clear_value y)
                | (extract_lets +onlyGivenNames y; subst y)
       clear_value x)
    | (extract_lets +onlyGivenNames x; clear_value x)
    | (extract_lets +onlyGivenNames x; subst x)
    | with_reducible apply endOffsets_calm
    | with_reducible apply gatesOff_calm
    | with_reducible apply modComm_calm
    | with_reducible apply modDrive_calm
    | with_reducible apply modGlance_calm
    | with_reducible apply setRelease_calm

theorem failStart_calm {k0 : Still} {s : State} (h : s.Calm k0) (m : Main) (starting : Bool) (status : Nat) : (State.failStart s m starting status).Calm k0 := by
  unfold State.failStart
  repeat' first
    | with_reducible assumption
    | (extract_lets +onlyGivenNames x
       have hx : State.Calm k0 x := by
        unfold x
        repeat' first
          | with_reducible assumption
          | with_reducible apply dropTicket_calm
          | with_reducible apply finish_calm
          | with_reducible apply modMain_calm
          | with_reducible apply ite_calm
          | split
          | (extract_lets +onlyGivenNames y; clear_value y)
                | (extract_lets +onlyGivenNames y; subst y)
       clear_value x)
    | (extract_lets +onlyGivenNames x; clear_value x)
    | (extract_lets +onlyGivenNames x; subst x)
    | with_reducible apply dropTicket_calm
    | with_reducible apply finish_calm
    | with_reducible apply modMain_calm
    | with_reducible apply ite_calm
    | split

theorem enterRest_calm {k0 : Still} {s : State} (h : s.Calm k0) (m : Main) (st : CState) (why : StopReason) : (State.enterRest s m st why).Calm k0 := by
  unfold State.enterRest
  repeat' first
    | with_reducible assumption
    | (extract_lets +onlyGivenNames x
       have hx : State.Calm k0 x := by
        unfold x
        repeat' first
          | with_reducible assumption
          | with_reducible apply endOffsets_calm
          | with_reducible apply failStart_calm
          | with_reducible apply finishOpt_calm
          | with_reducible apply gatesOff_calm
          | with_reducible apply logEvent_calm
          | with_reducible apply modComm_calm
          | with_reducible apply modMain_calm
          | split
          | (extract_lets +onlyGivenNames y; clear_value y)
                | (extract_lets +onlyGivenNames y; subst y)
       clear_value x)
    | (extract_lets +onlyGivenNames x; clear_value x)
    | (extract_lets +onlyGivenNames x; subst x)
    | with_reducible apply endOffsets_calm
    | with_reducible apply failStart_calm
    | with_reducible apply finishOpt_calm
    | with_reducible apply gatesOff_calm
    | with_reducible apply logEvent_calm
    | with_reducible apply modComm_calm
    | with_reducible apply modMain_calm
    | split

theorem leaveTorque_calm {k0 : Still} {s : State} (h : s.Calm k0) (g : Grp) (run : AxisRun) (st : CState) (why : StopReason) : (State.leaveTorque s g run st why).Calm k0 := by
  unfold State.leaveTorque
  repeat' first
    | with_reducible assumption
    | (extract_lets +onlyGivenNames x
       have hx : State.Calm k0 x := by
        unfold x
        repeat' first
          | with_reducible assumption
          | with_reducible apply enterRest_calm
          | with_reducible apply modComm_calm
          | with_reducible apply ite_calm
          | (extract_lets +onlyGivenNames y; clear_value y)
                | (extract_lets +onlyGivenNames y; subst y)
       clear_value x)
    | (extract_lets +onlyGivenNames x; clear_value x)
    | (extract_lets +onlyGivenNames x; subst x)
    | with_reducible apply enterRest_calm
    | with_reducible apply modComm_calm
    | with_reducible apply ite_calm

theorem enterGated_calm {k0 : Still} {s : State} (h : s.Calm k0) (m : Main) (st : CState) (src : Source) : (State.enterGated s m st src).Calm k0 := by
  unfold State.enterGated
  repeat' first
    | with_reducible assumption
    | with_reducible apply CState.releases_calm
    | with_reducible apply gatesOn_calm
    | with_reducible apply modComm_calm
    | with_reducible apply setRelease_calm

theorem freshWindows_calm {k0 : Still} {s : State} (h : s.Calm k0) (m : Main) : (State.freshWindows s m).Calm k0 := by
  unfold State.freshWindows
  repeat' first
    | with_reducible assumption
    | with_reducible apply modGlance_calm

theorem enterRun_calm {k0 : Still} {s : State} (h : s.Calm k0) (run : AxisRun) (src : Source) : (State.enterRun s run src).Calm k0 := by
  unfold State.enterRun
  repeat' first
    | with_reducible assumption
    | (extract_lets +onlyGivenNames x
       have hx : State.Calm k0 x := by
        unfold x
        repeat' first
          | with_reducible assumption
          | with_reducible apply enterGated_calm
          | with_reducible apply finish_calm
          | with_reducible apply freshWindows_calm
          | with_reducible apply modComm_calm
          | with_reducible apply modEng_calm
          | with_reducible apply modGen_calm
          | with_reducible apply modGlance_calm
          | with_reducible apply modMain_calm
          | with_reducible apply setNoun_calm
          | with_reducible apply ite_calm
          | split
          | (extract_lets +onlyGivenNames y; clear_value y)
                | (extract_lets +onlyGivenNames y; subst y)
       clear_value x)
    | (extract_lets +onlyGivenNames x; clear_value x)
    | (extract_lets +onlyGivenNames x; subst x)
    | with_reducible apply enterGated_calm
    | with_reducible apply finish_calm
    | with_reducible apply freshWindows_calm
    | with_reducible apply modComm_calm
    | with_reducible apply modEng_calm
    | with_reducible apply modGen_calm
    | with_reducible apply modGlance_calm
    | with_reducible apply modMain_calm
    | with_reducible apply setNoun_calm
    | with_reducible apply ite_calm
    | split

theorem enterCoast_calm {k0 : Still} {s : State} (h : s.Calm k0) (g : Grp) (run : AxisRun) (θ : Int) (ω : Int) (sensor : Bool) : (State.enterCoast s g run θ ω sensor).Calm k0 := by
  unfold State.enterCoast
  repeat' first
    | with_reducible assumption
    | (extract_lets +onlyGivenNames x
       have hx : State.Calm k0 x := by
        unfold x
        repeat' first
          | with_reducible assumption
          | with_reducible apply enterGated_calm
          | with_reducible apply freshWindows_calm
          | with_reducible apply logEvent_calm
          | with_reducible apply modComm_calm
          | (extract_lets +onlyGivenNames y; clear_value y)
                | (extract_lets +onlyGivenNames y; subst y)
       clear_value x)
    | (extract_lets +onlyGivenNames x; clear_value x)
    | (extract_lets +onlyGivenNames x; subst x)
    | with_reducible apply enterGated_calm
    | with_reducible apply freshWindows_calm
    | with_reducible apply logEvent_calm
    | with_reducible apply modComm_calm

theorem keepMeasured_calm {k0 : Still} {s : State} (h : s.Calm k0) (m : Main) (ω : Int) (l : List Crossing) : (State.keepMeasured s m ω l).Calm k0 := by
  unfold State.keepMeasured
  repeat' first
    | with_reducible assumption
    | with_reducible apply modComm_calm
    | split

theorem retryOr_calm {k0 : Still} {s : State} (h : s.Calm k0) (g : Grp) (run : AxisRun) (why : StopReason) : (State.retryOr s g run why).Calm k0 := by
  unfold State.retryOr
  repeat' first
    | with_reducible assumption
    | (extract_lets +onlyGivenNames x
       have hx : State.Calm k0 x := by
        unfold x
        repeat' first
          | with_reducible assumption
          | with_reducible apply enterCheck_calm
          | with_reducible apply leaveTorque_calm
          | with_reducible apply modComm_calm
          | with_reducible apply ite_calm
          | (extract_lets +onlyGivenNames y; clear_value y)
                | (extract_lets +onlyGivenNames y; subst y)
       clear_value x)
    | (extract_lets +onlyGivenNames x; clear_value x)
    | (extract_lets +onlyGivenNames x; subst x)
    | with_reducible apply enterCheck_calm
    | with_reducible apply leaveTorque_calm
    | with_reducible apply modComm_calm
    | with_reducible apply ite_calm

theorem enterHandover_calm {k0 : Still} {s : State} (h : s.Calm k0) (m : Main) (target : Source) (fromParison : Bool) : (State.enterHandover s m target fromParison).Calm k0 := by
  unfold State.enterHandover
  repeat' first
    | with_reducible assumption
    | with_reducible apply modComm_calm

theorem enterParison_calm {k0 : Still} {s : State} (h : s.Calm k0) (m : Main) (θ : Int) (ω : Int) (preload : Int) : (State.enterParison s m θ ω preload).Calm k0 := by
  unfold State.enterParison
  repeat' first
    | with_reducible assumption
    | with_reducible apply gatesOn_calm
    | with_reducible apply modComm_calm
    | with_reducible apply setRelease_calm

theorem rowCheck_calm {k0 : Still} {s : State} (h : s.Calm k0) (g : Grp) (run : AxisRun) (d : Int) : (State.rowCheck s g run d).Calm k0 := by
  unfold State.rowCheck
  repeat' first
    | with_reducible assumption
    | (extract_lets +onlyGivenNames x
       have hx : State.Calm k0 x := by
        unfold x
        repeat' first
          | with_reducible assumption
          | with_reducible apply endOffsets_calm
          | with_reducible apply enterCheck_calm
          | with_reducible apply enterGated_calm
          | with_reducible apply enterRest_calm
          | with_reducible apply enterRun_calm
          | with_reducible apply freshWindows_calm
          | with_reducible apply keepMeasured_calm
          | with_reducible apply modComm_calm
          | with_reducible apply setRelease_calm
          | with_reducible apply ite_calm
          | split
          | (extract_lets +onlyGivenNames y; clear_value y)
                | (extract_lets +onlyGivenNames y; subst y)
       clear_value x)
    | (extract_lets +onlyGivenNames x; clear_value x)
    | (extract_lets +onlyGivenNames x; subst x)
    | with_reducible apply endOffsets_calm
    | with_reducible apply enterCheck_calm
    | with_reducible apply enterGated_calm
    | with_reducible apply enterRest_calm
    | with_reducible apply enterRun_calm
    | with_reducible apply freshWindows_calm
    | with_reducible apply keepMeasured_calm
    | with_reducible apply modComm_calm
    | with_reducible apply setRelease_calm
    | with_reducible apply ite_calm
    | split

theorem rowCatch_calm {k0 : Still} {s : State} (h : s.Calm k0) (g : Grp) (run : AxisRun) : (State.rowCatch s g run).Calm k0 := by
  unfold State.rowCatch
  repeat' first
    | with_reducible assumption
    | (extract_lets +onlyGivenNames x
       have hx : State.Calm k0 x := by
        unfold x
        repeat' first
          | with_reducible assumption
          | with_reducible apply enterRun_calm
          | with_reducible apply retryOr_calm
          | with_reducible apply ite_calm
          | (extract_lets +onlyGivenNames y; clear_value y)
                | (extract_lets +onlyGivenNames y; subst y)
       clear_value x)
    | (extract_lets +onlyGivenNames x; clear_value x)
    | (extract_lets +onlyGivenNames x; subst x)
    | with_reducible apply enterRun_calm
    | with_reducible apply retryOr_calm
    | with_reducible apply ite_calm

theorem rowPreload_calm {k0 : Still} {s : State} (h : s.Calm k0) (m : Main) : (State.rowPreload s m).Calm k0 := by
  unfold State.rowPreload
  repeat' first
    | with_reducible assumption
    | (extract_lets +onlyGivenNames x
       have hx : State.Calm k0 x := by
        unfold x
        repeat' first
          | with_reducible assumption
          | with_reducible apply enterParison_calm
          | with_reducible apply ite_calm
          | split
          | (extract_lets +onlyGivenNames y; clear_value y)
                | (extract_lets +onlyGivenNames y; subst y)
       clear_value x)
    | (extract_lets +onlyGivenNames x; clear_value x)
    | (extract_lets +onlyGivenNames x; subst x)
    | with_reducible apply enterParison_calm
    | with_reducible apply ite_calm
    | split

theorem rowParison_calm {k0 : Still} {s : State} (h : s.Calm k0) (g : Grp) (run : AxisRun) (d : Int) : (State.rowParison s g run d).Calm k0 := by
  unfold State.rowParison
  repeat' first
    | with_reducible assumption
    | (extract_lets +onlyGivenNames x
       have hx : State.Calm k0 x := by
        unfold x
        repeat' first
          | with_reducible assumption
          | with_reducible apply enterHandover_calm
          | with_reducible apply leaveTorque_calm
          | with_reducible apply retryOr_calm
          | with_reducible apply ite_calm
          | (extract_lets +onlyGivenNames y; clear_value y)
                | (extract_lets +onlyGivenNames y; subst y)
       clear_value x)
    | (extract_lets +onlyGivenNames x; clear_value x)
    | (extract_lets +onlyGivenNames x; subst x)
    | with_reducible apply enterHandover_calm
    | with_reducible apply leaveTorque_calm
    | with_reducible apply retryOr_calm
    | with_reducible apply ite_calm

theorem endHandover_calm {k0 : Still} {s : State} (h : s.Calm k0) (run : AxisRun) (holdoff : Nat) : (State.endHandover s run holdoff).Calm k0 := by
  unfold State.endHandover
  repeat' first
    | with_reducible assumption
    | (extract_lets +onlyGivenNames x
       have hx : State.Calm k0 x := by
        unfold x
        repeat' first
          | with_reducible assumption
          | with_reducible apply modComm_calm
          | with_reducible apply ite_calm
          | (extract_lets +onlyGivenNames y; clear_value y)
                | (extract_lets +onlyGivenNames y; subst y)
       clear_value x)
    | (extract_lets +onlyGivenNames x; clear_value x)
    | (extract_lets +onlyGivenNames x; subst x)
    | with_reducible apply modComm_calm
    | with_reducible apply ite_calm

theorem rowHandover_calm {k0 : Still} {s : State} (h : s.Calm k0) (g : Grp) (run : AxisRun) : (State.rowHandover s g run).Calm k0 := by
  unfold State.rowHandover
  repeat' first
    | with_reducible assumption
    | (extract_lets +onlyGivenNames x
       have hx : State.Calm k0 x := by
        unfold x
        repeat' first
          | with_reducible assumption
          | with_reducible apply endHandover_calm
          | with_reducible apply enterCoast_calm
          | with_reducible apply enterRun_calm
          | with_reducible apply modComm_calm
          | with_reducible apply ite_calm
          | split
          | (extract_lets +onlyGivenNames y; have : ∀ z : State, State.Calm k0 (y z) ∨ True := (fun _ => .inr trivial); clear this; subst y)
                | (extract_lets +onlyGivenNames y; have : ∀ (z : State) b, State.Calm k0 (y z b) ∨ True := (fun _ _ => .inr trivial); clear this; subst y)
                | (extract_lets +onlyGivenNames y; clear_value y)
                | (extract_lets +onlyGivenNames y; subst y)
       clear_value x)
    | (extract_lets +onlyGivenNames x; have : ∀ z : State, State.Calm k0 (x z) ∨ True := (fun _ => .inr trivial); clear this; subst x)
    | (extract_lets +onlyGivenNames x; have : ∀ (z : State) b, State.Calm k0 (x z b) ∨ True := (fun _ _ => .inr trivial); clear this; subst x)
    | (extract_lets +onlyGivenNames x; clear_value x)
    | (extract_lets +onlyGivenNames x; subst x)
    | with_reducible apply endHandover_calm
    | with_reducible apply enterCoast_calm
    | with_reducible apply enterRun_calm
    | with_reducible apply modComm_calm
    | with_reducible apply ite_calm
    | split

theorem rowRun_calm {k0 : Still} {s : State} (h : s.Calm k0) (g : Grp) (run : AxisRun) (d : Int) : (State.rowRun s g run d).Calm k0 := by
  unfold State.rowRun
  repeat' first
    | with_reducible assumption
    | (extract_lets +onlyGivenNames x
       have hx : State.Calm k0 x := by
        unfold x
        repeat' first
          | with_reducible assumption
          | with_reducible apply enterCoast_calm
          | with_reducible apply enterHandover_calm
          | with_reducible apply enterParison_calm
          | with_reducible apply leaveTorque_calm
          | with_reducible apply ite_calm
          | (extract_lets +onlyGivenNames y; clear_value y)
                | (extract_lets +onlyGivenNames y; subst y)
       clear_value x)
    | (extract_lets +onlyGivenNames x; clear_value x)
    | (extract_lets +onlyGivenNames x; subst x)
    | with_reducible apply enterCoast_calm
    | with_reducible apply enterHandover_calm
    | with_reducible apply enterParison_calm
    | with_reducible apply leaveTorque_calm
    | with_reducible apply ite_calm

theorem rowCoast_calm {k0 : Still} {s : State} (h : s.Calm k0) (g : Grp) (run : AxisRun) : (State.rowCoast s g run).Calm k0 := by
  unfold State.rowCoast
  repeat' first
    | with_reducible assumption
    | (extract_lets +onlyGivenNames x
       have hx : State.Calm k0 x := by
        unfold x
        repeat' first
          | with_reducible assumption
          | with_reducible apply enterRun_calm
          | with_reducible apply gatesOff_calm
          | with_reducible apply leaveTorque_calm
          | with_reducible apply modComm_calm
          | with_reducible apply modGlance_calm
          | with_reducible apply ite_calm
          | split
          | (extract_lets +onlyGivenNames y; have : ∀ z : State, State.Calm k0 (y z) ∨ True := (fun _ => .inr trivial); clear this; subst y)
                | (extract_lets +onlyGivenNames y; have : ∀ (z : State) b, State.Calm k0 (y z b) ∨ True := (fun _ _ => .inr trivial); clear this; subst y)
                | (extract_lets +onlyGivenNames y; clear_value y)
                | (extract_lets +onlyGivenNames y; subst y)
       clear_value x)
    | (extract_lets +onlyGivenNames x; have : ∀ z : State, State.Calm k0 (x z) ∨ True := (fun _ => .inr trivial); clear this; subst x)
    | (extract_lets +onlyGivenNames x; have : ∀ (z : State) b, State.Calm k0 (x z b) ∨ True := (fun _ _ => .inr trivial); clear this; subst x)
    | (extract_lets +onlyGivenNames x; clear_value x)
    | (extract_lets +onlyGivenNames x; subst x)
    | with_reducible apply enterRun_calm
    | with_reducible apply gatesOff_calm
    | with_reducible apply leaveTorque_calm
    | with_reducible apply modComm_calm
    | with_reducible apply modGlance_calm
    | with_reducible apply ite_calm
    | split

theorem rowResync_calm {k0 : Still} {s : State} (h : s.Calm k0) (g : Grp) (run : AxisRun) : (State.rowResync s g run).Calm k0 := by
  unfold State.rowResync
  repeat' first
    | with_reducible assumption
    | (extract_lets +onlyGivenNames x
       have hx : State.Calm k0 x := by
        unfold x
        repeat' first
          | with_reducible assumption
          | with_reducible apply enterRest_calm
          | with_reducible apply enterRun_calm
          | with_reducible apply gatesOff_calm
          | with_reducible apply keepMeasured_calm
          | with_reducible apply ite_calm
          | split
          | (extract_lets +onlyGivenNames y; clear_value y)
                | (extract_lets +onlyGivenNames y; subst y)
       clear_value x)
    | (extract_lets +onlyGivenNames x; clear_value x)
    | (extract_lets +onlyGivenNames x; subst x)
    | with_reducible apply enterRest_calm
    | with_reducible apply enterRun_calm
    | with_reducible apply gatesOff_calm
    | with_reducible apply keepMeasured_calm
    | with_reducible apply ite_calm
    | split

theorem rowHold_calm {k0 : Still} {s : State} (h : s.Calm k0) (run : AxisRun) (d : Int) : (State.rowHold s run d).Calm k0 := by
  unfold State.rowHold
  repeat' first
    | with_reducible assumption
    | (extract_lets +onlyGivenNames x
       have hx : State.Calm k0 x := by
        unfold x
        repeat' first
          | with_reducible assumption
          | with_reducible apply enterGated_calm
          | with_reducible apply enterRest_calm
          | with_reducible apply enterRun_calm
          | with_reducible apply modComm_calm
          | with_reducible apply ite_calm
          | (extract_lets +onlyGivenNames y; clear_value y)
                | (extract_lets +onlyGivenNames y; subst y)
       clear_value x)
    | (extract_lets +onlyGivenNames x; clear_value x)
    | (extract_lets +onlyGivenNames x; subst x)
    | with_reducible apply enterGated_calm
    | with_reducible apply enterRest_calm
    | with_reducible apply enterRun_calm
    | with_reducible apply modComm_calm
    | with_reducible apply ite_calm

theorem brakeDone_calm {k0 : Still} {s : State} (h : s.Calm k0) (run : AxisRun) (st : CState) (why : StopReason) : (State.brakeDone s run st why).Calm k0 := by
  unfold State.brakeDone
  repeat' first
    | with_reducible assumption
    | (extract_lets +onlyGivenNames x
       have hx : State.Calm k0 x := by
        unfold x
        repeat' first
          | with_reducible assumption
          | with_reducible apply enterRest_calm
          | with_reducible apply gatesOff_calm
          | with_reducible apply modComm_calm
          | with_reducible apply ite_calm
          | split
          | (extract_lets +onlyGivenNames y; clear_value y)
                | (extract_lets +onlyGivenNames y; subst y)
       clear_value x)
    | (extract_lets +onlyGivenNames x; clear_value x)
    | (extract_lets +onlyGivenNames x; subst x)
    | with_reducible apply enterRest_calm
    | with_reducible apply gatesOff_calm
    | with_reducible apply modComm_calm
    | with_reducible apply ite_calm
    | split

theorem transition_calm {k0 : Still} {s : State} (h : s.Calm k0) (g : Grp) (run : AxisRun) : (State.transition s g run).Calm k0 := by
  unfold State.transition
  repeat' first
    | with_reducible assumption
    | (extract_lets +onlyGivenNames x
       have hx : State.Calm k0 x := by
        unfold x
        repeat' first
          | with_reducible assumption
          | with_reducible apply brakeDone_calm
          | with_reducible apply enterCheck_calm
          | with_reducible apply enterParison_calm
          | with_reducible apply enterRest_calm
          | with_reducible apply leaveTorque_calm
          | with_reducible apply rowCatch_calm
          | with_reducible apply rowCheck_calm
          | with_reducible apply rowCoast_calm
          | with_reducible apply rowHandover_calm
          | with_reducible apply rowHold_calm
          | with_reducible apply rowParison_calm
          | with_reducible apply rowPreload_calm
          | with_reducible apply rowResync_calm
          | with_reducible apply rowRun_calm
          | with_reducible apply ite_calm
          | split
          | (extract_lets +onlyGivenNames y; clear_value y)
                | (extract_lets +onlyGivenNames y; subst y)
       clear_value x)
    | (extract_lets +onlyGivenNames x; clear_value x)
    | (extract_lets +onlyGivenNames x; subst x)
    | with_reducible apply brakeDone_calm
    | with_reducible apply enterCheck_calm
    | with_reducible apply enterParison_calm
    | with_reducible apply enterRest_calm
    | with_reducible apply leaveTorque_calm
    | with_reducible apply rowCatch_calm
    | with_reducible apply rowCheck_calm
    | with_reducible apply rowCoast_calm
    | with_reducible apply rowHandover_calm
    | with_reducible apply rowHold_calm
    | with_reducible apply rowParison_calm
    | with_reducible apply rowPreload_calm
    | with_reducible apply rowResync_calm
    | with_reducible apply rowRun_calm
    | with_reducible apply ite_calm
    | split

theorem commitEnable_calm {k0 : Still} {s : State} (h : s.Calm k0) (g : Grp) (m : Main) : (State.commitEnable s g m).Calm k0 := by
  unfold State.commitEnable
  repeat' first
    | with_reducible assumption
    | (extract_lets +onlyGivenNames x
       have hx : State.Calm k0 x := by
        unfold x
        repeat' first
          | with_reducible assumption
          | with_reducible apply finish_calm
          | with_reducible apply modMain_calm
          | with_reducible apply ite_calm
          | split
          | (extract_lets +onlyGivenNames y; clear_value y)
                | (extract_lets +onlyGivenNames y; subst y)
       clear_value x)
    | (extract_lets +onlyGivenNames x; clear_value x)
    | (extract_lets +onlyGivenNames x; subst x)
    | with_reducible apply finish_calm
    | with_reducible apply modMain_calm
    | with_reducible apply ite_calm
    | split

theorem advanceRamp_calm {k0 : Still} {s : State} (h : s.Calm k0) (g : Grp) (m : Main) : (State.advanceRamp s g m).Calm k0 := by
  unfold State.advanceRamp
  repeat' first
    | with_reducible assumption
    | (extract_lets +onlyGivenNames x
       have hx : State.Calm k0 x := by
        unfold x
        repeat' first
          | with_reducible assumption
          | with_reducible apply modComm_calm
          | with_reducible apply step_calm
          | with_reducible apply ite_calm
          | (extract_lets +onlyGivenNames y; clear_value y)
                | (extract_lets +onlyGivenNames y; subst y)
       clear_value x)
    | (extract_lets +onlyGivenNames x; clear_value x)
    | (extract_lets +onlyGivenNames x; subst x)
    | with_reducible apply modComm_calm
    | with_reducible apply step_calm
    | with_reducible apply ite_calm

theorem advanceCoast_calm {k0 : Still} {s : State} (h : s.Calm k0) (g : Grp) (m : Main) : (State.advanceCoast s g m).Calm k0 := by
  unfold State.advanceCoast
  repeat' first
    | with_reducible assumption
    | with_reducible apply modComm_calm
    | with_reducible apply ite_calm

theorem advancePreload_calm {k0 : Still} {s : State} (h : s.Calm k0) (g : Grp) (m : Main) : (State.advancePreload s g m).Calm k0 := by
  unfold State.advancePreload
  repeat' first
    | with_reducible assumption
    | (extract_lets +onlyGivenNames x
       have hx : State.Calm k0 x := by
        unfold x
        repeat' first
          | with_reducible assumption
          | with_reducible apply modComm_calm
          | with_reducible apply ite_calm
          | (extract_lets +onlyGivenNames y; clear_value y)
                | (extract_lets +onlyGivenNames y; subst y)
       clear_value x)
    | (extract_lets +onlyGivenNames x; clear_value x)
    | (extract_lets +onlyGivenNames x; subst x)
    | with_reducible apply modComm_calm
    | with_reducible apply ite_calm

theorem advanceComm_calm {k0 : Still} {s : State} (h : s.Calm k0) (g : Grp) (m : Main) : (State.advanceComm s g m).Calm k0 := by
  unfold State.advanceComm
  repeat' first
    | with_reducible assumption
    | (extract_lets +onlyGivenNames x
       have hx : State.Calm k0 x := by
        unfold x
        repeat' first
          | with_reducible assumption
          | with_reducible apply advancePreload_calm
          | with_reducible apply advanceRamp_calm
          | with_reducible apply modComm_calm
          | (extract_lets +onlyGivenNames y; clear_value y)
                | (extract_lets +onlyGivenNames y; subst y)
       clear_value x)
    | (extract_lets +onlyGivenNames x; clear_value x)
    | (extract_lets +onlyGivenNames x; subst x)
    | with_reducible apply advancePreload_calm
    | with_reducible apply advanceRamp_calm
    | with_reducible apply modComm_calm

theorem countOverspeed_calm {k0 : Still} {s : State} (h : s.Calm k0) (m : Main) : (State.countOverspeed s m).Calm k0 := by
  unfold State.countOverspeed
  repeat' first
    | with_reducible assumption
    | (extract_lets +onlyGivenNames x
       have hx : State.Calm k0 x := by
        unfold x
        repeat' first
          | with_reducible assumption
          | with_reducible apply CState.gated_calm
          | with_reducible apply modComm_calm
          | with_reducible apply ite_calm
          | (extract_lets +onlyGivenNames y; clear_value y)
                | (extract_lets +onlyGivenNames y; subst y)
       clear_value x)
    | (extract_lets +onlyGivenNames x; clear_value x)
    | (extract_lets +onlyGivenNames x; subst x)
    | with_reducible apply CState.gated_calm
    | with_reducible apply modComm_calm
    | with_reducible apply ite_calm

theorem raise_calm {k0 : Still} {s : State} (h : s.Calm k0) (m : Main) (ok : CommSt → Bool) (f : CommSt → CommSt) : (State.raise s m ok f).Calm k0 := by
  unfold State.raise
  repeat' first
    | with_reducible assumption
    | with_reducible apply modComm_calm
    | with_reducible apply ite_calm

theorem execCheckTimeExpiry_calm {k0 : Still} {s : State} (h : s.Calm k0) (m : Main) :
    OutCalm k0 (State.execCheckTimeExpiry m s) := by
  unfold State.execCheckTimeExpiry
  show State.Calm k0 _
  repeat' first
    | with_reducible assumption
    | with_reducible apply raise_calm

theorem execAlignmentTimeExpiry_calm {k0 : Still} {s : State} (h : s.Calm k0) (m : Main) :
    OutCalm k0 (State.execAlignmentTimeExpiry m s) := by
  unfold State.execAlignmentTimeExpiry
  show State.Calm k0 _
  repeat' first
    | with_reducible assumption
    | with_reducible apply raise_calm

theorem execParisonTimeout_calm {k0 : Still} {s : State} (h : s.Calm k0) (m : Main) :
    OutCalm k0 (State.execParisonTimeout m s) := by
  unfold State.execParisonTimeout
  show State.Calm k0 _
  repeat' first
    | with_reducible assumption
    | with_reducible apply raise_calm
    | split

theorem execCatchTimeout_calm {k0 : Still} {s : State} (h : s.Calm k0) (m : Main) :
    OutCalm k0 (State.execCatchTimeout m s) := by
  unfold State.execCatchTimeout
  show State.Calm k0 _
  repeat' first
    | with_reducible assumption
    | with_reducible apply raise_calm

theorem execCoastTimeout_calm {k0 : Still} {s : State} (h : s.Calm k0) (m : Main) :
    OutCalm k0 (State.execCoastTimeout m s) := by
  unfold State.execCoastTimeout
  show State.Calm k0 _
  repeat' first
    | with_reducible assumption
    | with_reducible apply raise_calm

theorem execResyncTimeout_calm {k0 : Still} {s : State} (h : s.Calm k0) (m : Main) :
    OutCalm k0 (State.execResyncTimeout m s) := by
  unfold State.execResyncTimeout
  show State.Calm k0 _
  repeat' first
    | with_reducible assumption
    | with_reducible apply raise_calm

theorem execLossBrakeTimeout_calm {k0 : Still} {s : State} (h : s.Calm k0) (m : Main) :
    OutCalm k0 (State.execLossBrakeTimeout m s) := by
  unfold State.execLossBrakeTimeout
  show State.Calm k0 _
  repeat' first
    | with_reducible assumption
    | with_reducible apply raise_calm
    | split

theorem execSensorHealthyHold_calm {k0 : Still} {s : State} (h : s.Calm k0) (m : Main) :
    OutCalm k0 (State.execSensorHealthyHold m s) := by
  unfold State.execSensorHealthyHold
  show State.Calm k0 _
  repeat' first
    | with_reducible assumption
    | with_reducible apply raise_calm
    | with_reducible apply ite_calm

theorem execPreloadRampEnd_calm {k0 : Still} {s : State} (h : s.Calm k0) (m : Main) :
    OutCalm k0 (State.execPreloadRampEnd m s) := by
  unfold State.execPreloadRampEnd
  show State.Calm k0 _
  repeat' first
    | with_reducible assumption
    | with_reducible apply raise_calm

theorem execHandoverDeferralExpiry_calm {k0 : Still} {s : State} (h : s.Calm k0) (m : Main) :
    OutCalm k0 (State.execHandoverDeferralExpiry m s) := by
  unfold State.execHandoverDeferralExpiry
  show State.Calm k0 _
  repeat' first
    | with_reducible assumption
    | (extract_lets +onlyGivenNames x
       have hx : State.Calm k0 x := by
        unfold x
        repeat' first
          | with_reducible assumption
          | with_reducible apply enterRest_calm
          | with_reducible apply leaveTorque_calm
          | with_reducible apply modComm_calm
          | with_reducible apply ite_calm
          | split
          | (extract_lets +onlyGivenNames y; clear_value y)
                | (extract_lets +onlyGivenNames y; subst y)
       clear_value x)
    | (extract_lets +onlyGivenNames x; clear_value x)
    | (extract_lets +onlyGivenNames x; subst x)
    | with_reducible apply enterRest_calm
    | with_reducible apply leaveTorque_calm
    | with_reducible apply modComm_calm
    | with_reducible apply ite_calm
    | split

end Sys2Proof.Machine.State
end

