-- ==== Sys2Proof/Laws/CalmCommit.lean ====
section
/-! SUPPORT. The operations and commands of Machine/Commit.lean that leave alone what Laws/Calm.lean names. -/

set_option Elab.async false

set_option linter.unusedTactic false
set_option linter.unreachableTactic false

namespace Sys2Proof.Machine.State

theorem commitLedger_calm {k0 : Still} {s : State} (h : s.Calm k0) (g : Grp) (run : AxisRun) : (State.commitLedger s g run).Calm k0 := by
  unfold State.commitLedger
  repeat' first
    | with_reducible assumption
    | (extract_lets +onlyGivenNames x
       have hx : State.Calm k0 x := by
        unfold x
        repeat' first
          | with_reducible assumption
          | with_reducible apply modMain_calm
          | (extract_lets +onlyGivenNames y; clear_value y)
                | (extract_lets +onlyGivenNames y; subst y)
       clear_value x)
    | (extract_lets +onlyGivenNames x; clear_value x)
    | (extract_lets +onlyGivenNames x; subst x)
    | with_reducible apply modMain_calm

theorem commitData_calm {k0 : Still} {s : State} (h : s.Calm k0) (run : AxisRun) : (State.commitData s run).Calm k0 := by
  unfold State.commitData
  repeat' first
    | with_reducible assumption
    | (extract_lets +onlyGivenNames x
       have hx : State.Calm k0 x := by
        unfold x
        repeat' first
          | with_reducible assumption
          | with_reducible apply modEng_calm
          | with_reducible apply ite_calm
          | split
          | (extract_lets +onlyGivenNames y; clear_value y)
                | (extract_lets +onlyGivenNames y; subst y)
       clear_value x)
    | (extract_lets +onlyGivenNames x; clear_value x)
    | (extract_lets +onlyGivenNames x; subst x)
    | with_reducible apply modEng_calm
    | with_reducible apply ite_calm
    | split

theorem commitGlance_calm {k0 : Still} {s : State} (h : s.Calm k0) (g : Grp) (run : AxisRun) : (State.commitGlance s g run).Calm k0 := by
  unfold State.commitGlance
  repeat' first
    | with_reducible assumption
    | (extract_lets +onlyGivenNames x
       have hx : State.Calm k0 x := by
        unfold x
        repeat' first
          | with_reducible assumption
          | with_reducible apply modGlance_calm
          | with_reducible apply foldl_calm
          | (intro z b hz; beta_reduce)
          | with_reducible apply ite_calm
          | (extract_lets +onlyGivenNames y; have : ∀ z : State, State.Calm k0 (y z) ∨ True := (fun _ => .inr trivial); clear this; subst y)
                | (extract_lets +onlyGivenNames y; have : ∀ (z : State) b, State.Calm k0 (y z b) ∨ True := (fun _ _ => .inr trivial); clear this; subst y)
                | (extract_lets +onlyGivenNames y; clear_value y)
                | (extract_lets +onlyGivenNames y; subst y)
       clear_value x)
    | (extract_lets +onlyGivenNames x; have : ∀ z : State, State.Calm k0 (x z) ∨ True := (fun _ => .inr trivial); clear this; subst x)
    | (extract_lets +onlyGivenNames x; have : ∀ (z : State) b, State.Calm k0 (x z b) ∨ True := (fun _ _ => .inr trivial); clear this; subst x)
    | (extract_lets +onlyGivenNames x; clear_value x)
    | (extract_lets +onlyGivenNames x; subst x)
    | with_reducible apply modGlance_calm
    | with_reducible apply foldl_calm
    | (intro z b hz; beta_reduce)
    | with_reducible apply ite_calm

theorem commitMode_calm {k0 : Still} {s : State} (h : s.Calm k0) (run : AxisRun) : (State.commitMode s run).Calm k0 := by
  unfold State.commitMode
  repeat' first
    | with_reducible assumption
    | (extract_lets +onlyGivenNames x
       have hx : State.Calm k0 x := by
        unfold x
        repeat' first
          | with_reducible assumption
          | with_reducible apply finish_calm
          | with_reducible apply modEng_calm
          | with_reducible apply modGen_calm
          | with_reducible apply setNoun_calm
          | with_reducible apply step_calm
          | with_reducible apply ite_calm
          | split
          | (extract_lets +onlyGivenNames y; clear_value y)
                | (extract_lets +onlyGivenNames y; subst y)
       clear_value x)
    | (extract_lets +onlyGivenNames x; clear_value x)
    | (extract_lets +onlyGivenNames x; subst x)
    | with_reducible apply finish_calm
    | with_reducible apply modEng_calm
    | with_reducible apply modGen_calm
    | with_reducible apply setNoun_calm
    | with_reducible apply step_calm
    | with_reducible apply ite_calm
    | split

theorem dropMode_calm {k0 : Still} {s : State} (h : s.Calm k0) (m : Main) : (State.dropMode s m).Calm k0 := by
  unfold State.dropMode
  repeat' first
    | with_reducible assumption
    | (extract_lets +onlyGivenNames x
       have hx : State.Calm k0 x := by
        unfold x
        repeat' first
          | with_reducible assumption
          | with_reducible apply finish_calm
          | with_reducible apply modEng_calm
          | with_reducible apply ite_calm
          | split
          | (extract_lets +onlyGivenNames y; clear_value y)
                | (extract_lets +onlyGivenNames y; subst y)
       clear_value x)
    | (extract_lets +onlyGivenNames x; clear_value x)
    | (extract_lets +onlyGivenNames x; subst x)
    | with_reducible apply finish_calm
    | with_reducible apply modEng_calm
    | with_reducible apply ite_calm
    | split

theorem commitPrior_calm {k0 : Still} {s : State} (h : s.Calm k0) (g : Grp) (run : AxisRun) (x : List Int) (preset : Option (Int × Int)) : (State.commitPrior s g run x preset).Calm k0 := by
  unfold State.commitPrior
  repeat' first
    | with_reducible assumption
    | (extract_lets +onlyGivenNames x
       have hx : State.Calm k0 x := by
        unfold x
        repeat' first
          | with_reducible assumption
          | with_reducible apply modEng_calm
          | split
          | (extract_lets +onlyGivenNames y; clear_value y)
                | (extract_lets +onlyGivenNames y; subst y)
       clear_value x)
    | (extract_lets +onlyGivenNames x; clear_value x)
    | (extract_lets +onlyGivenNames x; subst x)
    | with_reducible apply modEng_calm
    | split

theorem startCaught_calm {k0 : Still} {s : State} (h : s.Calm k0) (m : Main) (was : Bool) : (State.startCaught s m was).Calm k0 := by
  unfold State.startCaught
  repeat' first
    | with_reducible assumption
    | with_reducible apply gatesOn_calm
    | with_reducible apply modComm_calm
    | with_reducible apply ite_calm

theorem commitDuties_calm {k0 : Still} {s : State} (h : s.Calm k0) (run : AxisRun) : (State.commitDuties s run).Calm k0 := by
  unfold State.commitDuties
  repeat' first
    | with_reducible assumption
    | with_reducible apply modDrive_calm

theorem placeWindow_calm {k0 : Still} {s : State} (h : s.Calm k0) (g : Grp) (run : AxisRun) : (State.placeWindow s g run).Calm k0 := by
  unfold State.placeWindow
  repeat' first
    | with_reducible assumption
    | (extract_lets +onlyGivenNames x
       have hx : State.Calm k0 x := by
        unfold x
        repeat' first
          | with_reducible assumption
          | with_reducible apply modGlance_calm
          | with_reducible apply step_calm
          | with_reducible apply ite_calm
          | split
          | (extract_lets +onlyGivenNames y; clear_value y)
                | (extract_lets +onlyGivenNames y; subst y)
       clear_value x)
    | (extract_lets +onlyGivenNames x; clear_value x)
    | (extract_lets +onlyGivenNames x; subst x)
    | with_reducible apply modGlance_calm
    | with_reducible apply step_calm
    | with_reducible apply ite_calm
    | split

theorem restThreshold_calm {k0 : Still} {s : State} (h : s.Calm k0) (g : Grp) (run : AxisRun) : (State.restThreshold s g run).Calm k0 := by
  unfold State.restThreshold
  repeat' first
    | with_reducible assumption
    | (extract_lets +onlyGivenNames x
       have hx : State.Calm k0 x := by
        unfold x
        repeat' first
          | with_reducible assumption
          | with_reducible apply modGlance_calm
          | with_reducible apply ite_calm
          | (extract_lets +onlyGivenNames y; clear_value y)
                | (extract_lets +onlyGivenNames y; subst y)
       clear_value x)
    | (extract_lets +onlyGivenNames x; clear_value x)
    | (extract_lets +onlyGivenNames x; subst x)
    | with_reducible apply modGlance_calm
    | with_reducible apply ite_calm

theorem commitShare_calm {k0 : Still} {s : State} (h : s.Calm k0) (g : Grp) (run : AxisRun) (member : Option Member0) : (State.commitShare s g run member).Calm k0 := by
  unfold State.commitShare
  repeat' first
    | with_reducible assumption
    | (extract_lets +onlyGivenNames x
       have hx : State.Calm k0 x := by
        unfold x
        repeat' first
          | with_reducible assumption
          | with_reducible apply modShare_calm
          | with_reducible apply reset_calm
          | with_reducible apply ite_calm
          | split
          | (extract_lets +onlyGivenNames y; clear_value y)
                | (extract_lets +onlyGivenNames y; subst y)
       clear_value x)
    | (extract_lets +onlyGivenNames x; clear_value x)
    | (extract_lets +onlyGivenNames x; subst x)
    | with_reducible apply modShare_calm
    | with_reducible apply reset_calm
    | with_reducible apply ite_calm
    | split

theorem commitFerr_calm {k0 : Still} {s : State} (h : s.Calm k0) (run : AxisRun) : (State.commitFerr s run).Calm k0 := by
  unfold State.commitFerr
  repeat' first
    | with_reducible assumption
    | (extract_lets +onlyGivenNames x
       have hx : State.Calm k0 x := by
        unfold x
        repeat' first
          | with_reducible assumption
          | with_reducible apply modEng_calm
          | with_reducible apply ite_calm
          | split
          | (extract_lets +onlyGivenNames y; clear_value y)
                | (extract_lets +onlyGivenNames y; subst y)
       clear_value x)
    | (extract_lets +onlyGivenNames x; clear_value x)
    | (extract_lets +onlyGivenNames x; subst x)
    | with_reducible apply modEng_calm
    | with_reducible apply ite_calm
    | split

theorem repeatFerr_calm {k0 : Still} {s : State} (h : s.Calm k0) (m : Main) : (State.repeatFerr s m).Calm k0 := by
  unfold State.repeatFerr
  repeat' first
    | with_reducible assumption
    | (extract_lets +onlyGivenNames x
       have hx : State.Calm k0 x := by
        unfold x
        repeat' first
          | with_reducible assumption
          | with_reducible apply modEng_calm
          | with_reducible apply ite_calm
          | (extract_lets +onlyGivenNames y; clear_value y)
                | (extract_lets +onlyGivenNames y; subst y)
       clear_value x)
    | (extract_lets +onlyGivenNames x; clear_value x)
    | (extract_lets +onlyGivenNames x; subst x)
    | with_reducible apply modEng_calm
    | with_reducible apply ite_calm

theorem slewManual_calm {k0 : Still} {s : State} (h : s.Calm k0) (g : Grp) (m : Main) : (State.slewManual s g m).Calm k0 := by
  unfold State.slewManual
  repeat' first
    | with_reducible assumption
    | (extract_lets +onlyGivenNames x
       have hx : State.Calm k0 x := by
        unfold x
        repeat' first
          | with_reducible assumption
          | with_reducible apply modEng_calm
          | with_reducible apply ite_calm
          | (extract_lets +onlyGivenNames y; clear_value y)
                | (extract_lets +onlyGivenNames y; subst y)
       clear_value x)
    | (extract_lets +onlyGivenNames x; clear_value x)
    | (extract_lets +onlyGivenNames x; subst x)
    | with_reducible apply modEng_calm
    | with_reducible apply ite_calm

theorem disableMain_calm {k0 : Still} {s : State} (h : s.Calm k0) (m : Main) (status : Nat) : (State.disableMain s m status).Calm k0 := by
  unfold State.disableMain
  repeat' first
    | with_reducible assumption
    | (extract_lets +onlyGivenNames x
       have hx : State.Calm k0 x := by
        unfold x
        repeat' first
          | with_reducible assumption
          | with_reducible apply failStart_calm
          | with_reducible apply modMain_calm
          | with_reducible apply ite_calm
          | (extract_lets +onlyGivenNames y; clear_value y)
                | (extract_lets +onlyGivenNames y; subst y)
       clear_value x)
    | (extract_lets +onlyGivenNames x; clear_value x)
    | (extract_lets +onlyGivenNames x; subst x)
    | with_reducible apply failStart_calm
    | with_reducible apply modMain_calm
    | with_reducible apply ite_calm

theorem disableAux_calm {k0 : Still} {s : State} (h : s.Calm k0) (a : AuxNo) (status : Nat) : (State.disableAux s a status).Calm k0 := by
  unfold State.disableAux
  repeat' first
    | with_reducible assumption
    | with_reducible apply finishOpt_calm
    | with_reducible apply modAux_calm
    | with_reducible apply ite_calm

theorem disableLatched_calm {k0 : Still} {s : State} (h : s.Calm k0) (m : Main) : (State.disableLatched s m).Calm k0 := by
  unfold State.disableLatched
  repeat' first
    | with_reducible assumption
    | with_reducible apply disableMain_calm
    | with_reducible apply gatesOff_calm
    | with_reducible apply modDrive_calm
    | with_reducible apply ite_calm

theorem commitAxis_calm {k0 : Still} {s : State} (h : s.Calm k0) (g : Grp) (rn : GroupRun) (run : AxisRun) : (State.commitAxis s g rn run).Calm k0 := by
  unfold State.commitAxis
  repeat' first
    | with_reducible assumption
    | (extract_lets +onlyGivenNames x
       have hx : State.Calm k0 x := by
        unfold x
        repeat' first
          | with_reducible assumption
          | with_reducible apply advanceCoast_calm
          | with_reducible apply advanceComm_calm
          | with_reducible apply commitData_calm
          | with_reducible apply commitDuties_calm
          | with_reducible apply commitEnable_calm
          | with_reducible apply commitFerr_calm
          | with_reducible apply commitGlance_calm
          | with_reducible apply commitLedger_calm
          | with_reducible apply commitMode_calm
          | with_reducible apply commitPrior_calm
          | with_reducible apply commitShare_calm
          | with_reducible apply countOverspeed_calm
          | with_reducible apply dropMode_calm
          | with_reducible apply placeWindow_calm
          | with_reducible apply restThreshold_calm
          | with_reducible apply slewManual_calm
          | with_reducible apply startCaught_calm
          | with_reducible apply transition_calm
          | split
          | (extract_lets +onlyGivenNames y; clear_value y)
                | (extract_lets +onlyGivenNames y; subst y)
       clear_value x)
    | (extract_lets +onlyGivenNames x; clear_value x)
    | (extract_lets +onlyGivenNames x; subst x)
    | with_reducible apply advanceCoast_calm
    | with_reducible apply advanceComm_calm
    | with_reducible apply commitData_calm
    | with_reducible apply commitDuties_calm
    | with_reducible apply commitEnable_calm
    | with_reducible apply commitFerr_calm
    | with_reducible apply commitGlance_calm
    | with_reducible apply commitLedger_calm
    | with_reducible apply commitMode_calm
    | with_reducible apply commitPrior_calm
    | with_reducible apply commitShare_calm
    | with_reducible apply countOverspeed_calm
    | with_reducible apply dropMode_calm
    | with_reducible apply placeWindow_calm
    | with_reducible apply restThreshold_calm
    | with_reducible apply slewManual_calm
    | with_reducible apply startCaught_calm
    | with_reducible apply transition_calm
    | split

theorem commitChoppers_calm {k0 : Still} {s : State} (h : s.Calm k0) (g : Grp) : (State.commitChoppers s g).Calm k0 := by
  unfold State.commitChoppers
  repeat' first
    | with_reducible assumption
    | with_reducible apply modLink_calm
    | with_reducible apply eachFin_calm
    | (intro z b hz; beta_reduce)
    | with_reducible apply ite_calm

theorem linkEnergy_calm {k0 : Still} {s : State} (h : s.Calm k0) (l : LinkNo) (ns : Nat) (k : Nat) (duty : Nat) : (State.linkEnergy s l ns k duty).Calm k0 := by
  unfold State.linkEnergy
  repeat' first
    | with_reducible assumption
    | (extract_lets +onlyGivenNames x
       have hx : State.Calm k0 x := by
        unfold x
        repeat' first
          | with_reducible assumption
          | with_reducible apply modLink_calm
          | with_reducible apply ite_calm
          | (extract_lets +onlyGivenNames y; clear_value y)
                | (extract_lets +onlyGivenNames y; subst y)
       clear_value x)
    | (extract_lets +onlyGivenNames x; clear_value x)
    | (extract_lets +onlyGivenNames x; subst x)
    | with_reducible apply modLink_calm
    | with_reducible apply ite_calm

theorem commitLinks_calm {k0 : Still} {s : State} (h : s.Calm k0) (g : Grp) : (State.commitLinks s g).Calm k0 := by
  unfold State.commitLinks
  repeat' first
    | with_reducible assumption
    | with_reducible apply linkEnergy_calm
    | with_reducible apply eachFin_calm
    | (intro z b hz; beta_reduce)
    | with_reducible apply ite_calm

theorem commitWork_calm {k0 : Still} {s : State} (h : s.Calm k0) (g : Grp) (rn : GroupRun) : (State.commitWork s g rn).Calm k0 := by
  unfold State.commitWork
  repeat' first
    | with_reducible assumption
    | (extract_lets +onlyGivenNames x
       have hx : State.Calm k0 x := by
        unfold x
        repeat' first
          | with_reducible assumption
          | exact fun hm => hm
          | exact fun _ hq => hq
          | with_reducible apply modGroup_calm
          | with_reducible apply ite_calm
          | split
          | (intro _ _; (try dsimp only); split)
          | (extract_lets +onlyGivenNames y; clear_value y)
                | (extract_lets +onlyGivenNames y; subst y)
       clear_value x)
    | (extract_lets +onlyGivenNames x; clear_value x)
    | (extract_lets +onlyGivenNames x; subst x)
    | exact fun hm => hm
    | exact fun _ hq => hq
    | with_reducible apply modGroup_calm
    | with_reducible apply ite_calm
    | split
    | (intro _ _; (try dsimp only); split)

theorem commitYield_calm {k0 : Still} {s : State} (h : s.Calm k0) (g : Grp) (rn : GroupRun) : (State.commitYield s g rn).Calm k0 := by
  unfold State.commitYield
  repeat' first
    | with_reducible assumption
    | (extract_lets +onlyGivenNames x
       have hx : State.Calm k0 x := by
        unfold x
        repeat' first
          | with_reducible assumption
          | exact fun hm => hm
          | exact fun _ hq => hq
          | with_reducible apply enterDrum_calm
          | with_reducible apply leaveDrum_calm
          | with_reducible apply logEvent_calm
          | with_reducible apply modGroup_calm
          | with_reducible apply foldl_calm
          | (intro z b hz; beta_reduce)
          | with_reducible apply ite_calm
          | split
          | (intro _ _; (try dsimp only); split)
          | (extract_lets +onlyGivenNames y; clear_value y)
                | (extract_lets +onlyGivenNames y; subst y)
       clear_value x)
    | (extract_lets +onlyGivenNames x; clear_value x)
    | (extract_lets +onlyGivenNames x; subst x)
    | exact fun hm => hm
    | exact fun _ hq => hq
    | with_reducible apply enterDrum_calm
    | with_reducible apply leaveDrum_calm
    | with_reducible apply logEvent_calm
    | with_reducible apply modGroup_calm
    | with_reducible apply foldl_calm
    | (intro z b hz; beta_reduce)
    | with_reducible apply ite_calm
    | split
    | (intro _ _; (try dsimp only); split)

theorem commitCoupled_calm {k0 : Still} {s : State} (h : s.Calm k0) (g : Grp) (rn : GroupRun) : (State.commitCoupled s g rn).Calm k0 := by
  unfold State.commitCoupled
  repeat' first
    | with_reducible assumption
    | exact fun hm => hm
    | exact fun _ hq => hq
    | with_reducible apply modGroup_calm
    | split

end Sys2Proof.Machine.State
end

