-- ==== Sys2Proof/Laws/CalmPwm.lean ====
section
/-! SUPPORT. The operations and commands of Machine/Pwm.lean that leave alone what Laws/Calm.lean names. -/

set_option Elab.async false

set_option linter.unusedTactic false
set_option linter.unreachableTactic false

namespace Sys2Proof.Machine.State

theorem updatePwm_calm {k0 : Still} {s : State} (h : s.Calm k0) (g : Grp) (m : Main) : (State.updatePwm s g m).Calm k0 := by
  unfold State.updatePwm
  repeat' first
    | with_reducible assumption
    | (extract_lets +onlyGivenNames x
       have hx : State.Calm k0 x := by
        unfold x
        repeat' first
          | with_reducible assumption
          | with_reducible apply modDrive_calm
          | with_reducible apply modGlance_calm
          | with_reducible apply foldl_calm
          | (intro z b hz; beta_reduce)
          | with_reducible apply ite_calm
          | split
          | (extract_lets +onlyGivenNames y; have : ∀ z : State, State.Calm k0 (y z) ∨ True := (fun _ => .inr trivial); clear this; subst y)
                | (extract_lets +onlyGivenNames y; have : ∀ (z : State) b, State.Calm k0 (y z b) ∨ True := (fun _ _ => .inr trivial); clear this; subst y)
                | (extract_lets +onlyGivenNames y; clear_value y)
                | (extract_lets +onlyGivenNames y; subst y)
       clear_value x)
    | (extract_lets +onlyGivenNames x; have : ∀ z : State, State.Calm k0 (x z) ∨ True := (fun _ => .inr trivial); clear this; subst x)
    | (extract_lets +onlyGivenNames x; have : ∀ (z : State) b, State.Calm k0 (x z b) ∨ True := (fun _ _ => .inr trivial); clear this; subst x)
    | (extract_lets +onlyGivenNames x; clear_value x)
    | (extract_lets +onlyGivenNames x; subst x)
    | with_reducible apply modDrive_calm
    | with_reducible apply modGlance_calm
    | with_reducible apply foldl_calm
    | (intro z b hz; beta_reduce)
    | with_reducible apply ite_calm
    | split

theorem setLatch_calm {k0 : Still} {s : State} (h : s.Calm k0) (m : Main) (cause : Fin 4) : (State.setLatch s m cause).Calm k0 := by
  unfold State.setLatch
  repeat' first
    | with_reducible assumption
    | with_reducible apply gatesOff_calm
    | with_reducible apply logEvent_calm
    | with_reducible apply modDrive_calm
    | with_reducible apply ite_calm

theorem startGates_calm {k0 : Still} {s : State} (h : s.Calm k0) (m : Main) : (State.startGates s m).Calm k0 := by
  unfold State.startGates
  repeat' first
    | with_reducible assumption
    | (extract_lets +onlyGivenNames x
       have hx : State.Calm k0 x := by
        unfold x
        repeat' first
          | with_reducible assumption
          | with_reducible apply modDrive_calm
          | with_reducible apply setLatch_calm
          | with_reducible apply ite_calm
          | (extract_lets +onlyGivenNames y; clear_value y)
                | (extract_lets +onlyGivenNames y; subst y)
       clear_value x)
    | (extract_lets +onlyGivenNames x; clear_value x)
    | (extract_lets +onlyGivenNames x; subst x)
    | with_reducible apply modDrive_calm
    | with_reducible apply setLatch_calm
    | with_reducible apply ite_calm

theorem clearLatch_calm {k0 : Still} {s : State} (h : s.Calm k0) (m : Main) : (State.clearLatch s m).Calm k0 := by
  unfold State.clearLatch
  repeat' first
    | with_reducible assumption
    | (extract_lets +onlyGivenNames x
       have hx : State.Calm k0 x := by
        unfold x
        repeat' first
          | with_reducible assumption
          | with_reducible apply modDrive_calm
          | with_reducible apply modEng_calm
          | with_reducible apply modShare_calm
          | with_reducible apply ite_calm
          | (extract_lets +onlyGivenNames y; clear_value y)
                | (extract_lets +onlyGivenNames y; subst y)
       clear_value x)
    | (extract_lets +onlyGivenNames x; clear_value x)
    | (extract_lets +onlyGivenNames x; subst x)
    | with_reducible apply modDrive_calm
    | with_reducible apply modEng_calm
    | with_reducible apply modShare_calm
    | with_reducible apply ite_calm

theorem execGateDriverFaultInput_calm {k0 : Still} {s : State} (h : s.Calm k0) (m : Main) (low : Bool) :
    OutCalm k0 (State.execGateDriverFaultInput m low s) := by
  unfold State.execGateDriverFaultInput
  show State.Calm k0 _
  repeat' first
    | with_reducible assumption
    | (extract_lets +onlyGivenNames x
       have hx : State.Calm k0 x := by
        unfold x
        repeat' first
          | with_reducible assumption
          | with_reducible apply modDrive_calm
          | with_reducible apply setLatch_calm
          | with_reducible apply ite_calm
          | (extract_lets +onlyGivenNames y; clear_value y)
                | (extract_lets +onlyGivenNames y; subst y)
       clear_value x)
    | (extract_lets +onlyGivenNames x; clear_value x)
    | (extract_lets +onlyGivenNames x; subst x)
    | with_reducible apply modDrive_calm
    | with_reducible apply setLatch_calm
    | with_reducible apply ite_calm

theorem execScFilterResult_calm {k0 : Still} {s : State} (h : s.Calm k0) (m : Main) (bitsA : List Bool) (bitsB : List Bool) :
    OutCalm k0 (State.execScFilterResult m bitsA bitsB s) := by
  unfold State.execScFilterResult
  show State.Calm k0 _
  repeat' first
    | with_reducible assumption
    | (extract_lets +onlyGivenNames x
       have hx : State.Calm k0 x := by
        unfold x
        repeat' first
          | with_reducible assumption
          | with_reducible apply modDrive_calm
          | with_reducible apply setLatch_calm
          | with_reducible apply ite_calm
          | (extract_lets +onlyGivenNames y; clear_value y)
                | (extract_lets +onlyGivenNames y; subst y)
       clear_value x)
    | (extract_lets +onlyGivenNames x; clear_value x)
    | (extract_lets +onlyGivenNames x; subst x)
    | with_reducible apply modDrive_calm
    | with_reducible apply setLatch_calm
    | with_reducible apply ite_calm

theorem setStuck_calm {k0 : Still} {s : State} (h : s.Calm k0) (ch : Fin 32) (b : Bool) : (State.setStuck s ch b).Calm k0 := by
  unfold State.setStuck
  repeat' first
    | with_reducible assumption
    | with_reducible apply ite_calm
    | with_reducible apply mk_calm

theorem execBitstreamStuck_calm {k0 : Still} {s : State} (h : s.Calm k0) (ch : Fin 32) :
    OutCalm k0 (State.execBitstreamStuck ch s) := by
  unfold State.execBitstreamStuck
  show State.Calm k0 _
  repeat' first
    | with_reducible assumption
    | (extract_lets +onlyGivenNames x
       have hx : State.Calm k0 x := by
        unfold x
        repeat' first
          | with_reducible assumption
          | with_reducible apply modDrive_calm
          | with_reducible apply modLink_calm
          | with_reducible apply setLatch_calm
          | with_reducible apply setStuck_calm
          | with_reducible apply ite_calm
          | split
          | (extract_lets +onlyGivenNames y; clear_value y)
                | (extract_lets +onlyGivenNames y; subst y)
       clear_value x)
    | (extract_lets +onlyGivenNames x; clear_value x)
    | (extract_lets +onlyGivenNames x; subst x)
    | with_reducible apply modDrive_calm
    | with_reducible apply modLink_calm
    | with_reducible apply setLatch_calm
    | with_reducible apply setStuck_calm
    | with_reducible apply ite_calm
    | split

theorem execBitstreamUnstuck_calm {k0 : Still} {s : State} (h : s.Calm k0) (ch : Fin 32) :
    OutCalm k0 (State.execBitstreamUnstuck ch s) := by
  unfold State.execBitstreamUnstuck
  show State.Calm k0 _
  repeat' first
    | with_reducible assumption
    | with_reducible apply setStuck_calm

theorem beginWindow_calm {k0 : Still} {s : State} (h : s.Calm k0) (ch : Nat) : (State.beginWindow s ch).Calm k0 := by
  unfold State.beginWindow
  repeat' first
    | with_reducible assumption
    | split
    | with_reducible apply mk_calm

theorem currentResult_calm {k0 : Still} {s : State} (h : s.Calm k0) (m : Main) (w : List ChannelBits) : (State.currentResult s m w).Calm k0 := by
  unfold State.currentResult
  repeat' first
    | with_reducible assumption
    | (extract_lets +onlyGivenNames x
       have hx : State.Calm k0 x := by
        unfold x
        repeat' first
          | with_reducible assumption
          | with_reducible apply modDrive_calm
          | with_reducible apply ite_calm
          | split
          | (extract_lets +onlyGivenNames y; have : ∀ z : State, State.Calm k0 (y z) ∨ True := (fun _ => .inr trivial); clear this; subst y)
                | (extract_lets +onlyGivenNames y; have : ∀ (z : State) b, State.Calm k0 (y z b) ∨ True := (fun _ _ => .inr trivial); clear this; subst y)
                | (extract_lets +onlyGivenNames y; clear_value y)
                | (extract_lets +onlyGivenNames y; subst y)
       clear_value x)
    | (extract_lets +onlyGivenNames x; have : ∀ z : State, State.Calm k0 (x z) ∨ True := (fun _ => .inr trivial); clear this; subst x)
    | (extract_lets +onlyGivenNames x; have : ∀ (z : State) b, State.Calm k0 (x z b) ∨ True := (fun _ _ => .inr trivial); clear this; subst x)
    | (extract_lets +onlyGivenNames x; clear_value x)
    | (extract_lets +onlyGivenNames x; subst x)
    | with_reducible apply modDrive_calm
    | with_reducible apply ite_calm
    | split

end Sys2Proof.Machine.State
end

