-- ==== Sys2Proof/Laws/CalmLinks.lean ====
section
/-! SUPPORT. The operations and commands of Machine/Links.lean that leave alone what Laws/Calm.lean names. -/

set_option Elab.async false

set_option linter.unusedTactic false
set_option linter.unreachableTactic false

namespace Sys2Proof.Machine.State

/-- The test injection into a window changes only the test registers. -/
theorem injectSinc_calm {k0 : Still} {s : State} (h : s.Calm k0) (w : List ChannelBits) : (s.injectSinc w).2.Calm k0 := by
  unfold State.injectSinc
  extract_lets r stuck ch skip
  split
  · extract_lets left w1
    split
    · exact modTest_calm h _
    · exact h
  · exact h

theorem startSegment_calm {k0 : Still} {s : State} (h : s.Calm k0)  : (State.startSegment s).Calm k0 := by
  unfold State.startSegment
  repeat' first
    | with_reducible assumption
    | (extract_lets +onlyGivenNames x
       have hx : State.Calm k0 x := by
        unfold x
        repeat' first
          | with_reducible assumption
          | exact fun hm => hm
          | exact fun _ hq => hq
          | with_reducible apply modGroup_calm
          | with_reducible apply segment_calm
          | with_reducible apply foldl_calm
          | (intro z b hz; beta_reduce)
          | with_reducible apply ite_calm
          | split
          | (intro _ _; (try dsimp only); split)
          | exact rfl
          | (extract_lets +onlyGivenNames y; subst y)
          | with_reducible apply mk_calm
       clear_value x)
    | (extract_lets +onlyGivenNames x; subst x)
    | exact fun hm => hm
    | exact fun _ hq => hq
    | with_reducible apply modGroup_calm
    | with_reducible apply segment_calm
    | with_reducible apply foldl_calm
    | (intro z b hz; beta_reduce)
    | with_reducible apply ite_calm
    | split
    | (intro _ _; (try dsimp only); split)
    | exact rfl
    | with_reducible apply mk_calm

theorem checkExchange_calm {k0 : Still} {s0 : State} (h : s0.Calm k0) (g : Grp) : (State.checkExchange s0 g).Calm k0 := by
  unfold State.checkExchange
  repeat' first
    | with_reducible assumption
    | (extract_lets +onlyGivenNames x
       have hx : State.Calm k0 x := by
        unfold x
        repeat' first
          | with_reducible assumption
          | exact fun hm => hm
          | exact fun _ hq => hq
          | with_reducible apply modCascade_calm
          | with_reducible apply modGroup_calm
          | with_reducible apply foldl_calm
          | (intro z b hz; beta_reduce)
          | with_reducible apply ite_calm
          | split
          | (intro _ _; (try dsimp only); split)
          | (extract_lets +onlyGivenNames y; clear_value y)
                | (extract_lets +onlyGivenNames y; subst y)
       clear_value x)
    | (extract_lets +onlyGivenNames x; clear_value x)
    | (extract_lets +onlyGivenNames x; subst x)
    | exact fun hm => hm
    | exact fun _ hq => hq
    | with_reducible apply modCascade_calm
    | with_reducible apply modGroup_calm
    | with_reducible apply foldl_calm
    | (intro z b hz; beta_reduce)
    | with_reducible apply ite_calm
    | split
    | (intro _ _; (try dsimp only); split)

theorem chopperLost_calm {k0 : Still} {s : State} (h : s.Calm k0) (l : LinkNo) (dvdt : Bool) : (State.chopperLost s l dvdt).Calm k0 := by
  unfold State.chopperLost
  repeat' first
    | with_reducible assumption
    | (extract_lets +onlyGivenNames x
       have hx : State.Calm k0 x := by
        unfold x
        repeat' first
          | with_reducible assumption
          | with_reducible apply haltAll_calm
          | with_reducible apply logEvent_calm
          | with_reducible apply modLink_calm
          | with_reducible apply foldl_calm
          | (intro z b hz; beta_reduce)
          | with_reducible apply ite_calm
          | (extract_lets +onlyGivenNames y; clear_value y)
                | (extract_lets +onlyGivenNames y; subst y)
       clear_value x)
    | (extract_lets +onlyGivenNames x; clear_value x)
    | (extract_lets +onlyGivenNames x; subst x)
    | with_reducible apply haltAll_calm
    | with_reducible apply logEvent_calm
    | with_reducible apply modLink_calm
    | with_reducible apply foldl_calm
    | (intro z b hz; beta_reduce)
    | with_reducible apply ite_calm

theorem testRise_calm {k0 : Still} {s : State} (h : s.Calm k0) (l : LinkNo) (v : Int) : (State.testRise s l v).Calm k0 := by
  unfold State.testRise
  repeat' first
    | with_reducible assumption
    | (extract_lets +onlyGivenNames x
       have hx : State.Calm k0 x := by
        unfold x
        repeat' first
          | with_reducible assumption
          | with_reducible apply chopperLost_calm
          | with_reducible apply modLink_calm
          | with_reducible apply ite_calm
          | split
          | (extract_lets +onlyGivenNames y; clear_value y)
                | (extract_lets +onlyGivenNames y; subst y)
       clear_value x)
    | (extract_lets +onlyGivenNames x; clear_value x)
    | (extract_lets +onlyGivenNames x; subst x)
    | with_reducible apply chopperLost_calm
    | with_reducible apply modLink_calm
    | with_reducible apply ite_calm
    | split

theorem tripLink_calm {k0 : Still} {s : State} (h : s.Calm k0) (l : LinkNo) : (State.tripLink s l).Calm k0 := by
  unfold State.tripLink
  repeat' first
    | with_reducible assumption
    | (extract_lets +onlyGivenNames x
       have hx : State.Calm k0 x := by
        unfold x
        repeat' first
          | with_reducible assumption
          | with_reducible apply disableAux_calm
          | with_reducible apply disableMain_calm
          | with_reducible apply haltAll_calm
          | with_reducible apply logEvent_calm
          | with_reducible apply modLink_calm
          | with_reducible apply foldl_calm
          | (intro z b hz; beta_reduce)
          | (extract_lets +onlyGivenNames y; clear_value y)
                | (extract_lets +onlyGivenNames y; subst y)
       clear_value x)
    | (extract_lets +onlyGivenNames x; clear_value x)
    | (extract_lets +onlyGivenNames x; subst x)
    | with_reducible apply disableAux_calm
    | with_reducible apply disableMain_calm
    | with_reducible apply haltAll_calm
    | with_reducible apply logEvent_calm
    | with_reducible apply modLink_calm
    | with_reducible apply foldl_calm
    | (intro z b hz; beta_reduce)

theorem settleTrip_calm {k0 : Still} {s : State} (h : s.Calm k0) (l : LinkNo) : (State.settleTrip s l).Calm k0 := by
  unfold State.settleTrip
  repeat' first
    | with_reducible assumption
    | (extract_lets +onlyGivenNames x
       have hx : State.Calm k0 x := by
        unfold x
        repeat' first
          | with_reducible assumption
          | with_reducible apply modLink_calm
          | with_reducible apply modReq_calm
          | with_reducible apply foldl_calm
          | (intro z b hz; beta_reduce)
          | with_reducible apply ite_calm
          | (extract_lets +onlyGivenNames y; clear_value y)
                | (extract_lets +onlyGivenNames y; subst y)
       clear_value x)
    | (extract_lets +onlyGivenNames x; clear_value x)
    | (extract_lets +onlyGivenNames x; subst x)
    | with_reducible apply modLink_calm
    | with_reducible apply modReq_calm
    | with_reducible apply foldl_calm
    | (intro z b hz; beta_reduce)
    | with_reducible apply ite_calm

theorem testWarn_calm {k0 : Still} {s : State} (h : s.Calm k0) (l : LinkNo) (v : Int) : (State.testWarn s l v).Calm k0 := by
  unfold State.testWarn
  repeat' first
    | with_reducible assumption
    | (extract_lets +onlyGivenNames x
       have hx : State.Calm k0 x := by
        unfold x
        repeat' first
          | with_reducible assumption
          | with_reducible apply logEvent_calm
          | with_reducible apply modLink_calm
          | with_reducible apply ite_calm
          | (extract_lets +onlyGivenNames y; clear_value y)
                | (extract_lets +onlyGivenNames y; subst y)
       clear_value x)
    | (extract_lets +onlyGivenNames x; clear_value x)
    | (extract_lets +onlyGivenNames x; subst x)
    | with_reducible apply logEvent_calm
    | with_reducible apply modLink_calm
    | with_reducible apply ite_calm

theorem servedResult_calm {k0 : Still} {s : State} (h : s.Calm k0) (l : LinkNo) (v : Int) : (State.servedResult s l v).Calm k0 := by
  unfold State.servedResult
  repeat' first
    | with_reducible assumption
    | (extract_lets +onlyGivenNames x
       have hx : State.Calm k0 x := by
        unfold x
        repeat' first
          | with_reducible assumption
          | with_reducible apply modLink_calm
          | with_reducible apply testRise_calm
          | with_reducible apply testWarn_calm
          | with_reducible apply tripLink_calm
          | with_reducible apply ite_calm
          | (extract_lets +onlyGivenNames y; clear_value y)
                | (extract_lets +onlyGivenNames y; subst y)
       clear_value x)
    | (extract_lets +onlyGivenNames x; clear_value x)
    | (extract_lets +onlyGivenNames x; subst x)
    | with_reducible apply modLink_calm
    | with_reducible apply testRise_calm
    | with_reducible apply testWarn_calm
    | with_reducible apply tripLink_calm
    | with_reducible apply ite_calm

theorem standbyResult_calm {k0 : Still} {s : State} (h : s.Calm k0) (l : LinkNo) (v : Int) : (State.standbyResult s l v).Calm k0 := by
  unfold State.standbyResult
  repeat' first
    | with_reducible assumption
    | (extract_lets +onlyGivenNames x
       have hx : State.Calm k0 x := by
        unfold x
        repeat' first
          | with_reducible assumption
          | with_reducible apply linkEnergy_calm
          | with_reducible apply modLink_calm
          | with_reducible apply testWarn_calm
          | with_reducible apply ite_calm
          | (extract_lets +onlyGivenNames y; clear_value y)
                | (extract_lets +onlyGivenNames y; subst y)
       clear_value x)
    | (extract_lets +onlyGivenNames x; clear_value x)
    | (extract_lets +onlyGivenNames x; subst x)
    | with_reducible apply linkEnergy_calm
    | with_reducible apply modLink_calm
    | with_reducible apply testWarn_calm
    | with_reducible apply ite_calm

theorem linkResult_calm {k0 : Still} {s : State} (h : s.Calm k0) (l : LinkNo) (w : List ChannelBits) : (State.linkResult s l w).Calm k0 := by
  unfold State.linkResult
  repeat' first
    | with_reducible assumption
    | (extract_lets +onlyGivenNames x
       have hx : State.Calm k0 x := by
        unfold x
        repeat' first
          | with_reducible assumption
          | exact fun hm => hm
          | exact fun _ hq => hq
          | with_reducible apply modGroup_calm
          | with_reducible apply modLink_calm
          | with_reducible apply servedResult_calm
          | with_reducible apply standbyResult_calm
          | with_reducible apply foldl_calm
          | (intro z b hz; beta_reduce)
          | with_reducible apply ite_calm
          | split
          | (intro _ _; (try dsimp only); split)
          | (extract_lets +onlyGivenNames y; clear_value y)
                | (extract_lets +onlyGivenNames y; subst y)
       clear_value x)
    | (extract_lets +onlyGivenNames x; clear_value x)
    | (extract_lets +onlyGivenNames x; subst x)
    | exact fun hm => hm
    | exact fun _ hq => hq
    | with_reducible apply modGroup_calm
    | with_reducible apply modLink_calm
    | with_reducible apply servedResult_calm
    | with_reducible apply standbyResult_calm
    | with_reducible apply foldl_calm
    | (intro z b hz; beta_reduce)
    | with_reducible apply ite_calm
    | split
    | (intro _ _; (try dsimp only); split)

theorem execFilterResultReady_calm {k0 : Still} {s0 : State} (h : s0.Calm k0) (g : Option Grp) (captured : List ChannelBits) :
    OutCalm k0 (State.execFilterResultReady g captured s0) := by
  unfold State.execFilterResultReady
  extract_lets p _ s
  have hs : s.Calm k0 := injectSinc_calm h _
  clear_value s
  show State.Calm k0 _
  split
  · exact ite_calm (eachFin_calm _ _ (fun z b hz => ite_calm (linkResult_calm hz _ _) hz) hs) hs
  next g =>
    refine ite_calm ?_ hs
    extract_lets s1 s2
    have h1 : s1.Calm k0 := foldl_calm _ _ (fun z b hz => currentResult_calm hz _ _) hs
    have h2 : s2.Calm k0 := eachFin_calm _ _ (fun z b hz => ite_calm (linkResult_calm hz _ _) hz) h1
    clear_value s2
    exact startSegment_calm (checkExchange_calm (modGroup_calm h2 _ _) _)

theorem execChopperPeriodStart_calm {k0 : Still} {s : State} (h : s.Calm k0) (l : LinkNo) (bcf : Bool) :
    OutCalm k0 (State.execChopperPeriodStart l bcf s) := by
  unfold State.execChopperPeriodStart
  show State.Calm k0 _
  repeat' first
    | with_reducible assumption
    | (extract_lets +onlyGivenNames x
       have hx : State.Calm k0 x := by
        unfold x
        repeat' first
          | with_reducible assumption
          | with_reducible apply modLink_calm
          | (extract_lets +onlyGivenNames y; clear_value y)
                | (extract_lets +onlyGivenNames y; subst y)
       clear_value x)
    | (extract_lets +onlyGivenNames x; clear_value x)
    | (extract_lets +onlyGivenNames x; subst x)
    | with_reducible apply modLink_calm

theorem execChopperFeedbackMismatch_calm {k0 : Still} {s : State} (h : s.Calm k0) (l : LinkNo) :
    OutCalm k0 (State.execChopperFeedbackMismatch l s) := by
  unfold State.execChopperFeedbackMismatch
  show State.Calm k0 _
  repeat' first
    | with_reducible assumption
    | (extract_lets +onlyGivenNames x
       have hx : State.Calm k0 x := by
        unfold x
        repeat' first
          | with_reducible assumption
          | exact fun hm => hm
          | exact fun _ hq => hq
          | with_reducible apply chopperLost_calm
          | with_reducible apply logEvent_calm
          | with_reducible apply modGroup_calm
          | with_reducible apply modLink_calm
          | with_reducible apply foldl_calm
          | (intro z b hz; beta_reduce)
          | with_reducible apply ite_calm
          | split
          | (intro _ _; (try dsimp only); split)
          | (extract_lets +onlyGivenNames y; clear_value y)
                | (extract_lets +onlyGivenNames y; subst y)
       clear_value x)
    | (extract_lets +onlyGivenNames x; clear_value x)
    | (extract_lets +onlyGivenNames x; subst x)
    | exact fun hm => hm
    | exact fun _ hq => hq
    | with_reducible apply chopperLost_calm
    | with_reducible apply logEvent_calm
    | with_reducible apply modGroup_calm
    | with_reducible apply modLink_calm
    | with_reducible apply foldl_calm
    | (intro z b hz; beta_reduce)
    | with_reducible apply ite_calm
    | split
    | (intro _ _; (try dsimp only); split)

end Sys2Proof.Machine.State
end

