-- ==== Sys2Proof/Laws/CalmGlance.lean ====
section
/-! SUPPORT. The operations and commands of Machine/Glance.lean that leave alone what Laws/Calm.lean names. -/

set_option Elab.async false

set_option linter.unusedTactic false
set_option linter.unreachableTactic false

namespace Sys2Proof.Machine.State

theorem execGlanceWindowOpen_calm {k0 : Still} {s : State} (h : s.Calm k0) (m : Main) (fine : Nat) :
    OutCalm k0 (State.execGlanceWindowOpen m fine s) := by
  unfold State.execGlanceWindowOpen
  show State.Calm k0 _
  repeat' first
    | with_reducible assumption
    | (extract_lets +onlyGivenNames x
       have hx : State.Calm k0 x := by
        unfold x
        repeat' first
          | with_reducible assumption
          | with_reducible apply modDrive_calm
          | with_reducible apply modGlance_calm
          | with_reducible apply ite_calm
          | split
          | (extract_lets +onlyGivenNames y; clear_value y)
                | (extract_lets +onlyGivenNames y; subst y)
       clear_value x)
    | (extract_lets +onlyGivenNames x; clear_value x)
    | (extract_lets +onlyGivenNames x; subst x)
    | with_reducible apply modDrive_calm
    | with_reducible apply modGlance_calm
    | with_reducible apply ite_calm
    | split

theorem execGlanceWindowClose_calm {k0 : Still} {s : State} (h : s.Calm k0) (m : Main) :
    OutCalm k0 (State.execGlanceWindowClose m s) := by
  unfold State.execGlanceWindowClose
  show State.Calm k0 _
  repeat' first
    | with_reducible assumption
    | (extract_lets +onlyGivenNames x
       have hx : State.Calm k0 x := by
        unfold x
        repeat' first
          | with_reducible assumption
          | with_reducible apply modDrive_calm
          | with_reducible apply modGlance_calm
          | with_reducible apply ite_calm
          | split
          | (extract_lets +onlyGivenNames y; clear_value y)
                | (extract_lets +onlyGivenNames y; subst y)
       clear_value x)
    | (extract_lets +onlyGivenNames x; clear_value x)
    | (extract_lets +onlyGivenNames x; subst x)
    | with_reducible apply modDrive_calm
    | with_reducible apply modGlance_calm
    | with_reducible apply ite_calm
    | split

theorem windowEdge_calm {k0 : Still} {s : State} (h : s.Calm k0) (g : Grp) (m : Main) (phase : Phase) (rising : Bool) (raw : Int) (c : Crossing) : (State.windowEdge s g m phase rising raw c).Calm k0 := by
  unfold State.windowEdge
  repeat' first
    | with_reducible assumption
    | with_reducible apply modGlance_calm
    | with_reducible apply ite_calm
    | split

theorem sixStepEdge_calm {k0 : Still} {s : State} (h : s.Calm k0) (g : Grp) (m : Main) (phase : Phase) (rising : Bool) (raw : Int) (c : Crossing) : (State.sixStepEdge s g m phase rising raw c).Calm k0 := by
  unfold State.sixStepEdge
  repeat' first
    | with_reducible assumption
    | (extract_lets +onlyGivenNames x
       have hx : State.Calm k0 x := by
        unfold x
        repeat' first
          | with_reducible assumption
          | with_reducible apply modComm_calm
          | with_reducible apply modGlance_calm
          | with_reducible apply ite_calm
          | split
          | (extract_lets +onlyGivenNames y; clear_value y)
                | (extract_lets +onlyGivenNames y; subst y)
       clear_value x)
    | (extract_lets +onlyGivenNames x; clear_value x)
    | (extract_lets +onlyGivenNames x; subst x)
    | with_reducible apply modComm_calm
    | with_reducible apply modGlance_calm
    | with_reducible apply ite_calm
    | split

theorem execComparatorEdge_calm {k0 : Still} {s : State} (h : s.Calm k0) (m : Main) (phase : Phase) (rising : Bool) (cd4 : Nat) :
    OutCalm k0 (State.execComparatorEdge m phase rising cd4 s) := by
  unfold State.execComparatorEdge
  show State.Calm k0 _
  repeat' first
    | with_reducible assumption
    | (extract_lets +onlyGivenNames x
       have hx : State.Calm k0 x := by
        unfold x
        repeat' first
          | with_reducible assumption
          | with_reducible apply modComm_calm
          | with_reducible apply modGlance_calm
          | with_reducible apply sixStepEdge_calm
          | with_reducible apply windowEdge_calm
          | with_reducible apply ite_calm
          | split
          | (extract_lets +onlyGivenNames y; clear_value y)
                | (extract_lets +onlyGivenNames y; subst y)
       clear_value x)
    | (extract_lets +onlyGivenNames x; clear_value x)
    | (extract_lets +onlyGivenNames x; subst x)
    | with_reducible apply modComm_calm
    | with_reducible apply modGlance_calm
    | with_reducible apply sixStepEdge_calm
    | with_reducible apply windowEdge_calm
    | with_reducible apply ite_calm
    | split

theorem execSixStepCommutation_calm {k0 : Still} {s : State} (h : s.Calm k0) (m : Main) :
    OutCalm k0 (State.execSixStepCommutation m s) := by
  unfold State.execSixStepCommutation
  show State.Calm k0 _
  repeat' first
    | with_reducible assumption
    | (extract_lets +onlyGivenNames x
       have hx : State.Calm k0 x := by
        unfold x
        repeat' first
          | with_reducible assumption
          | with_reducible apply modComm_calm
          | with_reducible apply modGlance_calm
          | with_reducible apply ite_calm
          | (extract_lets +onlyGivenNames y; clear_value y)
                | (extract_lets +onlyGivenNames y; subst y)
       clear_value x)
    | (extract_lets +onlyGivenNames x; clear_value x)
    | (extract_lets +onlyGivenNames x; subst x)
    | with_reducible apply modComm_calm
    | with_reducible apply modGlance_calm
    | with_reducible apply ite_calm

theorem execSpeedLimit_calm {k0 : Still} {s : State} (h : s.Calm k0) (m : Main) :
    OutCalm k0 (State.execSpeedLimit m s) := by
  unfold State.execSpeedLimit
  show State.Calm k0 _
  repeat' first
    | with_reducible assumption
    | (extract_lets +onlyGivenNames x
       have hx : State.Calm k0 x := by
        unfold x
        repeat' first
          | with_reducible assumption
          | with_reducible apply CState.gated_calm
          | with_reducible apply enterRest_calm
          | with_reducible apply leaveTorque_calm
          | with_reducible apply ite_calm
          | split
          | (extract_lets +onlyGivenNames y; clear_value y)
                | (extract_lets +onlyGivenNames y; subst y)
       clear_value x)
    | (extract_lets +onlyGivenNames x; clear_value x)
    | (extract_lets +onlyGivenNames x; subst x)
    | with_reducible apply CState.gated_calm
    | with_reducible apply enterRest_calm
    | with_reducible apply leaveTorque_calm
    | with_reducible apply ite_calm
    | split

theorem execModeDeferralExpiry_calm {k0 : Still} {s : State} (h : s.Calm k0) (m : Main) :
    OutCalm k0 (State.execModeDeferralExpiry m s) := by
  unfold State.execModeDeferralExpiry
  show State.Calm k0 _
  repeat' first
    | with_reducible assumption
    | with_reducible apply finish_calm
    | with_reducible apply modEng_calm
    | with_reducible apply ite_calm
    | split

theorem execFollowingError_calm {k0 : Still} {s : State} (h : s.Calm k0) (m : Main) :
    OutCalm k0 (State.execFollowingError m s) := by
  unfold State.execFollowingError
  show State.Calm k0 _
  repeat' first
    | with_reducible assumption
    | (extract_lets +onlyGivenNames x
       have hx : State.Calm k0 x := by
        unfold x
        repeat' first
          | with_reducible assumption
          | exact fun hm => hm
          | exact fun _ hq => hq
          | with_reducible apply logEvent_calm
          | with_reducible apply modEng_calm
          | with_reducible apply modGroup_calm
          | with_reducible apply ite_calm
          | (intro _ _; (try dsimp only); split)
          | (extract_lets +onlyGivenNames y; clear_value y)
                | (extract_lets +onlyGivenNames y; subst y)
       clear_value x)
    | (extract_lets +onlyGivenNames x; clear_value x)
    | (extract_lets +onlyGivenNames x; subst x)
    | exact fun hm => hm
    | exact fun _ hq => hq
    | with_reducible apply logEvent_calm
    | with_reducible apply modEng_calm
    | with_reducible apply modGroup_calm
    | with_reducible apply ite_calm
    | (intro _ _; (try dsimp only); split)

theorem execExcitationSearchWindow_calm {k0 : Still} {s : State} (h : s.Calm k0) (m : Main) :
    OutCalm k0 (State.execExcitationSearchWindow m s) := by
  unfold State.execExcitationSearchWindow
  show State.Calm k0 _
  repeat' first
    | with_reducible assumption
    | (extract_lets +onlyGivenNames x
       have hx : State.Calm k0 x := by
        unfold x
        repeat' first
          | with_reducible assumption
          | with_reducible apply modShare_calm
          | with_reducible apply step_calm
          | with_reducible apply ite_calm
          | split
          | (extract_lets +onlyGivenNames y; have : ∀ z : State, State.Calm k0 (y z) ∨ True := (fun _ => .inr trivial); clear this; subst y)
                | (extract_lets +onlyGivenNames y; have : ∀ (z : State) b, State.Calm k0 (y z b) ∨ True := (fun _ _ => .inr trivial); clear this; subst y)
                | (extract_lets +onlyGivenNames y; clear_value y)
                | (extract_lets +onlyGivenNames y; subst y)
       clear_value x)
    | (extract_lets +onlyGivenNames x; have : ∀ z : State, State.Calm k0 (x z) ∨ True := (fun _ => .inr trivial); clear this; subst x)
    | (extract_lets +onlyGivenNames x; have : ∀ (z : State) b, State.Calm k0 (x z b) ∨ True := (fun _ _ => .inr trivial); clear this; subst x)
    | (extract_lets +onlyGivenNames x; clear_value x)
    | (extract_lets +onlyGivenNames x; subst x)
    | with_reducible apply modShare_calm
    | with_reducible apply step_calm
    | with_reducible apply ite_calm
    | split

end Sys2Proof.Machine.State
end

