-- ==== Sys2Proof/Laws/CalmMicrostep.lean ====
section
/-! SUPPORT. The operations and commands of Machine/Microstep.lean that leave alone what Laws/Calm.lean names. -/

set_option Elab.async false

set_option linter.unusedTactic false
set_option linter.unreachableTactic false

namespace Sys2Proof.Machine.State

theorem setTableEntry_calm {k0 : Still} {s : State} (h : s.Calm k0) (t : Nat) (i : Nat) (w : Word) : (State.setTableEntry s t i w).Calm k0 := by
  unfold State.setTableEntry
  repeat' first
    | with_reducible assumption
    | with_reducible apply mk_calm

end Sys2Proof.Machine.State
end

