-- ==== Sys2Proof/Laws/CalmAuxAxes.lean ====
section
/-! SUPPORT. The operations and commands of Machine/AuxAxes.lean that leave alone what Laws/Calm.lean names. -/

set_option Elab.async false

set_option linter.unusedTactic false
set_option linter.unreachableTactic false

namespace Sys2Proof.Machine.State

theorem modWind_calm {k0 : Still} {s : State} (h : s.Calm k0) (a : AuxNo) (w : Winding) (f : WindingSt → WindingSt) : (State.modWind s a w f).Calm k0 := by
  unfold State.modWind
  repeat' first
    | with_reducible assumption
    | with_reducible apply modAux_calm
    | split

theorem execHysteresisCrossing_calm {k0 : Still} {s : State} (h : s.Calm k0) (a : AuxNo) (w : Winding) (upper : Bool) (rising : Bool) (cd12 : Nat) :
    OutCalm k0 (State.execHysteresisCrossing a w upper rising cd12 s) := by
  unfold State.execHysteresisCrossing
  show State.Calm k0 _
  repeat' first
    | with_reducible assumption
    | (extract_lets +onlyGivenNames x
       have hx : State.Calm k0 x := by
        unfold x
        repeat' first
          | with_reducible assumption
          | with_reducible apply modWind_calm
          | with_reducible apply ite_calm
          | split
          | (extract_lets +onlyGivenNames y; have : ∀ z : State, State.Calm k0 (y z) ∨ True := (fun _ => .inr trivial); clear this; subst y)
                | (extract_lets +onlyGivenNames y; have : ∀ (z : State) b, State.Calm k0 (y z b) ∨ True := (fun _ _ => .inr trivial); clear this; subst y)
                | (extract_lets +onlyGivenNames y; clear_value y)
                | (extract_lets +onlyGivenNames y; subst y)
       clear_value x)
    | (extract_lets +onlyGivenNames x; have : ∀ z : State, State.Calm k0 (x z) ∨ True := (fun _ => .inr trivial); clear this; subst x)
    | (extract_lets +onlyGivenNames x; have : ∀ (z : State) b, State.Calm k0 (x z b) ∨ True := (fun _ _ => .inr trivial); clear this; subst x)
    | (extract_lets +onlyGivenNames x; clear_value x)
    | (extract_lets +onlyGivenNames x; subst x)
    | with_reducible apply modWind_calm
    | with_reducible apply ite_calm
    | split

theorem execHysteresisHoldExpiry_calm {k0 : Still} {s : State} (h : s.Calm k0) (a : AuxNo) (w : Winding) (cd12 : Nat) :
    OutCalm k0 (State.execHysteresisHoldExpiry a w cd12 s) := by
  unfold State.execHysteresisHoldExpiry
  show State.Calm k0 _
  repeat' first
    | with_reducible assumption
    | with_reducible apply modWind_calm
    | with_reducible apply ite_calm
    | split

theorem bridgesOff_calm {k0 : Still} {s : State} (h : s.Calm k0) (a : AuxNo) : (State.bridgesOff s a).Calm k0 := by
  unfold State.bridgesOff
  repeat' first
    | with_reducible assumption
    | (extract_lets +onlyGivenNames x
       have hx : State.Calm k0 x := by
        unfold x
        repeat' first
          | with_reducible assumption
          | with_reducible apply modAux_calm
          | (extract_lets +onlyGivenNames y; have : ∀ z : State, State.Calm k0 (y z) ∨ True := (fun _ => .inr trivial); clear this; subst y)
                | (extract_lets +onlyGivenNames y; have : ∀ (z : State) b, State.Calm k0 (y z b) ∨ True := (fun _ _ => .inr trivial); clear this; subst y)
                | (extract_lets +onlyGivenNames y; clear_value y)
                | (extract_lets +onlyGivenNames y; subst y)
       clear_value x)
    | (extract_lets +onlyGivenNames x; have : ∀ z : State, State.Calm k0 (x z) ∨ True := (fun _ => .inr trivial); clear this; subst x)
    | (extract_lets +onlyGivenNames x; have : ∀ (z : State) b, State.Calm k0 (x z b) ∨ True := (fun _ _ => .inr trivial); clear this; subst x)
    | (extract_lets +onlyGivenNames x; clear_value x)
    | (extract_lets +onlyGivenNames x; subst x)
    | with_reducible apply modAux_calm

theorem setAuxLatch_calm {k0 : Still} {s : State} (h : s.Calm k0) (a : AuxNo) (why : Fin 5) : (State.setAuxLatch s a why).Calm k0 := by
  unfold State.setAuxLatch
  repeat' first
    | with_reducible assumption
    | with_reducible apply logEvent_calm
    | with_reducible apply modAux_calm
    | with_reducible apply ite_calm

theorem execSarConversion_calm {k0 : Still} {s : State} (h : s.Calm k0) (a : AuxNo) (w : Winding) (code : BitVec 12) :
    OutCalm k0 (State.execSarConversion a w code s) := by
  unfold State.execSarConversion
  show State.Calm k0 _
  repeat' first
    | with_reducible assumption
    | (extract_lets +onlyGivenNames x
       have hx : State.Calm k0 x := by
        unfold x
        repeat' first
          | with_reducible assumption
          | with_reducible apply modWind_calm
          | with_reducible apply setAuxLatch_calm
          | with_reducible apply ite_calm
          | split
          | (extract_lets +onlyGivenNames y; clear_value y)
                | (extract_lets +onlyGivenNames y; subst y)
       clear_value x)
    | (extract_lets +onlyGivenNames x; clear_value x)
    | (extract_lets +onlyGivenNames x; subst x)
    | with_reducible apply modWind_calm
    | with_reducible apply setAuxLatch_calm
    | with_reducible apply ite_calm
    | split

theorem execAuxOvercurrent_calm {k0 : Still} {s : State} (h : s.Calm k0) (a : AuxNo) :
    OutCalm k0 (State.execAuxOvercurrent a s) := by
  unfold State.execAuxOvercurrent
  show State.Calm k0 _
  repeat' first
    | with_reducible assumption
    | with_reducible apply bridgesOff_calm
    | with_reducible apply setAuxLatch_calm
    | with_reducible apply ite_calm

theorem execOpenCoil_calm {k0 : Still} {s : State} (h : s.Calm k0) (a : AuxNo) :
    OutCalm k0 (State.execOpenCoil a s) := by
  unfold State.execOpenCoil
  show State.Calm k0 _
  repeat' first
    | with_reducible assumption
    | (extract_lets +onlyGivenNames x
       have hx : State.Calm k0 x := by
        unfold x
        repeat' first
          | with_reducible assumption
          | with_reducible apply setAuxLatch_calm
          | with_reducible apply ite_calm
          | (extract_lets +onlyGivenNames y; clear_value y)
                | (extract_lets +onlyGivenNames y; subst y)
       clear_value x)
    | (extract_lets +onlyGivenNames x; clear_value x)
    | (extract_lets +onlyGivenNames x; subst x)
    | with_reducible apply setAuxLatch_calm
    | with_reducible apply ite_calm

theorem haltAux_calm {k0 : Still} {s : State} (h : s.Calm k0) (a : AuxNo) : (State.haltAux s a).Calm k0 := by
  unfold State.haltAux
  repeat' first
    | with_reducible assumption
    | with_reducible apply putTarget_calm

theorem rebase_calm {k0 : Still} {s : State} (h : s.Calm k0) (a : AuxNo) (value : Int) : (State.rebase s a value).Calm k0 := by
  unfold State.rebase
  repeat' first
    | with_reducible assumption
    | (extract_lets +onlyGivenNames x
       have hx : State.Calm k0 x := by
        unfold x
        repeat' first
          | with_reducible assumption
          | with_reducible apply modAux_calm
          | with_reducible apply modGen_calm
          | split
          | (extract_lets +onlyGivenNames y; clear_value y)
                | (extract_lets +onlyGivenNames y; subst y)
       clear_value x)
    | (extract_lets +onlyGivenNames x; clear_value x)
    | (extract_lets +onlyGivenNames x; subst x)
    | with_reducible apply modAux_calm
    | with_reducible apply modGen_calm
    | split

theorem endHome_calm {k0 : Still} {s : State} (h : s.Calm k0) (a : AuxNo) (status : Nat) : (State.endHome s a status).Calm k0 := by
  unfold State.endHome
  repeat' first
    | with_reducible assumption
    | with_reducible apply finish_calm
    | with_reducible apply modAux_calm
    | with_reducible apply modGen_calm
    | with_reducible apply ite_calm
    | split

theorem homingStep_calm {k0 : Still} {s : State} (h : s.Calm k0) (a : AuxNo) : (State.homingStep s a).Calm k0 := by
  unfold State.homingStep
  repeat' first
    | with_reducible assumption
    | (extract_lets +onlyGivenNames x
       have hx : State.Calm k0 x := by
        unfold x
        repeat' first
          | with_reducible assumption
          | with_reducible apply endHome_calm
          | with_reducible apply haltAux_calm
          | with_reducible apply modAux_calm
          | with_reducible apply putTarget_calm
          | with_reducible apply rebase_calm
          | with_reducible apply ite_calm
          | split
          | (extract_lets +onlyGivenNames y; clear_value y)
                | (extract_lets +onlyGivenNames y; subst y)
       clear_value x)
    | (extract_lets +onlyGivenNames x; clear_value x)
    | (extract_lets +onlyGivenNames x; subst x)
    | with_reducible apply endHome_calm
    | with_reducible apply haltAux_calm
    | with_reducible apply modAux_calm
    | with_reducible apply putTarget_calm
    | with_reducible apply rebase_calm
    | with_reducible apply ite_calm
    | split

theorem execSettleTimeExpiry_calm {k0 : Still} {s : State} (h : s.Calm k0) (a : AuxNo) :
    OutCalm k0 (State.execSettleTimeExpiry a s) := by
  unfold State.execSettleTimeExpiry
  show State.Calm k0 _
  repeat' first
    | with_reducible assumption
    | with_reducible apply modAux_calm
    | with_reducible apply ite_calm

theorem execHoldDelayExpiry_calm {k0 : Still} {s : State} (h : s.Calm k0) (a : AuxNo) :
    OutCalm k0 (State.execHoldDelayExpiry a s) := by
  unfold State.execHoldDelayExpiry
  show State.Calm k0 _
  repeat' first
    | with_reducible assumption
    | (extract_lets +onlyGivenNames x
       have hx : State.Calm k0 x := by
        unfold x
        repeat' first
          | with_reducible assumption
          | with_reducible apply modAux_calm
          | with_reducible apply ite_calm
          | (extract_lets +onlyGivenNames y; clear_value y)
                | (extract_lets +onlyGivenNames y; subst y)
       clear_value x)
    | (extract_lets +onlyGivenNames x; clear_value x)
    | (extract_lets +onlyGivenNames x; subst x)
    | with_reducible apply modAux_calm
    | with_reducible apply ite_calm

theorem execStallDetected_calm {k0 : Still} {s : State} (h : s.Calm k0) (a : AuxNo) :
    OutCalm k0 (State.execStallDetected a s) := by
  unfold State.execStallDetected
  show State.Calm k0 _
  repeat' first
    | with_reducible assumption
    | (extract_lets +onlyGivenNames x
       have hx : State.Calm k0 x := by
        unfold x
        repeat' first
          | with_reducible assumption
          | exact fun hm => hm
          | exact fun _ hq => hq
          | with_reducible apply endHome_calm
          | with_reducible apply haltAux_calm
          | with_reducible apply logEvent_calm
          | with_reducible apply modAux_calm
          | with_reducible apply modGroup_calm
          | with_reducible apply rebase_calm
          | with_reducible apply ite_calm
          | split
          | (intro _ _; (try dsimp only); split)
          | (extract_lets +onlyGivenNames y; clear_value y)
                | (extract_lets +onlyGivenNames y; subst y)
       clear_value x)
    | (extract_lets +onlyGivenNames x; clear_value x)
    | (extract_lets +onlyGivenNames x; subst x)
    | exact fun hm => hm
    | exact fun _ hq => hq
    | with_reducible apply endHome_calm
    | with_reducible apply haltAux_calm
    | with_reducible apply logEvent_calm
    | with_reducible apply modAux_calm
    | with_reducible apply modGroup_calm
    | with_reducible apply rebase_calm
    | with_reducible apply ite_calm
    | split
    | (intro _ _; (try dsimp only); split)

theorem commitAuxPass_calm {k0 : Still} {s : State} (h : s.Calm k0) (g : Grp) (a : AuxNo) (off : Nat) : (State.commitAuxPass s g a off).Calm k0 := by
  unfold State.commitAuxPass
  repeat' first
    | with_reducible assumption
    | (extract_lets +onlyGivenNames x
       have hx : State.Calm k0 x := by
        unfold x
        repeat' first
          | with_reducible assumption
          | with_reducible apply modAux_calm
          | with_reducible apply ite_calm
          | split
          | (extract_lets +onlyGivenNames y; have : ∀ z : State, State.Calm k0 (y z) ∨ True := (fun _ => .inr trivial); clear this; subst y)
                | (extract_lets +onlyGivenNames y; have : ∀ (z : State) b, State.Calm k0 (y z b) ∨ True := (fun _ _ => .inr trivial); clear this; subst y)
                | (extract_lets +onlyGivenNames y; clear_value y)
                | (extract_lets +onlyGivenNames y; subst y)
       clear_value x)
    | (extract_lets +onlyGivenNames x; have : ∀ z : State, State.Calm k0 (x z) ∨ True := (fun _ => .inr trivial); clear this; subst x)
    | (extract_lets +onlyGivenNames x; have : ∀ (z : State) b, State.Calm k0 (x z b) ∨ True := (fun _ _ => .inr trivial); clear this; subst x)
    | (extract_lets +onlyGivenNames x; clear_value x)
    | (extract_lets +onlyGivenNames x; subst x)
    | with_reducible apply modAux_calm
    | with_reducible apply ite_calm
    | split

theorem leaveAux_calm {k0 : Still} {s : State} (h : s.Calm k0) (a : AuxNo) (st : AState) : (State.leaveAux s a st).Calm k0 := by
  unfold State.leaveAux
  repeat' first
    | with_reducible assumption
    | (extract_lets +onlyGivenNames x
       have hx : State.Calm k0 x := by
        unfold x
        repeat' first
          | with_reducible assumption
          | with_reducible apply bridgesOff_calm
          | with_reducible apply endHome_calm
          | with_reducible apply finishOpt_calm
          | with_reducible apply modAux_calm
          | with_reducible apply ite_calm
          | (extract_lets +onlyGivenNames y; clear_value y)
                | (extract_lets +onlyGivenNames y; subst y)
       clear_value x)
    | (extract_lets +onlyGivenNames x; clear_value x)
    | (extract_lets +onlyGivenNames x; subst x)
    | with_reducible apply bridgesOff_calm
    | with_reducible apply endHome_calm
    | with_reducible apply finishOpt_calm
    | with_reducible apply modAux_calm
    | with_reducible apply ite_calm

theorem auxTransition_calm {k0 : Still} {s : State} (h : s.Calm k0) (a : AuxNo) : (State.auxTransition s a).Calm k0 := by
  unfold State.auxTransition
  repeat' first
    | with_reducible assumption
    | (extract_lets +onlyGivenNames x
       have hx : State.Calm k0 x := by
        unfold x
        repeat' first
          | with_reducible assumption
          | with_reducible apply leaveAux_calm
          | with_reducible apply modAux_calm
          | with_reducible apply ite_calm
          | split
          | (extract_lets +onlyGivenNames y; clear_value y)
                | (extract_lets +onlyGivenNames y; subst y)
       clear_value x)
    | (extract_lets +onlyGivenNames x; clear_value x)
    | (extract_lets +onlyGivenNames x; subst x)
    | with_reducible apply leaveAux_calm
    | with_reducible apply modAux_calm
    | with_reducible apply ite_calm
    | split

theorem commitAuxEnable_calm {k0 : Still} {s : State} (h : s.Calm k0) (a : AuxNo) : (State.commitAuxEnable s a).Calm k0 := by
  unfold State.commitAuxEnable
  repeat' first
    | with_reducible assumption
    | (extract_lets +onlyGivenNames x
       have hx : State.Calm k0 x := by
        unfold x
        repeat' first
          | with_reducible assumption
          | with_reducible apply finishOpt_calm
          | with_reducible apply modAux_calm
          | with_reducible apply ite_calm
          | (extract_lets +onlyGivenNames y; clear_value y)
                | (extract_lets +onlyGivenNames y; subst y)
       clear_value x)
    | (extract_lets +onlyGivenNames x; clear_value x)
    | (extract_lets +onlyGivenNames x; subst x)
    | with_reducible apply finishOpt_calm
    | with_reducible apply modAux_calm
    | with_reducible apply ite_calm

theorem checkLimits_calm {k0 : Still} {s : State} (h : s.Calm k0) (g : Grp) (a : AuxNo) : (State.checkLimits s g a).Calm k0 := by
  unfold State.checkLimits
  repeat' first
    | with_reducible assumption
    | (extract_lets +onlyGivenNames x
       have hx : State.Calm k0 x := by
        unfold x
        repeat' first
          | with_reducible assumption
          | exact fun hm => hm
          | exact fun _ hq => hq
          | with_reducible apply endFollow_calm
          | with_reducible apply logEvent_calm
          | with_reducible apply modGroup_calm
          | with_reducible apply ite_calm
          | split
          | (intro _ _; (try dsimp only); split)
          | (extract_lets +onlyGivenNames y; clear_value y)
                | (extract_lets +onlyGivenNames y; subst y)
       clear_value x)
    | (extract_lets +onlyGivenNames x; clear_value x)
    | (extract_lets +onlyGivenNames x; subst x)
    | exact fun hm => hm
    | exact fun _ hq => hq
    | with_reducible apply endFollow_calm
    | with_reducible apply logEvent_calm
    | with_reducible apply modGroup_calm
    | with_reducible apply ite_calm
    | split
    | (intro _ _; (try dsimp only); split)

theorem commitAux_calm {k0 : Still} {s : State} (h : s.Calm k0) (g : Grp) (a : AuxNo) (off : Nat) : (State.commitAux s g a off).Calm k0 := by
  unfold State.commitAux
  repeat' first
    | with_reducible assumption
    | with_reducible apply auxTransition_calm
    | with_reducible apply checkLimits_calm
    | with_reducible apply commitAuxEnable_calm
    | with_reducible apply commitAuxPass_calm
    | with_reducible apply homingStep_calm

theorem commitAuxs_calm {k0 : Still} {s : State} (h : s.Calm k0) (g : Grp) : (State.commitAuxs s g).Calm k0 := by
  unfold State.commitAuxs
  repeat' first
    | with_reducible assumption
    | (extract_lets +onlyGivenNames x
       have hx : State.Calm k0 x := by
        unfold x
        repeat' first
          | with_reducible assumption
          | with_reducible apply commitAux_calm
          | with_reducible apply foldl_calm
          | (intro z b hz; beta_reduce)
          | (extract_lets +onlyGivenNames y; clear_value y)
                | (extract_lets +onlyGivenNames y; subst y)
       clear_value x)
    | (extract_lets +onlyGivenNames x; clear_value x)
    | (extract_lets +onlyGivenNames x; subst x)
    | with_reducible apply commitAux_calm
    | with_reducible apply foldl_calm
    | (intro z b hz; beta_reduce)

end Sys2Proof.Machine.State
end

