-- ==== Sys2Proof/Laws/CalmMasking.lean ====
section
/-! SUPPORT. The operations and commands of Machine/Masking.lean that leave alone what Laws/Calm.lean names. -/

set_option Elab.async false

set_option linter.unusedTactic false
set_option linter.unreachableTactic false

namespace Sys2Proof.Machine.State

theorem finishSeen_calm {k0 : Still} {s : State} (h : s.Calm k0) (g : Grp) : (State.finishSeen s g).Calm k0 := by
  unfold State.finishSeen
  repeat' first
    | with_reducible assumption
    | with_reducible apply finish_calm
    | with_reducible apply foldl_calm
    | (intro z b hz; beta_reduce)
    | with_reducible apply ite_calm
    | split

theorem endMotionTickets_calm {k0 : Still} {s : State} (h : s.Calm k0) (g : Grp) (status : Nat) : (State.endMotionTickets s g status).Calm k0 := by
  unfold State.endMotionTickets
  repeat' first
    | with_reducible assumption
    | (extract_lets +onlyGivenNames x
       have hx : State.Calm k0 x := by
        unfold x
        repeat' first
          | with_reducible assumption
          | exact fun hm => hm
          | exact fun _ hq => hq
          | with_reducible apply dropTicket_calm
          | with_reducible apply finish_calm
          | with_reducible apply finishOpt_calm
          | with_reducible apply haltPath_calm
          | with_reducible apply modAux_calm
          | with_reducible apply modGroup_calm
          | with_reducible apply foldl_calm
          | (intro z b hz; beta_reduce)
          | split
          | (intro _ _; (try dsimp only); split)
          | (extract_lets +onlyGivenNames y; clear_value y)
                | (extract_lets +onlyGivenNames y; subst y)
       clear_value x)
    | (extract_lets +onlyGivenNames x; clear_value x)
    | (extract_lets +onlyGivenNames x; subst x)
    | exact fun hm => hm
    | exact fun _ hq => hq
    | with_reducible apply dropTicket_calm
    | with_reducible apply finish_calm
    | with_reducible apply finishOpt_calm
    | with_reducible apply haltPath_calm
    | with_reducible apply modAux_calm
    | with_reducible apply modGroup_calm
    | with_reducible apply foldl_calm
    | (intro z b hz; beta_reduce)
    | split
    | (intro _ _; (try dsimp only); split)

theorem clearTorque_calm {k0 : Still} {s : State} (h : s.Calm k0) (i : StoNo) : (State.clearTorque s i).Calm k0 := by
  unfold State.clearTorque
  repeat' first
    | with_reducible assumption
    | with_reducible apply modReq_calm

theorem clearReleases_calm {k0 : Still} {s : State} (h : s.Calm k0) (b : Fin 4) : (State.clearReleases s b).Calm k0 := by
  unfold State.clearReleases
  repeat' first
    | with_reducible assumption
    | with_reducible apply modComm_calm
    | with_reducible apply eachFin_calm
    | (intro z b hz; beta_reduce)
    | with_reducible apply ite_calm

theorem emergencyBrakes_calm {k0 : Still} {s : State} (h : s.Calm k0) (g : Grp) : (State.emergencyBrakes s g).Calm k0 := by
  unfold State.emergencyBrakes
  repeat' first
    | with_reducible assumption
    | (extract_lets +onlyGivenNames x
       have hx : State.Calm k0 x := by
        unfold x
        repeat' first
          | with_reducible assumption
          | exact fun hm => hm
          | exact fun _ hq => hq
          | with_reducible apply clearReleases_calm
          | with_reducible apply disableAux_calm
          | with_reducible apply disableMain_calm
          | with_reducible apply modGroup_calm
          | with_reducible apply foldl_calm
          | (intro z b hz; beta_reduce)
          | with_reducible apply ite_calm
          | split
          | (intro _ _; (try dsimp only); split)
          | (extract_lets +onlyGivenNames y; have : ∀ z : State, State.Calm k0 (y z) ∨ True := (fun _ => .inr trivial); clear this; subst y)
                | (extract_lets +onlyGivenNames y; have : ∀ (z : State) b, State.Calm k0 (y z b) ∨ True := (fun _ _ => .inr trivial); clear this; subst y)
                | (extract_lets +onlyGivenNames y; clear_value y)
                | (extract_lets +onlyGivenNames y; subst y)
       clear_value x)
    | (extract_lets +onlyGivenNames x; have : ∀ z : State, State.Calm k0 (x z) ∨ True := (fun _ => .inr trivial); clear this; subst x)
    | (extract_lets +onlyGivenNames x; have : ∀ (z : State) b, State.Calm k0 (x z b) ∨ True := (fun _ _ => .inr trivial); clear this; subst x)
    | (extract_lets +onlyGivenNames x; clear_value x)
    | (extract_lets +onlyGivenNames x; subst x)
    | exact fun hm => hm
    | exact fun _ hq => hq
    | with_reducible apply clearReleases_calm
    | with_reducible apply disableAux_calm
    | with_reducible apply disableMain_calm
    | with_reducible apply modGroup_calm
    | with_reducible apply foldl_calm
    | (intro z b hz; beta_reduce)
    | with_reducible apply ite_calm
    | split
    | (intro _ _; (try dsimp only); split)

theorem emergencyTorqueOff_calm {k0 : Still} {s : State} (h : s.Calm k0) (g : Grp) : (State.emergencyTorqueOff s g).Calm k0 := by
  unfold State.emergencyTorqueOff
  repeat' first
    | with_reducible assumption
    | exact fun hm => hm
    | exact fun _ hq => hq
    | with_reducible apply clearTorque_calm
    | with_reducible apply modGroup_calm
    | with_reducible apply foldl_calm
    | (intro z b hz; beta_reduce)

theorem emergencyWatch_calm {k0 : Still} {s : State} (h : s.Calm k0) (g : Grp) : (State.emergencyWatch s g).Calm k0 := by
  unfold State.emergencyWatch
  repeat' first
    | with_reducible assumption
    | (extract_lets +onlyGivenNames x
       have hx : State.Calm k0 x := by
        unfold x
        repeat' first
          | with_reducible assumption
          | exact fun hm => hm
          | exact fun _ hq => hq
          | with_reducible apply emergencyBrakes_calm
          | with_reducible apply emergencyTorqueOff_calm
          | with_reducible apply modGroup_calm
          | with_reducible apply ite_calm
          | (intro _ _; (try dsimp only); split)
          | (extract_lets +onlyGivenNames y; clear_value y)
                | (extract_lets +onlyGivenNames y; subst y)
       clear_value x)
    | (extract_lets +onlyGivenNames x; clear_value x)
    | (extract_lets +onlyGivenNames x; subst x)
    | exact fun hm => hm
    | exact fun _ hq => hq
    | with_reducible apply emergencyBrakes_calm
    | with_reducible apply emergencyTorqueOff_calm
    | with_reducible apply modGroup_calm
    | with_reducible apply ite_calm
    | (intro _ _; (try dsimp only); split)

theorem enterEmergency_calm {k0 : Still} {s : State} (h : s.Calm k0) (g : Grp) (cause : Nat) : (State.enterEmergency s g cause).Calm k0 := by
  unfold State.enterEmergency
  repeat' first
    | with_reducible assumption
    | (extract_lets +onlyGivenNames x
       have hx : State.Calm k0 x := by
        unfold x
        repeat' first
          | with_reducible assumption
          | exact fun hm => hm
          | exact fun _ hq => hq
          | with_reducible apply endMotionTickets_calm
          | with_reducible apply haltAll_calm
          | with_reducible apply logEvent_calm
          | with_reducible apply modGroup_calm
          | with_reducible apply ite_calm
          | (intro _ _; (try dsimp only); split)
          | (extract_lets +onlyGivenNames y; clear_value y)
                | (extract_lets +onlyGivenNames y; subst y)
       clear_value x)
    | (extract_lets +onlyGivenNames x; clear_value x)
    | (extract_lets +onlyGivenNames x; subst x)
    | exact fun hm => hm
    | exact fun _ hq => hq
    | with_reducible apply endMotionTickets_calm
    | with_reducible apply haltAll_calm
    | with_reducible apply logEvent_calm
    | with_reducible apply modGroup_calm
    | with_reducible apply ite_calm
    | (intro _ _; (try dsimp only); split)

theorem takeEmergency_calm {k0 : Still} {s : State} (h : s.Calm k0) (g : Grp) : (State.takeEmergency s g).Calm k0 := by
  unfold State.takeEmergency
  repeat' first
    | with_reducible assumption
    | exact fun hm => hm
    | exact fun _ hq => hq
    | with_reducible apply enterEmergency_calm
    | with_reducible apply modGroup_calm
    | split
    | (intro _ _; (try dsimp only); split)

theorem askEmergency_calm {k0 : Still} {s : State} (h : s.Calm k0) (g : Grp) (cause : Nat) : (State.askEmergency s g cause).Calm k0 := by
  unfold State.askEmergency
  repeat' first
    | with_reducible assumption
    | exact fun hm => hm
    | exact fun _ hq => hq
    | with_reducible apply modGroup_calm
    | with_reducible apply ite_calm
    | (intro _ _; (try dsimp only); split)

theorem execEmergencySs1TimeElapsed_calm {k0 : Still} {s : State} (h : s.Calm k0) (g : Grp) :
    OutCalm k0 (State.execEmergencySs1TimeElapsed g s) := by
  unfold State.execEmergencySs1TimeElapsed
  show State.Calm k0 _
  repeat' first
    | with_reducible assumption
    | (extract_lets +onlyGivenNames x
       have hx : State.Calm k0 x := by
        unfold x
        repeat' first
          | with_reducible assumption
          | with_reducible apply emergencyBrakes_calm
          | with_reducible apply ite_calm
          | (extract_lets +onlyGivenNames y; clear_value y)
                | (extract_lets +onlyGivenNames y; subst y)
       clear_value x)
    | (extract_lets +onlyGivenNames x; clear_value x)
    | (extract_lets +onlyGivenNames x; subst x)
    | with_reducible apply emergencyBrakes_calm
    | with_reducible apply ite_calm

theorem execEmergencyBrakeWaitExpiry_calm {k0 : Still} {s : State} (h : s.Calm k0) (g : Grp) :
    OutCalm k0 (State.execEmergencyBrakeWaitExpiry g s) := by
  unfold State.execEmergencyBrakeWaitExpiry
  show State.Calm k0 _
  repeat' first
    | with_reducible assumption
    | (extract_lets +onlyGivenNames x
       have hx : State.Calm k0 x := by
        unfold x
        repeat' first
          | with_reducible assumption
          | with_reducible apply emergencyTorqueOff_calm
          | with_reducible apply ite_calm
          | (extract_lets +onlyGivenNames y; clear_value y)
                | (extract_lets +onlyGivenNames y; subst y)
       clear_value x)
    | (extract_lets +onlyGivenNames x; clear_value x)
    | (extract_lets +onlyGivenNames x; subst x)
    | with_reducible apply emergencyTorqueOff_calm
    | with_reducible apply ite_calm

theorem stopGroup_calm {k0 : Still} {s : State} (h : s.Calm k0) (g : Grp) : (State.stopGroup s g).Calm k0 := by
  unfold State.stopGroup
  repeat' first
    | with_reducible assumption
    | (extract_lets +onlyGivenNames x
       have hx : State.Calm k0 x := by
        unfold x
        repeat' first
          | with_reducible assumption
          | exact fun hm => hm
          | exact fun _ hq => hq
          | with_reducible apply endMotionTickets_calm
          | with_reducible apply finishOpt_calm
          | with_reducible apply finishSeen_calm
          | with_reducible apply gatesOff_calm
          | with_reducible apply modEng_calm
          | with_reducible apply modGroup_calm
          | with_reducible apply running_calm
          | with_reducible apply foldl_calm
          | (intro z b hz; beta_reduce)
          | split
          | (extract_lets +onlyGivenNames y; clear_value y)
                | (extract_lets +onlyGivenNames y; subst y)
       clear_value x)
    | (extract_lets +onlyGivenNames x; clear_value x)
    | (extract_lets +onlyGivenNames x; subst x)
    | exact fun hm => hm
    | exact fun _ hq => hq
    | with_reducible apply endMotionTickets_calm
    | with_reducible apply finishOpt_calm
    | with_reducible apply finishSeen_calm
    | with_reducible apply gatesOff_calm
    | with_reducible apply modEng_calm
    | with_reducible apply modGroup_calm
    | with_reducible apply running_calm
    | with_reducible apply foldl_calm
    | (intro z b hz; beta_reduce)
    | split

theorem checkStop_calm {k0 : Still} {s : State} (h : s.Calm k0) (g : Grp) : (State.checkStop s g).Calm k0 := by
  unfold State.checkStop
  repeat' first
    | with_reducible assumption
    | (extract_lets +onlyGivenNames x
       have hx : State.Calm k0 x := by
        unfold x
        repeat' first
          | with_reducible assumption
          | with_reducible apply stopGroup_calm
          | with_reducible apply ite_calm
          | (extract_lets +onlyGivenNames y; clear_value y)
                | (extract_lets +onlyGivenNames y; subst y)
       clear_value x)
    | (extract_lets +onlyGivenNames x; clear_value x)
    | (extract_lets +onlyGivenNames x; subst x)
    | with_reducible apply stopGroup_calm
    | with_reducible apply ite_calm

theorem computeLost_calm {k0 : Still} {s : State} (h : s.Calm k0)  : (State.computeLost s).Calm k0 := by
  unfold State.computeLost
  repeat' first
    | with_reducible assumption
    | with_reducible apply logEvent_calm
    | with_reducible apply ite_calm
    | exact rfl
    | with_reducible apply mk_calm

theorem loseGroup_calm {k0 : Still} {s : State} (h : s.Calm k0) (g : Grp) : (State.loseGroup s g).Calm k0 := by
  unfold State.loseGroup
  repeat' first
    | with_reducible assumption
    | (extract_lets +onlyGivenNames x
       have hx : State.Calm k0 x := by
        unfold x
        repeat' first
          | with_reducible assumption
          | with_reducible apply checkStop_calm
          | with_reducible apply disableAux_calm
          | with_reducible apply disableMain_calm
          | with_reducible apply endMotionTickets_calm
          | with_reducible apply enterRest_calm
          | with_reducible apply gatesOff_calm
          | with_reducible apply leaveAux_calm
          | with_reducible apply modComm_calm
          | with_reducible apply setRelease_calm
          | with_reducible apply foldl_calm
          | (intro z b hz; beta_reduce)
          | with_reducible apply ite_calm
          | (extract_lets +onlyGivenNames y; clear_value y)
                | (extract_lets +onlyGivenNames y; subst y)
       clear_value x)
    | (extract_lets +onlyGivenNames x; clear_value x)
    | (extract_lets +onlyGivenNames x; subst x)
    | with_reducible apply checkStop_calm
    | with_reducible apply disableAux_calm
    | with_reducible apply disableMain_calm
    | with_reducible apply endMotionTickets_calm
    | with_reducible apply enterRest_calm
    | with_reducible apply gatesOff_calm
    | with_reducible apply leaveAux_calm
    | with_reducible apply modComm_calm
    | with_reducible apply setRelease_calm
    | with_reducible apply foldl_calm
    | (intro z b hz; beta_reduce)
    | with_reducible apply ite_calm

theorem loseTorque_calm {k0 : Still} {s : State} (h : s.Calm k0)  : (State.loseTorque s).Calm k0 := by
  unfold State.loseTorque
  repeat' first
    | with_reducible assumption
    | with_reducible apply clearTorque_calm
    | with_reducible apply eachFin_calm
    | (intro z b hz; beta_reduce)
    | with_reducible apply ite_calm

theorem execComputeLostBrakeWindowExpiry_calm {k0 : Still} {s : State} (h : s.Calm k0)  :
    OutCalm k0 (State.execComputeLostBrakeWindowExpiry s) := by
  unfold State.execComputeLostBrakeWindowExpiry
  show State.Calm k0 _
  repeat' first
    | with_reducible assumption
    | (extract_lets +onlyGivenNames x
       have hx : State.Calm k0 x := by
        unfold x
        repeat' first
          | with_reducible assumption
          | with_reducible apply clearTorque_calm
          | with_reducible apply enterRest_calm
          | with_reducible apply gatesOff_calm
          | with_reducible apply stopGroup_calm
          | with_reducible apply foldl_calm
          | with_reducible apply eachFin_calm
          | (intro z b hz; beta_reduce)
          | with_reducible apply ite_calm
          | (extract_lets +onlyGivenNames y; clear_value y)
                | (extract_lets +onlyGivenNames y; subst y)
       clear_value x)
    | (extract_lets +onlyGivenNames x; clear_value x)
    | (extract_lets +onlyGivenNames x; subst x)
    | with_reducible apply clearTorque_calm
    | with_reducible apply enterRest_calm
    | with_reducible apply gatesOff_calm
    | with_reducible apply stopGroup_calm
    | with_reducible apply foldl_calm
    | with_reducible apply eachFin_calm
    | (intro z b hz; beta_reduce)
    | with_reducible apply ite_calm

theorem retire_calm {k0 : Still} {s : State} (h : s.Calm k0) (e : EngineId) : (State.retire s e).Calm k0 := by
  unfold State.retire
  repeat' first
    | with_reducible assumption
    | (extract_lets +onlyGivenNames x
       have hx : State.Calm k0 x := by
        unfold x
        repeat' first
          | with_reducible assumption
          | with_reducible apply logEvent_calm
          | split
          | exact rfl
          | (extract_lets +onlyGivenNames y; subst y)
          | with_reducible apply mk_calm
       clear_value x)
    | (extract_lets +onlyGivenNames x; subst x)
    | with_reducible apply logEvent_calm
    | split
    | exact rfl
    | with_reducible apply mk_calm

theorem disarmEng_calm {k0 : Still} {s : State} (h : s.Calm k0)  : (State.disarmEng s).Calm k0 := by
  unfold State.disarmEng
  repeat' first
    | with_reducible assumption
    | with_reducible apply modTest_calm

theorem execCheckSetDone_calm {k0 : Still} {s : State} (h : s.Calm k0) (passA : Bool) (passB : Bool) :
    OutCalm k0 (State.execCheckSetDone passA passB s) := by
  unfold State.execCheckSetDone
  show State.Calm k0 _
  repeat' first
    | with_reducible assumption
    | (extract_lets +onlyGivenNames x
       have hx : State.Calm k0 x := by
        unfold x
        repeat' first
          | with_reducible assumption
          | with_reducible apply computeLost_calm
          | with_reducible apply disarmEng_calm
          | with_reducible apply logEvent_calm
          | with_reducible apply retire_calm
          | with_reducible apply startSegment_calm
          | with_reducible apply ite_calm
          | split
          | exact rfl
          | (extract_lets +onlyGivenNames y; subst y)
          | with_reducible apply mk_calm
       clear_value x)
    | (extract_lets +onlyGivenNames x; subst x)
    | with_reducible apply computeLost_calm
    | with_reducible apply disarmEng_calm
    | with_reducible apply logEvent_calm
    | with_reducible apply retire_calm
    | with_reducible apply startSegment_calm
    | with_reducible apply ite_calm
    | split
    | exact rfl
    | with_reducible apply mk_calm

theorem execClusterCheckSetStart_calm {k0 : Still} {s : State} (h : s.Calm k0)  :
    OutCalm k0 (State.execClusterCheckSetStart s) := by
  unfold State.execClusterCheckSetStart
  show State.Calm k0 _
  repeat' first
    | with_reducible assumption
    | with_reducible apply ite_calm
    | exact rfl
    | with_reducible apply mk_calm

theorem execRegionCrcCheckDone_calm {k0 : Still} {s : State} (h : s.Calm k0)  :
    OutCalm k0 (State.execRegionCrcCheckDone s) := by
  unfold State.execRegionCrcCheckDone
  show State.Calm k0 _
  repeat' first
    | with_reducible assumption
    | (extract_lets +onlyGivenNames x
       have hx : State.Calm k0 x := by
        unfold x
        repeat' first
          | with_reducible assumption
          | with_reducible apply askEmergency_calm
          | with_reducible apply eachFin_calm
          | (intro z b hz; beta_reduce)
          | with_reducible apply ite_calm
          | exact rfl
          | (extract_lets +onlyGivenNames y; subst y)
          | with_reducible apply mk_calm
       clear_value x)
    | (extract_lets +onlyGivenNames x; subst x)
    | with_reducible apply askEmergency_calm
    | with_reducible apply eachFin_calm
    | (intro z b hz; beta_reduce)
    | with_reducible apply ite_calm
    | exact rfl
    | with_reducible apply mk_calm

theorem copyWords_calm {k0 : Still} {s : State} (h : s.Calm k0) (toA : Bool) (addrs : List (Fin 16384)) : (State.copyWords s toA addrs).Calm k0 := by
  unfold State.copyWords
  repeat' first
    | with_reducible assumption
    | (extract_lets +onlyGivenNames x
       have hx : State.Calm k0 x := by
        unfold x
        repeat' first
          | with_reducible assumption
          | with_reducible apply logEvent_calm
          | with_reducible apply foldl_calm
          | (intro z b hz; beta_reduce)
          | with_reducible apply ite_calm
          | exact rfl
          | (extract_lets +onlyGivenNames y; subst y)
          | with_reducible apply mk_calm
       clear_value x)
    | (extract_lets +onlyGivenNames x; subst x)
    | with_reducible apply logEvent_calm
    | with_reducible apply foldl_calm
    | (intro z b hz; beta_reduce)
    | with_reducible apply ite_calm
    | exact rfl
    | with_reducible apply mk_calm

theorem loseWords_calm {k0 : Still} {s : State} (h : s.Calm k0) (g : Grp) (addrs : List (Fin 16384)) : (State.loseWords s g addrs).Calm k0 := by
  unfold State.loseWords
  repeat' first
    | with_reducible assumption
    | (extract_lets +onlyGivenNames x
       have hx : State.Calm k0 x := by
        unfold x
        repeat' first
          | with_reducible assumption
          | with_reducible apply askEmergency_calm
          | with_reducible apply logEvent_calm
          | with_reducible apply foldl_calm
          | (intro z b hz; beta_reduce)
          | with_reducible apply ite_calm
          | exact rfl
          | (extract_lets +onlyGivenNames y; subst y)
          | with_reducible apply mk_calm
       clear_value x)
    | (extract_lets +onlyGivenNames x; subst x)
    | with_reducible apply askEmergency_calm
    | with_reducible apply logEvent_calm
    | with_reducible apply foldl_calm
    | (intro z b hz; beta_reduce)
    | with_reducible apply ite_calm
    | exact rfl
    | with_reducible apply mk_calm

end Sys2Proof.Machine.State
end

