-- ==== Sys2Proof/Laws/CalmGroupStart.lean ====
section
/-! SUPPORT. The operations and commands of Machine/GroupStart.lean that leave alone what Laws/Calm.lean names. -/

set_option Elab.async false

set_option linter.unusedTactic false
set_option linter.unreachableTactic false

namespace Sys2Proof.Machine.State

theorem beginMain_calm {k0 : Still} {s : State} (h : s.Calm k0) (g : Grp) (m : Main) : (State.beginMain s g m).Calm k0 := by
  unfold State.beginMain
  repeat' first
    | with_reducible assumption
    | (extract_lets +onlyGivenNames x
       have hx : State.Calm k0 x := by
        unfold x
        repeat' first
          | with_reducible assumption
          | with_reducible apply modMain_calm
          | with_reducible apply ite_calm
          | (extract_lets +onlyGivenNames y; clear_value y)
                | (extract_lets +onlyGivenNames y; subst y)
       clear_value x)
    | (extract_lets +onlyGivenNames x; clear_value x)
    | (extract_lets +onlyGivenNames x; subst x)
    | with_reducible apply modMain_calm
    | with_reducible apply ite_calm

theorem beginLink_calm {k0 : Still} {s : State} (h : s.Calm k0) (g : Grp) (l : LinkNo) : (State.beginLink s g l).Calm k0 := by
  unfold State.beginLink
  repeat' first
    | with_reducible assumption
    | with_reducible apply modLink_calm
    | with_reducible apply ite_calm

theorem beginGroup_calm {k0 : Still} {s : State} (h : s.Calm k0) (g : Grp) : (State.beginGroup s g).Calm k0 := by
  unfold State.beginGroup
  repeat' first
    | with_reducible assumption
    | (extract_lets +onlyGivenNames x
       have hx : State.Calm k0 x := by
        unfold x
        repeat' first
          | with_reducible assumption
          | exact fun hm => hm
          | exact fun _ hq => hq
          | with_reducible apply beginLink_calm
          | with_reducible apply beginMain_calm
          | with_reducible apply leaveDrum_calm
          | with_reducible apply modGroup_calm
          | with_reducible apply running_calm
          | with_reducible apply foldl_calm
          | with_reducible apply eachFin_calm
          | (intro z b hz; beta_reduce)
          | (extract_lets +onlyGivenNames y; clear_value y)
                | (extract_lets +onlyGivenNames y; subst y)
       clear_value x)
    | (extract_lets +onlyGivenNames x; clear_value x)
    | (extract_lets +onlyGivenNames x; subst x)
    | exact fun hm => hm
    | exact fun _ hq => hq
    | with_reducible apply beginLink_calm
    | with_reducible apply beginMain_calm
    | with_reducible apply leaveDrum_calm
    | with_reducible apply modGroup_calm
    | with_reducible apply running_calm
    | with_reducible apply foldl_calm
    | with_reducible apply eachFin_calm
    | (intro z b hz; beta_reduce)

theorem refuseStart_calm {k0 : Still} {s : State} (h : s.Calm k0) (g : Grp) (status : Nat) : (State.refuseStart s g status).Calm k0 := by
  unfold State.refuseStart
  repeat' first
    | with_reducible assumption
    | (extract_lets +onlyGivenNames x
       have hx : State.Calm k0 x := by
        unfold x
        repeat' first
          | with_reducible assumption
          | exact fun hm => hm
          | exact fun _ hq => hq
          | with_reducible apply finishOpt_calm
          | with_reducible apply modAux_calm
          | with_reducible apply modGroup_calm
          | with_reducible apply modMain_calm
          | with_reducible apply foldl_calm
          | (intro z b hz; beta_reduce)
          | split
          | (extract_lets +onlyGivenNames y; clear_value y)
                | (extract_lets +onlyGivenNames y; subst y)
       clear_value x)
    | (extract_lets +onlyGivenNames x; clear_value x)
    | (extract_lets +onlyGivenNames x; subst x)
    | exact fun hm => hm
    | exact fun _ hq => hq
    | with_reducible apply finishOpt_calm
    | with_reducible apply modAux_calm
    | with_reducible apply modGroup_calm
    | with_reducible apply modMain_calm
    | with_reducible apply foldl_calm
    | (intro z b hz; beta_reduce)
    | split

theorem tryStart_calm {k0 : Still} {s : State} (h : s.Calm k0) (g : Grp) : (State.tryStart s g).Calm k0 := by
  unfold State.tryStart
  repeat' first
    | with_reducible assumption
    | (extract_lets +onlyGivenNames x
       have hx : State.Calm k0 x := by
        unfold x
        repeat' first
          | with_reducible assumption
          | exact fun hm => hm
          | exact fun _ hq => hq
          | with_reducible apply beginGroup_calm
          | with_reducible apply modGroup_calm
          | with_reducible apply refuseStart_calm
          | with_reducible apply ite_calm
          | split
          | (intro _ _; (try dsimp only); split)
          | (extract_lets +onlyGivenNames y; clear_value y)
                | (extract_lets +onlyGivenNames y; subst y)
       clear_value x)
    | (extract_lets +onlyGivenNames x; clear_value x)
    | (extract_lets +onlyGivenNames x; subst x)
    | exact fun hm => hm
    | exact fun _ hq => hq
    | with_reducible apply beginGroup_calm
    | with_reducible apply modGroup_calm
    | with_reducible apply refuseStart_calm
    | with_reducible apply ite_calm
    | split
    | (intro _ _; (try dsimp only); split)

theorem execSpanStartTick_calm {k0 : Still} {s : State} (h : s.Calm k0) (g : Grp) :
    OutCalm k0 (State.execSpanStartTick g s) := by
  unfold State.execSpanStartTick
  show State.Calm k0 _
  repeat' first
    | with_reducible assumption
    | (extract_lets +onlyGivenNames x
       have hx : State.Calm k0 x := by
        unfold x
        repeat' first
          | with_reducible assumption
          | exact fun hm => hm
          | exact fun _ hq => hq
          | with_reducible apply beginGroup_calm
          | with_reducible apply modGroup_calm
          | with_reducible apply running_calm
          | with_reducible apply ite_calm
          | (intro _ _; (try dsimp only); split)
          | (extract_lets +onlyGivenNames y; clear_value y)
                | (extract_lets +onlyGivenNames y; subst y)
       clear_value x)
    | (extract_lets +onlyGivenNames x; clear_value x)
    | (extract_lets +onlyGivenNames x; subst x)
    | exact fun hm => hm
    | exact fun _ hq => hq
    | with_reducible apply beginGroup_calm
    | with_reducible apply modGroup_calm
    | with_reducible apply running_calm
    | with_reducible apply ite_calm
    | (intro _ _; (try dsimp only); split)

end Sys2Proof.Machine.State
end

