-- ==== Sys2Proof/Laws/CalmSafetyChannel.lean ====
section
/-! SUPPORT. The operations and commands of Machine/SafetyChannel.lean that leave alone what Laws/Calm.lean names. -/

set_option Elab.async false

set_option linter.unusedTactic false
set_option linter.unreachableTactic false

namespace Sys2Proof.Machine.State

theorem execSafetyStatusWrite_calm {k0 : Still} {s : State} (h : s.Calm k0)  :
    OutCalm k0 (State.execSafetyStatusWrite s) := by
  unfold State.execSafetyStatusWrite
  show State.Calm k0 _
  repeat' first
    | with_reducible assumption
    | with_reducible apply modReq_calm

end Sys2Proof.Machine.State
end

