-- ==== Sys2Proof/Laws/CalmMailbox.lean ====
section
/-! SUPPORT. The operations and commands of Machine/Mailbox.lean that leave alone what Laws/Calm.lean names. -/

set_option Elab.async false

set_option linter.unusedTactic false
set_option linter.unreachableTactic false

namespace Sys2Proof.Machine.State

theorem modSlot_calm {k0 : Still} {s : State} (h : s.Calm k0) (i : Fin 16) (f : Slot → Slot) : (State.modSlot s i f).Calm k0 := by
  unfold State.modSlot
  repeat' first
    | with_reducible assumption
    | exact fun hm => hm
    | exact fun _ hq => hq
    | with_reducible apply modMail_calm

theorem mbxErr_calm {k0 : Still} {s : State} (h : s.Calm k0) (bit : Nat) : (State.mbxErr s bit).Calm k0 := by
  unfold State.mbxErr
  repeat' first
    | with_reducible assumption
    | exact fun hm => hm
    | exact fun _ hq => hq
    | with_reducible apply modMail_calm
    | split

theorem slotReply_calm {k0 : Still} {s : State} (h : s.Calm k0) (i : Fin 16) (ws : List Word) (past : Bool) (notice : Bool) : (State.slotReply s i ws past notice).Calm k0 := by
  unfold State.slotReply
  repeat' first
    | with_reducible assumption
    | exact fun hm => hm
    | exact fun _ hq => hq
    | with_reducible apply modMail_calm
    | with_reducible apply modSlot_calm
    | with_reducible apply ite_calm
    | split
    | (intro _ _; (try dsimp only); split)

theorem detachSlot_calm {k0 : Still} {s : State} (h : s.Calm k0) (i : Fin 16) : (State.detachSlot s i).Calm k0 := by
  unfold State.detachSlot
  repeat' first
    | with_reducible assumption
    | (extract_lets +onlyGivenNames x
       have hx : State.Calm k0 x := by
        unfold x
        repeat' first
          | with_reducible assumption
          | exact fun hm => hm
          | exact fun _ hq => hq
          | with_reducible apply modMail_calm
          | with_reducible apply ite_calm
          | split
          | (intro _ _; (try dsimp only); split)
          | (extract_lets +onlyGivenNames y; clear_value y)
                | (extract_lets +onlyGivenNames y; subst y)
       clear_value x)
    | (extract_lets +onlyGivenNames x; clear_value x)
    | (extract_lets +onlyGivenNames x; subst x)
    | exact fun hm => hm
    | exact fun _ hq => hq
    | with_reducible apply modMail_calm
    | with_reducible apply ite_calm
    | split
    | (intro _ _; (try dsimp only); split)

theorem releaseSlot_calm {k0 : Still} {s : State} (h : s.Calm k0) (i : Fin 16) : (State.releaseSlot s i).Calm k0 := by
  unfold State.releaseSlot
  repeat' first
    | with_reducible assumption
    | (extract_lets +onlyGivenNames x
       have hx : State.Calm k0 x := by
        unfold x
        repeat' first
          | with_reducible assumption
          | exact fun hm => hm
          | exact fun _ hq => hq
          | with_reducible apply detachSlot_calm
          | with_reducible apply mbxErr_calm
          | with_reducible apply modMail_calm
          | with_reducible apply modSlot_calm
          | with_reducible apply ite_calm
          | split
          | (intro _ _; (try dsimp only); split)
          | (extract_lets +onlyGivenNames y; have : ∀ z : State, State.Calm k0 (y z) ∨ True := (fun _ => .inr trivial); clear this; subst y)
                | (extract_lets +onlyGivenNames y; have : ∀ (z : State) b, State.Calm k0 (y z b) ∨ True := (fun _ _ => .inr trivial); clear this; subst y)
                | (extract_lets +onlyGivenNames y; clear_value y)
                | (extract_lets +onlyGivenNames y; subst y)
       clear_value x)
    | (extract_lets +onlyGivenNames x; have : ∀ z : State, State.Calm k0 (x z) ∨ True := (fun _ => .inr trivial); clear this; subst x)
    | (extract_lets +onlyGivenNames x; have : ∀ (z : State) b, State.Calm k0 (x z b) ∨ True := (fun _ _ => .inr trivial); clear this; subst x)
    | (extract_lets +onlyGivenNames x; clear_value x)
    | (extract_lets +onlyGivenNames x; subst x)
    | exact fun hm => hm
    | exact fun _ hq => hq
    | with_reducible apply detachSlot_calm
    | with_reducible apply mbxErr_calm
    | with_reducible apply modMail_calm
    | with_reducible apply modSlot_calm
    | with_reducible apply ite_calm
    | split
    | (intro _ _; (try dsimp only); split)

theorem releaseSlots_calm {k0 : Still} {s : State} (h : s.Calm k0) (mask : Nat) : (State.releaseSlots s mask).Calm k0 := by
  unfold State.releaseSlots
  repeat' first
    | with_reducible assumption
    | with_reducible apply releaseSlot_calm
    | with_reducible apply foldl_calm
    | (intro z b hz; beta_reduce)

theorem answerSlot_calm {k0 : Still} {s : State} (h : s.Calm k0) (i : Fin 16) (status : Nat) : (State.answerSlot s i status).Calm k0 := by
  unfold State.answerSlot
  repeat' first
    | with_reducible assumption
    | (extract_lets +onlyGivenNames x
       have hx : State.Calm k0 x := by
        unfold x
        repeat' first
          | with_reducible assumption
          | with_reducible apply slotReply_calm
          | (extract_lets +onlyGivenNames y; clear_value y)
                | (extract_lets +onlyGivenNames y; subst y)
       clear_value x)
    | (extract_lets +onlyGivenNames x; clear_value x)
    | (extract_lets +onlyGivenNames x; subst x)
    | with_reducible apply slotReply_calm

theorem ringDoorbell_calm {k0 : Still} {s : State} (h : s.Calm k0) (mask : Nat) : (State.ringDoorbell s mask).Calm k0 := by
  unfold State.ringDoorbell
  repeat' first
    | with_reducible assumption
    | exact fun hm => hm
    | exact fun _ hq => hq
    | with_reducible apply answerSlot_calm
    | with_reducible apply mbxErr_calm
    | with_reducible apply modMail_calm
    | with_reducible apply modSlot_calm
    | with_reducible apply foldl_calm
    | (intro z b hz; beta_reduce)
    | with_reducible apply ite_calm
    | (intro _ _; (try dsimp only); split)

theorem execMbxDoorbell_calm {k0 : Still} {s : State} (h : s.Calm k0) (slots : BitVec 16) :
    OutCalm k0 (State.execMbxDoorbell slots s) := by
  unfold State.execMbxDoorbell
  show State.Calm k0 _
  repeat' first
    | with_reducible assumption
    | with_reducible apply mbxErr_calm
    | with_reducible apply ringDoorbell_calm
    | with_reducible apply ite_calm

theorem execMbxRelease_calm {k0 : Still} {s : State} (h : s.Calm k0) (slots : BitVec 16) :
    OutCalm k0 (State.execMbxRelease slots s) := by
  unfold State.execMbxRelease
  show State.Calm k0 _
  repeat' first
    | with_reducible assumption
    | with_reducible apply releaseSlots_calm
    | with_reducible apply ite_calm

theorem execMbxCplack_calm {k0 : Still} {s : State} (h : s.Calm k0) (n : BitVec 6) :
    OutCalm k0 (State.execMbxCplack n s) := by
  unfold State.execMbxCplack
  show State.Calm k0 _
  repeat' first
    | with_reducible assumption
    | exact fun hm => hm
    | exact fun _ hq => hq
    | with_reducible apply modMail_calm
    | with_reducible apply ite_calm
    | (intro _ _; (try dsimp only); split)

theorem execSlotTaken_calm {k0 : Still} {s : State} (h : s.Calm k0)  :
    OutCalm k0 (State.execSlotTaken s) := by
  unfold State.execSlotTaken
  show State.Calm k0 _
  repeat' first
    | with_reducible assumption
    | (extract_lets +onlyGivenNames x
       have hx : State.Calm k0 x := by
        unfold x
        repeat' first
          | with_reducible assumption
          | exact fun hm => hm
          | exact fun _ hq => hq
          | with_reducible apply answerSlot_calm
          | with_reducible apply modMail_calm
          | with_reducible apply modSlot_calm
          | with_reducible apply ite_calm
          | split
          | (intro _ _; (try dsimp only); split)
          | (extract_lets +onlyGivenNames y; clear_value y)
                | (extract_lets +onlyGivenNames y; subst y)
       clear_value x)
    | (extract_lets +onlyGivenNames x; clear_value x)
    | (extract_lets +onlyGivenNames x; subst x)
    | exact fun hm => hm
    | exact fun _ hq => hq
    | with_reducible apply answerSlot_calm
    | with_reducible apply modMail_calm
    | with_reducible apply modSlot_calm
    | with_reducible apply ite_calm
    | split
    | (intro _ _; (try dsimp only); split)

theorem issue_calm {k0 : Still} {s : State} (h : s.Calm k0) (x : Sentence) (o : Origin) : (State.issue s x o).Calm k0 := by
  unfold State.issue
  repeat' first
    | with_reducible assumption
    | (extract_lets +onlyGivenNames x
       have hx : State.Calm k0 x := by
        unfold x
        repeat' first
          | with_reducible assumption
          | exact fun hm => hm
          | exact fun _ hq => hq
          | with_reducible apply AState.num_calm
          | with_reducible apply CState.num_calm
          | with_reducible apply SState.num_calm
          | with_reducible apply SlotState.num_calm
          | with_reducible apply TxState.num_calm
          | with_reducible apply YState.num_calm
          | with_reducible apply emit_calm
          | with_reducible apply finish_calm
          | with_reducible apply modMail_calm
          | with_reducible apply ite_calm
          | split
          | (intro _ _; (try dsimp only); split)
          | (extract_lets +onlyGivenNames y; clear_value y)
                | (extract_lets +onlyGivenNames y; subst y)
       clear_value x)
    | (extract_lets +onlyGivenNames x; clear_value x)
    | (extract_lets +onlyGivenNames x; subst x)
    | exact fun hm => hm
    | exact fun _ hq => hq
    | with_reducible apply AState.num_calm
    | with_reducible apply CState.num_calm
    | with_reducible apply SState.num_calm
    | with_reducible apply SlotState.num_calm
    | with_reducible apply TxState.num_calm
    | with_reducible apply YState.num_calm
    | with_reducible apply emit_calm
    | with_reducible apply finish_calm
    | with_reducible apply modMail_calm
    | with_reducible apply ite_calm
    | split
    | (intro _ _; (try dsimp only); split)

theorem execSentenceTaken_calm {k0 : Still} {s : State} (h : s.Calm k0)  :
    OutCalm k0 (State.execSentenceTaken s) := by
  unfold State.execSentenceTaken
  show State.Calm k0 _
  repeat' first
    | with_reducible assumption
    | (extract_lets +onlyGivenNames x
       have hx : State.Calm k0 x := by
        unfold x
        repeat' first
          | with_reducible assumption
          | exact fun hm => hm
          | exact fun _ hq => hq
          | with_reducible apply emit_calm
          | with_reducible apply issue_calm
          | with_reducible apply modMail_calm
          | with_reducible apply ite_calm
          | split
          | (intro _ _; (try dsimp only); split)
          | (extract_lets +onlyGivenNames y; clear_value y)
                | (extract_lets +onlyGivenNames y; subst y)
       clear_value x)
    | (extract_lets +onlyGivenNames x; clear_value x)
    | (extract_lets +onlyGivenNames x; subst x)
    | exact fun hm => hm
    | exact fun _ hq => hq
    | with_reducible apply emit_calm
    | with_reducible apply issue_calm
    | with_reducible apply modMail_calm
    | with_reducible apply ite_calm
    | split
    | (intro _ _; (try dsimp only); split)

theorem execSentenceTakeUp_calm {k0 : Still} {s : State} (h : s.Calm k0) (t : BitVec 16) :
    OutCalm k0 (State.execSentenceTakeUp t s) := by
  unfold State.execSentenceTakeUp
  show State.Calm k0 _
  repeat' first
    | with_reducible assumption
    | exact fun _ hk => hk
    | exact fun _ => rfl
    | with_reducible apply AState.num_calm
    | with_reducible apply CState.num_calm
    | with_reducible apply SState.num_calm
    | with_reducible apply SlotState.num_calm
    | with_reducible apply TxState.num_calm
    | with_reducible apply YState.num_calm
    | with_reducible apply finish_calm
    | with_reducible apply modTicket_calm
    | with_reducible apply ite_calm
    | split

end Sys2Proof.Machine.State
end

