-- ==== Sys2Proof/Laws/CalmCan.lean ====
section
/-! SUPPORT. The operations and commands of Machine/Can.lean that leave alone what Laws/Calm.lean names. -/

set_option Elab.async false

set_option linter.unusedTactic false
set_option linter.unreachableTactic false

namespace Sys2Proof.Machine.State

theorem writeMode_calm {k0 : Still} {s : State} (h : s.Calm k0) (p : Port) (v : Nat) : (State.writeMode s p v).Calm k0 := by
  unfold State.writeMode
  repeat' first
    | with_reducible assumption
    | (extract_lets +onlyGivenNames x
       have hx : State.Calm k0 x := by
        unfold x
        repeat' first
          | with_reducible assumption
          | with_reducible apply modPort_calm
          | with_reducible apply ite_calm
          | split
          | (extract_lets +onlyGivenNames y; clear_value y)
                | (extract_lets +onlyGivenNames y; subst y)
       clear_value x)
    | (extract_lets +onlyGivenNames x; clear_value x)
    | (extract_lets +onlyGivenNames x; subst x)
    | with_reducible apply modPort_calm
    | with_reducible apply ite_calm
    | split

theorem execBusModeWrite_calm {k0 : Still} {s : State} (h : s.Calm k0) (p : Port) (mode : BitVec 3) :
    OutCalm k0 (State.execBusModeWrite p mode s) := by
  unfold State.execBusModeWrite
  show State.Calm k0 _
  repeat' first
    | with_reducible assumption
    | with_reducible apply otherFrame_calm
    | with_reducible apply writeMode_calm
    | with_reducible apply ite_calm

theorem startRecovery_calm {k0 : Still} {s : State} (h : s.Calm k0) (p : Port) : (State.startRecovery s p).Calm k0 := by
  unfold State.startRecovery
  repeat' first
    | with_reducible assumption
    | with_reducible apply modPort_calm
    | with_reducible apply ite_calm

theorem execRecover_calm {k0 : Still} {s : State} (h : s.Calm k0) (p : Port) :
    OutCalm k0 (State.execRecover p s) := by
  unfold State.execRecover
  show State.Calm k0 _
  repeat' first
    | with_reducible assumption
    | with_reducible apply otherFrame_calm
    | with_reducible apply startRecovery_calm
    | with_reducible apply ite_calm

theorem execCanBusIntegration_calm {k0 : Still} {s : State} (h : s.Calm k0) (p : Port) :
    OutCalm k0 (State.execCanBusIntegration p s) := by
  unfold State.execCanBusIntegration
  show State.Calm k0 _
  repeat' first
    | with_reducible assumption
    | with_reducible apply modPort_calm
    | with_reducible apply ite_calm

theorem protoException_calm {k0 : Still} {s : State} (h : s.Calm k0) (p : Port) : (State.protoException s p).Calm k0 := by
  unfold State.protoException
  repeat' first
    | with_reducible assumption
    | with_reducible apply modBufs_calm
    | with_reducible apply modPort_calm

theorem execProtocolException_calm {k0 : Still} {s : State} (h : s.Calm k0) (p : Port) :
    OutCalm k0 (State.execProtocolException p s) := by
  unfold State.execProtocolException
  show State.Calm k0 _
  repeat' first
    | with_reducible assumption
    | with_reducible apply protoException_calm
    | with_reducible apply ite_calm

theorem execProtocolExceptionEnd_calm {k0 : Still} {s : State} (h : s.Calm k0) (p : Port) :
    OutCalm k0 (State.execProtocolExceptionEnd p s) := by
  unfold State.execProtocolExceptionEnd
  show State.Calm k0 _
  repeat' first
    | with_reducible assumption
    | with_reducible apply modPort_calm
    | with_reducible apply ite_calm

theorem execTimestampWrap_calm {k0 : Still} {s : State} (h : s.Calm k0)  :
    OutCalm k0 (State.execTimestampWrap s) := by
  unfold State.execTimestampWrap
  show State.Calm k0 _
  repeat' first
    | with_reducible assumption
    | with_reducible apply ite_calm
    | exact rfl
    | with_reducible apply mk_calm

theorem modRoster_calm {k0 : Still} {s : State} (h : s.Calm k0) (f : List (Nat × RosterEntry) → List (Nat × RosterEntry)) : (State.modRoster s f).Calm k0 := by
  unfold State.modRoster
  repeat' first
    | with_reducible assumption
    | exact rfl
    | with_reducible apply mk_calm

theorem countFrame_calm {k0 : Still} {s : State} (h : s.Calm k0) (p : Port) (f : CanFrame) (stamp : Nat) : (State.countFrame s p f stamp).Calm k0 := by
  unfold State.countFrame
  repeat' first
    | with_reducible assumption
    | (extract_lets +onlyGivenNames x
       have hx : State.Calm k0 x := by
        unfold x
        repeat' first
          | with_reducible assumption
          | with_reducible apply logEvent_calm
          | with_reducible apply modRoster_calm
          | (intro e; dsimp only; split <;> simp_all)
          | with_reducible apply ite_calm
          | split
          | exact rfl
          | (extract_lets +onlyGivenNames y; subst y)
          | with_reducible apply mk_calm
       clear_value x)
    | (extract_lets +onlyGivenNames x; subst x)
    | with_reducible apply logEvent_calm
    | with_reducible apply modRoster_calm
    | (intro e; dsimp only; split <;> simp_all)
    | with_reducible apply ite_calm
    | split
    | exact rfl
    | with_reducible apply mk_calm

theorem execRosterSilenceCheck_calm {k0 : Still} {s : State} (h : s.Calm k0)  :
    OutCalm k0 (State.execRosterSilenceCheck s) := by
  unfold State.execRosterSilenceCheck
  show State.Calm k0 _
  repeat' first
    | with_reducible assumption
    | with_reducible apply modRoster_calm
    | (intro e; dsimp only; split <;> simp_all)
    | with_reducible apply ite_calm

theorem execBusRsel_calm {k0 : Still} {s : State} (h : s.Calm k0) (p : Port) (index : BitVec 11) :
    OutCalm k0 (State.execBusRsel p index s) := by
  unfold State.execBusRsel
  show State.Calm k0 _
  repeat' first
    | with_reducible assumption
    | with_reducible apply modBufs_calm
    | with_reducible apply otherFrame_calm
    | with_reducible apply ite_calm

theorem setDup_calm {k0 : Still} {s : State} (h : s.Calm k0) (p : Port) (id : BitVec 29) (on : Bool) : (State.setDup s p id on).Calm k0 := by
  unfold State.setDup
  repeat' first
    | with_reducible assumption
    | (extract_lets +onlyGivenNames x
       have hx : State.Calm k0 x := by
        unfold x
        repeat' first
          | with_reducible assumption
          | with_reducible apply modRoster_calm
          | (intro e; dsimp only; split <;> simp_all)
          | with_reducible apply ite_calm
          | (extract_lets +onlyGivenNames y; clear_value y)
                | (extract_lets +onlyGivenNames y; subst y)
       clear_value x)
    | (extract_lets +onlyGivenNames x; clear_value x)
    | (extract_lets +onlyGivenNames x; subst x)
    | with_reducible apply modRoster_calm
    | (intro e; dsimp only; split <;> simp_all)
    | with_reducible apply ite_calm

theorem trackError_calm {k0 : Still} {s : State} (h : s.Calm k0) (p : Port) (ide : Bool) (id : BitVec 29) : (State.trackError s p ide id).Calm k0 := by
  unfold State.trackError
  repeat' first
    | with_reducible assumption
    | (extract_lets +onlyGivenNames x
       have hx : State.Calm k0 x := by
        unfold x
        repeat' first
          | with_reducible assumption
          | with_reducible apply logEvent_calm
          | with_reducible apply modBufs_calm
          | with_reducible apply modPort_calm
          | with_reducible apply setDup_calm
          | with_reducible apply modRoster_calm
          | (intro e; dsimp only; split <;> simp_all)
          | with_reducible apply ite_calm
          | split
          | (extract_lets +onlyGivenNames y; have : ∀ z : State, State.Calm k0 (y z) ∨ True := (fun _ => .inr trivial); clear this; subst y)
                | (extract_lets +onlyGivenNames y; have : ∀ (z : State) b, State.Calm k0 (y z b) ∨ True := (fun _ _ => .inr trivial); clear this; subst y)
                | (extract_lets +onlyGivenNames y; clear_value y)
                | (extract_lets +onlyGivenNames y; subst y)
       clear_value x)
    | (extract_lets +onlyGivenNames x; have : ∀ z : State, State.Calm k0 (x z) ∨ True := (fun _ => .inr trivial); clear this; subst x)
    | (extract_lets +onlyGivenNames x; have : ∀ (z : State) b, State.Calm k0 (x z b) ∨ True := (fun _ _ => .inr trivial); clear this; subst x)
    | (extract_lets +onlyGivenNames x; clear_value x)
    | (extract_lets +onlyGivenNames x; subst x)
    | with_reducible apply logEvent_calm
    | with_reducible apply modBufs_calm
    | with_reducible apply modPort_calm
    | with_reducible apply setDup_calm
    | with_reducible apply modRoster_calm
    | (intro e; dsimp only; split <;> simp_all)
    | with_reducible apply ite_calm
    | split

theorem execDuplicateMarkExpiry_calm {k0 : Still} {s : State} (h : s.Calm k0) (p : Port) (ide : Bool) (id : BitVec 29) :
    OutCalm k0 (State.execDuplicateMarkExpiry p ide id s) := by
  unfold State.execDuplicateMarkExpiry
  show State.Calm k0 _
  repeat' first
    | with_reducible assumption
    | (extract_lets +onlyGivenNames x
       have hx : State.Calm k0 x := by
        unfold x
        repeat' first
          | with_reducible assumption
          | with_reducible apply modBufs_calm
          | with_reducible apply setDup_calm
          | with_reducible apply ite_calm
          | (extract_lets +onlyGivenNames y; have : ∀ z : State, State.Calm k0 (y z) ∨ True := (fun _ => .inr trivial); clear this; subst y)
                | (extract_lets +onlyGivenNames y; have : ∀ (z : State) b, State.Calm k0 (y z b) ∨ True := (fun _ _ => .inr trivial); clear this; subst y)
                | (extract_lets +onlyGivenNames y; clear_value y)
                | (extract_lets +onlyGivenNames y; subst y)
       clear_value x)
    | (extract_lets +onlyGivenNames x; have : ∀ z : State, State.Calm k0 (x z) ∨ True := (fun _ => .inr trivial); clear this; subst x)
    | (extract_lets +onlyGivenNames x; have : ∀ (z : State) b, State.Calm k0 (x z b) ∨ True := (fun _ _ => .inr trivial); clear this; subst x)
    | (extract_lets +onlyGivenNames x; clear_value x)
    | (extract_lets +onlyGivenNames x; subst x)
    | with_reducible apply modBufs_calm
    | with_reducible apply setDup_calm
    | with_reducible apply ite_calm

theorem enterBusOff_calm {k0 : Still} {s : State} (h : s.Calm k0) (p : Port) (tec : Nat) : (State.enterBusOff s p tec).Calm k0 := by
  unfold State.enterBusOff
  repeat' first
    | with_reducible assumption
    | with_reducible apply logEvent_calm
    | with_reducible apply modBufs_calm
    | with_reducible apply modPort_calm
    | with_reducible apply ite_calm

theorem endAborts_calm {k0 : Still} {s : State} (h : s.Calm k0) (p : Port) : (State.endAborts s p).Calm k0 := by
  unfold State.endAborts
  repeat' first
    | with_reducible assumption
    | (extract_lets +onlyGivenNames x
       have hx : State.Calm k0 x := by
        unfold x
        repeat' first
          | with_reducible assumption
          | with_reducible apply modBufs_calm
          | with_reducible apply modPort_calm
          | with_reducible apply foldl_calm
          | (intro z b hz; beta_reduce)
          | (extract_lets +onlyGivenNames y; clear_value y)
                | (extract_lets +onlyGivenNames y; subst y)
       clear_value x)
    | (extract_lets +onlyGivenNames x; clear_value x)
    | (extract_lets +onlyGivenNames x; subst x)
    | with_reducible apply modBufs_calm
    | with_reducible apply modPort_calm
    | with_reducible apply foldl_calm
    | (intro z b hz; beta_reduce)

theorem execCanErrorDetected_calm {k0 : Still} {s : State} (h : s.Calm k0) (p : Port) (e : CanError) :
    OutCalm k0 (State.execCanErrorDetected p e s) := by
  unfold State.execCanErrorDetected
  show State.Calm k0 _
  repeat' first
    | with_reducible assumption
    | (extract_lets +onlyGivenNames x
       have hx : State.Calm k0 x := by
        unfold x
        repeat' first
          | with_reducible assumption
          | with_reducible apply endAborts_calm
          | with_reducible apply enterBusOff_calm
          | with_reducible apply modBufs_calm
          | with_reducible apply modPort_calm
          | with_reducible apply trackError_calm
          | with_reducible apply ite_calm
          | split
          | (extract_lets +onlyGivenNames y; clear_value y)
                | (extract_lets +onlyGivenNames y; subst y)
       clear_value x)
    | (extract_lets +onlyGivenNames x; clear_value x)
    | (extract_lets +onlyGivenNames x; subst x)
    | with_reducible apply endAborts_calm
    | with_reducible apply enterBusOff_calm
    | with_reducible apply modBufs_calm
    | with_reducible apply modPort_calm
    | with_reducible apply trackError_calm
    | with_reducible apply ite_calm
    | split

theorem execBusRecovered_calm {k0 : Still} {s : State} (h : s.Calm k0) (p : Port) :
    OutCalm k0 (State.execBusRecovered p s) := by
  unfold State.execBusRecovered
  show State.Calm k0 _
  repeat' first
    | with_reducible assumption
    | (extract_lets +onlyGivenNames x
       have hx : State.Calm k0 x := by
        unfold x
        repeat' first
          | with_reducible assumption
          | with_reducible apply logEvent_calm
          | with_reducible apply modPort_calm
          | with_reducible apply ite_calm
          | (extract_lets +onlyGivenNames y; clear_value y)
                | (extract_lets +onlyGivenNames y; subst y)
       clear_value x)
    | (extract_lets +onlyGivenNames x; clear_value x)
    | (extract_lets +onlyGivenNames x; subst x)
    | with_reducible apply logEvent_calm
    | with_reducible apply modPort_calm
    | with_reducible apply ite_calm

theorem appendQueue_calm {k0 : Still} {s : State} (h : s.Calm k0) (p : Port) (second : Bool) (e : QueueEntry) : (State.appendQueue s p second e).Calm k0 := by
  unfold State.appendQueue
  repeat' first
    | with_reducible assumption
    | (extract_lets +onlyGivenNames x
       have hx : State.Calm k0 x := by
        unfold x
        repeat' first
          | with_reducible assumption
          | with_reducible apply modBufs_calm
          | with_reducible apply modPort_calm
          | with_reducible apply ite_calm
          | (extract_lets +onlyGivenNames y; have : ∀ z : State, State.Calm k0 (y z) ∨ True := (fun _ => .inr trivial); clear this; subst y)
                | (extract_lets +onlyGivenNames y; have : ∀ (z : State) b, State.Calm k0 (y z b) ∨ True := (fun _ _ => .inr trivial); clear this; subst y)
                | (extract_lets +onlyGivenNames y; clear_value y)
                | (extract_lets +onlyGivenNames y; subst y)
       clear_value x)
    | (extract_lets +onlyGivenNames x; have : ∀ z : State, State.Calm k0 (x z) ∨ True := (fun _ => .inr trivial); clear this; subst x)
    | (extract_lets +onlyGivenNames x; have : ∀ (z : State) b, State.Calm k0 (x z b) ∨ True := (fun _ _ => .inr trivial); clear this; subst x)
    | (extract_lets +onlyGivenNames x; clear_value x)
    | (extract_lets +onlyGivenNames x; subst x)
    | with_reducible apply modBufs_calm
    | with_reducible apply modPort_calm
    | with_reducible apply ite_calm

theorem routeFrame_calm {k0 : Still} {s : State} (h : s.Calm k0) (p : Port) (f : CanFrame) (stamp : Nat) : (State.routeFrame s p f stamp).Calm k0 := by
  unfold State.routeFrame
  repeat' first
    | with_reducible assumption
    | (extract_lets +onlyGivenNames x
       have hx : State.Calm k0 x := by
        unfold x
        repeat' first
          | with_reducible assumption
          | with_reducible apply appendQueue_calm
          | split
          | (extract_lets +onlyGivenNames y; clear_value y)
                | (extract_lets +onlyGivenNames y; subst y)
       clear_value x)
    | (extract_lets +onlyGivenNames x; clear_value x)
    | (extract_lets +onlyGivenNames x; subst x)
    | with_reducible apply appendQueue_calm
    | split

theorem setPartial_calm {k0 : Still} {s : State} (h : s.Calm k0) (p : Port) (k : Fin 8) (x : Option Partial) : (State.setPartial s p k x).Calm k0 := by
  unfold State.setPartial
  repeat' first
    | with_reducible assumption
    | with_reducible apply modBufs_calm

theorem dropPartial_calm {k0 : Still} {s : State} (h : s.Calm k0) (p : Port) (k : Fin 8) : (State.dropPartial s p k).Calm k0 := by
  unfold State.dropPartial
  repeat' first
    | with_reducible assumption
    | (extract_lets +onlyGivenNames x
       have hx : State.Calm k0 x := by
        unfold x
        repeat' first
          | with_reducible assumption
          | with_reducible apply emit_calm
          | with_reducible apply setPartial_calm
          | split
          | (extract_lets +onlyGivenNames y; clear_value y)
                | (extract_lets +onlyGivenNames y; subst y)
       clear_value x)
    | (extract_lets +onlyGivenNames x; clear_value x)
    | (extract_lets +onlyGivenNames x; subst x)
    | with_reducible apply emit_calm
    | with_reducible apply setPartial_calm
    | split

theorem arriveSentence_calm {k0 : Still} {s : State} (h : s.Calm k0) (p : Port) (k : Fin 8) (bytes : List Byte) : (State.arriveSentence s p k bytes).Calm k0 := by
  unfold State.arriveSentence
  repeat' first
    | with_reducible assumption
    | exact fun hm => hm
    | exact fun _ hq => hq
    | with_reducible apply modMail_calm

theorem segment_calm {k0 : Still} {s : State} (h : s.Calm k0) (p : Port) (k : Fin 8) (data : List Byte) : (State.segment s p k data).Calm k0 := by
  unfold State.segment
  repeat' first
    | with_reducible assumption
    | (extract_lets +onlyGivenNames x
       have hx : State.Calm k0 x := by
        unfold x
        repeat' first
          | with_reducible assumption
          | with_reducible apply AState.num_calm
          | with_reducible apply CState.num_calm
          | with_reducible apply SState.num_calm
          | with_reducible apply SlotState.num_calm
          | with_reducible apply TxState.num_calm
          | with_reducible apply YState.num_calm
          | with_reducible apply arriveSentence_calm
          | with_reducible apply dropPartial_calm
          | with_reducible apply setPartial_calm
          | with_reducible apply ite_calm
          | split
          | (extract_lets +onlyGivenNames y; clear_value y)
                | (extract_lets +onlyGivenNames y; subst y)
       clear_value x)
    | (extract_lets +onlyGivenNames x; clear_value x)
    | (extract_lets +onlyGivenNames x; subst x)
    | with_reducible apply AState.num_calm
    | with_reducible apply CState.num_calm
    | with_reducible apply SState.num_calm
    | with_reducible apply SlotState.num_calm
    | with_reducible apply TxState.num_calm
    | with_reducible apply YState.num_calm
    | with_reducible apply arriveSentence_calm
    | with_reducible apply dropPartial_calm
    | with_reducible apply setPartial_calm
    | with_reducible apply ite_calm
    | split

theorem sessionFrame_calm {k0 : Still} {s : State} (h : s.Calm k0) (p : Port) (k : Fin 8) (f : CanFrame) : (State.sessionFrame s p k f).Calm k0 := by
  unfold State.sessionFrame
  repeat' first
    | with_reducible assumption
    | with_reducible apply arriveSentence_calm
    | with_reducible apply dropPartial_calm
    | with_reducible apply segment_calm
    | with_reducible apply ite_calm

theorem execCanSegmentTimeout_calm {k0 : Still} {s : State} (h : s.Calm k0) (p : Port) (session : Fin 8) :
    OutCalm k0 (State.execCanSegmentTimeout p session s) := by
  unfold State.execCanSegmentTimeout
  show State.Calm k0 _
  repeat' first
    | with_reducible assumption
    | with_reducible apply dropPartial_calm
    | with_reducible apply ite_calm

theorem creditReceiver_calm {k0 : Still} {s : State} (h : s.Calm k0) (p : Port) : (State.creditReceiver s p).Calm k0 := by
  unfold State.creditReceiver
  repeat' first
    | with_reducible assumption
    | with_reducible apply drawn_calm
    | with_reducible apply modPort_calm
    | with_reducible apply ite_calm

theorem execCanFrameReceived_calm {k0 : Still} {s : State} (h : s.Calm k0) (p : Port) (f : CanFrame) (stamp : BitVec 32) :
    OutCalm k0 (State.execCanFrameReceived p f stamp s) := by
  unfold State.execCanFrameReceived
  show State.Calm k0 _
  repeat' first
    | with_reducible assumption
    | (extract_lets +onlyGivenNames x
       have hx : State.Calm k0 x := by
        unfold x
        repeat' first
          | with_reducible assumption
          | with_reducible apply countFrame_calm
          | with_reducible apply creditReceiver_calm
          | with_reducible apply modBufs_calm
          | with_reducible apply protoException_calm
          | with_reducible apply routeFrame_calm
          | with_reducible apply sessionFrame_calm
          | with_reducible apply ite_calm
          | split
          | (extract_lets +onlyGivenNames y; clear_value y)
                | (extract_lets +onlyGivenNames y; subst y)
       clear_value x)
    | (extract_lets +onlyGivenNames x; clear_value x)
    | (extract_lets +onlyGivenNames x; subst x)
    | with_reducible apply countFrame_calm
    | with_reducible apply creditReceiver_calm
    | with_reducible apply modBufs_calm
    | with_reducible apply protoException_calm
    | with_reducible apply routeFrame_calm
    | with_reducible apply sessionFrame_calm
    | with_reducible apply ite_calm
    | split

theorem ackQueues_calm {k0 : Still} {s : State} (h : s.Calm k0) (p : Port) (n0 : Nat) (n1 : Nat) : (State.ackQueues s p n0 n1).Calm k0 := by
  unfold State.ackQueues
  repeat' first
    | with_reducible assumption
    | with_reducible apply modBufs_calm

theorem execBusRxack_calm {k0 : Still} {s : State} (h : s.Calm k0) (p : Port) (q0 : BitVec 7) (q1 : BitVec 7) :
    OutCalm k0 (State.execBusRxack p q0 q1 s) := by
  unfold State.execBusRxack
  show State.Calm k0 _
  repeat' first
    | with_reducible assumption
    | with_reducible apply ackQueues_calm
    | with_reducible apply otherFrame_calm
    | with_reducible apply ite_calm

theorem modTx_calm {k0 : Still} {s : State} (h : s.Calm k0) (p : Port) (i : Fin 3) (f : TxBuf → TxBuf) : (State.modTx s p i f).Calm k0 := by
  unfold State.modTx
  repeat' first
    | with_reducible assumption
    | with_reducible apply modBufs_calm

theorem requestTx_calm {k0 : Still} {s : State} (h : s.Calm k0) (p : Port) (i : Fin 3) : (State.requestTx s p i).Calm k0 := by
  unfold State.requestTx
  repeat' first
    | with_reducible assumption
    | with_reducible apply modPort_calm
    | with_reducible apply modTx_calm
    | with_reducible apply ite_calm
    | split

theorem abortTx_calm {k0 : Still} {s : State} (h : s.Calm k0) (p : Port) (i : Fin 3) : (State.abortTx s p i).Calm k0 := by
  unfold State.abortTx
  repeat' first
    | with_reducible assumption
    | with_reducible apply modPort_calm
    | with_reducible apply modTx_calm
    | split

theorem writeTxreq_calm {k0 : Still} {s : State} (h : s.Calm k0) (p : Port) (req : Nat) (abort : Nat) : (State.writeTxreq s p req abort).Calm k0 := by
  unfold State.writeTxreq
  repeat' first
    | with_reducible assumption
    | with_reducible apply abortTx_calm
    | with_reducible apply requestTx_calm
    | with_reducible apply foldl_calm
    | (intro z b hz; beta_reduce)
    | with_reducible apply ite_calm

theorem execBusTxRequest_calm {k0 : Still} {s : State} (h : s.Calm k0) (p : Port) (buffers : BitVec 3) :
    OutCalm k0 (State.execBusTxRequest p buffers s) := by
  unfold State.execBusTxRequest
  show State.Calm k0 _
  repeat' first
    | with_reducible assumption
    | with_reducible apply otherFrame_calm
    | with_reducible apply writeTxreq_calm
    | with_reducible apply ite_calm

theorem execBusTxAbort_calm {k0 : Still} {s : State} (h : s.Calm k0) (p : Port) (buffers : BitVec 3) :
    OutCalm k0 (State.execBusTxAbort p buffers s) := by
  unfold State.execBusTxAbort
  show State.Calm k0 _
  repeat' first
    | with_reducible assumption
    | with_reducible apply otherFrame_calm
    | with_reducible apply writeTxreq_calm
    | with_reducible apply ite_calm

theorem execCanTransmitChoice_calm {k0 : Still} {s : State} (h : s.Calm k0) (p : Port) :
    OutCalm k0 (State.execCanTransmitChoice p s) := by
  unfold State.execCanTransmitChoice
  show State.Calm k0 _
  repeat' first
    | with_reducible assumption
    | (extract_lets +onlyGivenNames x
       have hx : State.Calm k0 x := by
        unfold x
        repeat' first
          | with_reducible assumption
          | with_reducible apply modBufs_calm
          | with_reducible apply modTx_calm
          | with_reducible apply ite_calm
          | split
          | (extract_lets +onlyGivenNames y; clear_value y)
                | (extract_lets +onlyGivenNames y; subst y)
       clear_value x)
    | (extract_lets +onlyGivenNames x; clear_value x)
    | (extract_lets +onlyGivenNames x; subst x)
    | with_reducible apply modBufs_calm
    | with_reducible apply modTx_calm
    | with_reducible apply ite_calm
    | split

theorem ownTxb2_calm {k0 : Still} {s : State} (h : s.Calm k0) (p : Port) : (State.ownTxb2 s p).Calm k0 := by
  unfold State.ownTxb2
  repeat' first
    | with_reducible assumption
    | (extract_lets +onlyGivenNames x
       have hx : State.Calm k0 x := by
        unfold x
        repeat' first
          | with_reducible assumption
          | with_reducible apply modTx_calm
          | with_reducible apply ite_calm
          | (extract_lets +onlyGivenNames y; clear_value y)
                | (extract_lets +onlyGivenNames y; subst y)
       clear_value x)
    | (extract_lets +onlyGivenNames x; clear_value x)
    | (extract_lets +onlyGivenNames x; subst x)
    | with_reducible apply modTx_calm
    | with_reducible apply ite_calm

theorem takeTdcv_calm {k0 : Still} {s : State} (h : s.Calm k0) (p : Port) (v : Nat) : (State.takeTdcv s p v).Calm k0 := by
  unfold State.takeTdcv
  repeat' first
    | with_reducible assumption
    | with_reducible apply modPort_calm
    | with_reducible apply ite_calm

theorem execCanTransmitEnd_calm {k0 : Still} {s : State} (h : s.Calm k0) (p : Port) (o : CanTxOutcome) :
    OutCalm k0 (State.execCanTransmitEnd p o s) := by
  unfold State.execCanTransmitEnd
  show State.Calm k0 _
  repeat' first
    | with_reducible assumption
    | (extract_lets +onlyGivenNames x
       have hx : State.Calm k0 x := by
        unfold x
        repeat' first
          | with_reducible assumption
          | with_reducible apply modBufs_calm
          | with_reducible apply modPort_calm
          | with_reducible apply modTx_calm
          | with_reducible apply ownTxb2_calm
          | with_reducible apply takeTdcv_calm
          | with_reducible apply ite_calm
          | split
          | (extract_lets +onlyGivenNames y; clear_value y)
                | (extract_lets +onlyGivenNames y; subst y)
       clear_value x)
    | (extract_lets +onlyGivenNames x; clear_value x)
    | (extract_lets +onlyGivenNames x; subst x)
    | with_reducible apply modBufs_calm
    | with_reducible apply modPort_calm
    | with_reducible apply modTx_calm
    | with_reducible apply ownTxb2_calm
    | with_reducible apply takeTdcv_calm
    | with_reducible apply ite_calm
    | split

end Sys2Proof.Machine.State
end

