-- ==== Sys2Proof/Laws/CalmCascade.lean ====
section
/-! SUPPORT. The operations and commands of Machine/Cascade.lean that leave alone what Laws/Calm.lean names. -/

set_option Elab.async false

set_option linter.unusedTactic false
set_option linter.unreachableTactic false

namespace Sys2Proof.Machine.State

theorem execRingFormationDone_calm {k0 : Still} {s : State} (h : s.Calm k0) (info : RingInfo) :
    OutCalm k0 (State.execRingFormationDone info s) := by
  unfold State.execRingFormationDone
  show State.Calm k0 _
  repeat' first
    | with_reducible assumption
    | (extract_lets +onlyGivenNames x
       have hx : State.Calm k0 x := by
        unfold x
        repeat' first
          | with_reducible assumption
          | with_reducible apply modCascade_calm
          | with_reducible apply ite_calm
          | split
          | (extract_lets +onlyGivenNames y; subst y)
          | with_reducible apply mk_calm
       clear_value x)
    | (extract_lets +onlyGivenNames x; subst x)
    | with_reducible apply modCascade_calm
    | with_reducible apply ite_calm
    | split
    | with_reducible apply mk_calm

theorem breakDir_calm {k0 : Still} {s : State} (h : s.Calm k0) (d : CxDir) : (State.breakDir s d).Calm k0 := by
  unfold State.breakDir
  repeat' first
    | with_reducible assumption
    | (extract_lets +onlyGivenNames x
       have hx : State.Calm k0 x := by
        unfold x
        repeat' first
          | with_reducible assumption
          | with_reducible apply logEvent_calm
          | with_reducible apply modCascade_calm
          | with_reducible apply ite_calm
          | split
          | (extract_lets +onlyGivenNames y; subst y)
          | with_reducible apply mk_calm
       clear_value x)
    | (extract_lets +onlyGivenNames x; subst x)
    | with_reducible apply logEvent_calm
    | with_reducible apply modCascade_calm
    | with_reducible apply ite_calm
    | split
    | with_reducible apply mk_calm

theorem execRingBreak_calm {k0 : Still} {s : State} (h : s.Calm k0) (d : CxDir) :
    OutCalm k0 (State.execRingBreak d s) := by
  unfold State.execRingBreak
  show State.Calm k0 _
  repeat' first
    | with_reducible assumption
    | with_reducible apply breakDir_calm
    | with_reducible apply ite_calm

theorem execLinkDirectionUp_calm {k0 : Still} {s : State} (h : s.Calm k0) (d : CxDir) :
    OutCalm k0 (State.execLinkDirectionUp d s) := by
  unfold State.execLinkDirectionUp
  show State.Calm k0 _
  repeat' first
    | with_reducible assumption
    | (extract_lets +onlyGivenNames x
       have hx : State.Calm k0 x := by
        unfold x
        repeat' first
          | with_reducible assumption
          | with_reducible apply modCascade_calm
          | with_reducible apply ite_calm
          | split
          | (extract_lets +onlyGivenNames y; subst y)
          | with_reducible apply mk_calm
       clear_value x)
    | (extract_lets +onlyGivenNames x; subst x)
    | with_reducible apply modCascade_calm
    | with_reducible apply ite_calm
    | split
    | with_reducible apply mk_calm

theorem execSyncMissed_calm {k0 : Still} {s : State} (h : s.Calm k0)  :
    OutCalm k0 (State.execSyncMissed s) := by
  unfold State.execSyncMissed
  show State.Calm k0 _
  repeat' first
    | with_reducible assumption
    | (extract_lets +onlyGivenNames x
       have hx : State.Calm k0 x := by
        unfold x
        repeat' first
          | with_reducible assumption
          | with_reducible apply logEvent_calm
          | with_reducible apply modCascade_calm
          | with_reducible apply ite_calm
          | split
          | (extract_lets +onlyGivenNames y; clear_value y)
                | (extract_lets +onlyGivenNames y; subst y)
       clear_value x)
    | (extract_lets +onlyGivenNames x; clear_value x)
    | (extract_lets +onlyGivenNames x; subst x)
    | with_reducible apply logEvent_calm
    | with_reducible apply modCascade_calm
    | with_reducible apply ite_calm
    | split

theorem execStatusPacketSend_calm {k0 : Still} {s : State} (h : s.Calm k0)  :
    OutCalm k0 (State.execStatusPacketSend s) := by
  unfold State.execStatusPacketSend
  show State.Calm k0 _
  repeat' first
    | with_reducible assumption
    | with_reducible apply modCascade_calm
    | with_reducible apply ite_calm

end Sys2Proof.Machine.State
end

