-- ==== Sys2Proof/Laws/CalmFeedback.lean ====
section
/-! SUPPORT. The operations and commands of Machine/Feedback.lean that leave alone what Laws/Calm.lean names. -/

set_option Elab.async false

set_option linter.unusedTactic false
set_option linter.unreachableTactic false

namespace Sys2Proof.Machine.State

theorem invalidate_calm {k0 : Still} {s : State} (h : s.Calm k0) (n : FbNo) (cause : Fin 4) : (State.invalidate s n cause).Calm k0 := by
  unfold State.invalidate
  repeat' first
    | with_reducible assumption
    | with_reducible apply logEvent_calm
    | with_reducible apply modFb_calm
    | with_reducible apply ite_calm

theorem badIndex_calm {k0 : Still} {s : State} (h : s.Calm k0) (n : FbNo) (dev : Int) : (State.badIndex s n dev).Calm k0 := by
  unfold State.badIndex
  repeat' first
    | with_reducible assumption
    | (extract_lets +onlyGivenNames x
       have hx : State.Calm k0 x := by
        unfold x
        repeat' first
          | with_reducible assumption
          | with_reducible apply invalidate_calm
          | with_reducible apply logEvent_calm
          | with_reducible apply modFb_calm
          | with_reducible apply ite_calm
          | (extract_lets +onlyGivenNames y; clear_value y)
                | (extract_lets +onlyGivenNames y; subst y)
       clear_value x)
    | (extract_lets +onlyGivenNames x; clear_value x)
    | (extract_lets +onlyGivenNames x; subst x)
    | with_reducible apply invalidate_calm
    | with_reducible apply logEvent_calm
    | with_reducible apply modFb_calm
    | with_reducible apply ite_calm

theorem indexEvent_calm {k0 : Still} {s : State} (h : s.Calm k0) (n : FbNo) (idx : Int) : (State.indexEvent s n idx).Calm k0 := by
  unfold State.indexEvent
  repeat' first
    | with_reducible assumption
    | (extract_lets +onlyGivenNames x
       have hx : State.Calm k0 x := by
        unfold x
        repeat' first
          | with_reducible assumption
          | with_reducible apply badIndex_calm
          | with_reducible apply modFb_calm
          | with_reducible apply ite_calm
          | (extract_lets +onlyGivenNames y; clear_value y)
                | (extract_lets +onlyGivenNames y; subst y)
       clear_value x)
    | (extract_lets +onlyGivenNames x; clear_value x)
    | (extract_lets +onlyGivenNames x; subst x)
    | with_reducible apply badIndex_calm
    | with_reducible apply modFb_calm
    | with_reducible apply ite_calm

theorem testMissed_calm {k0 : Still} {s : State} (h : s.Calm k0) (n : FbNo) : (State.testMissed s n).Calm k0 := by
  unfold State.testMissed
  repeat' first
    | with_reducible assumption
    | (extract_lets +onlyGivenNames x
       have hx : State.Calm k0 x := by
        unfold x
        repeat' first
          | with_reducible assumption
          | with_reducible apply badIndex_calm
          | with_reducible apply modFb_calm
          | with_reducible apply ite_calm
          | split
          | (extract_lets +onlyGivenNames y; clear_value y)
                | (extract_lets +onlyGivenNames y; subst y)
       clear_value x)
    | (extract_lets +onlyGivenNames x; clear_value x)
    | (extract_lets +onlyGivenNames x; subst x)
    | with_reducible apply badIndex_calm
    | with_reducible apply modFb_calm
    | with_reducible apply ite_calm
    | split

theorem illegalStep_calm {k0 : Still} {s : State} (h : s.Calm k0) (n : FbNo) : (State.illegalStep s n).Calm k0 := by
  unfold State.illegalStep
  repeat' first
    | with_reducible assumption
    | (extract_lets +onlyGivenNames x
       have hx : State.Calm k0 x := by
        unfold x
        repeat' first
          | with_reducible assumption
          | with_reducible apply invalidate_calm
          | with_reducible apply modFb_calm
          | with_reducible apply ite_calm
          | (extract_lets +onlyGivenNames y; clear_value y)
                | (extract_lets +onlyGivenNames y; subst y)
       clear_value x)
    | (extract_lets +onlyGivenNames x; clear_value x)
    | (extract_lets +onlyGivenNames x; subst x)
    | with_reducible apply invalidate_calm
    | with_reducible apply modFb_calm
    | with_reducible apply ite_calm

theorem encoderStep_calm {k0 : Still} {s : State} (h : s.Calm k0) (n : FbNo) (sgn : Int) (t : Int) (cd6 : Nat) (z : Bool) (isIdx : Bool) : (State.encoderStep s n sgn t cd6 z isIdx).Calm k0 := by
  unfold State.encoderStep
  repeat' first
    | with_reducible assumption
    | (extract_lets +onlyGivenNames x
       have hx : State.Calm k0 x := by
        unfold x
        repeat' first
          | with_reducible assumption
          | with_reducible apply gffCompare_calm
          | with_reducible apply indexEvent_calm
          | with_reducible apply modFb_calm
          | with_reducible apply testMissed_calm
          | with_reducible apply ite_calm
          | split
          | (extract_lets +onlyGivenNames y; clear_value y)
                | (extract_lets +onlyGivenNames y; subst y)
       clear_value x)
    | (extract_lets +onlyGivenNames x; clear_value x)
    | (extract_lets +onlyGivenNames x; subst x)
    | with_reducible apply gffCompare_calm
    | with_reducible apply indexEvent_calm
    | with_reducible apply modFb_calm
    | with_reducible apply testMissed_calm
    | with_reducible apply ite_calm
    | split

theorem execEncoderEdge_calm {k0 : Still} {s : State} (h : s.Calm k0) (e : Fin 8) (a : Bool) (b : Bool) (z : Bool) (cd6 : Nat) :
    OutCalm k0 (State.execEncoderEdge e a b z cd6 s) := by
  unfold State.execEncoderEdge
  show State.Calm k0 _
  repeat' first
    | with_reducible assumption
    | (extract_lets +onlyGivenNames x
       have hx : State.Calm k0 x := by
        unfold x
        repeat' first
          | with_reducible assumption
          | with_reducible apply encoderStep_calm
          | with_reducible apply illegalStep_calm
          | with_reducible apply modFb_calm
          | with_reducible apply ite_calm
          | (extract_lets +onlyGivenNames y; clear_value y)
                | (extract_lets +onlyGivenNames y; subst y)
       clear_value x)
    | (extract_lets +onlyGivenNames x; clear_value x)
    | (extract_lets +onlyGivenNames x; subst x)
    | with_reducible apply encoderStep_calm
    | with_reducible apply illegalStep_calm
    | with_reducible apply modFb_calm
    | with_reducible apply ite_calm

theorem latchFeedback_calm {k0 : Still} {s : State} (h : s.Calm k0)  : (State.latchFeedback s).Calm k0 := by
  unfold State.latchFeedback
  repeat' first
    | with_reducible assumption
    | (extract_lets +onlyGivenNames x
       have hx : State.Calm k0 x := by
        unfold x
        repeat' first
          | with_reducible assumption
          | with_reducible apply latched_calm
          | with_reducible apply modFb_calm
          | with_reducible apply eachFin_calm
          | (intro z b hz; beta_reduce)
          | with_reducible apply ite_calm
          | (extract_lets +onlyGivenNames y; have : ∀ z : State, State.Calm k0 (y z) ∨ True := (fun _ => .inr trivial); clear this; subst y)
                | (extract_lets +onlyGivenNames y; have : ∀ (z : State) b, State.Calm k0 (y z b) ∨ True := (fun _ _ => .inr trivial); clear this; subst y)
                | (extract_lets +onlyGivenNames y; subst y)
          | with_reducible apply mk_calm
       clear_value x)
    | (extract_lets +onlyGivenNames x; have : ∀ z : State, State.Calm k0 (x z) ∨ True := (fun _ => .inr trivial); clear this; subst x)
    | (extract_lets +onlyGivenNames x; have : ∀ (z : State) b, State.Calm k0 (x z b) ∨ True := (fun _ _ => .inr trivial); clear this; subst x)
    | (extract_lets +onlyGivenNames x; subst x)
    | with_reducible apply latched_calm
    | with_reducible apply modFb_calm
    | with_reducible apply eachFin_calm
    | (intro z b hz; beta_reduce)
    | with_reducible apply ite_calm
    | with_reducible apply mk_calm

theorem execSpeedTimeout_calm {k0 : Still} {s : State} (h : s.Calm k0) (n : FbNo) :
    OutCalm k0 (State.execSpeedTimeout n s) := by
  unfold State.execSpeedTimeout
  show State.Calm k0 _
  repeat' first
    | with_reducible assumption
    | with_reducible apply modFb_calm

theorem execResolverExcitationPeriod_calm {k0 : Still} {s : State} (h : s.Calm k0) (v : Fin 4) (amplitude : Nat) (angle : BitVec 16) (speed : Int) :
    OutCalm k0 (State.execResolverExcitationPeriod v amplitude angle speed s) := by
  unfold State.execResolverExcitationPeriod
  show State.Calm k0 _
  repeat' first
    | with_reducible assumption
    | (extract_lets +onlyGivenNames x
       have hx : State.Calm k0 x := by
        unfold x
        repeat' first
          | with_reducible assumption
          | with_reducible apply invalidate_calm
          | with_reducible apply modFb_calm
          | with_reducible apply ite_calm
          | split
          | (extract_lets +onlyGivenNames y; clear_value y)
                | (extract_lets +onlyGivenNames y; subst y)
       clear_value x)
    | (extract_lets +onlyGivenNames x; clear_value x)
    | (extract_lets +onlyGivenNames x; subst x)
    | with_reducible apply invalidate_calm
    | with_reducible apply modFb_calm
    | with_reducible apply ite_calm
    | split

theorem execResolverTrackingError_calm {k0 : Still} {s : State} (h : s.Calm k0) (v : Fin 4) :
    OutCalm k0 (State.execResolverTrackingError v s) := by
  unfold State.execResolverTrackingError
  show State.Calm k0 _
  repeat' first
    | with_reducible assumption
    | with_reducible apply invalidate_calm
    | with_reducible apply ite_calm

theorem execResolverRevalidate_calm {k0 : Still} {s : State} (h : s.Calm k0) (v : Fin 4) :
    OutCalm k0 (State.execResolverRevalidate v s) := by
  unfold State.execResolverRevalidate
  show State.Calm k0 _
  repeat' first
    | with_reducible assumption
    | with_reducible apply modFb_calm
    | with_reducible apply ite_calm

theorem execSerialFrameEnd_calm {k0 : Still} {s : State} (h : s.Calm k0) (p : Fin 4) (f : SerialFrame) :
    OutCalm k0 (State.execSerialFrameEnd p f s) := by
  unfold State.execSerialFrameEnd
  show State.Calm k0 _
  repeat' first
    | with_reducible assumption
    | (extract_lets +onlyGivenNames x
       have hx : State.Calm k0 x := by
        unfold x
        repeat' first
          | with_reducible assumption
          | with_reducible apply invalidate_calm
          | with_reducible apply modFb_calm
          | with_reducible apply ite_calm
          | split
          | (extract_lets +onlyGivenNames y; clear_value y)
                | (extract_lets +onlyGivenNames y; subst y)
       clear_value x)
    | (extract_lets +onlyGivenNames x; clear_value x)
    | (extract_lets +onlyGivenNames x; subst x)
    | with_reducible apply invalidate_calm
    | with_reducible apply modFb_calm
    | with_reducible apply ite_calm
    | split

theorem presetUnit_calm {k0 : Still} {s : State} (h : s.Calm k0) (n : FbNo) : (State.presetUnit s n).Calm k0 := by
  unfold State.presetUnit
  repeat' first
    | with_reducible assumption
    | (extract_lets +onlyGivenNames x
       have hx : State.Calm k0 x := by
        unfold x
        repeat' first
          | with_reducible assumption
          | with_reducible apply modFb_calm
          | with_reducible apply ite_calm
          | (extract_lets +onlyGivenNames y; clear_value y)
                | (extract_lets +onlyGivenNames y; subst y)
       clear_value x)
    | (extract_lets +onlyGivenNames x; clear_value x)
    | (extract_lets +onlyGivenNames x; subst x)
    | with_reducible apply modFb_calm
    | with_reducible apply ite_calm

theorem rearmUnit_calm {k0 : Still} {s : State} (h : s.Calm k0) (n : FbNo) : (State.rearmUnit s n).Calm k0 := by
  unfold State.rearmUnit
  repeat' first
    | with_reducible assumption
    | with_reducible apply modFb_calm
    | with_reducible apply ite_calm

theorem writeCompare_calm {k0 : Still} {s : State} (h : s.Calm k0) (n : FbNo) (v : Int) : (State.writeCompare s n v).Calm k0 := by
  unfold State.writeCompare
  repeat' first
    | with_reducible assumption
    | with_reducible apply modFb_calm

theorem switchTurn_calm {k0 : Still} {s : State} (h : s.Calm k0) (i : Fin 24) (cd6 : Nat) : (State.switchTurn s i cd6).Calm k0 := by
  unfold State.switchTurn
  repeat' first
    | with_reducible assumption
    | (extract_lets +onlyGivenNames x
       have hx : State.Calm k0 x := by
        unfold x
        repeat' first
          | with_reducible assumption
          | with_reducible apply gffSwitch_calm
          | with_reducible apply logEvent_calm
          | with_reducible apply ite_calm
          | split
          | (extract_lets +onlyGivenNames y; subst y)
          | with_reducible apply mk_calm
       clear_value x)
    | (extract_lets +onlyGivenNames x; subst x)
    | with_reducible apply gffSwitch_calm
    | with_reducible apply logEvent_calm
    | with_reducible apply ite_calm
    | split
    | with_reducible apply mk_calm

theorem switchBit_calm {k0 : Still} {s : State} (h : s.Calm k0) (i : Fin 24) (raw : Bool) (cd6 : Nat) : (State.switchBit s i raw cd6).Calm k0 := by
  unfold State.switchBit
  repeat' first
    | with_reducible assumption
    | (extract_lets +onlyGivenNames x
       have hx : State.Calm k0 x := by
        unfold x
        repeat' first
          | with_reducible assumption
          | with_reducible apply switchTurn_calm
          | with_reducible apply ite_calm
          | (extract_lets +onlyGivenNames y; subst y)
          | with_reducible apply mk_calm
       clear_value x)
    | (extract_lets +onlyGivenNames x; subst x)
    | with_reducible apply switchTurn_calm
    | with_reducible apply ite_calm
    | with_reducible apply mk_calm

theorem execSwitchSample_calm {k0 : Still} {s : State} (h : s.Calm k0) (levels : BitVec 24) (cd6 : Nat) :
    OutCalm k0 (State.execSwitchSample levels cd6 s) := by
  unfold State.execSwitchSample
  show State.Calm k0 _
  repeat' first
    | with_reducible assumption
    | (extract_lets +onlyGivenNames x
       have hx : State.Calm k0 x := by
        unfold x
        repeat' first
          | with_reducible assumption
          | with_reducible apply switchBit_calm
          | with_reducible apply eachFin_calm
          | (intro z b hz; beta_reduce)
          | (extract_lets +onlyGivenNames y; subst y)
          | with_reducible apply mk_calm
       clear_value x)
    | (extract_lets +onlyGivenNames x; subst x)
    | with_reducible apply switchBit_calm
    | with_reducible apply eachFin_calm
    | (intro z b hz; beta_reduce)
    | with_reducible apply mk_calm

theorem execChatterCleared_calm {k0 : Still} {s : State} (h : s.Calm k0) (i : Fin 24) :
    OutCalm k0 (State.execChatterCleared i s) := by
  unfold State.execChatterCleared
  show State.Calm k0 _
  repeat' first
    | with_reducible assumption
    | with_reducible apply logEvent_calm
    | with_reducible apply ite_calm
    | with_reducible apply mk_calm

end Sys2Proof.Machine.State
end

