-- ==== Sys2Proof/Laws/CalmCycle.lean ====
section
/-! SUPPORT. The operations and commands of Machine/Cycle.lean that leave alone what Laws/Calm.lean names. -/

set_option Elab.async false

set_option linter.unusedTactic false
set_option linter.unreachableTactic false

namespace Sys2Proof.Machine.State

theorem advanceSwap_calm {k0 : Still} {s : State} (h : s.Calm k0) (g : Grp) : (State.advanceSwap s g).Calm k0 := by
  unfold State.advanceSwap
  repeat' first
    | with_reducible assumption
    | exact fun hm => hm
    | exact fun _ hq => hq
    | with_reducible apply modGroup_calm
    | with_reducible apply ite_calm
    | split
    | (intro _ _; (try dsimp only); split)

theorem storeWord_calm {k0 : Still} {s : State} (h : s.Calm k0) (k : Nat) (v : Word) : (State.storeWord s k v).Calm k0 := by
  unfold State.storeWord
  repeat' first
    | with_reducible assumption
    | (extract_lets +onlyGivenNames x
       have hx : State.Calm k0 x := by
        unfold x
        repeat' first
          | with_reducible assumption
          | exact rfl
          | (extract_lets +onlyGivenNames y; subst y)
          | with_reducible apply mk_calm
       clear_value x)
    | (extract_lets +onlyGivenNames x; subst x)
    | exact rfl
    | with_reducible apply mk_calm

theorem handOver_calm {k0 : Still} {s : State} (h : s.Calm k0) (g : Grp) : (State.handOver s g).Calm k0 := by
  unfold State.handOver
  repeat' first
    | with_reducible assumption
    | (extract_lets +onlyGivenNames x
       have hx : State.Calm k0 x := by
        unfold x
        repeat' first
          | with_reducible assumption
          | exact fun hm => hm
          | exact fun _ hq => hq
          | exact fun _ hk => hk
          | exact fun _ => rfl
          | with_reducible apply advanceSwap_calm
          | with_reducible apply finish_calm
          | with_reducible apply modGroup_calm
          | with_reducible apply modTicket_calm
          | with_reducible apply running_calm
          | with_reducible apply storeWord_calm
          | with_reducible apply ite_calm
          | split
          | (intro _ _; (try dsimp only); split)
          | (extract_lets +onlyGivenNames y; clear_value y)
                | (extract_lets +onlyGivenNames y; subst y)
       clear_value x)
    | (extract_lets +onlyGivenNames x; clear_value x)
    | (extract_lets +onlyGivenNames x; subst x)
    | exact fun hm => hm
    | exact fun _ hq => hq
    | exact fun _ hk => hk
    | exact fun _ => rfl
    | with_reducible apply advanceSwap_calm
    | with_reducible apply finish_calm
    | with_reducible apply modGroup_calm
    | with_reducible apply modTicket_calm
    | with_reducible apply running_calm
    | with_reducible apply storeWord_calm
    | with_reducible apply ite_calm
    | split
    | (intro _ _; (try dsimp only); split)

theorem execSwapValidationDone_calm {k0 : Still} {s : State} (h : s.Calm k0) (g : Grp) :
    OutCalm k0 (State.execSwapValidationDone g s) := by
  unfold State.execSwapValidationDone
  show State.Calm k0 _
  repeat' first
    | with_reducible assumption
    | (extract_lets +onlyGivenNames x
       have hx : State.Calm k0 x := by
        unfold x
        repeat' first
          | with_reducible assumption
          | exact fun hm => hm
          | exact fun _ hq => hq
          | with_reducible apply advanceSwap_calm
          | with_reducible apply finish_calm
          | with_reducible apply modGroup_calm
          | with_reducible apply running_calm
          | with_reducible apply ite_calm
          | split
          | (intro _ _; (try dsimp only); split)
          | (extract_lets +onlyGivenNames y; clear_value y)
                | (extract_lets +onlyGivenNames y; subst y)
       clear_value x)
    | (extract_lets +onlyGivenNames x; clear_value x)
    | (extract_lets +onlyGivenNames x; subst x)
    | exact fun hm => hm
    | exact fun _ hq => hq
    | with_reducible apply advanceSwap_calm
    | with_reducible apply finish_calm
    | with_reducible apply modGroup_calm
    | with_reducible apply running_calm
    | with_reducible apply ite_calm
    | split
    | (intro _ _; (try dsimp only); split)

theorem tryMode_calm {k0 : Still} {s : State} (h : s.Calm k0) (m : Main) (t : Nat) (code : Nat) : (State.tryMode s m t code).Calm k0 := by
  unfold State.tryMode
  repeat' first
    | with_reducible assumption
    | (extract_lets +onlyGivenNames x
       have hx : State.Calm k0 x := by
        unfold x
        repeat' first
          | with_reducible assumption
          | with_reducible apply finish_calm
          | with_reducible apply modEng_calm
          | with_reducible apply present_calm
          | with_reducible apply ite_calm
          | split
          | (extract_lets +onlyGivenNames y; clear_value y)
                | (extract_lets +onlyGivenNames y; subst y)
       clear_value x)
    | (extract_lets +onlyGivenNames x; clear_value x)
    | (extract_lets +onlyGivenNames x; subst x)
    | with_reducible apply finish_calm
    | with_reducible apply modEng_calm
    | with_reducible apply present_calm
    | with_reducible apply ite_calm
    | split

theorem newMode_calm {k0 : Still} {s : State} (h : s.Calm k0) (m : Main) (t : Nat) (code : Nat) : (State.newMode s m t code).Calm k0 := by
  unfold State.newMode
  repeat' first
    | with_reducible assumption
    | with_reducible apply finishOpt_calm
    | with_reducible apply tryMode_calm

theorem retryModes_calm {k0 : Still} {s : State} (h : s.Calm k0) (g : Grp) : (State.retryModes s g).Calm k0 := by
  unfold State.retryModes
  repeat' first
    | with_reducible assumption
    | with_reducible apply tryMode_calm
    | with_reducible apply foldl_calm
    | (intro z b hz; beta_reduce)
    | split

theorem takeNoun_calm {k0 : Still} {s : State} (h : s.Calm k0) (id : Nat) (v : Int) : (State.takeNoun s id v).Calm k0 := by
  unfold State.takeNoun
  repeat' first
    | with_reducible assumption
    | (extract_lets +onlyGivenNames x
       have hx : State.Calm k0 x := by
        unfold x
        repeat' first
          | with_reducible assumption
          | with_reducible apply modYield_calm
          | with_reducible apply setNoun_calm
          | split
          | (extract_lets +onlyGivenNames y; clear_value y)
                | (extract_lets +onlyGivenNames y; subst y)
       clear_value x)
    | (extract_lets +onlyGivenNames x; clear_value x)
    | (extract_lets +onlyGivenNames x; subst x)
    | with_reducible apply modYield_calm
    | with_reducible apply setNoun_calm
    | split

theorem takeChange_calm {k0 : Still} {s : State} (h : s.Calm k0) (g : Grp) (c : EngChange) : (State.takeChange s g c).Calm k0 := by
  unfold State.takeChange
  repeat' first
    | with_reducible assumption
    | exact fun hm => hm
    | exact fun _ hq => hq
    | with_reducible apply modGroup_calm
    | with_reducible apply newMode_calm
    | with_reducible apply present_calm
    | with_reducible apply takeNoun_calm
    | split
    | (intro _ _; (try dsimp only); split)

theorem takeInbox_calm {k0 : Still} {s : State} (h : s.Calm k0) (g : Grp) (sample : Option Nat) : (State.takeInbox s g sample).Calm k0 := by
  unfold State.takeInbox
  repeat' first
    | with_reducible assumption
    | (extract_lets +onlyGivenNames x
       have hx : State.Calm k0 x := by
        unfold x
        repeat' first
          | with_reducible assumption
          | exact fun hm => hm
          | exact fun _ hq => hq
          | with_reducible apply modGroup_calm
          | with_reducible apply takeChange_calm
          | with_reducible apply foldl_calm
          | (intro z b hz; beta_reduce)
          | split
          | (intro _ _; (try dsimp only); split)
          | (extract_lets +onlyGivenNames y; have : ∀ z : State, State.Calm k0 (y z) ∨ True := (fun _ => .inr trivial); clear this; subst y)
                | (extract_lets +onlyGivenNames y; have : ∀ (z : State) b, State.Calm k0 (y z b) ∨ True := (fun _ _ => .inr trivial); clear this; subst y)
                | (extract_lets +onlyGivenNames y; clear_value y)
                | (extract_lets +onlyGivenNames y; subst y)
       clear_value x)
    | (extract_lets +onlyGivenNames x; have : ∀ z : State, State.Calm k0 (x z) ∨ True := (fun _ => .inr trivial); clear this; subst x)
    | (extract_lets +onlyGivenNames x; have : ∀ (z : State) b, State.Calm k0 (x z b) ∨ True := (fun _ _ => .inr trivial); clear this; subst x)
    | (extract_lets +onlyGivenNames x; clear_value x)
    | (extract_lets +onlyGivenNames x; subst x)
    | exact fun hm => hm
    | exact fun _ hq => hq
    | with_reducible apply modGroup_calm
    | with_reducible apply takeChange_calm
    | with_reducible apply foldl_calm
    | (intro z b hz; beta_reduce)
    | split
    | (intro _ _; (try dsimp only); split)

theorem takeSwap_calm {k0 : Still} {s : State} (h : s.Calm k0) (g : Grp) : (State.takeSwap s g).Calm k0 := by
  unfold State.takeSwap
  repeat' first
    | with_reducible assumption
    | (extract_lets +onlyGivenNames x
       have hx : State.Calm k0 x := by
        unfold x
        repeat' first
          | with_reducible assumption
          | exact fun hm => hm
          | exact fun _ hq => hq
          | with_reducible apply modGroup_calm
          | with_reducible apply ite_calm
          | split
          | (intro _ _; (try dsimp only); split)
          | (extract_lets +onlyGivenNames y; clear_value y)
                | (extract_lets +onlyGivenNames y; subst y)
       clear_value x)
    | (extract_lets +onlyGivenNames x; clear_value x)
    | (extract_lets +onlyGivenNames x; subst x)
    | exact fun hm => hm
    | exact fun _ hq => hq
    | with_reducible apply modGroup_calm
    | with_reducible apply ite_calm
    | split
    | (intro _ _; (try dsimp only); split)

theorem abortStart_calm {k0 : Still} {s : State} (h : s.Calm k0) (g : Grp) (m : Main) (run : Option AxisRun) : (State.abortStart s g m run).Calm k0 := by
  unfold State.abortStart
  repeat' first
    | with_reducible assumption
    | with_reducible apply enterRest_calm
    | with_reducible apply leaveTorque_calm
    | with_reducible apply ite_calm
    | split

theorem abortHome_calm {k0 : Still} {s : State} (h : s.Calm k0) (a : AuxNo) (k : Nat) : (State.abortHome s a k).Calm k0 := by
  unfold State.abortHome
  repeat' first
    | with_reducible assumption
    | (extract_lets +onlyGivenNames x
       have hx : State.Calm k0 x := by
        unfold x
        repeat' first
          | with_reducible assumption
          | with_reducible apply endHome_calm
          | with_reducible apply finish_calm
          | with_reducible apply haltAux_calm
          | with_reducible apply modAux_calm
          | with_reducible apply ite_calm
          | (extract_lets +onlyGivenNames y; clear_value y)
                | (extract_lets +onlyGivenNames y; subst y)
       clear_value x)
    | (extract_lets +onlyGivenNames x; clear_value x)
    | (extract_lets +onlyGivenNames x; subst x)
    | with_reducible apply endHome_calm
    | with_reducible apply finish_calm
    | with_reducible apply haltAux_calm
    | with_reducible apply modAux_calm
    | with_reducible apply ite_calm

theorem abortMotion_calm {k0 : Still} {s : State} (h : s.Calm k0) (g : Grp) (k : Nat) (rn : Option GroupRun) : (State.abortMotion s g k rn).Calm k0 := by
  unfold State.abortMotion
  repeat' first
    | with_reducible assumption
    | (extract_lets +onlyGivenNames x
       have hx : State.Calm k0 x := by
        unfold x
        repeat' first
          | with_reducible assumption
          | exact fun hm => hm
          | exact fun _ hq => hq
          | with_reducible apply abortHome_calm
          | with_reducible apply abortStart_calm
          | with_reducible apply dropTicket_calm
          | with_reducible apply finish_calm
          | with_reducible apply haltPath_calm
          | with_reducible apply modGroup_calm
          | with_reducible apply putTarget_calm
          | with_reducible apply ite_calm
          | split
          | (intro _ _; (try dsimp only); split)
          | (extract_lets +onlyGivenNames y; clear_value y)
                | (extract_lets +onlyGivenNames y; subst y)
       clear_value x)
    | (extract_lets +onlyGivenNames x; clear_value x)
    | (extract_lets +onlyGivenNames x; subst x)
    | exact fun hm => hm
    | exact fun _ hq => hq
    | with_reducible apply abortHome_calm
    | with_reducible apply abortStart_calm
    | with_reducible apply dropTicket_calm
    | with_reducible apply finish_calm
    | with_reducible apply haltPath_calm
    | with_reducible apply modGroup_calm
    | with_reducible apply putTarget_calm
    | with_reducible apply ite_calm
    | split
    | (intro _ _; (try dsimp only); split)

theorem abortEnable_calm {k0 : Still} {s : State} (h : s.Calm k0) (g : Grp) (k : Nat) (rn : Option GroupRun) : (State.abortEnable s g k rn).Calm k0 := by
  unfold State.abortEnable
  repeat' first
    | with_reducible assumption
    | (extract_lets +onlyGivenNames x
       have hx : State.Calm k0 x := by
        unfold x
        repeat' first
          | with_reducible assumption
          | with_reducible apply abortStart_calm
          | with_reducible apply disableAux_calm
          | with_reducible apply disableMain_calm
          | with_reducible apply finish_calm
          | with_reducible apply modMain_calm
          | with_reducible apply putTarget_calm
          | with_reducible apply ite_calm
          | split
          | (extract_lets +onlyGivenNames y; clear_value y)
                | (extract_lets +onlyGivenNames y; subst y)
       clear_value x)
    | (extract_lets +onlyGivenNames x; clear_value x)
    | (extract_lets +onlyGivenNames x; subst x)
    | with_reducible apply abortStart_calm
    | with_reducible apply disableAux_calm
    | with_reducible apply disableMain_calm
    | with_reducible apply finish_calm
    | with_reducible apply modMain_calm
    | with_reducible apply putTarget_calm
    | with_reducible apply ite_calm
    | split

theorem abortQueue_calm {k0 : Still} {s : State} (h : s.Calm k0) (g : Grp) (k : Nat) : (State.abortQueue s g k).Calm k0 := by
  unfold State.abortQueue
  repeat' first
    | with_reducible assumption
    | (extract_lets +onlyGivenNames x
       have hx : State.Calm k0 x := by
        unfold x
        repeat' first
          | with_reducible assumption
          | exact fun hm => hm
          | exact fun _ hq => hq
          | with_reducible apply advanceSwap_calm
          | with_reducible apply finish_calm
          | with_reducible apply modGroup_calm
          | with_reducible apply ite_calm
          | split
          | (intro _ _; (try dsimp only); split)
          | (extract_lets +onlyGivenNames y; clear_value y)
                | (extract_lets +onlyGivenNames y; subst y)
       clear_value x)
    | (extract_lets +onlyGivenNames x; clear_value x)
    | (extract_lets +onlyGivenNames x; subst x)
    | exact fun hm => hm
    | exact fun _ hq => hq
    | with_reducible apply advanceSwap_calm
    | with_reducible apply finish_calm
    | with_reducible apply modGroup_calm
    | with_reducible apply ite_calm
    | split
    | (intro _ _; (try dsimp only); split)

theorem abortMode_calm {k0 : Still} {s : State} (h : s.Calm k0) (g : Grp) (k : Nat) : (State.abortMode s g k).Calm k0 := by
  unfold State.abortMode
  repeat' first
    | with_reducible assumption
    | with_reducible apply finish_calm
    | with_reducible apply modEng_calm
    | with_reducible apply ite_calm
    | split

theorem settleAbort_calm {k0 : Still} {s : State} (h : s.Calm k0) (g : Grp) (rn : Option GroupRun) (t : Nat) (k : Nat) : (State.settleAbort s g rn t k).Calm k0 := by
  unfold State.settleAbort
  repeat' first
    | with_reducible assumption
    | (extract_lets +onlyGivenNames x
       have hx : State.Calm k0 x := by
        unfold x
        repeat' first
          | with_reducible assumption
          | with_reducible apply abortEnable_calm
          | with_reducible apply abortMode_calm
          | with_reducible apply abortMotion_calm
          | with_reducible apply abortQueue_calm
          | with_reducible apply finish_calm
          | with_reducible apply ite_calm
          | split
          | (extract_lets +onlyGivenNames y; clear_value y)
                | (extract_lets +onlyGivenNames y; subst y)
       clear_value x)
    | (extract_lets +onlyGivenNames x; clear_value x)
    | (extract_lets +onlyGivenNames x; subst x)
    | with_reducible apply abortEnable_calm
    | with_reducible apply abortMode_calm
    | with_reducible apply abortMotion_calm
    | with_reducible apply abortQueue_calm
    | with_reducible apply finish_calm
    | with_reducible apply ite_calm
    | split

theorem settleAborts_calm {k0 : Still} {s : State} (h : s.Calm k0) (g : Grp) (rn : Option GroupRun) : (State.settleAborts s g rn).Calm k0 := by
  unfold State.settleAborts
  repeat' first
    | with_reducible assumption
    | (extract_lets +onlyGivenNames x
       have hx : State.Calm k0 x := by
        unfold x
        repeat' first
          | with_reducible assumption
          | exact fun hm => hm
          | exact fun _ hq => hq
          | with_reducible apply modGroup_calm
          | with_reducible apply settleAbort_calm
          | with_reducible apply foldl_calm
          | (intro z b hz; beta_reduce)
          | (extract_lets +onlyGivenNames y; clear_value y)
                | (extract_lets +onlyGivenNames y; subst y)
       clear_value x)
    | (extract_lets +onlyGivenNames x; clear_value x)
    | (extract_lets +onlyGivenNames x; subst x)
    | exact fun hm => hm
    | exact fun _ hq => hq
    | with_reducible apply modGroup_calm
    | with_reducible apply settleAbort_calm
    | with_reducible apply foldl_calm
    | (intro z b hz; beta_reduce)

theorem latchGroup_calm {k0 : Still} {s : State} (h : s.Calm k0) (g : Grp) : (State.latchGroup s g).Calm k0 := by
  unfold State.latchGroup
  repeat' first
    | with_reducible assumption
    | (extract_lets +onlyGivenNames x
       have hx : State.Calm k0 x := by
        unfold x
        repeat' first
          | with_reducible assumption
          | exact fun hm => hm
          | exact fun _ hq => hq
          | with_reducible apply modGroup_calm
          | (extract_lets +onlyGivenNames y; clear_value y)
                | (extract_lets +onlyGivenNames y; subst y)
       clear_value x)
    | (extract_lets +onlyGivenNames x; clear_value x)
    | (extract_lets +onlyGivenNames x; subst x)
    | exact fun hm => hm
    | exact fun _ hq => hq
    | with_reducible apply modGroup_calm

theorem instantMain_calm {k0 : Still} {s : State} (h : s.Calm k0) (g : Grp) (m : Main) : (State.instantMain s g m).Calm k0 := by
  unfold State.instantMain
  repeat' first
    | with_reducible assumption
    | (extract_lets +onlyGivenNames x
       have hx : State.Calm k0 x := by
        unfold x
        repeat' first
          | with_reducible assumption
          | with_reducible apply beginWindow_calm
          | with_reducible apply modDrive_calm
          | with_reducible apply startGates_calm
          | with_reducible apply updatePwm_calm
          | (extract_lets +onlyGivenNames y; clear_value y)
                | (extract_lets +onlyGivenNames y; subst y)
       clear_value x)
    | (extract_lets +onlyGivenNames x; clear_value x)
    | (extract_lets +onlyGivenNames x; subst x)
    | with_reducible apply beginWindow_calm
    | with_reducible apply modDrive_calm
    | with_reducible apply startGates_calm
    | with_reducible apply updatePwm_calm

theorem instantAux_calm {k0 : Still} {s : State} (h : s.Calm k0) (a : AuxNo) : (State.instantAux s a).Calm k0 := by
  unfold State.instantAux
  repeat' first
    | with_reducible assumption
    | with_reducible apply modAux_calm

theorem sampleInstant_calm {k0 : Still} {s0 : State} (h : s0.Calm k0) (g : Grp) : (State.sampleInstant s0 g).Calm k0 := by
  unfold State.sampleInstant
  repeat' first
    | with_reducible assumption
    | (extract_lets +onlyGivenNames x
       have hx : State.Calm k0 x := by
        unfold x
        repeat' first
          | with_reducible assumption
          | exact fun hm => hm
          | exact fun _ hq => hq
          | with_reducible apply beginWindow_calm
          | with_reducible apply instantAux_calm
          | with_reducible apply instantMain_calm
          | with_reducible apply latchGroup_calm
          | with_reducible apply loseGroup_calm
          | with_reducible apply modGroup_calm
          | with_reducible apply retryModes_calm
          | with_reducible apply running_calm
          | with_reducible apply takeInbox_calm
          | with_reducible apply takeSwap_calm
          | with_reducible apply foldl_calm
          | with_reducible apply eachFin_calm
          | (intro z b hz; beta_reduce)
          | with_reducible apply ite_calm
          | split
          | (intro _ _; (try dsimp only); split)
          | (extract_lets +onlyGivenNames y; clear_value y)
                | (extract_lets +onlyGivenNames y; subst y)
       clear_value x)
    | (extract_lets +onlyGivenNames x; clear_value x)
    | (extract_lets +onlyGivenNames x; subst x)
    | exact fun hm => hm
    | exact fun _ hq => hq
    | with_reducible apply beginWindow_calm
    | with_reducible apply instantAux_calm
    | with_reducible apply instantMain_calm
    | with_reducible apply latchGroup_calm
    | with_reducible apply loseGroup_calm
    | with_reducible apply modGroup_calm
    | with_reducible apply retryModes_calm
    | with_reducible apply running_calm
    | with_reducible apply takeInbox_calm
    | with_reducible apply takeSwap_calm
    | with_reducible apply foldl_calm
    | with_reducible apply eachFin_calm
    | (intro z b hz; beta_reduce)
    | with_reducible apply ite_calm
    | split
    | (intro _ _; (try dsimp only); split)

theorem dropBound_calm {k0 : Still} {s : State} (h : s.Calm k0) (g : Grp) : (State.dropBound s g).Calm k0 := by
  unfold State.dropBound
  repeat' first
    | with_reducible assumption
    | (extract_lets +onlyGivenNames x
       have hx : State.Calm k0 x := by
        unfold x
        repeat' first
          | with_reducible assumption
          | exact fun hm => hm
          | exact fun _ hq => hq
          | with_reducible apply finishOpt_calm
          | with_reducible apply modGroup_calm
          | with_reducible apply foldl_calm
          | (intro z b hz; beta_reduce)
          | with_reducible apply ite_calm
          | (intro _ _; (try dsimp only); split)
          | (extract_lets +onlyGivenNames y; clear_value y)
                | (extract_lets +onlyGivenNames y; subst y)
       clear_value x)
    | (extract_lets +onlyGivenNames x; clear_value x)
    | (extract_lets +onlyGivenNames x; subst x)
    | exact fun hm => hm
    | exact fun _ hq => hq
    | with_reducible apply finishOpt_calm
    | with_reducible apply modGroup_calm
    | with_reducible apply foldl_calm
    | (intro z b hz; beta_reduce)
    | with_reducible apply ite_calm
    | (intro _ _; (try dsimp only); split)

theorem stoppedTick_calm {k0 : Still} {s : State} (h : s.Calm k0) (g : Grp) : (State.stoppedTick s g).Calm k0 := by
  unfold State.stoppedTick
  repeat' first
    | with_reducible assumption
    | (extract_lets +onlyGivenNames x
       have hx : State.Calm k0 x := by
        unfold x
        repeat' first
          | with_reducible assumption
          | exact fun hm => hm
          | exact fun _ hq => hq
          | with_reducible apply dropBound_calm
          | with_reducible apply finishOpt_calm
          | with_reducible apply finishSeen_calm
          | with_reducible apply handOver_calm
          | with_reducible apply modGroup_calm
          | with_reducible apply retryModes_calm
          | with_reducible apply settleAborts_calm
          | with_reducible apply takeInbox_calm
          | with_reducible apply tryStart_calm
          | with_reducible apply foldl_calm
          | (intro z b hz; beta_reduce)
          | with_reducible apply ite_calm
          | (intro _ _; (try dsimp only); split)
          | (extract_lets +onlyGivenNames y; clear_value y)
                | (extract_lets +onlyGivenNames y; subst y)
       clear_value x)
    | (extract_lets +onlyGivenNames x; clear_value x)
    | (extract_lets +onlyGivenNames x; subst x)
    | exact fun hm => hm
    | exact fun _ hq => hq
    | with_reducible apply dropBound_calm
    | with_reducible apply finishOpt_calm
    | with_reducible apply finishSeen_calm
    | with_reducible apply handOver_calm
    | with_reducible apply modGroup_calm
    | with_reducible apply retryModes_calm
    | with_reducible apply settleAborts_calm
    | with_reducible apply takeInbox_calm
    | with_reducible apply tryStart_calm
    | with_reducible apply foldl_calm
    | (intro z b hz; beta_reduce)
    | with_reducible apply ite_calm
    | (intro _ _; (try dsimp only); split)

theorem stopRequests_calm {k0 : Still} {s : State} (h : s.Calm k0) (old : BitVec 4) : (State.stopRequests s old).Calm k0 := by
  unfold State.stopRequests
  repeat' first
    | with_reducible assumption
    | exact fun hm => hm
    | exact fun _ hq => hq
    | with_reducible apply modGroup_calm
    | with_reducible apply foldl_calm
    | with_reducible apply eachFin_calm
    | (intro z b hz; beta_reduce)
    | with_reducible apply ite_calm
    | split
    | (intro _ _; (try dsimp only); split)

theorem idleRequests_calm {k0 : Still} {s : State} (h : s.Calm k0)  : (State.idleRequests s).Calm k0 := by
  unfold State.idleRequests
  repeat' first
    | with_reducible assumption
    | with_reducible apply clearTorque_calm
    | with_reducible apply eachFin_calm
    | (intro z b hz; beta_reduce)
    | with_reducible apply ite_calm

theorem abortOthers_calm {k0 : Still} {s : State} (h : s.Calm k0) (t : Nat) : (State.abortOthers s t).Calm k0 := by
  unfold State.abortOthers
  repeat' first
    | with_reducible assumption
    | (extract_lets +onlyGivenNames x
       have hx : State.Calm k0 x := by
        unfold x
        repeat' first
          | with_reducible assumption
          | with_reducible apply AState.num_calm
          | with_reducible apply CState.num_calm
          | with_reducible apply SState.num_calm
          | with_reducible apply SlotState.num_calm
          | with_reducible apply TxState.num_calm
          | with_reducible apply YState.num_calm
          | with_reducible apply finish_calm
          | with_reducible apply foldl_calm
          | (intro z b hz; beta_reduce)
          | exact rfl
          | (extract_lets +onlyGivenNames y; subst y)
          | with_reducible apply mk_calm
       clear_value x)
    | (extract_lets +onlyGivenNames x; subst x)
    | with_reducible apply AState.num_calm
    | with_reducible apply CState.num_calm
    | with_reducible apply SState.num_calm
    | with_reducible apply SlotState.num_calm
    | with_reducible apply TxState.num_calm
    | with_reducible apply YState.num_calm
    | with_reducible apply finish_calm
    | with_reducible apply foldl_calm
    | (intro z b hz; beta_reduce)
    | exact rfl
    | with_reducible apply mk_calm

theorem answerDue_calm {k0 : Still} {s : State} (h : s.Calm k0) (t : Nat) (d : Due) : (State.answerDue s t d).Calm k0 := by
  unfold State.answerDue
  repeat' first
    | with_reducible assumption
    | (extract_lets +onlyGivenNames x
       have hx : State.Calm k0 x := by
        unfold x
        repeat' first
          | with_reducible assumption
          | with_reducible apply abortOthers_calm
          | with_reducible apply finish_calm
          | (extract_lets +onlyGivenNames y; subst y)
          | with_reducible apply mk_calm
       clear_value x)
    | (extract_lets +onlyGivenNames x; subst x)
    | with_reducible apply abortOthers_calm
    | with_reducible apply finish_calm
    | with_reducible apply mk_calm

theorem settleRestart_calm {k0 : Still} {s : State} (h : s.Calm k0)  : (State.settleRestart s).Calm k0 := by
  unfold State.settleRestart
  repeat' first
    | with_reducible assumption
    | with_reducible apply answerDue_calm
    | with_reducible apply ite_calm
    | split
    | with_reducible apply mk_calm

theorem sendSync_calm {k0 : Still} {s : State} (h : s.Calm k0)  : (State.sendSync s).Calm k0 := by
  unfold State.sendSync
  repeat' first
    | with_reducible assumption
    | (extract_lets +onlyGivenNames x
       have hx : State.Calm k0 x := by
        unfold x
        repeat' first
          | with_reducible assumption
          | with_reducible apply modCascade_calm
          | with_reducible apply ite_calm
          | (extract_lets +onlyGivenNames y; clear_value y)
                | (extract_lets +onlyGivenNames y; subst y)
       clear_value x)
    | (extract_lets +onlyGivenNames x; clear_value x)
    | (extract_lets +onlyGivenNames x; subst x)
    | with_reducible apply modCascade_calm
    | with_reducible apply ite_calm

theorem traceCommit_calm {k0 : Still} {s : State} {s0 : State} (h : s.Calm k0) (hs0 : s0.Calm k0) (g : Grp) (meas : List Meas) : (State.traceCommit s s0 g meas).Calm k0 := by
  unfold State.traceCommit
  repeat' first
    | with_reducible assumption
    | (extract_lets +onlyGivenNames x
       have hx : State.Calm k0 x := by
        unfold x
        repeat' first
          | with_reducible assumption
          | exact fun hm => hm
          | exact fun _ hq => hq
          | with_reducible apply gffTrace_calm
          | with_reducible apply modGff_calm
          | with_reducible apply ite_calm
          | (intro _ _; (try dsimp only); split)
          | (extract_lets +onlyGivenNames y; clear_value y)
                | (extract_lets +onlyGivenNames y; subst y)
       clear_value x)
    | (extract_lets +onlyGivenNames x; clear_value x)
    | (extract_lets +onlyGivenNames x; subst x)
    | exact fun hm => hm
    | exact fun _ hq => hq
    | with_reducible apply gffTrace_calm
    | with_reducible apply modGff_calm
    | with_reducible apply ite_calm
    | (intro _ _; (try dsimp only); split)

theorem finishVisible_calm {k0 : Still} {s : State} (h : s.Calm k0) (g : Grp) : (State.finishVisible s g).Calm k0 := by
  unfold State.finishVisible
  repeat' first
    | with_reducible assumption
    | (extract_lets +onlyGivenNames x
       have hx : State.Calm k0 x := by
        unfold x
        repeat' first
          | with_reducible assumption
          | exact fun hm => hm
          | exact fun _ hq => hq
          | with_reducible apply finishOpt_calm
          | with_reducible apply finishSeen_calm
          | with_reducible apply modGroup_calm
          | (extract_lets +onlyGivenNames y; clear_value y)
                | (extract_lets +onlyGivenNames y; subst y)
       clear_value x)
    | (extract_lets +onlyGivenNames x; clear_value x)
    | (extract_lets +onlyGivenNames x; subst x)
    | exact fun hm => hm
    | exact fun _ hq => hq
    | with_reducible apply finishOpt_calm
    | with_reducible apply finishSeen_calm
    | with_reducible apply modGroup_calm

theorem takeSpan_calm {k0 : Still} {s : State} (h : s.Calm k0) (g : Grp) : (State.takeSpan s g).Calm k0 := by
  unfold State.takeSpan
  repeat' first
    | with_reducible assumption
    | (extract_lets +onlyGivenNames x
       have hx : State.Calm k0 x := by
        unfold x
        repeat' first
          | with_reducible assumption
          | exact fun hm => hm
          | exact fun _ hq => hq
          | with_reducible apply disableAux_calm
          | with_reducible apply disableMain_calm
          | with_reducible apply enterEmergency_calm
          | with_reducible apply modGroup_calm
          | with_reducible apply foldl_calm
          | (intro z b hz; beta_reduce)
          | with_reducible apply ite_calm
          | (intro _ _; (try dsimp only); split)
          | (extract_lets +onlyGivenNames y; clear_value y)
                | (extract_lets +onlyGivenNames y; subst y)
       clear_value x)
    | (extract_lets +onlyGivenNames x; clear_value x)
    | (extract_lets +onlyGivenNames x; subst x)
    | exact fun hm => hm
    | exact fun _ hq => hq
    | with_reducible apply disableAux_calm
    | with_reducible apply disableMain_calm
    | with_reducible apply enterEmergency_calm
    | with_reducible apply modGroup_calm
    | with_reducible apply foldl_calm
    | (intro z b hz; beta_reduce)
    | with_reducible apply ite_calm
    | (intro _ _; (try dsimp only); split)

theorem clearReports_calm {k0 : Still} {s : State} (h : s.Calm k0) (g : Grp) : (State.clearReports s g).Calm k0 := by
  unfold State.clearReports
  repeat' first
    | with_reducible assumption
    | with_reducible apply modLink_calm
    | with_reducible apply eachFin_calm
    | (intro z b hz; beta_reduce)
    | with_reducible apply ite_calm

theorem commitSample_calm {k0 : Still} {s : State} (h : s.Calm k0) (g : Grp) : (State.commitSample s g).Calm k0 := by
  unfold State.commitSample
  repeat' first
    | with_reducible assumption
    | (extract_lets +onlyGivenNames x
       have hx : State.Calm k0 x := by
        unfold x
        repeat' first
          | with_reducible assumption
          | exact fun hm => hm
          | exact fun _ hq => hq
          | with_reducible apply checkStop_calm
          | with_reducible apply clearReports_calm
          | with_reducible apply commitAuxs_calm
          | with_reducible apply commitAxis_calm
          | with_reducible apply commitChoppers_calm
          | with_reducible apply commitCoupled_calm
          | with_reducible apply commitLinks_calm
          | with_reducible apply commitWork_calm
          | with_reducible apply commitYield_calm
          | with_reducible apply completeMotion_calm
          | with_reducible apply disableLatched_calm
          | with_reducible apply emergencyWatch_calm
          | with_reducible apply finishVisible_calm
          | with_reducible apply handOver_calm
          | with_reducible apply modGroup_calm
          | with_reducible apply settleAborts_calm
          | with_reducible apply stepMotion_calm
          | with_reducible apply takeEmergency_calm
          | with_reducible apply takeSpan_calm
          | with_reducible apply traceCommit_calm
          | with_reducible apply foldl_calm
          | (intro z b hz; beta_reduce)
          | with_reducible apply ite_calm
          | (intro _ _; (try dsimp only); split)
          | (extract_lets +onlyGivenNames y; subst y)
          | with_reducible apply mk_calm
       clear_value x)
    | (extract_lets +onlyGivenNames x; subst x)
    | exact fun hm => hm
    | exact fun _ hq => hq
    | with_reducible apply checkStop_calm
    | with_reducible apply clearReports_calm
    | with_reducible apply commitAuxs_calm
    | with_reducible apply commitAxis_calm
    | with_reducible apply commitChoppers_calm
    | with_reducible apply commitCoupled_calm
    | with_reducible apply commitLinks_calm
    | with_reducible apply commitWork_calm
    | with_reducible apply commitYield_calm
    | with_reducible apply completeMotion_calm
    | with_reducible apply disableLatched_calm
    | with_reducible apply emergencyWatch_calm
    | with_reducible apply finishVisible_calm
    | with_reducible apply handOver_calm
    | with_reducible apply modGroup_calm
    | with_reducible apply settleAborts_calm
    | with_reducible apply stepMotion_calm
    | with_reducible apply takeEmergency_calm
    | with_reducible apply takeSpan_calm
    | with_reducible apply traceCommit_calm
    | with_reducible apply foldl_calm
    | (intro z b hz; beta_reduce)
    | with_reducible apply ite_calm
    | (intro _ _; (try dsimp only); split)
    | with_reducible apply mk_calm

theorem repeatSample_calm {k0 : Still} {s : State} (h : s.Calm k0) (g : Grp) : (State.repeatSample s g).Calm k0 := by
  unfold State.repeatSample
  repeat' first
    | with_reducible assumption
    | (extract_lets +onlyGivenNames x
       have hx : State.Calm k0 x := by
        unfold x
        repeat' first
          | with_reducible assumption
          | exact fun hm => hm
          | exact fun _ hq => hq
          | with_reducible apply advanceCoast_calm
          | with_reducible apply advanceComm_calm
          | with_reducible apply gffTrace_calm
          | with_reducible apply handOver_calm
          | with_reducible apply modGroup_calm
          | with_reducible apply repeatFerr_calm
          | with_reducible apply stepMotion_calm
          | with_reducible apply foldl_calm
          | (intro z b hz; beta_reduce)
          | with_reducible apply ite_calm
          | (intro _ _; (try dsimp only); split)
          | (extract_lets +onlyGivenNames y; clear_value y)
                | (extract_lets +onlyGivenNames y; subst y)
       clear_value x)
    | (extract_lets +onlyGivenNames x; clear_value x)
    | (extract_lets +onlyGivenNames x; subst x)
    | exact fun hm => hm
    | exact fun _ hq => hq
    | with_reducible apply advanceCoast_calm
    | with_reducible apply advanceComm_calm
    | with_reducible apply gffTrace_calm
    | with_reducible apply handOver_calm
    | with_reducible apply modGroup_calm
    | with_reducible apply repeatFerr_calm
    | with_reducible apply stepMotion_calm
    | with_reducible apply foldl_calm
    | (intro z b hz; beta_reduce)
    | with_reducible apply ite_calm
    | (intro _ _; (try dsimp only); split)

theorem freeEngines_calm {k0 : Still} {s : State} (h : s.Calm k0)  : (State.freeEngines s).Calm k0 := by
  unfold State.freeEngines
  repeat' first
    | with_reducible assumption
    | with_reducible apply startSegment_calm
    | exact rfl
    | with_reducible apply mk_calm

theorem countErrors_calm {k0 : Still} {s : State} (h : s.Calm k0) (r : SegmentResult) : (State.countErrors s r).Calm k0 := by
  unfold State.countErrors
  repeat' first
    | with_reducible assumption
    | with_reducible apply mk_calm

theorem countTransient_calm {k0 : Still} {s : State} (h : s.Calm k0) (g : Grp) : (State.countTransient s g).Calm k0 := by
  unfold State.countTransient
  repeat' first
    | with_reducible assumption
    | (extract_lets +onlyGivenNames x
       have hx : State.Calm k0 x := by
        unfold x
        repeat' first
          | with_reducible assumption
          | with_reducible apply logEvent_calm
          | split
          | exact rfl
          | (extract_lets +onlyGivenNames y; subst y)
          | with_reducible apply mk_calm
       clear_value x)
    | (extract_lets +onlyGivenNames x; subst x)
    | with_reducible apply logEvent_calm
    | split
    | exact rfl
    | with_reducible apply mk_calm

theorem repairWords_calm {k0 : Still} {s : State} (h : s.Calm k0) (g : Grp) (r : SegmentResult) : (State.repairWords s g r).Calm k0 := by
  unfold State.repairWords
  repeat' first
    | with_reducible assumption
    | (extract_lets +onlyGivenNames x
       have hx : State.Calm k0 x := by
        unfold x
        repeat' first
          | with_reducible assumption
          | with_reducible apply copyWords_calm
          | with_reducible apply loseWords_calm
          | split
          | (extract_lets +onlyGivenNames y; clear_value y)
                | (extract_lets +onlyGivenNames y; subst y)
       clear_value x)
    | (extract_lets +onlyGivenNames x; clear_value x)
    | (extract_lets +onlyGivenNames x; subst x)
    | with_reducible apply copyWords_calm
    | with_reducible apply loseWords_calm
    | split

theorem retrySegment_calm {k0 : Still} {s : State} (h : s.Calm k0) (g : Grp) : (State.retrySegment s g).Calm k0 := by
  unfold State.retrySegment
  repeat' first
    | with_reducible assumption
    | exact fun hm => hm
    | exact fun _ hq => hq
    | with_reducible apply modGroup_calm
    | with_reducible apply segment_calm
    | exact rfl
    | with_reducible apply mk_calm

theorem lockstepEnd_calm {k0 : Still} {s : State} (h : s.Calm k0) (g : Grp) (r : SegmentResult) (retry : Bool) (agree : Bool) : (State.lockstepEnd s g r retry agree).Calm k0 := by
  unfold State.lockstepEnd
  repeat' first
    | with_reducible assumption
    | (extract_lets +onlyGivenNames x
       have hx : State.Calm k0 x := by
        unfold x
        repeat' first
          | with_reducible assumption
          | exact fun hm => hm
          | exact fun _ hq => hq
          | with_reducible apply commitSample_calm
          | with_reducible apply countTransient_calm
          | with_reducible apply freeEngines_calm
          | with_reducible apply loseWords_calm
          | with_reducible apply modGroup_calm
          | with_reducible apply repairWords_calm
          | with_reducible apply retrySegment_calm
          | with_reducible apply ite_calm
          | (intro _ _; (try dsimp only); split)
          | exact rfl
          | (extract_lets +onlyGivenNames y; subst y)
          | with_reducible apply mk_calm
       clear_value x)
    | (extract_lets +onlyGivenNames x; subst x)
    | exact fun hm => hm
    | exact fun _ hq => hq
    | with_reducible apply commitSample_calm
    | with_reducible apply countTransient_calm
    | with_reducible apply freeEngines_calm
    | with_reducible apply loseWords_calm
    | with_reducible apply modGroup_calm
    | with_reducible apply repairWords_calm
    | with_reducible apply retrySegment_calm
    | with_reducible apply ite_calm
    | (intro _ _; (try dsimp only); split)
    | exact rfl
    | with_reducible apply mk_calm

theorem simplexEnd_calm {k0 : Still} {s : State} (h : s.Calm k0) (g : Grp) (flagged : List (Fin 16384)) (retry : Bool) (agree : Bool) : (State.simplexEnd s g flagged retry agree).Calm k0 := by
  unfold State.simplexEnd
  repeat' first
    | with_reducible assumption
    | (extract_lets +onlyGivenNames x
       have hx : State.Calm k0 x := by
        unfold x
        repeat' first
          | with_reducible assumption
          | exact fun hm => hm
          | exact fun _ hq => hq
          | with_reducible apply askEmergency_calm
          | with_reducible apply commitSample_calm
          | with_reducible apply computeLost_calm
          | with_reducible apply freeEngines_calm
          | with_reducible apply loseWords_calm
          | with_reducible apply modGroup_calm
          | with_reducible apply retrySegment_calm
          | with_reducible apply ite_calm
          | (intro _ _; (try dsimp only); split)
          | (extract_lets +onlyGivenNames y; clear_value y)
                | (extract_lets +onlyGivenNames y; subst y)
       clear_value x)
    | (extract_lets +onlyGivenNames x; clear_value x)
    | (extract_lets +onlyGivenNames x; subst x)
    | exact fun hm => hm
    | exact fun _ hq => hq
    | with_reducible apply askEmergency_calm
    | with_reducible apply commitSample_calm
    | with_reducible apply computeLost_calm
    | with_reducible apply freeEngines_calm
    | with_reducible apply loseWords_calm
    | with_reducible apply modGroup_calm
    | with_reducible apply retrySegment_calm
    | with_reducible apply ite_calm
    | (intro _ _; (try dsimp only); split)

theorem execSegmentComplete_calm {k0 : Still} {s0 : State} (h : s0.Calm k0) (r : SegmentResult) :
    OutCalm k0 (State.execSegmentComplete r s0) := by
  unfold State.execSegmentComplete
  extract_lets s
  have hs : s.Calm k0 := countErrors_calm h _
  clear_value s
  show State.Calm k0 _
  split
  · extract_lets q inj fits mode
    clear_value q inj fits mode
    refine ite_calm (freeEngines_calm (modGroup_calm hs _ _)) (ite_calm h (ite_calm (freeEngines_calm (commitSample_calm hs _)) ?_))
    rename_i disturbed agree keeps s1
    have h1 : s1.Calm k0 := ite_calm (disarmEng_calm hs) hs
    clear_value s1
    split
    · exact lockstepEnd_calm h1 _ _ _ _
    · exact simplexEnd_calm h1 _ _ _ _
    · exact simplexEnd_calm h1 _ _ _ _
    · exact h1
  · exact h

theorem sendExchange_calm {k0 : Still} {s : State} (h : s.Calm k0) (g : Grp) (isRepeat : Bool) : (State.sendExchange s g isRepeat).Calm k0 := by
  unfold State.sendExchange
  repeat' first
    | with_reducible assumption
    | (extract_lets +onlyGivenNames x
       have hx : State.Calm k0 x := by
        unfold x
        repeat' first
          | with_reducible assumption
          | exact fun hm => hm
          | exact fun _ hq => hq
          | with_reducible apply modCascade_calm
          | with_reducible apply modGroup_calm
          | with_reducible apply running_calm
          | with_reducible apply ite_calm
          | split
          | (intro _ _; (try dsimp only); split)
          | (extract_lets +onlyGivenNames y; clear_value y)
                | (extract_lets +onlyGivenNames y; subst y)
       clear_value x)
    | (extract_lets +onlyGivenNames x; clear_value x)
    | (extract_lets +onlyGivenNames x; subst x)
    | exact fun hm => hm
    | exact fun _ hq => hq
    | with_reducible apply modCascade_calm
    | with_reducible apply modGroup_calm
    | with_reducible apply running_calm
    | with_reducible apply ite_calm
    | split
    | (intro _ _; (try dsimp only); split)

theorem overrun_calm {k0 : Still} {s : State} (h : s.Calm k0) (g : Grp) : (State.overrun s g).Calm k0 := by
  unfold State.overrun
  repeat' first
    | with_reducible assumption
    | (extract_lets +onlyGivenNames x
       have hx : State.Calm k0 x := by
        unfold x
        repeat' first
          | with_reducible assumption
          | exact fun hm => hm
          | exact fun _ hq => hq
          | with_reducible apply askEmergency_calm
          | with_reducible apply disarmEng_calm
          | with_reducible apply logEvent_calm
          | with_reducible apply modGroup_calm
          | with_reducible apply ite_calm
          | split
          | (intro _ _; (try dsimp only); split)
          | (extract_lets +onlyGivenNames y; clear_value y)
                | (extract_lets +onlyGivenNames y; subst y)
       clear_value x)
    | (extract_lets +onlyGivenNames x; clear_value x)
    | (extract_lets +onlyGivenNames x; subst x)
    | exact fun hm => hm
    | exact fun _ hq => hq
    | with_reducible apply askEmergency_calm
    | with_reducible apply disarmEng_calm
    | with_reducible apply logEvent_calm
    | with_reducible apply modGroup_calm
    | with_reducible apply ite_calm
    | split
    | (intro _ _; (try dsimp only); split)

theorem execComputeDeadline_calm {k0 : Still} {s : State} (h : s.Calm k0) (g : Grp) :
    OutCalm k0 (State.execComputeDeadline g s) := by
  unfold State.execComputeDeadline
  show State.Calm k0 _
  repeat' first
    | with_reducible assumption
    | with_reducible apply overrun_calm
    | with_reducible apply repeatSample_calm
    | with_reducible apply sendExchange_calm
    | split

end Sys2Proof.Machine.State
end

