-- ==== Sys2Proof/Laws/CalmRegisters.lean ====
section
/-! SUPPORT. The operations and commands of Machine/Registers.lean that leave alone what Laws/Calm.lean names. -/

set_option Elab.async false

set_option linter.unusedTactic false
set_option linter.unreachableTactic false

namespace Sys2Proof.Machine.State

theorem captureH_calm {k0 : Still} {s : State} (h : s.Calm k0) (a : Nat) : (State.captureH s a).Calm k0 := by
  unfold State.captureH
  repeat' first
    | with_reducible assumption
    | exact fun hm => hm
    | exact fun _ hq => hq
    | with_reducible apply modMail_calm
    | with_reducible apply ite_calm
    | split
    | (intro _ _; (try dsimp only); split)

theorem execReadLRegister_calm {k0 : Still} {s : State} (h : s.Calm k0) (addr : BitVec 16) :
    OutCalm k0 (State.execReadLRegister addr s) := by
  unfold State.execReadLRegister
  show State.Calm k0 _
  repeat' first
    | with_reducible assumption
    | with_reducible apply captureH_calm
    | with_reducible apply ite_calm

theorem writeMbx_calm {k0 : Still} {s : State} (h : s.Calm k0) (a : Nat) (v : Word) : (State.writeMbx s a v).Calm k0 := by
  unfold State.writeMbx
  repeat' first
    | with_reducible assumption
    | exact fun hm => hm
    | exact fun _ hq => hq
    | with_reducible apply modMail_calm
    | with_reducible apply releaseSlots_calm
    | with_reducible apply ringDoorbell_calm
    | split
    | (intro _ _; (try dsimp only); split)

theorem writeLog_calm {k0 : Still} {s : State} (h : s.Calm k0) (a : Nat) (v : Word) : (State.writeLog s a v).Calm k0 := by
  unfold State.writeLog
  repeat' first
    | with_reducible assumption
    | (extract_lets +onlyGivenNames x
       have hx : State.Calm k0 x := by
        unfold x
        repeat' first
          | with_reducible assumption
          | split
          | exact rfl
          | (extract_lets +onlyGivenNames y; subst y)
          | with_reducible apply mk_calm
       clear_value x)
    | (extract_lets +onlyGivenNames x; subst x)
    | split
    | exact rfl
    | with_reducible apply mk_calm

theorem writeGff_calm {k0 : Still} {s : State} (h : s.Calm k0) (a : Nat) (v : Word) : (State.writeGff s a v).Calm k0 := by
  unfold State.writeGff
  repeat' first
    | with_reducible assumption
    | (extract_lets +onlyGivenNames x
       have hx : State.Calm k0 x := by
        unfold x
        repeat' first
          | with_reducible assumption
          | exact fun hm => hm
          | exact fun _ hq => hq
          | with_reducible apply gffAck_calm
          | with_reducible apply gffMarker_calm
          | with_reducible apply modGff_calm
          | with_reducible apply ite_calm
          | split
          | (intro _ _; (try dsimp only); split)
          | (extract_lets +onlyGivenNames y; clear_value y)
                | (extract_lets +onlyGivenNames y; subst y)
       clear_value x)
    | (extract_lets +onlyGivenNames x; clear_value x)
    | (extract_lets +onlyGivenNames x; subst x)
    | exact fun hm => hm
    | exact fun _ hq => hq
    | with_reducible apply gffAck_calm
    | with_reducible apply gffMarker_calm
    | with_reducible apply modGff_calm
    | with_reducible apply ite_calm
    | split
    | (intro _ _; (try dsimp only); split)

theorem writeTest_calm {k0 : Still} {s : State} (h : s.Calm k0) (a : Nat) (v : Word) : (State.writeTest s a v).Calm k0 := by
  unfold State.writeTest
  repeat' first
    | with_reducible assumption
    | (extract_lets +onlyGivenNames x
       have hx : State.Calm k0 x := by
        unfold x
        repeat' first
          | with_reducible assumption
          | with_reducible apply closeTest_calm
          | with_reducible apply modTest_calm
          | with_reducible apply writeEng_calm
          | with_reducible apply writeKey_calm
          | with_reducible apply writeSinc_calm
          | with_reducible apply ite_calm
          | split
          | (extract_lets +onlyGivenNames y; have : ∀ z : State, State.Calm k0 (y z) ∨ True := (fun _ => .inr trivial); clear this; subst y)
                | (extract_lets +onlyGivenNames y; have : ∀ (z : State) b, State.Calm k0 (y z b) ∨ True := (fun _ _ => .inr trivial); clear this; subst y)
                | (extract_lets +onlyGivenNames y; subst y)
          | with_reducible apply mk_calm
       clear_value x)
    | (extract_lets +onlyGivenNames x; have : ∀ z : State, State.Calm k0 (x z) ∨ True := (fun _ => .inr trivial); clear this; subst x)
    | (extract_lets +onlyGivenNames x; have : ∀ (z : State) b, State.Calm k0 (x z b) ∨ True := (fun _ _ => .inr trivial); clear this; subst x)
    | (extract_lets +onlyGivenNames x; subst x)
    | with_reducible apply closeTest_calm
    | with_reducible apply modTest_calm
    | with_reducible apply writeEng_calm
    | with_reducible apply writeKey_calm
    | with_reducible apply writeSinc_calm
    | with_reducible apply ite_calm
    | split
    | with_reducible apply mk_calm

theorem writeCtrl_calm {k0 : Still} {s : State} (h : s.Calm k0) (p : Port) (n : Nat) : (State.writeCtrl s p n).Calm k0 := by
  unfold State.writeCtrl
  repeat' first
    | with_reducible assumption
    | (extract_lets +onlyGivenNames x
       have hx : State.Calm k0 x := by
        unfold x
        repeat' first
          | with_reducible assumption
          | with_reducible apply modPort_calm
          | with_reducible apply startRecovery_calm
          | with_reducible apply writeMode_calm
          | with_reducible apply ite_calm
          | (extract_lets +onlyGivenNames y; clear_value y)
                | (extract_lets +onlyGivenNames y; subst y)
       clear_value x)
    | (extract_lets +onlyGivenNames x; clear_value x)
    | (extract_lets +onlyGivenNames x; subst x)
    | with_reducible apply modPort_calm
    | with_reducible apply startRecovery_calm
    | with_reducible apply writeMode_calm
    | with_reducible apply ite_calm

theorem initOnly_calm {k0 : Still} {s : State} (h : s.Calm k0) (p : Port) (f : CanPort → CanPort) : (State.initOnly s p f).Calm k0 := by
  unfold State.initOnly
  repeat' first
    | with_reducible assumption
    | with_reducible apply modPort_calm
    | with_reducible apply ite_calm

theorem writeTx_calm {k0 : Still} {s : State} (h : s.Calm k0) (p : Port) (i : Fin 3) (k : Nat) (v : Word) : (State.writeTx s p i k v).Calm k0 := by
  unfold State.writeTx
  repeat' first
    | with_reducible assumption
    | with_reducible apply modPort_calm
    | with_reducible apply modTx_calm
    | split

theorem writeBus_calm {k0 : Still} {s : State} (h : s.Calm k0) (p : Port) (o : Nat) (v : Word) : (State.writeBus s p o v).Calm k0 := by
  unfold State.writeBus
  repeat' first
    | with_reducible assumption
    | (extract_lets +onlyGivenNames x
       have hx : State.Calm k0 x := by
        unfold x
        repeat' first
          | with_reducible assumption
          | with_reducible apply ackQueues_calm
          | with_reducible apply initOnly_calm
          | with_reducible apply modBufs_calm
          | with_reducible apply modPort_calm
          | with_reducible apply writeCtrl_calm
          | with_reducible apply writeTx_calm
          | with_reducible apply writeTxreq_calm
          | with_reducible apply ite_calm
          | split
          | (extract_lets +onlyGivenNames y; clear_value y)
                | (extract_lets +onlyGivenNames y; subst y)
       clear_value x)
    | (extract_lets +onlyGivenNames x; clear_value x)
    | (extract_lets +onlyGivenNames x; subst x)
    | with_reducible apply ackQueues_calm
    | with_reducible apply initOnly_calm
    | with_reducible apply modBufs_calm
    | with_reducible apply modPort_calm
    | with_reducible apply writeCtrl_calm
    | with_reducible apply writeTx_calm
    | with_reducible apply writeTxreq_calm
    | with_reducible apply ite_calm
    | split

theorem fbLocked_calm {k0 : Still} {s : State} (h : s.Calm k0) (n : FbNo) (f : FbUnit → FbUnit) : (State.fbLocked s n f).Calm k0 := by
  unfold State.fbLocked
  repeat' first
    | with_reducible assumption
    | with_reducible apply modFb_calm
    | with_reducible apply ite_calm

theorem writeFbCtrl_calm {k0 : Still} {s : State} (h : s.Calm k0) (n : FbNo) (v : Nat) : (State.writeFbCtrl s n v).Calm k0 := by
  unfold State.writeFbCtrl
  repeat' first
    | with_reducible assumption
    | (extract_lets +onlyGivenNames x
       have hx : State.Calm k0 x := by
        unfold x
        repeat' first
          | with_reducible assumption
          | with_reducible apply modFb_calm
          | with_reducible apply presetUnit_calm
          | with_reducible apply rearmUnit_calm
          | with_reducible apply ite_calm
          | (extract_lets +onlyGivenNames y; clear_value y)
                | (extract_lets +onlyGivenNames y; subst y)
       clear_value x)
    | (extract_lets +onlyGivenNames x; clear_value x)
    | (extract_lets +onlyGivenNames x; subst x)
    | with_reducible apply modFb_calm
    | with_reducible apply presetUnit_calm
    | with_reducible apply rearmUnit_calm
    | with_reducible apply ite_calm

theorem writeCmpctl_calm {k0 : Still} {s : State} (h : s.Calm k0) (n : FbNo) (v : Nat) : (State.writeCmpctl s n v).Calm k0 := by
  unfold State.writeCmpctl
  repeat' first
    | with_reducible assumption
    | (extract_lets +onlyGivenNames x
       have hx : State.Calm k0 x := by
        unfold x
        repeat' first
          | with_reducible assumption
          | with_reducible apply modFb_calm
          | with_reducible apply ite_calm
          | split
          | (extract_lets +onlyGivenNames y; clear_value y)
                | (extract_lets +onlyGivenNames y; subst y)
       clear_value x)
    | (extract_lets +onlyGivenNames x; clear_value x)
    | (extract_lets +onlyGivenNames x; subst x)
    | with_reducible apply modFb_calm
    | with_reducible apply ite_calm
    | split

theorem writePair_calm {k0 : Still} {s : State} (h : s.Calm k0) (n : FbNo) (o : Nat) (v : Int) : (State.writePair s n o v).Calm k0 := by
  unfold State.writePair
  repeat' first
    | with_reducible assumption
    | with_reducible apply modFb_calm
    | with_reducible apply writeCompare_calm
    | split

theorem writeHalf_calm {k0 : Still} {s : State} (h : s.Calm k0) (n : FbNo) (o : Nat) (v : Word) : (State.writeHalf s n o v).Calm k0 := by
  unfold State.writeHalf
  repeat' first
    | with_reducible assumption
    | (extract_lets +onlyGivenNames x
       have hx : State.Calm k0 x := by
        unfold x
        repeat' first
          | with_reducible assumption
          | exact fun hm => hm
          | exact fun _ hq => hq
          | with_reducible apply modMail_calm
          | with_reducible apply writePair_calm
          | with_reducible apply ite_calm
          | split
          | (intro _ _; (try dsimp only); split)
          | (extract_lets +onlyGivenNames y; clear_value y)
                | (extract_lets +onlyGivenNames y; subst y)
       clear_value x)
    | (extract_lets +onlyGivenNames x; clear_value x)
    | (extract_lets +onlyGivenNames x; subst x)
    | exact fun hm => hm
    | exact fun _ hq => hq
    | with_reducible apply modMail_calm
    | with_reducible apply writePair_calm
    | with_reducible apply ite_calm
    | split
    | (intro _ _; (try dsimp only); split)

theorem writeFb_calm {k0 : Still} {s : State} (h : s.Calm k0) (n : FbNo) (o : Nat) (v : Word) : (State.writeFb s n o v).Calm k0 := by
  unfold State.writeFb
  repeat' first
    | with_reducible assumption
    | with_reducible apply fbLocked_calm
    | with_reducible apply modFb_calm
    | with_reducible apply writeCmpctl_calm
    | with_reducible apply writeFbCtrl_calm
    | with_reducible apply writeHalf_calm
    | with_reducible apply ite_calm
    | split

theorem writeShared_calm {k0 : Still} {s : State} (h : s.Calm k0) (a : Nat) (v : Word) : (State.writeShared s a v).Calm k0 := by
  unfold State.writeShared
  repeat' first
    | with_reducible assumption
    | (extract_lets +onlyGivenNames x
       have hx : State.Calm k0 x := by
        unfold x
        repeat' first
          | with_reducible assumption
          | with_reducible apply ite_calm
          | split
          | (extract_lets +onlyGivenNames y; subst y)
          | with_reducible apply mk_calm
       clear_value x)
    | (extract_lets +onlyGivenNames x; subst x)
    | with_reducible apply ite_calm
    | split
    | with_reducible apply mk_calm

theorem writeReg_calm {k0 : Still} {s : State} (h : s.Calm k0) (a : Nat) (v : Word) : (State.writeReg s a v).Calm k0 := by
  unfold State.writeReg
  repeat' first
    | with_reducible assumption
    | with_reducible apply modSlot_calm
    | with_reducible apply writeBus_calm
    | with_reducible apply writeFb_calm
    | with_reducible apply writeGff_calm
    | with_reducible apply writeLog_calm
    | with_reducible apply writeMbx_calm
    | with_reducible apply writeShared_calm
    | with_reducible apply writeTest_calm
    | with_reducible apply ite_calm
    | split

theorem applyCells_calm {k0 : Still} {s : State} (h : s.Calm k0) (cells : List (Nat × Word)) : (State.applyCells s cells).Calm k0 := by
  unfold State.applyCells
  repeat' first
    | with_reducible assumption
    | (extract_lets +onlyGivenNames x
       have hx : State.Calm k0 x := by
        unfold x
        repeat' first
          | with_reducible assumption
          | with_reducible apply otherFrame_calm
          | with_reducible apply writeReg_calm
          | with_reducible apply foldl_calm
          | (intro z b hz; beta_reduce)
          | with_reducible apply ite_calm
          | (extract_lets +onlyGivenNames y; clear_value y)
                | (extract_lets +onlyGivenNames y; subst y)
       clear_value x)
    | (extract_lets +onlyGivenNames x; clear_value x)
    | (extract_lets +onlyGivenNames x; subst x)
    | with_reducible apply otherFrame_calm
    | with_reducible apply writeReg_calm
    | with_reducible apply foldl_calm
    | (intro z b hz; beta_reduce)
    | with_reducible apply ite_calm

theorem writeFrame_calm {k0 : Still} {s : State} (h : s.Calm k0) (f : HostFrame) (c : Command) : (State.writeFrame s f c).Calm k0 := by
  unfold State.writeFrame
  repeat' first
    | with_reducible assumption
    | (extract_lets +onlyGivenNames x
       have hx : State.Calm k0 x := by
        unfold x
        repeat' first
          | with_reducible assumption
          | exact fun hm => hm
          | exact fun _ hq => hq
          | with_reducible apply applyCells_calm
          | with_reducible apply mbxErr_calm
          | with_reducible apply modMail_calm
          | with_reducible apply ite_calm
          | (intro _ _; (try dsimp only); split)
          | (extract_lets +onlyGivenNames y; clear_value y)
                | (extract_lets +onlyGivenNames y; subst y)
       clear_value x)
    | (extract_lets +onlyGivenNames x; clear_value x)
    | (extract_lets +onlyGivenNames x; subst x)
    | exact fun hm => hm
    | exact fun _ hq => hq
    | with_reducible apply applyCells_calm
    | with_reducible apply mbxErr_calm
    | with_reducible apply modMail_calm
    | with_reducible apply ite_calm
    | (intro _ _; (try dsimp only); split)

theorem readFrame_calm {k0 : Still} {s : State} (h : s.Calm k0) (f : HostFrame) (c : Command) : (State.readFrame s f c).Calm k0 := by
  unfold State.readFrame
  extract_lets clocked lengthOk bad values go r crc trailer s1 s2
  have hgo : ∀ (l : List Nat) (z : State × List Word), z.1.Calm k0 → (l.foldl go z).1.Calm k0 := by
    intro l
    induction l with
    | nil => exact fun _ hz => hz
    | cons i r ih => exact fun z hz => ih _ (ite_calm (captureH_calm hz _) hz)
  have hr : r.1.Calm k0 := by
    unfold r
    exact ite_fst_calm h (hgo _ _ h)
  have h1 : s1.Calm k0 := by
    unfold s1
    exact modMail_calm hr _
  have h2 : s2.Calm k0 := by
    unfold s2
    exact ite_calm (mbxErr_calm h1 _) h1
  clear_value s2
  exact ite_calm (mbxErr_calm h2 _) (ite_calm (mbxErr_calm h2 _) (ite_calm (mbxErr_calm h2 _) h2))

theorem hostFrame_calm {k0 : Still} {s : State} (h : s.Calm k0) (f : HostFrame) : (State.hostFrame s f).Calm k0 := by
  unfold State.hostFrame
  repeat' first
    | with_reducible assumption
    | (extract_lets +onlyGivenNames x
       have hx : State.Calm k0 x := by
        unfold x
        repeat' first
          | with_reducible assumption
          | exact fun hm => hm
          | exact fun _ hq => hq
          | with_reducible apply modMail_calm
          | with_reducible apply readFrame_calm
          | with_reducible apply writeFrame_calm
          | with_reducible apply ite_calm
          | split
          | (intro _ _; (try dsimp only); split)
          | (extract_lets +onlyGivenNames y; clear_value y)
                | (extract_lets +onlyGivenNames y; subst y)
       clear_value x)
    | (extract_lets +onlyGivenNames x; clear_value x)
    | (extract_lets +onlyGivenNames x; subst x)
    | exact fun hm => hm
    | exact fun _ hq => hq
    | with_reducible apply modMail_calm
    | with_reducible apply readFrame_calm
    | with_reducible apply writeFrame_calm
    | with_reducible apply ite_calm
    | split
    | (intro _ _; (try dsimp only); split)

theorem execHostWriteFrame_calm {k0 : Still} {s : State} (h : s.Calm k0) (f : HostFrame) :
    OutCalm k0 (State.execHostWriteFrame f s) := by
  unfold State.execHostWriteFrame
  show State.Calm k0 _
  repeat' first
    | with_reducible assumption
    | with_reducible apply hostFrame_calm

theorem execHostReadFrame_calm {k0 : Still} {s : State} (h : s.Calm k0) (f : HostFrame) :
    OutCalm k0 (State.execHostReadFrame f s) := by
  unfold State.execHostReadFrame
  show State.Calm k0 _
  repeat' first
    | with_reducible assumption
    | with_reducible apply hostFrame_calm

theorem execRegisterPairWrite_calm {k0 : Still} {s : State} (h : s.Calm k0) (addr : BitVec 16) (low : Word) (high : Word) :
    OutCalm k0 (State.execRegisterPairWrite addr low high s) := by
  unfold State.execRegisterPairWrite
  show State.Calm k0 _
  repeat' first
    | with_reducible assumption
    | with_reducible apply applyCells_calm
    | with_reducible apply ite_calm

theorem execGffAck_calm {k0 : Still} {s : State} (h : s.Calm k0) (n : BitVec 14) :
    OutCalm k0 (State.execGffAck n s) := by
  unfold State.execGffAck
  show State.Calm k0 _
  repeat' first
    | with_reducible assumption
    | with_reducible apply gffAck_calm
    | with_reducible apply otherFrame_calm
    | with_reducible apply ite_calm

theorem execGffClear_calm {k0 : Still} {s : State} (h : s.Calm k0)  :
    OutCalm k0 (State.execGffClear s) := by
  unfold State.execGffClear
  show State.Calm k0 _
  repeat' first
    | with_reducible assumption
    | exact fun hm => hm
    | exact fun _ hq => hq
    | with_reducible apply modGff_calm
    | with_reducible apply otherFrame_calm
    | with_reducible apply ite_calm
    | (intro _ _; (try dsimp only); split)

theorem execGffMark_calm {k0 : Still} {s : State} (h : s.Calm k0) (payload : BitVec 28) (cd6 : Nat) :
    OutCalm k0 (State.execGffMark payload cd6 s) := by
  unfold State.execGffMark
  show State.Calm k0 _
  repeat' first
    | with_reducible assumption
    | with_reducible apply gffMarker_calm
    | with_reducible apply otherFrame_calm
    | with_reducible apply ite_calm

theorem execTstKey_calm {k0 : Still} {s : State} (h : s.Calm k0) (w : Word) :
    OutCalm k0 (State.execTstKey w s) := by
  unfold State.execTstKey
  show State.Calm k0 _
  repeat' first
    | with_reducible assumption
    | with_reducible apply writeKey_calm
    | with_reducible apply ite_calm

theorem execTstLockClose_calm {k0 : Still} {s : State} (h : s.Calm k0)  :
    OutCalm k0 (State.execTstLockClose s) := by
  unfold State.execTstLockClose
  show State.Calm k0 _
  repeat' first
    | with_reducible assumption
    | with_reducible apply closeTest_calm
    | with_reducible apply ite_calm

theorem execTstSincArm_calm {k0 : Still} {s : State} (h : s.Calm k0) (w : Word) :
    OutCalm k0 (State.execTstSincArm w s) := by
  unfold State.execTstSincArm
  show State.Calm k0 _
  repeat' first
    | with_reducible assumption
    | with_reducible apply otherFrame_calm
    | with_reducible apply writeSinc_calm
    | with_reducible apply ite_calm

theorem execTstEngArm_calm {k0 : Still} {s : State} (h : s.Calm k0) (w : Word) :
    OutCalm k0 (State.execTstEngArm w s) := by
  unfold State.execTstEngArm
  show State.Calm k0 _
  repeat' first
    | with_reducible assumption
    | with_reducible apply otherFrame_calm
    | with_reducible apply writeEng_calm
    | with_reducible apply ite_calm

theorem execFbPreset_calm {k0 : Still} {s : State} (h : s.Calm k0) (n : FbNo) :
    OutCalm k0 (State.execFbPreset n s) := by
  unfold State.execFbPreset
  show State.Calm k0 _
  repeat' first
    | with_reducible assumption
    | with_reducible apply otherFrame_calm
    | with_reducible apply presetUnit_calm
    | with_reducible apply ite_calm

theorem execRearm_calm {k0 : Still} {s : State} (h : s.Calm k0) (n : FbNo) :
    OutCalm k0 (State.execRearm n s) := by
  unfold State.execRearm
  show State.Calm k0 _
  repeat' first
    | with_reducible assumption
    | with_reducible apply otherFrame_calm
    | with_reducible apply rearmUnit_calm
    | with_reducible apply ite_calm

theorem execCompareWrite_calm {k0 : Still} {s : State} (h : s.Calm k0) (n : FbNo) (v : DWord) :
    OutCalm k0 (State.execCompareWrite n v s) := by
  unfold State.execCompareWrite
  show State.Calm k0 _
  repeat' first
    | with_reducible assumption
    | with_reducible apply otherFrame_calm
    | with_reducible apply writeCompare_calm
    | with_reducible apply ite_calm

end Sys2Proof.Machine.State
end

