-- ==== Sys2Proof/Laws/CalmStores.lean ====
section
/-! SUPPORT. The operations and commands of Machine/Stores.lean that leave alone what Laws/Calm.lean names. -/

set_option Elab.async false

set_option linter.unusedTactic false
set_option linter.unreachableTactic false

namespace Sys2Proof.Machine.State

theorem restrictPorts_calm {k0 : Still} {s : State} (h : s.Calm k0)  : (State.restrictPorts s).Calm k0 := by
  unfold State.restrictPorts
  repeat' first
    | with_reducible assumption
    | with_reducible apply modPort_calm
    | with_reducible apply eachFin_calm
    | (intro z b hz; beta_reduce)
    | with_reducible apply ite_calm

theorem loseProcessor_calm {k0 : Still} {s : State} (h : s.Calm k0)  : (State.loseProcessor s).Calm k0 := by
  unfold State.loseProcessor
  repeat' first
    | with_reducible assumption
    | (extract_lets +onlyGivenNames x
       have hx : State.Calm k0 x := by
        unfold x
        repeat' first
          | with_reducible assumption
          | with_reducible apply askEmergency_calm
          | with_reducible apply logEvent_calm
          | with_reducible apply restrictPorts_calm
          | with_reducible apply eachFin_calm
          | (intro z b hz; beta_reduce)
          | (extract_lets +onlyGivenNames y; subst y)
          | with_reducible apply mk_calm
       clear_value x)
    | (extract_lets +onlyGivenNames x; subst x)
    | with_reducible apply askEmergency_calm
    | with_reducible apply logEvent_calm
    | with_reducible apply restrictPorts_calm
    | with_reducible apply eachFin_calm
    | (intro z b hz; beta_reduce)
    | with_reducible apply mk_calm

theorem pairPunty_calm {k0 : Still} {s : State} (h : s.Calm k0) (core0 : Bool) (core1 : Bool) : (State.pairPunty s core0 core1).Calm k0 := by
  unfold State.pairPunty
  repeat' first
    | with_reducible assumption
    | (extract_lets +onlyGivenNames x
       have hx : State.Calm k0 x := by
        unfold x
        repeat' first
          | with_reducible assumption
          | with_reducible apply logEvent_calm
          | with_reducible apply loseProcessor_calm
          | with_reducible apply ite_calm
          | split
          | (extract_lets +onlyGivenNames y; subst y)
          | with_reducible apply mk_calm
       clear_value x)
    | (extract_lets +onlyGivenNames x; subst x)
    | with_reducible apply logEvent_calm
    | with_reducible apply loseProcessor_calm
    | with_reducible apply ite_calm
    | split
    | with_reducible apply mk_calm

theorem rollback_calm {k0 : Still} {s : State} (h : s.Calm k0) (newerOk : Bool) : (State.rollback s newerOk).Calm k0 := by
  unfold State.rollback
  repeat' first
    | with_reducible assumption
    | (extract_lets +onlyGivenNames x
       have hx : State.Calm k0 x := by
        unfold x
        repeat' first
          | with_reducible assumption
          | with_reducible apply logEvent_calm
          | with_reducible apply loseProcessor_calm
          | with_reducible apply ite_calm
          | (extract_lets +onlyGivenNames y; subst y)
          | with_reducible apply mk_calm
       clear_value x)
    | (extract_lets +onlyGivenNames x; subst x)
    | with_reducible apply logEvent_calm
    | with_reducible apply loseProcessor_calm
    | with_reducible apply ite_calm
    | with_reducible apply mk_calm

theorem mismatch_calm {k0 : Still} {s : State} (h : s.Calm k0) (newerOk : Bool) (core0 : Bool) (core1 : Bool) : (State.mismatch s newerOk core0 core1).Calm k0 := by
  unfold State.mismatch
  repeat' first
    | with_reducible assumption
    | (extract_lets +onlyGivenNames x
       have hx : State.Calm k0 x := by
        unfold x
        repeat' first
          | with_reducible assumption
          | with_reducible apply loseProcessor_calm
          | with_reducible apply pairPunty_calm
          | with_reducible apply rollback_calm
          | with_reducible apply ite_calm
          | split
          | (extract_lets +onlyGivenNames y; clear_value y)
                | (extract_lets +onlyGivenNames y; subst y)
       clear_value x)
    | (extract_lets +onlyGivenNames x; clear_value x)
    | (extract_lets +onlyGivenNames x; subst x)
    | with_reducible apply loseProcessor_calm
    | with_reducible apply pairPunty_calm
    | with_reducible apply rollback_calm
    | with_reducible apply ite_calm
    | split

theorem execCoreMismatch_calm {k0 : Still} {s : State} (h : s.Calm k0) (newerOk : Bool) (core0 : Bool) (core1 : Bool) :
    OutCalm k0 (State.execCoreMismatch newerOk core0 core1 s) := by
  unfold State.execCoreMismatch
  show State.Calm k0 _
  repeat' first
    | with_reducible assumption
    | with_reducible apply mismatch_calm
    | with_reducible apply ite_calm

theorem recountAges_calm {k0 : Still} {s : State} (h : s.Calm k0)  : (State.recountAges s).Calm k0 := by
  unfold State.recountAges
  repeat' first
    | with_reducible assumption
    | exact rfl
    | with_reducible apply mk_calm

theorem writeBlock_calm {k0 : Still} {s : State} (h : s.Calm k0) (b : Nat) : (State.writeBlock s b).Calm k0 := by
  unfold State.writeBlock
  repeat' first
    | with_reducible assumption
    | exact rfl
    | with_reducible apply mk_calm

theorem usePool_calm {k0 : Still} {s : State} (h : s.Calm k0)  : (State.usePool s).Calm k0 := by
  unfold State.usePool
  repeat' first
    | with_reducible assumption
    | (extract_lets +onlyGivenNames x
       have hx : State.Calm k0 x := by
        unfold x
        repeat' first
          | with_reducible assumption
          | exact rfl
          | (extract_lets +onlyGivenNames y; subst y)
          | with_reducible apply mk_calm
       clear_value x)
    | (extract_lets +onlyGivenNames x; subst x)
    | exact rfl
    | with_reducible apply mk_calm

theorem retireBlock_calm {k0 : Still} {s : State} (h : s.Calm k0) (b : Fin 64) : (State.retireBlock s b).Calm k0 := by
  unfold State.retireBlock
  repeat' first
    | with_reducible assumption
    | (extract_lets +onlyGivenNames x
       have hx : State.Calm k0 x := by
        unfold x
        repeat' first
          | with_reducible assumption
          | with_reducible apply askEmergency_calm
          | with_reducible apply logEvent_calm
          | with_reducible apply usePool_calm
          | with_reducible apply writeBlock_calm
          | with_reducible apply eachFin_calm
          | (intro z b hz; beta_reduce)
          | with_reducible apply ite_calm
          | exact rfl
          | (extract_lets +onlyGivenNames y; subst y)
          | with_reducible apply mk_calm
       clear_value x)
    | (extract_lets +onlyGivenNames x; subst x)
    | with_reducible apply askEmergency_calm
    | with_reducible apply logEvent_calm
    | with_reducible apply usePool_calm
    | with_reducible apply writeBlock_calm
    | with_reducible apply eachFin_calm
    | (intro z b hz; beta_reduce)
    | with_reducible apply ite_calm
    | exact rfl
    | with_reducible apply mk_calm

theorem refreshFailed_calm {k0 : Still} {s : State} (h : s.Calm k0) (b : Nat) : (State.refreshFailed s b).Calm k0 := by
  unfold State.refreshFailed
  repeat' first
    | with_reducible assumption
    | (extract_lets +onlyGivenNames x
       have hx : State.Calm k0 x := by
        unfold x
        repeat' first
          | with_reducible assumption
          | with_reducible apply retireBlock_calm
          | with_reducible apply usePool_calm
          | with_reducible apply ite_calm
          | split
          | (extract_lets +onlyGivenNames y; clear_value y)
                | (extract_lets +onlyGivenNames y; subst y)
       clear_value x)
    | (extract_lets +onlyGivenNames x; clear_value x)
    | (extract_lets +onlyGivenNames x; subst x)
    | with_reducible apply retireBlock_calm
    | with_reducible apply usePool_calm
    | with_reducible apply ite_calm
    | split

theorem execBlockRefresh_calm {k0 : Still} {s : State} (h : s.Calm k0) (verified : Bool) :
    OutCalm k0 (State.execBlockRefresh verified s) := by
  unfold State.execBlockRefresh
  show State.Calm k0 _
  repeat' first
    | with_reducible assumption
    | (extract_lets +onlyGivenNames x
       have hx : State.Calm k0 x := by
        unfold x
        repeat' first
          | with_reducible assumption
          | with_reducible apply recountAges_calm
          | with_reducible apply refreshFailed_calm
          | with_reducible apply writeBlock_calm
          | with_reducible apply foldl_calm
          | (intro z b hz; beta_reduce)
          | with_reducible apply ite_calm
          | split
          | (extract_lets +onlyGivenNames y; clear_value y)
                | (extract_lets +onlyGivenNames y; subst y)
       clear_value x)
    | (extract_lets +onlyGivenNames x; clear_value x)
    | (extract_lets +onlyGivenNames x; subst x)
    | with_reducible apply recountAges_calm
    | with_reducible apply refreshFailed_calm
    | with_reducible apply writeBlock_calm
    | with_reducible apply foldl_calm
    | (intro z b hz; beta_reduce)
    | with_reducible apply ite_calm
    | split

theorem commitHeader_calm {k0 : Still} {s : State} (h : s.Calm k0) (t : Nat) (c : Fin 2) (seq : Nat) : (State.commitHeader s t c seq).Calm k0 := by
  unfold State.commitHeader
  repeat' first
    | with_reducible assumption
    | (extract_lets +onlyGivenNames x
       have hx : State.Calm k0 x := by
        unfold x
        repeat' first
          | with_reducible assumption
          | exact fun _ hk => hk
          | exact fun _ => rfl
          | with_reducible apply finish_calm
          | with_reducible apply logEvent_calm
          | with_reducible apply modTicket_calm
          | with_reducible apply recountAges_calm
          | with_reducible apply writeBlock_calm
          | with_reducible apply foldl_calm
          | (intro z b hz; beta_reduce)
          | exact rfl
          | (extract_lets +onlyGivenNames y; subst y)
          | with_reducible apply mk_calm
       clear_value x)
    | (extract_lets +onlyGivenNames x; subst x)
    | exact fun _ hk => hk
    | exact fun _ => rfl
    | with_reducible apply finish_calm
    | with_reducible apply logEvent_calm
    | with_reducible apply modTicket_calm
    | with_reducible apply recountAges_calm
    | with_reducible apply writeBlock_calm
    | with_reducible apply foldl_calm
    | (intro z b hz; beta_reduce)
    | exact rfl
    | with_reducible apply mk_calm

theorem execCommitWriteDone_calm {k0 : Still} {s : State} (h : s.Calm k0) (failed : List (Fin 32)) :
    OutCalm k0 (State.execCommitWriteDone failed s) := by
  unfold State.execCommitWriteDone
  show State.Calm k0 _
  repeat' first
    | with_reducible assumption
    | (extract_lets +onlyGivenNames x
       have hx : State.Calm k0 x := by
        unfold x
        repeat' first
          | with_reducible assumption
          | with_reducible apply commitHeader_calm
          | with_reducible apply finish_calm
          | with_reducible apply retireBlock_calm
          | with_reducible apply foldl_calm
          | (intro z b hz; beta_reduce)
          | with_reducible apply ite_calm
          | split
          | exact rfl
          | (extract_lets +onlyGivenNames y; subst y)
          | with_reducible apply mk_calm
       clear_value x)
    | (extract_lets +onlyGivenNames x; subst x)
    | with_reducible apply commitHeader_calm
    | with_reducible apply finish_calm
    | with_reducible apply retireBlock_calm
    | with_reducible apply foldl_calm
    | (intro z b hz; beta_reduce)
    | with_reducible apply ite_calm
    | split
    | exact rfl
    | with_reducible apply mk_calm

end Sys2Proof.Machine.State
end

