-- ==== Sys2Proof/Laws/CalmVerbs.lean ====
section
/-! SUPPORT. The operations and commands of Machine/Verbs.lean that leave alone what Laws/Calm.lean names. -/

set_option Elab.async false

set_option linter.unusedTactic false
set_option linter.unreachableTactic false

namespace Sys2Proof.Machine.State

theorem readBlock_calm {k0 : Still} {s : State} (h : s.Calm k0) (k : Ticket) (c : NounClass) : (State.readBlock s k c).Calm k0 := by
  unfold State.readBlock
  repeat' first
    | with_reducible assumption
    | with_reducible apply AState.num_calm
    | with_reducible apply CState.num_calm
    | with_reducible apply SState.num_calm
    | with_reducible apply SlotState.num_calm
    | with_reducible apply TxState.num_calm
    | with_reducible apply YState.num_calm
    | with_reducible apply finish_calm
    | with_reducible apply ite_calm
    | split

theorem readParameters_calm {k0 : Still} {s : State} (h : s.Calm k0) (k : Ticket) (p : NounSpec) : (State.readParameters s k p).Calm k0 := by
  unfold State.readParameters
  repeat' first
    | with_reducible assumption
    | (extract_lets +onlyGivenNames x
       have hx : State.Calm k0 x := by
        unfold x
        repeat' first
          | with_reducible assumption
          | with_reducible apply AState.num_calm
          | with_reducible apply CState.num_calm
          | with_reducible apply SState.num_calm
          | with_reducible apply SlotState.num_calm
          | with_reducible apply TxState.num_calm
          | with_reducible apply YState.num_calm
          | with_reducible apply finish_calm
          | with_reducible apply ite_calm
          | (extract_lets +onlyGivenNames y; clear_value y)
                | (extract_lets +onlyGivenNames y; subst y)
       clear_value x)
    | (extract_lets +onlyGivenNames x; clear_value x)
    | (extract_lets +onlyGivenNames x; subst x)
    | with_reducible apply AState.num_calm
    | with_reducible apply CState.num_calm
    | with_reducible apply SState.num_calm
    | with_reducible apply SlotState.num_calm
    | with_reducible apply TxState.num_calm
    | with_reducible apply YState.num_calm
    | with_reducible apply finish_calm
    | with_reducible apply ite_calm

theorem execRead_calm {k0 : Still} {s : State} (h : s.Calm k0) (t : BitVec 16) :
    OutCalm k0 (State.execRead t s) := by
  unfold State.execRead
  show State.Calm k0 _
  repeat' first
    | with_reducible assumption
    | with_reducible apply AState.num_calm
    | with_reducible apply CState.num_calm
    | with_reducible apply SState.num_calm
    | with_reducible apply SlotState.num_calm
    | with_reducible apply TxState.num_calm
    | with_reducible apply YState.num_calm
    | with_reducible apply finish_calm
    | with_reducible apply readBlock_calm
    | with_reducible apply readParameters_calm
    | with_reducible apply ite_calm
    | split

theorem dropSessions_calm {k0 : Still} {s : State} (h : s.Calm k0) (p : Port) : (State.dropSessions s p).Calm k0 := by
  unfold State.dropSessions
  repeat' first
    | with_reducible assumption
    | with_reducible apply modBufs_calm
    | with_reducible apply ite_calm

theorem dropRoster_calm {k0 : Still} {s : State} (h : s.Calm k0) (p : Port) : (State.dropRoster s p).Calm k0 := by
  unfold State.dropRoster
  repeat' first
    | with_reducible assumption
    | with_reducible apply modRoster_calm
    | (intro e; dsimp only; split <;> simp_all)

theorem latched_calm {k0 : Still} {s : State} (h : s.Calm k0) (k : Ticket) : (State.latched s k).Calm k0 := by
  unfold State.latched
  repeat' first
    | with_reducible assumption
    | with_reducible apply AState.num_calm
    | with_reducible apply CState.num_calm
    | with_reducible apply SState.num_calm
    | with_reducible apply SlotState.num_calm
    | with_reducible apply TxState.num_calm
    | with_reducible apply YState.num_calm
    | with_reducible apply present_calm
    | with_reducible apply running_calm
    | with_reducible apply ite_calm

theorem setMode_calm {k0 : Still} {s : State} (h : s.Calm k0) (k : Ticket) (m : Main) (code : Nat) : (State.setMode s k m code).Calm k0 := by
  unfold State.setMode
  repeat' first
    | with_reducible assumption
    | (extract_lets +onlyGivenNames x
       have hx : State.Calm k0 x := by
        unfold x
        repeat' first
          | with_reducible assumption
          | with_reducible apply AState.num_calm
          | with_reducible apply CState.num_calm
          | with_reducible apply SState.num_calm
          | with_reducible apply SlotState.num_calm
          | with_reducible apply TxState.num_calm
          | with_reducible apply YState.num_calm
          | with_reducible apply emit_calm
          | with_reducible apply finish_calm
          | with_reducible apply modEng_calm
          | with_reducible apply running_calm
          | with_reducible apply ite_calm
          | split
          | (extract_lets +onlyGivenNames y; clear_value y)
                | (extract_lets +onlyGivenNames y; subst y)
       clear_value x)
    | (extract_lets +onlyGivenNames x; clear_value x)
    | (extract_lets +onlyGivenNames x; subst x)
    | with_reducible apply AState.num_calm
    | with_reducible apply CState.num_calm
    | with_reducible apply SState.num_calm
    | with_reducible apply SlotState.num_calm
    | with_reducible apply TxState.num_calm
    | with_reducible apply YState.num_calm
    | with_reducible apply emit_calm
    | with_reducible apply finish_calm
    | with_reducible apply modEng_calm
    | with_reducible apply running_calm
    | with_reducible apply ite_calm
    | split

theorem storeNow_calm {k0 : Still} {s : State} (h : s.Calm k0) (k : Ticket) (v : Int) : (State.storeNow s k v).Calm k0 := by
  unfold State.storeNow
  repeat' first
    | with_reducible assumption
    | with_reducible apply AState.num_calm
    | with_reducible apply CState.num_calm
    | with_reducible apply SState.num_calm
    | with_reducible apply SlotState.num_calm
    | with_reducible apply TxState.num_calm
    | with_reducible apply YState.num_calm
    | with_reducible apply finish_calm
    | with_reducible apply takeNoun_calm

theorem setAtSample_calm {k0 : Still} {s : State} (h : s.Calm k0) (k : Ticket) (v : Int) : (State.setAtSample s k v).Calm k0 := by
  unfold State.setAtSample
  repeat' first
    | with_reducible assumption
    | with_reducible apply AState.num_calm
    | with_reducible apply CState.num_calm
    | with_reducible apply SState.num_calm
    | with_reducible apply SlotState.num_calm
    | with_reducible apply TxState.num_calm
    | with_reducible apply YState.num_calm
    | with_reducible apply emit_calm
    | with_reducible apply latched_calm
    | with_reducible apply storeNow_calm
    | with_reducible apply ite_calm
    | split

theorem applySet_calm {k0 : Still} {s : State} (h : s.Calm k0) (k : Ticket) (c : NounClass) (p : NounSpec) (v : Int) : (State.applySet s k c p v).Calm k0 := by
  unfold State.applySet
  repeat' first
    | with_reducible assumption
    | exact fun _ hk => hk
    | exact fun _ => rfl
    | with_reducible apply AState.num_calm
    | with_reducible apply CState.num_calm
    | with_reducible apply SState.num_calm
    | with_reducible apply SlotState.num_calm
    | with_reducible apply TxState.num_calm
    | with_reducible apply YState.num_calm
    | with_reducible apply dropRoster_calm
    | with_reducible apply dropSessions_calm
    | with_reducible apply finish_calm
    | with_reducible apply latchTrack_calm
    | with_reducible apply modTicket_calm
    | with_reducible apply ownTxb2_calm
    | with_reducible apply present_calm
    | with_reducible apply running_calm
    | with_reducible apply setAtSample_calm
    | with_reducible apply setMode_calm
    | with_reducible apply setNoun_calm
    | with_reducible apply storeNow_calm
    | with_reducible apply ite_calm
    | split

theorem execSet_calm {k0 : Still} {s : State} (h : s.Calm k0) (t : BitVec 16) :
    OutCalm k0 (State.execSet t s) := by
  unfold State.execSet
  show State.Calm k0 _
  repeat' first
    | with_reducible assumption
    | with_reducible apply AState.num_calm
    | with_reducible apply CState.num_calm
    | with_reducible apply SState.num_calm
    | with_reducible apply SlotState.num_calm
    | with_reducible apply TxState.num_calm
    | with_reducible apply YState.num_calm
    | with_reducible apply applySet_calm
    | with_reducible apply finish_calm
    | split

theorem writeRegion_calm {k0 : Still} {s : State} (h : s.Calm k0) (k : Ticket) (g : Grp) : (State.writeRegion s k g).Calm k0 := by
  unfold State.writeRegion
  repeat' first
    | with_reducible assumption
    | (extract_lets +onlyGivenNames x
       have hx : State.Calm k0 x := by
        unfold x
        repeat' first
          | with_reducible assumption
          | exact fun hm => hm
          | exact fun _ hq => hq
          | with_reducible apply AState.num_calm
          | with_reducible apply CState.num_calm
          | with_reducible apply SState.num_calm
          | with_reducible apply SlotState.num_calm
          | with_reducible apply TxState.num_calm
          | with_reducible apply YState.num_calm
          | with_reducible apply finish_calm
          | with_reducible apply modGroup_calm
          | with_reducible apply present_calm
          | with_reducible apply running_calm
          | with_reducible apply ite_calm
          | split
          | (intro _ _; (try dsimp only); split)
          | (extract_lets +onlyGivenNames y; clear_value y)
                | (extract_lets +onlyGivenNames y; subst y)
       clear_value x)
    | (extract_lets +onlyGivenNames x; clear_value x)
    | (extract_lets +onlyGivenNames x; subst x)
    | exact fun hm => hm
    | exact fun _ hq => hq
    | with_reducible apply AState.num_calm
    | with_reducible apply CState.num_calm
    | with_reducible apply SState.num_calm
    | with_reducible apply SlotState.num_calm
    | with_reducible apply TxState.num_calm
    | with_reducible apply YState.num_calm
    | with_reducible apply finish_calm
    | with_reducible apply modGroup_calm
    | with_reducible apply present_calm
    | with_reducible apply running_calm
    | with_reducible apply ite_calm
    | split
    | (intro _ _; (try dsimp only); split)

theorem writeTable_calm {k0 : Still} {s : State} (h : s.Calm k0) (k : Ticket) (t : Fin 8) : (State.writeTable s k t).Calm k0 := by
  unfold State.writeTable
  repeat' first
    | with_reducible assumption
    | (extract_lets +onlyGivenNames x
       have hx : State.Calm k0 x := by
        unfold x
        repeat' first
          | with_reducible assumption
          | with_reducible apply AState.num_calm
          | with_reducible apply CState.num_calm
          | with_reducible apply SState.num_calm
          | with_reducible apply SlotState.num_calm
          | with_reducible apply TxState.num_calm
          | with_reducible apply YState.num_calm
          | with_reducible apply finish_calm
          | with_reducible apply setTableEntry_calm
          | with_reducible apply foldl_calm
          | (intro z b hz; beta_reduce)
          | split
          | (extract_lets +onlyGivenNames y; clear_value y)
                | (extract_lets +onlyGivenNames y; subst y)
       clear_value x)
    | (extract_lets +onlyGivenNames x; clear_value x)
    | (extract_lets +onlyGivenNames x; subst x)
    | with_reducible apply AState.num_calm
    | with_reducible apply CState.num_calm
    | with_reducible apply SState.num_calm
    | with_reducible apply SlotState.num_calm
    | with_reducible apply TxState.num_calm
    | with_reducible apply YState.num_calm
    | with_reducible apply finish_calm
    | with_reducible apply setTableEntry_calm
    | with_reducible apply foldl_calm
    | (intro z b hz; beta_reduce)
    | split

theorem writeStaging_calm {k0 : Still} {s : State} (h : s.Calm k0) (k : Ticket) : (State.writeStaging s k).Calm k0 := by
  unfold State.writeStaging
  repeat' first
    | with_reducible assumption
    | (extract_lets +onlyGivenNames x
       have hx : State.Calm k0 x := by
        unfold x
        repeat' first
          | with_reducible assumption
          | with_reducible apply AState.num_calm
          | with_reducible apply CState.num_calm
          | with_reducible apply SState.num_calm
          | with_reducible apply SlotState.num_calm
          | with_reducible apply TxState.num_calm
          | with_reducible apply YState.num_calm
          | with_reducible apply finish_calm
          | split
          | exact rfl
          | (extract_lets +onlyGivenNames y; subst y)
          | with_reducible apply mk_calm
       clear_value x)
    | (extract_lets +onlyGivenNames x; subst x)
    | with_reducible apply AState.num_calm
    | with_reducible apply CState.num_calm
    | with_reducible apply SState.num_calm
    | with_reducible apply SlotState.num_calm
    | with_reducible apply TxState.num_calm
    | with_reducible apply YState.num_calm
    | with_reducible apply finish_calm
    | split
    | exact rfl
    | with_reducible apply mk_calm

theorem execWrite_calm {k0 : Still} {s : State} (h : s.Calm k0) (t : BitVec 16) :
    OutCalm k0 (State.execWrite t s) := by
  unfold State.execWrite
  show State.Calm k0 _
  repeat' first
    | with_reducible assumption
    | with_reducible apply AState.num_calm
    | with_reducible apply CState.num_calm
    | with_reducible apply SState.num_calm
    | with_reducible apply SlotState.num_calm
    | with_reducible apply TxState.num_calm
    | with_reducible apply YState.num_calm
    | with_reducible apply finish_calm
    | with_reducible apply writeRegion_calm
    | with_reducible apply writeStaging_calm
    | with_reducible apply writeTable_calm
    | with_reducible apply ite_calm
    | split

theorem execSwap_calm {k0 : Still} {s : State} (h : s.Calm k0) (t : BitVec 16) :
    OutCalm k0 (State.execSwap t s) := by
  unfold State.execSwap
  show State.Calm k0 _
  repeat' first
    | with_reducible assumption
    | (extract_lets +onlyGivenNames x
       have hx : State.Calm k0 x := by
        unfold x
        repeat' first
          | with_reducible assumption
          | exact fun hm => hm
          | exact fun _ hq => hq
          | with_reducible apply AState.num_calm
          | with_reducible apply CState.num_calm
          | with_reducible apply SState.num_calm
          | with_reducible apply SlotState.num_calm
          | with_reducible apply TxState.num_calm
          | with_reducible apply YState.num_calm
          | with_reducible apply advanceSwap_calm
          | with_reducible apply finish_calm
          | with_reducible apply modGroup_calm
          | with_reducible apply present_calm
          | with_reducible apply running_calm
          | with_reducible apply ite_calm
          | split
          | (intro _ _; (try dsimp only); split)
          | (extract_lets +onlyGivenNames y; clear_value y)
                | (extract_lets +onlyGivenNames y; subst y)
       clear_value x)
    | (extract_lets +onlyGivenNames x; clear_value x)
    | (extract_lets +onlyGivenNames x; subst x)
    | exact fun hm => hm
    | exact fun _ hq => hq
    | with_reducible apply AState.num_calm
    | with_reducible apply CState.num_calm
    | with_reducible apply SState.num_calm
    | with_reducible apply SlotState.num_calm
    | with_reducible apply TxState.num_calm
    | with_reducible apply YState.num_calm
    | with_reducible apply advanceSwap_calm
    | with_reducible apply finish_calm
    | with_reducible apply modGroup_calm
    | with_reducible apply present_calm
    | with_reducible apply running_calm
    | with_reducible apply ite_calm
    | split
    | (intro _ _; (try dsimp only); split)

theorem enableAxis_calm {k0 : Still} {s : State} (h : s.Calm k0) (x : GenId) (t : Nat) : (State.enableAxis s x t).Calm k0 := by
  unfold State.enableAxis
  repeat' first
    | with_reducible assumption
    | (extract_lets +onlyGivenNames x
       have hx : State.Calm k0 x := by
        unfold x
        repeat' first
          | with_reducible assumption
          | with_reducible apply clearLatch_calm
          | with_reducible apply modAux_calm
          | with_reducible apply modGen_calm
          | with_reducible apply modMain_calm
          | split
          | (extract_lets +onlyGivenNames y; clear_value y)
                | (extract_lets +onlyGivenNames y; subst y)
       clear_value x)
    | (extract_lets +onlyGivenNames x; clear_value x)
    | (extract_lets +onlyGivenNames x; subst x)
    | with_reducible apply clearLatch_calm
    | with_reducible apply modAux_calm
    | with_reducible apply modGen_calm
    | with_reducible apply modMain_calm
    | split

theorem requestTorque_calm {k0 : Still} {s : State} (h : s.Calm k0) (x : GenId) : (State.requestTorque s x).Calm k0 := by
  unfold State.requestTorque
  repeat' first
    | with_reducible assumption
    | with_reducible apply modReq_calm
    | split

theorem enable_calm {k0 : Still} {s : State} (h : s.Calm k0) (k : Ticket) (x : GenId) (g : Grp) : (State.enable s k x g).Calm k0 := by
  unfold State.enable
  repeat' first
    | with_reducible assumption
    | (extract_lets +onlyGivenNames x
       have hx : State.Calm k0 x := by
        unfold x
        repeat' first
          | with_reducible assumption
          | exact fun hm => hm
          | exact fun _ hq => hq
          | with_reducible apply AState.num_calm
          | with_reducible apply CState.num_calm
          | with_reducible apply SState.num_calm
          | with_reducible apply SlotState.num_calm
          | with_reducible apply TxState.num_calm
          | with_reducible apply YState.num_calm
          | with_reducible apply enableAxis_calm
          | with_reducible apply finish_calm
          | with_reducible apply modGroup_calm
          | with_reducible apply present_calm
          | with_reducible apply requestTorque_calm
          | with_reducible apply running_calm
          | with_reducible apply tryStart_calm
          | with_reducible apply ite_calm
          | split
          | (intro _ _; (try dsimp only); split)
          | (extract_lets +onlyGivenNames y; clear_value y)
                | (extract_lets +onlyGivenNames y; subst y)
       clear_value x)
    | (extract_lets +onlyGivenNames x; clear_value x)
    | (extract_lets +onlyGivenNames x; subst x)
    | exact fun hm => hm
    | exact fun _ hq => hq
    | with_reducible apply AState.num_calm
    | with_reducible apply CState.num_calm
    | with_reducible apply SState.num_calm
    | with_reducible apply SlotState.num_calm
    | with_reducible apply TxState.num_calm
    | with_reducible apply YState.num_calm
    | with_reducible apply enableAxis_calm
    | with_reducible apply finish_calm
    | with_reducible apply modGroup_calm
    | with_reducible apply present_calm
    | with_reducible apply requestTorque_calm
    | with_reducible apply running_calm
    | with_reducible apply tryStart_calm
    | with_reducible apply ite_calm
    | split
    | (intro _ _; (try dsimp only); split)

theorem execEnable_calm {k0 : Still} {s : State} (h : s.Calm k0) (t : BitVec 16) :
    OutCalm k0 (State.execEnable t s) := by
  unfold State.execEnable
  show State.Calm k0 _
  repeat' first
    | with_reducible assumption
    | with_reducible apply AState.num_calm
    | with_reducible apply CState.num_calm
    | with_reducible apply SState.num_calm
    | with_reducible apply SlotState.num_calm
    | with_reducible apply TxState.num_calm
    | with_reducible apply YState.num_calm
    | with_reducible apply enable_calm
    | with_reducible apply finish_calm
    | with_reducible apply ite_calm
    | split

theorem disableAxis_calm {k0 : Still} {s : State} (h : s.Calm k0) (x : GenId) : (State.disableAxis s x).Calm k0 := by
  unfold State.disableAxis
  repeat' first
    | with_reducible assumption
    | (extract_lets +onlyGivenNames x
       have hx : State.Calm k0 x := by
        unfold x
        repeat' first
          | with_reducible assumption
          | with_reducible apply disableAux_calm
          | with_reducible apply disableMain_calm
          | with_reducible apply dropTicket_calm
          | with_reducible apply haltPath_calm
          | with_reducible apply ite_calm
          | split
          | (extract_lets +onlyGivenNames y; clear_value y)
                | (extract_lets +onlyGivenNames y; subst y)
       clear_value x)
    | (extract_lets +onlyGivenNames x; clear_value x)
    | (extract_lets +onlyGivenNames x; subst x)
    | with_reducible apply disableAux_calm
    | with_reducible apply disableMain_calm
    | with_reducible apply dropTicket_calm
    | with_reducible apply haltPath_calm
    | with_reducible apply ite_calm
    | split

theorem setStopTicket_calm {k0 : Still} {s : State} (h : s.Calm k0) (x : GenId) (t : Option Nat) : (State.setStopTicket s x t).Calm k0 := by
  unfold State.setStopTicket
  repeat' first
    | with_reducible assumption
    | with_reducible apply modAux_calm
    | with_reducible apply modMain_calm
    | split

theorem disable_calm {k0 : Still} {s : State} (h : s.Calm k0) (k : Ticket) (x : GenId) : (State.disable s k x).Calm k0 := by
  unfold State.disable
  repeat' first
    | with_reducible assumption
    | (extract_lets +onlyGivenNames x
       have hx : State.Calm k0 x := by
        unfold x
        repeat' first
          | with_reducible assumption
          | with_reducible apply AState.num_calm
          | with_reducible apply CState.num_calm
          | with_reducible apply SState.num_calm
          | with_reducible apply SlotState.num_calm
          | with_reducible apply TxState.num_calm
          | with_reducible apply YState.num_calm
          | with_reducible apply disableAxis_calm
          | with_reducible apply finish_calm
          | with_reducible apply finishOpt_calm
          | with_reducible apply present_calm
          | with_reducible apply running_calm
          | with_reducible apply setStopTicket_calm
          | with_reducible apply ite_calm
          | (extract_lets +onlyGivenNames y; clear_value y)
                | (extract_lets +onlyGivenNames y; subst y)
       clear_value x)
    | (extract_lets +onlyGivenNames x; clear_value x)
    | (extract_lets +onlyGivenNames x; subst x)
    | with_reducible apply AState.num_calm
    | with_reducible apply CState.num_calm
    | with_reducible apply SState.num_calm
    | with_reducible apply SlotState.num_calm
    | with_reducible apply TxState.num_calm
    | with_reducible apply YState.num_calm
    | with_reducible apply disableAxis_calm
    | with_reducible apply finish_calm
    | with_reducible apply finishOpt_calm
    | with_reducible apply present_calm
    | with_reducible apply running_calm
    | with_reducible apply setStopTicket_calm
    | with_reducible apply ite_calm

theorem execDisable_calm {k0 : Still} {s : State} (h : s.Calm k0) (t : BitVec 16) :
    OutCalm k0 (State.execDisable t s) := by
  unfold State.execDisable
  show State.Calm k0 _
  repeat' first
    | with_reducible assumption
    | with_reducible apply AState.num_calm
    | with_reducible apply CState.num_calm
    | with_reducible apply SState.num_calm
    | with_reducible apply SlotState.num_calm
    | with_reducible apply TxState.num_calm
    | with_reducible apply YState.num_calm
    | with_reducible apply disable_calm
    | with_reducible apply finish_calm
    | with_reducible apply ite_calm
    | split

theorem moveAxis_calm {k0 : Still} {s : State} (h : s.Calm k0) (k : Ticket) (x : GenId) (g : Grp) : (State.moveAxis s k x g).Calm k0 := by
  unfold State.moveAxis
  repeat' first
    | with_reducible assumption
    | with_reducible apply AState.num_calm
    | with_reducible apply CState.num_calm
    | with_reducible apply SState.num_calm
    | with_reducible apply SlotState.num_calm
    | with_reducible apply TxState.num_calm
    | with_reducible apply YState.num_calm
    | with_reducible apply emit_calm
    | with_reducible apply finish_calm
    | with_reducible apply latched_calm
    | split

theorem movePath_calm {k0 : Still} {s : State} (h : s.Calm k0) (k : Ticket) (g : Grp) : (State.movePath s k g).Calm k0 := by
  unfold State.movePath
  repeat' first
    | with_reducible assumption
    | (extract_lets +onlyGivenNames x
       have hx : State.Calm k0 x := by
        unfold x
        repeat' first
          | with_reducible assumption
          | with_reducible apply AState.num_calm
          | with_reducible apply CState.num_calm
          | with_reducible apply SState.num_calm
          | with_reducible apply SlotState.num_calm
          | with_reducible apply TxState.num_calm
          | with_reducible apply YState.num_calm
          | with_reducible apply emit_calm
          | with_reducible apply finish_calm
          | with_reducible apply latched_calm
          | split
          | (extract_lets +onlyGivenNames y; clear_value y)
                | (extract_lets +onlyGivenNames y; subst y)
       clear_value x)
    | (extract_lets +onlyGivenNames x; clear_value x)
    | (extract_lets +onlyGivenNames x; subst x)
    | with_reducible apply AState.num_calm
    | with_reducible apply CState.num_calm
    | with_reducible apply SState.num_calm
    | with_reducible apply SlotState.num_calm
    | with_reducible apply TxState.num_calm
    | with_reducible apply YState.num_calm
    | with_reducible apply emit_calm
    | with_reducible apply finish_calm
    | with_reducible apply latched_calm
    | split

theorem execMove_calm {k0 : Still} {s : State} (h : s.Calm k0) (t : BitVec 16) :
    OutCalm k0 (State.execMove t s) := by
  unfold State.execMove
  show State.Calm k0 _
  repeat' first
    | with_reducible assumption
    | with_reducible apply AState.num_calm
    | with_reducible apply CState.num_calm
    | with_reducible apply SState.num_calm
    | with_reducible apply SlotState.num_calm
    | with_reducible apply TxState.num_calm
    | with_reducible apply YState.num_calm
    | with_reducible apply finish_calm
    | with_reducible apply moveAxis_calm
    | with_reducible apply movePath_calm
    | with_reducible apply ite_calm
    | split

theorem haltAxis_calm {k0 : Still} {s : State} (h : s.Calm k0) (k : Ticket) (x : GenId) : (State.haltAxis s k x).Calm k0 := by
  unfold State.haltAxis
  repeat' first
    | with_reducible assumption
    | with_reducible apply AState.num_calm
    | with_reducible apply CState.num_calm
    | with_reducible apply SState.num_calm
    | with_reducible apply SlotState.num_calm
    | with_reducible apply TxState.num_calm
    | with_reducible apply YState.num_calm
    | with_reducible apply emit_calm
    | with_reducible apply finish_calm
    | with_reducible apply latched_calm
    | with_reducible apply ite_calm
    | split

theorem haltGroup_calm {k0 : Still} {s : State} (h : s.Calm k0) (k : Ticket) (g : Grp) : (State.haltGroup s k g).Calm k0 := by
  unfold State.haltGroup
  repeat' first
    | with_reducible assumption
    | with_reducible apply AState.num_calm
    | with_reducible apply CState.num_calm
    | with_reducible apply SState.num_calm
    | with_reducible apply SlotState.num_calm
    | with_reducible apply TxState.num_calm
    | with_reducible apply YState.num_calm
    | with_reducible apply emit_calm
    | with_reducible apply finish_calm
    | with_reducible apply latched_calm
    | with_reducible apply ite_calm

theorem execHalt_calm {k0 : Still} {s : State} (h : s.Calm k0) (t : BitVec 16) :
    OutCalm k0 (State.execHalt t s) := by
  unfold State.execHalt
  show State.Calm k0 _
  repeat' first
    | with_reducible assumption
    | (extract_lets +onlyGivenNames x
       have hx : State.Calm k0 x := by
        unfold x
        repeat' first
          | with_reducible assumption
          | with_reducible apply AState.num_calm
          | with_reducible apply CState.num_calm
          | with_reducible apply SState.num_calm
          | with_reducible apply SlotState.num_calm
          | with_reducible apply TxState.num_calm
          | with_reducible apply YState.num_calm
          | with_reducible apply finish_calm
          | with_reducible apply haltAxis_calm
          | with_reducible apply haltGroup_calm
          | with_reducible apply ite_calm
          | split
          | (extract_lets +onlyGivenNames y; clear_value y)
                | (extract_lets +onlyGivenNames y; subst y)
       clear_value x)
    | (extract_lets +onlyGivenNames x; clear_value x)
    | (extract_lets +onlyGivenNames x; subst x)
    | with_reducible apply AState.num_calm
    | with_reducible apply CState.num_calm
    | with_reducible apply SState.num_calm
    | with_reducible apply SlotState.num_calm
    | with_reducible apply TxState.num_calm
    | with_reducible apply YState.num_calm
    | with_reducible apply finish_calm
    | with_reducible apply haltAxis_calm
    | with_reducible apply haltGroup_calm
    | with_reducible apply ite_calm
    | split

theorem followGroup_calm {k0 : Still} {s : State} (h : s.Calm k0) (k : Ticket) (g : Grp) : (State.followGroup s k g).Calm k0 := by
  unfold State.followGroup
  repeat' first
    | with_reducible assumption
    | with_reducible apply AState.num_calm
    | with_reducible apply CState.num_calm
    | with_reducible apply SState.num_calm
    | with_reducible apply SlotState.num_calm
    | with_reducible apply TxState.num_calm
    | with_reducible apply YState.num_calm
    | with_reducible apply emit_calm
    | with_reducible apply finish_calm
    | with_reducible apply latched_calm
    | split

theorem execFollow_calm {k0 : Still} {s : State} (h : s.Calm k0) (t : BitVec 16) :
    OutCalm k0 (State.execFollow t s) := by
  unfold State.execFollow
  show State.Calm k0 _
  repeat' first
    | with_reducible assumption
    | with_reducible apply AState.num_calm
    | with_reducible apply CState.num_calm
    | with_reducible apply SState.num_calm
    | with_reducible apply SlotState.num_calm
    | with_reducible apply TxState.num_calm
    | with_reducible apply YState.num_calm
    | with_reducible apply finish_calm
    | with_reducible apply followGroup_calm
    | with_reducible apply ite_calm
    | split

theorem homeAxis_calm {k0 : Still} {s : State} (h : s.Calm k0) (k : Ticket) (a : AuxNo) : (State.homeAxis s k a).Calm k0 := by
  unfold State.homeAxis
  repeat' first
    | with_reducible assumption
    | with_reducible apply AState.num_calm
    | with_reducible apply CState.num_calm
    | with_reducible apply SState.num_calm
    | with_reducible apply SlotState.num_calm
    | with_reducible apply TxState.num_calm
    | with_reducible apply YState.num_calm
    | with_reducible apply emit_calm
    | with_reducible apply finish_calm
    | with_reducible apply latched_calm
    | with_reducible apply ite_calm
    | split

theorem execHome_calm {k0 : Still} {s : State} (h : s.Calm k0) (t : BitVec 16) :
    OutCalm k0 (State.execHome t s) := by
  unfold State.execHome
  show State.Calm k0 _
  repeat' first
    | with_reducible assumption
    | with_reducible apply AState.num_calm
    | with_reducible apply CState.num_calm
    | with_reducible apply SState.num_calm
    | with_reducible apply SlotState.num_calm
    | with_reducible apply TxState.num_calm
    | with_reducible apply YState.num_calm
    | with_reducible apply finish_calm
    | with_reducible apply homeAxis_calm
    | with_reducible apply ite_calm
    | split

theorem abortInFlight_calm {k0 : Still} {s : State} (h : s.Calm k0) (t : Nat) (k : Ticket) : (State.abortInFlight s t k).Calm k0 := by
  unfold State.abortInFlight
  repeat' first
    | with_reducible assumption
    | with_reducible apply AState.num_calm
    | with_reducible apply CState.num_calm
    | with_reducible apply SState.num_calm
    | with_reducible apply SlotState.num_calm
    | with_reducible apply TxState.num_calm
    | with_reducible apply YState.num_calm
    | with_reducible apply emit_calm
    | with_reducible apply finish_calm
    | with_reducible apply present_calm
    | with_reducible apply running_calm
    | with_reducible apply ite_calm
    | split
    | exact rfl
    | with_reducible apply mk_calm

theorem execAbort_calm {k0 : Still} {s : State} (h : s.Calm k0) (t : BitVec 16) :
    OutCalm k0 (State.execAbort t s) := by
  unfold State.execAbort
  show State.Calm k0 _
  repeat' first
    | with_reducible assumption
    | (extract_lets +onlyGivenNames x
       have hx : State.Calm k0 x := by
        unfold x
        repeat' first
          | with_reducible assumption
          | with_reducible apply AState.num_calm
          | with_reducible apply CState.num_calm
          | with_reducible apply SState.num_calm
          | with_reducible apply SlotState.num_calm
          | with_reducible apply TxState.num_calm
          | with_reducible apply YState.num_calm
          | with_reducible apply abortInFlight_calm
          | with_reducible apply finish_calm
          | with_reducible apply ite_calm
          | split
          | (extract_lets +onlyGivenNames y; clear_value y)
                | (extract_lets +onlyGivenNames y; subst y)
       clear_value x)
    | (extract_lets +onlyGivenNames x; clear_value x)
    | (extract_lets +onlyGivenNames x; subst x)
    | with_reducible apply AState.num_calm
    | with_reducible apply CState.num_calm
    | with_reducible apply SState.num_calm
    | with_reducible apply SlotState.num_calm
    | with_reducible apply TxState.num_calm
    | with_reducible apply YState.num_calm
    | with_reducible apply abortInFlight_calm
    | with_reducible apply finish_calm
    | with_reducible apply ite_calm
    | split

theorem execCapture_calm {k0 : Still} {s : State} (h : s.Calm k0) (t : BitVec 16) :
    OutCalm k0 (State.execCapture t s) := by
  unfold State.execCapture
  show State.Calm k0 _
  repeat' first
    | with_reducible assumption
    | with_reducible apply AState.num_calm
    | with_reducible apply CState.num_calm
    | with_reducible apply SState.num_calm
    | with_reducible apply SlotState.num_calm
    | with_reducible apply TxState.num_calm
    | with_reducible apply YState.num_calm
    | with_reducible apply finish_calm
    | with_reducible apply present_calm
    | with_reducible apply running_calm
    | with_reducible apply ite_calm
    | split
    | exact rfl
    | with_reducible apply mk_calm

theorem beginCommit_calm {k0 : Still} {s : State} (h : s.Calm k0) (t : Nat) : (State.beginCommit s t).Calm k0 := by
  unfold State.beginCommit
  repeat' first
    | with_reducible assumption
    | (extract_lets +onlyGivenNames x
       have hx : State.Calm k0 x := by
        unfold x
        repeat' first
          | with_reducible assumption
          | with_reducible apply finish_calm
          | with_reducible apply present_calm
          | with_reducible apply running_calm
          | split
          | exact rfl
          | (extract_lets +onlyGivenNames y; subst y)
          | with_reducible apply mk_calm
       clear_value x)
    | (extract_lets +onlyGivenNames x; subst x)
    | with_reducible apply finish_calm
    | with_reducible apply present_calm
    | with_reducible apply running_calm
    | split
    | exact rfl
    | with_reducible apply mk_calm

theorem execCommit_calm {k0 : Still} {s : State} (h : s.Calm k0) (t : BitVec 16) :
    OutCalm k0 (State.execCommit t s) := by
  unfold State.execCommit
  show State.Calm k0 _
  repeat' first
    | with_reducible assumption
    | with_reducible apply AState.num_calm
    | with_reducible apply CState.num_calm
    | with_reducible apply SState.num_calm
    | with_reducible apply SlotState.num_calm
    | with_reducible apply TxState.num_calm
    | with_reducible apply YState.num_calm
    | with_reducible apply beginCommit_calm
    | with_reducible apply finish_calm
    | with_reducible apply ite_calm
    | split

theorem execClear_calm {k0 : Still} {s : State} (h : s.Calm k0) (t : BitVec 16) :
    OutCalm k0 (State.execClear t s) := by
  unfold State.execClear
  show State.Calm k0 _
  repeat' first
    | with_reducible assumption
    | (extract_lets +onlyGivenNames x
       have hx : State.Calm k0 x := by
        unfold x
        repeat' first
          | with_reducible assumption
          | with_reducible apply AState.num_calm
          | with_reducible apply CState.num_calm
          | with_reducible apply SState.num_calm
          | with_reducible apply SlotState.num_calm
          | with_reducible apply TxState.num_calm
          | with_reducible apply YState.num_calm
          | with_reducible apply finish_calm
          | with_reducible apply present_calm
          | with_reducible apply running_calm
          | with_reducible apply ite_calm
          | split
          | (extract_lets +onlyGivenNames y; subst y)
          | with_reducible apply mk_calm
       clear_value x)
    | (extract_lets +onlyGivenNames x; subst x)
    | with_reducible apply AState.num_calm
    | with_reducible apply CState.num_calm
    | with_reducible apply SState.num_calm
    | with_reducible apply SlotState.num_calm
    | with_reducible apply TxState.num_calm
    | with_reducible apply YState.num_calm
    | with_reducible apply finish_calm
    | with_reducible apply present_calm
    | with_reducible apply running_calm
    | with_reducible apply ite_calm
    | split
    | with_reducible apply mk_calm

theorem execSleep_calm {k0 : Still} {s : State} (h : s.Calm k0) (t : BitVec 16) :
    OutCalm k0 (State.execSleep t s) := by
  unfold State.execSleep
  show State.Calm k0 _
  repeat' first
    | with_reducible assumption
    | (extract_lets +onlyGivenNames x
       have hx : State.Calm k0 x := by
        unfold x
        repeat' first
          | with_reducible assumption
          | with_reducible apply AState.num_calm
          | with_reducible apply CState.num_calm
          | with_reducible apply SState.num_calm
          | with_reducible apply SlotState.num_calm
          | with_reducible apply TxState.num_calm
          | with_reducible apply YState.num_calm
          | with_reducible apply answerDue_calm
          | with_reducible apply finish_calm
          | split
          | (extract_lets +onlyGivenNames y; clear_value y)
                | (extract_lets +onlyGivenNames y; subst y)
       clear_value x)
    | (extract_lets +onlyGivenNames x; clear_value x)
    | (extract_lets +onlyGivenNames x; subst x)
    | with_reducible apply AState.num_calm
    | with_reducible apply CState.num_calm
    | with_reducible apply SState.num_calm
    | with_reducible apply SlotState.num_calm
    | with_reducible apply TxState.num_calm
    | with_reducible apply YState.num_calm
    | with_reducible apply answerDue_calm
    | with_reducible apply finish_calm
    | split

theorem forceRestart_calm {k0 : Still} {s : State} (h : s.Calm k0) (t : Nat) : (State.forceRestart s t).Calm k0 := by
  unfold State.forceRestart
  repeat' first
    | with_reducible assumption
    | (extract_lets +onlyGivenNames x
       have hx : State.Calm k0 x := by
        unfold x
        repeat' first
          | with_reducible assumption
          | with_reducible apply disableAxis_calm
          | with_reducible apply modPower_calm
          | with_reducible apply present_calm
          | with_reducible apply running_calm
          | with_reducible apply foldl_calm
          | (intro z b hz; beta_reduce)
          | with_reducible apply ite_calm
          | (extract_lets +onlyGivenNames y; clear_value y)
                | (extract_lets +onlyGivenNames y; subst y)
       clear_value x)
    | (extract_lets +onlyGivenNames x; clear_value x)
    | (extract_lets +onlyGivenNames x; subst x)
    | with_reducible apply disableAxis_calm
    | with_reducible apply modPower_calm
    | with_reducible apply present_calm
    | with_reducible apply running_calm
    | with_reducible apply foldl_calm
    | (intro z b hz; beta_reduce)
    | with_reducible apply ite_calm

theorem execRestart_calm {k0 : Still} {s : State} (h : s.Calm k0) (t : BitVec 16) :
    OutCalm k0 (State.execRestart t s) := by
  unfold State.execRestart
  show State.Calm k0 _
  repeat' first
    | with_reducible assumption
    | (extract_lets +onlyGivenNames x
       have hx : State.Calm k0 x := by
        unfold x
        repeat' first
          | with_reducible assumption
          | with_reducible apply AState.num_calm
          | with_reducible apply CState.num_calm
          | with_reducible apply SState.num_calm
          | with_reducible apply SlotState.num_calm
          | with_reducible apply TxState.num_calm
          | with_reducible apply YState.num_calm
          | with_reducible apply answerDue_calm
          | with_reducible apply finish_calm
          | with_reducible apply forceRestart_calm
          | with_reducible apply ite_calm
          | split
          | (extract_lets +onlyGivenNames y; clear_value y)
                | (extract_lets +onlyGivenNames y; subst y)
       clear_value x)
    | (extract_lets +onlyGivenNames x; clear_value x)
    | (extract_lets +onlyGivenNames x; subst x)
    | with_reducible apply AState.num_calm
    | with_reducible apply CState.num_calm
    | with_reducible apply SState.num_calm
    | with_reducible apply SlotState.num_calm
    | with_reducible apply TxState.num_calm
    | with_reducible apply YState.num_calm
    | with_reducible apply answerDue_calm
    | with_reducible apply finish_calm
    | with_reducible apply forceRestart_calm
    | with_reducible apply ite_calm
    | split

end Sys2Proof.Machine.State
end

