-- ==== Sys2Proof/Laws/CalmPower.lean ====
section
/-! SUPPORT. The operations and commands of Machine/Power.lean that leave alone what Laws/Calm.lean names. -/

set_option Elab.async false

set_option linter.unusedTactic false
set_option linter.unreachableTactic false

namespace Sys2Proof.Machine.State

theorem execVlow_calm {k0 : Still} {s : State} (h : s.Calm k0) (below : Bool) :
    OutCalm k0 (State.execVlow below s) := by
  unfold State.execVlow
  show State.Calm k0 _
  repeat' first
    | with_reducible assumption
    | with_reducible apply modPower_calm
    | with_reducible apply ite_calm
    | split

theorem execCrystalQualified_calm {k0 : Still} {s : State} (h : s.Calm k0)  :
    OutCalm k0 (State.execCrystalQualified s) := by
  unfold State.execCrystalQualified
  show State.Calm k0 _
  repeat' first
    | with_reducible assumption
    | with_reducible apply modPower_calm
    | with_reducible apply ite_calm

theorem execCrystalLost_calm {k0 : Still} {s : State} (h : s.Calm k0)  :
    OutCalm k0 (State.execCrystalLost s) := by
  unfold State.execCrystalLost
  show State.Calm k0 _
  repeat' first
    | with_reducible assumption
    | with_reducible apply modPower_calm
    | with_reducible apply ite_calm

theorem execHoldoverExpiry_calm {k0 : Still} {s : State} (h : s.Calm k0)  :
    OutCalm k0 (State.execHoldoverExpiry s) := by
  unfold State.execHoldoverExpiry
  show State.Calm k0 _
  repeat' first
    | with_reducible assumption
    | with_reducible apply modPower_calm
    | with_reducible apply ite_calm

theorem execSlewToInternalDone_calm {k0 : Still} {s : State} (h : s.Calm k0)  :
    OutCalm k0 (State.execSlewToInternalDone s) := by
  unfold State.execSlewToInternalDone
  show State.Calm k0 _
  repeat' first
    | with_reducible assumption
    | with_reducible apply modPower_calm
    | with_reducible apply ite_calm

end Sys2Proof.Machine.State
end

