-- ==== Sys2Proof/Laws/CalmWindows.lean ====
section
/-! SUPPORT. The operations and commands of Machine/Windows.lean that leave alone what Laws/Calm.lean names. -/

set_option Elab.async false

set_option linter.unusedTactic false
set_option linter.unreachableTactic false

namespace Sys2Proof.Machine.State

theorem execReleaseDwellExpiry_calm {k0 : Still} {s : State} (h : s.Calm k0) (g : Grp) :
    OutCalm k0 (State.execReleaseDwellExpiry g s) := by
  unfold State.execReleaseDwellExpiry
  show State.Calm k0 _
  repeat' first
    | with_reducible assumption
    | (extract_lets +onlyGivenNames x
       have hx : State.Calm k0 x := by
        unfold x
        repeat' first
          | with_reducible assumption
          | with_reducible apply modYield_calm
          | with_reducible apply ite_calm
          | (extract_lets +onlyGivenNames y; clear_value y)
                | (extract_lets +onlyGivenNames y; subst y)
       clear_value x)
    | (extract_lets +onlyGivenNames x; clear_value x)
    | (extract_lets +onlyGivenNames x; subst x)
    | with_reducible apply modYield_calm
    | with_reducible apply ite_calm

theorem execRecoveryTimeExpiry_calm {k0 : Still} {s : State} (h : s.Calm k0) (g : Grp) :
    OutCalm k0 (State.execRecoveryTimeExpiry g s) := by
  unfold State.execRecoveryTimeExpiry
  show State.Calm k0 _
  repeat' first
    | with_reducible assumption
    | with_reducible apply leaveDrum_calm
    | with_reducible apply modYield_calm
    | with_reducible apply recoverEnd_calm
    | with_reducible apply ite_calm

theorem execHostTensionExpiry_calm {k0 : Still} {s : State} (h : s.Calm k0) (g : Grp) :
    OutCalm k0 (State.execHostTensionExpiry g s) := by
  unfold State.execHostTensionExpiry
  show State.Calm k0 _
  repeat' first
    | with_reducible assumption
    | with_reducible apply modYield_calm

theorem execTrackTimeout_calm {k0 : Still} {s : State} (h : s.Calm k0) (x : GenId) :
    OutCalm k0 (State.execTrackTimeout x s) := by
  unfold State.execTrackTimeout
  show State.Calm k0 _
  repeat' first
    | with_reducible assumption
    | with_reducible apply modGen_calm
    | with_reducible apply ite_calm

end Sys2Proof.Machine.State
end

