-- ==== Sys2Proof/Laws/Sparse.lean ====
section
/-! SUPPORT. The laws of sparse canonical lists: reading after writing, other cells, and the canonical form kept by every
operation. -/

set_option Elab.async false

namespace Sys2Proof.Machine

variable {α : Type}

theorem Rising.mono {lo hi : Nat} {l : List (Nat × α)} (h : Rising hi l) (hl : lo ≤ hi) : Rising lo l := by
  cases l with
  | nil => trivial
  | cons p r => exact ⟨Nat.le_trans hl h.1, h.2⟩

theorem sdel_rising {lo : Nat} {l : List (Nat × α)} (k : Nat) (h : Rising lo l) : Rising lo (sdel l k) := by
  induction l generalizing lo with
  | nil => trivial
  | cons p r ih =>
    obtain ⟨i, v⟩ := p
    simp only [sdel]
    split
    · exact h.2.mono (Nat.le_succ_of_le h.1)
    · split
      · exact h
      · exact ⟨h.1, ih h.2⟩

theorem sins_rising {lo : Nat} {l : List (Nat × α)} (k : Nat) (v : α) (h : Rising lo l) (hk : lo ≤ k) :
    Rising lo (sins l k v) := by
  induction l generalizing lo with
  | nil => exact ⟨hk, trivial⟩
  | cons p r ih =>
    obtain ⟨i, w⟩ := p
    simp only [sins]
    split
    · next e => subst e; exact ⟨hk, h.2⟩
    · split
      · next h1 => exact ⟨hk, h1, h.2⟩
      · exact ⟨h.1, ih h.2 (by omega)⟩

theorem sput_rising [DecidableEq α] {d : α} {l : List (Nat × α)} (k : Nat) (v : α) (h : Rising 0 l) :
    Rising 0 (sput d l k v) := by
  unfold sput
  split
  · exact sdel_rising k h
  · exact sins_rising k v h (Nat.zero_le k)

theorem mem_sdel {l : List (Nat × α)} {k : Nat} {p : Nat × α} (h : p ∈ sdel l k) : p ∈ l := by
  induction l with
  | nil => exact h
  | cons q r ih =>
    obtain ⟨i, v⟩ := q
    simp only [sdel] at h
    split at h
    · exact List.mem_cons_of_mem _ h
    · split at h
      · exact h
      · rcases List.mem_cons.mp h with rfl | h
        · exact List.mem_cons_self ..
        · exact List.mem_cons_of_mem _ (ih h)

theorem mem_sins {l : List (Nat × α)} {k : Nat} {v : α} {p : Nat × α} (h : p ∈ sins l k v) : p = (k, v) ∨ p ∈ l := by
  induction l with
  | nil => exact .inl (List.mem_singleton.mp h)
  | cons q r ih =>
    obtain ⟨i, w⟩ := q
    simp only [sins] at h
    split at h
    · rcases List.mem_cons.mp h with rfl | h
      · exact .inl rfl
      · exact .inr (List.mem_cons_of_mem _ h)
    · split at h
      · rcases List.mem_cons.mp h with rfl | h
        · exact .inl rfl
        · exact .inr h
      · rcases List.mem_cons.mp h with rfl | h
        · exact .inr (List.mem_cons_self ..)
        · rcases ih h with e | h
          · exact .inl e
          · exact .inr (List.mem_cons_of_mem _ h)

theorem sput_canon [DecidableEq α] {d : α} {l : List (Nat × α)} (k : Nat) (v : α) (h : Canon d l) :
    Canon d (sput d l k v) := by
  refine ⟨sput_rising k v h.1, fun p hp => ?_⟩
  unfold sput at hp
  split at hp
  · exact h.2 p (mem_sdel hp)
  · next hv =>
    rcases mem_sins hp with rfl | hp
    · exact hv
    · exact h.2 p hp

theorem sputs_canon {l : List (Nat × Word)} (k : Nat) (ws : List Word) (h : Canon 0 l) : Canon 0 (sputs l k ws) := by
  induction ws generalizing l k with
  | nil => exact h
  | cons w r ih => exact ih (k + 1) (sput_canon k w h)

theorem sins_length_le (l : List (Nat × α)) (k : Nat) (v : α) : (sins l k v).length ≤ l.length + 1 := by
  induction l with
  | nil => exact Nat.le_refl _
  | cons p r ih =>
    obtain ⟨i, w⟩ := p
    simp only [sins]
    split
    · exact Nat.le_succ _
    · split
      · exact Nat.le_refl _
      · simpa using ih

/-- Listing a cell that is listed replaces it. -/
theorem sins_length_of_mem {lo : Nat} {l : List (Nat × α)} {p : Nat × α} (v : α) (h : Rising lo l) (hp : p ∈ l) :
    (sins l p.1 v).length = l.length := by
  induction l generalizing lo with
  | nil => cases hp
  | cons q r ih =>
    obtain ⟨i, w⟩ := q
    simp only [sins]
    split
    · rfl
    · next hne =>
      rcases List.mem_cons.mp hp with rfl | hp
      · exact absurd rfl hne
      · have hi : i < p.1 := by
          have : ∀ {lo : Nat} {r : List (Nat × α)}, Rising lo r → p ∈ r → lo ≤ p.1 := by
            intro lo r
            induction r generalizing lo with
            | nil => intro _ hm; cases hm
            | cons q r ih =>
              intro hr hm
              rcases List.mem_cons.mp hm with rfl | hm
              · exact hr.1
              · exact Nat.le_trans (Nat.le_succ_of_le hr.1) (ih hr.2 hm)
          exact this h.2 hp
        rw [if_neg (by omega)]
        simp [ih h.2 hp]

theorem Rising.filter {lo : Nat} {l : List (Nat × α)} (f : Nat × α → Bool) (h : Rising lo l) : Rising lo (l.filter f) := by
  induction l generalizing lo with
  | nil => trivial
  | cons p r ih =>
    simp only [List.filter]
    split
    · exact ⟨h.1, ih h.2⟩
    · exact (ih h.2).mono (Nat.le_succ_of_le h.1)

theorem Rising.map {lo : Nat} {l : List (Nat × α)} (f : Nat × α → Nat × α) (hf : ∀ p, (f p).1 = p.1) (h : Rising lo l) :
    Rising lo (l.map f) := by
  induction l generalizing lo with
  | nil => trivial
  | cons p r ih =>
    simp only [List.map]
    have e := hf p
    exact ⟨e ▸ h.1, e ▸ ih h.2⟩

/-! ## Reading -/

theorem sget_sins_self (d : α) (l : List (Nat × α)) (k : Nat) (v : α) : sget d (sins l k v) k = v := by
  induction l with
  | nil => simp [sins, sget]
  | cons p r ih =>
    obtain ⟨i, w⟩ := p
    simp only [sins]
    split
    · simp [sget]
    · split
      · simp [sget]
      · next h _ => simp [sget, h, ih]

theorem sget_sins_ne (d : α) (l : List (Nat × α)) {k j : Nat} (v : α) (h : j ≠ k) : sget d (sins l k v) j = sget d l j := by
  have hk : k ≠ j := fun e => h e.symm
  induction l with
  | nil => simp [sins, sget, hk]
  | cons p r ih =>
    obtain ⟨i, w⟩ := p
    simp only [sins]
    split
    · next e => subst e; simp [sget, hk]
    · split
      · simp [sget, hk]
      · simp [sget, ih]

theorem sget_rising (d : α) {lo : Nat} {l : List (Nat × α)} {k : Nat} (h : Rising lo l) (hk : k < lo) : sget d l k = d := by
  induction l generalizing lo with
  | nil => rfl
  | cons p r ih =>
    obtain ⟨i, w⟩ := p
    have h1 : lo ≤ i := h.1
    have h2 : i ≠ k := by omega
    simp only [sget, h2, if_false]
    exact ih h.2 (by omega)

theorem sget_sdel_self (d : α) {lo : Nat} {l : List (Nat × α)} (k : Nat) (h : Rising lo l) : sget d (sdel l k) k = d := by
  induction l generalizing lo with
  | nil => rfl
  | cons p r ih =>
    obtain ⟨i, w⟩ := p
    simp only [sdel]
    split
    · next e => subst e; exact sget_rising d h.2 (Nat.lt_succ_self _)
    · next hne =>
      split
      · next hlt =>
        simp only [sget, hne, if_false]
        exact sget_rising d h.2 (by omega)
      · simp only [sget, hne, if_false]
        exact ih h.2

theorem sget_sdel_ne (d : α) (l : List (Nat × α)) {k j : Nat} (h : j ≠ k) : sget d (sdel l k) j = sget d l j := by
  induction l with
  | nil => rfl
  | cons p r ih =>
    obtain ⟨i, w⟩ := p
    simp only [sdel]
    split
    · next e => subst e; simp [sget, Ne.symm h]
    · split
      · rfl
      · simp [sget, ih]

/-- A cell reads what was written to it. -/
theorem sget_sput_self [DecidableEq α] (d : α) {l : List (Nat × α)} (k : Nat) (v : α) (h : Rising 0 l) :
    sget d (sput d l k v) k = v := by
  unfold sput
  split
  · next e => subst e; exact sget_sdel_self _ k h
  · exact sget_sins_self d l k v

/-- Writing a cell leaves every other. -/
theorem sget_sput_ne [DecidableEq α] (d : α) (l : List (Nat × α)) {k j : Nat} (v : α) (h : j ≠ k) :
    sget d (sput d l k v) j = sget d l j := by
  unfold sput
  split
  · exact sget_sdel_ne d l h
  · exact sget_sins_ne d l v h

end Sys2Proof.Machine
end

