-- ==== Sys2Proof/Laws/Invariant.lean ====
section
/-! SUPPORT. What the shared operations do to the invariant `State.Inv`: each keeps it, under a side condition where the caller
supplies the change. -/

set_option Elab.async false

namespace Sys2Proof.Machine

theorem LogSt.addRecord_inv {l : LogSt} (h : l.Inv) (r : Record) : (addRecord l r).Inv := by
  unfold addRecord
  simp only
  split
  · exact ⟨by simp, by simp⟩
  · exact ⟨by simp, h.2⟩

namespace State

variable {s : State}

/-- Reading a vector after changing one place. -/
theorem vmod_forall {α : Type} {n : Nat} {P : α → Prop} (v : Vector α n) (i : Fin n) (f : α → α)
    (h : ∀ j : Fin n, P v[j]) (hf : P v[i] → P (f v[i])) (j : Fin n) : P (vmod v i f)[j] := by
  by_cases e : i = j
  · subst e; simpa [vmod] using hf (h i)
  · have e' : i.val ≠ j.val := fun h => e (Fin.ext h)
    have := h j
    simpa [vmod, Vector.getElem_set, e'] using this

/-! ## The parts that bear on no bound -/

theorem modMain_inv (h : s.Inv) (m : Main) (f : MainAxis → MainAxis) : (s.modMain m f).Inv := h
theorem modComm_inv (h : s.Inv) (m : Main) (f : CommSt → CommSt) : (s.modComm m f).Inv := h
theorem modGlance_inv (h : s.Inv) (m : Main) (f : GlanceSt → GlanceSt) : (s.modGlance m f).Inv := h
theorem modDrive_inv (h : s.Inv) (m : Main) (f : DriveSt → DriveSt) : (s.modDrive m f).Inv := h
theorem modEng_inv (h : s.Inv) (m : Main) (f : EngAxis → EngAxis) : (s.modEng m f).Inv := h
theorem modShare_inv (h : s.Inv) (m : Main) (f : ShareSt → ShareSt) : (s.modShare m f).Inv := h
theorem modAux_inv (h : s.Inv) (a : AuxNo) (f : AuxAxis → AuxAxis) : (s.modAux a f).Inv := h
theorem modLink_inv (h : s.Inv) (l : LinkNo) (f : Link → Link) : (s.modLink l f).Inv := h
theorem modFb_inv (h : s.Inv) (n : FbNo) (f : FbUnit → FbUnit) : (s.modFb n f).Inv := h
theorem modPort_inv (h : s.Inv) (p : Port) (f : CanPort → CanPort) : (s.modPort p f).Inv := h
theorem modBufs_inv (h : s.Inv) (p : Port) (f : CanBufs → CanBufs) : (s.modBufs p f).Inv := h
theorem modSafety_inv (h : s.Inv) (f : SafetySt → SafetySt) : (s.modSafety f).Inv := h
theorem modReq_inv (h : s.Inv) (f : RequestSt → RequestSt) : (s.modReq f).Inv := h
theorem modCascade_inv (h : s.Inv) (f : CascadeSt → CascadeSt) : (s.modCascade f).Inv := h
theorem modPower_inv (h : s.Inv) (f : PowerSt → PowerSt) : (s.modPower f).Inv := h
theorem drawn_inv (h : s.Inv) : s.drawn.Inv := h

theorem modGen_inv (h : s.Inv) (x : GenId) (f : GenSt → GenSt) : (s.modGen x f).Inv := by
  cases x <;> exact h

/-! ## The parts that do -/

theorem modMail_inv (h : s.Inv) (f : MailSt → MailSt) (hf : s.mail.Inv → (f s.mail).Inv) : (s.modMail f).Inv :=
  ⟨hf h.1, h.2⟩

theorem modGff_inv (h : s.Inv) (f : GffSt → GffSt) (hf : s.gff.Inv → (f s.gff).Inv) : (s.modGff f).Inv :=
  ⟨h.1, h.2.1, hf h.2.2.1, h.2.2.2⟩

theorem modGroup_inv (h : s.Inv) (g : Grp) (f : Group → Group) (hf : ∀ q : Group, q.Inv → (f q).Inv) : (s.modGroup g f).Inv := by
  obtain ⟨h1, h2, h3, h4, h5, h6, h7, h8, h9, h10⟩ := h
  exact ⟨h1, h2, h3, h4, h5, h6, h7, h8, h9, vmod_forall _ _ _ h10 (hf _)⟩

/-- The same where only the group as it stands matters. -/
theorem modGroup_inv_at (h : s.Inv) (g : Grp) (f : Group → Group) (hf : (f s.groups[g]).Inv) : (s.modGroup g f).Inv := by
  obtain ⟨h1, h2, h3, h4, h5, h6, h7, h8, h9, h10⟩ := h
  exact ⟨h1, h2, h3, h4, h5, h6, h7, h8, h9, vmod_forall _ _ _ h10 fun _ => hf⟩

theorem modYield_inv (h : s.Inv) (g : Grp) (f : YieldSt → YieldSt) : (s.modYield g f).Inv :=
  modGroup_inv h g _ fun _ hq => hq

/-- The engines change to ones whose stores are in canonical form. -/
theorem engines_inv (h : s.Inv) (e : EngineSt) (he : s.engines.Inv → e.Inv) : ({ s with engines := e } : State).Inv := by
  obtain ⟨h1, h2, h3, h4, h5⟩ := h
  exact ⟨h1, h2, h3, he h4, h5⟩

/-- Every group changes in a way that keeps its bound. -/
theorem groups_inv (h : s.Inv) (f : Group → Group) (hf : ∀ q : Group, q.Inv → (f q).Inv) :
    ({ s with groups := s.groups.map f } : State).Inv := by
  obtain ⟨h1, h2, h3, h4, h5, h6, h7, h8, h9, h10⟩ := h
  refine ⟨h1, h2, h3, h4, h5, h6, h7, h8, h9, fun g => ?_⟩
  simpa using hf _ (h10 g)

/-- The nouns and the axes' recorded modes change. -/
theorem nouns_inv (h : s.Inv) (l : List (Nat × Int)) (hl : Rising 0 l) (v : Vector MainAxis 12) :
    ({ s with nouns := l, mains := v } : State).Inv := by
  obtain ⟨h1, h2, h3, h4, h5, h6, _, h8⟩ := h
  exact ⟨h1, h2, h3, h4, h5, h6, hl, h8⟩

/-- The microstep tables change. -/
theorem tables_inv (h : s.Inv) (l : List (Nat × Word)) (hl : Rising 0 l) : ({ s with tables := l } : State).Inv := by
  obtain ⟨h1, h2, h3, h4, h5, h6, h7, _, h9⟩ := h
  exact ⟨h1, h2, h3, h4, h5, h6, h7, hl, h9⟩

/-- The staging area changes to one in canonical form. -/
theorem store_inv (h : s.Inv) (x : StoreSt) (hx : Canon 0 x.staged) : ({ s with store := x } : State).Inv := by
  obtain ⟨h1, h2, h3, h4, h5, _, h7⟩ := h
  exact ⟨h1, h2, h3, h4, h5, hx, h7⟩

/-! ## Records and tickets -/

theorem emit_inv (h : s.Inv) (o : Output) : (s.emit o).Inv := modMail_inv h _ fun hm => hm

theorem addLog_inv (h : s.Inv) (r : Record) : ({ s with log := addRecord s.log r } : State).Inv :=
  ⟨h.1, LogSt.addRecord_inv h.2.1 r, h.2.2⟩

theorem logEvent_inv (h : s.Inv) (sev code object : Nat) (d0 : Int) (sample ticket : Nat) (d1 : Int) :
    (s.logEvent sev code object d0 sample ticket d1).Inv := by
  unfold State.logEvent
  simp only
  split
  · exact emit_inv h _
  · exact addLog_inv h _

/-- A change of tickets that sends none back from PAST keeps the number in flight. -/
theorem inFlight_map_le (l : List Ticket) (f : Ticket → Ticket) (hf : ∀ k, k.tense = .past → (f k).tense = .past) :
    ((l.map f).filter fun k => k.tense != .past).length ≤ (l.filter fun k => k.tense != .past).length := by
  rw [List.filter_map, List.length_map]
  refine (List.monotone_filter_right l fun k hk => ?_).length_le
  simp only [Function.comp, bne_iff_ne, ne_eq] at hk ⊢
  exact fun e => hk (hf k e)

theorem modTicket_inv (h : s.Inv) (t : Nat) (f : Ticket → Ticket) (hf : ∀ k, k.tense = .past → (f k).tense = .past)
    (hn : ∀ k, (f k).num = k.num) : (s.modTicket t f).Inv := by
  refine modMail_inv h _ fun hm => ⟨Nat.le_trans (inFlight_map_le _ _ fun k hk => ?_) hm.1, hm.2.1, fun k hk => ?_⟩
  · split
    · exact hf k hk
    · exact hk
  · obtain ⟨k1, h1, rfl⟩ := List.mem_map.mp hk
    split
    · exact (hn k1).symm ▸ hm.2.2 k1 h1
    · exact hm.2.2 k1 h1

theorem finish_inv (h : s.Inv) (t status : Nat) (payload : List Word) : (s.finish t status payload).Inv := by
  have h1 : (s.modTicket t fun k => { k with tense := .past }).Inv := by
    with_reducible apply modTicket_inv h
    · exact fun _ _ => rfl
    · exact fun _ => rfl
  unfold State.finish
  split
  · refine emit_inv (modMail_inv h1 _ fun hm => ⟨hm.1, ?_, hm.2.2⟩) _
    simp
  · exact h

theorem present_inv (h : s.Inv) (t : Nat) : (s.present t).Inv := by
  have h1 : (s.modTicket t fun k => { k with tense := if k.tense = .past then .past else .present }).Inv := by
    with_reducible apply modTicket_inv h
    · exact fun k hk => by simp [hk]
    · exact fun _ => rfl
  unfold State.present
  split
  · split
    · exact emit_inv h1 _
    · exact h
  · exact h

theorem finishOpt_inv (h : s.Inv) (t : Option Nat) (status : Nat) : (s.finishOpt t status).Inv := by
  unfold State.finishOpt
  split
  · exact finish_inv h _ _ _
  · exact h

theorem running_inv (h : s.Inv) (t : Nat) : (s.running t).Inv := by
  unfold State.running
  with_reducible apply modTicket_inv h
  · exact fun _ hk => hk
  · exact fun _ => rfl

end State

end Sys2Proof.Machine
end

