-- ==== Sys2Proof/Laws/Kept.lean ====
section
/-! SUPPORT. What every operation keeps: the family member, the queue of waiting commands, the records of the persistent fault
log that no newer record has overwritten, and the invariant `State.Inv`. The lemma `f_kept` says it of the operation `f`. -/

set_option Elab.async false

namespace Sys2Proof.Machine

/-- What a run starts from and must keep. -/
structure Base where
  member : Member
  pending : List Instr
  persistent : List (Nat × Record)

/-- The member and the queue stand, the persistent log holds newer records and then the old ones (R333), and the invariant holds. -/
def State.Kept (k0 : Base) (s : State) : Prop :=
  s.member = k0.member ∧ s.pending = k0.pending ∧ (∃ l, s.log.persistent = (l ++ k0.persistent).take 512) ∧ s.Inv

/-- A command goes on and keeps it. -/
def OutKeeps (k0 : Base) : Out → Prop
  | .next t => t.Kept k0
  | .fault _ => False
  | .refused _ => False

namespace State

theorem Kept.inv {k0 : Base} {s : State} (h : s.Kept k0) : s.Inv := h.2.2.2

/-- A state with the same member, queue and persistent log. -/
theorem Kept.lift {k0 : Base} {s t : State} (h : s.Kept k0) (hm : t.member = s.member) (hq : t.pending = s.pending)
    (hp : t.log.persistent = s.log.persistent) (hi : t.Inv) : t.Kept k0 :=
  ⟨hm.trans h.1, hq.trans h.2.1, hp.symm ▸ h.2.2.1, hi⟩

/-- Every state keeps what it starts from. -/
theorem Kept.start {s : State} (h : s.Inv) : s.Kept ⟨s.member, s.pending, s.log.persistent⟩ :=
  ⟨rfl, rfl, ⟨[], (List.take_of_length_le h.2.1.2).symm⟩, h⟩

variable {k0 : Base} {s : State}

theorem modMain_kept (h : s.Kept k0) (m : Main) (f : MainAxis → MainAxis) : (s.modMain m f).Kept k0 := h
theorem modComm_kept (h : s.Kept k0) (m : Main) (f : CommSt → CommSt) : (s.modComm m f).Kept k0 := h
theorem modGlance_kept (h : s.Kept k0) (m : Main) (f : GlanceSt → GlanceSt) : (s.modGlance m f).Kept k0 := h
theorem modDrive_kept (h : s.Kept k0) (m : Main) (f : DriveSt → DriveSt) : (s.modDrive m f).Kept k0 := h
theorem modEng_kept (h : s.Kept k0) (m : Main) (f : EngAxis → EngAxis) : (s.modEng m f).Kept k0 := h
theorem modShare_kept (h : s.Kept k0) (m : Main) (f : ShareSt → ShareSt) : (s.modShare m f).Kept k0 := h
theorem modAux_kept (h : s.Kept k0) (a : AuxNo) (f : AuxAxis → AuxAxis) : (s.modAux a f).Kept k0 := h
theorem modLink_kept (h : s.Kept k0) (l : LinkNo) (f : Link → Link) : (s.modLink l f).Kept k0 := h
theorem modFb_kept (h : s.Kept k0) (n : FbNo) (f : FbUnit → FbUnit) : (s.modFb n f).Kept k0 := h
theorem modPort_kept (h : s.Kept k0) (p : Port) (f : CanPort → CanPort) : (s.modPort p f).Kept k0 := h
theorem modBufs_kept (h : s.Kept k0) (p : Port) (f : CanBufs → CanBufs) : (s.modBufs p f).Kept k0 := h
theorem modSafety_kept (h : s.Kept k0) (f : SafetySt → SafetySt) : (s.modSafety f).Kept k0 := h
theorem modReq_kept (h : s.Kept k0) (f : RequestSt → RequestSt) : (s.modReq f).Kept k0 := h
theorem modCascade_kept (h : s.Kept k0) (f : CascadeSt → CascadeSt) : (s.modCascade f).Kept k0 := h
theorem modPower_kept (h : s.Kept k0) (f : PowerSt → PowerSt) : (s.modPower f).Kept k0 := h
theorem drawn_kept (h : s.Kept k0) : s.drawn.Kept k0 := h

theorem modGen_kept (h : s.Kept k0) (x : GenId) (f : GenSt → GenSt) : (s.modGen x f).Kept k0 := by
  cases x <;> exact h

theorem modMail_kept (h : s.Kept k0) (f : MailSt → MailSt) (hf : s.mail.Inv → (f s.mail).Inv) : (s.modMail f).Kept k0 :=
  h.lift rfl rfl rfl (modMail_inv h.inv f hf)

theorem modGff_kept (h : s.Kept k0) (f : GffSt → GffSt) (hf : s.gff.Inv → (f s.gff).Inv) : (s.modGff f).Kept k0 :=
  h.lift rfl rfl rfl (modGff_inv h.inv f hf)

theorem modGroup_kept (h : s.Kept k0) (g : Grp) (f : Group → Group) (hf : ∀ q : Group, q.Inv → (f q).Inv) :
    (s.modGroup g f).Kept k0 := h.lift rfl rfl rfl (modGroup_inv h.inv g f hf)

theorem modGroup_kept_at (h : s.Kept k0) (g : Grp) (f : Group → Group) (hf : (f s.groups[g]).Inv) :
    (s.modGroup g f).Kept k0 := h.lift rfl rfl rfl (modGroup_inv_at h.inv g f hf)

theorem modYield_kept (h : s.Kept k0) (g : Grp) (f : YieldSt → YieldSt) : (s.modYield g f).Kept k0 :=
  h.lift rfl rfl rfl (modYield_inv h.inv g f)

theorem emit_kept (h : s.Kept k0) (o : Output) : (s.emit o).Kept k0 := h.lift rfl rfl rfl (emit_inv h.inv o)

/-- A record enters the persistent log in front of the others, or leaves it as it is. -/
theorem persistent_addRecord (l : LogSt) (r : Record) :
    ∃ k, (addRecord l r).persistent = (k ++ l.persistent).take 512 ∨ (addRecord l r).persistent = l.persistent := by
  unfold addRecord
  simp only
  split
  · exact ⟨[_], .inl rfl⟩
  · exact ⟨[], .inr rfl⟩

theorem addLog_kept (h : s.Kept k0) (r : Record) : ({ s with log := addRecord s.log r } : State).Kept k0 := by
  refine ⟨h.1, h.2.1, ?_, addLog_inv h.inv r⟩
  obtain ⟨l, hl⟩ := h.2.2.1
  obtain ⟨k, hk | hk⟩ := persistent_addRecord s.log r
  · exact ⟨k ++ l, by simp only [hk, hl, List.append_assoc]; rw [List.take_append, List.take_append (l₁ := k)]; simp [List.take_take]⟩
  · exact ⟨l, hk.trans hl⟩

theorem logEvent_kept (h : s.Kept k0) (sev code object : Nat) (d0 : Int) (sample ticket : Nat) (d1 : Int) :
    (s.logEvent sev code object d0 sample ticket d1).Kept k0 := by
  unfold State.logEvent
  simp only
  split
  · exact emit_kept h _
  · exact addLog_kept h _

theorem modTicket_kept (h : s.Kept k0) (t : Nat) (f : Ticket → Ticket) (hf : ∀ k, k.tense = .past → (f k).tense = .past)
    (hn : ∀ k, (f k).num = k.num) : (s.modTicket t f).Kept k0 := h.lift rfl rfl rfl (modTicket_inv h.inv t f hf hn)

theorem finish_kept (h : s.Kept k0) (t status : Nat) (payload : List Word) : (s.finish t status payload).Kept k0 := by
  refine h.lift ?_ ?_ ?_ (finish_inv h.inv t status payload) <;>
  · unfold State.finish
    split <;> rfl

theorem present_kept (h : s.Kept k0) (t : Nat) : (s.present t).Kept k0 := by
  refine h.lift ?_ ?_ ?_ (present_inv h.inv t) <;>
  · unfold State.present
    split
    · split <;> rfl
    · rfl

theorem finishOpt_kept (h : s.Kept k0) (t : Option Nat) (status : Nat) : (s.finishOpt t status).Kept k0 := by
  unfold State.finishOpt
  split
  · exact finish_kept h _ _ _
  · exact h

theorem running_kept (h : s.Kept k0) (t : Nat) : (s.running t).Kept k0 := h.lift rfl rfl rfl (running_inv h.inv t)

/-- A state that differs from another only outside the parts the invariant speaks of. -/
theorem mk_kept {x : State} (h : x.Kept k0) (time : TimeSt) (mains : Vector MainAxis 12) (auxs : Vector AuxAxis 8)
      (links : Vector Link 4) (sense : SenseSt) (fb : Vector FbUnit 16) (switches : SwitchSt) (safety : SafetySt)
      (requests : RequestSt) (faults : FaultSt) (ledger : LedgerSt) (life : LifeSt) (can : Vector CanPort 4) (canBufs :
      Vector CanBufs 4) (cascade : CascadeSt) (power : PowerSt) (start : StartSt) (test : TestSt) (free : Nat) :
    (State.mk x.member time x.nouns x.groups mains auxs links x.engines sense x.tables fb switches safety requests
      faults x.log x.mail x.store ledger life can canBufs x.roster cascade power x.retention start x.gff test free
      x.pending).Kept k0 := h

/-- The same where the log, the engines, the roster, the store or retention RAM change in what the invariant does not
      speak of. -/
theorem mk_keep_kept {x : State} (h : x.Kept k0)
    {time : TimeSt} {mains : Vector MainAxis 12} {auxs : Vector AuxAxis 8} {links : Vector Link 4} {engines : EngineSt}
      {sense : SenseSt} {fb : Vector FbUnit 16} {switches : SwitchSt} {safety : SafetySt} {requests : RequestSt}
      {faults : FaultSt} {log : LogSt} {store : StoreSt} {ledger : LedgerSt} {life : LifeSt} {can : Vector CanPort 4}
      {canBufs : Vector CanBufs 4} {roster : RosterSt} {cascade : CascadeSt} {power : PowerSt} {retention :
      RetentionSt} {start : StartSt} {test : TestSt} {free : Nat}
    (h1 : log.ram = x.log.ram) (h2 : log.persistent = x.log.persistent) (h3 : engines.storeA = x.engines.storeA) (h4 :
      engines.storeB = x.engines.storeB) (h5 : roster.entries = x.roster.entries) (h6 : store.staged = x.store.staged)
      (h7 : retention.tables = x.retention.tables) :
    (State.mk x.member time x.nouns x.groups mains auxs links engines sense x.tables fb switches safety requests faults
      log x.mail store ledger life can canBufs roster cascade power retention start x.gff test free x.pending).Kept k0 := by
  obtain ⟨b1, b2, b3, a1, a2, a3, a4, a5, a6, a7, a8, a9, a10⟩ := h
  refine ⟨b1, b2, h2.symm ▸ b3, a1, ⟨h1 ▸ a2.1, h2 ▸ a2.2⟩, a3, ⟨h3 ▸ a4.1, h4 ▸ a4.2⟩, ⟨h5 ▸ a5.1, h5 ▸ a5.2⟩, h6 ▸
      a6, a7, a8,
    h7 ▸ a9, a10⟩

theorem engines_kept (h : s.Kept k0) (e : EngineSt) (he : s.engines.Inv → e.Inv) :
    ({ s with engines := e } : State).Kept k0 := h.lift rfl rfl rfl (engines_inv h.inv e he)

theorem groups_kept (h : s.Kept k0) (f : Group → Group) (hf : ∀ q : Group, q.Inv → (f q).Inv) :
    ({ s with groups := s.groups.map f } : State).Kept k0 := h.lift rfl rfl rfl (groups_inv h.inv f hf)

theorem nouns_kept (h : s.Kept k0) (l : List (Nat × Int)) (hl : Rising 0 l) (v : Vector MainAxis 12) :
    ({ s with nouns := l, mains := v } : State).Kept k0 := h.lift rfl rfl rfl (nouns_inv h.inv l hl v)

theorem tables_kept (h : s.Kept k0) (l : List (Nat × Word)) (hl : Rising 0 l) :
    ({ s with tables := l } : State).Kept k0 := h.lift rfl rfl rfl (tables_inv h.inv l hl)

theorem store_kept (h : s.Kept k0) (x : StoreSt) (hx : Canon 0 x.staged) :
    ({ s with store := x } : State).Kept k0 := h.lift rfl rfl rfl (store_inv h.inv x hx)

/-! ## Branches and folds -/

theorem ite_kept {k0 : Base} {c : Prop} [Decidable c] {a b : State} (ha : a.Kept k0) (hb : b.Kept k0) : (if c then a else b).Kept k0 := by
  split
  · exact ha
  · exact hb


theorem ite_kept' {k0 : Base} {c : Prop} [Decidable c] {a b : State} (ha : c → a.Kept k0) (hb : ¬c → b.Kept k0) : (if c then a else b).Kept k0 := by
  split
  · next hc => exact ha hc
  · next hc => exact hb hc

theorem ite_fst_kept {k0 : Base} {β : Type} {c : Prop} [Decidable c] {a b : State × β} (ha : a.1.Kept k0) (hb : b.1.Kept k0) :
    (if c then a else b).1.Kept k0 := by
  split
  · exact ha
  · exact hb

theorem foldl_kept {k0 : Base} {s : State} {β : Type} (l : List β) (f : State → β → State) (hf : ∀ z b, z.Kept k0 → (f z b).Kept k0) (h : s.Kept k0) :
    (l.foldl f s).Kept k0 := by
  induction l generalizing s with
  | nil => exact h
  | cons b r ih => exact ih (hf s b h)

theorem eachFin_kept {k0 : Base} {s : State} (n : Nat) (f : State → Fin n → State) (hf : ∀ z b, z.Kept k0 → (f z b).Kept k0) (h : s.Kept k0) :
    (eachFin n f s).Kept k0 := foldl_kept _ f hf h

end State

end Sys2Proof.Machine
end

