-- ==== Sys2Proof/Laws/KeptGather.lean ====
section
/-! SUPPORT. Every operation of Machine/Gather.lean keeps what Laws/Kept.lean names. -/

set_option Elab.async false

set_option linter.unusedTactic false
set_option linter.unreachableTactic false

namespace Sys2Proof.Machine.State

theorem gffCompare_kept {k0 : Base} {s : State} (h : s.Kept k0) (n : FbNo) (cd6 : Nat) (dir : Bool) (count : Int) : (State.gffCompare s n cd6 dir count).Kept k0 := by
  unfold State.gffCompare
  repeat' first
    | with_reducible assumption
    | (extract_lets +onlyGivenNames x
       have hx : State.Kept k0 x := by
        unfold x
        repeat' first
          | with_reducible assumption
          | exact fun hm => hm
          | exact fun _ hq => hq
          | with_reducible apply modGff_kept
          | with_reducible apply ite_kept
          | split
          | (intro _ _; (try dsimp only); split)
          | (extract_lets +onlyGivenNames y; clear_value y)
                | (extract_lets +onlyGivenNames y; subst y)
       clear_value x)
    | (extract_lets +onlyGivenNames x; clear_value x)
    | (extract_lets +onlyGivenNames x; subst x)
    | exact fun hm => hm
    | exact fun _ hq => hq
    | with_reducible apply modGff_kept
    | with_reducible apply ite_kept
    | split
    | (intro _ _; (try dsimp only); split)

theorem gffSwitch_kept {k0 : Base} {s : State} (h : s.Kept k0) (i : Fin 24) (cd6 : Nat) (active : Bool) : (State.gffSwitch s i cd6 active).Kept k0 := by
  unfold State.gffSwitch
  repeat' first
    | with_reducible assumption
    | (extract_lets +onlyGivenNames x
       have hx : State.Kept k0 x := by
        unfold x
        repeat' first
          | with_reducible assumption
          | exact fun hm => hm
          | exact fun _ hq => hq
          | with_reducible apply modGff_kept
          | with_reducible apply ite_kept
          | split
          | (intro _ _; (try dsimp only); split)
          | (extract_lets +onlyGivenNames y; clear_value y)
                | (extract_lets +onlyGivenNames y; subst y)
       clear_value x)
    | (extract_lets +onlyGivenNames x; clear_value x)
    | (extract_lets +onlyGivenNames x; subst x)
    | exact fun hm => hm
    | exact fun _ hq => hq
    | with_reducible apply modGff_kept
    | with_reducible apply ite_kept
    | split
    | (intro _ _; (try dsimp only); split)

theorem gffTrace_kept {k0 : Base} {s : State} (h : s.Kept k0) (g : Grp) (sample : Nat) (committed : Bool) (values : List (Option Int)) : (State.gffTrace s g sample committed values).Kept k0 := by
  unfold State.gffTrace
  repeat' first
    | with_reducible assumption
    | (extract_lets +onlyGivenNames x
       have hx : State.Kept k0 x := by
        unfold x
        repeat' first
          | with_reducible assumption
          | exact fun hm => hm
          | exact fun _ hq => hq
          | with_reducible apply modGff_kept
          | with_reducible apply ite_kept
          | split
          | (intro _ _; (try dsimp only); split)
          | (extract_lets +onlyGivenNames y; clear_value y)
                | (extract_lets +onlyGivenNames y; subst y)
       clear_value x)
    | (extract_lets +onlyGivenNames x; clear_value x)
    | (extract_lets +onlyGivenNames x; subst x)
    | exact fun hm => hm
    | exact fun _ hq => hq
    | with_reducible apply modGff_kept
    | with_reducible apply ite_kept
    | split
    | (intro _ _; (try dsimp only); split)

theorem gffMarker_kept {k0 : Base} {s : State} (h : s.Kept k0) (payload : Nat) (cd6 : Nat) : (State.gffMarker s payload cd6).Kept k0 := by
  unfold State.gffMarker
  repeat' first
    | with_reducible assumption
    | (extract_lets +onlyGivenNames x
       have hx : State.Kept k0 x := by
        unfold x
        repeat' first
          | with_reducible assumption
          | exact fun hm => hm
          | exact fun _ hq => hq
          | with_reducible apply modGff_kept
          | with_reducible apply ite_kept
          | split
          | (intro _ _; (try dsimp only); split)
          | (extract_lets +onlyGivenNames y; clear_value y)
                | (extract_lets +onlyGivenNames y; subst y)
       clear_value x)
    | (extract_lets +onlyGivenNames x; clear_value x)
    | (extract_lets +onlyGivenNames x; subst x)
    | exact fun hm => hm
    | exact fun _ hq => hq
    | with_reducible apply modGff_kept
    | with_reducible apply ite_kept
    | split
    | (intro _ _; (try dsimp only); split)

theorem gffAck_kept {k0 : Base} {s : State} (h : s.Kept k0) (n : Nat) : (State.gffAck s n).Kept k0 :=
  modGff_kept h _ fun hf => Nat.le_trans (by simp) (hf : s.gff.words.length ≤ 8192)

theorem modTest_kept {k0 : Base} {s : State} (h : s.Kept k0) (f : TestSt → TestSt) : (State.modTest s f).Kept k0 := by
  unfold State.modTest
  repeat' first
    | with_reducible assumption
    | with_reducible apply mk_kept

theorem otherFrame_kept {k0 : Base} {s : State} (h : s.Kept k0)  : (State.otherFrame s).Kept k0 := by
  unfold State.otherFrame
  repeat' first
    | with_reducible assumption
    | with_reducible apply modTest_kept

theorem closeTest_kept {k0 : Base} {s : State} (h : s.Kept k0)  : (State.closeTest s).Kept k0 := by
  unfold State.closeTest
  repeat' first
    | with_reducible assumption
    | with_reducible apply mk_kept

theorem writeKey_kept {k0 : Base} {s : State} (h : s.Kept k0) (w : Word) : (State.writeKey s w).Kept k0 := by
  unfold State.writeKey
  repeat' first
    | with_reducible assumption
    | with_reducible apply modTest_kept
    | with_reducible apply ite_kept

theorem writeSinc_kept {k0 : Base} {s : State} (h : s.Kept k0) (w : Word) : (State.writeSinc s w).Kept k0 := by
  unfold State.writeSinc
  repeat' first
    | with_reducible assumption
    | with_reducible apply modTest_kept
    | with_reducible apply ite_kept

theorem writeEng_kept {k0 : Base} {s : State} (h : s.Kept k0) (w : Word) : (State.writeEng s w).Kept k0 := by
  unfold State.writeEng
  repeat' first
    | with_reducible assumption
    | with_reducible apply modTest_kept
    | with_reducible apply ite_kept

end Sys2Proof.Machine.State
end

