-- ==== Sys2Proof/Laws/KeptOperands.lean ====
section
/-! SUPPORT. Every operation of Machine/Operands.lean keeps what Laws/Kept.lean names. -/

set_option Elab.async false

set_option linter.unusedTactic false
set_option linter.unreachableTactic false

namespace Sys2Proof.Machine.State

theorem setNoun_kept {k0 : Base} {s : State} (h : s.Kept k0) (id : Nat) (v : Int) : (State.setNoun s id v).Kept k0 := by
  obtain ⟨b1, b2, b3, h1, h2, h3, h4, h5, h6, h7, h8⟩ := h
  exact ⟨b1, b2, b3, h1, h2, h3, h4, h5, h6, sput_rising _ _ h7, h8⟩

end Sys2Proof.Machine.State
end

