-- ==== Sys2Proof/Laws/KeptPass.lean ====
section
/-! SUPPORT. Every operation of Machine/Pass.lean keeps what Laws/Kept.lean names. -/

set_option Elab.async false

set_option linter.unusedTactic false
set_option linter.unreachableTactic false

namespace Sys2Proof.Machine.State

theorem atSample_kept {k0 : Base} {s : State} (h : s.Kept k0) (g : Grp) : (State.atSample s g).Kept k0 := by
  unfold State.atSample
  repeat' first
    | with_reducible assumption
    | (extract_lets +onlyGivenNames x
       have hx : State.Kept k0 x := by
        unfold x
        repeat' first
          | with_reducible assumption
          | (extract_lets +onlyGivenNames y; subst y)
          | with_reducible apply mk_kept
       clear_value x)
    | (extract_lets +onlyGivenNames x; subst x)
    | with_reducible apply mk_kept

end Sys2Proof.Machine.State
end

