-- ==== Sys2Proof/Laws/KeptMotion.lean ====
section
/-! SUPPORT. Every operation of Machine/Motion.lean keeps what Laws/Kept.lean names. -/

set_option Elab.async false

set_option linter.unusedTactic false
set_option linter.unreachableTactic false

namespace Sys2Proof.Machine.State

theorem dropTicket_kept {k0 : Base} {s : State} (h : s.Kept k0) (x : GenId) (status : Nat) : (State.dropTicket s x status).Kept k0 := by
  unfold State.dropTicket
  repeat' first
    | with_reducible assumption
    | with_reducible apply finishOpt_kept
    | with_reducible apply modGen_kept

theorem takeTicket_kept {k0 : Base} {s : State} (h : s.Kept k0) (x : GenId) (t : Nat) : (State.takeTicket s x t).Kept k0 := by
  unfold State.takeTicket
  repeat' first
    | with_reducible assumption
    | (extract_lets +onlyGivenNames x
       have hx : State.Kept k0 x := by
        unfold x
        repeat' first
          | with_reducible assumption
          | with_reducible apply dropTicket_kept
          | with_reducible apply modGen_kept
          | with_reducible apply present_kept
          | with_reducible apply ite_kept
          | (extract_lets +onlyGivenNames y; clear_value y)
                | (extract_lets +onlyGivenNames y; subst y)
       clear_value x)
    | (extract_lets +onlyGivenNames x; clear_value x)
    | (extract_lets +onlyGivenNames x; subst x)
    | with_reducible apply dropTicket_kept
    | with_reducible apply modGen_kept
    | with_reducible apply present_kept
    | with_reducible apply ite_kept

theorem putTarget_kept {k0 : Base} {s : State} (h : s.Kept k0) (x : GenId) (k : Kind) (target : Int) : (State.putTarget s x k target).Kept k0 := by
  unfold State.putTarget
  repeat' first
    | with_reducible assumption
    | with_reducible apply modGen_kept
    | with_reducible apply ite_kept

theorem haltPath_kept {k0 : Base} {s : State} (h : s.Kept k0) (g : Grp) (status : Nat) : (State.haltPath s g status).Kept k0 := by
  unfold State.haltPath
  repeat' first
    | with_reducible assumption
    | exact fun hm => hm
    | exact fun _ hq => hq
    | with_reducible apply finish_kept
    | with_reducible apply modGroup_kept
    | with_reducible apply ite_kept
    | split
    | (intro _ _; (try dsimp only); split)

theorem haltGen_kept {k0 : Base} {s : State} (h : s.Kept k0) (g : Grp) (x : GenId) : (State.haltGen s g x).Kept k0 := by
  unfold State.haltGen
  repeat' first
    | with_reducible assumption
    | with_reducible apply haltPath_kept
    | with_reducible apply putTarget_kept
    | with_reducible apply ite_kept

theorem engageWind_kept {k0 : Base} {s : State} (h : s.Kept k0) (g : Grp) (t : Nat) (towardsLo : Bool) : (State.engageWind s g t towardsLo).Kept k0 := by
  unfold State.engageWind
  repeat' first
    | with_reducible assumption
    | (extract_lets +onlyGivenNames x
       have hx : State.Kept k0 x := by
        unfold x
        repeat' first
          | with_reducible assumption
          | exact fun hm => hm
          | exact fun _ hq => hq
          | with_reducible apply finish_kept
          | with_reducible apply modGroup_kept
          | with_reducible apply putTarget_kept
          | with_reducible apply takeTicket_kept
          | with_reducible apply ite_kept
          | split
          | (intro _ _; (try dsimp only); split)
          | (extract_lets +onlyGivenNames y; clear_value y)
                | (extract_lets +onlyGivenNames y; subst y)
       clear_value x)
    | (extract_lets +onlyGivenNames x; clear_value x)
    | (extract_lets +onlyGivenNames x; subst x)
    | exact fun hm => hm
    | exact fun _ hq => hq
    | with_reducible apply finish_kept
    | with_reducible apply modGroup_kept
    | with_reducible apply putTarget_kept
    | with_reducible apply takeTicket_kept
    | with_reducible apply ite_kept
    | split
    | (intro _ _; (try dsimp only); split)

theorem beginPath_kept {k0 : Base} {s : State} (h : s.Kept k0) (g : Grp) (t : Nat) (mains : BitVec 12) (auxs : BitVec 8) (targets : List Int) : (State.beginPath s g t mains auxs targets).Kept k0 := by
  unfold State.beginPath
  repeat' first
    | with_reducible assumption
    | (extract_lets +onlyGivenNames x
       have hx : State.Kept k0 x := by
        unfold x
        repeat' first
          | with_reducible assumption
          | exact fun hm => hm
          | exact fun _ hq => hq
          | with_reducible apply dropTicket_kept
          | with_reducible apply modGroup_kept
          | with_reducible apply present_kept
          | with_reducible apply putTarget_kept
          | with_reducible apply foldl_kept
          | (intro z b hz; beta_reduce)
          | (extract_lets +onlyGivenNames y; clear_value y)
                | (extract_lets +onlyGivenNames y; subst y)
       clear_value x)
    | (extract_lets +onlyGivenNames x; clear_value x)
    | (extract_lets +onlyGivenNames x; subst x)
    | exact fun hm => hm
    | exact fun _ hq => hq
    | with_reducible apply dropTicket_kept
    | with_reducible apply modGroup_kept
    | with_reducible apply present_kept
    | with_reducible apply putTarget_kept
    | with_reducible apply foldl_kept
    | (intro z b hz; beta_reduce)

theorem beginHome_kept {k0 : Base} {s : State} (h : s.Kept k0) (t : Nat) (a : AuxNo) (high : Bool) : (State.beginHome s t a high).Kept k0 := by
  unfold State.beginHome
  repeat' first
    | with_reducible assumption
    | (extract_lets +onlyGivenNames x
       have hx : State.Kept k0 x := by
        unfold x
        repeat' first
          | with_reducible assumption
          | with_reducible apply dropTicket_kept
          | with_reducible apply finish_kept
          | with_reducible apply modAux_kept
          | with_reducible apply present_kept
          | with_reducible apply putTarget_kept
          | with_reducible apply ite_kept
          | (extract_lets +onlyGivenNames y; clear_value y)
                | (extract_lets +onlyGivenNames y; subst y)
       clear_value x)
    | (extract_lets +onlyGivenNames x; clear_value x)
    | (extract_lets +onlyGivenNames x; subst x)
    | with_reducible apply dropTicket_kept
    | with_reducible apply finish_kept
    | with_reducible apply modAux_kept
    | with_reducible apply present_kept
    | with_reducible apply putTarget_kept
    | with_reducible apply ite_kept

theorem stopHoming_kept {k0 : Base} {s : State} (h : s.Kept k0) (x : GenId) (status : Nat) : (State.stopHoming s x status).Kept k0 := by
  unfold State.stopHoming
  repeat' first
    | with_reducible assumption
    | with_reducible apply modAux_kept
    | with_reducible apply ite_kept
    | split

theorem takeOrder_kept {k0 : Base} {s : State} (h : s.Kept k0) (g : Grp) (order : MotionOrder) : (State.takeOrder s g order).Kept k0 := by
  unfold State.takeOrder
  repeat' first
    | with_reducible assumption
    | (extract_lets +onlyGivenNames x
       have hx : State.Kept k0 x := by
        unfold x
        repeat' first
          | with_reducible assumption
          | exact fun hm => hm
          | exact fun _ hq => hq
          | with_reducible apply beginHome_kept
          | with_reducible apply beginPath_kept
          | with_reducible apply dropTicket_kept
          | with_reducible apply engageWind_kept
          | with_reducible apply finish_kept
          | with_reducible apply haltGen_kept
          | with_reducible apply haltGroup_kept
          | with_reducible apply haltPath_kept
          | with_reducible apply modGen_kept
          | with_reducible apply modGroup_kept
          | with_reducible apply present_kept
          | with_reducible apply putTarget_kept
          | with_reducible apply stopHoming_kept
          | with_reducible apply takeTicket_kept
          | with_reducible apply foldl_kept
          | (intro z b hz; beta_reduce)
          | with_reducible apply ite_kept
          | split
          | (intro _ _; (try dsimp only); split)
          | (extract_lets +onlyGivenNames y; clear_value y)
                | (extract_lets +onlyGivenNames y; subst y)
       clear_value x)
    | (extract_lets +onlyGivenNames x; clear_value x)
    | (extract_lets +onlyGivenNames x; subst x)
    | exact fun hm => hm
    | exact fun _ hq => hq
    | with_reducible apply beginHome_kept
    | with_reducible apply beginPath_kept
    | with_reducible apply dropTicket_kept
    | with_reducible apply engageWind_kept
    | with_reducible apply finish_kept
    | with_reducible apply haltGen_kept
    | with_reducible apply haltGroup_kept
    | with_reducible apply haltPath_kept
    | with_reducible apply modGen_kept
    | with_reducible apply modGroup_kept
    | with_reducible apply present_kept
    | with_reducible apply putTarget_kept
    | with_reducible apply stopHoming_kept
    | with_reducible apply takeTicket_kept
    | with_reducible apply foldl_kept
    | (intro z b hz; beta_reduce)
    | with_reducible apply ite_kept
    | split
    | (intro _ _; (try dsimp only); split)

theorem takeOrders_kept {k0 : Base} {s : State} (h : s.Kept k0) (g : Grp) (n : Nat) : (State.takeOrders s g n).Kept k0 := by
  unfold State.takeOrders
  repeat' first
    | with_reducible assumption
    | (extract_lets +onlyGivenNames x
       have hx : State.Kept k0 x := by
        unfold x
        repeat' first
          | with_reducible assumption
          | exact fun hm => hm
          | exact fun _ hq => hq
          | with_reducible apply modGroup_kept
          | with_reducible apply takeOrder_kept
          | with_reducible apply foldl_kept
          | (intro z b hz; beta_reduce)
          | split
          | (intro _ _; (try dsimp only); split)
          | (extract_lets +onlyGivenNames y; clear_value y)
                | (extract_lets +onlyGivenNames y; subst y)
       clear_value x)
    | (extract_lets +onlyGivenNames x; clear_value x)
    | (extract_lets +onlyGivenNames x; subst x)
    | exact fun hm => hm
    | exact fun _ hq => hq
    | with_reducible apply modGroup_kept
    | with_reducible apply takeOrder_kept
    | with_reducible apply foldl_kept
    | (intro z b hz; beta_reduce)
    | split
    | (intro _ _; (try dsimp only); split)

theorem beginReversal_kept {k0 : Base} {s : State} (h : s.Kept k0) (g : Grp) (x : GenId) (l : GenLim) : (State.beginReversal s g x l).Kept k0 := by
  unfold State.beginReversal
  repeat' first
    | with_reducible assumption
    | (extract_lets +onlyGivenNames x
       have hx : State.Kept k0 x := by
        unfold x
        repeat' first
          | with_reducible assumption
          | exact fun hm => hm
          | exact fun _ hq => hq
          | with_reducible apply modGen_kept
          | with_reducible apply modGroup_kept
          | with_reducible apply ite_kept
          | (intro _ _; (try dsimp only); split)
          | (extract_lets +onlyGivenNames y; clear_value y)
                | (extract_lets +onlyGivenNames y; subst y)
       clear_value x)
    | (extract_lets +onlyGivenNames x; clear_value x)
    | (extract_lets +onlyGivenNames x; subst x)
    | exact fun hm => hm
    | exact fun _ hq => hq
    | with_reducible apply modGen_kept
    | with_reducible apply modGroup_kept
    | with_reducible apply ite_kept
    | (intro _ _; (try dsimp only); split)

theorem stepCurrent_kept {k0 : Base} {s : State} (h : s.Kept k0) (x : GenId) (T : Rat) : (State.stepCurrent s x T).Kept k0 := by
  unfold State.stepCurrent
  repeat' first
    | with_reducible assumption
    | (extract_lets +onlyGivenNames x
       have hx : State.Kept k0 x := by
        unfold x
        repeat' first
          | with_reducible assumption
          | with_reducible apply modGen_kept
          | with_reducible apply ite_kept
          | (extract_lets +onlyGivenNames y; clear_value y)
                | (extract_lets +onlyGivenNames y; subst y)
       clear_value x)
    | (extract_lets +onlyGivenNames x; clear_value x)
    | (extract_lets +onlyGivenNames x; subst x)
    | with_reducible apply modGen_kept
    | with_reducible apply ite_kept

theorem stopAtLimit_kept {k0 : Base} {s : State} (h : s.Kept k0) (g : Grp) (x : GenId) (l : GenLim) (j T : Rat) :
    (State.stopAtLimit s g x l j T).1.Kept k0 := by
  unfold State.stopAtLimit
  extract_lets
  split
  · exact modGen_kept (ite_kept (modGen_kept (logEvent_kept h ..) ..) (dropTicket_kept (logEvent_kept h ..) ..)) ..
  · exact h

theorem predictLimit_kept {k0 : Base} {s : State} (h : s.Kept k0) (g : Grp) (x : GenId) (l : GenLim) : (State.predictLimit s g x l).Kept k0 := by
  unfold State.predictLimit
  repeat' first
    | with_reducible assumption
    | (extract_lets +onlyGivenNames x
       have hx : State.Kept k0 x := by
        unfold x
        repeat' first
          | with_reducible assumption
          | with_reducible apply logEvent_kept
          | with_reducible apply modGen_kept
          | with_reducible apply ite_kept
          | split
          | (extract_lets +onlyGivenNames y; clear_value y)
                | (extract_lets +onlyGivenNames y; subst y)
       clear_value x)
    | (extract_lets +onlyGivenNames x; clear_value x)
    | (extract_lets +onlyGivenNames x; subst x)
    | with_reducible apply logEvent_kept
    | with_reducible apply modGen_kept
    | with_reducible apply ite_kept
    | split

theorem afterLimits_kept {k0 : Base} {s : State} (h : s.Kept k0) (g : Grp) (x : GenId) (before : Mot) : (State.afterLimits s g x before).Kept k0 := by
  unfold State.afterLimits
  repeat' first
    | with_reducible assumption
    | (extract_lets +onlyGivenNames x
       have hx : State.Kept k0 x := by
        unfold x
        repeat' first
          | with_reducible assumption
          | with_reducible apply logEvent_kept
          | with_reducible apply modGen_kept
          | with_reducible apply ite_kept
          | (extract_lets +onlyGivenNames y; clear_value y)
                | (extract_lets +onlyGivenNames y; subst y)
       clear_value x)
    | (extract_lets +onlyGivenNames x; clear_value x)
    | (extract_lets +onlyGivenNames x; subst x)
    | with_reducible apply logEvent_kept
    | with_reducible apply modGen_kept
    | with_reducible apply ite_kept

theorem endHalt_kept {k0 : Base} {s : State} (h : s.Kept k0) (x : GenId) : (State.endHalt s x).Kept k0 := by
  unfold State.endHalt
  repeat' first
    | with_reducible assumption
    | (extract_lets +onlyGivenNames x
       have hx : State.Kept k0 x := by
        unfold x
        repeat' first
          | with_reducible assumption
          | with_reducible apply modGen_kept
          | with_reducible apply ite_kept
          | (extract_lets +onlyGivenNames y; clear_value y)
                | (extract_lets +onlyGivenNames y; subst y)
       clear_value x)
    | (extract_lets +onlyGivenNames x; clear_value x)
    | (extract_lets +onlyGivenNames x; subst x)
    | with_reducible apply modGen_kept
    | with_reducible apply ite_kept

theorem stepPlan_kept {k0 : Base} {s : State} (h : s.Kept k0) (g : Grp) (x : GenId) : (State.stepPlan s g x).Kept k0 := by
  unfold State.stepPlan
  repeat' first
    | with_reducible assumption
    | (extract_lets +onlyGivenNames x
       have hx : State.Kept k0 x := by
        unfold x
        repeat' first
          | with_reducible assumption
          | with_reducible apply afterLimits_kept
          | with_reducible apply beginReversal_kept
          | with_reducible apply endHalt_kept
          | with_reducible apply modGen_kept
          | with_reducible apply predictLimit_kept
          | with_reducible apply segment_kept
          | with_reducible apply stepCurrent_kept
          | with_reducible apply stopAtLimit_kept
          | with_reducible apply ite_kept
          | split
          | (extract_lets +onlyGivenNames y; have : State.Kept k0 (Prod.fst y) ∨ True := (.inr trivial); clear this; subst y)
                | (extract_lets +onlyGivenNames y; clear_value y)
                | (extract_lets +onlyGivenNames y; subst y)
       clear_value x)
    | (extract_lets +onlyGivenNames x; have : State.Kept k0 (Prod.fst x) ∨ True := (.inr trivial); clear this; subst x)
    | (extract_lets +onlyGivenNames x; clear_value x)
    | (extract_lets +onlyGivenNames x; subst x)
    | with_reducible apply afterLimits_kept
    | with_reducible apply beginReversal_kept
    | with_reducible apply endHalt_kept
    | with_reducible apply modGen_kept
    | with_reducible apply predictLimit_kept
    | with_reducible apply segment_kept
    | with_reducible apply stepCurrent_kept
    | with_reducible apply stopAtLimit_kept
    | with_reducible apply ite_kept
    | split

theorem stepDrum_kept {k0 : Base} {s : State} (h : s.Kept k0) (g : Grp) (x : GenId) : (State.stepDrum s g x).Kept k0 := by
  unfold State.stepDrum
  repeat' first
    | with_reducible assumption
    | (extract_lets +onlyGivenNames x
       have hx : State.Kept k0 x := by
        unfold x
        repeat' first
          | with_reducible assumption
          | with_reducible apply modGen_kept
          | split
          | (extract_lets +onlyGivenNames y; clear_value y)
                | (extract_lets +onlyGivenNames y; subst y)
       clear_value x)
    | (extract_lets +onlyGivenNames x; clear_value x)
    | (extract_lets +onlyGivenNames x; subst x)
    | with_reducible apply modGen_kept
    | split

theorem presetGen_kept {k0 : Base} {s : State} (h : s.Kept k0) (x : GenId) : (State.presetGen s x).Kept k0 := by
  unfold State.presetGen
  repeat' first
    | with_reducible assumption
    | (extract_lets +onlyGivenNames x
       have hx : State.Kept k0 x := by
        unfold x
        repeat' first
          | with_reducible assumption
          | with_reducible apply modGen_kept
          | with_reducible apply ite_kept
          | split
          | (extract_lets +onlyGivenNames y; clear_value y)
                | (extract_lets +onlyGivenNames y; subst y)
       clear_value x)
    | (extract_lets +onlyGivenNames x; clear_value x)
    | (extract_lets +onlyGivenNames x; subst x)
    | with_reducible apply modGen_kept
    | with_reducible apply ite_kept
    | split

theorem restGen_kept {k0 : Base} {s : State} (h : s.Kept k0) (x : GenId) : (State.restGen s x).Kept k0 := by
  unfold State.restGen
  repeat' first
    | with_reducible assumption
    | with_reducible apply modGen_kept

theorem stepGen_kept {k0 : Base} {s : State} (h : s.Kept k0) (g : Grp) (x : GenId) : (State.stepGen s g x).Kept k0 := by
  unfold State.stepGen
  repeat' first
    | with_reducible assumption
    | (extract_lets +onlyGivenNames x
       have hx : State.Kept k0 x := by
        unfold x
        repeat' first
          | with_reducible assumption
          | with_reducible apply modGen_kept
          | with_reducible apply presetGen_kept
          | with_reducible apply restGen_kept
          | with_reducible apply stepDrum_kept
          | with_reducible apply stepPlan_kept
          | with_reducible apply ite_kept
          | (extract_lets +onlyGivenNames y; clear_value y)
                | (extract_lets +onlyGivenNames y; subst y)
       clear_value x)
    | (extract_lets +onlyGivenNames x; clear_value x)
    | (extract_lets +onlyGivenNames x; subst x)
    | with_reducible apply modGen_kept
    | with_reducible apply presetGen_kept
    | with_reducible apply restGen_kept
    | with_reducible apply stepDrum_kept
    | with_reducible apply stepPlan_kept
    | with_reducible apply ite_kept

theorem stepPath_kept {k0 : Base} {s : State} (h : s.Kept k0) (g : Grp) : (State.stepPath s g).Kept k0 := by
  unfold State.stepPath
  repeat' first
    | with_reducible assumption
    | (extract_lets +onlyGivenNames x
       have hx : State.Kept k0 x := by
        unfold x
        repeat' first
          | with_reducible assumption
          | exact fun hm => hm
          | exact fun _ hq => hq
          | with_reducible apply haltPath_kept
          | with_reducible apply modGen_kept
          | with_reducible apply modGroup_kept
          | with_reducible apply foldl_kept
          | (intro z b hz; beta_reduce)
          | with_reducible apply ite_kept
          | split
          | (intro _ _; (try dsimp only); split)
          | (extract_lets +onlyGivenNames y; clear_value y)
                | (extract_lets +onlyGivenNames y; subst y)
       clear_value x)
    | (extract_lets +onlyGivenNames x; clear_value x)
    | (extract_lets +onlyGivenNames x; subst x)
    | exact fun hm => hm
    | exact fun _ hq => hq
    | with_reducible apply haltPath_kept
    | with_reducible apply modGen_kept
    | with_reducible apply modGroup_kept
    | with_reducible apply foldl_kept
    | (intro z b hz; beta_reduce)
    | with_reducible apply ite_kept
    | split
    | (intro _ _; (try dsimp only); split)

theorem countFolds_kept {k0 : Base} {s : State} (h : s.Kept k0) (g : Grp) : (State.countFolds s g).Kept k0 := by
  unfold State.countFolds
  repeat' first
    | with_reducible assumption
    | (extract_lets +onlyGivenNames x
       have hx : State.Kept k0 x := by
        unfold x
        repeat' first
          | with_reducible assumption
          | exact fun hm => hm
          | exact fun _ hq => hq
          | with_reducible apply modGroup_kept
          | with_reducible apply ite_kept
          | split
          | (intro _ _; (try dsimp only); split)
          | (extract_lets +onlyGivenNames y; clear_value y)
                | (extract_lets +onlyGivenNames y; subst y)
       clear_value x)
    | (extract_lets +onlyGivenNames x; clear_value x)
    | (extract_lets +onlyGivenNames x; subst x)
    | exact fun hm => hm
    | exact fun _ hq => hq
    | with_reducible apply modGroup_kept
    | with_reducible apply ite_kept
    | split
    | (intro _ _; (try dsimp only); split)

theorem endFollow_kept {k0 : Base} {s : State} (h : s.Kept k0) (g : Grp) (a : AuxNo) (reason : Int) (status : Nat) : (State.endFollow s g a reason status).Kept k0 := by
  unfold State.endFollow
  repeat' first
    | with_reducible assumption
    | with_reducible apply dropTicket_kept
    | with_reducible apply logEvent_kept
    | with_reducible apply putTarget_kept
    | with_reducible apply ite_kept

theorem checkDrum_kept {k0 : Base} {s : State} (h : s.Kept k0) (g : Grp) : (State.checkDrum s g).Kept k0 := by
  unfold State.checkDrum
  repeat' first
    | with_reducible assumption
    | with_reducible apply endFollow_kept
    | with_reducible apply ite_kept
    | split

theorem stepMotion_kept {k0 : Base} {s : State} (h : s.Kept k0) (g : Grp) : (State.stepMotion s g).Kept k0 := by
  unfold State.stepMotion
  repeat' first
    | with_reducible assumption
    | (extract_lets +onlyGivenNames x
       have hx : State.Kept k0 x := by
        unfold x
        repeat' first
          | with_reducible assumption
          | with_reducible apply checkDrum_kept
          | with_reducible apply countFolds_kept
          | with_reducible apply stepGen_kept
          | with_reducible apply stepPath_kept
          | with_reducible apply takeOrders_kept
          | with_reducible apply foldl_kept
          | (intro z b hz; beta_reduce)
          | (extract_lets +onlyGivenNames y; clear_value y)
                | (extract_lets +onlyGivenNames y; subst y)
       clear_value x)
    | (extract_lets +onlyGivenNames x; clear_value x)
    | (extract_lets +onlyGivenNames x; subst x)
    | with_reducible apply checkDrum_kept
    | with_reducible apply countFolds_kept
    | with_reducible apply stepGen_kept
    | with_reducible apply stepPath_kept
    | with_reducible apply takeOrders_kept
    | with_reducible apply foldl_kept
    | (intro z b hz; beta_reduce)

theorem completeMotion_kept {k0 : Base} {s : State} (h : s.Kept k0) (g : Grp) : (State.completeMotion s g).Kept k0 := by
  unfold State.completeMotion
  repeat' first
    | with_reducible assumption
    | (extract_lets +onlyGivenNames x
       have hx : State.Kept k0 x := by
        unfold x
        repeat' first
          | with_reducible assumption
          | exact fun hm => hm
          | exact fun _ hq => hq
          | with_reducible apply dropTicket_kept
          | with_reducible apply finish_kept
          | with_reducible apply modGen_kept
          | with_reducible apply modGroup_kept
          | with_reducible apply foldl_kept
          | (intro z b hz; beta_reduce)
          | with_reducible apply ite_kept
          | split
          | (intro _ _; (try dsimp only); split)
          | (extract_lets +onlyGivenNames y; have : ∀ z : State, State.Kept k0 (y z) ∨ True := (fun _ => .inr trivial); clear this; subst y)
                | (extract_lets +onlyGivenNames y; have : ∀ (z : State) b, State.Kept k0 (y z b) ∨ True := (fun _ _ => .inr trivial); clear this; subst y)
                | (extract_lets +onlyGivenNames y; clear_value y)
                | (extract_lets +onlyGivenNames y; subst y)
       clear_value x)
    | (extract_lets +onlyGivenNames x; have : ∀ z : State, State.Kept k0 (x z) ∨ True := (fun _ => .inr trivial); clear this; subst x)
    | (extract_lets +onlyGivenNames x; have : ∀ (z : State) b, State.Kept k0 (x z b) ∨ True := (fun _ _ => .inr trivial); clear this; subst x)
    | (extract_lets +onlyGivenNames x; clear_value x)
    | (extract_lets +onlyGivenNames x; subst x)
    | exact fun hm => hm
    | exact fun _ hq => hq
    | with_reducible apply dropTicket_kept
    | with_reducible apply finish_kept
    | with_reducible apply modGen_kept
    | with_reducible apply modGroup_kept
    | with_reducible apply foldl_kept
    | (intro z b hz; beta_reduce)
    | with_reducible apply ite_kept
    | split
    | (intro _ _; (try dsimp only); split)

theorem enterDrum_kept {k0 : Base} {s : State} (h : s.Kept k0) (g : Grp) : (State.enterDrum s g).Kept k0 := by
  unfold State.enterDrum
  repeat' first
    | with_reducible assumption
    | (extract_lets +onlyGivenNames x
       have hx : State.Kept k0 x := by
        unfold x
        repeat' first
          | with_reducible assumption
          | with_reducible apply haltPath_kept
          | with_reducible apply modGen_kept
          | with_reducible apply foldl_kept
          | (intro z b hz; beta_reduce)
          | with_reducible apply ite_kept
          | (extract_lets +onlyGivenNames y; clear_value y)
                | (extract_lets +onlyGivenNames y; subst y)
       clear_value x)
    | (extract_lets +onlyGivenNames x; clear_value x)
    | (extract_lets +onlyGivenNames x; subst x)
    | with_reducible apply haltPath_kept
    | with_reducible apply modGen_kept
    | with_reducible apply foldl_kept
    | (intro z b hz; beta_reduce)
    | with_reducible apply ite_kept

theorem leaveDrum_kept {k0 : Base} {s : State} (h : s.Kept k0) (g : Grp) : (State.leaveDrum s g).Kept k0 := by
  unfold State.leaveDrum
  repeat' first
    | with_reducible assumption
    | (extract_lets +onlyGivenNames x
       have hx : State.Kept k0 x := by
        unfold x
        repeat' first
          | with_reducible assumption
          | with_reducible apply modGen_kept
          | with_reducible apply foldl_kept
          | (intro z b hz; beta_reduce)
          | with_reducible apply ite_kept
          | split
          | (extract_lets +onlyGivenNames y; clear_value y)
                | (extract_lets +onlyGivenNames y; subst y)
       clear_value x)
    | (extract_lets +onlyGivenNames x; clear_value x)
    | (extract_lets +onlyGivenNames x; subst x)
    | with_reducible apply modGen_kept
    | with_reducible apply foldl_kept
    | (intro z b hz; beta_reduce)
    | with_reducible apply ite_kept
    | split

theorem haltAll_kept {k0 : Base} {s : State} (h : s.Kept k0) (g : Grp) : (State.haltAll s g).Kept k0 := by
  unfold State.haltAll
  repeat' first
    | with_reducible assumption
    | exact fun hm => hm
    | exact fun _ hq => hq
    | with_reducible apply modGroup_kept

theorem latchTrack_kept {k0 : Base} {s : State} (h : s.Kept k0) (x : GenId) (v : Int) : (State.latchTrack s x v).Kept k0 := by
  unfold State.latchTrack
  repeat' first
    | with_reducible assumption
    | (extract_lets +onlyGivenNames x
       have hx : State.Kept k0 x := by
        unfold x
        repeat' first
          | with_reducible assumption
          | with_reducible apply modGen_kept
          | with_reducible apply ite_kept
          | split
          | (extract_lets +onlyGivenNames y; clear_value y)
                | (extract_lets +onlyGivenNames y; subst y)
       clear_value x)
    | (extract_lets +onlyGivenNames x; clear_value x)
    | (extract_lets +onlyGivenNames x; subst x)
    | with_reducible apply modGen_kept
    | with_reducible apply ite_kept
    | split

end Sys2Proof.Machine.State
end

