-- ==== Sys2Proof/Laws/KeptCommutation.lean ====
section
/-! SUPPORT. Every operation of Machine/Commutation.lean keeps what Laws/Kept.lean names. -/

set_option Elab.async false

set_option linter.unusedTactic false
set_option linter.unreachableTactic false

namespace Sys2Proof.Machine.State

theorem gatesOff_kept {k0 : Base} {s : State} (h : s.Kept k0) (m : Main) : (State.gatesOff s m).Kept k0 := by
  unfold State.gatesOff
  repeat' first
    | with_reducible assumption
    | with_reducible apply modDrive_kept
    | with_reducible apply modGlance_kept

theorem gatesOn_kept {k0 : Base} {s : State} (h : s.Kept k0) (m : Main) : (State.gatesOn s m).Kept k0 := by
  unfold State.gatesOn
  repeat' first
    | with_reducible assumption
    | with_reducible apply modDrive_kept

theorem setRelease_kept {k0 : Base} {s : State} (h : s.Kept k0) (m : Main) (b : Bool) : (State.setRelease s m b).Kept k0 := by
  unfold State.setRelease
  repeat' first
    | with_reducible assumption
    | with_reducible apply modComm_kept

theorem endOffsets_kept {k0 : Base} {s : State} (h : s.Kept k0) (m : Main) (full : Bool) : (State.endOffsets s m full).Kept k0 := by
  unfold State.endOffsets
  repeat' first
    | with_reducible assumption
    | (extract_lets +onlyGivenNames x
       have hx : State.Kept k0 x := by
        unfold x
        repeat' first
          | with_reducible assumption
          | with_reducible apply logEvent_kept
          | with_reducible apply modDrive_kept
          | with_reducible apply setNoun_kept
          | with_reducible apply ite_kept
          | (extract_lets +onlyGivenNames y; clear_value y)
                | (extract_lets +onlyGivenNames y; subst y)
       clear_value x)
    | (extract_lets +onlyGivenNames x; clear_value x)
    | (extract_lets +onlyGivenNames x; subst x)
    | with_reducible apply logEvent_kept
    | with_reducible apply modDrive_kept
    | with_reducible apply setNoun_kept
    | with_reducible apply ite_kept

theorem enterCheck_kept {k0 : Base} {s : State} (h : s.Kept k0) (m : Main) : (State.enterCheck s m).Kept k0 := by
  unfold State.enterCheck
  repeat' first
    | with_reducible assumption
    | (extract_lets +onlyGivenNames x
       have hx : State.Kept k0 x := by
        unfold x
        repeat' first
          | with_reducible assumption
          | with_reducible apply endOffsets_kept
          | with_reducible apply gatesOff_kept
          | with_reducible apply modComm_kept
          | with_reducible apply modDrive_kept
          | with_reducible apply modGlance_kept
          | with_reducible apply setRelease_kept
          | (extract_lets +onlyGivenNames y; clear_value y)
                | (extract_lets +onlyGivenNames y; subst y)
       clear_value x)
    | (extract_lets +onlyGivenNames x; clear_value x)
    | (extract_lets +onlyGivenNames x; subst x)
    | with_reducible apply endOffsets_kept
    | with_reducible apply gatesOff_kept
    | with_reducible apply modComm_kept
    | with_reducible apply modDrive_kept
    | with_reducible apply modGlance_kept
    | with_reducible apply setRelease_kept

theorem failStart_kept {k0 : Base} {s : State} (h : s.Kept k0) (m : Main) (starting : Bool) (status : Nat) : (State.failStart s m starting status).Kept k0 := by
  unfold State.failStart
  repeat' first
    | with_reducible assumption
    | (extract_lets +onlyGivenNames x
       have hx : State.Kept k0 x := by
        unfold x
        repeat' first
          | with_reducible assumption
          | with_reducible apply dropTicket_kept
          | with_reducible apply finish_kept
          | with_reducible apply modMain_kept
          | with_reducible apply ite_kept
          | split
          | (extract_lets +onlyGivenNames y; clear_value y)
                | (extract_lets +onlyGivenNames y; subst y)
       clear_value x)
    | (extract_lets +onlyGivenNames x; clear_value x)
    | (extract_lets +onlyGivenNames x; subst x)
    | with_reducible apply dropTicket_kept
    | with_reducible apply finish_kept
    | with_reducible apply modMain_kept
    | with_reducible apply ite_kept
    | split

theorem enterRest_kept {k0 : Base} {s : State} (h : s.Kept k0) (m : Main) (st : CState) (why : StopReason) : (State.enterRest s m st why).Kept k0 := by
  unfold State.enterRest
  repeat' first
    | with_reducible assumption
    | (extract_lets +onlyGivenNames x
       have hx : State.Kept k0 x := by
        unfold x
        repeat' first
          | with_reducible assumption
          | with_reducible apply endOffsets_kept
          | with_reducible apply failStart_kept
          | with_reducible apply finishOpt_kept
          | with_reducible apply gatesOff_kept
          | with_reducible apply logEvent_kept
          | with_reducible apply modComm_kept
          | with_reducible apply modMain_kept
          | split
          | (extract_lets +onlyGivenNames y; clear_value y)
                | (extract_lets +onlyGivenNames y; subst y)
       clear_value x)
    | (extract_lets +onlyGivenNames x; clear_value x)
    | (extract_lets +onlyGivenNames x; subst x)
    | with_reducible apply endOffsets_kept
    | with_reducible apply failStart_kept
    | with_reducible apply finishOpt_kept
    | with_reducible apply gatesOff_kept
    | with_reducible apply logEvent_kept
    | with_reducible apply modComm_kept
    | with_reducible apply modMain_kept
    | split

theorem leaveTorque_kept {k0 : Base} {s : State} (h : s.Kept k0) (g : Grp) (run : AxisRun) (st : CState) (why : StopReason) : (State.leaveTorque s g run st why).Kept k0 := by
  unfold State.leaveTorque
  repeat' first
    | with_reducible assumption
    | (extract_lets +onlyGivenNames x
       have hx : State.Kept k0 x := by
        unfold x
        repeat' first
          | with_reducible assumption
          | with_reducible apply enterRest_kept
          | with_reducible apply modComm_kept
          | with_reducible apply ite_kept
          | (extract_lets +onlyGivenNames y; clear_value y)
                | (extract_lets +onlyGivenNames y; subst y)
       clear_value x)
    | (extract_lets +onlyGivenNames x; clear_value x)
    | (extract_lets +onlyGivenNames x; subst x)
    | with_reducible apply enterRest_kept
    | with_reducible apply modComm_kept
    | with_reducible apply ite_kept

theorem enterGated_kept {k0 : Base} {s : State} (h : s.Kept k0) (m : Main) (st : CState) (src : Source) : (State.enterGated s m st src).Kept k0 := by
  unfold State.enterGated
  repeat' first
    | with_reducible assumption
    | with_reducible apply CState.releases_kept
    | with_reducible apply gatesOn_kept
    | with_reducible apply modComm_kept
    | with_reducible apply setRelease_kept

theorem freshWindows_kept {k0 : Base} {s : State} (h : s.Kept k0) (m : Main) : (State.freshWindows s m).Kept k0 := by
  unfold State.freshWindows
  repeat' first
    | with_reducible assumption
    | with_reducible apply modGlance_kept

theorem enterRun_kept {k0 : Base} {s : State} (h : s.Kept k0) (run : AxisRun) (src : Source) : (State.enterRun s run src).Kept k0 := by
  unfold State.enterRun
  repeat' first
    | with_reducible assumption
    | (extract_lets +onlyGivenNames x
       have hx : State.Kept k0 x := by
        unfold x
        repeat' first
          | with_reducible assumption
          | with_reducible apply enterGated_kept
          | with_reducible apply finish_kept
          | with_reducible apply freshWindows_kept
          | with_reducible apply modComm_kept
          | with_reducible apply modEng_kept
          | with_reducible apply modGen_kept
          | with_reducible apply modGlance_kept
          | with_reducible apply modMain_kept
          | with_reducible apply setNoun_kept
          | with_reducible apply ite_kept
          | split
          | (extract_lets +onlyGivenNames y; clear_value y)
                | (extract_lets +onlyGivenNames y; subst y)
       clear_value x)
    | (extract_lets +onlyGivenNames x; clear_value x)
    | (extract_lets +onlyGivenNames x; subst x)
    | with_reducible apply enterGated_kept
    | with_reducible apply finish_kept
    | with_reducible apply freshWindows_kept
    | with_reducible apply modComm_kept
    | with_reducible apply modEng_kept
    | with_reducible apply modGen_kept
    | with_reducible apply modGlance_kept
    | with_reducible apply modMain_kept
    | with_reducible apply setNoun_kept
    | with_reducible apply ite_kept
    | split

theorem enterCoast_kept {k0 : Base} {s : State} (h : s.Kept k0) (g : Grp) (run : AxisRun) (θ : Int) (ω : Int) (sensor : Bool) : (State.enterCoast s g run θ ω sensor).Kept k0 := by
  unfold State.enterCoast
  repeat' first
    | with_reducible assumption
    | (extract_lets +onlyGivenNames x
       have hx : State.Kept k0 x := by
        unfold x
        repeat' first
          | with_reducible assumption
          | with_reducible apply enterGated_kept
          | with_reducible apply freshWindows_kept
          | with_reducible apply logEvent_kept
          | with_reducible apply modComm_kept
          | (extract_lets +onlyGivenNames y; clear_value y)
                | (extract_lets +onlyGivenNames y; subst y)
       clear_value x)
    | (extract_lets +onlyGivenNames x; clear_value x)
    | (extract_lets +onlyGivenNames x; subst x)
    | with_reducible apply enterGated_kept
    | with_reducible apply freshWindows_kept
    | with_reducible apply logEvent_kept
    | with_reducible apply modComm_kept

theorem keepMeasured_kept {k0 : Base} {s : State} (h : s.Kept k0) (m : Main) (ω : Int) (l : List Crossing) : (State.keepMeasured s m ω l).Kept k0 := by
  unfold State.keepMeasured
  repeat' first
    | with_reducible assumption
    | with_reducible apply modComm_kept
    | split

theorem retryOr_kept {k0 : Base} {s : State} (h : s.Kept k0) (g : Grp) (run : AxisRun) (why : StopReason) : (State.retryOr s g run why).Kept k0 := by
  unfold State.retryOr
  repeat' first
    | with_reducible assumption
    | (extract_lets +onlyGivenNames x
       have hx : State.Kept k0 x := by
        unfold x
        repeat' first
          | with_reducible assumption
          | with_reducible apply enterCheck_kept
          | with_reducible apply leaveTorque_kept
          | with_reducible apply modComm_kept
          | with_reducible apply ite_kept
          | (extract_lets +onlyGivenNames y; clear_value y)
                | (extract_lets +onlyGivenNames y; subst y)
       clear_value x)
    | (extract_lets +onlyGivenNames x; clear_value x)
    | (extract_lets +onlyGivenNames x; subst x)
    | with_reducible apply enterCheck_kept
    | with_reducible apply leaveTorque_kept
    | with_reducible apply modComm_kept
    | with_reducible apply ite_kept

theorem enterHandover_kept {k0 : Base} {s : State} (h : s.Kept k0) (m : Main) (target : Source) (fromParison : Bool) : (State.enterHandover s m target fromParison).Kept k0 := by
  unfold State.enterHandover
  repeat' first
    | with_reducible assumption
    | with_reducible apply modComm_kept

theorem enterParison_kept {k0 : Base} {s : State} (h : s.Kept k0) (m : Main) (θ : Int) (ω : Int) (preload : Int) : (State.enterParison s m θ ω preload).Kept k0 := by
  unfold State.enterParison
  repeat' first
    | with_reducible assumption
    | with_reducible apply gatesOn_kept
    | with_reducible apply modComm_kept
    | with_reducible apply setRelease_kept

theorem rowCheck_kept {k0 : Base} {s : State} (h : s.Kept k0) (g : Grp) (run : AxisRun) (d : Int) : (State.rowCheck s g run d).Kept k0 := by
  unfold State.rowCheck
  repeat' first
    | with_reducible assumption
    | (extract_lets +onlyGivenNames x
       have hx : State.Kept k0 x := by
        unfold x
        repeat' first
          | with_reducible assumption
          | with_reducible apply endOffsets_kept
          | with_reducible apply enterCheck_kept
          | with_reducible apply enterGated_kept
          | with_reducible apply enterRest_kept
          | with_reducible apply enterRun_kept
          | with_reducible apply freshWindows_kept
          | with_reducible apply keepMeasured_kept
          | with_reducible apply modComm_kept
          | with_reducible apply setRelease_kept
          | with_reducible apply ite_kept
          | split
          | (extract_lets +onlyGivenNames y; clear_value y)
                | (extract_lets +onlyGivenNames y; subst y)
       clear_value x)
    | (extract_lets +onlyGivenNames x; clear_value x)
    | (extract_lets +onlyGivenNames x; subst x)
    | with_reducible apply endOffsets_kept
    | with_reducible apply enterCheck_kept
    | with_reducible apply enterGated_kept
    | with_reducible apply enterRest_kept
    | with_reducible apply enterRun_kept
    | with_reducible apply freshWindows_kept
    | with_reducible apply keepMeasured_kept
    | with_reducible apply modComm_kept
    | with_reducible apply setRelease_kept
    | with_reducible apply ite_kept
    | split

theorem rowCatch_kept {k0 : Base} {s : State} (h : s.Kept k0) (g : Grp) (run : AxisRun) : (State.rowCatch s g run).Kept k0 := by
  unfold State.rowCatch
  repeat' first
    | with_reducible assumption
    | (extract_lets +onlyGivenNames x
       have hx : State.Kept k0 x := by
        unfold x
        repeat' first
          | with_reducible assumption
          | with_reducible apply enterRun_kept
          | with_reducible apply retryOr_kept
          | with_reducible apply ite_kept
          | (extract_lets +onlyGivenNames y; clear_value y)
                | (extract_lets +onlyGivenNames y; subst y)
       clear_value x)
    | (extract_lets +onlyGivenNames x; clear_value x)
    | (extract_lets +onlyGivenNames x; subst x)
    | with_reducible apply enterRun_kept
    | with_reducible apply retryOr_kept
    | with_reducible apply ite_kept

theorem rowPreload_kept {k0 : Base} {s : State} (h : s.Kept k0) (m : Main) : (State.rowPreload s m).Kept k0 := by
  unfold State.rowPreload
  repeat' first
    | with_reducible assumption
    | (extract_lets +onlyGivenNames x
       have hx : State.Kept k0 x := by
        unfold x
        repeat' first
          | with_reducible assumption
          | with_reducible apply enterParison_kept
          | with_reducible apply ite_kept
          | split
          | (extract_lets +onlyGivenNames y; clear_value y)
                | (extract_lets +onlyGivenNames y; subst y)
       clear_value x)
    | (extract_lets +onlyGivenNames x; clear_value x)
    | (extract_lets +onlyGivenNames x; subst x)
    | with_reducible apply enterParison_kept
    | with_reducible apply ite_kept
    | split

theorem rowParison_kept {k0 : Base} {s : State} (h : s.Kept k0) (g : Grp) (run : AxisRun) (d : Int) : (State.rowParison s g run d).Kept k0 := by
  unfold State.rowParison
  repeat' first
    | with_reducible assumption
    | (extract_lets +onlyGivenNames x
       have hx : State.Kept k0 x := by
        unfold x
        repeat' first
          | with_reducible assumption
          | with_reducible apply enterHandover_kept
          | with_reducible apply leaveTorque_kept
          | with_reducible apply retryOr_kept
          | with_reducible apply ite_kept
          | (extract_lets +onlyGivenNames y; clear_value y)
                | (extract_lets +onlyGivenNames y; subst y)
       clear_value x)
    | (extract_lets +onlyGivenNames x; clear_value x)
    | (extract_lets +onlyGivenNames x; subst x)
    | with_reducible apply enterHandover_kept
    | with_reducible apply leaveTorque_kept
    | with_reducible apply retryOr_kept
    | with_reducible apply ite_kept

theorem endHandover_kept {k0 : Base} {s : State} (h : s.Kept k0) (run : AxisRun) (holdoff : Nat) : (State.endHandover s run holdoff).Kept k0 := by
  unfold State.endHandover
  repeat' first
    | with_reducible assumption
    | (extract_lets +onlyGivenNames x
       have hx : State.Kept k0 x := by
        unfold x
        repeat' first
          | with_reducible assumption
          | with_reducible apply modComm_kept
          | with_reducible apply ite_kept
          | (extract_lets +onlyGivenNames y; clear_value y)
                | (extract_lets +onlyGivenNames y; subst y)
       clear_value x)
    | (extract_lets +onlyGivenNames x; clear_value x)
    | (extract_lets +onlyGivenNames x; subst x)
    | with_reducible apply modComm_kept
    | with_reducible apply ite_kept

theorem rowHandover_kept {k0 : Base} {s : State} (h : s.Kept k0) (g : Grp) (run : AxisRun) : (State.rowHandover s g run).Kept k0 := by
  unfold State.rowHandover
  repeat' first
    | with_reducible assumption
    | (extract_lets +onlyGivenNames x
       have hx : State.Kept k0 x := by
        unfold x
        repeat' first
          | with_reducible assumption
          | with_reducible apply endHandover_kept
          | with_reducible apply enterCoast_kept
          | with_reducible apply enterRun_kept
          | with_reducible apply modComm_kept
          | with_reducible apply ite_kept
          | split
          | (extract_lets +onlyGivenNames y; have : ∀ z : State, State.Kept k0 (y z) ∨ True := (fun _ => .inr trivial); clear this; subst y)
                | (extract_lets +onlyGivenNames y; have : ∀ (z : State) b, State.Kept k0 (y z b) ∨ True := (fun _ _ => .inr trivial); clear this; subst y)
                | (extract_lets +onlyGivenNames y; clear_value y)
                | (extract_lets +onlyGivenNames y; subst y)
       clear_value x)
    | (extract_lets +onlyGivenNames x; have : ∀ z : State, State.Kept k0 (x z) ∨ True := (fun _ => .inr trivial); clear this; subst x)
    | (extract_lets +onlyGivenNames x; have : ∀ (z : State) b, State.Kept k0 (x z b) ∨ True := (fun _ _ => .inr trivial); clear this; subst x)
    | (extract_lets +onlyGivenNames x; clear_value x)
    | (extract_lets +onlyGivenNames x; subst x)
    | with_reducible apply endHandover_kept
    | with_reducible apply enterCoast_kept
    | with_reducible apply enterRun_kept
    | with_reducible apply modComm_kept
    | with_reducible apply ite_kept
    | split

theorem rowRun_kept {k0 : Base} {s : State} (h : s.Kept k0) (g : Grp) (run : AxisRun) (d : Int) : (State.rowRun s g run d).Kept k0 := by
  unfold State.rowRun
  repeat' first
    | with_reducible assumption
    | (extract_lets +onlyGivenNames x
       have hx : State.Kept k0 x := by
        unfold x
        repeat' first
          | with_reducible assumption
          | with_reducible apply enterCoast_kept
          | with_reducible apply enterHandover_kept
          | with_reducible apply enterParison_kept
          | with_reducible apply leaveTorque_kept
          | with_reducible apply ite_kept
          | (extract_lets +onlyGivenNames y; clear_value y)
                | (extract_lets +onlyGivenNames y; subst y)
       clear_value x)
    | (extract_lets +onlyGivenNames x; clear_value x)
    | (extract_lets +onlyGivenNames x; subst x)
    | with_reducible apply enterCoast_kept
    | with_reducible apply enterHandover_kept
    | with_reducible apply enterParison_kept
    | with_reducible apply leaveTorque_kept
    | with_reducible apply ite_kept

theorem rowCoast_kept {k0 : Base} {s : State} (h : s.Kept k0) (g : Grp) (run : AxisRun) : (State.rowCoast s g run).Kept k0 := by
  unfold State.rowCoast
  repeat' first
    | with_reducible assumption
    | (extract_lets +onlyGivenNames x
       have hx : State.Kept k0 x := by
        unfold x
        repeat' first
          | with_reducible assumption
          | with_reducible apply enterRun_kept
          | with_reducible apply gatesOff_kept
          | with_reducible apply leaveTorque_kept
          | with_reducible apply modComm_kept
          | with_reducible apply modGlance_kept
          | with_reducible apply ite_kept
          | split
          | (extract_lets +onlyGivenNames y; have : ∀ z : State, State.Kept k0 (y z) ∨ True := (fun _ => .inr trivial); clear this; subst y)
                | (extract_lets +onlyGivenNames y; have : ∀ (z : State) b, State.Kept k0 (y z b) ∨ True := (fun _ _ => .inr trivial); clear this; subst y)
                | (extract_lets +onlyGivenNames y; clear_value y)
                | (extract_lets +onlyGivenNames y; subst y)
       clear_value x)
    | (extract_lets +onlyGivenNames x; have : ∀ z : State, State.Kept k0 (x z) ∨ True := (fun _ => .inr trivial); clear this; subst x)
    | (extract_lets +onlyGivenNames x; have : ∀ (z : State) b, State.Kept k0 (x z b) ∨ True := (fun _ _ => .inr trivial); clear this; subst x)
    | (extract_lets +onlyGivenNames x; clear_value x)
    | (extract_lets +onlyGivenNames x; subst x)
    | with_reducible apply enterRun_kept
    | with_reducible apply gatesOff_kept
    | with_reducible apply leaveTorque_kept
    | with_reducible apply modComm_kept
    | with_reducible apply modGlance_kept
    | with_reducible apply ite_kept
    | split

theorem rowResync_kept {k0 : Base} {s : State} (h : s.Kept k0) (g : Grp) (run : AxisRun) : (State.rowResync s g run).Kept k0 := by
  unfold State.rowResync
  repeat' first
    | with_reducible assumption
    | (extract_lets +onlyGivenNames x
       have hx : State.Kept k0 x := by
        unfold x
        repeat' first
          | with_reducible assumption
          | with_reducible apply enterRest_kept
          | with_reducible apply enterRun_kept
          | with_reducible apply gatesOff_kept
          | with_reducible apply keepMeasured_kept
          | with_reducible apply ite_kept
          | split
          | (extract_lets +onlyGivenNames y; clear_value y)
                | (extract_lets +onlyGivenNames y; subst y)
       clear_value x)
    | (extract_lets +onlyGivenNames x; clear_value x)
    | (extract_lets +onlyGivenNames x; subst x)
    | with_reducible apply enterRest_kept
    | with_reducible apply enterRun_kept
    | with_reducible apply gatesOff_kept
    | with_reducible apply keepMeasured_kept
    | with_reducible apply ite_kept
    | split

theorem rowHold_kept {k0 : Base} {s : State} (h : s.Kept k0) (run : AxisRun) (d : Int) : (State.rowHold s run d).Kept k0 := by
  unfold State.rowHold
  repeat' first
    | with_reducible assumption
    | (extract_lets +onlyGivenNames x
       have hx : State.Kept k0 x := by
        unfold x
        repeat' first
          | with_reducible assumption
          | with_reducible apply enterGated_kept
          | with_reducible apply enterRest_kept
          | with_reducible apply enterRun_kept
          | with_reducible apply modComm_kept
          | with_reducible apply ite_kept
          | (extract_lets +onlyGivenNames y; clear_value y)
                | (extract_lets +onlyGivenNames y; subst y)
       clear_value x)
    | (extract_lets +onlyGivenNames x; clear_value x)
    | (extract_lets +onlyGivenNames x; subst x)
    | with_reducible apply enterGated_kept
    | with_reducible apply enterRest_kept
    | with_reducible apply enterRun_kept
    | with_reducible apply modComm_kept
    | with_reducible apply ite_kept

theorem brakeDone_kept {k0 : Base} {s : State} (h : s.Kept k0) (run : AxisRun) (st : CState) (why : StopReason) : (State.brakeDone s run st why).Kept k0 := by
  unfold State.brakeDone
  repeat' first
    | with_reducible assumption
    | (extract_lets +onlyGivenNames x
       have hx : State.Kept k0 x := by
        unfold x
        repeat' first
          | with_reducible assumption
          | with_reducible apply enterRest_kept
          | with_reducible apply gatesOff_kept
          | with_reducible apply modComm_kept
          | with_reducible apply ite_kept
          | split
          | (extract_lets +onlyGivenNames y; clear_value y)
                | (extract_lets +onlyGivenNames y; subst y)
       clear_value x)
    | (extract_lets +onlyGivenNames x; clear_value x)
    | (extract_lets +onlyGivenNames x; subst x)
    | with_reducible apply enterRest_kept
    | with_reducible apply gatesOff_kept
    | with_reducible apply modComm_kept
    | with_reducible apply ite_kept
    | split

theorem transition_kept {k0 : Base} {s : State} (h : s.Kept k0) (g : Grp) (run : AxisRun) : (State.transition s g run).Kept k0 := by
  unfold State.transition
  repeat' first
    | with_reducible assumption
    | (extract_lets +onlyGivenNames x
       have hx : State.Kept k0 x := by
        unfold x
        repeat' first
          | with_reducible assumption
          | with_reducible apply brakeDone_kept
          | with_reducible apply enterCheck_kept
          | with_reducible apply enterParison_kept
          | with_reducible apply enterRest_kept
          | with_reducible apply leaveTorque_kept
          | with_reducible apply rowCatch_kept
          | with_reducible apply rowCheck_kept
          | with_reducible apply rowCoast_kept
          | with_reducible apply rowHandover_kept
          | with_reducible apply rowHold_kept
          | with_reducible apply rowParison_kept
          | with_reducible apply rowPreload_kept
          | with_reducible apply rowResync_kept
          | with_reducible apply rowRun_kept
          | with_reducible apply ite_kept
          | split
          | (extract_lets +onlyGivenNames y; clear_value y)
                | (extract_lets +onlyGivenNames y; subst y)
       clear_value x)
    | (extract_lets +onlyGivenNames x; clear_value x)
    | (extract_lets +onlyGivenNames x; subst x)
    | with_reducible apply brakeDone_kept
    | with_reducible apply enterCheck_kept
    | with_reducible apply enterParison_kept
    | with_reducible apply enterRest_kept
    | with_reducible apply leaveTorque_kept
    | with_reducible apply rowCatch_kept
    | with_reducible apply rowCheck_kept
    | with_reducible apply rowCoast_kept
    | with_reducible apply rowHandover_kept
    | with_reducible apply rowHold_kept
    | with_reducible apply rowParison_kept
    | with_reducible apply rowPreload_kept
    | with_reducible apply rowResync_kept
    | with_reducible apply rowRun_kept
    | with_reducible apply ite_kept
    | split

theorem commitEnable_kept {k0 : Base} {s : State} (h : s.Kept k0) (g : Grp) (m : Main) : (State.commitEnable s g m).Kept k0 := by
  unfold State.commitEnable
  repeat' first
    | with_reducible assumption
    | (extract_lets +onlyGivenNames x
       have hx : State.Kept k0 x := by
        unfold x
        repeat' first
          | with_reducible assumption
          | with_reducible apply finish_kept
          | with_reducible apply modMain_kept
          | with_reducible apply ite_kept
          | split
          | (extract_lets +onlyGivenNames y; clear_value y)
                | (extract_lets +onlyGivenNames y; subst y)
       clear_value x)
    | (extract_lets +onlyGivenNames x; clear_value x)
    | (extract_lets +onlyGivenNames x; subst x)
    | with_reducible apply finish_kept
    | with_reducible apply modMain_kept
    | with_reducible apply ite_kept
    | split

theorem advanceRamp_kept {k0 : Base} {s : State} (h : s.Kept k0) (g : Grp) (m : Main) : (State.advanceRamp s g m).Kept k0 := by
  unfold State.advanceRamp
  repeat' first
    | with_reducible assumption
    | (extract_lets +onlyGivenNames x
       have hx : State.Kept k0 x := by
        unfold x
        repeat' first
          | with_reducible assumption
          | with_reducible apply modComm_kept
          | with_reducible apply step_kept
          | with_reducible apply ite_kept
          | (extract_lets +onlyGivenNames y; clear_value y)
                | (extract_lets +onlyGivenNames y; subst y)
       clear_value x)
    | (extract_lets +onlyGivenNames x; clear_value x)
    | (extract_lets +onlyGivenNames x; subst x)
    | with_reducible apply modComm_kept
    | with_reducible apply step_kept
    | with_reducible apply ite_kept

theorem advanceCoast_kept {k0 : Base} {s : State} (h : s.Kept k0) (g : Grp) (m : Main) : (State.advanceCoast s g m).Kept k0 := by
  unfold State.advanceCoast
  repeat' first
    | with_reducible assumption
    | with_reducible apply modComm_kept
    | with_reducible apply ite_kept

theorem advancePreload_kept {k0 : Base} {s : State} (h : s.Kept k0) (g : Grp) (m : Main) : (State.advancePreload s g m).Kept k0 := by
  unfold State.advancePreload
  repeat' first
    | with_reducible assumption
    | (extract_lets +onlyGivenNames x
       have hx : State.Kept k0 x := by
        unfold x
        repeat' first
          | with_reducible assumption
          | with_reducible apply modComm_kept
          | with_reducible apply ite_kept
          | (extract_lets +onlyGivenNames y; clear_value y)
                | (extract_lets +onlyGivenNames y; subst y)
       clear_value x)
    | (extract_lets +onlyGivenNames x; clear_value x)
    | (extract_lets +onlyGivenNames x; subst x)
    | with_reducible apply modComm_kept
    | with_reducible apply ite_kept

theorem advanceComm_kept {k0 : Base} {s : State} (h : s.Kept k0) (g : Grp) (m : Main) : (State.advanceComm s g m).Kept k0 := by
  unfold State.advanceComm
  repeat' first
    | with_reducible assumption
    | (extract_lets +onlyGivenNames x
       have hx : State.Kept k0 x := by
        unfold x
        repeat' first
          | with_reducible assumption
          | with_reducible apply advancePreload_kept
          | with_reducible apply advanceRamp_kept
          | with_reducible apply modComm_kept
          | (extract_lets +onlyGivenNames y; clear_value y)
                | (extract_lets +onlyGivenNames y; subst y)
       clear_value x)
    | (extract_lets +onlyGivenNames x; clear_value x)
    | (extract_lets +onlyGivenNames x; subst x)
    | with_reducible apply advancePreload_kept
    | with_reducible apply advanceRamp_kept
    | with_reducible apply modComm_kept

theorem countOverspeed_kept {k0 : Base} {s : State} (h : s.Kept k0) (m : Main) : (State.countOverspeed s m).Kept k0 := by
  unfold State.countOverspeed
  repeat' first
    | with_reducible assumption
    | (extract_lets +onlyGivenNames x
       have hx : State.Kept k0 x := by
        unfold x
        repeat' first
          | with_reducible assumption
          | with_reducible apply CState.gated_kept
          | with_reducible apply modComm_kept
          | with_reducible apply ite_kept
          | (extract_lets +onlyGivenNames y; clear_value y)
                | (extract_lets +onlyGivenNames y; subst y)
       clear_value x)
    | (extract_lets +onlyGivenNames x; clear_value x)
    | (extract_lets +onlyGivenNames x; subst x)
    | with_reducible apply CState.gated_kept
    | with_reducible apply modComm_kept
    | with_reducible apply ite_kept

theorem raise_kept {k0 : Base} {s : State} (h : s.Kept k0) (m : Main) (ok : CommSt → Bool) (f : CommSt → CommSt) : (State.raise s m ok f).Kept k0 := by
  unfold State.raise
  repeat' first
    | with_reducible assumption
    | with_reducible apply modComm_kept
    | with_reducible apply ite_kept

end Sys2Proof.Machine.State
end

