-- ==== Sys2Proof/Laws/KeptCommit.lean ====
section
/-! SUPPORT. Every operation of Machine/Commit.lean keeps what Laws/Kept.lean names. -/

set_option Elab.async false

set_option linter.unusedTactic false
set_option linter.unreachableTactic false

namespace Sys2Proof.Machine.State

theorem commitLedger_kept {k0 : Base} {s : State} (h : s.Kept k0) (g : Grp) (run : AxisRun) : (State.commitLedger s g run).Kept k0 := by
  unfold State.commitLedger
  repeat' first
    | with_reducible assumption
    | (extract_lets +onlyGivenNames x
       have hx : State.Kept k0 x := by
        unfold x
        repeat' first
          | with_reducible assumption
          | with_reducible apply modMain_kept
          | (extract_lets +onlyGivenNames y; clear_value y)
                | (extract_lets +onlyGivenNames y; subst y)
       clear_value x)
    | (extract_lets +onlyGivenNames x; clear_value x)
    | (extract_lets +onlyGivenNames x; subst x)
    | with_reducible apply modMain_kept

theorem commitData_kept {k0 : Base} {s : State} (h : s.Kept k0) (run : AxisRun) : (State.commitData s run).Kept k0 := by
  unfold State.commitData
  repeat' first
    | with_reducible assumption
    | (extract_lets +onlyGivenNames x
       have hx : State.Kept k0 x := by
        unfold x
        repeat' first
          | with_reducible assumption
          | with_reducible apply modEng_kept
          | with_reducible apply ite_kept
          | split
          | (extract_lets +onlyGivenNames y; clear_value y)
                | (extract_lets +onlyGivenNames y; subst y)
       clear_value x)
    | (extract_lets +onlyGivenNames x; clear_value x)
    | (extract_lets +onlyGivenNames x; subst x)
    | with_reducible apply modEng_kept
    | with_reducible apply ite_kept
    | split

theorem commitGlance_kept {k0 : Base} {s : State} (h : s.Kept k0) (g : Grp) (run : AxisRun) : (State.commitGlance s g run).Kept k0 := by
  unfold State.commitGlance
  repeat' first
    | with_reducible assumption
    | (extract_lets +onlyGivenNames x
       have hx : State.Kept k0 x := by
        unfold x
        repeat' first
          | with_reducible assumption
          | with_reducible apply modGlance_kept
          | with_reducible apply foldl_kept
          | (intro z b hz; beta_reduce)
          | with_reducible apply ite_kept
          | (extract_lets +onlyGivenNames y; have : ∀ z : State, State.Kept k0 (y z) ∨ True := (fun _ => .inr trivial); clear this; subst y)
                | (extract_lets +onlyGivenNames y; have : ∀ (z : State) b, State.Kept k0 (y z b) ∨ True := (fun _ _ => .inr trivial); clear this; subst y)
                | (extract_lets +onlyGivenNames y; clear_value y)
                | (extract_lets +onlyGivenNames y; subst y)
       clear_value x)
    | (extract_lets +onlyGivenNames x; have : ∀ z : State, State.Kept k0 (x z) ∨ True := (fun _ => .inr trivial); clear this; subst x)
    | (extract_lets +onlyGivenNames x; have : ∀ (z : State) b, State.Kept k0 (x z b) ∨ True := (fun _ _ => .inr trivial); clear this; subst x)
    | (extract_lets +onlyGivenNames x; clear_value x)
    | (extract_lets +onlyGivenNames x; subst x)
    | with_reducible apply modGlance_kept
    | with_reducible apply foldl_kept
    | (intro z b hz; beta_reduce)
    | with_reducible apply ite_kept

theorem commitMode_kept {k0 : Base} {s : State} (h : s.Kept k0) (run : AxisRun) : (State.commitMode s run).Kept k0 := by
  unfold State.commitMode
  repeat' first
    | with_reducible assumption
    | (extract_lets +onlyGivenNames x
       have hx : State.Kept k0 x := by
        unfold x
        repeat' first
          | with_reducible assumption
          | with_reducible apply finish_kept
          | with_reducible apply modEng_kept
          | with_reducible apply modGen_kept
          | with_reducible apply setNoun_kept
          | with_reducible apply step_kept
          | with_reducible apply ite_kept
          | split
          | (extract_lets +onlyGivenNames y; clear_value y)
                | (extract_lets +onlyGivenNames y; subst y)
       clear_value x)
    | (extract_lets +onlyGivenNames x; clear_value x)
    | (extract_lets +onlyGivenNames x; subst x)
    | with_reducible apply finish_kept
    | with_reducible apply modEng_kept
    | with_reducible apply modGen_kept
    | with_reducible apply setNoun_kept
    | with_reducible apply step_kept
    | with_reducible apply ite_kept
    | split

theorem dropMode_kept {k0 : Base} {s : State} (h : s.Kept k0) (m : Main) : (State.dropMode s m).Kept k0 := by
  unfold State.dropMode
  repeat' first
    | with_reducible assumption
    | (extract_lets +onlyGivenNames x
       have hx : State.Kept k0 x := by
        unfold x
        repeat' first
          | with_reducible assumption
          | with_reducible apply finish_kept
          | with_reducible apply modEng_kept
          | with_reducible apply ite_kept
          | split
          | (extract_lets +onlyGivenNames y; clear_value y)
                | (extract_lets +onlyGivenNames y; subst y)
       clear_value x)
    | (extract_lets +onlyGivenNames x; clear_value x)
    | (extract_lets +onlyGivenNames x; subst x)
    | with_reducible apply finish_kept
    | with_reducible apply modEng_kept
    | with_reducible apply ite_kept
    | split

theorem commitPrior_kept {k0 : Base} {s : State} (h : s.Kept k0) (g : Grp) (run : AxisRun) (x : List Int) (preset : Option (Int × Int)) : (State.commitPrior s g run x preset).Kept k0 := by
  unfold State.commitPrior
  repeat' first
    | with_reducible assumption
    | (extract_lets +onlyGivenNames x
       have hx : State.Kept k0 x := by
        unfold x
        repeat' first
          | with_reducible assumption
          | with_reducible apply modEng_kept
          | split
          | (extract_lets +onlyGivenNames y; clear_value y)
                | (extract_lets +onlyGivenNames y; subst y)
       clear_value x)
    | (extract_lets +onlyGivenNames x; clear_value x)
    | (extract_lets +onlyGivenNames x; subst x)
    | with_reducible apply modEng_kept
    | split

theorem startCaught_kept {k0 : Base} {s : State} (h : s.Kept k0) (m : Main) (was : Bool) : (State.startCaught s m was).Kept k0 := by
  unfold State.startCaught
  repeat' first
    | with_reducible assumption
    | with_reducible apply gatesOn_kept
    | with_reducible apply modComm_kept
    | with_reducible apply ite_kept

theorem commitDuties_kept {k0 : Base} {s : State} (h : s.Kept k0) (run : AxisRun) : (State.commitDuties s run).Kept k0 := by
  unfold State.commitDuties
  repeat' first
    | with_reducible assumption
    | with_reducible apply modDrive_kept

theorem placeWindow_kept {k0 : Base} {s : State} (h : s.Kept k0) (g : Grp) (run : AxisRun) : (State.placeWindow s g run).Kept k0 := by
  unfold State.placeWindow
  repeat' first
    | with_reducible assumption
    | (extract_lets +onlyGivenNames x
       have hx : State.Kept k0 x := by
        unfold x
        repeat' first
          | with_reducible assumption
          | with_reducible apply modGlance_kept
          | with_reducible apply step_kept
          | with_reducible apply ite_kept
          | split
          | (extract_lets +onlyGivenNames y; clear_value y)
                | (extract_lets +onlyGivenNames y; subst y)
       clear_value x)
    | (extract_lets +onlyGivenNames x; clear_value x)
    | (extract_lets +onlyGivenNames x; subst x)
    | with_reducible apply modGlance_kept
    | with_reducible apply step_kept
    | with_reducible apply ite_kept
    | split

theorem restThreshold_kept {k0 : Base} {s : State} (h : s.Kept k0) (g : Grp) (run : AxisRun) : (State.restThreshold s g run).Kept k0 := by
  unfold State.restThreshold
  repeat' first
    | with_reducible assumption
    | (extract_lets +onlyGivenNames x
       have hx : State.Kept k0 x := by
        unfold x
        repeat' first
          | with_reducible assumption
          | with_reducible apply modGlance_kept
          | with_reducible apply ite_kept
          | (extract_lets +onlyGivenNames y; clear_value y)
                | (extract_lets +onlyGivenNames y; subst y)
       clear_value x)
    | (extract_lets +onlyGivenNames x; clear_value x)
    | (extract_lets +onlyGivenNames x; subst x)
    | with_reducible apply modGlance_kept
    | with_reducible apply ite_kept

theorem commitShare_kept {k0 : Base} {s : State} (h : s.Kept k0) (g : Grp) (run : AxisRun) (member : Option Member0) : (State.commitShare s g run member).Kept k0 := by
  unfold State.commitShare
  repeat' first
    | with_reducible assumption
    | (extract_lets +onlyGivenNames x
       have hx : State.Kept k0 x := by
        unfold x
        repeat' first
          | with_reducible assumption
          | with_reducible apply modShare_kept
          | with_reducible apply reset_kept
          | with_reducible apply ite_kept
          | split
          | (extract_lets +onlyGivenNames y; clear_value y)
                | (extract_lets +onlyGivenNames y; subst y)
       clear_value x)
    | (extract_lets +onlyGivenNames x; clear_value x)
    | (extract_lets +onlyGivenNames x; subst x)
    | with_reducible apply modShare_kept
    | with_reducible apply reset_kept
    | with_reducible apply ite_kept
    | split

theorem commitFerr_kept {k0 : Base} {s : State} (h : s.Kept k0) (run : AxisRun) : (State.commitFerr s run).Kept k0 := by
  unfold State.commitFerr
  repeat' first
    | with_reducible assumption
    | (extract_lets +onlyGivenNames x
       have hx : State.Kept k0 x := by
        unfold x
        repeat' first
          | with_reducible assumption
          | with_reducible apply modEng_kept
          | with_reducible apply ite_kept
          | split
          | (extract_lets +onlyGivenNames y; clear_value y)
                | (extract_lets +onlyGivenNames y; subst y)
       clear_value x)
    | (extract_lets +onlyGivenNames x; clear_value x)
    | (extract_lets +onlyGivenNames x; subst x)
    | with_reducible apply modEng_kept
    | with_reducible apply ite_kept
    | split

theorem repeatFerr_kept {k0 : Base} {s : State} (h : s.Kept k0) (m : Main) : (State.repeatFerr s m).Kept k0 := by
  unfold State.repeatFerr
  repeat' first
    | with_reducible assumption
    | (extract_lets +onlyGivenNames x
       have hx : State.Kept k0 x := by
        unfold x
        repeat' first
          | with_reducible assumption
          | with_reducible apply modEng_kept
          | with_reducible apply ite_kept
          | (extract_lets +onlyGivenNames y; clear_value y)
                | (extract_lets +onlyGivenNames y; subst y)
       clear_value x)
    | (extract_lets +onlyGivenNames x; clear_value x)
    | (extract_lets +onlyGivenNames x; subst x)
    | with_reducible apply modEng_kept
    | with_reducible apply ite_kept

theorem slewManual_kept {k0 : Base} {s : State} (h : s.Kept k0) (g : Grp) (m : Main) : (State.slewManual s g m).Kept k0 := by
  unfold State.slewManual
  repeat' first
    | with_reducible assumption
    | (extract_lets +onlyGivenNames x
       have hx : State.Kept k0 x := by
        unfold x
        repeat' first
          | with_reducible assumption
          | with_reducible apply modEng_kept
          | with_reducible apply ite_kept
          | (extract_lets +onlyGivenNames y; clear_value y)
                | (extract_lets +onlyGivenNames y; subst y)
       clear_value x)
    | (extract_lets +onlyGivenNames x; clear_value x)
    | (extract_lets +onlyGivenNames x; subst x)
    | with_reducible apply modEng_kept
    | with_reducible apply ite_kept

theorem disableMain_kept {k0 : Base} {s : State} (h : s.Kept k0) (m : Main) (status : Nat) : (State.disableMain s m status).Kept k0 := by
  unfold State.disableMain
  repeat' first
    | with_reducible assumption
    | (extract_lets +onlyGivenNames x
       have hx : State.Kept k0 x := by
        unfold x
        repeat' first
          | with_reducible assumption
          | with_reducible apply failStart_kept
          | with_reducible apply modMain_kept
          | with_reducible apply ite_kept
          | (extract_lets +onlyGivenNames y; clear_value y)
                | (extract_lets +onlyGivenNames y; subst y)
       clear_value x)
    | (extract_lets +onlyGivenNames x; clear_value x)
    | (extract_lets +onlyGivenNames x; subst x)
    | with_reducible apply failStart_kept
    | with_reducible apply modMain_kept
    | with_reducible apply ite_kept

theorem disableAux_kept {k0 : Base} {s : State} (h : s.Kept k0) (a : AuxNo) (status : Nat) : (State.disableAux s a status).Kept k0 := by
  unfold State.disableAux
  repeat' first
    | with_reducible assumption
    | with_reducible apply finishOpt_kept
    | with_reducible apply modAux_kept
    | with_reducible apply ite_kept

theorem disableLatched_kept {k0 : Base} {s : State} (h : s.Kept k0) (m : Main) : (State.disableLatched s m).Kept k0 := by
  unfold State.disableLatched
  repeat' first
    | with_reducible assumption
    | with_reducible apply disableMain_kept
    | with_reducible apply gatesOff_kept
    | with_reducible apply modDrive_kept
    | with_reducible apply ite_kept

theorem commitAxis_kept {k0 : Base} {s : State} (h : s.Kept k0) (g : Grp) (rn : GroupRun) (run : AxisRun) : (State.commitAxis s g rn run).Kept k0 := by
  unfold State.commitAxis
  repeat' first
    | with_reducible assumption
    | (extract_lets +onlyGivenNames x
       have hx : State.Kept k0 x := by
        unfold x
        repeat' first
          | with_reducible assumption
          | with_reducible apply advanceCoast_kept
          | with_reducible apply advanceComm_kept
          | with_reducible apply commitData_kept
          | with_reducible apply commitDuties_kept
          | with_reducible apply commitEnable_kept
          | with_reducible apply commitFerr_kept
          | with_reducible apply commitGlance_kept
          | with_reducible apply commitLedger_kept
          | with_reducible apply commitMode_kept
          | with_reducible apply commitPrior_kept
          | with_reducible apply commitShare_kept
          | with_reducible apply countOverspeed_kept
          | with_reducible apply dropMode_kept
          | with_reducible apply placeWindow_kept
          | with_reducible apply restThreshold_kept
          | with_reducible apply slewManual_kept
          | with_reducible apply startCaught_kept
          | with_reducible apply transition_kept
          | split
          | (extract_lets +onlyGivenNames y; clear_value y)
                | (extract_lets +onlyGivenNames y; subst y)
       clear_value x)
    | (extract_lets +onlyGivenNames x; clear_value x)
    | (extract_lets +onlyGivenNames x; subst x)
    | with_reducible apply advanceCoast_kept
    | with_reducible apply advanceComm_kept
    | with_reducible apply commitData_kept
    | with_reducible apply commitDuties_kept
    | with_reducible apply commitEnable_kept
    | with_reducible apply commitFerr_kept
    | with_reducible apply commitGlance_kept
    | with_reducible apply commitLedger_kept
    | with_reducible apply commitMode_kept
    | with_reducible apply commitPrior_kept
    | with_reducible apply commitShare_kept
    | with_reducible apply countOverspeed_kept
    | with_reducible apply dropMode_kept
    | with_reducible apply placeWindow_kept
    | with_reducible apply restThreshold_kept
    | with_reducible apply slewManual_kept
    | with_reducible apply startCaught_kept
    | with_reducible apply transition_kept
    | split

theorem commitChoppers_kept {k0 : Base} {s : State} (h : s.Kept k0) (g : Grp) : (State.commitChoppers s g).Kept k0 := by
  unfold State.commitChoppers
  repeat' first
    | with_reducible assumption
    | with_reducible apply modLink_kept
    | with_reducible apply eachFin_kept
    | (intro z b hz; beta_reduce)
    | with_reducible apply ite_kept

theorem linkEnergy_kept {k0 : Base} {s : State} (h : s.Kept k0) (l : LinkNo) (ns : Nat) (k : Nat) (duty : Nat) : (State.linkEnergy s l ns k duty).Kept k0 := by
  unfold State.linkEnergy
  repeat' first
    | with_reducible assumption
    | (extract_lets +onlyGivenNames x
       have hx : State.Kept k0 x := by
        unfold x
        repeat' first
          | with_reducible assumption
          | with_reducible apply modLink_kept
          | with_reducible apply ite_kept
          | (extract_lets +onlyGivenNames y; clear_value y)
                | (extract_lets +onlyGivenNames y; subst y)
       clear_value x)
    | (extract_lets +onlyGivenNames x; clear_value x)
    | (extract_lets +onlyGivenNames x; subst x)
    | with_reducible apply modLink_kept
    | with_reducible apply ite_kept

theorem commitLinks_kept {k0 : Base} {s : State} (h : s.Kept k0) (g : Grp) : (State.commitLinks s g).Kept k0 := by
  unfold State.commitLinks
  repeat' first
    | with_reducible assumption
    | with_reducible apply linkEnergy_kept
    | with_reducible apply eachFin_kept
    | (intro z b hz; beta_reduce)
    | with_reducible apply ite_kept

theorem commitWork_kept {k0 : Base} {s : State} (h : s.Kept k0) (g : Grp) (rn : GroupRun) : (State.commitWork s g rn).Kept k0 := by
  unfold State.commitWork
  repeat' first
    | with_reducible assumption
    | (extract_lets +onlyGivenNames x
       have hx : State.Kept k0 x := by
        unfold x
        repeat' first
          | with_reducible assumption
          | exact fun hm => hm
          | exact fun _ hq => hq
          | with_reducible apply modGroup_kept
          | with_reducible apply ite_kept
          | split
          | (intro _ _; (try dsimp only); split)
          | (extract_lets +onlyGivenNames y; clear_value y)
                | (extract_lets +onlyGivenNames y; subst y)
       clear_value x)
    | (extract_lets +onlyGivenNames x; clear_value x)
    | (extract_lets +onlyGivenNames x; subst x)
    | exact fun hm => hm
    | exact fun _ hq => hq
    | with_reducible apply modGroup_kept
    | with_reducible apply ite_kept
    | split
    | (intro _ _; (try dsimp only); split)

theorem commitYield_kept {k0 : Base} {s : State} (h : s.Kept k0) (g : Grp) (rn : GroupRun) : (State.commitYield s g rn).Kept k0 := by
  unfold State.commitYield
  repeat' first
    | with_reducible assumption
    | (extract_lets +onlyGivenNames x
       have hx : State.Kept k0 x := by
        unfold x
        repeat' first
          | with_reducible assumption
          | exact fun hm => hm
          | exact fun _ hq => hq
          | with_reducible apply enterDrum_kept
          | with_reducible apply leaveDrum_kept
          | with_reducible apply logEvent_kept
          | with_reducible apply modGroup_kept
          | with_reducible apply foldl_kept
          | (intro z b hz; beta_reduce)
          | with_reducible apply ite_kept
          | split
          | (intro _ _; (try dsimp only); split)
          | (extract_lets +onlyGivenNames y; clear_value y)
                | (extract_lets +onlyGivenNames y; subst y)
       clear_value x)
    | (extract_lets +onlyGivenNames x; clear_value x)
    | (extract_lets +onlyGivenNames x; subst x)
    | exact fun hm => hm
    | exact fun _ hq => hq
    | with_reducible apply enterDrum_kept
    | with_reducible apply leaveDrum_kept
    | with_reducible apply logEvent_kept
    | with_reducible apply modGroup_kept
    | with_reducible apply foldl_kept
    | (intro z b hz; beta_reduce)
    | with_reducible apply ite_kept
    | split
    | (intro _ _; (try dsimp only); split)

theorem commitCoupled_kept {k0 : Base} {s : State} (h : s.Kept k0) (g : Grp) (rn : GroupRun) : (State.commitCoupled s g rn).Kept k0 := by
  unfold State.commitCoupled
  repeat' first
    | with_reducible assumption
    | exact fun hm => hm
    | exact fun _ hq => hq
    | with_reducible apply modGroup_kept
    | split

end Sys2Proof.Machine.State
end

