-- ==== Sys2Proof/Laws/KeptPwm.lean ====
section
/-! SUPPORT. Every operation of Machine/Pwm.lean keeps what Laws/Kept.lean names. -/

set_option Elab.async false

set_option linter.unusedTactic false
set_option linter.unreachableTactic false

namespace Sys2Proof.Machine.State

theorem updatePwm_kept {k0 : Base} {s : State} (h : s.Kept k0) (g : Grp) (m : Main) : (State.updatePwm s g m).Kept k0 := by
  unfold State.updatePwm
  repeat' first
    | with_reducible assumption
    | (extract_lets +onlyGivenNames x
       have hx : State.Kept k0 x := by
        unfold x
        repeat' first
          | with_reducible assumption
          | with_reducible apply modDrive_kept
          | with_reducible apply modGlance_kept
          | with_reducible apply foldl_kept
          | (intro z b hz; beta_reduce)
          | with_reducible apply ite_kept
          | split
          | (extract_lets +onlyGivenNames y; have : ∀ z : State, State.Kept k0 (y z) ∨ True := (fun _ => .inr trivial); clear this; subst y)
                | (extract_lets +onlyGivenNames y; have : ∀ (z : State) b, State.Kept k0 (y z b) ∨ True := (fun _ _ => .inr trivial); clear this; subst y)
                | (extract_lets +onlyGivenNames y; clear_value y)
                | (extract_lets +onlyGivenNames y; subst y)
       clear_value x)
    | (extract_lets +onlyGivenNames x; have : ∀ z : State, State.Kept k0 (x z) ∨ True := (fun _ => .inr trivial); clear this; subst x)
    | (extract_lets +onlyGivenNames x; have : ∀ (z : State) b, State.Kept k0 (x z b) ∨ True := (fun _ _ => .inr trivial); clear this; subst x)
    | (extract_lets +onlyGivenNames x; clear_value x)
    | (extract_lets +onlyGivenNames x; subst x)
    | with_reducible apply modDrive_kept
    | with_reducible apply modGlance_kept
    | with_reducible apply foldl_kept
    | (intro z b hz; beta_reduce)
    | with_reducible apply ite_kept
    | split

theorem setLatch_kept {k0 : Base} {s : State} (h : s.Kept k0) (m : Main) (cause : Fin 4) : (State.setLatch s m cause).Kept k0 := by
  unfold State.setLatch
  repeat' first
    | with_reducible assumption
    | with_reducible apply gatesOff_kept
    | with_reducible apply logEvent_kept
    | with_reducible apply modDrive_kept
    | with_reducible apply ite_kept

theorem startGates_kept {k0 : Base} {s : State} (h : s.Kept k0) (m : Main) : (State.startGates s m).Kept k0 := by
  unfold State.startGates
  repeat' first
    | with_reducible assumption
    | (extract_lets +onlyGivenNames x
       have hx : State.Kept k0 x := by
        unfold x
        repeat' first
          | with_reducible assumption
          | with_reducible apply modDrive_kept
          | with_reducible apply setLatch_kept
          | with_reducible apply ite_kept
          | (extract_lets +onlyGivenNames y; clear_value y)
                | (extract_lets +onlyGivenNames y; subst y)
       clear_value x)
    | (extract_lets +onlyGivenNames x; clear_value x)
    | (extract_lets +onlyGivenNames x; subst x)
    | with_reducible apply modDrive_kept
    | with_reducible apply setLatch_kept
    | with_reducible apply ite_kept

theorem clearLatch_kept {k0 : Base} {s : State} (h : s.Kept k0) (m : Main) : (State.clearLatch s m).Kept k0 := by
  unfold State.clearLatch
  repeat' first
    | with_reducible assumption
    | (extract_lets +onlyGivenNames x
       have hx : State.Kept k0 x := by
        unfold x
        repeat' first
          | with_reducible assumption
          | with_reducible apply modDrive_kept
          | with_reducible apply modEng_kept
          | with_reducible apply modShare_kept
          | with_reducible apply ite_kept
          | (extract_lets +onlyGivenNames y; clear_value y)
                | (extract_lets +onlyGivenNames y; subst y)
       clear_value x)
    | (extract_lets +onlyGivenNames x; clear_value x)
    | (extract_lets +onlyGivenNames x; subst x)
    | with_reducible apply modDrive_kept
    | with_reducible apply modEng_kept
    | with_reducible apply modShare_kept
    | with_reducible apply ite_kept

theorem setStuck_kept {k0 : Base} {s : State} (h : s.Kept k0) (ch : Fin 32) (b : Bool) : (State.setStuck s ch b).Kept k0 := by
  unfold State.setStuck
  repeat' first
    | with_reducible assumption
    | with_reducible apply ite_kept
    | with_reducible apply mk_kept

theorem beginWindow_kept {k0 : Base} {s : State} (h : s.Kept k0) (ch : Nat) : (State.beginWindow s ch).Kept k0 := by
  unfold State.beginWindow
  repeat' first
    | with_reducible assumption
    | split
    | with_reducible apply mk_kept

theorem currentResult_kept {k0 : Base} {s : State} (h : s.Kept k0) (m : Main) (w : List ChannelBits) : (State.currentResult s m w).Kept k0 := by
  unfold State.currentResult
  repeat' first
    | with_reducible assumption
    | (extract_lets +onlyGivenNames x
       have hx : State.Kept k0 x := by
        unfold x
        repeat' first
          | with_reducible assumption
          | with_reducible apply modDrive_kept
          | with_reducible apply ite_kept
          | split
          | (extract_lets +onlyGivenNames y; have : ∀ z : State, State.Kept k0 (y z) ∨ True := (fun _ => .inr trivial); clear this; subst y)
                | (extract_lets +onlyGivenNames y; have : ∀ (z : State) b, State.Kept k0 (y z b) ∨ True := (fun _ _ => .inr trivial); clear this; subst y)
                | (extract_lets +onlyGivenNames y; clear_value y)
                | (extract_lets +onlyGivenNames y; subst y)
       clear_value x)
    | (extract_lets +onlyGivenNames x; have : ∀ z : State, State.Kept k0 (x z) ∨ True := (fun _ => .inr trivial); clear this; subst x)
    | (extract_lets +onlyGivenNames x; have : ∀ (z : State) b, State.Kept k0 (x z b) ∨ True := (fun _ _ => .inr trivial); clear this; subst x)
    | (extract_lets +onlyGivenNames x; clear_value x)
    | (extract_lets +onlyGivenNames x; subst x)
    | with_reducible apply modDrive_kept
    | with_reducible apply ite_kept
    | split

end Sys2Proof.Machine.State
end

