-- ==== Sys2Proof/Laws/KeptLinks.lean ====
section
/-! SUPPORT. Every operation of Machine/Links.lean keeps what Laws/Kept.lean names. -/

set_option Elab.async false

set_option linter.unusedTactic false
set_option linter.unreachableTactic false

namespace Sys2Proof.Machine.State

theorem startSegment_kept {k0 : Base} {s : State} (h : s.Kept k0)  : (State.startSegment s).Kept k0 := by
  unfold State.startSegment
  repeat' first
    | with_reducible assumption
    | (extract_lets +onlyGivenNames x
       have hx : State.Kept k0 x := by
        unfold x
        repeat' first
          | with_reducible assumption
          | exact fun hm => hm
          | exact fun _ hq => hq
          | with_reducible apply modGroup_kept
          | with_reducible apply segment_kept
          | with_reducible apply foldl_kept
          | (intro z b hz; beta_reduce)
          | with_reducible apply ite_kept
          | split
          | (intro _ _; (try dsimp only); split)
          | exact rfl
          | (extract_lets +onlyGivenNames y; subst y)
          | with_reducible apply mk_keep_kept
       clear_value x)
    | (extract_lets +onlyGivenNames x; subst x)
    | exact fun hm => hm
    | exact fun _ hq => hq
    | with_reducible apply modGroup_kept
    | with_reducible apply segment_kept
    | with_reducible apply foldl_kept
    | (intro z b hz; beta_reduce)
    | with_reducible apply ite_kept
    | split
    | (intro _ _; (try dsimp only); split)
    | exact rfl
    | with_reducible apply mk_keep_kept

theorem checkExchange_kept {k0 : Base} {s0 : State} (h : s0.Kept k0) (g : Grp) : (State.checkExchange s0 g).Kept k0 := by
  unfold State.checkExchange
  repeat' first
    | with_reducible assumption
    | (extract_lets +onlyGivenNames x
       have hx : State.Kept k0 x := by
        unfold x
        repeat' first
          | with_reducible assumption
          | exact fun hm => hm
          | exact fun _ hq => hq
          | with_reducible apply modCascade_kept
          | with_reducible apply modGroup_kept
          | with_reducible apply foldl_kept
          | (intro z b hz; beta_reduce)
          | with_reducible apply ite_kept
          | split
          | (intro _ _; (try dsimp only); split)
          | (extract_lets +onlyGivenNames y; clear_value y)
                | (extract_lets +onlyGivenNames y; subst y)
       clear_value x)
    | (extract_lets +onlyGivenNames x; clear_value x)
    | (extract_lets +onlyGivenNames x; subst x)
    | exact fun hm => hm
    | exact fun _ hq => hq
    | with_reducible apply modCascade_kept
    | with_reducible apply modGroup_kept
    | with_reducible apply foldl_kept
    | (intro z b hz; beta_reduce)
    | with_reducible apply ite_kept
    | split
    | (intro _ _; (try dsimp only); split)

theorem chopperLost_kept {k0 : Base} {s : State} (h : s.Kept k0) (l : LinkNo) (dvdt : Bool) : (State.chopperLost s l dvdt).Kept k0 := by
  unfold State.chopperLost
  repeat' first
    | with_reducible assumption
    | (extract_lets +onlyGivenNames x
       have hx : State.Kept k0 x := by
        unfold x
        repeat' first
          | with_reducible assumption
          | with_reducible apply haltAll_kept
          | with_reducible apply logEvent_kept
          | with_reducible apply modLink_kept
          | with_reducible apply foldl_kept
          | (intro z b hz; beta_reduce)
          | with_reducible apply ite_kept
          | (extract_lets +onlyGivenNames y; clear_value y)
                | (extract_lets +onlyGivenNames y; subst y)
       clear_value x)
    | (extract_lets +onlyGivenNames x; clear_value x)
    | (extract_lets +onlyGivenNames x; subst x)
    | with_reducible apply haltAll_kept
    | with_reducible apply logEvent_kept
    | with_reducible apply modLink_kept
    | with_reducible apply foldl_kept
    | (intro z b hz; beta_reduce)
    | with_reducible apply ite_kept

theorem testRise_kept {k0 : Base} {s : State} (h : s.Kept k0) (l : LinkNo) (v : Int) : (State.testRise s l v).Kept k0 := by
  unfold State.testRise
  repeat' first
    | with_reducible assumption
    | (extract_lets +onlyGivenNames x
       have hx : State.Kept k0 x := by
        unfold x
        repeat' first
          | with_reducible assumption
          | with_reducible apply chopperLost_kept
          | with_reducible apply modLink_kept
          | with_reducible apply ite_kept
          | split
          | (extract_lets +onlyGivenNames y; clear_value y)
                | (extract_lets +onlyGivenNames y; subst y)
       clear_value x)
    | (extract_lets +onlyGivenNames x; clear_value x)
    | (extract_lets +onlyGivenNames x; subst x)
    | with_reducible apply chopperLost_kept
    | with_reducible apply modLink_kept
    | with_reducible apply ite_kept
    | split

theorem tripLink_kept {k0 : Base} {s : State} (h : s.Kept k0) (l : LinkNo) : (State.tripLink s l).Kept k0 := by
  unfold State.tripLink
  repeat' first
    | with_reducible assumption
    | (extract_lets +onlyGivenNames x
       have hx : State.Kept k0 x := by
        unfold x
        repeat' first
          | with_reducible assumption
          | with_reducible apply disableAux_kept
          | with_reducible apply disableMain_kept
          | with_reducible apply haltAll_kept
          | with_reducible apply logEvent_kept
          | with_reducible apply modLink_kept
          | with_reducible apply foldl_kept
          | (intro z b hz; beta_reduce)
          | (extract_lets +onlyGivenNames y; clear_value y)
                | (extract_lets +onlyGivenNames y; subst y)
       clear_value x)
    | (extract_lets +onlyGivenNames x; clear_value x)
    | (extract_lets +onlyGivenNames x; subst x)
    | with_reducible apply disableAux_kept
    | with_reducible apply disableMain_kept
    | with_reducible apply haltAll_kept
    | with_reducible apply logEvent_kept
    | with_reducible apply modLink_kept
    | with_reducible apply foldl_kept
    | (intro z b hz; beta_reduce)

theorem settleTrip_kept {k0 : Base} {s : State} (h : s.Kept k0) (l : LinkNo) : (State.settleTrip s l).Kept k0 := by
  unfold State.settleTrip
  repeat' first
    | with_reducible assumption
    | (extract_lets +onlyGivenNames x
       have hx : State.Kept k0 x := by
        unfold x
        repeat' first
          | with_reducible assumption
          | with_reducible apply modLink_kept
          | with_reducible apply modReq_kept
          | with_reducible apply foldl_kept
          | (intro z b hz; beta_reduce)
          | with_reducible apply ite_kept
          | (extract_lets +onlyGivenNames y; clear_value y)
                | (extract_lets +onlyGivenNames y; subst y)
       clear_value x)
    | (extract_lets +onlyGivenNames x; clear_value x)
    | (extract_lets +onlyGivenNames x; subst x)
    | with_reducible apply modLink_kept
    | with_reducible apply modReq_kept
    | with_reducible apply foldl_kept
    | (intro z b hz; beta_reduce)
    | with_reducible apply ite_kept

theorem testWarn_kept {k0 : Base} {s : State} (h : s.Kept k0) (l : LinkNo) (v : Int) : (State.testWarn s l v).Kept k0 := by
  unfold State.testWarn
  repeat' first
    | with_reducible assumption
    | (extract_lets +onlyGivenNames x
       have hx : State.Kept k0 x := by
        unfold x
        repeat' first
          | with_reducible assumption
          | with_reducible apply logEvent_kept
          | with_reducible apply modLink_kept
          | with_reducible apply ite_kept
          | (extract_lets +onlyGivenNames y; clear_value y)
                | (extract_lets +onlyGivenNames y; subst y)
       clear_value x)
    | (extract_lets +onlyGivenNames x; clear_value x)
    | (extract_lets +onlyGivenNames x; subst x)
    | with_reducible apply logEvent_kept
    | with_reducible apply modLink_kept
    | with_reducible apply ite_kept

theorem servedResult_kept {k0 : Base} {s : State} (h : s.Kept k0) (l : LinkNo) (v : Int) : (State.servedResult s l v).Kept k0 := by
  unfold State.servedResult
  repeat' first
    | with_reducible assumption
    | (extract_lets +onlyGivenNames x
       have hx : State.Kept k0 x := by
        unfold x
        repeat' first
          | with_reducible assumption
          | with_reducible apply modLink_kept
          | with_reducible apply testRise_kept
          | with_reducible apply testWarn_kept
          | with_reducible apply tripLink_kept
          | with_reducible apply ite_kept
          | (extract_lets +onlyGivenNames y; clear_value y)
                | (extract_lets +onlyGivenNames y; subst y)
       clear_value x)
    | (extract_lets +onlyGivenNames x; clear_value x)
    | (extract_lets +onlyGivenNames x; subst x)
    | with_reducible apply modLink_kept
    | with_reducible apply testRise_kept
    | with_reducible apply testWarn_kept
    | with_reducible apply tripLink_kept
    | with_reducible apply ite_kept

theorem standbyResult_kept {k0 : Base} {s : State} (h : s.Kept k0) (l : LinkNo) (v : Int) : (State.standbyResult s l v).Kept k0 := by
  unfold State.standbyResult
  repeat' first
    | with_reducible assumption
    | (extract_lets +onlyGivenNames x
       have hx : State.Kept k0 x := by
        unfold x
        repeat' first
          | with_reducible assumption
          | with_reducible apply linkEnergy_kept
          | with_reducible apply modLink_kept
          | with_reducible apply testWarn_kept
          | with_reducible apply ite_kept
          | (extract_lets +onlyGivenNames y; clear_value y)
                | (extract_lets +onlyGivenNames y; subst y)
       clear_value x)
    | (extract_lets +onlyGivenNames x; clear_value x)
    | (extract_lets +onlyGivenNames x; subst x)
    | with_reducible apply linkEnergy_kept
    | with_reducible apply modLink_kept
    | with_reducible apply testWarn_kept
    | with_reducible apply ite_kept

theorem linkResult_kept {k0 : Base} {s : State} (h : s.Kept k0) (l : LinkNo) (w : List ChannelBits) : (State.linkResult s l w).Kept k0 := by
  unfold State.linkResult
  repeat' first
    | with_reducible assumption
    | (extract_lets +onlyGivenNames x
       have hx : State.Kept k0 x := by
        unfold x
        repeat' first
          | with_reducible assumption
          | exact fun hm => hm
          | exact fun _ hq => hq
          | with_reducible apply modGroup_kept
          | with_reducible apply modLink_kept
          | with_reducible apply servedResult_kept
          | with_reducible apply standbyResult_kept
          | with_reducible apply foldl_kept
          | (intro z b hz; beta_reduce)
          | with_reducible apply ite_kept
          | split
          | (intro _ _; (try dsimp only); split)
          | (extract_lets +onlyGivenNames y; clear_value y)
                | (extract_lets +onlyGivenNames y; subst y)
       clear_value x)
    | (extract_lets +onlyGivenNames x; clear_value x)
    | (extract_lets +onlyGivenNames x; subst x)
    | exact fun hm => hm
    | exact fun _ hq => hq
    | with_reducible apply modGroup_kept
    | with_reducible apply modLink_kept
    | with_reducible apply servedResult_kept
    | with_reducible apply standbyResult_kept
    | with_reducible apply foldl_kept
    | (intro z b hz; beta_reduce)
    | with_reducible apply ite_kept
    | split
    | (intro _ _; (try dsimp only); split)

end Sys2Proof.Machine.State
end

