-- ==== Sys2Proof/Laws/KeptGlance.lean ====
section
/-! SUPPORT. Every operation of Machine/Glance.lean keeps what Laws/Kept.lean names. -/

set_option Elab.async false

set_option linter.unusedTactic false
set_option linter.unreachableTactic false

namespace Sys2Proof.Machine.State

theorem windowEdge_kept {k0 : Base} {s : State} (h : s.Kept k0) (g : Grp) (m : Main) (phase : Phase) (rising : Bool) (raw : Int) (c : Crossing) : (State.windowEdge s g m phase rising raw c).Kept k0 := by
  unfold State.windowEdge
  repeat' first
    | with_reducible assumption
    | with_reducible apply modGlance_kept
    | with_reducible apply ite_kept
    | split

theorem sixStepEdge_kept {k0 : Base} {s : State} (h : s.Kept k0) (g : Grp) (m : Main) (phase : Phase) (rising : Bool) (raw : Int) (c : Crossing) : (State.sixStepEdge s g m phase rising raw c).Kept k0 := by
  unfold State.sixStepEdge
  repeat' first
    | with_reducible assumption
    | (extract_lets +onlyGivenNames x
       have hx : State.Kept k0 x := by
        unfold x
        repeat' first
          | with_reducible assumption
          | with_reducible apply modComm_kept
          | with_reducible apply modGlance_kept
          | with_reducible apply ite_kept
          | split
          | (extract_lets +onlyGivenNames y; clear_value y)
                | (extract_lets +onlyGivenNames y; subst y)
       clear_value x)
    | (extract_lets +onlyGivenNames x; clear_value x)
    | (extract_lets +onlyGivenNames x; subst x)
    | with_reducible apply modComm_kept
    | with_reducible apply modGlance_kept
    | with_reducible apply ite_kept
    | split

end Sys2Proof.Machine.State
end

