-- ==== Sys2Proof/Laws/KeptMicrostep.lean ====
section
/-! SUPPORT. Every operation of Machine/Microstep.lean keeps what Laws/Kept.lean names. -/

set_option Elab.async false

set_option linter.unusedTactic false
set_option linter.unreachableTactic false

namespace Sys2Proof.Machine.State

theorem setTableEntry_kept {k0 : Base} {s : State} (h : s.Kept k0) (t : Nat) (i : Nat) (w : Word) : (State.setTableEntry s t i w).Kept k0 := by
  obtain ⟨b1, b2, b3, h1, h2, h3, h4, h5, h6, h7, h8, h9⟩ := h
  exact ⟨b1, b2, b3, h1, h2, h3, h4, h5, h6, h7, sput_rising _ _ h8, h9⟩

end Sys2Proof.Machine.State
end

