-- ==== Sys2Proof/Laws/KeptAuxAxes.lean ====
section
/-! SUPPORT. Every operation of Machine/AuxAxes.lean keeps what Laws/Kept.lean names. -/

set_option Elab.async false

set_option linter.unusedTactic false
set_option linter.unreachableTactic false

namespace Sys2Proof.Machine.State

theorem modWind_kept {k0 : Base} {s : State} (h : s.Kept k0) (a : AuxNo) (w : Winding) (f : WindingSt → WindingSt) : (State.modWind s a w f).Kept k0 := by
  unfold State.modWind
  repeat' first
    | with_reducible assumption
    | with_reducible apply modAux_kept
    | split

theorem bridgesOff_kept {k0 : Base} {s : State} (h : s.Kept k0) (a : AuxNo) : (State.bridgesOff s a).Kept k0 := by
  unfold State.bridgesOff
  repeat' first
    | with_reducible assumption
    | (extract_lets +onlyGivenNames x
       have hx : State.Kept k0 x := by
        unfold x
        repeat' first
          | with_reducible assumption
          | with_reducible apply modAux_kept
          | (extract_lets +onlyGivenNames y; have : ∀ z : State, State.Kept k0 (y z) ∨ True := (fun _ => .inr trivial); clear this; subst y)
                | (extract_lets +onlyGivenNames y; have : ∀ (z : State) b, State.Kept k0 (y z b) ∨ True := (fun _ _ => .inr trivial); clear this; subst y)
                | (extract_lets +onlyGivenNames y; clear_value y)
                | (extract_lets +onlyGivenNames y; subst y)
       clear_value x)
    | (extract_lets +onlyGivenNames x; have : ∀ z : State, State.Kept k0 (x z) ∨ True := (fun _ => .inr trivial); clear this; subst x)
    | (extract_lets +onlyGivenNames x; have : ∀ (z : State) b, State.Kept k0 (x z b) ∨ True := (fun _ _ => .inr trivial); clear this; subst x)
    | (extract_lets +onlyGivenNames x; clear_value x)
    | (extract_lets +onlyGivenNames x; subst x)
    | with_reducible apply modAux_kept

theorem setAuxLatch_kept {k0 : Base} {s : State} (h : s.Kept k0) (a : AuxNo) (why : Fin 5) : (State.setAuxLatch s a why).Kept k0 := by
  unfold State.setAuxLatch
  repeat' first
    | with_reducible assumption
    | with_reducible apply logEvent_kept
    | with_reducible apply modAux_kept
    | with_reducible apply ite_kept

theorem haltAux_kept {k0 : Base} {s : State} (h : s.Kept k0) (a : AuxNo) : (State.haltAux s a).Kept k0 := by
  unfold State.haltAux
  repeat' first
    | with_reducible assumption
    | with_reducible apply putTarget_kept

theorem rebase_kept {k0 : Base} {s : State} (h : s.Kept k0) (a : AuxNo) (value : Int) : (State.rebase s a value).Kept k0 := by
  unfold State.rebase
  repeat' first
    | with_reducible assumption
    | (extract_lets +onlyGivenNames x
       have hx : State.Kept k0 x := by
        unfold x
        repeat' first
          | with_reducible assumption
          | with_reducible apply modAux_kept
          | with_reducible apply modGen_kept
          | split
          | (extract_lets +onlyGivenNames y; clear_value y)
                | (extract_lets +onlyGivenNames y; subst y)
       clear_value x)
    | (extract_lets +onlyGivenNames x; clear_value x)
    | (extract_lets +onlyGivenNames x; subst x)
    | with_reducible apply modAux_kept
    | with_reducible apply modGen_kept
    | split

theorem endHome_kept {k0 : Base} {s : State} (h : s.Kept k0) (a : AuxNo) (status : Nat) : (State.endHome s a status).Kept k0 := by
  unfold State.endHome
  repeat' first
    | with_reducible assumption
    | with_reducible apply finish_kept
    | with_reducible apply modAux_kept
    | with_reducible apply modGen_kept
    | with_reducible apply ite_kept
    | split

theorem homingStep_kept {k0 : Base} {s : State} (h : s.Kept k0) (a : AuxNo) : (State.homingStep s a).Kept k0 := by
  unfold State.homingStep
  repeat' first
    | with_reducible assumption
    | (extract_lets +onlyGivenNames x
       have hx : State.Kept k0 x := by
        unfold x
        repeat' first
          | with_reducible assumption
          | with_reducible apply endHome_kept
          | with_reducible apply haltAux_kept
          | with_reducible apply modAux_kept
          | with_reducible apply putTarget_kept
          | with_reducible apply rebase_kept
          | with_reducible apply ite_kept
          | split
          | (extract_lets +onlyGivenNames y; clear_value y)
                | (extract_lets +onlyGivenNames y; subst y)
       clear_value x)
    | (extract_lets +onlyGivenNames x; clear_value x)
    | (extract_lets +onlyGivenNames x; subst x)
    | with_reducible apply endHome_kept
    | with_reducible apply haltAux_kept
    | with_reducible apply modAux_kept
    | with_reducible apply putTarget_kept
    | with_reducible apply rebase_kept
    | with_reducible apply ite_kept
    | split

theorem commitAuxPass_kept {k0 : Base} {s : State} (h : s.Kept k0) (g : Grp) (a : AuxNo) (off : Nat) : (State.commitAuxPass s g a off).Kept k0 := by
  unfold State.commitAuxPass
  repeat' first
    | with_reducible assumption
    | (extract_lets +onlyGivenNames x
       have hx : State.Kept k0 x := by
        unfold x
        repeat' first
          | with_reducible assumption
          | with_reducible apply modAux_kept
          | with_reducible apply ite_kept
          | split
          | (extract_lets +onlyGivenNames y; have : ∀ z : State, State.Kept k0 (y z) ∨ True := (fun _ => .inr trivial); clear this; subst y)
                | (extract_lets +onlyGivenNames y; have : ∀ (z : State) b, State.Kept k0 (y z b) ∨ True := (fun _ _ => .inr trivial); clear this; subst y)
                | (extract_lets +onlyGivenNames y; clear_value y)
                | (extract_lets +onlyGivenNames y; subst y)
       clear_value x)
    | (extract_lets +onlyGivenNames x; have : ∀ z : State, State.Kept k0 (x z) ∨ True := (fun _ => .inr trivial); clear this; subst x)
    | (extract_lets +onlyGivenNames x; have : ∀ (z : State) b, State.Kept k0 (x z b) ∨ True := (fun _ _ => .inr trivial); clear this; subst x)
    | (extract_lets +onlyGivenNames x; clear_value x)
    | (extract_lets +onlyGivenNames x; subst x)
    | with_reducible apply modAux_kept
    | with_reducible apply ite_kept
    | split

theorem leaveAux_kept {k0 : Base} {s : State} (h : s.Kept k0) (a : AuxNo) (st : AState) : (State.leaveAux s a st).Kept k0 := by
  unfold State.leaveAux
  repeat' first
    | with_reducible assumption
    | (extract_lets +onlyGivenNames x
       have hx : State.Kept k0 x := by
        unfold x
        repeat' first
          | with_reducible assumption
          | with_reducible apply bridgesOff_kept
          | with_reducible apply endHome_kept
          | with_reducible apply finishOpt_kept
          | with_reducible apply modAux_kept
          | with_reducible apply ite_kept
          | (extract_lets +onlyGivenNames y; clear_value y)
                | (extract_lets +onlyGivenNames y; subst y)
       clear_value x)
    | (extract_lets +onlyGivenNames x; clear_value x)
    | (extract_lets +onlyGivenNames x; subst x)
    | with_reducible apply bridgesOff_kept
    | with_reducible apply endHome_kept
    | with_reducible apply finishOpt_kept
    | with_reducible apply modAux_kept
    | with_reducible apply ite_kept

theorem auxTransition_kept {k0 : Base} {s : State} (h : s.Kept k0) (a : AuxNo) : (State.auxTransition s a).Kept k0 := by
  unfold State.auxTransition
  repeat' first
    | with_reducible assumption
    | (extract_lets +onlyGivenNames x
       have hx : State.Kept k0 x := by
        unfold x
        repeat' first
          | with_reducible assumption
          | with_reducible apply leaveAux_kept
          | with_reducible apply modAux_kept
          | with_reducible apply ite_kept
          | split
          | (extract_lets +onlyGivenNames y; clear_value y)
                | (extract_lets +onlyGivenNames y; subst y)
       clear_value x)
    | (extract_lets +onlyGivenNames x; clear_value x)
    | (extract_lets +onlyGivenNames x; subst x)
    | with_reducible apply leaveAux_kept
    | with_reducible apply modAux_kept
    | with_reducible apply ite_kept
    | split

theorem commitAuxEnable_kept {k0 : Base} {s : State} (h : s.Kept k0) (a : AuxNo) : (State.commitAuxEnable s a).Kept k0 := by
  unfold State.commitAuxEnable
  repeat' first
    | with_reducible assumption
    | (extract_lets +onlyGivenNames x
       have hx : State.Kept k0 x := by
        unfold x
        repeat' first
          | with_reducible assumption
          | with_reducible apply finishOpt_kept
          | with_reducible apply modAux_kept
          | with_reducible apply ite_kept
          | (extract_lets +onlyGivenNames y; clear_value y)
                | (extract_lets +onlyGivenNames y; subst y)
       clear_value x)
    | (extract_lets +onlyGivenNames x; clear_value x)
    | (extract_lets +onlyGivenNames x; subst x)
    | with_reducible apply finishOpt_kept
    | with_reducible apply modAux_kept
    | with_reducible apply ite_kept

theorem checkLimits_kept {k0 : Base} {s : State} (h : s.Kept k0) (g : Grp) (a : AuxNo) : (State.checkLimits s g a).Kept k0 := by
  unfold State.checkLimits
  repeat' first
    | with_reducible assumption
    | (extract_lets +onlyGivenNames x
       have hx : State.Kept k0 x := by
        unfold x
        repeat' first
          | with_reducible assumption
          | exact fun hm => hm
          | exact fun _ hq => hq
          | with_reducible apply endFollow_kept
          | with_reducible apply logEvent_kept
          | with_reducible apply modGroup_kept
          | with_reducible apply ite_kept
          | split
          | (intro _ _; (try dsimp only); split)
          | (extract_lets +onlyGivenNames y; clear_value y)
                | (extract_lets +onlyGivenNames y; subst y)
       clear_value x)
    | (extract_lets +onlyGivenNames x; clear_value x)
    | (extract_lets +onlyGivenNames x; subst x)
    | exact fun hm => hm
    | exact fun _ hq => hq
    | with_reducible apply endFollow_kept
    | with_reducible apply logEvent_kept
    | with_reducible apply modGroup_kept
    | with_reducible apply ite_kept
    | split
    | (intro _ _; (try dsimp only); split)

theorem commitAux_kept {k0 : Base} {s : State} (h : s.Kept k0) (g : Grp) (a : AuxNo) (off : Nat) : (State.commitAux s g a off).Kept k0 := by
  unfold State.commitAux
  repeat' first
    | with_reducible assumption
    | with_reducible apply auxTransition_kept
    | with_reducible apply checkLimits_kept
    | with_reducible apply commitAuxEnable_kept
    | with_reducible apply commitAuxPass_kept
    | with_reducible apply homingStep_kept

theorem commitAuxs_kept {k0 : Base} {s : State} (h : s.Kept k0) (g : Grp) : (State.commitAuxs s g).Kept k0 := by
  unfold State.commitAuxs
  repeat' first
    | with_reducible assumption
    | (extract_lets +onlyGivenNames x
       have hx : State.Kept k0 x := by
        unfold x
        repeat' first
          | with_reducible assumption
          | with_reducible apply commitAux_kept
          | with_reducible apply foldl_kept
          | (intro z b hz; beta_reduce)
          | (extract_lets +onlyGivenNames y; clear_value y)
                | (extract_lets +onlyGivenNames y; subst y)
       clear_value x)
    | (extract_lets +onlyGivenNames x; clear_value x)
    | (extract_lets +onlyGivenNames x; subst x)
    | with_reducible apply commitAux_kept
    | with_reducible apply foldl_kept
    | (intro z b hz; beta_reduce)

end Sys2Proof.Machine.State
end

