-- ==== Sys2Proof/Laws/KeptMasking.lean ====
section
/-! SUPPORT. Every operation of Machine/Masking.lean keeps what Laws/Kept.lean names. -/

set_option Elab.async false

set_option linter.unusedTactic false
set_option linter.unreachableTactic false

namespace Sys2Proof.Machine.State

theorem finishSeen_kept {k0 : Base} {s : State} (h : s.Kept k0) (g : Grp) : (State.finishSeen s g).Kept k0 := by
  unfold State.finishSeen
  repeat' first
    | with_reducible assumption
    | with_reducible apply finish_kept
    | with_reducible apply foldl_kept
    | (intro z b hz; beta_reduce)
    | with_reducible apply ite_kept
    | split

theorem endMotionTickets_kept {k0 : Base} {s : State} (h : s.Kept k0) (g : Grp) (status : Nat) : (State.endMotionTickets s g status).Kept k0 := by
  unfold State.endMotionTickets
  repeat' first
    | with_reducible assumption
    | (extract_lets +onlyGivenNames x
       have hx : State.Kept k0 x := by
        unfold x
        repeat' first
          | with_reducible assumption
          | exact fun hm => hm
          | exact fun _ hq => hq
          | with_reducible apply dropTicket_kept
          | with_reducible apply finish_kept
          | with_reducible apply finishOpt_kept
          | with_reducible apply haltPath_kept
          | with_reducible apply modAux_kept
          | with_reducible apply modGroup_kept
          | with_reducible apply foldl_kept
          | (intro z b hz; beta_reduce)
          | split
          | (intro _ _; (try dsimp only); split)
          | (extract_lets +onlyGivenNames y; clear_value y)
                | (extract_lets +onlyGivenNames y; subst y)
       clear_value x)
    | (extract_lets +onlyGivenNames x; clear_value x)
    | (extract_lets +onlyGivenNames x; subst x)
    | exact fun hm => hm
    | exact fun _ hq => hq
    | with_reducible apply dropTicket_kept
    | with_reducible apply finish_kept
    | with_reducible apply finishOpt_kept
    | with_reducible apply haltPath_kept
    | with_reducible apply modAux_kept
    | with_reducible apply modGroup_kept
    | with_reducible apply foldl_kept
    | (intro z b hz; beta_reduce)
    | split
    | (intro _ _; (try dsimp only); split)

theorem clearTorque_kept {k0 : Base} {s : State} (h : s.Kept k0) (i : StoNo) : (State.clearTorque s i).Kept k0 := by
  unfold State.clearTorque
  repeat' first
    | with_reducible assumption
    | with_reducible apply modReq_kept

theorem clearReleases_kept {k0 : Base} {s : State} (h : s.Kept k0) (b : Fin 4) : (State.clearReleases s b).Kept k0 := by
  unfold State.clearReleases
  repeat' first
    | with_reducible assumption
    | with_reducible apply modComm_kept
    | with_reducible apply eachFin_kept
    | (intro z b hz; beta_reduce)
    | with_reducible apply ite_kept

theorem emergencyBrakes_kept {k0 : Base} {s : State} (h : s.Kept k0) (g : Grp) : (State.emergencyBrakes s g).Kept k0 := by
  unfold State.emergencyBrakes
  repeat' first
    | with_reducible assumption
    | (extract_lets +onlyGivenNames x
       have hx : State.Kept k0 x := by
        unfold x
        repeat' first
          | with_reducible assumption
          | exact fun hm => hm
          | exact fun _ hq => hq
          | with_reducible apply clearReleases_kept
          | with_reducible apply disableAux_kept
          | with_reducible apply disableMain_kept
          | with_reducible apply modGroup_kept
          | with_reducible apply foldl_kept
          | (intro z b hz; beta_reduce)
          | with_reducible apply ite_kept
          | split
          | (intro _ _; (try dsimp only); split)
          | (extract_lets +onlyGivenNames y; have : ∀ z : State, State.Kept k0 (y z) ∨ True := (fun _ => .inr trivial); clear this; subst y)
                | (extract_lets +onlyGivenNames y; have : ∀ (z : State) b, State.Kept k0 (y z b) ∨ True := (fun _ _ => .inr trivial); clear this; subst y)
                | (extract_lets +onlyGivenNames y; clear_value y)
                | (extract_lets +onlyGivenNames y; subst y)
       clear_value x)
    | (extract_lets +onlyGivenNames x; have : ∀ z : State, State.Kept k0 (x z) ∨ True := (fun _ => .inr trivial); clear this; subst x)
    | (extract_lets +onlyGivenNames x; have : ∀ (z : State) b, State.Kept k0 (x z b) ∨ True := (fun _ _ => .inr trivial); clear this; subst x)
    | (extract_lets +onlyGivenNames x; clear_value x)
    | (extract_lets +onlyGivenNames x; subst x)
    | exact fun hm => hm
    | exact fun _ hq => hq
    | with_reducible apply clearReleases_kept
    | with_reducible apply disableAux_kept
    | with_reducible apply disableMain_kept
    | with_reducible apply modGroup_kept
    | with_reducible apply foldl_kept
    | (intro z b hz; beta_reduce)
    | with_reducible apply ite_kept
    | split
    | (intro _ _; (try dsimp only); split)

theorem emergencyTorqueOff_kept {k0 : Base} {s : State} (h : s.Kept k0) (g : Grp) : (State.emergencyTorqueOff s g).Kept k0 := by
  unfold State.emergencyTorqueOff
  repeat' first
    | with_reducible assumption
    | exact fun hm => hm
    | exact fun _ hq => hq
    | with_reducible apply clearTorque_kept
    | with_reducible apply modGroup_kept
    | with_reducible apply foldl_kept
    | (intro z b hz; beta_reduce)

theorem emergencyWatch_kept {k0 : Base} {s : State} (h : s.Kept k0) (g : Grp) : (State.emergencyWatch s g).Kept k0 := by
  unfold State.emergencyWatch
  repeat' first
    | with_reducible assumption
    | (extract_lets +onlyGivenNames x
       have hx : State.Kept k0 x := by
        unfold x
        repeat' first
          | with_reducible assumption
          | exact fun hm => hm
          | exact fun _ hq => hq
          | with_reducible apply emergencyBrakes_kept
          | with_reducible apply emergencyTorqueOff_kept
          | with_reducible apply modGroup_kept
          | with_reducible apply ite_kept
          | (intro _ _; (try dsimp only); split)
          | (extract_lets +onlyGivenNames y; clear_value y)
                | (extract_lets +onlyGivenNames y; subst y)
       clear_value x)
    | (extract_lets +onlyGivenNames x; clear_value x)
    | (extract_lets +onlyGivenNames x; subst x)
    | exact fun hm => hm
    | exact fun _ hq => hq
    | with_reducible apply emergencyBrakes_kept
    | with_reducible apply emergencyTorqueOff_kept
    | with_reducible apply modGroup_kept
    | with_reducible apply ite_kept
    | (intro _ _; (try dsimp only); split)

theorem enterEmergency_kept {k0 : Base} {s : State} (h : s.Kept k0) (g : Grp) (cause : Nat) : (State.enterEmergency s g cause).Kept k0 := by
  unfold State.enterEmergency
  repeat' first
    | with_reducible assumption
    | (extract_lets +onlyGivenNames x
       have hx : State.Kept k0 x := by
        unfold x
        repeat' first
          | with_reducible assumption
          | exact fun hm => hm
          | exact fun _ hq => hq
          | with_reducible apply endMotionTickets_kept
          | with_reducible apply haltAll_kept
          | with_reducible apply logEvent_kept
          | with_reducible apply modGroup_kept
          | with_reducible apply ite_kept
          | (intro _ _; (try dsimp only); split)
          | (extract_lets +onlyGivenNames y; clear_value y)
                | (extract_lets +onlyGivenNames y; subst y)
       clear_value x)
    | (extract_lets +onlyGivenNames x; clear_value x)
    | (extract_lets +onlyGivenNames x; subst x)
    | exact fun hm => hm
    | exact fun _ hq => hq
    | with_reducible apply endMotionTickets_kept
    | with_reducible apply haltAll_kept
    | with_reducible apply logEvent_kept
    | with_reducible apply modGroup_kept
    | with_reducible apply ite_kept
    | (intro _ _; (try dsimp only); split)

theorem takeEmergency_kept {k0 : Base} {s : State} (h : s.Kept k0) (g : Grp) : (State.takeEmergency s g).Kept k0 := by
  unfold State.takeEmergency
  repeat' first
    | with_reducible assumption
    | exact fun hm => hm
    | exact fun _ hq => hq
    | with_reducible apply enterEmergency_kept
    | with_reducible apply modGroup_kept
    | split
    | (intro _ _; (try dsimp only); split)

theorem askEmergency_kept {k0 : Base} {s : State} (h : s.Kept k0) (g : Grp) (cause : Nat) : (State.askEmergency s g cause).Kept k0 := by
  unfold State.askEmergency
  repeat' first
    | with_reducible assumption
    | exact fun hm => hm
    | exact fun _ hq => hq
    | with_reducible apply modGroup_kept
    | with_reducible apply ite_kept
    | (intro _ _; (try dsimp only); split)

theorem stopGroup_kept {k0 : Base} {s : State} (h : s.Kept k0) (g : Grp) : (State.stopGroup s g).Kept k0 := by
  unfold State.stopGroup
  repeat' first
    | with_reducible assumption
    | (extract_lets +onlyGivenNames x
       have hx : State.Kept k0 x := by
        unfold x
        repeat' first
          | with_reducible assumption
          | exact fun hm => hm
          | exact fun _ hq => hq
          | with_reducible apply endMotionTickets_kept
          | with_reducible apply finishOpt_kept
          | with_reducible apply finishSeen_kept
          | with_reducible apply gatesOff_kept
          | with_reducible apply modEng_kept
          | with_reducible apply modGroup_kept
          | with_reducible apply running_kept
          | with_reducible apply foldl_kept
          | (intro z b hz; beta_reduce)
          | split
          | (extract_lets +onlyGivenNames y; clear_value y)
                | (extract_lets +onlyGivenNames y; subst y)
       clear_value x)
    | (extract_lets +onlyGivenNames x; clear_value x)
    | (extract_lets +onlyGivenNames x; subst x)
    | exact fun hm => hm
    | exact fun _ hq => hq
    | with_reducible apply endMotionTickets_kept
    | with_reducible apply finishOpt_kept
    | with_reducible apply finishSeen_kept
    | with_reducible apply gatesOff_kept
    | with_reducible apply modEng_kept
    | with_reducible apply modGroup_kept
    | with_reducible apply running_kept
    | with_reducible apply foldl_kept
    | (intro z b hz; beta_reduce)
    | split

theorem checkStop_kept {k0 : Base} {s : State} (h : s.Kept k0) (g : Grp) : (State.checkStop s g).Kept k0 := by
  unfold State.checkStop
  repeat' first
    | with_reducible assumption
    | (extract_lets +onlyGivenNames x
       have hx : State.Kept k0 x := by
        unfold x
        repeat' first
          | with_reducible assumption
          | with_reducible apply stopGroup_kept
          | with_reducible apply ite_kept
          | (extract_lets +onlyGivenNames y; clear_value y)
                | (extract_lets +onlyGivenNames y; subst y)
       clear_value x)
    | (extract_lets +onlyGivenNames x; clear_value x)
    | (extract_lets +onlyGivenNames x; subst x)
    | with_reducible apply stopGroup_kept
    | with_reducible apply ite_kept

theorem computeLost_kept {k0 : Base} {s : State} (h : s.Kept k0)  : (State.computeLost s).Kept k0 := by
  unfold State.computeLost
  repeat' first
    | with_reducible assumption
    | with_reducible apply logEvent_kept
    | with_reducible apply ite_kept
    | exact rfl
    | with_reducible apply mk_keep_kept

theorem loseGroup_kept {k0 : Base} {s : State} (h : s.Kept k0) (g : Grp) : (State.loseGroup s g).Kept k0 := by
  unfold State.loseGroup
  repeat' first
    | with_reducible assumption
    | (extract_lets +onlyGivenNames x
       have hx : State.Kept k0 x := by
        unfold x
        repeat' first
          | with_reducible assumption
          | with_reducible apply checkStop_kept
          | with_reducible apply disableAux_kept
          | with_reducible apply disableMain_kept
          | with_reducible apply endMotionTickets_kept
          | with_reducible apply enterRest_kept
          | with_reducible apply gatesOff_kept
          | with_reducible apply leaveAux_kept
          | with_reducible apply modComm_kept
          | with_reducible apply setRelease_kept
          | with_reducible apply foldl_kept
          | (intro z b hz; beta_reduce)
          | with_reducible apply ite_kept
          | (extract_lets +onlyGivenNames y; clear_value y)
                | (extract_lets +onlyGivenNames y; subst y)
       clear_value x)
    | (extract_lets +onlyGivenNames x; clear_value x)
    | (extract_lets +onlyGivenNames x; subst x)
    | with_reducible apply checkStop_kept
    | with_reducible apply disableAux_kept
    | with_reducible apply disableMain_kept
    | with_reducible apply endMotionTickets_kept
    | with_reducible apply enterRest_kept
    | with_reducible apply gatesOff_kept
    | with_reducible apply leaveAux_kept
    | with_reducible apply modComm_kept
    | with_reducible apply setRelease_kept
    | with_reducible apply foldl_kept
    | (intro z b hz; beta_reduce)
    | with_reducible apply ite_kept

theorem loseTorque_kept {k0 : Base} {s : State} (h : s.Kept k0)  : (State.loseTorque s).Kept k0 := by
  unfold State.loseTorque
  repeat' first
    | with_reducible assumption
    | with_reducible apply clearTorque_kept
    | with_reducible apply eachFin_kept
    | (intro z b hz; beta_reduce)
    | with_reducible apply ite_kept

theorem retire_kept {k0 : Base} {s : State} (h : s.Kept k0) (e : EngineId) : (State.retire s e).Kept k0 := by
  unfold State.retire
  repeat' first
    | with_reducible assumption
    | (extract_lets +onlyGivenNames x
       have hx : State.Kept k0 x := by
        unfold x
        repeat' first
          | with_reducible assumption
          | with_reducible apply logEvent_kept
          | split
          | exact rfl
          | (extract_lets +onlyGivenNames y; subst y)
          | with_reducible apply mk_keep_kept
       clear_value x)
    | (extract_lets +onlyGivenNames x; subst x)
    | with_reducible apply logEvent_kept
    | split
    | exact rfl
    | with_reducible apply mk_keep_kept

theorem disarmEng_kept {k0 : Base} {s : State} (h : s.Kept k0)  : (State.disarmEng s).Kept k0 := by
  unfold State.disarmEng
  repeat' first
    | with_reducible assumption
    | with_reducible apply modTest_kept

theorem copyWords_kept {k0 : Base} {s : State} (h : s.Kept k0) (toA : Bool) (addrs : List (Fin 16384)) : (State.copyWords s toA addrs).Kept k0 := by
  unfold State.copyWords
  refine foldl_kept _ _ (fun z b hz => logEvent_kept (engines_kept hz _ fun he => ?_) ..) h
  split
  · exact ⟨sput_canon _ _ he.1, he.2⟩
  · exact ⟨he.1, sput_canon _ _ he.2⟩

theorem loseWords_kept {k0 : Base} {s : State} (h : s.Kept k0) (g : Grp) (addrs : List (Fin 16384)) : (State.loseWords s g addrs).Kept k0 := by
  unfold State.loseWords
  repeat' first
    | with_reducible assumption
    | (extract_lets +onlyGivenNames x
       have hx : State.Kept k0 x := by
        unfold x
        repeat' first
          | with_reducible assumption
          | with_reducible apply askEmergency_kept
          | with_reducible apply logEvent_kept
          | with_reducible apply foldl_kept
          | (intro z b hz; beta_reduce)
          | with_reducible apply ite_kept
          | exact rfl
          | (extract_lets +onlyGivenNames y; subst y)
          | with_reducible apply mk_keep_kept
       clear_value x)
    | (extract_lets +onlyGivenNames x; subst x)
    | with_reducible apply askEmergency_kept
    | with_reducible apply logEvent_kept
    | with_reducible apply foldl_kept
    | (intro z b hz; beta_reduce)
    | with_reducible apply ite_kept
    | exact rfl
    | with_reducible apply mk_keep_kept

end Sys2Proof.Machine.State
end

