-- ==== Sys2Proof/Laws/KeptGroupStart.lean ====
section
/-! SUPPORT. Every operation of Machine/GroupStart.lean keeps what Laws/Kept.lean names. -/

set_option Elab.async false

set_option linter.unusedTactic false
set_option linter.unreachableTactic false

namespace Sys2Proof.Machine.State

theorem beginMain_kept {k0 : Base} {s : State} (h : s.Kept k0) (g : Grp) (m : Main) : (State.beginMain s g m).Kept k0 := by
  unfold State.beginMain
  repeat' first
    | with_reducible assumption
    | (extract_lets +onlyGivenNames x
       have hx : State.Kept k0 x := by
        unfold x
        repeat' first
          | with_reducible assumption
          | with_reducible apply modMain_kept
          | with_reducible apply ite_kept
          | (extract_lets +onlyGivenNames y; clear_value y)
                | (extract_lets +onlyGivenNames y; subst y)
       clear_value x)
    | (extract_lets +onlyGivenNames x; clear_value x)
    | (extract_lets +onlyGivenNames x; subst x)
    | with_reducible apply modMain_kept
    | with_reducible apply ite_kept

theorem beginLink_kept {k0 : Base} {s : State} (h : s.Kept k0) (g : Grp) (l : LinkNo) : (State.beginLink s g l).Kept k0 := by
  unfold State.beginLink
  repeat' first
    | with_reducible assumption
    | with_reducible apply modLink_kept
    | with_reducible apply ite_kept

theorem beginGroup_kept {k0 : Base} {s : State} (h : s.Kept k0) (g : Grp) : (State.beginGroup s g).Kept k0 := by
  unfold State.beginGroup
  repeat' first
    | with_reducible assumption
    | (extract_lets +onlyGivenNames x
       have hx : State.Kept k0 x := by
        unfold x
        repeat' first
          | with_reducible assumption
          | exact fun hm => hm
          | exact fun _ hq => hq
          | with_reducible apply beginLink_kept
          | with_reducible apply beginMain_kept
          | with_reducible apply leaveDrum_kept
          | with_reducible apply modGroup_kept
          | with_reducible apply running_kept
          | with_reducible apply foldl_kept
          | with_reducible apply eachFin_kept
          | (intro z b hz; beta_reduce)
          | (extract_lets +onlyGivenNames y; clear_value y)
                | (extract_lets +onlyGivenNames y; subst y)
       clear_value x)
    | (extract_lets +onlyGivenNames x; clear_value x)
    | (extract_lets +onlyGivenNames x; subst x)
    | exact fun hm => hm
    | exact fun _ hq => hq
    | with_reducible apply beginLink_kept
    | with_reducible apply beginMain_kept
    | with_reducible apply leaveDrum_kept
    | with_reducible apply modGroup_kept
    | with_reducible apply running_kept
    | with_reducible apply foldl_kept
    | with_reducible apply eachFin_kept
    | (intro z b hz; beta_reduce)

theorem refuseStart_kept {k0 : Base} {s : State} (h : s.Kept k0) (g : Grp) (status : Nat) : (State.refuseStart s g status).Kept k0 := by
  unfold State.refuseStart
  repeat' first
    | with_reducible assumption
    | (extract_lets +onlyGivenNames x
       have hx : State.Kept k0 x := by
        unfold x
        repeat' first
          | with_reducible assumption
          | exact fun hm => hm
          | exact fun _ hq => hq
          | with_reducible apply finishOpt_kept
          | with_reducible apply modAux_kept
          | with_reducible apply modGroup_kept
          | with_reducible apply modMain_kept
          | with_reducible apply foldl_kept
          | (intro z b hz; beta_reduce)
          | split
          | (extract_lets +onlyGivenNames y; clear_value y)
                | (extract_lets +onlyGivenNames y; subst y)
       clear_value x)
    | (extract_lets +onlyGivenNames x; clear_value x)
    | (extract_lets +onlyGivenNames x; subst x)
    | exact fun hm => hm
    | exact fun _ hq => hq
    | with_reducible apply finishOpt_kept
    | with_reducible apply modAux_kept
    | with_reducible apply modGroup_kept
    | with_reducible apply modMain_kept
    | with_reducible apply foldl_kept
    | (intro z b hz; beta_reduce)
    | split

theorem tryStart_kept {k0 : Base} {s : State} (h : s.Kept k0) (g : Grp) : (State.tryStart s g).Kept k0 := by
  unfold State.tryStart
  repeat' first
    | with_reducible assumption
    | (extract_lets +onlyGivenNames x
       have hx : State.Kept k0 x := by
        unfold x
        repeat' first
          | with_reducible assumption
          | exact fun hm => hm
          | exact fun _ hq => hq
          | with_reducible apply beginGroup_kept
          | with_reducible apply modGroup_kept
          | with_reducible apply refuseStart_kept
          | with_reducible apply ite_kept
          | split
          | (intro _ _; (try dsimp only); split)
          | (extract_lets +onlyGivenNames y; clear_value y)
                | (extract_lets +onlyGivenNames y; subst y)
       clear_value x)
    | (extract_lets +onlyGivenNames x; clear_value x)
    | (extract_lets +onlyGivenNames x; subst x)
    | exact fun hm => hm
    | exact fun _ hq => hq
    | with_reducible apply beginGroup_kept
    | with_reducible apply modGroup_kept
    | with_reducible apply refuseStart_kept
    | with_reducible apply ite_kept
    | split
    | (intro _ _; (try dsimp only); split)

end Sys2Proof.Machine.State
end

