-- ==== Sys2Proof/Laws/KeptSafetyChannel.lean ====
section
/-! SUPPORT. Every operation of Machine/SafetyChannel.lean keeps what Laws/Kept.lean names. -/

set_option Elab.async false

set_option linter.unusedTactic false
set_option linter.unreachableTactic false

namespace Sys2Proof.Machine.State

theorem modSto_kept {k0 : Base} {s : State} (h : s.Kept k0) (i : StoNo) (f : StoSt → StoSt) : (State.modSto s i f).Kept k0 := by
  unfold State.modSto
  repeat' first
    | with_reducible assumption
    | with_reducible apply modSafety_kept
    | with_reducible apply mk_kept

theorem modBrake_kept {k0 : Base} {s : State} (h : s.Kept k0) (b : Fin 4) (f : OutSt → OutSt) : (State.modBrake s b f).Kept k0 := by
  unfold State.modBrake
  repeat' first
    | with_reducible assumption
    | with_reducible apply modSafety_kept

theorem modContactor_kept {k0 : Base} {s : State} (h : s.Kept k0) (c : Fin 4) (f : OutSt → OutSt) : (State.modContactor s c f).Kept k0 := by
  unfold State.modContactor
  repeat' first
    | with_reducible assumption
    | with_reducible apply modSafety_kept

theorem voidPulse_kept {k0 : Base} {s : State} (h : s.Kept k0) (o : SafeOut) : (State.voidPulse s o).Kept k0 := by
  unfold State.voidPulse
  repeat' first
    | with_reducible assumption
    | with_reducible apply modSafety_kept
    | with_reducible apply ite_kept

theorem unpark_kept {k0 : Base} {s : State} (h : s.Kept k0) (b : Fin 4) : (State.unpark s b).Kept k0 := by
  unfold State.unpark
  repeat' first
    | with_reducible assumption
    | (extract_lets +onlyGivenNames x
       have hx : State.Kept k0 x := by
        unfold x
        repeat' first
          | with_reducible assumption
          | with_reducible apply modComm_kept
          | with_reducible apply eachFin_kept
          | (intro z b hz; beta_reduce)
          | with_reducible apply ite_kept
          | (extract_lets +onlyGivenNames y; clear_value y)
                | (extract_lets +onlyGivenNames y; subst y)
       clear_value x)
    | (extract_lets +onlyGivenNames x; clear_value x)
    | (extract_lets +onlyGivenNames x; subst x)
    | with_reducible apply modComm_kept
    | with_reducible apply eachFin_kept
    | (intro z b hz; beta_reduce)
    | with_reducible apply ite_kept

theorem driveBrake_kept {k0 : Base} {s : State} (h : s.Kept k0) (b : Fin 4) : (State.driveBrake s b).Kept k0 := by
  unfold State.driveBrake
  repeat' first
    | with_reducible assumption
    | (extract_lets +onlyGivenNames x
       have hx : State.Kept k0 x := by
        unfold x
        repeat' first
          | with_reducible assumption
          | with_reducible apply modBrake_kept
          | with_reducible apply unpark_kept
          | with_reducible apply voidPulse_kept
          | with_reducible apply ite_kept
          | split
          | (extract_lets +onlyGivenNames y; clear_value y)
                | (extract_lets +onlyGivenNames y; subst y)
       clear_value x)
    | (extract_lets +onlyGivenNames x; clear_value x)
    | (extract_lets +onlyGivenNames x; subst x)
    | with_reducible apply modBrake_kept
    | with_reducible apply unpark_kept
    | with_reducible apply voidPulse_kept
    | with_reducible apply ite_kept
    | split

theorem driveContactor_kept {k0 : Base} {s : State} (h : s.Kept k0) (c : Fin 4) : (State.driveContactor s c).Kept k0 := by
  unfold State.driveContactor
  repeat' first
    | with_reducible assumption
    | (extract_lets +onlyGivenNames x
       have hx : State.Kept k0 x := by
        unfold x
        repeat' first
          | with_reducible assumption
          | with_reducible apply modContactor_kept
          | with_reducible apply voidPulse_kept
          | with_reducible apply ite_kept
          | split
          | (extract_lets +onlyGivenNames y; clear_value y)
                | (extract_lets +onlyGivenNames y; subst y)
       clear_value x)
    | (extract_lets +onlyGivenNames x; clear_value x)
    | (extract_lets +onlyGivenNames x; subst x)
    | with_reducible apply modContactor_kept
    | with_reducible apply voidPulse_kept
    | with_reducible apply ite_kept
    | split

theorem driveOutputs_kept {k0 : Base} {s : State} (h : s.Kept k0)  : (State.driveOutputs s).Kept k0 := by
  unfold State.driveOutputs
  repeat' first
    | with_reducible assumption
    | with_reducible apply driveBrake_kept
    | with_reducible apply driveContactor_kept
    | with_reducible apply eachFin_kept
    | (intro z b hz; beta_reduce)

theorem driveSto_kept {k0 : Base} {s : State} (h : s.Kept k0) (i : StoNo) (on : Bool) : (State.driveSto s i on).Kept k0 := by
  unfold State.driveSto
  repeat' first
    | with_reducible assumption
    | (extract_lets +onlyGivenNames x
       have hx : State.Kept k0 x := by
        unfold x
        repeat' first
          | with_reducible assumption
          | with_reducible apply modSto_kept
          | with_reducible apply voidPulse_kept
          | with_reducible apply ite_kept
          | (extract_lets +onlyGivenNames y; clear_value y)
                | (extract_lets +onlyGivenNames y; subst y)
       clear_value x)
    | (extract_lets +onlyGivenNames x; clear_value x)
    | (extract_lets +onlyGivenNames x; subst x)
    | with_reducible apply modSto_kept
    | with_reducible apply voidPulse_kept
    | with_reducible apply ite_kept

theorem stoOff_kept {k0 : Base} {s : State} (h : s.Kept k0) (i : StoNo) (st : SState) (cause : Option Nat) : (State.stoOff s i st cause).Kept k0 := by
  unfold State.stoOff
  repeat' first
    | with_reducible assumption
    | with_reducible apply driveSto_kept
    | with_reducible apply modSto_kept

theorem torqueOff_kept {k0 : Base} {s : State} (h : s.Kept k0) (i : StoNo) (dest : SState) (cause : Option Nat) : (State.torqueOff s i dest cause).Kept k0 := by
  unfold State.torqueOff
  repeat' first
    | with_reducible assumption
    | (extract_lets +onlyGivenNames x
       have hx : State.Kept k0 x := by
        unfold x
        repeat' first
          | with_reducible assumption
          | with_reducible apply modSto_kept
          | with_reducible apply stoOff_kept
          | with_reducible apply ite_kept
          | (extract_lets +onlyGivenNames y; clear_value y)
                | (extract_lets +onlyGivenNames y; subst y)
       clear_value x)
    | (extract_lets +onlyGivenNames x; clear_value x)
    | (extract_lets +onlyGivenNames x; subst x)
    | with_reducible apply modSto_kept
    | with_reducible apply stoOff_kept
    | with_reducible apply ite_kept

theorem settleWait_kept {k0 : Base} {s : State} (h : s.Kept k0) (i : StoNo) : (State.settleWait s i).Kept k0 := by
  unfold State.settleWait
  repeat' first
    | with_reducible assumption
    | (extract_lets +onlyGivenNames x
       have hx : State.Kept k0 x := by
        unfold x
        repeat' first
          | with_reducible assumption
          | with_reducible apply latched_kept
          | with_reducible apply modSto_kept
          | with_reducible apply stoOff_kept
          | with_reducible apply foldl_kept
          | (intro z b hz; beta_reduce)
          | with_reducible apply ite_kept
          | (extract_lets +onlyGivenNames y; clear_value y)
                | (extract_lets +onlyGivenNames y; subst y)
       clear_value x)
    | (extract_lets +onlyGivenNames x; clear_value x)
    | (extract_lets +onlyGivenNames x; subst x)
    | with_reducible apply latched_kept
    | with_reducible apply modSto_kept
    | with_reducible apply stoOff_kept
    | with_reducible apply foldl_kept
    | (intro z b hz; beta_reduce)
    | with_reducible apply ite_kept

theorem testRun_kept {k0 : Base} {s : State} (h : s.Kept k0) (i : StoNo) : (State.testRun s i).Kept k0 := by
  unfold State.testRun
  repeat' first
    | with_reducible assumption
    | (extract_lets +onlyGivenNames x
       have hx : State.Kept k0 x := by
        unfold x
        repeat' first
          | with_reducible assumption
          | with_reducible apply driveSto_kept
          | with_reducible apply modSto_kept
          | with_reducible apply ite_kept
          | split
          | (extract_lets +onlyGivenNames y; clear_value y)
                | (extract_lets +onlyGivenNames y; subst y)
       clear_value x)
    | (extract_lets +onlyGivenNames x; clear_value x)
    | (extract_lets +onlyGivenNames x; subst x)
    | with_reducible apply driveSto_kept
    | with_reducible apply modSto_kept
    | with_reducible apply ite_kept
    | split

theorem settleSafety_kept {k0 : Base} {s : State} (h : s.Kept k0)  : (State.settleSafety s).Kept k0 := by
  unfold State.settleSafety
  repeat' first
    | with_reducible assumption
    | (extract_lets +onlyGivenNames x
       have hx : State.Kept k0 x := by
        unfold x
        repeat' first
          | with_reducible assumption
          | with_reducible apply driveOutputs_kept
          | with_reducible apply settleWait_kept
          | with_reducible apply eachFin_kept
          | (intro z b hz; beta_reduce)
          | (extract_lets +onlyGivenNames y; clear_value y)
                | (extract_lets +onlyGivenNames y; subst y)
       clear_value x)
    | (extract_lets +onlyGivenNames x; clear_value x)
    | (extract_lets +onlyGivenNames x; subst x)
    | with_reducible apply driveOutputs_kept
    | with_reducible apply settleWait_kept
    | with_reducible apply eachFin_kept
    | (intro z b hz; beta_reduce)

theorem enterSs1_kept {k0 : Base} {s : State} (h : s.Kept k0) (i : StoNo) (cause : Nat) : (State.enterSs1 s i cause).Kept k0 := by
  unfold State.enterSs1
  repeat' first
    | with_reducible assumption
    | (extract_lets +onlyGivenNames x
       have hx : State.Kept k0 x := by
        unfold x
        repeat' first
          | with_reducible assumption
          | with_reducible apply modSto_kept
          | split
          | (extract_lets +onlyGivenNames y; clear_value y)
                | (extract_lets +onlyGivenNames y; subst y)
       clear_value x)
    | (extract_lets +onlyGivenNames x; clear_value x)
    | (extract_lets +onlyGivenNames x; subst x)
    | with_reducible apply modSto_kept
    | split

theorem estopHit_kept {k0 : Base} {s : State} (h : s.Kept k0) (e : Fin 2) (cause : Nat) (i : StoNo) : (State.estopHit s e cause i).Kept k0 := by
  unfold State.estopHit
  repeat' first
    | with_reducible assumption
    | (extract_lets +onlyGivenNames x
       have hx : State.Kept k0 x := by
        unfold x
        repeat' first
          | with_reducible assumption
          | with_reducible apply enterSs1_kept
          | with_reducible apply latched_kept
          | with_reducible apply stoOff_kept
          | with_reducible apply ite_kept
          | (extract_lets +onlyGivenNames y; clear_value y)
                | (extract_lets +onlyGivenNames y; subst y)
       clear_value x)
    | (extract_lets +onlyGivenNames x; clear_value x)
    | (extract_lets +onlyGivenNames x; subst x)
    | with_reducible apply enterSs1_kept
    | with_reducible apply latched_kept
    | with_reducible apply stoOff_kept
    | with_reducible apply ite_kept

theorem acceptReset_kept {k0 : Base} {s : State} (h : s.Kept k0)  : (State.acceptReset s).1.Kept k0 := by
  unfold State.acceptReset
  repeat' first
    | with_reducible assumption
    | (extract_lets +onlyGivenNames x
       have hx : State.Kept k0 x := by
        unfold x
        repeat' first
          | with_reducible assumption
          | with_reducible apply latched_kept
          | with_reducible apply modSto_kept
          | with_reducible apply foldl_kept
          | (intro z b hz; beta_reduce)
          | with_reducible apply ite_kept
          | with_reducible apply ite_fst_kept
          | (extract_lets +onlyGivenNames y; clear_value y)
                | (extract_lets +onlyGivenNames y; subst y)
       clear_value x)
    | (extract_lets +onlyGivenNames x; clear_value x)
    | (extract_lets +onlyGivenNames x; subst x)
    | with_reducible apply latched_kept
    | with_reducible apply modSto_kept
    | with_reducible apply foldl_kept
    | (intro z b hz; beta_reduce)
    | with_reducible apply ite_kept
    | with_reducible apply ite_fst_kept

theorem channelFault_kept {k0 : Base} {s : State} (h : s.Kept k0) (cause : Nat) (index : Nat) : (State.channelFault s cause index).Kept k0 := by
  unfold State.channelFault
  repeat' first
    | with_reducible assumption
    | (extract_lets +onlyGivenNames x
       have hx : State.Kept k0 x := by
        unfold x
        repeat' first
          | with_reducible assumption
          | with_reducible apply logEvent_kept
          | with_reducible apply modSafety_kept
          | with_reducible apply settleSafety_kept
          | with_reducible apply torqueOff_kept
          | with_reducible apply eachFin_kept
          | (intro z b hz; beta_reduce)
          | with_reducible apply ite_kept
          | split
          | (extract_lets +onlyGivenNames y; clear_value y)
                | (extract_lets +onlyGivenNames y; subst y)
       clear_value x)
    | (extract_lets +onlyGivenNames x; clear_value x)
    | (extract_lets +onlyGivenNames x; subst x)
    | with_reducible apply logEvent_kept
    | with_reducible apply modSafety_kept
    | with_reducible apply settleSafety_kept
    | with_reducible apply torqueOff_kept
    | with_reducible apply eachFin_kept
    | (intro z b hz; beta_reduce)
    | with_reducible apply ite_kept
    | split

theorem ctfSample_kept {k0 : Base} {s : State} (h : s.Kept k0) (i : Fin 8) (raw : Bool) : (State.ctfSample s i raw).Kept k0 := by
  unfold State.ctfSample
  repeat' first
    | with_reducible assumption
    | (extract_lets +onlyGivenNames x
       have hx : State.Kept k0 x := by
        unfold x
        repeat' first
          | with_reducible assumption
          | with_reducible apply channelFault_kept
          | with_reducible apply modSafety_kept
          | with_reducible apply ite_kept
          | split
          | (extract_lets +onlyGivenNames y; clear_value y)
                | (extract_lets +onlyGivenNames y; subst y)
       clear_value x)
    | (extract_lets +onlyGivenNames x; clear_value x)
    | (extract_lets +onlyGivenNames x; subst x)
    | with_reducible apply channelFault_kept
    | with_reducible apply modSafety_kept
    | with_reducible apply ite_kept
    | split

theorem sresetSample_kept {k0 : Base} {s : State} (h : s.Kept k0) (raw : Bool) : (State.sresetSample s raw).Kept k0 := by
  unfold State.sresetSample
  repeat' first
    | with_reducible assumption
    | (extract_lets +onlyGivenNames x
       have hx : State.Kept k0 x := by
        unfold x
        repeat' first
          | with_reducible assumption
          | with_reducible apply acceptReset_kept
          | with_reducible apply modSafety_kept
          | with_reducible apply ite_kept
          | (extract_lets +onlyGivenNames y; have : State.Kept k0 (Prod.fst y) ∨ True := (.inr trivial); clear this; subst y)
                | (extract_lets +onlyGivenNames y; clear_value y)
                | (extract_lets +onlyGivenNames y; subst y)
       clear_value x)
    | (extract_lets +onlyGivenNames x; have : State.Kept k0 (Prod.fst x) ∨ True := (.inr trivial); clear this; subst x)
    | (extract_lets +onlyGivenNames x; clear_value x)
    | (extract_lets +onlyGivenNames x; subst x)
    | with_reducible apply acceptReset_kept
    | with_reducible apply modSafety_kept
    | with_reducible apply ite_kept

theorem estopSample_kept {k0 : Base} {s : State} (h : s.Kept k0) (e0 : Bool) (e1 : Bool) : (State.estopSample s e0 e1).Kept k0 := by
  unfold State.estopSample
  repeat' first
    | with_reducible assumption
    | (extract_lets +onlyGivenNames x
       have hx : State.Kept k0 x := by
        unfold x
        repeat' first
          | with_reducible assumption
          | with_reducible apply estopHit_kept
          | with_reducible apply modSafety_kept
          | with_reducible apply eachFin_kept
          | (intro z b hz; beta_reduce)
          | with_reducible apply ite_kept
          | (extract_lets +onlyGivenNames y; have : ∀ z : State, State.Kept k0 (y z) ∨ True := (fun _ => .inr trivial); clear this; subst y)
                | (extract_lets +onlyGivenNames y; have : ∀ (z : State) b, State.Kept k0 (y z b) ∨ True := (fun _ _ => .inr trivial); clear this; subst y)
                | (extract_lets +onlyGivenNames y; clear_value y)
                | (extract_lets +onlyGivenNames y; subst y)
       clear_value x)
    | (extract_lets +onlyGivenNames x; have : ∀ z : State, State.Kept k0 (x z) ∨ True := (fun _ => .inr trivial); clear this; subst x)
    | (extract_lets +onlyGivenNames x; have : ∀ (z : State) b, State.Kept k0 (x z b) ∨ True := (fun _ _ => .inr trivial); clear this; subst x)
    | (extract_lets +onlyGivenNames x; clear_value x)
    | (extract_lets +onlyGivenNames x; subst x)
    | with_reducible apply estopHit_kept
    | with_reducible apply modSafety_kept
    | with_reducible apply eachFin_kept
    | (intro z b hz; beta_reduce)
    | with_reducible apply ite_kept

theorem countLane_kept {k0 : Base} {s : State} (h : s.Kept k0) (k : Fin 2) (ok : Bool) : (State.countLane s k ok).Kept k0 := by
  unfold State.countLane
  repeat' first
    | with_reducible assumption
    | (extract_lets +onlyGivenNames x
       have hx : State.Kept k0 x := by
        unfold x
        repeat' first
          | with_reducible assumption
          | with_reducible apply logEvent_kept
          | with_reducible apply modSafety_kept
          | with_reducible apply ite_kept
          | (extract_lets +onlyGivenNames y; clear_value y)
                | (extract_lets +onlyGivenNames y; subst y)
       clear_value x)
    | (extract_lets +onlyGivenNames x; clear_value x)
    | (extract_lets +onlyGivenNames x; subst x)
    | with_reducible apply logEvent_kept
    | with_reducible apply modSafety_kept
    | with_reducible apply ite_kept

theorem groupMessage_kept {k0 : Base} {s : State} (h : s.Kept k0) (x : MonMessage) (i : StoNo) : (State.groupMessage s x i).Kept k0 := by
  unfold State.groupMessage
  repeat' first
    | with_reducible assumption
    | (extract_lets +onlyGivenNames x
       have hx : State.Kept k0 x := by
        unfold x
        repeat' first
          | with_reducible assumption
          | with_reducible apply enterSs1_kept
          | with_reducible apply latched_kept
          | with_reducible apply modSto_kept
          | with_reducible apply stoOff_kept
          | with_reducible apply testRun_kept
          | with_reducible apply torqueOff_kept
          | with_reducible apply ite_kept
          | split
          | (extract_lets +onlyGivenNames y; clear_value y)
                | (extract_lets +onlyGivenNames y; subst y)
       clear_value x)
    | (extract_lets +onlyGivenNames x; clear_value x)
    | (extract_lets +onlyGivenNames x; subst x)
    | with_reducible apply enterSs1_kept
    | with_reducible apply latched_kept
    | with_reducible apply modSto_kept
    | with_reducible apply stoOff_kept
    | with_reducible apply testRun_kept
    | with_reducible apply torqueOff_kept
    | with_reducible apply ite_kept
    | split

theorem validMessage_kept {k0 : Base} {s : State} (h : s.Kept k0) (x : MonMessage) : (State.validMessage s x).Kept k0 := by
  unfold State.validMessage
  repeat' first
    | with_reducible assumption
    | (extract_lets +onlyGivenNames x
       have hx : State.Kept k0 x := by
        unfold x
        repeat' first
          | with_reducible assumption
          | with_reducible apply groupMessage_kept
          | with_reducible apply modSafety_kept
          | with_reducible apply settleSafety_kept
          | with_reducible apply eachFin_kept
          | (intro z b hz; beta_reduce)
          | (extract_lets +onlyGivenNames y; clear_value y)
                | (extract_lets +onlyGivenNames y; subst y)
       clear_value x)
    | (extract_lets +onlyGivenNames x; clear_value x)
    | (extract_lets +onlyGivenNames x; subst x)
    | with_reducible apply groupMessage_kept
    | with_reducible apply modSafety_kept
    | with_reducible apply settleSafety_kept
    | with_reducible apply eachFin_kept
    | (intro z b hz; beta_reduce)

theorem revertStaged_kept {k0 : Base} {s : State} (h : s.Kept k0)  : (State.revertStaged s).Kept k0 := by
  unfold State.revertStaged
  repeat' first
    | with_reducible assumption
    | with_reducible apply setNoun_kept
    | with_reducible apply foldl_kept
    | (intro z b hz; beta_reduce)

theorem restartBrakes_kept {k0 : Base} {s : State} (h : s.Kept k0)  : (State.restartBrakes s).Kept k0 := by
  unfold State.restartBrakes
  repeat' first
    | with_reducible assumption
    | with_reducible apply modSafety_kept
    | with_reducible apply ite_kept

theorem takeParameters_kept {k0 : Base} {s : State} (h : s.Kept k0) (crc : Word) : (State.takeParameters s crc).1.Kept k0 := by
  unfold State.takeParameters
  repeat' first
    | with_reducible assumption
    | (extract_lets +onlyGivenNames x
       have hx : State.Kept k0 x := by
        unfold x
        repeat' first
          | with_reducible assumption
          | with_reducible apply latched_kept
          | with_reducible apply modSafety_kept
          | with_reducible apply restartBrakes_kept
          | with_reducible apply revertStaged_kept
          | with_reducible apply running_kept
          | with_reducible apply setNoun_kept
          | with_reducible apply settleSafety_kept
          | with_reducible apply stoOff_kept
          | with_reducible apply eachFin_kept
          | (intro z b hz; beta_reduce)
          | with_reducible apply ite_kept
          | with_reducible apply ite_fst_kept
          | (extract_lets +onlyGivenNames y; clear_value y)
                | (extract_lets +onlyGivenNames y; subst y)
       clear_value x)
    | (extract_lets +onlyGivenNames x; clear_value x)
    | (extract_lets +onlyGivenNames x; subst x)
    | with_reducible apply latched_kept
    | with_reducible apply modSafety_kept
    | with_reducible apply restartBrakes_kept
    | with_reducible apply revertStaged_kept
    | with_reducible apply running_kept
    | with_reducible apply setNoun_kept
    | with_reducible apply settleSafety_kept
    | with_reducible apply stoOff_kept
    | with_reducible apply eachFin_kept
    | (intro z b hz; beta_reduce)
    | with_reducible apply ite_kept
    | with_reducible apply ite_fst_kept

theorem safetyOff_kept {k0 : Base} {s : State} (h : s.Kept k0)  : (State.safetyOff s).Kept k0 := by
  unfold State.safetyOff
  repeat' first
    | with_reducible assumption
    | (extract_lets +onlyGivenNames x
       have hx : State.Kept k0 x := by
        unfold x
        repeat' first
          | with_reducible assumption
          | with_reducible apply latched_kept
          | with_reducible apply modSafety_kept
          | with_reducible apply settleSafety_kept
          | with_reducible apply stoOff_kept
          | with_reducible apply eachFin_kept
          | (intro z b hz; beta_reduce)
          | with_reducible apply ite_kept
          | (extract_lets +onlyGivenNames y; clear_value y)
                | (extract_lets +onlyGivenNames y; subst y)
       clear_value x)
    | (extract_lets +onlyGivenNames x; clear_value x)
    | (extract_lets +onlyGivenNames x; subst x)
    | with_reducible apply latched_kept
    | with_reducible apply modSafety_kept
    | with_reducible apply settleSafety_kept
    | with_reducible apply stoOff_kept
    | with_reducible apply eachFin_kept
    | (intro z b hz; beta_reduce)
    | with_reducible apply ite_kept

theorem safetyCold_kept {k0 : Base} {s : State} (h : s.Kept k0)  : (State.safetyCold s).Kept k0 := by
  unfold State.safetyCold
  repeat' first
    | with_reducible assumption
    | (extract_lets +onlyGivenNames x
       have hx : State.Kept k0 x := by
        unfold x
        repeat' first
          | with_reducible assumption
          | with_reducible apply running_kept
          | with_reducible apply foldl_kept
          | (intro z b hz; beta_reduce)
          | (extract_lets +onlyGivenNames y; subst y)
          | with_reducible apply mk_kept
       clear_value x)
    | (extract_lets +onlyGivenNames x; subst x)
    | with_reducible apply running_kept
    | with_reducible apply foldl_kept
    | (intro z b hz; beta_reduce)
    | with_reducible apply mk_kept

end Sys2Proof.Machine.State
end

