-- ==== Sys2Proof/Laws/KeptMailbox.lean ====
section
/-! SUPPORT. Every operation of Machine/Mailbox.lean keeps what Laws/Kept.lean names. -/

set_option Elab.async false

set_option linter.unusedTactic false
set_option linter.unreachableTactic false

namespace Sys2Proof.Machine.State

theorem modSlot_kept {k0 : Base} {s : State} (h : s.Kept k0) (i : Fin 16) (f : Slot → Slot) : (State.modSlot s i f).Kept k0 := by
  unfold State.modSlot
  repeat' first
    | with_reducible assumption
    | exact fun hm => hm
    | exact fun _ hq => hq
    | with_reducible apply modMail_kept

theorem mbxErr_kept {k0 : Base} {s : State} (h : s.Kept k0) (bit : Nat) : (State.mbxErr s bit).Kept k0 := by
  unfold State.mbxErr
  repeat' first
    | with_reducible assumption
    | exact fun hm => hm
    | exact fun _ hq => hq
    | with_reducible apply modMail_kept
    | split

theorem slotReply_kept {k0 : Base} {s : State} (h : s.Kept k0) (i : Fin 16) (ws : List Word) (past : Bool) (notice : Bool) : (State.slotReply s i ws past notice).Kept k0 := by
  unfold State.slotReply
  repeat' first
    | with_reducible assumption
    | exact fun hm => hm
    | exact fun _ hq => hq
    | with_reducible apply modMail_kept
    | with_reducible apply modSlot_kept
    | with_reducible apply ite_kept
    | split
    | (intro _ _; (try dsimp only); split)

theorem sessionReply_kept {k0 : Base} {s : State} (h : s.Kept k0) (p : Port) (k : Fin 8) (ticket : Nat) (ws : List Word) (past : Bool) (notice : Bool) : (State.sessionReply s p k ticket ws past notice).Kept k0 := by
  unfold State.sessionReply
  repeat' first
    | with_reducible assumption
    | (extract_lets +onlyGivenNames x
       have hx : State.Kept k0 x := by
        unfold x
        repeat' first
          | with_reducible assumption
          | with_reducible apply drawn_kept
          | with_reducible apply modBufs_kept
          | with_reducible apply ite_kept
          | split
          | (extract_lets +onlyGivenNames y; clear_value y)
                | (extract_lets +onlyGivenNames y; subst y)
       clear_value x)
    | (extract_lets +onlyGivenNames x; clear_value x)
    | (extract_lets +onlyGivenNames x; subst x)
    | with_reducible apply drawn_kept
    | with_reducible apply modBufs_kept
    | with_reducible apply ite_kept
    | split

theorem dropPast_kept {k0 : Base} {s : State} (h : s.Kept k0) (t : Nat) :
    (s.modMail fun m => { m with tickets := m.tickets.filter fun x => x.num != t }).Kept k0 := by
  refine modMail_kept h _ fun hm => ⟨Nat.le_trans ?_ hm.1, hm.2.1, fun k hk => hm.2.2 k (List.mem_of_mem_filter hk)⟩
  simp only [List.filter_filter]
  refine (List.monotone_filter_right _ fun k hk => ?_).length_le
  simp only [Bool.and_eq_true] at hk
  exact hk.1

theorem deliver_kept {k0 : Base} {s : State} (h : s.Kept k0) (o : Output) : (State.deliver s o).Kept k0 := by
  unfold State.deliver
  split
  · split
    · exact h
    · extract_lets
      next k _ _ _ x =>
      have hx : State.Kept k0 x := by
        unfold x
        split
        · exact slotReply_kept h ..
        · exact ite_kept (modMail_kept h _ fun hm => hm) h
        · exact sessionReply_kept h ..
      exact ite_kept (dropPast_kept hx _) hx
  · extract_lets
    split
    · exact slotReply_kept h ..
    · exact h
    · exact sessionReply_kept h ..
  · exact addLog_kept h _
  · exact modGroup_kept h _ _ fun _ hq => hq
  · exact modGroup_kept h _ _ fun _ hq => hq

theorem releaseJournal_kept {k0 : Base} {s : State} (h : s.Kept k0)  : (State.releaseJournal s).Kept k0 := by
  unfold State.releaseJournal
  repeat' first
    | with_reducible assumption
    | exact fun hm => hm
    | exact fun _ hq => hq
    | with_reducible apply deliver_kept
    | with_reducible apply modMail_kept
    | with_reducible apply foldl_kept
    | (intro z b hz; beta_reduce)

theorem detachSlot_kept {k0 : Base} {s : State} (h : s.Kept k0) (i : Fin 16) : (State.detachSlot s i).Kept k0 := by
  unfold State.detachSlot
  exact modMail_kept h _ fun hm => ⟨Nat.le_trans (inFlight_map_le _ _ fun _ hk => hk) hm.1, hm.2.1, fun k hk => by
    obtain ⟨k1, h1, rfl⟩ := List.mem_map.mp hk
    exact hm.2.2 k1 h1⟩

theorem releaseSlot_kept {k0 : Base} {s : State} (h : s.Kept k0) (i : Fin 16) : (State.releaseSlot s i).Kept k0 := by
  unfold State.releaseSlot
  repeat' first
    | with_reducible assumption
    | (extract_lets +onlyGivenNames x
       have hx : State.Kept k0 x := by
        unfold x
        repeat' first
          | with_reducible assumption
          | exact fun hm => hm
          | exact fun _ hq => hq
          | with_reducible apply detachSlot_kept
          | with_reducible apply mbxErr_kept
          | with_reducible apply modMail_kept
          | with_reducible apply modSlot_kept
          | with_reducible apply ite_kept
          | split
          | (intro _ _; (try dsimp only); split)
          | (extract_lets +onlyGivenNames y; have : ∀ z : State, State.Kept k0 (y z) ∨ True := (fun _ => .inr trivial); clear this; subst y)
                | (extract_lets +onlyGivenNames y; have : ∀ (z : State) b, State.Kept k0 (y z b) ∨ True := (fun _ _ => .inr trivial); clear this; subst y)
                | (extract_lets +onlyGivenNames y; clear_value y)
                | (extract_lets +onlyGivenNames y; subst y)
       clear_value x)
    | (extract_lets +onlyGivenNames x; have : ∀ z : State, State.Kept k0 (x z) ∨ True := (fun _ => .inr trivial); clear this; subst x)
    | (extract_lets +onlyGivenNames x; have : ∀ (z : State) b, State.Kept k0 (x z b) ∨ True := (fun _ _ => .inr trivial); clear this; subst x)
    | (extract_lets +onlyGivenNames x; clear_value x)
    | (extract_lets +onlyGivenNames x; subst x)
    | exact fun hm => hm
    | exact fun _ hq => hq
    | with_reducible apply detachSlot_kept
    | with_reducible apply mbxErr_kept
    | with_reducible apply modMail_kept
    | with_reducible apply modSlot_kept
    | with_reducible apply ite_kept
    | split
    | (intro _ _; (try dsimp only); split)

theorem releaseSlots_kept {k0 : Base} {s : State} (h : s.Kept k0) (mask : Nat) : (State.releaseSlots s mask).Kept k0 := by
  unfold State.releaseSlots
  repeat' first
    | with_reducible assumption
    | with_reducible apply releaseSlot_kept
    | with_reducible apply foldl_kept
    | (intro z b hz; beta_reduce)

theorem answerSlot_kept {k0 : Base} {s : State} (h : s.Kept k0) (i : Fin 16) (status : Nat) : (State.answerSlot s i status).Kept k0 := by
  unfold State.answerSlot
  repeat' first
    | with_reducible assumption
    | (extract_lets +onlyGivenNames x
       have hx : State.Kept k0 x := by
        unfold x
        repeat' first
          | with_reducible assumption
          | with_reducible apply slotReply_kept
          | (extract_lets +onlyGivenNames y; clear_value y)
                | (extract_lets +onlyGivenNames y; subst y)
       clear_value x)
    | (extract_lets +onlyGivenNames x; clear_value x)
    | (extract_lets +onlyGivenNames x; subst x)
    | with_reducible apply slotReply_kept

theorem ringDoorbell_kept {k0 : Base} {s : State} (h : s.Kept k0) (mask : Nat) : (State.ringDoorbell s mask).Kept k0 := by
  unfold State.ringDoorbell
  repeat' first
    | with_reducible assumption
    | exact fun hm => hm
    | exact fun _ hq => hq
    | with_reducible apply answerSlot_kept
    | with_reducible apply mbxErr_kept
    | with_reducible apply modMail_kept
    | with_reducible apply modSlot_kept
    | with_reducible apply foldl_kept
    | (intro z b hz; beta_reduce)
    | with_reducible apply ite_kept
    | (intro _ _; (try dsimp only); split)

/-- T#0 is never issued (R336). -/
theorem nextNumber_ne_zero (used : List Nat) (i j : Nat) : nextNumber used (i + 1) j ≠ 0 := by
  have hm : ∀ j : Nat, (if 65535 ≤ j then 1 else j + 1) ≠ 0 := fun j => by split <;> omega
  induction i generalizing j with
  | zero =>
    have h := hm j
    rw [nextNumber]
    generalize (if 65535 ≤ j then 1 else j + 1) = m at h ⊢
    split
    · exact h
    · exact h
  | succ i ih =>
    have h := hm j
    rw [nextNumber]
    generalize (if 65535 ≤ j then 1 else j + 1) = m at h ⊢
    split
    · exact ih _
    · exact h

theorem issue_kept {k0 : Base} {s : State} (h : s.Kept k0) (hn : s.inFlightCount < 32) (x : Sentence) (o : Origin) : (State.issue s x o).Kept k0 := by
  have h1 : ∀ k : Ticket, ∀ n, k.num ≠ 0 →
      (s.modMail fun m => { m with lastTicket := n, tickets := m.tickets ++ [k] }).Kept k0 := by
    intro k n hk0
    refine modMail_kept h _ fun hm => ⟨?_, hm.2.1, ?_⟩
    · have hk : (([k] : List Ticket).filter fun k => k.tense != .past).length ≤ 1 := List.length_filter_le ..
      simp only [List.filter_append, List.length_append]
      have : (s.mail.tickets.filter fun k => k.tense != .past).length < 32 := hn
      omega
    · intro j hj
      rcases List.mem_append.mp hj with hj | hj
      · exact hm.2.2 j hj
      · exact List.mem_singleton.mp hj ▸ hk0
  unfold State.issue
  extract_lets used n stage why s1
  clear_value why
  cases why with
  | some st => exact finish_kept (h1 _ _ (nextNumber_ne_zero used _ _ :)) ..
  | none => exact emit_kept (h1 _ _ (nextNumber_ne_zero used _ _ :)) _

end Sys2Proof.Machine.State
end

