-- ==== Sys2Proof/Laws/KeptCan.lean ====
section
/-! SUPPORT. Every operation of Machine/Can.lean keeps what Laws/Kept.lean names. -/

set_option Elab.async false

set_option linter.unusedTactic false
set_option linter.unreachableTactic false

namespace Sys2Proof.Machine.State

theorem writeMode_kept {k0 : Base} {s : State} (h : s.Kept k0) (p : Port) (v : Nat) : (State.writeMode s p v).Kept k0 := by
  unfold State.writeMode
  repeat' first
    | with_reducible assumption
    | (extract_lets +onlyGivenNames x
       have hx : State.Kept k0 x := by
        unfold x
        repeat' first
          | with_reducible assumption
          | with_reducible apply modPort_kept
          | with_reducible apply ite_kept
          | split
          | (extract_lets +onlyGivenNames y; clear_value y)
                | (extract_lets +onlyGivenNames y; subst y)
       clear_value x)
    | (extract_lets +onlyGivenNames x; clear_value x)
    | (extract_lets +onlyGivenNames x; subst x)
    | with_reducible apply modPort_kept
    | with_reducible apply ite_kept
    | split

theorem startRecovery_kept {k0 : Base} {s : State} (h : s.Kept k0) (p : Port) : (State.startRecovery s p).Kept k0 := by
  unfold State.startRecovery
  repeat' first
    | with_reducible assumption
    | with_reducible apply modPort_kept
    | with_reducible apply ite_kept

theorem protoException_kept {k0 : Base} {s : State} (h : s.Kept k0) (p : Port) : (State.protoException s p).Kept k0 := by
  unfold State.protoException
  repeat' first
    | with_reducible assumption
    | with_reducible apply modBufs_kept
    | with_reducible apply modPort_kept

theorem modRoster_kept {k0 : Base} {s : State} (h : s.Kept k0) (f : List (Nat × RosterEntry) → List (Nat × RosterEntry))
    (hf : s.roster.Inv → Rising 0 (f s.roster.entries) ∧ (f s.roster.entries).length ≤ 2048) : (State.modRoster s f).Kept k0 := by
  obtain ⟨b1, b2, b3, h1, h2, h3, h4, h5, h6⟩ := h
  exact ⟨b1, b2, b3, h1, h2, h3, h4, hf h5, h6⟩

/-- Entries changed in place. -/
theorem mapRoster_kept {k0 : Base} {s : State} (h : s.Kept k0) (f : Nat × RosterEntry → Nat × RosterEntry) (hf : ∀ e, (f e).1 = e.1) :
    (s.modRoster fun l => l.map f).Kept k0 :=
  modRoster_kept h _ fun hr => ⟨hr.1.map f hf, by simpa using hr.2⟩

theorem modFullAt_kept {k0 : Base} {s : State} (h : s.Kept k0) (t : Option Nat) :
    ({ s with roster := { s.roster with fullAt := t } } : State).Kept k0 := h

theorem oldestEntry_mem {l : List (Nat × RosterEntry)} {e : Nat × RosterEntry} (h : oldestEntry l = some e) : e ∈ l := by
  induction l generalizing e with
  | nil => cases h
  | cons p r ih =>
    simp only [oldestEntry] at h
    split at h
    · cases h; exact List.mem_cons_self ..
    · next f hf =>
      split at h
      · cases h; exact List.mem_cons_of_mem _ (ih hf)
      · cases h; exact List.mem_cons_self ..

theorem countFrame_kept {k0 : Base} {s : State} (h : s.Kept k0) (p : Port) (f : CanFrame) (stamp : Nat) : (State.countFrame s p f stamp).Kept k0 := by
  unfold State.countFrame
  extract_lets node seen fresh l
  split
  · refine mapRoster_kept h _ fun e => ?_
    dsimp only
    split
    · next he => exact he.symm
    · rfl
  · refine ite_kept' (fun hl => ?_) fun hl => ?_
    · exact modRoster_kept h _ fun hr => ⟨sins_rising _ _ hr.1 (Nat.zero_le _), Nat.le_trans (sins_length_le ..) hl⟩
    · split
      · exact h
      · next e he =>
        refine ite_kept ?_ ?_
        · exact modRoster_kept h _ fun hr => ⟨sins_rising _ _ hr.1 (Nat.zero_le _),
            (sins_length_of_mem fresh hr.1 (oldestEntry_mem he)).symm ▸ hr.2⟩
        · extract_lets
          exact ite_kept h (logEvent_kept (modFullAt_kept h _) ..)

theorem setDup_kept {k0 : Base} {s : State} (h : s.Kept k0) (p : Port) (id : BitVec 29) (on : Bool) : (State.setDup s p id on).Kept k0 := by
  unfold State.setDup
  repeat' first
    | with_reducible assumption
    | (extract_lets +onlyGivenNames x
       have hx : State.Kept k0 x := by
        unfold x
        repeat' first
          | with_reducible assumption
          | with_reducible apply mapRoster_kept
          | (intro e; dsimp only; split <;> simp_all)
          | with_reducible apply ite_kept
          | (extract_lets +onlyGivenNames y; clear_value y)
                | (extract_lets +onlyGivenNames y; subst y)
       clear_value x)
    | (extract_lets +onlyGivenNames x; clear_value x)
    | (extract_lets +onlyGivenNames x; subst x)
    | with_reducible apply mapRoster_kept
    | (intro e; dsimp only; split <;> simp_all)
    | with_reducible apply ite_kept

theorem trackError_kept {k0 : Base} {s : State} (h : s.Kept k0) (p : Port) (ide : Bool) (id : BitVec 29) : (State.trackError s p ide id).Kept k0 := by
  unfold State.trackError
  repeat' first
    | with_reducible assumption
    | (extract_lets +onlyGivenNames x
       have hx : State.Kept k0 x := by
        unfold x
        repeat' first
          | with_reducible assumption
          | with_reducible apply logEvent_kept
          | with_reducible apply modBufs_kept
          | with_reducible apply modPort_kept
          | with_reducible apply setDup_kept
          | with_reducible apply mapRoster_kept
          | (intro e; dsimp only; split <;> simp_all)
          | with_reducible apply ite_kept
          | split
          | (extract_lets +onlyGivenNames y; have : ∀ z : State, State.Kept k0 (y z) ∨ True := (fun _ => .inr trivial); clear this; subst y)
                | (extract_lets +onlyGivenNames y; have : ∀ (z : State) b, State.Kept k0 (y z b) ∨ True := (fun _ _ => .inr trivial); clear this; subst y)
                | (extract_lets +onlyGivenNames y; clear_value y)
                | (extract_lets +onlyGivenNames y; subst y)
       clear_value x)
    | (extract_lets +onlyGivenNames x; have : ∀ z : State, State.Kept k0 (x z) ∨ True := (fun _ => .inr trivial); clear this; subst x)
    | (extract_lets +onlyGivenNames x; have : ∀ (z : State) b, State.Kept k0 (x z b) ∨ True := (fun _ _ => .inr trivial); clear this; subst x)
    | (extract_lets +onlyGivenNames x; clear_value x)
    | (extract_lets +onlyGivenNames x; subst x)
    | with_reducible apply logEvent_kept
    | with_reducible apply modBufs_kept
    | with_reducible apply modPort_kept
    | with_reducible apply setDup_kept
    | with_reducible apply mapRoster_kept
    | (intro e; dsimp only; split <;> simp_all)
    | with_reducible apply ite_kept
    | split

theorem enterBusOff_kept {k0 : Base} {s : State} (h : s.Kept k0) (p : Port) (tec : Nat) : (State.enterBusOff s p tec).Kept k0 := by
  unfold State.enterBusOff
  repeat' first
    | with_reducible assumption
    | with_reducible apply logEvent_kept
    | with_reducible apply modBufs_kept
    | with_reducible apply modPort_kept
    | with_reducible apply ite_kept

theorem endAborts_kept {k0 : Base} {s : State} (h : s.Kept k0) (p : Port) : (State.endAborts s p).Kept k0 := by
  unfold State.endAborts
  repeat' first
    | with_reducible assumption
    | (extract_lets +onlyGivenNames x
       have hx : State.Kept k0 x := by
        unfold x
        repeat' first
          | with_reducible assumption
          | with_reducible apply modBufs_kept
          | with_reducible apply modPort_kept
          | with_reducible apply foldl_kept
          | (intro z b hz; beta_reduce)
          | (extract_lets +onlyGivenNames y; clear_value y)
                | (extract_lets +onlyGivenNames y; subst y)
       clear_value x)
    | (extract_lets +onlyGivenNames x; clear_value x)
    | (extract_lets +onlyGivenNames x; subst x)
    | with_reducible apply modBufs_kept
    | with_reducible apply modPort_kept
    | with_reducible apply foldl_kept
    | (intro z b hz; beta_reduce)

theorem appendQueue_kept {k0 : Base} {s : State} (h : s.Kept k0) (p : Port) (second : Bool) (e : QueueEntry) : (State.appendQueue s p second e).Kept k0 := by
  unfold State.appendQueue
  repeat' first
    | with_reducible assumption
    | (extract_lets +onlyGivenNames x
       have hx : State.Kept k0 x := by
        unfold x
        repeat' first
          | with_reducible assumption
          | with_reducible apply modBufs_kept
          | with_reducible apply modPort_kept
          | with_reducible apply ite_kept
          | (extract_lets +onlyGivenNames y; have : ∀ z : State, State.Kept k0 (y z) ∨ True := (fun _ => .inr trivial); clear this; subst y)
                | (extract_lets +onlyGivenNames y; have : ∀ (z : State) b, State.Kept k0 (y z b) ∨ True := (fun _ _ => .inr trivial); clear this; subst y)
                | (extract_lets +onlyGivenNames y; clear_value y)
                | (extract_lets +onlyGivenNames y; subst y)
       clear_value x)
    | (extract_lets +onlyGivenNames x; have : ∀ z : State, State.Kept k0 (x z) ∨ True := (fun _ => .inr trivial); clear this; subst x)
    | (extract_lets +onlyGivenNames x; have : ∀ (z : State) b, State.Kept k0 (x z b) ∨ True := (fun _ _ => .inr trivial); clear this; subst x)
    | (extract_lets +onlyGivenNames x; clear_value x)
    | (extract_lets +onlyGivenNames x; subst x)
    | with_reducible apply modBufs_kept
    | with_reducible apply modPort_kept
    | with_reducible apply ite_kept

theorem routeFrame_kept {k0 : Base} {s : State} (h : s.Kept k0) (p : Port) (f : CanFrame) (stamp : Nat) : (State.routeFrame s p f stamp).Kept k0 := by
  unfold State.routeFrame
  repeat' first
    | with_reducible assumption
    | (extract_lets +onlyGivenNames x
       have hx : State.Kept k0 x := by
        unfold x
        repeat' first
          | with_reducible assumption
          | with_reducible apply appendQueue_kept
          | split
          | (extract_lets +onlyGivenNames y; clear_value y)
                | (extract_lets +onlyGivenNames y; subst y)
       clear_value x)
    | (extract_lets +onlyGivenNames x; clear_value x)
    | (extract_lets +onlyGivenNames x; subst x)
    | with_reducible apply appendQueue_kept
    | split

theorem setPartial_kept {k0 : Base} {s : State} (h : s.Kept k0) (p : Port) (k : Fin 8) (x : Option Partial) : (State.setPartial s p k x).Kept k0 := by
  unfold State.setPartial
  repeat' first
    | with_reducible assumption
    | with_reducible apply modBufs_kept

theorem dropPartial_kept {k0 : Base} {s : State} (h : s.Kept k0) (p : Port) (k : Fin 8) : (State.dropPartial s p k).Kept k0 := by
  unfold State.dropPartial
  repeat' first
    | with_reducible assumption
    | (extract_lets +onlyGivenNames x
       have hx : State.Kept k0 x := by
        unfold x
        repeat' first
          | with_reducible assumption
          | with_reducible apply emit_kept
          | with_reducible apply setPartial_kept
          | split
          | (extract_lets +onlyGivenNames y; clear_value y)
                | (extract_lets +onlyGivenNames y; subst y)
       clear_value x)
    | (extract_lets +onlyGivenNames x; clear_value x)
    | (extract_lets +onlyGivenNames x; subst x)
    | with_reducible apply emit_kept
    | with_reducible apply setPartial_kept
    | split

theorem arriveSentence_kept {k0 : Base} {s : State} (h : s.Kept k0) (p : Port) (k : Fin 8) (bytes : List Byte) : (State.arriveSentence s p k bytes).Kept k0 := by
  unfold State.arriveSentence
  repeat' first
    | with_reducible assumption
    | exact fun hm => hm
    | exact fun _ hq => hq
    | with_reducible apply modMail_kept

theorem segment_kept {k0 : Base} {s : State} (h : s.Kept k0) (p : Port) (k : Fin 8) (data : List Byte) : (State.segment s p k data).Kept k0 := by
  unfold State.segment
  repeat' first
    | with_reducible assumption
    | (extract_lets +onlyGivenNames x
       have hx : State.Kept k0 x := by
        unfold x
        repeat' first
          | with_reducible assumption
          | with_reducible apply AState.num_kept
          | with_reducible apply CState.num_kept
          | with_reducible apply SState.num_kept
          | with_reducible apply SlotState.num_kept
          | with_reducible apply TxState.num_kept
          | with_reducible apply YState.num_kept
          | with_reducible apply arriveSentence_kept
          | with_reducible apply dropPartial_kept
          | with_reducible apply setPartial_kept
          | with_reducible apply ite_kept
          | split
          | (extract_lets +onlyGivenNames y; clear_value y)
                | (extract_lets +onlyGivenNames y; subst y)
       clear_value x)
    | (extract_lets +onlyGivenNames x; clear_value x)
    | (extract_lets +onlyGivenNames x; subst x)
    | with_reducible apply AState.num_kept
    | with_reducible apply CState.num_kept
    | with_reducible apply SState.num_kept
    | with_reducible apply SlotState.num_kept
    | with_reducible apply TxState.num_kept
    | with_reducible apply YState.num_kept
    | with_reducible apply arriveSentence_kept
    | with_reducible apply dropPartial_kept
    | with_reducible apply setPartial_kept
    | with_reducible apply ite_kept
    | split

theorem sessionFrame_kept {k0 : Base} {s : State} (h : s.Kept k0) (p : Port) (k : Fin 8) (f : CanFrame) : (State.sessionFrame s p k f).Kept k0 := by
  unfold State.sessionFrame
  repeat' first
    | with_reducible assumption
    | with_reducible apply arriveSentence_kept
    | with_reducible apply dropPartial_kept
    | with_reducible apply segment_kept
    | with_reducible apply ite_kept

theorem creditReceiver_kept {k0 : Base} {s : State} (h : s.Kept k0) (p : Port) : (State.creditReceiver s p).Kept k0 := by
  unfold State.creditReceiver
  repeat' first
    | with_reducible assumption
    | with_reducible apply drawn_kept
    | with_reducible apply modPort_kept
    | with_reducible apply ite_kept

theorem ackQueues_kept {k0 : Base} {s : State} (h : s.Kept k0) (p : Port) (n0 : Nat) (n1 : Nat) : (State.ackQueues s p n0 n1).Kept k0 := by
  unfold State.ackQueues
  repeat' first
    | with_reducible assumption
    | with_reducible apply modBufs_kept

theorem modTx_kept {k0 : Base} {s : State} (h : s.Kept k0) (p : Port) (i : Fin 3) (f : TxBuf → TxBuf) : (State.modTx s p i f).Kept k0 := by
  unfold State.modTx
  repeat' first
    | with_reducible assumption
    | with_reducible apply modBufs_kept

theorem requestTx_kept {k0 : Base} {s : State} (h : s.Kept k0) (p : Port) (i : Fin 3) : (State.requestTx s p i).Kept k0 := by
  unfold State.requestTx
  repeat' first
    | with_reducible assumption
    | with_reducible apply modPort_kept
    | with_reducible apply modTx_kept
    | with_reducible apply ite_kept
    | split

theorem abortTx_kept {k0 : Base} {s : State} (h : s.Kept k0) (p : Port) (i : Fin 3) : (State.abortTx s p i).Kept k0 := by
  unfold State.abortTx
  repeat' first
    | with_reducible assumption
    | with_reducible apply modPort_kept
    | with_reducible apply modTx_kept
    | split

theorem writeTxreq_kept {k0 : Base} {s : State} (h : s.Kept k0) (p : Port) (req : Nat) (abort : Nat) : (State.writeTxreq s p req abort).Kept k0 := by
  unfold State.writeTxreq
  repeat' first
    | with_reducible assumption
    | with_reducible apply abortTx_kept
    | with_reducible apply requestTx_kept
    | with_reducible apply foldl_kept
    | (intro z b hz; beta_reduce)
    | with_reducible apply ite_kept

theorem ownTxb2_kept {k0 : Base} {s : State} (h : s.Kept k0) (p : Port) : (State.ownTxb2 s p).Kept k0 := by
  unfold State.ownTxb2
  repeat' first
    | with_reducible assumption
    | (extract_lets +onlyGivenNames x
       have hx : State.Kept k0 x := by
        unfold x
        repeat' first
          | with_reducible assumption
          | with_reducible apply modTx_kept
          | with_reducible apply ite_kept
          | (extract_lets +onlyGivenNames y; clear_value y)
                | (extract_lets +onlyGivenNames y; subst y)
       clear_value x)
    | (extract_lets +onlyGivenNames x; clear_value x)
    | (extract_lets +onlyGivenNames x; subst x)
    | with_reducible apply modTx_kept
    | with_reducible apply ite_kept

theorem takeTdcv_kept {k0 : Base} {s : State} (h : s.Kept k0) (p : Port) (v : Nat) : (State.takeTdcv s p v).Kept k0 := by
  unfold State.takeTdcv
  repeat' first
    | with_reducible assumption
    | with_reducible apply modPort_kept
    | with_reducible apply ite_kept

end Sys2Proof.Machine.State
end

