-- ==== Sys2Proof/Laws/KeptCascade.lean ====
section
/-! SUPPORT. Every operation of Machine/Cascade.lean keeps what Laws/Kept.lean names. -/

set_option Elab.async false

set_option linter.unusedTactic false
set_option linter.unreachableTactic false

namespace Sys2Proof.Machine.State

theorem breakDir_kept {k0 : Base} {s : State} (h : s.Kept k0) (d : CxDir) : (State.breakDir s d).Kept k0 := by
  unfold State.breakDir
  repeat' first
    | with_reducible assumption
    | (extract_lets +onlyGivenNames x
       have hx : State.Kept k0 x := by
        unfold x
        repeat' first
          | with_reducible assumption
          | with_reducible apply logEvent_kept
          | with_reducible apply modCascade_kept
          | with_reducible apply ite_kept
          | split
          | (extract_lets +onlyGivenNames y; subst y)
          | with_reducible apply mk_kept
       clear_value x)
    | (extract_lets +onlyGivenNames x; subst x)
    | with_reducible apply logEvent_kept
    | with_reducible apply modCascade_kept
    | with_reducible apply ite_kept
    | split
    | with_reducible apply mk_kept

theorem takeSync_kept {k0 : Base} {s : State} (h : s.Kept k0) (tick : Nat) (master : Fin 8) (epoch : Byte) : (State.takeSync s tick master epoch).Kept k0 := by
  unfold State.takeSync
  repeat' first
    | with_reducible assumption
    | (extract_lets +onlyGivenNames x
       have hx : State.Kept k0 x := by
        unfold x
        repeat' first
          | with_reducible assumption
          | with_reducible apply ite_kept
          | split
          | (extract_lets +onlyGivenNames y; subst y)
          | with_reducible apply mk_kept
       clear_value x)
    | (extract_lets +onlyGivenNames x; subst x)
    | with_reducible apply ite_kept
    | split
    | with_reducible apply mk_kept

theorem steer_kept {k0 : Base} {s : State} (h : s.Kept k0) (early : Int) : (State.steer s early).Kept k0 := by
  unfold State.steer
  repeat' first
    | with_reducible assumption
    | (extract_lets +onlyGivenNames x
       have hx : State.Kept k0 x := by
        unfold x
        repeat' first
          | with_reducible assumption
          | with_reducible apply modCascade_kept
          | (extract_lets +onlyGivenNames y; clear_value y)
                | (extract_lets +onlyGivenNames y; subst y)
       clear_value x)
    | (extract_lets +onlyGivenNames x; clear_value x)
    | (extract_lets +onlyGivenNames x; subst x)
    | with_reducible apply modCascade_kept

theorem takeExchange_kept {k0 : Base} {s : State} (h : s.Kept k0) (src : Fin 8) (span : Fin 32) (sample : Word) (values : List Int) (kappas : List Nat) (emerg : Bool) (stop : Bool) : (State.takeExchange s src span sample values kappas emerg stop).Kept k0 := by
  unfold State.takeExchange
  repeat' first
    | with_reducible assumption
    | exact fun hm => hm
    | exact fun _ hq => hq
    | with_reducible apply modGroup_kept
    | with_reducible apply eachFin_kept
    | (intro z b hz; beta_reduce)
    | with_reducible apply ite_kept
    | split
    | (intro _ _; (try dsimp only); split)

theorem takePacket_kept {k0 : Base} {s : State} (h : s.Kept k0) (p : CxPacket) : (State.takePacket s p).Kept k0 := by
  unfold State.takePacket
  repeat' first
    | with_reducible assumption
    | with_reducible apply modCascade_kept
    | with_reducible apply takeExchange_kept
    | with_reducible apply takeSync_kept
    | split

theorem badPacket_kept {k0 : Base} {s : State} (h : s.Kept k0) (d : CxDir) : (State.badPacket s d).Kept k0 := by
  unfold State.badPacket
  repeat' first
    | with_reducible assumption
    | (extract_lets +onlyGivenNames x
       have hx : State.Kept k0 x := by
        unfold x
        repeat' first
          | with_reducible assumption
          | with_reducible apply breakDir_kept
          | with_reducible apply modCascade_kept
          | with_reducible apply ite_kept
          | split
          | (extract_lets +onlyGivenNames y; have : ∀ z : State, State.Kept k0 (y z) ∨ True := (fun _ => .inr trivial); clear this; subst y)
                | (extract_lets +onlyGivenNames y; have : ∀ (z : State) b, State.Kept k0 (y z b) ∨ True := (fun _ _ => .inr trivial); clear this; subst y)
                | (extract_lets +onlyGivenNames y; clear_value y)
                | (extract_lets +onlyGivenNames y; subst y)
       clear_value x)
    | (extract_lets +onlyGivenNames x; have : ∀ z : State, State.Kept k0 (x z) ∨ True := (fun _ => .inr trivial); clear this; subst x)
    | (extract_lets +onlyGivenNames x; have : ∀ (z : State) b, State.Kept k0 (x z b) ∨ True := (fun _ _ => .inr trivial); clear this; subst x)
    | (extract_lets +onlyGivenNames x; clear_value x)
    | (extract_lets +onlyGivenNames x; subst x)
    | with_reducible apply breakDir_kept
    | with_reducible apply modCascade_kept
    | with_reducible apply ite_kept
    | split

end Sys2Proof.Machine.State
end

