-- ==== Sys2Proof/Laws/KeptFeedback.lean ====
section
/-! SUPPORT. Every operation of Machine/Feedback.lean keeps what Laws/Kept.lean names. -/

set_option Elab.async false

set_option linter.unusedTactic false
set_option linter.unreachableTactic false

namespace Sys2Proof.Machine.State

theorem invalidate_kept {k0 : Base} {s : State} (h : s.Kept k0) (n : FbNo) (cause : Fin 4) : (State.invalidate s n cause).Kept k0 := by
  unfold State.invalidate
  repeat' first
    | with_reducible assumption
    | with_reducible apply logEvent_kept
    | with_reducible apply modFb_kept
    | with_reducible apply ite_kept

theorem badIndex_kept {k0 : Base} {s : State} (h : s.Kept k0) (n : FbNo) (dev : Int) : (State.badIndex s n dev).Kept k0 := by
  unfold State.badIndex
  repeat' first
    | with_reducible assumption
    | (extract_lets +onlyGivenNames x
       have hx : State.Kept k0 x := by
        unfold x
        repeat' first
          | with_reducible assumption
          | with_reducible apply invalidate_kept
          | with_reducible apply logEvent_kept
          | with_reducible apply modFb_kept
          | with_reducible apply ite_kept
          | (extract_lets +onlyGivenNames y; clear_value y)
                | (extract_lets +onlyGivenNames y; subst y)
       clear_value x)
    | (extract_lets +onlyGivenNames x; clear_value x)
    | (extract_lets +onlyGivenNames x; subst x)
    | with_reducible apply invalidate_kept
    | with_reducible apply logEvent_kept
    | with_reducible apply modFb_kept
    | with_reducible apply ite_kept

theorem indexEvent_kept {k0 : Base} {s : State} (h : s.Kept k0) (n : FbNo) (idx : Int) : (State.indexEvent s n idx).Kept k0 := by
  unfold State.indexEvent
  repeat' first
    | with_reducible assumption
    | (extract_lets +onlyGivenNames x
       have hx : State.Kept k0 x := by
        unfold x
        repeat' first
          | with_reducible assumption
          | with_reducible apply badIndex_kept
          | with_reducible apply modFb_kept
          | with_reducible apply ite_kept
          | (extract_lets +onlyGivenNames y; clear_value y)
                | (extract_lets +onlyGivenNames y; subst y)
       clear_value x)
    | (extract_lets +onlyGivenNames x; clear_value x)
    | (extract_lets +onlyGivenNames x; subst x)
    | with_reducible apply badIndex_kept
    | with_reducible apply modFb_kept
    | with_reducible apply ite_kept

theorem testMissed_kept {k0 : Base} {s : State} (h : s.Kept k0) (n : FbNo) : (State.testMissed s n).Kept k0 := by
  unfold State.testMissed
  repeat' first
    | with_reducible assumption
    | (extract_lets +onlyGivenNames x
       have hx : State.Kept k0 x := by
        unfold x
        repeat' first
          | with_reducible assumption
          | with_reducible apply badIndex_kept
          | with_reducible apply modFb_kept
          | with_reducible apply ite_kept
          | split
          | (extract_lets +onlyGivenNames y; clear_value y)
                | (extract_lets +onlyGivenNames y; subst y)
       clear_value x)
    | (extract_lets +onlyGivenNames x; clear_value x)
    | (extract_lets +onlyGivenNames x; subst x)
    | with_reducible apply badIndex_kept
    | with_reducible apply modFb_kept
    | with_reducible apply ite_kept
    | split

theorem illegalStep_kept {k0 : Base} {s : State} (h : s.Kept k0) (n : FbNo) : (State.illegalStep s n).Kept k0 := by
  unfold State.illegalStep
  repeat' first
    | with_reducible assumption
    | (extract_lets +onlyGivenNames x
       have hx : State.Kept k0 x := by
        unfold x
        repeat' first
          | with_reducible assumption
          | with_reducible apply invalidate_kept
          | with_reducible apply modFb_kept
          | with_reducible apply ite_kept
          | (extract_lets +onlyGivenNames y; clear_value y)
                | (extract_lets +onlyGivenNames y; subst y)
       clear_value x)
    | (extract_lets +onlyGivenNames x; clear_value x)
    | (extract_lets +onlyGivenNames x; subst x)
    | with_reducible apply invalidate_kept
    | with_reducible apply modFb_kept
    | with_reducible apply ite_kept

theorem encoderStep_kept {k0 : Base} {s : State} (h : s.Kept k0) (n : FbNo) (sgn : Int) (t : Int) (cd6 : Nat) (z : Bool) (isIdx : Bool) : (State.encoderStep s n sgn t cd6 z isIdx).Kept k0 := by
  unfold State.encoderStep
  repeat' first
    | with_reducible assumption
    | (extract_lets +onlyGivenNames x
       have hx : State.Kept k0 x := by
        unfold x
        repeat' first
          | with_reducible assumption
          | with_reducible apply gffCompare_kept
          | with_reducible apply indexEvent_kept
          | with_reducible apply modFb_kept
          | with_reducible apply testMissed_kept
          | with_reducible apply ite_kept
          | split
          | (extract_lets +onlyGivenNames y; clear_value y)
                | (extract_lets +onlyGivenNames y; subst y)
       clear_value x)
    | (extract_lets +onlyGivenNames x; clear_value x)
    | (extract_lets +onlyGivenNames x; subst x)
    | with_reducible apply gffCompare_kept
    | with_reducible apply indexEvent_kept
    | with_reducible apply modFb_kept
    | with_reducible apply testMissed_kept
    | with_reducible apply ite_kept
    | split

theorem latchFeedback_kept {k0 : Base} {s : State} (h : s.Kept k0)  : (State.latchFeedback s).Kept k0 := by
  unfold State.latchFeedback
  repeat' first
    | with_reducible assumption
    | (extract_lets +onlyGivenNames x
       have hx : State.Kept k0 x := by
        unfold x
        repeat' first
          | with_reducible assumption
          | with_reducible apply latched_kept
          | with_reducible apply modFb_kept
          | with_reducible apply eachFin_kept
          | (intro z b hz; beta_reduce)
          | with_reducible apply ite_kept
          | (extract_lets +onlyGivenNames y; have : ∀ z : State, State.Kept k0 (y z) ∨ True := (fun _ => .inr trivial); clear this; subst y)
                | (extract_lets +onlyGivenNames y; have : ∀ (z : State) b, State.Kept k0 (y z b) ∨ True := (fun _ _ => .inr trivial); clear this; subst y)
                | (extract_lets +onlyGivenNames y; subst y)
          | with_reducible apply mk_kept
       clear_value x)
    | (extract_lets +onlyGivenNames x; have : ∀ z : State, State.Kept k0 (x z) ∨ True := (fun _ => .inr trivial); clear this; subst x)
    | (extract_lets +onlyGivenNames x; have : ∀ (z : State) b, State.Kept k0 (x z b) ∨ True := (fun _ _ => .inr trivial); clear this; subst x)
    | (extract_lets +onlyGivenNames x; subst x)
    | with_reducible apply latched_kept
    | with_reducible apply modFb_kept
    | with_reducible apply eachFin_kept
    | (intro z b hz; beta_reduce)
    | with_reducible apply ite_kept
    | with_reducible apply mk_kept

theorem presetUnit_kept {k0 : Base} {s : State} (h : s.Kept k0) (n : FbNo) : (State.presetUnit s n).Kept k0 := by
  unfold State.presetUnit
  repeat' first
    | with_reducible assumption
    | (extract_lets +onlyGivenNames x
       have hx : State.Kept k0 x := by
        unfold x
        repeat' first
          | with_reducible assumption
          | with_reducible apply modFb_kept
          | with_reducible apply ite_kept
          | (extract_lets +onlyGivenNames y; clear_value y)
                | (extract_lets +onlyGivenNames y; subst y)
       clear_value x)
    | (extract_lets +onlyGivenNames x; clear_value x)
    | (extract_lets +onlyGivenNames x; subst x)
    | with_reducible apply modFb_kept
    | with_reducible apply ite_kept

theorem rearmUnit_kept {k0 : Base} {s : State} (h : s.Kept k0) (n : FbNo) : (State.rearmUnit s n).Kept k0 := by
  unfold State.rearmUnit
  repeat' first
    | with_reducible assumption
    | with_reducible apply modFb_kept
    | with_reducible apply ite_kept

theorem writeCompare_kept {k0 : Base} {s : State} (h : s.Kept k0) (n : FbNo) (v : Int) : (State.writeCompare s n v).Kept k0 := by
  unfold State.writeCompare
  repeat' first
    | with_reducible assumption
    | with_reducible apply modFb_kept

theorem switchTurn_kept {k0 : Base} {s : State} (h : s.Kept k0) (i : Fin 24) (cd6 : Nat) : (State.switchTurn s i cd6).Kept k0 := by
  unfold State.switchTurn
  repeat' first
    | with_reducible assumption
    | (extract_lets +onlyGivenNames x
       have hx : State.Kept k0 x := by
        unfold x
        repeat' first
          | with_reducible assumption
          | with_reducible apply gffSwitch_kept
          | with_reducible apply logEvent_kept
          | with_reducible apply ite_kept
          | split
          | (extract_lets +onlyGivenNames y; subst y)
          | with_reducible apply mk_kept
       clear_value x)
    | (extract_lets +onlyGivenNames x; subst x)
    | with_reducible apply gffSwitch_kept
    | with_reducible apply logEvent_kept
    | with_reducible apply ite_kept
    | split
    | with_reducible apply mk_kept

theorem switchBit_kept {k0 : Base} {s : State} (h : s.Kept k0) (i : Fin 24) (raw : Bool) (cd6 : Nat) : (State.switchBit s i raw cd6).Kept k0 := by
  unfold State.switchBit
  repeat' first
    | with_reducible assumption
    | (extract_lets +onlyGivenNames x
       have hx : State.Kept k0 x := by
        unfold x
        repeat' first
          | with_reducible assumption
          | with_reducible apply switchTurn_kept
          | with_reducible apply ite_kept
          | (extract_lets +onlyGivenNames y; subst y)
          | with_reducible apply mk_kept
       clear_value x)
    | (extract_lets +onlyGivenNames x; subst x)
    | with_reducible apply switchTurn_kept
    | with_reducible apply ite_kept
    | with_reducible apply mk_kept

theorem keepStep_kept {k0 : Base} {s : State} (h : s.Kept k0) (e : Fin 4) (o : Bool × Bool) (n : Bool × Bool) : (State.keepStep s e o n).Kept k0 := by
  unfold State.keepStep
  repeat' first
    | with_reducible assumption
    | (extract_lets +onlyGivenNames x
       have hx : State.Kept k0 x := by
        unfold x
        repeat' first
          | with_reducible assumption
          | with_reducible apply ite_kept
          | split
          | exact rfl
          | (extract_lets +onlyGivenNames y; subst y)
          | with_reducible apply mk_keep_kept
       clear_value x)
    | (extract_lets +onlyGivenNames x; subst x)
    | with_reducible apply ite_kept
    | split
    | exact rfl
    | with_reducible apply mk_keep_kept

theorem keepSample_kept {k0 : Base} {s : State} (h : s.Kept k0) (e : Fin 4) (a : Bool) (b : Bool) : (State.keepSample s e a b).Kept k0 := by
  unfold State.keepSample
  repeat' first
    | with_reducible assumption
    | (extract_lets +onlyGivenNames x
       have hx : State.Kept k0 x := by
        unfold x
        repeat' first
          | with_reducible assumption
          | with_reducible apply keepStep_kept
          | split
          | exact rfl
          | (extract_lets +onlyGivenNames y; subst y)
          | with_reducible apply mk_keep_kept
       clear_value x)
    | (extract_lets +onlyGivenNames x; subst x)
    | with_reducible apply keepStep_kept
    | split
    | exact rfl
    | with_reducible apply mk_keep_kept

theorem resumeUnit_kept {k0 : Base} {s : State} (h : s.Kept k0) (e : Fin 4) (a : Bool) (b : Bool) : (State.resumeUnit s e a b).Kept k0 := by
  unfold State.resumeUnit
  repeat' first
    | with_reducible assumption
    | (extract_lets +onlyGivenNames x
       have hx : State.Kept k0 x := by
        unfold x
        repeat' first
          | with_reducible assumption
          | with_reducible apply keepStep_kept
          | with_reducible apply modFb_kept
          | with_reducible apply ite_kept
          | split
          | (extract_lets +onlyGivenNames y; clear_value y)
                | (extract_lets +onlyGivenNames y; subst y)
       clear_value x)
    | (extract_lets +onlyGivenNames x; clear_value x)
    | (extract_lets +onlyGivenNames x; subst x)
    | with_reducible apply keepStep_kept
    | with_reducible apply modFb_kept
    | with_reducible apply ite_kept
    | split

end Sys2Proof.Machine.State
end

