-- ==== Sys2Proof/Laws/KeptCycle.lean ====
section
/-! SUPPORT. Every operation of Machine/Cycle.lean keeps what Laws/Kept.lean names. -/

set_option Elab.async false

set_option linter.unusedTactic false
set_option linter.unreachableTactic false

namespace Sys2Proof.Machine.State

theorem advanceSwap_kept {k0 : Base} {s : State} (h : s.Kept k0) (g : Grp) : (State.advanceSwap s g).Kept k0 := by
  unfold State.advanceSwap
  repeat' first
    | with_reducible assumption
    | exact fun hm => hm
    | exact fun _ hq => hq
    | with_reducible apply modGroup_kept
    | with_reducible apply ite_kept
    | split
    | (intro _ _; (try dsimp only); split)

theorem storeWord_kept {k0 : Base} {s : State} (h : s.Kept k0) (k : Nat) (v : Word) : (State.storeWord s k v).Kept k0 :=
  engines_kept h _ fun he => ⟨sput_canon _ _ he.1, sput_canon _ _ he.2⟩

/-- The head of a queue leaves it. -/
theorem popQueue_kept {k0 : Base} {s : State} (h : s.Kept k0) (g : Grp) {e : QEntry} {rest : List QEntry} (he : (s.groups[g]).queue = e :: rest)
    (z : State) (hz : z.Kept k0) (f : Group → Group) (hf : ∀ q, (f q).queue = rest) : (z.modGroup g f).Kept k0 := by
  refine modGroup_kept hz _ _ fun q _ => ?_
  have : ((s.groups[g]).queue).length ≤ 256 := h.inv.2.2.2.2.2.2.2.2.2 g
  simp only [Group.Inv, hf]
  simp only [he, List.length_cons] at this
  omega

theorem handOver_kept {k0 : Base} {s : State} (h : s.Kept k0) (g : Grp) : (State.handOver s g).Kept k0 := by
  unfold State.handOver
  extract_lets
  split
  · exact h
  · next he =>
    have h1 := fun z hz f hf => popQueue_kept h g he z hz f hf
    extract_lets
    refine advanceSwap_kept ?_ _
    next v _ rest _ _ bank s1 s2 =>
    have hs : State.Kept k0 s1 := by
      unfold s1
      with_reducible apply modTicket_kept
      · with_reducible apply h1
        · exact storeWord_kept h ..
        · exact fun _ => rfl
      · exact fun _ hk => hk
      · exact fun _ => rfl
    clear_value s1
    exact ite_kept hs (ite_kept (modGroup_kept hs _ _ fun _ hq => hq) (finish_kept hs ..))
  · next he =>
    have h1 := fun z hz f hf => popQueue_kept h g he z hz f hf
    refine ite_kept ?_ (advanceSwap_kept h _)
    extract_lets s1 s2
    have hs : State.Kept k0 s1 := by
      unfold s1
      with_reducible apply h1
      · exact h
      · exact fun _ => rfl
    clear_value s1
    have hs2 : State.Kept k0 s2 := by
      unfold s2
      with_reducible apply ite_kept
      · with_reducible apply modGroup_kept
        · exact hs
        · exact fun _ hq => hq
      · with_reducible apply finish_kept
        with_reducible apply modGroup_kept
        · exact hs
        · exact fun _ hq => hq
    exact advanceSwap_kept hs2 _

theorem tryMode_kept {k0 : Base} {s : State} (h : s.Kept k0) (m : Main) (t : Nat) (code : Nat) : (State.tryMode s m t code).Kept k0 := by
  unfold State.tryMode
  repeat' first
    | with_reducible assumption
    | (extract_lets +onlyGivenNames x
       have hx : State.Kept k0 x := by
        unfold x
        repeat' first
          | with_reducible assumption
          | with_reducible apply finish_kept
          | with_reducible apply modEng_kept
          | with_reducible apply present_kept
          | with_reducible apply ite_kept
          | split
          | (extract_lets +onlyGivenNames y; clear_value y)
                | (extract_lets +onlyGivenNames y; subst y)
       clear_value x)
    | (extract_lets +onlyGivenNames x; clear_value x)
    | (extract_lets +onlyGivenNames x; subst x)
    | with_reducible apply finish_kept
    | with_reducible apply modEng_kept
    | with_reducible apply present_kept
    | with_reducible apply ite_kept
    | split

theorem newMode_kept {k0 : Base} {s : State} (h : s.Kept k0) (m : Main) (t : Nat) (code : Nat) : (State.newMode s m t code).Kept k0 := by
  unfold State.newMode
  repeat' first
    | with_reducible assumption
    | with_reducible apply finishOpt_kept
    | with_reducible apply tryMode_kept

theorem retryModes_kept {k0 : Base} {s : State} (h : s.Kept k0) (g : Grp) : (State.retryModes s g).Kept k0 := by
  unfold State.retryModes
  repeat' first
    | with_reducible assumption
    | with_reducible apply tryMode_kept
    | with_reducible apply foldl_kept
    | (intro z b hz; beta_reduce)
    | split

theorem takeNoun_kept {k0 : Base} {s : State} (h : s.Kept k0) (id : Nat) (v : Int) : (State.takeNoun s id v).Kept k0 := by
  unfold State.takeNoun
  repeat' first
    | with_reducible assumption
    | (extract_lets +onlyGivenNames x
       have hx : State.Kept k0 x := by
        unfold x
        repeat' first
          | with_reducible assumption
          | with_reducible apply modYield_kept
          | with_reducible apply setNoun_kept
          | split
          | (extract_lets +onlyGivenNames y; clear_value y)
                | (extract_lets +onlyGivenNames y; subst y)
       clear_value x)
    | (extract_lets +onlyGivenNames x; clear_value x)
    | (extract_lets +onlyGivenNames x; subst x)
    | with_reducible apply modYield_kept
    | with_reducible apply setNoun_kept
    | split

theorem takeChange_kept {k0 : Base} {s : State} (h : s.Kept k0) (g : Grp) (c : EngChange) : (State.takeChange s g c).Kept k0 := by
  unfold State.takeChange
  repeat' first
    | with_reducible assumption
    | exact fun hm => hm
    | exact fun _ hq => hq
    | with_reducible apply modGroup_kept
    | with_reducible apply newMode_kept
    | with_reducible apply present_kept
    | with_reducible apply takeNoun_kept
    | split
    | (intro _ _; (try dsimp only); split)

theorem takeInbox_kept {k0 : Base} {s : State} (h : s.Kept k0) (g : Grp) (sample : Option Nat) : (State.takeInbox s g sample).Kept k0 := by
  unfold State.takeInbox
  repeat' first
    | with_reducible assumption
    | (extract_lets +onlyGivenNames x
       have hx : State.Kept k0 x := by
        unfold x
        repeat' first
          | with_reducible assumption
          | exact fun hm => hm
          | exact fun _ hq => hq
          | with_reducible apply modGroup_kept
          | with_reducible apply takeChange_kept
          | with_reducible apply foldl_kept
          | (intro z b hz; beta_reduce)
          | split
          | (intro _ _; (try dsimp only); split)
          | (extract_lets +onlyGivenNames y; have : ∀ z : State, State.Kept k0 (y z) ∨ True := (fun _ => .inr trivial); clear this; subst y)
                | (extract_lets +onlyGivenNames y; have : ∀ (z : State) b, State.Kept k0 (y z b) ∨ True := (fun _ _ => .inr trivial); clear this; subst y)
                | (extract_lets +onlyGivenNames y; clear_value y)
                | (extract_lets +onlyGivenNames y; subst y)
       clear_value x)
    | (extract_lets +onlyGivenNames x; have : ∀ z : State, State.Kept k0 (x z) ∨ True := (fun _ => .inr trivial); clear this; subst x)
    | (extract_lets +onlyGivenNames x; have : ∀ (z : State) b, State.Kept k0 (x z b) ∨ True := (fun _ _ => .inr trivial); clear this; subst x)
    | (extract_lets +onlyGivenNames x; clear_value x)
    | (extract_lets +onlyGivenNames x; subst x)
    | exact fun hm => hm
    | exact fun _ hq => hq
    | with_reducible apply modGroup_kept
    | with_reducible apply takeChange_kept
    | with_reducible apply foldl_kept
    | (intro z b hz; beta_reduce)
    | split
    | (intro _ _; (try dsimp only); split)

theorem takeSwap_kept {k0 : Base} {s : State} (h : s.Kept k0) (g : Grp) : (State.takeSwap s g).Kept k0 := by
  unfold State.takeSwap
  repeat' first
    | with_reducible assumption
    | (extract_lets +onlyGivenNames x
       have hx : State.Kept k0 x := by
        unfold x
        repeat' first
          | with_reducible assumption
          | exact fun hm => hm
          | exact fun _ hq => hq
          | with_reducible apply modGroup_kept
          | with_reducible apply ite_kept
          | split
          | (intro _ _; (try dsimp only); split)
          | (extract_lets +onlyGivenNames y; clear_value y)
                | (extract_lets +onlyGivenNames y; subst y)
       clear_value x)
    | (extract_lets +onlyGivenNames x; clear_value x)
    | (extract_lets +onlyGivenNames x; subst x)
    | exact fun hm => hm
    | exact fun _ hq => hq
    | with_reducible apply modGroup_kept
    | with_reducible apply ite_kept
    | split
    | (intro _ _; (try dsimp only); split)

theorem abortStart_kept {k0 : Base} {s : State} (h : s.Kept k0) (g : Grp) (m : Main) (run : Option AxisRun) : (State.abortStart s g m run).Kept k0 := by
  unfold State.abortStart
  repeat' first
    | with_reducible assumption
    | with_reducible apply enterRest_kept
    | with_reducible apply leaveTorque_kept
    | with_reducible apply ite_kept
    | split

theorem abortHome_kept {k0 : Base} {s : State} (h : s.Kept k0) (a : AuxNo) (k : Nat) : (State.abortHome s a k).Kept k0 := by
  unfold State.abortHome
  repeat' first
    | with_reducible assumption
    | (extract_lets +onlyGivenNames x
       have hx : State.Kept k0 x := by
        unfold x
        repeat' first
          | with_reducible assumption
          | with_reducible apply endHome_kept
          | with_reducible apply finish_kept
          | with_reducible apply haltAux_kept
          | with_reducible apply modAux_kept
          | with_reducible apply ite_kept
          | (extract_lets +onlyGivenNames y; clear_value y)
                | (extract_lets +onlyGivenNames y; subst y)
       clear_value x)
    | (extract_lets +onlyGivenNames x; clear_value x)
    | (extract_lets +onlyGivenNames x; subst x)
    | with_reducible apply endHome_kept
    | with_reducible apply finish_kept
    | with_reducible apply haltAux_kept
    | with_reducible apply modAux_kept
    | with_reducible apply ite_kept

theorem abortMotion_kept {k0 : Base} {s : State} (h : s.Kept k0) (g : Grp) (k : Nat) (rn : Option GroupRun) : (State.abortMotion s g k rn).Kept k0 := by
  unfold State.abortMotion
  repeat' first
    | with_reducible assumption
    | (extract_lets +onlyGivenNames x
       have hx : State.Kept k0 x := by
        unfold x
        repeat' first
          | with_reducible assumption
          | exact fun hm => hm
          | exact fun _ hq => hq
          | with_reducible apply abortHome_kept
          | with_reducible apply abortStart_kept
          | with_reducible apply dropTicket_kept
          | with_reducible apply finish_kept
          | with_reducible apply haltPath_kept
          | with_reducible apply modGroup_kept
          | with_reducible apply putTarget_kept
          | with_reducible apply ite_kept
          | split
          | (intro _ _; (try dsimp only); split)
          | (extract_lets +onlyGivenNames y; clear_value y)
                | (extract_lets +onlyGivenNames y; subst y)
       clear_value x)
    | (extract_lets +onlyGivenNames x; clear_value x)
    | (extract_lets +onlyGivenNames x; subst x)
    | exact fun hm => hm
    | exact fun _ hq => hq
    | with_reducible apply abortHome_kept
    | with_reducible apply abortStart_kept
    | with_reducible apply dropTicket_kept
    | with_reducible apply finish_kept
    | with_reducible apply haltPath_kept
    | with_reducible apply modGroup_kept
    | with_reducible apply putTarget_kept
    | with_reducible apply ite_kept
    | split
    | (intro _ _; (try dsimp only); split)

theorem abortEnable_kept {k0 : Base} {s : State} (h : s.Kept k0) (g : Grp) (k : Nat) (rn : Option GroupRun) : (State.abortEnable s g k rn).Kept k0 := by
  unfold State.abortEnable
  repeat' first
    | with_reducible assumption
    | (extract_lets +onlyGivenNames x
       have hx : State.Kept k0 x := by
        unfold x
        repeat' first
          | with_reducible assumption
          | with_reducible apply abortStart_kept
          | with_reducible apply disableAux_kept
          | with_reducible apply disableMain_kept
          | with_reducible apply finish_kept
          | with_reducible apply modMain_kept
          | with_reducible apply putTarget_kept
          | with_reducible apply ite_kept
          | split
          | (extract_lets +onlyGivenNames y; clear_value y)
                | (extract_lets +onlyGivenNames y; subst y)
       clear_value x)
    | (extract_lets +onlyGivenNames x; clear_value x)
    | (extract_lets +onlyGivenNames x; subst x)
    | with_reducible apply abortStart_kept
    | with_reducible apply disableAux_kept
    | with_reducible apply disableMain_kept
    | with_reducible apply finish_kept
    | with_reducible apply modMain_kept
    | with_reducible apply putTarget_kept
    | with_reducible apply ite_kept
    | split

theorem abortQueue_kept {k0 : Base} {s : State} (h : s.Kept k0) (g : Grp) (k : Nat) : (State.abortQueue s g k).Kept k0 := by
  unfold State.abortQueue
  extract_lets
  refine advanceSwap_kept (finish_kept (modGroup_kept h _ _ fun q hq => ?_) ..) _
  exact Nat.le_trans (List.length_filter_le ..) hq

theorem abortMode_kept {k0 : Base} {s : State} (h : s.Kept k0) (g : Grp) (k : Nat) : (State.abortMode s g k).Kept k0 := by
  unfold State.abortMode
  repeat' first
    | with_reducible assumption
    | with_reducible apply finish_kept
    | with_reducible apply modEng_kept
    | with_reducible apply ite_kept
    | split

theorem settleAbort_kept {k0 : Base} {s : State} (h : s.Kept k0) (g : Grp) (rn : Option GroupRun) (t : Nat) (k : Nat) : (State.settleAbort s g rn t k).Kept k0 := by
  unfold State.settleAbort
  repeat' first
    | with_reducible assumption
    | (extract_lets +onlyGivenNames x
       have hx : State.Kept k0 x := by
        unfold x
        repeat' first
          | with_reducible assumption
          | with_reducible apply abortEnable_kept
          | with_reducible apply abortMode_kept
          | with_reducible apply abortMotion_kept
          | with_reducible apply abortQueue_kept
          | with_reducible apply finish_kept
          | with_reducible apply ite_kept
          | split
          | (extract_lets +onlyGivenNames y; clear_value y)
                | (extract_lets +onlyGivenNames y; subst y)
       clear_value x)
    | (extract_lets +onlyGivenNames x; clear_value x)
    | (extract_lets +onlyGivenNames x; subst x)
    | with_reducible apply abortEnable_kept
    | with_reducible apply abortMode_kept
    | with_reducible apply abortMotion_kept
    | with_reducible apply abortQueue_kept
    | with_reducible apply finish_kept
    | with_reducible apply ite_kept
    | split

theorem settleAborts_kept {k0 : Base} {s : State} (h : s.Kept k0) (g : Grp) (rn : Option GroupRun) : (State.settleAborts s g rn).Kept k0 := by
  unfold State.settleAborts
  repeat' first
    | with_reducible assumption
    | (extract_lets +onlyGivenNames x
       have hx : State.Kept k0 x := by
        unfold x
        repeat' first
          | with_reducible assumption
          | exact fun hm => hm
          | exact fun _ hq => hq
          | with_reducible apply modGroup_kept
          | with_reducible apply settleAbort_kept
          | with_reducible apply foldl_kept
          | (intro z b hz; beta_reduce)
          | (extract_lets +onlyGivenNames y; clear_value y)
                | (extract_lets +onlyGivenNames y; subst y)
       clear_value x)
    | (extract_lets +onlyGivenNames x; clear_value x)
    | (extract_lets +onlyGivenNames x; subst x)
    | exact fun hm => hm
    | exact fun _ hq => hq
    | with_reducible apply modGroup_kept
    | with_reducible apply settleAbort_kept
    | with_reducible apply foldl_kept
    | (intro z b hz; beta_reduce)

theorem latchGroup_kept {k0 : Base} {s : State} (h : s.Kept k0) (g : Grp) : (State.latchGroup s g).Kept k0 := by
  unfold State.latchGroup
  repeat' first
    | with_reducible assumption
    | (extract_lets +onlyGivenNames x
       have hx : State.Kept k0 x := by
        unfold x
        repeat' first
          | with_reducible assumption
          | exact fun hm => hm
          | exact fun _ hq => hq
          | with_reducible apply modGroup_kept
          | (extract_lets +onlyGivenNames y; clear_value y)
                | (extract_lets +onlyGivenNames y; subst y)
       clear_value x)
    | (extract_lets +onlyGivenNames x; clear_value x)
    | (extract_lets +onlyGivenNames x; subst x)
    | exact fun hm => hm
    | exact fun _ hq => hq
    | with_reducible apply modGroup_kept

theorem instantMain_kept {k0 : Base} {s : State} (h : s.Kept k0) (g : Grp) (m : Main) : (State.instantMain s g m).Kept k0 := by
  unfold State.instantMain
  repeat' first
    | with_reducible assumption
    | (extract_lets +onlyGivenNames x
       have hx : State.Kept k0 x := by
        unfold x
        repeat' first
          | with_reducible assumption
          | with_reducible apply beginWindow_kept
          | with_reducible apply modDrive_kept
          | with_reducible apply startGates_kept
          | with_reducible apply updatePwm_kept
          | (extract_lets +onlyGivenNames y; clear_value y)
                | (extract_lets +onlyGivenNames y; subst y)
       clear_value x)
    | (extract_lets +onlyGivenNames x; clear_value x)
    | (extract_lets +onlyGivenNames x; subst x)
    | with_reducible apply beginWindow_kept
    | with_reducible apply modDrive_kept
    | with_reducible apply startGates_kept
    | with_reducible apply updatePwm_kept

theorem instantAux_kept {k0 : Base} {s : State} (h : s.Kept k0) (a : AuxNo) : (State.instantAux s a).Kept k0 := by
  unfold State.instantAux
  repeat' first
    | with_reducible assumption
    | with_reducible apply modAux_kept

theorem sampleInstant_kept {k0 : Base} {s0 : State} (h : s0.Kept k0) (g : Grp) : (State.sampleInstant s0 g).Kept k0 := by
  unfold State.sampleInstant
  repeat' first
    | with_reducible assumption
    | (extract_lets +onlyGivenNames x
       have hx : State.Kept k0 x := by
        unfold x
        repeat' first
          | with_reducible assumption
          | exact fun hm => hm
          | exact fun _ hq => hq
          | with_reducible apply beginWindow_kept
          | with_reducible apply instantAux_kept
          | with_reducible apply instantMain_kept
          | with_reducible apply latchGroup_kept
          | with_reducible apply loseGroup_kept
          | with_reducible apply modGroup_kept
          | with_reducible apply retryModes_kept
          | with_reducible apply running_kept
          | with_reducible apply takeInbox_kept
          | with_reducible apply takeSwap_kept
          | with_reducible apply foldl_kept
          | with_reducible apply eachFin_kept
          | (intro z b hz; beta_reduce)
          | with_reducible apply ite_kept
          | split
          | (intro _ _; (try dsimp only); split)
          | (extract_lets +onlyGivenNames y; clear_value y)
                | (extract_lets +onlyGivenNames y; subst y)
       clear_value x)
    | (extract_lets +onlyGivenNames x; clear_value x)
    | (extract_lets +onlyGivenNames x; subst x)
    | exact fun hm => hm
    | exact fun _ hq => hq
    | with_reducible apply beginWindow_kept
    | with_reducible apply instantAux_kept
    | with_reducible apply instantMain_kept
    | with_reducible apply latchGroup_kept
    | with_reducible apply loseGroup_kept
    | with_reducible apply modGroup_kept
    | with_reducible apply retryModes_kept
    | with_reducible apply running_kept
    | with_reducible apply takeInbox_kept
    | with_reducible apply takeSwap_kept
    | with_reducible apply foldl_kept
    | with_reducible apply eachFin_kept
    | (intro z b hz; beta_reduce)
    | with_reducible apply ite_kept
    | split
    | (intro _ _; (try dsimp only); split)

theorem dropBound_kept {k0 : Base} {s : State} (h : s.Kept k0) (g : Grp) : (State.dropBound s g).Kept k0 := by
  unfold State.dropBound
  repeat' first
    | with_reducible assumption
    | (extract_lets +onlyGivenNames x
       have hx : State.Kept k0 x := by
        unfold x
        repeat' first
          | with_reducible assumption
          | exact fun hm => hm
          | exact fun _ hq => hq
          | with_reducible apply finishOpt_kept
          | with_reducible apply modGroup_kept
          | with_reducible apply foldl_kept
          | (intro z b hz; beta_reduce)
          | with_reducible apply ite_kept
          | (intro _ _; (try dsimp only); split)
          | (extract_lets +onlyGivenNames y; clear_value y)
                | (extract_lets +onlyGivenNames y; subst y)
       clear_value x)
    | (extract_lets +onlyGivenNames x; clear_value x)
    | (extract_lets +onlyGivenNames x; subst x)
    | exact fun hm => hm
    | exact fun _ hq => hq
    | with_reducible apply finishOpt_kept
    | with_reducible apply modGroup_kept
    | with_reducible apply foldl_kept
    | (intro z b hz; beta_reduce)
    | with_reducible apply ite_kept
    | (intro _ _; (try dsimp only); split)

theorem stoppedTick_kept {k0 : Base} {s : State} (h : s.Kept k0) (g : Grp) : (State.stoppedTick s g).Kept k0 := by
  unfold State.stoppedTick
  repeat' first
    | with_reducible assumption
    | (extract_lets +onlyGivenNames x
       have hx : State.Kept k0 x := by
        unfold x
        repeat' first
          | with_reducible assumption
          | exact fun hm => hm
          | exact fun _ hq => hq
          | with_reducible apply dropBound_kept
          | with_reducible apply finishOpt_kept
          | with_reducible apply finishSeen_kept
          | with_reducible apply handOver_kept
          | with_reducible apply modGroup_kept
          | with_reducible apply retryModes_kept
          | with_reducible apply settleAborts_kept
          | with_reducible apply takeInbox_kept
          | with_reducible apply tryStart_kept
          | with_reducible apply foldl_kept
          | (intro z b hz; beta_reduce)
          | with_reducible apply ite_kept
          | (intro _ _; (try dsimp only); split)
          | (extract_lets +onlyGivenNames y; clear_value y)
                | (extract_lets +onlyGivenNames y; subst y)
       clear_value x)
    | (extract_lets +onlyGivenNames x; clear_value x)
    | (extract_lets +onlyGivenNames x; subst x)
    | exact fun hm => hm
    | exact fun _ hq => hq
    | with_reducible apply dropBound_kept
    | with_reducible apply finishOpt_kept
    | with_reducible apply finishSeen_kept
    | with_reducible apply handOver_kept
    | with_reducible apply modGroup_kept
    | with_reducible apply retryModes_kept
    | with_reducible apply settleAborts_kept
    | with_reducible apply takeInbox_kept
    | with_reducible apply tryStart_kept
    | with_reducible apply foldl_kept
    | (intro z b hz; beta_reduce)
    | with_reducible apply ite_kept
    | (intro _ _; (try dsimp only); split)

theorem stopRequests_kept {k0 : Base} {s : State} (h : s.Kept k0) (old : BitVec 4) : (State.stopRequests s old).Kept k0 := by
  unfold State.stopRequests
  repeat' first
    | with_reducible assumption
    | exact fun hm => hm
    | exact fun _ hq => hq
    | with_reducible apply modGroup_kept
    | with_reducible apply foldl_kept
    | with_reducible apply eachFin_kept
    | (intro z b hz; beta_reduce)
    | with_reducible apply ite_kept
    | split
    | (intro _ _; (try dsimp only); split)

theorem idleRequests_kept {k0 : Base} {s : State} (h : s.Kept k0)  : (State.idleRequests s).Kept k0 := by
  unfold State.idleRequests
  repeat' first
    | with_reducible assumption
    | with_reducible apply clearTorque_kept
    | with_reducible apply eachFin_kept
    | (intro z b hz; beta_reduce)
    | with_reducible apply ite_kept

theorem tickTime_kept {k0 : Base} {s : State} (h : s.Kept k0)  : (State.tickTime s).Kept k0 := by
  unfold State.tickTime
  repeat' first
    | with_reducible assumption
    | (extract_lets +onlyGivenNames x
       have hx : State.Kept k0 x := by
        unfold x
        repeat' first
          | with_reducible assumption
          | with_reducible apply ite_kept
          | exact rfl
          | (extract_lets +onlyGivenNames y; subst y)
          | with_reducible apply mk_keep_kept
       clear_value x)
    | (extract_lets +onlyGivenNames x; subst x)
    | with_reducible apply ite_kept
    | exact rfl
    | with_reducible apply mk_keep_kept

theorem abortOthers_kept {k0 : Base} {s : State} (h : s.Kept k0) (t : Nat) : (State.abortOthers s t).Kept k0 := by
  unfold State.abortOthers
  extract_lets others s1
  have hs : State.Kept k0 s1 := foldl_kept _ _ (fun _ _ hz => finish_kept hz ..) h
  clear_value s1
  obtain ⟨b1, b2, b3, h1, h2, h3, h4, h5, h6, h7, h8, h9, _⟩ := hs
  refine ⟨b1, b2, b3, h1, h2, h3, h4, h5, h6, h7, h8, h9, fun g => ?_⟩
  simp [Group.Inv]

theorem answerDue_kept {k0 : Base} {s : State} (h : s.Kept k0) (t : Nat) (d : Due) : (State.answerDue s t d).Kept k0 := by
  unfold State.answerDue
  repeat' first
    | with_reducible assumption
    | (extract_lets +onlyGivenNames x
       have hx : State.Kept k0 x := by
        unfold x
        repeat' first
          | with_reducible assumption
          | with_reducible apply abortOthers_kept
          | with_reducible apply finish_kept
          | (extract_lets +onlyGivenNames y; subst y)
          | with_reducible apply mk_kept
       clear_value x)
    | (extract_lets +onlyGivenNames x; subst x)
    | with_reducible apply abortOthers_kept
    | with_reducible apply finish_kept
    | with_reducible apply mk_kept

theorem settleRestart_kept {k0 : Base} {s : State} (h : s.Kept k0)  : (State.settleRestart s).Kept k0 := by
  unfold State.settleRestart
  repeat' first
    | with_reducible assumption
    | with_reducible apply answerDue_kept
    | with_reducible apply ite_kept
    | split
    | with_reducible apply mk_kept

theorem sendSync_kept {k0 : Base} {s : State} (h : s.Kept k0)  : (State.sendSync s).Kept k0 := by
  unfold State.sendSync
  repeat' first
    | with_reducible assumption
    | (extract_lets +onlyGivenNames x
       have hx : State.Kept k0 x := by
        unfold x
        repeat' first
          | with_reducible assumption
          | with_reducible apply modCascade_kept
          | with_reducible apply ite_kept
          | (extract_lets +onlyGivenNames y; clear_value y)
                | (extract_lets +onlyGivenNames y; subst y)
       clear_value x)
    | (extract_lets +onlyGivenNames x; clear_value x)
    | (extract_lets +onlyGivenNames x; subst x)
    | with_reducible apply modCascade_kept
    | with_reducible apply ite_kept

theorem frameTick_kept {k0 : Base} {s : State} (h : s.Kept k0)  : (State.frameTick s).Kept k0 := by
  unfold State.frameTick
  repeat' first
    | with_reducible assumption
    | (extract_lets +onlyGivenNames x
       have hx : State.Kept k0 x := by
        unfold x
        repeat' first
          | with_reducible assumption
          | with_reducible apply beginWindow_kept
          | with_reducible apply emergencyWatch_kept
          | with_reducible apply idleRequests_kept
          | with_reducible apply latchFeedback_kept
          | with_reducible apply loseTorque_kept
          | with_reducible apply modReq_kept
          | with_reducible apply sampleInstant_kept
          | with_reducible apply sendSync_kept
          | with_reducible apply settleRestart_kept
          | with_reducible apply settleTrip_kept
          | with_reducible apply stopRequests_kept
          | with_reducible apply stoppedTick_kept
          | with_reducible apply tickTime_kept
          | with_reducible apply eachFin_kept
          | (intro z b hz; beta_reduce)
          | with_reducible apply ite_kept
          | (extract_lets +onlyGivenNames y; clear_value y)
                | (extract_lets +onlyGivenNames y; subst y)
       clear_value x)
    | (extract_lets +onlyGivenNames x; clear_value x)
    | (extract_lets +onlyGivenNames x; subst x)
    | with_reducible apply beginWindow_kept
    | with_reducible apply emergencyWatch_kept
    | with_reducible apply idleRequests_kept
    | with_reducible apply latchFeedback_kept
    | with_reducible apply loseTorque_kept
    | with_reducible apply modReq_kept
    | with_reducible apply sampleInstant_kept
    | with_reducible apply sendSync_kept
    | with_reducible apply settleRestart_kept
    | with_reducible apply settleTrip_kept
    | with_reducible apply stopRequests_kept
    | with_reducible apply stoppedTick_kept
    | with_reducible apply tickTime_kept
    | with_reducible apply eachFin_kept
    | (intro z b hz; beta_reduce)
    | with_reducible apply ite_kept

theorem traceCommit_kept {k0 : Base} {s : State} {s0 : State} (h : s.Kept k0) (hs0 : s0.Kept k0) (g : Grp) (meas : List Meas) : (State.traceCommit s s0 g meas).Kept k0 := by
  unfold State.traceCommit
  repeat' first
    | with_reducible assumption
    | (extract_lets +onlyGivenNames x
       have hx : State.Kept k0 x := by
        unfold x
        repeat' first
          | with_reducible assumption
          | exact fun hm => hm
          | exact fun _ hq => hq
          | with_reducible apply gffTrace_kept
          | with_reducible apply modGff_kept
          | with_reducible apply ite_kept
          | (intro _ _; (try dsimp only); split)
          | (extract_lets +onlyGivenNames y; clear_value y)
                | (extract_lets +onlyGivenNames y; subst y)
       clear_value x)
    | (extract_lets +onlyGivenNames x; clear_value x)
    | (extract_lets +onlyGivenNames x; subst x)
    | exact fun hm => hm
    | exact fun _ hq => hq
    | with_reducible apply gffTrace_kept
    | with_reducible apply modGff_kept
    | with_reducible apply ite_kept
    | (intro _ _; (try dsimp only); split)

theorem finishVisible_kept {k0 : Base} {s : State} (h : s.Kept k0) (g : Grp) : (State.finishVisible s g).Kept k0 := by
  unfold State.finishVisible
  repeat' first
    | with_reducible assumption
    | (extract_lets +onlyGivenNames x
       have hx : State.Kept k0 x := by
        unfold x
        repeat' first
          | with_reducible assumption
          | exact fun hm => hm
          | exact fun _ hq => hq
          | with_reducible apply finishOpt_kept
          | with_reducible apply finishSeen_kept
          | with_reducible apply modGroup_kept
          | (extract_lets +onlyGivenNames y; clear_value y)
                | (extract_lets +onlyGivenNames y; subst y)
       clear_value x)
    | (extract_lets +onlyGivenNames x; clear_value x)
    | (extract_lets +onlyGivenNames x; subst x)
    | exact fun hm => hm
    | exact fun _ hq => hq
    | with_reducible apply finishOpt_kept
    | with_reducible apply finishSeen_kept
    | with_reducible apply modGroup_kept

theorem takeSpan_kept {k0 : Base} {s : State} (h : s.Kept k0) (g : Grp) : (State.takeSpan s g).Kept k0 := by
  unfold State.takeSpan
  repeat' first
    | with_reducible assumption
    | (extract_lets +onlyGivenNames x
       have hx : State.Kept k0 x := by
        unfold x
        repeat' first
          | with_reducible assumption
          | exact fun hm => hm
          | exact fun _ hq => hq
          | with_reducible apply disableAux_kept
          | with_reducible apply disableMain_kept
          | with_reducible apply enterEmergency_kept
          | with_reducible apply modGroup_kept
          | with_reducible apply foldl_kept
          | (intro z b hz; beta_reduce)
          | with_reducible apply ite_kept
          | (intro _ _; (try dsimp only); split)
          | (extract_lets +onlyGivenNames y; clear_value y)
                | (extract_lets +onlyGivenNames y; subst y)
       clear_value x)
    | (extract_lets +onlyGivenNames x; clear_value x)
    | (extract_lets +onlyGivenNames x; subst x)
    | exact fun hm => hm
    | exact fun _ hq => hq
    | with_reducible apply disableAux_kept
    | with_reducible apply disableMain_kept
    | with_reducible apply enterEmergency_kept
    | with_reducible apply modGroup_kept
    | with_reducible apply foldl_kept
    | (intro z b hz; beta_reduce)
    | with_reducible apply ite_kept
    | (intro _ _; (try dsimp only); split)

theorem clearReports_kept {k0 : Base} {s : State} (h : s.Kept k0) (g : Grp) : (State.clearReports s g).Kept k0 := by
  unfold State.clearReports
  repeat' first
    | with_reducible assumption
    | with_reducible apply modLink_kept
    | with_reducible apply eachFin_kept
    | (intro z b hz; beta_reduce)
    | with_reducible apply ite_kept

theorem commitSample_kept {k0 : Base} {s : State} (h : s.Kept k0) (g : Grp) : (State.commitSample s g).Kept k0 := by
  unfold State.commitSample
  repeat' first
    | with_reducible assumption
    | (extract_lets +onlyGivenNames x
       have hx : State.Kept k0 x := by
        unfold x
        repeat' first
          | with_reducible assumption
          | exact fun hm => hm
          | exact fun _ hq => hq
          | with_reducible apply checkStop_kept
          | with_reducible apply clearReports_kept
          | with_reducible apply commitAuxs_kept
          | with_reducible apply commitAxis_kept
          | with_reducible apply commitChoppers_kept
          | with_reducible apply commitCoupled_kept
          | with_reducible apply commitLinks_kept
          | with_reducible apply commitWork_kept
          | with_reducible apply commitYield_kept
          | with_reducible apply completeMotion_kept
          | with_reducible apply disableLatched_kept
          | with_reducible apply emergencyWatch_kept
          | with_reducible apply finishVisible_kept
          | with_reducible apply handOver_kept
          | with_reducible apply modGroup_kept
          | with_reducible apply settleAborts_kept
          | with_reducible apply stepMotion_kept
          | with_reducible apply takeEmergency_kept
          | with_reducible apply takeSpan_kept
          | with_reducible apply traceCommit_kept
          | with_reducible apply foldl_kept
          | (intro z b hz; beta_reduce)
          | with_reducible apply ite_kept
          | (intro _ _; (try dsimp only); split)
          | (extract_lets +onlyGivenNames y; subst y)
          | with_reducible apply mk_kept
       clear_value x)
    | (extract_lets +onlyGivenNames x; subst x)
    | exact fun hm => hm
    | exact fun _ hq => hq
    | with_reducible apply checkStop_kept
    | with_reducible apply clearReports_kept
    | with_reducible apply commitAuxs_kept
    | with_reducible apply commitAxis_kept
    | with_reducible apply commitChoppers_kept
    | with_reducible apply commitCoupled_kept
    | with_reducible apply commitLinks_kept
    | with_reducible apply commitWork_kept
    | with_reducible apply commitYield_kept
    | with_reducible apply completeMotion_kept
    | with_reducible apply disableLatched_kept
    | with_reducible apply emergencyWatch_kept
    | with_reducible apply finishVisible_kept
    | with_reducible apply handOver_kept
    | with_reducible apply modGroup_kept
    | with_reducible apply settleAborts_kept
    | with_reducible apply stepMotion_kept
    | with_reducible apply takeEmergency_kept
    | with_reducible apply takeSpan_kept
    | with_reducible apply traceCommit_kept
    | with_reducible apply foldl_kept
    | (intro z b hz; beta_reduce)
    | with_reducible apply ite_kept
    | (intro _ _; (try dsimp only); split)
    | with_reducible apply mk_kept

theorem repeatSample_kept {k0 : Base} {s : State} (h : s.Kept k0) (g : Grp) : (State.repeatSample s g).Kept k0 := by
  unfold State.repeatSample
  repeat' first
    | with_reducible assumption
    | (extract_lets +onlyGivenNames x
       have hx : State.Kept k0 x := by
        unfold x
        repeat' first
          | with_reducible assumption
          | exact fun hm => hm
          | exact fun _ hq => hq
          | with_reducible apply advanceCoast_kept
          | with_reducible apply advanceComm_kept
          | with_reducible apply gffTrace_kept
          | with_reducible apply handOver_kept
          | with_reducible apply modGroup_kept
          | with_reducible apply repeatFerr_kept
          | with_reducible apply stepMotion_kept
          | with_reducible apply foldl_kept
          | (intro z b hz; beta_reduce)
          | with_reducible apply ite_kept
          | (intro _ _; (try dsimp only); split)
          | (extract_lets +onlyGivenNames y; clear_value y)
                | (extract_lets +onlyGivenNames y; subst y)
       clear_value x)
    | (extract_lets +onlyGivenNames x; clear_value x)
    | (extract_lets +onlyGivenNames x; subst x)
    | exact fun hm => hm
    | exact fun _ hq => hq
    | with_reducible apply advanceCoast_kept
    | with_reducible apply advanceComm_kept
    | with_reducible apply gffTrace_kept
    | with_reducible apply handOver_kept
    | with_reducible apply modGroup_kept
    | with_reducible apply repeatFerr_kept
    | with_reducible apply stepMotion_kept
    | with_reducible apply foldl_kept
    | (intro z b hz; beta_reduce)
    | with_reducible apply ite_kept
    | (intro _ _; (try dsimp only); split)

theorem freeEngines_kept {k0 : Base} {s : State} (h : s.Kept k0)  : (State.freeEngines s).Kept k0 := by
  unfold State.freeEngines
  repeat' first
    | with_reducible assumption
    | with_reducible apply startSegment_kept
    | exact rfl
    | with_reducible apply mk_keep_kept

theorem countErrors_kept {k0 : Base} {s : State} (h : s.Kept k0) (r : SegmentResult) : (State.countErrors s r).Kept k0 := by
  unfold State.countErrors
  repeat' first
    | with_reducible assumption
    | with_reducible apply mk_kept

theorem countTransient_kept {k0 : Base} {s : State} (h : s.Kept k0) (g : Grp) : (State.countTransient s g).Kept k0 := by
  unfold State.countTransient
  repeat' first
    | with_reducible assumption
    | (extract_lets +onlyGivenNames x
       have hx : State.Kept k0 x := by
        unfold x
        repeat' first
          | with_reducible assumption
          | with_reducible apply logEvent_kept
          | split
          | exact rfl
          | (extract_lets +onlyGivenNames y; subst y)
          | with_reducible apply mk_keep_kept
       clear_value x)
    | (extract_lets +onlyGivenNames x; subst x)
    | with_reducible apply logEvent_kept
    | split
    | exact rfl
    | with_reducible apply mk_keep_kept

theorem repairWords_kept {k0 : Base} {s : State} (h : s.Kept k0) (g : Grp) (r : SegmentResult) : (State.repairWords s g r).Kept k0 := by
  unfold State.repairWords
  repeat' first
    | with_reducible assumption
    | (extract_lets +onlyGivenNames x
       have hx : State.Kept k0 x := by
        unfold x
        repeat' first
          | with_reducible assumption
          | with_reducible apply copyWords_kept
          | with_reducible apply loseWords_kept
          | split
          | (extract_lets +onlyGivenNames y; clear_value y)
                | (extract_lets +onlyGivenNames y; subst y)
       clear_value x)
    | (extract_lets +onlyGivenNames x; clear_value x)
    | (extract_lets +onlyGivenNames x; subst x)
    | with_reducible apply copyWords_kept
    | with_reducible apply loseWords_kept
    | split

theorem retrySegment_kept {k0 : Base} {s : State} (h : s.Kept k0) (g : Grp) : (State.retrySegment s g).Kept k0 := by
  unfold State.retrySegment
  repeat' first
    | with_reducible assumption
    | exact fun hm => hm
    | exact fun _ hq => hq
    | with_reducible apply modGroup_kept
    | with_reducible apply segment_kept
    | exact rfl
    | with_reducible apply mk_keep_kept

theorem lockstepEnd_kept {k0 : Base} {s : State} (h : s.Kept k0) (g : Grp) (r : SegmentResult) (retry : Bool) (agree : Bool) : (State.lockstepEnd s g r retry agree).Kept k0 := by
  unfold State.lockstepEnd
  repeat' first
    | with_reducible assumption
    | (extract_lets +onlyGivenNames x
       have hx : State.Kept k0 x := by
        unfold x
        repeat' first
          | with_reducible assumption
          | exact fun hm => hm
          | exact fun _ hq => hq
          | with_reducible apply commitSample_kept
          | with_reducible apply countTransient_kept
          | with_reducible apply freeEngines_kept
          | with_reducible apply loseWords_kept
          | with_reducible apply modGroup_kept
          | with_reducible apply repairWords_kept
          | with_reducible apply retrySegment_kept
          | with_reducible apply ite_kept
          | (intro _ _; (try dsimp only); split)
          | exact rfl
          | (extract_lets +onlyGivenNames y; subst y)
          | with_reducible apply mk_keep_kept
       clear_value x)
    | (extract_lets +onlyGivenNames x; subst x)
    | exact fun hm => hm
    | exact fun _ hq => hq
    | with_reducible apply commitSample_kept
    | with_reducible apply countTransient_kept
    | with_reducible apply freeEngines_kept
    | with_reducible apply loseWords_kept
    | with_reducible apply modGroup_kept
    | with_reducible apply repairWords_kept
    | with_reducible apply retrySegment_kept
    | with_reducible apply ite_kept
    | (intro _ _; (try dsimp only); split)
    | exact rfl
    | with_reducible apply mk_keep_kept

theorem simplexEnd_kept {k0 : Base} {s : State} (h : s.Kept k0) (g : Grp) (flagged : List (Fin 16384)) (retry : Bool) (agree : Bool) : (State.simplexEnd s g flagged retry agree).Kept k0 := by
  unfold State.simplexEnd
  repeat' first
    | with_reducible assumption
    | (extract_lets +onlyGivenNames x
       have hx : State.Kept k0 x := by
        unfold x
        repeat' first
          | with_reducible assumption
          | exact fun hm => hm
          | exact fun _ hq => hq
          | with_reducible apply askEmergency_kept
          | with_reducible apply commitSample_kept
          | with_reducible apply computeLost_kept
          | with_reducible apply freeEngines_kept
          | with_reducible apply loseWords_kept
          | with_reducible apply modGroup_kept
          | with_reducible apply retrySegment_kept
          | with_reducible apply ite_kept
          | (intro _ _; (try dsimp only); split)
          | (extract_lets +onlyGivenNames y; clear_value y)
                | (extract_lets +onlyGivenNames y; subst y)
       clear_value x)
    | (extract_lets +onlyGivenNames x; clear_value x)
    | (extract_lets +onlyGivenNames x; subst x)
    | exact fun hm => hm
    | exact fun _ hq => hq
    | with_reducible apply askEmergency_kept
    | with_reducible apply commitSample_kept
    | with_reducible apply computeLost_kept
    | with_reducible apply freeEngines_kept
    | with_reducible apply loseWords_kept
    | with_reducible apply modGroup_kept
    | with_reducible apply retrySegment_kept
    | with_reducible apply ite_kept
    | (intro _ _; (try dsimp only); split)

theorem sendExchange_kept {k0 : Base} {s : State} (h : s.Kept k0) (g : Grp) (isRepeat : Bool) : (State.sendExchange s g isRepeat).Kept k0 := by
  unfold State.sendExchange
  repeat' first
    | with_reducible assumption
    | (extract_lets +onlyGivenNames x
       have hx : State.Kept k0 x := by
        unfold x
        repeat' first
          | with_reducible assumption
          | exact fun hm => hm
          | exact fun _ hq => hq
          | with_reducible apply modCascade_kept
          | with_reducible apply modGroup_kept
          | with_reducible apply running_kept
          | with_reducible apply ite_kept
          | split
          | (intro _ _; (try dsimp only); split)
          | (extract_lets +onlyGivenNames y; clear_value y)
                | (extract_lets +onlyGivenNames y; subst y)
       clear_value x)
    | (extract_lets +onlyGivenNames x; clear_value x)
    | (extract_lets +onlyGivenNames x; subst x)
    | exact fun hm => hm
    | exact fun _ hq => hq
    | with_reducible apply modCascade_kept
    | with_reducible apply modGroup_kept
    | with_reducible apply running_kept
    | with_reducible apply ite_kept
    | split
    | (intro _ _; (try dsimp only); split)

theorem overrun_kept {k0 : Base} {s : State} (h : s.Kept k0) (g : Grp) : (State.overrun s g).Kept k0 := by
  unfold State.overrun
  repeat' first
    | with_reducible assumption
    | (extract_lets +onlyGivenNames x
       have hx : State.Kept k0 x := by
        unfold x
        repeat' first
          | with_reducible assumption
          | exact fun hm => hm
          | exact fun _ hq => hq
          | with_reducible apply askEmergency_kept
          | with_reducible apply disarmEng_kept
          | with_reducible apply logEvent_kept
          | with_reducible apply modGroup_kept
          | with_reducible apply ite_kept
          | split
          | (intro _ _; (try dsimp only); split)
          | (extract_lets +onlyGivenNames y; clear_value y)
                | (extract_lets +onlyGivenNames y; subst y)
       clear_value x)
    | (extract_lets +onlyGivenNames x; clear_value x)
    | (extract_lets +onlyGivenNames x; subst x)
    | exact fun hm => hm
    | exact fun _ hq => hq
    | with_reducible apply askEmergency_kept
    | with_reducible apply disarmEng_kept
    | with_reducible apply logEvent_kept
    | with_reducible apply modGroup_kept
    | with_reducible apply ite_kept
    | split
    | (intro _ _; (try dsimp only); split)

end Sys2Proof.Machine.State
end

