-- ==== Sys2Proof/Laws/KeptRegisters.lean ====
section
/-! SUPPORT. Every operation of Machine/Registers.lean keeps what Laws/Kept.lean names. -/

set_option Elab.async false

set_option linter.unusedTactic false
set_option linter.unreachableTactic false

namespace Sys2Proof.Machine.State

theorem captureH_kept {k0 : Base} {s : State} (h : s.Kept k0) (a : Nat) : (State.captureH s a).Kept k0 := by
  unfold State.captureH
  repeat' first
    | with_reducible assumption
    | exact fun hm => hm
    | exact fun _ hq => hq
    | with_reducible apply modMail_kept
    | with_reducible apply ite_kept
    | split
    | (intro _ _; (try dsimp only); split)

theorem writeMbx_kept {k0 : Base} {s : State} (h : s.Kept k0) (a : Nat) (v : Word) : (State.writeMbx s a v).Kept k0 := by
  unfold State.writeMbx
  repeat' first
    | with_reducible assumption
    | exact fun hm => hm
    | exact fun _ hq => hq
    | with_reducible apply modMail_kept
    | with_reducible apply releaseSlots_kept
    | with_reducible apply ringDoorbell_kept
    | split
    | (intro _ _; (try dsimp only); split)

theorem writeLog_kept {k0 : Base} {s : State} (h : s.Kept k0) (a : Nat) (v : Word) : (State.writeLog s a v).Kept k0 := by
  unfold State.writeLog
  repeat' first
    | with_reducible assumption
    | (extract_lets +onlyGivenNames x
       have hx : State.Kept k0 x := by
        unfold x
        repeat' first
          | with_reducible assumption
          | split
          | exact rfl
          | (extract_lets +onlyGivenNames y; subst y)
          | with_reducible apply mk_keep_kept
       clear_value x)
    | (extract_lets +onlyGivenNames x; subst x)
    | split
    | exact rfl
    | with_reducible apply mk_keep_kept

theorem gffEmpty_inv (f : GffSt) : (gffEmpty f).Inv := Nat.zero_le _

theorem writeGff_kept {k0 : Base} {s : State} (h : s.Kept k0) (a : Nat) (v : Word) : (State.writeGff s a v).Kept k0 := by
  unfold State.writeGff
  extract_lets n
  split
  · refine modGff_kept h _ fun hf => ?_
    dsimp only
    split
    · exact gffEmpty_inv s.gff
    · exact hf
  all_goals first
    | exact h
    | exact gffAck_kept h _
    | exact gffMarker_kept h _ _
    | exact modGff_kept h _ fun hf => hf

theorem writeTest_kept {k0 : Base} {s : State} (h : s.Kept k0) (a : Nat) (v : Word) : (State.writeTest s a v).Kept k0 := by
  unfold State.writeTest
  repeat' first
    | with_reducible assumption
    | (extract_lets +onlyGivenNames x
       have hx : State.Kept k0 x := by
        unfold x
        repeat' first
          | with_reducible assumption
          | with_reducible apply closeTest_kept
          | with_reducible apply modTest_kept
          | with_reducible apply writeEng_kept
          | with_reducible apply writeKey_kept
          | with_reducible apply writeSinc_kept
          | with_reducible apply ite_kept
          | split
          | (extract_lets +onlyGivenNames y; have : ∀ z : State, State.Kept k0 (y z) ∨ True := (fun _ => .inr trivial); clear this; subst y)
                | (extract_lets +onlyGivenNames y; have : ∀ (z : State) b, State.Kept k0 (y z b) ∨ True := (fun _ _ => .inr trivial); clear this; subst y)
                | (extract_lets +onlyGivenNames y; subst y)
          | with_reducible apply mk_kept
       clear_value x)
    | (extract_lets +onlyGivenNames x; have : ∀ z : State, State.Kept k0 (x z) ∨ True := (fun _ => .inr trivial); clear this; subst x)
    | (extract_lets +onlyGivenNames x; have : ∀ (z : State) b, State.Kept k0 (x z b) ∨ True := (fun _ _ => .inr trivial); clear this; subst x)
    | (extract_lets +onlyGivenNames x; subst x)
    | with_reducible apply closeTest_kept
    | with_reducible apply modTest_kept
    | with_reducible apply writeEng_kept
    | with_reducible apply writeKey_kept
    | with_reducible apply writeSinc_kept
    | with_reducible apply ite_kept
    | split
    | with_reducible apply mk_kept

theorem writeCtrl_kept {k0 : Base} {s : State} (h : s.Kept k0) (p : Port) (n : Nat) : (State.writeCtrl s p n).Kept k0 := by
  unfold State.writeCtrl
  repeat' first
    | with_reducible assumption
    | (extract_lets +onlyGivenNames x
       have hx : State.Kept k0 x := by
        unfold x
        repeat' first
          | with_reducible assumption
          | with_reducible apply modPort_kept
          | with_reducible apply startRecovery_kept
          | with_reducible apply writeMode_kept
          | with_reducible apply ite_kept
          | (extract_lets +onlyGivenNames y; clear_value y)
                | (extract_lets +onlyGivenNames y; subst y)
       clear_value x)
    | (extract_lets +onlyGivenNames x; clear_value x)
    | (extract_lets +onlyGivenNames x; subst x)
    | with_reducible apply modPort_kept
    | with_reducible apply startRecovery_kept
    | with_reducible apply writeMode_kept
    | with_reducible apply ite_kept

theorem initOnly_kept {k0 : Base} {s : State} (h : s.Kept k0) (p : Port) (f : CanPort → CanPort) : (State.initOnly s p f).Kept k0 := by
  unfold State.initOnly
  repeat' first
    | with_reducible assumption
    | with_reducible apply modPort_kept
    | with_reducible apply ite_kept

theorem writeTx_kept {k0 : Base} {s : State} (h : s.Kept k0) (p : Port) (i : Fin 3) (k : Nat) (v : Word) : (State.writeTx s p i k v).Kept k0 := by
  unfold State.writeTx
  repeat' first
    | with_reducible assumption
    | with_reducible apply modPort_kept
    | with_reducible apply modTx_kept
    | split

theorem writeBus_kept {k0 : Base} {s : State} (h : s.Kept k0) (p : Port) (o : Nat) (v : Word) : (State.writeBus s p o v).Kept k0 := by
  unfold State.writeBus
  repeat' first
    | with_reducible assumption
    | (extract_lets +onlyGivenNames x
       have hx : State.Kept k0 x := by
        unfold x
        repeat' first
          | with_reducible assumption
          | with_reducible apply ackQueues_kept
          | with_reducible apply initOnly_kept
          | with_reducible apply modBufs_kept
          | with_reducible apply modPort_kept
          | with_reducible apply writeCtrl_kept
          | with_reducible apply writeTx_kept
          | with_reducible apply writeTxreq_kept
          | with_reducible apply ite_kept
          | split
          | (extract_lets +onlyGivenNames y; clear_value y)
                | (extract_lets +onlyGivenNames y; subst y)
       clear_value x)
    | (extract_lets +onlyGivenNames x; clear_value x)
    | (extract_lets +onlyGivenNames x; subst x)
    | with_reducible apply ackQueues_kept
    | with_reducible apply initOnly_kept
    | with_reducible apply modBufs_kept
    | with_reducible apply modPort_kept
    | with_reducible apply writeCtrl_kept
    | with_reducible apply writeTx_kept
    | with_reducible apply writeTxreq_kept
    | with_reducible apply ite_kept
    | split

theorem fbLocked_kept {k0 : Base} {s : State} (h : s.Kept k0) (n : FbNo) (f : FbUnit → FbUnit) : (State.fbLocked s n f).Kept k0 := by
  unfold State.fbLocked
  repeat' first
    | with_reducible assumption
    | with_reducible apply modFb_kept
    | with_reducible apply ite_kept

theorem writeFbCtrl_kept {k0 : Base} {s : State} (h : s.Kept k0) (n : FbNo) (v : Nat) : (State.writeFbCtrl s n v).Kept k0 := by
  unfold State.writeFbCtrl
  repeat' first
    | with_reducible assumption
    | (extract_lets +onlyGivenNames x
       have hx : State.Kept k0 x := by
        unfold x
        repeat' first
          | with_reducible assumption
          | with_reducible apply modFb_kept
          | with_reducible apply presetUnit_kept
          | with_reducible apply rearmUnit_kept
          | with_reducible apply ite_kept
          | (extract_lets +onlyGivenNames y; clear_value y)
                | (extract_lets +onlyGivenNames y; subst y)
       clear_value x)
    | (extract_lets +onlyGivenNames x; clear_value x)
    | (extract_lets +onlyGivenNames x; subst x)
    | with_reducible apply modFb_kept
    | with_reducible apply presetUnit_kept
    | with_reducible apply rearmUnit_kept
    | with_reducible apply ite_kept

theorem writeCmpctl_kept {k0 : Base} {s : State} (h : s.Kept k0) (n : FbNo) (v : Nat) : (State.writeCmpctl s n v).Kept k0 := by
  unfold State.writeCmpctl
  repeat' first
    | with_reducible assumption
    | (extract_lets +onlyGivenNames x
       have hx : State.Kept k0 x := by
        unfold x
        repeat' first
          | with_reducible assumption
          | with_reducible apply modFb_kept
          | with_reducible apply ite_kept
          | split
          | (extract_lets +onlyGivenNames y; clear_value y)
                | (extract_lets +onlyGivenNames y; subst y)
       clear_value x)
    | (extract_lets +onlyGivenNames x; clear_value x)
    | (extract_lets +onlyGivenNames x; subst x)
    | with_reducible apply modFb_kept
    | with_reducible apply ite_kept
    | split

theorem writePair_kept {k0 : Base} {s : State} (h : s.Kept k0) (n : FbNo) (o : Nat) (v : Int) : (State.writePair s n o v).Kept k0 := by
  unfold State.writePair
  repeat' first
    | with_reducible assumption
    | with_reducible apply modFb_kept
    | with_reducible apply writeCompare_kept
    | split

theorem writeHalf_kept {k0 : Base} {s : State} (h : s.Kept k0) (n : FbNo) (o : Nat) (v : Word) : (State.writeHalf s n o v).Kept k0 := by
  unfold State.writeHalf
  repeat' first
    | with_reducible assumption
    | (extract_lets +onlyGivenNames x
       have hx : State.Kept k0 x := by
        unfold x
        repeat' first
          | with_reducible assumption
          | exact fun hm => hm
          | exact fun _ hq => hq
          | with_reducible apply modMail_kept
          | with_reducible apply writePair_kept
          | with_reducible apply ite_kept
          | split
          | (intro _ _; (try dsimp only); split)
          | (extract_lets +onlyGivenNames y; clear_value y)
                | (extract_lets +onlyGivenNames y; subst y)
       clear_value x)
    | (extract_lets +onlyGivenNames x; clear_value x)
    | (extract_lets +onlyGivenNames x; subst x)
    | exact fun hm => hm
    | exact fun _ hq => hq
    | with_reducible apply modMail_kept
    | with_reducible apply writePair_kept
    | with_reducible apply ite_kept
    | split
    | (intro _ _; (try dsimp only); split)

theorem writeFb_kept {k0 : Base} {s : State} (h : s.Kept k0) (n : FbNo) (o : Nat) (v : Word) : (State.writeFb s n o v).Kept k0 := by
  unfold State.writeFb
  repeat' first
    | with_reducible assumption
    | with_reducible apply fbLocked_kept
    | with_reducible apply modFb_kept
    | with_reducible apply writeCmpctl_kept
    | with_reducible apply writeFbCtrl_kept
    | with_reducible apply writeHalf_kept
    | with_reducible apply ite_kept
    | split

theorem writeShared_kept {k0 : Base} {s : State} (h : s.Kept k0) (a : Nat) (v : Word) : (State.writeShared s a v).Kept k0 := by
  unfold State.writeShared
  repeat' first
    | with_reducible assumption
    | (extract_lets +onlyGivenNames x
       have hx : State.Kept k0 x := by
        unfold x
        repeat' first
          | with_reducible assumption
          | with_reducible apply ite_kept
          | split
          | (extract_lets +onlyGivenNames y; subst y)
          | with_reducible apply mk_kept
       clear_value x)
    | (extract_lets +onlyGivenNames x; subst x)
    | with_reducible apply ite_kept
    | split
    | with_reducible apply mk_kept

theorem writeReg_kept {k0 : Base} {s : State} (h : s.Kept k0) (a : Nat) (v : Word) : (State.writeReg s a v).Kept k0 := by
  unfold State.writeReg
  repeat' first
    | with_reducible assumption
    | with_reducible apply modSlot_kept
    | with_reducible apply writeBus_kept
    | with_reducible apply writeFb_kept
    | with_reducible apply writeGff_kept
    | with_reducible apply writeLog_kept
    | with_reducible apply writeMbx_kept
    | with_reducible apply writeShared_kept
    | with_reducible apply writeTest_kept
    | with_reducible apply ite_kept
    | split

theorem applyCells_kept {k0 : Base} {s : State} (h : s.Kept k0) (cells : List (Nat × Word)) : (State.applyCells s cells).Kept k0 := by
  unfold State.applyCells
  repeat' first
    | with_reducible assumption
    | (extract_lets +onlyGivenNames x
       have hx : State.Kept k0 x := by
        unfold x
        repeat' first
          | with_reducible assumption
          | with_reducible apply otherFrame_kept
          | with_reducible apply writeReg_kept
          | with_reducible apply foldl_kept
          | (intro z b hz; beta_reduce)
          | with_reducible apply ite_kept
          | (extract_lets +onlyGivenNames y; clear_value y)
                | (extract_lets +onlyGivenNames y; subst y)
       clear_value x)
    | (extract_lets +onlyGivenNames x; clear_value x)
    | (extract_lets +onlyGivenNames x; subst x)
    | with_reducible apply otherFrame_kept
    | with_reducible apply writeReg_kept
    | with_reducible apply foldl_kept
    | (intro z b hz; beta_reduce)
    | with_reducible apply ite_kept

theorem writeFrame_kept {k0 : Base} {s : State} (h : s.Kept k0) (f : HostFrame) (c : Command) : (State.writeFrame s f c).Kept k0 := by
  unfold State.writeFrame
  repeat' first
    | with_reducible assumption
    | (extract_lets +onlyGivenNames x
       have hx : State.Kept k0 x := by
        unfold x
        repeat' first
          | with_reducible assumption
          | exact fun hm => hm
          | exact fun _ hq => hq
          | with_reducible apply applyCells_kept
          | with_reducible apply mbxErr_kept
          | with_reducible apply modMail_kept
          | with_reducible apply ite_kept
          | (intro _ _; (try dsimp only); split)
          | (extract_lets +onlyGivenNames y; clear_value y)
                | (extract_lets +onlyGivenNames y; subst y)
       clear_value x)
    | (extract_lets +onlyGivenNames x; clear_value x)
    | (extract_lets +onlyGivenNames x; subst x)
    | exact fun hm => hm
    | exact fun _ hq => hq
    | with_reducible apply applyCells_kept
    | with_reducible apply mbxErr_kept
    | with_reducible apply modMail_kept
    | with_reducible apply ite_kept
    | (intro _ _; (try dsimp only); split)

theorem readFrame_kept {k0 : Base} {s : State} (h : s.Kept k0) (f : HostFrame) (c : Command) : (State.readFrame s f c).Kept k0 := by
  unfold State.readFrame
  extract_lets clocked lengthOk bad values go r crc trailer s1 s2
  have hgo : ∀ (l : List Nat) (z : State × List Word), z.1.Kept k0 → (l.foldl go z).1.Kept k0 := by
    intro l
    induction l with
    | nil => exact fun _ hz => hz
    | cons i r ih => exact fun z hz => ih _ (ite_kept (captureH_kept hz _) hz)
  have hr : r.1.Kept k0 := by
    unfold r
    exact ite_fst_kept h (hgo _ _ h)
  have h1 : s1.Kept k0 := by
    unfold s1
    exact modMail_kept hr _ fun hm => hm
  have h2 : s2.Kept k0 := by
    unfold s2
    exact ite_kept (mbxErr_kept h1 _) h1
  clear_value s2
  exact ite_kept (mbxErr_kept h2 _) (ite_kept (mbxErr_kept h2 _) (ite_kept (mbxErr_kept h2 _) h2))

theorem hostFrame_kept {k0 : Base} {s : State} (h : s.Kept k0) (f : HostFrame) : (State.hostFrame s f).Kept k0 := by
  unfold State.hostFrame
  repeat' first
    | with_reducible assumption
    | (extract_lets +onlyGivenNames x
       have hx : State.Kept k0 x := by
        unfold x
        repeat' first
          | with_reducible assumption
          | exact fun hm => hm
          | exact fun _ hq => hq
          | with_reducible apply modMail_kept
          | with_reducible apply readFrame_kept
          | with_reducible apply writeFrame_kept
          | with_reducible apply ite_kept
          | split
          | (intro _ _; (try dsimp only); split)
          | (extract_lets +onlyGivenNames y; clear_value y)
                | (extract_lets +onlyGivenNames y; subst y)
       clear_value x)
    | (extract_lets +onlyGivenNames x; clear_value x)
    | (extract_lets +onlyGivenNames x; subst x)
    | exact fun hm => hm
    | exact fun _ hq => hq
    | with_reducible apply modMail_kept
    | with_reducible apply readFrame_kept
    | with_reducible apply writeFrame_kept
    | with_reducible apply ite_kept
    | split
    | (intro _ _; (try dsimp only); split)

theorem loadReg_kept {k0 : Base} {s : State} (h : s.Kept k0) (a : Nat) (v : Word) : (State.loadReg s a v).Kept k0 := by
  unfold State.loadReg
  repeat' first
    | with_reducible assumption
    | with_reducible apply writeReg_kept
    | with_reducible apply ite_kept

end Sys2Proof.Machine.State
end

