-- ==== Sys2Proof/Laws/KeptImages.lean ====
section
/-! SUPPORT. Every operation of Machine/Images.lean keeps what Laws/Kept.lean names. -/

set_option Elab.async false

set_option linter.unusedTactic false
set_option linter.unreachableTactic false

namespace Sys2Proof.Machine.State

theorem loadNouns_kept {k0 : Base} {s : State} (h : s.Kept k0) (i : Image) : (State.loadNouns s i).Kept k0 := by
  unfold State.loadNouns
  extract_lets s0
  have h0 : s0.Kept k0 := nouns_kept h [] trivial _
  refine foldl_kept _ _ (fun z x hz => ite_kept ?_ hz) h0
  split
  · split
    · exact modEng_kept hz ..
    · exact setNoun_kept hz ..
  · exact hz

theorem loadRegions_kept {k0 : Base} {s : State} (h : s.Kept k0) (i : Image) : (State.loadRegions s i).Kept k0 := by
  unfold State.loadRegions
  extract_lets s0
  have h0 : s0.Kept k0 := groups_kept h _ fun _ hq => hq
  refine foldl_kept _ _ (fun z x hz => ?_) h0
  try dsimp only
  split
  · exact engines_kept hz _ fun he => ⟨sputs_canon _ _ (sputs_canon _ _ he.1), sputs_canon _ _ (sputs_canon _ _ he.2)⟩
  · exact hz

theorem loadTables_kept {k0 : Base} {s : State} (h : s.Kept k0) (i : Image) : (State.loadTables s i).Kept k0 := by
  unfold State.loadTables
  refine foldl_kept _ _ (fun z x hz => ?_) (tables_kept h [] trivial)
  try dsimp only
  split
  · exact foldl_kept _ _ (fun y p hy => setTableEntry_kept hy ..) hz
  · exact hz

theorem loadRegs_kept {k0 : Base} {s : State} (h : s.Kept k0) (i : Image) : (State.loadRegs s i).Kept k0 := by
  unfold State.loadRegs
  repeat' first
    | with_reducible assumption
    | with_reducible apply loadReg_kept
    | with_reducible apply foldl_kept
    | (intro z b hz; beta_reduce)
    | with_reducible apply ite_kept

end Sys2Proof.Machine.State
end

