-- ==== Sys2Proof/Laws/KeptStores.lean ====
section
/-! SUPPORT. Every operation of Machine/Stores.lean keeps what Laws/Kept.lean names. -/

set_option Elab.async false

set_option linter.unusedTactic false
set_option linter.unreachableTactic false

namespace Sys2Proof.Machine.State

theorem setTotals_kept {k0 : Base} {s : State} (h : s.Kept k0) (f : Nat → Counter) : (State.setTotals s f).Kept k0 := by
  obtain ⟨b1, b2, b3, h1, h2, h3, h4, h5, h6, h7, h8, h9, h10⟩ := h
  refine ⟨b1, b2, b3, h1, h2, h3, h4, h5, h6, h7, h8, h9, fun g => ?_⟩
  simpa [State.setTotals, Group.Inv] using h10 g

theorem recallTotals_kept {k0 : Base} {s : State} (h : s.Kept k0)  : (State.recallTotals s).Kept k0 := by
  unfold State.recallTotals
  repeat' first
    | with_reducible assumption
    | with_reducible apply setTotals_kept

theorem computeFigures_kept {k0 : Base} {s : State} (h : s.Kept k0)  : (State.computeFigures s).Kept k0 := by
  unfold State.computeFigures
  repeat' first
    | with_reducible assumption
    | with_reducible apply foldl_kept
    | (intro z b hz; beta_reduce)
    | with_reducible apply mk_kept

theorem transferLedger_kept {k0 : Base} {s : State} (h : s.Kept k0)  : (State.transferLedger s).Kept k0 := by
  unfold State.transferLedger
  repeat' first
    | with_reducible assumption
    | with_reducible apply computeFigures_kept
    | with_reducible apply mk_kept

theorem wipeLedger_kept {k0 : Base} {s : State} (h : s.Kept k0)  : (State.wipeLedger s).Kept k0 := by
  unfold State.wipeLedger
  repeat' first
    | with_reducible assumption
    | (extract_lets +onlyGivenNames x
       have hx : State.Kept k0 x := by
        unfold x
        repeat' first
          | with_reducible assumption
          | with_reducible apply computeFigures_kept
          | with_reducible apply setTotals_kept
          | (extract_lets +onlyGivenNames y; subst y)
          | with_reducible apply mk_kept
       clear_value x)
    | (extract_lets +onlyGivenNames x; subst x)
    | with_reducible apply computeFigures_kept
    | with_reducible apply setTotals_kept
    | with_reducible apply mk_kept

theorem clearLedger_kept {k0 : Base} {s : State} (h : s.Kept k0)  : (State.clearLedger s).Kept k0 := by
  unfold State.clearLedger
  repeat' first
    | with_reducible assumption
    | (extract_lets +onlyGivenNames x
       have hx : State.Kept k0 x := by
        unfold x
        repeat' first
          | with_reducible assumption
          | with_reducible apply finish_kept
          | with_reducible apply logEvent_kept
          | with_reducible apply wipeLedger_kept
          | split
          | (extract_lets +onlyGivenNames y; subst y)
          | with_reducible apply mk_kept
       clear_value x)
    | (extract_lets +onlyGivenNames x; subst x)
    | with_reducible apply finish_kept
    | with_reducible apply logEvent_kept
    | with_reducible apply wipeLedger_kept
    | split
    | with_reducible apply mk_kept

theorem compact_rising (k : Nat) (ws : List Word) : Rising k (compact k ws) := by
  induction ws generalizing k with
  | nil => trivial
  | cons w r ih =>
    simp only [compact]
    split
    · exact (ih (k + 1)).mono (Nat.le_succ k)
    · exact ⟨Nat.le_refl k, ih (k + 1)⟩

theorem compact_canon (k : Nat) (ws : List Word) : Canon 0 (compact k ws) := by
  refine ⟨(compact_rising k ws).mono (Nat.zero_le k), ?_⟩
  induction ws generalizing k with
  | nil => exact fun _ hp => absurd hp (List.not_mem_nil)
  | cons w r ih =>
    simp only [compact]
    split
    · exact ih (k + 1)
    · next hw =>
      intro p hp
      rcases List.mem_cons.mp hp with rfl | hp
      · exact hw
      · exact ih (k + 1) p hp

theorem takeCapture_kept {k0 : Base} {s : State} (h : s.Kept k0) : (State.takeCapture s).Kept k0 := by
  unfold State.takeCapture
  split
  · exact h
  · extract_lets img
    exact finish_kept (store_kept (drawn_kept h) _ (compact_canon _ _)) ..

theorem restrictPorts_kept {k0 : Base} {s : State} (h : s.Kept k0)  : (State.restrictPorts s).Kept k0 := by
  unfold State.restrictPorts
  repeat' first
    | with_reducible assumption
    | with_reducible apply modPort_kept
    | with_reducible apply eachFin_kept
    | (intro z b hz; beta_reduce)
    | with_reducible apply ite_kept

theorem loseProcessor_kept {k0 : Base} {s : State} (h : s.Kept k0)  : (State.loseProcessor s).Kept k0 := by
  unfold State.loseProcessor
  repeat' first
    | with_reducible assumption
    | (extract_lets +onlyGivenNames x
       have hx : State.Kept k0 x := by
        unfold x
        repeat' first
          | with_reducible assumption
          | with_reducible apply askEmergency_kept
          | with_reducible apply logEvent_kept
          | with_reducible apply restrictPorts_kept
          | with_reducible apply eachFin_kept
          | (intro z b hz; beta_reduce)
          | (extract_lets +onlyGivenNames y; subst y)
          | with_reducible apply mk_kept
       clear_value x)
    | (extract_lets +onlyGivenNames x; subst x)
    | with_reducible apply askEmergency_kept
    | with_reducible apply logEvent_kept
    | with_reducible apply restrictPorts_kept
    | with_reducible apply eachFin_kept
    | (intro z b hz; beta_reduce)
    | with_reducible apply mk_kept

theorem pairPunty_kept {k0 : Base} {s : State} (h : s.Kept k0) (core0 : Bool) (core1 : Bool) : (State.pairPunty s core0 core1).Kept k0 := by
  unfold State.pairPunty
  repeat' first
    | with_reducible assumption
    | (extract_lets +onlyGivenNames x
       have hx : State.Kept k0 x := by
        unfold x
        repeat' first
          | with_reducible assumption
          | with_reducible apply logEvent_kept
          | with_reducible apply loseProcessor_kept
          | with_reducible apply ite_kept
          | split
          | (extract_lets +onlyGivenNames y; subst y)
          | with_reducible apply mk_kept
       clear_value x)
    | (extract_lets +onlyGivenNames x; subst x)
    | with_reducible apply logEvent_kept
    | with_reducible apply loseProcessor_kept
    | with_reducible apply ite_kept
    | split
    | with_reducible apply mk_kept

theorem rollback_kept {k0 : Base} {s : State} (h : s.Kept k0) (newerOk : Bool) : (State.rollback s newerOk).Kept k0 := by
  unfold State.rollback
  repeat' first
    | with_reducible assumption
    | (extract_lets +onlyGivenNames x
       have hx : State.Kept k0 x := by
        unfold x
        repeat' first
          | with_reducible assumption
          | with_reducible apply logEvent_kept
          | with_reducible apply loseProcessor_kept
          | with_reducible apply ite_kept
          | (extract_lets +onlyGivenNames y; subst y)
          | with_reducible apply mk_kept
       clear_value x)
    | (extract_lets +onlyGivenNames x; subst x)
    | with_reducible apply logEvent_kept
    | with_reducible apply loseProcessor_kept
    | with_reducible apply ite_kept
    | with_reducible apply mk_kept

theorem mismatch_kept {k0 : Base} {s : State} (h : s.Kept k0) (newerOk : Bool) (core0 : Bool) (core1 : Bool) : (State.mismatch s newerOk core0 core1).Kept k0 := by
  unfold State.mismatch
  repeat' first
    | with_reducible assumption
    | (extract_lets +onlyGivenNames x
       have hx : State.Kept k0 x := by
        unfold x
        repeat' first
          | with_reducible assumption
          | with_reducible apply loseProcessor_kept
          | with_reducible apply pairPunty_kept
          | with_reducible apply rollback_kept
          | with_reducible apply ite_kept
          | split
          | (extract_lets +onlyGivenNames y; clear_value y)
                | (extract_lets +onlyGivenNames y; subst y)
       clear_value x)
    | (extract_lets +onlyGivenNames x; clear_value x)
    | (extract_lets +onlyGivenNames x; subst x)
    | with_reducible apply loseProcessor_kept
    | with_reducible apply pairPunty_kept
    | with_reducible apply rollback_kept
    | with_reducible apply ite_kept
    | split

theorem recountAges_kept {k0 : Base} {s : State} (h : s.Kept k0)  : (State.recountAges s).Kept k0 := by
  unfold State.recountAges
  repeat' first
    | with_reducible assumption
    | exact rfl
    | with_reducible apply mk_keep_kept

theorem writeBlock_kept {k0 : Base} {s : State} (h : s.Kept k0) (b : Nat) : (State.writeBlock s b).Kept k0 := by
  unfold State.writeBlock
  repeat' first
    | with_reducible assumption
    | exact rfl
    | with_reducible apply mk_keep_kept

theorem usePool_kept {k0 : Base} {s : State} (h : s.Kept k0)  : (State.usePool s).Kept k0 := by
  unfold State.usePool
  repeat' first
    | with_reducible assumption
    | (extract_lets +onlyGivenNames x
       have hx : State.Kept k0 x := by
        unfold x
        repeat' first
          | with_reducible assumption
          | exact rfl
          | (extract_lets +onlyGivenNames y; subst y)
          | with_reducible apply mk_keep_kept
       clear_value x)
    | (extract_lets +onlyGivenNames x; subst x)
    | exact rfl
    | with_reducible apply mk_keep_kept

theorem retireBlock_kept {k0 : Base} {s : State} (h : s.Kept k0) (b : Fin 64) : (State.retireBlock s b).Kept k0 := by
  unfold State.retireBlock
  repeat' first
    | with_reducible assumption
    | (extract_lets +onlyGivenNames x
       have hx : State.Kept k0 x := by
        unfold x
        repeat' first
          | with_reducible assumption
          | with_reducible apply askEmergency_kept
          | with_reducible apply logEvent_kept
          | with_reducible apply usePool_kept
          | with_reducible apply writeBlock_kept
          | with_reducible apply eachFin_kept
          | (intro z b hz; beta_reduce)
          | with_reducible apply ite_kept
          | exact rfl
          | (extract_lets +onlyGivenNames y; subst y)
          | with_reducible apply mk_keep_kept
       clear_value x)
    | (extract_lets +onlyGivenNames x; subst x)
    | with_reducible apply askEmergency_kept
    | with_reducible apply logEvent_kept
    | with_reducible apply usePool_kept
    | with_reducible apply writeBlock_kept
    | with_reducible apply eachFin_kept
    | (intro z b hz; beta_reduce)
    | with_reducible apply ite_kept
    | exact rfl
    | with_reducible apply mk_keep_kept

theorem scrubCoef_kept {k0 : Base} {s : State} (h : s.Kept k0) (inA : Bool) (words : List (Fin 16384)) : (State.scrubCoef s inA words).Kept k0 := by
  unfold State.scrubCoef
  repeat' first
    | with_reducible assumption
    | (extract_lets +onlyGivenNames x
       have hx : State.Kept k0 x := by
        unfold x
        repeat' first
          | with_reducible assumption
          | with_reducible apply copyWords_kept
          | with_reducible apply loseWords_kept
          | with_reducible apply foldl_kept
          | with_reducible apply eachFin_kept
          | (intro z b hz; beta_reduce)
          | with_reducible apply ite_kept
          | split
          | exact rfl
          | (extract_lets +onlyGivenNames y; subst y)
          | with_reducible apply mk_keep_kept
       clear_value x)
    | (extract_lets +onlyGivenNames x; subst x)
    | with_reducible apply copyWords_kept
    | with_reducible apply loseWords_kept
    | with_reducible apply foldl_kept
    | with_reducible apply eachFin_kept
    | (intro z b hz; beta_reduce)
    | with_reducible apply ite_kept
    | split
    | exact rfl
    | with_reducible apply mk_keep_kept

theorem scrubBlocks_kept {k0 : Base} {s : State} (h : s.Kept k0) (blocks : List (Fin 64)) : (State.scrubBlocks s blocks).Kept k0 := by
  unfold State.scrubBlocks
  repeat' first
    | with_reducible assumption
    | (extract_lets +onlyGivenNames x
       have hx : State.Kept k0 x := by
        unfold x
        repeat' first
          | with_reducible assumption
          | with_reducible apply retireBlock_kept
          | with_reducible apply foldl_kept
          | (intro z b hz; beta_reduce)
          | (extract_lets +onlyGivenNames y; subst y)
          | with_reducible apply mk_kept
       clear_value x)
    | (extract_lets +onlyGivenNames x; subst x)
    | with_reducible apply retireBlock_kept
    | with_reducible apply foldl_kept
    | (intro z b hz; beta_reduce)
    | with_reducible apply mk_kept

theorem scrubImage_kept {k0 : Base} {s : State} (h : s.Kept k0) (i : Fin 2) (rewriteOk : Bool) : (State.scrubImage s i rewriteOk).Kept k0 := by
  unfold State.scrubImage
  repeat' first
    | with_reducible assumption
    | with_reducible apply logEvent_kept
    | with_reducible apply ite_kept
    | with_reducible apply mk_kept

theorem scrubRetention_kept {k0 : Base} {s : State} (h : s.Kept k0)  : (State.scrubRetention s).Kept k0 := by
  unfold State.scrubRetention
  repeat' first
    | with_reducible assumption
    | with_reducible apply drawn_kept
    | with_reducible apply logEvent_kept
    | exact rfl
    | with_reducible apply mk_keep_kept

theorem scrubSram_kept {k0 : Base} {s : State} (h : s.Kept k0) (inFirmwareData : Bool) : (State.scrubSram s inFirmwareData).Kept k0 := by
  unfold State.scrubSram
  repeat' first
    | with_reducible assumption
    | (extract_lets +onlyGivenNames x
       have hx : State.Kept k0 x := by
        unfold x
        repeat' first
          | with_reducible assumption
          | with_reducible apply drawn_kept
          | with_reducible apply mismatch_kept
          | with_reducible apply ite_kept
          | (extract_lets +onlyGivenNames y; subst y)
          | with_reducible apply mk_kept
       clear_value x)
    | (extract_lets +onlyGivenNames x; subst x)
    | with_reducible apply drawn_kept
    | with_reducible apply mismatch_kept
    | with_reducible apply ite_kept
    | with_reducible apply mk_kept

theorem refreshFailed_kept {k0 : Base} {s : State} (h : s.Kept k0) (b : Nat) : (State.refreshFailed s b).Kept k0 := by
  unfold State.refreshFailed
  repeat' first
    | with_reducible assumption
    | (extract_lets +onlyGivenNames x
       have hx : State.Kept k0 x := by
        unfold x
        repeat' first
          | with_reducible assumption
          | with_reducible apply retireBlock_kept
          | with_reducible apply usePool_kept
          | with_reducible apply ite_kept
          | split
          | (extract_lets +onlyGivenNames y; clear_value y)
                | (extract_lets +onlyGivenNames y; subst y)
       clear_value x)
    | (extract_lets +onlyGivenNames x; clear_value x)
    | (extract_lets +onlyGivenNames x; subst x)
    | with_reducible apply retireBlock_kept
    | with_reducible apply usePool_kept
    | with_reducible apply ite_kept
    | split

theorem keeperMinute_kept {k0 : Base} {s : State} (h : s.Kept k0)  : (State.keeperMinute s).Kept k0 := by
  unfold State.keeperMinute
  repeat' first
    | with_reducible assumption
    | (extract_lets +onlyGivenNames x
       have hx : State.Kept k0 x := by
        unfold x
        repeat' first
          | with_reducible assumption
          | (extract_lets +onlyGivenNames y; subst y)
          | with_reducible apply mk_kept
       clear_value x)
    | (extract_lets +onlyGivenNames x; subst x)
    | with_reducible apply mk_kept

theorem addLife_kept {k0 : Base} {s : State} (h : s.Kept k0) (tenths : Int) (seconds : Nat) : (State.addLife s tenths seconds).Kept k0 := by
  unfold State.addLife
  repeat' first
    | with_reducible assumption
    | (extract_lets +onlyGivenNames x
       have hx : State.Kept k0 x := by
        unfold x
        repeat' first
          | with_reducible assumption
          | with_reducible apply recountAges_kept
          | (extract_lets +onlyGivenNames y; subst y)
          | with_reducible apply mk_kept
       clear_value x)
    | (extract_lets +onlyGivenNames x; subst x)
    | with_reducible apply recountAges_kept
    | with_reducible apply mk_kept

theorem commitHeader_kept {k0 : Base} {s : State} (h : s.Kept k0) (t : Nat) (c : Fin 2) (seq : Nat) : (State.commitHeader s t c seq).Kept k0 := by
  unfold State.commitHeader
  repeat' first
    | with_reducible assumption
    | (extract_lets +onlyGivenNames x
       have hx : State.Kept k0 x := by
        unfold x
        repeat' first
          | with_reducible assumption
          | exact fun _ hk => hk
          | exact fun _ => rfl
          | with_reducible apply finish_kept
          | with_reducible apply logEvent_kept
          | with_reducible apply modTicket_kept
          | with_reducible apply recountAges_kept
          | with_reducible apply writeBlock_kept
          | with_reducible apply foldl_kept
          | (intro z b hz; beta_reduce)
          | exact rfl
          | (extract_lets +onlyGivenNames y; subst y)
          | with_reducible apply mk_keep_kept
       clear_value x)
    | (extract_lets +onlyGivenNames x; subst x)
    | exact fun _ hk => hk
    | exact fun _ => rfl
    | with_reducible apply finish_kept
    | with_reducible apply logEvent_kept
    | with_reducible apply modTicket_kept
    | with_reducible apply recountAges_kept
    | with_reducible apply writeBlock_kept
    | with_reducible apply foldl_kept
    | (intro z b hz; beta_reduce)
    | exact rfl
    | with_reducible apply mk_keep_kept

end Sys2Proof.Machine.State
end

