-- ==== Sys2Proof/Laws/KeptVerbs.lean ====
section
/-! SUPPORT. Every operation of Machine/Verbs.lean keeps what Laws/Kept.lean names. -/

set_option Elab.async false

set_option linter.unusedTactic false
set_option linter.unreachableTactic false

namespace Sys2Proof.Machine.State

theorem readBlock_kept {k0 : Base} {s : State} (h : s.Kept k0) (k : Ticket) (c : NounClass) : (State.readBlock s k c).Kept k0 := by
  unfold State.readBlock
  repeat' first
    | with_reducible assumption
    | with_reducible apply AState.num_kept
    | with_reducible apply CState.num_kept
    | with_reducible apply SState.num_kept
    | with_reducible apply SlotState.num_kept
    | with_reducible apply TxState.num_kept
    | with_reducible apply YState.num_kept
    | with_reducible apply finish_kept
    | with_reducible apply ite_kept
    | split

theorem readParameters_kept {k0 : Base} {s : State} (h : s.Kept k0) (k : Ticket) (p : NounSpec) : (State.readParameters s k p).Kept k0 := by
  unfold State.readParameters
  repeat' first
    | with_reducible assumption
    | (extract_lets +onlyGivenNames x
       have hx : State.Kept k0 x := by
        unfold x
        repeat' first
          | with_reducible assumption
          | with_reducible apply AState.num_kept
          | with_reducible apply CState.num_kept
          | with_reducible apply SState.num_kept
          | with_reducible apply SlotState.num_kept
          | with_reducible apply TxState.num_kept
          | with_reducible apply YState.num_kept
          | with_reducible apply finish_kept
          | with_reducible apply ite_kept
          | (extract_lets +onlyGivenNames y; clear_value y)
                | (extract_lets +onlyGivenNames y; subst y)
       clear_value x)
    | (extract_lets +onlyGivenNames x; clear_value x)
    | (extract_lets +onlyGivenNames x; subst x)
    | with_reducible apply AState.num_kept
    | with_reducible apply CState.num_kept
    | with_reducible apply SState.num_kept
    | with_reducible apply SlotState.num_kept
    | with_reducible apply TxState.num_kept
    | with_reducible apply YState.num_kept
    | with_reducible apply finish_kept
    | with_reducible apply ite_kept

theorem dropSessions_kept {k0 : Base} {s : State} (h : s.Kept k0) (p : Port) : (State.dropSessions s p).Kept k0 := by
  unfold State.dropSessions
  repeat' first
    | with_reducible assumption
    | with_reducible apply modBufs_kept
    | with_reducible apply ite_kept

theorem dropRoster_kept {k0 : Base} {s : State} (h : s.Kept k0) (p : Port) : (State.dropRoster s p).Kept k0 :=
  modRoster_kept h _ fun hr => ⟨hr.1.filter _, Nat.le_trans (List.length_filter_le ..) hr.2⟩

theorem latched_kept {k0 : Base} {s : State} (h : s.Kept k0) (k : Ticket) : (State.latched s k).Kept k0 := by
  unfold State.latched
  repeat' first
    | with_reducible assumption
    | with_reducible apply AState.num_kept
    | with_reducible apply CState.num_kept
    | with_reducible apply SState.num_kept
    | with_reducible apply SlotState.num_kept
    | with_reducible apply TxState.num_kept
    | with_reducible apply YState.num_kept
    | with_reducible apply present_kept
    | with_reducible apply running_kept
    | with_reducible apply ite_kept

theorem setMode_kept {k0 : Base} {s : State} (h : s.Kept k0) (k : Ticket) (m : Main) (code : Nat) : (State.setMode s k m code).Kept k0 := by
  unfold State.setMode
  repeat' first
    | with_reducible assumption
    | (extract_lets +onlyGivenNames x
       have hx : State.Kept k0 x := by
        unfold x
        repeat' first
          | with_reducible assumption
          | with_reducible apply AState.num_kept
          | with_reducible apply CState.num_kept
          | with_reducible apply SState.num_kept
          | with_reducible apply SlotState.num_kept
          | with_reducible apply TxState.num_kept
          | with_reducible apply YState.num_kept
          | with_reducible apply emit_kept
          | with_reducible apply finish_kept
          | with_reducible apply modEng_kept
          | with_reducible apply running_kept
          | with_reducible apply ite_kept
          | split
          | (extract_lets +onlyGivenNames y; clear_value y)
                | (extract_lets +onlyGivenNames y; subst y)
       clear_value x)
    | (extract_lets +onlyGivenNames x; clear_value x)
    | (extract_lets +onlyGivenNames x; subst x)
    | with_reducible apply AState.num_kept
    | with_reducible apply CState.num_kept
    | with_reducible apply SState.num_kept
    | with_reducible apply SlotState.num_kept
    | with_reducible apply TxState.num_kept
    | with_reducible apply YState.num_kept
    | with_reducible apply emit_kept
    | with_reducible apply finish_kept
    | with_reducible apply modEng_kept
    | with_reducible apply running_kept
    | with_reducible apply ite_kept
    | split

theorem storeNow_kept {k0 : Base} {s : State} (h : s.Kept k0) (k : Ticket) (v : Int) : (State.storeNow s k v).Kept k0 := by
  unfold State.storeNow
  repeat' first
    | with_reducible assumption
    | with_reducible apply AState.num_kept
    | with_reducible apply CState.num_kept
    | with_reducible apply SState.num_kept
    | with_reducible apply SlotState.num_kept
    | with_reducible apply TxState.num_kept
    | with_reducible apply YState.num_kept
    | with_reducible apply finish_kept
    | with_reducible apply takeNoun_kept

theorem setAtSample_kept {k0 : Base} {s : State} (h : s.Kept k0) (k : Ticket) (v : Int) : (State.setAtSample s k v).Kept k0 := by
  unfold State.setAtSample
  repeat' first
    | with_reducible assumption
    | with_reducible apply AState.num_kept
    | with_reducible apply CState.num_kept
    | with_reducible apply SState.num_kept
    | with_reducible apply SlotState.num_kept
    | with_reducible apply TxState.num_kept
    | with_reducible apply YState.num_kept
    | with_reducible apply emit_kept
    | with_reducible apply latched_kept
    | with_reducible apply storeNow_kept
    | with_reducible apply ite_kept
    | split

theorem applySet_kept {k0 : Base} {s : State} (h : s.Kept k0) (k : Ticket) (c : NounClass) (p : NounSpec) (v : Int) : (State.applySet s k c p v).Kept k0 := by
  unfold State.applySet
  repeat' first
    | with_reducible assumption
    | exact fun _ hk => hk
    | exact fun _ => rfl
    | with_reducible apply AState.num_kept
    | with_reducible apply CState.num_kept
    | with_reducible apply SState.num_kept
    | with_reducible apply SlotState.num_kept
    | with_reducible apply TxState.num_kept
    | with_reducible apply YState.num_kept
    | with_reducible apply dropRoster_kept
    | with_reducible apply dropSessions_kept
    | with_reducible apply finish_kept
    | with_reducible apply latchTrack_kept
    | with_reducible apply modTicket_kept
    | with_reducible apply ownTxb2_kept
    | with_reducible apply present_kept
    | with_reducible apply running_kept
    | with_reducible apply setAtSample_kept
    | with_reducible apply setMode_kept
    | with_reducible apply setNoun_kept
    | with_reducible apply storeNow_kept
    | with_reducible apply ite_kept
    | split

theorem writeRegion_kept {k0 : Base} {s : State} (h : s.Kept k0) (k : Ticket) (g : Grp) : (State.writeRegion s k g).Kept k0 := by
  unfold State.writeRegion
  extract_lets x n sel off live locked
  split
  · exact finish_kept h ..
  · refine ite_kept' (fun _ => h) fun hr => ?_
    refine modGroup_kept_at (running_kept (present_kept h _) _) _ _ ?_
    have hg : ((s.present k.num).running k.num).groups = s.groups := present_groups s k.num
    have hq : ((s.groups[g]).queue).length ≤ 256 := h.inv.2.2.2.2.2.2.2.2.2 g
    simp only [Group.Inv, hg, List.length_append, writeEntries, List.length_map, List.length_zipIdx]
    have hr' : ¬(256 - ((s.groups[g]).queue).length < x.payload.length) := hr
    omega

theorem writeTable_kept {k0 : Base} {s : State} (h : s.Kept k0) (k : Ticket) (t : Fin 8) : (State.writeTable s k t).Kept k0 := by
  unfold State.writeTable
  repeat' first
    | with_reducible assumption
    | (extract_lets +onlyGivenNames x
       have hx : State.Kept k0 x := by
        unfold x
        repeat' first
          | with_reducible assumption
          | with_reducible apply AState.num_kept
          | with_reducible apply CState.num_kept
          | with_reducible apply SState.num_kept
          | with_reducible apply SlotState.num_kept
          | with_reducible apply TxState.num_kept
          | with_reducible apply YState.num_kept
          | with_reducible apply finish_kept
          | with_reducible apply setTableEntry_kept
          | with_reducible apply foldl_kept
          | (intro z b hz; beta_reduce)
          | split
          | (extract_lets +onlyGivenNames y; clear_value y)
                | (extract_lets +onlyGivenNames y; subst y)
       clear_value x)
    | (extract_lets +onlyGivenNames x; clear_value x)
    | (extract_lets +onlyGivenNames x; subst x)
    | with_reducible apply AState.num_kept
    | with_reducible apply CState.num_kept
    | with_reducible apply SState.num_kept
    | with_reducible apply SlotState.num_kept
    | with_reducible apply TxState.num_kept
    | with_reducible apply YState.num_kept
    | with_reducible apply finish_kept
    | with_reducible apply setTableEntry_kept
    | with_reducible apply foldl_kept
    | (intro z b hz; beta_reduce)
    | split

theorem writeStaging_kept {k0 : Base} {s : State} (h : s.Kept k0) (k : Ticket) : (State.writeStaging s k).Kept k0 := by
  unfold State.writeStaging
  extract_lets x n
  split
  · exact finish_kept h ..
  · exact finish_kept (store_kept h _ (sputs_canon _ _ h.inv.2.2.2.2.2.1)) ..

theorem enableAxis_kept {k0 : Base} {s : State} (h : s.Kept k0) (x : GenId) (t : Nat) : (State.enableAxis s x t).Kept k0 := by
  unfold State.enableAxis
  repeat' first
    | with_reducible assumption
    | (extract_lets +onlyGivenNames x
       have hx : State.Kept k0 x := by
        unfold x
        repeat' first
          | with_reducible assumption
          | with_reducible apply clearLatch_kept
          | with_reducible apply modAux_kept
          | with_reducible apply modGen_kept
          | with_reducible apply modMain_kept
          | split
          | (extract_lets +onlyGivenNames y; clear_value y)
                | (extract_lets +onlyGivenNames y; subst y)
       clear_value x)
    | (extract_lets +onlyGivenNames x; clear_value x)
    | (extract_lets +onlyGivenNames x; subst x)
    | with_reducible apply clearLatch_kept
    | with_reducible apply modAux_kept
    | with_reducible apply modGen_kept
    | with_reducible apply modMain_kept
    | split

theorem requestTorque_kept {k0 : Base} {s : State} (h : s.Kept k0) (x : GenId) : (State.requestTorque s x).Kept k0 := by
  unfold State.requestTorque
  repeat' first
    | with_reducible assumption
    | with_reducible apply modReq_kept
    | split

theorem enable_kept {k0 : Base} {s : State} (h : s.Kept k0) (k : Ticket) (x : GenId) (g : Grp) : (State.enable s k x g).Kept k0 := by
  unfold State.enable
  repeat' first
    | with_reducible assumption
    | (extract_lets +onlyGivenNames x
       have hx : State.Kept k0 x := by
        unfold x
        repeat' first
          | with_reducible assumption
          | exact fun hm => hm
          | exact fun _ hq => hq
          | with_reducible apply AState.num_kept
          | with_reducible apply CState.num_kept
          | with_reducible apply SState.num_kept
          | with_reducible apply SlotState.num_kept
          | with_reducible apply TxState.num_kept
          | with_reducible apply YState.num_kept
          | with_reducible apply enableAxis_kept
          | with_reducible apply finish_kept
          | with_reducible apply modGroup_kept
          | with_reducible apply present_kept
          | with_reducible apply requestTorque_kept
          | with_reducible apply running_kept
          | with_reducible apply tryStart_kept
          | with_reducible apply ite_kept
          | split
          | (intro _ _; (try dsimp only); split)
          | (extract_lets +onlyGivenNames y; clear_value y)
                | (extract_lets +onlyGivenNames y; subst y)
       clear_value x)
    | (extract_lets +onlyGivenNames x; clear_value x)
    | (extract_lets +onlyGivenNames x; subst x)
    | exact fun hm => hm
    | exact fun _ hq => hq
    | with_reducible apply AState.num_kept
    | with_reducible apply CState.num_kept
    | with_reducible apply SState.num_kept
    | with_reducible apply SlotState.num_kept
    | with_reducible apply TxState.num_kept
    | with_reducible apply YState.num_kept
    | with_reducible apply enableAxis_kept
    | with_reducible apply finish_kept
    | with_reducible apply modGroup_kept
    | with_reducible apply present_kept
    | with_reducible apply requestTorque_kept
    | with_reducible apply running_kept
    | with_reducible apply tryStart_kept
    | with_reducible apply ite_kept
    | split
    | (intro _ _; (try dsimp only); split)

theorem disableAxis_kept {k0 : Base} {s : State} (h : s.Kept k0) (x : GenId) : (State.disableAxis s x).Kept k0 := by
  unfold State.disableAxis
  repeat' first
    | with_reducible assumption
    | (extract_lets +onlyGivenNames x
       have hx : State.Kept k0 x := by
        unfold x
        repeat' first
          | with_reducible assumption
          | with_reducible apply disableAux_kept
          | with_reducible apply disableMain_kept
          | with_reducible apply dropTicket_kept
          | with_reducible apply haltPath_kept
          | with_reducible apply ite_kept
          | split
          | (extract_lets +onlyGivenNames y; clear_value y)
                | (extract_lets +onlyGivenNames y; subst y)
       clear_value x)
    | (extract_lets +onlyGivenNames x; clear_value x)
    | (extract_lets +onlyGivenNames x; subst x)
    | with_reducible apply disableAux_kept
    | with_reducible apply disableMain_kept
    | with_reducible apply dropTicket_kept
    | with_reducible apply haltPath_kept
    | with_reducible apply ite_kept
    | split

theorem setStopTicket_kept {k0 : Base} {s : State} (h : s.Kept k0) (x : GenId) (t : Option Nat) : (State.setStopTicket s x t).Kept k0 := by
  unfold State.setStopTicket
  repeat' first
    | with_reducible assumption
    | with_reducible apply modAux_kept
    | with_reducible apply modMain_kept
    | split

theorem disable_kept {k0 : Base} {s : State} (h : s.Kept k0) (k : Ticket) (x : GenId) : (State.disable s k x).Kept k0 := by
  unfold State.disable
  repeat' first
    | with_reducible assumption
    | (extract_lets +onlyGivenNames x
       have hx : State.Kept k0 x := by
        unfold x
        repeat' first
          | with_reducible assumption
          | with_reducible apply AState.num_kept
          | with_reducible apply CState.num_kept
          | with_reducible apply SState.num_kept
          | with_reducible apply SlotState.num_kept
          | with_reducible apply TxState.num_kept
          | with_reducible apply YState.num_kept
          | with_reducible apply disableAxis_kept
          | with_reducible apply finish_kept
          | with_reducible apply finishOpt_kept
          | with_reducible apply present_kept
          | with_reducible apply running_kept
          | with_reducible apply setStopTicket_kept
          | with_reducible apply ite_kept
          | (extract_lets +onlyGivenNames y; clear_value y)
                | (extract_lets +onlyGivenNames y; subst y)
       clear_value x)
    | (extract_lets +onlyGivenNames x; clear_value x)
    | (extract_lets +onlyGivenNames x; subst x)
    | with_reducible apply AState.num_kept
    | with_reducible apply CState.num_kept
    | with_reducible apply SState.num_kept
    | with_reducible apply SlotState.num_kept
    | with_reducible apply TxState.num_kept
    | with_reducible apply YState.num_kept
    | with_reducible apply disableAxis_kept
    | with_reducible apply finish_kept
    | with_reducible apply finishOpt_kept
    | with_reducible apply present_kept
    | with_reducible apply running_kept
    | with_reducible apply setStopTicket_kept
    | with_reducible apply ite_kept

theorem moveAxis_kept {k0 : Base} {s : State} (h : s.Kept k0) (k : Ticket) (x : GenId) (g : Grp) : (State.moveAxis s k x g).Kept k0 := by
  unfold State.moveAxis
  repeat' first
    | with_reducible assumption
    | with_reducible apply AState.num_kept
    | with_reducible apply CState.num_kept
    | with_reducible apply SState.num_kept
    | with_reducible apply SlotState.num_kept
    | with_reducible apply TxState.num_kept
    | with_reducible apply YState.num_kept
    | with_reducible apply emit_kept
    | with_reducible apply finish_kept
    | with_reducible apply latched_kept
    | split

theorem movePath_kept {k0 : Base} {s : State} (h : s.Kept k0) (k : Ticket) (g : Grp) : (State.movePath s k g).Kept k0 := by
  unfold State.movePath
  repeat' first
    | with_reducible assumption
    | (extract_lets +onlyGivenNames x
       have hx : State.Kept k0 x := by
        unfold x
        repeat' first
          | with_reducible assumption
          | with_reducible apply AState.num_kept
          | with_reducible apply CState.num_kept
          | with_reducible apply SState.num_kept
          | with_reducible apply SlotState.num_kept
          | with_reducible apply TxState.num_kept
          | with_reducible apply YState.num_kept
          | with_reducible apply emit_kept
          | with_reducible apply finish_kept
          | with_reducible apply latched_kept
          | split
          | (extract_lets +onlyGivenNames y; clear_value y)
                | (extract_lets +onlyGivenNames y; subst y)
       clear_value x)
    | (extract_lets +onlyGivenNames x; clear_value x)
    | (extract_lets +onlyGivenNames x; subst x)
    | with_reducible apply AState.num_kept
    | with_reducible apply CState.num_kept
    | with_reducible apply SState.num_kept
    | with_reducible apply SlotState.num_kept
    | with_reducible apply TxState.num_kept
    | with_reducible apply YState.num_kept
    | with_reducible apply emit_kept
    | with_reducible apply finish_kept
    | with_reducible apply latched_kept
    | split

theorem haltAxis_kept {k0 : Base} {s : State} (h : s.Kept k0) (k : Ticket) (x : GenId) : (State.haltAxis s k x).Kept k0 := by
  unfold State.haltAxis
  repeat' first
    | with_reducible assumption
    | with_reducible apply AState.num_kept
    | with_reducible apply CState.num_kept
    | with_reducible apply SState.num_kept
    | with_reducible apply SlotState.num_kept
    | with_reducible apply TxState.num_kept
    | with_reducible apply YState.num_kept
    | with_reducible apply emit_kept
    | with_reducible apply finish_kept
    | with_reducible apply latched_kept
    | with_reducible apply ite_kept
    | split

theorem haltGroup_kept {k0 : Base} {s : State} (h : s.Kept k0) (k : Ticket) (g : Grp) : (State.haltGroup s k g).Kept k0 := by
  unfold State.haltGroup
  repeat' first
    | with_reducible assumption
    | with_reducible apply AState.num_kept
    | with_reducible apply CState.num_kept
    | with_reducible apply SState.num_kept
    | with_reducible apply SlotState.num_kept
    | with_reducible apply TxState.num_kept
    | with_reducible apply YState.num_kept
    | with_reducible apply emit_kept
    | with_reducible apply finish_kept
    | with_reducible apply latched_kept
    | with_reducible apply ite_kept

theorem followGroup_kept {k0 : Base} {s : State} (h : s.Kept k0) (k : Ticket) (g : Grp) : (State.followGroup s k g).Kept k0 := by
  unfold State.followGroup
  repeat' first
    | with_reducible assumption
    | with_reducible apply AState.num_kept
    | with_reducible apply CState.num_kept
    | with_reducible apply SState.num_kept
    | with_reducible apply SlotState.num_kept
    | with_reducible apply TxState.num_kept
    | with_reducible apply YState.num_kept
    | with_reducible apply emit_kept
    | with_reducible apply finish_kept
    | with_reducible apply latched_kept
    | split

theorem homeAxis_kept {k0 : Base} {s : State} (h : s.Kept k0) (k : Ticket) (a : AuxNo) : (State.homeAxis s k a).Kept k0 := by
  unfold State.homeAxis
  repeat' first
    | with_reducible assumption
    | with_reducible apply AState.num_kept
    | with_reducible apply CState.num_kept
    | with_reducible apply SState.num_kept
    | with_reducible apply SlotState.num_kept
    | with_reducible apply TxState.num_kept
    | with_reducible apply YState.num_kept
    | with_reducible apply emit_kept
    | with_reducible apply finish_kept
    | with_reducible apply latched_kept
    | with_reducible apply ite_kept
    | split

theorem abortInFlight_kept {k0 : Base} {s : State} (h : s.Kept k0) (t : Nat) (k : Ticket) : (State.abortInFlight s t k).Kept k0 := by
  unfold State.abortInFlight
  repeat' first
    | with_reducible assumption
    | with_reducible apply AState.num_kept
    | with_reducible apply CState.num_kept
    | with_reducible apply SState.num_kept
    | with_reducible apply SlotState.num_kept
    | with_reducible apply TxState.num_kept
    | with_reducible apply YState.num_kept
    | with_reducible apply emit_kept
    | with_reducible apply finish_kept
    | with_reducible apply present_kept
    | with_reducible apply running_kept
    | with_reducible apply ite_kept
    | split
    | exact rfl
    | with_reducible apply mk_keep_kept

theorem beginCommit_kept {k0 : Base} {s : State} (h : s.Kept k0) (t : Nat) : (State.beginCommit s t).Kept k0 := by
  unfold State.beginCommit
  repeat' first
    | with_reducible assumption
    | (extract_lets +onlyGivenNames x
       have hx : State.Kept k0 x := by
        unfold x
        repeat' first
          | with_reducible assumption
          | with_reducible apply finish_kept
          | with_reducible apply present_kept
          | with_reducible apply running_kept
          | split
          | exact rfl
          | (extract_lets +onlyGivenNames y; subst y)
          | with_reducible apply mk_keep_kept
       clear_value x)
    | (extract_lets +onlyGivenNames x; subst x)
    | with_reducible apply finish_kept
    | with_reducible apply present_kept
    | with_reducible apply running_kept
    | split
    | exact rfl
    | with_reducible apply mk_keep_kept

theorem forceRestart_kept {k0 : Base} {s : State} (h : s.Kept k0) (t : Nat) : (State.forceRestart s t).Kept k0 := by
  unfold State.forceRestart
  repeat' first
    | with_reducible assumption
    | (extract_lets +onlyGivenNames x
       have hx : State.Kept k0 x := by
        unfold x
        repeat' first
          | with_reducible assumption
          | with_reducible apply disableAxis_kept
          | with_reducible apply modPower_kept
          | with_reducible apply present_kept
          | with_reducible apply running_kept
          | with_reducible apply foldl_kept
          | (intro z b hz; beta_reduce)
          | with_reducible apply ite_kept
          | (extract_lets +onlyGivenNames y; clear_value y)
                | (extract_lets +onlyGivenNames y; subst y)
       clear_value x)
    | (extract_lets +onlyGivenNames x; clear_value x)
    | (extract_lets +onlyGivenNames x; subst x)
    | with_reducible apply disableAxis_kept
    | with_reducible apply modPower_kept
    | with_reducible apply present_kept
    | with_reducible apply running_kept
    | with_reducible apply foldl_kept
    | (intro z b hz; beta_reduce)
    | with_reducible apply ite_kept

end Sys2Proof.Machine.State
end

