-- ==== Sys2Proof/Laws/KeptStarts.lean ====
section
/-! SUPPORT. Every operation of Machine/Starts.lean keeps what Laws/Kept.lean names. -/

set_option Elab.async false

set_option linter.unusedTactic false
set_option linter.unreachableTactic false

namespace Sys2Proof.Machine.State

theorem dieOff_kept {k0 : Base} {s : State} (h : s.Kept k0) : (State.dieOff s).Kept k0 := by
  obtain ⟨b1, b2, b3, _, h2, _, _, _, _, _, _, h9, _⟩ := h
  refine ⟨b1, b2, b3, ⟨Nat.zero_le _, Nat.zero_le _, fun _ hk => absurd hk List.not_mem_nil⟩, ⟨Nat.zero_le _, h2.2⟩,
    Nat.zero_le _, ?_, ⟨trivial, Nat.zero_le _⟩, ?_, trivial, trivial, h9, ?_⟩
  · exact ⟨⟨trivial, fun _ hp => absurd hp List.not_mem_nil⟩, ⟨trivial, fun _ hp => absurd hp List.not_mem_nil⟩⟩
  · exact ⟨trivial, fun _ hp => absurd hp List.not_mem_nil⟩
  · intro g
    simp [Group.Inv, State.dieOff]

theorem passCounts_kept {k0 : Base} {s : State} (h : s.Kept k0) (counts : Nat) : (State.passCounts s counts).Kept k0 := by
  unfold State.passCounts
  repeat' first
    | with_reducible assumption
    | with_reducible apply mk_kept

theorem passMicros_kept {k0 : Base} {s : State} (h : s.Kept k0) (us : Nat) : (State.passMicros s us).Kept k0 := by
  unfold State.passMicros
  repeat' first
    | with_reducible assumption
    | with_reducible apply passCounts_kept

theorem passUnknown_kept {k0 : Base} {s : State} (h : s.Kept k0)  : (State.passUnknown s).Kept k0 := by
  unfold State.passUnknown
  repeat' first
    | with_reducible assumption
    | with_reducible apply drawn_kept
    | with_reducible apply passCounts_kept

theorem toStart_kept {k0 : Base} {s : State} (h : s.Kept k0) (cause : Nat) (warm : Bool) : (State.toStart s cause warm).Kept k0 := by
  unfold State.toStart
  repeat' first
    | with_reducible assumption
    | with_reducible apply modPower_kept
    | with_reducible apply ite_kept

theorem recordWake_kept {k0 : Base} {s : State} (h : s.Kept k0)  : (State.recordWake s).Kept k0 := by
  unfold State.recordWake
  repeat' first
    | with_reducible assumption
    | with_reducible apply latched_kept
    | with_reducible apply modPower_kept

theorem wakeTime_kept {k0 : Base} {s : State} (h : s.Kept k0) (late : Bool) : (State.wakeTime s late).Kept k0 := by
  unfold State.wakeTime
  repeat' first
    | with_reducible assumption
    | (extract_lets +onlyGivenNames x
       have hx : State.Kept k0 x := by
        unfold x
        repeat' first
          | with_reducible assumption
          | with_reducible apply drawn_kept
          | with_reducible apply ite_kept
          | (extract_lets +onlyGivenNames y; subst y)
          | with_reducible apply mk_kept
       clear_value x)
    | (extract_lets +onlyGivenNames x; subst x)
    | with_reducible apply drawn_kept
    | with_reducible apply ite_kept
    | with_reducible apply mk_kept

theorem wake_kept {k0 : Base} {s : State} (h : s.Kept k0) (late : Bool) : (State.wake s late).Kept k0 := by
  unfold State.wake
  repeat' first
    | with_reducible assumption
    | (extract_lets +onlyGivenNames x
       have hx : State.Kept k0 x := by
        unfold x
        repeat' first
          | with_reducible assumption
          | with_reducible apply recordWake_kept
          | with_reducible apply toStart_kept
          | with_reducible apply wakeTime_kept
          | (extract_lets +onlyGivenNames y; clear_value y)
                | (extract_lets +onlyGivenNames y; subst y)
       clear_value x)
    | (extract_lets +onlyGivenNames x; clear_value x)
    | (extract_lets +onlyGivenNames x; subst x)
    | with_reducible apply recordWake_kept
    | with_reducible apply toStart_kept
    | with_reducible apply wakeTime_kept

theorem loadSomeRegs_kept {k0 : Base} {s : State} (h : s.Kept k0) (i : Image) (p : Nat → Bool) : (State.loadSomeRegs s i p).Kept k0 := by
  unfold State.loadSomeRegs
  repeat' first
    | with_reducible assumption
    | with_reducible apply loadReg_kept
    | with_reducible apply foldl_kept
    | (intro z b hz; beta_reduce)
    | with_reducible apply ite_kept

theorem enterModes_kept {k0 : Base} {s : State} (h : s.Kept k0) (i : Image) : (State.enterModes s i).Kept k0 := by
  unfold State.enterModes
  repeat' first
    | with_reducible assumption
    | with_reducible apply writeMode_kept
    | with_reducible apply eachFin_kept
    | (intro z b hz; beta_reduce)
    | with_reducible apply ite_kept

theorem dropHalves_kept {k0 : Base} {s : State} (h : s.Kept k0)  : (State.dropHalves s).Kept k0 := by
  unfold State.dropHalves
  repeat' first
    | with_reducible assumption
    | exact fun hm => hm
    | exact fun _ hq => hq
    | with_reducible apply modMail_kept

theorem setReference_kept {k0 : Base} {s : State} (h : s.Kept k0) (crystal : Bool) : (State.setReference s crystal).Kept k0 := by
  unfold State.setReference
  repeat' first
    | with_reducible assumption
    | (extract_lets +onlyGivenNames x
       have hx : State.Kept k0 x := by
        unfold x
        repeat' first
          | with_reducible assumption
          | with_reducible apply modPower_kept
          | with_reducible apply ite_kept
          | split
          | (extract_lets +onlyGivenNames y; clear_value y)
                | (extract_lets +onlyGivenNames y; subst y)
       clear_value x)
    | (extract_lets +onlyGivenNames x; clear_value x)
    | (extract_lets +onlyGivenNames x; subst x)
    | with_reducible apply modPower_kept
    | with_reducible apply ite_kept
    | split

theorem setTimeBase_kept {k0 : Base} {s : State} (h : s.Kept k0) : (State.setTimeBase s).Kept k0 := by
  obtain ⟨b1, b2, b3, h1, h2, h3, h4, _, h6⟩ := h
  exact ⟨b1, b2, b3, h1, h2, h3, h4, ⟨trivial, Nat.zero_le _⟩, h6⟩

theorem finishStart_kept {k0 : Base} {s : State} (h : s.Kept k0) (phase : PowerPhase) (us : Nat) : (State.finishStart s phase us).Kept k0 := by
  unfold State.finishStart
  repeat' first
    | with_reducible assumption
    | (extract_lets +onlyGivenNames x
       have hx : State.Kept k0 x := by
        unfold x
        repeat' first
          | with_reducible assumption
          | exact fun hm => hm
          | exact fun _ hq => hq
          | with_reducible apply computeFigures_kept
          | with_reducible apply latched_kept
          | with_reducible apply modMail_kept
          | with_reducible apply recallTotals_kept
          | with_reducible apply setTimeBase_kept
          | (extract_lets +onlyGivenNames y; subst y)
          | with_reducible apply mk_kept
       clear_value x)
    | (extract_lets +onlyGivenNames x; subst x)
    | exact fun hm => hm
    | exact fun _ hq => hq
    | with_reducible apply computeFigures_kept
    | with_reducible apply latched_kept
    | with_reducible apply modMail_kept
    | with_reducible apply recallTotals_kept
    | with_reducible apply setTimeBase_kept
    | with_reducible apply mk_kept

theorem torqueReady_kept {k0 : Base} {s : State} (h : s.Kept k0) (us : Nat) (warm : Bool) : (State.torqueReady s us warm).Kept k0 := by
  unfold State.torqueReady
  repeat' first
    | with_reducible assumption
    | (extract_lets +onlyGivenNames x
       have hx : State.Kept k0 x := by
        unfold x
        repeat' first
          | with_reducible assumption
          | with_reducible apply finishStart_kept
          | with_reducible apply logEvent_kept
          | with_reducible apply ite_kept
          | exact rfl
          | (extract_lets +onlyGivenNames y; subst y)
          | with_reducible apply mk_keep_kept
       clear_value x)
    | (extract_lets +onlyGivenNames x; subst x)
    | with_reducible apply finishStart_kept
    | with_reducible apply logEvent_kept
    | with_reducible apply ite_kept
    | exact rfl
    | with_reducible apply mk_keep_kept

theorem safetyStep1_kept {k0 : Base} {s : State} (h : s.Kept k0)  : (State.safetyStep1 s).Kept k0 := by
  unfold State.safetyStep1
  repeat' first
    | with_reducible assumption
    | (extract_lets +onlyGivenNames x
       have hx : State.Kept k0 x := by
        unfold x
        repeat' first
          | with_reducible assumption
          | with_reducible apply running_kept
          | (extract_lets +onlyGivenNames y; subst y)
          | with_reducible apply mk_kept
       clear_value x)
    | (extract_lets +onlyGivenNames x; subst x)
    | with_reducible apply running_kept
    | with_reducible apply mk_kept

theorem allDue_kept {k0 : Base} {s : State} (h : s.Kept k0)  : (State.allDue s).Kept k0 := by
  unfold State.allDue
  repeat' first
    | with_reducible assumption
    | (extract_lets +onlyGivenNames x
       have hx : State.Kept k0 x := by
        unfold x
        repeat' first
          | with_reducible assumption
          | with_reducible apply recountAges_kept
          | exact rfl
          | (extract_lets +onlyGivenNames y; subst y)
          | with_reducible apply mk_keep_kept
       clear_value x)
    | (extract_lets +onlyGivenNames x; subst x)
    | with_reducible apply recountAges_kept
    | exact rfl
    | with_reducible apply mk_keep_kept

theorem coldClear_kept {k0 : Base} {s : State} (h : s.Kept k0) : (State.coldClear s).Kept k0 := by
  unfold State.coldClear
  extract_lets z a b c d z1
  have hz : z.Kept k0 := safetyStep1_kept (dieOff_kept h)
  have h1 : z1.Kept k0 := by
    unfold z1
    clear_value z
    obtain ⟨b1, b2, b3, g1, g2, g3, _, g5, g6, g7, g8, _, g10⟩ := hz
    refine ⟨b1, b2, b3, g1, ⟨Nat.zero_le _, g2.2⟩, g3, ?_, g5, g6, g7, g8, trivial, g10⟩
    exact ⟨⟨trivial, fun _ hp => absurd hp List.not_mem_nil⟩, ⟨trivial, fun _ hp => absurd hp List.not_mem_nil⟩⟩
  exact ite_kept (allDue_kept h1) h1

theorem coldExposure_kept {k0 : Base} {s : State} (h : s.Kept k0) (f : ColdFindings) : (State.coldExposure s f).Kept k0 := by
  unfold State.coldExposure
  repeat' first
    | with_reducible assumption
    | (extract_lets +onlyGivenNames x
       have hx : State.Kept k0 x := by
        unfold x
        repeat' first
          | with_reducible assumption
          | with_reducible apply logEvent_kept
          | with_reducible apply retire_kept
          | with_reducible apply ite_kept
          | split
          | (extract_lets +onlyGivenNames y; subst y)
          | with_reducible apply mk_kept
       clear_value x)
    | (extract_lets +onlyGivenNames x; subst x)
    | with_reducible apply logEvent_kept
    | with_reducible apply retire_kept
    | with_reducible apply ite_kept
    | split
    | with_reducible apply mk_kept

theorem readStraps_kept {k0 : Base} {s : State} (h : s.Kept k0) (f : ColdFindings) : (State.readStraps s f).Kept k0 := by
  unfold State.readStraps
  repeat' first
    | with_reducible assumption
    | with_reducible apply modCascade_kept
    | with_reducible apply ite_kept
    | split

theorem loadImage_kept {k0 : Base} {s : State} (h : s.Kept k0) (i : Image) : (State.loadImage s i).Kept k0 := by
  unfold State.loadImage
  repeat' first
    | with_reducible assumption
    | with_reducible apply dropHalves_kept
    | with_reducible apply loadNouns_kept
    | with_reducible apply loadRegions_kept
    | with_reducible apply loadRegs_kept
    | with_reducible apply loadTables_kept

theorem loadSafety_kept {k0 : Base} {s : State} (h : s.Kept k0)  : (State.loadSafety s).1.Kept k0 := by
  unfold State.loadSafety
  repeat' first
    | with_reducible assumption
    | with_reducible apply channelFault_kept
    | with_reducible apply modSafety_kept
    | with_reducible apply safetyCold_kept
    | with_reducible apply ite_kept
    | with_reducible apply ite_fst_kept

theorem safeHold_kept {k0 : Base} {s : State} (h : s.Kept k0) (step : Nat) (us : Nat) (loaded : Option Image) : (State.safeHold s step us loaded).Kept k0 := by
  unfold State.safeHold
  repeat' first
    | with_reducible assumption
    | (extract_lets +onlyGivenNames x
       have hx : State.Kept k0 x := by
        unfold x
        repeat' first
          | with_reducible assumption
          | with_reducible apply enterModes_kept
          | with_reducible apply finishStart_kept
          | with_reducible apply logEvent_kept
          | with_reducible apply setNoun_kept
          | with_reducible apply step_kept
          | with_reducible apply writeMode_kept
          | with_reducible apply eachFin_kept
          | (intro z b hz; beta_reduce)
          | with_reducible apply ite_kept
          | split
          | (extract_lets +onlyGivenNames y; subst y)
          | with_reducible apply mk_kept
       clear_value x)
    | (extract_lets +onlyGivenNames x; subst x)
    | with_reducible apply enterModes_kept
    | with_reducible apply finishStart_kept
    | with_reducible apply logEvent_kept
    | with_reducible apply setNoun_kept
    | with_reducible apply step_kept
    | with_reducible apply writeMode_kept
    | with_reducible apply eachFin_kept
    | (intro z b hz; beta_reduce)
    | with_reducible apply ite_kept
    | split
    | with_reducible apply mk_kept

theorem coldEnd_kept {k0 : Base} {s : State} (h : s.Kept k0) (f : ColdFindings) (i : Image) : (State.coldEnd s f i).Kept k0 := by
  unfold State.coldEnd
  repeat' first
    | with_reducible assumption
    | (extract_lets +onlyGivenNames x
       have hx : State.Kept k0 x := by
        unfold x
        repeat' first
          | with_reducible assumption
          | with_reducible apply enterModes_kept
          | with_reducible apply loadSafety_kept
          | with_reducible apply logEvent_kept
          | with_reducible apply safeHold_kept
          | with_reducible apply torqueReady_kept
          | with_reducible apply ite_kept
          | (extract_lets +onlyGivenNames y; have : State.Kept k0 (Prod.fst y) ∨ True := (.inr trivial); clear this; subst y)
                | (extract_lets +onlyGivenNames y; subst y)
          | with_reducible apply mk_kept
       clear_value x)
    | (extract_lets +onlyGivenNames x; have : State.Kept k0 (Prod.fst x) ∨ True := (.inr trivial); clear this; subst x)
    | (extract_lets +onlyGivenNames x; subst x)
    | with_reducible apply enterModes_kept
    | with_reducible apply loadSafety_kept
    | with_reducible apply logEvent_kept
    | with_reducible apply safeHold_kept
    | with_reducible apply torqueReady_kept
    | with_reducible apply ite_kept
    | with_reducible apply mk_kept

theorem coldLoad_kept {k0 : Base} {s : State} (h : s.Kept k0) (f : ColdFindings) (c : Fin 2) (back : Bool) : (State.coldLoad s f c back).Kept k0 := by
  unfold State.coldLoad
  repeat' first
    | with_reducible assumption
    | (extract_lets +onlyGivenNames x
       have hx : State.Kept k0 x := by
        unfold x
        repeat' first
          | with_reducible assumption
          | with_reducible apply coldEnd_kept
          | with_reducible apply loadImage_kept
          | with_reducible apply readStraps_kept
          | with_reducible apply setReference_kept
          | exact rfl
          | (extract_lets +onlyGivenNames y; subst y)
          | with_reducible apply mk_keep_kept
       clear_value x)
    | (extract_lets +onlyGivenNames x; subst x)
    | with_reducible apply coldEnd_kept
    | with_reducible apply loadImage_kept
    | with_reducible apply readStraps_kept
    | with_reducible apply setReference_kept
    | exact rfl
    | with_reducible apply mk_keep_kept

theorem restoreNouns_kept {k0 : Base} {s : State} (h : s.Kept k0)  : (State.restoreNouns s).Kept k0 := by
  unfold State.restoreNouns
  repeat' first
    | with_reducible assumption
    | with_reducible apply modEng_kept
    | with_reducible apply setNoun_kept
    | with_reducible apply foldl_kept
    | (intro z b hz; beta_reduce)
    | split

theorem restoreRegs_kept {k0 : Base} {s : State} (h : s.Kept k0)  : (State.restoreRegs s).Kept k0 := by
  unfold State.restoreRegs
  repeat' first
    | with_reducible assumption
    | with_reducible apply loadReg_kept
    | with_reducible apply foldl_kept
    | (intro z b hz; beta_reduce)
    | with_reducible apply ite_kept

theorem restoreCount_kept {k0 : Base} {s : State} (h : s.Kept k0) (n : FbNo) : (State.restoreCount s n).Kept k0 := by
  unfold State.restoreCount
  repeat' first
    | with_reducible assumption
    | with_reducible apply modFb_kept
    | split

theorem resumeResolver_kept {k0 : Base} {s : State} (h : s.Kept k0) (v : Fin 4) (angle : BitVec 16) : (State.resumeResolver s v angle).Kept k0 := by
  unfold State.resumeResolver
  repeat' first
    | with_reducible assumption
    | (extract_lets +onlyGivenNames x
       have hx : State.Kept k0 x := by
        unfold x
        repeat' first
          | with_reducible assumption
          | with_reducible apply modFb_kept
          | with_reducible apply ite_kept
          | split
          | (extract_lets +onlyGivenNames y; clear_value y)
                | (extract_lets +onlyGivenNames y; subst y)
       clear_value x)
    | (extract_lets +onlyGivenNames x; clear_value x)
    | (extract_lets +onlyGivenNames x; subst x)
    | with_reducible apply modFb_kept
    | with_reducible apply ite_kept
    | split

theorem resumeUnits_kept {k0 : Base} {s : State} (h : s.Kept k0) (f : WarmFindings) : (State.resumeUnits s f).Kept k0 := by
  unfold State.resumeUnits
  repeat' first
    | with_reducible assumption
    | (extract_lets +onlyGivenNames x
       have hx : State.Kept k0 x := by
        unfold x
        repeat' first
          | with_reducible assumption
          | with_reducible apply restoreCount_kept
          | with_reducible apply resumeResolver_kept
          | with_reducible apply resumeUnit_kept
          | with_reducible apply eachFin_kept
          | (intro z b hz; beta_reduce)
          | (extract_lets +onlyGivenNames y; clear_value y)
                | (extract_lets +onlyGivenNames y; subst y)
       clear_value x)
    | (extract_lets +onlyGivenNames x; clear_value x)
    | (extract_lets +onlyGivenNames x; subst x)
    | with_reducible apply restoreCount_kept
    | with_reducible apply resumeResolver_kept
    | with_reducible apply resumeUnit_kept
    | with_reducible apply eachFin_kept
    | (intro z b hz; beta_reduce)

theorem warmEngines_kept {k0 : Base} {s : State} (h : s.Kept k0) (f : WarmFindings) : (State.warmEngines s f).Kept k0 := by
  unfold State.warmEngines
  repeat' first
    | with_reducible assumption
    | (extract_lets +onlyGivenNames x
       have hx : State.Kept k0 x := by
        unfold x
        repeat' first
          | with_reducible assumption
          | with_reducible apply retire_kept
          | with_reducible apply ite_kept
          | split
          | exact rfl
          | (extract_lets +onlyGivenNames y; subst y)
          | with_reducible apply mk_keep_kept
       clear_value x)
    | (extract_lets +onlyGivenNames x; subst x)
    | with_reducible apply retire_kept
    | with_reducible apply ite_kept
    | split
    | exact rfl
    | with_reducible apply mk_keep_kept

theorem warmLoad_kept {k0 : Base} {s : State} (h : s.Kept k0) (f : WarmFindings) : (State.warmLoad s f).Kept k0 := by
  unfold State.warmLoad
  extract_lets i changed a b s1 fresh s2 s3
  have h1 : State.Kept k0 s1 := by
    obtain ⟨b1, b2, b3, g1, g2, g3, g4, g5, g6, g7, _, g9, g10⟩ := h
    exact ⟨b1, b2, b3, g1, g2, g3, g4, g5, g6, g7, g9, g9, g10⟩
  have hf : State.Kept k0 fresh := h1
  have h2 : State.Kept k0 s2 := by
    unfold s2
    exact ite_kept (loadSomeRegs_kept (loadNouns_kept hf _) ..) (loadSomeRegs_kept (restoreRegs_kept (restoreNouns_kept h1)) ..)
  have h3 : State.Kept k0 s3 := resumeUnits_kept (warmEngines_kept (loadRegions_kept (dropHalves_kept h2) _) _) _
  exact torqueReady_kept (enterModes_kept (setReference_kept h3 _) _) ..

end Sys2Proof.Machine.State
end

