-- ==== Sys2Proof/Laws/KeptPower.lean ====
section
/-! SUPPORT. Every operation of Machine/Power.lean keeps what Laws/Kept.lean names. -/

set_option Elab.async false

set_option linter.unusedTactic false
set_option linter.unreachableTactic false

namespace Sys2Proof.Machine.State

theorem outputsOff_kept {k0 : Base} {s : State} (h : s.Kept k0) (phase : PowerPhase) : (State.outputsOff s phase).Kept k0 := by
  unfold State.outputsOff
  repeat' first
    | with_reducible assumption
    | with_reducible apply dieOff_kept
    | with_reducible apply modPower_kept
    | with_reducible apply safetyOff_kept

theorem releaseReset_kept {k0 : Base} {s : State} (h : s.Kept k0)  : (State.releaseReset s).Kept k0 := by
  unfold State.releaseReset
  repeat' first
    | with_reducible assumption
    | with_reducible apply toStart_kept
    | with_reducible apply ite_kept

theorem handOverUnits_kept {k0 : Base} {s : State} (h : s.Kept k0) (ab : Vector (Bool × Bool) 4) : (State.handOverUnits s ab).Kept k0 := by
  unfold State.handOverUnits
  repeat' first
    | with_reducible assumption
    | (extract_lets +onlyGivenNames x
       have hx : State.Kept k0 x := by
        unfold x
        repeat' first
          | with_reducible assumption
          | with_reducible apply keepStep_kept
          | with_reducible apply eachFin_kept
          | (intro z b hz; beta_reduce)
          | with_reducible apply ite_kept
          | exact rfl
          | (extract_lets +onlyGivenNames y; subst y)
          | with_reducible apply mk_keep_kept
       clear_value x)
    | (extract_lets +onlyGivenNames x; subst x)
    | with_reducible apply keepStep_kept
    | with_reducible apply eachFin_kept
    | (intro z b hz; beta_reduce)
    | with_reducible apply ite_kept
    | exact rfl
    | with_reducible apply mk_keep_kept

theorem retention_kept {k0 : Base} {s : State} (h : s.Kept k0) (r : RetentionSt) (hr : Rising 0 r.tables) :
    ({ s with retention := r } : State).Kept k0 := by
  obtain ⟨b1, b2, b3, h1, h2, h3, h4, h5, h6, h7, h8, _, h10⟩ := h
  exact ⟨b1, b2, b3, h1, h2, h3, h4, h5, h6, h7, h8, hr, h10⟩

theorem writeSignature_kept {k0 : Base} {s : State} (h : s.Kept k0) : (State.writeSignature s).Kept k0 := by
  unfold State.writeSignature
  extract_lets s1
  have h1 : State.Kept k0 s1 := releaseJournal_kept (transferLedger_kept h)
  exact retention_kept h1 _ h1.inv.2.2.2.2.2.2.2.1

theorem entrySteps_kept {k0 : Base} {s : State} (h : s.Kept k0) (ab : Vector (Bool × Bool) 4) : (State.entrySteps s ab).Kept k0 := by
  unfold State.entrySteps
  repeat' first
    | with_reducible assumption
    | with_reducible apply handOverUnits_kept
    | with_reducible apply safetyOff_kept
    | with_reducible apply writeSignature_kept

theorem latchSource_kept {k0 : Base} {s : State} (h : s.Kept k0) (w : WakeSource) : (State.latchSource s w).Kept k0 := by
  unfold State.latchSource
  repeat' first
    | with_reducible assumption
    | with_reducible apply latched_kept
    | with_reducible apply modPower_kept
    | split

end Sys2Proof.Machine.State
end

