-- ==== Sys2Proof/Laws/PerInstr.lean ====
section
/-! SUPPORT. What each well-formedness check says, as a proposition about the command's operands: a command is well formed exactly
when its operands stay inside what the hardware can present. -/

set_option Elab.async false

namespace Sys2Proof.Laws.WellFormedness

/-- What the hardware can present of a command's operands: the rules are those that `Instr.wf` names. -/
def Fits : Instr → Prop
  | .filterResultReady _ w => ∀ c ∈ w, c.bits.length ∈ [48, 96, 192, 384, 768]
  | .glanceWindowOpen _ fine => fine < 60000
  | .comparatorEdge _ _ _ cd4 => cd4 < 1875
  | .scFilterResult _ a b => a.length = 48 ∧ b.length = 48
  | .hysteresisCrossing _ _ _ _ cd12 => cd12 < 250
  | .encoderEdge _ _ _ _ cd6 => cd6 < 1250
  | .switchSample _ cd6 => cd6 < 1250
  | .hostWriteFrame f => 0 < f.words.length ∧ f.words.length ≤ 258
  | .readLRegister a => 0x2000 ≤ a.toNat ∧ a.toNat < 0x2800 ∧ a.toNat % 128 ∈ [0x10, 0x20, 0x28, 0x30, 0x38, 0x44]
  | .registerPairWrite a _ _ => 0x2000 ≤ a.toNat ∧ a.toNat < 0x2800 ∧ a.toNat % 128 ∈ [0x10, 0x20, 0x28, 0x30, 0x38, 0x44]
  | .gffMark _ cd6 => cd6 < 1250
  | .canFrameReceived _ f _ => (f.ide = true ∨ f.id.toNat < 2048) ∧ (f.fdf = false ∨ f.rtr = false) ∧ (f.fdf = true ∨ f.brs = false ∧ f.esi = false) ∧
      f.data.length = if f.rtr then 0 else dlcBytes f.fdf f.dlc.toNat
  | .ringFormationDone r => r.order.length ≤ 8 ∧ r.order.Nodup
  | .hostReadFrame f => 0 < f.words.length ∧ f.words.length ≤ 258
  | .hysteresisHoldExpiry _ _ cd12 => cd12 < 250
  | _ => True

/-- The check says exactly this. -/
def Statement (i : Instr) : Prop := i.wf = true ↔ Fits i

theorem frameTick : Statement (.frameTick) := ⟨fun _ => trivial, fun _ => rfl⟩
theorem filterResultReady (g : Option Grp) (window : List ChannelBits) : Statement (.filterResultReady g window) := by
  show Instr.wf _ = true ↔ Fits _
  simp [Instr.wf, Fits, windowLength]
theorem segmentComplete (r : SegmentResult) : Statement (.segmentComplete r) := ⟨fun _ => trivial, fun _ => rfl⟩
theorem checkSetDone (passA passB : Bool) : Statement (.checkSetDone passA passB) := ⟨fun _ => trivial, fun _ => rfl⟩
theorem clusterCheckSetStart : Statement (.clusterCheckSetStart) := ⟨fun _ => trivial, fun _ => rfl⟩
theorem computeDeadline (g : Grp) : Statement (.computeDeadline g) := ⟨fun _ => trivial, fun _ => rfl⟩
theorem glanceWindowOpen (m : Main) (fine : Nat) : Statement (.glanceWindowOpen m fine) := by
  show Instr.wf _ = true ↔ Fits _
  simp [Instr.wf, Fits]
theorem glanceWindowClose (m : Main) : Statement (.glanceWindowClose m) := ⟨fun _ => trivial, fun _ => rfl⟩
theorem comparatorEdge (m : Main) (phase : Phase) (rising : Bool) (cd4 : Nat) : Statement (.comparatorEdge m phase rising cd4) := by
  show Instr.wf _ = true ↔ Fits _
  simp [Instr.wf, Fits]
theorem sixStepCommutation (m : Main) : Statement (.sixStepCommutation m) := ⟨fun _ => trivial, fun _ => rfl⟩
theorem gateDriverFaultInput (m : Main) (low : Bool) : Statement (.gateDriverFaultInput m low) := ⟨fun _ => trivial, fun _ => rfl⟩
theorem scFilterResult (m : Main) (bitsA bitsB : List Bool) : Statement (.scFilterResult m bitsA bitsB) := by
  show Instr.wf _ = true ↔ Fits _
  simp [Instr.wf, Fits]
theorem bitstreamStuck (channel : Fin 32) : Statement (.bitstreamStuck channel) := ⟨fun _ => trivial, fun _ => rfl⟩
theorem chopperPeriodStart (l : LinkNo) (bcf : Bool) : Statement (.chopperPeriodStart l bcf) := ⟨fun _ => trivial, fun _ => rfl⟩
theorem chopperFeedbackMismatch (l : LinkNo) : Statement (.chopperFeedbackMismatch l) := ⟨fun _ => trivial, fun _ => rfl⟩
theorem sarConversion (a : AuxNo) (w : Winding) (code : BitVec 12) : Statement (.sarConversion a w code) := ⟨fun _ => trivial, fun _ => rfl⟩
theorem auxOvercurrent (a : AuxNo) : Statement (.auxOvercurrent a) := ⟨fun _ => trivial, fun _ => rfl⟩
theorem hysteresisCrossing (a : AuxNo) (w : Winding) (upper rising : Bool) (cd12 : Nat) : Statement (.hysteresisCrossing a w upper rising cd12) := by
  show Instr.wf _ = true ↔ Fits _
  simp [Instr.wf, Fits]
theorem encoderEdge (e : Fin 8) (a b z : Bool) (cd6 : Nat) : Statement (.encoderEdge e a b z cd6) := by
  show Instr.wf _ = true ↔ Fits _
  simp [Instr.wf, Fits]
theorem speedTimeout (n : FbNo) : Statement (.speedTimeout n) := ⟨fun _ => trivial, fun _ => rfl⟩
theorem serialFrameEnd (p : Fin 4) (f : SerialFrame) : Statement (.serialFrameEnd p f) := ⟨fun _ => trivial, fun _ => rfl⟩
theorem resolverExcitationPeriod (v : Fin 4) (amplitude : Nat) (angle : BitVec 16) (speed : Int) : Statement (.resolverExcitationPeriod v amplitude angle speed) := ⟨fun _ => trivial, fun _ => rfl⟩
theorem resolverRevalidate (v : Fin 4) : Statement (.resolverRevalidate v) := ⟨fun _ => trivial, fun _ => rfl⟩
theorem switchSample (levels : BitVec 24) (cd6 : Nat) : Statement (.switchSample levels cd6) := by
  show Instr.wf _ = true ↔ Fits _
  simp [Instr.wf, Fits]
theorem chatterCleared (i : Fin 24) : Statement (.chatterCleared i) := ⟨fun _ => trivial, fun _ => rfl⟩
theorem keeperEncoderSample (a b : BitVec 4) : Statement (.keeperEncoderSample a b) := ⟨fun _ => trivial, fun _ => rfl⟩
theorem checkTimeExpiry (m : Main) : Statement (.checkTimeExpiry m) := ⟨fun _ => trivial, fun _ => rfl⟩
theorem alignmentTimeExpiry (m : Main) : Statement (.alignmentTimeExpiry m) := ⟨fun _ => trivial, fun _ => rfl⟩
theorem parisonTimeout (m : Main) : Statement (.parisonTimeout m) := ⟨fun _ => trivial, fun _ => rfl⟩
theorem catchTimeout (m : Main) : Statement (.catchTimeout m) := ⟨fun _ => trivial, fun _ => rfl⟩
theorem coastTimeout (m : Main) : Statement (.coastTimeout m) := ⟨fun _ => trivial, fun _ => rfl⟩
theorem resyncTimeout (m : Main) : Statement (.resyncTimeout m) := ⟨fun _ => trivial, fun _ => rfl⟩
theorem lossBrakeTimeout (m : Main) : Statement (.lossBrakeTimeout m) := ⟨fun _ => trivial, fun _ => rfl⟩
theorem handoverDeferralExpiry (m : Main) : Statement (.handoverDeferralExpiry m) := ⟨fun _ => trivial, fun _ => rfl⟩
theorem sensorHealthyHold (m : Main) : Statement (.sensorHealthyHold m) := ⟨fun _ => trivial, fun _ => rfl⟩
theorem speedLimit (m : Main) : Statement (.speedLimit m) := ⟨fun _ => trivial, fun _ => rfl⟩
theorem modeDeferralExpiry (m : Main) : Statement (.modeDeferralExpiry m) := ⟨fun _ => trivial, fun _ => rfl⟩
theorem followingError (m : Main) : Statement (.followingError m) := ⟨fun _ => trivial, fun _ => rfl⟩
theorem excitationSearchWindow (m : Main) : Statement (.excitationSearchWindow m) := ⟨fun _ => trivial, fun _ => rfl⟩
theorem releaseDwellExpiry (g : Grp) : Statement (.releaseDwellExpiry g) := ⟨fun _ => trivial, fun _ => rfl⟩
theorem recoveryTimeExpiry (g : Grp) : Statement (.recoveryTimeExpiry g) := ⟨fun _ => trivial, fun _ => rfl⟩
theorem hostTensionExpiry (g : Grp) : Statement (.hostTensionExpiry g) := ⟨fun _ => trivial, fun _ => rfl⟩
theorem trackTimeout (x : GenId) : Statement (.trackTimeout x) := ⟨fun _ => trivial, fun _ => rfl⟩
theorem holdDelayExpiry (a : AuxNo) : Statement (.holdDelayExpiry a) := ⟨fun _ => trivial, fun _ => rfl⟩
theorem stallDetected (a : AuxNo) : Statement (.stallDetected a) := ⟨fun _ => trivial, fun _ => rfl⟩
theorem openCoil (a : AuxNo) : Statement (.openCoil a) := ⟨fun _ => trivial, fun _ => rfl⟩
theorem settleTimeExpiry (a : AuxNo) : Statement (.settleTimeExpiry a) := ⟨fun _ => trivial, fun _ => rfl⟩
theorem safetyInputSample (ctf : Byte) (sreset estop0 estop1 : Bool) : Statement (.safetyInputSample ctf sreset estop0 estop1) := ⟨fun _ => trivial, fun _ => rfl⟩
theorem monitoringMessageAssembly : Statement (.monitoringMessageAssembly) := ⟨fun _ => trivial, fun _ => rfl⟩
theorem monitoringMessage (a b : Option LaneCopy) : Statement (.monitoringMessage a b) := ⟨fun _ => trivial, fun _ => rfl⟩
theorem monitoringLost : Statement (.monitoringLost) := ⟨fun _ => trivial, fun _ => rfl⟩
theorem safetyStatusWrite : Statement (.safetyStatusWrite) := ⟨fun _ => trivial, fun _ => rfl⟩
theorem brakeTimerExpiry (b : Fin 4) : Statement (.brakeTimerExpiry b) := ⟨fun _ => trivial, fun _ => rfl⟩
theorem brakeTimeout (b : Fin 4) : Statement (.brakeTimeout b) := ⟨fun _ => trivial, fun _ => rfl⟩
theorem contactorDiscrepancy (c : Fin 4) : Statement (.contactorDiscrepancy c) := ⟨fun _ => trivial, fun _ => rfl⟩
theorem darkPulseStart (o : SafeOut) : Statement (.darkPulseStart o) := ⟨fun _ => trivial, fun _ => rfl⟩
theorem darkPulseEnd (o : SafeOut) (fell rose : Bool) : Statement (.darkPulseEnd o fell rose) := ⟨fun _ => trivial, fun _ => rfl⟩
theorem readbackMismatch (o : SafeOut) : Statement (.readbackMismatch o) := ⟨fun _ => trivial, fun _ => rfl⟩
theorem safetyParamCrcCheck (intact : Bool) : Statement (.safetyParamCrcCheck intact) := ⟨fun _ => trivial, fun _ => rfl⟩
theorem ksafeClockCheck (count : Nat) : Statement (.ksafeClockCheck count) := ⟨fun _ => trivial, fun _ => rfl⟩
theorem ss1TimeElapsed (i : StoNo) : Statement (.ss1TimeElapsed i) := ⟨fun _ => trivial, fun _ => rfl⟩
theorem estopPairDiscrepancy : Statement (.estopPairDiscrepancy) := ⟨fun _ => trivial, fun _ => rfl⟩
theorem keeperPortMessage (crcOk seqOk : Bool) (payload : KeeperPayload) : Statement (.keeperPortMessage crcOk seqOk payload) := ⟨fun _ => trivial, fun _ => rfl⟩
theorem coreMismatch (newerOk : Bool) (core0 core1 : Bool) : Statement (.coreMismatch newerOk core0 core1) := ⟨fun _ => trivial, fun _ => rfl⟩
theorem checkpoint (vin : Nat) (control keeper : Int) : Statement (.checkpoint vin control keeper) := ⟨fun _ => trivial, fun _ => rfl⟩
theorem scrubPass (store : ScrubStore) (f : ScrubFinding) : Statement (.scrubPass store f) := ⟨fun _ => trivial, fun _ => rfl⟩
theorem blockRefresh (verified : Bool) : Statement (.blockRefresh verified) := ⟨fun _ => trivial, fun _ => rfl⟩
theorem lifeAccumulatorSample : Statement (.lifeAccumulatorSample) := ⟨fun _ => trivial, fun _ => rfl⟩
theorem hourlySave : Statement (.hourlySave) := ⟨fun _ => trivial, fun _ => rfl⟩
theorem hostWriteFrame (f : HostFrame) : Statement (.hostWriteFrame f) := by
  show Instr.wf _ = true ↔ Fits _
  simp [Instr.wf, Fits, HostFrame.wf, and_comm]
theorem readLRegister (addr : BitVec 16) : Statement (.readLRegister addr) := by
  show Instr.wf _ = true ↔ Fits _
  simp [Instr.wf, Fits, pairAddress, and_assoc]
theorem registerPairWrite (addr : BitVec 16) (low high : Word) : Statement (.registerPairWrite addr low high) := by
  show Instr.wf _ = true ↔ Fits _
  simp [Instr.wf, Fits, pairAddress, and_assoc]
theorem mbxDoorbell (slots : BitVec 16) : Statement (.mbxDoorbell slots) := ⟨fun _ => trivial, fun _ => rfl⟩
theorem mbxRelease (slots : BitVec 16) : Statement (.mbxRelease slots) := ⟨fun _ => trivial, fun _ => rfl⟩
theorem mbxCplack (n : BitVec 6) : Statement (.mbxCplack n) := ⟨fun _ => trivial, fun _ => rfl⟩
theorem slotTaken : Statement (.slotTaken) := ⟨fun _ => trivial, fun _ => rfl⟩
theorem sentenceTaken : Statement (.sentenceTaken) := ⟨fun _ => trivial, fun _ => rfl⟩
theorem sentenceTakeUp (t : BitVec 16) : Statement (.sentenceTakeUp t) := ⟨fun _ => trivial, fun _ => rfl⟩
theorem read (t : BitVec 16) : Statement (.read t) := ⟨fun _ => trivial, fun _ => rfl⟩
theorem set (t : BitVec 16) : Statement (.set t) := ⟨fun _ => trivial, fun _ => rfl⟩
theorem write (t : BitVec 16) : Statement (.write t) := ⟨fun _ => trivial, fun _ => rfl⟩
theorem swap (t : BitVec 16) : Statement (.swap t) := ⟨fun _ => trivial, fun _ => rfl⟩
theorem swapValidationDone (g : Grp) : Statement (.swapValidationDone g) := ⟨fun _ => trivial, fun _ => rfl⟩
theorem enable (t : BitVec 16) : Statement (.enable t) := ⟨fun _ => trivial, fun _ => rfl⟩
theorem disable (t : BitVec 16) : Statement (.disable t) := ⟨fun _ => trivial, fun _ => rfl⟩
theorem move (t : BitVec 16) : Statement (.move t) := ⟨fun _ => trivial, fun _ => rfl⟩
theorem halt (t : BitVec 16) : Statement (.halt t) := ⟨fun _ => trivial, fun _ => rfl⟩
theorem follow (t : BitVec 16) : Statement (.follow t) := ⟨fun _ => trivial, fun _ => rfl⟩
theorem home (t : BitVec 16) : Statement (.home t) := ⟨fun _ => trivial, fun _ => rfl⟩
theorem abort (t : BitVec 16) : Statement (.abort t) := ⟨fun _ => trivial, fun _ => rfl⟩
theorem capture (t : BitVec 16) : Statement (.capture t) := ⟨fun _ => trivial, fun _ => rfl⟩
theorem commit (t : BitVec 16) : Statement (.commit t) := ⟨fun _ => trivial, fun _ => rfl⟩
theorem commitWriteDone (failed : List (Fin 32)) : Statement (.commitWriteDone failed) := ⟨fun _ => trivial, fun _ => rfl⟩
theorem clear (t : BitVec 16) : Statement (.clear t) := ⟨fun _ => trivial, fun _ => rfl⟩
theorem sleep (t : BitVec 16) : Statement (.sleep t) := ⟨fun _ => trivial, fun _ => rfl⟩
theorem sleepEntry (encoderAB : Vector (Bool × Bool) 4) (levels : BitVec 8) : Statement (.sleepEntry encoderAB levels) := ⟨fun _ => trivial, fun _ => rfl⟩
theorem restart (t : BitVec 16) : Statement (.restart t) := ⟨fun _ => trivial, fun _ => rfl⟩
theorem restartAction : Statement (.restartAction) := ⟨fun _ => trivial, fun _ => rfl⟩
theorem gffAck (n : BitVec 14) : Statement (.gffAck n) := ⟨fun _ => trivial, fun _ => rfl⟩
theorem gffClear : Statement (.gffClear) := ⟨fun _ => trivial, fun _ => rfl⟩
theorem gffMark (payload : BitVec 28) (cd6 : Nat) : Statement (.gffMark payload cd6) := by
  show Instr.wf _ = true ↔ Fits _
  simp [Instr.wf, Fits]
theorem gffRecordWrite : Statement (.gffRecordWrite) := ⟨fun _ => trivial, fun _ => rfl⟩
theorem tstKey (w : Word) : Statement (.tstKey w) := ⟨fun _ => trivial, fun _ => rfl⟩
theorem tstLockClose : Statement (.tstLockClose) := ⟨fun _ => trivial, fun _ => rfl⟩
theorem tstSincArm (w : Word) : Statement (.tstSincArm w) := ⟨fun _ => trivial, fun _ => rfl⟩
theorem tstEngArm (w : Word) : Statement (.tstEngArm w) := ⟨fun _ => trivial, fun _ => rfl⟩
theorem fbPreset (n : FbNo) : Statement (.fbPreset n) := ⟨fun _ => trivial, fun _ => rfl⟩
theorem rearm (n : FbNo) : Statement (.rearm n) := ⟨fun _ => trivial, fun _ => rfl⟩
theorem compareWrite (n : FbNo) (v : DWord) : Statement (.compareWrite n v) := ⟨fun _ => trivial, fun _ => rfl⟩
theorem busModeWrite (p : Port) (mode : BitVec 3) : Statement (.busModeWrite p mode) := ⟨fun _ => trivial, fun _ => rfl⟩
theorem recover (p : Port) : Statement (.recover p) := ⟨fun _ => trivial, fun _ => rfl⟩
theorem busTxRequest (p : Port) (buffers : BitVec 3) : Statement (.busTxRequest p buffers) := ⟨fun _ => trivial, fun _ => rfl⟩
theorem busTxAbort (p : Port) (buffers : BitVec 3) : Statement (.busTxAbort p buffers) := ⟨fun _ => trivial, fun _ => rfl⟩
theorem busRxack (p : Port) (q0 q1 : BitVec 7) : Statement (.busRxack p q0 q1) := ⟨fun _ => trivial, fun _ => rfl⟩
theorem busRsel (p : Port) (index : BitVec 11) : Statement (.busRsel p index) := ⟨fun _ => trivial, fun _ => rfl⟩
theorem canFrameReceived (p : Port) (f : CanFrame) (stamp : BitVec 32) : Statement (.canFrameReceived p f stamp) := by
  show Instr.wf _ = true ↔ Fits _
  simp [Instr.wf, Fits, CanFrame.wf, and_assoc]
theorem canSegmentTimeout (p : Port) (session : Fin 8) : Statement (.canSegmentTimeout p session) := ⟨fun _ => trivial, fun _ => rfl⟩
theorem canTransmitChoice (p : Port) : Statement (.canTransmitChoice p) := ⟨fun _ => trivial, fun _ => rfl⟩
theorem canTransmitEnd (p : Port) (o : CanTxOutcome) : Statement (.canTransmitEnd p o) := ⟨fun _ => trivial, fun _ => rfl⟩
theorem canErrorDetected (p : Port) (e : CanError) : Statement (.canErrorDetected p e) := ⟨fun _ => trivial, fun _ => rfl⟩
theorem protocolException (p : Port) : Statement (.protocolException p) := ⟨fun _ => trivial, fun _ => rfl⟩
theorem busRecovered (p : Port) : Statement (.busRecovered p) := ⟨fun _ => trivial, fun _ => rfl⟩
theorem canBusIntegration (p : Port) : Statement (.canBusIntegration p) := ⟨fun _ => trivial, fun _ => rfl⟩
theorem duplicateMarkExpiry (p : Port) (ide : Bool) (id : BitVec 29) : Statement (.duplicateMarkExpiry p ide id) := ⟨fun _ => trivial, fun _ => rfl⟩
theorem rosterSilenceCheck : Statement (.rosterSilenceCheck) := ⟨fun _ => trivial, fun _ => rfl⟩
theorem timestampWrap : Statement (.timestampWrap) := ⟨fun _ => trivial, fun _ => rfl⟩
theorem ringFormationDone (info : RingInfo) : Statement (.ringFormationDone info) := by
  show Instr.wf _ = true ↔ Fits _
  simp [Instr.wf, Fits]
theorem cascadePacketReceived (pkt : CxPacket) : Statement (.cascadePacketReceived pkt) := ⟨fun _ => trivial, fun _ => rfl⟩
theorem syncMissed : Statement (.syncMissed) := ⟨fun _ => trivial, fun _ => rfl⟩
theorem ringBreak (d : CxDir) : Statement (.ringBreak d) := ⟨fun _ => trivial, fun _ => rfl⟩
theorem linkDirectionUp (d : CxDir) : Statement (.linkDirectionUp d) := ⟨fun _ => trivial, fun _ => rfl⟩
theorem statusPacketSend : Statement (.statusPacketSend) := ⟨fun _ => trivial, fun _ => rfl⟩
theorem spanStartTick (g : Grp) : Statement (.spanStartTick g) := ⟨fun _ => trivial, fun _ => rfl⟩
theorem brownout : Statement (.brownout) := ⟨fun _ => trivial, fun _ => rfl⟩
theorem vinokHeld : Statement (.vinokHeld) := ⟨fun _ => trivial, fun _ => rfl⟩
theorem keeperFloorLoss : Statement (.keeperFloorLoss) := ⟨fun _ => trivial, fun _ => rfl⟩
theorem vlow (below : Bool) : Statement (.vlow below) := ⟨fun _ => trivial, fun _ => rfl⟩
theorem crystalQualified : Statement (.crystalQualified) := ⟨fun _ => trivial, fun _ => rfl⟩
theorem crystalLost : Statement (.crystalLost) := ⟨fun _ => trivial, fun _ => rfl⟩
theorem holdoverExpiry : Statement (.holdoverExpiry) := ⟨fun _ => trivial, fun _ => rfl⟩
theorem pllLockLoss : Statement (.pllLockLoss) := ⟨fun _ => trivial, fun _ => rfl⟩
theorem wakeSourceQualified (w : WakeSource) : Statement (.wakeSourceQualified w) := ⟨fun _ => trivial, fun _ => rfl⟩
theorem coldStart (f : ColdFindings) : Statement (.coldStart f) := ⟨fun _ => trivial, fun _ => rfl⟩
theorem warmStart (f : WarmFindings) : Statement (.warmStart f) := ⟨fun _ => trivial, fun _ => rfl⟩
theorem rstNLow : Statement (.rstNLow) := ⟨fun _ => trivial, fun _ => rfl⟩
theorem rstNHigh : Statement (.rstNHigh) := ⟨fun _ => trivial, fun _ => rfl⟩
theorem resetStuck : Statement (.resetStuck) := ⟨fun _ => trivial, fun _ => rfl⟩
theorem rstmaskClear : Statement (.rstmaskClear) := ⟨fun _ => trivial, fun _ => rfl⟩
theorem bitstreamUnstuck (channel : Fin 32) : Statement (.bitstreamUnstuck channel) := ⟨fun _ => trivial, fun _ => rfl⟩
theorem resolverTrackingError (v : Fin 4) : Statement (.resolverTrackingError v) := ⟨fun _ => trivial, fun _ => rfl⟩
theorem protocolExceptionEnd (p : Port) : Statement (.protocolExceptionEnd p) := ⟨fun _ => trivial, fun _ => rfl⟩
theorem slewToInternalDone : Statement (.slewToInternalDone) := ⟨fun _ => trivial, fun _ => rfl⟩
theorem regionCrcCheckDone : Statement (.regionCrcCheckDone) := ⟨fun _ => trivial, fun _ => rfl⟩
theorem computeLostBrakeWindowExpiry : Statement (.computeLostBrakeWindowExpiry) := ⟨fun _ => trivial, fun _ => rfl⟩
theorem emergencySs1TimeElapsed (g : Grp) : Statement (.emergencySs1TimeElapsed g) := ⟨fun _ => trivial, fun _ => rfl⟩
theorem emergencyBrakeWaitExpiry (g : Grp) : Statement (.emergencyBrakeWaitExpiry g) := ⟨fun _ => trivial, fun _ => rfl⟩
theorem preloadRampEnd (m : Main) : Statement (.preloadRampEnd m) := ⟨fun _ => trivial, fun _ => rfl⟩
theorem keepClockLoss : Statement (.keepClockLoss) := ⟨fun _ => trivial, fun _ => rfl⟩
theorem hostReadFrame (f : HostFrame) : Statement (.hostReadFrame f) := by
  show Instr.wf _ = true ↔ Fits _
  simp [Instr.wf, Fits, HostFrame.wf, and_comm]
theorem hysteresisHoldExpiry (a : AuxNo) (w : Winding) (cd12 : Nat) : Statement (.hysteresisHoldExpiry a w cd12) := by
  show Instr.wf _ = true ↔ Fits _
  simp [Instr.wf, Fits]

end Sys2Proof.Laws.WellFormedness
end

