-- ==== Sys2Proof/Laws/RunsAuxAxes.lean ====
section
/-! SUPPORT. Every command of Machine/AuxAxes.lean answers a next state that keeps what Laws/Kept.lean names. -/

set_option Elab.async false

set_option linter.unusedTactic false
set_option linter.unreachableTactic false

namespace Sys2Proof.Machine.State

theorem execHysteresisCrossing_kept {k0 : Base} {s : State} (h : s.Kept k0) (a : AuxNo) (w : Winding) (upper : Bool) (rising : Bool) (cd12 : Nat) :
    OutKeeps k0 (State.execHysteresisCrossing a w upper rising cd12 s) := by
  unfold State.execHysteresisCrossing
  show State.Kept k0 _
  repeat' first
    | with_reducible assumption
    | (extract_lets +onlyGivenNames x
       have hx : State.Kept k0 x := by
        unfold x
        repeat' first
          | with_reducible assumption
          | with_reducible apply modWind_kept
          | with_reducible apply ite_kept
          | split
          | (extract_lets +onlyGivenNames y; have : ∀ z : State, State.Kept k0 (y z) ∨ True := (fun _ => .inr trivial); clear this; subst y)
                | (extract_lets +onlyGivenNames y; have : ∀ (z : State) b, State.Kept k0 (y z b) ∨ True := (fun _ _ => .inr trivial); clear this; subst y)
                | (extract_lets +onlyGivenNames y; clear_value y)
                | (extract_lets +onlyGivenNames y; subst y)
       clear_value x)
    | (extract_lets +onlyGivenNames x; have : ∀ z : State, State.Kept k0 (x z) ∨ True := (fun _ => .inr trivial); clear this; subst x)
    | (extract_lets +onlyGivenNames x; have : ∀ (z : State) b, State.Kept k0 (x z b) ∨ True := (fun _ _ => .inr trivial); clear this; subst x)
    | (extract_lets +onlyGivenNames x; clear_value x)
    | (extract_lets +onlyGivenNames x; subst x)
    | with_reducible apply modWind_kept
    | with_reducible apply ite_kept
    | split

theorem execHysteresisHoldExpiry_kept {k0 : Base} {s : State} (h : s.Kept k0) (a : AuxNo) (w : Winding) (cd12 : Nat) :
    OutKeeps k0 (State.execHysteresisHoldExpiry a w cd12 s) := by
  unfold State.execHysteresisHoldExpiry
  show State.Kept k0 _
  repeat' first
    | with_reducible assumption
    | with_reducible apply modWind_kept
    | with_reducible apply ite_kept
    | split

theorem execSarConversion_kept {k0 : Base} {s : State} (h : s.Kept k0) (a : AuxNo) (w : Winding) (code : BitVec 12) :
    OutKeeps k0 (State.execSarConversion a w code s) := by
  unfold State.execSarConversion
  show State.Kept k0 _
  repeat' first
    | with_reducible assumption
    | (extract_lets +onlyGivenNames x
       have hx : State.Kept k0 x := by
        unfold x
        repeat' first
          | with_reducible assumption
          | with_reducible apply modWind_kept
          | with_reducible apply setAuxLatch_kept
          | with_reducible apply ite_kept
          | split
          | (extract_lets +onlyGivenNames y; clear_value y)
                | (extract_lets +onlyGivenNames y; subst y)
       clear_value x)
    | (extract_lets +onlyGivenNames x; clear_value x)
    | (extract_lets +onlyGivenNames x; subst x)
    | with_reducible apply modWind_kept
    | with_reducible apply setAuxLatch_kept
    | with_reducible apply ite_kept
    | split

theorem execAuxOvercurrent_kept {k0 : Base} {s : State} (h : s.Kept k0) (a : AuxNo) :
    OutKeeps k0 (State.execAuxOvercurrent a s) := by
  unfold State.execAuxOvercurrent
  show State.Kept k0 _
  repeat' first
    | with_reducible assumption
    | with_reducible apply bridgesOff_kept
    | with_reducible apply setAuxLatch_kept
    | with_reducible apply ite_kept

theorem execOpenCoil_kept {k0 : Base} {s : State} (h : s.Kept k0) (a : AuxNo) :
    OutKeeps k0 (State.execOpenCoil a s) := by
  unfold State.execOpenCoil
  show State.Kept k0 _
  repeat' first
    | with_reducible assumption
    | (extract_lets +onlyGivenNames x
       have hx : State.Kept k0 x := by
        unfold x
        repeat' first
          | with_reducible assumption
          | with_reducible apply setAuxLatch_kept
          | with_reducible apply ite_kept
          | (extract_lets +onlyGivenNames y; clear_value y)
                | (extract_lets +onlyGivenNames y; subst y)
       clear_value x)
    | (extract_lets +onlyGivenNames x; clear_value x)
    | (extract_lets +onlyGivenNames x; subst x)
    | with_reducible apply setAuxLatch_kept
    | with_reducible apply ite_kept

theorem execSettleTimeExpiry_kept {k0 : Base} {s : State} (h : s.Kept k0) (a : AuxNo) :
    OutKeeps k0 (State.execSettleTimeExpiry a s) := by
  unfold State.execSettleTimeExpiry
  show State.Kept k0 _
  repeat' first
    | with_reducible assumption
    | with_reducible apply modAux_kept
    | with_reducible apply ite_kept

theorem execHoldDelayExpiry_kept {k0 : Base} {s : State} (h : s.Kept k0) (a : AuxNo) :
    OutKeeps k0 (State.execHoldDelayExpiry a s) := by
  unfold State.execHoldDelayExpiry
  show State.Kept k0 _
  repeat' first
    | with_reducible assumption
    | (extract_lets +onlyGivenNames x
       have hx : State.Kept k0 x := by
        unfold x
        repeat' first
          | with_reducible assumption
          | with_reducible apply modAux_kept
          | with_reducible apply ite_kept
          | (extract_lets +onlyGivenNames y; clear_value y)
                | (extract_lets +onlyGivenNames y; subst y)
       clear_value x)
    | (extract_lets +onlyGivenNames x; clear_value x)
    | (extract_lets +onlyGivenNames x; subst x)
    | with_reducible apply modAux_kept
    | with_reducible apply ite_kept

theorem execStallDetected_kept {k0 : Base} {s : State} (h : s.Kept k0) (a : AuxNo) :
    OutKeeps k0 (State.execStallDetected a s) := by
  unfold State.execStallDetected
  show State.Kept k0 _
  repeat' first
    | with_reducible assumption
    | (extract_lets +onlyGivenNames x
       have hx : State.Kept k0 x := by
        unfold x
        repeat' first
          | with_reducible assumption
          | exact fun hm => hm
          | exact fun _ hq => hq
          | with_reducible apply endHome_kept
          | with_reducible apply haltAux_kept
          | with_reducible apply logEvent_kept
          | with_reducible apply modAux_kept
          | with_reducible apply modGroup_kept
          | with_reducible apply rebase_kept
          | with_reducible apply ite_kept
          | split
          | (intro _ _; (try dsimp only); split)
          | (extract_lets +onlyGivenNames y; clear_value y)
                | (extract_lets +onlyGivenNames y; subst y)
       clear_value x)
    | (extract_lets +onlyGivenNames x; clear_value x)
    | (extract_lets +onlyGivenNames x; subst x)
    | exact fun hm => hm
    | exact fun _ hq => hq
    | with_reducible apply endHome_kept
    | with_reducible apply haltAux_kept
    | with_reducible apply logEvent_kept
    | with_reducible apply modAux_kept
    | with_reducible apply modGroup_kept
    | with_reducible apply rebase_kept
    | with_reducible apply ite_kept
    | split
    | (intro _ _; (try dsimp only); split)

end Sys2Proof.Machine.State
end

