-- ==== Sys2Proof/Laws/RunsCan.lean ====
section
/-! SUPPORT. Every command of Machine/Can.lean answers a next state that keeps what Laws/Kept.lean names. -/

set_option Elab.async false

set_option linter.unusedTactic false
set_option linter.unreachableTactic false

namespace Sys2Proof.Machine.State

/-- Entries that meet a condition become silent. -/
theorem silence_kept {k0 : Base} {s : State} (h : s.Kept k0) (c : RosterEntry → Prop) [∀ e, Decidable (c e)] :
    (s.modRoster fun l => l.map fun e => if c e.2 then (e.1, { e.2 with silent := true }) else e).Kept k0 := by
  refine mapRoster_kept h _ fun e => ?_
  dsimp only
  split <;> rfl

theorem execBusModeWrite_kept {k0 : Base} {s : State} (h : s.Kept k0) (p : Port) (mode : BitVec 3) :
    OutKeeps k0 (State.execBusModeWrite p mode s) := by
  unfold State.execBusModeWrite
  show State.Kept k0 _
  repeat' first
    | with_reducible assumption
    | with_reducible apply otherFrame_kept
    | with_reducible apply writeMode_kept
    | with_reducible apply ite_kept

theorem execRecover_kept {k0 : Base} {s : State} (h : s.Kept k0) (p : Port) :
    OutKeeps k0 (State.execRecover p s) := by
  unfold State.execRecover
  show State.Kept k0 _
  repeat' first
    | with_reducible assumption
    | with_reducible apply otherFrame_kept
    | with_reducible apply startRecovery_kept
    | with_reducible apply ite_kept

theorem execCanBusIntegration_kept {k0 : Base} {s : State} (h : s.Kept k0) (p : Port) :
    OutKeeps k0 (State.execCanBusIntegration p s) := by
  unfold State.execCanBusIntegration
  show State.Kept k0 _
  repeat' first
    | with_reducible assumption
    | with_reducible apply modPort_kept
    | with_reducible apply ite_kept

theorem execProtocolException_kept {k0 : Base} {s : State} (h : s.Kept k0) (p : Port) :
    OutKeeps k0 (State.execProtocolException p s) := by
  unfold State.execProtocolException
  show State.Kept k0 _
  repeat' first
    | with_reducible assumption
    | with_reducible apply protoException_kept
    | with_reducible apply ite_kept

theorem execProtocolExceptionEnd_kept {k0 : Base} {s : State} (h : s.Kept k0) (p : Port) :
    OutKeeps k0 (State.execProtocolExceptionEnd p s) := by
  unfold State.execProtocolExceptionEnd
  show State.Kept k0 _
  repeat' first
    | with_reducible assumption
    | with_reducible apply modPort_kept
    | with_reducible apply ite_kept

theorem execTimestampWrap_kept {k0 : Base} {s : State} (h : s.Kept k0)  :
    OutKeeps k0 (State.execTimestampWrap s) := by
  unfold State.execTimestampWrap
  show State.Kept k0 _
  repeat' first
    | with_reducible assumption
    | with_reducible apply ite_kept
    | exact rfl
    | with_reducible apply mk_keep_kept

theorem execRosterSilenceCheck_kept {k0 : Base} {s : State} (h : s.Kept k0) : OutKeeps k0 (State.execRosterSilenceCheck s) := by
  unfold State.execRosterSilenceCheck
  show State.Kept k0 _
  with_reducible apply ite_kept
  · exact silence_kept h fun e => e.seen + s.pNounN e.port 0x24 * 1000 < s.time64
  · exact h

theorem execBusRsel_kept {k0 : Base} {s : State} (h : s.Kept k0) (p : Port) (index : BitVec 11) :
    OutKeeps k0 (State.execBusRsel p index s) := by
  unfold State.execBusRsel
  show State.Kept k0 _
  repeat' first
    | with_reducible assumption
    | with_reducible apply modBufs_kept
    | with_reducible apply otherFrame_kept
    | with_reducible apply ite_kept

theorem execDuplicateMarkExpiry_kept {k0 : Base} {s : State} (h : s.Kept k0) (p : Port) (ide : Bool) (id : BitVec 29) :
    OutKeeps k0 (State.execDuplicateMarkExpiry p ide id s) := by
  unfold State.execDuplicateMarkExpiry
  show State.Kept k0 _
  repeat' first
    | with_reducible assumption
    | (extract_lets +onlyGivenNames x
       have hx : State.Kept k0 x := by
        unfold x
        repeat' first
          | with_reducible assumption
          | with_reducible apply modBufs_kept
          | with_reducible apply setDup_kept
          | with_reducible apply ite_kept
          | (extract_lets +onlyGivenNames y; have : ∀ z : State, State.Kept k0 (y z) ∨ True := (fun _ => .inr trivial); clear this; subst y)
                | (extract_lets +onlyGivenNames y; have : ∀ (z : State) b, State.Kept k0 (y z b) ∨ True := (fun _ _ => .inr trivial); clear this; subst y)
                | (extract_lets +onlyGivenNames y; clear_value y)
                | (extract_lets +onlyGivenNames y; subst y)
       clear_value x)
    | (extract_lets +onlyGivenNames x; have : ∀ z : State, State.Kept k0 (x z) ∨ True := (fun _ => .inr trivial); clear this; subst x)
    | (extract_lets +onlyGivenNames x; have : ∀ (z : State) b, State.Kept k0 (x z b) ∨ True := (fun _ _ => .inr trivial); clear this; subst x)
    | (extract_lets +onlyGivenNames x; clear_value x)
    | (extract_lets +onlyGivenNames x; subst x)
    | with_reducible apply modBufs_kept
    | with_reducible apply setDup_kept
    | with_reducible apply ite_kept

theorem execCanErrorDetected_kept {k0 : Base} {s : State} (h : s.Kept k0) (p : Port) (e : CanError) :
    OutKeeps k0 (State.execCanErrorDetected p e s) := by
  unfold State.execCanErrorDetected
  show State.Kept k0 _
  repeat' first
    | with_reducible assumption
    | (extract_lets +onlyGivenNames x
       have hx : State.Kept k0 x := by
        unfold x
        repeat' first
          | with_reducible assumption
          | with_reducible apply endAborts_kept
          | with_reducible apply enterBusOff_kept
          | with_reducible apply modBufs_kept
          | with_reducible apply modPort_kept
          | with_reducible apply trackError_kept
          | with_reducible apply ite_kept
          | split
          | (extract_lets +onlyGivenNames y; clear_value y)
                | (extract_lets +onlyGivenNames y; subst y)
       clear_value x)
    | (extract_lets +onlyGivenNames x; clear_value x)
    | (extract_lets +onlyGivenNames x; subst x)
    | with_reducible apply endAborts_kept
    | with_reducible apply enterBusOff_kept
    | with_reducible apply modBufs_kept
    | with_reducible apply modPort_kept
    | with_reducible apply trackError_kept
    | with_reducible apply ite_kept
    | split

theorem execBusRecovered_kept {k0 : Base} {s : State} (h : s.Kept k0) (p : Port) :
    OutKeeps k0 (State.execBusRecovered p s) := by
  unfold State.execBusRecovered
  show State.Kept k0 _
  repeat' first
    | with_reducible assumption
    | (extract_lets +onlyGivenNames x
       have hx : State.Kept k0 x := by
        unfold x
        repeat' first
          | with_reducible assumption
          | with_reducible apply logEvent_kept
          | with_reducible apply modPort_kept
          | with_reducible apply ite_kept
          | (extract_lets +onlyGivenNames y; clear_value y)
                | (extract_lets +onlyGivenNames y; subst y)
       clear_value x)
    | (extract_lets +onlyGivenNames x; clear_value x)
    | (extract_lets +onlyGivenNames x; subst x)
    | with_reducible apply logEvent_kept
    | with_reducible apply modPort_kept
    | with_reducible apply ite_kept

theorem execCanSegmentTimeout_kept {k0 : Base} {s : State} (h : s.Kept k0) (p : Port) (session : Fin 8) :
    OutKeeps k0 (State.execCanSegmentTimeout p session s) := by
  unfold State.execCanSegmentTimeout
  show State.Kept k0 _
  repeat' first
    | with_reducible assumption
    | with_reducible apply dropPartial_kept
    | with_reducible apply ite_kept

theorem execCanFrameReceived_kept {k0 : Base} {s : State} (h : s.Kept k0) (p : Port) (f : CanFrame) (stamp : BitVec 32) :
    OutKeeps k0 (State.execCanFrameReceived p f stamp s) := by
  unfold State.execCanFrameReceived
  show State.Kept k0 _
  repeat' first
    | with_reducible assumption
    | (extract_lets +onlyGivenNames x
       have hx : State.Kept k0 x := by
        unfold x
        repeat' first
          | with_reducible assumption
          | with_reducible apply countFrame_kept
          | with_reducible apply creditReceiver_kept
          | with_reducible apply modBufs_kept
          | with_reducible apply protoException_kept
          | with_reducible apply routeFrame_kept
          | with_reducible apply sessionFrame_kept
          | with_reducible apply ite_kept
          | split
          | (extract_lets +onlyGivenNames y; clear_value y)
                | (extract_lets +onlyGivenNames y; subst y)
       clear_value x)
    | (extract_lets +onlyGivenNames x; clear_value x)
    | (extract_lets +onlyGivenNames x; subst x)
    | with_reducible apply countFrame_kept
    | with_reducible apply creditReceiver_kept
    | with_reducible apply modBufs_kept
    | with_reducible apply protoException_kept
    | with_reducible apply routeFrame_kept
    | with_reducible apply sessionFrame_kept
    | with_reducible apply ite_kept
    | split

theorem execBusRxack_kept {k0 : Base} {s : State} (h : s.Kept k0) (p : Port) (q0 : BitVec 7) (q1 : BitVec 7) :
    OutKeeps k0 (State.execBusRxack p q0 q1 s) := by
  unfold State.execBusRxack
  show State.Kept k0 _
  repeat' first
    | with_reducible assumption
    | with_reducible apply ackQueues_kept
    | with_reducible apply otherFrame_kept
    | with_reducible apply ite_kept

theorem execBusTxRequest_kept {k0 : Base} {s : State} (h : s.Kept k0) (p : Port) (buffers : BitVec 3) :
    OutKeeps k0 (State.execBusTxRequest p buffers s) := by
  unfold State.execBusTxRequest
  show State.Kept k0 _
  repeat' first
    | with_reducible assumption
    | with_reducible apply otherFrame_kept
    | with_reducible apply writeTxreq_kept
    | with_reducible apply ite_kept

theorem execBusTxAbort_kept {k0 : Base} {s : State} (h : s.Kept k0) (p : Port) (buffers : BitVec 3) :
    OutKeeps k0 (State.execBusTxAbort p buffers s) := by
  unfold State.execBusTxAbort
  show State.Kept k0 _
  repeat' first
    | with_reducible assumption
    | with_reducible apply otherFrame_kept
    | with_reducible apply writeTxreq_kept
    | with_reducible apply ite_kept

theorem execCanTransmitChoice_kept {k0 : Base} {s : State} (h : s.Kept k0) (p : Port) :
    OutKeeps k0 (State.execCanTransmitChoice p s) := by
  unfold State.execCanTransmitChoice
  show State.Kept k0 _
  repeat' first
    | with_reducible assumption
    | (extract_lets +onlyGivenNames x
       have hx : State.Kept k0 x := by
        unfold x
        repeat' first
          | with_reducible assumption
          | with_reducible apply modBufs_kept
          | with_reducible apply modTx_kept
          | with_reducible apply ite_kept
          | split
          | (extract_lets +onlyGivenNames y; clear_value y)
                | (extract_lets +onlyGivenNames y; subst y)
       clear_value x)
    | (extract_lets +onlyGivenNames x; clear_value x)
    | (extract_lets +onlyGivenNames x; subst x)
    | with_reducible apply modBufs_kept
    | with_reducible apply modTx_kept
    | with_reducible apply ite_kept
    | split

theorem execCanTransmitEnd_kept {k0 : Base} {s : State} (h : s.Kept k0) (p : Port) (o : CanTxOutcome) :
    OutKeeps k0 (State.execCanTransmitEnd p o s) := by
  unfold State.execCanTransmitEnd
  show State.Kept k0 _
  repeat' first
    | with_reducible assumption
    | (extract_lets +onlyGivenNames x
       have hx : State.Kept k0 x := by
        unfold x
        repeat' first
          | with_reducible assumption
          | with_reducible apply modBufs_kept
          | with_reducible apply modPort_kept
          | with_reducible apply modTx_kept
          | with_reducible apply ownTxb2_kept
          | with_reducible apply takeTdcv_kept
          | with_reducible apply ite_kept
          | split
          | (extract_lets +onlyGivenNames y; clear_value y)
                | (extract_lets +onlyGivenNames y; subst y)
       clear_value x)
    | (extract_lets +onlyGivenNames x; clear_value x)
    | (extract_lets +onlyGivenNames x; subst x)
    | with_reducible apply modBufs_kept
    | with_reducible apply modPort_kept
    | with_reducible apply modTx_kept
    | with_reducible apply ownTxb2_kept
    | with_reducible apply takeTdcv_kept
    | with_reducible apply ite_kept
    | split

end Sys2Proof.Machine.State
end

