-- ==== Sys2Proof/Laws/RunsCascade.lean ====
section
/-! SUPPORT. Every command of Machine/Cascade.lean answers a next state that keeps what Laws/Kept.lean names. -/

set_option Elab.async false

set_option linter.unusedTactic false
set_option linter.unreachableTactic false

namespace Sys2Proof.Machine.State

theorem execRingFormationDone_kept {k0 : Base} {s : State} (h : s.Kept k0) (info : RingInfo) :
    OutKeeps k0 (State.execRingFormationDone info s) := by
  unfold State.execRingFormationDone
  show State.Kept k0 _
  repeat' first
    | with_reducible assumption
    | (extract_lets +onlyGivenNames x
       have hx : State.Kept k0 x := by
        unfold x
        repeat' first
          | with_reducible assumption
          | with_reducible apply modCascade_kept
          | with_reducible apply ite_kept
          | split
          | (extract_lets +onlyGivenNames y; subst y)
          | with_reducible apply mk_kept
       clear_value x)
    | (extract_lets +onlyGivenNames x; subst x)
    | with_reducible apply modCascade_kept
    | with_reducible apply ite_kept
    | split
    | with_reducible apply mk_kept

theorem execRingBreak_kept {k0 : Base} {s : State} (h : s.Kept k0) (d : CxDir) :
    OutKeeps k0 (State.execRingBreak d s) := by
  unfold State.execRingBreak
  show State.Kept k0 _
  repeat' first
    | with_reducible assumption
    | with_reducible apply breakDir_kept
    | with_reducible apply ite_kept

theorem execLinkDirectionUp_kept {k0 : Base} {s : State} (h : s.Kept k0) (d : CxDir) :
    OutKeeps k0 (State.execLinkDirectionUp d s) := by
  unfold State.execLinkDirectionUp
  show State.Kept k0 _
  repeat' first
    | with_reducible assumption
    | (extract_lets +onlyGivenNames x
       have hx : State.Kept k0 x := by
        unfold x
        repeat' first
          | with_reducible assumption
          | with_reducible apply modCascade_kept
          | with_reducible apply ite_kept
          | split
          | (extract_lets +onlyGivenNames y; subst y)
          | with_reducible apply mk_kept
       clear_value x)
    | (extract_lets +onlyGivenNames x; subst x)
    | with_reducible apply modCascade_kept
    | with_reducible apply ite_kept
    | split
    | with_reducible apply mk_kept

theorem execSyncMissed_kept {k0 : Base} {s : State} (h : s.Kept k0)  :
    OutKeeps k0 (State.execSyncMissed s) := by
  unfold State.execSyncMissed
  show State.Kept k0 _
  repeat' first
    | with_reducible assumption
    | (extract_lets +onlyGivenNames x
       have hx : State.Kept k0 x := by
        unfold x
        repeat' first
          | with_reducible assumption
          | with_reducible apply logEvent_kept
          | with_reducible apply modCascade_kept
          | with_reducible apply ite_kept
          | split
          | (extract_lets +onlyGivenNames y; clear_value y)
                | (extract_lets +onlyGivenNames y; subst y)
       clear_value x)
    | (extract_lets +onlyGivenNames x; clear_value x)
    | (extract_lets +onlyGivenNames x; subst x)
    | with_reducible apply logEvent_kept
    | with_reducible apply modCascade_kept
    | with_reducible apply ite_kept
    | split

theorem execCascadePacketReceived_kept {k0 : Base} {s : State} (h : s.Kept k0) (p : CxPacket) :
    OutKeeps k0 (State.execCascadePacketReceived p s) := by
  unfold State.execCascadePacketReceived
  show State.Kept k0 _
  repeat' first
    | with_reducible assumption
    | (extract_lets +onlyGivenNames x
       have hx : State.Kept k0 x := by
        unfold x
        repeat' first
          | with_reducible assumption
          | with_reducible apply badPacket_kept
          | with_reducible apply modCascade_kept
          | with_reducible apply steer_kept
          | with_reducible apply takePacket_kept
          | with_reducible apply ite_kept
          | split
          | (extract_lets +onlyGivenNames y; clear_value y)
                | (extract_lets +onlyGivenNames y; subst y)
       clear_value x)
    | (extract_lets +onlyGivenNames x; clear_value x)
    | (extract_lets +onlyGivenNames x; subst x)
    | with_reducible apply badPacket_kept
    | with_reducible apply modCascade_kept
    | with_reducible apply steer_kept
    | with_reducible apply takePacket_kept
    | with_reducible apply ite_kept
    | split

theorem execStatusPacketSend_kept {k0 : Base} {s : State} (h : s.Kept k0)  :
    OutKeeps k0 (State.execStatusPacketSend s) := by
  unfold State.execStatusPacketSend
  show State.Kept k0 _
  repeat' first
    | with_reducible assumption
    | with_reducible apply modCascade_kept
    | with_reducible apply ite_kept

end Sys2Proof.Machine.State
end

