-- ==== Sys2Proof/Laws/RunsCommutation.lean ====
section
/-! SUPPORT. Every command of Machine/Commutation.lean answers a next state that keeps what Laws/Kept.lean names. -/

set_option Elab.async false

set_option linter.unusedTactic false
set_option linter.unreachableTactic false

namespace Sys2Proof.Machine.State

theorem execCheckTimeExpiry_kept {k0 : Base} {s : State} (h : s.Kept k0) (m : Main) :
    OutKeeps k0 (State.execCheckTimeExpiry m s) := by
  unfold State.execCheckTimeExpiry
  show State.Kept k0 _
  repeat' first
    | with_reducible assumption
    | with_reducible apply raise_kept

theorem execAlignmentTimeExpiry_kept {k0 : Base} {s : State} (h : s.Kept k0) (m : Main) :
    OutKeeps k0 (State.execAlignmentTimeExpiry m s) := by
  unfold State.execAlignmentTimeExpiry
  show State.Kept k0 _
  repeat' first
    | with_reducible assumption
    | with_reducible apply raise_kept

theorem execParisonTimeout_kept {k0 : Base} {s : State} (h : s.Kept k0) (m : Main) :
    OutKeeps k0 (State.execParisonTimeout m s) := by
  unfold State.execParisonTimeout
  show State.Kept k0 _
  repeat' first
    | with_reducible assumption
    | with_reducible apply raise_kept
    | split

theorem execCatchTimeout_kept {k0 : Base} {s : State} (h : s.Kept k0) (m : Main) :
    OutKeeps k0 (State.execCatchTimeout m s) := by
  unfold State.execCatchTimeout
  show State.Kept k0 _
  repeat' first
    | with_reducible assumption
    | with_reducible apply raise_kept

theorem execCoastTimeout_kept {k0 : Base} {s : State} (h : s.Kept k0) (m : Main) :
    OutKeeps k0 (State.execCoastTimeout m s) := by
  unfold State.execCoastTimeout
  show State.Kept k0 _
  repeat' first
    | with_reducible assumption
    | with_reducible apply raise_kept

theorem execResyncTimeout_kept {k0 : Base} {s : State} (h : s.Kept k0) (m : Main) :
    OutKeeps k0 (State.execResyncTimeout m s) := by
  unfold State.execResyncTimeout
  show State.Kept k0 _
  repeat' first
    | with_reducible assumption
    | with_reducible apply raise_kept

theorem execLossBrakeTimeout_kept {k0 : Base} {s : State} (h : s.Kept k0) (m : Main) :
    OutKeeps k0 (State.execLossBrakeTimeout m s) := by
  unfold State.execLossBrakeTimeout
  show State.Kept k0 _
  repeat' first
    | with_reducible assumption
    | with_reducible apply raise_kept
    | split

theorem execSensorHealthyHold_kept {k0 : Base} {s : State} (h : s.Kept k0) (m : Main) :
    OutKeeps k0 (State.execSensorHealthyHold m s) := by
  unfold State.execSensorHealthyHold
  show State.Kept k0 _
  repeat' first
    | with_reducible assumption
    | with_reducible apply raise_kept
    | with_reducible apply ite_kept

theorem execPreloadRampEnd_kept {k0 : Base} {s : State} (h : s.Kept k0) (m : Main) :
    OutKeeps k0 (State.execPreloadRampEnd m s) := by
  unfold State.execPreloadRampEnd
  show State.Kept k0 _
  repeat' first
    | with_reducible assumption
    | with_reducible apply raise_kept

theorem execHandoverDeferralExpiry_kept {k0 : Base} {s : State} (h : s.Kept k0) (m : Main) :
    OutKeeps k0 (State.execHandoverDeferralExpiry m s) := by
  unfold State.execHandoverDeferralExpiry
  show State.Kept k0 _
  repeat' first
    | with_reducible assumption
    | (extract_lets +onlyGivenNames x
       have hx : State.Kept k0 x := by
        unfold x
        repeat' first
          | with_reducible assumption
          | with_reducible apply enterRest_kept
          | with_reducible apply leaveTorque_kept
          | with_reducible apply modComm_kept
          | with_reducible apply ite_kept
          | split
          | (extract_lets +onlyGivenNames y; clear_value y)
                | (extract_lets +onlyGivenNames y; subst y)
       clear_value x)
    | (extract_lets +onlyGivenNames x; clear_value x)
    | (extract_lets +onlyGivenNames x; subst x)
    | with_reducible apply enterRest_kept
    | with_reducible apply leaveTorque_kept
    | with_reducible apply modComm_kept
    | with_reducible apply ite_kept
    | split

end Sys2Proof.Machine.State
end

