-- ==== Sys2Proof/Laws/RunsCycle.lean ====
section
/-! SUPPORT. Every command of Machine/Cycle.lean answers a next state that keeps what Laws/Kept.lean names. -/

set_option Elab.async false

set_option linter.unusedTactic false
set_option linter.unreachableTactic false

namespace Sys2Proof.Machine.State

theorem execSwapValidationDone_kept {k0 : Base} {s : State} (h : s.Kept k0) (g : Grp) :
    OutKeeps k0 (State.execSwapValidationDone g s) := by
  unfold State.execSwapValidationDone
  extract_lets q
  show State.Kept k0 _
  split
  next t x rest hq =>
    refine ite_kept ?_ h
    refine ite_kept (modGroup_kept h _ _ fun _ hq => hq) (advanceSwap_kept (finish_kept ?_ _ _ _) _)
    exact popQueue_kept h g hq s h _ fun _ => rfl
  · exact h

theorem execFrameTick_kept {k0 : Base} {s : State} (h : s.Kept k0)  :
    OutKeeps k0 (State.execFrameTick s) := by
  unfold State.execFrameTick
  show State.Kept k0 _
  repeat' first
    | with_reducible assumption
    | with_reducible apply frameTick_kept
    | with_reducible apply ite_kept

theorem execSegmentComplete_kept {k0 : Base} {s0 : State} (h : s0.Kept k0) (r : SegmentResult) :
    OutKeeps k0 (State.execSegmentComplete r s0) := by
  unfold State.execSegmentComplete
  extract_lets s
  have hs : s.Kept k0 := countErrors_kept h _
  clear_value s
  show State.Kept k0 _
  split
  · extract_lets q inj fits mode
    clear_value q inj fits mode
    refine ite_kept (freeEngines_kept (modGroup_kept hs _ _ fun _ hq => hq)) (ite_kept h (ite_kept (freeEngines_kept (commitSample_kept hs _)) ?_))
    rename_i disturbed agree keeps s1
    have h1 : s1.Kept k0 := ite_kept (disarmEng_kept hs) hs
    clear_value s1
    split
    · exact lockstepEnd_kept h1 _ _ _ _
    · exact simplexEnd_kept h1 _ _ _ _
    · exact simplexEnd_kept h1 _ _ _ _
    · exact h1
  · exact h

theorem execComputeDeadline_kept {k0 : Base} {s : State} (h : s.Kept k0) (g : Grp) :
    OutKeeps k0 (State.execComputeDeadline g s) := by
  unfold State.execComputeDeadline
  show State.Kept k0 _
  repeat' first
    | with_reducible assumption
    | with_reducible apply overrun_kept
    | with_reducible apply repeatSample_kept
    | with_reducible apply sendExchange_kept
    | split

end Sys2Proof.Machine.State
end

