-- ==== Sys2Proof/Laws/RunsFeedback.lean ====
section
/-! SUPPORT. Every command of Machine/Feedback.lean answers a next state that keeps what Laws/Kept.lean names. -/

set_option Elab.async false

set_option linter.unusedTactic false
set_option linter.unreachableTactic false

namespace Sys2Proof.Machine.State

theorem execEncoderEdge_kept {k0 : Base} {s : State} (h : s.Kept k0) (e : Fin 8) (a : Bool) (b : Bool) (z : Bool) (cd6 : Nat) :
    OutKeeps k0 (State.execEncoderEdge e a b z cd6 s) := by
  unfold State.execEncoderEdge
  show State.Kept k0 _
  repeat' first
    | with_reducible assumption
    | (extract_lets +onlyGivenNames x
       have hx : State.Kept k0 x := by
        unfold x
        repeat' first
          | with_reducible assumption
          | with_reducible apply encoderStep_kept
          | with_reducible apply illegalStep_kept
          | with_reducible apply modFb_kept
          | with_reducible apply ite_kept
          | (extract_lets +onlyGivenNames y; clear_value y)
                | (extract_lets +onlyGivenNames y; subst y)
       clear_value x)
    | (extract_lets +onlyGivenNames x; clear_value x)
    | (extract_lets +onlyGivenNames x; subst x)
    | with_reducible apply encoderStep_kept
    | with_reducible apply illegalStep_kept
    | with_reducible apply modFb_kept
    | with_reducible apply ite_kept

theorem execSpeedTimeout_kept {k0 : Base} {s : State} (h : s.Kept k0) (n : FbNo) :
    OutKeeps k0 (State.execSpeedTimeout n s) := by
  unfold State.execSpeedTimeout
  show State.Kept k0 _
  repeat' first
    | with_reducible assumption
    | with_reducible apply modFb_kept

theorem execResolverExcitationPeriod_kept {k0 : Base} {s : State} (h : s.Kept k0) (v : Fin 4) (amplitude : Nat) (angle : BitVec 16) (speed : Int) :
    OutKeeps k0 (State.execResolverExcitationPeriod v amplitude angle speed s) := by
  unfold State.execResolverExcitationPeriod
  show State.Kept k0 _
  repeat' first
    | with_reducible assumption
    | (extract_lets +onlyGivenNames x
       have hx : State.Kept k0 x := by
        unfold x
        repeat' first
          | with_reducible assumption
          | with_reducible apply invalidate_kept
          | with_reducible apply modFb_kept
          | with_reducible apply ite_kept
          | split
          | (extract_lets +onlyGivenNames y; clear_value y)
                | (extract_lets +onlyGivenNames y; subst y)
       clear_value x)
    | (extract_lets +onlyGivenNames x; clear_value x)
    | (extract_lets +onlyGivenNames x; subst x)
    | with_reducible apply invalidate_kept
    | with_reducible apply modFb_kept
    | with_reducible apply ite_kept
    | split

theorem execResolverTrackingError_kept {k0 : Base} {s : State} (h : s.Kept k0) (v : Fin 4) :
    OutKeeps k0 (State.execResolverTrackingError v s) := by
  unfold State.execResolverTrackingError
  show State.Kept k0 _
  repeat' first
    | with_reducible assumption
    | with_reducible apply invalidate_kept
    | with_reducible apply ite_kept

theorem execResolverRevalidate_kept {k0 : Base} {s : State} (h : s.Kept k0) (v : Fin 4) :
    OutKeeps k0 (State.execResolverRevalidate v s) := by
  unfold State.execResolverRevalidate
  show State.Kept k0 _
  repeat' first
    | with_reducible assumption
    | with_reducible apply modFb_kept
    | with_reducible apply ite_kept

theorem execSerialFrameEnd_kept {k0 : Base} {s : State} (h : s.Kept k0) (p : Fin 4) (f : SerialFrame) :
    OutKeeps k0 (State.execSerialFrameEnd p f s) := by
  unfold State.execSerialFrameEnd
  show State.Kept k0 _
  repeat' first
    | with_reducible assumption
    | (extract_lets +onlyGivenNames x
       have hx : State.Kept k0 x := by
        unfold x
        repeat' first
          | with_reducible assumption
          | with_reducible apply invalidate_kept
          | with_reducible apply modFb_kept
          | with_reducible apply ite_kept
          | split
          | (extract_lets +onlyGivenNames y; clear_value y)
                | (extract_lets +onlyGivenNames y; subst y)
       clear_value x)
    | (extract_lets +onlyGivenNames x; clear_value x)
    | (extract_lets +onlyGivenNames x; subst x)
    | with_reducible apply invalidate_kept
    | with_reducible apply modFb_kept
    | with_reducible apply ite_kept
    | split

theorem execSwitchSample_kept {k0 : Base} {s : State} (h : s.Kept k0) (levels : BitVec 24) (cd6 : Nat) :
    OutKeeps k0 (State.execSwitchSample levels cd6 s) := by
  unfold State.execSwitchSample
  show State.Kept k0 _
  repeat' first
    | with_reducible assumption
    | (extract_lets +onlyGivenNames x
       have hx : State.Kept k0 x := by
        unfold x
        repeat' first
          | with_reducible assumption
          | with_reducible apply switchBit_kept
          | with_reducible apply eachFin_kept
          | (intro z b hz; beta_reduce)
          | (extract_lets +onlyGivenNames y; subst y)
          | with_reducible apply mk_kept
       clear_value x)
    | (extract_lets +onlyGivenNames x; subst x)
    | with_reducible apply switchBit_kept
    | with_reducible apply eachFin_kept
    | (intro z b hz; beta_reduce)
    | with_reducible apply mk_kept

theorem execChatterCleared_kept {k0 : Base} {s : State} (h : s.Kept k0) (i : Fin 24) :
    OutKeeps k0 (State.execChatterCleared i s) := by
  unfold State.execChatterCleared
  show State.Kept k0 _
  repeat' first
    | with_reducible assumption
    | with_reducible apply logEvent_kept
    | with_reducible apply ite_kept
    | with_reducible apply mk_kept

theorem execKeeperEncoderSample_kept {k0 : Base} {s : State} (h : s.Kept k0) (a : BitVec 4) (b : BitVec 4) :
    OutKeeps k0 (State.execKeeperEncoderSample a b s) := by
  unfold State.execKeeperEncoderSample
  show State.Kept k0 _
  repeat' first
    | with_reducible assumption
    | (extract_lets +onlyGivenNames x
       have hx : State.Kept k0 x := by
        unfold x
        repeat' first
          | with_reducible assumption
          | with_reducible apply keepSample_kept
          | with_reducible apply eachFin_kept
          | (intro z b hz; beta_reduce)
          | with_reducible apply ite_kept
          | (extract_lets +onlyGivenNames y; subst y)
          | with_reducible apply mk_kept
       clear_value x)
    | (extract_lets +onlyGivenNames x; subst x)
    | with_reducible apply keepSample_kept
    | with_reducible apply eachFin_kept
    | (intro z b hz; beta_reduce)
    | with_reducible apply ite_kept
    | with_reducible apply mk_kept

end Sys2Proof.Machine.State
end

