-- ==== Sys2Proof/Laws/RunsGather.lean ====
section
/-! SUPPORT. Every command of Machine/Gather.lean answers a next state that keeps what Laws/Kept.lean names. -/

set_option Elab.async false

set_option linter.unusedTactic false
set_option linter.unreachableTactic false

namespace Sys2Proof.Machine.State

/-- What is pushed where there is room leaves the FIFO within its bound. -/
theorem gffPush_inv (f : GffSt) (held : Bool) (kind source : Nat) (seq : Byte) (body : GffBody)
    (h : gffRoom f held (body.length + 1) = true) : (gffPush f (gffWords kind source seq body)).Inv := by
  simp only [gffRoom, Bool.and_eq_true, decide_eq_true_eq] at h
  simpa [gffPush, GffSt.Inv, gffWords] using h.2

/-- A record enters where there is room, and else leaves the words as they are. -/
theorem gffWrite_inv {f : GffSt} (hf : f.Inv) (held : Bool) (kind source : Nat) (body : GffBody) : (gffWrite f held kind source body).Inv := by
  unfold gffWrite
  split
  next h => exact gffPush_inv f held _ _ _ _ h
  · exact hf

/-- Taking a pending record leaves the words as they are. -/
theorem gffNext_words {f f1 : GffSt} {r : Nat × Nat × GffBody} (h : gffNext f = some (r, f1)) : f1.words = f.words := by
  unfold gffNext at h
  split at h
  · cases h; rfl
  · split at h
    · cases h; rfl
    · split at h
      · cases h; rfl
      · split at h
        · cases h; rfl
        · cases h

theorem execGffRecordWrite_kept {k0 : Base} {s : State} (h : s.Kept k0) : OutKeeps k0 (State.execGffRecordWrite s) := by
  unfold State.execGffRecordWrite
  show State.Kept k0 _
  refine modGff_kept h _ fun hf => ?_
  split
  next hc => exact gffPush_inv _ s.gffHeld 5 0 _ [_] hc.2
  · split
    next r f1 hn => exact gffWrite_inv (by unfold GffSt.Inv; rw [gffNext_words hn]; exact hf) _ _ _ _
    · exact hf

end Sys2Proof.Machine.State
end

