-- ==== Sys2Proof/Laws/RunsGlance.lean ====
section
/-! SUPPORT. Every command of Machine/Glance.lean answers a next state that keeps what Laws/Kept.lean names. -/

set_option Elab.async false

set_option linter.unusedTactic false
set_option linter.unreachableTactic false

namespace Sys2Proof.Machine.State

theorem execGlanceWindowOpen_kept {k0 : Base} {s : State} (h : s.Kept k0) (m : Main) (fine : Nat) :
    OutKeeps k0 (State.execGlanceWindowOpen m fine s) := by
  unfold State.execGlanceWindowOpen
  show State.Kept k0 _
  repeat' first
    | with_reducible assumption
    | (extract_lets +onlyGivenNames x
       have hx : State.Kept k0 x := by
        unfold x
        repeat' first
          | with_reducible assumption
          | with_reducible apply modDrive_kept
          | with_reducible apply modGlance_kept
          | with_reducible apply ite_kept
          | split
          | (extract_lets +onlyGivenNames y; clear_value y)
                | (extract_lets +onlyGivenNames y; subst y)
       clear_value x)
    | (extract_lets +onlyGivenNames x; clear_value x)
    | (extract_lets +onlyGivenNames x; subst x)
    | with_reducible apply modDrive_kept
    | with_reducible apply modGlance_kept
    | with_reducible apply ite_kept
    | split

theorem execGlanceWindowClose_kept {k0 : Base} {s : State} (h : s.Kept k0) (m : Main) :
    OutKeeps k0 (State.execGlanceWindowClose m s) := by
  unfold State.execGlanceWindowClose
  show State.Kept k0 _
  repeat' first
    | with_reducible assumption
    | (extract_lets +onlyGivenNames x
       have hx : State.Kept k0 x := by
        unfold x
        repeat' first
          | with_reducible assumption
          | with_reducible apply modDrive_kept
          | with_reducible apply modGlance_kept
          | with_reducible apply ite_kept
          | split
          | (extract_lets +onlyGivenNames y; clear_value y)
                | (extract_lets +onlyGivenNames y; subst y)
       clear_value x)
    | (extract_lets +onlyGivenNames x; clear_value x)
    | (extract_lets +onlyGivenNames x; subst x)
    | with_reducible apply modDrive_kept
    | with_reducible apply modGlance_kept
    | with_reducible apply ite_kept
    | split

theorem execComparatorEdge_kept {k0 : Base} {s : State} (h : s.Kept k0) (m : Main) (phase : Phase) (rising : Bool) (cd4 : Nat) :
    OutKeeps k0 (State.execComparatorEdge m phase rising cd4 s) := by
  unfold State.execComparatorEdge
  show State.Kept k0 _
  repeat' first
    | with_reducible assumption
    | (extract_lets +onlyGivenNames x
       have hx : State.Kept k0 x := by
        unfold x
        repeat' first
          | with_reducible assumption
          | with_reducible apply modComm_kept
          | with_reducible apply modGlance_kept
          | with_reducible apply sixStepEdge_kept
          | with_reducible apply windowEdge_kept
          | with_reducible apply ite_kept
          | split
          | (extract_lets +onlyGivenNames y; clear_value y)
                | (extract_lets +onlyGivenNames y; subst y)
       clear_value x)
    | (extract_lets +onlyGivenNames x; clear_value x)
    | (extract_lets +onlyGivenNames x; subst x)
    | with_reducible apply modComm_kept
    | with_reducible apply modGlance_kept
    | with_reducible apply sixStepEdge_kept
    | with_reducible apply windowEdge_kept
    | with_reducible apply ite_kept
    | split

theorem execSixStepCommutation_kept {k0 : Base} {s : State} (h : s.Kept k0) (m : Main) :
    OutKeeps k0 (State.execSixStepCommutation m s) := by
  unfold State.execSixStepCommutation
  show State.Kept k0 _
  repeat' first
    | with_reducible assumption
    | (extract_lets +onlyGivenNames x
       have hx : State.Kept k0 x := by
        unfold x
        repeat' first
          | with_reducible assumption
          | with_reducible apply modComm_kept
          | with_reducible apply modGlance_kept
          | with_reducible apply ite_kept
          | (extract_lets +onlyGivenNames y; clear_value y)
                | (extract_lets +onlyGivenNames y; subst y)
       clear_value x)
    | (extract_lets +onlyGivenNames x; clear_value x)
    | (extract_lets +onlyGivenNames x; subst x)
    | with_reducible apply modComm_kept
    | with_reducible apply modGlance_kept
    | with_reducible apply ite_kept

theorem execSpeedLimit_kept {k0 : Base} {s : State} (h : s.Kept k0) (m : Main) :
    OutKeeps k0 (State.execSpeedLimit m s) := by
  unfold State.execSpeedLimit
  show State.Kept k0 _
  repeat' first
    | with_reducible assumption
    | (extract_lets +onlyGivenNames x
       have hx : State.Kept k0 x := by
        unfold x
        repeat' first
          | with_reducible assumption
          | with_reducible apply CState.gated_kept
          | with_reducible apply enterRest_kept
          | with_reducible apply leaveTorque_kept
          | with_reducible apply ite_kept
          | split
          | (extract_lets +onlyGivenNames y; clear_value y)
                | (extract_lets +onlyGivenNames y; subst y)
       clear_value x)
    | (extract_lets +onlyGivenNames x; clear_value x)
    | (extract_lets +onlyGivenNames x; subst x)
    | with_reducible apply CState.gated_kept
    | with_reducible apply enterRest_kept
    | with_reducible apply leaveTorque_kept
    | with_reducible apply ite_kept
    | split

theorem execModeDeferralExpiry_kept {k0 : Base} {s : State} (h : s.Kept k0) (m : Main) :
    OutKeeps k0 (State.execModeDeferralExpiry m s) := by
  unfold State.execModeDeferralExpiry
  show State.Kept k0 _
  repeat' first
    | with_reducible assumption
    | with_reducible apply finish_kept
    | with_reducible apply modEng_kept
    | with_reducible apply ite_kept
    | split

theorem execFollowingError_kept {k0 : Base} {s : State} (h : s.Kept k0) (m : Main) :
    OutKeeps k0 (State.execFollowingError m s) := by
  unfold State.execFollowingError
  show State.Kept k0 _
  repeat' first
    | with_reducible assumption
    | (extract_lets +onlyGivenNames x
       have hx : State.Kept k0 x := by
        unfold x
        repeat' first
          | with_reducible assumption
          | exact fun hm => hm
          | exact fun _ hq => hq
          | with_reducible apply logEvent_kept
          | with_reducible apply modEng_kept
          | with_reducible apply modGroup_kept
          | with_reducible apply ite_kept
          | (intro _ _; (try dsimp only); split)
          | (extract_lets +onlyGivenNames y; clear_value y)
                | (extract_lets +onlyGivenNames y; subst y)
       clear_value x)
    | (extract_lets +onlyGivenNames x; clear_value x)
    | (extract_lets +onlyGivenNames x; subst x)
    | exact fun hm => hm
    | exact fun _ hq => hq
    | with_reducible apply logEvent_kept
    | with_reducible apply modEng_kept
    | with_reducible apply modGroup_kept
    | with_reducible apply ite_kept
    | (intro _ _; (try dsimp only); split)

theorem execExcitationSearchWindow_kept {k0 : Base} {s : State} (h : s.Kept k0) (m : Main) :
    OutKeeps k0 (State.execExcitationSearchWindow m s) := by
  unfold State.execExcitationSearchWindow
  show State.Kept k0 _
  repeat' first
    | with_reducible assumption
    | (extract_lets +onlyGivenNames x
       have hx : State.Kept k0 x := by
        unfold x
        repeat' first
          | with_reducible assumption
          | with_reducible apply modShare_kept
          | with_reducible apply step_kept
          | with_reducible apply ite_kept
          | split
          | (extract_lets +onlyGivenNames y; have : ∀ z : State, State.Kept k0 (y z) ∨ True := (fun _ => .inr trivial); clear this; subst y)
                | (extract_lets +onlyGivenNames y; have : ∀ (z : State) b, State.Kept k0 (y z b) ∨ True := (fun _ _ => .inr trivial); clear this; subst y)
                | (extract_lets +onlyGivenNames y; clear_value y)
                | (extract_lets +onlyGivenNames y; subst y)
       clear_value x)
    | (extract_lets +onlyGivenNames x; have : ∀ z : State, State.Kept k0 (x z) ∨ True := (fun _ => .inr trivial); clear this; subst x)
    | (extract_lets +onlyGivenNames x; have : ∀ (z : State) b, State.Kept k0 (x z b) ∨ True := (fun _ _ => .inr trivial); clear this; subst x)
    | (extract_lets +onlyGivenNames x; clear_value x)
    | (extract_lets +onlyGivenNames x; subst x)
    | with_reducible apply modShare_kept
    | with_reducible apply step_kept
    | with_reducible apply ite_kept
    | split

end Sys2Proof.Machine.State
end

