-- ==== Sys2Proof/Laws/RunsGroupStart.lean ====
section
/-! SUPPORT. Every command of Machine/GroupStart.lean answers a next state that keeps what Laws/Kept.lean names. -/

set_option Elab.async false

set_option linter.unusedTactic false
set_option linter.unreachableTactic false

namespace Sys2Proof.Machine.State

theorem execSpanStartTick_kept {k0 : Base} {s : State} (h : s.Kept k0) (g : Grp) :
    OutKeeps k0 (State.execSpanStartTick g s) := by
  unfold State.execSpanStartTick
  show State.Kept k0 _
  repeat' first
    | with_reducible assumption
    | (extract_lets +onlyGivenNames x
       have hx : State.Kept k0 x := by
        unfold x
        repeat' first
          | with_reducible assumption
          | exact fun hm => hm
          | exact fun _ hq => hq
          | with_reducible apply beginGroup_kept
          | with_reducible apply modGroup_kept
          | with_reducible apply running_kept
          | with_reducible apply ite_kept
          | (intro _ _; (try dsimp only); split)
          | (extract_lets +onlyGivenNames y; clear_value y)
                | (extract_lets +onlyGivenNames y; subst y)
       clear_value x)
    | (extract_lets +onlyGivenNames x; clear_value x)
    | (extract_lets +onlyGivenNames x; subst x)
    | exact fun hm => hm
    | exact fun _ hq => hq
    | with_reducible apply beginGroup_kept
    | with_reducible apply modGroup_kept
    | with_reducible apply running_kept
    | with_reducible apply ite_kept
    | (intro _ _; (try dsimp only); split)

end Sys2Proof.Machine.State
end

