-- ==== Sys2Proof/Laws/RunsLinks.lean ====
section
/-! SUPPORT. Every command of Machine/Links.lean answers a next state that keeps what Laws/Kept.lean names. -/

set_option Elab.async false

set_option linter.unusedTactic false
set_option linter.unreachableTactic false

namespace Sys2Proof.Machine.State

/-- The test injection into a window changes only the test registers. -/
theorem injectSinc_kept {k0 : Base} {s : State} (h : s.Kept k0) (w : List ChannelBits) : (s.injectSinc w).2.Kept k0 := by
  unfold State.injectSinc
  extract_lets r stuck ch skip
  split
  · extract_lets left w1
    split
    · exact modTest_kept h _
    · exact h
  · exact h

theorem execFilterResultReady_kept {k0 : Base} {s0 : State} (h : s0.Kept k0) (g : Option Grp) (captured : List ChannelBits) :
    OutKeeps k0 (State.execFilterResultReady g captured s0) := by
  unfold State.execFilterResultReady
  extract_lets p window s
  have hs : s.Kept k0 := injectSinc_kept h _
  clear_value s
  show State.Kept k0 _
  split
  · exact ite_kept (eachFin_kept _ _ (fun z b hz => ite_kept (linkResult_kept hz _ _) hz) hs) hs
  next g =>
    refine ite_kept ?_ hs
    extract_lets s1 s2
    have h1 : s1.Kept k0 := foldl_kept _ _ (fun z b hz => currentResult_kept hz _ _) hs
    have h2 : s2.Kept k0 := eachFin_kept _ _ (fun z b hz => ite_kept (linkResult_kept hz _ _) hz) h1
    clear_value s2
    with_reducible apply startSegment_kept
    with_reducible apply checkExchange_kept
    with_reducible apply modGroup_kept h2
    exact fun _ hq => hq

theorem execChopperPeriodStart_kept {k0 : Base} {s : State} (h : s.Kept k0) (l : LinkNo) (bcf : Bool) :
    OutKeeps k0 (State.execChopperPeriodStart l bcf s) := by
  unfold State.execChopperPeriodStart
  show State.Kept k0 _
  repeat' first
    | with_reducible assumption
    | (extract_lets +onlyGivenNames x
       have hx : State.Kept k0 x := by
        unfold x
        repeat' first
          | with_reducible assumption
          | with_reducible apply modLink_kept
          | (extract_lets +onlyGivenNames y; clear_value y)
                | (extract_lets +onlyGivenNames y; subst y)
       clear_value x)
    | (extract_lets +onlyGivenNames x; clear_value x)
    | (extract_lets +onlyGivenNames x; subst x)
    | with_reducible apply modLink_kept

theorem execChopperFeedbackMismatch_kept {k0 : Base} {s : State} (h : s.Kept k0) (l : LinkNo) :
    OutKeeps k0 (State.execChopperFeedbackMismatch l s) := by
  unfold State.execChopperFeedbackMismatch
  show State.Kept k0 _
  repeat' first
    | with_reducible assumption
    | (extract_lets +onlyGivenNames x
       have hx : State.Kept k0 x := by
        unfold x
        repeat' first
          | with_reducible assumption
          | exact fun hm => hm
          | exact fun _ hq => hq
          | with_reducible apply chopperLost_kept
          | with_reducible apply logEvent_kept
          | with_reducible apply modGroup_kept
          | with_reducible apply modLink_kept
          | with_reducible apply foldl_kept
          | (intro z b hz; beta_reduce)
          | with_reducible apply ite_kept
          | split
          | (intro _ _; (try dsimp only); split)
          | (extract_lets +onlyGivenNames y; clear_value y)
                | (extract_lets +onlyGivenNames y; subst y)
       clear_value x)
    | (extract_lets +onlyGivenNames x; clear_value x)
    | (extract_lets +onlyGivenNames x; subst x)
    | exact fun hm => hm
    | exact fun _ hq => hq
    | with_reducible apply chopperLost_kept
    | with_reducible apply logEvent_kept
    | with_reducible apply modGroup_kept
    | with_reducible apply modLink_kept
    | with_reducible apply foldl_kept
    | (intro z b hz; beta_reduce)
    | with_reducible apply ite_kept
    | split
    | (intro _ _; (try dsimp only); split)

end Sys2Proof.Machine.State
end

