-- ==== Sys2Proof/Laws/RunsMailbox.lean ====
section
/-! SUPPORT. Every command of Machine/Mailbox.lean answers a next state that keeps what Laws/Kept.lean names. -/

set_option Elab.async false

set_option linter.unusedTactic false
set_option linter.unreachableTactic false

namespace Sys2Proof.Machine.State

theorem execMbxDoorbell_kept {k0 : Base} {s : State} (h : s.Kept k0) (slots : BitVec 16) :
    OutKeeps k0 (State.execMbxDoorbell slots s) := by
  unfold State.execMbxDoorbell
  show State.Kept k0 _
  repeat' first
    | with_reducible assumption
    | with_reducible apply mbxErr_kept
    | with_reducible apply ringDoorbell_kept
    | with_reducible apply ite_kept

theorem execMbxRelease_kept {k0 : Base} {s : State} (h : s.Kept k0) (slots : BitVec 16) :
    OutKeeps k0 (State.execMbxRelease slots s) := by
  unfold State.execMbxRelease
  show State.Kept k0 _
  repeat' first
    | with_reducible assumption
    | with_reducible apply releaseSlots_kept
    | with_reducible apply ite_kept

theorem execMbxCplack_kept {k0 : Base} {s : State} (h : s.Kept k0) (n : BitVec 6) :
    OutKeeps k0 (State.execMbxCplack n s) := by
  unfold State.execMbxCplack
  show State.Kept k0 _
  repeat' first
    | with_reducible assumption
    | exact fun hm => hm
    | exact fun _ hq => hq
    | with_reducible apply modMail_kept
    | with_reducible apply ite_kept
    | (intro _ _; (try dsimp only); split)

theorem execSlotTaken_kept {k0 : Base} {s : State} (h : s.Kept k0)  :
    OutKeeps k0 (State.execSlotTaken s) := by
  unfold State.execSlotTaken
  show State.Kept k0 _
  repeat' first
    | with_reducible assumption
    | (extract_lets +onlyGivenNames x
       have hx : State.Kept k0 x := by
        unfold x
        repeat' first
          | with_reducible assumption
          | exact fun hm => hm
          | exact fun _ hq => hq
          | with_reducible apply answerSlot_kept
          | with_reducible apply modMail_kept
          | with_reducible apply modSlot_kept
          | with_reducible apply ite_kept
          | split
          | (intro _ _; (try dsimp only); split)
          | (extract_lets +onlyGivenNames y; clear_value y)
                | (extract_lets +onlyGivenNames y; subst y)
       clear_value x)
    | (extract_lets +onlyGivenNames x; clear_value x)
    | (extract_lets +onlyGivenNames x; subst x)
    | exact fun hm => hm
    | exact fun _ hq => hq
    | with_reducible apply answerSlot_kept
    | with_reducible apply modMail_kept
    | with_reducible apply modSlot_kept
    | with_reducible apply ite_kept
    | split
    | (intro _ _; (try dsimp only); split)

theorem execSentenceTaken_kept {k0 : Base} {s : State} (h : s.Kept k0) : OutKeeps k0 (State.execSentenceTaken s) := by
  unfold State.execSentenceTaken
  show State.Kept k0 _
  split
  · exact h
  next x o r _ =>
    refine ite_kept h ?_
    extract_lets s1
    have h1 : s1.Kept k0 := modMail_kept h _ fun hm => hm
    refine ite_kept (emit_kept h1 _) (ite_kept' (fun _ => emit_kept h1 _) fun hn => issue_kept h1 ?_ _ _)
    have : s1.inFlightCount = s.inFlightCount := rfl
    omega

theorem execSentenceTakeUp_kept {k0 : Base} {s : State} (h : s.Kept k0) (t : BitVec 16) :
    OutKeeps k0 (State.execSentenceTakeUp t s) := by
  unfold State.execSentenceTakeUp
  show State.Kept k0 _
  repeat' first
    | with_reducible assumption
    | exact fun _ hk => hk
    | exact fun _ => rfl
    | with_reducible apply AState.num_kept
    | with_reducible apply CState.num_kept
    | with_reducible apply SState.num_kept
    | with_reducible apply SlotState.num_kept
    | with_reducible apply TxState.num_kept
    | with_reducible apply YState.num_kept
    | with_reducible apply finish_kept
    | with_reducible apply modTicket_kept
    | with_reducible apply ite_kept
    | split

end Sys2Proof.Machine.State
end

