-- ==== Sys2Proof/Laws/RunsMasking.lean ====
section
/-! SUPPORT. Every command of Machine/Masking.lean answers a next state that keeps what Laws/Kept.lean names. -/

set_option Elab.async false

set_option linter.unusedTactic false
set_option linter.unreachableTactic false

namespace Sys2Proof.Machine.State

theorem execEmergencySs1TimeElapsed_kept {k0 : Base} {s : State} (h : s.Kept k0) (g : Grp) :
    OutKeeps k0 (State.execEmergencySs1TimeElapsed g s) := by
  unfold State.execEmergencySs1TimeElapsed
  show State.Kept k0 _
  repeat' first
    | with_reducible assumption
    | (extract_lets +onlyGivenNames x
       have hx : State.Kept k0 x := by
        unfold x
        repeat' first
          | with_reducible assumption
          | with_reducible apply emergencyBrakes_kept
          | with_reducible apply ite_kept
          | (extract_lets +onlyGivenNames y; clear_value y)
                | (extract_lets +onlyGivenNames y; subst y)
       clear_value x)
    | (extract_lets +onlyGivenNames x; clear_value x)
    | (extract_lets +onlyGivenNames x; subst x)
    | with_reducible apply emergencyBrakes_kept
    | with_reducible apply ite_kept

theorem execEmergencyBrakeWaitExpiry_kept {k0 : Base} {s : State} (h : s.Kept k0) (g : Grp) :
    OutKeeps k0 (State.execEmergencyBrakeWaitExpiry g s) := by
  unfold State.execEmergencyBrakeWaitExpiry
  show State.Kept k0 _
  repeat' first
    | with_reducible assumption
    | (extract_lets +onlyGivenNames x
       have hx : State.Kept k0 x := by
        unfold x
        repeat' first
          | with_reducible assumption
          | with_reducible apply emergencyTorqueOff_kept
          | with_reducible apply ite_kept
          | (extract_lets +onlyGivenNames y; clear_value y)
                | (extract_lets +onlyGivenNames y; subst y)
       clear_value x)
    | (extract_lets +onlyGivenNames x; clear_value x)
    | (extract_lets +onlyGivenNames x; subst x)
    | with_reducible apply emergencyTorqueOff_kept
    | with_reducible apply ite_kept

theorem execComputeLostBrakeWindowExpiry_kept {k0 : Base} {s : State} (h : s.Kept k0)  :
    OutKeeps k0 (State.execComputeLostBrakeWindowExpiry s) := by
  unfold State.execComputeLostBrakeWindowExpiry
  show State.Kept k0 _
  repeat' first
    | with_reducible assumption
    | (extract_lets +onlyGivenNames x
       have hx : State.Kept k0 x := by
        unfold x
        repeat' first
          | with_reducible assumption
          | with_reducible apply clearTorque_kept
          | with_reducible apply enterRest_kept
          | with_reducible apply gatesOff_kept
          | with_reducible apply stopGroup_kept
          | with_reducible apply foldl_kept
          | with_reducible apply eachFin_kept
          | (intro z b hz; beta_reduce)
          | with_reducible apply ite_kept
          | (extract_lets +onlyGivenNames y; clear_value y)
                | (extract_lets +onlyGivenNames y; subst y)
       clear_value x)
    | (extract_lets +onlyGivenNames x; clear_value x)
    | (extract_lets +onlyGivenNames x; subst x)
    | with_reducible apply clearTorque_kept
    | with_reducible apply enterRest_kept
    | with_reducible apply gatesOff_kept
    | with_reducible apply stopGroup_kept
    | with_reducible apply foldl_kept
    | with_reducible apply eachFin_kept
    | (intro z b hz; beta_reduce)
    | with_reducible apply ite_kept

theorem execCheckSetDone_kept {k0 : Base} {s : State} (h : s.Kept k0) (passA : Bool) (passB : Bool) :
    OutKeeps k0 (State.execCheckSetDone passA passB s) := by
  unfold State.execCheckSetDone
  show State.Kept k0 _
  repeat' first
    | with_reducible assumption
    | (extract_lets +onlyGivenNames x
       have hx : State.Kept k0 x := by
        unfold x
        repeat' first
          | with_reducible assumption
          | with_reducible apply computeLost_kept
          | with_reducible apply disarmEng_kept
          | with_reducible apply logEvent_kept
          | with_reducible apply retire_kept
          | with_reducible apply startSegment_kept
          | with_reducible apply ite_kept
          | split
          | exact rfl
          | (extract_lets +onlyGivenNames y; subst y)
          | with_reducible apply mk_keep_kept
       clear_value x)
    | (extract_lets +onlyGivenNames x; subst x)
    | with_reducible apply computeLost_kept
    | with_reducible apply disarmEng_kept
    | with_reducible apply logEvent_kept
    | with_reducible apply retire_kept
    | with_reducible apply startSegment_kept
    | with_reducible apply ite_kept
    | split
    | exact rfl
    | with_reducible apply mk_keep_kept

theorem execClusterCheckSetStart_kept {k0 : Base} {s : State} (h : s.Kept k0)  :
    OutKeeps k0 (State.execClusterCheckSetStart s) := by
  unfold State.execClusterCheckSetStart
  show State.Kept k0 _
  repeat' first
    | with_reducible assumption
    | with_reducible apply ite_kept
    | exact rfl
    | with_reducible apply mk_keep_kept

theorem execRegionCrcCheckDone_kept {k0 : Base} {s : State} (h : s.Kept k0)  :
    OutKeeps k0 (State.execRegionCrcCheckDone s) := by
  unfold State.execRegionCrcCheckDone
  show State.Kept k0 _
  repeat' first
    | with_reducible assumption
    | (extract_lets +onlyGivenNames x
       have hx : State.Kept k0 x := by
        unfold x
        repeat' first
          | with_reducible assumption
          | with_reducible apply askEmergency_kept
          | with_reducible apply eachFin_kept
          | (intro z b hz; beta_reduce)
          | with_reducible apply ite_kept
          | exact rfl
          | (extract_lets +onlyGivenNames y; subst y)
          | with_reducible apply mk_keep_kept
       clear_value x)
    | (extract_lets +onlyGivenNames x; subst x)
    | with_reducible apply askEmergency_kept
    | with_reducible apply eachFin_kept
    | (intro z b hz; beta_reduce)
    | with_reducible apply ite_kept
    | exact rfl
    | with_reducible apply mk_keep_kept

end Sys2Proof.Machine.State
end

