-- ==== Sys2Proof/Laws/RunsPower.lean ====
section
/-! SUPPORT. Every command of Machine/Power.lean answers a next state that keeps what Laws/Kept.lean names. -/

set_option Elab.async false

set_option linter.unusedTactic false
set_option linter.unreachableTactic false

namespace Sys2Proof.Machine.State

theorem execBrownout_kept {k0 : Base} {s : State} (h : s.Kept k0)  :
    OutKeeps k0 (State.execBrownout s) := by
  unfold State.execBrownout
  show State.Kept k0 _
  repeat' first
    | with_reducible assumption
    | (extract_lets +onlyGivenNames x
       have hx : State.Kept k0 x := by
        unfold x
        repeat' first
          | with_reducible assumption
          | with_reducible apply modPower_kept
          | with_reducible apply outputsOff_kept
          | with_reducible apply safeHold_kept
          | split
          | (extract_lets +onlyGivenNames y; have : ∀ z : State, State.Kept k0 (y z) ∨ True := (fun _ => .inr trivial); clear this; subst y)
                | (extract_lets +onlyGivenNames y; have : ∀ (z : State) b, State.Kept k0 (y z b) ∨ True := (fun _ _ => .inr trivial); clear this; subst y)
                | (extract_lets +onlyGivenNames y; clear_value y)
                | (extract_lets +onlyGivenNames y; subst y)
       clear_value x)
    | (extract_lets +onlyGivenNames x; have : ∀ z : State, State.Kept k0 (x z) ∨ True := (fun _ => .inr trivial); clear this; subst x)
    | (extract_lets +onlyGivenNames x; have : ∀ (z : State) b, State.Kept k0 (x z b) ∨ True := (fun _ _ => .inr trivial); clear this; subst x)
    | (extract_lets +onlyGivenNames x; clear_value x)
    | (extract_lets +onlyGivenNames x; subst x)
    | with_reducible apply modPower_kept
    | with_reducible apply outputsOff_kept
    | with_reducible apply safeHold_kept
    | split

theorem execVinokHeld_kept {k0 : Base} {s : State} (h : s.Kept k0)  :
    OutKeeps k0 (State.execVinokHeld s) := by
  unfold State.execVinokHeld
  show State.Kept k0 _
  repeat' first
    | with_reducible assumption
    | (extract_lets +onlyGivenNames x
       have hx : State.Kept k0 x := by
        unfold x
        repeat' first
          | with_reducible assumption
          | with_reducible apply latched_kept
          | with_reducible apply modPower_kept
          | with_reducible apply passUnknown_kept
          | with_reducible apply releaseReset_kept
          | with_reducible apply safeHold_kept
          | with_reducible apply toStart_kept
          | with_reducible apply wake_kept
          | with_reducible apply ite_kept
          | split
          | (extract_lets +onlyGivenNames y; clear_value y)
                | (extract_lets +onlyGivenNames y; subst y)
       clear_value x)
    | (extract_lets +onlyGivenNames x; clear_value x)
    | (extract_lets +onlyGivenNames x; subst x)
    | with_reducible apply latched_kept
    | with_reducible apply modPower_kept
    | with_reducible apply passUnknown_kept
    | with_reducible apply releaseReset_kept
    | with_reducible apply safeHold_kept
    | with_reducible apply toStart_kept
    | with_reducible apply wake_kept
    | with_reducible apply ite_kept
    | split

theorem execKeeperFloorLoss_kept {k0 : Base} {s : State} (h : s.Kept k0) : OutKeeps k0 (State.execKeeperFloorLoss s) := by
  unfold State.execKeeperFloorLoss
  extract_lets z z1
  have hz : z.Kept k0 := dieOff_kept h
  clear_value z
  show State.Kept k0 _
  refine wipeLedger_kept ?_
  obtain ⟨b1, b2, b3, h1, h2, h3, h4, h5, h6, h7, h8, _, h10⟩ := hz
  exact ⟨b1, b2, b3, h1, h2, h3, h4, h5, h6, h7, h8, trivial, h10⟩

theorem execVlow_kept {k0 : Base} {s : State} (h : s.Kept k0) (below : Bool) :
    OutKeeps k0 (State.execVlow below s) := by
  unfold State.execVlow
  show State.Kept k0 _
  repeat' first
    | with_reducible assumption
    | with_reducible apply modPower_kept
    | with_reducible apply ite_kept
    | split

theorem execCrystalQualified_kept {k0 : Base} {s : State} (h : s.Kept k0)  :
    OutKeeps k0 (State.execCrystalQualified s) := by
  unfold State.execCrystalQualified
  show State.Kept k0 _
  repeat' first
    | with_reducible assumption
    | with_reducible apply modPower_kept
    | with_reducible apply ite_kept

theorem execCrystalLost_kept {k0 : Base} {s : State} (h : s.Kept k0)  :
    OutKeeps k0 (State.execCrystalLost s) := by
  unfold State.execCrystalLost
  show State.Kept k0 _
  repeat' first
    | with_reducible assumption
    | with_reducible apply modPower_kept
    | with_reducible apply ite_kept

theorem execHoldoverExpiry_kept {k0 : Base} {s : State} (h : s.Kept k0)  :
    OutKeeps k0 (State.execHoldoverExpiry s) := by
  unfold State.execHoldoverExpiry
  show State.Kept k0 _
  repeat' first
    | with_reducible assumption
    | with_reducible apply modPower_kept
    | with_reducible apply ite_kept

theorem execSlewToInternalDone_kept {k0 : Base} {s : State} (h : s.Kept k0)  :
    OutKeeps k0 (State.execSlewToInternalDone s) := by
  unfold State.execSlewToInternalDone
  show State.Kept k0 _
  repeat' first
    | with_reducible assumption
    | with_reducible apply modPower_kept
    | with_reducible apply ite_kept

theorem execPllLockLoss_kept {k0 : Base} {s : State} (h : s.Kept k0)  :
    OutKeeps k0 (State.execPllLockLoss s) := by
  unfold State.execPllLockLoss
  show State.Kept k0 _
  repeat' first
    | with_reducible assumption
    | with_reducible apply dieOff_kept
    | with_reducible apply toStart_kept
    | with_reducible apply ite_kept

theorem execSleepEntry_kept {k0 : Base} {s : State} (h : s.Kept k0) (encoderAB : Vector (Bool × Bool) 4) (levels : BitVec 8) :
    OutKeeps k0 (State.execSleepEntry encoderAB levels s) := by
  unfold State.execSleepEntry
  show State.Kept k0 _
  repeat' first
    | with_reducible assumption
    | (extract_lets +onlyGivenNames x
       have hx : State.Kept k0 x := by
        unfold x
        repeat' first
          | with_reducible assumption
          | with_reducible apply dieOff_kept
          | with_reducible apply entrySteps_kept
          | with_reducible apply latched_kept
          | with_reducible apply modPower_kept
          | with_reducible apply wake_kept
          | with_reducible apply ite_kept
          | split
          | (extract_lets +onlyGivenNames y; clear_value y)
                | (extract_lets +onlyGivenNames y; subst y)
       clear_value x)
    | (extract_lets +onlyGivenNames x; clear_value x)
    | (extract_lets +onlyGivenNames x; subst x)
    | with_reducible apply dieOff_kept
    | with_reducible apply entrySteps_kept
    | with_reducible apply latched_kept
    | with_reducible apply modPower_kept
    | with_reducible apply wake_kept
    | with_reducible apply ite_kept
    | split

theorem execWakeSourceQualified_kept {k0 : Base} {s : State} (h : s.Kept k0) (w : WakeSource) :
    OutKeeps k0 (State.execWakeSourceQualified w s) := by
  unfold State.execWakeSourceQualified
  show State.Kept k0 _
  repeat' first
    | with_reducible assumption
    | (extract_lets +onlyGivenNames x
       have hx : State.Kept k0 x := by
        unfold x
        repeat' first
          | with_reducible assumption
          | with_reducible apply latchSource_kept
          | with_reducible apply recordWake_kept
          | with_reducible apply safeHold_kept
          | with_reducible apply wake_kept
          | with_reducible apply ite_kept
          | split
          | (extract_lets +onlyGivenNames y; clear_value y)
                | (extract_lets +onlyGivenNames y; subst y)
       clear_value x)
    | (extract_lets +onlyGivenNames x; clear_value x)
    | (extract_lets +onlyGivenNames x; subst x)
    | with_reducible apply latchSource_kept
    | with_reducible apply recordWake_kept
    | with_reducible apply safeHold_kept
    | with_reducible apply wake_kept
    | with_reducible apply ite_kept
    | split

theorem execRestartAction_kept {k0 : Base} {s : State} (h : s.Kept k0) : OutKeeps k0 (State.execRestartAction s) := by
  unfold State.execRestartAction
  show State.Kept k0 _
  split
  · refine ite_kept (toStart_kept (dieOff_kept h) _ _) (ite_kept ?_ h)
    extract_lets s1
    have h1 : s1.Kept k0 := entrySteps_kept h _
    clear_value s1
    exact toStart_kept (dieOff_kept h1) _ _
  · refine ite_kept (toStart_kept ?_ _ _) h
    have hz := dieOff_kept h
    have hr : Rising 0 s.retention.tables := h.inv.2.2.2.2.2.2.2.2.1
    obtain ⟨b1, b2, b3, h1, h2, h3, h4, h5, h6, h7, h8, _, h10⟩ := hz
    exact ⟨b1, b2, b3, h1, h2, h3, h4, h5, h6, h7, h8, hr, h10⟩
  · exact h

theorem execRstNLow_kept {k0 : Base} {s : State} (h : s.Kept k0)  :
    OutKeeps k0 (State.execRstNLow s) := by
  unfold State.execRstNLow
  show State.Kept k0 _
  repeat' first
    | with_reducible assumption
    | (extract_lets +onlyGivenNames x
       have hx : State.Kept k0 x := by
        unfold x
        repeat' first
          | with_reducible assumption
          | with_reducible apply modPower_kept
          | with_reducible apply outputsOff_kept
          | with_reducible apply safeHold_kept
          | with_reducible apply ite_kept
          | split
          | (extract_lets +onlyGivenNames y; clear_value y)
                | (extract_lets +onlyGivenNames y; subst y)
       clear_value x)
    | (extract_lets +onlyGivenNames x; clear_value x)
    | (extract_lets +onlyGivenNames x; subst x)
    | with_reducible apply modPower_kept
    | with_reducible apply outputsOff_kept
    | with_reducible apply safeHold_kept
    | with_reducible apply ite_kept
    | split

theorem execRstNHigh_kept {k0 : Base} {s : State} (h : s.Kept k0)  :
    OutKeeps k0 (State.execRstNHigh s) := by
  unfold State.execRstNHigh
  show State.Kept k0 _
  repeat' first
    | with_reducible assumption
    | (extract_lets +onlyGivenNames x
       have hx : State.Kept k0 x := by
        unfold x
        repeat' first
          | with_reducible assumption
          | with_reducible apply modPower_kept
          | with_reducible apply passUnknown_kept
          | with_reducible apply releaseReset_kept
          | with_reducible apply ite_kept
          | (extract_lets +onlyGivenNames y; clear_value y)
                | (extract_lets +onlyGivenNames y; subst y)
       clear_value x)
    | (extract_lets +onlyGivenNames x; clear_value x)
    | (extract_lets +onlyGivenNames x; subst x)
    | with_reducible apply modPower_kept
    | with_reducible apply passUnknown_kept
    | with_reducible apply releaseReset_kept
    | with_reducible apply ite_kept

theorem execResetStuck_kept {k0 : Base} {s : State} (h : s.Kept k0)  :
    OutKeeps k0 (State.execResetStuck s) := by
  unfold State.execResetStuck
  show State.Kept k0 _
  repeat' first
    | with_reducible assumption
    | (extract_lets +onlyGivenNames x
       have hx : State.Kept k0 x := by
        unfold x
        repeat' first
          | with_reducible assumption
          | with_reducible apply passCounts_kept
          | with_reducible apply passUnknown_kept
          | with_reducible apply releaseReset_kept
          | with_reducible apply ite_kept
          | split
          | (extract_lets +onlyGivenNames y; subst y)
          | with_reducible apply mk_kept
       clear_value x)
    | (extract_lets +onlyGivenNames x; subst x)
    | with_reducible apply passCounts_kept
    | with_reducible apply passUnknown_kept
    | with_reducible apply releaseReset_kept
    | with_reducible apply ite_kept
    | split
    | with_reducible apply mk_kept

theorem execRstmaskClear_kept {k0 : Base} {s : State} (h : s.Kept k0)  :
    OutKeeps k0 (State.execRstmaskClear s) := by
  unfold State.execRstmaskClear
  show State.Kept k0 _
  repeat' first
    | with_reducible assumption
    | with_reducible apply mk_kept

end Sys2Proof.Machine.State
end

