-- ==== Sys2Proof/Laws/RunsPwm.lean ====
section
/-! SUPPORT. Every command of Machine/Pwm.lean answers a next state that keeps what Laws/Kept.lean names. -/

set_option Elab.async false

set_option linter.unusedTactic false
set_option linter.unreachableTactic false

namespace Sys2Proof.Machine.State

theorem execGateDriverFaultInput_kept {k0 : Base} {s : State} (h : s.Kept k0) (m : Main) (low : Bool) :
    OutKeeps k0 (State.execGateDriverFaultInput m low s) := by
  unfold State.execGateDriverFaultInput
  show State.Kept k0 _
  repeat' first
    | with_reducible assumption
    | (extract_lets +onlyGivenNames x
       have hx : State.Kept k0 x := by
        unfold x
        repeat' first
          | with_reducible assumption
          | with_reducible apply modDrive_kept
          | with_reducible apply setLatch_kept
          | with_reducible apply ite_kept
          | (extract_lets +onlyGivenNames y; clear_value y)
                | (extract_lets +onlyGivenNames y; subst y)
       clear_value x)
    | (extract_lets +onlyGivenNames x; clear_value x)
    | (extract_lets +onlyGivenNames x; subst x)
    | with_reducible apply modDrive_kept
    | with_reducible apply setLatch_kept
    | with_reducible apply ite_kept

theorem execScFilterResult_kept {k0 : Base} {s : State} (h : s.Kept k0) (m : Main) (bitsA : List Bool) (bitsB : List Bool) :
    OutKeeps k0 (State.execScFilterResult m bitsA bitsB s) := by
  unfold State.execScFilterResult
  show State.Kept k0 _
  repeat' first
    | with_reducible assumption
    | (extract_lets +onlyGivenNames x
       have hx : State.Kept k0 x := by
        unfold x
        repeat' first
          | with_reducible assumption
          | with_reducible apply modDrive_kept
          | with_reducible apply setLatch_kept
          | with_reducible apply ite_kept
          | (extract_lets +onlyGivenNames y; clear_value y)
                | (extract_lets +onlyGivenNames y; subst y)
       clear_value x)
    | (extract_lets +onlyGivenNames x; clear_value x)
    | (extract_lets +onlyGivenNames x; subst x)
    | with_reducible apply modDrive_kept
    | with_reducible apply setLatch_kept
    | with_reducible apply ite_kept

theorem execBitstreamStuck_kept {k0 : Base} {s : State} (h : s.Kept k0) (ch : Fin 32) :
    OutKeeps k0 (State.execBitstreamStuck ch s) := by
  unfold State.execBitstreamStuck
  show State.Kept k0 _
  repeat' first
    | with_reducible assumption
    | (extract_lets +onlyGivenNames x
       have hx : State.Kept k0 x := by
        unfold x
        repeat' first
          | with_reducible assumption
          | with_reducible apply modDrive_kept
          | with_reducible apply modLink_kept
          | with_reducible apply setLatch_kept
          | with_reducible apply setStuck_kept
          | with_reducible apply ite_kept
          | split
          | (extract_lets +onlyGivenNames y; clear_value y)
                | (extract_lets +onlyGivenNames y; subst y)
       clear_value x)
    | (extract_lets +onlyGivenNames x; clear_value x)
    | (extract_lets +onlyGivenNames x; subst x)
    | with_reducible apply modDrive_kept
    | with_reducible apply modLink_kept
    | with_reducible apply setLatch_kept
    | with_reducible apply setStuck_kept
    | with_reducible apply ite_kept
    | split

theorem execBitstreamUnstuck_kept {k0 : Base} {s : State} (h : s.Kept k0) (ch : Fin 32) :
    OutKeeps k0 (State.execBitstreamUnstuck ch s) := by
  unfold State.execBitstreamUnstuck
  show State.Kept k0 _
  repeat' first
    | with_reducible assumption
    | with_reducible apply setStuck_kept

end Sys2Proof.Machine.State
end

