-- ==== Sys2Proof/Laws/RunsRegisters.lean ====
section
/-! SUPPORT. Every command of Machine/Registers.lean answers a next state that keeps what Laws/Kept.lean names. -/

set_option Elab.async false

set_option linter.unusedTactic false
set_option linter.unreachableTactic false

namespace Sys2Proof.Machine.State

theorem execReadLRegister_kept {k0 : Base} {s : State} (h : s.Kept k0) (addr : BitVec 16) :
    OutKeeps k0 (State.execReadLRegister addr s) := by
  unfold State.execReadLRegister
  show State.Kept k0 _
  repeat' first
    | with_reducible assumption
    | with_reducible apply captureH_kept
    | with_reducible apply ite_kept

theorem execHostWriteFrame_kept {k0 : Base} {s : State} (h : s.Kept k0) (f : HostFrame) :
    OutKeeps k0 (State.execHostWriteFrame f s) := by
  unfold State.execHostWriteFrame
  show State.Kept k0 _
  repeat' first
    | with_reducible assumption
    | with_reducible apply hostFrame_kept

theorem execHostReadFrame_kept {k0 : Base} {s : State} (h : s.Kept k0) (f : HostFrame) :
    OutKeeps k0 (State.execHostReadFrame f s) := by
  unfold State.execHostReadFrame
  show State.Kept k0 _
  repeat' first
    | with_reducible assumption
    | with_reducible apply hostFrame_kept

theorem execRegisterPairWrite_kept {k0 : Base} {s : State} (h : s.Kept k0) (addr : BitVec 16) (low : Word) (high : Word) :
    OutKeeps k0 (State.execRegisterPairWrite addr low high s) := by
  unfold State.execRegisterPairWrite
  show State.Kept k0 _
  repeat' first
    | with_reducible assumption
    | with_reducible apply applyCells_kept
    | with_reducible apply ite_kept

theorem execGffAck_kept {k0 : Base} {s : State} (h : s.Kept k0) (n : BitVec 14) :
    OutKeeps k0 (State.execGffAck n s) := by
  unfold State.execGffAck
  show State.Kept k0 _
  repeat' first
    | with_reducible assumption
    | with_reducible apply gffAck_kept
    | with_reducible apply otherFrame_kept
    | with_reducible apply ite_kept

theorem execGffClear_kept {k0 : Base} {s : State} (h : s.Kept k0) : OutKeeps k0 (State.execGffClear s) := by
  show State.Kept k0 _
  exact ite_kept (modGff_kept (otherFrame_kept h) _ fun _ => gffEmpty_inv _) h

theorem execGffMark_kept {k0 : Base} {s : State} (h : s.Kept k0) (payload : BitVec 28) (cd6 : Nat) :
    OutKeeps k0 (State.execGffMark payload cd6 s) := by
  unfold State.execGffMark
  show State.Kept k0 _
  repeat' first
    | with_reducible assumption
    | with_reducible apply gffMarker_kept
    | with_reducible apply otherFrame_kept
    | with_reducible apply ite_kept

theorem execTstKey_kept {k0 : Base} {s : State} (h : s.Kept k0) (w : Word) :
    OutKeeps k0 (State.execTstKey w s) := by
  unfold State.execTstKey
  show State.Kept k0 _
  repeat' first
    | with_reducible assumption
    | with_reducible apply writeKey_kept
    | with_reducible apply ite_kept

theorem execTstLockClose_kept {k0 : Base} {s : State} (h : s.Kept k0)  :
    OutKeeps k0 (State.execTstLockClose s) := by
  unfold State.execTstLockClose
  show State.Kept k0 _
  repeat' first
    | with_reducible assumption
    | with_reducible apply closeTest_kept
    | with_reducible apply ite_kept

theorem execTstSincArm_kept {k0 : Base} {s : State} (h : s.Kept k0) (w : Word) :
    OutKeeps k0 (State.execTstSincArm w s) := by
  unfold State.execTstSincArm
  show State.Kept k0 _
  repeat' first
    | with_reducible assumption
    | with_reducible apply otherFrame_kept
    | with_reducible apply writeSinc_kept
    | with_reducible apply ite_kept

theorem execTstEngArm_kept {k0 : Base} {s : State} (h : s.Kept k0) (w : Word) :
    OutKeeps k0 (State.execTstEngArm w s) := by
  unfold State.execTstEngArm
  show State.Kept k0 _
  repeat' first
    | with_reducible assumption
    | with_reducible apply otherFrame_kept
    | with_reducible apply writeEng_kept
    | with_reducible apply ite_kept

theorem execFbPreset_kept {k0 : Base} {s : State} (h : s.Kept k0) (n : FbNo) :
    OutKeeps k0 (State.execFbPreset n s) := by
  unfold State.execFbPreset
  show State.Kept k0 _
  repeat' first
    | with_reducible assumption
    | with_reducible apply otherFrame_kept
    | with_reducible apply presetUnit_kept
    | with_reducible apply ite_kept

theorem execRearm_kept {k0 : Base} {s : State} (h : s.Kept k0) (n : FbNo) :
    OutKeeps k0 (State.execRearm n s) := by
  unfold State.execRearm
  show State.Kept k0 _
  repeat' first
    | with_reducible assumption
    | with_reducible apply otherFrame_kept
    | with_reducible apply rearmUnit_kept
    | with_reducible apply ite_kept

theorem execCompareWrite_kept {k0 : Base} {s : State} (h : s.Kept k0) (n : FbNo) (v : DWord) :
    OutKeeps k0 (State.execCompareWrite n v s) := by
  unfold State.execCompareWrite
  show State.Kept k0 _
  repeat' first
    | with_reducible assumption
    | with_reducible apply otherFrame_kept
    | with_reducible apply writeCompare_kept
    | with_reducible apply ite_kept

end Sys2Proof.Machine.State
end

