-- ==== Sys2Proof/Laws/RunsSafetyChannel.lean ====
section
/-! SUPPORT. Every command of Machine/SafetyChannel.lean answers a next state that keeps what Laws/Kept.lean names. -/

set_option Elab.async false

set_option linter.unusedTactic false
set_option linter.unreachableTactic false

namespace Sys2Proof.Machine.State

theorem execSafetyInputSample_kept {k0 : Base} {s : State} (h : s.Kept k0) (ctf : Byte) (sreset : Bool) (estop0 : Bool) (estop1 : Bool) :
    OutKeeps k0 (State.execSafetyInputSample ctf sreset estop0 estop1 s) := by
  unfold State.execSafetyInputSample
  show State.Kept k0 _
  repeat' first
    | with_reducible assumption
    | (extract_lets +onlyGivenNames x
       have hx : State.Kept k0 x := by
        unfold x
        repeat' first
          | with_reducible assumption
          | with_reducible apply ctfSample_kept
          | with_reducible apply estopSample_kept
          | with_reducible apply settleSafety_kept
          | with_reducible apply sresetSample_kept
          | with_reducible apply testRun_kept
          | with_reducible apply eachFin_kept
          | (intro z b hz; beta_reduce)
          | (extract_lets +onlyGivenNames y; clear_value y)
                | (extract_lets +onlyGivenNames y; subst y)
       clear_value x)
    | (extract_lets +onlyGivenNames x; clear_value x)
    | (extract_lets +onlyGivenNames x; subst x)
    | with_reducible apply ctfSample_kept
    | with_reducible apply estopSample_kept
    | with_reducible apply settleSafety_kept
    | with_reducible apply sresetSample_kept
    | with_reducible apply testRun_kept
    | with_reducible apply eachFin_kept
    | (intro z b hz; beta_reduce)

theorem execMonitoringMessageAssembly_kept {k0 : Base} {s : State} (h : s.Kept k0)  :
    OutKeeps k0 (State.execMonitoringMessageAssembly s) := by
  unfold State.execMonitoringMessageAssembly
  show State.Kept k0 _
  repeat' first
    | with_reducible assumption
    | (extract_lets +onlyGivenNames x
       have hx : State.Kept k0 x := by
        unfold x
        repeat' first
          | with_reducible assumption
          | with_reducible apply drawn_kept
          | with_reducible apply modReq_kept
          | with_reducible apply safeHold_kept
          | with_reducible apply ite_kept
          | (extract_lets +onlyGivenNames y; clear_value y)
                | (extract_lets +onlyGivenNames y; subst y)
       clear_value x)
    | (extract_lets +onlyGivenNames x; clear_value x)
    | (extract_lets +onlyGivenNames x; subst x)
    | with_reducible apply drawn_kept
    | with_reducible apply modReq_kept
    | with_reducible apply safeHold_kept
    | with_reducible apply ite_kept

theorem execMonitoringMessage_kept {k0 : Base} {s : State} (h : s.Kept k0) (a : Option LaneCopy) (b : Option LaneCopy) :
    OutKeeps k0 (State.execMonitoringMessage a b s) := by
  unfold State.execMonitoringMessage
  show State.Kept k0 _
  repeat' first
    | with_reducible assumption
    | (extract_lets +onlyGivenNames x
       have hx : State.Kept k0 x := by
        unfold x
        repeat' first
          | with_reducible assumption
          | with_reducible apply countLane_kept
          | with_reducible apply modSafety_kept
          | with_reducible apply validMessage_kept
          | with_reducible apply ite_kept
          | split
          | (extract_lets +onlyGivenNames y; clear_value y)
                | (extract_lets +onlyGivenNames y; subst y)
       clear_value x)
    | (extract_lets +onlyGivenNames x; clear_value x)
    | (extract_lets +onlyGivenNames x; subst x)
    | with_reducible apply countLane_kept
    | with_reducible apply modSafety_kept
    | with_reducible apply validMessage_kept
    | with_reducible apply ite_kept
    | split

theorem execMonitoringLost_kept {k0 : Base} {s : State} (h : s.Kept k0)  :
    OutKeeps k0 (State.execMonitoringLost s) := by
  unfold State.execMonitoringLost
  show State.Kept k0 _
  repeat' first
    | with_reducible assumption
    | (extract_lets +onlyGivenNames x
       have hx : State.Kept k0 x := by
        unfold x
        repeat' first
          | with_reducible assumption
          | with_reducible apply latched_kept
          | with_reducible apply modSafety_kept
          | with_reducible apply settleSafety_kept
          | with_reducible apply torqueOff_kept
          | with_reducible apply eachFin_kept
          | (intro z b hz; beta_reduce)
          | with_reducible apply ite_kept
          | (extract_lets +onlyGivenNames y; clear_value y)
                | (extract_lets +onlyGivenNames y; subst y)
       clear_value x)
    | (extract_lets +onlyGivenNames x; clear_value x)
    | (extract_lets +onlyGivenNames x; subst x)
    | with_reducible apply latched_kept
    | with_reducible apply modSafety_kept
    | with_reducible apply settleSafety_kept
    | with_reducible apply torqueOff_kept
    | with_reducible apply eachFin_kept
    | (intro z b hz; beta_reduce)
    | with_reducible apply ite_kept

theorem execSafetyStatusWrite_kept {k0 : Base} {s : State} (h : s.Kept k0)  :
    OutKeeps k0 (State.execSafetyStatusWrite s) := by
  unfold State.execSafetyStatusWrite
  show State.Kept k0 _
  repeat' first
    | with_reducible assumption
    | with_reducible apply modReq_kept

theorem execBrakeTimerExpiry_kept {k0 : Base} {s : State} (h : s.Kept k0) (b : Fin 4) :
    OutKeeps k0 (State.execBrakeTimerExpiry b s) := by
  unfold State.execBrakeTimerExpiry
  show State.Kept k0 _
  repeat' first
    | with_reducible assumption
    | (extract_lets +onlyGivenNames x
       have hx : State.Kept k0 x := by
        unfold x
        repeat' first
          | with_reducible assumption
          | with_reducible apply channelFault_kept
          | with_reducible apply modBrake_kept
          | with_reducible apply settleSafety_kept
          | with_reducible apply ite_kept
          | split
          | (extract_lets +onlyGivenNames y; clear_value y)
                | (extract_lets +onlyGivenNames y; subst y)
       clear_value x)
    | (extract_lets +onlyGivenNames x; clear_value x)
    | (extract_lets +onlyGivenNames x; subst x)
    | with_reducible apply channelFault_kept
    | with_reducible apply modBrake_kept
    | with_reducible apply settleSafety_kept
    | with_reducible apply ite_kept
    | split

theorem execBrakeTimeout_kept {k0 : Base} {s : State} (h : s.Kept k0) (b : Fin 4) :
    OutKeeps k0 (State.execBrakeTimeout b s) := by
  unfold State.execBrakeTimeout
  show State.Kept k0 _
  repeat' first
    | with_reducible assumption
    | (extract_lets +onlyGivenNames x
       have hx : State.Kept k0 x := by
        unfold x
        repeat' first
          | with_reducible assumption
          | with_reducible apply modSto_kept
          | with_reducible apply settleSafety_kept
          | with_reducible apply eachFin_kept
          | (intro z b hz; beta_reduce)
          | with_reducible apply ite_kept
          | (extract_lets +onlyGivenNames y; clear_value y)
                | (extract_lets +onlyGivenNames y; subst y)
       clear_value x)
    | (extract_lets +onlyGivenNames x; clear_value x)
    | (extract_lets +onlyGivenNames x; subst x)
    | with_reducible apply modSto_kept
    | with_reducible apply settleSafety_kept
    | with_reducible apply eachFin_kept
    | (intro z b hz; beta_reduce)
    | with_reducible apply ite_kept

theorem execContactorDiscrepancy_kept {k0 : Base} {s : State} (h : s.Kept k0) (c : Fin 4) :
    OutKeeps k0 (State.execContactorDiscrepancy c s) := by
  unfold State.execContactorDiscrepancy
  show State.Kept k0 _
  repeat' first
    | with_reducible assumption
    | (extract_lets +onlyGivenNames x
       have hx : State.Kept k0 x := by
        unfold x
        repeat' first
          | with_reducible assumption
          | with_reducible apply channelFault_kept
          | with_reducible apply modContactor_kept
          | with_reducible apply ite_kept
          | split
          | (extract_lets +onlyGivenNames y; clear_value y)
                | (extract_lets +onlyGivenNames y; subst y)
       clear_value x)
    | (extract_lets +onlyGivenNames x; clear_value x)
    | (extract_lets +onlyGivenNames x; subst x)
    | with_reducible apply channelFault_kept
    | with_reducible apply modContactor_kept
    | with_reducible apply ite_kept
    | split

theorem execSs1TimeElapsed_kept {k0 : Base} {s : State} (h : s.Kept k0) (i : StoNo) :
    OutKeeps k0 (State.execSs1TimeElapsed i s) := by
  unfold State.execSs1TimeElapsed
  show State.Kept k0 _
  repeat' first
    | with_reducible assumption
    | with_reducible apply latched_kept
    | with_reducible apply settleSafety_kept
    | with_reducible apply torqueOff_kept
    | with_reducible apply ite_kept

theorem execEstopPairDiscrepancy_kept {k0 : Base} {s : State} (h : s.Kept k0)  :
    OutKeeps k0 (State.execEstopPairDiscrepancy s) := by
  unfold State.execEstopPairDiscrepancy
  show State.Kept k0 _
  repeat' first
    | with_reducible assumption
    | with_reducible apply modSafety_kept
    | with_reducible apply modSto_kept
    | with_reducible apply eachFin_kept
    | (intro z b hz; beta_reduce)
    | with_reducible apply ite_kept

theorem execDarkPulseStart_kept {k0 : Base} {s : State} (h : s.Kept k0) (o : SafeOut) :
    OutKeeps k0 (State.execDarkPulseStart o s) := by
  unfold State.execDarkPulseStart
  show State.Kept k0 _
  repeat' first
    | with_reducible assumption
    | with_reducible apply modSafety_kept
    | with_reducible apply ite_kept

theorem execDarkPulseEnd_kept {k0 : Base} {s : State} (h : s.Kept k0) (o : SafeOut) (fell : Bool) (rose : Bool) :
    OutKeeps k0 (State.execDarkPulseEnd o fell rose s) := by
  unfold State.execDarkPulseEnd
  show State.Kept k0 _
  repeat' first
    | with_reducible assumption
    | (extract_lets +onlyGivenNames x
       have hx : State.Kept k0 x := by
        unfold x
        repeat' first
          | with_reducible assumption
          | with_reducible apply channelFault_kept
          | with_reducible apply modSafety_kept
          | with_reducible apply ite_kept
          | (extract_lets +onlyGivenNames y; clear_value y)
                | (extract_lets +onlyGivenNames y; subst y)
       clear_value x)
    | (extract_lets +onlyGivenNames x; clear_value x)
    | (extract_lets +onlyGivenNames x; subst x)
    | with_reducible apply channelFault_kept
    | with_reducible apply modSafety_kept
    | with_reducible apply ite_kept

theorem execReadbackMismatch_kept {k0 : Base} {s : State} (h : s.Kept k0) (o : SafeOut) :
    OutKeeps k0 (State.execReadbackMismatch o s) := by
  unfold State.execReadbackMismatch
  show State.Kept k0 _
  repeat' first
    | with_reducible assumption
    | with_reducible apply channelFault_kept
    | with_reducible apply ite_kept

theorem execSafetyParamCrcCheck_kept {k0 : Base} {s : State} (h : s.Kept k0) (isIntact : Bool) :
    OutKeeps k0 (State.execSafetyParamCrcCheck isIntact s) := by
  unfold State.execSafetyParamCrcCheck
  show State.Kept k0 _
  repeat' first
    | with_reducible assumption
    | with_reducible apply channelFault_kept
    | with_reducible apply modSafety_kept
    | with_reducible apply ite_kept

theorem execKsafeClockCheck_kept {k0 : Base} {s : State} (h : s.Kept k0) (count : Nat) :
    OutKeeps k0 (State.execKsafeClockCheck count s) := by
  unfold State.execKsafeClockCheck
  show State.Kept k0 _
  repeat' first
    | with_reducible assumption
    | with_reducible apply channelFault_kept
    | with_reducible apply ite_kept

theorem execKeepClockLoss_kept {k0 : Base} {s : State} (h : s.Kept k0)  :
    OutKeeps k0 (State.execKeepClockLoss s) := by
  unfold State.execKeepClockLoss
  show State.Kept k0 _
  repeat' first
    | with_reducible assumption
    | with_reducible apply channelFault_kept

theorem execKeeperPortMessage_kept {k0 : Base} {s : State} (h : s.Kept k0) (crcOk : Bool) (seqOk : Bool) (payload : KeeperPayload) :
    OutKeeps k0 (State.execKeeperPortMessage crcOk seqOk payload s) := by
  unfold State.execKeeperPortMessage
  show State.Kept k0 _
  repeat' first
    | with_reducible assumption
    | (extract_lets +onlyGivenNames x
       have hx : State.Kept k0 x := by
        unfold x
        repeat' first
          | with_reducible assumption
          | with_reducible apply acceptReset_kept
          | with_reducible apply drawn_kept
          | with_reducible apply finishOpt_kept
          | with_reducible apply logEvent_kept
          | with_reducible apply takeParameters_kept
          | with_reducible apply ite_kept
          | split
          | (extract_lets +onlyGivenNames y; have : State.Kept k0 (Prod.fst y) ∨ True := (.inr trivial); clear this; subst y)
                | (extract_lets +onlyGivenNames y; subst y)
          | with_reducible apply mk_kept
       clear_value x)
    | (extract_lets +onlyGivenNames x; have : State.Kept k0 (Prod.fst x) ∨ True := (.inr trivial); clear this; subst x)
    | (extract_lets +onlyGivenNames x; subst x)
    | with_reducible apply acceptReset_kept
    | with_reducible apply drawn_kept
    | with_reducible apply finishOpt_kept
    | with_reducible apply logEvent_kept
    | with_reducible apply takeParameters_kept
    | with_reducible apply ite_kept
    | split
    | with_reducible apply mk_kept

end Sys2Proof.Machine.State
end

