-- ==== Sys2Proof/Laws/RunsStarts.lean ====
section
/-! SUPPORT. Every command of Machine/Starts.lean answers a next state that keeps what Laws/Kept.lean names. -/

set_option Elab.async false

set_option linter.unusedTactic false
set_option linter.unreachableTactic false

namespace Sys2Proof.Machine.State

/-- Choosing a copy of the store changes only what is held of the copies. -/
theorem chooseCopy_kept {k0 : Base} (l : List (Fin 2)) {s : State} (h : s.Kept k0) : (s.chooseCopy l).1.Kept k0 := by
  induction l generalizing s with
  | nil => exact h
  | cons i r ih =>
    unfold State.chooseCopy
    split
    · exact h
    · exact ih (store_kept h _ h.inv.2.2.2.2.2.1)

theorem execColdStart_kept {k0 : Base} {s : State} (h : s.Kept k0) (f : ColdFindings) : OutKeeps k0 (State.execColdStart f s) := by
  unfold State.execColdStart
  show State.Kept k0 _
  refine ite_kept h ?_
  extract_lets s1
  have h1 : s1.Kept k0 := coldClear_kept (passMicros_kept h _)
  clear_value s1
  split
  next step _ =>
    extract_lets s2
    have h2 : s2.Kept k0 := by
      refine ite_kept (channelFault_kept h1 _ _) (ite_kept ?_ h1)
      exact engines_kept h1 _ fun he => he
    clear_value s2
    exact safeHold_kept (setReference_kept h2 _) _ _ _
  · rename_i s2 r _ _
    have h2 : s2.Kept k0 := coldExposure_kept h1 _
    have hr : r.1.Kept k0 := chooseCopy_kept _ h2
    clear_value r
    clear_value s2
    split
    · exact safeHold_kept (setReference_kept hr _) _ _ _
    · exact coldLoad_kept hr _ _ _

theorem execWarmStart_kept {k0 : Base} {s : State} (h : s.Kept k0) (f : WarmFindings) :
    OutKeeps k0 (State.execWarmStart f s) := by
  unfold State.execWarmStart
  show State.Kept k0 _
  repeat' first
    | with_reducible assumption
    | (extract_lets +onlyGivenNames x
       have hx : State.Kept k0 x := by
        unfold x
        repeat' first
          | with_reducible assumption
          | with_reducible apply logEvent_kept
          | with_reducible apply modPower_kept
          | with_reducible apply passMicros_kept
          | with_reducible apply step_kept
          | with_reducible apply warmLoad_kept
          | with_reducible apply ite_kept
          | split
          | (extract_lets +onlyGivenNames y; subst y)
          | with_reducible apply mk_kept
       clear_value x)
    | (extract_lets +onlyGivenNames x; subst x)
    | with_reducible apply logEvent_kept
    | with_reducible apply modPower_kept
    | with_reducible apply passMicros_kept
    | with_reducible apply step_kept
    | with_reducible apply warmLoad_kept
    | with_reducible apply ite_kept
    | split
    | with_reducible apply mk_kept

end Sys2Proof.Machine.State
end

