-- ==== Sys2Proof/Laws/RunsStores.lean ====
section
/-! SUPPORT. Every command of Machine/Stores.lean answers a next state that keeps what Laws/Kept.lean names. -/

set_option Elab.async false

set_option linter.unusedTactic false
set_option linter.unreachableTactic false

namespace Sys2Proof.Machine.State

theorem execCheckpoint_kept {k0 : Base} {s : State} (h : s.Kept k0) (vin : Nat) (control : Int) (keeper : Int) :
    OutKeeps k0 (State.execCheckpoint vin control keeper s) := by
  unfold State.execCheckpoint
  show State.Kept k0 _
  repeat' first
    | with_reducible assumption
    | (extract_lets +onlyGivenNames x
       have hx : State.Kept k0 x := by
        unfold x
        repeat' first
          | with_reducible assumption
          | exact fun hm => hm
          | exact fun _ hq => hq
          | with_reducible apply clearLedger_kept
          | with_reducible apply modMail_kept
          | with_reducible apply releaseJournal_kept
          | with_reducible apply takeCapture_kept
          | with_reducible apply transferLedger_kept
          | with_reducible apply ite_kept
          | (intro _ _; (try dsimp only); split)
          | (extract_lets +onlyGivenNames y; subst y)
          | with_reducible apply mk_kept
       clear_value x)
    | (extract_lets +onlyGivenNames x; subst x)
    | exact fun hm => hm
    | exact fun _ hq => hq
    | with_reducible apply clearLedger_kept
    | with_reducible apply modMail_kept
    | with_reducible apply releaseJournal_kept
    | with_reducible apply takeCapture_kept
    | with_reducible apply transferLedger_kept
    | with_reducible apply ite_kept
    | (intro _ _; (try dsimp only); split)
    | with_reducible apply mk_kept

theorem execCoreMismatch_kept {k0 : Base} {s : State} (h : s.Kept k0) (newerOk : Bool) (core0 : Bool) (core1 : Bool) :
    OutKeeps k0 (State.execCoreMismatch newerOk core0 core1 s) := by
  unfold State.execCoreMismatch
  show State.Kept k0 _
  repeat' first
    | with_reducible assumption
    | with_reducible apply mismatch_kept
    | with_reducible apply ite_kept

theorem execScrubPass_kept {k0 : Base} {s : State} (h : s.Kept k0) (store : ScrubStore) (f : ScrubFinding) :
    OutKeeps k0 (State.execScrubPass store f s) := by
  unfold State.execScrubPass
  show State.Kept k0 _
  repeat' first
    | with_reducible assumption
    | (extract_lets +onlyGivenNames x
       have hx : State.Kept k0 x := by
        unfold x
        repeat' first
          | with_reducible assumption
          | with_reducible apply scrubBlocks_kept
          | with_reducible apply scrubCoef_kept
          | with_reducible apply scrubImage_kept
          | with_reducible apply scrubRetention_kept
          | with_reducible apply scrubSram_kept
          | with_reducible apply ite_kept
          | split
          | (extract_lets +onlyGivenNames y; subst y)
          | with_reducible apply mk_kept
       clear_value x)
    | (extract_lets +onlyGivenNames x; subst x)
    | with_reducible apply scrubBlocks_kept
    | with_reducible apply scrubCoef_kept
    | with_reducible apply scrubImage_kept
    | with_reducible apply scrubRetention_kept
    | with_reducible apply scrubSram_kept
    | with_reducible apply ite_kept
    | split
    | with_reducible apply mk_kept

theorem execBlockRefresh_kept {k0 : Base} {s : State} (h : s.Kept k0) (verified : Bool) :
    OutKeeps k0 (State.execBlockRefresh verified s) := by
  unfold State.execBlockRefresh
  show State.Kept k0 _
  repeat' first
    | with_reducible assumption
    | (extract_lets +onlyGivenNames x
       have hx : State.Kept k0 x := by
        unfold x
        repeat' first
          | with_reducible assumption
          | with_reducible apply recountAges_kept
          | with_reducible apply refreshFailed_kept
          | with_reducible apply writeBlock_kept
          | with_reducible apply foldl_kept
          | (intro z b hz; beta_reduce)
          | with_reducible apply ite_kept
          | split
          | (extract_lets +onlyGivenNames y; clear_value y)
                | (extract_lets +onlyGivenNames y; subst y)
       clear_value x)
    | (extract_lets +onlyGivenNames x; clear_value x)
    | (extract_lets +onlyGivenNames x; subst x)
    | with_reducible apply recountAges_kept
    | with_reducible apply refreshFailed_kept
    | with_reducible apply writeBlock_kept
    | with_reducible apply foldl_kept
    | (intro z b hz; beta_reduce)
    | with_reducible apply ite_kept
    | split

theorem execLifeAccumulatorSample_kept {k0 : Base} {s : State} (h : s.Kept k0)  :
    OutKeeps k0 (State.execLifeAccumulatorSample s) := by
  unfold State.execLifeAccumulatorSample
  show State.Kept k0 _
  repeat' first
    | with_reducible assumption
    | with_reducible apply addLife_kept
    | with_reducible apply keeperMinute_kept
    | with_reducible apply safeHold_kept
    | split

theorem execHourlySave_kept {k0 : Base} {s : State} (h : s.Kept k0)  :
    OutKeeps k0 (State.execHourlySave s) := by
  unfold State.execHourlySave
  show State.Kept k0 _
  repeat' first
    | with_reducible assumption
    | with_reducible apply ite_kept
    | split
    | with_reducible apply mk_kept

theorem execCommitWriteDone_kept {k0 : Base} {s : State} (h : s.Kept k0) (failed : List (Fin 32)) :
    OutKeeps k0 (State.execCommitWriteDone failed s) := by
  unfold State.execCommitWriteDone
  show State.Kept k0 _
  repeat' first
    | with_reducible assumption
    | (extract_lets +onlyGivenNames x
       have hx : State.Kept k0 x := by
        unfold x
        repeat' first
          | with_reducible assumption
          | with_reducible apply commitHeader_kept
          | with_reducible apply finish_kept
          | with_reducible apply retireBlock_kept
          | with_reducible apply foldl_kept
          | (intro z b hz; beta_reduce)
          | with_reducible apply ite_kept
          | split
          | exact rfl
          | (extract_lets +onlyGivenNames y; subst y)
          | with_reducible apply mk_keep_kept
       clear_value x)
    | (extract_lets +onlyGivenNames x; subst x)
    | with_reducible apply commitHeader_kept
    | with_reducible apply finish_kept
    | with_reducible apply retireBlock_kept
    | with_reducible apply foldl_kept
    | (intro z b hz; beta_reduce)
    | with_reducible apply ite_kept
    | split
    | exact rfl
    | with_reducible apply mk_keep_kept

end Sys2Proof.Machine.State
end

