-- ==== Sys2Proof/Laws/RunsVerbs.lean ====
section
/-! SUPPORT. Every command of Machine/Verbs.lean answers a next state that keeps what Laws/Kept.lean names. -/

set_option Elab.async false

set_option linter.unusedTactic false
set_option linter.unreachableTactic false

namespace Sys2Proof.Machine.State

theorem execRead_kept {k0 : Base} {s : State} (h : s.Kept k0) (t : BitVec 16) :
    OutKeeps k0 (State.execRead t s) := by
  unfold State.execRead
  show State.Kept k0 _
  repeat' first
    | with_reducible assumption
    | with_reducible apply AState.num_kept
    | with_reducible apply CState.num_kept
    | with_reducible apply SState.num_kept
    | with_reducible apply SlotState.num_kept
    | with_reducible apply TxState.num_kept
    | with_reducible apply YState.num_kept
    | with_reducible apply finish_kept
    | with_reducible apply readBlock_kept
    | with_reducible apply readParameters_kept
    | with_reducible apply ite_kept
    | split

theorem execSet_kept {k0 : Base} {s : State} (h : s.Kept k0) (t : BitVec 16) :
    OutKeeps k0 (State.execSet t s) := by
  unfold State.execSet
  show State.Kept k0 _
  repeat' first
    | with_reducible assumption
    | with_reducible apply AState.num_kept
    | with_reducible apply CState.num_kept
    | with_reducible apply SState.num_kept
    | with_reducible apply SlotState.num_kept
    | with_reducible apply TxState.num_kept
    | with_reducible apply YState.num_kept
    | with_reducible apply applySet_kept
    | with_reducible apply finish_kept
    | split

theorem execWrite_kept {k0 : Base} {s : State} (h : s.Kept k0) (t : BitVec 16) :
    OutKeeps k0 (State.execWrite t s) := by
  unfold State.execWrite
  show State.Kept k0 _
  repeat' first
    | with_reducible assumption
    | with_reducible apply AState.num_kept
    | with_reducible apply CState.num_kept
    | with_reducible apply SState.num_kept
    | with_reducible apply SlotState.num_kept
    | with_reducible apply TxState.num_kept
    | with_reducible apply YState.num_kept
    | with_reducible apply finish_kept
    | with_reducible apply writeRegion_kept
    | with_reducible apply writeStaging_kept
    | with_reducible apply writeTable_kept
    | with_reducible apply ite_kept
    | split

theorem execSwap_kept {k0 : Base} {s : State} (h : s.Kept k0) (t : BitVec 16) : OutKeeps k0 (State.execSwap t s) := by
  unfold State.execSwap
  show State.Kept k0 _
  split
  · exact h
  next k _ =>
    extract_lets x w
    clear_value x w
    refine ite_kept (finish_kept h _ _ _) ?_
    split
    next g _ =>
      refine ite_kept (finish_kept h _ _ _) (ite_kept' (fun _ => h) fun hr => advanceSwap_kept ?_ _)
      refine modGroup_kept_at (running_kept (present_kept h _) _) _ _ ?_
      have e : (((s.present k.num).running k.num).groups[g]).queue = (s.groups[g]).queue :=
        congrArg (fun v : Vector Group 8 => (v[g]).queue) (present_groups s k.num)
      have : (((s.present k.num).running k.num).groups[g]).queue.length < 256 := by
        rw [e]; simp only [State.queueRoom] at hr; omega
      simp only [Group.Inv, List.length_append, List.length_cons, List.length_nil]
      omega
    · exact finish_kept h _ _ _

theorem execEnable_kept {k0 : Base} {s : State} (h : s.Kept k0) (t : BitVec 16) :
    OutKeeps k0 (State.execEnable t s) := by
  unfold State.execEnable
  show State.Kept k0 _
  repeat' first
    | with_reducible assumption
    | with_reducible apply AState.num_kept
    | with_reducible apply CState.num_kept
    | with_reducible apply SState.num_kept
    | with_reducible apply SlotState.num_kept
    | with_reducible apply TxState.num_kept
    | with_reducible apply YState.num_kept
    | with_reducible apply enable_kept
    | with_reducible apply finish_kept
    | with_reducible apply ite_kept
    | split

theorem execDisable_kept {k0 : Base} {s : State} (h : s.Kept k0) (t : BitVec 16) :
    OutKeeps k0 (State.execDisable t s) := by
  unfold State.execDisable
  show State.Kept k0 _
  repeat' first
    | with_reducible assumption
    | with_reducible apply AState.num_kept
    | with_reducible apply CState.num_kept
    | with_reducible apply SState.num_kept
    | with_reducible apply SlotState.num_kept
    | with_reducible apply TxState.num_kept
    | with_reducible apply YState.num_kept
    | with_reducible apply disable_kept
    | with_reducible apply finish_kept
    | with_reducible apply ite_kept
    | split

theorem execMove_kept {k0 : Base} {s : State} (h : s.Kept k0) (t : BitVec 16) :
    OutKeeps k0 (State.execMove t s) := by
  unfold State.execMove
  show State.Kept k0 _
  repeat' first
    | with_reducible assumption
    | with_reducible apply AState.num_kept
    | with_reducible apply CState.num_kept
    | with_reducible apply SState.num_kept
    | with_reducible apply SlotState.num_kept
    | with_reducible apply TxState.num_kept
    | with_reducible apply YState.num_kept
    | with_reducible apply finish_kept
    | with_reducible apply moveAxis_kept
    | with_reducible apply movePath_kept
    | with_reducible apply ite_kept
    | split

theorem execHalt_kept {k0 : Base} {s : State} (h : s.Kept k0) (t : BitVec 16) :
    OutKeeps k0 (State.execHalt t s) := by
  unfold State.execHalt
  show State.Kept k0 _
  repeat' first
    | with_reducible assumption
    | (extract_lets +onlyGivenNames x
       have hx : State.Kept k0 x := by
        unfold x
        repeat' first
          | with_reducible assumption
          | with_reducible apply AState.num_kept
          | with_reducible apply CState.num_kept
          | with_reducible apply SState.num_kept
          | with_reducible apply SlotState.num_kept
          | with_reducible apply TxState.num_kept
          | with_reducible apply YState.num_kept
          | with_reducible apply finish_kept
          | with_reducible apply haltAxis_kept
          | with_reducible apply haltGroup_kept
          | with_reducible apply ite_kept
          | split
          | (extract_lets +onlyGivenNames y; clear_value y)
                | (extract_lets +onlyGivenNames y; subst y)
       clear_value x)
    | (extract_lets +onlyGivenNames x; clear_value x)
    | (extract_lets +onlyGivenNames x; subst x)
    | with_reducible apply AState.num_kept
    | with_reducible apply CState.num_kept
    | with_reducible apply SState.num_kept
    | with_reducible apply SlotState.num_kept
    | with_reducible apply TxState.num_kept
    | with_reducible apply YState.num_kept
    | with_reducible apply finish_kept
    | with_reducible apply haltAxis_kept
    | with_reducible apply haltGroup_kept
    | with_reducible apply ite_kept
    | split

theorem execFollow_kept {k0 : Base} {s : State} (h : s.Kept k0) (t : BitVec 16) :
    OutKeeps k0 (State.execFollow t s) := by
  unfold State.execFollow
  show State.Kept k0 _
  repeat' first
    | with_reducible assumption
    | with_reducible apply AState.num_kept
    | with_reducible apply CState.num_kept
    | with_reducible apply SState.num_kept
    | with_reducible apply SlotState.num_kept
    | with_reducible apply TxState.num_kept
    | with_reducible apply YState.num_kept
    | with_reducible apply finish_kept
    | with_reducible apply followGroup_kept
    | with_reducible apply ite_kept
    | split

theorem execHome_kept {k0 : Base} {s : State} (h : s.Kept k0) (t : BitVec 16) :
    OutKeeps k0 (State.execHome t s) := by
  unfold State.execHome
  show State.Kept k0 _
  repeat' first
    | with_reducible assumption
    | with_reducible apply AState.num_kept
    | with_reducible apply CState.num_kept
    | with_reducible apply SState.num_kept
    | with_reducible apply SlotState.num_kept
    | with_reducible apply TxState.num_kept
    | with_reducible apply YState.num_kept
    | with_reducible apply finish_kept
    | with_reducible apply homeAxis_kept
    | with_reducible apply ite_kept
    | split

theorem execAbort_kept {k0 : Base} {s : State} (h : s.Kept k0) (t : BitVec 16) :
    OutKeeps k0 (State.execAbort t s) := by
  unfold State.execAbort
  show State.Kept k0 _
  repeat' first
    | with_reducible assumption
    | (extract_lets +onlyGivenNames x
       have hx : State.Kept k0 x := by
        unfold x
        repeat' first
          | with_reducible assumption
          | with_reducible apply AState.num_kept
          | with_reducible apply CState.num_kept
          | with_reducible apply SState.num_kept
          | with_reducible apply SlotState.num_kept
          | with_reducible apply TxState.num_kept
          | with_reducible apply YState.num_kept
          | with_reducible apply abortInFlight_kept
          | with_reducible apply finish_kept
          | with_reducible apply ite_kept
          | split
          | (extract_lets +onlyGivenNames y; clear_value y)
                | (extract_lets +onlyGivenNames y; subst y)
       clear_value x)
    | (extract_lets +onlyGivenNames x; clear_value x)
    | (extract_lets +onlyGivenNames x; subst x)
    | with_reducible apply AState.num_kept
    | with_reducible apply CState.num_kept
    | with_reducible apply SState.num_kept
    | with_reducible apply SlotState.num_kept
    | with_reducible apply TxState.num_kept
    | with_reducible apply YState.num_kept
    | with_reducible apply abortInFlight_kept
    | with_reducible apply finish_kept
    | with_reducible apply ite_kept
    | split

theorem execCapture_kept {k0 : Base} {s : State} (h : s.Kept k0) (t : BitVec 16) :
    OutKeeps k0 (State.execCapture t s) := by
  unfold State.execCapture
  show State.Kept k0 _
  repeat' first
    | with_reducible assumption
    | with_reducible apply AState.num_kept
    | with_reducible apply CState.num_kept
    | with_reducible apply SState.num_kept
    | with_reducible apply SlotState.num_kept
    | with_reducible apply TxState.num_kept
    | with_reducible apply YState.num_kept
    | with_reducible apply finish_kept
    | with_reducible apply present_kept
    | with_reducible apply running_kept
    | with_reducible apply ite_kept
    | split
    | exact rfl
    | with_reducible apply mk_keep_kept

theorem execCommit_kept {k0 : Base} {s : State} (h : s.Kept k0) (t : BitVec 16) :
    OutKeeps k0 (State.execCommit t s) := by
  unfold State.execCommit
  show State.Kept k0 _
  repeat' first
    | with_reducible assumption
    | with_reducible apply AState.num_kept
    | with_reducible apply CState.num_kept
    | with_reducible apply SState.num_kept
    | with_reducible apply SlotState.num_kept
    | with_reducible apply TxState.num_kept
    | with_reducible apply YState.num_kept
    | with_reducible apply beginCommit_kept
    | with_reducible apply finish_kept
    | with_reducible apply ite_kept
    | split

theorem execClear_kept {k0 : Base} {s : State} (h : s.Kept k0) (t : BitVec 16) :
    OutKeeps k0 (State.execClear t s) := by
  unfold State.execClear
  show State.Kept k0 _
  repeat' first
    | with_reducible assumption
    | (extract_lets +onlyGivenNames x
       have hx : State.Kept k0 x := by
        unfold x
        repeat' first
          | with_reducible assumption
          | with_reducible apply AState.num_kept
          | with_reducible apply CState.num_kept
          | with_reducible apply SState.num_kept
          | with_reducible apply SlotState.num_kept
          | with_reducible apply TxState.num_kept
          | with_reducible apply YState.num_kept
          | with_reducible apply finish_kept
          | with_reducible apply present_kept
          | with_reducible apply running_kept
          | with_reducible apply ite_kept
          | split
          | (extract_lets +onlyGivenNames y; subst y)
          | with_reducible apply mk_kept
       clear_value x)
    | (extract_lets +onlyGivenNames x; subst x)
    | with_reducible apply AState.num_kept
    | with_reducible apply CState.num_kept
    | with_reducible apply SState.num_kept
    | with_reducible apply SlotState.num_kept
    | with_reducible apply TxState.num_kept
    | with_reducible apply YState.num_kept
    | with_reducible apply finish_kept
    | with_reducible apply present_kept
    | with_reducible apply running_kept
    | with_reducible apply ite_kept
    | split
    | with_reducible apply mk_kept

theorem execSleep_kept {k0 : Base} {s : State} (h : s.Kept k0) (t : BitVec 16) :
    OutKeeps k0 (State.execSleep t s) := by
  unfold State.execSleep
  show State.Kept k0 _
  repeat' first
    | with_reducible assumption
    | (extract_lets +onlyGivenNames x
       have hx : State.Kept k0 x := by
        unfold x
        repeat' first
          | with_reducible assumption
          | with_reducible apply AState.num_kept
          | with_reducible apply CState.num_kept
          | with_reducible apply SState.num_kept
          | with_reducible apply SlotState.num_kept
          | with_reducible apply TxState.num_kept
          | with_reducible apply YState.num_kept
          | with_reducible apply answerDue_kept
          | with_reducible apply finish_kept
          | split
          | (extract_lets +onlyGivenNames y; clear_value y)
                | (extract_lets +onlyGivenNames y; subst y)
       clear_value x)
    | (extract_lets +onlyGivenNames x; clear_value x)
    | (extract_lets +onlyGivenNames x; subst x)
    | with_reducible apply AState.num_kept
    | with_reducible apply CState.num_kept
    | with_reducible apply SState.num_kept
    | with_reducible apply SlotState.num_kept
    | with_reducible apply TxState.num_kept
    | with_reducible apply YState.num_kept
    | with_reducible apply answerDue_kept
    | with_reducible apply finish_kept
    | split

theorem execRestart_kept {k0 : Base} {s : State} (h : s.Kept k0) (t : BitVec 16) :
    OutKeeps k0 (State.execRestart t s) := by
  unfold State.execRestart
  show State.Kept k0 _
  repeat' first
    | with_reducible assumption
    | (extract_lets +onlyGivenNames x
       have hx : State.Kept k0 x := by
        unfold x
        repeat' first
          | with_reducible assumption
          | with_reducible apply AState.num_kept
          | with_reducible apply CState.num_kept
          | with_reducible apply SState.num_kept
          | with_reducible apply SlotState.num_kept
          | with_reducible apply TxState.num_kept
          | with_reducible apply YState.num_kept
          | with_reducible apply answerDue_kept
          | with_reducible apply finish_kept
          | with_reducible apply forceRestart_kept
          | with_reducible apply ite_kept
          | split
          | (extract_lets +onlyGivenNames y; clear_value y)
                | (extract_lets +onlyGivenNames y; subst y)
       clear_value x)
    | (extract_lets +onlyGivenNames x; clear_value x)
    | (extract_lets +onlyGivenNames x; subst x)
    | with_reducible apply AState.num_kept
    | with_reducible apply CState.num_kept
    | with_reducible apply SState.num_kept
    | with_reducible apply SlotState.num_kept
    | with_reducible apply TxState.num_kept
    | with_reducible apply YState.num_kept
    | with_reducible apply answerDue_kept
    | with_reducible apply finish_kept
    | with_reducible apply forceRestart_kept
    | with_reducible apply ite_kept
    | split

end Sys2Proof.Machine.State
end

