-- ==== Sys2Proof/Laws/RunsWindows.lean ====
section
/-! SUPPORT. Every command of Machine/Windows.lean answers a next state that keeps what Laws/Kept.lean names. -/

set_option Elab.async false

set_option linter.unusedTactic false
set_option linter.unreachableTactic false

namespace Sys2Proof.Machine.State

theorem execReleaseDwellExpiry_kept {k0 : Base} {s : State} (h : s.Kept k0) (g : Grp) :
    OutKeeps k0 (State.execReleaseDwellExpiry g s) := by
  unfold State.execReleaseDwellExpiry
  show State.Kept k0 _
  repeat' first
    | with_reducible assumption
    | (extract_lets +onlyGivenNames x
       have hx : State.Kept k0 x := by
        unfold x
        repeat' first
          | with_reducible assumption
          | with_reducible apply modYield_kept
          | with_reducible apply ite_kept
          | (extract_lets +onlyGivenNames y; clear_value y)
                | (extract_lets +onlyGivenNames y; subst y)
       clear_value x)
    | (extract_lets +onlyGivenNames x; clear_value x)
    | (extract_lets +onlyGivenNames x; subst x)
    | with_reducible apply modYield_kept
    | with_reducible apply ite_kept

theorem execRecoveryTimeExpiry_kept {k0 : Base} {s : State} (h : s.Kept k0) (g : Grp) :
    OutKeeps k0 (State.execRecoveryTimeExpiry g s) := by
  unfold State.execRecoveryTimeExpiry
  show State.Kept k0 _
  repeat' first
    | with_reducible assumption
    | with_reducible apply leaveDrum_kept
    | with_reducible apply modYield_kept
    | with_reducible apply recoverEnd_kept
    | with_reducible apply ite_kept

theorem execHostTensionExpiry_kept {k0 : Base} {s : State} (h : s.Kept k0) (g : Grp) :
    OutKeeps k0 (State.execHostTensionExpiry g s) := by
  unfold State.execHostTensionExpiry
  show State.Kept k0 _
  repeat' first
    | with_reducible assumption
    | with_reducible apply modYield_kept

theorem execTrackTimeout_kept {k0 : Base} {s : State} (h : s.Kept k0) (x : GenId) :
    OutKeeps k0 (State.execTrackTimeout x s) := by
  unfold State.execTrackTimeout
  show State.Kept k0 _
  repeat' first
    | with_reducible assumption
    | with_reducible apply modGen_kept
    | with_reducible apply ite_kept

end Sys2Proof.Machine.State
end

