-- ==== Sys2Proof/Tests/Slice0.lean ====
section
/-! SUPPORT. Small tests: an ill-formed command is refused by each check, single commands on small states, and for every statement
with hypotheses a state and operands that meet them. -/

set_option Elab.async false

namespace Sys2Proof.Tests

open Sys2Proof Sys2Proof.Machine

/-- The state after reset, awake with the firmware running. -/
def up : State := { State.reset with power := { State.reset.power with phase := .awake } }

/-- The module asleep. -/
def down : State := { up with power := { up.power with phase := .asleep } }

/-! ### Well-formed and ill-formed commands: one refused term for each check -/

/-- A frame of `n` words. -/
def hostFrame (n : Nat) : HostFrame := ⟨List.replicate n 0, false, false⟩

/-- A CAN frame with the given format bits, identifier, DLC and number of data bytes. -/
def canFrame (ide rtr fdf brs : Bool) (id : Nat) (dlc : Nat) (n : Nat) : CanFrame :=
  { ide := ide, rtr := rtr, id := BitVec.ofNat 29 id, fdf := fdf, brs := brs, esi := false, dlc := BitVec.ofNat 4 dlc,
    data := List.replicate n 0 }

theorem test_wf_window_of_96_bits : (Instr.filterResultReady (some 0) [⟨3, List.replicate 96 true⟩]).wf = true := by decide +kernel
theorem test_ill_formed_window_of_50_bits :
    (Instr.filterResultReady (some 0) [⟨3, List.replicate 96 true⟩, ⟨4, List.replicate 50 true⟩]).wf = false := by decide +kernel
theorem test_wf_glance_open_last_count : (Instr.glanceWindowOpen 11 59999).wf = true := by decide
theorem test_ill_formed_glance_open : (Instr.glanceWindowOpen 0 60000).wf = false := by decide
theorem test_wf_comparator_edge_last_count : (Instr.comparatorEdge 0 .w true 1874).wf = true := by decide
theorem test_ill_formed_comparator_edge : (Instr.comparatorEdge 0 .u false 1875).wf = false := by decide
theorem test_wf_sc_filter : (Instr.scFilterResult 0 (List.replicate 48 true) (List.replicate 48 false)).wf = true := by decide +kernel
theorem test_ill_formed_sc_filter_a :
    (Instr.scFilterResult 0 (List.replicate 47 true) (List.replicate 48 false)).wf = false := by decide +kernel
theorem test_ill_formed_sc_filter_b :
    (Instr.scFilterResult 0 (List.replicate 48 true) (List.replicate 49 false)).wf = false := by decide +kernel
theorem test_wf_hysteresis_crossing : (Instr.hysteresisCrossing 7 .b true true 249).wf = true := by decide
theorem test_ill_formed_hysteresis_crossing : (Instr.hysteresisCrossing 0 .a true true 250).wf = false := by decide
theorem test_wf_hysteresis_hold : (Instr.hysteresisHoldExpiry 7 .b 249).wf = true := by decide
theorem test_ill_formed_hysteresis_hold : (Instr.hysteresisHoldExpiry 0 .a 250).wf = false := by decide
theorem test_wf_encoder_edge : (Instr.encoderEdge 7 true false true 1249).wf = true := by decide
theorem test_ill_formed_encoder_edge : (Instr.encoderEdge 0 true false false 1250).wf = false := by decide
theorem test_wf_switch_sample : (Instr.switchSample 0xFFFFFF 1249).wf = true := by decide
theorem test_ill_formed_switch_sample : (Instr.switchSample 0 1250).wf = false := by decide
theorem test_wf_gff_mark : (Instr.gffMark 5 1249).wf = true := by decide
theorem test_ill_formed_gff_mark : (Instr.gffMark 5 1250).wf = false := by decide
theorem test_wf_host_write_of_258_words : (Instr.hostWriteFrame (hostFrame 258)).wf = true := by decide +kernel
theorem test_ill_formed_host_write_of_259_words : (Instr.hostWriteFrame (hostFrame 259)).wf = false := by decide +kernel
theorem test_ill_formed_host_write_of_no_word : (Instr.hostWriteFrame (hostFrame 0)).wf = false := by decide
theorem test_wf_host_read_of_1_word : (Instr.hostReadFrame (hostFrame 1)).wf = true := by decide
theorem test_ill_formed_host_read_of_259_words : (Instr.hostReadFrame (hostFrame 259)).wf = false := by decide +kernel
theorem test_ill_formed_host_read_of_no_word : (Instr.hostReadFrame (hostFrame 0)).wf = false := by decide
theorem test_wf_read_l : (Instr.readLRegister 0x2790).wf = true := by decide
theorem test_ill_formed_read_l_other_register : (Instr.readLRegister 0x2014).wf = false := by decide
theorem test_ill_formed_read_l_outside_the_units : (Instr.readLRegister 0x1F90).wf = false := by decide
theorem test_wf_pair_write : (Instr.registerPairWrite 0x2028 1 2).wf = true := by decide
theorem test_ill_formed_pair_write : (Instr.registerPairWrite 0x2810 1 2).wf = false := by decide
theorem test_wf_base_frame : (Instr.canFrameReceived 0 (canFrame false false false false 0x7FF 8 8) 0).wf = true := by decide
theorem test_ill_formed_base_identifier :
    (Instr.canFrameReceived 0 (canFrame false false false false 0x800 8 8) 0).wf = false := by decide
theorem test_wf_extended_identifier : (Instr.canFrameReceived 0 (canFrame true false false false 0x800 8 8) 0).wf = true := by decide
theorem test_ill_formed_remote_fd_frame :
    (Instr.canFrameReceived 0 (canFrame false true true false 1 0 0) 0).wf = false := by decide
theorem test_ill_formed_brs_in_a_classic_frame :
    (Instr.canFrameReceived 0 (canFrame false false false true 1 0 0) 0).wf = false := by decide
theorem test_wf_fd_frame_of_64_bytes : (Instr.canFrameReceived 0 (canFrame false false true true 1 15 64) 0).wf = true := by decide
theorem test_ill_formed_classic_frame_of_64_bytes :
    (Instr.canFrameReceived 0 (canFrame false false false false 1 15 64) 0).wf = false := by decide
theorem test_ill_formed_remote_frame_with_data :
    (Instr.canFrameReceived 0 (canFrame false true false false 1 2 2) 0).wf = false := by decide
theorem test_wf_ring_of_8 : (Instr.ringFormationDone ⟨false, [0, 3, 2, 1, 7, 6, 5, 4]⟩).wf = true := by decide
theorem test_ill_formed_ring_twice_the_same : (Instr.ringFormationDone ⟨false, [0, 3, 0]⟩).wf = false := by decide
theorem test_ill_formed_ring_of_9 :
    (Instr.ringFormationDone ⟨false, [0, 1, 2, 3, 4, 5, 6, 7, 0]⟩).wf = false := by decide

/-! ### FrontCommandRunsOnTheRest -/

theorem witness_empty_queue : State.reset.pending = [] := rfl

/-! ### EveryStepKeepsTheInvariant -/

theorem witness_invariant : up.Inv := by
  refine ⟨⟨by decide, by decide, fun _ h => absurd h List.not_mem_nil⟩, ⟨by decide, by decide⟩, by unfold GffSt.Inv; decide, ?_⟩
  refine ⟨⟨⟨trivial, fun _ h => absurd h List.not_mem_nil⟩, ⟨trivial, fun _ h => absurd h List.not_mem_nil⟩⟩, ⟨trivial, by decide⟩, ?_⟩
  refine ⟨⟨trivial, fun _ h => absurd h List.not_mem_nil⟩, trivial, trivial, trivial, fun g => ?_⟩
  simp [Group.Inv, up, State.reset]

theorem witness_invariant_step : ∃ t, step { up with pending := [.timestampWrap] } = .next t := ⟨_, rfl⟩

/-! ### PersistentLogSurvivesEveryCommand -/

theorem witness_persistent_log : up.Inv ∧ ∃ t, exec .timestampWrap up = .next t := ⟨witness_invariant, _, rfl⟩

/-! ### YieldAndTrackTimersEnd -/

theorem witness_dwell : ∃ s : State, (s.groups[(0 : Grp)]).yield.state = .yield ∧ (s.groups[(0 : Grp)]).yield.tValid = true ∧
    (s.groups[(0 : Grp)]).yield.tension * 100 ≤ s.gNoun 0 0x19 * s.gNoun 0 0x1A :=
  ⟨up.modYield 0 fun y => { y with state := .yield, tValid := true, tension := 0 }, by decide⟩

theorem witness_recovery : ((up.modYield 1 fun y => { y with state := .recover }).groups[(1 : Grp)]).yield.state = .recover := by decide

theorem witness_track : ((up.modGen (.aux 3) fun o => { o with kind := .track }).gen (.aux 3)).kind = .track := by decide

/-! ### GlanceWindowFloatsThePhase -/

/-- An axis 2 with a window that is open or not, in RUN from a source. -/
def withWindow (isOpen : Bool) (src : Source) : State :=
  ((up.modGlance 2 fun q => { q with
    window := some { crossing := 0, opening := 0, blanking := 0, latest := 0, forced := false, opened := isOpen, found := none } }).modComm 2
    fun c => { c with state := .run, source := src }).modDrive 2 fun d => { d with gates := true }

theorem witness_window_open : ∃ w, ((withWindow false .observer).mains[(2 : Main)]).glance.window = some w ∧ w.opened = false ∧
    ((withWindow false .observer).mains[(2 : Main)]).drive.gates = true ∧
    State.placesWindows ((withWindow false .observer).mains[(2 : Main)]).comm = true := ⟨_, rfl, rfl, rfl, rfl⟩

theorem witness_window_close : ∃ w, ((withWindow true .observer).mains[(2 : Main)]).glance.window = some w ∧ w.opened = true ∧
    State.placesWindows ((withWindow true .observer).mains[(2 : Main)]).comm = true := ⟨_, rfl, rfl, rfl⟩

theorem witness_six_step : ∃ w, ((withWindow true .sixStep).mains[(2 : Main)]).glance.window = some w ∧
    ((withWindow true .sixStep).mains[(2 : Main)]).comm.state = .run ∧
    ((withWindow true .sixStep).mains[(2 : Main)]).comm.source = .sixStep ∧
    ((withWindow true .sixStep).mains[(2 : Main)]).drive.gates = true := ⟨_, rfl, rfl, rfl, rfl⟩

/-! ### ComparatorEdgesAreTakenByState -/

/-- Axis 2 in a state with a source. -/
def inState (st : CState) (src : Source) : State := up.modComm 2 fun c => { c with state := st, source := src }

theorem witness_edge_check : ((inState .check .none).mains[(2 : Main)]).comm.state = .check := rfl

theorem witness_edge_six : ∃ p r, ((inState .run .sixStep).mains[(2 : Main)]).comm.state = .run ∧
    ((inState .run .sixStep).mains[(2 : Main)]).comm.source = .sixStep ∧ ((inState .run .sixStep).mains[(2 : Main)]).comm.sixSeen = false ∧
    (∀ w, ((inState .run .sixStep).mains[(2 : Main)]).glance.window = some w → w.opening + w.blanking ≤ 0) ∧
    expects ((inState .run .sixStep).mains[(2 : Main)]).comm.sector.val p r = true ∧
    (inState .run .sixStep).nearEdge ((inState .run .sixStep).groupOr0 2) 2 p 0 = false :=
  ⟨.u, true, rfl, rfl, rfl, fun _ h => (by cases h), by decide, by decide⟩

theorem witness_edge_window : ∃ (s : State) (w : Window) (p : Phase) (r : Bool), (s.mains[(2 : Main)]).comm.state = .run ∧
    (s.mains[(2 : Main)]).comm.source = .observer ∧ (s.mains[(2 : Main)]).glance.window = some w ∧ w.opened = true ∧ w.found = none ∧
    expects w.crossing p r = true ∧ w.opening + w.blanking ≤ 0 ∧ 0 < w.latest ∧ s.nearEdge (s.groupOr0 2) 2 p 0 = false :=
  ⟨(inState .run .observer).modGlance 2 fun q => { q with window := some ⟨0, 0, 0, 1, false, true, none⟩ }, ⟨0, 0, 0, 1, false, true, none⟩,
    .u, true, by decide⟩

/-! ### OverspeedStopsTheAxis -/

theorem witness_speed_limit : ∃ s : State, (s.mains[(2 : Main)]).comm.state.gated = true ∧ 8 ≤ (s.mains[(2 : Main)]).comm.overspeed ∧
    s.winchBrake 2 = false := ⟨up.modComm 2 fun c => { c with state := .run, overspeed := 8 }, by decide⟩

/-! ### HandoversAreSettledByPolicy -/

theorem witness_mode_deferral : ∃ (s : State) (h : ModeHandover), (s.mains[(2 : Main)]).eng.handover = some h ∧ h.blend = none ∧
    64 ≤ h.count ∧
    s.mNoun 2 0x32 = 0 :=
  ⟨up.modEng 2 fun e => { e with handover := some ⟨5, 1, 0, 64, none, false, false, []⟩ }, _, rfl, by decide, by decide, by decide⟩

theorem witness_mode_abort : ∃ (s : State) (h : ModeHandover), (s.mains[(2 : Main)]).eng.handover = some h ∧ h.blend = none ∧
    64 ≤ h.count ∧ s.mNoun 2 0x32 ≠ 0 :=
  ⟨{ up with nouns := [(0x2232, 1)] }.modEng 2 fun e => { e with handover := some ⟨5, 1, 0, 64, none, false, false, []⟩ }, _, rfl, by decide,
    by decide, by decide⟩

/-- Axis 2 at the end of the deferral of a handover, with its policy and the retries allowed. -/
def deferred (parison : Bool) (policy : Int) : State :=
  { up with nouns := [(0x2211, policy)] }.modComm 2 fun c => { c with state := .handover, samples := 65, fromParison := parison }

theorem witness_handover_blend : ((deferred false 0).mains[(2 : Main)]).comm.state = .handover ∧
    ((deferred false 0).mains[(2 : Main)]).comm.blend = none ∧ 64 < ((deferred false 0).mains[(2 : Main)]).comm.samples ∧
    (deferred false 0).mNoun 2 0x11 = 0 := by decide

theorem witness_handover_run : ((deferred false 1).mains[(2 : Main)]).comm.state = .handover ∧
    ((deferred false 1).mains[(2 : Main)]).comm.blend = none ∧ 64 < ((deferred false 1).mains[(2 : Main)]).comm.samples ∧
    (deferred false 1).mNoun 2 0x11 ≠ 0 ∧ ((deferred false 1).mains[(2 : Main)]).comm.fromParison = false := by decide

theorem witness_handover_parison : ((deferred true 1).mains[(2 : Main)]).comm.state = .handover ∧
    ((deferred true 1).mains[(2 : Main)]).comm.blend = none ∧ 64 < ((deferred true 1).mains[(2 : Main)]).comm.samples ∧
    (deferred true 1).mNoun 2 0x11 ≠ 0 ∧ ((deferred true 1).mains[(2 : Main)]).comm.fromParison = true ∧
    (((deferred true 1).mains[(2 : Main)]).comm.retries : Int) + 1 ≤ (deferred true 1).mNoun 2 0x12 := by decide

/-! ### FollowingErrorIsReportedAndActedOn -/

/-- Axis 2 with a following error at its time, and the action configured. -/
def following (action : Int) : State :=
  { up with nouns := [(0x2239, 0), (0x223A, action)] }.modEng 2 fun e => { e with ferrCount := 1 }

theorem witness_following (action : Int) : 0 < ((following action).mains[(2 : Main)]).eng.ferrCount ∧
    ((following action).mains[(2 : Main)]).eng.ferr = false := ⟨Nat.zero_lt_one, rfl⟩

theorem witness_following_time : ceilDiv ((following 2).mNoun 2 0x39 * 100000) ((following 2).tsNs ((following 2).groupOr0 2)) ≤
    ((following 2).mains[(2 : Main)]).eng.ferrCount ∧ (following 2).mNoun 2 0x3A = 2 ∧ (following 1).mNoun 2 0x3A = 1 ∧
    (following 0).mNoun 2 0x3A = 0 := by decide

/-! ### LossMinimisingSearchStepsEachWindow -/

/-- Axis 2 at the end of a search window that counts or not. -/
def searched (counts : Bool) : State :=
  { up with nouns := [(0x2244, 1)] }.modShare 2 fun y => { y with lmCount := 1, lmValid := counts, lmPrev := some 7 }

theorem witness_search : (searched true).mNoun 2 0x44 = 1 ∧ 0 < ((searched true).mains[(2 : Main)]).share.lmCount ∧
    ((searched true).mains[(2 : Main)]).share.lmValid = true ∧ ((searched true).mains[(2 : Main)]).share.lmPrev = some 7 ∧
    ((searched false).mains[(2 : Main)]).share.lmValid = false := by decide

/-! ### FaultLatchTurnsTheGatesOff -/

/-- Axis 2 with its latch armed, one result over the threshold counted. -/
def armed : State := up.modDrive 2 fun d => { d with armed := true, scOver := 1 }

theorem witness_latch : (armed.mains[(2 : Main)]).drive.armed = true ∧ (armed.mains[(2 : Main)]).drive.latch = 0 ∧
    1 ≤ (armed.mains[(2 : Main)]).drive.scOver ∧ State.axisOfChannel 4 = some 2 ∧ State.axisOfChannel 5 = some 2 := by decide

theorem witness_short_circuit :
    let s := { armed with nouns := [(0x222B, 0)] }
    s.pctRated 2 (s.mNoun 2 0x2B) * 2147483648 < absI (s.phaseCurrents 2 (sincResult (List.replicate 48 true)) 0).1 := by decide

/-! ### LinkChannelsGoInvalidWhileStuck -/

theorem witness_link_channel : State.linkOfChannel 24 = some 0 ∧ State.axisOfChannel 24 = none ∧ State.linkOfChannel 31 = some 3 ∧ State.axisOfChannel 31 = none := by
  decide

/-! ### FrameTickAdvancesTheTime -/

theorem witness_awake : up.awake = true ∧ State.reset.awake = false := by decide

/-! ### CheckSetDecidesTheEngines -/

theorem witness_check_set : ({ up with engines := { up.engines with busy := .checkSet (some 0) } } : State).engInjection 0 = none ∧
    ({ up with engines := { up.engines with busy := .checkSet (some 0) } } : State).engines.busy = .checkSet (some 0) := by decide

theorem witness_cluster : ({ up with engines := { up.engines with cluster := true } } : State).engines.busy = .idle ∧
    ({ up with engines := { up.engines with cluster := true } } : State).engines.mode = .lockstep := by decide

theorem witness_region_check : ({ up with engines := { up.engines with regionCheck := true } } : State).engines.regionCheck = true := rfl

/-! ### SegmentsAgreeRetryOrSettle -/

/-- The engines in a pass or a retry of group 3. -/
def passing (retry : Bool) : State := { up with engines := { up.engines with busy := .segment 3 retry } }

theorem witness_segment : (passing true).engines.busy = .segment 3 true ∧ (passing true).engines.mode = .lockstep ∧
    (passing true).engInjection 3 = none ∧ ((passing true).groups[(3 : Grp)]).stale = false ∧ (passing false).engines.busy = .segment 3 false ∧
    (passing false).engInjection 3 = none ∧ ((passing false).groups[(3 : Grp)]).stale = false := by decide

theorem witness_stale : (((passing true).modGroup 3 fun q => { q with stale := true }).groups[(3 : Grp)]).stale = true := by decide

/-! ### DeadlineAbandonsTheSample -/

theorem witness_deadline : (up.groups[(3 : Grp)]).phase = .none ∧
    ((up.modGroup 3 fun q => { q with phase := .settled }).groups[(3 : Grp)]).phase = .settled ∧
    ((up.modGroup 3 fun q => { q with phase := .passing }).groups[(3 : Grp)]).phase ≠ .none ∧
    ((up.modGroup 3 fun q => { q with phase := .passing }).groups[(3 : Grp)]).phase ≠ .settled := by decide

/-! ### FilterResultsMakeTheGroupReady -/

theorem witness_filtering : ((up.modGroup 3 fun q => { q with phase := .filtering }).groups[(3 : Grp)]).phase = .filtering ∧
    bitAt (up.modGroup 3 fun q => { q with phase := .filtering }).test.sinc.toNat 31 = false ∧
    (up.modGroup 3 fun q => { q with phase := .filtering }).engines.busy = .idle ∧
    ((passing false).modGroup 2 fun q => { q with phase := .filtering }).engines.busy ≠ .idle := by decide

/-! ### ChopperFollowsItsDutyAndIsWatched -/

/-- Link 1 with a mismatch in the previous period, and the feedback as given. -/
def chopped (fb prev : Bool) : State := up.modLink 1 fun x => { x with chFb := fb, prevHigh := prev, prevLow := prev }

theorem witness_mismatch_counted : ((chopped false false).links[(1 : LinkNo)]).prevHigh = false ∧
    ((chopped true false).links[(1 : LinkNo)]).prevLow = false := by decide

theorem witness_mismatch_lost : ((chopped false true).links[(1 : LinkNo)]).chFb = false ∧ ((chopped false true).links[(1 : LinkNo)]).prevHigh = true := by
  decide

theorem witness_mismatch_short : ((chopped true true).links[(1 : LinkNo)]).chFb = true ∧ ((chopped true true).links[(1 : LinkNo)]).prevLow = true ∧
    ((chopped true true).links[(1 : LinkNo)]).chShort = false ∧ (chopped true true).lNoun 1 0x18 ≠ 1 := by decide

/-! ### HysteresisChopperFollowsTheBand -/

/-- Auxiliary axis 3 running, with a set-point in winding A and a state held back. -/
def auxRun : State := up.modAux 3 fun x => { x with state := .run, wa := { x.wa with active := 5, heldBridge := some .slow } }

theorem witness_hysteresis : auxRun.auxOn 3 = true ∧ auxRun.aNoun 3 0x00 ≠ 1 ∧ (State.wind auxRun.auxs[(3 : AuxNo)] .a).active ≠ 0 ∧
    (State.wind auxRun.auxs[(3 : AuxNo)] .a).heldBridge = some .slow ∧ (State.wind auxRun.auxs[(3 : AuxNo)] .b).heldBridge = none := by decide

/-! ### AuxFaultsSetTheAxisLatch -/

theorem witness_rail : (State.wind (up.modWind 3 .b fun z => { z with rail := 1 }).auxs[(3 : AuxNo)] .b).rail < 8 ∧
    8 ≤ (State.wind (auxRun.modWind 3 .b fun z => { z with rail := 8 }).auxs[(3 : AuxNo)] .b).rail ∧
    ((auxRun.modWind 3 .b fun z => { z with rail := 7 })).auxOn 3 = true := by decide

theorem witness_open_coil : (auxRun.modWind 3 .b fun z => { z with openCount := 64 }).auxOn 3 = true ∧
    64 ≤ ((auxRun.modWind 3 .b fun z => { z with openCount := 64 }).auxs[(3 : AuxNo)]).wb.openCount ∧
    (auxRun.auxs[(3 : AuxNo)]).latch = false ∧ ((auxRun.modAux 3 fun x => { x with latch := true }).auxs[(3 : AuxNo)]).latch = true := by decide

/-! ### AuxTimersAndStallsAreTaken -/

/-- Auxiliary axis 3 with its stall counter at the limit, in a homing step, with the action configured. -/
def stalled (h : HStep) (action : Int) : State :=
  { up with nouns := [(0x1001, 8), (0x5315, 1), (0x5317, action)] }.modAux 3 fun x => { x with stallCount := 1, hstep := h }

theorem witness_stall_seek : (stalled .seek 0).aNoun 3 0x15 ≤ ((stalled .seek 0).auxs[(3 : AuxNo)]).stallCount ∧
    ((stalled .seek 0).auxs[(3 : AuxNo)]).stallCount ≠ 0 ∧ ((stalled .seek 0).auxs[(3 : AuxNo)]).homeEnd = none ∧
    ((stalled .seek 0).auxs[(3 : AuxNo)]).reference = none := by decide

theorem witness_stall_action : (stalled .none 1).aNoun 3 0x17 = 1 ∧ (stalled .none 2).aNoun 3 0x17 = 2 ∧ (stalled .none 0).aNoun 3 0x17 = 0 ∧
    (stalled .none 1).aNoun 3 0x15 ≤ ((stalled .none 1).auxs[(3 : AuxNo)]).stallCount ∧ (stalled .none 1).groupOfAux 3 = some 0 := by decide

/-! ### EncoderEdgesCountOneStep -/

/-- Encoder 2 enabled, its lines low. -/
def enc : State := up.modFb 2 fun u => { u with en := true }

theorem witness_encoder : (enc.fb[(2 : FbNo)]).en = true ∧ (enc.fb[(2 : FbNo)]).idxEn = false ∧ quadStep false false true false = 1 ∧
    quadStep false false false true = -1 ∧ (enc.fb[(2 : FbNo)]).a = false ∧ (enc.fb[(2 : FbNo)]).b = false ∧
    (enc.fb[(2 : FbNo)]).modulo = false ∧ (enc.fb[(2 : FbNo)]).slimLo ≤ (enc.fb[(2 : FbNo)]).count + 1 ∧
    (enc.fb[(2 : FbNo)]).count + 1 ≤ (enc.fb[(2 : FbNo)]).slimHi := by decide

theorem witness_encoder_limits :
    ((enc.modFb 2 fun u => { u with slimHi := 0 }).fb[(2 : FbNo)]).slimHi < ((enc.modFb 2 fun u => { u with slimHi := 0 }).fb[(2 : FbNo)]).count + 1 ∧
    ((enc.modFb 2 fun u => { u with modulo := true }).fb[(2 : FbNo)]).modulo = true ∧
    ((enc.modFb 2 fun u => { u with modulo := true }).fb[(2 : FbNo)]).modulus ≠ 0 ∧ (up.fb[(2 : FbNo)]).en = false := by decide

/-- An edge that raises line A of encoder 2 counts one up; DIRINV counts it down. -/
theorem test_encoder_counts : (match exec (.encoderEdge 2 true false false 0) enc with
    | .next t => (t.fb[(2 : FbNo)]).count
    | _ => 7) = 1 ∧ (match exec (.encoderEdge 2 true false false 0) (enc.modFb 2 fun u => { u with dirInv := true }) with
    | .next t => (t.fb[(2 : FbNo)]).count
    | _ => 7) = -1 := by decide

/-! ### ResolverPeriodsTrackTheAngle -/

theorem witness_resolver : ((up.modFb 9 fun u => { u with en := true, valid := true }).fb[State.resUnit 1]).en = true ∧
    ((up.modFb 9 fun u => { u with en := true, valid := true }).fb[State.resUnit 1]).modulo = false ∧
    ((up.modFb 9 fun u => { u with en := true, valid := true }).fb[State.resUnit 1]).valid = true ∧ (up.fb[State.resUnit 1]).en = false := by decide

theorem test_resolver_wraps : (match exec (.resolverExcitationPeriod 1 5000 2#16 0)
      (up.modFb 9 fun u => { u with en := true, lastRaw := some 65535 }) with
    | .next t => (t.fb[(9 : FbNo)]).count
    | _ => 0) = 3 := by decide

/-! ### SerialFramesAreReadOrCounted -/

/-- Serial unit 2 with a frame begun, enabled or not. -/
def serial (en : Bool) : State := up.modFb 14 fun u => { u with en := en, frameAt := some 3 }

theorem witness_serial : ((serial true).fb[State.serUnit 2]).frameAt = some 3 ∧ ((serial true).fb[State.serUnit 2]).en = true ∧
    ((serial false).fb[State.serUnit 2]).en = false ∧ (up.fb[State.serUnit 2]).frameAt = none := by decide

theorem witness_serial_bad : (State.readSerial ((serial true).fb[State.serUnit 2]).ucfg.toNat ⟨false, false, []⟩).ok = false := by decide

/-! ### SwitchesAreFiltered -/

theorem witness_switch_turns : (1#24).getLsbD 0 ≠ up.switches.level.getLsbD 0 ∧
    maxI 1 (({ up with switches := { up.switches with filter := up.switches.filter.set 0 1 } } : State).switches.filter[(0 : Fin 24)]).toNat ≤
      (up.switches.held[(0 : Fin 24)] : Int) + 1 ∧
    ¬(maxI 1 (({ up with switches := { up.switches with filter := up.switches.filter.set 0 2 } } : State).switches.filter[(0 : Fin 24)]).toNat ≤
      (up.switches.held[(0 : Fin 24)] : Int) + 1) ∧ (0#24).getLsbD 0 = up.switches.level.getLsbD 0 := by decide

theorem witness_chatter : ({ up with switches := { up.switches with chatter := 4#24 } } : State).switches.chatter.getLsbD 2 = true ∧
    up.switches.chatter.getLsbD 2 = false := by decide

/-! ### KeeperCountsInSleep -/

theorem witness_keeper_encoder : ({ up with power := { up.power with phase := .asleep } } : State).power.phase = .asleep ∧
    ({ up with power := { up.power with phase := .warmStart } } : State).power.phase = .warmStart ∧ up.power.phase ≠ .asleep := by decide

/-! ### SafetyInputsAreFilteredAndEstopsLatch -/

/-- STO group 2 running and mapped by E-stop 1 with function STO, whose input has been low for 49 samples. -/
def nearEstop : State := { up with nouns := (0x6610, 4) :: (0x6611, 0) :: up.nouns }.modSafety fun q => { q with
  running := (0x6610, 4) :: (0x6611, 0) :: q.running
  estop := Vector.replicate 2 { level := true, held := 49 }
  groups := q.groups.set 2 { q.groups[2] with state := .run, sto := true } }

theorem witness_estop : (nearEstop.modSafety fun q => { q with
      estop := (nearEstop.safety.estop.set 0 (filterSample 50 nearEstop.safety.estop[0] true)).set 1 (filterSample 50 nearEstop.safety.estop[1] false) }).estopActive 1 = true ∧
    nearEstop.estopActive 1 = false ∧ bitAt (nearEstop.safeNounN 0x6610) 2 = true ∧ nearEstop.safeNoun 0x6611 = 0 ∧
    (nearEstop.safety.groups[(2 : StoNo)]).state = .run ∧
    (∀ i : Fin 8, (filterSample 100 nearEstop.safety.ctf[i] ((0 : Byte).getLsbD i.val)).level = (nearEstop.safety.ctf[i]).level) := by decide

theorem test_estop_latches : (match exec (.safetyInputSample 0 false true false) nearEstop with
    | .next t => some ((t.safety.groups[(2 : StoNo)]).state, (t.safety.groups[(2 : StoNo)]).sto, (t.safety.groups[(2 : StoNo)]).cause)
    | _ => none) = some (.latched, false, 2) := by decide +kernel

/-! ### MonitoringMessagesAreAssembledAndWritten -/

theorem witness_assembly : State.reset.awake = false ∧ up.awake = true ∧ up.start.safeHold = false ∧
    ({ up with start := { up.start with safeHold := true } }).start.safeHold = true := by decide

theorem test_message_carries_torque : (match exec .monitoringMessageAssembly (up.modReq fun r => { r with torque := 5, seq := 65535 }) with
    | .next t => t.requests.sent.map fun m => (m.torque, m.seq)
    | _ => none) = some (5, 0) := by decide

/-! ### MonitoringMessagesAreJudged -/

/-- A message with the sequence number `q` and all speeds zero. -/
def quiet (q : BitVec 16) : MonMessage := {
  speed := Vector.replicate 12 0
  sensor := Vector.replicate 12 0
  healthy := Vector.replicate 12 false
  torque := 4
  release := 0
  close := 0
  seq := q }

/-- Three groups: 0 in RUN, 1 in SS1, 2 in OFF; message 9 was the last one. -/
def watched : State := up.modSafety fun q => { q with
  last := some (quiet 9), laneMiss := Vector.replicate 2 2
  groups := (q.groups.set 0 { q.groups[0] with state := .run, sto := true }).set 1 { q.groups[1] with state := .ss1, sto := true } }

theorem witness_copies : watched.intact (some { crcOk := true, msg := quiet 10 }) = true ∧ watched.intact (some { crcOk := true, msg := quiet 9 }) = false ∧
    watched.intact none = false ∧ watched.plausible (quiet 10) = true ∧
    watched.plausible { quiet 10 with speed := Vector.replicate 12 99999999 } = false ∧ watched.sNoun 0 3 ≠ 1 ∧
    watched.safety.laneMiss[(0 : Fin 2)] = 2 ∧ (watched.safety.groups[(0 : StoNo)]).state = .run := by decide

theorem test_monitoring_lost : (match exec .monitoringLost watched with
    | .next t => [(t.safety.groups[(0 : StoNo)]).state, (t.safety.groups[(1 : StoNo)]).state]
    | _ => []) = [.latched, .latched] := by decide +kernel

/-! ### ReadbackMismatchIsAChannelFault -/

theorem witness_readback : (up.modSafety fun q => { q with pulse := some 7 }).safety.pulse = some (7 : SafeOut) ∧
    up.safety.pulse ≠ some (7 : SafeOut) ∧ up.safety.fcause = 0 ∧ (up.modSafety fun q => { q with fcause := 5 }).safety.fcause ≠ 0 := by decide

/-! ### ChannelFaultsTakeEveryGroupToFault -/

theorem witness_pulse : (up.modSafety fun q => { q with groups := q.groups.set 1 { q.groups[1] with sto := true } }).outOn 1 = true ∧
    up.outOn 1 = false ∧ up.safety.pulse = none ∧ (up.modSafety fun q => { q with pulse := some 7 }).safety.pulse = some (7 : SafeOut) ∧
    (up.modSafety fun q => { q with pulse := some 7, pulseVoid := true }).safety.pulseVoid = true ∧ up.safety.pulseVoid = false ∧
    (up.safety.groups[(1 : StoNo)]).state ≠ .fault ∧ up.sNoun 1 3 ≠ 1 := by decide

/-! ### BrakeAndContactorTimesAreJudged -/

/-- Brake 1 and contactor 1 with their times running; brake 1's feedback is input 3 where `fb`. -/
def timed (fb : Bool) : State := up.modSafety fun q => { q with
  running := if fb then (0x6410, 3) :: (0x6510, 3) :: q.running else q.running
  brakes := q.brakes.set 1 { on := false, applied := false, released := false, timing := true }
  contactors := q.contactors.set 1 { on := false, applied := false, released := false, timing := true }
  groups := q.groups.set 2 { q.groups[2] with state := .braking, sto := true, waitBrakes := 2 } }

theorem witness_brake_times : ((timed false).safety.brakes[(1 : Fin 4)]).timing = true ∧ (timed true).brakeInput 1 = some 3 ∧
    (timed false).brakeInput 1 = none ∧ (timed true).contactorWrong 1 = [3] ∧ (timed false).contactorWrong 1 = [] ∧
    (timed false).brakeReported 1 = false ∧ State.stoWaits ((timed false).safety.groups[(2 : StoNo)]) = true ∧
    ((timed false).safety.groups[(2 : StoNo)]).waitBrakes.getLsbD 1 = true ∧ ((timed true).safety.ctf[(3 : Fin 8)]).level = false ∧
    ((up.modSafety fun q => { q with brakes := q.brakes.set 1 { q.brakes[1] with applied := true, on := false } })).brakeReported 1 = true := by decide

theorem test_brake_timeout : (match exec (.brakeTimeout 1) (timed true) with
    | .next t => some ((t.safety.groups[(2 : StoNo)]).state, (t.safety.groups[(2 : StoNo)]).sto, (t.safety.groups[(2 : StoNo)]).cause)
    | _ => none) = some (.latched, false, 10) := by decide +kernel

/-! ### StopTimesPairingAndKeeperMessagesAreTaken -/

/-- STO group 1 in SS1 and mapped by the paired E-stops, whose inputs differ; group 3 latched; the reset source is `src`. -/
def paired (src : Int) : State := up.modSafety fun q => { q with
  running := (0x6600, 2) :: (0x6F01, 1) :: (0x6F03, src) :: q.running
  estop := #v[{ level := true, held := 0 }, { level := false, held := 0 }]
  groups := (q.groups.set 1 { q.groups[1] with state := .ss1, sto := true }).set 3 { q.groups[3] with state := .latched } }

theorem witness_pairing : (paired 1).safeNoun 0x6F01 = 1 ∧ ((paired 1).safety.estop[0]).level ≠ ((paired 1).safety.estop[1]).level ∧
    bitAt ((paired 1).safeNounN 0x6600) 1 = true ∧ (paired 1).safeNoun 0x6F03 ≠ 0 ∧ (paired 0).safeNoun 0x6F03 = 0 ∧
    (paired 1).safety.pairErr = false ∧ (paired 1).estopHolds 3 = false ∧ ((paired 1).safety.groups[(3 : StoNo)]).state = .latched ∧
    ((paired 1).safety.groups[(1 : StoNo)]).state = .ss1 ∧ (paired 1).sNoun 1 3 ≠ 1 ∧ up.safeNoun 0x6F01 ≠ 1 := by decide

theorem test_reset_from_keeper_port : (match exec (.keeperPortMessage true true .resetRequest) (paired 1) with
    | .next t => [(t.safety.groups[(3 : StoNo)]).state, (t.safety.groups[(1 : StoNo)]).state]
    | _ => []) = [.off, .ss1] := by decide

/-! ### EmergencyAndLossTimesCutTorque -/

/-- Group 2 with main axis 3 on STO group 1 and brake 0, in emergency mode SS1, phase `p`. -/
def emergency (p : Fin 3) : State := { up with nouns := (0x1200, 8) :: (0x2304, 2) :: (0x2305, 1) :: up.nouns }.modGroup 2 fun q =>
  { q with eactive := true, emode := 1, ephase := p }

theorem witness_emergency : ((emergency 0).groups[(2 : Grp)]).eactive = true ∧ ((emergency 0).groups[(2 : Grp)]).emode = 1 ∧
    ((emergency 0).groups[(2 : Grp)]).ephase = 0 ∧ ((emergency 1).groups[(2 : Grp)]).ephase = 1 ∧
    ¬(((emergency 2).groups[(2 : Grp)]).ephase = 0) ∧ up.engines.mode ≠ .lost ∧
    ({ up with engines := { up.engines with mode := .lost } }).engines.mode = .lost := by decide

/-! ### CheckpointsReleaseTheJournal -/

/-- One log record waits in the journal. -/
def journal : State := up.logEvent 2 0x0A05 0x7000

theorem witness_checkpoint : journal.serving = true ∧ journal.ledger.clearDue = none ∧ journal.store.capture = none ∧
    journal.mail.output.length = 1 ∧ State.reset.serving = false ∧ State.reset.fwRuns = false ∧ journal.fwRuns = true ∧
    ({ up with power := { up.power with phase := .romHold } }).serving = true ∧
    ({ up with power := { up.power with phase := .romHold } }).fwRuns = false ∧
    ({ up with ledger := { up.ledger with clearDue := some 3 } }).fwRuns = true := by decide

theorem test_checkpoint_clears : (match exec (.checkpoint 24 250 250) { up with ledger := { up.ledger with clearDue := some 3, totals := [(5, 9)] } } with
    | .next t => some (t.ledger.totals.length, t.ledger.epoch, t.ledger.clearDue)
    | _ => none) = some (0, 1, none) := by decide +kernel

theorem test_checkpoint_records : (match exec (.checkpoint 24 250 250) journal with
    | .next t => (t.log.ram.length, t.mail.output.length)
    | _ => (7, 7)) = (1, 0) := by decide +kernel

/-! ### MismatchesRollBackPairOrLose -/

theorem witness_mismatch : up.fwRuns = true ∧ up.faults.mismatchAt = none ∧ up.faults.cpu = .original ∧ State.reset.fwRuns = false ∧
    ({ up with faults := { up.faults with newerOk := true } }).faults.newerOk = true ∧
    ({ up with faults := { up.faults with mismatchAt := some 0, puntyGood := true } }).time.now ≤ 0 + 8000 ∧
    ({ up with faults := { up.faults with newerOk := false, olderOk := false } }).faults.olderOk = false := by decide

theorem test_second_mismatch_pairs : (match exec (.coreMismatch true true false)
      { up with faults := { up.faults with mismatchAt := some 0, puntyGood := true } } with
    | .next t => some (t.faults.cpu, t.mail.output.length)
    | _ => none) = some (.puntyWith0, 1) := by decide +kernel

/-! ### LifeIsAccumulatedSavedAndStoresAreScrubbed -/

theorem witness_scrub : up.awake = true ∧ State.reset.awake = false ∧ up.engines.mode = .lockstep ∧
    ({ up with power := { up.power with phase := .asleep } }).power.phase = .asleep ∧
    ({ up with engines := { up.engines with mode := .lost } }).engines.mode ≠ .simplexA := by decide

theorem test_scrub_repairs : (match exec (.scrubPass .coefB ⟨0, 1, [77], [], false, none, true⟩) { up with engines := { up.engines with storeA := [(77, 5)] } } with
    | .next t => (sget 0 t.engines.storeB 77, t.faults.uncorrectable)
    | _ => (0, 0)) = (5, 1) := by decide +kernel

/-! ### BlocksAreRefreshedAndCommitsEndWithTheHeader -/

/-- Two blocks set due by a loss of VIN; a COMMIT writes to copy 1 where `w`. -/
def due (w : Bool) : State := { up with store := { up.store with
  stale := [7, 9]
  busy := if w then some (3, 1) else none
  staged := [(0, 5), (2, 1)] } }

theorem witness_refresh : (due false).dueList ≠ [] ∧ up.dueList = [] ∧ (due false).fwRuns = true ∧ (due false).store.busy = none ∧
    (due true).store.busy = some (3, 1) ∧ (due true).store.exhausted = false ∧
    ({ due true with store := { (due true).store with exhausted := true } }).store.exhausted = true ∧ State.reset.fwRuns = false := by decide

theorem test_commit_ends : (match exec (.commitWriteDone []) (due true) with
    | .next t => some ((t.store.copies[1]).valid, (t.store.copies[1]).seq, (t.store.copies[1]).image)
    | _ => none) = some (true, 1, [5]) := by decide +kernel

theorem test_refresh_takes_the_first : (match exec (.blockRefresh true) (due false) with
    | .next t => t.store.stale
    | _ => []) = [9] := by decide +kernel

/-! ### HostFramesAreAppliedWholeOrNotAtAll -/

/-- The command word with its CRC: write or read, N − 1, word address. -/
def cmdWord (wr : Nat) (n a : Nat) : Word :=
  let w : Word := BitVec.ofNat 32 (wr * 2 ^ 31 + n * 2 ^ 23 + a * 2 ^ 8)
  w ||| BitVec.ofNat 32 (State.ownCrc w)

/-- A good write of one word 0x30 to MBX_IRQEN, and a good read of it. -/
def goodWrite : HostFrame := ⟨[cmdWord 1 0 0x104, 0x30, BitVec.ofNat 32 (State.dataCrc [0x30])], false, false⟩
def goodRead : HostFrame := ⟨[cmdWord 0 0 0x10A, 0, 0], false, false⟩

theorem witness_frames : up.hostUp = true ∧ down.hostUp = false ∧ (State.readCommand (cmdWord 1 0 0x104)).write = true ∧
    (State.readCommand (cmdWord 1 0 0x104)).crcOk = true ∧ (State.readCommand (cmdWord 1 0 0x104)).inRange = true ∧
    (State.readCommand (cmdWord 1 0 0x104)).n = 1 ∧ (State.readCommand (cmdWord 1 1 0x3FFF)).inRange = false ∧
    up.slotsAllow (State.frameCells 0x410 [0x30]) = true ∧ up.slotsAllow [(0x410, 0x30)] = true ∧
    (State.readCommand (cmdWord 0 0 0x10A)).write = false ∧ State.pairValue up.fb[(2 : Fin 16)] 0x38 = some (up.fb[(2 : FbNo)]).slimHi := by decide +kernel

theorem test_write_frame : (match exec (.hostWriteFrame goodWrite) up with
    | .next t => (t.mail.irqEn, t.mail.err)
    | _ => (1, 1)) = (0x30, 0) := by decide +kernel

theorem test_bad_data_crc : (match exec (.hostWriteFrame ⟨[cmdWord 1 0 0x104, 0x31, BitVec.ofNat 32 (State.dataCrc [0x30])], false, false⟩) up with
    | .next t => (t.mail.irqEn, t.mail.err)
    | _ => (1, 0)) = (0, 1) := by decide +kernel

theorem test_read_linkid : (match exec (.hostReadFrame goodRead) up with
    | .next t => t.mail.miso.getD 1 0
    | _ => 0) = 0x48541208 := by decide +kernel

/-- The CRC of the ASCII string in R340. -/
theorem test_crc8 : crc8 [0x31, 0x32, 0x33, 0x34, 0x35, 0x36, 0x37, 0x38, 0x39] = 0x4B := by decide +kernel

/-! ### MailboxSlotsMoveThroughTheirStates -/

/-- Slot 3 posted, slot 5 replied with PAST, one completion; the firmware takes sentences. -/
def boxes : State := up.modMail fun m => { m with
  fwReady := true
  posted := [3]
  completions := [{ ticket := 7, status := 0 }]
  slots := (m.slots.set 3 { m.slots[3] with state := .posted }).set 5 { m.slots[5] with state := .replied, past := true } }

theorem witness_slots : boxes.hostUp = true ∧ boxes.mail.fwReady = true ∧ (boxes.mail.slots[(3 : Fin 16)]).state ≠ .free ∧
    (∀ i : Fin 16, (0b10110#16).getLsbD i.val = true → (boxes.mail.slots[i]).state = .free) ∧ boxes.mail.posted = 3 :: [] ∧
    (boxes.mail.slots[(5 : Fin 16)]).state = .replied ∧ (boxes.mail.slots[(5 : Fin 16)]).past = true ∧ boxes.faults.cpu ≠ .lost ∧
    up.mail.posted = [] ∧ down.hostUp = false ∧ ({ boxes with faults := { boxes.faults with cpu := .lost } }).faults.cpu = .lost := by decide +kernel

theorem test_doorbell_orders : (match exec (.mbxDoorbell 0b10110#16) boxes with
    | .next t => t.mail.posted
    | _ => []) = [3, 1, 2, 4] := by decide +kernel

theorem test_release_posted : (match exec (.mbxRelease 0b101000#16) boxes with
    | .next t => (t.mail.posted, (t.mail.slots[(3 : Fin 16)]).state, (t.mail.slots[(5 : Fin 16)]).state)
    | _ => ([], .taken, .taken)) = ([], .free, .free) := by decide +kernel

/-! ### SentencesGetFreshTicketsInOrder -/

/-- Ticket 5 held, after ticket 4 where `a`, which ended with status `e`; one SET of a setting waits, well formed where `w`. -/
def waiting (a : Bool) (e : Nat) (w : Bool) : State := up.modMail fun m =>
  let x : Sentence := ⟨2, 1, 0x1003, 0, if a then [3] else [], if a then [4] else [], [1], w⟩
  { m with
    input := [(x, .slot 2)]
    tickets := [{ num := 5, sent := x, origin := .slot 1 }]
    lastTicket := 65535
    ended := [{ num := 4, status := e }] }

theorem witness_tickets : (waiting false 0 true).serving = true ∧ (waiting false 0 true).inFlightCount < 32 ∧
    (waiting false 0 true).sessionFull (.slot 2) = false ∧ (waiting false 0 true).mail.tickets.length < 65535 ∧
    ((waiting false 0 true).inFlight? 5).isSome = true ∧ (waiting false 0 true).inFlight? 6 = none ∧ up.mail.input = [] ∧
    State.reset.serving = false ∧ (waiting true 0x41 true).ended? 4 = some 0x41 ∧ (waiting true 0x41 true).inFlight? 4 = none ∧
    ((waiting true 0 true).inFlight? 5).map (fun k => (k.sent.operand 3, (waiting true 0 true).mustWait k)) = some (some 4, false) := by decide +kernel

theorem test_ticket_wraps : (match exec .sentenceTaken (waiting false 0 true) with
    | .next t => (t.mail.lastTicket, t.mail.tickets.map fun k => k.num)
    | _ => (0, [])) = (1, [5, 1]) := by decide +kernel

theorem test_prior_failed : (match exec (.sentenceTakeUp 5) (waiting true 0x41 true) with
    | .next t => t.mail.ended.map fun e => (e.num, e.status)
    | _ => []) = [(5, 0x85), (4, 0x41)] := by decide +kernel

/-! ### AbsentNounsAreRefusedByEveryVerb -/

/-- Ticket 5 taken, with the verb, noun, argument, adverbs and payload given, on a state. -/
def asked (s : State) (verb noun arg : Nat) (adverbs : List Nat) (payload : List Word) : State := s.modMail fun m =>
  { m with tickets := [{ num := 5, sent := ⟨verb, payload.length, noun, arg, adverbs, [], payload, true⟩, origin := .slot 1, stage := .taken }] }

theorem witness_absent : (∀ v ∈ [0x01, 0x02, 0x03, 0x04, 0x10, 0x11, 0x20, 0x21, 0x22, 0x23, 0x30, 0x40, 0x41, 0x42, 0x50, 0x51],
    ((asked up v 0x2C31 0 [] []).due? 5 v).map (fun k => k.sent.noun) = some 0x2C31 ∧ (asked up v 0x2C31 0 [] []).due? 6 v = none) ∧
    nounSpec up.member 0x2C31 = none := by decide +kernel

/-! ### SettingsAreReadAndSet -/

theorem witness_read_set : nounClass 0x2331 = some (.main 3 0x31) ∧ nounClass 0x2351 = some (.main 3 0x51) ∧
    ((asked up 1 0x2351 1 [] []).due? 5 1).isSome = true ∧ ((asked up 2 0x2351 0 [] [7]).due? 5 2).isSome = true ∧
    ((asked up 1 0x2351 1 [] []).readIds 0x2351 2).length ≤ 14 ∧
    (nounSpec up.member 0x2351).map (fun p => (p.acc, p.r35, p.inRange 5000)) = some (.rw, false, true) ∧
    (nounSpec up.member 0x2334).map (fun p => p.r35) = some true ∧
    (((asked up 2 0x2351 0 [] [5000]).due? 5 2).map fun k => (asked up 2 0x2351 0 [] [5000]).setRefusal k.sent) = some none ∧
    (((asked up 2 0x2351 0 [] [0]).due? 5 2).map fun k => (asked up 2 0x2351 0 [] [0]).setRefusal k.sent) = some (some 0x40) ∧
    (nounSpec up.member 0x5F00).map (fun p => p.acc) = some .block ∧ up.nouns = [] := by decide +kernel

theorem test_set_stores : (match exec (.set 5) (asked up 2 0x2351 0 [] [5000]) with
    | .next t => (t.noun 0x2351, t.mail.ended.map fun e => e.status)
    | _ => (0, [])) = (5000, [0]) := by decide +kernel

/-! ### BlocksAreWrittenAndSwapped -/

theorem witness_write : ((asked up 3 0x5F02 7 [] [1, 2]).due? 5 3).isSome = true ∧ nounClass 0x5F02 = some (.table 2) ∧
    (nounSpec up.member 0x5F02).isSome = true ∧ up.tableUsed 2 = false ∧ nounClass 0xC000 = some (.store 0) ∧ (nounSpec up.member 0xC000).isSome = true ∧
    nounClass 0x3200 = some (.region 2) ∧ (nounSpec up.member 0x3200).isSome = true ∧ up.groupStopped 2 = true ∧ 2 ≤ up.queueRoom 2 ∧
    10 ≤ ({ up with nouns := [(0x1209, 64)] }).gNounN 2 0x09 ∧ up.store.staged = [] ∧ up.tables = [] ∧
    (up.modGroup 2 fun q => { q with queue := List.replicate 256 (.swap 5 false) }).queueRoom 2 = 0 ∧
    ((asked up 4 0x3200 0 [] []).due? 5 4).isSome = true := by decide +kernel

/-- Group 2 without axes, whose bank 1, and bank 0 where `both`, hold its valid programme; a swap is being validated. -/
def programmed (both run : Bool) : State :=
  let l : List (Nat × Word) := [(8192, 0x03000000), (8193, 4), (8194, 3323130960)]
  let k : List (Nat × Word) := if both then [(0, 0x03000000), (1, 4), (2, 3323130960)] else []
  ({ up with nouns := [(0x1209, 64)], engines := { up.engines with storeA := k ++ l, storeB := k ++ l } } : State).modGroup 2 fun q =>
    { q with running := run, queue := [.swap 5 false], swapPhase := .validating }

theorem witness_valid_bank : (∀ b r, (programmed b r).bankValid 2 true = true ∧ ((programmed b r).groups[(2 : Grp)]).swapPhase = .validating ∧
      ((programmed b r).groups[(2 : Grp)]).running = r ∧ ((programmed b r).groups[(2 : Grp)]).bank1 = false) ∧
    (∀ i ∈ State.headerWords ((programmed true true).programme 2 false) ((programmed true true).nAux 2),
      (programmed true true).region 2 false i = (programmed true true).region 2 true i) ∧
    ¬∀ i ∈ State.headerWords ((programmed false true).programme 2 false) ((programmed false true).nAux 2),
      (programmed false true).region 2 false i = (programmed false true).region 2 true i := by decide +kernel

theorem witness_validation : (up.groups[(2 : Grp)]).swapPhase ≠ .validating ∧ up.bankValid 2 true = false ∧ (up.groups[(2 : Grp)]).bank1 = false ∧
    ((up.modGroup 2 fun q => { q with queue := [.swap 5 false], swapPhase := .validating }).groups[(2 : Grp)]).queue = .swap 5 false :: [] := by decide +kernel

theorem test_write_table : (match exec (.write 5) (asked up 3 0x5F02 7 [] [1, 2]) with
    | .next t => (t.tableEntry 2 7, t.tableEntry 2 8)
    | _ => (0, 0)) = (1, 2) := by decide +kernel

theorem test_swap_validates : (match exec (.swap 5) (asked up 4 0x3200 0 [] []) with
    | .next t => some ((t.groups[(2 : Grp)]).queue, (t.groups[(2 : Grp)]).swapPhase)
    | _ => none) = some ([.swap 5 false], .validating) := by decide +kernel

/-! ### AxesAreEnabledDisabledAndOrdered -/

/-- Group 2 running with main axis 3 and auxiliary axis 1, which `on` tells to be enabled. -/
def axes (on : Bool) : State := ({ up with nouns := [(0x1200, 8), (0x1201, 2)] }.modGroup 2 fun q => { q with running := true }).modMain 3 fun a =>
  { a with enabled := on }

theorem witness_enable : axisObject 0x23FF = some (.main 3) ∧ axisObject 0x51FF = some (.aux 1) ∧ groupObject 0x12FF = some 2 ∧
    (nounSpec up.member 0x23FF).isSome = true ∧ (nounSpec up.member 0x12FF).isSome = true ∧ (axes false).groupOf (.main 3) = some 2 ∧
    up.groupOf (.main 3) = none ∧ (axes false).runs 2 = true ∧ (axes false).stoLatched (.main 3) = false ∧ (axes true).genEnabled (.main 3) = true ∧
    (axes false).genEnabled (.main 3) = false ∧ ((asked (axes false) 0x10 0x23FF 0 [] []).due? 5 0x10).isSome = true ∧
    (axes true).anyEnabled 2 = true := by decide +kernel

theorem witness_move : (((asked (axes true) 0x20 0x23FF 3 [] [100]).due? 5 0x20).map fun k =>
      (State.moveFormatBad k.sent, (asked (axes true) 0x20 0x23FF 3 [] [100]).moveRefusal 2 (.main 3) k.sent)) = some (false, none) ∧
    (((asked (axes false) 0x20 0x23FF 3 [] [100]).due? 5 0x20).map fun k =>
      (asked (axes false) 0x20 0x23FF 3 [] [100]).moveRefusal 2 (.main 3) k.sent) = some (some 0x41) := by decide +kernel

theorem test_enable : (match exec (.enable 5) (asked (axes false) 0x10 0x23FF 0 [] []) with
    | .next t => some ((t.mains[(3 : Main)]).enabled, (t.mains[(3 : Main)]).startTicket)
    | _ => none) = some (true, some 5) := by decide +kernel

theorem test_disable : (match exec (.disable 5) (asked (axes true) 0x11 0x23FF 0 [] []) with
    | .next t => some ((t.mains[(3 : Main)]).enabled, t.mail.ended.map fun e => e.status)
    | _ => none) = some (false, [0]) := by decide +kernel

/-! ### StoreAndDeviceVerbsDoWhatTheySay -/

theorem witness_store_verbs : (nounSpec up.member 0xE0FF).isSome = true ∧ (nounSpec up.member 0xC000).isSome = true ∧
    (nounSpec up.member 0x4F11).isSome = true ∧ ((asked up 0x30 0xE0FF 0 [] [9]).due? 5 0x30).isSome = true ∧ up.inFlight? 9 = none ∧
    ((asked up 0x40 0xC000 0 [] []).due? 5 0x40).isSome = true ∧ ((asked up 0x42 0x4F11 0 [5] []).due? 5 0x42).isSome = true ∧
    ((asked up 0x41 0xC000 0 [] []).due? 5 0x41).isSome = true ∧ up.store.capture = none ∧ up.ledger.clearDue = none ∧
    up.storeSpent = false ∧ (∀ g, up.groupStopped g = true) ∧ ((asked up 0x50 0xE0FF 0 [] [60]).due? 5 0x50).isSome = true ∧
    ((asked up 0x51 0xE0FF 1 [] []).due? 5 0x51).isSome = true := by decide +kernel

theorem test_restart_is_due : (match exec (.restart 5) (asked up 0x51 0xE0FF 1 [] []) with
    | .next t => (t.power.due, t.mail.ended.map fun e => e.status)
    | _ => (none, [])) = (some .cold, [0]) := by decide +kernel

theorem test_clear_without_force : (match exec (.clear 5) (asked up 0x42 0x4F11 0 [] []) with
    | .next t => (t.ledger.clearDue, t.mail.ended.map fun e => e.status)
    | _ => (some 1, [])) = (none, [0x48]) := by decide +kernel

/-! ### UnitAndTestRegistersActAtTheWrite -/

theorem witness_unit : up.hostUp = true ∧ up.member.hasFb 2 = true ∧ up.unitInUse 2 = false ∧ down.hostUp = false ∧
    ({ up with member := .ht0100 }).member.hasFb 2 = false ∧ (up.fb[(2 : FbNo)]).modulo = false ∧ (up.fb[(2 : FbNo)]).dir = false := by decide +kernel

theorem witness_unit_in_use : ({ up with nouns := [(0x1200, 8), (0x2302, 0x12)] }.modGroup 2 fun q => { q with running := true }).unitInUse 2 = true ∧ up.test.openLock = false ∧
    bitsOf 0x30000 16 2 = 3 ∧ bitsOf 0x10000 16 2 ≠ 3 := by decide +kernel

theorem test_lock_opens : (match exec (.tstKey 0x7E57A11C) up with
    | .next t => match exec (.tstKey 0x81A85EE3) t with
      | .next r => r.test.openLock
      | _ => false
    | _ => false) = true := by decide +kernel

theorem test_compare_behind : (match exec (.compareWrite 2 0xFFFFFFFFFFFFFFFF) (up.modFb 2 fun u => { u with cmpMode := 1 }) with
    | .next t => ((t.fb[(2 : FbNo)]).armed, (t.fb[(2 : FbNo)]).behind, (t.fb[(2 : FbNo)]).cmpArmed)
    | _ => (false, false, 0)) = (true, true, -1) := by decide +kernel

/-! ### GatherRecordsAreWrittenWholeOrDropped -/

/-- Capture enabled with a marker pending and `loss` records lost. -/
def gather (loss : Nat) : State := up.modGff fun f => { f with en := true, pendMarker := some [1, 2, 3], loss := loss }

theorem witness_gather : (gather 0).hostUp = true ∧ down.hostUp = false ∧ (gather 0).gff.en = true ∧ (gather 0).gff.pendMarker ≠ none ∧
    up.gff.en = false ∧ ((up.modGff fun f => { f with en := true }).gff.pendMarker = none) ∧ gffRoom (gather 4).gff (gather 4).gffHeld 2 = true ∧
    (gather 4).gff.loss ≠ 0 ∧ (State.gffNext (gather 0).gff).isSome = true ∧ State.gffNext up.gff = none ∧
    gffRoom { (gather 0).gff with words := List.replicate 8190 0 } false 4 = false ∧ gffRoom (gather 0).gff false 4 = true := by decide +kernel

theorem test_marker_record : (match exec .gffRecordWrite (gather 0) with
    | .next t => t.gff.words
    | _ => []) = [0x14000300, 0x20000001, 0x20000002, 0x20000003] := by decide +kernel

theorem test_loss_goes_first : (match exec .gffRecordWrite (gather 4) with
    | .next t => (t.gff.words, t.gff.loss)
    | _ => ([], 9)) = ([0x15000100, 0x20000004], 0) := by decide +kernel

/-! ### AcknowledgedEntriesLeaveTheirQueues -/

/-- Port 1 in NORMAL, on the bus. -/
def bus : State := up.modPort 1 fun c => { c with mode := 1, synced := true, fcs := .active }

theorem witness_port_up : bus.portUp 1 = true ∧ ((bus.canBufs[(1 : Port)]).q0.drop 3).length < 64 ∧ down.portUp 1 = false ∧
    ({ up with member := .ht0100 }).portUp 3 = false := by decide +kernel

/-! ### CanPortControlsActAtTheWrite -/

theorem witness_port_controls : (bus.can[(1 : Port)]).mode = 1 ∧ onBus bus.can[(1 : Port)] = true ∧ onBus up.can[(1 : Port)] = false ∧
    (bus.canBufs[(1 : Port)]).sending = none ∧ (up.can[(1 : Port)]).mode = 0 ∧ up.portUp 1 = true ∧ bus.faults.cpu ≠ .lost ∧
    nominalOk ((up.modPort 1 fun c => { c with nbt := 0 }).can[(1 : Port)]).nbt = false ∧
    ((bus.modPort 1 fun c => { c with fcs := .busOff, recovering := true }).can[(1 : Port)]).recovering = true ∧
    ((bus.canBufs[(1 : Port)]).tx[(0 : Fin 3)]).state = .idle ∧
    ((bus.modTx 1 0 fun x => { x with state := .active }).canBufs[(1 : Port)]).tx[(0 : Fin 3)].state = .active ∧
    ((bus.modBufs 1 fun b => { b with sending := some 0 }).canBufs[(1 : Port)]).sending.isSome = true := by decide +kernel

theorem test_mode_to_init : (match exec (.busModeWrite 1 0) (bus.modPort 1 fun c => { c with tec := 9, recv := 5 }) with
    | .next t => some ((t.can[(1 : Port)]).tec, (t.can[(1 : Port)]).recv, (t.can[(1 : Port)]).fcs)
    | _ => none) = some (0, 0, .init) := by decide +kernel

theorem test_request_then_abort : (match exec (.busTxRequest 1 3) bus with
    | .next t => match exec (.busTxAbort 1 2) t with
      | .next u => [((u.canBufs[(1 : Port)]).tx[(0 : Fin 3)]).state, ((u.canBufs[(1 : Port)]).tx[(1 : Fin 3)]).state]
      | _ => []
    | _ => []) = [.pending, .aborted] := by decide +kernel

/-! ### CanFramesAreQueuedSentAndCounted -/

/-- A base data frame with two bytes. -/
def frame : CanFrame := ⟨false, false, 0x123, false, false, false, 2, [1, 2]⟩

/-- Port 1 on the bus, with default queue RXQ0 and buffer 1 pending. -/
def busQ : State := (bus.modPort 1 fun c => { c with defq := 1 }).modTx 1 1 fun x => { x with state := .pending }

theorem witness_can_frame : busQ.portUp 1 = true ∧ onBus busQ.can[(1 : Port)] = true ∧ busQ.sessionOf 1 frame = none ∧
    busQ.decideFilter 1 frame = none ∧ (busQ.can[(1 : Port)]).defq = 1 ∧ (busQ.canBufs[(1 : Port)]).q0.length < 64 ∧
    (busQ.can[(1 : Port)]).fdEn = false ∧ busQ.chooseTx 1 = some 1 ∧ bus.chooseTx 1 = none ∧ counts busQ.can[(1 : Port)] = true ∧
    (busQ.canBufs[(1 : Port)]).sending = none ∧ (busQ.canBufs[(1 : Port)]).partials[(3 : Fin 8)] = none ∧ busQ.awake = true ∧
    busQ.pNoun 1 0x40 = 0 ∧ (busQ.can[(1 : Port)]).nextMode = none ∧
    ((busQ.setPartial 1 3 (some { bytes := [1], next := 1 })).canBufs[(1 : Port)]).partials[(3 : Fin 8)] ≠ none := by decide +kernel

theorem witness_roster : ({ bus with nouns := [(0x8120, 1), (0x8121, 255)], roster := { bus.roster with
      entries := [(4, ⟨1, 0x23, true, none, false, 0, 7, 0, 0⟩)] } }).rosterFind 1 0x23 = some 4 ∧
    ({ bus with nouns := [(0x8120, 1), (0x8121, 255)] }).nodeOf 1 0x123 = 0x23 ∧
    ({ bus with nouns := [(0x8120, 1), (0x8121, 255)] }).rosterCounts 1 false = true ∧ (bus.can[(1 : Port)]).mode.val ≠ 4 := by decide +kernel

theorem test_frame_is_queued : (match exec (.canFrameReceived 1 frame 77) busQ with
    | .next t => some ((t.canBufs[(1 : Port)]).q0.length, (t.canBufs[(1 : Port)]).rxCnt, (t.can[(1 : Port)]).irq)
    | _ => none) = some (1, 1, 1) := by decide +kernel

theorem test_error_counts : (match exec (.canErrorDetected 1 ⟨.crc, false, true, false, false, none⟩) bus with
    | .next t => some ((t.can[(1 : Port)]).tec, (t.can[(1 : Port)]).lec)
    | _ => none) = some (8, 6) := by decide +kernel

/-! ### CascadeFormsFollowsAndHeals -/

/-- Module 3 of a ring, formed where `f`, with module 5 as master. -/
def ring (f : Bool) : State := { up with cascade := { up.cascade with enabled := true, ident := 3, formed := f, master := 5, aIn := f, bIn := f } }

theorem witness_ring : (ring false).cascadeOn = true ∧ (ring false).cascade.formed = false ∧ (ring false).cascade.dupId = false ∧ up.cascadeOn = false ∧
    [5, 3, 1].Nodup ∧ (3 : Fin 8) ∈ [5, 3, 1] ∧ (ring true).cascade.formed = true ∧ (ring true).cascade.split = false ∧
    (ring true).dirUp .a = true ∧ (ring false).dirUp .a = false ∧ (ring true).cascade.isMaster = false ∧ (ring true).cascade.taken = [] ∧
    ((ring true).cascade.syncMiss + 1) % 3 ≠ 0 ∧ ({ (ring true).cascade with syncMiss := 2 }.syncMiss + 1) % 3 = 0 ∧
    ({ ring true with cascade := { (ring true).cascade with formed := true, aIn := false } }).dirUp .a = false ∧
    ({ (ring true) with faults := { (ring true).faults with xCascade := true } }).faults.xCascade = true := by decide +kernel

theorem witness_span : ({ ring true with nouns := [(0x1038, 1), (0x103B, 3)] }).homePart 0 = true ∧
    ({ ring true with nouns := [(0x1038, 1), (0x103B, 4)] }).remotePart 0 = true ∧
    ({ ring true with nouns := [(0x1038, 1), (0x103B, 4)] }).homePart 0 = false ∧ (up.groups[(0 : Grp)]).running = false ∧
    ((up.modGroup 0 fun q => { q with running := true }).groups[(0 : Grp)]).running = true := by decide +kernel

/-- Group 2 a remote part of a span homed on module 4, with its valid programme and locked time. -/
def remote : State := { programmed true false with
  nouns := [(0x1209, 64), (0x1238, 1), (0x123B, 4)]
  cascade := { (ring true).cascade with locked := true } }

theorem witness_home_start : (let s := { ring true with nouns := [(0x1238, 1), (0x123B, 3)] }.modGroup 2 fun q =>
      { q with starting := true, span := { q.span with startAt := some 80 } }
    (s.groups[(2 : Grp)]).running = false ∧ s.homePart 2 = true ∧ (s.groups[(2 : Grp)]).starting = true ∧
    (s.groups[(2 : Grp)]).span.startAt ≠ none) := by decide +kernel

theorem witness_remote_start : remote.programmeOk 2 = true ∧ remote.remotePart 2 = true ∧ remote.homePart 2 = false ∧
    remote.cascade.locked = true ∧ (remote.groups[(2 : Grp)]).running = false := by decide +kernel

theorem test_formation : (match exec (.ringFormationDone ⟨false, [5, 3, 1]⟩) (ring false) with
    | .next t => some (t.cascade.master, t.cascade.order, t.cascade.members)
    | _ => none) = some (1, [3, 1, 5], 0b101010) := by decide +kernel

theorem test_steer : (match exec (.cascadePacketReceived ⟨.a, true, 5, 9, .sync 77 5 0 30⟩) (ring true) with
    | .next t => some (t.time.tick, t.cascade.offset, t.cascade.locked)
    | _ => none) = some (77, 29, true) := by decide +kernel

theorem test_takeover : (match exec .syncMissed { ring true with cascade := { (ring true).cascade with syncMiss := 2, heard := [5, 4] } } with
    | .next t => some (t.cascade.master, t.cascade.isMaster, t.cascade.mepoch)
    | _ => none) = some (3, true, 1) := by decide +kernel

/-! ### SupplyAndClockEventsMoveTheModule -/

/-- The module in a phase of its supply. -/
def inPhase (ph : PowerPhase) : State := { up with power := { up.power with phase := ph } }

theorem witness_phases : (inPhase .noVin).power.phase = .noVin ∧ (inPhase .asleep).power.phase = .asleep ∧ (inPhase .coldStart).power.rstLow = false ∧
    (inPhase .brownedOut).power.phase = .brownedOut ∧ (inPhase .asleep).power.vinOk = false ∧ up.power.reference = 0 ∧
    ({ up with power := { up.power with reference := 1 } }).power.reference = 1 ∧
    ({ inPhase .asleep with power := { (inPhase .asleep).power with latched := 1 } }).power.latched ≠ 0 ∧
    up.retention.nouns.lookup 0xA00A ≠ some 1 ∧ down.power.latched = 0 ∧
    ({ inPhase .noVin with power := { (inPhase .noVin).power with rstLow := true } }).power.rstLow = true := by decide +kernel

theorem test_brownout_stops : (match exec .brownout ((up.modSafety fun q => { q with groups := q.groups.set 1 { q.groups[1] with state := .run, sto := true } }).modGroup 0
      fun q => { q with running := true }) with
    | .next t => some ((t.safety.groups[(1 : StoNo)]).sto, (t.groups[(0 : Grp)]).running, t.power.phase)
    | _ => none) = some (false, false, .brownedOut) := by decide +kernel

theorem test_brownout_wakes_by_cold_start : (match exec .vinokHeld { inPhase .brownedOut with power := { (inPhase .brownedOut).power with brownout := true } } with
    | .next t => some (t.power.phase, t.power.cause)
    | _ => none) = some (.coldStart, 0x0B) := by decide +kernel

/-! ### StartsFailToSafeHoldOrReachTorqueReady -/

/-- Findings of a cold start in which everything passes, but the firmware images where `fw` is false. -/
def goodCold (fw : Bool) : ColdFindings :=
  ⟨Vector.replicate 3 true, Vector.replicate 2 fw, false, true, true, true, true, true, true, true, true, none, none, 450000⟩

/-- Findings of a warm start in which everything passes, but the cores where `c` is false. -/
def goodWarm (c : Bool) : WarmFindings :=
  ⟨true, true, c, true, true, true, true, true, true, true, Vector.replicate 4 (false, false), Vector.replicate 4 0, 1800⟩

/-- The module ready for a cold start, with an image in copy 0 that sets only the CRC of the default safety parameters. -/
def imaged : State := { State.reset with store := { State.reset.store with copies := #v[{ valid := true, seq := 1, image := [0x43464B4E, 50336264, 13,
  1415373240, 0, 2, 0, 0, 16805646, 1, 3075267967, 4278190080, 0] }, {}] } }

/-- The module ready for a warm start, its retained data written two seconds ago. -/
def retained : State := { imaged with
  power := { imaged.power with phase := .warmStart }
  time := { imaged.time with keeper := 65536 }
  retention := { imaged.retention with valid := true, seq := 1 } }

theorem witness_cold_start : State.reset.power.phase = .coldStart ∧ up.power.phase ≠ .coldStart ∧ State.coldTest (goodCold true) = none ∧
    State.coldTest (goodCold false) = some 0x02 ∧
    (let cold := (imaged.passMicros 450000).coldClear.coldExposure (goodCold true)
     let r := cold.chooseCopy cold.copyOrder
     let z : State := { r.1 with
       start := { r.1.start with fback := false }
       store := { r.1.store with loadedSeq := (r.1.store.copies[(0 : Fin 2)]).seq } }
     r.2 = some 0 ∧ (((z.loadImage (r.1.copyImage 0)).setReference true).readStraps (goodCold true)).loadSafety.2 = true) := by decide +kernel

theorem witness_cold_fails :
    (let cold := (State.reset.passMicros 450000).coldClear.coldExposure (goodCold true)
     (cold.chooseCopy cold.copyOrder).2 = none) ∧
    (let cold := (({ imaged with store := { imaged.store with copies := #v[{ valid := true, seq := 1, image := [0x43464B4E, 50336264, 13,
        1415373240, 0, 2, 0, 0, 16805646, 1, 3075267966, 4278190080, 0] }, {}] } }).passMicros 450000).coldClear.coldExposure (goodCold true)
     (cold.chooseCopy cold.copyOrder).2 = none) := by decide +kernel

theorem witness_warm_start : retained.power.phase = .warmStart ∧ (retained.passMicros 1800).blockValid (goodWarm true) = true ∧
    ({ retained.passMicros 1800 with start := { retained.start with warms := 1 } }).warmTest (goodWarm true) = none ∧
    ({ retained.passMicros 1800 with start := { retained.start with warms := 1 } }).warmTest (goodWarm false) = some 0x01 ∧
    (imaged.passMicros 1800).blockValid (goodWarm true) = false := by decide +kernel

theorem witness_restart : up.power.due = none ∧ ({ up with power := { up.power with due := some .cold } }).clocked = true ∧
    ({ up with power := { up.power with due := some .warm } }).awake = true ∧
    ({ inPhase .romHold with power := { (inPhase .romHold).power with due := some .warm } }).power.phase = .romHold := by decide +kernel

/-- The cold start of `imaged` ends awake and ready. -/
theorem test_cold_start : (match exec (.coldStart (goodCold true)) imaged with
    | .next t => some (t.power.phase, t.start.ready, t.store.loadedSeq)
    | _ => none) = some (.awake, true, 1) := by decide +kernel

theorem test_cold_start_fails : (match exec (.coldStart (goodCold false)) imaged with
    | .next t => some (t.power.phase, t.start.safeHold, t.start.fstep)
    | _ => none) = some (.romHold, true, 2) := by decide +kernel

theorem test_warm_start : (match exec (.warmStart (goodWarm true)) retained with
    | .next t => some (t.power.phase, t.start.warm, t.retention.valid)
    | _ => none) = some (.awake, true, false) := by decide +kernel

/-! ### SleepWakeAndResetFollowThePhases -/

/-- Asleep with wake source HOST enabled; VINOK holds where `v`. -/
def sleeping (v : Bool) : State := { up with power := { up.power with phase := .asleep, wakeEn := 1, vinOk := v } }

theorem witness_sleep : (sleeping true).power.phase = .asleep ∧ (sleeping true).wakeFits (sleeping true).power.wakeEn .host = true ∧
    (sleeping true).wakeFits (sleeping true).power.wakeEn (.bus 1) = false ∧ (sleeping false).power.vinOk = false ∧ (sleeping true).power.latched = 0 ∧
    up.start.rstMask = false ∧ up.power.rstLow = false ∧ up.power.due = none ∧
    ({ up with power := { up.power with due := some (.sleep 9) } }).power.due = some (.sleep 9) ∧
    ({ up with power := { up.power with due := some (.sleep 9), latched := 1 } }).power.latched ≠ 0 ∧
    ({ inPhase .inReset with power := { (inPhase .inReset).power with rstLow := true, vinOk := true } }).power.rstLow = true := by decide +kernel

theorem test_reset_low : (match exec .rstNLow (sleeping true) with
    | .next t => some (t.power.phase, t.power.rstLow)
    | _ => none) = some (.inReset, true) := by decide +kernel

theorem test_wake_by_host : (match exec (.wakeSourceQualified .host) (sleeping true) with
    | .next t => some (t.power.phase, t.power.cause, t.power.sources)
    | _ => none) = some (.coldStart, 2, 1) := by decide +kernel

theorem test_sleep_entry : (match exec (.sleepEntry (Vector.replicate 4 (false, false)) 5) { up with power := { up.power with due := some (.sleep 9) } } with
    | .next t => some (t.power.phase, t.power.wakeTimer, t.power.sleeps)
    | _ => none) = some (.asleep, 9, 1) := by decide +kernel

end Sys2Proof.Tests
end

section
/-! Proofs: every command of the dispatch answers a next state that keeps the member and the queue. -/

namespace Sys2Proof.Machine

open State

/-- A command that goes on and keeps a base answers a next state that keeps it. -/
theorem OutKeeps.answers {k0 : Base} {o : Out} (h : OutKeeps k0 o) : ∃ t, o = .next t ∧ t.Kept k0 := by
  cases o with
  | next t => exact ⟨t, rfl, h⟩
  | fault _ => exact h.elim
  | refused _ => exact h.elim

/-- The dispatch keeps what each command's meaning keeps. -/
theorem exec_kept {k0 : Base} {s : State} (h : s.Kept k0) : ∀ c : Instr, OutKeeps k0 (exec c s)
  | .frameTick => execFrameTick_kept h
  | .filterResultReady .. => execFilterResultReady_kept h ..
  | .segmentComplete .. => execSegmentComplete_kept h ..
  | .checkSetDone .. => execCheckSetDone_kept h ..
  | .clusterCheckSetStart => execClusterCheckSetStart_kept h
  | .computeDeadline .. => execComputeDeadline_kept h ..
  | .glanceWindowOpen .. => execGlanceWindowOpen_kept h ..
  | .glanceWindowClose .. => execGlanceWindowClose_kept h ..
  | .comparatorEdge .. => execComparatorEdge_kept h ..
  | .sixStepCommutation .. => execSixStepCommutation_kept h ..
  | .gateDriverFaultInput .. => execGateDriverFaultInput_kept h ..
  | .scFilterResult .. => execScFilterResult_kept h ..
  | .bitstreamStuck .. => execBitstreamStuck_kept h ..
  | .chopperPeriodStart .. => execChopperPeriodStart_kept h ..
  | .chopperFeedbackMismatch .. => execChopperFeedbackMismatch_kept h ..
  | .sarConversion .. => execSarConversion_kept h ..
  | .auxOvercurrent .. => execAuxOvercurrent_kept h ..
  | .hysteresisCrossing .. => execHysteresisCrossing_kept h ..
  | .encoderEdge .. => execEncoderEdge_kept h ..
  | .speedTimeout .. => execSpeedTimeout_kept h ..
  | .serialFrameEnd .. => execSerialFrameEnd_kept h ..
  | .resolverExcitationPeriod .. => execResolverExcitationPeriod_kept h ..
  | .resolverRevalidate .. => execResolverRevalidate_kept h ..
  | .switchSample .. => execSwitchSample_kept h ..
  | .chatterCleared .. => execChatterCleared_kept h ..
  | .keeperEncoderSample .. => execKeeperEncoderSample_kept h ..
  | .checkTimeExpiry .. => execCheckTimeExpiry_kept h ..
  | .alignmentTimeExpiry .. => execAlignmentTimeExpiry_kept h ..
  | .parisonTimeout .. => execParisonTimeout_kept h ..
  | .catchTimeout .. => execCatchTimeout_kept h ..
  | .coastTimeout .. => execCoastTimeout_kept h ..
  | .resyncTimeout .. => execResyncTimeout_kept h ..
  | .lossBrakeTimeout .. => execLossBrakeTimeout_kept h ..
  | .handoverDeferralExpiry .. => execHandoverDeferralExpiry_kept h ..
  | .sensorHealthyHold .. => execSensorHealthyHold_kept h ..
  | .speedLimit .. => execSpeedLimit_kept h ..
  | .modeDeferralExpiry .. => execModeDeferralExpiry_kept h ..
  | .followingError .. => execFollowingError_kept h ..
  | .excitationSearchWindow .. => execExcitationSearchWindow_kept h ..
  | .releaseDwellExpiry .. => execReleaseDwellExpiry_kept h ..
  | .recoveryTimeExpiry .. => execRecoveryTimeExpiry_kept h ..
  | .hostTensionExpiry .. => execHostTensionExpiry_kept h ..
  | .trackTimeout .. => execTrackTimeout_kept h ..
  | .holdDelayExpiry .. => execHoldDelayExpiry_kept h ..
  | .stallDetected .. => execStallDetected_kept h ..
  | .openCoil .. => execOpenCoil_kept h ..
  | .settleTimeExpiry .. => execSettleTimeExpiry_kept h ..
  | .safetyInputSample .. => execSafetyInputSample_kept h ..
  | .monitoringMessageAssembly => execMonitoringMessageAssembly_kept h
  | .monitoringMessage .. => execMonitoringMessage_kept h ..
  | .monitoringLost => execMonitoringLost_kept h
  | .safetyStatusWrite => execSafetyStatusWrite_kept h
  | .brakeTimerExpiry .. => execBrakeTimerExpiry_kept h ..
  | .brakeTimeout .. => execBrakeTimeout_kept h ..
  | .contactorDiscrepancy .. => execContactorDiscrepancy_kept h ..
  | .darkPulseStart .. => execDarkPulseStart_kept h ..
  | .darkPulseEnd .. => execDarkPulseEnd_kept h ..
  | .readbackMismatch .. => execReadbackMismatch_kept h ..
  | .safetyParamCrcCheck .. => execSafetyParamCrcCheck_kept h ..
  | .ksafeClockCheck .. => execKsafeClockCheck_kept h ..
  | .ss1TimeElapsed .. => execSs1TimeElapsed_kept h ..
  | .estopPairDiscrepancy => execEstopPairDiscrepancy_kept h
  | .keeperPortMessage .. => execKeeperPortMessage_kept h ..
  | .coreMismatch .. => execCoreMismatch_kept h ..
  | .checkpoint .. => execCheckpoint_kept h ..
  | .scrubPass .. => execScrubPass_kept h ..
  | .blockRefresh .. => execBlockRefresh_kept h ..
  | .lifeAccumulatorSample => execLifeAccumulatorSample_kept h
  | .hourlySave => execHourlySave_kept h
  | .hostWriteFrame .. => execHostWriteFrame_kept h ..
  | .readLRegister .. => execReadLRegister_kept h ..
  | .registerPairWrite .. => execRegisterPairWrite_kept h ..
  | .mbxDoorbell .. => execMbxDoorbell_kept h ..
  | .mbxRelease .. => execMbxRelease_kept h ..
  | .mbxCplack .. => execMbxCplack_kept h ..
  | .slotTaken => execSlotTaken_kept h
  | .sentenceTaken => execSentenceTaken_kept h
  | .sentenceTakeUp .. => execSentenceTakeUp_kept h ..
  | .read .. => execRead_kept h ..
  | .set .. => execSet_kept h ..
  | .write .. => execWrite_kept h ..
  | .swap .. => execSwap_kept h ..
  | .swapValidationDone .. => execSwapValidationDone_kept h ..
  | .enable .. => execEnable_kept h ..
  | .disable .. => execDisable_kept h ..
  | .move .. => execMove_kept h ..
  | .halt .. => execHalt_kept h ..
  | .follow .. => execFollow_kept h ..
  | .home .. => execHome_kept h ..
  | .abort .. => execAbort_kept h ..
  | .capture .. => execCapture_kept h ..
  | .commit .. => execCommit_kept h ..
  | .commitWriteDone .. => execCommitWriteDone_kept h ..
  | .clear .. => execClear_kept h ..
  | .sleep .. => execSleep_kept h ..
  | .sleepEntry .. => execSleepEntry_kept h ..
  | .restart .. => execRestart_kept h ..
  | .restartAction => execRestartAction_kept h
  | .gffAck .. => execGffAck_kept h ..
  | .gffClear => execGffClear_kept h
  | .gffMark .. => execGffMark_kept h ..
  | .gffRecordWrite => execGffRecordWrite_kept h
  | .tstKey .. => execTstKey_kept h ..
  | .tstLockClose => execTstLockClose_kept h
  | .tstSincArm .. => execTstSincArm_kept h ..
  | .tstEngArm .. => execTstEngArm_kept h ..
  | .fbPreset .. => execFbPreset_kept h ..
  | .rearm .. => execRearm_kept h ..
  | .compareWrite .. => execCompareWrite_kept h ..
  | .busModeWrite .. => execBusModeWrite_kept h ..
  | .recover .. => execRecover_kept h ..
  | .busTxRequest .. => execBusTxRequest_kept h ..
  | .busTxAbort .. => execBusTxAbort_kept h ..
  | .busRxack .. => execBusRxack_kept h ..
  | .busRsel .. => execBusRsel_kept h ..
  | .canFrameReceived .. => execCanFrameReceived_kept h ..
  | .canSegmentTimeout .. => execCanSegmentTimeout_kept h ..
  | .canTransmitChoice .. => execCanTransmitChoice_kept h ..
  | .canTransmitEnd .. => execCanTransmitEnd_kept h ..
  | .canErrorDetected .. => execCanErrorDetected_kept h ..
  | .protocolException .. => execProtocolException_kept h ..
  | .busRecovered .. => execBusRecovered_kept h ..
  | .canBusIntegration .. => execCanBusIntegration_kept h ..
  | .duplicateMarkExpiry .. => execDuplicateMarkExpiry_kept h ..
  | .rosterSilenceCheck => execRosterSilenceCheck_kept h
  | .timestampWrap => execTimestampWrap_kept h
  | .ringFormationDone .. => execRingFormationDone_kept h ..
  | .cascadePacketReceived .. => execCascadePacketReceived_kept h ..
  | .syncMissed => execSyncMissed_kept h
  | .ringBreak .. => execRingBreak_kept h ..
  | .linkDirectionUp .. => execLinkDirectionUp_kept h ..
  | .statusPacketSend => execStatusPacketSend_kept h
  | .spanStartTick .. => execSpanStartTick_kept h ..
  | .brownout => execBrownout_kept h
  | .vinokHeld => execVinokHeld_kept h
  | .keeperFloorLoss => execKeeperFloorLoss_kept h
  | .vlow .. => execVlow_kept h ..
  | .crystalQualified => execCrystalQualified_kept h
  | .crystalLost => execCrystalLost_kept h
  | .holdoverExpiry => execHoldoverExpiry_kept h
  | .pllLockLoss => execPllLockLoss_kept h
  | .wakeSourceQualified .. => execWakeSourceQualified_kept h ..
  | .coldStart .. => execColdStart_kept h ..
  | .warmStart .. => execWarmStart_kept h ..
  | .rstNLow => execRstNLow_kept h
  | .rstNHigh => execRstNHigh_kept h
  | .resetStuck => execResetStuck_kept h
  | .rstmaskClear => execRstmaskClear_kept h
  | .bitstreamUnstuck .. => execBitstreamUnstuck_kept h ..
  | .resolverTrackingError .. => execResolverTrackingError_kept h ..
  | .protocolExceptionEnd .. => execProtocolExceptionEnd_kept h ..
  | .slewToInternalDone => execSlewToInternalDone_kept h
  | .regionCrcCheckDone => execRegionCrcCheckDone_kept h
  | .computeLostBrakeWindowExpiry => execComputeLostBrakeWindowExpiry_kept h
  | .emergencySs1TimeElapsed .. => execEmergencySs1TimeElapsed_kept h ..
  | .emergencyBrakeWaitExpiry .. => execEmergencyBrakeWaitExpiry_kept h ..
  | .preloadRampEnd .. => execPreloadRampEnd_kept h ..
  | .keepClockLoss => execKeepClockLoss_kept h
  | .hostReadFrame .. => execHostReadFrame_kept h ..
  | .hysteresisHoldExpiry .. => execHysteresisHoldExpiry_kept h ..

/-- Settles O6: a state that meets the invariant keeps what it starts from, and so does what a command answers. -/
theorem noCommandTouchesTheQueue : Obligations.NoCommandTouchesTheQueue := by
  intro c s hs
  obtain ⟨t, hexec, hmember, hpending, -⟩ := (exec_kept (Kept.start hs) c).answers
  exact ⟨t, hexec, hmember, hpending⟩

end Sys2Proof.Machine
end

section
/-! Proofs: what every verb's command answers where its ticket is not due, and where its noun is absent (R6, R369). -/

namespace Sys2Proof.Machine

/-- The first condition of the list decides where it holds. -/
@[simp] theorem firstRefusal_cons_true (st : Nat) (l : List (Bool × Nat)) : firstRefusal ((true, st) :: l) = some st := rfl

/-- A condition that does not hold leaves the rest of the list to decide. -/
@[simp] theorem firstRefusal_cons_false (st : Nat) (l : List (Bool × Nat)) : firstRefusal ((false, st) :: l) = firstRefusal l := rfl

/-- A list with a condition that holds refuses. -/
theorem firstRefusal_ne_none {l : List (Bool × Nat)} {st : Nat} (h : (true, st) ∈ l) : firstRefusal l ≠ none := by
  simpa [firstRefusal] using ⟨_, h⟩

namespace State

/-- A noun without a table entry on the member is unknown. -/
theorem unknown_of_absent {s : State} {id : Nat} (h : nounSpec s.member id = none) : s.unknown id = true := by
  simp [unknown, h]

/-- Completing a ticket changes the mailbox alone. -/
theorem finish_frame (s : State) (t st : Nat) (ws : List Word) :
    s.finish t st ws = { s with mail := (s.finish t st ws).mail } := by
  unfold finish
  split <;> rfl

/-- What a completion leaves in the mailbox depends on the mailbox alone. -/
theorem finish_mail_congr {s z : State} (h : z.mail = s.mail) (t st : Nat) (ws : List Word) :
    (z.finish t st ws).mail = (s.finish t st ws).mail := by
  have hi : z.inFlight? t = s.inFlight? t := by simp [inFlight?, h]
  unfold finish
  rw [hi]
  split
  · simp [emit, modTicket, modMail, h]
  · exact h

/-- A verb's command is idle where its ticket is not due, and refuses a due ticket whose noun is absent on the member. -/
def RefusesAbsent (s : State) (t verb : Nat) (o : Out) : Prop :=
  (s.due? t verb = none → o = .next s) ∧
    ∀ k, s.due? t verb = some k → nounSpec s.member k.sent.noun = none → o = .next (s.finish k.num stRange)

variable (s : State) (t : BitVec 16)

theorem execRead_refusesAbsent : s.RefusesAbsent t.toNat 0x01 (execRead t s) := by
  refine ⟨fun hd => by simp [execRead, hd], fun k hd hn => ?_⟩
  cases hc : nounClass k.sent.noun <;> simp [execRead, hd, hn, hc]

/-- A SET of an absent noun is refused as out of range (R376). -/
theorem setRefusal_of_absent {s : State} {x : Sentence} (h : nounSpec s.member x.noun = none) : s.setRefusal x = some stRange := by
  cases hc : nounClass x.noun <;> simp [setRefusal, h, hc]

theorem execSet_refusesAbsent : s.RefusesAbsent t.toNat 0x02 (execSet t s) :=
  ⟨fun hd => by simp [execSet, hd], fun k hd hn => by simp [execSet, hd, setRefusal_of_absent hn]⟩

theorem execWrite_refusesAbsent : s.RefusesAbsent t.toNat 0x03 (execWrite t s) :=
  ⟨fun hd => by simp [execWrite, hd], fun k hd hn => by simp [execWrite, hd, unknown_of_absent hn]⟩

theorem execSwap_refusesAbsent : s.RefusesAbsent t.toNat 0x04 (execSwap t s) :=
  ⟨fun hd => by simp [execSwap, hd], fun k hd hn => by simp [execSwap, hd, unknown_of_absent hn]⟩

theorem execEnable_refusesAbsent : s.RefusesAbsent t.toNat 0x10 (execEnable t s) := by
  refine ⟨fun hd => by simp [execEnable, hd], fun k hd hn => ?_⟩
  cases hx : axisObject k.sent.noun <;> simp [execEnable, hd, hx, unknown_of_absent hn]

theorem execDisable_refusesAbsent : s.RefusesAbsent t.toNat 0x11 (execDisable t s) := by
  refine ⟨fun hd => by simp [execDisable, hd], fun k hd hn => ?_⟩
  cases hx : axisObject k.sent.noun <;> simp [execDisable, hd, hx, unknown_of_absent hn]

theorem execMove_refusesAbsent : s.RefusesAbsent t.toNat 0x20 (execMove t s) :=
  ⟨fun hd => by simp [execMove, hd], fun k hd hn => by simp [execMove, hd, unknown_of_absent hn]⟩

theorem execHalt_refusesAbsent : s.RefusesAbsent t.toNat 0x21 (execHalt t s) :=
  ⟨fun hd => by simp [execHalt, hd], fun k hd hn => by simp [execHalt, hd, unknown_of_absent hn]⟩

theorem execFollow_refusesAbsent : s.RefusesAbsent t.toNat 0x22 (execFollow t s) :=
  ⟨fun hd => by simp [execFollow, hd], fun k hd hn => by simp [execFollow, hd, unknown_of_absent hn]⟩

theorem execHome_refusesAbsent : s.RefusesAbsent t.toNat 0x23 (execHome t s) :=
  ⟨fun hd => by simp [execHome, hd], fun k hd hn => by simp [execHome, hd, unknown_of_absent hn]⟩

theorem execAbort_refusesAbsent : s.RefusesAbsent t.toNat 0x30 (execAbort t s) :=
  ⟨fun hd => by simp [execAbort, hd], fun k hd hn => by simp [execAbort, hd, unknown_of_absent hn]⟩

/-- CAPTURE and COMMIT refuse an absent noun. -/
theorem storeRefusal_of_absent {s : State} {x : Sentence} (h : nounSpec s.member x.noun = none) : s.storeRefusal x = some stRange := by
  simp [storeRefusal, unknown_of_absent h]

theorem execCapture_refusesAbsent : s.RefusesAbsent t.toNat 0x40 (execCapture t s) :=
  ⟨fun hd => by simp [execCapture, hd], fun k hd hn => by simp [execCapture, hd, storeRefusal_of_absent hn]⟩

theorem execCommit_refusesAbsent : s.RefusesAbsent t.toNat 0x41 (execCommit t s) :=
  ⟨fun hd => by simp [execCommit, hd], fun k hd hn => by simp [execCommit, hd, storeRefusal_of_absent hn]⟩

theorem execClear_refusesAbsent : s.RefusesAbsent t.toNat 0x42 (execClear t s) :=
  ⟨fun hd => by simp [execClear, hd], fun k hd hn => by simp [execClear, hd, unknown_of_absent hn]⟩

theorem execSleep_refusesAbsent : s.RefusesAbsent t.toNat 0x50 (execSleep t s) :=
  ⟨fun hd => by simp [execSleep, hd], fun k hd hn => by simp [execSleep, hd, unknown_of_absent hn]⟩

theorem execRestart_refusesAbsent : s.RefusesAbsent t.toNat 0x51 (execRestart t s) :=
  ⟨fun hd => by simp [execRestart, hd], fun k hd hn => by simp [execRestart, hd, unknown_of_absent hn]⟩

end State

open State

/-- Settles O47: each of the sixteen verbs refuses an absent noun, and a completion changes the mailbox alone. -/
theorem absentNounsAreRefusedByEveryVerb : Obligations.AbsentNounsAreRefusedByEveryVerb := by
  intro t s c v hv
  have hrefuses : s.RefusesAbsent t.toNat v (exec c s) := by
    simp only [List.mem_cons, Prod.mk.injEq, List.not_mem_nil, or_false] at hv
    rcases hv with ⟨rfl, rfl⟩ | ⟨rfl, rfl⟩ | ⟨rfl, rfl⟩ | ⟨rfl, rfl⟩ | ⟨rfl, rfl⟩ | ⟨rfl, rfl⟩ | ⟨rfl, rfl⟩ | ⟨rfl, rfl⟩ |
      ⟨rfl, rfl⟩ | ⟨rfl, rfl⟩ | ⟨rfl, rfl⟩ | ⟨rfl, rfl⟩ | ⟨rfl, rfl⟩ | ⟨rfl, rfl⟩ | ⟨rfl, rfl⟩ | ⟨rfl, rfl⟩
    · exact execRead_refusesAbsent s t
    · exact execSet_refusesAbsent s t
    · exact execWrite_refusesAbsent s t
    · exact execSwap_refusesAbsent s t
    · exact execEnable_refusesAbsent s t
    · exact execDisable_refusesAbsent s t
    · exact execMove_refusesAbsent s t
    · exact execHalt_refusesAbsent s t
    · exact execFollow_refusesAbsent s t
    · exact execHome_refusesAbsent s t
    · exact execAbort_refusesAbsent s t
    · exact execCapture_refusesAbsent s t
    · exact execCommit_refusesAbsent s t
    · exact execClear_refusesAbsent s t
    · exact execSleep_refusesAbsent s t
    · exact execRestart_refusesAbsent s t
  exact ⟨hrefuses.1, fun k hd hn => ⟨_, hrefuses.2 k hd hn, rfl, finish_frame s k.num 0x40 []⟩⟩

end Sys2Proof.Machine
end

section
/-! Proofs: READ and SET of settings (R372, R375, R376, R377). -/

namespace Sys2Proof.Machine

/-- A sparse list reads a cell as its lookup, or as its default. -/
theorem lookup_getD_eq_sget {α : Type} (d : α) (l : List (Nat × α)) (i : Nat) : (l.lookup i).getD d = sget d l i := by
  induction l with
  | nil => rfl
  | cons p r ih =>
    obtain ⟨j, w⟩ := p
    by_cases h : j = i
    · subst h; simp [sget]
    · have hne : (i == j) = false := by simpa using fun e => h e.symm
      simp [List.lookup_cons, sget, hne, h, ih]

namespace State

/-! ## The value of a noun -/

theorem noun_eq_sget (s : State) (id : Nat) : s.noun id = sget (nounDefault id) s.nouns id := by
  rw [← lookup_getD_eq_sget]
  unfold noun
  cases s.nouns.lookup id <;> rfl

/-- A noun's value depends on the listed nouns alone. -/
theorem noun_congr {s z : State} (h : z.nouns = s.nouns) (id : Nat) : z.noun id = s.noun id := by
  simp [noun_eq_sget, h]

theorem noun_setNoun_self {s : State} (h : Rising 0 s.nouns) (id : Nat) (v : Int) : (s.setNoun id v).noun id = v := by
  rw [noun_eq_sget]
  exact sget_sput_self _ id v h

theorem noun_setNoun_ne (s : State) {id j : Nat} (v : Int) (h : j ≠ id) : (s.setNoun id v).noun j = s.noun j := by
  rw [noun_eq_sget, noun_eq_sget]
  unfold setNoun sput
  split
  · exact sget_sdel_ne _ _ h
  · exact sget_sins_ne _ _ v h

/-! ## A value that is stored at once -/

variable (s : State) (k : Ticket) (v : Int)

/-- What a chapter ties to the write of a noun touches neither the nouns nor the mailbox. -/
theorem takeNoun_frame (id : Nat) :
    s.takeNoun id v = { s with nouns := (s.setNoun id v).nouns, groups := (s.takeNoun id v).groups } := by
  unfold takeNoun
  split <;> rfl

theorem takeNoun_nouns (id : Nat) : (s.takeNoun id v).nouns = (s.setNoun id v).nouns := by
  rw [takeNoun_frame]

theorem storeNow_nouns : (s.storeNow k v).nouns = (s.setNoun k.sent.noun v).nouns := by
  rw [storeNow, finish_nouns, takeNoun_nouns]

theorem storeNow_noun_self (h : Rising 0 s.nouns) : (s.storeNow k v).noun k.sent.noun = v :=
  (noun_congr (s.storeNow_nouns k v) _).trans (noun_setNoun_self h _ v)

theorem storeNow_noun_ne {j : Nat} (h : j ≠ k.sent.noun) : (s.storeNow k v).noun j = s.noun j :=
  (noun_congr (s.storeNow_nouns k v) j).trans (s.noun_setNoun_ne v h)

theorem storeNow_mail : (s.storeNow k v).mail = (s.finish k.num stDone).mail :=
  finish_mail_congr (by rw [takeNoun_frame]) k.num stDone []

theorem storeNow_frame :
    s.storeNow k v =
      { s with nouns := (s.storeNow k v).nouns, groups := (s.storeNow k v).groups, mail := (s.storeNow k v).mail } := by
  unfold storeNow
  rw [finish_frame, takeNoun_frame]

/-! ## READ -/

section
variable {s : State} {k : Ticket} {t : BitVec 16} {c : NounClass} {p : NounSpec}
variable (hd : s.due? t.toNat 0x01 = some k) (hc : nounClass k.sent.noun = some c) (hp : nounSpec s.member k.sent.noun = some p)
include hd hc hp

theorem execRead_parameters (hb : p.acc ≠ .block) : execRead t s = .next (s.readParameters k p) := by
  simp [execRead, hd, hc, hp, hb]

theorem execRead_block (hb : p.acc = .block) : execRead t s = .next (s.readBlock k c) := by
  simp [execRead, hd, hc, hp, hb]

end

theorem readParameters_malformed (p : NounSpec) (h : 16 ≤ k.sent.arg ∨ k.sent.payload ≠ []) :
    s.readParameters k p = s.finish k.num stFormat := if_pos h

theorem readParameters_wellFormed (p : NounSpec) (ha : k.sent.arg < 16) (hw : k.sent.payload = []) :
    s.readParameters k p = if !readable p then s.finish k.num stAccess
      else if 14 < (s.readIds k.sent.noun (k.sent.arg + 1)).length then s.finish k.num stRange
      else s.finish k.num stDone (s.readIds k.sent.noun (k.sent.arg + 1)) :=
  if_neg (by simp [hw, ha])

theorem readable_iff (p : NounSpec) : readable p = true ↔ p.acc = .rw ∨ p.acc = .ro := by
  simp [readable]

theorem readBlock_words {c : NounClass} {ws : List Word} (hf : blockFormatBad c k.sent = false)
    (hw : s.blockWords c k.sent.arg (k.sent.payload.headD 0) = some ws) : s.readBlock k c = s.finish k.num stDone ws := by
  rw [readBlock, if_neg (by simp [hf]), hw]

/-! ## SET -/

/-- A noun whose class ties nothing else to its write is stored at a sample where R35 asks for it, else at once. -/
theorem applySet_plain {c : NounClass} (p : NounSpec) (h31 : ∀ m, c = .main m 0x31 → False) (h5E : ∀ m, c = .main m 0x5E → False)
    (h5Ea : ∀ a, c = .aux a 0x5E → False) (hsafety : ∀ off, c = .safety off → False) (hg02 : ∀ g, c = .group g 0x02 → False)
    (hp20 : ∀ q, c = .port q 0x20 → False) (hp40 : ∀ q, c = .port q 0x40 → False) :
    s.applySet k c p v = if p.r35 then s.setAtSample k v else s.storeNow k v := by
  unfold applySet
  split
  case h_8 => rfl
  case h_1 m => exact (h31 m rfl).elim
  case h_2 m => exact (h5E m rfl).elim
  case h_3 a => exact (h5Ea a rfl).elim
  case h_4 off => exact (hsafety off rfl).elim
  case h_5 g => exact (hg02 g rfl).elim
  case h_6 q => exact (hp20 q rfl).elim
  case h_7 q => exact (hp40 q rfl).elim

section
variable {s : State} {k : Ticket} {t : BitVec 16} {c : NounClass} {p : NounSpec} {v : Int}

theorem execSet_refused {st : Nat} (hd : s.due? t.toNat 0x02 = some k) (hr : s.setRefusal k.sent = some st) :
    execSet t s = .next (s.finish k.num st) := by
  simp [execSet, hd, hr]

theorem execSet_accepted (hd : s.due? t.toNat 0x02 = some k) (hc : nounClass k.sent.noun = some c)
    (hp : nounSpec s.member k.sent.noun = some p) (hr : s.setRefusal k.sent = none) :
    execSet t s = .next (s.applySet k c p (p.value k.sent.payload)) := by
  simp [execSet, hd, hc, hp, hr]

/-- A value outside the noun's table range is refused. -/
theorem setRefusal_of_out_of_range {x : Sentence} (hc : nounClass x.noun = some c) (hp : nounSpec s.member x.noun = some p)
    (hv : p.inRange (p.value x.payload) = false) : s.setRefusal x ≠ none := by
  simp only [setRefusal, hc, hp]
  exact firstRefusal_ne_none (st := stRange) (by simp [hv])

/-- A mode of an axis whose group does not run is recorded (R137). -/
theorem setMode_stopped {m : Main} {g : Grp} (code : Nat) (hg : s.groupOfMain m = some g) (hr : s.runs g = false) :
    s.setMode k m code = (s.modEng m fun e => { e with recorded := some code }).finish k.num stDone := by
  simp [setMode, hg, hr]

theorem setAtSample_running {g : Grp} (hg : s.nounGroup k.sent.noun = some g) (hr : s.runs g = true) :
    s.setAtSample k v = (s.latched k).emit (.engine g (k.sent.operand 2) (.noun k.num k.sent.noun v)) := by
  simp [setAtSample, hg, hr]

theorem setAtSample_stopped (h : ∀ g, s.nounGroup k.sent.noun = some g → s.runs g = false) : s.setAtSample k v = s.storeNow k v := by
  cases hg : s.nounGroup k.sent.noun with
  | none => simp [setAtSample, hg]
  | some g => simp [setAtSample, hg, h g hg]

end

end State

open State

/-- Settles O48: a READ answers by the format, the access and the length; a SET by its refusal and the noun's class. -/
theorem settingsAreReadAndSet : Obligations.SettingsAreReadAndSet := by
  intro t s k c p hc hp
  refine ⟨fun hd => ⟨fun hb hbad => ?_, fun hb ha hw hrw hro => ?_, fun ha hw hacc => ?_, fun hb hf ws hws => ?_⟩,
    fun hd => ⟨fun st hr => execSet_refused hd hr, fun _ hv => setRefusal_of_out_of_range hc hp hv, fun hr => ?_⟩⟩
  · exact (execRead_parameters hd hc hp hb).trans (congrArg _ (s.readParameters_malformed k p hbad))
  · have hno : readable p = false := by simpa [readable] using ⟨hrw, hro⟩
    refine (execRead_parameters hd hc hp hb).trans (congrArg _ ?_)
    rw [readParameters_wellFormed s k p ha hw, hno]
    rfl
  · have hb : p.acc ≠ .block := by rcases hacc with h | h <;> simp [h]
    have hyes : readable p = true := (readable_iff p).mpr hacc
    have hread : exec (.read t) s = .next (s.readParameters k p) := execRead_parameters hd hc hp hb
    rw [hread, readParameters_wellFormed s k p ha hw, hyes]
    exact ⟨fun hle => congrArg _ (if_neg (Nat.not_lt.mpr hle)), fun hlt => congrArg _ (if_pos hlt)⟩
  · exact (execRead_block hd hc hp hb).trans (congrArg _ (s.readBlock_words k hf hws))
  · have hset : exec (.set t) s = .next (s.applySet k c p (p.value k.sent.payload)) := execSet_accepted hd hc hp hr
    rw [hset]
    split
    case h_1 m => exact fun g hg hrun => congrArg _ (setMode_stopped _ hg hrun)
    case h_8 h31 h5E h5Ea hsafety hg02 hp20 hp40 =>
      rw [applySet_plain s k _ p h31 h5E h5Ea hsafety hg02 hp20 hp40]
      refine ⟨fun g hr35 hg hrun => congrArg _ ?_, fun hnow hrising => ⟨_, congrArg _ ?_, s.storeNow_noun_self k _ hrising,
        fun j hj => s.storeNow_noun_ne k _ hj, s.storeNow_mail k _, s.storeNow_frame k _⟩⟩
      · rw [if_pos hr35, setAtSample_running hg hrun]
      · rcases hnow with hr35 | hstopped
        · exact if_neg (by simp [hr35])
        · rw [setAtSample_stopped hstopped, ite_self]
    all_goals exact ⟨_, rfl⟩

end Sys2Proof.Machine
end

section
/-! Proofs: the frames of the host link (R338 to R344) and the registers with commands of their own (R15, R243). -/

namespace Sys2Proof.Machine.State

/-! ## What a frame that has no effect may leave behind -/

/-- The state with other words on HMISO, another MBX_ERR and other captured H halves. -/
def linked (s : State) (miso : List Word) (err : BitVec 6) (held : List (Nat × Word)) : State :=
  { s with mail := { s.mail with miso, err, capturedH := held } }

section
variable (s : State) (miso : List Word) (err : BitVec 6) (held : List (Nat × Word))

theorem linked_mbxErr (b : Nat) : (s.linked miso err held).mbxErr b = s.linked miso (err ||| 1#6 <<< b) held := rfl

/-- Setting a bit of MBX_ERR sets it. -/
theorem getLsbD_or_bit {b : Nat} (hb : b < 6) : (err ||| 1#6 <<< b).getLsbD b = true := by
  simp [hb]

end

/-! ## Write frames -/

/-- The checks a write frame must pass (R341): `r` holds the words after the command word. -/
def WriteIsGood (f : HostFrame) (k : Command) (r : List Word) : Prop :=
  k.crcOk = true ∧ k.inRange = true ∧ r.length = k.n + 1 ∧ f.partialWord = false ∧ f.hrdyLow = false ∧
    (r.getD k.n 0).toNat = dataCrc (r.take k.n)

section
variable {f : HostFrame} {w : Word} {r : List Word} (hw : f.words = w :: r) (s : State) (k : Command)
include hw

/-- The words a write frame answers, and MBX_ERR after the check of HRDY. -/
theorem writeFrame_cons :
    s.writeFrame f k =
      let s1 := s.linked (s.statusWord :: List.replicate r.length 0)
        (if f.hrdyLow then s.mail.err ||| 1#6 <<< 3 else s.mail.err) s.mail.capturedH
      if !k.crcOk then s1.mbxErr 0
      else if !k.inRange then s1.mbxErr 1
      else if !(decide (r.length = k.n + 1) && !f.partialWord) then s1.mbxErr 2
      else if (r.getD k.n 0).toNat ≠ dataCrc (r.take k.n) then s1.mbxErr 0
      else if f.hrdyLow then s1
      else if s.slotsAllow (frameCells k.addr (r.take k.n)) then s1.applyCells (frameCells k.addr (r.take k.n))
      else s1.mbxErr 4 := by
  cases hh : f.hrdyLow <;> simp [writeFrame, hw, hh] <;> rfl

/-- A write frame that fails a check has no effect but a bit of MBX_ERR and the words answered. -/
theorem writeFrame_failed (h : ¬WriteIsGood f k r) :
    ∃ m e b, s.writeFrame f k = s.linked m e s.mail.capturedH ∧ b < 6 ∧ e.getLsbD b = true := by
  rw [writeFrame_cons hw]
  simp only [linked_mbxErr]
  split
  · exact ⟨_, _, 0, rfl, by decide, getLsbD_or_bit _ (by decide)⟩
  next hcrc =>
  split
  · exact ⟨_, _, 1, rfl, by decide, getLsbD_or_bit _ (by decide)⟩
  next hrange =>
  split
  · exact ⟨_, _, 2, rfl, by decide, getLsbD_or_bit _ (by decide)⟩
  next hlength =>
  split
  · exact ⟨_, _, 0, rfl, by decide, getLsbD_or_bit _ (by decide)⟩
  next hdata =>
  split
  · exact ⟨_, _, 3, rfl, by decide, getLsbD_or_bit _ (by decide)⟩
  next hready =>
  have hlen : r.length = k.n + 1 ∧ f.partialWord = false := by simpa using hlength
  exact absurd ⟨by simpa using hcrc, by simpa using hrange, hlen.1, hlen.2, by simpa using hready, not_not.mp hdata⟩ h

variable {k}

/-- A good write frame is applied whole, or names a slot it may not write and is rejected whole (R351). -/
theorem writeFrame_good (h : WriteIsGood f k r) :
    s.writeFrame f k =
      let s1 := s.linked (s.statusWord :: List.replicate r.length 0) s.mail.err s.mail.capturedH
      if s.slotsAllow (frameCells k.addr (r.take k.n)) then s1.applyCells (frameCells k.addr (r.take k.n)) else s1.mbxErr 4 := by
  obtain ⟨hcrc, hrange, hlength, hpartial, hready, hdata⟩ := h
  rw [writeFrame_cons hw]
  simp only [hcrc, hrange, hlength, hpartial, hready, hdata, ne_eq, not_true_eq_false, decide_true, Bool.not_true, Bool.not_false,
    Bool.and_self, Bool.false_eq_true, if_false]

end

/-! ## Read frames -/

/-- One state differs from another at most in what a frame without effect may leave behind. -/
def LinkOnly (s z : State) : Prop := ∃ m e h, z = s.linked m e h

section
variable {s z : State}

theorem LinkOnly.refl (s : State) : s.LinkOnly s := ⟨_, _, _, rfl⟩

theorem LinkOnly.mbxErr (h : s.LinkOnly z) (b : Nat) : s.LinkOnly (z.mbxErr b) := by
  obtain ⟨m, e, held, rfl⟩ := h
  exact ⟨_, _, _, rfl⟩

theorem LinkOnly.answer (h : s.LinkOnly z) (ws : List Word) : s.LinkOnly (z.modMail fun m => { m with miso := ws }) := by
  obtain ⟨m, e, held, rfl⟩ := h
  exact ⟨_, _, _, rfl⟩

/-- Reading an L register leaves MBX_ERR as it is. -/
theorem captureH_eq (s : State) (a : Nat) : ∃ held, s.captureH a = s.linked s.mail.miso s.mail.err held := by
  unfold captureH
  split
  · split
    · split
      · exact ⟨_, rfl⟩
      · exact ⟨_, rfl⟩
    · exact ⟨_, rfl⟩
  · exact ⟨_, rfl⟩

theorem LinkOnly.captureH (h : s.LinkOnly z) (a : Nat) : s.LinkOnly (z.captureH a) := by
  obtain ⟨m, e, held, rfl⟩ := h
  obtain ⟨held', heq⟩ := (s.linked m e held).captureH_eq a
  exact ⟨_, _, _, heq⟩

theorem LinkOnly.ite {c : Prop} [Decidable c] {y : State} (hy : s.LinkOnly y) (hz : s.LinkOnly z) : s.LinkOnly (if c then y else z) := by
  split
  · exact hy
  · exact hz

end

/-- A read frame changes the words on HMISO, MBX_ERR and the captured H halves alone (R342). -/
theorem readFrame_linkOnly (s : State) (f : HostFrame) (k : Command) : s.LinkOnly (s.readFrame f k) := by
  unfold readFrame
  extract_lets clocked lengthOk bad values go r crc trailer s1 s2
  have hr : s.LinkOnly r.1 := by
    unfold r
    split
    · exact .refl s
    · exact List.foldlRecOn (motive := fun y : State × List Word => s.LinkOnly y.1) _ go (.refl s)
        fun y hy i _ => .ite (hy.captureH _) hy
  have hs2 : s.LinkOnly s2 := .ite ((hr.answer _).mbxErr 3) (hr.answer _)
  exact .ite (hs2.mbxErr 0) (.ite (hs2.mbxErr 1) (.ite (hs2.mbxErr 2) hs2))

/-- A good full read frame of one word answers the status word, the register and the CRC over it. -/
theorem readFrame_one {s : State} {f : HostFrame} {w : Word} {r : List Word} {k : Command} (hw : f.words = w :: r)
    (hcrc : k.crcOk = true) (hrange : k.inRange = true) (hpartial : f.partialWord = false) (hready : f.hrdyLow = false)
    (hn : k.n = 1) (hr : r.length = 2) :
    (s.readFrame f k).mail.err = s.mail.err ∧
      (s.readFrame f k).mail.miso = [s.statusWord, s.readReg k.addr, BitVec.ofNat 32 (dataCrc [s.readReg k.addr])] := by
  obtain ⟨held, hcapture⟩ := s.captureH_eq k.addr
  have herr : (s.captureH k.addr).mail.err = s.mail.err := by rw [hcapture]; rfl
  simp [readFrame, hw, hcrc, hrange, hpartial, hready, hn, hr, herr, modMail]

/-! ## Frames -/

theorem hostFrame_down {s : State} (f : HostFrame) (h : s.hostUp = false) :
    s.hostFrame f = { s with mail := { s.mail with miso := [] } } := by
  simp [hostFrame, h, modMail]

theorem hostFrame_up {s : State} {f : HostFrame} {w : Word} {r : List Word} (h : s.hostUp = true) (hw : f.words = w :: r) :
    s.hostFrame f = if (readCommand w).write then s.writeFrame f (readCommand w) else s.readFrame f (readCommand w) := by
  simp [hostFrame, h, hw]

/-! ## Registers with commands of their own -/

theorem captureH_pair {s : State} {n : FbNo} {o : Nat} {v : Int} (ho : o < 0x80) (hv : pairValue s.fb[n] o = some v) :
    s.captureH (0x2000 + 0x80 * n.val + o) = { s with mail := { s.mail with
      capturedH := sput 0 s.mail.capturedH (0x2000 + 0x80 * n.val + o + 4) (intWord (v.fdiv 4294967296)) } } := by
  have hn := n.isLt
  have hfin : fin? 16 ((0x2000 + 0x80 * n.val + o - 0x2000) / 0x80) = some n := by
    have hdiv : (0x2000 + 0x80 * n.val + o - 0x2000) / 0x80 = n.val := by omega
    simp [fin?, hdiv, hn]
  have hmod : (0x2000 + 0x80 * n.val + o) % 0x80 = o := by omega
  unfold captureH
  rw [if_pos (by omega), hfin, hmod]
  simp only [hv]
  rfl

/-- Addresses between the blocks of the host window are unassigned (R15). -/
theorem writeReg_unassigned (s : State) {a : Nat} (v : Word) (h : 0x500 ≤ a ∧ a < 0x800 ∨ 0x3800 ≤ a ∧ a < 0xF000) :
    s.writeReg a v = s := by
  unfold writeReg
  rw [if_neg (by omega), if_neg (by omega), if_neg (by omega), if_neg (by omega), if_neg (by omega), if_neg (by omega),
    if_neg (by omega), if_neg (by omega)]

theorem readReg_unassigned (s : State) {a : Nat} (h : 0x500 ≤ a ∧ a < 0x800 ∨ 0x3800 ≤ a ∧ a < 0xF000) : s.readReg a = 0 := by
  unfold readReg
  rw [if_neg (by omega), if_neg (by omega), if_neg (by omega), if_neg (by omega), if_neg (by omega), if_neg (by omega),
    if_neg (by omega), if_neg (by omega)]

end Sys2Proof.Machine.State

namespace Sys2Proof.Machine

open State

/-- Settles O44: a write frame fails with a bit of MBX_ERR or is applied whole, a read frame touches the link's own fields alone,
and the single registers follow from the address map. -/
theorem hostFramesAreAppliedWholeOrNotAtAll : Obligations.HostFramesAreAppliedWholeOrNotAtAll := by
  intro f s
  refine ⟨fun c hc => ?_, fun hup n o v ho hv => ?_, fun hup a l h => ?_,
    fun a v ha => ⟨s.writeReg_unassigned v ha, s.readReg_unassigned ha⟩⟩
  · have hexec : exec c s = .next (s.hostFrame f) := by
      simp only [List.mem_cons, List.not_mem_nil, or_false] at hc
      rcases hc with rfl | rfl <;> rfl
    rw [hexec]
    refine ⟨fun hdown => congrArg _ (hostFrame_down f hdown), fun w r hup hw => ?_⟩
    rw [hostFrame_up hup hw]
    refine ⟨fun hwrite => ?_, fun hread => ?_⟩
    · rw [if_pos hwrite]
      refine ⟨fun hbad => ?_, fun hgood hallow => ?_, fun hgood hdeny => ?_⟩
      · obtain ⟨m, e, b, heq, hb, hbit⟩ := writeFrame_failed hw s (readCommand w) hbad
        exact ⟨_, rfl, by rw [heq]; rfl, b, hb, by rw [heq]; exact hbit⟩
      · refine ⟨s.statusWord :: List.replicate r.length 0, ?_⟩
        rw [writeFrame_good hw s hgood, if_pos hallow]
        rfl
      · refine ⟨_, rfl, ?_⟩
        rw [writeFrame_good hw s hgood, if_neg (by simp [hdeny])]
        rfl
    · rw [if_neg (by simp [hread])]
      refine ⟨_, rfl, ?_, fun hcrc hrange hpartial hready hn hr => readFrame_one hw hcrc hrange hpartial hready hn hr⟩
      obtain ⟨m, e, held, heq⟩ := s.readFrame_linkOnly f (readCommand w)
      rw [heq]
      rfl
  · have haddr : (BitVec.ofNat 16 (0x2000 + 0x80 * n.val + o)).toNat = 0x2000 + 0x80 * n.val + o := by
      simp only [BitVec.toNat_ofNat]
      omega
    show Host.Outcome.next (if s.hostUp then s.captureH _ else s) = _
    rw [if_pos hup, haddr, captureH_pair ho hv]
  · show Host.Outcome.next (if s.hostUp then _ else s) = _
    rw [if_pos hup]

end Sys2Proof.Machine
end

section
/-! Proofs: the frame tick counts the time and leaves the keeper die alone (R24, R374). -/

namespace Sys2Proof.Machine

namespace State

variable {k0 : Still} {s : State}

/-- The work of a frame tick changes the time by `tickTime` alone, and nothing else that `Calm` names. -/
theorem frameTick_calm (h : s.tickTime.Calm k0) : s.frameTick.Calm k0 := by
  unfold frameTick
  extract_lets s1 old s2 s3 s4 s5
  have h2 : s2.Calm k0 := stopRequests_calm (modReq_calm h _) _
  have h3 : s3.Calm k0 := eachFin_calm 8 _ (fun _ g hz => emergencyWatch_calm hz g)
    (eachFin_calm 4 _ (fun _ l hz => settleTrip_calm hz l) h2)
  have h4 : s4.Calm k0 := latchFeedback_calm (ite_calm (loseTorque_calm h3) h3)
  have h5 : s5.Calm k0 := eachFin_calm 8 _
    (fun _ g hz => ite_calm (ite_calm (sampleInstant_calm hz g) hz) (stoppedTick_calm hz g))
    (settleRestart_calm (idleRequests_calm h4))
  exact sendSync_calm (ite_calm
    (eachFin_calm 4 _ (fun _ _ hz => ite_calm (beginWindow_calm (beginWindow_calm hz _) _) hz) h5) h5)

/-- A frame tick is 0.4096 of a keeper count: a whole count is added where the fraction passes one. -/
theorem tickTime_keeper (h : s.time.keeperFrac < 10000) :
    s.tickTime.time.keeper = (s.time.keeper + (s.time.keeperFrac + 4096) / 10000) % 281474976710656 := by
  show (if s.time.keeperFrac + 4096 < 10000 then s.time.keeper else s.time.keeper + 1) % 281474976710656 = _
  split
  · next hlow => rw [Nat.div_eq_of_lt hlow, Nat.add_zero]
  · next hhigh =>
    have hone : (s.time.keeperFrac + 4096) / 10000 = 1 := by omega
    rw [hone]

/-- FRAME_TICK of an awake module does the work of one tick. -/
theorem exec_frameTick_awake (h : s.awake = true) : exec .frameTick s = .next s.frameTick := by
  show Host.Outcome.next (if s.awake then s.frameTick else s) = _
  rw [if_pos h]

/-- FRAME_TICK finds no work in a module that is not awake. -/
theorem exec_frameTick_asleep (h : s.awake = false) : exec .frameTick s = .next s := by
  show Host.Outcome.next (if s.awake then s.frameTick else s) = _
  rw [if_neg (by simp [h])]

end State

open State

/-- Settles O18: the tick counts its time first, and nothing that follows in it touches the time or the keeper die. -/
theorem frameTickAdvancesTheTime : Obligations.FrameTickAdvancesTheTime := by
  intro s
  refine ⟨fun hawake => ?_, exec_frameTick_asleep⟩
  obtain ⟨hsafety, hretention, hstart, hlife, htime⟩ := frameTick_calm (Calm.here s.tickTime)
  refine ⟨s.frameTick, exec_frameTick_awake hawake, ?_⟩
  rw [htime]
  exact ⟨rfl, rfl, rfl, rfl, fun hfrac => ⟨tickTime_keeper hfrac, rfl⟩, hsafety, hretention, hstart, hlife⟩

end Sys2Proof.Machine
end

section
/-! Proofs: what an overrun does to its group, and what the compute deadline does by the phase of the sample (R42). -/

namespace Sys2Proof.Machine

namespace State

variable (s : State) (g : Grp)

/-- Asking for the emergency mode changes at most the cause that is due in the group. -/
theorem askEmergency_group (cause : Nat) : ∃ e, (s.askEmergency g cause).groups[g] = { s.groups[g] with edue := e } := by
  unfold askEmergency
  split
  · exact ⟨_, vmod_same ..⟩
  · exact ⟨_, rfl⟩

@[simp] theorem askEmergency_mains (cause : Nat) : (s.askEmergency g cause).mains = s.mains := by
  unfold askEmergency
  split <;> rfl

@[simp] theorem askEmergency_nouns (cause : Nat) : (s.askEmergency g cause).nouns = s.nouns := by
  unfold askEmergency
  split <;> rfl

@[simp] theorem disarmEng_groups : s.disarmEng.groups = s.groups := rfl
@[simp] theorem disarmEng_mains : s.disarmEng.mains = s.mains := rfl
@[simp] theorem disarmEng_nouns : s.disarmEng.nouns = s.nouns := rfl

/-- An overrun is counted and noted, what still runs becomes stale, and at most the emergency mode is asked for (R42). -/
theorem overrun_group : ∃ e, (s.overrun g).groups[g] = { s.groups[g] with
    overruns := inc32 (s.groups[g]).overruns
    stale := (s.groups[g]).stale || (s.groups[g]).phase == .passing || (s.groups[g]).phase == .retrying
    overran := true
    edue := e } := by
  unfold overrun
  extract_lets q s1 s2
  have h1 : s1.groups[g] = { q with
      overruns := inc32 q.overruns
      stale := q.stale || q.phase == .passing || q.phase == .retrying
      overran := true } := by
    simp [s1, q]
  have h2 : ∃ e, s2.groups[g] = { s1.groups[g] with edue := e } := by
    unfold s2
    split
    · exact s1.askEmergency_group g 5
    · exact ⟨_, rfl⟩
  obtain ⟨e, he⟩ := h2
  refine ⟨e, ?_⟩
  rw [h1] at he
  split
  · exact he
  · exact he

@[simp] theorem overrun_mains : (s.overrun g).mains = s.mains := by
  simp only [overrun, apply_ite State.mains, disarmEng_mains, askEmergency_mains, logEvent_mains, modGroup_mains, ite_self]

@[simp] theorem overrun_nouns : (s.overrun g).nouns = s.nouns := by
  simp only [overrun, apply_ite State.nouns, disarmEng_nouns, askEmergency_nouns, logEvent_nouns, modGroup_nouns, ite_self]

variable {s g}

/-- A committed sample leaves the deadline the exchange alone. -/
theorem exec_computeDeadline_committed (h : (s.groups[g]).phase = .none) :
    exec (.computeDeadline g) s = .next (s.sendExchange g false) := by
  show execComputeDeadline g s = _
  simp only [execComputeDeadline, h]

/-- A settled sample is repeated. -/
theorem exec_computeDeadline_settled (h : (s.groups[g]).phase = .settled) :
    exec (.computeDeadline g) s = .next ((s.repeatSample g).sendExchange g true) := by
  show execComputeDeadline g s = _
  simp only [execComputeDeadline, h]

/-- A sample in any other phase is an overrun. -/
theorem exec_computeDeadline_overrun (hnone : (s.groups[g]).phase ≠ .none) (hsettled : (s.groups[g]).phase ≠ .settled) :
    exec (.computeDeadline g) s = .next (((s.overrun g).repeatSample g).sendExchange g true) := by
  show execComputeDeadline g s = _
  unfold execComputeDeadline
  split
  · next h => exact absurd h hnone
  · next h => exact absurd h hsettled
  · rfl

end State

open State

/-- Settles O21: one branch of the deadline for each phase of the sample, and the overrun's effect on its group. -/
theorem deadlineAbandonsTheSample : Obligations.DeadlineAbandonsTheSample := by
  intro g s q
  refine ⟨exec_computeDeadline_committed, exec_computeDeadline_settled, fun hnone hsettled => ?_⟩
  obtain ⟨e, hgroup⟩ := s.overrun_group g
  refine ⟨exec_computeDeadline_overrun hnone hsettled, ?_⟩
  rw [hgroup]
  exact ⟨rfl, rfl, by simp [q, or_assoc], overrun_mains .., overrun_nouns ..⟩

end Sys2Proof.Machine
end

section
/-! Proofs: the STO groups one by one (R287, R292): what changes one of them, and what the outputs that follow leave alone. -/

namespace Sys2Proof.Machine

namespace State

/-- What every step of a fold over a range keeps, the fold keeps. -/
theorem eachFin_keeps {P : State → Prop} {n : Nat} {f : State → Fin n → State} {s : State}
    (hf : ∀ z b, P z → P (f z b)) (h : P s) :
    P (eachFin n f s) :=
  List.foldlRecOn _ f h fun z hz b _ => hf z b hz

variable (s : State) {i k : StoNo}

/-! ## One group -/

@[simp] theorem modSto_groups (f : StoSt → StoSt) : (s.modSto i f).safety.groups = vmod s.safety.groups i f := rfl
@[simp] theorem modBrake_groups (b : Fin 4) (f : OutSt → OutSt) : (s.modBrake b f).safety.groups = s.safety.groups := rfl
@[simp] theorem modContactor_groups (c : Fin 4) (f : OutSt → OutSt) : (s.modContactor c f).safety.groups = s.safety.groups := rfl

@[simp] theorem voidPulse_groups (o : SafeOut) : (s.voidPulse o).safety.groups = s.safety.groups := by
  unfold voidPulse
  split <;> rfl

@[simp] theorem driveSto_groups (on : Bool) :
    (s.driveSto i on).safety.groups = vmod s.safety.groups i fun x => { x with sto := on } := by
  unfold driveSto
  extract_lets was s1
  split
  · exact voidPulse_groups ..
  · rfl

/-- A group whose torque goes off at once takes the state and the cause given, with its STO de-energised. -/
theorem stoOff_group_same (st : SState) (cause : Option Nat) : (s.stoOff i st cause).safety.groups[i] =
    { s.safety.groups[i] with
      state := st
      cause := cause.getD (s.safety.groups[i]).cause
      sto := false
      stopReq := false
      waitBrakes := 0 } := by
  simp only [stoOff, driveSto_groups, modSto_groups, vmod_same]

theorem stoOff_group_other (h : i ≠ k) (st : SState) (cause : Option Nat) :
    (s.stoOff i st cause).safety.groups[k] = s.safety.groups[k] := by
  simp only [stoOff, driveSto_groups, modSto_groups, vmod_other _ _ h]

/-! ## The outputs follow -/

theorem unpark_groups (b : Fin 4) : (s.unpark b).safety.groups = s.safety.groups := by
  unfold unpark
  extract_lets other
  split
  · refine eachFin_keeps (P := fun z => z.safety.groups = s.safety.groups) (fun z m hz => ?_) rfl
    split <;> exact hz
  · rfl

theorem driveBrake_groups (b : Fin 4) : (s.driveBrake b).safety.groups = s.safety.groups := by
  unfold driveBrake
  extract_lets on want s1
  split
  · exact voidPulse_groups ..
  · split
    · exact unpark_groups ..
    · rfl

theorem driveContactor_groups (c : Fin 4) : (s.driveContactor c).safety.groups = s.safety.groups := by
  unfold driveContactor
  extract_lets on want s1
  split
  · exact voidPulse_groups ..
  · rfl

/-- Brakes and contactors follow the groups, which stand. -/
@[simp] theorem driveOutputs_groups : s.driveOutputs.safety.groups = s.safety.groups := by
  have hbrakes : (eachFin 4 driveBrake s).safety.groups = s.safety.groups :=
    eachFin_keeps (P := fun z => z.safety.groups = s.safety.groups) (fun z b hz => (z.driveBrake_groups b).trans hz) rfl
  unfold driveOutputs
  exact eachFin_keeps (P := fun z => z.safety.groups = s.safety.groups) (fun z c hz => (z.driveContactor_groups c).trans hz) hbrakes

variable {s}

/-- The wait of one group leaves a group that does not wait alone. -/
theorem settleWait_group (h : stoWaits s.safety.groups[k] = false) : (s.settleWait i).safety.groups[k] = s.safety.groups[k] := by
  unfold settleWait
  extract_lets x left s1
  split
  · next hwaits =>
    have hne : i ≠ k := by
      rintro rfl
      exact Bool.false_ne_true (h.symm.trans hwaits)
    have h1 : s1.safety.groups[k] = s.safety.groups[k] := vmod_other _ _ hne
    split
    · exact (s1.stoOff_group_other hne ..).trans h1
    · exact h1
  · rfl

/-- What follows in the channel leaves a group that waits for no brake alone. -/
theorem settleSafety_group (h : stoWaits s.safety.groups[k] = false) : s.settleSafety.safety.groups[k] = s.safety.groups[k] := by
  unfold settleSafety
  rw [driveOutputs_groups]
  refine eachFin_keeps (P := fun z => z.safety.groups[k] = s.safety.groups[k]) (fun z i hz => ?_) ?_
  · exact (settleWait_group (hz ▸ h)).trans hz
  · rw [driveOutputs_groups]

/-! ## Several groups at once -/

/-- One step of a change to every STO group that meets a condition. -/
def modStoWhere (p : StoNo → StoSt → Prop) [∀ i x, Decidable (p i x)] (f : StoSt → StoSt) (z : State) (i : StoNo) : State :=
  if p i z.safety.groups[i] then z.modSto i f else z

section

variable {p : StoNo → StoSt → Prop} [∀ i x, Decidable (p i x)] {f : StoSt → StoSt}

theorem modStoWhere_group_same : (modStoWhere p f s i).safety.groups[i] =
    if p i s.safety.groups[i] then f s.safety.groups[i] else s.safety.groups[i] := by
  unfold modStoWhere
  split
  · exact vmod_same ..
  · rfl

theorem modStoWhere_group_other (h : i ≠ k) : (modStoWhere p f s i).safety.groups[k] = s.safety.groups[k] := by
  unfold modStoWhere
  split
  · exact vmod_other _ _ h
  · rfl

/-- Each group takes its own step of the fold and no other's. -/
theorem foldl_modStoWhere_group {l : List StoNo} (hl : l.Nodup) : (l.foldl (modStoWhere p f) s).safety.groups[k] =
    if k ∈ l ∧ p k s.safety.groups[k] then f s.safety.groups[k] else s.safety.groups[k] := by
  induction l generalizing s with
  | nil => simp
  | cons i r ih =>
    obtain ⟨hi, hr⟩ := List.nodup_cons.mp hl
    rw [List.foldl_cons, ih hr]
    by_cases hik : i = k
    · subst hik
      simp only [hi, modStoWhere_group_same, List.mem_cons, true_or, true_and, false_and, if_false]
    · simp [modStoWhere_group_other hik, Ne.symm hik]

theorem eachFin_modStoWhere_group : (eachFin 4 (modStoWhere p f) s).safety.groups[k] =
    if p k s.safety.groups[k] then f s.safety.groups[k] else s.safety.groups[k] := by
  rw [eachFin, fins, foldl_modStoWhere_group (List.nodup_finRange 4)]
  simp only [List.mem_finRange, true_and]

/-- The change touches the groups of the safety channel alone. -/
theorem eachFin_modStoWhere_frame : eachFin 4 (modStoWhere p f) s =
    { s with safety := { s.safety with groups := (eachFin 4 (modStoWhere p f) s).safety.groups } } := by
  refine eachFin_keeps (P := fun z => z = { s with safety := { s.safety with groups := z.safety.groups } }) (fun z i hz => ?_) rfl
  unfold modStoWhere
  split
  · rw [hz]; rfl
  · exact hz

end

end State

end Sys2Proof.Machine
end

section
/-! Proofs: SS1_TIME_ELAPSED, ESTOP_PAIR_DISCREPANCY and KEEPER_PORT_MESSAGE (R19, R296, R299, R301). -/

namespace Sys2Proof.Machine

namespace State

variable {s : State} {i k : StoNo}

/-! ## SS1_TIME_ELAPSED -/

theorem exec_ss1TimeElapsed_idle (h : (s.safety.groups[i]).state ≠ .ss1) : exec (.ss1TimeElapsed i) s = .next s := by
  show execSs1TimeElapsed i s = _
  rw [execSs1TimeElapsed, if_neg h]

/-- Without BRAKE-FIRST a group that ends SS1 goes to torque-off at once, and the channel follows (R287, R296). -/
theorem exec_ss1TimeElapsed_stops (h : (s.safety.groups[i]).state = .ss1) (hseq : s.sNoun i 3 ≠ 1) :
    exec (.ss1TimeElapsed i) s = .next (s.stoOff i .latched
      (if s.sNoun i 5 = 1 ∧ s.sNoun i 0 ≠ 0 then some causeSs1Timeout else none)).settleSafety := by
  show execSs1TimeElapsed i s = _
  rw [execSs1TimeElapsed, if_pos h, torqueOff, if_neg (by simp [hseq])]

/-- A group that goes to LATCHED at once stays there, with its STO off and its cause, whatever follows in the channel. -/
theorem settleSafety_stoOff_latched (cause : Option Nat) : (s.stoOff i .latched cause).settleSafety.safety.groups[i] =
    { s.safety.groups[i] with
      state := .latched
      cause := cause.getD (s.safety.groups[i]).cause
      sto := false
      stopReq := false
      waitBrakes := 0 } := by
  have hwaits : stoWaits (s.stoOff i .latched cause).safety.groups[i] = false := by
    rw [stoOff_group_same]
    rfl
  rw [settleSafety_group hwaits, stoOff_group_same]

theorem exec_ss1TimeElapsed_latches (h : (s.safety.groups[i]).state = .ss1) (hseq : s.sNoun i 3 ≠ 1) :
    ∃ t, exec (.ss1TimeElapsed i) s = .next t ∧ (t.safety.groups[i]).state = .latched ∧ (t.safety.groups[i]).sto = false ∧
      (t.safety.groups[i]).cause = (if s.sNoun i 5 = 1 ∧ s.sNoun i 0 ≠ 0 then 6 else (s.safety.groups[i]).cause) := by
  refine ⟨_, exec_ss1TimeElapsed_stops h hseq, ?_⟩
  rw [settleSafety_stoOff_latched]
  refine ⟨rfl, rfl, ?_⟩
  split <;> rfl

/-! ## ESTOP_PAIR_DISCREPANCY -/

/-- A lasting difference of the paired inputs sets PAIRERR and gives its cause to every mapped group that is not in FAULT (R299). -/
theorem exec_estopPairDiscrepancy_differs (hpair : s.safeNoun 0x6F01 = 1)
    (hdiff : (s.safety.estop[0]).level ≠ (s.safety.estop[1]).level) :
    exec .estopPairDiscrepancy s = .next (eachFin 4
      (modStoWhere (fun i x => bitAt (s.safeNounN 0x6600) i.val = true ∧ x.state ≠ .fault) fun q => { q with cause := causePair })
      (s.modSafety fun q => { q with pairErr := true })) := by
  show execEstopPairDiscrepancy s = _
  rw [execEstopPairDiscrepancy, if_pos ⟨hpair, hdiff⟩]
  rfl

theorem exec_estopPairDiscrepancy_pairs (hpair : s.safeNoun 0x6F01 = 1)
    (hdiff : (s.safety.estop[0]).level ≠ (s.safety.estop[1]).level) :
    ∃ t, exec .estopPairDiscrepancy s = .next t ∧ t.safety.pairErr = true ∧
      (∀ k : StoNo, t.safety.groups[k] = if bitAt (s.safeNounN 0x6600) k.val = true ∧ (s.safety.groups[k]).state ≠ .fault then
        { s.safety.groups[k] with cause := 9 } else s.safety.groups[k]) ∧
      t = { s with safety := { s.safety with pairErr := true, groups := t.safety.groups } } := by
  refine ⟨_, exec_estopPairDiscrepancy_differs hpair hdiff, ?_, fun k => eachFin_modStoWhere_group, eachFin_modStoWhere_frame⟩
  rw [eachFin_modStoWhere_frame]
  rfl

theorem exec_estopPairDiscrepancy_idle
    (h : s.safeNoun 0x6F01 ≠ 1 ∨ (s.safety.estop[0]).level = (s.safety.estop[1]).level) :
    exec .estopPairDiscrepancy s = .next s := by
  show execEstopPairDiscrepancy s = _
  rw [execEstopPairDiscrepancy, if_neg fun hboth => h.elim (absurd hboth.1) hboth.2]

/-! ## KEEPER_PORT_MESSAGE -/

/-- Completing the ticket there may be changes the mailbox alone. -/
theorem finishOpt_frame (s : State) (t : Option Nat) (st : Nat) : s.finishOpt t st = { s with mail := (s.finishOpt t st).mail } := by
  cases t with
  | none => rfl
  | some t => exact s.finish_frame t st []

/-- A message that fails a check is discarded and logged (R19). -/
theorem exec_keeperPortMessage_failed {c q : Bool} (h : (c && q) = false) (p : KeeperPayload) :
    ∃ e n, exec (.keeperPortMessage c q p) s = .next (s.drawn.logEvent e n 0x6F0F) := by
  refine ⟨(Config.freeValue s.free % 5).toNat, (Config.freeValue s.free / 5 % 65536).toNat, ?_⟩
  show execKeeperPortMessage c q p s = _
  unfold execKeeperPortMessage
  rw [if_pos (by simp [h])]
  rfl

/-- The answer to a reset request that passed its checks: the reset where the source allows it, then the ticket's end (R301). -/
theorem exec_resetRequest (s : State) : ∃ status, exec (.keeperPortMessage true true .resetRequest) s =
    .next ((if s.safeNoun 0x6F03 = 0 then (s, false) else s.acceptReset).1.finishOpt (s.keeperTicket 0x6F04) status) := ⟨_, rfl⟩

/-- A reset takes exactly the LATCHED groups that no active E-stop maps to OFF (R301). -/
theorem acceptReset_groups (h : s.safety.pairErr = false) : s.acceptReset.1 =
    eachFin 4 (modStoWhere (fun i _ => ((s.safety.groups[i]).state == .latched && !s.estopHolds i) = true)
      fun q => { q with state := .off }) s := by
  unfold acceptReset
  rw [if_neg (by simp [h])]
  exact List.foldl_filter ..

theorem exec_resetRequest_accepted (hsource : s.safeNoun 0x6F03 ≠ 0) (hpair : s.safety.pairErr = false) :
    ∃ t, exec (.keeperPortMessage true true .resetRequest) s = .next t ∧
      (∀ k : StoNo, t.safety.groups[k] = if (s.safety.groups[k]).state = .latched ∧ s.estopHolds k = false then
        { s.safety.groups[k] with state := .off } else s.safety.groups[k]) ∧ t = { s with safety := t.safety, mail := t.mail } := by
  obtain ⟨status, hexec⟩ := exec_resetRequest s
  rw [if_neg hsource, acceptReset_groups hpair] at hexec
  refine ⟨_, hexec, fun k => ?_, ?_⟩
  · rw [finishOpt_safety, eachFin_modStoWhere_group]
    simp
  · rw [finishOpt_frame, eachFin_modStoWhere_frame]

/-- A reset request that the source or an outstanding pairing error forbids changes no group (R299, R301). -/
theorem exec_resetRequest_refused (h : s.safeNoun 0x6F03 = 0 ∨ s.safety.pairErr = true) :
    ∃ t, exec (.keeperPortMessage true true .resetRequest) s = .next t ∧ t = { s with mail := t.mail } := by
  obtain ⟨status, hexec⟩ := exec_resetRequest s
  have hstands : (if s.safeNoun 0x6F03 = 0 then (s, false) else s.acceptReset).1 = s := by
    split
    · rfl
    · next hsource => rw [acceptReset, if_pos (h.resolve_left hsource)]
  rw [hstands] at hexec
  exact ⟨_, hexec, finishOpt_frame ..⟩

end State

open State

/-- Settles O38: the end of SS1, the pairing error and each kind of keeper port message, by the lemma of its case. -/
theorem stopTimesPairingAndKeeperMessagesAreTaken : Obligations.StopTimesPairingAndKeeperMessagesAreTaken := by
  intro i s
  exact ⟨exec_ss1TimeElapsed_idle, exec_ss1TimeElapsed_latches, exec_estopPairDiscrepancy_pairs, exec_estopPairDiscrepancy_idle,
    rfl, fun _ => rfl, fun _ _ p h => exec_keeperPortMessage_failed h p, exec_resetRequest_accepted, exec_resetRequest_refused⟩

end Sys2Proof.Machine
end

section
/-! Proofs: what changes at one main axis, in the log and in the mailbox alone, and the entry to STOPPED-FAULT (R51, R68, R70). -/

namespace Sys2Proof.Machine

/-- CHECK runs with the gates off. -/
theorem CState.ne_check_of_gated {c : CState} (h : c.gated = true) : c ≠ .check := by
  rintro rfl
  exact Bool.false_ne_true h

namespace State

/-- One state differs from another at most in main axis `m`, the log and the mailbox. -/
def OnlyAxis (m : Main) (s t : State) : Prop :=
  (∀ k, k ≠ m → t.mains[k] = s.mains[k]) ∧ t = { s with mains := t.mains, log := t.log, mail := t.mail }

variable {s t u : State} {m : Main}

/-! ## Changes of one main axis -/

theorem modMain_main_same (s : State) (m : Main) (f : MainAxis → MainAxis) : (s.modMain m f).mains[m] = f s.mains[m] :=
  vmod_same s.mains m f

/-- A change of a main axis is known by what it leaves in the axis. -/
theorem modMain_eq_modMain_const (s : State) (m : Main) (f : MainAxis → MainAxis) :
    s.modMain m f = s.modMain m fun _ => (s.modMain m f).mains[m] := by
  rw [modMain_main_same]
  rfl

/-! ## The start's ticket -/

theorem failStart_ticket {n : Nat} (h : (s.mains[m]).startTicket = some n) (starting : Bool) (status : Nat) :
    s.failStart m starting status = (s.finish n status).modMain m fun a => { a with startTicket := none } := by
  simp only [failStart, h]

theorem failStart_noTicket (h : (s.mains[m]).startTicket = none) (starting : Bool) (status : Nat) :
    s.failStart m starting status = if starting then s.dropTicket (.main m) status else s := by
  simp only [failStart, h]

/-- Ending the ticket of a start touches neither the commutation state nor the drive of the axis. -/
theorem failStart_main (s : State) (m : Main) (starting : Bool) (status : Nat) :
    ((s.failStart m starting status).mains[m]).comm = (s.mains[m]).comm ∧
      ((s.failStart m starting status).mains[m]).drive = (s.mains[m]).drive := by
  cases hticket : (s.mains[m]).startTicket with
  | some n =>
    rw [failStart_ticket hticket, modMain_main_same, finish_mains]
    exact ⟨rfl, rfl⟩
  | none =>
    rw [failStart_noTicket hticket]
    split
    · rw [dropTicket, modGen, modMain_main_same, finishOpt_mains]
      exact ⟨rfl, rfl⟩
    · exact ⟨rfl, rfl⟩

/-! ## Operations that change no more than one axis -/

namespace OnlyAxis

theorem refl (m : Main) (s : State) : OnlyAxis m s s := ⟨fun _ _ => rfl, rfl⟩

theorem trans (hst : OnlyAxis m s t) (htu : OnlyAxis m t u) : OnlyAxis m s u := by
  obtain ⟨hmains, hrest⟩ := hst
  obtain ⟨hmains', hrest'⟩ := htu
  exact ⟨fun k hk => (hmains' k hk).trans (hmains k hk), by rw [hrest', hrest]⟩

theorem modMain (h : OnlyAxis m s t) (f : MainAxis → MainAxis) : OnlyAxis m s (t.modMain m f) :=
  h.trans ⟨fun _ hk => vmod_other _ _ hk.symm, rfl⟩

theorem finish (h : OnlyAxis m s t) (n st : Nat) : OnlyAxis m s (t.finish n st) := by
  refine h.trans ?_
  rw [finish_frame]
  exact ⟨fun _ _ => rfl, rfl⟩

theorem finishOpt (h : OnlyAxis m s t) (n : Option Nat) (st : Nat) : OnlyAxis m s (t.finishOpt n st) := by
  cases n with
  | none => exact h
  | some n => exact h.finish n st

theorem logEvent (h : OnlyAxis m s t) (sev code object : Nat) (d0 : Int) (sample : Nat) :
    OnlyAxis m s (t.logEvent sev code object d0 sample) := by
  refine h.trans ?_
  unfold State.logEvent
  split <;> exact ⟨fun _ _ => rfl, rfl⟩

theorem dropTicket (h : OnlyAxis m s t) (status : Nat) : OnlyAxis m s (t.dropTicket (.main m) status) :=
  (h.finishOpt _ status).modMain _

theorem failStart (h : OnlyAxis m s t) (starting : Bool) (status : Nat) : OnlyAxis m s (t.failStart m starting status) := by
  cases hticket : (t.mains[m]).startTicket with
  | some n =>
    rw [failStart_ticket hticket]
    exact (h.finish n status).modMain _
  | none =>
    rw [failStart_noTicket hticket]
    split
    · exact h.dropTicket status
    · exact h

theorem gatesOff (h : OnlyAxis m s t) : OnlyAxis m s (t.gatesOff m) := (h.modMain _).modMain _

end OnlyAxis

/-! ## STOPPED-FAULT -/

/-- Only CHECK measures offsets (R102). -/
theorem endOffsets_of_not_check (h : (s.mains[m]).comm.state ≠ .check) (full : Bool) : s.endOffsets m full = s :=
  if_neg fun hcheck => h hcheck.1

/-- The commutation state of an axis that has entered STOPPED-FAULT. -/
def faultedComm (c : CommSt) (why : StopReason) : CommSt :=
  { freshComm c .stoppedFault .none with release := false, reason := why, parked := none }

/-- Outside CHECK, entering STOPPED-FAULT turns the gates off, stops the axis, ends its start and logs the reason (R68, R70). -/
theorem enterRest_stoppedFault (h : (s.mains[m]).comm.state ≠ .check) (why : StopReason) : ∃ was sample,
    s.enterRest m .stoppedFault why = ((((s.gatesOff m).modComm m fun c => { freshComm c .stoppedFault .none with release := false }
      ).modComm m fun c => { c with reason := why, parked := none }).failStart m was stStartFailed).logEvent
        sevDetected 0x0201 (objMain m) why.code sample := by
  unfold enterRest
  rw [endOffsets_of_not_check h]
  exact ⟨_, _, rfl⟩

theorem enterRest_stoppedFault_main (h : (s.mains[m]).comm.state ≠ .check) (why : StopReason) :
    ((s.enterRest m .stoppedFault why).mains[m]).comm = faultedComm (s.mains[m]).comm why ∧
      ((s.enterRest m .stoppedFault why).mains[m]).drive =
        { (s.mains[m]).drive with gates := false, gatesNext := false, floating := none } := by
  obtain ⟨was, sample, heq⟩ := enterRest_stoppedFault h why
  rw [heq, logEvent_mains, (failStart_main ..).1, (failStart_main ..).2]
  simp [gatesOff, faultedComm, freshComm]

theorem enterRest_stoppedFault_onlyAxis (h : (s.mains[m]).comm.state ≠ .check) (why : StopReason) :
    OnlyAxis m s (s.enterRest m .stoppedFault why) := by
  obtain ⟨was, sample, heq⟩ := enterRest_stoppedFault h why
  rw [heq]
  exact (((((OnlyAxis.refl m s).gatesOff).modMain _).modMain _).failStart was _).logEvent ..

/-- Without a winch's brake, torque is removed at once (R72). -/
theorem leaveTorque_of_no_winchBrake {run : AxisRun} (h : s.winchBrake run.m = false) (g : Grp) (st : CState) (why : StopReason) :
    s.leaveTorque g run st why = s.enterRest run.m st why := by
  unfold leaveTorque
  exact if_neg (by simp [h])

/-! ## SPEED_LIMIT -/

/-- At 8 samples over the limit, a gated axis without a winch's brake enters STOPPED-FAULT, in the engine's run or not (R51). -/
theorem exec_speedLimit_stops (hgated : (s.mains[m]).comm.state.gated = true) (hover : 8 ≤ (s.mains[m]).comm.overspeed)
    (hbrake : s.winchBrake m = false) : exec (.speedLimit m) s = .next (s.enterRest m .stoppedFault .speedLimit) := by
  show execSpeedLimit m s = _
  rw [execSpeedLimit, if_pos ⟨hgated, hover⟩]
  split
  next run hfind =>
    have hm : run.m = m := by simpa using List.find?_some hfind
    rw [leaveTorque_of_no_winchBrake (hm ▸ hbrake), hm]
  · rfl

end State

open State

/-- Settles O12: the axis enters STOPPED-FAULT at once, and entering it from a gated state, which is not CHECK, changes the axis,
the log and the mailbox alone. -/
theorem overspeedStopsTheAxis : Obligations.OverspeedStopsTheAxis := by
  intro m s hgated hover hbrake
  have hcheck : (s.mains[m]).comm.state ≠ .check := CState.ne_check_of_gated hgated
  obtain ⟨hcomm, hdrive⟩ := enterRest_stoppedFault_main hcheck .speedLimit
  obtain ⟨hothers, hframe⟩ := enterRest_stoppedFault_onlyAxis hcheck .speedLimit
  refine ⟨_, exec_speedLimit_stops hgated hover hbrake, ?_, ?_, ?_, ?_, ?_, hothers, hframe⟩
  · rw [hcomm]; rfl
  · rw [hcomm]; rfl
  · rw [hcomm]; rfl
  · rw [hcomm]; rfl
  · rw [hdrive]

end Sys2Proof.Machine
end

section
/-! Proofs: the timers of the commutation states mark a transition due (R67 to R76). -/

namespace Sys2Proof.Machine

namespace State

variable {s : State} {m : Main}

/-- A timer acts in the states it times and is idle in every other: `p` says in plain terms which these are. -/
theorem raise_eq_ite {ok : CommSt → Bool} {p : Prop} [Decidable p] (h : ok (s.mains[m]).comm = true ↔ p) (f : CommSt → CommSt) :
    s.raise m ok f = if p then s.modComm m f else s :=
  if_congr h rfl rfl

/-- A timer of one state acts in that state alone. -/
theorem raise_of_state (st : CState) (f : CommSt → CommSt) :
    s.raise m (fun c => c.state == st) f = if (s.mains[m]).comm.state = st then s.modComm m f else s :=
  raise_eq_ite (ok := fun c => c.state == st) beq_iff_eq f

/-- The hold of a healthy sensor matters in RUN from another source (R67). -/
theorem exec_sensorHealthyHold (m : Main) (s : State) : exec (.sensorHealthyHold m) s =
    .next (if s.sensorOk m = true ∧ (s.mains[m]).comm.state = .run ∧ (s.mains[m]).comm.source ≠ .sensor then
      s.modComm m fun c => { c with dueHealthy := true } else s) := by
  show execSensorHealthyHold m s = _
  rw [execSensorHealthyHold, ite_and]
  congr 2
  exact raise_eq_ite (by simp) _

end State

open State

/-- Settles O11: each timer raises its flag where its states hold. -/
theorem commutationTimersRaiseTheirTransition : Obligations.CommutationTimersRaiseTheirTransition := by
  intro m s st
  refine ⟨congrArg _ (raise_of_state _ _), congrArg _ (raise_of_state _ _), congrArg _ (raise_eq_ite ?parison _),
    congrArg _ (raise_of_state _ _), congrArg _ (raise_of_state _ _), congrArg _ (raise_of_state _ _),
    congrArg _ (raise_eq_ite ?lossBrake _), exec_sensorHealthyHold m s, congrArg _ (raise_of_state _ _)⟩
  case parison => simp [st]
  case lossBrake => simp [st]

end Sys2Proof.Machine
end

section
/-! Proofs: a handover without agreement is settled by its policy (R73, R141). -/

namespace Sys2Proof.Machine

namespace State

variable {s : State} {m : Main}

/-! ## MODE_DEFERRAL_EXPIRY -/

section
variable {h : ModeHandover} (hh : (s.mains[m]).eng.handover = some h) (hblend : h.blend = none) (hcount : 64 ≤ h.count)
include hh hblend hcount

theorem exec_modeDeferralExpiry_due : exec (.modeDeferralExpiry m) s =
    .next (if s.mNoun m 0x32 = 0 then s.modEng m fun e => { e with handover := some { h with blend := some 0 } }
      else (s.modEng m fun e => { e with handover := none }).finish h.ticket stHandoverAborted) := by
  show execModeDeferralExpiry m s = _
  simp only [execModeDeferralExpiry, hh]
  rw [if_pos ⟨hblend, hcount⟩]

theorem exec_modeDeferralExpiry_blends (hpolicy : s.mNoun m 0x32 = 0) : exec (.modeDeferralExpiry m) s =
    .next (s.modEng m fun e => { e with handover := some { h with blend := some 0 } }) := by
  rw [exec_modeDeferralExpiry_due hh hblend hcount, if_pos hpolicy]

theorem exec_modeDeferralExpiry_aborts (hpolicy : s.mNoun m 0x32 ≠ 0) : exec (.modeDeferralExpiry m) s =
    .next ((s.modEng m fun e => { e with handover := none }).finish h.ticket stHandoverAborted) := by
  rw [exec_modeDeferralExpiry_due hh hblend hcount, if_neg hpolicy]

end

/-! ## HANDOVER_DEFERRAL_EXPIRY -/

/-- What an axis's new commutation state determines, it determines of the whole machine. -/
theorem exists_next_modComm {o : Out} {f : CommSt → CommSt} (h : o = .next (s.modComm m f)) :
    ∃ t, o = .next t ∧ (t.mains[m]).comm = f (s.mains[m]).comm ∧ t = s.modMain m fun _ => t.mains[m] :=
  ⟨_, h, congrArg MainAxis.comm (s.modMain_main_same m _), s.modMain_eq_modMain_const m _⟩

section
variable (hstate : (s.mains[m]).comm.state = .handover) (hblend : (s.mains[m]).comm.blend = none) (hlate : 64 < (s.mains[m]).comm.samples)
include hstate hblend hlate

theorem exec_handoverDeferralExpiry_blends (hpolicy : s.mNoun m 0x11 = 0) : exec (.handoverDeferralExpiry m) s =
    .next (s.modComm m fun c => { c with blend := some 0 }) := by
  show execHandoverDeferralExpiry m s = _
  rw [execHandoverDeferralExpiry, if_pos ⟨hstate, hblend, hlate⟩, if_pos hpolicy]

/-- Under ABORT a handover from RUN goes back to RUN on the old source (R73). -/
theorem exec_handoverDeferralExpiry_run (hpolicy : s.mNoun m 0x11 ≠ 0) (hfrom : (s.mains[m]).comm.fromParison = false) :
    exec (.handoverDeferralExpiry m) s = .next (s.modComm m fun c => { freshComm c .run c.source with holdoff := 256 }) := by
  show execHandoverDeferralExpiry m s = _
  rw [execHandoverDeferralExpiry, if_pos ⟨hstate, hblend, hlate⟩, if_neg hpolicy, if_neg (Bool.eq_false_iff.mp hfrom)]

/-- Under ABORT a handover from PARISON with a retry left goes back to PARISON (R73). -/
theorem exec_handoverDeferralExpiry_parison (hpolicy : s.mNoun m 0x11 ≠ 0) (hfrom : (s.mains[m]).comm.fromParison = true)
    (hretry : ((s.mains[m]).comm.retries : Int) + 1 ≤ s.mNoun m 0x12) : exec (.handoverDeferralExpiry m) s =
    .next (s.modComm m fun c => { freshComm c .parison .parison with
      holdoff := 256, retries := c.retries + 1, dueParison := c.dueParison }) := by
  show execHandoverDeferralExpiry m s = _
  rw [execHandoverDeferralExpiry, if_pos ⟨hstate, hblend, hlate⟩, if_neg hpolicy, if_pos hfrom, if_pos hretry]

end

end State

open State

/-- Settles O13: each handover by the lemma of its policy and of the state it came from. -/
theorem handoversAreSettledByPolicy : Obligations.HandoversAreSettledByPolicy := by
  intro m s c
  refine ⟨fun h hh hblend hcount => ⟨exec_modeDeferralExpiry_blends hh hblend hcount, exec_modeDeferralExpiry_aborts hh hblend hcount⟩,
    fun hstate hblend hlate => ⟨exec_handoverDeferralExpiry_blends hstate hblend hlate, fun hpolicy hfrom => ?_,
      fun hpolicy hfrom hretry => ?_⟩⟩
  · obtain ⟨t, hexec, hcomm, hframe⟩ := exists_next_modComm (exec_handoverDeferralExpiry_run hstate hblend hlate hpolicy hfrom)
    refine ⟨t, hexec, ?_, ?_, ?_, hframe⟩
    · rw [hcomm]; rfl
    · rw [hcomm]; rfl
    · rw [hcomm]
  · obtain ⟨t, hexec, hcomm, hframe⟩ := exists_next_modComm
      (exec_handoverDeferralExpiry_parison hstate hblend hlate hpolicy hfrom hretry)
    refine ⟨t, hexec, ?_, ?_, ?_, hframe⟩
    · rw [hcomm]; rfl
    · rw [hcomm]
    · rw [hcomm]

end Sys2Proof.Machine
end

section
/-! Proofs: a stuck bitstream and the first transition after it (R98). -/

namespace Sys2Proof.Machine

namespace State

variable {ch k : Fin 32} {s : State}

@[simp] theorem setStuck_stuck_same (b : Bool) : (s.setStuck ch b).sense.stuck[ch] = b :=
  Vector.getElem_set_self ch.isLt

theorem setStuck_stuck_other (h : k ≠ ch) (b : Bool) : (s.setStuck ch b).sense.stuck[k] = s.sense.stuck[k] :=
  Vector.getElem_set_ne ch.isLt k.isLt (Fin.val_ne_of_ne h.symm)

/-- The end of a stuck state changes no more than the stuck states: the window now open stays unclean. -/
theorem setStuck_false_frame (ch : Fin 32) (s : State) : s.setStuck ch false =
    { s with sense := { s.sense with stuck := (s.setStuck ch false).sense.stuck } } := rfl

theorem exec_bitstreamStuck_link {l : LinkNo} (hlink : linkOfChannel ch = some l) (hphase : axisOfChannel ch = none) :
    exec (.bitstreamStuck ch) s = .next ((s.setStuck ch true).modLink l fun x =>
      if ch.val % 2 = 0 then { x with vStuck := true, vValid := false } else { x with iStuck := true, iValid := false }) := by
  show execBitstreamStuck ch s = _
  rw [execBitstreamStuck, hphase, hlink]

theorem exec_bitstreamUnstuck (ch : Fin 32) (s : State) : exec (.bitstreamUnstuck ch) s = .next (s.setStuck ch false) := rfl

end State

open State

/-- Settles O17: a link's channel takes the link's branch, and the first transition takes the one stuck state back. -/
theorem linkChannelsGoInvalidWhileStuck : Obligations.LinkChannelsGoInvalidWhileStuck := by
  intro ch s
  constructor
  · intro l hlink hphase
    exact exec_bitstreamStuck_link hlink hphase
  · refine ⟨s.setStuck ch false, exec_bitstreamUnstuck ch s, setStuck_stuck_same false, ?_, setStuck_false_frame ch s⟩
    intro k hk
    exact setStuck_stuck_other hk false

end Sys2Proof.Machine
end

section
/-! Proofs: the invariant holds at reset, and every step that goes on keeps it (R130, R333, R336, R357, R488). -/

namespace Sys2Proof.Machine

/-- A sparse list that lists no cell is in canonical form. -/
theorem Canon.nil {α : Type} (d : α) : Canon d [] := ⟨trivial, fun _ h => absurd h List.not_mem_nil⟩

namespace State

/-- A reset mailbox holds no ticket and remembers none. -/
theorem reset_mail_inv : reset.mail.Inv := ⟨Nat.zero_le 32, Nat.zero_le 64, fun _ h => absurd h List.not_mem_nil⟩

/-- Both logs are empty at reset. -/
theorem reset_log_inv : reset.log.Inv := ⟨Nat.zero_le 4096, Nat.zero_le 512⟩

/-- The gather FIFO is empty at reset. -/
theorem reset_gff_inv : reset.gff.Inv := Nat.zero_le 8192

/-- The roster is empty at reset. -/
theorem reset_roster_inv : reset.roster.Inv := ⟨trivial, Nat.zero_le 2048⟩

/-- A reset group's queue is empty. -/
theorem reset_group_inv (g : Grp) : (reset.groups[g]).Inv := by
  simp [Group.Inv, reset]

theorem reset_inv : reset.Inv :=
  ⟨reset_mail_inv, reset_log_inv, reset_gff_inv, ⟨.nil 0, .nil 0⟩, reset_roster_inv, .nil 0, trivial, trivial, trivial,
    reset_group_inv⟩

/-- The invariant does not speak of the waiting commands. -/
theorem inv_pending_iff (s : State) (l : List Instr) : ({ s with pending := l } : State).Inv ↔ s.Inv := Iff.rfl

/-- What a command answers meets the invariant. -/
theorem exec_inv {c : Instr} {s t : State} (hs : s.Inv) (hexec : exec c s = .next t) : t.Inv := by
  obtain ⟨u, hu, hkept⟩ := (exec_kept (Kept.start hs) c).answers
  obtain rfl : u = t := Host.Outcome.next.inj (hu.symm.trans hexec)
  exact hkept.inv

end State

open State

/-- Settles O3: every list that the invariant bounds is empty at reset, and so is the queue of commands. -/
theorem resetMeetsTheInvariant : Obligations.ResetMeetsTheInvariant := ⟨reset_inv, rfl⟩

/-- Settles O4: an idle step answers the state itself, any other what its front command answers on the queue's rest. -/
theorem everyStepKeepsTheInvariant : Obligations.EveryStepKeepsTheInvariant := by
  intro s t hs hstep
  unfold step at hstep
  split at hstep
  next =>
    obtain rfl : s = t := Host.Outcome.next.inj hstep
    exact hs
  next c rest _ => exact exec_inv ((inv_pending_iff s rest).mpr hs) hstep

end Sys2Proof.Machine
end

section
/-! Proofs: a following error at its time (R143, R144, R387). -/

namespace Sys2Proof.Machine

namespace State

/-- The state with the axis's FERR set and its following error logged (R144). -/
def ferrReported (s : State) (m : Main) : State :=
  (s.modEng m fun e => { e with ferr := true }).logEvent sevWarn 0x0401 (objMain m) (s.mains[m]).eng.ferrValue
    (s.groups[s.groupOr0 m]).sample.toNat

section
variable {m : Main} {s : State}
variable (hcount : 0 < (s.mains[m]).eng.ferrCount)
  (htime : ceilDiv (s.mNoun m 0x39 * 100000) (s.tsNs (s.groupOr0 m)) ≤ (s.mains[m]).eng.ferrCount)
  (hclear : (s.mains[m]).eng.ferr = false)
include hcount htime hclear

/-- A count at its time on an axis whose FERR is clear is reported and then acted on by the noun of the action. -/
theorem exec_followingError_due : exec (.followingError m) s = .next (
    if s.mNoun m 0x3A = 1 then (s.ferrReported m).modGroup (s.groupOr0 m) fun q =>
      { q with orders := q.orders ++ [(none, .internalHalt (.main m))] }
    else if s.mNoun m 0x3A = 2 then (s.ferrReported m).modGroup (s.groupOr0 m) fun q => { q with edue := some (q.edue.getD 6) }
    else s.ferrReported m) := by
  show execFollowingError m s = _
  rw [execFollowingError, if_pos ⟨hcount, .inr ⟨htime, hclear⟩⟩]
  rfl

theorem exec_followingError_report (haction : s.mNoun m 0x3A = 0) :
    exec (.followingError m) s = .next (s.ferrReported m) := by
  simp [exec_followingError_due hcount htime hclear, haction]

theorem exec_followingError_halt (haction : s.mNoun m 0x3A = 1) : exec (.followingError m) s =
    .next ((s.ferrReported m).modGroup (s.groupOr0 m) fun q =>
      { q with orders := q.orders ++ [(none, .internalHalt (.main m))] }) := by
  simp [exec_followingError_due hcount htime hclear, haction]

theorem exec_followingError_emergency (haction : s.mNoun m 0x3A = 2) : exec (.followingError m) s =
    .next ((s.ferrReported m).modGroup (s.groupOr0 m) fun q => { q with edue := some (q.edue.getD 6) }) := by
  simp [exec_followingError_due hcount htime hclear, haction]

end

end State

open State

/-- Settles O14: one branch of the report for each of the three actions. -/
theorem followingErrorIsReportedAndActedOn : Obligations.FollowingErrorIsReportedAndActedOn := by
  intro m s g s1 hcount htime hclear
  exact ⟨exec_followingError_report hcount htime hclear, exec_followingError_halt hcount htime hclear,
    exec_followingError_emergency hcount htime hclear⟩

end Sys2Proof.Machine
end

section
/-! Proofs: WRITE and SWAP of blocks, and the end of a bank's validation (R127, R130, R131, R133, R217, R388). -/

namespace Sys2Proof.Machine

/-- A list whose conditions all fail refuses nothing. -/
theorem firstRefusal_eq_none {l : List (Bool × Nat)} (h : ∀ p ∈ l, p.1 = false) : firstRefusal l = none := by
  simpa [firstRefusal] using fun c st hp => h (c, st) hp

/-! ## Words in consecutive cells -/

/-- Words stored from cell `k` leave every cell outside them. -/
theorem sget_sputs_outside {l : List (Nat × Word)} {k j : Nat} {ws : List Word} (h : j < k ∨ k + ws.length ≤ j) :
    sget 0 (sputs l k ws) j = sget 0 l j := by
  induction ws generalizing l k with
  | nil => rfl
  | cons w r ih =>
    rw [List.length_cons] at h
    rw [sputs, ih (by omega), sget_sput_ne _ _ _ (by omega)]

/-- Words stored from cell `k` are read back in order. -/
theorem sget_sputs_inside {l : List (Nat × Word)} {k i j : Nat} {ws : List Word} (h : Rising 0 l) (hi : i < ws.length)
    (hj : j = k + i) : sget 0 (sputs l k ws) j = ws.getD i 0 := by
  induction ws generalizing l k i with
  | nil => exact absurd hi (Nat.not_lt_zero i)
  | cons w r ih =>
    rw [sputs]
    cases i with
    | zero => rw [sget_sputs_outside (by omega), hj, Nat.add_zero, sget_sput_self 0 k w h, List.getD_cons_zero]
    | succ i => exact ih (sput_rising k w h) (Nat.lt_of_succ_lt_succ hi) (by omega)

namespace State

/-! ## Words in consecutive entries of a microstep table -/

section
variable {s : State} {tb i j off : Nat}

theorem tableEntry_setTableEntry_same (h : Rising 0 s.tables) (w : Word) : (s.setTableEntry tb i w).tableEntry tb i = w :=
  sget_sput_self _ _ w h

theorem tableEntry_setTableEntry_other (h : j ≠ i) (w : Word) : (s.setTableEntry tb i w).tableEntry tb j = s.tableEntry tb j := by
  have hcell : tb * 256 + j ≠ tb * 256 + i := by omega
  unfold tableEntry setTableEntry sput
  split
  · exact sget_sdel_ne _ _ hcell
  · exact sget_sins_ne _ _ w hcell

/-- The words of a list, numbered from `n`, stored in a table from entry `off + n`. -/
def setTableEntries (s : State) (tb off n : Nat) (ws : List Word) : State :=
  (ws.zipIdx n).foldl (fun z p => z.setTableEntry tb (off + p.2) p.1) s

theorem setTableEntries_cons (n : Nat) (w : Word) (ws : List Word) :
    s.setTableEntries tb off n (w :: ws) = (s.setTableEntry tb (off + n) w).setTableEntries tb off (n + 1) ws := rfl

/-- Storing entries changes the tables alone. -/
theorem setTableEntries_frame (s : State) (tb off n : Nat) (ws : List Word) :
    s.setTableEntries tb off n ws = { s with tables := (s.setTableEntries tb off n ws).tables } := by
  induction ws generalizing s n with
  | nil => rfl
  | cons w r ih => rw [setTableEntries_cons, ih]; rfl

/-- The entries in front of the words stand. -/
theorem tableEntry_setTableEntries_before {n : Nat} {ws : List Word} (h : j < off + n) :
    (s.setTableEntries tb off n ws).tableEntry tb j = s.tableEntry tb j := by
  induction ws generalizing s n with
  | nil => rfl
  | cons w r ih => rw [setTableEntries_cons, ih (by omega), tableEntry_setTableEntry_other (by omega)]

/-- The words are read back in order. -/
theorem tableEntry_setTableEntries_inside {n : Nat} {ws : List Word} (h : Rising 0 s.tables) (hi : i < ws.length)
    (hj : j = off + n + i) : (s.setTableEntries tb off n ws).tableEntry tb j = ws.getD i 0 := by
  induction ws generalizing s n i with
  | nil => exact absurd hi (Nat.not_lt_zero i)
  | cons w r ih =>
    rw [setTableEntries_cons]
    cases i with
    | zero =>
      rw [tableEntry_setTableEntries_before (by omega), hj, Nat.add_zero, tableEntry_setTableEntry_same h, List.getD_cons_zero]
    | succ i => exact ih (sput_rising _ w h) (Nat.lt_of_succ_lt_succ hi) (by omega)

end

/-! ## Tickets that begin to run or end -/

/-- A completion puts into the mailbox what it would put there in any state with the same mailbox. -/
theorem finish_frame_of_mail {s z : State} (h : z.mail = s.mail) (n st : Nat) (ws : List Word) :
    z.finish n st ws = { z with mail := (s.finish n st ws).mail } := by
  rw [finish_frame, finish_mail_congr h]

/-- A ticket's begin changes the mailbox alone. -/
theorem present_running_frame (s : State) (n : Nat) :
    (s.present n).running n = { s with mail := ((s.present n).running n).mail } := by
  unfold present
  split
  · split <;> rfl
  · rfl

/-! ## WRITE -/

/-- A noun with a table entry on the member is known. -/
theorem known_of_present {s : State} {id : Nat} (h : nounSpec s.member id ≠ none) : s.unknown id = false := by
  cases hspec : nounSpec s.member id with
  | none => exact absurd hspec h
  | some p => simp [unknown, hspec]

section
variable {s : State} {k : Ticket} {g : Grp}
variable (hn : 1 ≤ k.sent.payload.length) (hn12 : k.sent.payload.length ≤ 12)
include hn hn12

theorem writeTable_accepted {tb : Fin 8} (harg : k.sent.arg + k.sent.payload.length ≤ 256) (hused : s.tableUsed tb = false) :
    s.writeTable k tb = { s with
      tables := (s.setTableEntries tb.val k.sent.arg 0 k.sent.payload).tables
      mail := (s.finish k.num stDone [BitVec.ofNat 32 k.sent.payload.length]).mail } := by
  have hne : k.sent.payload ≠ [] := List.ne_nil_of_length_pos hn
  have hfree : s.writeTable k tb = (s.setTableEntries tb.val k.sent.arg 0 k.sent.payload).finish k.num stDone
      [BitVec.ofNat 32 k.sent.payload.length] := by
    unfold writeTable
    extract_lets x n
    rw [firstRefusal_eq_none]
    · rfl
    · have hlt : k.sent.arg < 256 := by omega
      simpa [hused, hne, x, n] using ⟨⟨hlt, hn12⟩, harg⟩
  have hmail : (s.setTableEntries tb.val k.sent.arg 0 k.sent.payload).mail = s.mail := by rw [setTableEntries_frame]
  rw [hfree, finish_frame_of_mail hmail, setTableEntries_frame]

theorem writeStaging_accepted (harg : k.sent.arg + k.sent.payload.length ≤ imageMax) :
    s.writeStaging k = { s with
      store := { s.store with staged := sputs s.store.staged k.sent.arg k.sent.payload }
      mail := (s.finish k.num stDone [BitVec.ofNat 32 k.sent.payload.length]).mail } := by
  have hne : k.sent.payload ≠ [] := List.ne_nil_of_length_pos hn
  have hbit : k.sent.arg.testBit 15 = false := Nat.testBit_lt_two_pow (by unfold imageMax at harg; omega)
  have hfree : s.writeStaging k = ({ s with store := { s.store with staged := sputs s.store.staged k.sent.arg k.sent.payload }
      }).finish k.num stDone [BitVec.ofNat 32 k.sent.payload.length] := by
    unfold writeStaging
    extract_lets x n
    rw [firstRefusal_eq_none]
    simpa [bitAt, hbit, hne, x, n] using ⟨hn12, harg⟩
  exact hfree.trans (finish_frame_of_mail (by rfl) ..)

/-- A WRITE of the active bank of a stopped group's region waits for room, and then queues its words. -/
theorem writeRegion_stopped (hbank : k.sent.arg < 8192) (harg : k.sent.arg + k.sent.payload.length ≤ s.gNounN g 0x09)
    (hstop : s.groupStopped g = true) : s.writeRegion k g =
      if s.queueRoom g < k.sent.payload.length then s
      else ((s.present k.num).running k.num).modGroup g fun q =>
        { q with queue := q.queue ++ writeEntries k.num 0 k.sent.arg k.sent.payload } := by
  have hne : k.sent.payload ≠ [] := List.ne_nil_of_length_pos hn
  have hbit : k.sent.arg.testBit 13 = false := Nat.testBit_lt_two_pow hbank
  have hsel : bitsOf k.sent.arg 14 2 = 0 := by unfold bitsOf; omega
  have hoff : bitsOf k.sent.arg 0 13 = k.sent.arg := by unfold bitsOf; omega
  unfold writeRegion
  simp only [hsel, hoff]
  rw [firstRefusal_eq_none]
  simpa [bitAt, hbit, hstop, hne] using ⟨hn12, harg⟩

end

section
variable {s : State} {k : Ticket} {t : BitVec 16} {g : Grp}
variable (hd : s.due? t.toNat 0x03 = some k) (hp : nounSpec s.member k.sent.noun ≠ none)
include hd hp

theorem exec_write_table {tb : Fin 8} (hc : nounClass k.sent.noun = some (.table tb)) :
    exec (.write t) s = .next (s.writeTable k tb) := by
  show execWrite t s = _
  simp [execWrite, hd, known_of_present hp, hc]

theorem exec_write_staging (hc : nounClass k.sent.noun = some (.store 0)) : exec (.write t) s = .next (s.writeStaging k) := by
  show execWrite t s = _
  simp [execWrite, hd, known_of_present hp, hc]

theorem exec_write_region (hc : nounClass k.sent.noun = some (.region g)) : exec (.write t) s = .next (s.writeRegion k g) := by
  show execWrite t s = _
  simp [execWrite, hd, known_of_present hp, hc]

end

/-! ## A SWAP at the head of the queue -/

section
variable (s : State) (g : Grp)

/-- Taking up the SWAP at the head changes at most where the group's swap stands. -/
theorem advanceSwap_group : ∃ p, (s.advanceSwap g).groups[g] = { s.groups[g] with swapPhase := p } := by
  unfold advanceSwap
  split
  · split
    · exact ⟨_, vmod_same ..⟩
    · exact ⟨_, rfl⟩
  · exact ⟨_, rfl⟩

theorem advanceSwap_group_other {j : Grp} (h : j ≠ g) : (s.advanceSwap g).groups[j] = s.groups[j] := by
  unfold advanceSwap
  split
  · split
    · exact vmod_other _ _ h.symm
    · rfl
  · rfl

theorem advanceSwap_frame : s.advanceSwap g = { s with groups := (s.advanceSwap g).groups } := by
  unfold advanceSwap
  split
  · split <;> rfl
  · rfl

theorem advanceSwap_modeBusy : (s.advanceSwap g).modeBusy g = s.modeBusy g := by
  rw [advanceSwap_frame]
  rfl

variable {s g}

/-- A SWAP at the head that nothing holds back goes to validation (R133). -/
theorem advanceSwap_validates {n : Nat} {o : Bool} {r : List QEntry} (hq : (s.groups[g]).queue = .swap n o :: r)
    (hidle : (s.groups[g]).swapPhase = .idle) (hbusy : s.modeBusy g = false) :
    s.advanceSwap g = s.modGroup g fun q => { q with swapPhase := .validating } := by
  unfold advanceSwap
  rw [hq]
  exact if_pos ⟨hidle, hbusy⟩

end

/-! ## SWAP -/

section
variable {s : State} {k : Ticket} {t : BitVec 16} {g : Grp}

/-- The state with a SWAP behind a group's queue. -/
def swapQueued (s : State) (k : Ticket) (g : Grp) : State :=
  ((s.present k.num).running k.num).modGroup g fun q =>
    { q with queue := q.queue ++ [.swap k.num ((k.sent.payload.headD 0).toNat == 1)] }

/-- A well-formed SWAP of a region waits for room, is queued and is taken up where it is at the head. -/
theorem exec_swap (hd : s.due? t.toNat 0x04 = some k) (hc : nounClass k.sent.noun = some (.region g))
    (hp : nounSpec s.member k.sent.noun ≠ none) (harg : k.sent.arg = 0) (hlen : k.sent.payload.length ≤ 1)
    (hkind : (k.sent.payload.headD 0).toNat < 2) :
    exec (.swap t) s = .next (if s.queueRoom g = 0 then s else (s.swapQueued k g).advanceSwap g) := by
  have hformat : ¬(k.sent.arg ≠ 0 ∨ 1 < k.sent.payload.length ∨ 2 ≤ (k.sent.payload.headD 0).toNat) := by omega
  show execSwap t s = _
  unfold execSwap
  simp only [hd, known_of_present hp, hc, if_neg hformat]
  rfl

theorem swapQueued_group : (s.swapQueued k g).groups[g] = { s.groups[g] with
    queue := (s.groups[g]).queue ++ [.swap k.num ((k.sent.payload.headD 0).toNat == 1)] } := by
  simp [swapQueued]

theorem swapQueued_group_other {j : Grp} (h : j ≠ g) : (s.swapQueued k g).groups[j] = s.groups[j] := by
  rw [swapQueued, modGroup_groups, vmod_other _ _ h.symm, running_groups, present_groups]

theorem swapQueued_frame : s.swapQueued k g =
    { s with groups := (s.swapQueued k g).groups, mail := (s.swapQueued k g).mail } := by
  rw [swapQueued, present_running_frame]
  rfl

end

/-! ## SWAP_VALIDATION_DONE -/

section
variable {s : State} {g : Grp}

/-- Both banks hold the header words of the active bank's programme alike (R133). -/
def SameHeaders (s : State) (g : Grp) : Prop :=
  ∀ i ∈ headerWords (s.programme g (s.groups[g]).bank1) (s.nAux g),
    s.region g (s.groups[g]).bank1 i = s.region g (!(s.groups[g]).bank1) i

theorem all_headers_iff : ((headerWords (s.programme g (s.groups[g]).bank1) (s.nAux g)).all fun i =>
    s.region g (s.groups[g]).bank1 i == s.region g (!(s.groups[g]).bank1) i) = true ↔ s.SameHeaders g := by
  simp only [SameHeaders, List.all_eq_true, beq_iff_eq]

theorem exec_swapValidationDone_idle (h : (s.groups[g]).swapPhase ≠ .validating) : exec (.swapValidationDone g) s = .next s := by
  show execSwapValidationDone g s = _
  unfold execSwapValidationDone
  extract_lets q
  split
  · rw [if_neg h]
  · rfl

/-- The state with a group's SWAP dropped from its queue, refused and flagged. -/
def swapDropped (s : State) (g : Grp) (n : Nat) (r : List QEntry) : State :=
  (s.modGroup g fun q => { q with queue := r, swapPhase := .idle, chkFail := true }).finish n stCheck

variable {n : Nat} {o : Bool} {r : List QEntry} (hq : (s.groups[g]).queue = .swap n o :: r)
  (hphase : (s.groups[g]).swapPhase = .validating)
include hq hphase

theorem exec_swapValidationDone_valid (hvalid : s.bankValid g (!(s.groups[g]).bank1) = true)
    (hsame : (s.groups[g]).running = false ∨ s.SameHeaders g) :
    exec (.swapValidationDone g) s = .next (s.modGroup g fun q => { q with swapPhase := .validated }) := by
  show execSwapValidationDone g s = _
  unfold execSwapValidationDone
  simp only [hq]
  rw [if_pos hphase, if_pos]
  simp only [Bool.and_eq_true, Bool.or_eq_true, Bool.not_eq_true', all_headers_iff]
  exact ⟨hvalid, hsame.symm⟩

theorem exec_swapValidationDone_invalid
    (h : s.bankValid g (!(s.groups[g]).bank1) = false ∨ ((s.groups[g]).running = true ∧ ¬s.SameHeaders g)) :
    exec (.swapValidationDone g) s = .next ((s.swapDropped g n r).advanceSwap g) := by
  show execSwapValidationDone g s = _
  unfold execSwapValidationDone
  simp only [hq]
  rw [if_pos hphase, if_neg]
  · rfl
  · simp only [Bool.and_eq_true, Bool.or_eq_true, Bool.not_eq_true', all_headers_iff]
    rintro ⟨hvalid, hsame⟩
    rcases h with hbad | ⟨hrun, hdiffer⟩
    · exact Bool.false_ne_true (hbad.symm.trans hvalid)
    · exact hsame.elim hdiffer fun hstopped => Bool.false_ne_true (hstopped.symm.trans hrun)

end

theorem swapDropped_group (s : State) (g : Grp) (n : Nat) (r : List QEntry) : (s.swapDropped g n r).groups[g] =
    { s.groups[g] with queue := r, swapPhase := .idle, chkFail := true } := by
  simp [swapDropped]

theorem swapDropped_group_other (s : State) {g j : Grp} (h : j ≠ g) (n : Nat) (r : List QEntry) :
    (s.swapDropped g n r).groups[j] = s.groups[j] := by
  rw [swapDropped, finish_groups, modGroup_groups, vmod_other _ _ h.symm]

theorem swapDropped_mail (s : State) (g : Grp) (n : Nat) (r : List QEntry) :
    (s.swapDropped g n r).mail = (s.finish n stCheck).mail :=
  finish_mail_congr (modGroup_mail ..) n stCheck []

end State

open State

/-- Settles O49: each accepted WRITE and SWAP by the lemma of what it stores or queues, each end of a validation by its
branch. -/
theorem blocksAreWrittenAndSwapped : Obligations.BlocksAreWrittenAndSwapped := by
  intro t g s k x n q
  refine ⟨fun hd hn hn12 hp => ⟨fun tb hc harg hused hrising => ?table, fun hc harg hcanon => ?staging,
      fun hc hbank harg hstop => ?region⟩,
    fun hd hc hp harg hlen hkind => ?swap, exec_swapValidationDone_idle,
    fun n' o r hq hphase => ⟨exec_swapValidationDone_valid hq hphase, fun hbad => ?dropped⟩⟩
  case table =>
    refine ⟨_, (exec_write_table hd hp hc).trans (congrArg _ (writeTable_accepted hn hn12 harg hused)), fun i hi => ?_, rfl⟩
    exact tableEntry_setTableEntries_inside hrising hi rfl
  case staging =>
    exact ⟨_, (exec_write_staging hd hp hc).trans (congrArg _ (writeStaging_accepted hn hn12 harg)),
      fun i hi => sget_sputs_inside hcanon.1 hi rfl, fun j hj => sget_sputs_outside hj, rfl⟩
  case region =>
    have hexec := (exec_write_region hd hp hc).trans (congrArg _ (writeRegion_stopped hn hn12 hbank harg hstop))
    refine ⟨fun hfull => hexec.trans (congrArg _ (if_pos hfull)), fun hroom =>
      ⟨_, hexec.trans (congrArg _ (if_neg (Nat.not_lt.mpr hroom))), ?_, fun j hj => ?_, ?_⟩⟩
    · simp [q, x]
    · rw [modGroup_groups, vmod_other _ _ hj.symm, running_groups, present_groups]
    · rw [present_running_frame]
      rfl
  case swap =>
    have hexec := exec_swap hd hc hp harg hlen hkind
    refine ⟨fun hfull => hexec.trans (congrArg _ (if_pos hfull)), fun hroom =>
      ⟨_, hexec.trans (congrArg _ (if_neg hroom)), ?_, fun hempty hidle hbusy => ?_, fun j hj => ?_, ?_⟩⟩
    · obtain ⟨p, hgroup⟩ := (s.swapQueued k g).advanceSwap_group g
      rw [hgroup, swapQueued_group]
    · have hqueue : (s.swapQueued k g).groups[g].queue = [.swap k.num ((k.sent.payload.headD 0).toNat == 1)] := by
        rw [swapQueued_group, hempty, List.nil_append]
      have hphase : (s.swapQueued k g).groups[g].swapPhase = .idle := by
        rw [swapQueued_group]
        exact hidle
      rw [advanceSwap_validates hqueue hphase ((advanceSwap_modeBusy ..).symm.trans hbusy), modGroup_groups, vmod_same]
    · rw [advanceSwap_group_other _ _ hj, swapQueued_group_other hj]
    · rw [advanceSwap_frame, swapQueued_frame]
  case dropped =>
    obtain ⟨p, hgroup⟩ := (s.swapDropped g n' r).advanceSwap_group g
    refine ⟨_, exec_swapValidationDone_invalid hq hphase hbad, ?_, ?_, ?_, fun j hj => ?_⟩
    · rw [hgroup, swapDropped_group]
    · rw [hgroup, swapDropped_group]
    · rw [advanceSwap_frame]
      exact swapDropped_mail s g n' r
    · rw [advanceSwap_group_other _ _ hj, swapDropped_group_other s hj]

end Sys2Proof.Machine
end

section
/-! Proofs: the timers of the yield states, of the host tension and of a moving target end (R150, R163, R165, R196). -/

namespace Sys2Proof.Machine

namespace State

/-- One state differs from another at most in its main and auxiliary axes. -/
def OnlyAxes (s t : State) : Prop := t = { s with mains := t.mains, auxs := t.auxs }

variable {s t : State} {g : Grp}

/-! ## The generators plan again -/

theorem OnlyAxes.refl (s : State) : OnlyAxes s s := rfl

theorem OnlyAxes.modGen (h : OnlyAxes s t) (x : GenId) (f : GenSt → GenSt) : OnlyAxes s (t.modGen x f) := by
  cases x with
  | main m => exact congrArg (·.modMain m fun a => { a with gen := f a.gen }) h
  | aux a => exact congrArg (·.modAux a fun v => { v with gen := f v.gen }) h

theorem OnlyAxes.groups_eq (h : OnlyAxes s t) : t.groups = s.groups := by
  rw [h]

/-- The return to ARMED replans one generator of the group after the other, and a generator is part of its axis (R165). -/
theorem leaveDrum_onlyAxes (s : State) (g : Grp) : OnlyAxes s (s.leaveDrum g) := by
  refine List.foldlRecOn _ _ (OnlyAxes.refl s) fun w hw x _ => ?_
  dsimp only
  split
  · split
    · exact hw.modGen x _
    · exact hw.modGen x _
  · exact hw

theorem leaveDrum_groups (s : State) (g : Grp) : (s.leaveDrum g).groups = s.groups :=
  (s.leaveDrum_onlyAxes g).groups_eq

/-! ## The yield states -/

/-- A dwell at or below the release level ends the yield (R163). -/
theorem exec_releaseDwellExpiry_recovers (hstate : (s.groups[g]).yield.state = .yield) (hvalid : (s.groups[g]).yield.tValid = true)
    (hlow : (s.groups[g]).yield.tension * 100 ≤ s.gNoun g 0x19 * s.gNoun g 0x1A) : exec (.releaseDwellExpiry g) s =
    .next (s.modYield g fun y => { y with state := .recover, recTicks := 0, entryCap := openRound (s.iYield g) }) := by
  show execReleaseDwellExpiry g s = _
  rw [execReleaseDwellExpiry, if_pos ⟨hstate, hvalid, hlow⟩]

/-- The recovery time ends RECOVER, and the generators leave the drum (R163, R165). -/
theorem exec_recoveryTimeExpiry_ends (hstate : (s.groups[g]).yield.state = .recover) : exec (.recoveryTimeExpiry g) s =
    .next ((s.modYield g fun y => { y with state := s.recoverEnd g }).leaveDrum g) := by
  show execRecoveryTimeExpiry g s = _
  rw [execRecoveryTimeExpiry, if_pos hstate]

theorem exec_hostTensionExpiry (g : Grp) (s : State) : exec (.hostTensionExpiry g) s =
    .next (s.modYield g fun y => { y with hostValid := false }) := rfl

/-! ## The moving target -/

theorem exec_trackTimeout_track {x : GenId} (hkind : (s.gen x).kind = .track) : exec (.trackTimeout x) s =
    .next (s.modGen x fun o => { o with rate := 0 }) := by
  show execTrackTimeout x s = _
  rw [execTrackTimeout, if_pos hkind]

end State

open State

/-- Settles O8: each timer by the lemma of its end; the end of RECOVER changes the group's yield state, and what follows in it
changes the axes alone. -/
theorem yieldAndTrackTimersEnd : Obligations.YieldAndTrackTimersEnd := by
  intro g x s
  refine ⟨exec_releaseDwellExpiry_recovers, fun hstate => ⟨_, exec_recoveryTimeExpiry_ends hstate, ?_, fun h hne => ?_, ?_⟩,
    exec_hostTensionExpiry g s, exec_trackTimeout_track⟩
  · rw [leaveDrum_groups, modYield_groups, vmod_same]
  · rw [leaveDrum_groups, modYield_groups, vmod_other _ _ hne.symm]
  · rw [leaveDrum_groups]
    exact leaveDrum_onlyAxes _ g

end Sys2Proof.Machine
end

section
/-! Proofs: the loss-minimising search at the end of a window (R168). -/

namespace Sys2Proof.Machine

namespace State

/-- The mean power of the samples in a search window. -/
def windowMean (x : ShareSt) : Rat := (x.lmSum : Rat) / x.lmCount

/-- The direction of the next step: kept where the mean fell by more than 0.1 % of the window before's, `p` (R168). -/
def searchDir (x : ShareSt) (p : Rat) : Int := if windowMean x < p - absR p / 1000 then x.lmDir else -x.lmDir

section
variable {s : State} {m : Main} (hon : s.mNoun m 0x44 = 1) (hcount : 0 < (s.mains[m]).share.lmCount)
include hon hcount

/-- A window that counts, after one that counted, takes one bounded step. -/
theorem exec_excitationSearchWindow_steps {p : Rat} (hvalid : (s.mains[m]).share.lmValid = true)
    (hprev : (s.mains[m]).share.lmPrev = some p) : exec (.excitationSearchWindow m) s = .next (s.modShare m fun y => { y with
      lmSum := 0
      lmCount := 0
      lmValid := true
      lmPrev := some (windowMean (s.mains[m]).share)
      lmHold := false
      lmDir := searchDir (s.mains[m]).share p
      lmPart := clampI (-(s.pctRated m (s.mNoun m 0x47))) 0
        (y.lmPart + searchDir (s.mains[m]).share p * truncDiv (s.rated m * s.mNoun m 0x45) 1000) }) := by
  show execExcitationSearchWindow m s = _
  simp only [execExcitationSearchWindow, hprev]
  rw [if_pos ⟨hon, hcount⟩, if_pos hvalid]
  rfl

/-- A window that does not count holds the search. -/
theorem exec_excitationSearchWindow_holds (hvalid : (s.mains[m]).share.lmValid = false) : exec (.excitationSearchWindow m) s =
    .next (s.modShare m fun y => { y with lmSum := 0, lmCount := 0, lmValid := true, lmHold := true, lmPrev := none }) := by
  show execExcitationSearchWindow m s = _
  rw [execExcitationSearchWindow, if_pos ⟨hon, hcount⟩, if_neg (Bool.eq_false_iff.mp hvalid)]

end

end State

open State

/-- Settles O15: a window that counts takes one step, any other holds the search. -/
theorem lossMinimisingSearchStepsEachWindow : Obligations.LossMinimisingSearchStepsEachWindow := by
  intro m s hon hcount x mean
  constructor
  · intro p hvalid hprev
    exact exec_excitationSearchWindow_steps hon hcount hvalid hprev
  · intro hvalid
    exact exec_excitationSearchWindow_holds hon hcount hvalid

end Sys2Proof.Machine
end

section
/-! Proofs: the switch filter takes each switch for itself, and CHATTER ends when its time is over (R233, R272). -/

namespace Sys2Proof.Machine

section
variable {σ α : Type} {n : Nat} {f : σ → Fin n → σ} {view : Fin n → σ → α} {step : Fin n → α → α}
variable (hsame : ∀ z i, view i (f z i) = step i (view i z)) (hother : ∀ z i j, i ≠ j → view j (f z i) = view j z)
include hsame hother

/-- A fold whose step at `i` acts on the view of `i` alone gives each place it passes its own step once. -/
theorem foldl_view {l : List (Fin n)} (hl : l.Nodup) (s : σ) (j : Fin n) :
    view j (l.foldl f s) = if j ∈ l then step j (view j s) else view j s := by
  induction l generalizing s with
  | nil => simp
  | cons i r ih =>
    obtain ⟨hi, hr⟩ := List.nodup_cons.mp hl
    rw [List.foldl_cons, ih hr]
    by_cases hij : i = j
    · subst hij
      simp [hi, hsame]
    · simp [hother s i j hij, Ne.symm hij]

theorem eachFin_view (s : σ) (j : Fin n) : view j (eachFin n f s) = step j (view j s) := by
  rw [eachFin, fins, foldl_view hsame hother (List.nodup_finRange n), if_pos (List.mem_finRange j)]

end

/-- The word with bit `i` alone. -/
theorem getLsbD_one_shiftLeft (i j : Fin 24) : (1#24 <<< i.val).getLsbD j.val = decide (i = j) := by
  rw [← BitVec.twoPow_eq, BitVec.getLsbD_twoPow]
  simp [Fin.ext_iff]

/-! ## One switch -/

/-- What the filter knows of one switch: its filtered level and edge flag, the count against the level, and the filter value. -/
structure SwitchLine where
  level : Bool
  edge : Bool
  held : Nat
  filter : Nat

/-- One raw sample of the switch (R272). -/
def SwitchLine.sample (raw : Bool) (l : SwitchLine) : SwitchLine :=
  if raw = l.level then { l with held := 0 }
  else if maxI 1 l.filter ≤ (l.held + 1 : Nat) then { l with level := raw, edge := true, held := 0 }
  else { l with held := l.held + 1 }

namespace SwitchLine

variable {raw : Bool} {l : SwitchLine}

theorem sample_of_eq (h : raw = l.level) : l.sample raw = { l with held := 0 } := if_pos h

theorem sample_of_turns (h : raw ≠ l.level) (hturns : maxI 1 l.filter ≤ (l.held + 1 : Nat)) :
    l.sample raw = { l with level := raw, edge := true, held := 0 } := by
  rw [sample, if_neg h, if_pos hturns]

theorem sample_of_counts (h : raw ≠ l.level) (hcounts : ¬maxI 1 l.filter ≤ (l.held + 1 : Nat)) :
    l.sample raw = { l with held := l.held + 1 } := by
  rw [sample, if_neg h, if_neg hcounts]

end SwitchLine

/-- The line of switch `i`. -/
def SwitchSt.line (i : Fin 24) (w : SwitchSt) : SwitchLine where
  level := w.level.getLsbD i.val
  edge := w.edge.getLsbD i.val
  held := w.held[i]
  filter := (w.filter[i]).toNat

namespace SwitchSt

variable (w : SwitchSt) {i j : Fin 24}

theorem line_setHeld_same (k : Nat) : line i { w with held := w.held.set i k } = { line i w with held := k } := by
  simp [line]

theorem line_setHeld_other (h : i ≠ j) (k : Nat) : line j { w with held := w.held.set i k } = line j w := by
  simp [line, Fin.val_ne_of_ne h]

/-- The switches with the level of switch `i` turned: its count restarts and its edge flag is set. -/
def turned (i : Fin 24) (times : Vector (List Nat) 24) (chatter : BitVec 24) : SwitchSt :=
  { w with level := w.level ^^^ (1#24 <<< i.val), held := w.held.set i 0, edge := w.edge ||| (1#24 <<< i.val), times, chatter }

theorem line_turned_same (times : Vector (List Nat) 24) (chatter : BitVec 24) :
    line i (w.turned i times chatter) = { line i w with level := !(line i w).level, edge := true, held := 0 } := by
  simp [line, turned]

theorem line_turned_other (h : i ≠ j) (times : Vector (List Nat) 24) (chatter : BitVec 24) :
    line j (w.turned i times chatter) = line j w := by
  simp only [line, turned, BitVec.getLsbD_xor, BitVec.getLsbD_or, getLsbD_one_shiftLeft, decide_eq_false h, Bool.xor_false,
    Bool.or_false]
  simp [Fin.val_ne_of_ne h]

end SwitchSt

namespace State

variable {s t u : State} {i j : Fin 24}

/-! ## What a sample leaves alone -/

theorem gffSwitch_frame (s : State) (i : Fin 24) (cd6 : Nat) (active : Bool) :
    s.gffSwitch i cd6 active = { s with gff := (s.gffSwitch i cd6 active).gff } := by
  unfold gffSwitch
  split
  · split <;> rfl
  · rfl

/-- One state differs from another at most in the switches, the log, the mailbox and the gather FIFO. -/
def SwitchFrame (s t : State) : Prop := t = { s with switches := t.switches, log := t.log, mail := t.mail, gff := t.gff }

namespace SwitchFrame

theorem refl (s : State) : SwitchFrame s s := rfl

theorem trans (hst : SwitchFrame s t) (htu : SwitchFrame t u) : SwitchFrame s u := by
  unfold SwitchFrame at *
  rw [htu, hst]

theorem setSwitches (h : SwitchFrame s t) (w : SwitchSt) : SwitchFrame s { t with switches := w } :=
  h.trans rfl

theorem gffSwitch (h : SwitchFrame s t) (i : Fin 24) (cd6 : Nat) (active : Bool) : SwitchFrame s (t.gffSwitch i cd6 active) := by
  refine h.trans ?_
  unfold SwitchFrame
  rw [gffSwitch_frame]

theorem logEvent (h : SwitchFrame s t) (sev code object : Nat) (d0 : Int) : SwitchFrame s (t.logEvent sev code object d0) := by
  refine h.trans ?_
  unfold State.logEvent
  split <;> rfl

end SwitchFrame

@[simp] theorem gffSwitch_switches (s : State) (i : Fin 24) (cd6 : Nat) (active : Bool) :
    (s.gffSwitch i cd6 active).switches = s.switches := by
  rw [gffSwitch_frame]

theorem switchTurn_frame (s : State) (i : Fin 24) (cd6 : Nat) : SwitchFrame s (s.switchTurn i cd6) := by
  unfold switchTurn
  extract_lets w lv times many s1 s2
  have hgather : SwitchFrame s s2 := ((SwitchFrame.refl s).setSwitches _).gffSwitch ..
  split
  · exact (hgather.setSwitches _).logEvent ..
  · exact hgather

/-- A transition turns its switch, perhaps into CHATTER, and takes no other switch out of it (R233). -/
theorem switchTurn_switches (s : State) (i : Fin 24) (cd6 : Nat) : ∃ times chatter,
    (s.switchTurn i cd6).switches = s.switches.turned i times chatter ∧
    ∀ j : Fin 24, s.switches.chatter.getLsbD j.val = true → chatter.getLsbD j.val = true := by
  unfold switchTurn
  extract_lets w lv times many s1 s2
  have hgather : s2.switches = w.turned i (w.times.set i times) w.chatter := gffSwitch_switches ..
  split
  · refine ⟨w.times.set i times, w.chatter ||| (1#24 <<< i.val), ?_, fun j h => by simp [w, h]⟩
    exact (logEvent_switches ..).trans
      (congrArg (fun x : SwitchSt => { x with chatter := x.chatter ||| (1#24 <<< i.val) }) hgather)
  · exact ⟨_, _, hgather, fun _ h => h⟩

theorem switchBit_frame (s : State) (i : Fin 24) (raw : Bool) (cd6 : Nat) : SwitchFrame s (s.switchBit i raw cd6) := by
  unfold switchBit
  extract_lets w k
  split
  · rfl
  · split
    · exact s.switchTurn_frame i cd6
    · rfl

/-- The sample counter stands and CHATTER of no switch clears. -/
def KeepsChatter (s t : State) : Prop := t.switches.samples = s.switches.samples ∧
  ∀ j : Fin 24, s.switches.chatter.getLsbD j.val = true → t.switches.chatter.getLsbD j.val = true

theorem KeepsChatter.refl (s : State) : KeepsChatter s s := ⟨rfl, fun _ h => h⟩

theorem KeepsChatter.trans : KeepsChatter s t → KeepsChatter t u → KeepsChatter s u
  | ⟨hsamples, hchatter⟩, ⟨hsamples', hchatter'⟩ => ⟨hsamples'.trans hsamples, fun j h => hchatter' j (hchatter j h)⟩

theorem switchBit_keepsChatter (s : State) (i : Fin 24) (raw : Bool) (cd6 : Nat) : KeepsChatter s (s.switchBit i raw cd6) := by
  unfold switchBit
  extract_lets w k
  split
  · exact KeepsChatter.refl s
  · split
    · obtain ⟨times, chatter, heq, hchatter⟩ := s.switchTurn_switches i cd6
      unfold KeepsChatter
      rw [heq]
      exact ⟨rfl, hchatter⟩
    · exact KeepsChatter.refl s

/-! ## One raw sample of a switch -/

theorem switchTurn_line_same (s : State) (i : Fin 24) (cd6 : Nat) : (s.switchTurn i cd6).switches.line i =
    { s.switches.line i with level := !(s.switches.line i).level, edge := true, held := 0 } := by
  obtain ⟨times, chatter, heq, -⟩ := s.switchTurn_switches i cd6
  rw [heq]
  exact s.switches.line_turned_same times chatter

theorem switchTurn_line_other (s : State) (h : i ≠ j) (cd6 : Nat) : (s.switchTurn i cd6).switches.line j = s.switches.line j := by
  obtain ⟨times, chatter, heq, -⟩ := s.switchTurn_switches i cd6
  rw [heq]
  exact s.switches.line_turned_other h times chatter

/-- A raw sample acts on the line of its switch. -/
theorem switchBit_line_same (s : State) (i : Fin 24) (raw : Bool) (cd6 : Nat) :
    (s.switchBit i raw cd6).switches.line i = (s.switches.line i).sample raw := by
  unfold switchBit
  extract_lets w k
  split
  · next hequal => exact (w.line_setHeld_same 0).trans (SwitchLine.sample_of_eq (l := w.line i) hequal).symm
  · next hdiffers =>
    split
    · next hturns =>
      rw [SwitchLine.sample_of_turns (l := w.line i) hdiffers hturns, switchTurn_line_same, Bool.eq_not.mpr hdiffers]
      rfl
    · next hcounts =>
      exact (w.line_setHeld_same k).trans (SwitchLine.sample_of_counts (l := w.line i) hdiffers hcounts).symm

theorem switchBit_line_other (s : State) (h : i ≠ j) (raw : Bool) (cd6 : Nat) :
    (s.switchBit i raw cd6).switches.line j = s.switches.line j := by
  unfold switchBit
  extract_lets w k
  split
  · exact w.line_setHeld_other h 0
  · split
    · exact s.switchTurn_line_other h cd6
    · exact w.line_setHeld_other h k

/-! ## SWITCH_SAMPLE -/

/-- The state after the raw levels of all switches, before the sample is counted. -/
def switchBits (s : State) (levels : BitVec 24) (cd6 : Nat) : State :=
  eachFin 24 (fun z i => z.switchBit i (levels.getLsbD i.val) cd6) s

theorem exec_switchSample (s : State) (levels : BitVec 24) (cd6 : Nat) : exec (.switchSample levels cd6) s =
    .next { s.switchBits levels cd6 with
      switches := { (s.switchBits levels cd6).switches with samples := (s.switchBits levels cd6).switches.samples + 1 } } := rfl

theorem switchBits_frame (s : State) (levels : BitVec 24) (cd6 : Nat) : SwitchFrame s (s.switchBits levels cd6) :=
  eachFin_keeps (fun z i hz => hz.trans (z.switchBit_frame i _ cd6)) (SwitchFrame.refl s)

theorem switchBits_keepsChatter (s : State) (levels : BitVec 24) (cd6 : Nat) : KeepsChatter s (s.switchBits levels cd6) :=
  eachFin_keeps (fun z i hz => hz.trans (z.switchBit_keepsChatter i _ cd6)) (KeepsChatter.refl s)

theorem switchBits_line (s : State) (levels : BitVec 24) (cd6 : Nat) (j : Fin 24) :
    (s.switchBits levels cd6).switches.line j = (s.switches.line j).sample (levels.getLsbD j.val) :=
  eachFin_view (view := fun j z => z.switches.line j) (step := fun j => SwitchLine.sample (levels.getLsbD j.val))
    (fun z i => z.switchBit_line_same i _ cd6) (fun z _ _ h => z.switchBit_line_other h _ cd6) s j

/-! ## CHATTER_CLEARED -/

theorem exec_chatterCleared_set (h : s.switches.chatter.getLsbD i.val = true) : exec (.chatterCleared i) s =
    .next (({ s with switches := { s.switches with chatter := s.switches.chatter &&& ~~~(1#24 <<< i.val) } } : State).logEvent
      sevInfo 0x0705 0 i.val) := by
  show execChatterCleared i s = _
  rw [execChatterCleared, if_pos h]

theorem exec_chatterCleared_clear (h : s.switches.chatter.getLsbD i.val = false) : exec (.chatterCleared i) s = .next s := by
  show execChatterCleared i s = _
  rw [execChatterCleared, if_neg (Bool.eq_false_iff.mp h)]

end State

open State

/-- Settles O30: the pass over the switches gives each line its own sample, whose three branches are the three clauses. -/
theorem switchesAreFiltered : Obligations.SwitchesAreFiltered := by
  intro levels cd6 i s
  obtain ⟨hsamples, hchatter⟩ := s.switchBits_keepsChatter levels cd6
  have hframe := s.switchBits_frame levels cd6
  refine ⟨⟨_, exec_switchSample s levels cd6, congrArg (· + 1) hsamples, hframe.setSwitches _, fun j => ?_⟩,
    exec_chatterCleared_set, exec_chatterCleared_clear⟩
  have hline := s.switchBits_line levels cd6 j
  refine ⟨fun hequal => ?_, fun hdiffers hturns => ?_, fun hdiffers hcounts => ?_, hchatter j⟩
  · have hj := hline.trans (SwitchLine.sample_of_eq hequal)
    exact ⟨congrArg SwitchLine.level hj, congrArg SwitchLine.held hj⟩
  · have hj := hline.trans (SwitchLine.sample_of_turns hdiffers hturns)
    exact ⟨congrArg SwitchLine.level hj, congrArg SwitchLine.held hj, congrArg SwitchLine.edge hj⟩
  · have hj := hline.trans (SwitchLine.sample_of_counts hdiffers hcounts)
    exact ⟨congrArg SwitchLine.level hj, congrArg SwitchLine.held hj⟩

end Sys2Proof.Machine
end

section
/-! Proofs: the band comparators of a winding, the faults of an auxiliary axis, and its timers and stalls (R213, R220, R225 to
R229, R235, R237). -/

namespace Sys2Proof.Machine

/-! ## A bridge state asked for -/

section
variable {w : WindingSt} {t blank spacing : Int} {b : Bridge}

theorem askBridge_of_present (h : b = w.bridge) : askBridge w t blank spacing b = { w with heldBridge := none } := if_pos h

theorem askBridge_of_blanked (h : b ≠ w.bridge) (hblank : t - w.changed < blank) :
    askBridge w t blank spacing b = { w with heldBridge := some b } := by
  rw [askBridge, if_neg h, if_pos hblank]

theorem askBridge_of_spaced (h : b ≠ w.bridge) (hblank : blank ≤ t - w.changed) (hdrive : b = driveOf (signI w.active))
    (hspacing : t - w.driven < spacing) : askBridge w t blank spacing b = { w with heldBridge := some b } := by
  rw [askBridge, if_neg h, if_neg (Int.not_lt.mpr hblank), if_pos ⟨hdrive, hspacing⟩]

theorem askBridge_of_free (h : b ≠ w.bridge) (hblank : blank ≤ t - w.changed)
    (hspacing : b = driveOf (signI w.active) → spacing ≤ t - w.driven) : askBridge w t blank spacing b = putBridge w t b := by
  have hfar : ¬(b = driveOf (signI w.active) ∧ t - w.driven < spacing) :=
    fun ⟨hdrive, hnear⟩ => absurd (hspacing hdrive) (Int.not_le.mpr hnear)
  rw [askBridge, if_neg h, if_neg (Int.not_lt.mpr hblank), if_neg hfar]

end

namespace State

variable {s : State} {a : AuxNo} {w : Winding}

/-! ## HYSTERESIS_CROSSING and HYSTERESIS_HOLD_EXPIRY -/

/-- A winding's bridge is asked for a state at a clock of CD12 (R220). -/
def askWind (s : State) (a : AuxNo) (w : Winding) (cd12 : Nat) (b : Bridge) : State :=
  s.modWind a w fun z => askBridge z (s.cd12At cd12) (s.blankClk a) (s.spacingClk a) b

/-- On a driven axis in hysteresis mode only the upper edge rising and the lower edge falling ask for a state (R220). -/
theorem exec_hysteresisCrossing (hon : s.auxOn a = true) (hmode : s.aNoun a 0x00 ≠ 1)
    (hactive : (wind s.auxs[a] w).active ≠ 0) (upper rising : Bool) (cd12 : Nat) :
    exec (.hysteresisCrossing a w upper rising cd12) s = .next (
      if upper && rising then s.askWind a w cd12 (s.decayOf a (wind s.auxs[a] w))
      else if !upper && !rising then s.askWind a w cd12 (driveOf (signI (wind s.auxs[a] w).active))
      else s) := by
  have hskip : ¬(!s.auxOn a || s.aNoun a 0x00 == 1 || (wind s.auxs[a] w).active == 0) = true := by
    simpa [hon, hmode] using hactive
  show execHysteresisCrossing a w upper rising cd12 s = _
  rw [execHysteresisCrossing, if_neg hskip]
  rfl

theorem exec_hysteresisHoldExpiry_held (hon : s.auxOn a = true) {b : Bridge} (hheld : (wind s.auxs[a] w).heldBridge = some b)
    (cd12 : Nat) : exec (.hysteresisHoldExpiry a w cd12) s = .next (s.askWind a w cd12 b) := by
  show execHysteresisHoldExpiry a w cd12 s = _
  simp only [execHysteresisHoldExpiry, hheld, if_pos hon]
  rfl

theorem exec_hysteresisHoldExpiry_none (hheld : (wind s.auxs[a] w).heldBridge = none) (cd12 : Nat) :
    exec (.hysteresisHoldExpiry a w cd12) s = .next s := by
  show execHysteresisHoldExpiry a w cd12 s = _
  simp only [execHysteresisHoldExpiry, hheld]

/-! ## SAR_CONVERSION, AUX_OVERCURRENT and OPEN_COIL -/

theorem setAuxLatch_of_set (h : (s.auxs[a]).latch = true) (why : Fin 5) : s.setAuxLatch a why = s := if_pos h

theorem setAuxLatch_of_clear (h : (s.auxs[a]).latch = false) (why : Fin 5) : s.setAuxLatch a why =
    (s.modAux a fun x => { x with latch := true, reason := why }).logEvent sevDetected 0x0702 (objAux a) why.val
      (s.axisSample (.aux a)) := if_neg (Bool.eq_false_iff.mp h)

/-- The places of the offset of a winding's conversions among the nouns of its axis (R213). -/
def senseOffset : Winding → Nat
  | .a => 0x05
  | .b => 0x06

/-- The state with one conversion summed and counted, and the rail readings in a row counted (R213). -/
def converted (s : State) (a : AuxNo) (w : Winding) (code : BitVec 12) : State :=
  s.modWind a w fun z => { z with
    sum := z.sum + ((code.toNat : Int) - 2048 - s.aNoun a (senseOffset w)) * s.aNoun a 0x04
    count := z.count + 1
    rail := if decide ((code.toNat : Int) = 0 ∨ (code.toNat : Int) = 4095) then z.rail + 1 else 0 }

theorem exec_sarConversion (s : State) (a : AuxNo) (w : Winding) (code : BitVec 12) : exec (.sarConversion a w code) s =
    .next (if 8 ≤ (wind (s.converted a w code).auxs[a] w).rail ∧ s.auxOn a = true then (s.converted a w code).setAuxLatch a 2
      else s.converted a w code) := rfl

theorem exec_auxOvercurrent_on (hon : s.auxOn a = true) : exec (.auxOvercurrent a) s =
    .next ((s.setAuxLatch a 1).bridgesOff a) := by
  show execAuxOvercurrent a s = _
  rw [execAuxOvercurrent, if_pos hon]

theorem exec_openCoil_on (hon : s.auxOn a = true) (hopen : 64 ≤ (s.auxs[a]).wa.openCount ∨ 64 ≤ (s.auxs[a]).wb.openCount) :
    exec (.openCoil a) s = .next (s.setAuxLatch a 3) := by
  show execOpenCoil a s = _
  rw [execOpenCoil, if_pos ⟨hon, hopen⟩]

/-! ## SETTLE_TIME_EXPIRY, HOLD_DELAY_EXPIRY and STALL_DETECTED -/

theorem exec_settleTimeExpiry (s : State) (a : AuxNo) : exec (.settleTimeExpiry a) s =
    .next (if (s.auxs[a]).hstep = .settle then s.modAux a fun x => { x with settleDue := true } else s) := rfl

theorem exec_holdDelayExpiry (s : State) (a : AuxNo) : exec (.holdDelayExpiry a) s =
    .next (if (s.auxs[a]).state = .run ∧ (s.auxs[a]).gen.speed = 0 ∧ (s.auxs[a]).gen.acc = 0 then
      s.modAux a fun x => { x with holdDue := true } else s) := rfl

/-- The state with the stall counter of an axis restarted. -/
def stallRestarted (s : State) (a : AuxNo) : State := s.modAux a fun v => { v with stallCount := 0 }

/-- The state with a stall outside SEEK reported: STALL set, HOMED clear, and the stall logged with the load angle (R226). -/
def stallReported (s : State) (a : AuxNo) : State :=
  ((s.stallRestarted a).modAux a fun v => { v with stall := true, homed := false }).logEvent sevWarn 0x0701 (objAux a)
    (s.auxs[a]).lam (s.axisSample (.aux a))

section
variable (hlimit : s.aNoun a 0x15 ≤ (s.auxs[a]).stallCount) (hcount : (s.auxs[a]).stallCount ≠ 0)
include hlimit hcount

/-- The guard of STALL_DETECTED lets a counter at its limit pass. -/
theorem stall_due : ¬(((s.auxs[a]).stallCount : Int) < s.aNoun a 0x15 ∨ (s.auxs[a]).stallCount = 0) := by
  omega

/-- The first stall of SEEK takes the reference (R235). -/
theorem exec_stallDetected_seek (hseek : (s.auxs[a]).hstep = .seek) (hend : (s.auxs[a]).homeEnd = none)
    (href : (s.auxs[a]).reference = none) : exec (.stallDetected a) s =
    .next (((s.stallRestarted a).modAux a fun v => { v with reference := some (s.referenceNow a) }).haltAux a) := by
  show execStallDetected a s = _
  have hfirst : ¬((s.auxs[a]).homeEnd.isSome ∨ (s.auxs[a]).reference.isSome) := by simpa using ⟨hend, href⟩
  rw [execStallDetected, if_neg (stall_due hlimit hcount), if_pos hseek, if_neg hfirst]
  rfl

section
variable (hseek : (s.auxs[a]).hstep ≠ .seek) (hsettle : (s.auxs[a]).hstep ≠ .settle) (hbackoff : (s.auxs[a]).hstep ≠ .backoff)
include hseek hsettle hbackoff

/-- Outside homing a stall is reported, and the noun of the action says what follows (R226). -/
theorem exec_stallDetected_outside : exec (.stallDetected a) s = .next (
    if s.aNoun a 0x17 = 1 then
      match s.groupOfAux a with
      | some g => (s.stallReported a).modGroup g fun q => { q with orders := q.orders ++ [(none, .internalHalt (.aux a))] }
      | none => s.stallReported a
    else if s.aNoun a 0x17 = 2 then (s.stallReported a).modAux a fun v => { v with stallStop := true, reason := 4 }
    else s.stallReported a) := by
  show execStallDetected a s = _
  rw [execStallDetected, if_neg (stall_due hlimit hcount), if_neg hseek, if_neg hsettle, if_neg hbackoff]
  rfl

theorem exec_stallDetected_report (haction : s.aNoun a 0x17 = 0) : exec (.stallDetected a) s = .next (s.stallReported a) := by
  simp [exec_stallDetected_outside hlimit hcount hseek hsettle hbackoff, haction]

theorem exec_stallDetected_halt {g : Grp} (haction : s.aNoun a 0x17 = 1) (hgroup : s.groupOfAux a = some g) :
    exec (.stallDetected a) s =
      .next ((s.stallReported a).modGroup g fun q => { q with orders := q.orders ++ [(none, .internalHalt (.aux a))] }) := by
  simp [exec_stallDetected_outside hlimit hcount hseek hsettle hbackoff, haction, hgroup]

theorem exec_stallDetected_stop (haction : s.aNoun a 0x17 = 2) : exec (.stallDetected a) s =
    .next ((s.stallReported a).modAux a fun v => { v with stallStop := true, reason := 4 }) := by
  simp [exec_stallDetected_outside hlimit hcount hseek hsettle hbackoff, haction]

end

end

end State

open State

/-- Settles O24: the four edges of the comparators, the state held back, and the branches of a state asked for. -/
theorem hysteresisChopperFollowsTheBand : Obligations.HysteresisChopperFollowsTheBand := by
  intro a w cd12 s v ask hon
  refine ⟨fun hmode hactive => ?_, fun b hheld => exec_hysteresisHoldExpiry_held hon hheld cd12,
    fun hheld => exec_hysteresisHoldExpiry_none hheld cd12, fun z t blank spacing b =>
      ⟨askBridge_of_present, askBridge_of_blanked, askBridge_of_spaced, fun h hblank hspacing => ?_⟩⟩
  · have hedge := fun upper rising => exec_hysteresisCrossing hon hmode hactive upper rising cd12
    exact ⟨hedge true true, hedge false false, hedge true false, hedge false true⟩
  · rw [askBridge_of_free h hblank hspacing]
    rfl

/-- Settles O25: the counted conversion with its eighth rail reading, the two other faults, and what setting the latch does. -/
theorem auxFaultsSetTheAxisLatch : Obligations.AuxFaultsSetTheAxisLatch := by
  intro a w code s rail s1
  have hs1 : s1 = s.converted a w code := by cases w <;> rfl
  rw [hs1, exec_sarConversion]
  refine ⟨fun hfew => ?_, fun hmany hon => ?_, exec_auxOvercurrent_on, exec_openCoil_on,
    fun why => ⟨fun hset => setAuxLatch_of_set hset why, fun hclear => setAuxLatch_of_clear hclear why⟩⟩
  · rw [if_neg fun ⟨hmany, _⟩ => absurd hmany (Nat.not_le.mpr hfew)]
  · rw [if_pos ⟨hmany, hon⟩]

/-- Settles O26: the two timers by their commands, and a stall by the homing step and the action configured. -/
theorem auxTimersAndStallsAreTaken : Obligations.AuxTimersAndStallsAreTaken := by
  intro a s x n s1 s2
  refine ⟨exec_settleTimeExpiry s a, exec_holdDelayExpiry s a, fun hlimit hcount =>
    ⟨exec_stallDetected_seek hlimit hcount, fun hseek hsettle hbackoff => ⟨?_, fun g => ?_, ?_⟩⟩⟩
  · exact exec_stallDetected_report hlimit hcount hseek hsettle hbackoff
  · exact exec_stallDetected_halt hlimit hcount hseek hsettle hbackoff
  · exact exec_stallDetected_stop hlimit hcount hseek hsettle hbackoff

end Sys2Proof.Machine
end

section
/-! Proofs: the registers of a feedback unit that have commands of their own, and the test registers behind their lock (R245,
R252, R256, R261 to R263, R499, R500, R502). -/

namespace Sys2Proof.Machine

/-! ## Judging a compare value (R261 to R263) -/

/-- Judging a compare value changes what the unit compares with and nothing it counts or reports of its validity. -/
theorem judgeCompare_frame (u : FbUnit) (v : Int) : judgeCompare u v = { u with
    cmpArmed := (judgeCompare u v).cmpArmed
    cmpSpNow := (judgeCompare u v).cmpSpNow
    armed := (judgeCompare u v).armed
    behind := (judgeCompare u v).behind
    cmpSkip := (judgeCompare u v).cmpSkip } := by
  unfold judgeCompare
  dsimp only
  split <;> rfl

theorem judgeCompare_count (u : FbUnit) (v : Int) : (judgeCompare u v).count = u.count := by
  rw [judgeCompare_frame]

theorem judgeCompare_ref (u : FbUnit) (v : Int) : (judgeCompare u v).ref = u.ref := by
  rw [judgeCompare_frame]

theorem judgeCompare_cmp (u : FbUnit) (v : Int) : (judgeCompare u v).cmp = u.cmp := by
  rw [judgeCompare_frame]

section
variable {u : FbUnit}

theorem judgeCompare_off (hmode : u.cmpMode = 0) (v : Int) : judgeCompare u v = u := by
  simp only [judgeCompare, hmode]

theorem aheadBy_linear (hlinear : u.modulo = false) (v dir : Int) : aheadBy u v dir = dir * (v - u.count) := by
  simp [aheadBy, hlinear]

/-- A value is not ahead of a linear counter where it equals the count or lies on the other side of it (R261). -/
theorem aheadBy_nonpos_iff (hlinear : u.modulo = false) (v : Int) :
    aheadBy u v (dirSign u) ≤ 0 ↔ if u.dir then u.count ≤ v else v ≤ u.count := by
  rw [aheadBy_linear hlinear]
  cases hdir : u.dir with
  | false => simp [dirSign, hdir]
  | true => simp [dirSign, hdir]

/-- In mode SINGLE a linear unit arms the value as written, BEHIND unless it is ahead (R262). -/
theorem judgeCompare_single (hmode : u.cmpMode = 1) (hlinear : u.modulo = false) (v : Int) :
    judgeCompare u v = { u with cmpArmed := v, armed := true, behind := decide (aheadBy u v (dirSign u) ≤ 0) } := by
  simp [judgeCompare, hmode, hlinear]

/-- In mode PERIODIC a value ahead of a linear counter is armed with no spacing skipped (R263). -/
theorem judgeCompare_periodic_cmpSkip (hmode : u.cmpMode = 2) (hlinear : u.modulo = false) {v : Int}
    (hahead : 0 < aheadBy u v (dirSign u)) : (judgeCompare u v).cmpSkip = 0 := by
  simp [judgeCompare, hmode, hlinear, hahead, minI]

end

/-- The unit once a compare value is written to it and judged (R261). -/
def compareFb (v : Int) (u : FbUnit) : FbUnit := judgeCompare { u with cmp := v } v

theorem compareFb_cmp (v : Int) (u : FbUnit) : (compareFb v u).cmp = v := judgeCompare_cmp _ v

section
variable {u : FbUnit} {v : Int}

/-- In mode OFF a compare write keeps its value and arms nothing. -/
theorem compareFb_off (hmode : u.cmpMode = 0) (v : Int) : compareFb v u = { u with cmp := v } :=
  judgeCompare_off (u := { u with cmp := v }) hmode v

theorem compareFb_single (hmode : u.cmpMode = 1) (hlinear : u.modulo = false) (v : Int) : compareFb v u =
    { u with cmp := v, cmpArmed := v, armed := true, behind := decide (aheadBy u v (dirSign u) ≤ 0) } :=
  judgeCompare_single (u := { u with cmp := v }) hmode hlinear v

theorem compareFb_periodic_cmpSkip (hmode : u.cmpMode = 2) (hlinear : u.modulo = false)
    (hahead : 0 < aheadBy u v (dirSign u)) : (compareFb v u).cmpSkip = 0 :=
  judgeCompare_periodic_cmpSkip (u := { u with cmp := v }) hmode hlinear hahead

end

/-! ## The preset of one unit (R256) -/

/-- The unit once its count is the preset value; REF of an encoder follows IDXEN. -/
def loadPreset (n : FbNo) (u : FbUnit) : FbUnit :=
  let v := { u with count := underMode u u.preset, lastIndex := none, turnPending := false }
  if n.val < 8 then { v with ref := !v.idxEn } else v

/-- The unit after its preset: a compare value that is armed or periodic is judged again. -/
def presetFb (n : FbNo) (u : FbUnit) : FbUnit :=
  let w := loadPreset n u
  if w.cmpMode = 2 ∨ w.armed = true then judgeCompare w w.cmp else w

theorem loadPreset_count (n : FbNo) (u : FbUnit) : (loadPreset n u).count = underMode u u.preset := by
  unfold loadPreset
  split <;> rfl

theorem loadPreset_ref {n : FbNo} (hencoder : n.val < 8) (u : FbUnit) : (loadPreset n u).ref = !u.idxEn := by
  rw [loadPreset, if_pos hencoder]

theorem presetFb_count (n : FbNo) (u : FbUnit) : (presetFb n u).count = underMode u u.preset := by
  rw [← loadPreset_count n, presetFb]
  split
  · exact judgeCompare_count _ _
  · rfl

theorem presetFb_ref {n : FbNo} (hencoder : n.val < 8) (u : FbUnit) : (presetFb n u).ref = !u.idxEn := by
  rw [← loadPreset_ref hencoder, presetFb]
  split
  · exact judgeCompare_ref _ _
  · rfl

namespace State

/-! ## One unit of the state -/

theorem modFb_frame (s : State) (n : FbNo) (f : FbUnit → FbUnit) : s.modFb n f = { s with fb := (s.modFb n f).fb } := rfl

theorem modFb_fb_same (s : State) (n : FbNo) (f : FbUnit → FbUnit) : ((s.modFb n f).fb)[n] = f s.fb[n] := vmod_same s.fb n f

theorem modFb_fb_other (s : State) {n k : FbNo} (h : k ≠ n) (f : FbUnit → FbUnit) : ((s.modFb n f).fb)[k] = s.fb[k] :=
  vmod_other s.fb f h.symm

/-! ## FB_PRESET, REARM and COMPARE_WRITE -/

section
variable {n : FbNo} {s : State}

/-- With the link down, or on a unit that the member lacks, none of the three changes anything. -/
theorem exec_unitRegister_absent (habsent : s.hostUp = false ∨ s.member.hasFb n = false) (v : DWord) :
    exec (.fbPreset n) s = .next s ∧ exec (.rearm n) s = .next s ∧ exec (.compareWrite n v) s = .next s := by
  have hskip : ¬(s.hostUp && s.member.hasFb n) = true := Bool.eq_false_iff.mp (Bool.and_eq_false_iff.mpr habsent)
  exact ⟨congrArg _ (if_neg hskip), congrArg _ (if_neg hskip), congrArg _ (if_neg hskip)⟩

section
variable (hup : s.hostUp = true) (hfb : s.member.hasFb n = true)
include hup hfb

theorem exec_fbPreset_present : exec (.fbPreset n) s = .next (s.otherFrame.presetUnit n) :=
  congrArg _ (if_pos (Bool.and_eq_true_iff.mpr ⟨hup, hfb⟩))

/-- A preset of a unit that a running group uses is a rejected write (R245). -/
theorem exec_fbPreset_used (hused : s.unitInUse n = true) :
    exec (.fbPreset n) s = .next (s.otherFrame.modFb n fun u => setFlag u 8) :=
  (exec_fbPreset_present hup hfb).trans (congrArg _ (if_pos hused))

theorem exec_fbPreset_free (hfree : s.unitInUse n = false) : exec (.fbPreset n) s = .next (s.otherFrame.modFb n (presetFb n)) :=
  (exec_fbPreset_present hup hfb).trans (congrArg _ (if_neg (Bool.eq_false_iff.mp hfree)))

theorem exec_rearm_present : exec (.rearm n) s = .next (s.otherFrame.rearmUnit n) :=
  congrArg _ (if_pos (Bool.and_eq_true_iff.mpr ⟨hup, hfb⟩))

theorem exec_compareWrite_present (v : DWord) : exec (.compareWrite n v) s =
    .next (s.otherFrame.modFb n (compareFb v.toInt)) :=
  congrArg _ (if_pos (Bool.and_eq_true_iff.mpr ⟨hup, hfb⟩))

end

end

/-! ## The test registers -/

section
variable {s : State} {w : Word}

/-- With the link down no write reaches a test register. -/
theorem exec_testRegister_down (hdown : s.hostUp = false) (w : Word) : exec (.tstKey w) s = .next s ∧
    exec .tstLockClose s = .next s ∧ exec (.tstSincArm w) s = .next s ∧ exec (.tstEngArm w) s = .next s := by
  have hskip : ¬s.hostUp = true := Bool.eq_false_iff.mp hdown
  exact ⟨congrArg _ (if_neg hskip), congrArg _ (if_neg hskip), congrArg _ (if_neg hskip), congrArg _ (if_neg hskip)⟩

/-- The key sequence, by the word written (R499). -/
theorem writeKey_eq (s : State) (w : Word) : s.writeKey w = { s with test :=
    if w = 0x7E57A11C then { s.test with keyed := true }
    else if s.test.keyed = true ∧ w = 0x81A85EE3 then { s.test with keyed := false, openLock := true }
    else { s.test with keyed := false } } := by
  have hfirst : w.toNat = 0x7E57A11C ↔ w = 0x7E57A11C := BitVec.toNat_inj (y := 0x7E57A11C#32)
  have hsecond : w.toNat = 0x81A85EE3 ↔ w = 0x81A85EE3 := BitVec.toNat_inj (y := 0x81A85EE3#32)
  simp only [writeKey, modTest, hfirst, hsecond]

/-! ### What the lock lets through -/

theorem writeSinc_closed (hclosed : s.test.openLock = false) (w : Word) : s.writeSinc w = s :=
  if_neg (Bool.eq_false_iff.mp hclosed)

/-- The test registers once a word is written to TST_SINC: as many bits are to be injected as the word says, if it arms any
(R502). -/
def sincArmed (t : TestSt) (w : Word) : TestSt :=
  { t with sinc := w &&& 0xDF00FFFF#32, sincLeft := if bitAt w.toNat 31 then bitsOf w.toNat 0 16 else 0 }

theorem writeSinc_open (hopen : s.test.openLock = true) (w : Word) : s.writeSinc w = { s with test := sincArmed s.test w } :=
  if_pos hopen

theorem writeEng_closed (hclosed : s.test.openLock = false) (w : Word) : s.writeEng w = s := by
  simp [writeEng, hclosed]

/-- Mode 3 of TST_ENG is ignored (R502). -/
theorem writeEng_reserved (hmode : bitsOf w.toNat 16 2 = 3) (s : State) : s.writeEng w = s := by
  simp [writeEng, hmode]

theorem writeEng_open (hopen : s.test.openLock = true) (hmode : bitsOf w.toNat 16 2 ≠ 3) :
    s.writeEng w = { s with test := { s.test with eng := w &&& 0x87030100#32 } } := by
  simp [writeEng, hopen, hmode, modTest]

/-! ### The commands with the link up -/

section
variable (hup : s.hostUp = true)
include hup

theorem exec_tstKey_up (w : Word) : exec (.tstKey w) s = .next (s.writeKey w) := congrArg _ (if_pos hup)

theorem exec_tstLockClose_up : exec .tstLockClose s = .next { s with test := {} } := congrArg _ (if_pos hup)

theorem exec_tstSincArm_up (w : Word) : exec (.tstSincArm w) s = .next (s.otherFrame.writeSinc w) := congrArg _ (if_pos hup)

theorem exec_tstEngArm_up (w : Word) : exec (.tstEngArm w) s = .next (s.otherFrame.writeEng w) := congrArg _ (if_pos hup)

end

end

end State

open State

/-- Settles O52: the three unit registers change their unit alone, and each test register is taken by the state of the lock. -/
theorem unitAndTestRegistersActAtTheWrite : Obligations.UnitAndTestRegistersActAtTheWrite := by
  intro n v w s u o
  refine ⟨fun habsent => exec_unitRegister_absent habsent v, fun hdown => exec_testRegister_down hdown w, rfl,
    fun hup hfb => ⟨exec_fbPreset_used hup hfb, fun hfree => ?preset, exec_rearm_present hup hfb, ?compare⟩,
    fun hup => ⟨?key, exec_tstLockClose_up hup, fun hclosed => ?closed, fun hopen => ?sinc, fun hopen hmode => ?eng,
      fun _ hmode => ?reserved⟩⟩
  case preset =>
    refine ⟨o.modFb n (presetFb n), exec_fbPreset_free hup hfb hfree, ?_, fun hencoder => ?_,
      fun k hk => modFb_fb_other o hk _, modFb_frame o n _⟩
    · rw [modFb_fb_same]
      exact presetFb_count n u
    · rw [modFb_fb_same]
      exact presetFb_ref hencoder u
  case compare =>
    refine ⟨o.modFb n (compareFb v.toInt), exec_compareWrite_present hup hfb v, ?_, fun hoff => ?_, fun hsingle hlinear => ?_,
      fun hperiodic hlinear hdir hahead => ?_, fun k hk => modFb_fb_other o hk _, modFb_frame o n _⟩
    all_goals rw [modFb_fb_same]
    · exact compareFb_cmp v.toInt u
    · rw [compareFb_off (u := o.fb[n]) hoff]
      exact ⟨rfl, rfl⟩
    · rw [compareFb_single (u := o.fb[n]) hsingle hlinear]
      exact ⟨rfl, rfl, decide_eq_true_iff.trans (aheadBy_nonpos_iff hlinear v.toInt)⟩
    · have hnot : ¬aheadBy u v.toInt (dirSign u) ≤ 0 := by
        simpa [aheadBy_nonpos_iff hlinear, hdir] using hahead
      exact compareFb_periodic_cmpSkip hperiodic hlinear (Int.not_le.mp hnot)
  case key => rw [exec_tstKey_up hup, writeKey_eq]
  case closed =>
    rw [exec_tstSincArm_up hup, exec_tstEngArm_up hup, writeSinc_closed (s := o) hclosed, writeEng_closed (s := o) hclosed]
    exact ⟨rfl, rfl⟩
  case sinc =>
    have hexec : exec (.tstSincArm w) s = .next { o with test := sincArmed o.test w } := by
      rw [exec_tstSincArm_up hup, writeSinc_open (s := o) hopen]
    exact ⟨_, hexec, rfl, rfl⟩
  case eng => rw [exec_tstEngArm_up hup, writeEng_open (s := o) hopen hmode]
  case reserved => rw [exec_tstEngArm_up hup, writeEng_reserved hmode]

end Sys2Proof.Machine
end

section
/-! Proofs: what follows in the safety channel from its group states: the groups, the outputs and the parked angles (R74, R287,
R294, R302 to R304). -/

namespace Sys2Proof.Machine

namespace State

/-- One state differs from another at most in the channel's groups, its brake and contactor outputs and a voided pulse, and in
the main axes, whose parked angles a released brake makes invalid (R74). -/
def OutputsOnly (s t : State) : Prop := t = { s with
  mains := t.mains
  safety := { s.safety with
    groups := t.safety.groups
    brakes := t.safety.brakes
    contactors := t.safety.contactors
    pulseVoid := t.safety.pulseVoid } }

variable {s t u : State}

/-! ## Operations that change no more than the outputs -/

namespace OutputsOnly

theorem refl (s : State) : OutputsOnly s s := rfl

theorem trans (hst : OutputsOnly s t) (htu : OutputsOnly t u) : OutputsOnly s u := by
  unfold OutputsOnly at *
  rw [htu, hst]

/-- A fold of such operations is one. -/
theorem eachFin {n : Nat} {f : State → Fin n → State} (hf : ∀ z i, OutputsOnly z (f z i)) (s : State) :
    OutputsOnly s (eachFin n f s) :=
  eachFin_keeps (P := OutputsOnly s) (fun z i hz => hz.trans (hf z i)) (refl s)

theorem modSto (s : State) (i : StoNo) (f : StoSt → StoSt) : OutputsOnly s (s.modSto i f) := rfl

theorem modStoWhere (p : StoNo → StoSt → Prop) [∀ i x, Decidable (p i x)] (f : StoSt → StoSt) (s : State) (i : StoNo) :
    OutputsOnly s (modStoWhere p f s i) := by
  unfold State.modStoWhere
  split
  · exact modSto ..
  · exact refl s

theorem voidPulse (s : State) (o : SafeOut) : OutputsOnly s (s.voidPulse o) := by
  unfold State.voidPulse
  split <;> exact rfl

theorem driveSto (s : State) (i : StoNo) (on : Bool) : OutputsOnly s (s.driveSto i on) := by
  unfold State.driveSto
  extract_lets was s1
  split
  · exact (modSto s i _).trans (voidPulse ..)
  · exact modSto s i _

theorem stoOff (s : State) (i : StoNo) (st : SState) (cause : Option Nat) : OutputsOnly s (s.stoOff i st cause) :=
  (modSto s i _).trans (driveSto ..)

theorem torqueOff (s : State) (i : StoNo) (dest : SState) (cause : Option Nat) : OutputsOnly s (s.torqueOff i dest cause) := by
  unfold State.torqueOff
  extract_lets x
  split
  · exact modSto ..
  · exact stoOff ..

theorem unpark (s : State) (b : Fin 4) : OutputsOnly s (s.unpark b) := by
  unfold State.unpark
  extract_lets other
  split
  · exact eachFin (fun z m => by split <;> exact rfl) s
  · exact refl s

theorem driveBrake (s : State) (b : Fin 4) : OutputsOnly s (s.driveBrake b) := by
  unfold State.driveBrake
  extract_lets on want s1
  have h1 : OutputsOnly s s1 := rfl
  split
  · exact h1.trans (voidPulse ..)
  · split
    · exact h1.trans (unpark ..)
    · exact h1

theorem driveContactor (s : State) (c : Fin 4) : OutputsOnly s (s.driveContactor c) := by
  unfold State.driveContactor
  extract_lets on want s1
  have h1 : OutputsOnly s s1 := rfl
  split
  · exact h1.trans (voidPulse ..)
  · exact h1

theorem driveOutputs (s : State) : OutputsOnly s s.driveOutputs :=
  (eachFin driveBrake s).trans (eachFin driveContactor _)

theorem settleWait (s : State) (i : StoNo) : OutputsOnly s (s.settleWait i) := by
  unfold State.settleWait
  extract_lets x left s1
  have h1 : OutputsOnly s s1 := modSto s i _
  split
  · split
    · exact h1.trans (stoOff ..)
    · exact h1
  · exact refl s

theorem settleSafety (s : State) : OutputsOnly s s.settleSafety :=
  ((driveOutputs s).trans (eachFin settleWait _)).trans (driveOutputs _)

theorem testRun (s : State) (i : StoNo) : OutputsOnly s (s.testRun i) := by
  unfold State.testRun
  extract_lets x asked
  split
  · exact (modSto s i _).trans (driveSto ..)
  · exact refl s

theorem enterSs1 (s : State) (i : StoNo) (cause : Nat) : OutputsOnly s (s.enterSs1 i cause) := rfl

theorem estopHit (s : State) (e : Fin 2) (cause : Nat) (i : StoNo) : OutputsOnly s (s.estopHit e cause i) := by
  unfold State.estopHit
  extract_lets st fn
  split
  · exact refl s
  · split
    · exact stoOff ..
    · split
      · exact stoOff ..
      · split
        · exact enterSs1 ..
        · exact refl s

theorem acceptReset (s : State) : OutputsOnly s s.acceptReset.1 := by
  cases hpair : s.safety.pairErr with
  | true =>
    rw [State.acceptReset, if_pos hpair]
    exact refl s
  | false =>
    rw [acceptReset_groups hpair]
    exact eachFin (modStoWhere _ _) s

/-! ## What stands -/

/-- The channel and the main axes alone differ. -/
theorem frame (h : OutputsOnly s t) : t = { s with safety := t.safety, mains := t.mains } := by
  unfold OutputsOnly at h
  rw [h]

theorem ctf (h : OutputsOnly s t) : t.safety.ctf = s.safety.ctf := congrArg (fun z => z.safety.ctf) h

theorem estop (h : OutputsOnly s t) : t.safety.estop = s.safety.estop := congrArg (fun z => z.safety.estop) h

theorem sreset (h : OutputsOnly s t) : t.safety.sreset = s.safety.sreset := congrArg (fun z => z.safety.sreset) h

theorem running (h : OutputsOnly s t) : t.safety.running = s.safety.running := congrArg (fun z => z.safety.running) h

theorem safeNoun (h : OutputsOnly s t) : t.safeNoun = s.safeNoun := by
  funext id
  rw [State.safeNoun, h.running]
  rfl

theorem sNoun (h : OutputsOnly s t) : t.sNoun = s.sNoun := by
  funext i off
  rw [State.sNoun, safeNounN, h.safeNoun]
  rfl

end OutputsOnly

/-! ## Each group's own step of a fold -/

variable {i k : StoNo}

/-- Where each step of a fold leaves the other groups alone, a group ends as its own step leaves it. -/
theorem eachFin_group {f : State → StoNo → State} (hf : ∀ z i, OutputsOnly z (f z i))
    (hother : ∀ z i, i ≠ k → (f z i).safety.groups[k] = z.safety.groups[k]) (s : State) :
    ∃ z, OutputsOnly s z ∧ z.safety.groups[k] = s.safety.groups[k] ∧
      (eachFin 4 f s).safety.groups[k] = (f z k).safety.groups[k] := by
  obtain ⟨before, after, hsplit⟩ := List.append_of_mem (List.mem_finRange k)
  have hnodup : (before ++ k :: after).Nodup := hsplit ▸ List.nodup_finRange 4
  have hbefore : k ∉ before := fun hk => List.disjoint_of_nodup_append hnodup hk List.mem_cons_self
  have hafter : k ∉ after := (List.nodup_cons.mp hnodup.of_append_right).1
  have hstands : ∀ (l : List StoNo) (z : State), k ∉ l →
      OutputsOnly z (l.foldl f z) ∧ (l.foldl f z).safety.groups[k] = z.safety.groups[k] := fun l z hk =>
    List.foldlRecOn (motive := fun y => OutputsOnly z y ∧ y.safety.groups[k] = z.safety.groups[k]) l f ⟨.refl z, rfl⟩
      fun y ⟨hy, hgroup⟩ i hi => ⟨hy.trans (hf y i), (hother y i (ne_of_mem_of_not_mem hi hk)).trans hgroup⟩
  refine ⟨before.foldl f s, (hstands before s hbefore).1, (hstands before s hbefore).2, ?_⟩
  rw [eachFin, fins, hsplit, List.foldl_append, List.foldl_cons]
  exact (hstands after _ hafter).2

/-! ## The groups that wait for brakes (R287) -/

theorem modSto_group_same (s : State) (i : StoNo) (f : StoSt → StoSt) :
    (s.modSto i f).safety.groups[i] = f s.safety.groups[i] := vmod_same ..

theorem driveSto_group_same (s : State) (i : StoNo) (on : Bool) :
    (s.driveSto i on).safety.groups[i] = { s.safety.groups[i] with sto := on } := by
  simp only [driveSto_groups, vmod_same]

theorem driveSto_group_other (h : i ≠ k) (on : Bool) : (s.driveSto i on).safety.groups[k] = s.safety.groups[k] := by
  simp only [driveSto_groups, vmod_other _ _ h]

/-- What the wait of one group does to a group: nothing, or fewer brakes are waited for, or its STO follows the last one. -/
theorem settleWait_group_cases (s : State) (i k : StoNo) :
    (s.settleWait i).safety.groups[k] = s.safety.groups[k] ∨
    (∃ w, (s.settleWait i).safety.groups[k] = { s.safety.groups[k] with waitBrakes := w }) ∨
    (s.settleWait i).safety.groups[k] = { s.safety.groups[k] with
      state := if (s.safety.groups[k]).state = .fault then .fault else .latched
      sto := false
      stopReq := false
      waitBrakes := 0 } := by
  by_cases hik : i = k
  · subst hik
    unfold settleWait
    extract_lets x left s1
    have h1 : s1.safety.groups[i] = { s.safety.groups[i] with waitBrakes := left } := modSto_group_same ..
    split
    · split
      · refine .inr (.inr ?_)
        rw [stoOff_group_same, h1]
        rfl
      · exact .inr (.inl ⟨left, h1⟩)
    · exact .inl rfl
  · refine .inl ?_
    unfold settleWait
    extract_lets x left s1
    have h1 : s1.safety.groups[k] = s.safety.groups[k] := vmod_other _ _ hik
    split
    · split
      · exact (s1.stoOff_group_other hik ..).trans h1
      · exact h1
    · rfl

/-- What the three changes of a waiting group keep, everything that follows in the channel keeps. -/
theorem settleSafety_group_keeps {P : StoSt → Prop} (hwait : ∀ x w, P x → P { x with waitBrakes := w })
    (hoff : ∀ x, P x → P { x with
      state := if x.state = .fault then .fault else .latched
      sto := false
      stopReq := false
      waitBrakes := 0 })
    (h : P s.safety.groups[k]) : P s.settleSafety.safety.groups[k] := by
  unfold settleSafety
  rw [driveOutputs_groups]
  refine eachFin_keeps (P := fun z => P z.safety.groups[k]) (fun z i hz => ?_) (by rwa [driveOutputs_groups])
  rcases settleWait_group_cases z i k with heq | ⟨w, heq⟩ | heq
  · rwa [heq]
  · rw [heq]
    exact hwait _ w hz
  · rw [heq]
    exact hoff _ hz

theorem settleSafety_cause (s : State) (k : StoNo) :
    (s.settleSafety.safety.groups[k]).cause = (s.safety.groups[k]).cause :=
  settleSafety_group_keeps (P := fun x => x.cause = (s.safety.groups[k]).cause) (fun _ _ h => h) (fun _ h => h) rfl

/-- A group on its way to LATCHED stays on it. -/
theorem settleSafety_stopping (h : (s.safety.groups[k]).state = .braking ∨ (s.safety.groups[k]).state = .latched) :
    (s.settleSafety.safety.groups[k]).state = .braking ∨ (s.settleSafety.safety.groups[k]).state = .latched := by
  refine settleSafety_group_keeps (P := fun x => x.state = .braking ∨ x.state = .latched) (fun _ _ h => h) (fun x hx => ?_) h
  have hfault : x.state ≠ .fault := by rcases hx with hx | hx <;> simp [hx]
  exact .inr (if_neg hfault)

/-! ## Torque-off (R287) -/

theorem torqueOff_of_not_brakeFirst (h : s.sNoun i 3 ≠ 1) (dest : SState) (cause : Option Nat) :
    s.torqueOff i dest cause = s.stoOff i dest cause := by
  rw [torqueOff, if_neg (by simp [h])]

theorem torqueOff_group_other (h : i ≠ k) (dest : SState) (cause : Option Nat) :
    (s.torqueOff i dest cause).safety.groups[k] = s.safety.groups[k] := by
  unfold torqueOff
  extract_lets x
  split
  · exact vmod_other _ _ h
  · exact s.stoOff_group_other h dest cause

/-- On the way to LATCHED a group takes the cause given, and brakes or is LATCHED. -/
theorem torqueOff_latched_group (s : State) (i : StoNo) (c : Nat) :
    ((s.torqueOff i .latched (some c)).safety.groups[i]).cause = c ∧
      (((s.torqueOff i .latched (some c)).safety.groups[i]).state = .braking ∨
        ((s.torqueOff i .latched (some c)).safety.groups[i]).state = .latched) := by
  unfold torqueOff
  extract_lets x
  split
  · rw [modSto_group_same]
    exact ⟨rfl, .inl rfl⟩
  · rw [stoOff_group_same]
    exact ⟨rfl, .inr rfl⟩

/-! ## Channel faults (R304) -/

/-- The channel with a fault noted: the first one's cause and index are kept, and a CLOCK fault leaves one clock. -/
def noteFault (s : State) (cause index : Nat) : State := s.modSafety fun q => { q with
  fcause := if s.safety.fcause = 0 then cause else q.fcause
  findex := if s.safety.fcause = 0 then index else q.findex
  oneClock := q.oneClock || decide (cause = fClock) }

/-- A channel fault is noted, the groups and outputs follow, and one event is logged. -/
theorem channelFault_logged (s : State) (cause index : Nat) : ∃ t, OutputsOnly (s.noteFault cause index) t ∧
    s.channelFault cause index = t.logEvent sevDetected 0x0901 objSafety cause := by
  unfold channelFault
  extract_lets first s1 s2
  refine ⟨s2.settleSafety, (OutputsOnly.eachFin (fun z i => ?_) s1).trans (.settleSafety _), rfl⟩
  split
  · exact .refl z
  · exact .torqueOff ..

end State

end Sys2Proof.Machine
end

section
/-! Proofs: the readbacks of the outputs and the feedback times of brakes and contactors (R284, R287, R293, R302). -/

namespace Sys2Proof.Machine

namespace State

variable {s : State} {b : Fin 4}

/-! ## READBACK_MISMATCH (R284) -/

theorem exec_readbackMismatch_pulse {o : SafeOut} (h : s.safety.pulse = some o) : exec (.readbackMismatch o) s = .next s :=
  congrArg _ (if_pos h)

theorem exec_readbackMismatch_fault {o : SafeOut} (h : s.safety.pulse ≠ some o) :
    exec (.readbackMismatch o) s = .next (s.channelFault fReadback o.val) := by
  show execReadbackMismatch o s = _
  rw [execReadbackMismatch, if_neg h]

/-- A channel fault records its cause and index where it is the first (R304, R310). -/
theorem channelFault_first (s : State) (cause index : Nat) :
    (s.channelFault cause index).safety.fcause = (if s.safety.fcause = 0 then cause else s.safety.fcause) ∧
      (s.channelFault cause index).safety.findex = (if s.safety.fcause = 0 then index else s.safety.findex) := by
  obtain ⟨t, ht, heq⟩ := s.channelFault_logged cause index
  rw [heq, logEvent_safety]
  exact ⟨congrArg (fun z => z.safety.fcause) ht, congrArg (fun z => z.safety.findex) ht⟩

/-! ## BRAKE_TIMER_EXPIRY (R293) -/

/-- The channel once the engage or release time of a brake is over: without feedback it takes the commanded state. -/
def brakeTimeOver (s : State) (b : Fin 4) : State :=
  s.modBrake b fun o => { o with timing := false, applied := !(s.safety.brakes[b]).on, released := (s.safety.brakes[b]).on }

theorem exec_brakeTimerExpiry_idle (h : (s.safety.brakes[b]).timing = false) : exec (.brakeTimerExpiry b) s = .next s :=
  congrArg _ (if_pos (by rw [h]; rfl))

section
variable (h : (s.safety.brakes[b]).timing = true)
include h

theorem exec_brakeTimerExpiry_unwatched (hnone : s.brakeInput b = none) :
    exec (.brakeTimerExpiry b) s = .next (s.brakeTimeOver b).settleSafety := by
  show execBrakeTimerExpiry b s = _
  simp only [execBrakeTimerExpiry, h, hnone]
  rfl

theorem exec_brakeTimerExpiry_watched {i : Fin 8} (hinput : s.brakeInput b = some i) :
    exec (.brakeTimerExpiry b) s = .next (if (s.safety.ctf[i]).level = (s.safety.brakes[b]).on
      then (s.brakeTimeOver b).channelFault fBrake i.val else (s.brakeTimeOver b).settleSafety) := by
  show execBrakeTimerExpiry b s = _
  simp only [execBrakeTimerExpiry, h, hinput]
  rfl

end

/-- A brake without feedback input is reported as its output stands once its time is over. -/
theorem brakeTimeOver_brakeReported (hnone : s.brakeInput b = none) :
    (s.brakeTimeOver b).brakeReported b = !(s.safety.brakes[b]).on := by
  have hinput : (s.brakeTimeOver b).brakeInput b = none := hnone
  rw [brakeReported, hinput]
  exact congrArg OutSt.applied (vmod_same ..)

/-! ## CONTACTOR_DISCREPANCY (R302) -/

theorem exec_contactorDiscrepancy_idle (h : (s.safety.contactors[b]).timing = false) :
    exec (.contactorDiscrepancy b) s = .next s := congrArg _ (if_neg (Bool.eq_false_iff.mp h))

section
variable (h : (s.safety.contactors[b]).timing = true)
include h

theorem exec_contactorDiscrepancy_agrees (hnil : s.contactorWrong b = []) :
    exec (.contactorDiscrepancy b) s = .next (s.modContactor b fun o => { o with timing := false }) := by
  show execContactorDiscrepancy b s = _
  rw [execContactorDiscrepancy, if_pos h, hnil]

theorem exec_contactorDiscrepancy_differs {i : Fin 8} {l : List (Fin 8)} (hwrong : s.contactorWrong b = i :: l) :
    exec (.contactorDiscrepancy b) s =
      .next ((s.modContactor b fun o => { o with timing := false }).channelFault fContactor i.val) := by
  show execContactorDiscrepancy b s = _
  rw [execContactorDiscrepancy, if_pos h, hwrong]

end

/-- A feedback that is not in the contactor's commanded state shows the level of the command (R283). -/
theorem level_of_mem_contactorWrong {i : Fin 8} (h : i ∈ s.contactorWrong b) :
    (s.safety.ctf[i]).level = (s.safety.contactors[b]).on := by
  simpa using (List.mem_filter.mp h).2

/-! ## BRAKE_TIMEOUT (R287) -/

theorem exec_brakeTimeout_reported (hreported : s.brakeReported b = true) (hoff : (s.safety.brakes[b]).on = false) :
    exec (.brakeTimeout b) s = .next s.settleSafety := by
  show execBrakeTimeout b s = _
  rw [execBrakeTimeout, if_pos (by rw [hreported, hoff]; rfl)]

/-- A group that waits for brake `b`, which did not report, waits for it no longer. -/
def missBrake (b : Fin 4) (s : State) : State :=
  eachFin 4 (modStoWhere (fun _ x => (stoWaits x && x.waitBrakes.getLsbD b.val) = true)
    fun x => { x with cause := causeBrake, waitBrakes := x.waitBrakes &&& ~~~(1#4 <<< b.val) }) s

theorem exec_brakeTimeout_unreported (h : s.brakeReported b = false ∨ (s.safety.brakes[b]).on = true) :
    exec (.brakeTimeout b) s = .next (s.missBrake b).settleSafety := by
  have hunsettled : ¬(s.brakeReported b && !(s.safety.brakes[b]).on) = true := by
    rcases h with h | h <;> rw [h] <;> simp
  show execBrakeTimeout b s = _
  rw [execBrakeTimeout, if_neg hunsettled]
  rfl

theorem missBrake_outputsOnly (b : Fin 4) (s : State) : OutputsOnly s (s.missBrake b) :=
  .eachFin (.modStoWhere _ _) s

theorem missBrake_cause {i : StoNo} (hwaits : stoWaits s.safety.groups[i] = true)
    (hbrake : (s.safety.groups[i]).waitBrakes.getLsbD b.val = true) : ((s.missBrake b).safety.groups[i]).cause = causeBrake := by
  rw [missBrake, eachFin_modStoWhere_group, if_pos (Bool.and_eq_true_iff.mpr ⟨hwaits, hbrake⟩)]

theorem missBrake_group_of_not_waits {i : StoNo} (h : stoWaits s.safety.groups[i] = false) :
    (s.missBrake b).safety.groups[i] = s.safety.groups[i] := by
  rw [missBrake, eachFin_modStoWhere_group, if_neg fun hboth => Bool.false_ne_true (h.symm.trans (Bool.and_eq_true_iff.mp hboth).1)]

end State

open State

/-- Settles O35: a mismatch is judged by the pulse in progress, and a channel fault records its cause where it is the first. -/
theorem readbackMismatchIsAChannelFault : Obligations.ReadbackMismatchIsAChannelFault := by
  intro o s
  refine ⟨exec_readbackMismatch_pulse, fun hpulse => ⟨_, exec_readbackMismatch_fault hpulse, rfl, ?_⟩⟩
  obtain ⟨hcause, hindex⟩ := s.channelFault_first fReadback o.val
  refine ⟨fun hfirst => ?_, fun hlater => ?_⟩
  · rw [if_pos hfirst] at hcause hindex
    exact ⟨hcause, hindex⟩
  · rw [if_neg hlater] at hcause hindex
    exact ⟨hcause, hindex⟩

/-- Settles O37: each time by its command where it runs, and BRAKE_TIMEOUT through the groups that wait for the brake. -/
theorem brakeAndContactorTimesAreJudged : Obligations.BrakeAndContactorTimesAreJudged := by
  intro b s x s1 c1
  refine ⟨exec_brakeTimerExpiry_idle, fun htiming hnone =>
      ⟨exec_brakeTimerExpiry_unwatched htiming hnone, brakeTimeOver_brakeReported hnone⟩, fun i htiming hinput => ?watched,
    exec_contactorDiscrepancy_idle, fun htiming => ⟨exec_contactorDiscrepancy_agrees htiming, fun i l hwrong => ?contactor⟩,
    exec_brakeTimeout_reported, fun hunreported => ?timeout⟩
  case watched =>
    rw [exec_brakeTimerExpiry_watched htiming hinput]
    exact ⟨fun hwrong => congrArg _ (if_pos hwrong), fun hright => congrArg _ (if_neg hright)⟩
  case contactor =>
    have hmem : i ∈ s.contactorWrong b := by simp [hwrong]
    exact ⟨level_of_mem_contactorWrong hmem, exec_contactorDiscrepancy_differs htiming hwrong⟩
  case timeout =>
    refine ⟨_, exec_brakeTimeout_unreported hunreported, fun i hwaits hbrake => ?_, fun i hstands => ?_,
      ((missBrake_outputsOnly b s).trans (.settleSafety _)).frame⟩
    · rw [settleSafety_cause]
      exact missBrake_cause hwaits hbrake
    · have hgroup := missBrake_group_of_not_waits (b := b) hstands
      rw [settleSafety_group (by rw [hgroup]; exact hstands), hgroup]

end Sys2Proof.Machine
end

section
/-! Proofs: the monitoring link from the control die to the channel, and the status words back (R288 to R291, R481). -/

namespace Sys2Proof.Machine

/-- The word of four flags holds each at its place. -/
theorem getLsbD_bits4 (f : Fin 4 → Bool) (i : Fin 4) : (State.bits4 f).getLsbD i.val = f i := by
  have hword : ∀ (p q r t : Bool) (i : Fin 4),
      (BitVec.ofNat 4 (b2n p * 2 ^ 0 + (b2n q * 2 ^ 1 + (b2n r * 2 ^ 2 + (b2n t * 2 ^ 3 + 0))))).getLsbD i.val =
        match i with
        | 0 => p
        | 1 => q
        | 2 => r
        | 3 => t := by decide
  refine (hword (f 0) (f 1) (f 2) (f 3) i).trans ?_
  fin_cases i <;> rfl

namespace State

variable {s t u : State} {i k : StoNo}

/-! ## MONITORING_MESSAGE_ASSEMBLY (R288, R481) -/

theorem exec_monitoringMessageAssembly_asleep (h : s.awake = false) : exec .monitoringMessageAssembly s = .next s :=
  congrArg _ (if_neg (Bool.eq_false_iff.mp h))

/-- The message an awake module assembles from its committed values; the close requests are a free value (log entry 2). -/
def assembled (s : State) : MonMessage := {
  speed := Vector.ofFn fun m => (s.mains[m]).eng.speed
  sensor := Vector.ofFn fun m => s.sensorSpeed m
  healthy := Vector.ofFn fun m => s.sensorOk m
  torque := if s.start.safeHold then 0 else s.requests.torque
  release := if s.start.safeHold then 0 else bits4 s.releaseAsked
  close := if s.start.safeHold then 0 else BitVec.ofInt 4 (Config.freeValue s.free)
  seq := s.requests.seq + 1 }

theorem exec_monitoringMessageAssembly_awake (h : s.awake = true) : exec .monitoringMessageAssembly s =
    .next (s.drawn.modReq fun r => { r with seq := s.assembled.seq, release := s.assembled.release, sent := some s.assembled }) :=
  congrArg _ (if_pos h)

theorem assembled_axis (s : State) (k : Main) : s.assembled.speed[k] = (s.mains[k]).eng.speed ∧
    s.assembled.sensor[k] = s.sensorSpeed k ∧ s.assembled.healthy[k] = s.sensorOk k := by
  simp [assembled]

/-- In safe hold no request is set (R481). -/
theorem assembled_safeHold (h : s.start.safeHold = true) :
    s.assembled.torque = 0 ∧ s.assembled.release = 0 ∧ s.assembled.close = 0 :=
  ⟨if_pos h, if_pos h, if_pos h⟩

section
variable (h : s.start.safeHold = false)
include h

theorem assembled_torque : s.assembled.torque = s.requests.torque := if_neg (Bool.eq_false_iff.mp h)

theorem assembled_release (b : Fin 4) : s.assembled.release.getLsbD b.val = s.releaseAsked b := by
  have hbits : s.assembled.release = bits4 s.releaseAsked := if_neg (Bool.eq_false_iff.mp h)
  rw [hbits, getLsbD_bits4]

end

/-! ## SAFETY_STATUS_WRITE (R291) -/

theorem statusWords_group (s : State) (i : StoNo) : s.statusWords.state[i] = (s.safety.groups[i]).state ∧
    s.statusWords.cause[i] = (s.safety.groups[i]).cause ∧ s.statusWords.stopReq.getLsbD i.val = (s.safety.groups[i]).stopReq := by
  simp only [statusWords, getLsbD_bits4]
  simp

theorem statusWords_output (s : State) (b : Fin 4) : s.statusWords.brkOn.getLsbD b.val = (s.safety.brakes[b]).on ∧
    s.statusWords.applied.getLsbD b.val = s.brakeReported b ∧ s.statusWords.released.getLsbD b.val = s.releaseConfirmed b ∧
    s.statusWords.ctdOn.getLsbD b.val = (s.safety.contactors[b]).on := by
  simp only [statusWords, getLsbD_bits4, and_self]

/-! ## Changes of the channel, the main axes, the mailbox and the log -/

/-- One state differs from another at most in the safety channel, the main axes, the mailbox and the log. -/
def ChannelOnly (s t : State) : Prop := t = { s with safety := t.safety, mains := t.mains, mail := t.mail, log := t.log }

namespace ChannelOnly

theorem refl (s : State) : ChannelOnly s s := rfl

theorem trans (hst : ChannelOnly s t) (htu : ChannelOnly t u) : ChannelOnly s u := by
  unfold ChannelOnly at *
  rw [htu, hst]

theorem modSafety (s : State) (f : SafetySt → SafetySt) : ChannelOnly s (s.modSafety f) := rfl

theorem logEvent (s : State) (sev code object : Nat) (d0 : Int) : ChannelOnly s (s.logEvent sev code object d0) := by
  unfold State.logEvent
  split <;> exact rfl

theorem countLane (s : State) (k : Fin 2) (ok : Bool) : ChannelOnly s (s.countLane k ok) := by
  unfold State.countLane
  extract_lets miss good s1
  have h1 : ChannelOnly s s1 := modSafety ..
  split
  · exact (h1.trans (modSafety ..)).trans (logEvent ..)
  · split
    · exact h1.trans (modSafety ..)
    · exact h1

end ChannelOnly

theorem OutputsOnly.channelOnly (h : OutputsOnly s t) : ChannelOnly s t := by
  unfold ChannelOnly
  rw [h.frame]

/-! ## The lanes (R289) -/

/-- The channels of two states differ at most in the counts and losses of the lanes. -/
def LanesOnly (s t : State) : Prop := t.safety = { s.safety with
  laneMiss := t.safety.laneMiss
  laneOk := t.safety.laneOk
  laneLost := t.safety.laneLost }

theorem LanesOnly.trans (hst : LanesOnly s t) (htu : LanesOnly t u) : LanesOnly s u := by
  unfold LanesOnly at *
  rw [htu, hst]

theorem LanesOnly.stands (h : LanesOnly s t) : t.safety.last = s.safety.last ∧ t.safety.lastValid = s.safety.lastValid ∧
    t.safety.validRun = s.safety.validRun ∧ t.safety.monLost = s.safety.monLost ∧ t.safety.groups = s.safety.groups :=
  ⟨congrArg (fun q => q.last) h, congrArg (fun q => q.lastValid) h, congrArg (fun q => q.validRun) h,
    congrArg (fun q => q.monLost) h, congrArg (fun q => q.groups) h⟩

section
variable (s : State) (l : Fin 2) (ok : Bool)

theorem countLane_lanesOnly : LanesOnly s (s.countLane l ok) := by
  unfold LanesOnly countLane
  extract_lets miss good s1
  split
  · rw [logEvent_safety]
    rfl
  · split <;> rfl

theorem countLane_laneMiss :
    (s.countLane l ok).safety.laneMiss = s.safety.laneMiss.set l (if ok then 0 else s.safety.laneMiss[l] + 1) := by
  unfold countLane
  extract_lets miss good s1
  split
  · rw [logEvent_safety]
    rfl
  · split <;> rfl

theorem countLane_laneMiss_same : (s.countLane l ok).safety.laneMiss[l] = if ok then 0 else s.safety.laneMiss[l] + 1 := by
  rw [countLane_laneMiss]
  simp

theorem countLane_laneMiss_other {j : Fin 2} (h : l ≠ j) :
    (s.countLane l ok).safety.laneMiss[j] = s.safety.laneMiss[j] := by
  have hval : l.val ≠ j.val := fun hval => h (Fin.ext hval)
  rw [countLane_laneMiss]
  simp [hval]

/-- What a sample of a lane does to its loss: it is lost, or found again by an intact copy, or as it was. -/
theorem countLane_laneLost_cases :
    (s.countLane l ok).safety.laneLost = s.safety.laneLost.set l true ∨
    (ok = true ∧ (s.countLane l ok).safety.laneLost = s.safety.laneLost.set l false) ∨
    ((ok = false → 2 ≤ s.safety.laneMiss[l] → s.safety.laneLost[l] = true) ∧
      (s.countLane l ok).safety.laneLost = s.safety.laneLost) := by
  unfold countLane
  extract_lets miss good s1
  split
  · refine .inl ?_
    rw [logEvent_safety]
    rfl
  · next hstands =>
    split
    · next hgood =>
      refine .inr (.inl ⟨?_, rfl⟩)
      by_contra hbad
      simp [good, hbad] at hgood
    · refine .inr (.inr ⟨fun hbad htwo => ?_, rfl⟩)
      have hmiss : 3 ≤ miss := by simpa [miss, hbad] using htwo
      simpa [hmiss] using hstands

theorem countLane_laneLost_other {j : Fin 2} (h : l ≠ j) :
    (s.countLane l ok).safety.laneLost[j] = s.safety.laneLost[j] := by
  have hval : l.val ≠ j.val := fun hval => h (Fin.ext hval)
  rcases s.countLane_laneLost_cases l ok with heq | ⟨-, heq⟩ | ⟨-, heq⟩ <;> rw [heq] <;> simp [hval]

/-- A lane is lost at the third copy in a row that is not intact (R289). -/
theorem countLane_laneLost (h : 2 ≤ s.safety.laneMiss[l]) : (s.countLane l false).safety.laneLost[l] = true := by
  rcases s.countLane_laneLost_cases l false with heq | ⟨hok, -⟩ | ⟨hstands, heq⟩
  · rw [heq]
    simp
  · exact absurd hok Bool.false_ne_true
  · rw [heq]
    exact hstands rfl h

end

/-- Both lanes once the copies of one message are counted. -/
def countLanes (s : State) (a b : Option LaneCopy) : State := (s.countLane 0 (s.intact a)).countLane 1 (s.intact b)

theorem countLanes_lanesOnly (s : State) (a b : Option LaneCopy) : LanesOnly s (s.countLanes a b) :=
  (countLane_lanesOnly ..).trans (countLane_lanesOnly ..)

theorem countLanes_channelOnly (s : State) (a b : Option LaneCopy) : ChannelOnly s (s.countLanes a b) :=
  (ChannelOnly.countLane ..).trans (.countLane ..)

theorem countLanes_laneMiss (s : State) (a b : Option LaneCopy) : ∀ l : Fin 2, (s.countLanes a b).safety.laneMiss[l] =
    if s.intact (if l = 0 then a else b) then 0 else s.safety.laneMiss[l] + 1
  | 0 => (countLane_laneMiss_other _ 1 _ (by decide)).trans (countLane_laneMiss_same ..)
  | 1 => by
    refine (countLane_laneMiss_same ..).trans ?_
    rw [countLane_laneMiss_other s 0 _ (by decide)]
    rfl

theorem countLanes_laneLost (s : State) (a b : Option LaneCopy) : ∀ l : Fin 2, s.intact (if l = 0 then a else b) = false →
    2 ≤ s.safety.laneMiss[l] → (s.countLanes a b).safety.laneLost[l] = true
  | 0, hbad, hmiss => by
    have ha : s.intact a = false := hbad
    rw [countLanes, countLane_laneLost_other _ 1 _ (by decide), ha]
    exact countLane_laneLost s 0 hmiss
  | 1, hbad, hmiss => by
    have hb : s.intact b = false := hbad
    rw [countLanes, hb]
    refine countLane_laneLost _ 1 ?_
    rwa [countLane_laneMiss_other s 0 _ (by decide)]

/-! ## MONITORING_MESSAGE (R289, R290) -/

theorem groupMessage_outputsOnly (s : State) (x : MonMessage) (i : StoNo) : OutputsOnly s (s.groupMessage x i) := by
  unfold groupMessage
  extract_lets q j hit s1
  have h1 : OutputsOnly s s1 := .modSto ..
  clear_value q j hit s1
  split
  · split
    · split
      · exact .enterSs1 ..
      · exact .torqueOff ..
    · split
      · exact .refl s
      · exact .stoOff ..
  · split
    · split
      · exact h1.trans (.torqueOff ..)
      · split
        · exact h1.trans (.torqueOff ..)
        · split
          · exact h1.trans (.torqueOff ..)
          · exact h1
    · exact h1.trans (.torqueOff ..)
    · exact h1.trans (.torqueOff ..)
    · exact h1
  · exact .testRun ..
  all_goals exact .refl s

/-- The channel with a valid message noted: the run of valid ones grows, and monitoring is back at the 16th (R290). -/
def noteValid (s : State) (x : MonMessage) : State := s.modSafety fun q => { q with
  lastValid := some x
  validRun := s.safety.validRun + 1
  monLost := q.monLost && decide (s.safety.validRun + 1 < 16)
  watch := Vector.ofFn fun m => s.watchAxis x m }

/-- A valid message is noted, and the groups and outputs follow. -/
theorem validMessage_outputsOnly (s : State) (x : MonMessage) : OutputsOnly (s.noteValid x) (s.validMessage x) :=
  (OutputsOnly.eachFin (fun z i => groupMessage_outputsOnly z x i) _).trans (.settleSafety _)

/-- The copy of a message that is used: the first intact one. -/
def usedCopy (s : State) (a b : Option LaneCopy) : Option LaneCopy :=
  if s.intact a then a else if s.intact b then b else none

/-- The run of valid messages ends. -/
def endRun (s : State) : State := s.modSafety fun q => { q with validRun := 0 }

/-- The intact message `x` is the last one. -/
def noteIntact (s : State) (x : MonMessage) : State := s.modSafety fun q => { q with last := some x }

/-- The channel after a message, by the copy used and its speeds. -/
def heardMessage (s : State) (a b : Option LaneCopy) : State :=
  match s.usedCopy a b with
  | none => (s.countLanes a b).endRun
  | some k => if s.plausible k.msg then ((s.countLanes a b).noteIntact k.msg).validMessage k.msg
    else ((s.countLanes a b).noteIntact k.msg).endRun

theorem exec_monitoringMessage (a b : Option LaneCopy) (s : State) :
    exec (.monitoringMessage a b) s = .next (s.heardMessage a b) := by
  show execMonitoringMessage a b s = _
  unfold execMonitoringMessage heardMessage usedCopy
  rfl

section
variable {a b : Option LaneCopy}

theorem heardMessage_none (h : s.usedCopy a b = none) : s.heardMessage a b = (s.countLanes a b).endRun := by
  rw [heardMessage, h]

variable {k : LaneCopy}

theorem heardMessage_plausible (h : s.usedCopy a b = some k) (hp : s.plausible k.msg = true) :
    OutputsOnly (((s.countLanes a b).noteIntact k.msg).noteValid k.msg) (s.heardMessage a b) := by
  rw [heardMessage, h]
  simp only [hp, if_true]
  exact validMessage_outputsOnly ..

theorem heardMessage_implausible (h : s.usedCopy a b = some k) (hp : s.plausible k.msg = false) :
    s.heardMessage a b = ((s.countLanes a b).noteIntact k.msg).endRun := by
  rw [heardMessage, h]
  simp only [hp, Bool.false_eq_true, if_false]

end

theorem usedCopy_none {a b : Option LaneCopy} (ha : s.intact a = false) (hb : s.intact b = false) : s.usedCopy a b = none := by
  simp [usedCopy, ha, hb]

/-- What becomes of a message leaves the lanes as counted. -/
theorem heardMessage_lanes (s : State) (a b : Option LaneCopy) :
    (s.heardMessage a b).safety.laneMiss = (s.countLanes a b).safety.laneMiss ∧
      (s.heardMessage a b).safety.laneLost = (s.countLanes a b).safety.laneLost ∧ ChannelOnly s (s.heardMessage a b) := by
  have hcount := s.countLanes_channelOnly a b
  cases hused : s.usedCopy a b with
  | none =>
    rw [heardMessage_none hused]
    exact ⟨rfl, rfl, hcount.trans (.modSafety ..)⟩
  | some k =>
    cases hp : s.plausible k.msg with
    | true =>
      have hout := heardMessage_plausible hused hp
      exact ⟨congrArg (fun z => z.safety.laneMiss) hout, congrArg (fun z => z.safety.laneLost) hout,
        ((hcount.trans (.modSafety ..)).trans (.modSafety ..)).trans hout.channelOnly⟩
    | false =>
      rw [heardMessage_implausible hused hp]
      exact ⟨rfl, rfl, (hcount.trans (.modSafety ..)).trans (.modSafety ..)⟩

section
variable {a b : Option LaneCopy}

/-- Without an intact copy the run ends, and the last messages and the groups stay. -/
theorem heardMessage_silent (ha : s.intact a = false) (hb : s.intact b = false) :
    (s.heardMessage a b).safety.validRun = 0 ∧ (s.heardMessage a b).safety.last = s.safety.last ∧
      (s.heardMessage a b).safety.lastValid = s.safety.lastValid ∧ (s.heardMessage a b).safety.groups = s.safety.groups ∧
      (s.heardMessage a b).safety.monLost = s.safety.monLost := by
  obtain ⟨hlast, hvalid, -, hlost, hgroups⟩ := (s.countLanes_lanesOnly a b).stands
  rw [heardMessage_none (usedCopy_none ha hb)]
  exact ⟨rfl, hlast, hvalid, hgroups, hlost⟩

variable {k : LaneCopy} (h : s.usedCopy a b = some k)
include h

/-- A message whose speeds are plausible is the last valid one; monitoring is back at the 16th in a row (R290). -/
theorem heardMessage_valid (hp : s.plausible k.msg = true) :
    (s.heardMessage a b).safety.last = some k.msg ∧ (s.heardMessage a b).safety.lastValid = some k.msg ∧
      (s.heardMessage a b).safety.validRun = s.safety.validRun + 1 ∧
      (s.heardMessage a b).safety.monLost = (s.safety.monLost && decide (s.safety.validRun + 1 < 16)) := by
  obtain ⟨-, -, hrun, hlost, -⟩ := (s.countLanes_lanesOnly a b).stands
  have hout := heardMessage_plausible h hp
  refine ⟨congrArg (fun z => z.safety.last) hout, congrArg (fun z => z.safety.lastValid) hout,
    (congrArg (fun z => z.safety.validRun) hout).trans (congrArg Nat.succ hrun),
    (congrArg (fun z => z.safety.monLost) hout).trans ?_⟩
  rw [← hlost, ← hrun]
  rfl

/-- One whose speeds are not ends the run, and the last valid message and the groups stay. -/
theorem heardMessage_invalid (hp : s.plausible k.msg = false) :
    (s.heardMessage a b).safety.last = some k.msg ∧ (s.heardMessage a b).safety.lastValid = s.safety.lastValid ∧
      (s.heardMessage a b).safety.validRun = 0 ∧ (s.heardMessage a b).safety.groups = s.safety.groups := by
  obtain ⟨-, hvalid, -, -, hgroups⟩ := (s.countLanes_lanesOnly a b).stands
  rw [heardMessage_implausible h hp]
  exact ⟨rfl, hvalid, rfl, hgroups⟩

theorem heardMessage_last : (s.heardMessage a b).safety.last = some k.msg := by
  cases hp : s.plausible k.msg with
  | true => exact (heardMessage_valid h hp).1
  | false => exact (heardMessage_invalid h hp).1

end

/-! ## MONITORING_LOST (R290) -/

/-- A group in RUN or SS1 goes to torque-off when monitoring is lost. -/
def stopForLoss (s : State) (i : StoNo) : State :=
  if (s.safety.groups[i]).state = .run ∨ (s.safety.groups[i]).state = .ss1 then
    s.torqueOff i .latched (some causeMonitor)
  else s

/-- Monitoring is lost. -/
def noteLoss (s : State) : State := s.modSafety fun q => { q with monLost := true, validRun := 0 }

theorem exec_monitoringLost (s : State) :
    exec .monitoringLost s = .next (eachFin 4 stopForLoss s.noteLoss).settleSafety := by
  show execMonitoringLost s = _
  unfold execMonitoringLost
  rfl

theorem stopForLoss_outputsOnly (s : State) (i : StoNo) : OutputsOnly s (s.stopForLoss i) := by
  unfold stopForLoss
  split
  · exact .torqueOff ..
  · exact .refl s

theorem stopForLoss_group_other (h : i ≠ k) : (s.stopForLoss i).safety.groups[k] = s.safety.groups[k] := by
  unfold stopForLoss
  split
  · exact torqueOff_group_other h ..
  · rfl

/-- With monitoring lost, a group in RUN or SS1 goes to torque-off by its own sequence (R287, R290). -/
theorem stopForLoss_group (h : (s.safety.groups[i]).state = .run ∨ (s.safety.groups[i]).state = .ss1) : ∃ z,
    OutputsOnly s.noteLoss z ∧ (eachFin 4 stopForLoss s.noteLoss).safety.groups[i] =
      (z.torqueOff i .latched (some causeMonitor)).safety.groups[i] := by
  obtain ⟨z, hz, hgroup, hfold⟩ :=
    eachFin_group (k := i) stopForLoss_outputsOnly (fun _ _ hne => stopForLoss_group_other hne) s.noteLoss
  have hstate : (z.safety.groups[i]).state = .run ∨ (z.safety.groups[i]).state = .ss1 := by
    rw [hgroup]
    exact h
  refine ⟨z, hz, ?_⟩
  rw [hfold, stopForLoss, if_pos hstate]

section
variable (h : (s.safety.groups[i]).state = .run ∨ (s.safety.groups[i]).state = .ss1)
include h

theorem monitoringLost_group : (((eachFin 4 stopForLoss s.noteLoss).settleSafety.safety.groups[i]).cause = causeMonitor) ∧
    (((eachFin 4 stopForLoss s.noteLoss).settleSafety.safety.groups[i]).state = .braking ∨
      ((eachFin 4 stopForLoss s.noteLoss).settleSafety.safety.groups[i]).state = .latched) := by
  obtain ⟨z, -, hgroup⟩ := stopForLoss_group h
  obtain ⟨hcause, hstate⟩ := z.torqueOff_latched_group i causeMonitor
  rw [← hgroup] at hcause hstate
  exact ⟨(settleSafety_cause ..).trans hcause, settleSafety_stopping hstate⟩

/-- Without BRAKE-FIRST the group is LATCHED with its STO off at once. -/
theorem monitoringLost_group_latched (hseq : s.sNoun i 3 ≠ 1) :
    ((eachFin 4 stopForLoss s.noteLoss).settleSafety.safety.groups[i]).state = .latched ∧
      ((eachFin 4 stopForLoss s.noteLoss).settleSafety.safety.groups[i]).sto = false := by
  obtain ⟨z, hz, hgroup⟩ := stopForLoss_group h
  have hz3 : z.sNoun i 3 ≠ 1 := by
    rw [hz.sNoun]
    exact hseq
  rw [torqueOff_of_not_brakeFirst hz3, stoOff_group_same] at hgroup
  rw [settleSafety_group (by rw [hgroup]; rfl), hgroup]
  exact ⟨rfl, rfl⟩

end

end State

open State

/-- Settles O33: the message assembled field by field, and the status words by group and by output. -/
theorem monitoringMessagesAreAssembledAndWritten : Obligations.MonitoringMessagesAreAssembledAndWritten := by
  intro s
  refine ⟨exec_monitoringMessageAssembly_asleep, fun hawake => ⟨_, s.assembled, exec_monitoringMessageAssembly_awake hawake,
    rfl, rfl, rfl, rfl, s.assembled_axis, assembled_safeHold,
    fun hfree => ⟨assembled_torque hfree, assembled_release hfree⟩, rfl⟩, _, rfl, rfl, fun i => ?_⟩
  obtain ⟨hstate, hcause, hstop⟩ := s.statusWords_group i
  obtain ⟨hon, happlied, hreleased, hclosed⟩ := s.statusWords_output i
  exact ⟨hstate, hcause, hstop, hon, happlied, hreleased, hclosed⟩

/-- Settles O34: the lanes counted, then the copy used by its speeds; monitoring lost through each group's own torque-off. -/
theorem monitoringMessagesAreJudged : Obligations.MonitoringMessagesAreJudged := by
  intro a b s
  obtain ⟨hmiss, hlost, hframe⟩ := s.heardMessage_lanes a b
  refine ⟨⟨_, exec_monitoringMessage a b s, ?misses, ?losses, heardMessage_silent, fun k hused => ⟨heardMessage_last hused,
      fun hp => (heardMessage_valid hused hp).2, fun hp => (heardMessage_invalid hused hp).2⟩, hframe⟩,
    _, exec_monitoringLost s, ?_, ?_, fun i hruns => ?_, ?_⟩
  case misses =>
    rw [hmiss]
    exact s.countLanes_laneMiss a b
  case losses =>
    rw [hlost]
    exact s.countLanes_laneLost a b
  all_goals have hout : OutputsOnly s.noteLoss (eachFin 4 stopForLoss s.noteLoss).settleSafety :=
    (OutputsOnly.eachFin stopForLoss_outputsOnly _).trans (.settleSafety _)
  · exact congrArg (fun z => z.safety.monLost) hout
  · exact congrArg (fun z => z.safety.validRun) hout
  · obtain ⟨hcause, hstate⟩ := monitoringLost_group hruns
    exact ⟨hcause, hstate, monitoringLost_group_latched hruns⟩
  · exact hout.frame

end Sys2Proof.Machine
end

section
/-! Proofs: the safety inputs through their filters, and what an E-stop that becomes active does to its groups (R285, R292, R295,
R299 to R301). -/

namespace Sys2Proof.Machine

/-! ## One sample of a filter (R285) -/

theorem filterSample_agrees {x : InSt} {raw : Bool} (h : raw = x.level) (n : Nat) :
    filterSample n x raw = { x with held := 0 } := if_pos h

theorem filterSample_turns {n : Nat} {x : InSt} {raw : Bool} (h : raw ≠ x.level) (hlast : n ≤ x.held + 1) :
    filterSample n x raw = { level := raw, held := 0 } := (if_neg h).trans (if_pos hlast)

theorem filterSample_counts {n : Nat} {x : InSt} {raw : Bool} (h : raw ≠ x.level) (hmore : x.held + 1 < n) :
    filterSample n x raw = { x with held := x.held + 1 } := (if_neg h).trans (if_neg (Nat.not_le.mpr hmore))

/-! ## What an E-stop with function STO asks of a group -/

/-- A group is LATCHED with its STO de-energised. -/
def TorqueGone (x : StoSt) : Prop := x.state = .latched ∧ x.sto = false

/-- A group that an E-stop with function STO leaves LATCHED with its STO de-energised. -/
def EstopTakes (x : StoSt) : Prop := x.state ≠ .fault ∧ (x.state = .latched → x.sto = false)

theorem TorqueGone.takes {x : StoSt} (h : TorqueGone x) : EstopTakes x := by
  obtain ⟨hstate, hsto⟩ := h
  exact ⟨by simp [hstate], fun _ => hsto⟩

/-- So is every group that is neither in FAULT nor LATCHED. -/
theorem EstopTakes.of_live {x : StoSt} (hlatched : x.state ≠ .latched) (hfault : x.state ≠ .fault) : EstopTakes x :=
  ⟨hfault, fun h => absurd h hlatched⟩

namespace State

variable {s t : State} {i k : StoNo} {e : Fin 2}

/-! ## OFF to RUN (R292) -/

theorem testRun_group_other (h : i ≠ k) : (s.testRun i).safety.groups[k] = s.safety.groups[k] := by
  unfold testRun
  extract_lets x asked
  split
  · exact (driveSto_group_other h true).trans (vmod_other _ _ h)
  · rfl

/-- A group stays in OFF or begins RUN. -/
theorem testRun_takes (h : EstopTakes s.safety.groups[i]) : EstopTakes (s.testRun i).safety.groups[i] := by
  unfold testRun
  extract_lets x asked
  split
  · rw [driveSto_group_same, modSto_group_same]
    exact .of_live SState.noConfusion SState.noConfusion
  · exact h

theorem eachFin_testRun_takes (h : EstopTakes s.safety.groups[i]) : EstopTakes (eachFin 4 testRun s).safety.groups[i] := by
  obtain ⟨z, -, hgroup, hfold⟩ := eachFin_group (k := i) OutputsOnly.testRun (fun _ _ hne => testRun_group_other hne) s
  rw [hfold]
  exact testRun_takes (hgroup ▸ h)

/-! ## One E-stop that has become active -/

theorem estopHit_group_other (h : i ≠ k) (e : Fin 2) (cause : Nat) :
    (s.estopHit e cause i).safety.groups[k] = s.safety.groups[k] := by
  unfold estopHit
  extract_lets st fn
  split
  · rfl
  · split
    · exact s.stoOff_group_other h ..
    · split
      · exact s.stoOff_group_other h ..
      · split
        · exact vmod_other _ _ h
        · rfl

/-- An E-stop leaves a group as it is, or LATCHED with torque off, or takes it from RUN to SS1. -/
theorem estopHit_group_cases (s : State) (e : Fin 2) (cause : Nat) (i : StoNo) :
    (s.estopHit e cause i).safety.groups[i] = s.safety.groups[i] ∨ TorqueGone (s.estopHit e cause i).safety.groups[i] ∨
      ((s.safety.groups[i]).state = .run ∧ ((s.estopHit e cause i).safety.groups[i]).state = .ss1) := by
  have hoff : TorqueGone (s.stoOff i .latched (some cause)).safety.groups[i] := by
    rw [stoOff_group_same]
    exact ⟨rfl, rfl⟩
  unfold estopHit
  extract_lets st fn
  split
  · exact .inl rfl
  · split
    · exact .inr (.inl hoff)
    · split
      · exact .inr (.inl hoff)
      · split
        · next hrun =>
          refine .inr (.inr ⟨hrun.2, ?_⟩)
          rw [enterSs1, modSto_group_same]
        · exact .inl rfl

theorem estopHit_takes (h : EstopTakes s.safety.groups[i]) (e : Fin 2) (cause : Nat) :
    EstopTakes (s.estopHit e cause i).safety.groups[i] := by
  rcases estopHit_group_cases s e cause i with heq | hgone | ⟨-, hss1⟩
  · rwa [heq]
  · exact hgone.takes
  · exact .of_live (fun h => SState.noConfusion (hss1.symm.trans h)) fun h => SState.noConfusion (hss1.symm.trans h)

theorem estopHit_gone (h : TorqueGone s.safety.groups[i]) (e : Fin 2) (cause : Nat) :
    TorqueGone (s.estopHit e cause i).safety.groups[i] := by
  rcases estopHit_group_cases s e cause i with heq | hgone | ⟨hrun, -⟩
  · rwa [heq]
  · exact hgone
  · exact absurd (h.1.symm.trans hrun) SState.noConfusion

/-- An E-stop with function STO takes a group it maps to LATCHED with torque off (R295, R300). -/
theorem estopHit_sto (h : EstopTakes s.safety.groups[i]) (hmaps : bitAt (s.safeNounN (0x6600 + 16 * e.val)) i.val = true)
    (hfn : s.safeNoun (0x6601 + 16 * e.val) = 0) (cause : Nat) :
    TorqueGone (s.estopHit e cause i).safety.groups[i] := by
  have hoff : TorqueGone (s.stoOff i .latched (some cause)).safety.groups[i] := by
    rw [stoOff_group_same]
    exact ⟨rfl, rfl⟩
  unfold estopHit
  extract_lets st fn
  rw [if_neg (by simp [hmaps])]
  cases hst : st with
  | off => exact hoff
  | latched =>
    rw [if_neg SState.noConfusion, if_neg (by simp), if_neg (by simp)]
    exact ⟨hst, h.2 hst⟩
  | fault => exact absurd hst h.1
  | run | ss1 | braking =>
    rw [if_neg SState.noConfusion, if_pos ⟨hfn, by simp⟩]
    exact hoff

/-- E-stop `e` acts on every group. -/
def hitAll (s : State) (e : Fin 2) (cause : Nat) : State := eachFin 4 (fun y i => y.estopHit e cause i) s

theorem hitAll_outputsOnly (s : State) (e : Fin 2) (cause : Nat) : OutputsOnly s (s.hitAll e cause) :=
  .eachFin (fun z i => .estopHit z e cause i) s

/-- Each group takes its own hit. -/
theorem hitAll_group (s : State) (e : Fin 2) (cause : Nat) (i : StoNo) : ∃ z, OutputsOnly s z ∧
    z.safety.groups[i] = s.safety.groups[i] ∧ (s.hitAll e cause).safety.groups[i] = (z.estopHit e cause i).safety.groups[i] :=
  eachFin_group (fun z i => .estopHit z e cause i) (fun _ _ hne => estopHit_group_other hne e cause) s

theorem hitAll_takes (h : EstopTakes s.safety.groups[i]) (e : Fin 2) (cause : Nat) :
    EstopTakes (s.hitAll e cause).safety.groups[i] := by
  obtain ⟨z, -, hgroup, hfold⟩ := s.hitAll_group e cause i
  rw [hfold]
  exact estopHit_takes (hgroup ▸ h) e cause

theorem hitAll_gone (h : TorqueGone s.safety.groups[i]) (e : Fin 2) (cause : Nat) :
    TorqueGone (s.hitAll e cause).safety.groups[i] := by
  obtain ⟨z, -, hgroup, hfold⟩ := s.hitAll_group e cause i
  rw [hfold]
  exact estopHit_gone (hgroup ▸ h) e cause

theorem hitAll_sto (h : EstopTakes s.safety.groups[i]) (hmaps : bitAt (s.safeNounN (0x6600 + 16 * e.val)) i.val = true)
    (hfn : s.safeNoun (0x6601 + 16 * e.val) = 0) (cause : Nat) : TorqueGone (s.hitAll e cause).safety.groups[i] := by
  obtain ⟨z, hz, hgroup, hfold⟩ := s.hitAll_group e cause i
  rw [hfold]
  refine estopHit_sto (hgroup ▸ h) ?_ ?_ cause
  · rw [safeNounN, hz.safeNoun]
    exact hmaps
  · rw [hz.safeNoun]
    exact hfn

/-! ## The E-stop inputs (R299, R300) -/

/-- The E-stop that becomes active, of the two in turn, acts on the groups. -/
def hitFresh (fresh : Fin 2 → Bool) (cause : Fin 2 → Nat) (s : State) (e : Fin 2) : State :=
  if fresh e then s.hitAll e (cause e) else s

section
variable (fresh : Fin 2 → Bool) (cause : Fin 2 → Nat)

theorem hitFresh_outputsOnly (s : State) (e : Fin 2) : OutputsOnly s (hitFresh fresh cause s e) := by
  unfold hitFresh
  split
  · exact hitAll_outputsOnly ..
  · exact .refl s

theorem hitFresh_takes (h : EstopTakes s.safety.groups[i]) (e : Fin 2) :
    EstopTakes (hitFresh fresh cause s e).safety.groups[i] := by
  unfold hitFresh
  split
  · exact hitAll_takes h ..
  · exact h

theorem hitFresh_gone (h : TorqueGone s.safety.groups[i]) (e : Fin 2) :
    TorqueGone (hitFresh fresh cause s e).safety.groups[i] := by
  unfold hitFresh
  split
  · exact hitAll_gone h ..
  · exact h

variable {fresh}

/-- Whichever of the two E-stops with function STO becomes active, a group it maps ends LATCHED with torque off. -/
theorem eachFin_hitFresh_sto (h : EstopTakes s.safety.groups[i]) (hfresh : fresh e = true)
    (hmaps : bitAt (s.safeNounN (0x6600 + 16 * e.val)) i.val = true) (hfn : s.safeNoun (0x6601 + 16 * e.val) = 0) :
    TorqueGone (eachFin 2 (hitFresh fresh cause) s).safety.groups[i] := by
  have hown : ∀ z, OutputsOnly s z → EstopTakes z.safety.groups[i] → TorqueGone (hitFresh fresh cause z e).safety.groups[i] := by
    intro z hz htakes
    rw [hitFresh, if_pos hfresh]
    refine hitAll_sto htakes ?_ ?_ _
    · rw [safeNounN, hz.safeNoun]
      exact hmaps
    · rw [hz.safeNoun]
      exact hfn
  show TorqueGone (hitFresh fresh cause (hitFresh fresh cause s 0) 1).safety.groups[i]
  have htwo : e = 0 ∨ e = 1 := by omega
  rcases htwo with rfl | rfl
  · exact hitFresh_gone _ _ (hown s (.refl s) h) 1
  · exact hown _ (hitFresh_outputsOnly ..) (hitFresh_takes _ _ h 0)

end

/-- The two E-stop inputs after a sample. -/
def estopLevels (s : State) (e0 e1 : Bool) : Vector InSt 2 :=
  (s.safety.estop.set 0 (filterSample 50 s.safety.estop[0] e0)).set 1 (filterSample 50 s.safety.estop[1] e1)

/-- The channel with its E-stop inputs filtered, and the pairing error `p`. -/
def filterEstops (s : State) (e0 e1 p : Bool) : State :=
  s.modSafety fun q => { q with estop := s.estopLevels e0 e1, pairErr := p }

section
variable (s : State) (e0 e1 p : Bool)

@[simp] theorem filterEstops_estop : (s.filterEstops e0 e1 p).safety.estop = s.estopLevels e0 e1 := rfl
@[simp] theorem filterEstops_ctf : (s.filterEstops e0 e1 p).safety.ctf = s.safety.ctf := rfl
@[simp] theorem filterEstops_sreset : (s.filterEstops e0 e1 p).safety.sreset = s.safety.sreset := rfl
@[simp] theorem filterEstops_running : (s.filterEstops e0 e1 p).safety.running = s.safety.running := rfl
@[simp] theorem filterEstops_groups : (s.filterEstops e0 e1 p).safety.groups = s.safety.groups := rfl
@[simp] theorem filterEstops_safeNoun : (s.filterEstops e0 e1 p).safeNoun = s.safeNoun := rfl

theorem filterEstops_channelOnly : ChannelOnly s (s.filterEstops e0 e1 p) := rfl

end

/-- Which E-stops are active is told by the filtered levels and the pairing alone. -/
theorem estopActive_congr (hestop : t.safety.estop = s.safety.estop) (hrunning : t.safety.running = s.safety.running) (e : Fin 2) :
    t.estopActive e = s.estopActive e := by
  unfold estopActive safeNoun
  rw [hestop, hrunning]

/-- The inputs are filtered, PAIRERR may clear, and the E-stops that become active act. -/
theorem estopSample_hits (s : State) (e0 e1 : Bool) : ∃ p cause, s.estopSample e0 e1 =
    eachFin 2 (hitFresh (fun e => (s.filterEstops e0 e1 p).estopActive e && !s.estopActive e) cause) (s.filterEstops e0 e1 p) := by
  unfold estopSample
  extract_lets s1 low s2 paired
  obtain ⟨p, h2⟩ : ∃ p, s2 = s.filterEstops e0 e1 p := by
    unfold s2
    split
    · exact ⟨false, rfl⟩
    · exact ⟨s.safety.pairErr, rfl⟩
  have hactive : s1.estopActive = s2.estopActive := by
    rw [h2]
    exact funext (estopActive_congr rfl rfl)
  refine ⟨p, fun e => causeEstop (if paired && !low 0 then 1 else e.val), ?_⟩
  rw [← h2, ← hactive]
  rfl

theorem estopSample_outputsOnly (s : State) (e0 e1 : Bool) : ∃ p, OutputsOnly (s.filterEstops e0 e1 p) (s.estopSample e0 e1) := by
  obtain ⟨p, cause, heq⟩ := s.estopSample_hits e0 e1
  refine ⟨p, ?_⟩
  rw [heq]
  exact .eachFin (hitFresh_outputsOnly _ _) _

/-- The channel once requests and E-stop inputs are taken. -/
def takeEstops (s : State) (e0 e1 : Bool) : State := (eachFin 4 testRun s).estopSample e0 e1

theorem eachFin_testRun_outputsOnly (s : State) : OutputsOnly s (eachFin 4 testRun s) := .eachFin .testRun s

/-- The inputs are filtered from where they stood, and neither the other inputs nor the settings change. -/
theorem takeEstops_stands (s : State) (e0 e1 : Bool) : (s.takeEstops e0 e1).safety.estop = s.estopLevels e0 e1 ∧
    (s.takeEstops e0 e1).safety.ctf = s.safety.ctf ∧ (s.takeEstops e0 e1).safety.sreset = s.safety.sreset ∧
    (s.takeEstops e0 e1).safety.running = s.safety.running ∧ ChannelOnly s (s.takeEstops e0 e1) := by
  have hruns := s.eachFin_testRun_outputsOnly
  obtain ⟨p, hhits⟩ : ∃ p, OutputsOnly ((eachFin 4 testRun s).filterEstops e0 e1 p) (s.takeEstops e0 e1) :=
    estopSample_outputsOnly ..
  have hlevels : (eachFin 4 testRun s).estopLevels e0 e1 = s.estopLevels e0 e1 := by
    simp only [estopLevels, hruns.estop]
  refine ⟨?_, ?_, ?_, ?_, (hruns.channelOnly.trans (filterEstops_channelOnly ..)).trans hhits.channelOnly⟩
  · rw [hhits.estop, filterEstops_estop, hlevels]
  · rw [hhits.ctf, filterEstops_ctf, hruns.ctf]
  · rw [hhits.sreset, filterEstops_sreset, hruns.sreset]
  · rw [hhits.running, filterEstops_running, hruns.running]

/-- A mapped group that is neither LATCHED nor in FAULT ends LATCHED with torque off when an E-stop with function STO becomes
active (R292, R300). -/
theorem takeEstops_gone {e0 e1 : Bool} (hactive : (s.takeEstops e0 e1).estopActive e = true) (hidle : s.estopActive e = false)
    (hmaps : bitAt (s.safeNounN (0x6600 + 16 * e.val)) i.val = true) (hfn : s.safeNoun (0x6601 + 16 * e.val) = 0)
    (hlatched : (s.safety.groups[i]).state ≠ .latched) (hfault : (s.safety.groups[i]).state ≠ .fault) :
    TorqueGone (s.takeEstops e0 e1).safety.groups[i] := by
  have hruns := s.eachFin_testRun_outputsOnly
  obtain ⟨p, cause, heq⟩ := (eachFin 4 testRun s).estopSample_hits e0 e1
  have htakes : EstopTakes (eachFin 4 testRun s).safety.groups[i] := eachFin_testRun_takes (.of_live hlatched hfault)
  have hfiltered : EstopTakes ((eachFin 4 testRun s).filterEstops e0 e1 p).safety.groups[i] := by
    simpa only [filterEstops_groups] using htakes
  have hnouns : ((eachFin 4 testRun s).filterEstops e0 e1 p).safeNoun = s.safeNoun := by
    rw [filterEstops_safeNoun, hruns.safeNoun]
  have hout : OutputsOnly ((eachFin 4 testRun s).filterEstops e0 e1 p) (s.takeEstops e0 e1) := by
    rw [takeEstops, heq]
    exact .eachFin (hitFresh_outputsOnly _ _) _
  rw [takeEstops, heq]
  refine eachFin_hitFresh_sto cause hfiltered (e := e) ?_ ?_ ?_
  · rw [← estopActive_congr hout.estop hout.running, hactive, estopActive_congr hruns.estop hruns.running, hidle]
    rfl
  · rw [safeNounN, hnouns]
    exact hmaps
  · rw [hnouns]
    exact hfn

/-! ## The feedback inputs (R293, R302) -/

/-- One state differs from another in the channel, but not in its E-stop inputs, SRESET or settings; and in no more than a
channel fault can change outside it. -/
def FeedbackOnly (s t : State) : Prop := ChannelOnly s t ∧ t.safety.estop = s.safety.estop ∧
  t.safety.sreset = s.safety.sreset ∧ t.safety.running = s.safety.running

theorem FeedbackOnly.refl (s : State) : FeedbackOnly s s := ⟨.refl s, rfl, rfl, rfl⟩

theorem FeedbackOnly.trans {u : State} (hst : FeedbackOnly s t) (htu : FeedbackOnly t u) : FeedbackOnly s u := by
  obtain ⟨hframe, hestop, hsreset, hrunning⟩ := hst
  obtain ⟨hframe', hestop', hsreset', hrunning'⟩ := htu
  exact ⟨hframe.trans hframe', hestop'.trans hestop, hsreset'.trans hsreset, hrunning'.trans hrunning⟩

theorem OutputsOnly.feedbackOnly (h : OutputsOnly s t) : FeedbackOnly s t := ⟨h.channelOnly, h.estop, h.sreset, h.running⟩

theorem channelFault_feedbackOnly (s : State) (cause index : Nat) : FeedbackOnly s (s.channelFault cause index) := by
  obtain ⟨t, ht, heq⟩ := s.channelFault_logged cause index
  have hnote : FeedbackOnly s (s.noteFault cause index) := ⟨.modSafety .., rfl, rfl, rfl⟩
  have hlog : FeedbackOnly t (t.logEvent sevDetected 0x0901 objSafety cause) :=
    ⟨.logEvent .., by rw [logEvent_safety], by rw [logEvent_safety], by rw [logEvent_safety]⟩
  rw [heq]
  exact (hnote.trans ht.feedbackOnly).trans hlog

theorem channelFault_ctf (s : State) (cause index : Nat) : (s.channelFault cause index).safety.ctf = s.safety.ctf := by
  obtain ⟨t, ht, heq⟩ := s.channelFault_logged cause index
  rw [heq, logEvent_safety]
  exact ht.ctf

section
variable (s : State) (j : Fin 8) (raw : Bool)

/-- The channel with the sample of one feedback input filtered. -/
def filterFeedback : State :=
  s.modSafety fun q => { q with ctf := s.safety.ctf.set j (filterSample 100 s.safety.ctf[j] raw) }

/-- A feedback sample is filtered, and a turn of a steady output's feedback is a channel fault. -/
theorem ctfSample_cases : s.ctfSample j raw = s.filterFeedback j raw ∨
    ((filterSample 100 s.safety.ctf[j] raw).level ≠ (s.safety.ctf[j]).level ∧
      ∃ f, s.ctfSample j raw = (s.filterFeedback j raw).channelFault f j.val) := by
  unfold ctfSample
  extract_lets y turned s1
  split
  · next hturned =>
    split
    · next f hsteady => exact .inr ⟨bne_iff_ne.mp hturned, f, rfl⟩
    · exact .inl rfl
  · exact .inl rfl

theorem ctfSample_feedbackOnly : FeedbackOnly s (s.ctfSample j raw) := by
  have hfilter : FeedbackOnly s (s.filterFeedback j raw) := ⟨.modSafety .., rfl, rfl, rfl⟩
  rcases s.ctfSample_cases j raw with heq | ⟨-, f, heq⟩ <;> rw [heq]
  · exact hfilter
  · exact hfilter.trans (channelFault_feedbackOnly ..)

theorem ctfSample_ctf : (s.ctfSample j raw).safety.ctf = s.safety.ctf.set j (filterSample 100 s.safety.ctf[j] raw) := by
  rcases s.ctfSample_cases j raw with heq | ⟨-, f, heq⟩ <;> rw [heq]
  · rfl
  · exact channelFault_ctf ..

theorem ctfSample_ctf_same : (s.ctfSample j raw).safety.ctf[j] = filterSample 100 s.safety.ctf[j] raw := by
  rw [ctfSample_ctf]
  simp

theorem ctfSample_ctf_other {l : Fin 8} (h : j ≠ l) : (s.ctfSample j raw).safety.ctf[l] = s.safety.ctf[l] := by
  have hval : j.val ≠ l.val := fun hval => h (Fin.ext hval)
  rw [ctfSample_ctf]
  simp [hval]

variable {s j raw}

theorem ctfSample_groups (h : (filterSample 100 s.safety.ctf[j] raw).level = (s.safety.ctf[j]).level) :
    (s.ctfSample j raw).safety.groups = s.safety.groups := by
  rcases s.ctfSample_cases j raw with heq | ⟨hturned, -⟩
  · rw [heq]
    rfl
  · exact absurd h hturned

end

/-- The channel once the feedback inputs are taken. -/
def takeFeedbacks (s : State) (ctf : Byte) : State := eachFin 8 (fun z j => z.ctfSample j (ctf.getLsbD j.val)) s

theorem takeFeedbacks_feedbackOnly (s : State) (ctf : Byte) : FeedbackOnly s (s.takeFeedbacks ctf) :=
  eachFin_keeps (fun z j hz => hz.trans (z.ctfSample_feedbackOnly j _)) (.refl s)

theorem takeFeedbacks_ctf (s : State) (ctf : Byte) (j : Fin 8) :
    (s.takeFeedbacks ctf).safety.ctf[j] = filterSample 100 s.safety.ctf[j] (ctf.getLsbD j.val) :=
  eachFin_view (view := fun j z => z.safety.ctf[j]) (step := fun j x => filterSample 100 x (ctf.getLsbD j.val))
    (fun z j => z.ctfSample_ctf_same j _) (fun z _ _ hne => z.ctfSample_ctf_other _ _ hne) s j

/-- Inputs that do not turn change no group, each sampled once. -/
theorem foldl_ctfSample_groups {ctf : Byte} {l : List (Fin 8)} (hl : l.Nodup)
    (h : ∀ j ∈ l, (filterSample 100 s.safety.ctf[j] (ctf.getLsbD j.val)).level = (s.safety.ctf[j]).level) :
    (l.foldl (fun z j => z.ctfSample j (ctf.getLsbD j.val)) s).safety.groups = s.safety.groups := by
  induction l generalizing s with
  | nil => rfl
  | cons j r ih =>
    obtain ⟨hj, hr⟩ := List.nodup_cons.mp hl
    refine (ih hr fun m hm => ?_).trans (ctfSample_groups (h j List.mem_cons_self))
    rw [s.ctfSample_ctf_other j _ (ne_of_mem_of_not_mem hm hj).symm]
    exact h m (List.mem_cons_of_mem j hm)

theorem takeFeedbacks_groups {ctf : Byte}
    (h : ∀ j : Fin 8, (filterSample 100 s.safety.ctf[j] (ctf.getLsbD j.val)).level = (s.safety.ctf[j]).level) :
    (s.takeFeedbacks ctf).safety.groups = s.safety.groups :=
  foldl_ctfSample_groups (List.nodup_finRange 8) fun j _ => h j

/-! ## SRESET (R301) -/

/-- SRESET after a sample, high for `n` samples. -/
def filterSreset (s : State) (raw : Bool) (n : Nat) : State :=
  s.modSafety fun q => { q with sreset := filterSample 100 s.safety.sreset raw, sresetHigh := n }

/-- SRESET is filtered, and a pulse that counts is a reset. -/
theorem sresetSample_cases (s : State) (raw : Bool) : ∃ n, s.sresetSample raw = s.filterSreset raw n ∨
    s.sresetSample raw = (s.filterSreset raw n).acceptReset.1 := by
  unfold sresetSample
  extract_lets y n fell s1
  refine ⟨if y.level then n + 1 else 0, ?_⟩
  split
  · exact .inr rfl
  · exact .inl rfl

theorem sresetSample_outputsOnly (s : State) (raw : Bool) : ∃ n, OutputsOnly (s.filterSreset raw n) (s.sresetSample raw) := by
  obtain ⟨n, heq | heq⟩ := s.sresetSample_cases raw <;> refine ⟨n, ?_⟩ <;> rw [heq]
  · exact .refl _
  · exact .acceptReset _

theorem estopHolds_of_active (hactive : s.estopActive e = true)
    (hmaps : bitAt (s.safeNounN (0x6600 + 16 * e.val)) i.val = true) : s.estopHolds i = true :=
  List.any_eq_true.mpr ⟨e, List.mem_finRange e, Bool.and_eq_true_iff.mpr ⟨hactive, hmaps⟩⟩

/-- A reset leaves a group that an active E-stop maps as it is (R299, R301). -/
theorem acceptReset_group_held (h : s.estopHolds k = true) : s.acceptReset.1.safety.groups[k] = s.safety.groups[k] := by
  cases hpair : s.safety.pairErr with
  | true => rw [acceptReset, if_pos hpair]
  | false =>
    rw [acceptReset_groups hpair, eachFin_modStoWhere_group, if_neg (by simp [h])]

theorem sresetSample_group_held (h : s.estopHolds k = true) (raw : Bool) :
    (s.sresetSample raw).safety.groups[k] = s.safety.groups[k] := by
  obtain ⟨n, heq | heq⟩ := s.sresetSample_cases raw <;> rw [heq]
  · rfl
  · exact acceptReset_group_held (s := s.filterSreset raw n) h

/-! ## SAFETY_INPUT_SAMPLE (R285) -/

/-- The channel after one sample of every input. -/
def takeInputs (s : State) (ctf : Byte) (sreset e0 e1 : Bool) : State :=
  (((s.takeEstops e0 e1).takeFeedbacks ctf).sresetSample sreset).settleSafety

theorem exec_safetyInputSample (ctf : Byte) (sreset e0 e1 : Bool) (s : State) :
    exec (.safetyInputSample ctf sreset e0 e1) s = .next (s.takeInputs ctf sreset e0 e1) := rfl

/-- Every input passes its filter, and nothing but the channel, the main axes, the mailbox and the log changes. -/
theorem takeInputs_stands (s : State) (ctf : Byte) (sreset e0 e1 : Bool) :
    (s.takeInputs ctf sreset e0 e1).safety.estop = s.estopLevels e0 e1 ∧
      (s.takeInputs ctf sreset e0 e1).safety.sreset = filterSample 100 s.safety.sreset sreset ∧
      (∀ j : Fin 8, (s.takeInputs ctf sreset e0 e1).safety.ctf[j] = filterSample 100 s.safety.ctf[j] (ctf.getLsbD j.val)) ∧
      ChannelOnly s (s.takeInputs ctf sreset e0 e1) := by
  obtain ⟨hestop, hctf, hsreset, -, hframe⟩ := s.takeEstops_stands e0 e1
  obtain ⟨hframe', hestop', hsreset', -⟩ := (s.takeEstops e0 e1).takeFeedbacks_feedbackOnly ctf
  obtain ⟨n, hreset⟩ := ((s.takeEstops e0 e1).takeFeedbacks ctf).sresetSample_outputsOnly sreset
  have hout : OutputsOnly _ (s.takeInputs ctf sreset e0 e1) := hreset.trans (.settleSafety _)
  refine ⟨hout.estop.trans (hestop'.trans hestop), hout.sreset.trans ?_, fun j => ?_,
    ((hframe.trans hframe').trans (.modSafety ..)).trans hout.channelOnly⟩
  · rw [← hsreset, ← hsreset']
    rfl
  · rw [hout.ctf, ← hctf]
    exact takeFeedbacks_ctf ..

/-- With no feedback input turning, a group that an E-stop with function STO maps is LATCHED with torque off when that E-stop
becomes active: no reset takes it while the E-stop is active. -/
theorem takeInputs_gone {ctf : Byte} {e0 e1 : Bool} (sreset : Bool)
    (hquiet : ∀ j : Fin 8, (filterSample 100 s.safety.ctf[j] (ctf.getLsbD j.val)).level = (s.safety.ctf[j]).level)
    (hactive : (s.takeEstops e0 e1).estopActive e = true) (hidle : s.estopActive e = false)
    (hmaps : bitAt (s.safeNounN (0x6600 + 16 * e.val)) i.val = true) (hfn : s.safeNoun (0x6601 + 16 * e.val) = 0)
    (hlatched : (s.safety.groups[i]).state ≠ .latched) (hfault : (s.safety.groups[i]).state ≠ .fault) :
    TorqueGone (s.takeInputs ctf sreset e0 e1).safety.groups[i] := by
  obtain ⟨-, hctf, -, hrunning, -⟩ := s.takeEstops_stands e0 e1
  obtain ⟨-, hestop', -, hrunning'⟩ := (s.takeEstops e0 e1).takeFeedbacks_feedbackOnly ctf
  have hgone := takeEstops_gone hactive hidle hmaps hfn hlatched hfault
  have hheld : ((s.takeEstops e0 e1).takeFeedbacks ctf).estopHolds i = true := by
    refine estopHolds_of_active (e := e) ((estopActive_congr hestop' hrunning' e).trans hactive) ?_
    rw [safeNounN, safeNoun, hrunning', hrunning]
    exact hmaps
  have hgroup : (((s.takeEstops e0 e1).takeFeedbacks ctf).sresetSample sreset).safety.groups[i] =
      (s.takeEstops e0 e1).safety.groups[i] := by
    rw [sresetSample_group_held hheld, takeFeedbacks_groups (by rwa [hctf])]
  have hwaits : stoWaits (((s.takeEstops e0 e1).takeFeedbacks ctf).sresetSample sreset).safety.groups[i] = false := by
    rw [hgroup, stoWaits, hgone.1]
    rfl
  rw [takeInputs, settleSafety_group hwaits, hgroup]
  exact hgone

end State

open State

/-- Settles O32: each input by its filter, and a group through the E-stops in turn, the feedbacks and SRESET. -/
theorem safetyInputsAreFilteredAndEstopsLatch : Obligations.SafetyInputsAreFilteredAndEstopsLatch := by
  intro ctf sreset e0 e1 s levels s1
  obtain ⟨hestop, hsreset, hctf, hframe⟩ := s.takeInputs_stands ctf sreset e0 e1
  refine ⟨_, exec_safetyInputSample .., hestop, hsreset, hctf, fun hquiet e i hactive hidle hmaps hfn hlatched hfault => ?_,
    hframe, fun n x raw => ⟨fun hsame => filterSample_agrees hsame n, filterSample_turns, filterSample_counts⟩⟩
  obtain ⟨hlevels, -, -, hrunning, -⟩ := s.takeEstops_stands e0 e1
  have hnow : (s.takeEstops e0 e1).estopActive e = true := (estopActive_congr (s := s1) hlevels hrunning e).trans hactive
  exact takeInputs_gone sreset hquiet hnow hidle hmaps hfn hlatched hfault

end Sys2Proof.Machine
end

section
/-! Proofs: no command takes a record out of the persistent log but by newer ones (R333). -/

namespace Sys2Proof.Machine

open State

/-- Settles O5: what every command keeps of the state it starts from names the persistent log. -/
theorem persistentLogSurvivesEveryCommand : Obligations.PersistentLogSurvivesEveryCommand := by
  intro c s t hs hexec
  obtain ⟨u, hu, -, -, hlog, -⟩ := (exec_kept (Kept.start hs) c).answers
  obtain rfl : t = u := Host.Outcome.next.inj (hexec.symm.trans hu)
  exact hlog

end Sys2Proof.Machine
end

section
/-! Proofs: the number of a fresh ticket, and the taking and take-up of a sentence (R336, R354, R357 to R361). -/

namespace Sys2Proof.Machine.State

/-! ## The next ticket number (R336) -/

/-- The number after `n` (R336). -/
def numberAfter (n : Nat) : Nat := if 65535 ≤ n then 1 else n + 1

theorem nextNumber_succ (used : List Nat) (k n : Nat) : nextNumber used (k + 1) n =
    if used.contains (numberAfter n) then nextNumber used k (numberAfter n) else numberAfter n := rfl

/-- The numbers after the first run through 1 to 65535. -/
theorem numberAfter_iterate (n i : Nat) : numberAfter^[i + 1] n = (numberAfter n - 1 + i) % 65535 + 1 := by
  have hfirst : 1 ≤ numberAfter n ∧ numberAfter n ≤ 65535 := by
    unfold numberAfter
    split <;> omega
  induction i with
  | zero =>
    rw [Function.iterate_one]
    omega
  | succ i ih =>
    rw [Function.iterate_succ_apply', ih]
    generalize numberAfter n = m at hfirst
    unfold numberAfter
    split <;> omega

/-- The search ends at one of the numbers after `n`, and where that is taken all of them are. -/
theorem nextNumber_visits (used : List Nat) (k n : Nat) : (∃ i ≤ k, nextNumber used (k + 1) n = numberAfter^[i + 1] n) ∧
    (nextNumber used (k + 1) n ∈ used → ∀ i ≤ k, numberAfter^[i + 1] n ∈ used) := by
  induction k generalizing n with
  | zero =>
    have hnext : nextNumber used 1 n = numberAfter n := by
      rw [nextNumber_succ]
      exact ite_self _
    refine ⟨⟨0, le_rfl, hnext⟩, fun hused i hi => ?_⟩
    rw [hnext] at hused
    rwa [Nat.le_zero.mp hi]
  | succ k ih =>
    obtain ⟨⟨i, hi, hnext⟩, hall⟩ := ih (numberAfter n)
    rw [nextNumber_succ]
    split
    · next hfirst =>
      refine ⟨⟨i + 1, by omega, hnext⟩, fun hused j hj => ?_⟩
      cases j with
      | zero => exact List.contains_iff_mem.mp hfirst
      | succ j => exact hall hused j (by omega)
    · next hfirst => exact ⟨⟨0, by omega, rfl⟩, fun hused => absurd (List.contains_iff_mem.mpr hused) hfirst⟩

theorem nextNumber_bounds (used : List Nat) (k n : Nat) :
    1 ≤ nextNumber used (k + 1) n ∧ nextNumber used (k + 1) n ≤ 65535 := by
  obtain ⟨⟨i, -, hnext⟩, -⟩ := nextNumber_visits used k n
  rw [hnext, numberAfter_iterate]
  omega

/-- A search longer than the numbers taken finds a free one: what it visits are different numbers. -/
theorem nextNumber_fresh {used : List Nat} (h : used.length < 65535) (n : Nat) :
    nextNumber used (used.length + 1) n ∉ used := by
  intro hused
  have hsub : (List.range (used.length + 1)).map (fun i => numberAfter^[i + 1] n) ⊆ used := by
    intro x hx
    obtain ⟨i, hi, rfl⟩ := List.mem_map.mp hx
    exact (nextNumber_visits used used.length n).2 hused i (Nat.lt_succ_iff.mp (List.mem_range.mp hi))
  have hnodup : ((List.range (used.length + 1)).map fun i => numberAfter^[i + 1] n).Nodup := by
    refine List.Nodup.map_on (fun i hi j hj heq => ?_) List.nodup_range
    rw [List.mem_range] at hi hj
    simp only [numberAfter_iterate] at heq
    omega
  have hle := (hnodup.subperm hsub).length_le
  rw [List.length_map, List.length_range] at hle
  omega

/-! ## SENTENCE_TAKEN (R354, R357) -/

section
variable {s : State} {x : Sentence} {o : Origin} {r : List (Sentence × Origin)}

theorem exec_sentenceTaken_idle (h : s.mail.input = [] ∨ s.serving = false) : exec .sentenceTaken s = .next s := by
  show execSentenceTaken s = _
  unfold execSentenceTaken
  split
  · rfl
  · next heq =>
    rcases h with h | h
    · exact absurd (heq.symm.trans h) (List.cons_ne_nil _ _)
    · simp [h]

/-- The state whose oldest sentence is taken from the input journal. -/
def takeInput (s : State) (r : List (Sentence × Origin)) : State := s.modMail fun m => { m with input := r }

variable (hinput : s.mail.input = (x, o) :: r) (hserving : s.serving = true)
include hinput hserving

theorem exec_sentenceTaken_malformed (h : x.wellFormed = false) :
    exec .sentenceTaken s = .next ((s.takeInput r).emit (.bareReply o 0x46 x.verb x.noun)) := by
  show execSentenceTaken s = _
  simp only [execSentenceTaken, hinput, hserving, h]
  rfl

theorem exec_sentenceTaken_busy (h : x.wellFormed = true) (hbusy : 32 ≤ s.inFlightCount ∨ s.sessionFull o = true) :
    exec .sentenceTaken s = .next ((s.takeInput r).emit (.bareReply o 0x45 x.verb x.noun)) := by
  show execSentenceTaken s = _
  simp only [execSentenceTaken, hinput, hserving, h, hbusy]
  rfl

theorem exec_sentenceTaken_issues (h : x.wellFormed = true) (hcount : s.inFlightCount < 32) (hfull : s.sessionFull o = false) :
    exec .sentenceTaken s = .next ((s.takeInput r).issue x o) := by
  have hbusy : ¬(32 ≤ s.inFlightCount ∨ s.sessionFull o = true) := by simp [hfull, hcount]
  show execSentenceTaken s = _
  simp only [execSentenceTaken, hinput, hserving, h, hbusy]
  rfl

end

/-! ## A ticket is issued -/

section
variable (s : State) (x : Sentence) (o : Origin)

/-- The number of the next ticket. -/
def freshNumber : Nat := nextNumber (s.mail.tickets.map Ticket.num) (s.mail.tickets.length + 1) s.mail.lastTicket

/-- The ticket issued for a sentence, in a tense. -/
def freshTicket (e : Tense) : Ticket :=
  { num := s.freshNumber, sent := x, origin := o, tense := e, stage := if x.has 1 || x.verb == 0x30 then .taken else .held }

/-- A ticket stands behind the others. -/
def addTicket : State := s.modMail fun m => { m with
  lastTicket := s.freshNumber
  tickets := m.tickets ++ [s.freshTicket x o .future] }

theorem issue_eq : s.issue x o = match s.earlyRefusal x with
    | some st => (s.addTicket x o).finish s.freshNumber st
    | none => (s.addTicket x o).emit (.reply s.freshNumber stPending .future []) := by
  simp only [issue, List.length_map]
  rfl

/-- A completion changes no more of the mailbox than the tickets, the tickets that ended and the output journal. -/
theorem finish_mail_frame (n st : Nat) (ws : List Word) : (s.finish n st ws).mail = { s.mail with
    tickets := (s.finish n st ws).mail.tickets
    ended := (s.finish n st ws).mail.ended
    output := (s.finish n st ws).mail.output } := by
  unfold finish
  split <;> rfl

theorem finish_tickets {n : Nat} (h : (s.inFlight? n).isSome = true) (st : Nat) (ws : List Word) :
    (s.finish n st ws).mail.tickets = s.mail.tickets.map fun k => if k.num = n then { k with tense := .past } else k := by
  unfold finish
  split
  · rfl
  · next hnone => simp [hnone] at h

theorem addTicket_inFlight : ((s.addTicket x o).inFlight? s.freshNumber).isSome = true := by
  rw [inFlight?, List.find?_isSome]
  exact ⟨s.freshTicket x o .future, by simp [addTicket, modMail], by simp [freshTicket]⟩

theorem issue_mail : (s.issue x o).mail.input = s.mail.input ∧ (s.issue x o).mail.lastTicket = s.freshNumber ∧
    s.issue x o = { s with mail := (s.issue x o).mail } := by
  rw [issue_eq]
  cases s.earlyRefusal x with
  | none => exact ⟨rfl, rfl, rfl⟩
  | some st =>
    dsimp only
    exact ⟨by rw [finish_mail_frame]; rfl, by rw [finish_mail_frame]; rfl, by rw [finish_frame]; rfl⟩

variable {s} (h : s.mail.tickets.length < 65535)
include h

theorem freshNumber_ne {k : Ticket} (hk : k ∈ s.mail.tickets) : k.num ≠ s.freshNumber := by
  intro heq
  have hfresh := nextNumber_fresh (used := s.mail.tickets.map Ticket.num) (by rwa [List.length_map]) s.mail.lastTicket
  rw [List.length_map] at hfresh
  exact hfresh (List.mem_map.mpr ⟨k, hk, heq⟩)

/-- The ticket issued is past where its sentence is refused at once, and in the future otherwise. -/
theorem issue_tickets : (s.issue x o).mail.tickets =
    s.mail.tickets ++ [s.freshTicket x o (if s.earlyRefusal x = none then .future else .past)] := by
  rw [issue_eq]
  cases hearly : s.earlyRefusal x with
  | none => rfl
  | some st =>
    have hothers : ∀ k ∈ s.mail.tickets, (if k.num = s.freshNumber then { k with tense := .past } else k) = k :=
      fun k hk => if_neg (freshNumber_ne h hk)
    dsimp only
    rw [finish_tickets _ (s.addTicket_inFlight x o)]
    simp only [addTicket, modMail, List.map_append, List.map_congr_left hothers]
    simp [freshTicket]

end

/-! ## SENTENCE_TAKE_UP (R358 to R361) -/

section
variable {s : State} {b : BitVec 16} {k : Ticket}

theorem exec_sentenceTakeUp_none (h : s.inFlight? b.toNat = none) : exec (.sentenceTakeUp b) s = .next s := by
  show execSentenceTakeUp b s = _
  simp only [execSentenceTakeUp, h]

variable (h : s.inFlight? b.toNat = some k)
include h

theorem exec_sentenceTakeUp_idle (hidle : s.serving = false ∨ k.stage ≠ .held ∨ s.afterState k = none) :
    exec (.sentenceTakeUp b) s = .next s := by
  show execSentenceTakeUp b s = _
  simp only [execSentenceTakeUp, h]
  split
  · rfl
  · next hready =>
    rcases hidle with hidle | hidle | hidle
    · simp [hidle] at hready
    · simp [hidle] at hready
    · rw [hidle]

variable (hserving : s.serving = true) (hheld : k.stage = .held)
include hserving hheld

theorem exec_sentenceTakeUp_held : exec (.sentenceTakeUp b) s = .next (match s.afterState k with
    | none => s
    | some (some st) => s.finish k.num st
    | some none => if s.mustWait k then s
      else match s.sampleRefusal k with
        | some st => s.finish k.num st
        | none => s.modTicket k.num fun x => { x with stage := .taken }) := by
  show execSentenceTakeUp b s = _
  simp only [execSentenceTakeUp, h, hserving, hheld]
  rfl

end

end Sys2Proof.Machine.State

namespace Sys2Proof.Machine

open State

/-- Settles O46: a ticket issued is fresh, since the search visits more numbers than are taken; a take-up has one branch for each
clause. -/
theorem sentencesGetFreshTicketsInOrder : Obligations.SentencesGetFreshTicketsInOrder := by
  intro s
  refine ⟨exec_sentenceTaken_idle, fun x o r hinput hserving => ?_, fun b => ⟨exec_sentenceTakeUp_none, fun k hk => ?_⟩⟩
  · refine ⟨exec_sentenceTaken_malformed hinput hserving, exec_sentenceTaken_busy hinput hserving,
      fun hwell hcount hfull hroom => ?_⟩
    obtain ⟨hin, hlast, hframe⟩ := issue_mail (s := s.takeInput r) x o
    obtain ⟨hlow, hhigh⟩ := nextNumber_bounds (s.mail.tickets.map Ticket.num) s.mail.tickets.length s.mail.lastTicket
    refine ⟨_, _, exec_sentenceTaken_issues hinput hserving hwell hcount hfull, hlast, hlow, hhigh,
      fun k hk => freshNumber_ne hroom hk, hin, ⟨_, issue_tickets (s := s.takeInput r) x o hroom, rfl, rfl, rfl, ?_, ?_⟩, hframe⟩
    · have hearly : (s.takeInput r).earlyRefusal x = s.earlyRefusal x := rfl
      simp [freshTicket, hearly]
    · simp only [freshTicket]
      cases x.has 1 <;> simp
  · refine ⟨exec_sentenceTakeUp_idle hk, fun hserving hheld st hafter => ?_, fun hserving hheld hafter => ⟨?_, ?_, ?_⟩, ?_, ?_, ?_⟩
    · rw [exec_sentenceTakeUp_held hk hserving hheld, hafter]
    · intro hwait
      rw [exec_sentenceTakeUp_held hk hserving hheld, hafter]
      simp only [hwait, if_true]
    · intro hwait st hrefusal
      rw [exec_sentenceTakeUp_held hk hserving hheld, hafter]
      simp [hwait, hrefusal]
    · intro hwait hrefusal
      rw [exec_sentenceTakeUp_held hk hserving hheld, hafter]
      simp [hwait, hrefusal]
    · intro a e hoperand hflight hended hfailed
      simp [afterState, hoperand, hflight, hended, Nat.not_le.mpr hfailed, stPriorFailed]
    · intro a hoperand hflight
      simp [afterState, hoperand, hflight]
    · intro hoperand
      simp [afterState, hoperand]

end Sys2Proof.Machine
end

section
/-! Proofs: a group asked into its emergency mode (R328). -/

namespace Sys2Proof.Machine

/-- A group asked into its emergency mode keeps the cause that is due (R328). -/
def Group.asked (q : Group) (cause : Nat) : Group :=
  if q.running then { q with edue := some (q.edue.getD cause) } else q

theorem Group.asked_of_running {q : Group} (h : q.running = true) (cause : Nat) :
    q.asked cause = { q with edue := some (q.edue.getD cause) } := if_pos h

theorem Group.asked_of_stopped {q : Group} (h : ¬q.running = true) (cause : Nat) : q.asked cause = q := if_neg h

namespace State

variable (s : State) (g : Grp) (cause : Nat)

theorem askEmergency_group_same : (s.askEmergency g cause).groups[g] = (s.groups[g]).asked cause := by
  unfold askEmergency runs Group.asked
  split
  · exact vmod_same ..
  · rfl

theorem askEmergency_group_other {k : Grp} (h : g ≠ k) : (s.askEmergency g cause).groups[k] = s.groups[k] := by
  unfold askEmergency
  split
  · exact vmod_other _ _ h
  · rfl

theorem askEmergency_frame : s.askEmergency g cause = { s with groups := (s.askEmergency g cause).groups } := by
  unfold askEmergency
  split <;> rfl

end State

end Sys2Proof.Machine
end

section
/-! Proofs: a core mismatch rolls back, pairs the spare core or loses the processor (R320 to R324). -/

namespace Sys2Proof.Machine.State

variable {s : State} {newerOk c0 c1 : Bool}

/-! ## The processor is lost (R324) -/

/-- Every group is asked into its emergency mode. -/
def askGroups (s : State) (cause : Nat) : State := eachFin 8 (fun (z : State) g => z.askEmergency g cause) s

theorem askGroups_group (s : State) (cause : Nat) (g : Grp) : (s.askGroups cause).groups[g] = (s.groups[g]).asked cause := by
  unfold askGroups
  exact eachFin_view (view := fun g (z : State) => z.groups[g]) (step := fun _ q => q.asked cause)
    (fun z g => z.askEmergency_group_same g cause) (fun z _ _ hne => z.askEmergency_group_other _ cause hne) s g

theorem askGroups_frame (s : State) (cause : Nat) : s.askGroups cause = { s with groups := (s.askGroups cause).groups } := by
  refine eachFin_keeps (P := fun z => z = { s with groups := z.groups }) (fun z g hz => ?_) rfl
  rw [askEmergency_frame, hz]

theorem restrictPorts_frame (s : State) : s.restrictPorts = { s with can := s.restrictPorts.can } := by
  refine eachFin_keeps (P := fun z => z = { s with can := z.can }) (fun z p hz => ?_) rfl
  rw [hz]
  rfl

/-- The state in which the pair is lost. -/
def noPair (s : State) : State := { s with faults := { s.faults with cpu := .lost } }

theorem loseProcessor_eq (s : State) :
    s.loseProcessor = ((s.noPair.askGroups 3).restrictPorts).logEvent sevDetected 0x0A13 objFault := rfl

/-- The pair is lost, the running groups are asked into their emergency modes, and nothing moves at once. -/
theorem loseProcessor_stands (s : State) : s.loseProcessor.faults = { s.faults with cpu := .lost } ∧
    (∀ g : Grp, s.runs g = true → (s.loseProcessor.groups[g]).edue.isSome = true) ∧
    s.loseProcessor.safety = s.safety ∧ s.loseProcessor.mains = s.mains := by
  rw [loseProcessor_eq, logEvent_faults, logEvent_groups, logEvent_safety, logEvent_mains, restrictPorts_frame]
  refine ⟨?_, fun g hruns => ?_, ?_, ?_⟩
  · rw [askGroups_frame]
    rfl
  · rw [askGroups_group, Group.asked_of_running (by exact hruns)]
    rfl
  · rw [askGroups_frame]
    rfl
  · rw [askGroups_frame]
    rfl

/-! ## CORE_MISMATCH (R320) -/

/-- A mismatch came in the last 100 ms (R323). -/
def SoonAgain (s : State) : Prop := ∃ t, s.faults.mismatchAt = some t ∧ s.time.now ≤ t + ticks100ms

theorem mismatch_of_first (h : ¬s.SoonAgain) (newerOk c0 c1 : Bool) : s.mismatch newerOk c0 c1 = s.rollback newerOk := by
  unfold mismatch
  extract_lets again
  have hfirst : again = false := by
    unfold again
    split
    · next t hlast => exact decide_eq_false fun hsoon => h ⟨t, hlast, hsoon⟩
    · rfl
  rw [hfirst]
  rfl

theorem mismatch_of_soonAgain (h : s.SoonAgain) (newerOk c0 c1 : Bool) : s.mismatch newerOk c0 c1 =
    if s.faults.cpu = .original then s.pairPunty c0 c1 else s.loseProcessor := by
  obtain ⟨t, hlast, hsoon⟩ := h
  simp only [mismatch, hlast, decide_eq_true hsoon]
  rfl

theorem rollback_of_good (h : (newerOk && s.faults.newerOk) = true ∨ s.faults.olderOk = true) : s.rollback newerOk =
    ({ s with faults := { s.faults with rollbacks := inc32 s.faults.rollbacks, mismatchAt := some s.time.now } } : State).logEvent
      sevMasked 0x0A10 objFault (if newerOk && s.faults.newerOk then 0 else 1) := by
  unfold rollback
  refine if_neg fun hbad => ?_
  obtain ⟨hnewer, holder⟩ := Bool.and_eq_true_iff.mp hbad
  rcases h with h | h
  · simp [h] at hnewer
  · simp [h] at holder

theorem rollback_of_none (hnewer : (newerOk && s.faults.newerOk) = false) (holder : s.faults.olderOk = false) :
    s.rollback newerOk = s.loseProcessor := by
  unfold rollback
  exact if_pos (by simp [hnewer, holder])

theorem pairPunty_of_good (hgood : s.faults.puntyGood = true) (h : c0 = true ∨ c1 = true) : s.pairPunty c0 c1 =
    ({ s with faults := { s.faults with
        cpu := if c0 then .puntyWith0 else .puntyWith1
        puntyPower := true
        mismatchAt := none } } : State).logEvent sevExposure (if c0 && c1 then 0x0A12 else 0x0A11) objFault (if c0 then 1 else 0) := by
  unfold pairPunty
  rw [if_neg (by rcases h with h | h <;> simp [h, hgood])]
  cases c0 <;> rfl

theorem pairPunty_of_bad (h : s.faults.puntyGood = false ∨ (c0 = false ∧ c1 = false)) : s.pairPunty c0 c1 = s.loseProcessor := by
  unfold pairPunty
  refine if_pos ?_
  rcases h with h | ⟨h0, h1⟩
  · simp [h]
  · simp [h0, h1]

theorem exec_coreMismatch_runs (h : s.fwRuns = true) (newerOk c0 c1 : Bool) :
    exec (.coreMismatch newerOk c0 c1) s = .next (s.mismatch newerOk c0 c1) := by
  show execCoreMismatch newerOk c0 c1 s = _
  rw [execCoreMismatch, if_pos h]

theorem exec_coreMismatch_idle (h : s.fwRuns = false) (newerOk c0 c1 : Bool) : exec (.coreMismatch newerOk c0 c1) s = .next s := by
  show execCoreMismatch newerOk c0 c1 s = _
  rw [execCoreMismatch, if_neg (Bool.eq_false_iff.mp h)]

/-- No good checkpoint at a first mismatch, and no pair to be formed at one soon after, lose the processor. -/
theorem mismatch_loses (h : (¬s.SoonAgain ∧ (newerOk && s.faults.newerOk) = false ∧ s.faults.olderOk = false) ∨
    (s.SoonAgain ∧ (s.faults.cpu ≠ .original ∨ s.faults.puntyGood = false ∨ (c0 = false ∧ c1 = false)))) :
    s.mismatch newerOk c0 c1 = s.loseProcessor := by
  rcases h with ⟨hfirst, hnewer, holder⟩ | ⟨hsoon, hpair⟩
  · rw [mismatch_of_first hfirst, rollback_of_none hnewer holder]
  · rw [mismatch_of_soonAgain hsoon]
    split
    · next horiginal => exact pairPunty_of_bad (hpair.resolve_left fun hne => hne horiginal)
    · rfl

end Sys2Proof.Machine.State

namespace Sys2Proof.Machine

open State

/-- Settles O41: one branch of the mismatch for each of the three outcomes, and the loss asks each group on its own. -/
theorem mismatchesRollBackPairOrLose : Obligations.MismatchesRollBackPairOrLose := by
  intro newerOk c0 c1 s again newer f
  refine ⟨fun h => exec_coreMismatch_idle h .., fun hruns hfirst hgood => ?_, fun hruns hsoon horiginal hspare hcore => ?_,
    fun hruns hlost => ?_⟩
  · rw [exec_coreMismatch_runs hruns, mismatch_of_first hfirst, rollback_of_good hgood]
    rfl
  · rw [exec_coreMismatch_runs hruns, mismatch_of_soonAgain hsoon, if_pos horiginal, pairPunty_of_good hspare hcore]
    rfl
  · exact ⟨_, exec_coreMismatch_runs hruns .., mismatch_loses hlost ▸ s.loseProcessor_stands⟩

end Sys2Proof.Machine
end

section
/-! Proofs: the check set and the check of the regions after it (R315, R318). -/

namespace Sys2Proof.Machine

/-- Two steps that agree wherever a fold comes by make the same fold. -/
theorem foldl_congr_of_keeps {σ α : Type} {P : σ → Prop} {f h : σ → α → σ} (hP : ∀ z b, P z → P (h z b))
    (hsame : ∀ z b, P z → f z b = h z b) (l : List α) {s : σ} (hs : P s) : l.foldl f s = l.foldl h s := by
  induction l generalizing s with
  | nil => rfl
  | cons b r ih => rw [List.foldl_cons, List.foldl_cons, hsame s b hs, ih (hP s b hs)]

namespace State

variable {s : State}

/-! ## CHECK_SET_DONE (R315) -/

section
variable (s : State) (a b : Bool) (cause : Option Grp)

/-- The engines once their check set is done. -/
def checkSetOver : State := { s with engines := { s.engines with busy := .idle, cluster := false } }

/-- What the results of a check set decide: `a` and `b` tell which engine passed. -/
def judgeEngines : State :=
  match a, b with
  | true, false => s.retire .b
  | false, true => s.retire .a
  | false, false => s.computeLost
  | true, true => match cause with
    | none => s.logEvent sevWarn 0x0A05 0x7000 s.engines.transients.length
    | some _ => ({ s with engines := { s.engines with mode := .simplexA, regionCheck := true } }).logEvent sevExposure 0x0A03 0x7000 1

/-- One state differs from another at most in the engines, the groups, the mailbox and the log. -/
def EnginesOnly (s t : State) : Prop := t = { s with engines := t.engines, groups := t.groups, mail := t.mail, log := t.log }

theorem EnginesOnly.logEvent (e : EngineSt) (sev code object : Nat) (d0 : Int) :
    EnginesOnly s (({ s with engines := e } : State).logEvent sev code object d0) := by
  unfold State.logEvent
  split <;> exact rfl

theorem startSegment_engines : ∃ busy, s.startSegment.engines = { s.engines with busy } := by
  unfold startSegment
  split
  · exact ⟨_, rfl⟩
  · split
    · exact ⟨_, rfl⟩
    · exact ⟨_, rfl⟩

variable {s} in
theorem EnginesOnly.startSegment {t : State} (h : EnginesOnly s t) : EnginesOnly s t.startSegment := by
  unfold State.startSegment
  split
  · exact h
  · split
    · exact h
    · unfold EnginesOnly at *
      rw [h]
      rfl

theorem judgeEngines_enginesOnly : EnginesOnly s (s.judgeEngines a b cause) := by
  unfold judgeEngines
  split
  · exact .logEvent ..
  · exact .logEvent ..
  · unfold computeLost
    split
    · rfl
    · exact .logEvent ..
  · split
    · exact .logEvent ..
    · exact .logEvent ..

/-- The engine that passes stays, neither where both fail, and MARVER-A where both pass after a disagreement (R315). -/
theorem judgeEngines_mode : (s.judgeEngines a b cause).engines.mode =
    if a && !b then .simplexA else if b && !a then .simplexB else if !a && !b then .lost
      else if cause.isSome then .simplexA else s.engines.mode := by
  cases a <;> cases b
  case false.false =>
    show s.computeLost.engines.mode = .lost
    unfold computeLost
    split
    · assumption
    · rw [logEvent_engines]
  case false.true => exact congrArg EngineSt.mode (logEvent_engines ..)
  case true.false => exact congrArg EngineSt.mode (logEvent_engines ..)
  case true.true => cases cause <;> exact congrArg EngineSt.mode (logEvent_engines ..)

theorem judgeEngines_cluster (h : s.engines.cluster = false) : (s.judgeEngines a b cause).engines.cluster = false := by
  unfold judgeEngines
  split
  · exact congrArg EngineSt.cluster (logEvent_engines ..)
  · exact congrArg EngineSt.cluster (logEvent_engines ..)
  · unfold computeLost
    split
    · exact h
    · rw [logEvent_engines]
  · split
    · rwa [logEvent_engines]
    · rwa [logEvent_engines]

theorem judgeEngines_regionCheck (h : cause.isSome = true) : (s.judgeEngines true true cause).engines.regionCheck = true := by
  obtain ⟨g, rfl⟩ := Option.isSome_iff_exists.mp h
  exact congrArg EngineSt.regionCheck (logEvent_engines ..)

variable {s cause} in
/-- A check set that no injection disturbs is judged by its results, and the engines go on with what is ready. -/
theorem exec_checkSetDone_judges (hbusy : s.engines.busy = .checkSet cause)
    (hclean : ∀ g, cause = some g → s.engInjection g = none) :
    exec (.checkSetDone a b) s = .next (s.checkSetOver.judgeEngines a b cause).startSegment := by
  show execCheckSetDone a b s = _
  cases cause with
  | none =>
    simp only [execCheckSetDone, hbusy]
    cases a <;> cases b <;> rfl
  | some g =>
    simp only [execCheckSetDone, hbusy, hclean g rfl]
    cases a <;> cases b <;> rfl

end

/-! ## CLUSTER_CHECK_SET_START (R318) -/

theorem exec_clusterCheckSetStart_begins (hcluster : s.engines.cluster = true) (hidle : s.engines.busy = .idle)
    (hlockstep : s.engines.mode = .lockstep) :
    exec .clusterCheckSetStart s = .next { s with engines := { s.engines with busy := .checkSet none } } := by
  show execClusterCheckSetStart s = _
  simp [execClusterCheckSetStart, hcluster, hidle, hlockstep]

/-! ## REGION_CRC_CHECK_DONE (R315) -/

/-- The active region of a group is longer than the group's size or fails its CRC. -/
def regionFails (s : State) (g : Grp) : Bool :=
  decide (s.gNounN g 0x09 < (s.activeRegion g 1).toNat ∨
    programmeCrc (s.activeRegion g) (s.activeRegion g 1).toNat ≠ (s.activeRegion g 2).toNat)

/-- The region check is over, and the groups are the given ones. -/
def regionsOver (s : State) (groups : Vector Group 8) : State :=
  { s with groups, engines := { s.engines with regionCheck := false } }

theorem regionsOver_regionFails {groups : Vector Group 8} {g : Grp} (h : (groups[g]).bank1 = (s.groups[g]).bank1) :
    (s.regionsOver groups).regionFails g = s.regionFails g := by
  have hregion : (s.regionsOver groups).activeRegion g = s.activeRegion g :=
    congrArg (fun bank => (s.regionsOver groups).region g bank) h
  unfold regionFails
  rw [hregion]
  rfl

/-- Only the emergency modes asked for have changed since the check began. -/
def InRegionCheck (s z : State) : Prop :=
  ∃ groups, z = s.regionsOver groups ∧ ∀ k : Grp, (groups[k]).bank1 = (s.groups[k]).bank1

theorem InRegionCheck.askEmergency {z : State} (h : InRegionCheck s z) (g : Grp) (cause : Nat) :
    InRegionCheck s (z.askEmergency g cause) := by
  obtain ⟨groups, rfl, hbank⟩ := h
  refine ⟨_, askEmergency_frame .., fun k => ?_⟩
  rw [← hbank k]
  by_cases hk : g = k
  · subst hk
    rw [askEmergency_group_same, Group.asked]
    split <;> rfl
  · exact congrArg Group.bank1 (askEmergency_group_other _ g cause hk)

/-- One group's part of the check, whether its region fails told at the start. -/
def checkRegion (s z : State) (g : Grp) : State := if s.regionFails g then z.askEmergency g 1 else z

theorem InRegionCheck.checkRegion {z : State} (h : InRegionCheck s z) (g : Grp) : InRegionCheck s (s.checkRegion z g) := by
  unfold State.checkRegion
  split
  · exact h.askEmergency g 1
  · exact h

theorem exec_regionCrcCheckDone_checks (hdue : s.engines.regionCheck = true) :
    exec .regionCrcCheckDone s = .next (eachFin 8 s.checkRegion (s.regionsOver s.groups)) := by
  show execRegionCrcCheckDone s = _
  rw [execRegionCrcCheckDone, if_pos hdue]
  refine congrArg _ (foldl_congr_of_keeps (P := InRegionCheck s) (fun z g hz => hz.checkRegion g) (fun z g hz => ?_) _
    ⟨s.groups, rfl, fun _ => rfl⟩)
  obtain ⟨groups, rfl, hbank⟩ := hz
  unfold checkRegion
  rw [← regionsOver_regionFails (hbank g), State.askEmergency]
  cases (s.regionsOver groups).runs g
  · simp
  · rfl

theorem eachFin_checkRegion_inRegionCheck (s : State) : InRegionCheck s (eachFin 8 s.checkRegion (s.regionsOver s.groups)) :=
  eachFin_keeps (fun _ g hz => hz.checkRegion g) ⟨s.groups, rfl, fun _ => rfl⟩

theorem eachFin_checkRegion_group (s : State) (g : Grp) : (eachFin 8 s.checkRegion (s.regionsOver s.groups)).groups[g] =
    if s.regionFails g then (s.groups[g]).asked 1 else s.groups[g] := by
  refine eachFin_view (view := fun g (z : State) => z.groups[g])
    (step := fun g q => if s.regionFails g then q.asked 1 else q) (fun z g => ?_) (fun z g k hne => ?_) (s.regionsOver s.groups) g
  · unfold checkRegion
    split
    · exact z.askEmergency_group_same g 1
    · rfl
  · unfold checkRegion
    split
    · exact z.askEmergency_group_other g 1 hne
    · rfl

end State

open State

/-- Settles O19: the four results of a check set, and the region check as each group's own step. -/
theorem checkSetDecidesTheEngines : Obligations.CheckSetDecidesTheEngines := by
  intro s a b
  refine ⟨fun cause hbusy hclean => ?_, exec_clusterCheckSetStart_begins, fun hdue => ?_⟩
  · obtain ⟨busy, hengines⟩ := (s.checkSetOver.judgeEngines a b cause).startSegment_engines
    have hframe : EnginesOnly s.checkSetOver _ := (s.checkSetOver.judgeEngines_enginesOnly a b cause).startSegment
    refine ⟨_, exec_checkSetDone_judges a b hbusy hclean, ?_, ?_, ?_, ?_, ?_, ?_, ?_⟩
    · rw [hengines]
      exact judgeEngines_cluster _ a b cause rfl
    · rw [hengines]
      exact judgeEngines_mode _ a b cause
    · rintro rfl rfl hcause
      rw [hengines]
      exact judgeEngines_regionCheck _ cause hcause
    · rw [hframe]; rfl
    · rw [hframe]; rfl
    · rw [hframe]; rfl
    · rw [hframe]; rfl
  · obtain ⟨groups, hover, -⟩ := s.eachFin_checkRegion_inRegionCheck
    refine ⟨_, exec_regionCrcCheckDone_checks hdue, by rw [hover]; rfl, fun g => ?_, ?_⟩
    · intro rd
      rw [eachFin_checkRegion_group]
      by_cases hruns : s.runs g = true
      · simp only [regionFails, decide_eq_true_eq, hruns, true_and, Group.asked_of_running hruns, rd]
      · rw [Group.asked_of_stopped hruns, ite_self, if_neg fun h => hruns h.1]
    · rw [hover]
      rfl

end Sys2Proof.Machine
end

section
/-! Proofs: the times of the emergency mode SS1 and of lost compute (R319, R328, R329). -/

namespace Sys2Proof.Machine

/-- What the step at `a` makes and every step keeps, a fold that passes `a` makes. -/
theorem foldl_makes {σ α : Type} {P Q : σ → Prop} {f : σ → α → σ} {a : α} (hP : ∀ z b, P z → P (f z b))
    (hmakes : ∀ z, P z → Q (f z a)) (hkeeps : ∀ z b, P z → Q z → Q (f z b)) {l : List α} (ha : a ∈ l) {s : σ} (h : P s) :
    Q (l.foldl f s) := by
  have hstands : ∀ (r : List α) (z : σ), P z → Q z → Q (r.foldl f z) := by
    intro r
    induction r with
    | nil => exact fun _ _ hz => hz
    | cons b r ih => exact fun z hz hQ => ih _ (hP z b hz) (hkeeps z b hz hQ)
  induction l generalizing s with
  | nil => exact absurd ha List.not_mem_nil
  | cons b r ih =>
    rcases List.mem_cons.mp ha with rfl | hr
    · exact hstands r _ (hP s a h) (hmakes s h)
    · exact ih hr (hP s b h)

namespace State

variable {s t u : State} {g : Grp}

/-! ## Torque requests -/

theorem torqueMask_bit : ∀ i j : StoNo, (~~~(1#4 <<< j.val)).getLsbD i.val = !(i == j) := by decide

/-- The torque requests of a list of STO groups are cleared, each its own bit, and nothing else changes. -/
theorem foldl_clearTorque (l : List StoNo) (s : State) :
    l.foldl clearTorque s = { s with requests := { s.requests with torque := (l.foldl clearTorque s).requests.torque } } ∧
      ∀ i : StoNo, (l.foldl clearTorque s).requests.torque.getLsbD i.val = (s.requests.torque.getLsbD i.val && !l.contains i) := by
  induction l generalizing s with
  | nil => exact ⟨rfl, fun i => by simp⟩
  | cons j r ih =>
    obtain ⟨hframe, hbits⟩ := ih (s.clearTorque j)
    refine ⟨by rw [List.foldl_cons, hframe]; rfl, fun i => ?_⟩
    rw [List.foldl_cons, hbits]
    simp only [clearTorque, modReq, BitVec.getLsbD_and, torqueMask_bit, List.contains_cons, Bool.not_or, Bool.and_assoc]

theorem exec_emergencyBrakeWaitExpiry_idle
    (h : ¬((s.groups[g]).eactive = true ∧ (s.groups[g]).emode = 1 ∧ (s.groups[g]).ephase = 1)) :
    exec (.emergencyBrakeWaitExpiry g) s = .next s := by
  show execEmergencyBrakeWaitExpiry g s = _
  exact congrArg _ (if_neg h)

theorem exec_emergencyBrakeWaitExpiry_ends (hactive : (s.groups[g]).eactive = true) (hmode : (s.groups[g]).emode = 1)
    (hphase : (s.groups[g]).ephase = 1) : exec (.emergencyBrakeWaitExpiry g) s = .next (s.emergencyTorqueOff g) := by
  show execEmergencyBrakeWaitExpiry g s = _
  exact congrArg _ (if_pos ⟨hactive, hmode, hphase⟩)

/-- The braking phase ends with the torque requests of the group's own STO groups cleared. -/
theorem emergencyTorqueOff_stands (s : State) (g : Grp) :
    s.emergencyTorqueOff g = { s with
      requests := { s.requests with torque := (s.emergencyTorqueOff g).requests.torque }
      groups := vmod s.groups g fun q => { q with ephase := 2 } } ∧
    ∀ i : StoNo, (s.emergencyTorqueOff g).requests.torque.getLsbD i.val =
      (s.requests.torque.getLsbD i.val && !(s.ownStos g).contains i) := by
  obtain ⟨hframe, hbits⟩ := foldl_clearTorque (s.ownStos g) s
  refine ⟨?_, hbits⟩
  unfold emergencyTorqueOff
  rw [hframe]
  rfl

/-! ## Brake releases -/

/-- Only main axes change, and no brake's release is requested that was not. -/
def Unreleases (s t : State) : Prop := t = { s with mains := t.mains } ∧
  ∀ m : Main, (s.mains[m]).comm.release = false → (t.mains[m]).comm.release = false

namespace Unreleases

theorem refl (s : State) : Unreleases s s := ⟨rfl, fun _ h => h⟩

theorem trans (hst : Unreleases s t) (htu : Unreleases t u) : Unreleases s u := by
  obtain ⟨hframe, hrel⟩ := hst
  obtain ⟨hframe', hrel'⟩ := htu
  exact ⟨by rw [hframe', hframe], fun m h => hrel' m (hrel m h)⟩

theorem brakeOf (h : Unreleases s t) (m : Main) : t.brakeOf m = s.brakeOf m := by
  rw [h.1]
  rfl

end Unreleases

theorem modComm_unreleases (s : State) (m : Main) : Unreleases s (s.modComm m fun c => { c with release := false }) := by
  refine ⟨rfl, fun k h => ?_⟩
  rw [modComm_mains]
  by_cases hk : m = k
  · subst hk
    rw [vmod_same]
  · rwa [vmod_other _ _ hk]

/-- One axis' part of the release requests of a brake. -/
def clearRelease (b : Fin 4) (z : State) (m : Main) : State :=
  if z.brakeOf m = some b then z.modComm m fun c => { c with release := false } else z

theorem clearRelease_unreleases (b : Fin 4) (z : State) (m : Main) : Unreleases z (clearRelease b z m) := by
  unfold clearRelease
  split
  · exact modComm_unreleases z m
  · exact .refl z

theorem clearReleases_eq (s : State) (b : Fin 4) : s.clearReleases b = (fins 12).foldl (clearRelease b) s := rfl

theorem clearReleases_unreleases (s : State) (b : Fin 4) : Unreleases s (s.clearReleases b) := by
  rw [clearReleases_eq]
  exact List.foldlRecOn _ _ (.refl s) fun z hz m _ => hz.trans (clearRelease_unreleases b z m)

theorem clearReleases_release {m : Main} {b : Fin 4} (h : s.brakeOf m = some b) :
    ((s.clearReleases b).mains[m]).comm.release = false := by
  rw [clearReleases_eq]
  refine foldl_makes (l := fins 12) (P := Unreleases s) (Q := fun z => (z.mains[m]).comm.release = false) (a := m)
    (fun z k hz => hz.trans (clearRelease_unreleases b z k)) (fun z hz => ?_)
    (fun z k _ hoff => (clearRelease_unreleases b z k).2 m hoff) (List.mem_finRange m) (.refl s)
  rw [clearRelease, if_pos ((hz.brakeOf m).trans h), modComm_mains, vmod_same]

theorem foldl_clearReleases_unreleases (l : List (Fin 4)) (s : State) : Unreleases s (l.foldl clearReleases s) :=
  List.foldlRecOn _ _ (.refl s) fun z hz b _ => hz.trans (z.clearReleases_unreleases b)

theorem foldl_clearReleases_release {l : List (Fin 4)} {m : Main} {b : Fin 4} (hb : b ∈ l) (h : s.brakeOf m = some b) :
    ((l.foldl clearReleases s).mains[m]).comm.release = false :=
  foldl_makes (P := Unreleases s) (Q := fun z => (z.mains[m]).comm.release = false)
    (fun z k hz => hz.trans (z.clearReleases_unreleases k)) (fun _ hz => clearReleases_release ((hz.brakeOf m).trans h))
    (fun z k _ hoff => (z.clearReleases_unreleases k).2 m hoff) hb (.refl s)

/-! ## Axes that are disabled -/

/-- Axes and mailbox alone change, and no brake's release request. -/
def DisablesAxes (s t : State) : Prop := t = { s with mains := t.mains, auxs := t.auxs, mail := t.mail } ∧
  ∀ m : Main, (t.mains[m]).comm.release = (s.mains[m]).comm.release

namespace DisablesAxes

theorem refl (s : State) : DisablesAxes s s := ⟨rfl, fun _ => rfl⟩

theorem trans (hst : DisablesAxes s t) (htu : DisablesAxes t u) : DisablesAxes s u := by
  obtain ⟨hframe, hrel⟩ := hst
  obtain ⟨hframe', hrel'⟩ := htu
  exact ⟨by rw [hframe', hframe], fun m => (hrel' m).trans (hrel m)⟩

theorem modMain (s : State) (m : Main) (f : MainAxis → MainAxis) (hf : ∀ a, (f a).comm.release = a.comm.release) :
    DisablesAxes s (s.modMain m f) := by
  refine ⟨rfl, fun k => ?_⟩
  rw [modMain_mains]
  by_cases hk : m = k
  · subst hk
    rw [vmod_same, hf]
  · rw [vmod_other _ _ hk]

theorem modAux (s : State) (a : AuxNo) (f : AuxAxis → AuxAxis) : DisablesAxes s (s.modAux a f) := ⟨rfl, fun _ => rfl⟩

theorem finishOpt (s : State) (n : Option Nat) (st : Nat) : DisablesAxes s (s.finishOpt n st) := by
  rw [finishOpt_frame]
  exact ⟨rfl, fun _ => rfl⟩

theorem failStart (s : State) (m : Main) (starting : Bool) (status : Nat) : DisablesAxes s (s.failStart m starting status) := by
  cases hticket : (s.mains[m]).startTicket with
  | some n =>
    rw [failStart_ticket hticket]
    exact (finishOpt s (some n) status).trans (modMain _ _ _ fun _ => rfl)
  | none =>
    rw [failStart_noTicket hticket]
    split
    · exact (finishOpt ..).trans (modMain _ _ _ fun _ => rfl)
    · exact .refl s

theorem disableMain (s : State) (m : Main) (status : Nat) : DisablesAxes s (s.disableMain m status) := by
  unfold State.disableMain
  extract_lets a s1
  split
  · exact (failStart ..).trans (modMain _ _ _ fun _ => rfl)
  · exact .refl s

theorem disableAux (s : State) (a : AuxNo) (status : Nat) : DisablesAxes s (s.disableAux a status) := by
  unfold State.disableAux
  split
  · exact (finishOpt ..).trans (modAux ..)
  · exact .refl s

end DisablesAxes

/-! ## EMERGENCY_SS1_TIME_ELAPSED (R328, R329) -/

/-- The brakes of the group's own STO groups. -/
def ownBrakes (s : State) (g : Grp) : List (Fin 4) :=
  (fins 4).filter fun b => (s.ownStos g).any fun i => bitAt (s.stoBrakes i) b.val

/-- The brakes are asked to apply, axes are disabled, and the braking phase begins. -/
theorem emergencyBrakes_eq (s : State) (g : Grp) : ∃ z, DisablesAxes ((s.ownBrakes g).foldl clearReleases s) z ∧
    s.emergencyBrakes g = z.modGroup g fun q => { q with ephase := 1 } := by
  unfold emergencyBrakes
  extract_lets own brakes s1 shared s2
  refine ⟨s2, ?_, rfl⟩
  refine List.foldlRecOn _ _ (.refl _) fun z hz x _ => hz.trans ?_
  split
  · cases x with
    | main m => exact .disableMain ..
    | aux a => exact .disableAux ..
  · exact .refl z

theorem emergencyBrakes_stands (s : State) (g : Grp) : ((s.emergencyBrakes g).groups[g]).ephase = 1 ∧
    (∀ (i : StoNo) (b : Fin 4) (m : Main), i ∈ s.ownStos g → bitAt (s.stoBrakes i) b.val = true → s.brakeOf m = some b →
      ((s.emergencyBrakes g).mains[m]).comm.release = false) ∧
    (∀ k : Grp, k ≠ g → (s.emergencyBrakes g).groups[k] = s.groups[k]) ∧
    s.emergencyBrakes g = { s with
      groups := (s.emergencyBrakes g).groups, mains := (s.emergencyBrakes g).mains
      auxs := (s.emergencyBrakes g).auxs, mail := (s.emergencyBrakes g).mail } := by
  obtain ⟨z, ⟨hframe, hrel⟩, heq⟩ := s.emergencyBrakes_eq g
  obtain ⟨hframe', -⟩ := foldl_clearReleases_unreleases (s.ownBrakes g) s
  rw [heq]
  refine ⟨?_, fun i b m hi hbrake hm => ?_, fun k hk => ?_, ?_⟩
  · rw [modGroup_groups, vmod_same]
  · have hb : b ∈ s.ownBrakes g :=
      List.mem_filter.mpr ⟨List.mem_finRange b, List.any_eq_true.mpr ⟨i, hi, hbrake⟩⟩
    exact (hrel m).trans (foldl_clearReleases_release hb hm)
  · rw [modGroup_groups, vmod_other _ _ hk.symm, hframe, hframe']
  · rw [hframe, hframe']
    rfl

theorem exec_emergencySs1TimeElapsed_idle
    (h : ¬((s.groups[g]).eactive = true ∧ (s.groups[g]).emode = 1 ∧ (s.groups[g]).ephase = 0)) :
    exec (.emergencySs1TimeElapsed g) s = .next s := by
  show execEmergencySs1TimeElapsed g s = _
  exact congrArg _ (if_neg h)

theorem exec_emergencySs1TimeElapsed_brakes (hactive : (s.groups[g]).eactive = true) (hmode : (s.groups[g]).emode = 1)
    (hphase : (s.groups[g]).ephase = 0) : exec (.emergencySs1TimeElapsed g) s = .next (s.emergencyBrakes g) := by
  show execEmergencySs1TimeElapsed g s = _
  exact congrArg _ (if_pos ⟨hactive, hmode, hphase⟩)

/-! ## COMPUTE_LOST_BRAKE_WINDOW_EXPIRY (R319) -/

/-- The requests to the safety channel stand, and no group starts or stops. -/
def RunningStands (s t : State) : Prop := t.requests = s.requests ∧ ∀ k : Grp, (t.groups[k]).running = (s.groups[k]).running

namespace RunningStands

theorem refl (s : State) : RunningStands s s := ⟨rfl, fun _ => rfl⟩

theorem trans (hst : RunningStands s t) (htu : RunningStands t u) : RunningStands s u := by
  obtain ⟨hreq, hrun⟩ := hst
  obtain ⟨hreq', hrun'⟩ := htu
  exact ⟨hreq'.trans hreq, fun k => (hrun' k).trans (hrun k)⟩

theorem of_eq (hreq : t.requests = s.requests) (hgroups : t.groups = s.groups) : RunningStands s t :=
  ⟨hreq, fun k => by rw [hgroups]⟩

theorem modMain (s : State) (m : Main) (f : MainAxis → MainAxis) : RunningStands s (s.modMain m f) := .of_eq rfl rfl

theorem modAux (s : State) (a : AuxNo) (f : AuxAxis → AuxAxis) : RunningStands s (s.modAux a f) := .of_eq rfl rfl

theorem finish (s : State) (n st : Nat) (ws : List Word) : RunningStands s (s.finish n st ws) :=
  .of_eq (finish_requests ..) (finish_groups ..)

theorem finishOpt (s : State) (n : Option Nat) (st : Nat) : RunningStands s (s.finishOpt n st) :=
  .of_eq (finishOpt_requests ..) (finishOpt_groups ..)

theorem modGroup (s : State) (g : Grp) (f : Group → Group) (hf : ∀ q, (f q).running = q.running) :
    RunningStands s (s.modGroup g f) := by
  refine ⟨rfl, fun k => ?_⟩
  rw [modGroup_groups]
  by_cases hk : g = k
  · subst hk
    rw [vmod_same, hf]
  · rw [vmod_other _ _ hk]

theorem foldl {α : Type} {f : State → α → State} (hf : ∀ z b, RunningStands z (f z b)) (l : List α) (s : State) :
    RunningStands s (l.foldl f s) :=
  List.foldlRecOn _ _ (.refl s) fun z hz b _ => hz.trans (hf z b)

theorem dropTicket (s : State) (x : GenId) (status : Nat) : RunningStands s (s.dropTicket x status) :=
  (finishOpt ..).trans (.of_eq (modGen_requests ..) (modGen_groups ..))

theorem haltPath (s : State) (g : Grp) (status : Nat) : RunningStands s (s.haltPath g status) := by
  unfold State.haltPath
  split
  · exact .refl s
  · split
    · exact .refl s
    · exact (finish ..).trans (modGroup _ _ _ fun _ => rfl)

theorem finishSeen (s : State) (g : Grp) : RunningStands s (s.finishSeen g) := .foldl (fun _ _ => .finish ..) ..

theorem endMotionTickets (s : State) (g : Grp) (status : Nat) : RunningStands s (s.endMotionTickets g status) := by
  unfold State.endMotionTickets
  extract_lets s1 s2 s3 s4
  have h1 : RunningStands s s1 := .foldl (fun _ _ => .dropTicket ..) ..
  have h2 : RunningStands s1 s2 := by
    refine .foldl (fun z a => ?_) ..
    split
    · exact (finish ..).trans (modAux ..)
    · exact .refl z
  have h3 : RunningStands s2 s3 := .foldl (fun _ _ => .finishOpt ..) ..
  have h4 : RunningStands s3 s4 := (finishOpt ..).trans (haltPath ..)
  exact (((h1.trans h2).trans h3).trans h4).trans (modGroup _ _ _ fun _ => rfl)

theorem failStart (s : State) (m : Main) (starting : Bool) (status : Nat) : RunningStands s (s.failStart m starting status) := by
  have hframe := (DisablesAxes.failStart s m starting status).1
  exact .of_eq (by rw [hframe]) (by rw [hframe])

theorem gatesOff (s : State) (m : Main) : RunningStands s (s.gatesOff m) := (modMain ..).trans (modMain ..)

theorem logEvent (s : State) (sev code object : Nat) (d0 : Int) (sample : Nat) :
    RunningStands s (s.logEvent sev code object d0 sample) :=
  .of_eq (logEvent_requests ..) (logEvent_groups ..)

theorem endOffsets (s : State) (m : Main) (full : Bool) : RunningStands s (s.endOffsets m full) := by
  unfold State.endOffsets
  extract_lets a d n va vb ok
  split
  · split
    · exact .of_eq rfl rfl
    · exact RunningStands.trans (.of_eq rfl rfl) (logEvent ..)
  · exact .refl s

theorem enterRest (s : State) (m : Main) (st : CState) (why : StopReason) : RunningStands s (s.enterRest m st why) := by
  unfold State.enterRest
  extract_lets was s1
  have h1 : RunningStands s s1 := ((endOffsets s m false).trans (gatesOff _ m)).trans (modMain ..)
  refine h1.trans ?_
  split
  · exact ((modMain ..).trans (failStart ..)).trans (logEvent ..)
  · exact ((modMain ..).trans (finishOpt ..)).trans (modMain ..)
  · exact .refl s1

end RunningStands

/-- The group stops, and no other group starts or stops. -/
theorem stopGroup_running (s : State) (g : Grp) : (s.stopGroup g).requests = s.requests ∧
    ((s.stopGroup g).groups[g]).running = false ∧
    ∀ k : Grp, g ≠ k → ((s.stopGroup g).groups[k]).running = (s.groups[k]).running := by
  unfold stopGroup
  extract_lets s0 s1 s2
  have h0 : RunningStands s s0 := .finishSeen ..
  have h1 : RunningStands s0 s1 := (RunningStands.finishOpt ..).trans (.endMotionTickets ..)
  have h2 : RunningStands s1 s2 := by
    refine .foldl (fun z m => ?_) ..
    exact ((RunningStands.finishOpt ..).trans (.gatesOff _ m)).trans (.modMain ..)
  obtain ⟨hreq, hrun⟩ := (h0.trans h1).trans h2
  refine ⟨hreq, ?_, fun k hk => ?_⟩
  · rw [modGroup_groups, vmod_same]
  · rw [modGroup_groups, vmod_other _ _ hk]
    exact hrun k

/-- A group whose compute is lost: its axes rest and it stops. -/
def loseRunning (z : State) (g : Grp) : State :=
  if z.runs g then
    ((z.mainsOf g).foldl (fun (w : State) m =>
      if (w.mains[m]).comm.state = .off ∨ (w.mains[m]).comm.state = .stoppedFault then w.gatesOff m
      else w.enterRest m .off .none) z).stopGroup g
  else z

theorem loseRunning_running (z : State) (g : Grp) : (z.loseRunning g).requests = z.requests ∧
    ((z.loseRunning g).groups[g]).running = false ∧
    ∀ k : Grp, g ≠ k → ((z.loseRunning g).groups[k]).running = (z.groups[k]).running := by
  unfold loseRunning
  split
  · have hrest : RunningStands z ((z.mainsOf g).foldl (fun (w : State) m =>
        if (w.mains[m]).comm.state = .off ∨ (w.mains[m]).comm.state = .stoppedFault then w.gatesOff m
        else w.enterRest m .off .none) z) := by
      refine .foldl (fun w m => ?_) ..
      split
      · exact .gatesOff ..
      · exact .enterRest ..
    obtain ⟨hreq, hstop, hothers⟩ := stopGroup_running _ g
    exact ⟨hreq.trans hrest.1, hstop, fun k hk => (hothers k hk).trans (hrest.2 k)⟩
  · next hruns => exact ⟨rfl, Bool.eq_false_iff.mpr hruns, fun _ _ => rfl⟩

/-- Every torque request is cleared. -/
theorem eachFin_clearTorque (s : State) : (eachFin 4 clearTorque s).requests = { s.requests with torque := 0 } := by
  obtain ⟨hframe, hbits⟩ := foldl_clearTorque (fins 4) s
  have hnone : ((fins 4).foldl clearTorque s).requests.torque = 0 := by
    refine BitVec.eq_of_getLsbD_eq fun i hi => ?_
    rw [hbits ⟨i, hi⟩]
    simp [fins]
  rw [eachFin, hframe, hnone]

theorem exec_computeLostBrakeWindowExpiry_idle (h : s.engines.mode ≠ .lost) :
    exec .computeLostBrakeWindowExpiry s = .next s := by
  show execComputeLostBrakeWindowExpiry s = _
  exact congrArg _ (if_neg h)

theorem exec_computeLostBrakeWindowExpiry_stops (h : s.engines.mode = .lost) :
    exec .computeLostBrakeWindowExpiry s = .next (eachFin 8 loseRunning (eachFin 4 clearTorque s)) := by
  show execComputeLostBrakeWindowExpiry s = _
  rw [execComputeLostBrakeWindowExpiry, if_pos h]
  rfl

theorem eachFin_loseRunning_requests (s : State) : (eachFin 8 loseRunning s).requests = s.requests :=
  eachFin_keeps (P := fun z => z.requests = s.requests) (fun z g hz => (z.loseRunning_running g).1.trans hz) rfl

theorem eachFin_loseRunning_running (s : State) (k : Grp) : ((eachFin 8 loseRunning s).groups[k]).running = false :=
  eachFin_view (view := fun g (z : State) => (z.groups[g]).running) (step := fun _ _ => false)
    (fun z g => (z.loseRunning_running g).2.1) (fun z g _ hne => (z.loseRunning_running g).2.2 _ hne) s k

end State

open State

/-- Settles O39: the brakes and the torque requests through their own folds, and a loss of compute group by group. -/
theorem emergencyAndLossTimesCutTorque : Obligations.EmergencyAndLossTimesCutTorque := by
  intro g s q
  refine ⟨exec_emergencySs1TimeElapsed_idle, fun hactive hmode hphase =>
      ⟨_, exec_emergencySs1TimeElapsed_brakes hactive hmode hphase, s.emergencyBrakes_stands g⟩,
    exec_emergencyBrakeWaitExpiry_idle, fun hactive hmode hphase =>
      ⟨_, exec_emergencyBrakeWaitExpiry_ends hactive hmode hphase, s.emergencyTorqueOff_stands g⟩,
    exec_computeLostBrakeWindowExpiry_idle, fun hlost => ?_⟩
  have hexec := exec_computeLostBrakeWindowExpiry_stops hlost
  have hrequests := (eachFin_loseRunning_requests _).trans s.eachFin_clearTorque
  have hcalm : OutCalm _ (exec .computeLostBrakeWindowExpiry s) := execComputeLostBrakeWindowExpiry_calm (Calm.here s)
  rw [hexec] at hcalm
  obtain ⟨hsafety, -⟩ := hcalm
  exact ⟨_, hexec, congrArg RequestSt.torque hrequests, eachFin_loseRunning_running _, hrequests, hsafety⟩

end Sys2Proof.Machine
end

section
/-! Proofs: a checkpoint releases the journal, takes the ledger over and does what waits for it (R178, R321, R384, R391, R462). -/

namespace Sys2Proof.Machine.State

variable {s t u : State}

/-! ## One output leaves the journal -/

/-- A delivery that logs nothing changes groups, mailbox, buffers and free values, but neither the journal nor the heartbeat. -/
def Delivers (s t : State) : Prop :=
  t = { s with groups := t.groups, mail := t.mail, canBufs := t.canBufs, free := t.free } ∧
    t.mail.output = s.mail.output ∧ t.mail.heartbeat = s.mail.heartbeat

namespace Delivers

theorem refl (s : State) : Delivers s s := ⟨rfl, rfl, rfl⟩

theorem trans (hst : Delivers s t) (htu : Delivers t u) : Delivers s u := by
  obtain ⟨hframe, hout, hbeat⟩ := hst
  obtain ⟨hframe', hout', hbeat'⟩ := htu
  exact ⟨by rw [hframe', hframe], hout'.trans hout, hbeat'.trans hbeat⟩

theorem slotReply (s : State) (i : Fin 16) (ws : List Word) (past notice : Bool) : Delivers s (s.slotReply i ws past notice) :=
  ⟨rfl, rfl, rfl⟩

theorem modBufs (s : State) (p : Port) (f : CanBufs → CanBufs) : Delivers s (s.modBufs p f) := ⟨rfl, rfl, rfl⟩

theorem drawn (s : State) : Delivers s s.drawn := ⟨rfl, rfl, rfl⟩

theorem sessionReply (s : State) (p : Port) (k : Fin 8) (n : Nat) (ws : List Word) (past notice : Bool) :
    Delivers s (s.sessionReply p k n ws past notice) := by
  unfold State.sessionReply
  extract_lets s1 brs frames
  have h1 : Delivers s s1 := by
    unfold s1
    split
    · exact modBufs ..
    · exact refl s
  split
  · exact h1
  · exact (h1.trans (modBufs ..)).trans (drawn _)

end Delivers

/-- What is delivered for a reply of a ticket, before a PAST reply takes the ticket away (R352, R366). -/
def deliverReply (s : State) (k : Ticket) (n status : Nat) (tense : Tense) (payload : List Word) : State :=
  let notice := !(tense = .past ∧ status = stDone ∧ k.sent.has 4 = true)
  let ws := replyWords n status tense k.sent.verb k.sent.noun payload
  match k.origin with
  | .slot i => s.slotReply i ws (tense = .past) notice
  | .detached =>
    if tense = .past ∧ notice = true then s.modMail fun m => { m with completions := m.completions ++ [{ ticket := n, status }] }
    else s
  | .session p c => s.sessionReply p c n ws (tense = .past) notice

theorem deliverReply_delivers (s : State) (k : Ticket) (n status : Nat) (tense : Tense) (payload : List Word) :
    Delivers s (s.deliverReply k n status tense payload) := by
  unfold deliverReply
  extract_lets notice ws
  split
  · exact .slotReply ..
  · split
    · exact ⟨rfl, rfl, rfl⟩
    · exact .refl s
  · exact .sessionReply ..

theorem deliver_reply (s : State) (n status : Nat) (tense : Tense) (payload : List Word) :
    Delivers s (s.deliver (.reply n status tense payload)) := by
  show Delivers s (match s.ticket? n with
    | none => s
    | some k =>
      let z := s.deliverReply k n status tense payload
      if tense = .past then z.modMail fun m => { m with tickets := m.tickets.filter fun x => x.num != n } else z)
  split
  · exact .refl s
  · next k _ =>
    have hreply := s.deliverReply_delivers k n status tense payload
    dsimp only
    split
    · exact hreply.trans ⟨rfl, rfl, rfl⟩
    · exact hreply

theorem deliver_bareReply (s : State) (o : Origin) (status verb noun : Nat) :
    Delivers s (s.deliver (.bareReply o status verb noun)) := by
  cases o with
  | slot i => exact .slotReply ..
  | detached => exact .refl s
  | session p c => exact .sessionReply ..

/-! ## The journal -/

/-- The record an output carries to the log. -/
def recordOf : Output → Option Record
  | .log r => some r
  | _ => none

theorem deliver_log (s : State) (o : Output) : (s.deliver o).log = (recordOf o).toList.foldl addRecord s.log := by
  cases o with
  | reply n status tense payload => rw [(s.deliver_reply n status tense payload).1]; rfl
  | bareReply o status verb noun => rw [(s.deliver_bareReply o status verb noun).1]; rfl
  | log r => rfl
  | engine g n c => rfl
  | motion g n c => rfl

/-- What a delivery leaves alone, whatever the output. -/
theorem deliver_frame (s : State) (o : Output) :
    s.deliver o = { s with
      groups := (s.deliver o).groups, log := (s.deliver o).log, mail := (s.deliver o).mail
      canBufs := (s.deliver o).canBufs, free := (s.deliver o).free } ∧
    (s.deliver o).mail.output = s.mail.output ∧ (s.deliver o).mail.heartbeat = s.mail.heartbeat := by
  cases o with
  | reply n status tense payload =>
    obtain ⟨hframe, hmail⟩ := s.deliver_reply n status tense payload
    exact ⟨by rw [hframe], hmail⟩
  | bareReply o status verb noun =>
    obtain ⟨hframe, hmail⟩ := s.deliver_bareReply o status verb noun
    exact ⟨by rw [hframe], hmail⟩
  | log r => exact ⟨rfl, rfl, rfl⟩
  | engine g n c => exact ⟨rfl, rfl, rfl⟩
  | motion g n c => exact ⟨rfl, rfl, rfl⟩

/-- The records of the journal enter the log in their order. -/
theorem foldl_deliver_log (l : List Output) (s : State) :
    (l.foldl deliver s).log = (l.filterMap recordOf).foldl addRecord s.log := by
  induction l generalizing s with
  | nil => rfl
  | cons o r ih =>
    rw [List.foldl_cons, ih, deliver_log]
    cases hrecord : recordOf o <;> simp [hrecord]

theorem releaseJournal_log (s : State) : s.releaseJournal.log = (s.mail.output.filterMap recordOf).foldl addRecord s.log :=
  foldl_deliver_log ..

theorem releaseJournal_frame (s : State) :
    s.releaseJournal = { s with
      groups := s.releaseJournal.groups, log := s.releaseJournal.log, mail := s.releaseJournal.mail
      canBufs := s.releaseJournal.canBufs, free := s.releaseJournal.free } ∧
    s.releaseJournal.mail.output = [] ∧ s.releaseJournal.mail.heartbeat = s.mail.heartbeat := by
  refine List.foldlRecOn (motive := fun z : State => z = { s with
      groups := z.groups, log := z.log, mail := z.mail, canBufs := z.canBufs, free := z.free } ∧
    z.mail.output = [] ∧ z.mail.heartbeat = s.mail.heartbeat) _ _ ⟨rfl, rfl, rfl⟩ fun z hz o _ => ?_
  obtain ⟨hframe, hout, hbeat⟩ := hz
  obtain ⟨hframe', hout', hbeat'⟩ := z.deliver_frame o
  exact ⟨by rw [hframe', hframe], hout'.trans hout, hbeat'.trans hbeat⟩

/-! ## What waits for a checkpoint -/

/-- One state has the fault counts, the lifetime figures and the heartbeat of another. -/
def FiguresStand (s t : State) : Prop := t.faults = s.faults ∧ t.life = s.life ∧ t.mail.heartbeat = s.mail.heartbeat

namespace FiguresStand

theorem trans (hst : FiguresStand s t) (htu : FiguresStand t u) : FiguresStand s u := by
  obtain ⟨hfaults, hlife, hbeat⟩ := hst
  obtain ⟨hfaults', hlife', hbeat'⟩ := htu
  exact ⟨hfaults'.trans hfaults, hlife'.trans hlife, hbeat'.trans hbeat⟩

theorem finish (s : State) (n st : Nat) (ws : List Word) : FiguresStand s (s.finish n st ws) :=
  ⟨finish_faults .., finish_life .., by rw [finish_mail_frame]⟩

theorem logEvent (s : State) (sev code object : Nat) (d0 : Int) (sample ticket : Nat) :
    FiguresStand s (s.logEvent sev code object d0 sample ticket) := by
  refine ⟨logEvent_faults .., logEvent_life .., ?_⟩
  unfold State.logEvent
  split <;> rfl

end FiguresStand

/-- The ledger's counters at zero and no CLEAR due any more. -/
def ledgerCleared (s : State) : State :=
  { s.wipeLedger with ledger := { s.wipeLedger.ledger with clearDue := none } }

theorem clearLedger_none (h : s.ledger.clearDue = none) : s.clearLedger = s := by
  simp only [clearLedger, h]

theorem clearLedger_some {k : Nat} (h : s.ledger.clearDue = some k) : s.clearLedger =
    ((s.ledgerCleared.logEvent sevInfo 0x0E02 objLedger s.ledgerCleared.ledger.epoch.toNat 0 k).finish k stDone
      [s.ledgerCleared.ledger.epoch]) := by
  simp only [clearLedger, h]
  rfl

theorem clearLedger_stands (s : State) : FiguresStand s s.clearLedger ∧ s.clearLedger.store = s.store := by
  cases h : s.ledger.clearDue with
  | none => rw [clearLedger_none h]; exact ⟨⟨rfl, rfl, rfl⟩, rfl⟩
  | some k =>
    have hcleared : FiguresStand s s.ledgerCleared := ⟨rfl, rfl, rfl⟩
    rw [clearLedger_some h]
    refine ⟨(hcleared.trans (.logEvent ..)).trans (.finish ..), ?_⟩
    rw [finish_store, logEvent_store]
    rfl

theorem clearLedger_ledger {k : Nat} (h : s.ledger.clearDue = some k) : s.clearLedger.ledger = s.ledgerCleared.ledger := by
  rw [clearLedger_some h, finish_ledger, logEvent_ledger]

/-- The image a CAPTURE takes of the running configuration. -/
def imageNow (s : State) : List Word := s.captureImage (BitVec.ofInt 32 (Config.freeValue s.free))

theorem takeCapture_none (h : s.store.capture = none) : s.takeCapture = s := by
  simp only [takeCapture, h]

theorem takeCapture_some {k : Nat} (h : s.store.capture = some k) : s.takeCapture =
    ({ s.drawn with store := { s.store with capture := none, staged := compact 0 s.imageNow } } : State).finish k stDone
      [BitVec.ofNat 32 s.imageNow.length, s.imageNow.getD 3 0] := by
  simp only [takeCapture, h]
  rfl

theorem takeCapture_stands (s : State) : FiguresStand s s.takeCapture ∧ s.takeCapture.ledger = s.ledger := by
  cases h : s.store.capture with
  | none => rw [takeCapture_none h]; exact ⟨⟨rfl, rfl, rfl⟩, rfl⟩
  | some k =>
    rw [takeCapture_some h]
    exact ⟨FiguresStand.trans ⟨rfl, rfl, rfl⟩ (.finish ..), finish_ledger ..⟩

/-- A captured image is staged with its magic word first (R392). -/
theorem takeCapture_store {k : Nat} (h : s.store.capture = some k) :
    s.takeCapture.store.capture = none ∧ sget 0 s.takeCapture.store.staged 0 = 0x43464B4E := by
  rw [takeCapture_some h, finish_store]
  exact ⟨rfl, rfl⟩

/-! ## CHECKPOINT -/

section
variable (vin : Nat) (control keeper : Int)

/-- The journal released, the heartbeat counted and the figures stored. -/
def checkpointed (s : State) : State :=
  let z := s.releaseJournal.modMail fun m => { m with heartbeat := m.heartbeat + 1 }
  { z with
    faults := { z.faults with newerOk := true, olderOk := z.faults.newerOk }
    life := { z.life with vin, control, keeper } }

theorem checkpointed_frame (s : State) : s.checkpointed vin control keeper = { s with
    groups := s.releaseJournal.groups
    log := s.releaseJournal.log
    mail := { s.releaseJournal.mail with heartbeat := s.mail.heartbeat + 1 }
    canBufs := s.releaseJournal.canBufs
    free := s.releaseJournal.free
    faults := { s.faults with newerOk := true, olderOk := s.faults.newerOk }
    life := { s.life with vin, control, keeper } } := by
  obtain ⟨hframe, -, hbeat⟩ := s.releaseJournal_frame
  unfold checkpointed
  rw [hframe, modMail, hbeat]

theorem exec_checkpoint_idle (h : s.serving = false) : exec (.checkpoint vin control keeper) s = .next s := by
  show execCheckpoint vin control keeper s = _
  simp only [execCheckpoint, h]
  rfl

theorem checkpointed_fwRuns (s : State) : (s.checkpointed vin control keeper).fwRuns = s.fwRuns := by
  rw [checkpointed_frame]
  rfl

/-- What a checkpoint does while the firmware runs: the ledger goes to the keeper, and what waits is done. -/
def doDue (s : State) : State := s.transferLedger.clearLedger.takeCapture

theorem doDue_figuresStand (s : State) : FiguresStand s s.doDue := by
  have htransfer : FiguresStand s s.transferLedger := ⟨rfl, rfl, rfl⟩
  exact (htransfer.trans (clearLedger_stands _).1).trans (takeCapture_stands _).1

theorem doDue_nothing (hclear : s.ledger.clearDue = none) (hcapture : s.store.capture = none) : s.doDue = s.transferLedger := by
  rw [doDue, clearLedger_none (s := s.transferLedger) hclear, takeCapture_none (s := s.transferLedger) hcapture]

theorem doDue_clear {k : Nat} (h : s.ledger.clearDue = some k) :
    s.doDue.ledger.clearDue = none ∧ s.doDue.ledger.epoch = s.ledger.epoch + 1 ∧ s.doDue.ledger.totals = [] := by
  rw [doDue, (takeCapture_stands _).2, clearLedger_ledger (s := s.transferLedger) h]
  exact ⟨rfl, rfl, rfl⟩

theorem doDue_capture {k : Nat} (h : s.store.capture = some k) :
    s.doDue.store.capture = none ∧ sget 0 s.doDue.store.staged 0 = 0x43464B4E :=
  takeCapture_store (k := k) (by rw [(clearLedger_stands _).2]; exact h)

variable {vin control keeper}

theorem exec_checkpoint_rom (hserving : s.serving = true) (hrom : s.fwRuns = false) :
    exec (.checkpoint vin control keeper) s = .next (s.checkpointed vin control keeper) := by
  have hrom' := (s.checkpointed_fwRuns vin control keeper).trans hrom
  show execCheckpoint vin control keeper s = .next _
  unfold execCheckpoint
  rw [hserving]
  exact congrArg _ (if_neg (Bool.eq_false_iff.mp hrom'))

theorem exec_checkpoint_runs (hserving : s.serving = true) (hruns : s.fwRuns = true) :
    exec (.checkpoint vin control keeper) s = .next (s.checkpointed vin control keeper).doDue := by
  have hruns' := (s.checkpointed_fwRuns vin control keeper).trans hruns
  show execCheckpoint vin control keeper s = .next _
  unfold execCheckpoint
  rw [hserving]
  exact congrArg _ (if_pos hruns')

/-- Where nothing but the figures of the mailbox, the faults and the lifetime can differ from the state checkpointed. -/
theorem checkpointed_figures {t : State} (h : FiguresStand (s.checkpointed vin control keeper) t) :
    t.mail.heartbeat = s.mail.heartbeat + 1 ∧ t.faults = { s.faults with newerOk := true, olderOk := s.faults.newerOk } ∧
      t.life = { s.life with vin, control, keeper } := by
  obtain ⟨hfaults, hlife, hbeat⟩ := h
  rw [checkpointed_frame] at hfaults hlife hbeat
  exact ⟨hbeat, hfaults, hlife⟩

theorem checkpointed_journal (vin : Nat) (control keeper : Int) (s : State) :
    (s.checkpointed vin control keeper).mail.output = [] ∧ (s.checkpointed vin control keeper).store = s.store ∧
      (s.checkpointed vin control keeper).log = (s.mail.output.filterMap recordOf).foldl addRecord s.log := by
  obtain ⟨-, hout, -⟩ := s.releaseJournal_frame
  rw [checkpointed_frame]
  exact ⟨hout, rfl, s.releaseJournal_log⟩

theorem checkpointed_ledger (vin : Nat) (control keeper : Int) (s : State) :
    (s.checkpointed vin control keeper).ledger = s.ledger := by
  rw [checkpointed_frame]

end

end Sys2Proof.Machine.State

namespace Sys2Proof.Machine

open State

/-- Settles O40: the journal released output by output, and what is due done after it where the firmware runs. -/
theorem checkpointsReleaseTheJournal : Obligations.CheckpointsReleaseTheJournal := by
  intro vin control keeper s
  obtain ⟨hout, hstore, hlog⟩ := s.checkpointed_journal vin control keeper
  have hledger := s.checkpointed_ledger vin control keeper
  refine ⟨exec_checkpoint_idle vin control keeper, fun hserving => ?_⟩
  cases hruns : s.fwRuns with
  | false =>
    obtain ⟨hbeat, hfaults, hlife⟩ := checkpointed_figures (s := s) (vin := vin) (control := control) (keeper := keeper) ⟨rfl, rfl, rfl⟩
    exact ⟨_, exec_checkpoint_rom hserving hruns, hbeat, hfaults, hlife, fun _ _ => ⟨hout, hstore, hlog⟩,
      fun _ => ⟨hledger, hstore⟩, fun _ h => absurd h Bool.false_ne_true, fun _ h => absurd h Bool.false_ne_true⟩
  | true =>
    obtain ⟨hbeat, hfaults, hlife⟩ := checkpointed_figures (s.checkpointed vin control keeper).doDue_figuresStand
    refine ⟨_, exec_checkpoint_runs hserving hruns, hbeat, hfaults, hlife, fun hclear hcapture => ?_,
      fun h => absurd h.symm Bool.false_ne_true, fun k _ hclear => ?_, fun k _ hcapture => ?_⟩
    · rw [doDue_nothing (by rwa [hledger]) (by rwa [hstore])]
      exact ⟨hout, hstore, hlog⟩
    · rw [← hledger] at hclear ⊢
      exact doDue_clear hclear
    · rw [← hstore] at hcapture
      exact doDue_capture hcapture

end Sys2Proof.Machine
end

section
/-! Proofs: doorbell, take, release and acknowledgement of mailbox slots (R349 to R352). -/

namespace Sys2Proof.Machine.State

variable {s : State}

/-! ## The slots a mask names -/

theorem mem_slotsOf {slots : BitVec 16} {i : Fin 16} : i ∈ slotsOf slots.toNat ↔ slots.getLsbD i.val = true := by
  simp [slotsOf, fins, bitAt, BitVec.testBit_toNat]

theorem nodup_slotsOf (mask : Nat) : (slotsOf mask).Nodup := (List.nodup_finRange 16).filter _

/-- A doorbell is accepted where it names FREE slots alone (R351). -/
theorem doorbellOk_iff {slots : BitVec 16} :
    s.doorbellOk slots.toNat = true ↔ ∀ i : Fin 16, slots.getLsbD i.val = true → (s.mail.slots[i]).state = .free := by
  simp [doorbellOk, mem_slotsOf]

theorem modSlot_slot_same (s : State) (i : Fin 16) (f : Slot → Slot) : (s.modSlot i f).mail.slots[i] = f s.mail.slots[i] :=
  vmod_same ..

theorem modSlot_slot_other (s : State) {i k : Fin 16} (h : k ≠ i) (f : Slot → Slot) :
    (s.modSlot i f).mail.slots[k] = s.mail.slots[k] := vmod_other _ _ h.symm

/-! ## MBX_DOORBELL (R349 to R351) -/

/-- A FREE slot is posted behind the earlier ones. -/
def postSlot (s : State) (i : Fin 16) : State :=
  (s.modSlot i fun x => { x with state := .posted, past := false }).modMail fun m => { m with posted := m.posted ++ [i] }

theorem foldl_postSlot_posted (l : List (Fin 16)) (s : State) : (l.foldl postSlot s).mail.posted = s.mail.posted ++ l := by
  induction l generalizing s with
  | nil => exact (List.append_nil _).symm
  | cons i r ih => rw [List.foldl_cons, ih, List.append_cons]; rfl

theorem foldl_postSlot_slot {l : List (Fin 16)} (hl : l.Nodup) (s : State) (k : Fin 16) : (l.foldl postSlot s).mail.slots[k] =
    if k ∈ l then { s.mail.slots[k] with state := .posted, past := false } else s.mail.slots[k] :=
  foldl_view (f := postSlot) (view := fun k (z : State) => z.mail.slots[k])
    (step := fun _ x => { x with state := .posted, past := false })
    (fun z i => z.modSlot_slot_same i _) (fun z i j hij => z.modSlot_slot_other (i := i) (k := j) hij.symm _) hl s k

theorem foldl_postSlot_frame (l : List (Fin 16)) (s : State) : l.foldl postSlot s = { s with mail := { s.mail with
    posted := (l.foldl postSlot s).mail.posted
    slots := (l.foldl postSlot s).mail.slots } } := by
  induction l generalizing s with
  | nil => rfl
  | cons i r ih => rw [List.foldl_cons, ih]; rfl

section
variable {slots : BitVec 16} (hup : s.hostUp = true)
include hup

theorem exec_mbxDoorbell_refused (h : s.doorbellOk slots.toNat = false) : exec (.mbxDoorbell slots) s = .next (s.mbxErr 4) := by
  show execMbxDoorbell slots s = _
  simp [execMbxDoorbell, hup, h]

theorem exec_mbxDoorbell_posts (h : s.doorbellOk slots.toNat = true) (hready : s.mail.fwReady = true) :
    exec (.mbxDoorbell slots) s = .next ((slotsOf slots.toNat).foldl postSlot s) := by
  show execMbxDoorbell slots s = _
  simp only [execMbxDoorbell, hup, h, ringDoorbell, hready]
  rfl

theorem exec_mbxRelease_up : exec (.mbxRelease slots) s = .next ((slotsOf slots.toNat).foldl releaseSlot s) := by
  show execMbxRelease slots s = _
  rw [execMbxRelease, if_pos hup]
  rfl

end

/-! ## MBX_RELEASE (R349, R352) -/

/-- A slot is FREE again. -/
def freeSlot (s : State) (i : Fin 16) : State := s.modSlot i fun y => { y with state := .free, past := false, ticket := none }

theorem freeSlot_state (s : State) (i : Fin 16) : ((s.freeSlot i).mail.slots[i]).state = .free := by
  rw [freeSlot, modSlot_slot_same]

theorem releaseSlot_posted {i : Fin 16} (h : (s.mail.slots[i]).state = .posted) :
    s.releaseSlot i = (s.freeSlot i).modMail fun m => { m with posted := m.posted.filter fun j => j != i } := by
  simp only [releaseSlot, h]
  rfl

theorem releaseSlot_past {i : Fin 16} (h : (s.mail.slots[i]).state = .replied) (hpast : (s.mail.slots[i]).past = true) :
    s.releaseSlot i = (s.detachSlot i).freeSlot i := by
  simp only [releaseSlot, h, hpast]
  rfl

theorem releaseSlot_free {i : Fin 16} (h : (s.mail.slots[i]).state = .free) : s.releaseSlot i = s := by
  simp only [releaseSlot, h]

/-- A change of the mailbox that leaves every slot but one, and the places of the others in the queue. -/
def SlotOnly (i : Fin 16) (s t : State) : Prop :=
  t = { s with mail := t.mail } ∧
    ∀ k, k ≠ i → t.mail.slots[k] = s.mail.slots[k] ∧ (k ∈ t.mail.posted ↔ k ∈ s.mail.posted)

theorem freeSlot_only (s : State) (i : Fin 16) : SlotOnly i s (s.freeSlot i) :=
  ⟨rfl, fun _ hk => ⟨modSlot_slot_other _ hk _, Iff.rfl⟩⟩

theorem releaseSlot_only (s : State) (i : Fin 16) : SlotOnly i s (s.releaseSlot i) := by
  unfold releaseSlot
  extract_lets x free
  have hdetached : SlotOnly i s (free (s.detachSlot i)) := (s.detachSlot i).freeSlot_only i
  split
  · exact ⟨rfl, fun _ _ => ⟨rfl, Iff.rfl⟩⟩
  · obtain ⟨hframe, hothers⟩ := s.freeSlot_only i
    exact ⟨rfl, fun k hk => ⟨(hothers k hk).1, by simp [modSlot, free, hk]⟩⟩
  · split
    · exact hdetached
    · split
      · exact hdetached
      · exact ⟨rfl, fun _ _ => ⟨rfl, Iff.rfl⟩⟩

/-- The slot is FREE and not queued. -/
def Unposted (i : Fin 16) (s : State) : Prop := (s.mail.slots[i]).state = .free ∧ i ∉ s.mail.posted

/-- A FREE slot stays as it is, whatever is released. -/
theorem releaseSlot_keeps_free {i : Fin 16} (h : (s.mail.slots[i]).state = .free) (b : Fin 16) :
    (s.releaseSlot b).mail.slots[i] = s.mail.slots[i] ∧ (i ∈ (s.releaseSlot b).mail.posted ↔ i ∈ s.mail.posted) := by
  by_cases hb : i = b
  · subst hb
    rw [releaseSlot_free h]
    exact ⟨rfl, Iff.rfl⟩
  · exact (s.releaseSlot_only b).2 i hb

theorem releaseSlot_keeps_unposted {i : Fin 16} (h : Unposted i s) (b : Fin 16) : Unposted i (s.releaseSlot b) := by
  obtain ⟨hfree, hqueue⟩ := h
  obtain ⟨hslot, hposted⟩ := releaseSlot_keeps_free hfree b
  exact ⟨by rw [hslot, hfree], by rwa [hposted]⟩

theorem releaseSlot_unposts {i : Fin 16} (h : (s.mail.slots[i]).state = .posted) : Unposted i (s.releaseSlot i) := by
  rw [releaseSlot_posted h]
  exact ⟨s.freeSlot_state i, by simp⟩

/-- Releasing slots frees a POSTED one among them and drops it from the queue. -/
theorem foldl_releaseSlot_posted {l : List (Fin 16)} {i : Fin 16} (hi : i ∈ l) (h : (s.mail.slots[i]).state = .posted) :
    Unposted i (l.foldl releaseSlot s) := by
  have hmakes : ∀ z : State, (z.mail.slots[i]).state = .posted ∨ Unposted i z → Unposted i (z.releaseSlot i) := by
    rintro z (hz | hz)
    · exact releaseSlot_unposts hz
    · exact releaseSlot_keeps_unposted hz i
  refine foldl_makes (P := fun z => (z.mail.slots[i]).state = .posted ∨ Unposted i z) (Q := Unposted i) (a := i)
    (fun z b hz => ?_) hmakes (fun z b _ hz => releaseSlot_keeps_unposted hz b) hi (.inl h)
  by_cases hb : i = b
  · exact .inr (hb ▸ hmakes z hz)
  · rcases hz with hz | hz
    · exact .inl (by rw [((z.releaseSlot_only b).2 i hb).1, hz])
    · exact .inr (releaseSlot_keeps_unposted hz b)

/-- Releasing slots frees a REPLIED one among them whose reply is PAST. -/
theorem foldl_releaseSlot_past {l : List (Fin 16)} {i : Fin 16} (hi : i ∈ l) (h : (s.mail.slots[i]).state = .replied)
    (hpast : (s.mail.slots[i]).past = true) : ((l.foldl releaseSlot s).mail.slots[i]).state = .free := by
  have hkeeps : ∀ (z : State) b, (z.mail.slots[i]).state = .free → ((z.releaseSlot b).mail.slots[i]).state = .free :=
    fun z b hz => by rw [(releaseSlot_keeps_free hz b).1, hz]
  have hmakes : ∀ z : State, z.mail.slots[i] = s.mail.slots[i] ∨ (z.mail.slots[i]).state = .free →
      ((z.releaseSlot i).mail.slots[i]).state = .free := by
    rintro z (hz | hz)
    · rw [releaseSlot_past (by rw [hz, h]) (by rw [hz, hpast])]
      exact freeSlot_state ..
    · exact hkeeps z i hz
  refine foldl_makes (P := fun z => z.mail.slots[i] = s.mail.slots[i] ∨ (z.mail.slots[i]).state = .free) (a := i)
    (Q := fun z => (z.mail.slots[i]).state = .free) (fun z b hz => ?_) hmakes (fun z b _ hz => hkeeps z b hz) hi (.inl rfl)
  by_cases hb : i = b
  · exact .inr (hb ▸ hmakes z hz)
  · rcases hz with hz | hz
    · exact .inl (by rw [((z.releaseSlot_only b).2 i hb).1, hz])
    · exact .inr (hkeeps z b hz)

theorem foldl_releaseSlot_other {l : List (Fin 16)} {i : Fin 16} (hi : i ∉ l) (s : State) :
    (l.foldl releaseSlot s).mail.slots[i] = s.mail.slots[i] ∧ (i ∈ (l.foldl releaseSlot s).mail.posted ↔ i ∈ s.mail.posted) := by
  induction l generalizing s with
  | nil => exact ⟨rfl, Iff.rfl⟩
  | cons b r ih =>
    obtain ⟨hib, hir⟩ := not_or.mp (mt List.mem_cons.mpr hi)
    obtain ⟨hslot, hposted⟩ := (s.releaseSlot_only b).2 i hib
    obtain ⟨hslot', hposted'⟩ := ih hir (s.releaseSlot b)
    exact ⟨hslot'.trans hslot, hposted'.trans hposted⟩

theorem foldl_releaseSlot_frame (l : List (Fin 16)) (s : State) :
    l.foldl releaseSlot s = { s with mail := (l.foldl releaseSlot s).mail } := by
  induction l generalizing s with
  | nil => rfl
  | cons b r ih => rw [List.foldl_cons, ih, (s.releaseSlot_only b).1]

/-! ## SLOT_TAKEN (R324, R350) -/

theorem exec_slotTaken_empty (h : s.mail.posted = []) : exec .slotTaken s = .next s := by
  show execSlotTaken s = _
  simp only [execSlotTaken, h]

theorem exec_slotTaken_down (h : s.hostUp = false) : exec .slotTaken s = .next s := by
  show execSlotTaken s = _
  unfold execSlotTaken
  split
  · rfl
  · simp [h]

/-- The slot at the front of the queue leaves it. -/
def shiftPosted (s : State) (r : List (Fin 16)) : State := s.modMail fun m => { m with posted := r }

/-- The slot is TAKEN and its sentence joins the input. -/
def takeSlot (s : State) (i : Fin 16) : State :=
  (s.modSlot i fun y => { y with state := .taken, past := false }).modMail fun m =>
    { m with input := m.input ++ [(readSentence (s.mail.slots[i]).words.toList false, .slot i)] }

section
variable {i : Fin 16} {r : List (Fin 16)} (hup : s.hostUp = true) (hposted : s.mail.posted = i :: r)
include hup hposted

theorem exec_slotTaken_lost (h : s.faults.cpu = .lost) :
    exec .slotTaken s = .next ((s.shiftPosted r).answerSlot i stState) := by
  show execSlotTaken s = _
  simp only [execSlotTaken, hposted, hup, h]
  rfl

theorem exec_slotTaken_takes (h : s.faults.cpu ≠ .lost) : exec .slotTaken s = .next ((s.shiftPosted r).takeSlot i) := by
  show execSlotTaken s = _
  simp only [execSlotTaken, hposted, hup, if_neg h]
  rfl

end

/-- The fields STATUS and TENSE of a reply's first word (R355). -/
theorem replyWord_fields {n st : Nat} (hst : st < 256) (te : Tense) :
    let w := BitVec.ofNat 32 (field 16 16 n + field 8 8 st + field 6 2 te.code)
    bitsOf w.toNat 8 8 = st ∧ bitsOf w.toNat 6 2 = te.code := by
  cases te <;> simp only [field, bitsOf, Tense.code, BitVec.toNat_ofNat] <;> omega

/-- An answered slot is REPLIED, with the status and TENSE PAST in its first word (R324, R351). -/
theorem answerSlot_slot (s : State) (i : Fin 16) {st : Nat} (hst : st < 256) :
    let x := (s.answerSlot i st).mail.slots[i]
    x.state = .replied ∧ bitsOf (x.words[0]).toNat 8 8 = st ∧ bitsOf (x.words[0]).toNat 6 2 = 3 := by
  have hslot : ∃ ws v, (s.answerSlot i st).mail.slots[i] = { (s.mail.slots[i]) with
      words := slotWords (BitVec.ofNat 32 (field 16 16 0 + field 8 8 st + field 6 2 Tense.past.code) :: v :: ws)
      state := .replied, past := true } := ⟨_, _, modSlot_slot_same ..⟩
  obtain ⟨ws, v, hslot⟩ := hslot
  obtain ⟨hstatus, htense⟩ := replyWord_fields (n := 0) hst .past
  rw [hslot]
  refine ⟨rfl, ?_, ?_⟩
  · simpa [slotWords] using hstatus
  · simpa [slotWords, Tense.code] using htense

end Sys2Proof.Machine.State

namespace Sys2Proof.Machine

open State

/-- Settles O45: a doorbell and a release fold over the slots the mask names, each step touching its own slot alone. -/
theorem mailboxSlotsMoveThroughTheirStates : Obligations.MailboxSlotsMoveThroughTheirStates := by
  intro slots n s
  refine ⟨fun hdown => ?_, fun hup => ⟨?_, fun hbusy => ?_, fun hfree hready => ?_, ?_, exec_slotTaken_empty,
    fun i r hposted => ?_⟩⟩
  · refine ⟨?_, ?_, ?_, exec_slotTaken_down hdown⟩
    · show execMbxDoorbell slots s = _
      simp [execMbxDoorbell, hdown]
    · show execMbxRelease slots s = _
      simp [execMbxRelease, hdown]
    · show execMbxCplack n s = _
      simp [execMbxCplack, hdown]
  · show execMbxCplack n s = _
    rw [execMbxCplack, if_pos hup]
    rfl
  · have hrefused : s.doorbellOk slots.toNat = false := by
      rw [Bool.eq_false_iff, Ne, doorbellOk_iff]
      obtain ⟨i, hi, hne⟩ := hbusy
      exact fun h => hne (h i hi)
    exact exec_mbxDoorbell_refused hup hrefused
  · refine ⟨_, exec_mbxDoorbell_posts hup (doorbellOk_iff.mpr hfree) hready, foldl_postSlot_posted .., fun i => ?_, fun i => ?_,
      foldl_postSlot_frame ..⟩
    · rw [foldl_postSlot_slot (nodup_slotsOf _)]
      simp only [mem_slotsOf]
      split <;> rfl
    · rw [foldl_postSlot_slot (nodup_slotsOf _)]
      split <;> rfl
  · refine ⟨_, exec_mbxRelease_up hup, fun i hi => foldl_releaseSlot_posted (mem_slotsOf.mpr hi),
      fun i hi => foldl_releaseSlot_past (mem_slotsOf.mpr hi), fun i hi => ?_, foldl_releaseSlot_frame ..⟩
    have hnot : i ∉ slotsOf slots.toNat := by rw [mem_slotsOf, hi]; exact Bool.false_ne_true
    obtain ⟨hslot, hqueue⟩ := foldl_releaseSlot_other hnot s
    exact ⟨hslot, hqueue.mpr⟩
  · by_cases hlost : s.faults.cpu = .lost
    · obtain ⟨hstate, hstatus, htense⟩ := (s.shiftPosted r).answerSlot_slot i (st := stState) (by decide)
      exact ⟨_, exec_slotTaken_lost hup hposted hlost, rfl, fun k hk => modSlot_slot_other _ hk _, fun h => absurd hlost h,
        fun _ => ⟨hstate, rfl, hstatus, htense⟩⟩
    · refine ⟨_, exec_slotTaken_takes hup hposted hlost, rfl, fun k hk => modSlot_slot_other _ hk _, fun _ => ⟨?_, rfl⟩,
        fun h => absurd h hlost⟩
      exact congrArg Slot.state (modSlot_slot_same ..)

end Sys2Proof.Machine
end

section
/-! Proofs: ABORT, CAPTURE, CLEAR, COMMIT, SLEEP and RESTART (R364, R383 to R385, R390, R391). -/

namespace Sys2Proof.Machine.State

variable {s : State} {t : BitVec 16} {k : Ticket}

/-! ## Tickets after a completion -/

/-- After a completion a ticket is past, or it is one of another number that stood before. -/
theorem past_or_other_of_mem_finish {j : Ticket} {n st : Nat} {ws : List Word} (h : j ∈ (s.finish n st ws).mail.tickets) :
    j.tense = .past ∨ j ∈ s.mail.tickets ∧ j.num ≠ n := by
  cases hflight : s.inFlight? n with
  | none =>
    have hself : s.finish n st ws = s := by simp only [finish, hflight]
    rw [hself] at h
    have hended := List.find?_eq_none.mp hflight j h
    by_cases hn : j.num = n
    · exact .inl (by simpa [hn] using hended)
    · exact .inr ⟨h, hn⟩
  | some q =>
    rw [finish_tickets s (by rw [hflight]; rfl)] at h
    obtain ⟨i, hi, rfl⟩ := List.mem_map.mp h
    split
    · exact .inl rfl
    · next hn => exact .inr ⟨hi, hn⟩

/-- The tickets of a list complete with a status. -/
def finishAll (s : State) (l : List Nat) (st : Nat) : State := l.foldl (fun z n => z.finish n st) s

theorem past_or_other_of_mem_finishAll {j : Ticket} {l : List Nat} {st : Nat} (h : j ∈ (s.finishAll l st).mail.tickets) :
    j.tense = .past ∨ j ∈ s.mail.tickets ∧ j.num ∉ l := by
  induction l generalizing s with
  | nil => exact .inr ⟨h, List.not_mem_nil⟩
  | cons n r ih =>
    rcases ih (s := s.finish n st) h with hpast | ⟨hmem, hr⟩
    · exact .inl hpast
    · rcases past_or_other_of_mem_finish hmem with hpast | ⟨hmem, hn⟩
      · exact .inl hpast
      · exact .inr ⟨hmem, fun hin => (List.mem_cons.mp hin).elim hn hr⟩

theorem finishAll_frame (s : State) (l : List Nat) (st : Nat) :
    s.finishAll l st = { s with mail := (s.finishAll l st).mail } := by
  induction l generalizing s with
  | nil => rfl
  | cons n r ih =>
    show (s.finish n st).finishAll r st = { s with mail := ((s.finish n st).finishAll r st).mail }
    rw [ih, finish_frame]

/-! ## ABORT (R364, R365) -/

/-- What an ABORT does to the ticket it names. -/
def abortTicket (s : State) (n target : Nat) : State :=
  if target = 0 ∨ target = n then s.finish n stTicket
  else match s.inFlight? target with
    | some q => s.abortInFlight n q
    | none => if (s.ended? target).isSome then s.finish n stAlreadyDone [0] else s.finish n stTicket

theorem exec_abort_due (hdue : s.due? t.toNat 0x30 = some k) (hnoun : k.sent.noun = 0xE0FF) (harg : k.sent.arg = 0)
    (hlen : k.sent.payload.length = 1) (htarget : (k.sent.payload.headD 0).toNat < 65536) :
    exec (.abort t) s = .next (s.abortTicket k.num (k.sent.payload.headD 0).toNat) := by
  have hformat : ¬(k.sent.arg ≠ 0 ∨ k.sent.payload.length ≠ 1 ∨ 65536 ≤ (k.sent.payload.headD 0).toNat) := by omega
  show execAbort t s = _
  simp only [execAbort, hdue, hnoun, if_neg hformat]
  rfl

/-- A ticket whose effect is not under way ends ABORTED. -/
theorem abortInFlight_idle {q : Ticket} (n : Nat) (hstage : q.stage ≠ .running) (hverb : q.sent.verb ≠ 0x03) :
    s.abortInFlight n q = (s.finish q.num stAborted).finish n stDone [0] := by
  rw [abortInFlight, if_pos hstage, if_neg hverb]

/-! ## CAPTURE, COMMIT and CLEAR (R384, R390, R391) -/

theorem storeRefusal_none {x : Sentence} (hnoun : x.noun = 0xC000) (harg : x.arg = 0) (hpayload : x.payload = []) :
    s.storeRefusal x = none := by
  rw [storeRefusal, hnoun, harg, hpayload]
  rfl

theorem exec_capture_waits (hdue : s.due? t.toNat 0x40 = some k) (hok : s.storeRefusal k.sent = none)
    (hnone : s.store.capture = none) : exec (.capture t) s =
      .next ((({ s with store := { s.store with capture := some k.num } } : State).present k.num).running k.num) := by
  show execCapture t s = _
  simp only [execCapture, hdue, hok, hnone]
  rfl

section
variable (hdue : s.due? t.toNat 0x42 = some k) (hnoun : k.sent.noun = 0x4F11) (harg : k.sent.arg = 0)
  (hpayload : k.sent.payload = [])
include hdue hnoun harg hpayload

theorem exec_clear_refused (hforce : k.sent.has 5 = false) : exec (.clear t) s = .next (s.finish k.num stAccess) := by
  show execClear t s = _
  simp only [execClear, hdue, hnoun, harg, hpayload, hforce]
  rfl

theorem exec_clear_waits (hforce : k.sent.has 5 = true) (hnone : s.ledger.clearDue = none) : exec (.clear t) s =
    .next ((({ s with ledger := { s.ledger with clearDue := some k.num } } : State).present k.num).running k.num) := by
  show execClear t s = _
  simp only [execClear, hdue, hnoun, harg, hpayload, hforce, hnone]
  rfl

end

section
variable (hdue : s.due? t.toNat 0x41 = some k) (hok : s.storeRefusal k.sent = none) (hidle : s.store.busy = none)
include hdue hok hidle

theorem exec_commit_spent (hspent : s.storeSpent = true) : exec (.commit t) s = .next (s.finish k.num stExhausted) := by
  show execCommit t s = _
  simp only [execCommit, hdue, hok, hidle, hspent]
  rfl

theorem exec_commit_begins (hspent : s.storeSpent = false) : exec (.commit t) s = .next (s.beginCommit k.num) := by
  show execCommit t s = _
  simp only [execCommit, hdue, hok, hidle, hspent]
  rfl

end

/-- A COMMIT of an invalid image ends REFUSED-CHECK and records the error (R390). -/
theorem beginCommit_refused {n : Nat} {f : Nat × Nat}
    (h : s.imageFault (readImage (expand imageMax 0 s.store.staged)) = some f) : s.beginCommit n =
    ({ s with store := { s.store with lastErr := f.2 } } : State).finish n stCheck
      [BitVec.ofNat 32 f.2, BitVec.ofNat 32 f.1] := by
  simp only [beginCommit, h]

/-- The store once a COMMIT has erased the header of the copy that is not active. -/
def commitStore (s : State) (n : Nat) : StoreSt := { s.store with
  lastErr := 0
  copies := vmod s.store.copies s.otherCopy fun x => { x with valid := false }
  busy := some (n, s.otherCopy) }

theorem beginCommit_erases {n : Nat} (h : s.imageFault (readImage (expand imageMax 0 s.store.staged)) = none) :
    s.beginCommit n = ((({ s with store := s.commitStore n } : State).present n).running n) := by
  simp only [beginCommit, h]
  rfl

theorem commitStore_copies (s : State) (n : Nat) : ((s.commitStore n).copies[s.otherCopy]).valid = false ∧
    ∀ o, o ≠ s.otherCopy → (s.commitStore n).copies[o] = s.store.copies[o] :=
  ⟨congrArg CopySt.valid (vmod_same ..), fun _ ho => vmod_other _ _ ho.symm⟩

/-! ## SLEEP and RESTART (R383, R385) -/

/-- The numbers of the tickets in flight but one. -/
def otherNumbers (s : State) (n : Nat) : List Nat :=
  (s.mail.tickets.filter fun k => k.tense != .past && k.num != n).map Ticket.num

/-- What is under way in the store, the ledger and the groups is given up. -/
def giveUp (s : State) : State := { s with
  store := { s.store with busy := none, capture := none }
  ledger := { s.ledger with clearDue := none }
  groups := s.groups.map fun q => { q with
    queue := [], swapPhase := .idle, swapped := none, inbox := [], orders := [], aborts := [] } }

theorem abortOthers_eq (s : State) (n : Nat) : s.abortOthers n = (s.finishAll (s.otherNumbers n) stAborted).giveUp := rfl

theorem past_or_other_of_mem_abortOthers {j : Ticket} {n : Nat} (h : j ∈ (s.abortOthers n).mail.tickets) :
    j.tense = .past ∨ j.num = n := by
  have hmem : j ∈ (s.finishAll (s.otherNumbers n) stAborted).mail.tickets := h
  rcases past_or_other_of_mem_finishAll hmem with hpast | ⟨hold, hnot⟩
  · exact .inl hpast
  · by_contra hflight
    obtain ⟨htense, hnum⟩ := not_or.mp hflight
    exact hnot (List.mem_map.mpr ⟨j, List.mem_filter.mpr ⟨hold, by simp [htense, hnum]⟩, rfl⟩)

/-- Every ticket is past once a SLEEP or RESTART is answered. -/
theorem answerDue_tickets {j : Ticket} {n : Nat} {d : Due} (h : j ∈ (s.answerDue n d).mail.tickets) : j.tense = .past := by
  have hmem : j ∈ ((s.abortOthers n).finish n stDone).mail.tickets := h
  rcases past_or_other_of_mem_finish hmem with hpast | ⟨hold, hn⟩
  · exact hpast
  · exact (past_or_other_of_mem_abortOthers hold).resolve_right hn

/-- What is given up for a SLEEP or RESTART, and what stays. -/
theorem abortOthers_frame (s : State) (n : Nat) : s.abortOthers n = { s with
    mail := (s.abortOthers n).mail
    store := { s.store with busy := none, capture := none }
    ledger := { s.ledger with clearDue := none }
    groups := (s.abortOthers n).groups } := by
  rw [abortOthers_eq, finishAll_frame]
  rfl

/-- What an answered SLEEP or RESTART leaves alone. -/
theorem answerDue_frame (s : State) (n : Nat) (d : Due) : s.answerDue n d = { s with
    mail := (s.answerDue n d).mail
    store := { s.store with busy := none, capture := none }
    ledger := { s.ledger with clearDue := none }
    groups := (s.answerDue n d).groups
    power := { s.power with due := some d, dueTicket := none } } := by
  unfold answerDue
  rw [finish_frame, abortOthers_frame]

section
variable (hnoun : k.sent.noun = 0xE0FF) (hstopped : ∀ g, s.groupStopped g = true)
include hnoun hstopped

theorem exec_sleep_due (hdue : s.due? t.toNat 0x50 = some k) (harg : k.sent.arg = 0) (hlen : k.sent.payload.length = 1)
    (htimer : (k.sent.payload.headD 0).toNat ≠ 0) :
    exec (.sleep t) s = .next (s.answerDue k.num (.sleep (k.sent.payload.headD 0).toNat)) := by
  have hall : (fins 8).all s.groupStopped = true := List.all_eq_true.mpr fun g _ => hstopped g
  show execSleep t s = _
  simp only [execSleep, hdue, hnoun, harg, hlen, hall, beq_false_of_ne htimer]
  rfl

theorem exec_restart_due (hdue : s.due? t.toNat 0x51 = some k) (harg : k.sent.arg < 2) (hpayload : k.sent.payload = []) :
    exec (.restart t) s = .next (s.answerDue k.num (restartKind k)) := by
  have hall : (fins 8).all s.groupStopped = true := List.all_eq_true.mpr fun g _ => hstopped g
  have hkind : decide (2 ≤ k.sent.arg) = false := decide_eq_false (Nat.not_le.mpr harg)
  show execRestart t s = _
  simp only [execRestart, hdue, hnoun, hkind, hpayload, hall]
  rfl

end

theorem restartKind_eq (harg : k.sent.arg < 2) : restartKind k = if k.sent.arg = 1 then .cold else .warm := by
  unfold restartKind
  interval_cases k.sent.arg <;> rfl

end Sys2Proof.Machine.State

namespace Sys2Proof.Machine

open State

/-- Settles O51: each verb by the lemma of what it answers; what a completion or a begin leaves alone is in their frames. -/
theorem storeAndDeviceVerbsDoWhatTheySay : Obligations.StoreAndDeviceVerbsDoWhatTheySay := by
  intro t s k x target _
  refine ⟨fun hdue hnoun harg hlen htarget => ?_, fun hdue hnoun harg hpayload hnone => ?_,
    fun hdue hnoun harg hpayload => ⟨exec_clear_refused hdue hnoun harg hpayload, fun hforce hnone => ?_⟩,
    fun hdue hnoun harg hpayload hidle => ?_,
    fun hstopped hnoun => ⟨fun hdue harg hlen htimer => ?_, fun hdue harg hpayload => ?_⟩⟩
  · have hexec := exec_abort_due hdue hnoun harg hlen htarget
    refine ⟨fun hown => ?_, fun q hzero hown hflight hstage hverb => ?_, fun hzero hown hflight => ?_⟩
    · rw [hexec, abortTicket, if_pos hown]
      rfl
    · rw [hexec, abortTicket, if_neg (not_or.mpr ⟨hzero, hown⟩), hflight]
      exact congrArg _ (abortInFlight_idle _ hstage hverb)
    · rw [hexec, abortTicket, if_neg (not_or.mpr ⟨hzero, hown⟩), hflight]
      rfl
  · have hok := storeRefusal_none (s := s) hnoun harg hpayload
    refine ⟨_, exec_capture_waits hdue hok hnone, ?_, ?_⟩ <;> rw [present_running_frame]
  · refine ⟨_, exec_clear_waits hdue hnoun harg hpayload hforce hnone, ?_, ?_⟩ <;> rw [present_running_frame]
  · have hok := storeRefusal_none (s := s) hnoun harg hpayload
    refine ⟨exec_commit_spent hdue hok hidle, fun f hspent hfault => ?_, fun hspent hvalid => ?_⟩
    · refine ⟨_, exec_commit_begins hdue hok hidle hspent, ?_⟩
      rw [beginCommit_refused hfault, finish_frame]
      exact ⟨rfl, rfl⟩
    · refine ⟨_, exec_commit_begins hdue hok hidle hspent, ?_⟩
      obtain ⟨hcopy, hothers⟩ := s.commitStore_copies k.num
      rw [beginCommit_erases hvalid, present_running_frame]
      exact ⟨rfl, hcopy, hothers, rfl⟩
  · refine ⟨_, exec_sleep_due hnoun hstopped hdue harg hlen htimer, ?_, ?_, ?_, fun _ => answerDue_tickets, ?_, ?_⟩ <;>
      rw [answerDue_frame]
  · refine ⟨_, exec_restart_due hnoun hstopped hdue harg hpayload, ?_, fun _ => answerDue_tickets, ?_⟩
    · rw [answerDue_frame, restartKind_eq harg]
    · rw [answerDue_frame]

end Sys2Proof.Machine
end

section
/-! Proofs: frames received from a CAN port, for a session, a queue or the roster (R367, R401, R402, R404, R416). -/

namespace Sys2Proof.Machine

/-! ## Error confinement (R410) -/

/-- A change of FCS touches FCS, IRQ and EPASS alone. -/
theorem setFcs_frame (c : CanPort) (f : Fcs) :
    setFcs c f = { c with fcs := f, irq := (setFcs c f).irq, ePass := (setFcs c f).ePass } := by
  unfold setFcs
  split
  · next h => rw [← h]
  · dsimp only
    split <;> rfl

/-- What the counters make of FCS touches FCS, IRQ and EPASS alone. -/
theorem confine_frame (c : CanPort) :
    confine c = { c with fcs := (confine c).fcs, irq := (confine c).irq, ePass := (confine c).ePass } := by
  unfold confine
  split
  · rfl
  · rw [setFcs_frame]

/-- A TEC above 255 takes a port that left INIT to BUS-OFF. -/
theorem confine_busOff {c : CanPort} (hover : 255 < c.tec) (hinit : c.fcs ≠ .init) : (confine c).fcs = .busOff := by
  by_cases hstays : c.fcs = .busOff ∨ c.fcs = .init
  · rw [confine, if_pos hstays]
    exact hstays.resolve_right hinit
  · rw [confine, if_neg hstays, if_pos hover, setFcs_frame]

theorem portIrq_sets (c : CanPort) {b : Nat} (hb : b < 10) : (portIrq c b).irq.getLsbD b = true := by
  simp [portIrq, hb]

namespace State

variable {s t u : State} {p k : Port}

theorem modPort_port_same (s : State) (p : Port) (f : CanPort → CanPort) : (s.modPort p f).can[p] = f s.can[p] := vmod_same ..

theorem modPort_port_other (s : State) (h : k ≠ p) (f : CanPort → CanPort) : (s.modPort p f).can[k] = s.can[k] :=
  vmod_other _ _ h.symm

theorem modBufs_bufs_same (s : State) (p : Port) (f : CanBufs → CanBufs) : (s.modBufs p f).canBufs[p] = f s.canBufs[p] :=
  vmod_same ..

theorem modBufs_bufs_other (s : State) (h : k ≠ p) (f : CanBufs → CanBufs) : (s.modBufs p f).canBufs[k] = s.canBufs[k] :=
  vmod_other _ _ h.symm

/-! ## What a reception touches -/

/-- The ports, buffers, mailbox and free values may change, at port `p` alone and not what is seen of its buffers. -/
def Receives {α : Type} (view : CanBufs → α) (p : Port) (s t : State) : Prop :=
  t = { s with can := t.can, canBufs := t.canBufs, mail := t.mail, free := t.free } ∧
    view t.canBufs[p] = view s.canBufs[p] ∧ ∀ k, k ≠ p → t.canBufs[k] = s.canBufs[k] ∧ t.can[k] = s.can[k]

namespace Receives

variable {α : Type} {view : CanBufs → α}

theorem refl (s : State) : Receives view p s s := ⟨rfl, rfl, fun _ _ => ⟨rfl, rfl⟩⟩

theorem trans (hst : Receives view p s t) (htu : Receives view p t u) : Receives view p s u := by
  obtain ⟨hframe, hview, hothers⟩ := hst
  obtain ⟨hframe', hview', hothers'⟩ := htu
  exact ⟨by rw [hframe', hframe], hview'.trans hview,
    fun k hk => ⟨(hothers' k hk).1.trans (hothers k hk).1, (hothers' k hk).2.trans (hothers k hk).2⟩⟩

theorem modPort (s : State) (f : CanPort → CanPort) : Receives view p s (s.modPort p f) :=
  ⟨rfl, rfl, fun _ hk => ⟨rfl, modPort_port_other s hk f⟩⟩

theorem modBufs (s : State) {f : CanBufs → CanBufs} (hf : ∀ b, view (f b) = view b) : Receives view p s (s.modBufs p f) :=
  ⟨rfl, by rw [modBufs_bufs_same, hf], fun _ hk => ⟨modBufs_bufs_other s hk f, rfl⟩⟩

theorem modMail (s : State) (f : MailSt → MailSt) : Receives view p s (s.modMail f) := ⟨rfl, rfl, fun _ _ => ⟨rfl, rfl⟩⟩

theorem emit (s : State) (o : Output) : Receives view p s (s.emit o) := modMail ..

theorem drawn (s : State) : Receives view p s s.drawn := ⟨rfl, rfl, fun _ _ => ⟨rfl, rfl⟩⟩

end Receives

/-- What of a port's buffers a session leaves alone. -/
def queueView (b : CanBufs) : Nat × List QueueEntry × List QueueEntry := (b.rxCnt, b.q0, b.q1)

theorem setPartial_receives (s : State) (p : Port) (k : Fin 8) (x : Option Partial) :
    Receives queueView p s (s.setPartial p k x) := .modBufs s fun _ => rfl

theorem dropPartial_receives (s : State) (p : Port) (k : Fin 8) : Receives queueView p s (s.dropPartial p k) :=
  (s.setPartial_receives p k none).trans (.emit ..)

theorem arriveSentence_receives (s : State) (p : Port) (k : Fin 8) (bytes : List Byte) :
    Receives queueView p s (s.arriveSentence p k bytes) := .modMail ..

theorem segment_receives (s : State) (p : Port) (k : Fin 8) (data : List Byte) :
    Receives queueView p s (s.segment p k data) := by
  unfold segment
  extract_lets head kind num rest old s1
  have h1 : Receives queueView p s s1 := by
    unfold s1
    split
    · exact s.dropPartial_receives p k
    · exact .refl s
  clear_value s1 old
  split
  · exact s.dropPartial_receives p k
  · split
    · split
      · exact h1.trans (dropPartial_receives ..)
      · split
        · exact h1.trans (arriveSentence_receives ..)
        · exact h1.trans (setPartial_receives ..)
    · split
      · exact s.dropPartial_receives p k
      · split
        · exact s.dropPartial_receives p k
        · split
          · exact (s.setPartial_receives p k none).trans (arriveSentence_receives ..)
          · exact s.setPartial_receives p k _

theorem sessionFrame_receives (s : State) (p : Port) (k : Fin 8) (f : CanFrame) :
    Receives queueView p s (s.sessionFrame p k f) := by
  unfold sessionFrame
  split
  · exact .refl s
  · split
    · split
      · exact s.dropPartial_receives p k
      · exact s.segment_receives p k f.data
    · split
      · exact s.arriveSentence_receives p k f.data
      · exact s.dropPartial_receives p k

/-- A valid frame credits the receiver and no buffer. -/
theorem creditReceiver_receives (s : State) (p : Port) : Receives id p s (s.creditReceiver p) := by
  unfold creditReceiver
  split
  · exact .refl s
  · split
    · exact (Receives.modPort ..).trans (.drawn _)
    · exact .modPort ..

/-- Error confinement leaves what the port's queues are set to. -/
theorem modPort_confine_queues {f : CanPort → CanPort} (hf : ∀ c, (f c).defq = c.defq ∧ (f c).q0Over = c.q0Over) :
    ((s.modPort p fun c => confine (f c)).can[p]).defq = (s.can[p]).defq ∧
      ((s.modPort p fun c => confine (f c)).can[p]).q0Over = (s.can[p]).q0Over := by
  rw [modPort_port_same, confine_frame]
  exact hf _

theorem creditReceiver_queues (s : State) (p : Port) : ((s.creditReceiver p).can[p]).defq = (s.can[p]).defq ∧
    ((s.creditReceiver p).can[p]).q0Over = (s.can[p]).q0Over := by
  unfold creditReceiver
  split
  · exact ⟨rfl, rfl⟩
  · split
    · exact modPort_confine_queues fun _ => ⟨rfl, rfl⟩
    · exact modPort_confine_queues fun _ => ⟨rfl, rfl⟩

/-! ## The queues (R402, R404) -/

/-- Appending to a queue leaves what is seen of neither the queue nor its overflow count. -/
theorem appendQueue_receives {α : Type} {view : CanBufs → α} (s : State) (p : Port) (second : Bool) (e : QueueEntry)
    (hqueue : ∀ b l, view (if second then { b with q1 := l } else { b with q0 := l }) = view b)
    (hcount : ∀ (b : CanBufs) (n : Nat → Nat),
      view (if second then { b with ovf1 := n b.ovf1 } else { b with ovf0 := n b.ovf0 }) = view b) :
    Receives view p s (s.appendQueue p second e) := by
  unfold appendQueue
  extract_lets b q n put s1 s2
  have hput : ∀ (z : State) (l : List QueueEntry), Receives view p z (z.modBufs p (put l)) :=
    fun z l => .modBufs z fun b => hqueue b l
  have h2 : Receives view p s s2 := .trans (.modBufs s fun b => hcount b (satInc 65535)) (.modPort ..)
  split
  · exact (hput ..).trans (.modPort ..)
  · generalize (if second then (s.can[p]).q1Over else (s.can[p]).q0Over) = oldestGoes
    split
    · exact (h2.trans (hput ..)).trans (.modPort ..)
    · exact h2

theorem appendQueue_rxCnt (s : State) (p : Port) (second : Bool) (e : QueueEntry) :
    Receives CanBufs.rxCnt p s (s.appendQueue p second e) := by
  cases second
  · exact appendQueue_receives s p false e (fun _ _ => rfl) fun _ _ => rfl
  · exact appendQueue_receives s p true e (fun _ _ => rfl) fun _ _ => rfl

theorem routeFrame_receives (s : State) (p : Port) (f : CanFrame) (stamp : Nat) :
    Receives CanBufs.rxCnt p s (s.routeFrame p f stamp) := by
  unfold routeFrame
  extract_lets ep
  split
  · exact appendQueue_rxCnt ..
  · exact appendQueue_rxCnt ..
  · exact .refl s
  · split
    · exact appendQueue_rxCnt ..
    · exact appendQueue_rxCnt ..
    · exact .refl s

/-- An entry joins RXQ0 where there is room (R402). -/
theorem appendQueue_room (e : QueueEntry) (h : (s.canBufs[p]).q0.length < 64) : s.appendQueue p false e =
    (s.modBufs p fun b => { b with q0 := (s.canBufs[p]).q0 ++ [e] }).modPort p fun c => portIrq c 0 := by
  unfold appendQueue
  exact if_pos h

/-- A full RXQ0 in mode DROP-NEWEST counts an overflow (R404). -/
theorem appendQueue_full (e : QueueEntry) (h : 64 ≤ (s.canBufs[p]).q0.length) (hdrop : (s.can[p]).q0Over = false) :
    s.appendQueue p false e =
      (s.modBufs p fun b => { b with ovf0 := satInc 65535 b.ovf0 }).modPort p fun c => portIrq c 2 := by
  have hfull : ¬(s.canBufs[p]).q0.length < 64 := Nat.not_lt.mpr h
  unfold appendQueue
  simp only [Bool.false_eq_true, if_false, if_neg hfull, hdrop]

/-- What an entry for RXQ0 does to the port and its buffers. -/
theorem appendQueue_rxq0 (s : State) (p : Port) (e : QueueEntry) :
    ((s.appendQueue p false e).canBufs[p]).q1 = (s.canBufs[p]).q1 ∧
    ((s.canBufs[p]).q0.length < 64 → ((s.appendQueue p false e).canBufs[p]).q0 = (s.canBufs[p]).q0 ++ [e] ∧
      ((s.appendQueue p false e).can[p]).irq.getLsbD 0 = true) ∧
    (64 ≤ (s.canBufs[p]).q0.length → (s.can[p]).q0Over = false →
      ((s.appendQueue p false e).canBufs[p]).q0 = (s.canBufs[p]).q0 ∧
      ((s.appendQueue p false e).canBufs[p]).ovf0 = satInc 65535 (s.canBufs[p]).ovf0) := by
  refine ⟨?_, fun hroom => ?_, fun hfull hdrop => ?_⟩
  · exact (appendQueue_receives (view := CanBufs.q1) s p false e (fun _ _ => rfl) fun _ _ => rfl).2.1
  · rw [appendQueue_room e hroom, modPort_port_same, modPort_canBufs, modBufs_bufs_same]
    exact ⟨rfl, portIrq_sets _ (by decide)⟩
  · rw [appendQueue_full e hfull hdrop, modPort_canBufs, modBufs_bufs_same]
    exact ⟨rfl, rfl⟩

/-- A frame that no filter decides goes to the default queue RXQ0 (R401). -/
theorem routeFrame_default {f : CanFrame} (hfilter : s.decideFilter p f = none) (hdefault : (s.can[p]).defq = 1) (stamp : Nat) :
    s.routeFrame p f stamp = s.appendQueue p false (entryWords f none stamp (s.epochOf stamp)) := by
  simp only [routeFrame, hfilter, hdefault]
  rfl

/-! ## The roster (R416) -/

theorem countFrame_ports (s : State) (p : Port) (f : CanFrame) (stamp : Nat) :
    (s.countFrame p f stamp).can = s.can ∧ (s.countFrame p f stamp).canBufs = s.canBufs := by
  unfold countFrame
  extract_lets node seen fresh l
  split
  · exact ⟨rfl, rfl⟩
  · split
    · exact ⟨rfl, rfl⟩
    · split
      · exact ⟨rfl, rfl⟩
      · split
        · exact ⟨rfl, rfl⟩
        · split
          · exact ⟨rfl, rfl⟩
          · exact ⟨logEvent_can .., logEvent_canBufs ..⟩

/-- A frame of a node in the roster updates the node's entry. -/
theorem countFrame_entry {f : CanFrame} {stamp i : Nat} {e : RosterEntry}
    (hfind : s.rosterFind p (s.nodeOf p f.id.toNat) = some i) (he : (i, e) ∈ s.roster.entries) : (i, { e with
      seen := (s.epochOf stamp).toNat * 4294967296 + stamp, lastId := f.id, lide := f.ide
      frames := inc32 e.frames, silent := false }) ∈ (s.countFrame p f stamp).roster.entries := by
  simp only [countFrame, hfind]
  exact List.mem_map.mpr ⟨_, he, if_pos rfl⟩

/-! ## CAN_FRAME_RECEIVED (R401) -/

section
variable (p : Port) (f : CanFrame) (stamp : BitVec 32) (s : State)

/-- The frame is credited to the receiver and counted. -/
def credited : State := (s.creditReceiver p).modBufs p fun b => { b with rxCnt := inc32 b.rxCnt }

/-- The frame goes to its session, or to a queue. -/
def deliverFrame : State :=
  match s.sessionOf p f with
  | some k => s.sessionFrame p k f
  | none => s.routeFrame p f stamp.toNat

/-- The frame has been taken off the bus, before the roster counts it. -/
def accepted : State := (s.credited p).deliverFrame p f stamp

/-- The frame has been taken off the bus and counted in the roster. -/
def received : State :=
  if (s.accepted p f stamp).rosterCounts p f.ide && (s.can[p]).mode.val != 4 then
    (s.accepted p f stamp).countFrame p f stamp.toNat
  else s.accepted p f stamp

theorem credited_bufs : (s.credited p).canBufs[p] = { s.canBufs[p] with rxCnt := inc32 (s.canBufs[p]).rxCnt } := by
  obtain ⟨-, hbufs, -⟩ := s.creditReceiver_receives p
  rw [credited, modBufs_bufs_same]
  exact congrArg (fun b : CanBufs => { b with rxCnt := inc32 b.rxCnt }) hbufs

theorem deliverFrame_receives : Receives CanBufs.rxCnt p s (s.deliverFrame p f stamp) := by
  unfold deliverFrame
  split
  · next k _ =>
    obtain ⟨hframe, hview, hothers⟩ := s.sessionFrame_receives p k f
    exact ⟨hframe, congrArg Prod.fst hview, hothers⟩
  · exact s.routeFrame_receives p f stamp.toNat

/-- What a frame that is taken off the bus changes. -/
theorem accepted_receives : s.accepted p f stamp = { s with
      can := (s.accepted p f stamp).can, canBufs := (s.accepted p f stamp).canBufs
      mail := (s.accepted p f stamp).mail, free := (s.accepted p f stamp).free } ∧
    ((s.accepted p f stamp).canBufs[p]).rxCnt = inc32 (s.canBufs[p]).rxCnt ∧
    ∀ k, k ≠ p → (s.accepted p f stamp).canBufs[k] = s.canBufs[k] ∧ (s.accepted p f stamp).can[k] = s.can[k] := by
  have hcredit : Receives (fun _ => ()) p s (s.credited p) := by
    obtain ⟨hframe, -, hothers⟩ := s.creditReceiver_receives p
    exact Receives.trans ⟨hframe, rfl, hothers⟩ (.modBufs _ fun _ => rfl)
  obtain ⟨hframe, -, hothers⟩ := hcredit
  obtain ⟨hframe', hcnt, hothers'⟩ := (s.credited p).deliverFrame_receives p f stamp
  refine ⟨?_, ?_, fun k hk => ⟨(hothers' k hk).1.trans (hothers k hk).1, (hothers' k hk).2.trans (hothers k hk).2⟩⟩
  · unfold accepted
    rw [hframe', hframe]
  · rw [accepted, hcnt, credited_bufs]

theorem received_ports : (s.received p f stamp).can = (s.accepted p f stamp).can ∧
    (s.received p f stamp).canBufs = (s.accepted p f stamp).canBufs := by
  unfold received
  split
  · exact countFrame_ports ..
  · exact ⟨rfl, rfl⟩

variable {p f stamp s}

theorem credited_frame : s.credited p = { s with
    can := (s.credited p).can, canBufs := (s.credited p).canBufs, free := (s.credited p).free, mail := (s.credited p).mail } := by
  obtain ⟨hframe, -⟩ := s.creditReceiver_receives p
  unfold credited
  rw [hframe]
  rfl

theorem credited_sessionOf : (s.credited p).sessionOf p f = s.sessionOf p f := by
  rw [credited_frame]
  rfl

/-- A frame for a session stays out of the queues. -/
theorem accepted_session {k : Fin 8} (h : s.sessionOf p f = some k) :
    ((s.accepted p f stamp).canBufs[p]).q0 = (s.canBufs[p]).q0 ∧ ((s.accepted p f stamp).canBufs[p]).q1 = (s.canBufs[p]).q1 := by
  obtain ⟨-, hview, -⟩ := (s.credited p).sessionFrame_receives p k f
  rw [credited_bufs] at hview
  simp only [queueView, Prod.mk.injEq] at hview
  simp only [accepted, deliverFrame, credited_sessionOf, h]
  exact hview.2

theorem credited_decideFilter : (s.credited p).decideFilter p f = s.decideFilter p f := by
  simp only [decideFilter, credited_bufs]

theorem credited_epochOf (n : Nat) : (s.credited p).epochOf n = s.epochOf n := by
  rw [credited_frame]
  rfl

theorem credited_queues (s : State) (p : Port) : ((s.credited p).can[p]).defq = (s.can[p]).defq ∧
    ((s.credited p).can[p]).q0Over = (s.can[p]).q0Over := s.creditReceiver_queues p

/-- A frame for no session and no filter goes to RXQ0 where that is the default queue (R401, R402, R404). -/
theorem accepted_default (hsession : s.sessionOf p f = none) (hfilter : s.decideFilter p f = none)
    (hdefault : (s.can[p]).defq = 1) :
    let e := entryWords f none stamp.toNat (s.epochOf stamp.toNat)
    ((s.accepted p f stamp).canBufs[p]).q1 = (s.canBufs[p]).q1 ∧
    ((s.canBufs[p]).q0.length < 64 → ((s.accepted p f stamp).canBufs[p]).q0 = (s.canBufs[p]).q0 ++ [e] ∧
      ((s.accepted p f stamp).can[p]).irq.getLsbD 0 = true) ∧
    (64 ≤ (s.canBufs[p]).q0.length → (s.can[p]).q0Over = false →
      ((s.accepted p f stamp).canBufs[p]).q0 = (s.canBufs[p]).q0 ∧
      ((s.accepted p f stamp).canBufs[p]).ovf0 = satInc 65535 (s.canBufs[p]).ovf0) := by
  intro e
  obtain ⟨hdefq, hover⟩ := s.credited_queues p
  have happend : s.accepted p f stamp = (s.credited p).appendQueue p false e := by
    simp only [accepted, deliverFrame, credited_sessionOf, hsession]
    rw [routeFrame_default (credited_decideFilter.trans hfilter) (hdefq.trans hdefault), credited_epochOf]
  have hqueue := (s.credited p).appendQueue_rxq0 p e
  rw [credited_bufs, hover] at hqueue
  rw [happend]
  exact hqueue

/-- The roster's entry of the sender's node is the one it had, counted on. -/
theorem received_entry {i : Nat} {e : RosterEntry} (hfind : s.rosterFind p (s.nodeOf p f.id.toNat) = some i)
    (hcounts : s.rosterCounts p f.ide = true) (hmode : (s.can[p]).mode.val ≠ 4) (he : (i, e) ∈ s.roster.entries) : (i, { e with
      seen := (s.epochOf stamp.toNat).toNat * 4294967296 + stamp.toNat, lastId := f.id, lide := f.ide
      frames := inc32 e.frames, silent := false }) ∈ (s.received p f stamp).roster.entries := by
  obtain ⟨hframe, -⟩ := s.accepted_receives p f stamp
  have hcounts' : (s.accepted p f stamp).rosterCounts p f.ide = true := by rw [hframe]; exact hcounts
  have hfind' : (s.accepted p f stamp).rosterFind p ((s.accepted p f stamp).nodeOf p f.id.toNat) = some i := by
    rw [hframe]; exact hfind
  have hepoch : (s.accepted p f stamp).epochOf stamp.toNat = s.epochOf stamp.toNat := by rw [hframe]; rfl
  have he' : (i, e) ∈ (s.accepted p f stamp).roster.entries := by rw [hframe]; exact he
  rw [received, hcounts', bne_iff_ne.mpr hmode, ← hepoch]
  exact countFrame_entry hfind' he'

theorem exec_canFrameReceived_off (h : s.portUp p = false ∨ onBus s.can[p] = false) :
    exec (.canFrameReceived p f stamp) s = .next s := by
  have hoff : (s.portUp p && onBus s.can[p]) = false := Bool.and_eq_false_iff.mpr h
  show execCanFrameReceived p f stamp s = _
  simp only [execCanFrameReceived, hoff]
  rfl

section
variable (hup : s.portUp p = true) (hbus : onBus s.can[p] = true)
include hup hbus

theorem exec_canFrameReceived_unread (hfd : f.fdf = true) (hclassic : (s.can[p]).fdEn = false) :
    exec (.canFrameReceived p f stamp) s = exec (.protocolException p) s := by
  show execCanFrameReceived p f stamp s = execProtocolException p s
  simp only [execCanFrameReceived, execProtocolException, hup, hbus, hfd, hclassic]
  rfl

theorem exec_canFrameReceived_reads (h : f.fdf = false ∨ (s.can[p]).fdEn = true) :
    exec (.canFrameReceived p f stamp) s = .next (s.received p f stamp) := by
  have hread : (f.fdf && !(s.can[p]).fdEn) = false := by rcases h with h | h <;> rw [h] <;> simp
  show execCanFrameReceived p f stamp s = _
  simp only [execCanFrameReceived, hup, hbus, hread]
  rfl

end

end

/-! ## CAN_SEGMENT_TIMEOUT (R367) -/

theorem exec_canSegmentTimeout_idle {k : Fin 8} (h : (s.canBufs[p]).partials[k] = none) :
    exec (.canSegmentTimeout p k) s = .next s := by
  show execCanSegmentTimeout p k s = _
  simp only [execCanSegmentTimeout, h]
  rfl

theorem exec_canSegmentTimeout_drops {k : Fin 8} (h : (s.canBufs[p]).partials[k] ≠ none) :
    exec (.canSegmentTimeout p k) s = .next (s.dropPartial p k) := by
  show execCanSegmentTimeout p k s = _
  rw [execCanSegmentTimeout, if_pos (Option.isSome_iff_ne_none.mpr h)]

/-- A partial sentence that is dropped is answered REFUSED-FORMAT without a ticket. -/
theorem dropPartial_answers (s : State) (p : Port) (k : Fin 8) : ∃ v n,
    ((s.dropPartial p k).canBufs[p]).partials[k] = none ∧
    .bareReply (.session p k) 0x46 v n ∈ (s.dropPartial p k).mail.output ∧
    s.dropPartial p k = { s with canBufs := (s.dropPartial p k).canBufs, mail := (s.dropPartial p k).mail } := by
  refine ⟨_, _, ?_, List.mem_append_right _ (List.mem_singleton.mpr rfl), rfl⟩
  have hbufs : (s.dropPartial p k).canBufs[p] = { s.canBufs[p] with partials := (s.canBufs[p]).partials.set k none } :=
    modBufs_bufs_same ..
  rw [hbufs]
  exact Vector.getElem_set_self _

end State

end Sys2Proof.Machine
end

section
/-! Proofs: frames sent from a CAN port, and the errors it detects (R407, R408, R410, R411, R413). -/

namespace Sys2Proof.Machine

/-! ## The buffer that wins (R407) -/

/-- A candidate wins over another: the lower index where buffers go in order, else the lower key and then the lower index. -/
def Wins (inOrder : Bool) (x y : Fin 3 × Nat) : Prop :=
  if inOrder then x.1 ≤ y.1 else x.2 < y.2 ∨ x.2 = y.2 ∧ x.1 ≤ y.1

theorem Wins.refl (inOrder : Bool) (x : Fin 3 × Nat) : Wins inOrder x x := by
  cases inOrder <;> simp [Wins]

theorem Wins.trans {inOrder : Bool} {x y z : Fin 3 × Nat} (hxy : Wins inOrder x y) (hyz : Wins inOrder y z) :
    Wins inOrder x z := by
  cases inOrder <;> simp only [Wins, Bool.false_eq_true, if_false, if_true] at hxy hyz ⊢ <;> omega

/-- The better of a candidate and one of a higher index. -/
def better (inOrder : Bool) (x y : Fin 3 × Nat) : Fin 3 × Nat := if inOrder || decide (x.2 ≤ y.2) then x else y

theorem better_wins {inOrder : Bool} {x y : Fin 3 × Nat} (h : x.1 < y.1) :
    Wins inOrder (better inOrder x y) x ∧ Wins inOrder (better inOrder x y) y := by
  cases inOrder
  · by_cases hkey : x.2 ≤ y.2
    · simp [better, Wins, hkey]
      omega
    · simp [better, Wins, hkey]
      omega
  · simp [better, Wins]
    omega

/-- Of candidates in rising order the fold keeps one of them, which wins over all. -/
theorem foldl_better_wins {inOrder : Bool} {l : List (Fin 3 × Nat)} {x : Fin 3 × Nat}
    (h : (x :: l).Pairwise fun y z => y.1 < z.1) :
    l.foldl (better inOrder) x ∈ x :: l ∧ ∀ y ∈ x :: l, Wins inOrder (l.foldl (better inOrder) x) y := by
  induction l generalizing x with
  | nil => exact ⟨List.mem_singleton.mpr rfl, fun y hy => by rw [List.mem_singleton.mp hy]; exact .refl ..⟩
  | cons z r ih =>
    obtain ⟨hx, hzr⟩ := List.pairwise_cons.mp h
    obtain ⟨hz, hr⟩ := List.pairwise_cons.mp hzr
    have hmem : better inOrder x z = x ∨ better inOrder x z = z := by
      unfold better
      split
      · exact .inl rfl
      · exact .inr rfl
    have hlow : ∀ y ∈ r, (better inOrder x z).1 < y.1 := fun y hy => by
      rcases hmem with hb | hb
      · rw [hb]; exact hx y (List.mem_cons_of_mem _ hy)
      · rw [hb]; exact hz y hy
    obtain ⟨hbest, hwins⟩ := ih (List.pairwise_cons.mpr ⟨hlow, hr⟩)
    obtain ⟨hwx, hwz⟩ := better_wins (inOrder := inOrder) (hx z List.mem_cons_self)
    have hfirst := hwins _ List.mem_cons_self
    refine ⟨?_, fun y hy => ?_⟩
    · rcases List.mem_cons.mp hbest with hb | hb
      · rw [List.foldl_cons, hb]
        rcases hmem with hb | hb <;> simp [hb]
      · exact List.mem_cons_of_mem _ (List.mem_cons_of_mem _ hb)
    · rcases List.mem_cons.mp hy with rfl | hy
      · exact hfirst.trans hwx
      · rcases List.mem_cons.mp hy with rfl | hy
        · exact hfirst.trans hwz
        · exact hwins y (List.mem_cons_of_mem _ hy)

namespace State

variable {s : State} {p : Port} {i : Fin 3}

/-- The buffers with a frame to send, in rising order, with their keys. -/
def candidates (s : State) (p : Port) : List (Fin 3 × Nat) := (fins 3).filterMap fun i => (s.txKey p i).map fun k => (i, k)

theorem mem_candidates {k : Nat} : (i, k) ∈ s.candidates p ↔ s.txKey p i = some k := by
  simp [candidates, fins, List.mem_filterMap]

theorem pairwise_candidates (s : State) (p : Port) : (s.candidates p).Pairwise fun x y => x.1 < y.1 := by
  refine List.pairwise_filterMap.mpr ((List.pairwise_lt_finRange 3).imp fun hij b hb c hc => ?_)
  obtain ⟨-, -, rfl⟩ := Option.map_eq_some_iff.mp hb
  obtain ⟨-, -, rfl⟩ := Option.map_eq_some_iff.mp hc
  exact hij

theorem chooseTx_eq (s : State) (p : Port) : s.chooseTx p = match s.candidates p with
    | [] => none
    | x :: l => some (l.foldl (better (s.can[p]).txOrd) x).1 := rfl

/-- The buffer chosen has a frame to send and wins over every other one that has. -/
theorem chooseTx_wins (h : s.chooseTx p = some i) : ∃ k, s.txKey p i = some k ∧
    ∀ j n, s.txKey p j = some n → Wins (s.can[p]).txOrd (i, k) (j, n) := by
  rw [chooseTx_eq] at h
  have hsorted := s.pairwise_candidates p
  have hmem : ∀ j n, (j, n) ∈ s.candidates p ↔ s.txKey p j = some n := fun _ _ => mem_candidates
  revert h hsorted hmem
  cases s.candidates p with
  | nil => exact fun h => absurd h (by simp)
  | cons x l =>
    intro h hsorted hmem
    obtain ⟨hbest, hwins⟩ := foldl_better_wins (inOrder := (s.can[p]).txOrd) hsorted
    obtain rfl := Option.some.inj h
    exact ⟨_, (hmem _ _).mp hbest, fun j n hj => hwins _ ((hmem j n).mpr hj)⟩

/-! ## CAN_TRANSMIT_CHOICE (R407) -/

theorem modTx_bufs (s : State) (p : Port) (i : Fin 3) (f : TxBuf → TxBuf) :
    (s.modTx p i f).canBufs[p] = { s.canBufs[p] with tx := vmod (s.canBufs[p]).tx i f } := modBufs_bufs_same ..

theorem modTx_tx_same (s : State) (p : Port) (i : Fin 3) (f : TxBuf → TxBuf) :
    ((s.modTx p i f).canBufs[p]).tx[i] = f (s.canBufs[p]).tx[i] := by
  rw [modTx_bufs]
  exact vmod_same ..

theorem modTx_tx_other (s : State) (p : Port) {i j : Fin 3} (h : j ≠ i) (f : TxBuf → TxBuf) :
    ((s.modTx p i f).canBufs[p]).tx[j] = (s.canBufs[p]).tx[j] := by
  rw [modTx_bufs]
  exact vmod_other _ _ h.symm

/-- A buffer's frame goes on the bus. -/
def beginTx (s : State) (p : Port) (i : Fin 3) : State :=
  (s.modBufs p fun b => { b with sending := some i }).modTx p i fun x =>
    if x.state = .firmware then x else { x with state := .active }

theorem beginTx_sends (s : State) (p : Port) (i : Fin 3) : ((s.beginTx p i).canBufs[p]).sending = some i ∧
    (((s.canBufs[p]).tx[i]).state = .pending → (((s.beginTx p i).canBufs[p]).tx[i]).state = .active) := by
  have hbufs : (s.modBufs p fun b => { b with sending := some i }).canBufs[p] = { s.canBufs[p] with sending := some i } :=
    modBufs_bufs_same ..
  refine ⟨?_, fun hpending => ?_⟩
  · rw [beginTx, modTx_bufs, hbufs]
  · have hne : ((s.canBufs[p]).tx[i]).state ≠ .firmware := by rw [hpending]; decide
    rw [beginTx, modTx_tx_same, hbufs]
    exact congrArg TxBuf.state (if_neg hne)

section
variable (hup : s.portUp p = true) (hbus : onBus s.can[p] = true) (hcounts : counts s.can[p] = true)
  (hidle : (s.canBufs[p]).sending = none)
include hup hbus hcounts hidle

theorem exec_canTransmitChoice_none (h : s.chooseTx p = none) : exec (.canTransmitChoice p) s = .next s := by
  show execCanTransmitChoice p s = _
  simp only [execCanTransmitChoice, hup, hbus, hcounts, hidle, h]
  rfl

theorem exec_canTransmitChoice_begins (h : s.chooseTx p = some i) : exec (.canTransmitChoice p) s = .next (s.beginTx p i) := by
  show execCanTransmitChoice p s = _
  simp only [execCanTransmitChoice, hup, hbus, hcounts, hidle, h]
  rfl

end

/-! ## CAN_TRANSMIT_END (R408, R409) -/

/-- The bus is left to others. -/
def leaveBus (s : State) (p : Port) : State := s.modBufs p fun b => { b with sending := none }

theorem leaveBus_bufs (s : State) (p : Port) : (s.leaveBus p).canBufs[p] = { s.canBufs[p] with sending := none } :=
  modBufs_bufs_same ..

/-- A buffer keeps the stamp of its frame, and the frame is counted. -/
def recordSent (s : State) (p : Port) (i : Fin 3) (stamp : BitVec 32) : State :=
  ((s.leaveBus p).modTx p i fun x => { x with stamp := stamp, aborting := false }).modBufs p fun b =>
    { b with txCnt := inc32 b.txCnt }

/-- A success credits the transmitter. -/
def creditSender (s : State) (p : Port) (tdcv : Nat) : State :=
  (s.modPort p fun c => confine { c with tec := c.tec - 1 }).takeTdcv p tdcv

/-- The frame of a buffer of the host was sent. -/
def endSent (s : State) (p : Port) (i : Fin 3) (stamp : BitVec 32) (tdcv : Nat) : State :=
  (((s.recordSent p i stamp).creditSender p tdcv).modTx p i fun x => { x with state := .sent }).modPort p fun c =>
    portIrq c (4 + i.val)

/-- The attempt of a buffer of the host ended without success. -/
def endUnsent (s : State) (p : Port) (i : Fin 3) : State :=
  if (((s.leaveBus p).canBufs[p]).tx[i]).aborting then
    ((s.leaveBus p).modTx p i fun x => { x with state := .aborted, aborting := false }).modPort p fun c => portIrq c (4 + i.val)
  else if (s.can[p]).oneShot then
    ((s.leaveBus p).modTx p i fun x => { x with state := .failed }).modPort p fun c => portIrq c (4 + i.val)
  else (s.leaveBus p).modTx p i fun x => { x with state := .pending }

/-- What an attempt's end does to a buffer of the host. -/
def endAttempt (s : State) (p : Port) (i : Fin 3) : CanTxOutcome → State
  | .sent stamp tdcv => s.endSent p i stamp tdcv
  | .lostArbitration => s.endUnsent p i
  | .error => s.endUnsent p i

theorem takeTdcv_port (s : State) (p : Port) (v : Nat) : ∃ x, (s.takeTdcv p v).can[p] = { s.can[p] with tdcv := x } := by
  rw [takeTdcv, modPort_port_same]
  split
  · exact ⟨_, rfl⟩
  · exact ⟨_, rfl⟩

theorem creditSender_port (s : State) (p : Port) (v : Nat) : ((s.creditSender p v).can[p]).tec = (s.can[p]).tec - 1 ∧
    ((s.creditSender p v).can[p]).nextMode = (s.can[p]).nextMode := by
  obtain ⟨x, hx⟩ := (s.modPort p fun c => confine { c with tec := c.tec - 1 }).takeTdcv_port p v
  rw [creditSender, hx, modPort_port_same, confine_frame]
  exact ⟨rfl, rfl⟩

/-- The port after a success: TEC lower by one, and the buffer's interrupt. -/
theorem endSent_port (s : State) (p : Port) (i : Fin 3) (stamp : BitVec 32) (tdcv : Nat) :
    ((s.endSent p i stamp tdcv).can[p]).tec = (s.can[p]).tec - 1 ∧
    ((s.endSent p i stamp tdcv).can[p]).nextMode = (s.can[p]).nextMode ∧
    ((s.endSent p i stamp tdcv).can[p]).irq.getLsbD (4 + i.val) = true := by
  have hbit := i.isLt
  obtain ⟨htec, hmode⟩ := (s.recordSent p i stamp).creditSender_port p tdcv
  rw [endSent, modPort_port_same]
  exact ⟨htec, hmode, portIrq_sets _ (by omega)⟩

theorem recordSent_bufs (s : State) (p : Port) (i : Fin 3) (stamp : BitVec 32) :
    (s.recordSent p i stamp).canBufs[p] = { s.canBufs[p] with
      sending := none
      txCnt := inc32 (s.canBufs[p]).txCnt
      tx := vmod (s.canBufs[p]).tx i fun x => { x with stamp := stamp, aborting := false } } := by
  rw [recordSent, modBufs_bufs_same, modTx_bufs, leaveBus_bufs]

/-- The buffers after a success. -/
theorem endSent_bufs (s : State) (p : Port) (i : Fin 3) (stamp : BitVec 32) (tdcv : Nat) :
    ((s.endSent p i stamp tdcv).canBufs[p]).sending = none ∧
    ((s.endSent p i stamp tdcv).canBufs[p]).txCnt = inc32 (s.canBufs[p]).txCnt ∧
    (((s.endSent p i stamp tdcv).canBufs[p]).tx[i]).state = .sent ∧
    (((s.endSent p i stamp tdcv).canBufs[p]).tx[i]).stamp = stamp := by
  have hbufs : (s.endSent p i stamp tdcv).canBufs[p] =
      { (s.recordSent p i stamp).canBufs[p] with tx := vmod ((s.recordSent p i stamp).canBufs[p]).tx i fun x =>
        { x with state := .sent } } := modTx_bufs ..
  rw [hbufs, recordSent_bufs]
  refine ⟨rfl, rfl, congrArg TxBuf.state (vmod_same ..), ?_⟩
  exact (congrArg TxBuf.stamp (vmod_same ..)).trans (congrArg TxBuf.stamp (vmod_same ..))

theorem modPort_portIrq_nextMode (s : State) (p : Port) (b : Nat) :
    ((s.modPort p fun c => portIrq c b).can[p]).nextMode = (s.can[p]).nextMode := by
  rw [modPort_port_same]
  rfl

/-- The buffer and the port after an attempt without success. -/
theorem endUnsent_ends (s : State) (p : Port) (i : Fin 3) : (((s.endUnsent p i).canBufs[p]).tx[i]).state =
      (if ((s.canBufs[p]).tx[i]).aborting then .aborted else if (s.can[p]).oneShot then .failed else .pending) ∧
    ((s.endUnsent p i).canBufs[p]).sending = none ∧ ((s.endUnsent p i).can[p]).nextMode = (s.can[p]).nextMode ∧
    (s.endUnsent p i).nouns = s.nouns := by
  have hends : ∀ f : TxBuf → TxBuf, (((s.leaveBus p).modTx p i f).canBufs[p]).sending = none := fun f => by
    rw [modTx_bufs, leaveBus_bufs]
  unfold endUnsent
  rw [leaveBus_bufs]
  dsimp only
  split
  · exact ⟨congrArg TxBuf.state (modTx_tx_same ..), hends _, modPort_portIrq_nextMode .., rfl⟩
  · split
    · exact ⟨congrArg TxBuf.state (modTx_tx_same ..), hends _, modPort_portIrq_nextMode .., rfl⟩
    · exact ⟨congrArg TxBuf.state (modTx_tx_same ..), hends _, rfl, rfl⟩

/-- A MODE that waited for the frame's end is taken. -/
def takeNextMode (s : State) (p : Port) : State :=
  match (s.can[p]).nextMode with
  | some k => s.modPort p fun c => applyMode c k
  | none => s

/-- The session mask decides over TXB2 alone, and never over a buffer the host holds while no session is enabled. -/
theorem ownTxb2_tx (h : i.val < 2 ∨ s.pNoun p 0x40 = 0) (hstate : ((s.canBufs[p]).tx[i]).state ≠ .firmware) :
    ((s.ownTxb2 p).canBufs[p]).tx[i] = (s.canBufs[p]).tx[i] := by
  by_cases hi : i = 2
  · subst hi
    have hnone : s.pNoun p 0x40 = 0 := h.resolve_left (by decide)
    have hhost : ¬(((s.canBufs[p]).tx[(2 : Fin 3)]).state = .firmware ∧ (s.canBufs[p]).sending ≠ some 2) := fun h => hstate h.1
    rw [ownTxb2, modTx_tx_same, hnone]
    exact if_neg hhost
  · exact modTx_tx_other s p hi _

theorem takeNextMode_none (h : (s.can[p]).nextMode = none) : s.takeNextMode p = s := by
  simp only [takeNextMode, h]

/-- What the session mask leaves of the buffers. -/
theorem ownTxb2_bufs (s : State) (p : Port) : ((s.ownTxb2 p).canBufs[p]).sending = (s.canBufs[p]).sending ∧
    ((s.ownTxb2 p).canBufs[p]).txCnt = (s.canBufs[p]).txCnt := by
  rw [ownTxb2, modTx_bufs]
  exact ⟨rfl, rfl⟩

/-- However the attempt of a buffer ends, the bus is left, the buffer stays the host's and no MODE begins to wait. -/
theorem endAttempt_ends (s : State) (p : Port) (i : Fin 3) (o : CanTxOutcome) :
    ((s.endAttempt p i o).canBufs[p]).sending = none ∧ (((s.endAttempt p i o).canBufs[p]).tx[i]).state ≠ .firmware ∧
    ((s.endAttempt p i o).can[p]).nextMode = (s.can[p]).nextMode ∧ (s.endAttempt p i o).nouns = s.nouns := by
  have hsent : ∀ st d, (s.endSent p i st d).nouns = s.nouns := fun _ _ => by
    simp only [endSent, creditSender, takeTdcv, recordSent, leaveBus, modTx, modPort_nouns, modBufs_nouns]
  have hunsent : ((s.endUnsent p i).canBufs[p]).sending = none ∧ (((s.endUnsent p i).canBufs[p]).tx[i]).state ≠ .firmware ∧
      ((s.endUnsent p i).can[p]).nextMode = (s.can[p]).nextMode ∧ (s.endUnsent p i).nouns = s.nouns := by
    obtain ⟨hstate, hsending, hmode, hnouns⟩ := s.endUnsent_ends p i
    refine ⟨hsending, ?_, hmode, hnouns⟩
    rw [hstate]
    split
    · decide
    · split <;> decide
  cases o with
  | sent stamp tdcv =>
    obtain ⟨hsending, -, hstate, -⟩ := s.endSent_bufs p i stamp tdcv
    obtain ⟨-, hmode, -⟩ := s.endSent_port p i stamp tdcv
    exact ⟨hsending, fun h => absurd (hstate.symm.trans h) (by decide), hmode, hsent ..⟩
  | lostArbitration => exact hunsent
  | error => exact hunsent

section
variable (hsending : (s.canBufs[p]).sending = some i) (hhost : s.firmwareTx p i = false)
include hsending hhost

theorem exec_canTransmitEnd_host (o : CanTxOutcome) :
    exec (.canTransmitEnd p o) s = .next (((s.endAttempt p i o).ownTxb2 p).takeNextMode p) := by
  show execCanTransmitEnd p o s = _
  simp only [execCanTransmitEnd, hsending, hhost]
  cases o <;> rfl

end

/-! ## CAN_ERROR_DETECTED (R410, R411, R413) -/

/-- What is seen of a port and of its buffers stands. -/
def Stands {α β : Type} (portView : CanPort → α) (bufsView : CanBufs → β) (p : Port) (s t : State) : Prop :=
  portView t.can[p] = portView s.can[p] ∧ bufsView t.canBufs[p] = bufsView s.canBufs[p]

namespace Stands

variable {α β : Type} {portView : CanPort → α} {bufsView : CanBufs → β} {t u : State}

theorem refl (s : State) : Stands portView bufsView p s s := ⟨rfl, rfl⟩

theorem trans (hst : Stands portView bufsView p s t) (htu : Stands portView bufsView p t u) : Stands portView bufsView p s u :=
  ⟨htu.1.trans hst.1, htu.2.trans hst.2⟩

theorem of_eq (hcan : t.can = s.can) (hbufs : t.canBufs = s.canBufs) : Stands portView bufsView p s t :=
  ⟨by rw [hcan], by rw [hbufs]⟩

theorem modPort (s : State) {f : CanPort → CanPort} (hf : ∀ c, portView (f c) = portView c) :
    Stands portView bufsView p s (s.modPort p f) := ⟨by rw [modPort_port_same, hf], rfl⟩

theorem modBufs (s : State) {f : CanBufs → CanBufs} (hf : ∀ b, bufsView (f b) = bufsView b) :
    Stands portView bufsView p s (s.modBufs p f) := ⟨rfl, by rw [modBufs_bufs_same, hf]⟩

theorem logEvent (s : State) (sev code object : Nat) (d0 : Int) (sample : Nat) :
    Stands portView bufsView p s (s.logEvent sev code object d0 sample) := .of_eq (logEvent_can ..) (logEvent_canBufs ..)

theorem setDup (s : State) (k : Port) (id : BitVec 29) (on : Bool) : Stands portView bufsView p s (s.setDup k id on) :=
  .of_eq rfl rfl

end Stands

/-- What an error makes of a port: kind and phase, the counters and FCS. -/
def errorView (c : CanPort) : Fin 7 × Bool × Nat × Nat × Fcs := (c.lec, c.lecData, c.tec, c.recv, c.fcs)

/-- What of a port stands while identifiers are tracked. -/
def trackedPort (c : CanPort) : (Fin 7 × Bool × Nat × Nat × Fcs) × Bool := (errorView c, c.bOff)

/-- What of a port's buffers stands while identifiers are tracked. -/
def trackedBufs (b : CanBufs) : Nat × Option (Fin 3) := (b.errCnt, b.sending)

/-- Tracking an identifier changes the tracked ones, the roster and an interrupt. -/
theorem trackError_stands (s : State) (p : Port) (ide : Bool) (id : BitVec 29) :
    Stands trackedPort trackedBufs p s (s.trackError p ide id) := by
  unfold trackError
  extract_lets now isIt l s0
  have h0 : Stands trackedPort trackedBufs p s s0 := by
    unfold s0
    split
    · exact .of_eq rfl rfl
    · exact .refl s
  clear_value s0
  split
  · extract_lets errs hit s1
    have h1 : Stands trackedPort trackedBufs p s s1 :=
      h0.trans (.modBufs s0 fun _ => rfl)
    split
    · refine .trans (.trans (.trans h1 ?_) (.logEvent ..)) (.setDup ..)
      exact .modPort s1 fun _ => rfl
    · exact h1
  · split
    · exact h0.trans (.modBufs s0 fun _ => rfl)
    · split
      · exact h0
      · extract_lets s1
        have h1 : Stands trackedPort trackedBufs p s s1 := by
          refine h0.trans ?_
          unfold s1
          split
          · exact .setDup ..
          · exact .refl s0
        exact h1.trans (.modBufs s1 fun _ => rfl)

theorem endAborts_stands (s : State) (p : Port) : Stands errorView CanBufs.errCnt p s (s.endAborts p) := by
  refine List.foldlRecOn _ _ (.refl s) fun z hz i _ => ?_
  refine .trans (.trans hz ?_) (.modPort _ fun _ => rfl)
  exact .modBufs z fun _ => rfl

/-- A port that enters BUS-OFF reports it and leaves the bus. -/
theorem enterBusOff_enters (s : State) (p : Port) (tec : Nat) : Stands errorView CanBufs.errCnt p s (s.enterBusOff p tec) ∧
    ((s.enterBusOff p tec).can[p]).bOff = true ∧ ((s.enterBusOff p tec).canBufs[p]).sending = none := by
  unfold enterBusOff
  refine ⟨.trans (.trans (.modPort s (f := fun c => { c with
    bOff := true, recov := true, recovering := c.abor, offSince := s.time.now }) fun _ => rfl) ?_) (.logEvent ..), ?_, ?_⟩
  · exact .modBufs _ fun _ => rfl
  · rw [logEvent_can]
    exact congrArg CanPort.bOff (modPort_port_same ..)
  · rw [logEvent_canBufs]
    exact congrArg CanBufs.sending (modBufs_bufs_same ..)

/-- A port whose TEC passed 255 enters BUS-OFF (R411). -/
def judgeBusOff (s : State) (p : Port) : State :=
  if (s.can[p]).fcs = .busOff then (s.endAborts p).enterBusOff p (s.can[p]).tec else s

theorem judgeBusOff_stands (s : State) (p : Port) : Stands errorView CanBufs.errCnt p s (s.judgeBusOff p) ∧
    ((s.can[p]).fcs = .busOff → ((s.judgeBusOff p).can[p]).bOff = true ∧ ((s.judgeBusOff p).canBufs[p]).sending = none) := by
  unfold judgeBusOff
  split
  · obtain ⟨hstands, hoff⟩ := (s.endAborts p).enterBusOff_enters p (s.can[p]).tec
    exact ⟨(s.endAborts_stands p).trans hstands, fun _ => hoff⟩
  · next hon => exact ⟨.refl s, fun hoff => absurd hoff hon⟩

/-- What an error adds to the counters (R410). -/
def chargeError (e : CanError) (c : CanPort) : CanPort :=
  if e.transmitter then (if e.exempt then c else { c with tec := c.tec + 8 })
  else { c with recv := Nat.min 255 (c.recv + (if e.heavy then 8 else 1)) }

theorem chargeError_transmitter {e : CanError} (htx : e.transmitter = true) (hexempt : e.exempt = false) (c : CanPort) :
    chargeError e c = { c with tec := c.tec + 8 } := by
  simp [chargeError, htx, hexempt]

theorem chargeError_receiver {e : CanError} (htx : e.transmitter = false) (c : CanPort) :
    chargeError e c = { c with recv := Nat.min 255 (c.recv + (if e.heavy then 8 else 1)) } := by
  simp [chargeError, htx]

/-- Kind and phase of an error are recorded. -/
def noteError (e : CanError) (c : CanPort) : CanPort := { c with lec := lecCode e.kind, lecData := e.dataPhase }

section
variable (s : State) (p : Port) (e : CanError)

/-- The error is recorded, counted and charged to the counters. -/
def countError : State :=
  ((s.modPort p (noteError e)).modBufs p fun b => { b with errCnt := inc32 b.errCnt }).modPort p fun c =>
    if counts c then confine (chargeError e c) else c

/-- An error after the arbitration field is tracked. -/
def trackPost : State :=
  match e.postArb with
  | some x => s.trackError p x.1 x.2
  | none => s

/-- A port that detects an error. -/
def detectError : State := ((s.countError p e).judgeBusOff p).trackPost p e

theorem trackPost_stands : Stands trackedPort trackedBufs p s (s.trackPost p e) := by
  unfold trackPost
  split
  · exact trackError_stands ..
  · exact .refl s

theorem countError_errCnt : ((s.countError p e).canBufs[p]).errCnt = inc32 (s.canBufs[p]).errCnt :=
  congrArg CanBufs.errCnt (modBufs_bufs_same ..)

theorem countError_port : (s.countError p e).can[p] =
    if counts s.can[p] then confine (chargeError e (noteError e s.can[p])) else noteError e s.can[p] := by
  have hnoted : ((s.modPort p (noteError e)).modBufs p fun b => { b with errCnt := inc32 b.errCnt }).can[p] =
      noteError e s.can[p] := modPort_port_same ..
  rw [countError, modPort_port_same, hnoted]
  rfl

/-- What follows the count of an error changes neither the counters nor FCS, and BUS-OFF ends a frame being sent. -/
theorem detectError_stands : Stands errorView CanBufs.errCnt p (s.countError p e) (s.detectError p e) ∧
    (((s.countError p e).can[p]).fcs = .busOff →
      ((s.detectError p e).can[p]).bOff = true ∧ ((s.detectError p e).canBufs[p]).sending = none) := by
  obtain ⟨hjudged, hoff⟩ := (s.countError p e).judgeBusOff_stands p
  obtain ⟨hport, hbufs⟩ := ((s.countError p e).judgeBusOff p).trackPost_stands p e
  simp only [trackedPort, trackedBufs, Prod.mk.injEq] at hport hbufs
  obtain ⟨hview, hflag⟩ := hport
  obtain ⟨hcnt, hsending⟩ := hbufs
  refine ⟨hjudged.trans ⟨hview, hcnt⟩, fun h => ?_⟩
  obtain ⟨hset, hidle⟩ := hoff h
  exact ⟨hflag.trans hset, hsending.trans hidle⟩

variable {s p e}

/-- The error's kind and phase are recorded, whatever it adds to the counters. -/
theorem countError_kind : ((s.countError p e).can[p]).lec = lecCode e.kind ∧
    ((s.countError p e).can[p]).lecData = e.dataPhase := by
  have hcharge : ∀ c, (chargeError e c).lec = c.lec ∧ (chargeError e c).lecData = c.lecData := fun c => by
    unfold chargeError
    split
    · split <;> exact ⟨rfl, rfl⟩
    · exact ⟨rfl, rfl⟩
  rw [countError_port]
  split
  · rw [confine_frame]
    exact hcharge _
  · exact ⟨rfl, rfl⟩

theorem exec_canErrorDetected_off (h : s.portUp p = false ∨ onBus s.can[p] = false) :
    exec (.canErrorDetected p e) s = .next s := by
  have hoff : (s.portUp p && onBus s.can[p]) = false := Bool.and_eq_false_iff.mpr h
  show execCanErrorDetected p e s = _
  simp only [execCanErrorDetected, hoff]
  rfl

theorem exec_canErrorDetected_on (hup : s.portUp p = true) (hbus : onBus s.can[p] = true) :
    exec (.canErrorDetected p e) s = .next (s.detectError p e) := by
  show execCanErrorDetected p e s = _
  simp only [execCanErrorDetected, hup, hbus]
  rfl

end

/-! ## DUPLICATE_MARK_EXPIRY (R414) -/

/-- A tracked identifier is the one of this format and value. -/
def isTracked (ide : Bool) (id : BitVec 29) (x : Tracked) : Bool := x.ide == ide && x.id == id

/-- A tracked identifier without its mark, where it is the one meant. -/
def unmarked (ide : Bool) (id : BitVec 29) (x : Tracked) : Tracked :=
  if isTracked ide id x then { x with marked := false, errors := [] } else x

/-- The mark of an identifier is taken off. -/
def unmark (s : State) (p : Port) (ide : Bool) (id : BitVec 29) : State :=
  (s.modBufs p fun b => { b with tracked := b.tracked.map (unmarked ide id) }).setDup p id false

theorem exec_duplicateMarkExpiry_eq (s : State) (p : Port) (ide : Bool) (id : BitVec 29) :
    exec (.duplicateMarkExpiry p ide id) s = .next (
      if (s.canBufs[p]).tracked.any fun x => isTracked ide id x && x.marked then s.unmark p ide id else s) := rfl

theorem unmark_unmarks {ide : Bool} {id : BitVec 29} {x : Tracked} (hx : x ∈ ((s.unmark p ide id).canBufs[p]).tracked)
    (hid : isTracked ide id x = true) : x.marked = false := by
  have hbufs : (s.unmark p ide id).canBufs[p] = { s.canBufs[p] with tracked := (s.canBufs[p]).tracked.map (unmarked ide id) } :=
    modBufs_bufs_same ..
  rw [hbufs] at hx
  obtain ⟨y, -, rfl⟩ := List.mem_map.mp hx
  by_cases hy : isTracked ide id y = true
  · rw [unmarked, if_pos hy]
  · rw [unmarked, if_neg hy] at hid
    exact absurd hid hy

/-! ## ROSTER_SILENCE_CHECK (R417) -/

/-- An entry whose node was not heard for its port's time is marked silent. -/
def markSilent (s : State) (e : Nat × RosterEntry) : Nat × RosterEntry :=
  if e.2.seen + s.pNounN e.2.port 0x24 * 1000 < s.time64 then (e.1, { e.2 with silent := true }) else e

theorem exec_rosterSilenceCheck_marks (h : s.awake = true) :
    exec .rosterSilenceCheck s = .next (s.modRoster fun l => l.map s.markSilent) := by
  show execRosterSilenceCheck s = _
  rw [execRosterSilenceCheck, if_pos h]
  rfl

/-- The mark is all that differs. -/
theorem markSilent_unsilenced (s : State) (e : Nat × RosterEntry) :
    ((s.markSilent e).1, { (s.markSilent e).2 with silent := false }) = (e.1, { e.2 with silent := false }) := by
  unfold markSilent
  split <;> rfl

end State

open State

/-- Settles O56: each event by the lemma of what it does at its port, and the frames of what else it leaves. -/
theorem canFramesAreQueuedSentAndCounted : Obligations.CanFramesAreQueuedSentAndCounted := by
  intro p s c b
  refine ⟨fun f stamp => ⟨exec_canFrameReceived_off, exec_canFrameReceived_unread, fun hup hbus hread => ?_⟩,
    fun k => ⟨exec_canSegmentTimeout_idle, fun h => ?_⟩,
    fun hup hbus hcounts hidle => ⟨exec_canTransmitChoice_none hup hbus hcounts hidle, fun i hi => ?_⟩,
    fun i o hsending hactive hmask hmode => ?_,
    fun e => ⟨exec_canErrorDetected_off, fun hup hbus => ?_⟩, fun ide id => ?_, fun hawake => ⟨?_, ?_⟩⟩
  · obtain ⟨hcan, hbufs⟩ := s.received_ports p f stamp
    obtain ⟨-, hcnt, hothers⟩ := s.accepted_receives p f stamp
    refine ⟨_, exec_canFrameReceived_reads hup hbus hread, ?_⟩
    rw [hcan, hbufs]
    refine ⟨hcnt, fun k hk => accepted_session hk, fun hsession hfilter hdefault => ?_, hothers, fun i e hfind hcounts hmode he =>
      received_entry hfind hcounts hmode he⟩
    exact accepted_default hsession hfilter hdefault
  · obtain ⟨v, n, hnone, hreply, hframe⟩ := s.dropPartial_answers p k
    exact ⟨_, v, n, exec_canSegmentTimeout_drops h, hnone, hreply, hframe⟩
  · obtain ⟨hsending, hstate⟩ := s.beginTx_sends p i
    obtain ⟨n, hkey, hwins⟩ := chooseTx_wins hi
    refine ⟨_, exec_canTransmitChoice_begins hup hbus hcounts hidle hi, hsending, hstate, rfl, by rw [hkey]; rfl, fun j hj => ?_⟩
    obtain ⟨m, hm⟩ := Option.isSome_iff_exists.mp hj
    rw [hkey, hm]
    exact hwins j m hm
  · have hhost : s.firmwareTx p i = false := by
      change ((s.canBufs[p]).tx[i]).state = _ at hactive
      rw [firmwareTx, hactive]
      exact Bool.and_false _
    obtain ⟨hidle, hstate, hnext, hnouns⟩ := s.endAttempt_ends p i o
    obtain ⟨hsame, hcnt⟩ := (s.endAttempt p i o).ownTxb2_bufs p
    have htx : (((s.endAttempt p i o).ownTxb2 p).canBufs[p]).tx[i] = ((s.endAttempt p i o).canBufs[p]).tx[i] :=
      ownTxb2_tx (by simpa only [pNoun, noun, hnouns] using hmask) hstate
    refine ⟨(s.endAttempt p i o).ownTxb2 p, ?_, hsame.trans hidle, fun st d ho => ?_, fun ho => ?_⟩
    · rw [exec_canTransmitEnd_host hsending hhost]
      exact congrArg _ (takeNextMode_none (hnext.trans hmode))
    · subst ho
      obtain ⟨-, hcount, hsent, hstamp⟩ := s.endSent_bufs p i st d
      obtain ⟨htec, -, hirq⟩ := s.endSent_port p i st d
      rw [htx, hcnt]
      exact ⟨hsent, hstamp, hcount, htec, hirq⟩
    · rw [htx]
      rcases ho with rfl | rfl
      · exact (s.endUnsent_ends p i).1
      · exact (s.endUnsent_ends p i).1
  · obtain ⟨⟨hview, hcnt⟩, hoff⟩ := s.detectError_stands p e
    simp only [errorView, Prod.mk.injEq] at hview
    obtain ⟨hlec, hphase, htec, hrecv, hfcs⟩ := hview
    have hport := s.countError_port p e
    refine ⟨_, exec_canErrorDetected_on hup hbus, hlec.trans countError_kind.1, hphase.trans countError_kind.2,
      hcnt.trans (s.countError_errCnt p e), fun hcounts => ?_, fun hcounts hsends hcharged => ?_, fun hcounts hsends => ?_⟩
    · rw [htec, hrecv, hport, if_neg (Bool.eq_false_iff.mp hcounts)]
      exact ⟨rfl, rfl⟩
    · rw [if_pos hcounts, chargeError_transmitter hsends hcharged] at hport
      refine ⟨?_, ?_, fun hover hinit => ?_⟩
      · rw [htec, hport, confine_frame]
        rfl
      · rw [hrecv, hport, confine_frame]
        rfl
      · have hbusOff : ((s.countError p e).can[p]).fcs = .busOff := by
          rw [hport]
          exact confine_busOff hover hinit
        exact ⟨hfcs.trans hbusOff, hoff hbusOff⟩
    · rw [if_pos hcounts, chargeError_receiver hsends] at hport
      rw [htec, hrecv, hport, confine_frame]
      exact ⟨rfl, rfl⟩
  · rw [exec_duplicateMarkExpiry_eq]
    split
    · refine ⟨_, rfl, fun x hx hide hid => unmark_unmarks hx ?_, rfl⟩
      simp [isTracked, hide, hid]
    · next hnone =>
      refine ⟨_, rfl, fun x hx hide hid => ?_, rfl⟩
      have hall := List.any_eq_false.mp (Bool.eq_false_iff.mpr hnone) x hx
      simpa [isTracked, hide, hid] using hall
  · refine ⟨_, exec_rosterSilenceCheck_marks hawake, rfl, ?_, fun i e he hquiet => ?_⟩
    · show List.map _ (List.map _ _) = _
      rw [List.map_map]
      exact List.map_congr_left fun e _ => s.markSilent_unsilenced e
    · exact List.mem_map.mpr ⟨_, he, if_pos hquiet⟩
  · show execTimestampWrap s = _
    rw [execTimestampWrap, if_pos hawake]

end Sys2Proof.Machine
end

section
/-! Proofs: the queue of commands runs from its front, no word spells a command, and the commands of the control die leave the keeper
die, the lifetime figures, the records of the starts and the time alone. -/

namespace Sys2Proof.Machine

open State

/-- Settles O1: both clauses are the two cases of the queue. -/
theorem frontCommandRunsOnTheRest : Obligations.FrontCommandRunsOnTheRest := by
  refine ⟨fun _ _ _ => rfl, fun s hempty => ?_⟩
  rw [step, hempty]

/-- A table without words spells no command. -/
theorem decodeTableWord_none (n w : Nat) : decodeTableWord n w = none := rfl

/-- Settles O2: what a word does not spell is not placed. -/
theorem noWordSpellsACommand : Obligations.NoWordSpellsACommand := by
  refine fun n w s => ⟨decodeTableWord_none n w, ?_⟩
  rw [withFetchWord, decodeTableWord_none]

/-- A command that goes on and leaves what stands answers a next state in which it stands. -/
theorem OutCalm.answers {k0 : Still} {o : Out} (h : OutCalm k0 o) : ∃ t, o = .next t ∧ t.Calm k0 := by
  cases o with
  | next t => exact ⟨t, rfl, h⟩
  | fault _ => exact h.elim
  | refused _ => exact h.elim

/-- The dispatch leaves alone what each command's meaning leaves alone; the other commands are those that may act on the keeper. -/
theorem exec_calm {k0 : Still} {s : State} (h : s.Calm k0) {c : Instr} (hc : actsOnKeeper c = false) : OutCalm k0 (exec c s) := by
  cases c with
  | filterResultReady => exact execFilterResultReady_calm h ..
  | segmentComplete => exact execSegmentComplete_calm h ..
  | checkSetDone => exact execCheckSetDone_calm h ..
  | clusterCheckSetStart => exact execClusterCheckSetStart_calm h
  | computeDeadline => exact execComputeDeadline_calm h ..
  | glanceWindowOpen => exact execGlanceWindowOpen_calm h ..
  | glanceWindowClose => exact execGlanceWindowClose_calm h ..
  | comparatorEdge => exact execComparatorEdge_calm h ..
  | sixStepCommutation => exact execSixStepCommutation_calm h ..
  | gateDriverFaultInput => exact execGateDriverFaultInput_calm h ..
  | scFilterResult => exact execScFilterResult_calm h ..
  | bitstreamStuck => exact execBitstreamStuck_calm h ..
  | chopperPeriodStart => exact execChopperPeriodStart_calm h ..
  | chopperFeedbackMismatch => exact execChopperFeedbackMismatch_calm h ..
  | sarConversion => exact execSarConversion_calm h ..
  | auxOvercurrent => exact execAuxOvercurrent_calm h ..
  | hysteresisCrossing => exact execHysteresisCrossing_calm h ..
  | encoderEdge => exact execEncoderEdge_calm h ..
  | speedTimeout => exact execSpeedTimeout_calm h ..
  | serialFrameEnd => exact execSerialFrameEnd_calm h ..
  | resolverExcitationPeriod => exact execResolverExcitationPeriod_calm h ..
  | resolverRevalidate => exact execResolverRevalidate_calm h ..
  | switchSample => exact execSwitchSample_calm h ..
  | chatterCleared => exact execChatterCleared_calm h ..
  | checkTimeExpiry => exact execCheckTimeExpiry_calm h ..
  | alignmentTimeExpiry => exact execAlignmentTimeExpiry_calm h ..
  | parisonTimeout => exact execParisonTimeout_calm h ..
  | catchTimeout => exact execCatchTimeout_calm h ..
  | coastTimeout => exact execCoastTimeout_calm h ..
  | resyncTimeout => exact execResyncTimeout_calm h ..
  | lossBrakeTimeout => exact execLossBrakeTimeout_calm h ..
  | handoverDeferralExpiry => exact execHandoverDeferralExpiry_calm h ..
  | sensorHealthyHold => exact execSensorHealthyHold_calm h ..
  | speedLimit => exact execSpeedLimit_calm h ..
  | modeDeferralExpiry => exact execModeDeferralExpiry_calm h ..
  | followingError => exact execFollowingError_calm h ..
  | excitationSearchWindow => exact execExcitationSearchWindow_calm h ..
  | releaseDwellExpiry => exact execReleaseDwellExpiry_calm h ..
  | recoveryTimeExpiry => exact execRecoveryTimeExpiry_calm h ..
  | hostTensionExpiry => exact execHostTensionExpiry_calm h ..
  | trackTimeout => exact execTrackTimeout_calm h ..
  | holdDelayExpiry => exact execHoldDelayExpiry_calm h ..
  | stallDetected => exact execStallDetected_calm h ..
  | openCoil => exact execOpenCoil_calm h ..
  | settleTimeExpiry => exact execSettleTimeExpiry_calm h ..
  | safetyStatusWrite => exact execSafetyStatusWrite_calm h
  | coreMismatch => exact execCoreMismatch_calm h ..
  | blockRefresh => exact execBlockRefresh_calm h ..
  | hostWriteFrame => exact execHostWriteFrame_calm h ..
  | readLRegister => exact execReadLRegister_calm h ..
  | registerPairWrite => exact execRegisterPairWrite_calm h ..
  | mbxDoorbell => exact execMbxDoorbell_calm h ..
  | mbxRelease => exact execMbxRelease_calm h ..
  | mbxCplack => exact execMbxCplack_calm h ..
  | slotTaken => exact execSlotTaken_calm h
  | sentenceTaken => exact execSentenceTaken_calm h
  | sentenceTakeUp => exact execSentenceTakeUp_calm h ..
  | read => exact execRead_calm h ..
  | set => exact execSet_calm h ..
  | write => exact execWrite_calm h ..
  | swap => exact execSwap_calm h ..
  | swapValidationDone => exact execSwapValidationDone_calm h ..
  | enable => exact execEnable_calm h ..
  | disable => exact execDisable_calm h ..
  | move => exact execMove_calm h ..
  | halt => exact execHalt_calm h ..
  | follow => exact execFollow_calm h ..
  | home => exact execHome_calm h ..
  | abort => exact execAbort_calm h ..
  | capture => exact execCapture_calm h ..
  | commit => exact execCommit_calm h ..
  | commitWriteDone => exact execCommitWriteDone_calm h ..
  | clear => exact execClear_calm h ..
  | sleep => exact execSleep_calm h ..
  | restart => exact execRestart_calm h ..
  | gffAck => exact execGffAck_calm h ..
  | gffClear => exact execGffClear_calm h
  | gffMark => exact execGffMark_calm h ..
  | gffRecordWrite => exact execGffRecordWrite_calm h
  | tstKey => exact execTstKey_calm h ..
  | tstLockClose => exact execTstLockClose_calm h
  | tstSincArm => exact execTstSincArm_calm h ..
  | tstEngArm => exact execTstEngArm_calm h ..
  | fbPreset => exact execFbPreset_calm h ..
  | rearm => exact execRearm_calm h ..
  | compareWrite => exact execCompareWrite_calm h ..
  | busModeWrite => exact execBusModeWrite_calm h ..
  | recover => exact execRecover_calm h ..
  | busTxRequest => exact execBusTxRequest_calm h ..
  | busTxAbort => exact execBusTxAbort_calm h ..
  | busRxack => exact execBusRxack_calm h ..
  | busRsel => exact execBusRsel_calm h ..
  | canFrameReceived => exact execCanFrameReceived_calm h ..
  | canSegmentTimeout => exact execCanSegmentTimeout_calm h ..
  | canTransmitChoice => exact execCanTransmitChoice_calm h ..
  | canTransmitEnd => exact execCanTransmitEnd_calm h ..
  | canErrorDetected => exact execCanErrorDetected_calm h ..
  | protocolException => exact execProtocolException_calm h ..
  | busRecovered => exact execBusRecovered_calm h ..
  | canBusIntegration => exact execCanBusIntegration_calm h ..
  | duplicateMarkExpiry => exact execDuplicateMarkExpiry_calm h ..
  | rosterSilenceCheck => exact execRosterSilenceCheck_calm h
  | timestampWrap => exact execTimestampWrap_calm h
  | ringFormationDone => exact execRingFormationDone_calm h ..
  | syncMissed => exact execSyncMissed_calm h
  | ringBreak => exact execRingBreak_calm h ..
  | linkDirectionUp => exact execLinkDirectionUp_calm h ..
  | statusPacketSend => exact execStatusPacketSend_calm h
  | spanStartTick => exact execSpanStartTick_calm h ..
  | vlow => exact execVlow_calm h ..
  | crystalQualified => exact execCrystalQualified_calm h
  | crystalLost => exact execCrystalLost_calm h
  | holdoverExpiry => exact execHoldoverExpiry_calm h
  | bitstreamUnstuck => exact execBitstreamUnstuck_calm h ..
  | resolverTrackingError => exact execResolverTrackingError_calm h ..
  | protocolExceptionEnd => exact execProtocolExceptionEnd_calm h ..
  | slewToInternalDone => exact execSlewToInternalDone_calm h
  | regionCrcCheckDone => exact execRegionCrcCheckDone_calm h
  | computeLostBrakeWindowExpiry => exact execComputeLostBrakeWindowExpiry_calm h
  | emergencySs1TimeElapsed => exact execEmergencySs1TimeElapsed_calm h ..
  | emergencyBrakeWaitExpiry => exact execEmergencyBrakeWaitExpiry_calm h ..
  | preloadRampEnd => exact execPreloadRampEnd_calm h ..
  | hostReadFrame => exact execHostReadFrame_calm h ..
  | hysteresisHoldExpiry => exact execHysteresisHoldExpiry_calm h ..
  | _ => exact (Bool.false_ne_true hc.symm).elim

/-- Settles O7: the dispatch is calm outside the list. -/
theorem ordinaryCommandsLeaveTheKeeperAlone : Obligations.OrdinaryCommandsLeaveTheKeeperAlone := by
  intro c s hc
  obtain ⟨t, hexec, hsafety, hretention, hstart, hlife, htime⟩ := (exec_calm (Calm.here s) hc).answers
  exact ⟨t, hexec, hsafety, hretention, hstart, hlife, htime⟩

end Sys2Proof.Machine
end

section
/-! Proofs: the gather FIFO is acknowledged, emptied and marked, and its records are written whole or dropped (R490, R492, R493,
R495, R496). -/

namespace Sys2Proof.Machine

/-! ## Room (R493, R502) -/

theorem gffRoom_iff (s : State) (f : GffSt) (n : Nat) :
    gffRoom f s.gffHeld n = true ↔ s.test.gff.getLsbD 0 = false ∧ f.words.length + n ≤ 8192 := by
  simp [gffRoom, State.gffHeld, bitAt, BitVec.getLsbD]

namespace State

/-! ## The next pending record (R492) -/

/-- Taking a pending record leaves the sequence number and the counts of what was lost. -/
theorem gffNext_counts {f f1 : GffSt} {r : Nat × Nat × GffBody} (h : gffNext f = some (r, f1)) :
    f1.seq = f.seq ∧ f1.drop = f.drop ∧ f1.loss = f.loss := by
  unfold gffNext at h
  split at h
  · cases h; exact ⟨rfl, rfl, rfl⟩
  · split at h
    · cases h; exact ⟨rfl, rfl, rfl⟩
    · split at h
      · cases h; exact ⟨rfl, rfl, rfl⟩
      · split at h
        · cases h; exact ⟨rfl, rfl, rfl⟩
        · cases h

/-- The order of the pending records does not look at the words, the sequence number, the interrupts or the loss. -/
theorem gffNext_restamp (f : GffSt) (ws : List Word) (seq : Byte) (irq : BitVec 3) (loss : Nat) :
    gffNext { f with words := ws, seq := seq, irq := irq, loss := loss } =
      (gffNext f).map fun p => (p.1, { p.2 with words := ws, seq := seq, irq := irq, loss := loss }) := by
  unfold gffNext
  dsimp only
  split
  · rfl
  · split
    · rfl
    · split
      · rfl
      · split <;> rfl

/-- An emptied FIFO has nothing pending. -/
theorem gffNext_gffEmpty (f : GffSt) : gffNext (gffEmpty f) = none := by
  have hcompare : ((fins 16).find? fun n => ((gffEmpty f).pendCompare[n]).isSome) = none := by simp [gffEmpty]
  have hswitch : ((fins 24).find? fun n => ((gffEmpty f).pendSwitch[n]).isSome) = none := by simp [gffEmpty]
  unfold gffNext
  rw [hcompare, hswitch]
  rfl

/-! ## GFF_RECORD_WRITE (R492, R493) -/

/-- A LOSS record is written, which ends the loss. -/
def gffEndLoss (f : GffSt) : GffSt :=
  { gffPush f (gffWords 5 0 f.seq [f.loss]) with loss := 0, irq := (gffPush f (gffWords 5 0 f.seq [f.loss])).irq ||| 4 }

/-- The turn of the FIFO writer: a LOSS record there is room for, else the next pending record. -/
def gffTurn (f : GffSt) (held : Bool) : GffSt :=
  if f.loss ≠ 0 ∧ gffRoom f held 2 = true then gffEndLoss f
  else match gffNext f with
    | some (r, f1) => gffWrite f1 held r.1 r.2.1 r.2.2
    | none => f

theorem exec_gffRecordWrite (s : State) : exec .gffRecordWrite s = .next (s.modGff fun f => gffTurn f s.gffHeld) := rfl

section
variable {f f1 : GffSt} {held : Bool} {kind source : Nat} {body : GffBody}

theorem gffTurn_loss (hloss : f.loss ≠ 0) (hroom : gffRoom f held 2 = true) : gffTurn f held = gffEndLoss f :=
  if_pos ⟨hloss, hroom⟩

/-- Without a LOSS record that there is room for, the next pending record has the turn. -/
theorem not_loss_turn (h : f.loss = 0 ∨ gffRoom f held 2 = false) : ¬(f.loss ≠ 0 ∧ gffRoom f held 2 = true) := by
  rintro ⟨hloss, hroom⟩
  rcases h with h | h
  · exact hloss h
  · exact Bool.false_ne_true (h.symm.trans hroom)

theorem gffTurn_none (h : f.loss = 0 ∨ gffRoom f held 2 = false) (hnext : gffNext f = none) : gffTurn f held = f := by
  rw [gffTurn, if_neg (not_loss_turn h), hnext]

theorem gffTurn_next (h : f.loss = 0 ∨ gffRoom f held 2 = false) (hnext : gffNext f = some ((kind, source, body), f1)) :
    gffTurn f held = gffWrite f1 held kind source body := by
  rw [gffTurn, if_neg (not_loss_turn h), hnext]

/-- A record that there is room for is pushed whole. -/
theorem gffWrite_room (hwords : f1.words = f.words) (hroom : gffRoom f held (body.length + 1) = true) :
    gffWrite f1 held kind source body = gffPush f1 (gffWords kind source f1.seq body) := by
  rw [gffRoom, ← hwords] at hroom
  exact if_pos hroom

/-- A record that there is no room for is dropped whole. -/
theorem gffWrite_full (hwords : f1.words = f.words) (hroom : gffRoom f held (body.length + 1) = false) :
    gffWrite f1 held kind source body = gffDrop f1 := by
  rw [gffRoom, ← hwords] at hroom
  exact if_neg (Bool.eq_false_iff.mp hroom)

/-- What is pending stays pending in its order when a LOSS record is written. -/
theorem gffNext_gffEndLoss (f : GffSt) : gffNext (gffEndLoss f) = (gffNext f).map fun p => (p.1, { p.2 with
    words := (gffEndLoss f).words, seq := (gffEndLoss f).seq, irq := (gffEndLoss f).irq, loss := 0 }) :=
  gffNext_restamp f _ _ _ 0

theorem gffEndLoss_irq (f : GffSt) : (gffEndLoss f).irq.getLsbD 2 = true := by
  simp [gffEndLoss]

end

/-! ## GFF_ACK, CLEAR and GFF_MARK -/

section
variable {s : State} (hup : s.hostUp = true)
include hup

theorem exec_gffAck_up (a : BitVec 14) :
    exec (.gffAck a) s = .next { s.otherFrame with gff := { s.gff with words := s.gff.words.drop a.toNat } } :=
  congrArg _ (if_pos hup)

theorem exec_gffClear_up : exec .gffClear s = .next (s.otherFrame.modGff gffEmpty) := congrArg _ (if_pos hup)

theorem exec_gffMark_up (payload : BitVec 28) (cd6 : Nat) :
    exec (.gffMark payload cd6) s = .next (s.otherFrame.gffMarker payload.toNat cd6) := congrArg _ (if_pos hup)

end

/-- With the link down no write reaches the FIFO. -/
theorem exec_gff_down {s : State} (hdown : s.hostUp = false) (a : BitVec 14) (payload : BitVec 28) (cd6 : Nat) :
    exec (.gffAck a) s = .next s ∧ exec .gffClear s = .next s ∧ exec (.gffMark payload cd6) s = .next s := by
  have hskip : ¬s.hostUp = true := Bool.eq_false_iff.mp hdown
  exact ⟨congrArg _ (if_neg hskip), congrArg _ (if_neg hskip), congrArg _ (if_neg hskip)⟩

section
variable {s : State} {payload cd6 : Nat}

theorem gffMarker_off (h : s.gff.en = false) : s.gffMarker payload cd6 = s := by
  simp [gffMarker, h]

theorem gffMarker_waiting (h : s.gff.en = true) (hmarker : s.gff.pendMarker ≠ none) :
    s.gffMarker payload cd6 = s.modGff gffDrop := by
  obtain ⟨b, hb⟩ := Option.ne_none_iff_exists'.mp hmarker
  simp only [gffMarker, h, hb, if_true]

/-- A marker carries the time and its payload (R490). -/
theorem gffMarker_pends (h : s.gff.en = true) (hmarker : s.gff.pendMarker = none) (hpayload : payload < 268435456) :
    s.gffMarker payload cd6 = { s with gff := { s.gff with
      pendMarker := some [s.time.tick % 2 ^ 28, field 16 12 (s.time.tick / 2 ^ 28) + field 0 11 cd6, payload] } } := by
  have hbody : gffTime s.time.tick cd6 false ++ [payload % 268435456] =
      [s.time.tick % 2 ^ 28, field 16 12 (s.time.tick / 2 ^ 28) + field 0 11 cd6, payload] := by
    simp [gffTime, b2n, field, Nat.mod_eq_of_lt hpayload]
  unfold gffMarker
  rw [if_pos h, hmarker]
  dsimp only
  rw [hbody]
  rfl

end

end State

open State

/-- Settles O53: the link's writes as their commands take them, and the writer's turn by what is pending and by its room. -/
theorem gatherRecordsAreWrittenWholeOrDropped : Obligations.GatherRecordsAreWrittenWholeOrDropped := by
  intro a payload cd6 s f o
  refine ⟨fun hdown => exec_gff_down hdown a payload cd6,
    fun hup => ⟨exec_gffAck_up hup a, ?clear, fun hoff => ?off, fun hon hnone => ?pends, fun hon hwaits => ?drops⟩,
    ⟨_, exec_gffRecordWrite s, rfl, fun hloss hroom => ?loss, fun hno => ⟨fun hnone => ?none, fun kind source body f1 hnext =>
      ⟨fun hroom => ?written, fun hfull => ?dropped⟩⟩⟩, gffRoom_iff s f⟩
  case clear => exact ⟨_, exec_gffClear_up hup, rfl, rfl, rfl, gffNext_gffEmpty f, rfl, rfl, rfl, rfl⟩
  case off => rw [exec_gffMark_up hup, gffMarker_off (s := o) hoff]
  case pends => rw [exec_gffMark_up hup, gffMarker_pends (s := o) hon hnone payload.isLt]; rfl
  case drops => rw [exec_gffMark_up hup, gffMarker_waiting (s := o) hon hwaits]; rfl
  case loss =>
    rw [modGff_gff, gffTurn_loss hloss hroom]
    exact ⟨rfl, rfl, gffEndLoss_irq f, gffNext_gffEndLoss f⟩
  case none =>
    show s.modGff (fun f => gffTurn f s.gffHeld) = s
    rw [modGff, gffTurn_none hno hnone]
  case written =>
    obtain ⟨hseq, hdrop, -⟩ := gffNext_counts hnext
    have hwords := gffNext_words hnext
    rw [modGff_gff, gffTurn_next hno hnext, gffWrite_room hwords hroom, hseq]
    exact ⟨congrArg (· ++ gffWords kind source f.seq body) hwords, congrArg (· + 1) hseq, rfl, hdrop⟩
  case dropped =>
    obtain ⟨hseq, hdrop, hloss⟩ := gffNext_counts hnext
    have hwords := gffNext_words hnext
    rw [modGff_gff, gffTurn_next hno hnext, gffWrite_full hwords hfull]
    exact ⟨hwords, hseq, congrArg inc32 hdrop, rfl, congrArg (satInc 0x0FFFFFFF) hloss⟩

end Sys2Proof.Machine
end

section
/-! Proofs: the queues of a CAN port are acknowledged, and its mode, requests, aborts and recovery act at the write (R396, R397,
R399, R403, R405, R409, R411). -/

namespace Sys2Proof.Machine

/-! ## FCS and MODE (R397, R410) -/

/-- A port that goes to INIT has its counters cleared and its recovery abandoned. -/
theorem applyMode_init (c : CanPort) : (applyMode c 0).mode = 0 ∧ (applyMode c 0).tec = 0 ∧ (applyMode c 0).recv = 0 ∧
    (applyMode c 0).recovering = false ∧ (applyMode c 0).fcs = .init := by
  rw [applyMode, if_pos (c := (0 : Fin 5).val = 0) rfl, setFcs_frame]
  exact ⟨rfl, rfl, rfl, rfl, rfl⟩

/-- An interrupt raised leaves those that were raised. -/
theorem portIrq_keeps (c : CanPort) (b : Nat) {k : Nat} (h : c.irq.getLsbD k = true) : (portIrq c b).irq.getLsbD k = true := by
  simp [portIrq, h]

namespace State

variable {s t u : State} {p : Port}

/-! ## A port that is not up -/

/-- Nothing is written to a port that is not up, and nothing happens on it. -/
theorem exec_port_down (hdown : s.portUp p = false) (m r : BitVec 3) (x : BitVec 11) :
    ∀ i ∈ [Instr.busModeWrite p m, .recover p, .busTxRequest p r, .busTxAbort p r, .busRsel p x, .busRecovered p,
      .protocolException p, .protocolExceptionEnd p, .canBusIntegration p], exec i s = .next s := by
  have hskip : ¬s.portUp p = true := Bool.eq_false_iff.mp hdown
  have hexception : exec (.protocolException p) s = .next s := by
    show execProtocolException p s = _
    rw [execProtocolException, hdown, Bool.false_and, if_neg Bool.false_ne_true]
  have hrecovered : exec (.busRecovered p) s = .next s := by
    show execBusRecovered p s = _
    simp only [execBusRecovered, hdown, Bool.false_and, Bool.false_eq_true, if_false]
  simp only [List.forall_mem_cons, List.not_mem_nil, false_implies, implies_true, and_true]
  exact ⟨congrArg _ (if_neg hskip), congrArg _ (if_neg hskip), congrArg _ (if_neg hskip), congrArg _ (if_neg hskip),
    congrArg _ (if_neg hskip), hrecovered, hexception, congrArg _ (if_neg hskip), congrArg _ (if_neg hskip)⟩

/-! ## The commands on a port that is up -/

section
variable (hup : s.portUp p = true)
include hup

theorem exec_busRxack_up (n0 n1 : BitVec 7) :
    exec (.busRxack p n0 n1) s = .next (s.otherFrame.ackQueues p n0.toNat n1.toNat) := congrArg _ (if_pos hup)

theorem exec_busModeWrite_up (m : BitVec 3) : exec (.busModeWrite p m) s = .next (s.otherFrame.writeMode p m.toNat) :=
  congrArg _ (if_pos hup)

theorem exec_recover_up : exec (.recover p) s = .next (s.otherFrame.startRecovery p) := congrArg _ (if_pos hup)

theorem exec_busRsel_up (x : BitVec 11) :
    exec (.busRsel p x) s = .next (s.otherFrame.modBufs p fun b => { b with rsel := x }) := congrArg _ (if_pos hup)

theorem exec_busTxRequest_up (r : BitVec 3) : exec (.busTxRequest p r) s = .next (s.otherFrame.writeTxreq p r.toNat 0) :=
  congrArg _ (if_pos hup)

theorem exec_busTxAbort_up (r : BitVec 3) : exec (.busTxAbort p r) s = .next (s.otherFrame.writeTxreq p 0 r.toNat) :=
  congrArg _ (if_pos hup)

theorem exec_protocolExceptionEnd_up :
    exec (.protocolExceptionEnd p) s = .next (s.modPort p fun c => { c with excepted := false }) := congrArg _ (if_pos hup)

theorem exec_canBusIntegration_up : exec (.canBusIntegration p) s =
    .next (s.modPort p fun c => if c.mode.val = 0 then c else { c with synced := true }) := congrArg _ (if_pos hup)

theorem exec_protocolException_on (hbus : onBus s.can[p] = true) : exec (.protocolException p) s = .next (s.protoException p) := by
  show execProtocolException p s = _
  rw [execProtocolException, hup, hbus, Bool.and_self, if_pos rfl]

end

theorem exec_protocolException_off (hbus : onBus s.can[p] = false) : exec (.protocolException p) s = .next s := by
  show execProtocolException p s = _
  rw [execProtocolException, hbus, Bool.and_false, if_neg Bool.false_ne_true]

/-! ## BUS_RXACK (R403) -/

theorem ackQueues_bufs (s : State) (p : Port) (n0 n1 : Nat) : (s.ackQueues p n0 n1).canBufs[p] =
    { s.canBufs[p] with q0 := (s.canBufs[p]).q0.drop n0, q1 := (s.canBufs[p]).q1.drop n1 } := modBufs_bufs_same ..

/-- An entry joins RXQ1 where there is room (R402). -/
theorem appendQueue_q1_room (e : QueueEntry) (h : (s.canBufs[p]).q1.length < 64) :
    ((s.appendQueue p true e).canBufs[p]).q1 = (s.canBufs[p]).q1 ++ [e] := by
  have hroom : s.appendQueue p true e =
      (s.modBufs p fun b => { b with q1 := (s.canBufs[p]).q1 ++ [e] }).modPort p fun c => portIrq c 1 := by
    unfold appendQueue
    exact if_pos h
  rw [hroom, modPort_canBufs, modBufs_bufs_same]

/-! ## BUS_MODE_WRITE (R397, R399) -/

theorem writeMode_reserved {v : Nat} (h : 5 ≤ v) (s : State) : s.writeMode p v = s.modPort p fun c => { c with wRej := true } := by
  have hreserved : fin? 5 v = none := dif_neg (Nat.not_lt.mpr h)
  rw [writeMode, hreserved]

section
variable {k : Fin 5} (hcpu : s.faults.cpu ≠ .lost)
include hcpu

/-- Leaving INIT asks for valid timing. -/
theorem writeMode_badTiming (hinit : (s.can[p]).mode = 0) (hk : k ≠ 0)
    (hbad : nominalOk (s.can[p]).nbt = false ∨ ((s.can[p]).fdEn = true ∧ dataOk (s.can[p]).dbt = false)) :
    s.writeMode p k.val = s.modPort p fun c => { c with timErr := true } := by
  have hmode : fin? 5 k.val = some k := dif_pos k.isLt
  have htiming : (nominalOk (s.can[p]).nbt && (!(s.can[p]).fdEn || dataOk (s.can[p]).dbt)) = false := by
    rcases hbad with h | ⟨hfd, h⟩
    · rw [h, Bool.false_and]
    · rw [hfd, h, Bool.not_true, Bool.false_or, Bool.and_false]
  have hleaves : (s.can[p]).mode.val = 0 ∧ k.val ≠ 0 ∧
      (!(nominalOk (s.can[p]).nbt && (!(s.can[p]).fdEn || dataOk (s.can[p]).dbt))) = true :=
    ⟨congrArg Fin.val hinit, fun h => hk (Fin.ext h), by rw [htiming]; rfl⟩
  simp only [writeMode, hmode]
  rw [if_neg hcpu, if_pos hleaves]

/-- A frame in progress delays the mode that is written. -/
theorem writeMode_waits (hmode : (s.can[p]).mode = 1) (hk : k ≠ 1) (hsending : (s.canBufs[p]).sending.isSome = true) :
    s.writeMode p k.val = s.modPort p fun c => { c with nextMode := some k } := by
  have hwritten : fin? 5 k.val = some k := dif_pos k.isLt
  have hruns : ¬((s.can[p]).mode.val = 0 ∧ k.val ≠ 0 ∧
      (!(nominalOk (s.can[p]).nbt && (!(s.can[p]).fdEn || dataOk (s.can[p]).dbt))) = true) := by
    rintro ⟨hinit, -⟩
    exact absurd (congrArg Fin.val hmode) (by rw [hinit]; decide)
  have hbusy : counts s.can[p] ∧ k ≠ (s.can[p]).mode ∧ (s.canBufs[p]).sending.isSome :=
    ⟨by rw [counts, hmode]; rfl, by rwa [hmode], hsending⟩
  simp only [writeMode, hwritten]
  rw [if_neg hcpu, if_neg hruns, if_pos hbusy]

theorem writeMode_init (hmode : (s.can[p]).mode ≠ 0) (hidle : (s.canBufs[p]).sending = none) :
    s.writeMode p 0 = s.modPort p fun c => applyMode c 0 := by
  have hwritten : fin? 5 0 = some 0 := rfl
  simp only [writeMode, hwritten]
  rw [if_neg hcpu, if_neg (by simp), if_neg (by rw [hidle]; simp), if_neg (Ne.symm hmode)]

end

/-! ## BUS_RECOVERED (R411) -/

/-- A port that has recovered is ERROR-ACTIVE with its counters cleared. -/
def recoverPort (c : CanPort) : CanPort := setFcs { c with tec := 0, recv := 0, recov := false, recovering := false } .active

theorem recoverPort_clears (c : CanPort) : (recoverPort c).fcs = .active ∧ (recoverPort c).tec = 0 ∧ (recoverPort c).recv = 0 ∧
    (recoverPort c).recovering = false := by
  rw [recoverPort, setFcs_frame]
  exact ⟨rfl, rfl, rfl, rfl⟩

/-- Logging an event changes the mailbox and the log alone. -/
theorem logEvent_frame (s : State) (sev code object : Nat) (d0 : Int) : s.logEvent sev code object d0 =
    { s with mail := (s.logEvent sev code object d0).mail, log := (s.logEvent sev code object d0).log } := by
  unfold logEvent
  split <;> rfl

theorem exec_busRecovered_idle (h : (s.can[p]).fcs ≠ .busOff ∨ (s.can[p]).recovering = false) :
    exec (.busRecovered p) s = .next s := by
  have hskip : ¬(s.portUp p && (s.can[p]).fcs == .busOff && (s.can[p]).recovering) = true := by
    rcases h with h | h <;> simp [-Fin.getElem_fin, h]
  exact congrArg _ (if_neg hskip)

theorem exec_busRecovered_recovers (hup : s.portUp p = true) (hoff : (s.can[p]).fcs = .busOff) (hrec : (s.can[p]).recovering = true) :
    exec (.busRecovered p) s = .next ((s.modPort p recoverPort).logEvent sevInfo 0x0B03 (objPort p)
      ((s.time.now - (s.can[p]).offSince) / ticks1ms)) := by
  have hruns : (s.portUp p && (s.can[p]).fcs == .busOff && (s.can[p]).recovering) = true := by
    rw [hup, hoff, hrec]
    rfl
  exact congrArg _ (if_pos hruns)

/-! ## BUS_TX_REQUEST and BUS_TX_ABORT (R405, R409) -/

/-- One state differs from another at most at port `p`. -/
def PortOnly (p : Port) (s t : State) : Prop :=
  (∀ k, k ≠ p → t.canBufs[k] = s.canBufs[k] ∧ t.can[k] = s.can[k]) ∧ t = { s with can := t.can, canBufs := t.canBufs }

namespace PortOnly

theorem refl (s : State) : PortOnly p s s := ⟨fun _ _ => ⟨rfl, rfl⟩, rfl⟩

theorem trans (hst : PortOnly p s t) (htu : PortOnly p t u) : PortOnly p s u := by
  obtain ⟨hothers, hframe⟩ := hst
  obtain ⟨hothers', hframe'⟩ := htu
  exact ⟨fun k hk => ⟨(hothers' k hk).1.trans (hothers k hk).1, (hothers' k hk).2.trans (hothers k hk).2⟩,
    by rw [hframe', hframe]⟩

theorem modPort (s : State) (f : CanPort → CanPort) : PortOnly p s (s.modPort p f) :=
  ⟨fun _ hk => ⟨rfl, modPort_port_other s hk f⟩, rfl⟩

theorem modBufs (s : State) (f : CanBufs → CanBufs) : PortOnly p s (s.modBufs p f) :=
  ⟨fun _ hk => ⟨modBufs_bufs_other s hk f, rfl⟩, rfl⟩

end PortOnly

/-- One state differs from another at most at port `p`, where every transmit buffer but `i` stands and no interrupt is taken back. -/
def TouchesTx (p : Port) (i : Fin 3) (s t : State) : Prop :=
  PortOnly p s t ∧ (∀ j, j ≠ i → (t.canBufs[p]).tx[j] = (s.canBufs[p]).tx[j]) ∧
    ∀ b, (s.can[p]).irq.getLsbD b = true → (t.can[p]).irq.getLsbD b = true

namespace TouchesTx

variable {i : Fin 3}

theorem refl (s : State) : TouchesTx p i s s := ⟨.refl s, fun _ _ => rfl, fun _ h => h⟩

theorem trans (hst : TouchesTx p i s t) (htu : TouchesTx p i t u) : TouchesTx p i s u := by
  obtain ⟨hport, htx, hirq⟩ := hst
  obtain ⟨hport', htx', hirq'⟩ := htu
  exact ⟨hport.trans hport', fun j hj => (htx' j hj).trans (htx j hj), fun b h => hirq' b (hirq b h)⟩

theorem modTx (s : State) (f : TxBuf → TxBuf) : TouchesTx p i s (s.modTx p i f) :=
  ⟨.modBufs s _, fun _ hj => modTx_tx_other s p hj f, fun _ h => h⟩

theorem modPort (s : State) {f : CanPort → CanPort} (hf : ∀ c b, c.irq.getLsbD b = true → (f c).irq.getLsbD b = true) :
    TouchesTx p i s (s.modPort p f) := by
  refine ⟨.modPort s f, fun _ _ => rfl, fun b h => ?_⟩
  rw [modPort_port_same]
  exact hf _ b h

theorem requestTx (s : State) (p : Port) (i : Fin 3) : TouchesTx p i s (s.requestTx p i) := by
  unfold State.requestTx
  split
  · exact .modPort s fun _ _ h => h
  · exact .modTx s _

theorem abortTx (s : State) (p : Port) (i : Fin 3) : TouchesTx p i s (s.abortTx p i) := by
  unfold State.abortTx
  split
  · exact .trans (.modTx s _) (.modPort _ fun c _ h => portIrq_keeps c _ h)
  · exact .modTx s _
  · exact .refl s

/-- A step that depends on a condition touches no more than the step. -/
theorem ite {c : Prop} [Decidable c] (h : TouchesTx p i s t) : TouchesTx p i s (if c then t else s) := by
  split
  · exact h
  · exact refl s

end TouchesTx

/-- Where each step of a fold touches its own buffer alone, a buffer ends as its own step leaves it, and no interrupt that this step
raised is taken back. -/
theorem eachFin_tx {f : State → Fin 3 → State} (hf : ∀ z i, TouchesTx p i z (f z i)) (s : State) (i : Fin 3) :
    ∃ z, (z.canBufs[p]).tx[i] = (s.canBufs[p]).tx[i] ∧
      ((eachFin 3 f s).canBufs[p]).tx[i] = ((f z i).canBufs[p]).tx[i] ∧
      ∀ b, ((f z i).can[p]).irq.getLsbD b = true → ((eachFin 3 f s).can[p]).irq.getLsbD b = true := by
  obtain ⟨before, after, hsplit⟩ := List.append_of_mem (List.mem_finRange i)
  have hnodup : (before ++ i :: after).Nodup := hsplit ▸ List.nodup_finRange 3
  have hbefore : i ∉ before := fun hi => List.disjoint_of_nodup_append hnodup hi List.mem_cons_self
  have hafter : i ∉ after := (List.nodup_cons.mp hnodup.of_append_right).1
  have hstands : ∀ (l : List (Fin 3)) (z : State), i ∉ l → ((l.foldl f z).canBufs[p]).tx[i] = (z.canBufs[p]).tx[i] ∧
      ∀ b, (z.can[p]).irq.getLsbD b = true → ((l.foldl f z).can[p]).irq.getLsbD b = true := fun l z hi =>
    List.foldlRecOn (motive := fun y : State => (y.canBufs[p]).tx[i] = (z.canBufs[p]).tx[i] ∧
      ∀ b, (z.can[p]).irq.getLsbD b = true → (y.can[p]).irq.getLsbD b = true) l f ⟨rfl, fun _ h => h⟩
      fun y ⟨htx, hirq⟩ j hj => ⟨((hf y j).2.1 i (ne_of_mem_of_not_mem hj hi).symm).trans htx,
        fun b h => (hf y j).2.2 b (hirq b h)⟩
  refine ⟨before.foldl f s, (hstands before s hbefore).1, ?_⟩
  rw [eachFin, fins, hsplit, List.foldl_append, List.foldl_cons]
  exact hstands after _ hafter

theorem eachFin_portOnly {f : State → Fin 3 → State} (hf : ∀ z i, TouchesTx p i z (f z i)) (s : State) :
    PortOnly p s (eachFin 3 f s) :=
  eachFin_keeps (P := PortOnly p s) (fun z i hz => hz.trans (hf z i).1) (.refl s)

/-- One step of a request: the buffer's, where the mask names it. -/
def requestMasked (p : Port) (r : BitVec 3) (z : State) (i : Fin 3) : State :=
  if r.getLsbD i.val = true then z.requestTx p i else z

/-- One step of an abort: the buffer's, where the mask names it. -/
def abortMasked (p : Port) (r : BitVec 3) (z : State) (i : Fin 3) : State :=
  if r.getLsbD i.val = true then z.abortTx p i else z

theorem writeTxreq_request (s : State) (p : Port) (r : BitVec 3) :
    s.writeTxreq p r.toNat 0 = eachFin 3 (requestMasked p r) s := by
  simp only [writeTxreq, bitAt, Nat.zero_testBit, Bool.false_eq_true, if_false]
  rfl

theorem writeTxreq_abort (s : State) (p : Port) (r : BitVec 3) : s.writeTxreq p 0 r.toNat = eachFin 3 (abortMasked p r) s := by
  simp only [writeTxreq, bitAt, Nat.zero_testBit, Bool.false_eq_true, if_false]
  rfl

section
variable (s : State) (p : Port) (i : Fin 3)

/-- A buffer that is done, or was never asked for, becomes pending (R405). -/
theorem requestTx_state : (((s.requestTx p i).canBufs[p]).tx[i]).state =
    if ((s.canBufs[p]).tx[i]).state ∈ [.idle, .sent, .aborted, .failed] then .pending else ((s.canBufs[p]).tx[i]).state := by
  unfold requestTx
  split
  · next hfirmware =>
    simp only [firmwareTx, Bool.and_eq_true, beq_iff_eq] at hfirmware
    simp [-Fin.getElem_fin, hfirmware.2]
  · rw [modTx_tx_same]
    cases hstate : ((s.canBufs[p]).tx[i]).state <;> simp [-Fin.getElem_fin, hstate]

variable {s p i}

/-- An abort ends a pending buffer and raises its interrupt (R409). -/
theorem abortTx_pending (h : ((s.canBufs[p]).tx[i]).state = .pending) :
    (((s.abortTx p i).canBufs[p]).tx[i]).state = .aborted ∧ ((s.abortTx p i).can[p]).irq.getLsbD (4 + i.val) = true := by
  have hexec : s.abortTx p i = (s.modTx p i fun x => { x with state := .aborted }).modPort p fun c => portIrq c (4 + i.val) := by
    rw [abortTx, h]
  rw [hexec, modPort_canBufs, modTx_tx_same, modPort_port_same]
  exact ⟨rfl, portIrq_sets _ (by omega)⟩

/-- An abort of an active buffer waits for its attempt to end (R409). -/
theorem abortTx_active (h : ((s.canBufs[p]).tx[i]).state = .active) :
    ((s.abortTx p i).canBufs[p]).tx[i] = { (s.canBufs[p]).tx[i] with aborting := true } := by
  have hexec : s.abortTx p i = s.modTx p i fun x => { x with aborting := true } := by
    rw [abortTx, h]
  rw [hexec, modTx_tx_same]

theorem abortTx_idle (h : ((s.canBufs[p]).tx[i]).state ∉ [TxState.pending, .active]) : s.abortTx p i = s := by
  simp only [List.mem_cons, List.not_mem_nil, or_false, not_or] at h
  obtain ⟨hpending, hactive⟩ := h
  unfold abortTx
  split
  · next hstate => exact absurd hstate hpending
  · next hstate => exact absurd hstate hactive
  · rfl

end

end State

open State

/-- Settles O54: the write drops from each queue, and an entry appended later joins what is left. -/
theorem acknowledgedEntriesLeaveTheirQueues : Obligations.AcknowledgedEntriesLeaveTheirQueues := by
  intro p n0 n1 s hup b
  have hbufs : (s.otherFrame.ackQueues p n0.toNat n1.toNat).canBufs[p] =
      { b with q0 := b.q0.drop n0.toNat, q1 := b.q1.drop n1.toNat } := s.otherFrame.ackQueues_bufs p _ _
  refine ⟨_, exec_busRxack_up hup n0 n1, ?_⟩
  rw [hbufs]
  refine ⟨rfl, rfl, List.drop_eq_nil_of_le, List.drop_eq_nil_of_le, rfl, fun k hk => modBufs_bufs_other _ hk _, rfl,
    fun e hroom0 hroom1 => ⟨?_, ?_⟩⟩
  · obtain ⟨-, hjoins, -⟩ := (s.otherFrame.ackQueues p n0.toNat n1.toNat).appendQueue_rxq0 p e
    rw [hbufs] at hjoins
    exact (hjoins hroom0).1
  · have hjoins := appendQueue_q1_room (s := s.otherFrame.ackQueues p n0.toNat n1.toNat) (p := p) e
    rw [hbufs] at hjoins
    exact hjoins hroom1

/-- Settles O55: each write by its command on a port that is up, and requests and aborts buffer by buffer. -/
theorem canPortControlsActAtTheWrite : Obligations.CanPortControlsActAtTheWrite := by
  intro p m r x s c o set
  refine ⟨fun hdown => exec_port_down hdown m r x, fun hup => ⟨fun hreserved => ?reserved, fun hleaves hmode hinit hcpu hbad => ?timing,
    fun hmode hruns hcpu hidle => ?init, fun k hk hnormal hother hcpu hsending => ?waits, exec_recover_up hup, exec_busRsel_up hup x,
    ?request, ?abort, exec_busRecovered_idle, fun hoff hrec => ?recovered, fun hbus => ?exception,
    exec_protocolException_off, exec_protocolExceptionEnd_up hup, exec_canBusIntegration_up hup⟩⟩
  case reserved => rw [exec_busModeWrite_up hup, writeMode_reserved hreserved]
  case timing =>
    have hk : (⟨m.toNat, hmode⟩ : Fin 5) ≠ 0 := fun h => absurd (congrArg Fin.val h) (Nat.ne_of_gt hleaves)
    rw [exec_busModeWrite_up hup]
    exact congrArg _ (writeMode_badTiming (s := o) hcpu hinit hk hbad)
  case init =>
    subst hmode
    have hport : ((o.modPort p fun c => applyMode c 0).can)[p] = applyMode c 0 := modPort_port_same ..
    obtain ⟨hzero, htec, hrecv, hrecovering, hfcs⟩ := applyMode_init c
    refine ⟨_, (exec_busModeWrite_up hup 0).trans (congrArg _ (writeMode_init (s := o) hcpu hruns hidle)), ?_⟩
    rw [hport]
    exact ⟨hzero, htec, hrecv, hrecovering, hfcs, rfl, fun k hk => modPort_port_other o hk _⟩
  case waits =>
    rw [exec_busModeWrite_up hup, ← hk]
    exact congrArg _ (writeMode_waits (s := o) hcpu hnormal hother hsending)
  case request =>
    have htouches : ∀ z i, TouchesTx p i z (requestMasked p r z i) := fun z i => (TouchesTx.requestTx z p i).ite
    obtain ⟨hothers, hframe⟩ := eachFin_portOnly htouches o
    refine ⟨_, (exec_busTxRequest_up hup r).trans (congrArg _ (o.writeTxreq_request p r)), fun i => ?_, hothers, hframe⟩
    obtain ⟨z, hz, hown, -⟩ := eachFin_tx htouches o i
    rw [hown]
    by_cases hnamed : r.getLsbD i.val = true
    · rw [requestMasked, if_pos hnamed, requestTx_state, hz]
      simp only [hnamed, true_and]
      rfl
    · rw [requestMasked, if_neg hnamed, hz, if_neg fun h => hnamed h.1]
      rfl
  case abort =>
    have htouches : ∀ z i, TouchesTx p i z (abortMasked p r z i) := fun z i => (TouchesTx.abortTx z p i).ite
    obtain ⟨-, hframe⟩ := eachFin_portOnly htouches o
    refine ⟨_, (exec_busTxAbort_up hup r).trans (congrArg _ (o.writeTxreq_abort p r)), fun i hnamed => ?_, fun i hnamed => ?_, hframe⟩
    · obtain ⟨z, hz, hown, hirq⟩ := eachFin_tx htouches o i
      have hstep : abortMasked p r z i = z.abortTx p i := if_pos hnamed
      rw [hstep] at hown hirq
      rw [hown]
      refine ⟨fun hpending => ?_, fun hactive => ?_, fun hidle => ?_⟩
      · obtain ⟨haborted, hraised⟩ := abortTx_pending ((congrArg TxBuf.state hz).trans hpending)
        exact ⟨haborted, hirq _ hraised⟩
      · rw [abortTx_active ((congrArg TxBuf.state hz).trans hactive), hz]
        rfl
      · rw [abortTx_idle (by rw [hz]; exact hidle), hz]
        rfl
    · obtain ⟨z, hz, hown, -⟩ := eachFin_tx htouches o i
      rw [hown, abortMasked, if_neg (Bool.eq_false_iff.mp hnamed), hz]
      rfl
  case recovered =>
    have hport : (s.modPort p recoverPort).can[p] = recoverPort c := modPort_port_same ..
    obtain ⟨hfcs, htec, hrecv, hrecovering⟩ := recoverPort_clears c
    refine ⟨_, exec_busRecovered_recovers hup hoff hrec, ?_⟩
    rw [logEvent_can, hport]
    refine ⟨hfcs, htec, hrecv, hrecovering, ?_⟩
    rw [logEvent_frame]
    rfl
  case exception =>
    have hport : (s.protoException p).can[p] = portIrq { c with pex := true, excepted := true } 8 := modPort_port_same ..
    have hbufs : (s.protoException p).canBufs[p] = { s.canBufs[p] with pexCnt := inc32 (s.canBufs[p]).pexCnt } := modBufs_bufs_same ..
    refine ⟨_, exec_protocolException_on hup hbus, ?_⟩
    rw [hport, hbufs]
    exact ⟨rfl, rfl, rfl, rfl, rfl⟩

end Sys2Proof.Machine
end

section
/-! Proofs: the cascade forms its ring, takes packets once, follows a master, breaks and heals (R430 to R437), and the parts of a
span start (R439). -/

namespace Sys2Proof.Machine

namespace State

/-! ## The order and the members of a ring (R430, R431) -/

theorem lowestId_cons (me i : Fin 8) (l : List (Fin 8)) : lowestId me (i :: l) = lowestId (if i.val < me.val then i else me) l := rfl

theorem lowestId_mem (me : Fin 8) (l : List (Fin 8)) : lowestId me l ∈ me :: l := by
  induction l generalizing me with
  | nil => exact List.mem_singleton_self me
  | cons i r ih =>
    rw [lowestId_cons]
    rcases List.mem_cons.mp (ih (if i.val < me.val then i else me)) with h | h
    · rw [h]
      split <;> simp
    · exact List.mem_cons_of_mem _ (List.mem_cons_of_mem _ h)

theorem lowestId_le (me : Fin 8) (l : List (Fin 8)) : ∀ m ∈ me :: l, lowestId me l ≤ m := by
  induction l generalizing me with
  | nil => simp [lowestId]
  | cons i r ih =>
    have hfirst : lowestId me (i :: r) ≤ if i.val < me.val then i else me := ih _ _ List.mem_cons_self
    have hme : (if i.val < me.val then i else me) ≤ me ∧ (if i.val < me.val then i else me) ≤ i := by
      split <;> constructor <;> omega
    intro m hm
    simp only [List.mem_cons] at hm
    rcases hm with rfl | rfl | hm
    · exact hfirst.trans hme.1
    · exact hfirst.trans hme.2
    · exact ih _ m (List.mem_cons_of_mem _ hm)

/-- The lowest ID of a list with the module in it is in the list. -/
theorem lowestId_mem_of_mem {me : Fin 8} {l : List (Fin 8)} (h : me ∈ l) : lowestId me l ∈ l := by
  rcases List.mem_cons.mp (lowestId_mem me l) with hme | hl
  · rwa [hme]
  · exact hl

theorem one_shiftLeft_getLsbD : ∀ i m : Fin 8, (1#8 <<< i.val).getLsbD m.val = decide (m = i) := by decide

theorem memberMask_getLsbD (l : List (Fin 8)) (m : Fin 8) : (memberMask l).getLsbD m.val = decide (m ∈ l) := by
  have hfold : ∀ x : BitVec 8, (l.foldl (fun m i => m ||| (1#8 <<< i.val)) x).getLsbD m.val =
      (x.getLsbD m.val || decide (m ∈ l)) := by
    induction l with
    | nil => simp
    | cons i r ih =>
      intro x
      rw [List.foldl_cons, ih, BitVec.getLsbD_or, one_shiftLeft_getLsbD, Bool.or_assoc]
      simp only [List.mem_cons, Bool.decide_or]
  rw [memberMask, hfold]
  simp

/-- The turned order begins with the module. -/
theorem orderFrom_head? {me : Fin 8} {l : List (Fin 8)} (h : me ∈ l) : (orderFrom me l).head? = some me := by
  have hdrop : (l.dropWhile fun i => i != me).head? = some me := by
    induction l with
    | nil => exact absurd h List.not_mem_nil
    | cons i r ih =>
      by_cases hi : i = me
      · simp [hi]
      · rw [List.dropWhile_cons_of_pos (by simp [hi])]
        exact ih (List.mem_of_ne_of_mem (Ne.symm hi) h)
  rw [orderFrom, List.head?_append, hdrop]
  rfl

variable {s : State}

/-! ## A cascade that is off -/

theorem exec_cascade_off (h : s.cascadeOn = false) : (∀ i, exec (.ringFormationDone i) s = .next s) ∧
    (∀ p, exec (.cascadePacketReceived p) s = .next s) ∧ exec .syncMissed s = .next s ∧
    (∀ d, exec (.ringBreak d) s = .next s ∧ exec (.linkDirectionUp d) s = .next s) ∧ exec .statusPacketSend s = .next s := by
  have hskip : ¬s.cascadeOn = true := Bool.eq_false_iff.mp h
  refine ⟨fun i => ?_, fun p => ?_, ?_, fun d => ⟨congrArg _ (if_neg hskip), ?_⟩, ?_⟩
  · exact congrArg _ (if_pos (by simp [h]))
  · exact congrArg _ (if_pos (by simp [h]))
  · exact congrArg _ (if_pos (by simp [h]))
  · exact congrArg _ (if_pos (by simp [h]))
  · exact congrArg _ (if_neg (by simp [h]))

/-! ## RING_FORMATION_DONE (R430) -/

/-- The cascade of a ring that has formed in an order. -/
def formRing (c : CascadeSt) (order : List (Fin 8)) : CascadeSt :=
  { c with
    formed := true
    members := memberMask order
    order := orderFrom c.ident order
    master := lowestId c.ident order
    mepoch := 0
    isMaster := lowestId c.ident order == c.ident
    locked := lowestId c.ident order == c.ident
    syncMiss := 0
    heard := []
    offset := 0
    split := false
    aIn := true
    aOut := true
    bIn := true
    bOut := true }

section
variable {i : RingInfo} (hon : s.cascadeOn = true) (hformed : s.cascade.formed = false) (hdup : s.cascade.dupId = false)
include hon hformed hdup

theorem exec_ringFormationDone_duplicate (h : i.duplicate = true) :
    exec (.ringFormationDone i) s = .next (s.modCascade fun c => { c with dupId := true }) := by
  show execRingFormationDone i s = _
  simp [execRingFormationDone, hon, hformed, hdup, h]

theorem exec_ringFormationDone_forms (h : i.duplicate = false) (hnodup : i.order.Nodup) (hme : s.cascade.ident ∈ i.order) :
    exec (.ringFormationDone i) s =
      .next { s with cascade := formRing s.cascade i.order, faults := { s.faults with xCascade := false } } := by
  show execRingFormationDone i s = _
  simp [execRingFormationDone, hon, hformed, hdup, h, hnodup, hme, formRing]

end

/-! ## Breaks (R435, R436) -/

/-- The cascade with a direction down: the second one splits the ring. -/
def dirDown (d : CxDir) (second : Bool) (c : CascadeSt) : CascadeSt :=
  match d with
  | .a => { c with aIn := false, failsA := [], split := c.split || second }
  | .b => { c with bIn := false, failsB := [], split := c.split || second }

/-- What a break leaves of the packets. -/
def packetView (c : CascadeSt) : List CxPacket × List (Fin 8 × Nat) × List (Fin 8 × List SpanReport) × Nat × Nat :=
  (c.forwarded, c.taken, c.reports, c.crcA, c.crcB)

/-- What a break changes: the cascade's direction, XCASCADE, and one event is logged. -/
theorem breakDir_up {d : CxDir} (h : s.dirUp d = true) : ∃ t, s.breakDir d = t ∧ t.faults.xCascade = true ∧
    t.cascade = dirDown d s.faults.xCascade s.cascade ∧ t.time = s.time ∧ t.groups = s.groups := by
  refine ⟨_, rfl, ?_⟩
  unfold breakDir
  rw [if_neg (by simp [h])]
  refine ⟨rfl, (logEvent_cascade ..).trans ?_, logEvent_time .., logEvent_groups ..⟩
  cases d <;> rfl

theorem breakDir_down {d : CxDir} (h : s.dirUp d = false) : s.breakDir d = s := if_pos (by simp [h])

theorem breakDir_packets (s : State) (d : CxDir) : packetView (s.breakDir d).cascade = packetView s.cascade ∧
    (s.breakDir d).time = s.time ∧ (s.breakDir d).groups = s.groups := by
  cases h : s.dirUp d with
  | false =>
    rw [breakDir_down h]
    exact ⟨rfl, rfl, rfl⟩
  | true =>
    obtain ⟨t, ht, -, hcascade, htime, hgroups⟩ := breakDir_up h
    rw [ht, hcascade]
    refine ⟨?_, htime, hgroups⟩
    cases d <;> rfl

/-- The cascade with a direction up again. -/
def dirRises (d : CxDir) (c : CascadeSt) : CascadeSt :=
  match d with
  | .a => { c with aIn := true }
  | .b => { c with bIn := true }

/-- The state with a direction up again, and XCASCADE by both. -/
def heal (s : State) (d : CxDir) : State :=
  { s with
    cascade := dirRises d s.cascade
    faults := { s.faults with xCascade := !((dirRises d s.cascade).aIn && (dirRises d s.cascade).bIn) } }

theorem exec_ringBreak_on (hon : s.cascadeOn = true) (d : CxDir) : exec (.ringBreak d) s = .next (s.breakDir d) :=
  congrArg _ (if_pos hon)

theorem exec_linkDirectionUp_heals (hon : s.cascadeOn = true) (hformed : s.cascade.formed = true) {d : CxDir}
    (hdown : s.dirUp d = false) : exec (.linkDirectionUp d) s = .next (s.heal d) := by
  refine congrArg _ ((if_neg (by simp [hon, hformed, hdown])).trans ?_)
  cases d <;> rfl

theorem heal_dirUp (s : State) (d : CxDir) : (s.heal d).dirUp d = true ∧ ∀ e, e ≠ d → (s.heal d).dirUp e = s.dirUp e := by
  refine ⟨?_, fun e he => ?_⟩
  · cases d <;> rfl
  · cases d with
    | a =>
      cases e with
      | a => exact absurd rfl he
      | b => rfl
    | b =>
      cases e with
      | a => rfl
      | b => exact absurd rfl he

/-! ## SYNC_MISSED (R433) -/

/-- The third miss in succession: the lowest ID heard is the master. -/
def loseMaster (s : State) : State := s.modCascade fun c => { c with
  syncMiss := s.cascade.syncMiss + 1
  master := lowestId s.cascade.ident s.cascade.heard
  heard := [] }

/-- The module takes over, which is logged. -/
def takeOver (s : State) : State :=
  (s.modCascade fun c => { c with
    isMaster := true
    locked := true
    mepoch := c.mepoch + 1
    takeovers := inc32 c.takeovers }).logEvent sevWarn 0x0C02 0x9000 s.cascade.ident.val

section
variable (hon : s.cascadeOn = true) (hformed : s.cascade.formed = true) (hfollows : s.cascade.isMaster = false)
include hon hformed hfollows

theorem exec_syncMissed_counts (h : (s.cascade.syncMiss + 1) % 3 ≠ 0) :
    exec .syncMissed s = .next (s.modCascade fun c => { c with syncMiss := s.cascade.syncMiss + 1 }) :=
  congrArg _ ((if_neg (by simp [hon, hformed, hfollows])).trans (if_pos h))

theorem exec_syncMissed_third (h : (s.cascade.syncMiss + 1) % 3 = 0) : exec .syncMissed s =
    .next (if lowestId s.cascade.ident s.cascade.heard = s.cascade.ident then s.loseMaster.takeOver else s.loseMaster) :=
  congrArg _ ((if_neg (by simp [hon, hformed, hfollows])).trans (if_neg (not_not.mpr h)))

end

/-! ## CASCADE_PACKET_RECEIVED (R432, R434, R437) -/

section
variable (s) (p : CxPacket)

/-- A packet is forwarded. -/
def forwardPacket : State := s.modCascade fun c => { c with forwarded := c.forwarded ++ [p] }

/-- The source of a packet is heard. -/
def hearSource : State := s.modCascade fun c => { c with heard := if c.heard.contains p.source then c.heard else p.source :: c.heard }

/-- The first copy of a packet is taken. -/
def takeOnce : State :=
  if s.cascade.taken.contains (p.source, p.number) then s
  else (s.modCascade fun c => { c with taken := (p.source, p.number) :: c.taken }).takePacket p

/-- A SYNC of the module's master steers it. -/
def steerBy : State :=
  match p.body with
  | .sync _ master epoch early => if syncSame s.cascade master epoch && s.steersFrom p.dir then s.steer early else s
  | .exchange .. => s
  | .status _ => s

/-- A good packet, forwarded, heard and taken. -/
def acceptPacket : State := ((s.forwardPacket p).hearSource p).takeOnce p

end

section
variable {p : CxPacket}

section
variable (hon : s.cascadeOn = true) (hformed : s.cascade.formed = true) (hwhole : s.cascade.split = false)
  (hup : s.dirUp p.dir = true) (hfar : p.source ≠ s.cascade.ident)
include hon hformed hwhole hup hfar

theorem exec_cascadePacketReceived_bad (hcrc : p.crcOk = false) :
    exec (.cascadePacketReceived p) s = .next ((s.forwardPacket p).badPacket p.dir) :=
  congrArg _ ((if_neg (by simp [hon, hformed, hwhole, hup, hfar])).trans (if_pos (by simp [hcrc])))

theorem exec_cascadePacketReceived_good (hcrc : p.crcOk = true) :
    exec (.cascadePacketReceived p) s = .next ((s.acceptPacket p).steerBy p) :=
  congrArg _ ((if_neg (by simp [hon, hformed, hwhole, hup, hfar])).trans (if_neg (by simp [hcrc])))

end

/-- A packet with a bad CRC is counted, and nothing of it is taken. -/
theorem badPacket_counts (s : State) (d : CxDir) : (s.badPacket d).time = s.time ∧ (s.badPacket d).groups = s.groups ∧
    packetView (s.badPacket d).cascade = (s.cascade.forwarded, s.cascade.taken, s.cascade.reports,
      if d = .a then inc32 s.cascade.crcA else s.cascade.crcA, if d = .b then inc32 s.cascade.crcB else s.cascade.crcB) := by
  unfold badPacket
  extract_lets now recent s1 l
  obtain ⟨htime, hgroups, hview⟩ : s1.time = s.time ∧ s1.groups = s.groups ∧ packetView s1.cascade =
      (s.cascade.forwarded, s.cascade.taken, s.cascade.reports,
        if d = .a then inc32 s.cascade.crcA else s.cascade.crcA, if d = .b then inc32 s.cascade.crcB else s.cascade.crcB) := by
    cases d <;> exact ⟨rfl, rfl, rfl⟩
  split
  · obtain ⟨hview', htime', hgroups'⟩ := s1.breakDir_packets d
    exact ⟨htime'.trans htime, hgroups'.trans hgroups, hview'.trans hview⟩
  · exact ⟨htime, hgroups, hview⟩

theorem takeExchange_cascade (s : State) (src : Fin 8) (span : Fin 32) (sample : Word) (values : List Int) (kappas : List Nat)
    (emerg stop : Bool) : (s.takeExchange src span sample values kappas emerg stop).cascade = s.cascade := by
  unfold takeExchange
  split
  · rfl
  · refine eachFin_keeps (P := fun z => z.cascade = s.cascade) (fun z g hz => ?_) rfl
    split
    · exact hz
    · exact hz

/-- What a packet brings leaves what is forwarded and taken. -/
theorem takePacket_log (s : State) (p : CxPacket) :
    (s.takePacket p).cascade.forwarded = s.cascade.forwarded ∧ (s.takePacket p).cascade.taken = s.cascade.taken := by
  unfold takePacket
  split
  · unfold takeSync
    extract_lets c same
    split
    · exact ⟨rfl, rfl⟩
    · exact ⟨rfl, rfl⟩
  · rw [takeExchange_cascade]
    exact ⟨rfl, rfl⟩
  · exact ⟨rfl, rfl⟩

/-- A packet that is no SYNC leaves the list of the modules heard. -/
theorem takePacket_heard (h : ∀ tick m e y, p.body ≠ .sync tick m e y) (s : State) :
    (s.takePacket p).cascade.heard = s.cascade.heard := by
  unfold takePacket
  split
  · next hbody => exact (h _ _ _ _ hbody).elim
  · rw [takeExchange_cascade]
  · rfl

theorem steerBy_forwarded (s : State) (p : CxPacket) : (s.steerBy p).cascade.forwarded = s.cascade.forwarded := by
  unfold steerBy
  split
  · split <;> rfl
  · rfl
  · rfl

/-- Only a SYNC steers. -/
theorem steerBy_of_not_sync (h : ∀ tick m e y, p.body ≠ .sync tick m e y) (s : State) : s.steerBy p = s := by
  unfold steerBy
  split
  · next hbody => exact (h _ _ _ _ hbody).elim
  · rfl
  · rfl

theorem takeOnce_forwarded (s : State) (p : CxPacket) : (s.takeOnce p).cascade.forwarded = s.cascade.forwarded := by
  unfold takeOnce
  split
  · rfl
  · exact (takePacket_log _ p).1

/-- Once received, a packet is taken. -/
theorem takeOnce_taken (s : State) (p : CxPacket) : (p.source, p.number) ∈ (s.takeOnce p).cascade.taken := by
  unfold takeOnce
  split
  · next h => simpa using h
  · rw [(takePacket_log _ p).2]
    exact List.mem_cons_self

theorem takeOnce_heard (h : ∀ tick m e y, p.body ≠ .sync tick m e y) (s : State) :
    (s.takeOnce p).cascade.heard = s.cascade.heard := by
  unfold takeOnce
  split
  · rfl
  · exact takePacket_heard h _

theorem hearSource_heard (s : State) (p : CxPacket) : p.source ∈ (s.hearSource p).cascade.heard := by
  show p.source ∈ if s.cascade.heard.contains p.source then s.cascade.heard else p.source :: s.cascade.heard
  split
  · next h => simpa using h
  · exact List.mem_cons_self

theorem acceptPacket_forwarded (s : State) (p : CxPacket) : (s.acceptPacket p).cascade.forwarded = s.cascade.forwarded ++ [p] :=
  takeOnce_forwarded ..

/-- The reports of a STATUS packet are those of its first copy (R437). -/
theorem acceptPacket_status {l : List SpanReport} (hbody : p.body = .status l) (s : State) : (s.acceptPacket p).cascade.reports =
    if (p.source, p.number) ∈ s.cascade.taken then s.cascade.reports
    else (p.source, l) :: s.cascade.reports.filter fun r => r.1 != p.source := by
  have htaken : ((s.forwardPacket p).hearSource p).cascade.taken = s.cascade.taken := rfl
  rw [acceptPacket, takeOnce, htaken]
  by_cases h : (p.source, p.number) ∈ s.cascade.taken
  · rw [if_pos (by simpa using h), if_pos h]
    rfl
  · rw [if_neg (by simpa using h), if_neg h, takePacket, hbody]
    rfl

/-- The first copy of its master's SYNC sets the tick of a module that follows (R432). -/
theorem acceptPacket_sync {tick : Nat} {early : Int} (hbody : p.body = .sync tick s.cascade.master s.cascade.mepoch early)
    (hfollows : s.cascade.isMaster = false) (hfresh : (p.source, p.number) ∉ s.cascade.taken) :
    (s.acceptPacket p).time.tick = tick % 1099511627776 ∧ (s.acceptPacket p).cascade.syncMiss = 0 ∧
      syncSame (s.acceptPacket p).cascade s.cascade.master s.cascade.mepoch = true := by
  have htaken : ((s.forwardPacket p).hearSource p).cascade.taken = s.cascade.taken := rfl
  rw [acceptPacket, takeOnce, htaken, if_neg (by simpa using hfresh), takePacket, hbody]
  dsimp only
  rw [takeSync, if_pos (by simp [syncSame, hfollows, forwardPacket, hearSource])]
  exact ⟨rfl, rfl, by simp [syncSame]⟩

end

/-! ## STATUS_PACKET_SEND (R437) -/

theorem exec_statusPacketSend_sends (hon : s.cascadeOn = true) (hformed : s.cascade.formed = true) : exec .statusPacketSend s =
    .next { s with cascade := { s.cascade with out := s.cascade.out ++ [.status s.ownReports] } } :=
  congrArg _ (if_pos (by simp [hon, hformed]))

/-! ## SPAN_START_TICK (R439) -/

theorem beginMain_groups (s : State) (g : Grp) (m : Main) : (s.beginMain g m).groups = s.groups := rfl

theorem beginLink_groups (s : State) (g : Grp) (l : LinkNo) : (s.beginLink g l).groups = s.groups := by
  unfold beginLink
  split <;> rfl

/-- A group that begins runs from sample 0, and no other group changes. -/
theorem beginGroup_groups (s : State) (g : Grp) : ((s.beginGroup g).groups[g]).running = true ∧
    ((s.beginGroup g).groups[g]).sample = 0 ∧ ((s.beginGroup g).groups[g]).starting = false ∧
    ∀ k, k ≠ g → (s.beginGroup g).groups[k] = s.groups[k] := by
  unfold beginGroup
  extract_lets s1
  have hmains : ((s.mainsOf g).foldl (fun z m => z.beginMain g m) s).groups = s.groups :=
    List.foldlRecOn (motive := fun z : State => z.groups = s.groups) _ _ rfl fun z hz m _ => (z.beginMain_groups g m).trans hz
  have h1 : s1.groups = s.groups :=
    eachFin_keeps (P := fun z => z.groups = s.groups) (fun z l hz => (z.beginLink_groups g l).trans hz)
      ((leaveDrum_groups _ g).trans hmains)
  rw [modGroup_groups, vmod_same]
  exact ⟨rfl, rfl, rfl, fun k hk => (vmod_other _ _ hk.symm).trans (by rw [h1])⟩

section
variable {g : Grp}

theorem exec_spanStartTick_running (h : (s.groups[g]).running = true) : exec (.spanStartTick g) s = .next s :=
  congrArg _ (if_pos h)

variable (hrest : (s.groups[g]).running = false)
include hrest

theorem exec_spanStartTick_home (hhome : s.homePart g = true) (hstarting : (s.groups[g]).starting = true)
    (hat : (s.groups[g]).span.startAt ≠ none) : exec (.spanStartTick g) s = .next (s.beginGroup g) :=
  congrArg _ ((if_neg (Bool.eq_false_iff.mp hrest)).trans
    (if_pos (by rw [hhome, hstarting, Option.isSome_iff_ne_none.mpr hat]; rfl)))

theorem exec_spanStartTick_remote (hhome : s.homePart g = false) (hremote : s.remotePart g = true)
    (hlocked : s.cascade.locked = true) (hok : s.programmeOk g = true) : exec (.spanStartTick g) s =
      .next ((s.beginGroup g).modGroup g fun q => { q with span := { q.span with remoteRuns := true } }) :=
  congrArg _ ((if_neg (Bool.eq_false_iff.mp hrest)).trans
    ((if_neg (by simp [hhome])).trans (if_pos (by simp [hremote, hlocked, hok]))))

end

end State

open State

/-- Settles O57: each event of the ring by the lemma of what it does, and a packet by its CRC and its body. -/
theorem cascadeFormsFollowsAndHeals : Obligations.CascadeFormsFollowsAndHeals := by
  intro s c me
  refine ⟨exec_cascade_off, fun i hon hformed hdup => ⟨exec_ringFormationDone_duplicate hon hformed hdup, fun hsingle hnodup hme => ?forms⟩,
    fun p hon hformed hwhole hup hfar => ?packet,
    fun hon hformed hfollows => ⟨exec_syncMissed_counts hon hformed hfollows, fun hthird => ?third⟩,
    fun d hon hup => ?breaks, fun d hon hformed hdown => ?heals, exec_statusPacketSend_sends, fun g =>
      ⟨exec_spanStartTick_running, fun hrest hhome hstarting hat => ?home, fun hrest hhome hremote hlocked hok => ?remote⟩⟩
  case forms =>
    refine ⟨_, exec_ringFormationDone_forms hon hformed hdup hsingle hnodup hme, rfl, lowestId_mem_of_mem hme,
      fun m hm => lowestId_le me i.order m (List.mem_cons_of_mem _ hm), rfl, rfl, memberMask_getLsbD i.order, orderFrom_head? hme,
      fun d => ?_, rfl⟩
    cases d <;> rfl
  case packet =>
    cases hcrc : p.crcOk with
    | false =>
      obtain ⟨htime, hgroups, hview⟩ := (s.forwardPacket p).badPacket_counts p.dir
      refine ⟨_, exec_cascadePacketReceived_bad hon hformed hwhole hup hfar hcrc, ?_⟩
      simp only [packetView, Prod.mk.injEq] at hview
      obtain ⟨hforwarded, htaken, hreports, hcrcA, hcrcB⟩ := hview
      exact ⟨hforwarded, fun _ => ⟨hreports, htaken, htime, hgroups, fun hdir => hcrcA.trans (if_pos hdir),
        fun hdir => hcrcB.trans (if_pos hdir)⟩, fun h => (Bool.false_ne_true h).elim, fun _ h => (Bool.false_ne_true h).elim,
        fun _ _ h => (Bool.false_ne_true h).elim⟩
    | true =>
      refine ⟨_, exec_cascadePacketReceived_good hon hformed hwhole hup hfar hcrc,
        (steerBy_forwarded ..).trans (acceptPacket_forwarded ..), fun h => (Bool.false_ne_true h.symm).elim, fun _ => ?_, fun l _ hbody => ?_,
        fun tick y _ hbody hdir hfollows hfresh => ?_⟩
      · by_cases hsync : ∃ tk m e y, p.body = .sync tk m e y
        · exact .inr hsync
        · simp only [not_exists] at hsync
          rw [steerBy_of_not_sync hsync]
          refine .inl ⟨takeOnce_taken .., ?_⟩
          rw [acceptPacket, takeOnce_heard hsync]
          exact hearSource_heard ..
      · rw [steerBy_of_not_sync (by simp [hbody]), acceptPacket_status hbody]
      · obtain ⟨htick, hmiss, hsame⟩ := acceptPacket_sync hbody hfollows hfresh
        have hsteers : (s.acceptPacket p).steerBy p = (s.acceptPacket p).steer y := by
          simp only [steerBy, hbody]
          exact if_pos (by rw [hsame, hdir]; rfl)
        rw [hsteers]
        exact ⟨htick, hmiss, rfl, rfl⟩
  case third =>
    refine ⟨_, exec_syncMissed_third hon hformed hfollows hthird, ?_⟩
    split
    · next hself =>
      have hcascade : s.loseMaster.takeOver.cascade = { s.loseMaster.cascade with
        isMaster := true
        locked := true
        mepoch := c.mepoch + 1
        takeovers := inc32 c.takeovers } := logEvent_cascade ..
      rw [hcascade]
      refine ⟨lowestId_le me c.heard, lowestId_mem me c.heard, fun _ => ⟨rfl, rfl⟩, fun hother => absurd hself hother, ?_⟩
      rw [← hcascade, takeOver, logEvent_frame]
      rfl
    · next hother =>
      exact ⟨lowestId_le me c.heard, lowestId_mem me c.heard, fun hself => absurd hself hother, fun _ => ⟨hfollows, rfl⟩, rfl⟩
  case breaks =>
    obtain ⟨t, ht, hflag, hcascade, -, -⟩ := breakDir_up hup
    refine ⟨t, (exec_ringBreak_on hon d).trans (congrArg _ ht), ?_, hflag, fun hsecond => ?_, fun hfirst => ?_⟩
    · cases d <;> simp [dirUp, hcascade, dirDown]
    · cases d <;> simp [hcascade, dirDown, hsecond]
    · cases d <;> simp [hcascade, dirDown, hfirst, c]
  case heals =>
    obtain ⟨hrises, hstays⟩ := s.heal_dirUp d
    exact ⟨_, exec_linkDirectionUp_heals hon hformed hdown, hrises, rfl, hstays⟩
  case home =>
    obtain ⟨hruns, hsample, hstarted, hothers⟩ := s.beginGroup_groups g
    exact ⟨_, exec_spanStartTick_home hrest hhome hstarting hat, hruns, hsample, hstarted, hothers⟩
  case remote =>
    obtain ⟨hruns, hsample, -, hothers⟩ := s.beginGroup_groups g
    refine ⟨_, exec_spanStartTick_remote hrest hhome hremote hlocked hok, ?_⟩
    rw [modGroup_groups, vmod_same]
    exact ⟨hruns, hsample, rfl, fun k hk => (vmod_other _ _ hk.symm).trans (hothers k hk)⟩

end Sys2Proof.Machine
end

section
/-! Proofs: what a loss of the control and sense dies leaves (R283, R292, R448, R457, R483), and how a start or a wake begins (R459,
R464 to R466). -/

namespace Sys2Proof.Machine

namespace State

variable {s t u : State}

/-! ## The channel's outputs off (R283, R292) -/

/-- An STO group goes off; one on its way to LATCHED, and one in FAULT, gets there. -/
def restGroup (z : State) (i : StoNo) : State :=
  z.stoOff i (if (z.safety.groups[i]).state = .latched ∨ (z.safety.groups[i]).state = .braking then .latched
    else if (z.safety.groups[i]).state = .fault then .fault else .off) none

/-- The channel has no valid message any more. -/
def loseMessages (s : State) : State :=
  s.modSafety fun q => { q with lastValid := none, last := none, monLost := true, validRun := 0 }

theorem restGroup_outputsOnly (z : State) (i : StoNo) : OutputsOnly z (restGroup z i) := by
  unfold restGroup
  exact OutputsOnly.stoOff z i _ none

theorem restGroup_other (z : State) {i k : StoNo} (h : i ≠ k) : (restGroup z i).safety.groups[k] = z.safety.groups[k] := by
  unfold restGroup
  exact z.stoOff_group_other h _ none

theorem restGroup_sto (z : State) (i : StoNo) : ((restGroup z i).safety.groups[i]).sto = false := by
  rw [restGroup, stoOff_group_same]

/-- One state differs from another at most in the channel and the main axes. -/
def ChannelAndAxes (s t : State) : Prop := t = { s with safety := t.safety, mains := t.mains }

theorem ChannelAndAxes.trans (hst : ChannelAndAxes s t) (htu : ChannelAndAxes t u) : ChannelAndAxes s u := by
  unfold ChannelAndAxes at *
  rw [htu, hst]

theorem ChannelAndAxes.stands (h : ChannelAndAxes s t) :
    t.power = s.power ∧ t.retention = s.retention ∧ t.ledger = s.ledger ∧ t.log = s.log ∧ t.time = s.time := by
  unfold ChannelAndAxes at h
  rw [h]
  exact ⟨rfl, rfl, rfl, rfl, rfl⟩

theorem restGroups_channelAndAxes (s : State) : ChannelAndAxes s (eachFin 4 restGroup s) :=
  (OutputsOnly.eachFin restGroup_outputsOnly s).frame

theorem loseMessages_channelAndAxes (s : State) : ChannelAndAxes s s.loseMessages := rfl

theorem settleSafety_channelAndAxes (s : State) : ChannelAndAxes s s.settleSafety := (OutputsOnly.settleSafety s).frame

/-- Taking the outputs off touches the channel and the parked angles alone. -/
theorem safetyOff_channelAndAxes (s : State) : ChannelAndAxes s s.safetyOff :=
  ((restGroups_channelAndAxes s).trans (loseMessages_channelAndAxes _)).trans (settleSafety_channelAndAxes _)

theorem restGroups_sto (s : State) (i : StoNo) : ((eachFin 4 restGroup s).safety.groups[i]).sto = false := by
  obtain ⟨z, -, -, hown⟩ := eachFin_group (k := i) restGroup_outputsOnly (fun z j hj => restGroup_other z hj) s
  rw [hown, restGroup_sto]

theorem loseMessages_groups (s : State) : s.loseMessages.safety.groups = s.safety.groups := rfl

/-- What follows in the channel turns no STO on that is off. -/
theorem settleSafety_sto {i : StoNo} (h : (s.safety.groups[i]).sto = false) : (s.settleSafety.safety.groups[i]).sto = false :=
  settleSafety_group_keeps (P := fun x => x.sto = false) (fun _ _ h => h) (fun _ _ => rfl) h

theorem safetyOff_eq (s : State) : s.safetyOff = (eachFin 4 restGroup s).loseMessages.settleSafety := rfl

theorem safetyOff_sto (s : State) (i : StoNo) : (s.safetyOff.safety.groups[i]).sto = false := by
  rw [safetyOff_eq]
  refine settleSafety_sto ?_
  rw [loseMessages_groups]
  exact restGroups_sto s i

/-! ## The dies off (R448, R457, R483) -/

theorem dieOff_running (s : State) (g : Grp) : (s.dieOff.groups[g]).running = false := by
  show ((Vector.replicate 8 ({} : Group))[g]).running = false
  simp

/-- The outputs are off, the groups stopped and the tickets gone; what the keeper, the ledger and the stores hold stands. -/
def DiesOff (s t : State) : Prop :=
  (∀ i : StoNo, (t.safety.groups[i]).sto = false) ∧ (∀ g : Grp, (t.groups[g]).running = false) ∧ t.mail.tickets = [] ∧
    t.retention = s.retention ∧ t.ledger.totals = s.ledger.totals ∧ t.log.persistent = s.log.persistent

theorem dieOff_diesOff (h : ∀ i : StoNo, (s.safety.groups[i]).sto = false) : DiesOff s s.dieOff :=
  ⟨h, s.dieOff_running, rfl, rfl, rfl, rfl⟩

namespace DiesOff

theorem modPower (h : DiesOff s t) (f : PowerSt → PowerSt) : DiesOff s (t.modPower f) := h

/-- What stands before the dies go off stands after it. -/
theorem of_channelAndAxes (hst : ChannelAndAxes s t) (htu : DiesOff t u) : DiesOff s u := by
  obtain ⟨-, hretention, hledger, hlog, -⟩ := hst.stands
  obtain ⟨hsto, hrunning, htickets, hretention', htotals, hpersistent⟩ := htu
  exact ⟨hsto, hrunning, htickets, hretention'.trans hretention, htotals.trans (by rw [hledger]), hpersistent.trans (by rw [hlog])⟩

end DiesOff

theorem dieOff_power (s : State) : s.dieOff.power = { s.power with due := none, dueTicket := none } := rfl

theorem outputsOff_eq (s : State) (ph : PowerPhase) : s.outputsOff ph = s.safetyOff.dieOff.modPower fun p => { p with phase := ph } := rfl

theorem outputsOff_diesOff (s : State) (ph : PowerPhase) : DiesOff s (s.outputsOff ph) := by
  rw [outputsOff_eq]
  exact (DiesOff.of_channelAndAxes (safetyOff_channelAndAxes s) (dieOff_diesOff s.safetyOff_sto)).modPower _

theorem outputsOff_power (s : State) (ph : PowerPhase) :
    (s.outputsOff ph).power = { s.power with due := none, dueTicket := none, phase := ph } := by
  obtain ⟨hpower, -⟩ := s.safetyOff_channelAndAxes.stands
  rw [outputsOff_eq, modPower_power, dieOff_power, hpower]

/-! ## A start is due (R464 to R466) -/

theorem passCounts_power (s : State) (n : Nat) : (s.passCounts n).power = s.power := rfl

theorem passUnknown_power (s : State) : s.passUnknown.power = s.power := rfl

theorem toStart_cold_phase (s : State) (cause : Nat) : (s.toStart cause false).power.phase = .coldStart := rfl

theorem releaseReset_of_vinOk (h : s.power.vinOk = true) :
    s.releaseReset = s.toStart (if s.power.brownout then causeBrownout else causeReset) false := if_pos h

/-- What waits for RST_N starts without touching the records of the starts, and with RST_N as it was. -/
theorem releaseReset_leaves (s : State) : s.releaseReset.start = s.start ∧ s.releaseReset.power.rstLow = s.power.rstLow := by
  unfold releaseReset
  split <;> exact ⟨rfl, rfl⟩

theorem warmAllowed_congr (hretention : t.retention = s.retention) (hstart : t.start = s.start) : t.warmAllowed = s.warmAllowed := by
  rw [warmAllowed, warmAllowed, hretention, hstart]

/-- Setting the keeper time at a wake changes nothing of what a warm start asks for. -/
theorem wakeTime_leaves (s : State) (late : Bool) :
    (s.wakeTime late).retention = s.retention ∧ (s.wakeTime late).start = s.start := by
  unfold wakeTime
  dsimp only
  split <;> exact ⟨rfl, rfl⟩

/-- A wake begins the start that is allowed. -/
theorem wake_phase (s : State) (late : Bool) : (s.wake late).power.phase = if s.warmAllowed then .warmStart else .coldStart := by
  obtain ⟨hretention, hstart⟩ := s.wakeTime_leaves late
  show (if (s.wakeTime late).warmAllowed then PowerPhase.warmStart else .coldStart) = _
  rw [warmAllowed_congr hretention hstart]

/-- A wake's cause is that of the sources latched. -/
theorem wake_cause (s : State) (late : Bool) : (s.wake late).power.cause = wakeCause s.power.latchedTimer s.power.latched := rfl

theorem powered_iff (s : State) : s.powered = true ↔
    (s.power.phase = .awake ∨ s.power.phase = .safeHold ∨ s.power.phase = .romHold) ∨
      s.power.phase = .coldStart ∨ s.power.phase = .warmStart := by
  unfold powered
  cases s.power.phase <;> simp

theorem clocked_iff (s : State) :
    s.clocked = true ↔ s.power.phase = .awake ∨ s.power.phase = .safeHold ∨ s.power.phase = .romHold := by
  simp [clocked, or_assoc]

end State

end Sys2Proof.Machine
end

section
/-! Proofs: the supply and the clock reference move the module (R447, R448, R453 to R455, R463). -/

namespace Sys2Proof.Machine

namespace State

variable {s : State}

/-! ## BROWNOUT (R447, R448) -/

/-- The module after a brownout of a running or starting control die. -/
def brownOut (s : State) : State :=
  ((s.outputsOff .brownedOut).modPower fun p => { p with vinOk := false }).modPower fun p => { p with brownout := true }

theorem brownOut_power (s : State) : s.brownOut.power.phase = .brownedOut ∧ s.brownOut.power.vinOk = false ∧
    s.brownOut.power.brownout = true := by
  rw [brownOut, modPower_power, modPower_power, outputsOff_power]
  exact ⟨rfl, rfl, rfl⟩

theorem brownOut_diesOff (s : State) : DiesOff s s.brownOut := ((s.outputsOff_diesOff .brownedOut).modPower _).modPower _

theorem exec_brownout_noVin (h : s.power.phase = .noVin) : exec .brownout s = .next s := by
  show execBrownout s = _
  simp only [execBrownout, h]

theorem exec_brownout_asleep (h : s.power.phase = .asleep) :
    exec .brownout s = .next (s.modPower fun p => { p with vinOk := false }) := by
  show execBrownout s = _
  simp only [execBrownout, h]

theorem exec_brownout_powered (h : s.powered = true) : exec .brownout s = .next s.brownOut := by
  show execBrownout s = _
  unfold execBrownout
  rcases s.powered_iff.mp h with (h | h | h) | h | h
  all_goals
    rw [h]
    rfl

/-! ## VINOK_HELD (R447, R448) -/

/-- VIN holds. -/
def vinHolds (s : State) : State := s.modPower fun p => { p with vinOk := true }

theorem exec_vinokHeld_noVin (h : s.power.phase = .noVin) (hhigh : s.power.rstLow = false) :
    exec .vinokHeld s = .next (s.vinHolds.toStart 0 false) := by
  show execVinokHeld s = _
  simp only [execVinokHeld, h, hhigh]
  rfl

theorem exec_vinokHeld_brownedOut (h : s.power.phase = .brownedOut) (hhigh : s.power.rstLow = false) :
    exec .vinokHeld s = .next s.vinHolds.passUnknown.releaseReset := by
  show execVinokHeld s = _
  simp only [execVinokHeld, h, hhigh]
  rfl

/-- With RST_N low the module goes into reset. -/
theorem exec_vinokHeld_rstLow (h : s.power.phase = .noVin ∨ s.power.phase = .brownedOut) (hlow : s.power.rstLow = true) :
    ∃ t, exec .vinokHeld s = .next t ∧ t.power.phase = .inReset := by
  show ∃ t, execVinokHeld s = .next t ∧ _
  rcases h with h | h
  · simp only [execVinokHeld, h, hlow]
    exact ⟨_, rfl, rfl⟩
  · simp only [execVinokHeld, h, hlow]
    exact ⟨_, rfl, rfl⟩

/-- A wake that a brownout held back begins. -/
theorem exec_vinokHeld_wakes (h : s.power.phase = .asleep) (hvin : s.power.vinOk = false) (hlatched : s.power.latched ≠ 0) :
    exec .vinokHeld s = .next (s.vinHolds.wake true) := by
  show execVinokHeld s = _
  simp only [execVinokHeld, h]
  rw [if_pos ⟨hvin, .inl hlatched⟩]
  rfl

theorem exec_vinokHeld_sets (h : (s.power.phase = .awake ∨ s.power.phase = .safeHold ∨ s.power.phase = .romHold) ∨
    s.power.phase = .coldStart ∨ s.power.phase = .warmStart ∨ s.power.phase = .inReset ∨
    (s.power.phase = .asleep ∧ s.power.latched = 0 ∧ s.power.latchedTimer = false)) :
    exec .vinokHeld s = .next s.vinHolds := by
  show execVinokHeld s = _
  rcases h with (h | h | h) | h | h | h | ⟨h, hlatched, htimer⟩
  case inr.inr.inr.inr =>
    simp only [execVinokHeld, h]
    rw [if_neg (by simp [hlatched, htimer])]
    rfl
  all_goals
    simp only [execVinokHeld, h]
    rfl

/-! ## KEEPER_FLOOR_LOSS (R178, R447) -/

theorem wipeLedger_ledger (s : State) : s.wipeLedger.ledger.totals = [] ∧ s.wipeLedger.ledger.epoch = s.ledger.epoch + 1 := ⟨rfl, rfl⟩

/-! ## The reference and the warning level (R447, R453 to R455) -/

theorem exec_vlow_noVin (h : s.power.phase = .noVin) (b : Bool) : exec (.vlow b) s = .next s := congrArg _ (if_pos h)

theorem exec_vlow_powered (h : s.power.phase ≠ .noVin) (b : Bool) :
    exec (.vlow b) s = .next { s with power := { s.power with vLow := b, vLowSeen := s.power.vLowSeen || b } } :=
  congrArg _ (if_neg h)

theorem exec_crystalQualified_starting (h : s.power.phase = .coldStart ∨ s.power.phase = .warmStart)
    (hnoun : s.retention.nouns.lookup 0xA00A ≠ some 1) :
    exec .crystalQualified s = .next { s with power := { s.power with reference := 1, xtalFit := true } } :=
  congrArg _ (if_pos ⟨h, hnoun⟩)

theorem exec_crystalQualified_idle (h : ¬(s.power.phase = .coldStart ∨ s.power.phase = .warmStart)) :
    exec .crystalQualified s = .next s := congrArg _ (if_neg fun hstarts => h hstarts.1)

section
variable (hclocked : s.clocked = true)
include hclocked

theorem exec_crystalLost_holds (h : s.power.reference = 1) :
    exec .crystalLost s = .next { s with power := { s.power with xtalLost := true, reference := 2 } } :=
  congrArg _ (if_pos (by rw [hclocked, h]; rfl))

theorem exec_holdoverExpiry_slews (h : s.power.reference = 2) :
    exec .holdoverExpiry s = .next { s with power := { s.power with reference := 3 } } :=
  congrArg _ (if_pos (by rw [hclocked, h]; rfl))

theorem exec_slewToInternalDone_ends (h : s.power.reference = 3) :
    exec .slewToInternalDone s = .next { s with power := { s.power with reference := 0 } } :=
  congrArg _ (if_pos (by rw [hclocked, h]; rfl))

theorem exec_pllLockLoss_clocked : exec .pllLockLoss s = .next (s.dieOff.toStart causeClockFail false) := congrArg _ (if_pos hclocked)

end

/-- On the internal reference there is no crystal to lose. -/
theorem exec_reference_internal (h : s.power.reference = 0) : exec .crystalLost s = .next s ∧ exec .holdoverExpiry s = .next s ∧
    exec .slewToInternalDone s = .next s :=
  ⟨congrArg _ (if_neg (by simp [h])), congrArg _ (if_neg (by simp [h])), congrArg _ (if_neg (by simp [h]))⟩

theorem exec_pllLockLoss_off (h : ¬s.clocked = true) : exec .pllLockLoss s = .next s := congrArg _ (if_neg h)

end State

open State

/-- Settles O58: each event of the supply by the phase it finds, each event of the clocks by the reference. -/
theorem supplyAndClockEventsMoveTheModule : Obligations.SupplyAndClockEventsMoveTheModule := by
  intro s ph p held
  have hclocked : held → s.clocked = true := s.clocked_iff.mpr
  refine ⟨fun h => ⟨exec_brownout_noVin h, exec_vlow_noVin h⟩, exec_brownout_asleep, fun h => ?brownout, fun h hhigh => ?noVin,
    fun h hhigh hbrownout => ?brownedOut, exec_vinokHeld_rstLow, fun h hvin hlatched => ?wakes, exec_vinokHeld_sets, ?floor,
    fun b h => exec_vlow_powered h b, exec_crystalQualified_starting, exec_crystalQualified_idle,
    fun h => exec_crystalLost_holds (hclocked h), fun h => exec_holdoverExpiry_slews (hclocked h),
    fun h => exec_slewToInternalDone_ends (hclocked h), exec_reference_internal, fun h => ?pll, fun h => ?off⟩
  case brownout =>
    obtain ⟨hsto, hrunning, htickets, hretention, -, hlog⟩ := s.brownOut_diesOff
    obtain ⟨hphase, hvin, hbrownout⟩ := s.brownOut_power
    exact ⟨s.brownOut, exec_brownout_powered (s.powered_iff.mpr h), hphase, hvin, hbrownout, hrunning, hsto, htickets, hretention, hlog⟩
  case noVin => exact ⟨_, exec_vinokHeld_noVin h hhigh, rfl, rfl, rfl⟩
  case brownedOut =>
    have hvin : s.vinHolds.passUnknown.power.vinOk = true := rfl
    refine ⟨_, (exec_vinokHeld_brownedOut h hhigh).trans (congrArg _ (releaseReset_of_vinOk hvin)), rfl, ?_⟩
    exact if_pos hbrownout
  case wakes =>
    have hallowed : s.vinHolds.warmAllowed = s.warmAllowed := warmAllowed_congr rfl rfl
    refine ⟨_, exec_vinokHeld_wakes h hvin hlatched, ?_⟩
    rw [wake_phase, hallowed]
    cases s.warmAllowed <;> simp
  case floor =>
    obtain ⟨htotals, hepoch⟩ := wipeLedger_ledger _
    exact ⟨_, rfl, rfl, rfl, rfl, rfl, rfl, htotals, hepoch, rfl, rfl, rfl⟩
  case pll => exact ⟨_, exec_pllLockLoss_clocked (hclocked h), rfl, rfl, s.dieOff_running⟩
  case off => exact exec_pllLockLoss_off fun hc => h (s.clocked_iff.mp hc)

end Sys2Proof.Machine
end

section
/-! Proofs: sleep is entered and left, and RST_N holds the module in reset (R456, R458, R459, R483 to R485). -/

namespace Sys2Proof.Machine

namespace State

variable {s t : State}

/-! ## The steps of entry (R274, R456, R468) -/

/-- One state differs from another at most in retention RAM. -/
def RetentionOnly (s t : State) : Prop := t = { s with retention := t.retention }

theorem keepStep_retentionOnly (s : State) (e : Fin 4) (o n : Bool × Bool) : RetentionOnly s (s.keepStep e o n) := by
  unfold keepStep
  extract_lets u r q d
  split
  · exact rfl
  · exact rfl

theorem RetentionOnly.trans {u : State} (hst : RetentionOnly s t) (htu : RetentionOnly t u) : RetentionOnly s u := by
  unfold RetentionOnly at *
  rw [htu, hst]

theorem RetentionOnly.stands (h : RetentionOnly s t) : t.power = s.power ∧ t.safety = s.safety ∧ t.time = s.time := by
  unfold RetentionOnly at h
  rw [h]
  exact ⟨rfl, rfl, rfl⟩

theorem handOverUnits_retentionOnly (s : State) (ab : Vector (Bool × Bool) 4) : RetentionOnly s (s.handOverUnits ab) := by
  unfold handOverUnits
  extract_lets r s1
  have h1 : RetentionOnly s s1 := rfl
  clear_value s1
  refine eachFin_keeps (P := RetentionOnly s) (fun z e hz => ?_) h1
  dsimp only
  split
  · exact hz.trans (z.keepStep_retentionOnly e _ _)
  · exact hz

theorem transferLedger_stands (s : State) :
    s.transferLedger.power = s.power ∧ s.transferLedger.safety = s.safety ∧ s.transferLedger.time = s.time := ⟨rfl, rfl, rfl⟩

theorem releaseJournal_stands (s : State) :
    s.releaseJournal.power = s.power ∧ s.releaseJournal.safety = s.safety ∧ s.releaseJournal.time = s.time := by
  obtain ⟨hframe, -⟩ := s.releaseJournal_frame
  rw [hframe]
  exact ⟨rfl, rfl, rfl⟩

/-- The signature marks the block valid, with the keeper time at which it is written. -/
theorem writeSignature_writes (s : State) : s.writeSignature.power = s.power ∧ s.writeSignature.safety = s.safety ∧
    s.writeSignature.retention.valid = true ∧ s.writeSignature.retention.time = s.time.keeper := by
  obtain ⟨hpower, hsafety, htime⟩ := s.transferLedger_stands
  obtain ⟨hpower', hsafety', htime'⟩ := s.transferLedger.releaseJournal_stands
  exact ⟨hpower'.trans hpower, hsafety'.trans hsafety, rfl, congrArg TimeSt.keeper (htime'.trans htime)⟩

/-- After the steps of entry every STO is off and the retained data are valid. -/
theorem entrySteps_ends (s : State) (ab : Vector (Bool × Bool) 4) : (s.entrySteps ab).power = s.power ∧
    (∀ i : StoNo, ((s.entrySteps ab).safety.groups[i]).sto = false) ∧
    (s.entrySteps ab).retention.valid = true ∧ (s.entrySteps ab).retention.time = s.time.keeper := by
  obtain ⟨hpower, -, -, -, htime⟩ := s.safetyOff_channelAndAxes.stands
  obtain ⟨hpower', hsafety', htime'⟩ := (s.safetyOff.handOverUnits_retentionOnly ab).stands
  obtain ⟨hpower'', hsafety'', hvalid, hwritten⟩ := (s.safetyOff.handOverUnits ab).writeSignature_writes
  refine ⟨hpower''.trans (hpower'.trans hpower), fun i => ?_, hvalid, hwritten.trans ?_⟩
  · rw [entrySteps, hsafety'', hsafety']
    exact s.safetyOff_sto i
  · rw [htime', htime]

/-! ## SLEEP_ENTRY (R456, R459) -/

/-- The module asleep, as what the steps of entry left goes on without its dies. -/
def fallAsleep (s entry : State) (levels : BitVec 8) (seconds : Nat) : State :=
  entry.dieOff.modPower fun p => { p with
    phase := .asleep
    sleeps := inc32 p.sleeps
    sleptAt := s.time.keeper
    minuteAt := s.time.keeper
    wakeTimer := seconds
    wakeEn := BitVec.ofNat 18 (s.noun 0xA008).toNat
    wakeCounts := (s.noun 0xA009).toNat
    latchedTimer := false
    levels := levels }

theorem fallAsleep_power (s entry : State) (levels : BitVec 8) (n : Nat) :
    (s.fallAsleep entry levels n).power.phase = .asleep ∧ (s.fallAsleep entry levels n).power.sleeps = inc32 entry.power.sleeps ∧
      (s.fallAsleep entry levels n).power.wakeTimer = n ∧
      (s.fallAsleep entry levels n).power.wakeEn = BitVec.ofNat 18 (s.noun 0xA008).toNat ∧
      (s.fallAsleep entry levels n).power.levels = levels := ⟨rfl, rfl, rfl, rfl, rfl⟩

theorem fallAsleep_rest (s entry : State) (levels : BitVec 8) (n : Nat) :
    (s.fallAsleep entry levels n).retention = entry.retention ∧ (s.fallAsleep entry levels n).mail.fwReady = false ∧
      (s.fallAsleep entry levels n).gff.words = [] ∧ (s.fallAsleep entry levels n).safety = entry.safety := ⟨rfl, rfl, rfl, rfl⟩

section
variable {ab : Vector (Bool × Bool) 4} {levels : BitVec 8}

theorem exec_sleepEntry_idle (h : (∀ n, s.power.due ≠ some (.sleep n)) ∨ s.power.phase ≠ .awake) :
    exec (.sleepEntry ab levels) s = .next s := by
  show execSleepEntry ab levels s = _
  unfold execSleepEntry
  split
  · next n hdue =>
    rw [if_pos (h.resolve_left fun hnone => hnone n hdue)]
  · rfl

theorem exec_sleepEntry_due {n : Nat} (hdue : s.power.due = some (.sleep n)) (hawake : s.power.phase = .awake) :
    exec (.sleepEntry ab levels) s = .next (if s.power.latched ≠ 0 then (s.fallAsleep (s.entrySteps ab) levels n).wake false
      else s.fallAsleep (s.entrySteps ab) levels n) := by
  show execSleepEntry ab levels s = _
  unfold execSleepEntry
  rw [hdue]
  exact congrArg _ (if_neg (not_not.mpr hawake))

end

/-! ## WAKE_SOURCE_QUALIFIED (R458, R459) -/

section
variable {w : WakeSource}

theorem exec_wakeSource_unfit (hasleep : s.power.phase = .asleep) (hfit : s.wakeFits s.power.wakeEn w = false) :
    exec (.wakeSourceQualified w) s = .next s := by
  show execWakeSourceQualified w s = _
  unfold execWakeSourceQualified
  rw [hasleep]
  exact congrArg _ (if_neg (Bool.eq_false_iff.mp hfit))

theorem exec_wakeSource_fits (hasleep : s.power.phase = .asleep) (hfit : s.wakeFits s.power.wakeEn w = true) :
    exec (.wakeSourceQualified w) s =
      .next (if s.power.vinOk then (s.latchSource w).wake false else s.latchSource w) := by
  show execWakeSourceQualified w s = _
  unfold execWakeSourceQualified
  rw [hasleep]
  exact congrArg _ (if_pos hfit)

/-- Without the supply, in reset, and while the boot ROM or safe hold waits, no source counts. -/
theorem exec_wakeSource_off (h : s.power.phase = .noVin ∨ s.power.phase = .inReset ∨ s.power.phase = .brownedOut ∨
    s.power.phase = .safeHold ∨ s.power.phase = .romHold) : exec (.wakeSourceQualified w) s = .next s := by
  show execWakeSourceQualified w s = _
  unfold execWakeSourceQualified
  rcases h with h | h | h | h | h <;> rw [h]

/-- CAUSE of a wake that one source alone began (R464). -/
def sourceCause : WakeSource → Nat
  | .timer => 1
  | .host => 2
  | .bus b => 3 + b.val
  | .switch _ => 7
  | .encoder _ => 8
  | .klost => 9

theorem wakeCause_bus : ∀ b : Fin 4, wakeCause false (0 ||| (1#18 <<< (1 + b.val))) = 3 + b.val := by decide

theorem wakeCause_switch : ∀ i : Fin 8, wakeCause false (0 ||| (1#18 <<< (5 + i.val))) = 7 := by decide

theorem wakeCause_encoder : ∀ e : Fin 4, wakeCause false (0 ||| (1#18 <<< (13 + e.val))) = 8 := by decide

/-- Where no other source is latched, the latched one gives the cause. -/
theorem wakeCause_latchSource (hlatched : s.power.latched = 0) (htimer : s.power.latchedTimer = false) :
    wakeCause (s.latchSource w).power.latchedTimer (s.latchSource w).power.latched = sourceCause w := by
  rw [latchSource, modPower_power]
  cases w with
  | timer => rfl
  | host =>
    show wakeCause s.power.latchedTimer (s.power.latched ||| (1#18 <<< 0)) = 2
    rw [hlatched, htimer]
    decide
  | bus b =>
    show wakeCause s.power.latchedTimer (s.power.latched ||| (1#18 <<< (1 + b.val))) = 3 + b.val
    rw [hlatched, htimer, wakeCause_bus]
  | switch i =>
    show wakeCause s.power.latchedTimer (s.power.latched ||| (1#18 <<< (5 + i.val))) = 7
    rw [hlatched, htimer, wakeCause_switch]
  | encoder e =>
    show wakeCause s.power.latchedTimer (s.power.latched ||| (1#18 <<< (13 + e.val))) = 8
    rw [hlatched, htimer, wakeCause_encoder]
  | klost =>
    show wakeCause s.power.latchedTimer (s.power.latched ||| (1#18 <<< 17)) = 9
    rw [hlatched, htimer]
    decide

end

/-! ## RST_N (R483 to R485) -/

/-- RST_N is low. -/
def lowerReset (s : State) : State := s.modPower fun p => { p with rstLow := true }

/-- The outputs are off in a brownout. -/
def brownOutFirst (s : State) : State := (s.outputsOff .brownedOut).modPower fun p => { p with brownout := true }

theorem resetOff_power (s : State) : (s.lowerReset.outputsOff .inReset).power.rstLow = true ∧
    (s.lowerReset.outputsOff .inReset).power.phase = .inReset := by
  rw [outputsOff_power]
  exact ⟨rfl, rfl⟩

theorem brownOutFirst_power (s : State) : s.lowerReset.brownOutFirst.power.rstLow = true ∧
    s.lowerReset.brownOutFirst.power.phase = .brownedOut := by
  rw [brownOutFirst, modPower_power, outputsOff_power]
  exact ⟨rfl, rfl⟩

theorem brownOutFirst_diesOff (s : State) : DiesOff s.lowerReset s.lowerReset.brownOutFirst :=
  (s.lowerReset.outputsOff_diesOff .brownedOut).modPower _

/-- RST_N is high. -/
def raiseReset (s : State) : State := s.modPower fun p => { p with rstLow := false }

theorem exec_rstNLow_ignored (h : s.start.rstMask = true ∨ s.power.rstLow = true) : exec .rstNLow s = .next s :=
  congrArg _ (if_pos (Bool.or_eq_true_iff.mpr h))

section
variable (hmask : s.start.rstMask = false) (hhigh : s.power.rstLow = false)
include hmask hhigh

theorem rstN_not_ignored : ¬(s.start.rstMask || s.power.rstLow) = true := by
  rw [hmask, hhigh]
  exact Bool.false_ne_true

theorem exec_rstNLow_unpowered (h : s.power.phase = .noVin ∨ s.power.phase = .brownedOut ∨ s.power.phase = .inReset) :
    exec .rstNLow s = .next s.lowerReset := by
  show execRstNLow s = _
  unfold execRstNLow
  rw [if_neg (rstN_not_ignored hmask hhigh)]
  rcases h with h | h | h
  all_goals
    rw [h]
    rfl

/-- In sleep a brownout goes before the reset (R485). -/
theorem exec_rstNLow_asleep (h : s.power.phase = .asleep) : exec .rstNLow s =
    .next (if s.power.vinOk then s.lowerReset.outputsOff .inReset else s.lowerReset.brownOutFirst) := by
  show execRstNLow s = _
  unfold execRstNLow
  rw [if_neg (rstN_not_ignored hmask hhigh), h]
  rfl

theorem exec_rstNLow_powered (h : s.powered = true) : exec .rstNLow s = .next (s.lowerReset.outputsOff .inReset) := by
  show execRstNLow s = _
  unfold execRstNLow
  rw [if_neg (rstN_not_ignored hmask hhigh)]
  rcases s.powered_iff.mp h with (h | h | h) | h | h
  all_goals
    rw [h]
    rfl

/-- RST_N takes a module with VIN into reset, or a sleeping one without VINOK into the brownout. -/
theorem exec_rstNLow_resets (h : ¬(s.power.phase = .noVin ∨ s.power.phase = .brownedOut ∨ s.power.phase = .inReset)) :
    ∃ t, exec .rstNLow s = .next t ∧ t.power.rstLow = true ∧
      t.power.phase = (if s.power.phase = .asleep ∧ s.power.vinOk = false then .brownedOut else .inReset) ∧ DiesOff s.lowerReset t := by
  obtain ⟨hlow, hphase⟩ := s.resetOff_power
  have hreset := s.lowerReset.outputsOff_diesOff .inReset
  by_cases hasleep : s.power.phase = .asleep
  · have hexec := exec_rstNLow_asleep hmask hhigh hasleep
    cases hvin : s.power.vinOk with
    | true =>
      rw [hvin, if_pos rfl] at hexec
      exact ⟨_, hexec, hlow, hphase.trans (by simp), hreset⟩
    | false =>
      obtain ⟨hlow', hphase'⟩ := s.brownOutFirst_power
      rw [hvin, if_neg Bool.false_ne_true] at hexec
      exact ⟨_, hexec, hlow', hphase'.trans (by simp [hasleep]), s.brownOutFirst_diesOff⟩
  · have hpowered : s.powered = true := by
      unfold powered
      revert h hasleep
      cases s.power.phase <;> simp
    exact ⟨_, exec_rstNLow_powered hmask hhigh hpowered, hlow, hphase.trans (by simp [hasleep]), hreset⟩

end

theorem exec_rstNHigh_high (h : s.power.rstLow = false) : exec .rstNHigh s = .next s := congrArg _ (if_pos (by rw [h]; rfl))

section
variable (hlow : s.power.rstLow = true)
include hlow

theorem exec_rstNHigh_eq : exec .rstNHigh s =
    .next (if s.power.phase = .inReset then s.raiseReset.passUnknown.releaseReset else s.raiseReset) :=
  congrArg _ (if_neg (by rw [hlow]; decide))

theorem exec_rstNHigh_releases (h : s.power.phase = .inReset) :
    exec .rstNHigh s = .next s.raiseReset.passUnknown.releaseReset := by
  rw [exec_rstNHigh_eq hlow, if_pos h]

theorem exec_rstNHigh_elsewhere (h : s.power.phase ≠ .inReset) : exec .rstNHigh s = .next s.raiseReset := by
  rw [exec_rstNHigh_eq hlow, if_neg h]

end

/-- The ball is masked, and a reset that was stuck on it is over. -/
def maskReset (s : State) : State :=
  { s with power := { s.power with rstLow := false }, start := { s.start with rstMask := true, stuck := true } }

/-- What waited for the ball goes on after the 8 s (R484). -/
def releaseStuck (s : State) : State := ((s.maskReset.passCounts (8 * 32768)).passUnknown).releaseReset

theorem exec_resetStuck_ignored (h : s.start.rstMask = true ∨ s.power.rstLow = false) : exec .resetStuck s = .next s := by
  refine congrArg _ (if_pos ?_)
  rcases h with h | h <;> simp [h]

theorem exec_resetStuck_masks (hmask : s.start.rstMask = false) (hlow : s.power.rstLow = true) : exec .resetStuck s =
    .next (if s.power.phase = .inReset then s.releaseStuck else s.maskReset) :=
  congrArg _ (if_neg (by rw [hmask, hlow]; decide))

theorem releaseStuck_leaves (s : State) :
    s.releaseStuck.start = { s.start with rstMask := true, stuck := true } ∧ s.releaseStuck.power.rstLow = false := by
  obtain ⟨hstart, hlow⟩ := releaseReset_leaves (s.maskReset.passCounts (8 * 32768)).passUnknown
  exact ⟨hstart, hlow⟩

theorem releaseStuck_starts (h : s.power.vinOk = true) : s.releaseStuck.power.phase = .coldStart := by
  have hvin : (s.maskReset.passCounts (8 * 32768)).passUnknown.power.vinOk = true := by
    rw [passUnknown_power, passCounts_power]
    exact h
  rw [releaseStuck, releaseReset_of_vinOk hvin, toStart_cold_phase]

end State

open State

/-- Settles O60: sleep entry by what is due, each wake source by the phase, and RST_N by the phase that it finds. -/
theorem sleepWakeAndResetFollowThePhases : Obligations.SleepWakeAndResetFollowThePhases := by
  intro ab levels w s p
  refine ⟨exec_sleepEntry_idle, fun n hdue hawake => ⟨fun hnone => ?asleep, fun hlatched => ?wakesAgain⟩, exec_wakeSource_unfit,
    fun hasleep hfit => ⟨fun hvin => ?latches, fun hvin => ?wakes⟩, exec_wakeSource_off, exec_rstNLow_ignored,
    fun hmask hhigh => ⟨exec_rstNLow_unpowered hmask hhigh, fun hpowered => ?resets⟩, exec_rstNHigh_high,
    exec_rstNHigh_elsewhere, fun hlow hreset hvin => ?starts, exec_resetStuck_ignored, fun hmask hlow => ?stuck, rfl⟩
  case asleep =>
    obtain ⟨hpower, hsto, hvalid, htime⟩ := s.entrySteps_ends ab
    obtain ⟨hphase, hsleeps, htimer, hen, hlevels⟩ := s.fallAsleep_power (s.entrySteps ab) levels n
    obtain ⟨hretention, hready, hwords, hsafety⟩ := s.fallAsleep_rest (s.entrySteps ab) levels n
    refine ⟨s.fallAsleep (s.entrySteps ab) levels n, ?_, hphase, ?_, htimer, hen, hlevels, ?_, ?_, hready, hwords, fun i => ?_⟩
    · rw [exec_sleepEntry_due hdue hawake, if_neg (not_not.mpr hnone)]
    · rw [hsleeps, hpower]
    · rw [hretention, hvalid]
    · rw [hretention, htime]
    · rw [hsafety]
      exact hsto i
  case wakesAgain =>
    refine ⟨(s.fallAsleep (s.entrySteps ab) levels n).wake false, ?_, ?_⟩
    · rw [exec_sleepEntry_due hdue hawake, if_pos hlatched]
    · rw [wake_phase]
      split
      · exact .inl rfl
      · exact .inr rfl
  case latches => rw [exec_wakeSource_fits hasleep hfit, if_neg (Bool.eq_false_iff.mp hvin)]
  case wakes =>
    have hallowed : (s.latchSource w).warmAllowed = s.warmAllowed := warmAllowed_congr rfl rfl
    refine ⟨(s.latchSource w).wake false, ?_, ?_, fun hlatched htimer => ?_⟩
    · rw [exec_wakeSource_fits hasleep hfit, if_pos hvin]
    · rw [wake_phase, hallowed]
    · rw [wake_cause, wakeCause_latchSource hlatched htimer]
      cases w <;> rfl
  case resets =>
    obtain ⟨t, hexec, hlow, hphase, hsto, hrunning, -, hretention, htotals, hlog⟩ := exec_rstNLow_resets hmask hhigh hpowered
    exact ⟨t, hexec, hlow, hphase, hsto, hrunning, hretention, htotals, hlog⟩
  case starts =>
    have hholds : s.raiseReset.passUnknown.power.vinOk = true := hvin
    exact ⟨_, (exec_rstNHigh_releases hlow hreset).trans (congrArg _ (releaseReset_of_vinOk hholds)), rfl, rfl, rfl⟩
  case stuck =>
    refine ⟨_, exec_resetStuck_masks hmask hlow, ?_⟩
    by_cases hreset : s.power.phase = .inReset
    · obtain ⟨hstart, hraised⟩ := s.releaseStuck_leaves
      rw [if_pos hreset]
      exact ⟨hstart, hraised, fun _ hvin => releaseStuck_starts hvin, fun hother => absurd hreset hother⟩
    · rw [if_neg hreset]
      exact ⟨rfl, rfl, fun hin => absurd hin hreset, fun _ => rfl⟩

end Sys2Proof.Machine
end
